-- ==== Sys2Proof/Word.lean ====
section
/-!
DEFINITION. Words, bit fields, byte strings and the finite map that every table of the state is held in.
-/
namespace Sys2Proof

/-- A byte. -/
abbrev Byte := BitVec 8

/-- A finite map by Nat key: a list of pairs with rising keys, so that equal maps are equal data. -/
abbrev SMap (α : Type) := List (Nat × α)

/-- The value at a key. -/
def SMap.get? {α : Type} : SMap α → Nat → Option α
  | [], _ => none
  | (a, v) :: t, k => if k = a then some v else SMap.get? t k

/-- The value at a key, or a default. -/
def SMap.getD {α : Type} (m : SMap α) (k : Nat) (d : α) : α := (SMap.get? m k).getD d

/-- The map with a key set, in rising order. -/
def SMap.put {α : Type} : SMap α → Nat → α → SMap α
  | [], k, v => [(k, v)]
  | (a, w) :: t, k, v =>
    if k < a then (k, v) :: (a, w) :: t
    else if k = a then (k, v) :: t
    else (a, w) :: SMap.put t k v

/-- The map without a key. -/
def SMap.del {α : Type} (m : SMap α) (k : Nat) : SMap α := List.filter (fun p => p.1 != k) m

/-- The map without the keys that a test picks. -/
def SMap.drop' {α : Type} (m : SMap α) (f : Nat → Bool) : SMap α := List.filter (fun p => !f p.1) m

/-- Keys strictly rising. -/
def SMap.sorted {α : Type} : SMap α → Bool
  | [] => true
  | [_] => true
  | (a, _) :: (b, w) :: t => decide (a < b) && SMap.sorted ((b, w) :: t)

/-- The difference a - b, in a form that waits for a alone, so that a proof about an unknown a need not count b down. -/
def less (a b : Nat) : Nat :=
  match a with
  | 0 => 0
  | n + 1 => n + 1 - b

/-- Bits lo upward, w of them, of a number. -/
def bits (x lo w : Nat) : Nat := (x >>> lo) % 2 ^ w

/-- Bit i of a number. -/
def bit (x i : Nat) : Bool := x.testBit i

/-- A number with w bits at lo replaced. -/
def setBits (x lo w v : Nat) : Nat :=
  x - (bits x lo w) * 2 ^ lo + (v % 2 ^ w) * 2 ^ lo

/-- A bit as a number. -/
def b2n (b : Bool) : Nat := if b then 1 else 0

/-- The sum that stays at a limit (a saturating counter). -/
def satAdd (limit x n : Nat) : Nat := min limit (x + n)

/-- n little-endian bytes of a number (R6). -/
def leBytes : Nat → Nat → List Nat
  | 0, _ => []
  | n + 1, x => x % 256 :: leBytes n (x / 256)

/-- The number that little-endian bytes spell (R6). -/
def ofLe : List Nat → Nat
  | [] => 0
  | b :: t => b % 256 + 256 * ofLe t

/-- Ceiling division. -/
def ceilDiv (a b : Nat) : Nat := (a + b - 1) / b

/-- The numbers 0 to n - 1 for which a test holds. -/
def pick (n : Nat) (f : Nat → Bool) : List Nat := (List.range n).filter f

/-- A mask with the bits that a test picks. -/
def maskOf (n : Nat) (f : Nat → Bool) : Nat := (pick n f).foldl (fun a i => a + 2 ^ i) 0

/-- A mask with bit i set. -/
def setBit (m i : Nat) : Nat := if m.testBit i then m else m + 2 ^ i

/-- A mask with bit i clear. -/
def clrBit (m i : Nat) : Nat := if m.testBit i then m - 2 ^ i else m

end Sys2Proof
end

