-- ==== Sys2Proof/Syntax.lean ====
section
/-!
DEFINITION. The commands of the block: one constructor per row of the operation table, and the operand types they carry.
What the spec leaves to the outside (a host's request, what a burst reads back from the modules, an engine's choice, a
measured temperature) is an operand of the command.
-/
namespace Sys2Proof

/-- MetaValue of a host request (R201): I, S or A. -/
inductive MetaValue where
  | i | s | a
  deriving DecidableEq, Repr

/-- The answer a BIRsp carries (R201). -/
inductive BiAnswer where
  | i | s | e
  deriving DecidableEq, Repr

/-- What the modules return in place of the stored 640 bits of a line, as flipped bits: the first burst, the refetch, and
the same pair for each recomputation source (R38, R39). -/
structure Bursts where
  first : BitVec 640 := 0
  second : BitVec 640 := 0
  srcs : List (BitVec 640 × BitVec 640) := []
  deriving DecidableEq, Repr

/-- Where an engine places a page (R108): a frame number, or a chunk-descriptor index. -/
inductive Place where
  | frame (f : BitVec 36)
  | desc (x : BitVec 40)
  | none
  deriving DecidableEq, Repr

/-- The path a management command takes (R262). -/
inductive CmdSrc where
  | mbx (slot : Fin 7)
  | fmLd
  | i3c
  | hostLd (p : Fin 8) (ld : Fin 16)
  deriving DecidableEq, Repr

/-- The path of a register access (R402, R414). -/
inductive Path where
  | bar
  | fenbo
  | engine (e : Fin 64)
  /-- BAR0 of a host LD (R414) -/
  | host (p : Fin 8) (ld : Fin 16)
  deriving DecidableEq, Repr

/-- The three rings a reader consumes by writing TAIL (R433). -/
inductive Ring where
  | manager
  | fault (p : Fin 8) (ld : Fin 16) (vi : BitVec 16)
  | samples (n : Fin 16)
  deriving DecidableEq, Repr

/-- What a link trained to, with the host's credit advertisement (R235, R239). -/
structure LinkTrain where
  /-- 0: below 32 GT/s; 1: 32 GT/s; 2: 64 GT/s -/
  speed : Fin 3
  x8 : Bool
  latOpt : Bool
  ndr : BitVec 10
  drs : BitVec 10
  bisnp : BitVec 10
  deriving DecidableEq, Repr

/-- An HDM decoder as a host programs it (R242). Ways code 0-7 is 1, 2, 4, 8, 16, 3, 6, 12 ways; granularity code g is
256 B × 2^g; pos is this device's place in the interleave set (CXL 3.1; PRESUMED). -/
structure HdmDecoder where
  base : BitVec 52
  size : BitVec 52
  ways : Fin 8
  gran : Fin 7
  pos : Fin 16
  skipG : BitVec 18
  hdmDb : Bool
  deriving DecidableEq, Repr

/-- What the SPD of one channel's modules says (R52, R53). Width code 0 is x4 and 1 is x8; density in Gb; rates in MT/s. -/
structure Spd where
  mrdimm : Bool
  modules : Fin 3
  ranks : Nat
  devX8 : Bool
  density : Nat
  capacityG : Nat
  rates : List Nat
  identical : Bool
  serial0 : BitVec 32
  serial1 : BitVec 32
  deriving DecidableEq, Repr

/-- A timing set of the image (R389 type 5): module type, rate and the 32 words of R79. -/
structure ImgTiming where
  mrdimm : Bool
  rate : Nat
  words : List (BitVec 32)
  deriving DecidableEq, Repr

/-- The contents of a Truss image that a boot applies (R387, R389). -/
structure Image where
  profile : Fin 4
  seq : BitVec 32
  regs : List (BitVec 26 × BitVec 32)
  tables : List (Fin 24 × List (BitVec 64))
  policy : List (BitVec 16 × BitVec 32 × BitVec 32 × BitVec 32)
  timing : List ImgTiming
  rootOrder : List (Fin 8)
  backup : Option (Fin 8)
  autoArm : Bool
  managerPort : Fin 8
  metaSpan : Fin 8
  gradeE : Bool
  deriving DecidableEq, Repr

/-- The commands of the block, one per row of the operation table. -/
inductive Instr where
  /-- MEMRD (R25): A host M2S Req MemRd is received, decoded, translated, ordered at the home, admitted by the Pacer and sent to the Pier. -/
  | memrd (p : Fin 8) (ld : Fin 16) (hpa : BitVec 52) (mv : MetaValue)
  /-- MEMRDDATA (R201): A host MemRdData without caching is received and served like a read that grants no caching rights. -/
  | memrddata (p : Fin 8) (ld : Fin 16) (hpa : BitVec 52)
  /-- MEMWR (R26): A full-line host M2S RwD MemWr is received, translated, ordered at the home and sent to the Pier write queue. -/
  | memwr (p : Fin 8) (ld : Fin 16) (hpa : BitVec 52) (mv : MetaValue) (data : BitVec 512)
  /-- MEMWRPTL (R27): A host partial write is received and carried out by the Pier as a read-modify-write under the home's ordering. -/
  | memwrptl (p : Fin 8) (ld : Fin 16) (hpa : BitVec 52) (mv : MetaValue) (data : BitVec 512) (mask : BitVec 64)
  /-- MEMCLNEVCT (R201): A host MemClnEvct removes the port from SHARERS and is completed without a Pier access. -/
  | memclnevct (p : Fin 8) (ld : Fin 16) (hpa : BitVec 52)
  /-- MEMINV (R201): A host MemInv with MetaValue I is handled as MemClnEvct. -/
  | meminv (p : Fin 8) (ld : Fin 16) (hpa : BitVec 52)
  /-- BIRSP (R201): A BIRsp arrives from a host and completes its outstanding BISnp. -/
  | birsp (p : Fin 8) (tag : Fin 64) (r : BiAnswer)
  /-- BICONFLICT (R208): A host answers a BISnp with BIConflict, and the home sends BIConflictAck after the host's earlier completions. -/
  | biconflict (p : Fin 8) (tag : Fin 64)
  /-- BI_TIMEOUT (R209): A BISnp has had no BIRsp for 1 ms, so the port is treated as holding no copy and is marked lost. -/
  | biTimeout (p : Fin 8) (tag : Fin 64)
  /-- REQ_TIMEOUT (R255): An accepted request has no internal answer after 2 ms and is completed by the port with poison or NDR Cmp. -/
  | reqTimeout (id : BitVec 32)
  /-- WALK (R84): The walker receives a table line and either descends, fills the TLB or faults. -/
  | walk (id : BitVec 32) (b : Bursts)
  /-- COMPARE_AND_WRITE (R91): An atomic compare-and-write of an entry is ordered at the home and succeeds or fails. -/
  | compareAndWrite (eng : Fin 64) (da : BitVec 48) (old : BitVec 64) (new : BitVec 64) (b : Bursts)
  /-- MOVE_HOLD_EXPIRED (R93): A write held under M for 4 µs is resolved by clearing M or by walking again. -/
  | moveHoldExpired (id : BitVec 32) (b : Bursts)
  /-- WRITE_HELD_DROPPED (R94): A write held under W for 2 ms is discarded and completed. -/
  | writeHeldDropped (id : BitVec 32)
  /-- ALLOC_TIMEOUT (R95): A write held for allocation for 1 ms is discarded and completed. -/
  | allocTimeout (id : BitVec 32)
  /-- PORT_TLB_INV (R99): GO in PORT_TLB_INV starts a TLB invalidation of the scope. -/
  | portTlbInv (p : Fin 8)
  /-- PORT_WALK_INV (R99): GO in PORT_WALK_INV starts a walk-cache invalidation of the scope. -/
  | portWalkInv (p : Fin 8)
  /-- INVALIDATION_DONE (R99): The invalidation's walks, translations and held writes have drained, so BUSY clears and DONE increments. -/
  | invalidationDone (p : Fin 8)
  /-- LINE_BURST (R38): A line burst is captured and checked, and the Pier returns it, refetches, recomputes or ends it uncorrectable. -/
  | lineBurst (id : BitVec 32) (flip : BitVec 640)
  /-- RECOMPUTE (R39): The recomputation sources have returned, and the line is rebuilt or ends uncorrectable. -/
  | recompute (id : BitVec 32) (b : Bursts)
  /-- WRITE_QUEUE_ACCEPT (R26): The Pier accepts a write into its write queue, signals acceptance, and the port sends NDR Cmp. -/
  | writeQueueAccept (id : BitVec 32) (mirror : Bool)
  /-- WRITE_DRAIN (R62): The Pier drains a batch of writes to DRAM, encrypting each line under a new counter. -/
  | writeDrain (n : Fin 16) (sub : Fin 2) (count : Fin 129)
  /-- OVERFLOW_STEP (R175): An overflow job re-encrypts one line under the new MAJOR and sets its done bit. -/
  | overflowStep (da : BitVec 48) (b : Bursts)
  /-- REFRESH (R64): A refresh falls due and is issued. -/
  | refresh (n : Fin 16) (rank : Fin 8)
  /-- MR4_POLL (R64): The Pier polls MR4 every 16 ms and sets the refresh interval. -/
  | mr4Poll (n : Fin 16) (hot : Bool)
  /-- ZQCAL_START (R66): The engines issue MPC ZQCAL START to each rank before a pause. -/
  | zqcalStart (n : Fin 16) (sub : Fin 2)
  /-- TRAIN_PAUSE (R66): A periodic retraining pause of one subchannel falls due and starts. -/
  | trainPause (n : Fin 16) (sub : Fin 2)
  /-- TRAIN_PAUSE_END (R67): A pause ends and applies limited centre updates. -/
  | trainPauseEnd (n : Fin 16) (sub : Fin 2) (limited : BitVec 8) (delays : List (BitVec 36))
  /-- SWITCH (R69): A write of PIER_SPEED.SWITCH starts or queues a frequency change, or is refused. -/
  | switch (n : Fin 16)
  /-- TIMING_SET_WRITE (R69): A write to a timing set is taken, or refused when it targets the active set. -/
  | timingSetWrite (n : Fin 16) (set : Fin 2) (off : Fin 32) (v : BitVec 32)
  /-- FREQ_CHANGE_DONE (R70): A channel's frequency change completes, and a queued change may start. -/
  | freqChangeDone (n : Fin 16)
  /-- PIER_LIU_CTL_WRITE (R45): A write to PIER_LIU_CTL stops or starts scrub, or sets the scrub and retirement parameters. -/
  | pierLiuCtlWrite (n : Fin 16) (v : BitVec 32)
  /-- SCRUB_STEP (R47): A paced scrub step reads and checks one line. -/
  | scrubStep (n : Fin 16) (b : Bursts)
  /-- SCRUB_PERIOD_END (R49): The scrub period ends; a late pass continues. -/
  | scrubPeriodEnd (n : Fin 16)
  /-- UE_WINDOW_TICK (R46): An hourly bucket of the uncorrectable window expires. -/
  | ueWindowTick (n : Fin 16)
  /-- SPARING_START (R75): The engines choose a spare for a retired rank, or find none. -/
  | sparingStart (n : Fin 16) (rank : Fin 8)
  /-- SPARE_COPY_STEP (R72): A sparing copy job copies the line at B to the spare and advances B. -/
  | spareCopyStep (n : Fin 16) (b : Bursts)
  /-- RETIRE_UNCOPIED (R76): A write of RETIRE_UNCOPIED takes TARGET out of service without a copy. -/
  | retireUncopied (n : Fin 16)
  /-- SPARE_REBUILD_STEP (R76): A rebuild job writes the recomputed or poisoned line at B to the spare. -/
  | spareRebuildStep (n : Fin 16) (b : Bursts)
  /-- HEAT_UPDATE (R113): Every 1 ms the engines fold sample records into the heat array and advance TAIL. -/
  | heatUpdate
  /-- HEAT_DECAY (R113): Every DECAY_MS the engines decay every heat value. -/
  | heatDecay
  /-- PAGE_ALLOCATE (R108): An engine answers an allocation doorbell by placing the page and releasing the held write. -/
  | pageAllocate (id : BitVec 32) (place : Place)
  /-- MOVE_START (R117): An engine logs a move, sets M by compare-and-write and starts the first invalidation. -/
  | moveStart (eng : Fin 64) (vi : BitVec 16) (page : BitVec 45) (dest : Place)
  /-- MOVE_COPY_DONE (R117): The copy to D ends, and the engine names D in the leaf or abandons the move. -/
  | moveCopyDone (vi : BitVec 16) (page : BitVec 45) (bs : List Bursts) (streams : List (List (BitVec 8)))
  /-- MOVE_FINISH (R117): The second invalidation is acknowledged, so S is freed and the log cleared. -/
  | moveFinish (vi : BitVec 16) (page : BitVec 45)
  /-- MOVE_LOG_RESOLVE (R120): On engine resumption, every logged move is resolved from its leaf. -/
  | moveLogResolve (vi : BitVec 16) (page : BitVec 45)
  /-- PRESSURE_LADDER (R128): The engines re-evaluate the free fraction and activate or end ladder steps. -/
  | pressureLadder
  /-- T2_LINE_READ (R143): The descriptor Pier resolves a T2 line read and requests its sector lines. -/
  | t2LineRead (id : BitVec 32) (b : Bursts)
  /-- SUBBLOCK_DECODE (R136): The decompressor finishes a sub-block, or rejects it and forces a recomputation. -/
  | subblockDecode (id : BitVec 32) (bs : List Bursts)
  /-- T2_WRITE (R151): The descriptor Pier and its copy accept a T2 write into a write-buffer entry. -/
  | t2Write (id : BitVec 32) (copy : Bool)
  /-- SUBBLOCK_REWRITE (R152): The descriptor Pier rewrites the sub-block of a write-buffer entry into new sectors. -/
  | subblockRewrite (d : BitVec 40) (sb : Fin 4) (bs : List Bursts) (stream : List (BitVec 8))
  /-- STRIPE_CLOSE (R147): An open stripe closes when it is full, times out or is forced, and is written as one sector-stripe write. -/
  | stripeClose (n : Fin 16) (stripe : BitVec 32)
  /-- STRIPE_WRITTEN (R147): All 16 units are accepted, so the stripe counts as written. -/
  | stripeWritten (stripe : BitVec 32)
  /-- PIER_PS_PUSH (R159): A write to PIER_PS_PUSH queues a free stripe, or sets PUSH_REFUSED. -/
  | pierPsPush (n : Fin 16) (v : BitVec 32)
  /-- GC_SELECT (R154): Garbage collection picks a stripe, sets CLEANING and posts relocation jobs. -/
  | gcSelect (stripe : BitVec 32)
  /-- RELOCATION (R154): The descriptor Pier copies a relocated sub-block's sectors into a new stripe. -/
  | relocation (d : BitVec 40) (sb : Fin 4) (bs : List Bursts)
  /-- RELOCATION_COMMIT (R155): After the new stripe is written, the record is switched or the copy is dead. -/
  | relocationCommit (d : BitVec 40) (sb : Fin 4)
  /-- HUB_KEY_LOAD (R163): GO loads the stage into a FREE slot, or is refused. -/
  | hubKeyLoad (v : BitVec 32)
  /-- HUB_KEY_CLEAR (R163): GO zeroises a LOADED slot, or is refused. -/
  | hubKeyClear (v : BitVec 32)
  /-- KMAP_WRITE (R191): A write to HUB_KMAP_DATA updates a key map entry, or is refused. -/
  | kmapWrite (v : BitVec 32)
  /-- REGION_SETUP (R183): The engines map granules to a LOADED slot and start initialising counter storage. -/
  | regionSetup (src : CmdSrc) (req : List (BitVec 8)) (ctrBase : BitVec 36) (lvlBases : List (BitVec 36))
  /-- REGION_INIT_DONE (R173): The counter storage is initialised, so the slot becomes ACTIVE. -/
  | regionInitDone (slot : Fin 16)
  /-- ROTATE_KEY (R184): A rotation from an ACTIVE source into a LOADED destination starts, or is refused. -/
  | rotateKey (src : CmdSrc) (req : List (BitVec 8)) (ctrBase : BitVec 36) (lvlBases : List (BitVec 36))
  /-- ROTATION_STEP (R185): A rotation job re-encrypts the line at B under the destination and advances B. -/
  | rotationStep (b : Bursts)
  /-- STRIPE_ROTATION_STEP (R187): In a packed-store span, B advances by re-encrypting a whole stripe. -/
  | stripeRotationStep (bs : List Bursts)
  /-- REBUILD_TRUSTING (R182): A lost counter line or node is rebuilt under new versions. -/
  | rebuildTrusting (src : CmdSrc) (req : List (BitVec 8)) (bs : List Bursts)
  /-- REGION_RELEASE (R183): An ACTIVE region is released and its slot freed. -/
  | regionRelease (src : CmdSrc) (req : List (BitVec 8))
  /-- COUNTER_REQUEST (R168): The counter Pier receives a counter request and answers the data Pier. -/
  | counterRequest (id : BitVec 32)
  /-- COUNTER_FETCH (R179): A counter line or node fetched from DRAM is checked against its parent's version. -/
  | counterFetch (da : BitVec 48) (b : Bursts)
  /-- COUNTER_WRITEBACK (R179): A dirty counter line or node is written back after the parent acknowledges. -/
  | counterWriteback (da : BitVec 48)
  /-- VERSION_INCREMENT (R179): The parent's counter Pier applies a version increment and acknowledges. -/
  | versionIncrement (da : BitVec 48)
  /-- DIR_FLUSH (R200): Writing DIR_FLUSH writes back dirty entries and recalls T2 entries. -/
  | dirFlush
  /-- DIRECTORY_WRITEBACK (R198): The Pier reads a line and writes it back with updated directory fields. -/
  | directoryWriteback (da : BitVec 48) (b : Bursts)
  /-- HOST_SWEEP_STEP (R210): The host-loss sweep reads and corrects one line. -/
  | hostSweepStep (p : Fin 8) (vi : BitVec 16) (page : BitVec 45) (line : Fin 64) (b : Bursts)
  /-- CREATE_VI (R218): A VI is created from a FREE tag, or the command is refused. -/
  | createVi (src : CmdSrc) (req : List (BitVec 8)) (tpool : BitVec 36) (descBase : BitVec 40)
  /-- VI_CREATE_DONE (R217): The tables are built and assured pages backed, so the VI becomes QUIESCED. -/
  | viCreateDone (vi : BitVec 16)
  /-- BIND_VI (R222): A QUIESCED VI is bound to ports and made ACTIVE, or unbound. -/
  | bindVi (src : CmdSrc) (req : List (BitVec 8))
  /-- QUIESCE_VI (R225): An ACTIVE or FROZEN VI starts quiescing. -/
  | quiesceVi (src : CmdSrc) (req : List (BitVec 8))
  /-- QUIESCE_DONE (R225): Drain, invalidation and recall complete, so the VI becomes QUIESCED. -/
  | quiesceDone (vi : BitVec 16)
  /-- VI_NOT_ACTIVE (R225): A request held at window lookup for 1 ms is refused. -/
  | viNotActive (id : BitVec 32)
  /-- RESET_VI (R223): A QUIESCED VI is returned to its state at creation. -/
  | resetVi (src : CmdSrc) (req : List (BitVec 8))
  /-- REMOVE_VI (R223): A QUIESCED VI is reset, stripped of its resources and freed. -/
  | removeVi (src : CmdSrc) (req : List (BitVec 8))
  /-- RELAY_FREEZE (R228): W is set in every leaf, and the VI becomes FROZEN. -/
  | relayFreeze (src : CmdSrc) (req : List (BitVec 8))
  /-- RELAY_THAW (R217): W is cleared, held writes are released and the VI becomes ACTIVE. -/
  | relayThaw (src : CmdSrc) (req : List (BitVec 8))
  /-- DIRTY_LOG_START (R232): Dirty-page logging starts with a cleared bitmap. -/
  | dirtyLogStart (src : CmdSrc) (req : List (BitVec 8)) (base : BitVec 36)
  /-- DIRTY_LOG_STOP (R232): Dirty-page logging stops and the bitmap is freed. -/
  | dirtyLogStop (src : CmdSrc) (req : List (BitVec 8))
  /-- RELAY_SAVE_FULL (R229): A FULL blob of the range is written into the staging VI. -/
  | relaySaveFull (src : CmdSrc) (req : List (BitVec 8)) (bs : List Bursts)
  /-- RELAY_SAVE_DELTA (R232): A DELTA blob of the dirty pages is written and their bits cleared. -/
  | relaySaveDelta (src : CmdSrc) (req : List (BitVec 8)) (bs : List Bursts)
  /-- RELAY_RESTORE_NEW (R231): A new VI is created from a blob and its records applied. -/
  | relayRestoreNew (src : CmdSrc) (req : List (BitVec 8)) (tpool : BitVec 36) (descBase : BitVec 40) (places : List Place)
  /-- RELAY_RESTORE_APPLY (R231): A later blob is applied to an existing RESTORED VI. -/
  | relayRestoreApply (src : CmdSrc) (req : List (BitVec 8)) (places : List Place)
  /-- VI_DOORBELL (R227): A write to VI_DOORBELL raises VI_DOORBELL to the manager queue, with coalescing. -/
  | viDoorbell (p : Fin 8) (ld : Fin 16) (vi : BitVec 16) (v : BitVec 32)
  /-- FQ_MISSED_CLEAR (R227): CLEAR in VI_FQ_MISSED clears COUNT and MAX. -/
  | fqMissedClear (p : Fin 8) (ld : Fin 16) (vi : BitVec 16) (v : BitVec 32)
  /-- VI_TEL_UPDATE (R227): The engines update the per-VI telemetry of the VI pages every 1 s. -/
  | viTelUpdate
  /-- GET_KENEZ_INFO (R263): Returns the part, raw capacity, exposure limit, profile and manager port. -/
  | getKenezInfo (src : CmdSrc)
  /-- POLICY_GET (R321): Returns a policy parameter's value and limits. -/
  | policyGet (src : CmdSrc) (req : List (BitVec 8))
  /-- POLICY_SET (R324): Changes a policy parameter, or is refused. -/
  | policySet (src : CmdSrc) (req : List (BitVec 8))
  /-- LINK_DOWN (R259): DL_Down stops acceptance, holds responses and starts the grace period. -/
  | linkDown (p : Fin 8)
  /-- LINK_UP (R259): DL_Up discards held responses and re-initialises credits. -/
  | linkUp (p : Fin 8) (t : LinkTrain)
  /-- LINK_GRACE_END (R259): The grace period ends with the link down, so the port is marked lost. -/
  | linkGraceEnd (p : Fin 8)
  /-- PERST_N (R257): Asserting Hk_PERST_N resets the port and ends its grace period. -/
  | perstN (p : Fin 8)
  /-- IDE_FAIL (R254): An IDE MAC failure discards the flits and takes the link down. -/
  | ideFail (p : Fin 8)
  /-- IDE_KM (R253): The IDE keys of a stream are programmed or refreshed over SPDM. -/
  | ideKm (p : Fin 8) (mem : Bool) (key : BitVec 256)
  /-- L0P_EVALUATE (R240): The port asks the host to narrow or widen the link from its recent traffic. -/
  | l0pEvaluate (p : Fin 8)
  /-- L0P_WIDTH_CHANGE (R240): A width change asked for by the host is accepted and reported to the Pacer. -/
  | l0pWidthChange (p : Fin 8) (width : Fin 4)
  /-- HDM_DECODER_COMMIT (R242): A host commits an HDM decoder. -/
  | hdmDecoderCommit (p : Fin 8) (ld : Fin 16) (i : Fin 8) (d : HdmDecoder)
  /-- SET_LD_ALLOCATIONS (R241): The FM API sets an LD's DPA capacity. -/
  | setLdAllocations (src : CmdSrc) (p : Fin 8) (ld : Fin 16) (capG : BitVec 18) (dcG : List (BitVec 36)) (sharable : BitVec 8)
  /-- INITIATE_DC_ADD (R245): An elastic extent is offered to the hosts, or refused. -/
  | initiateDcAdd (src : CmdSrc) (vi : BitVec 16) (start : BitVec 32) (blocks : BitVec 32)
  /-- ADD_DC_RESPONSE (R245): The host accepts or declines offered extents. -/
  | addDcResponse (p : Fin 8) (ld : Fin 16) (vi : BitVec 16) (start : BitVec 32) (accept : BitVec 32)
  /-- RELEASE_DC (R246): The host releases an extent, and elastic pages return to unbacked. -/
  | releaseDc (p : Fin 8) (ld : Fin 16) (vi : BitVec 16) (start : BitVec 32) (blocks : BitVec 32)
  /-- GET_POISON_LIST (R248): Returns an LD's poison list. -/
  | getPoisonList (p : Fin 8) (ld : Fin 16)
  /-- INJECT_POISON (R249): Rewrites a line with POISON as an invalidating write. -/
  | injectPoison (p : Fin 8) (ld : Fin 16) (dpa : BitVec 52)
  /-- CLEAR_POISON (R249): Writes the given 64 bytes as a full-line invalidating write. -/
  | clearPoison (p : Fin 8) (ld : Fin 16) (dpa : BitVec 52) (data : BitVec 512)
  /-- SCAN_MEDIA (R250): Starts a background scan of an LD's DPA range. -/
  | scanMedia (p : Fin 8) (ld : Fin 16) (dpa : BitVec 52) (lines : BitVec 32)
  /-- SCAN_MEDIA_STEP (R250): The scan reads and checks one line. -/
  | scanMediaStep (p : Fin 8) (ld : Fin 16) (b : Bursts)
  /-- GET_SCAN_MEDIA_CAPABILITIES (R250): Returns the scan time estimate. -/
  | getScanMediaCapabilities (p : Fin 8) (ld : Fin 16) (dpa : BitVec 52) (lines : BitVec 32)
  /-- GET_SCAN_MEDIA_RESULTS (R250): Returns the poisoned lines found by the scan. -/
  | getScanMediaResults (p : Fin 8) (ld : Fin 16)
  /-- TRANSFER_FW (R386): Writes an image into the inactive slot. -/
  | transferFw (p : Fin 8) (off : BitVec 32) (bytes : List (BitVec 8))
  /-- ACTIVATE_FW (R386): Rewrites the boot header to name the new slot. -/
  | activateFw (p : Fin 8)
  /-- GET_QOS_STATUS (R237): Returns measured QoS values. -/
  | getQosStatus (src : CmdSrc) (p : Fin 8)
  /-- GET_BACKGROUND_OPERATION_STATUS (R263): Returns the status of a background command. -/
  | getBackgroundOperationStatus (src : CmdSrc)
  /-- TUNNEL_MANAGEMENT_COMMAND (R262): Carries an FM API command through the FM-owned LD's mailbox. -/
  | tunnelManagementCommand (src : CmdSrc) (p : Fin 8) (ld : Fin 16) (capG : BitVec 18) (dcG : List (BitVec 36)) (sharable : BitVec 8)
  /-- UNSUPPORTED_COMMAND (R237): A command for an unimplemented feature returns Unsupported. -/
  | unsupportedCommand (src : CmdSrc) (opcode : BitVec 16)
  /-- URG_LEVEL_CHANGE (R275): A new URG level takes effect after two equal samples. -/
  | urgLevelChange (p : Fin 8) (level : Fin 4)
  /-- URG_OVERSTAY (R276): A port held at level 3 beyond URG3_MAX_MS is served at level 2. -/
  | urgOverstay (p : Fin 8)
  /-- URG_OVERSTAY_END (R276): The 100 ms of demotion ends. -/
  | urgOverstayEnd (p : Fin 8)
  /-- DELIVERABLE_REPORT (R269): A Pier reports Dp, and the Pacer recomputes D and the scales. -/
  | deliverableReport (n : Fin 16)
  /-- PACER_HOTSPOT (R271): Guaranteed requests exceed Dp for 100 µs, so HOT is set. -/
  | pacerHotspot (n : Fin 16)
  /-- PACER_PORT_GUAR_WRITE (R270): A write of a port guarantee is admitted or refused. -/
  | pacerPortGuarWrite (p : Fin 8) (v : BitVec 32)
  /-- PACER_CTL_WRITE (R270): A write of CEIL_PCT or EFF_PCT changes the ceiling and the scaling. -/
  | pacerCtlWrite (v : BitVec 32)
  /-- FLIT_RECEIVE (R288): A Viaduct flit is checked, then accepted, discarded or replay-requested. -/
  | flitReceive (l : Fin 20) (toDie : Bool) (flit : BitVec 640)
  /-- REPLAY_REQ (R289): A received REPLAY_REQ retransmits from ACK + 1. -/
  | replayReq (l : Fin 20) (toDie : Bool) (ack : BitVec 12)
  /-- REPLAY_TIMEOUT (R289): The oldest unacknowledged flit waits 1 µs, so a replay or retrain starts. -/
  | replayTimeout (l : Fin 20) (toDie : Bool)
  /-- DISCARD_REPEAT (R288): In DISCARD, the receiver repeats REPLAY_REQ every 1 µs. -/
  | discardRepeat (l : Fin 20) (toDie : Bool)
  /-- VIADUCT_INIT (R290): INIT flits are exchanged and credits advertised. -/
  | viaductInit (l : Fin 20)
  /-- PAUSE_REQ (R292): A LINK_CTL PAUSE_REQ stops traffic for a retrain. -/
  | pauseReq (l : Fin 20) (toDie : Bool)
  /-- PAUSE_ACK (R292): A LINK_CTL PAUSE_ACK answers a pause. -/
  | pauseAck (l : Fin 20) (toDie : Bool)
  /-- TRAIN_DONE (R292): A LINK_CTL TRAIN_DONE ends training and starts the replay. -/
  | trainDone (l : Fin 20)
  /-- RETRAIN_ATTEMPT_DONE (R292): A retrain attempt ends with a width and speed, a spare mapping, or no working width. -/
  | retrainAttemptDone (l : Fin 20) (tx : BitVec 64) (rx : BitVec 64)
  /-- VDT_RETRY (R293): Writing RETRY starts a widening retrain. -/
  | vdtRetry (l : Fin 20)
  /-- VDT_GRACE_RETRY (R296): In GRACE, a retrain attempt repeats every 10 µs. -/
  | vdtGraceRetry (l : Fin 20) (tx : BitVec 64) (rx : BitVec 64)
  /-- VDT_GRACE_END (R297): The grace period ends with the link down. -/
  | vdtGraceEnd (l : Fin 20)
  /-- NARROW_THROTTLE (R294): The engines write THROTTLE for a narrowed viaduct. -/
  | narrowThrottle (l : Fin 20)
  /-- JOB_POST (R305): An engine posts a job to a sequencer queue, or receives FULL. -/
  | jobPost (eng : Fin 64) (q : Fin 24) (desc : BitVec 512)
  /-- JOB_COMPLETION (R309): A job ends and a completion message goes to the posting engine. -/
  | jobCompletion (q : Fin 24) (ctx : Fin 512)
  /-- JOB_TIMEOUT (R309): An engine treats a job without a completion after 2 ms as failed. -/
  | jobTimeout (eng : Fin 64) (job : BitVec 16)
  /-- NOP (R303): Step NOP does nothing. -/
  | nop (q : Fin 24) (ctx : Fin 512)
  /-- WAIT (R303): Step WAIT stalls the context until its unit reports DONE. -/
  | wait (q : Fin 24) (ctx : Fin 512)
  /-- BR (R303): Step BR branches on a unit status bit. -/
  | br (q : Fin 24) (ctx : Fin 512)
  /-- JMP (R303): Step JMP continues at TARGET. -/
  | jmp (q : Fin 24) (ctx : Fin 512)
  /-- SET (R303): Step SET loads an immediate into a job register. -/
  | set (q : Fin 24) (ctx : Fin 512)
  /-- ADD (R303): Step ADD adds an immediate. -/
  | add (q : Fin 24) (ctx : Fin 512)
  /-- LOOP (R303): Step LOOP decrements and branches while the register is non-zero. -/
  | loop (q : Fin 24) (ctx : Fin 512)
  /-- CALL (R303): Step CALL pushes the return index and jumps. -/
  | call (q : Fin 24) (ctx : Fin 512)
  /-- RET (R303): Step RET pops and continues at the index. -/
  | ret (q : Fin 24) (ctx : Fin 512)
  /-- END (R303): Step END ends the job with a status. -/
  | endStep (q : Fin 24) (ctx : Fin 512)
  /-- DRAM_RD (R304): ISSUE of DRAM RD reads a line. -/
  | dramRd (q : Fin 24) (ctx : Fin 512) (flip : BitVec 640)
  /-- DRAM_WR (R304): ISSUE of DRAM WR writes a line. -/
  | dramWr (q : Fin 24) (ctx : Fin 512)
  /-- DRAM_RD_OTHER (R304): ISSUE of DRAM RD reads from the other copy of the sparing boundary. -/
  | dramRdOther (q : Fin 24) (ctx : Fin 512) (flip : BitVec 640)
  /-- LIU_CHECK (R304): ISSUE of LIU CHECK checks CRC-40 and the side bits. -/
  | liuCheck (q : Fin 24) (ctx : Fin 512)
  /-- LIU_GEN (R304): ISSUE of LIU GEN computes CRC-40. -/
  | liuGen (q : Fin 24) (ctx : Fin 512)
  /-- LIU_LOG_CE (R304): ISSUE of LIU LOG_CE logs a correctable event. -/
  | liuLogCe (q : Fin 24) (ctx : Fin 512)
  /-- LIU_COUNT_UE (R304): ISSUE of LIU COUNT_UE counts an uncorrectable event. -/
  | liuCountUe (q : Fin 24) (ctx : Fin 512)
  /-- CIPHER_KEYSTREAM (R304): ISSUE of CIPHER KEYSTREAM computes a keystream. -/
  | cipherKeystream (q : Fin 24) (ctx : Fin 512)
  /-- CIPHER_XOR (R304): ISSUE of CIPHER XOR applies the keystream. -/
  | cipherXor (q : Fin 24) (ctx : Fin 512)
  /-- TAG_CHECK (R304): ISSUE of CIPHER TAG_CHECK checks a TAG. -/
  | tagCheck (q : Fin 24) (ctx : Fin 512)
  /-- TAG_GEN (R304): ISSUE of CIPHER TAG_GEN computes a TAG. -/
  | tagGen (q : Fin 24) (ctx : Fin 512)
  /-- INFLATE (R304): ISSUE of CODEC INFLATE decompresses a stream. -/
  | inflate (q : Fin 24) (ctx : Fin 512)
  /-- DEFLATE (R304): ISSUE of CODEC DEFLATE compresses a sub-block. -/
  | deflate (q : Fin 24) (ctx : Fin 512) (stream : List (BitVec 8))
  /-- VERIFY (R304): ISSUE of CODEC VERIFY verifies a stream. -/
  | verify (q : Fin 24) (ctx : Fin 512)
  /-- ALLOC_PLACE (R304): ISSUE of ALLOC PLACE places sectors in an open stripe. -/
  | allocPlace (q : Fin 24) (ctx : Fin 512)
  /-- ALLOC_CLOSE (R304): ISSUE of ALLOC CLOSE closes a stripe. -/
  | allocClose (q : Fin 24) (ctx : Fin 512)
  /-- VDT_SEND (R304): ISSUE of VDT SEND sends a message on a traffic class. -/
  | vdtSend (q : Fin 24) (ctx : Fin 512)
  /-- CCACHE_GET (R304): ISSUE of CCACHE GET fetches a counter. -/
  | ccacheGet (q : Fin 24) (ctx : Fin 512)
  /-- CCACHE_ADVANCE (R304): ISSUE of CCACHE ADVANCE advances a counter. -/
  | ccacheAdvance (q : Fin 24) (ctx : Fin 512)
  /-- CCACHE_PIN (R304): ISSUE of CCACHE PIN pins a frame's counters. -/
  | ccachePin (q : Fin 24) (ctx : Fin 512)
  /-- CCACHE_UNPIN (R304): ISSUE of CCACHE UNPIN releases a pin. -/
  | ccacheUnpin (q : Fin 24) (ctx : Fin 512)
  /-- XLAT_LOOKUP (R304): ISSUE of XLAT LOOKUP looks up the TLB. -/
  | xlatLookup (q : Fin 24) (ctx : Fin 512)
  /-- XLAT_WALK (R304): ISSUE of XLAT WALK starts a walk. -/
  | xlatWalk (q : Fin 24) (ctx : Fin 512)
  /-- XLAT_HOLD (R304): ISSUE of XLAT HOLD holds a write. -/
  | xlatHold (q : Fin 24) (ctx : Fin 512)
  /-- HOME_ORDER (R304): ISSUE of HOME ORDER orders a request at the home. -/
  | homeOrder (q : Fin 24) (ctx : Fin 512)
  /-- HOME_RELEASE (R304): ISSUE of HOME RELEASE releases a line at the home. -/
  | homeRelease (q : Fin 24) (ctx : Fin 512)
  /-- UNIT_DONE (R303): A unit reports DONE for a context, waking its WAIT. -/
  | unitDone (q : Fin 24) (ctx : Fin 512) (unit : Fin 16)
  /-- MAILBOX_SEND (R312): A message is sent to an engine mailbox, or FULL is returned. -/
  | mailboxSend (eng : Fin 64) (dst : Fin 64) (msg : BitVec 512)
  /-- INTERRUPT (R313): An engine writes a target mask to interrupt engines. -/
  | interrupt (eng : Fin 64) (mask : BitVec 64)
  /-- KEYSTONE_PROBE (R315): The Keystone probes the engines every 10 ms and restarts any that miss three probes. -/
  | keystoneProbe (answered : BitVec 64)
  /-- ENGINE_RELOAD_DONE (R315): A restarted engine finishes loading its firmware. -/
  | engineReloadDone (eng : Fin 64)
  /-- HUB_LAP_BEAT (R317): A beat from the baton pair restarts the last-lap window. -/
  | hubLapBeat (eng : Fin 64)
  /-- LAP_WINDOW_END (R317): A 1 ms window ends; after three without a beat, the baton passes. -/
  | lapWindowEnd
  /-- LOCKSTEP_MISMATCH (R317): A comparator mismatch passes the baton at once. -/
  | lockstepMismatch
  /-- PASS (R317): A write of HUB_LAP_CTL.PASS passes the baton. -/
  | pass
  /-- BRIDGE_TIMEOUT (R318): A bridge transaction to the Truss bus times out after 10 µs; the third in a row enters coast. -/
  | bridgeTimeout
  /-- RESTART (R319): A write of HUB_LAP_CTL.RESTART in coast reloads and restarts the named clusters. -/
  | restart (mask : BitVec 4) (sigOk : Bool)
  /-- RESTART_BEAT_TIMEOUT (R319): No beat arrives within 250 ms of a restart or load. -/
  | restartBeatTimeout
  /-- ENGINE_HALT (R336): HUB_ENG_CTL.HALT halts an engine. -/
  | engineHalt (v : BitVec 32)
  /-- ENG_RESTART (R336): HUB_ENG_CTL.RESTART reloads and starts an engine, refused while FENCED. -/
  | engRestart
  /-- MBX_CMD_GO (R320): GO submits a manager mailbox command, or is refused. -/
  | mbxCmdGo (slot : Fin 7) (v : BitVec 32)
  /-- THERMAL_THROTTLE (R325): Every 10 ms the engines set THROTTLE from the junction temperature. -/
  | thermalThrottle (t : BitVec 8)
  /-- ALERT_HOLDOFF_END (R331): The 10 ms holdoff ends, and one pending alert is asserted. -/
  | alertHoldoffEnd
  /-- JOURNAL_WRITE (R334): A buffered record is written to the journal after the hold-up check passes. -/
  | journalWrite
  /-- JOURNAL_TOKEN_REFILL (R334): A journal bucket refills a token. -/
  | journalTokenRefill (second : Bool)
  /-- EVT_FORCE (R409): GO in EVT_FORCE produces one forced record. -/
  | evtForce (page : BitVec 8) (v : BitVec 32)
  /-- CAP_REARM (R408): CAP_REARM clears CAP_VALID and re-arms the error capture. -/
  | capRearm (page : BitVec 8)
  /-- EVT_MISSED_CLEAR (R336): CLEAR in HUB_EVT_MISSED clears a source's missed count. -/
  | evtMissedClear
  /-- RING_TAIL_WRITE (R433): A reader's TAIL write consumes records, or is ignored past HEAD. -/
  | ringTailWrite (ring : Ring) (tail : BitVec 13)
  /-- LAP_DUMP_START (R344): A non-zero INTERVAL_US write starts dumps at lap 1. -/
  | lapDumpStart (v : BitVec 32)
  /-- LAP_DUMP_STOP (R344): An INTERVAL_US write of 0 stops dumps. -/
  | lapDumpStop
  /-- LAP_SNAPSHOT (R344): A snapshot falls due and latches the dumped counters, or is skipped. -/
  | lapSnapshot
  /-- LAP_RECORD_DONE (R348): A record's LAP and NEWEST_LAP are written. -/
  | lapRecordDone
  /-- TEL_FREEZE (R355): FREEZE makes every counter hold its value. -/
  | telFreeze (on : Bool)
  /-- TEL_CLEAR (R355): CLEAR sets all counters to 0. -/
  | telClear
  /-- TEL_CNT_WRITE (R338): A write sets a counter's value. -/
  | telCntWrite (i : Fin 1024) (v : BitVec 64)
  /-- TEL_SEL_WRITE (R341): A select write changes a counter's event and filters from the next clock. -/
  | telSelWrite (i : Fin 1024) (v : BitVec 64)
  /-- REFCLK_ABSENT (R356): A candidate REFCLK has no edge for 100 ns; root loss leads to holdover. -/
  | refclkAbsent (p : Fin 8)
  /-- CANDIDATE_WINDOW (R357): A 1 ms measuring window ends, and READY is updated. -/
  | candidateWindow (p : Fin 8) (count : BitVec 20)
  /-- ROOT_SEL (R359): A write of ROOT_SEL switches the root, or is refused. -/
  | rootSel (p : Fin 8)
  /-- ARM (R360): Writing ARM arms a backup candidate, or is refused. -/
  | arm (p : Fin 8)
  /-- RELOCK_DONE (R361): The PLLs lock to the backup, which becomes the root. -/
  | relockDone
  /-- ROOT_RETURN (R362): The lost root returns within 1 ms and is relocked. -/
  | rootReturn (inRange : Bool)
  /-- HOLDOVER_END (R362): 1 ms after root loss, a READY candidate is taken, or root-loss Deep Sleep starts. -/
  | holdoverEnd
  /-- GATE_CLOSE (R368): CLOSE closes a gate-tree node, pends, or is refused. -/
  | gateClose
  /-- GATE_OPEN (R368): OPEN opens a node, or is refused. -/
  | gateOpen
  /-- GATE_PENDING_DONE (R368): A pending leaf becomes idle and closes. -/
  | gatePendingDone
  /-- GATE_BUSY (R368): A leaf still busy 10 µs after CLOSE is refused. -/
  | gateBusy
  /-- SLEEP_REQUEST (R371): A PWR_CTL.REQ for Sleep starts preparation, or is refused. -/
  | sleepRequest
  /-- DEEP_SLEEP_REQUEST (R371): A PWR_CTL.REQ for Deep Sleep starts preparation, or is refused. -/
  | deepSleepRequest
  /-- OFF_REQUEST (R371): A PWR_CTL.REQ for Off starts preparation, or is refused. -/
  | offRequest
  /-- PREP_DONE (R373): Preparation ends and entry begins. -/
  | prepDone
  /-- OFF_STATE_SAVE (R376): After the hold-up check passes, the Off state save is written. -/
  | offStateSave
  /-- SKIP_SAVE (R376): SKIP_SAVE abandons a deferred Off save. -/
  | skipSave
  /-- ENTRY_DONE (R378): Entry completes, reaching the target state or exiting at once on a latched wake. -/
  | entryDone
  /-- EXIT_DONE (R378): Exit completes and the Kenez returns to Run. -/
  | exitDone
  /-- WAKE (R377): PWR_CTL.WAKE wakes from Sleep or Deep Sleep. -/
  | wake
  /-- WAKE_N (R377): A WAKE_N falling edge wakes from any low-power state. -/
  | wakeN
  /-- SLEEP_TIMER (R377): SLEEP_TIMER_MS expires and wakes from Sleep. -/
  | sleepTimer
  /-- THERMAL_WAKE (R377): The junction reaches THERM_START_C in Sleep. -/
  | thermalWake (t : BitVec 8)
  /-- IDLE_ENTRY (R372): The Idle conditions hold for ENTRY_US, so Idle is entered. -/
  | idleEntry
  /-- IDLE_EXIT (R372): A port, register, engine or due event leaves Idle. -/
  | idleExit
  /-- VHOLD_SAMPLE (R381): VHOLD is sampled every 100 µs and the hold-up energy recomputed. -/
  | vholdSample (mv : BitVec 10)
  /-- RAIL_FAULT (R422): A rail misses its window or leaves its range, so both enables fall. -/
  | railFault
  /-- RAIL_RESTART (R422): 100 ms after a rail fault, the Kenez restarts power-up. -/
  | railRestart
  /-- THERMTRIP (R427): A sensor reaches the trip temperature, so THERMTRIP_N latches and the enables fall. -/
  | thermtrip (t : BitVec 8)
  /-- VDD_AON_UP (R395): VDD_AON comes up and starts a cold boot. -/
  | vddAonUp (addrSel : Fin 4)
  /-- SYS_RESET_N (R395): SYS_RESET_N held low starts a cold reset. -/
  | sysResetN
  /-- COLD (R395): TRUSS_CTL.COLD starts a cold reset. -/
  | cold
  /-- WARM (R396): TRUSS_CTL.WARM starts a warm reset, or sets WARM_REFUSED. -/
  | warm
  /-- WARM_RESET_DONE (R396): The warm reset completes and the engines resume. -/
  | warmResetDone
  /-- BOOT_IMAGE_READ (R388): The image is read and verified, or the boot halts. -/
  | bootImageRead (sfdp : Bool) (a : Option Image) (b : Option Image)
  /-- POPULATION_CHECK (R53): SPD is read and the population and the rank health record are checked. -/
  | populationCheck (spd : List (Option Spd))
  /-- DRAM_TRAINING_DONE (R390): DRAM initialisation and training finish. -/
  | dramTrainingDone (failed : BitVec 16)
  /-- METADATA_ZERO_DONE (R390): The metadata reserve and the packed store have been written as zeros. -/
  | metadataZeroDone
  /-- POOL_ALLOCATION (R391): The pools are laid out, the engines released and the RWL fields locked. -/
  | poolAllocation
  /-- FENBO_RD (R404): A Fenbo RD reads a register. -/
  | fenboRd (f : List (BitVec 8))
  /-- FENBO_WR (R404): A Fenbo WR writes a register. -/
  | fenboWr (f : List (BitVec 8))
  /-- SPI_RD (R404): A Fenbo SPI_RD reads flash bytes. -/
  | spiRd (f : List (BitVec 8))
  /-- SPI_PROG (R404): A Fenbo SPI_PROG programs flash bytes. -/
  | spiProg (f : List (BitVec 8))
  /-- SPI_ERASE (R404): A Fenbo SPI_ERASE erases a flash sector. -/
  | spiErase (f : List (BitVec 8))
  /-- FENBO_STATUS (R404): A Fenbo STATUS reports the status of the last request. -/
  | fenboStatus (f : List (BitVec 8))
  /-- FENBO_OP_DONE (R405): A running Fenbo request ends with OK or an error. -/
  | fenboOpDone (flashOk : Bool)
  /-- FENBO_RESPONSE (R404): The BMC reads a Fenbo response frame. -/
  | fenboResponse
  /-- DA_WINDOW_READ (R413): A DA window read is served as a non-caching CXL.io read. -/
  | daWindowRead (path : Path) (off : BitVec 25) (size8 : Bool) (b : Bursts)
  /-- DA_WINDOW_WRITE (R413): A DA window write is merged as a partial invalidating write. -/
  | daWindowWrite (path : Path) (off : BitVec 25) (size8 : Bool) (v : BitVec 64) (b : Bursts)
  /-- WIDE_REGISTER_READ (R401): Reading the first word of a wide register snapshots the whole register. -/
  | wideRegisterRead (path : Path) (off : BitVec 29) (size8 : Bool)
  /-- REGISTER_WRITE (R8): A write to a register without a row of its own acts by its access type. -/
  | registerWrite (path : Path) (off : BitVec 29) (size8 : Bool) (v : BitVec 64)
  /-- PERST_N_DEASSERT (R377): Hk_PERST_N is deasserted, which wakes the Kenez from Deep Sleep and ends the port's fundamental reset. -/
  | perstNDeassert (p : Fin 8)
  /-- VDD_AON_OFF (R406): VDD_AON is lost, so the whole package goes unpowered and the sideband target stops answering. -/
  | vddAonOff
  /-- REFCLK_PRESENT (R356): Edges arrive on a candidate REFCLK that was absent, so it becomes present, starts being measured and may become the root at boot or at a Deep Sleep wake. -/
  | refclkPresent (p : Fin 8)
  /-- RAILS_CONFIRMED (R420): The on-die monitors confirm every rail in range, and the PLLs start and the root is taken. -/
  | railsConfirmed
  /-- CLEAR_EVENT_RECORDS (R251): A host or the manager reads and clears records of an LD's CXL event log, freeing slots and letting a new OVERFLOW record be placed. -/
  | clearEventRecords (p : Fin 8) (ld : Fin 17) (log : Fin 4) (count : BitVec 12)
  /-- BAD_OP (R404): A Fenbo request frame with an unknown OP, or a LEN not allowed for its OP, is answered with BAD_OP and nothing is performed. -/
  | badOp (f : List (BitVec 8))
  /-- ILLEGAL_OPCODE (R306): A sequencer executes a step with an illegal OP or an illegal unit, and the job ends with SEQ_FAULT. -/
  | illegalOpcode (q : Fin 24) (ctx : Fin 512)
  /-- HOT_CLEAR (R271): 100 µs pass without guaranteed requests exceeding Dp at a Pier, so HOT clears and proportional sharing ends. -/
  | hotClear (n : Fin 16)
  /-- ADAPT_NS_EXPIRY (R61): Under the adaptive policy, PIER_DCTL.ADAPT_NS elapses without a hit, and the bank's open row is closed. -/
  | adaptNsExpiry (n : Fin 16) (bank : Fin 512)
  deriving DecidableEq, Repr

end Sys2Proof
end

