-- ==== Sys2Proof/Decode.lean ====
section
/-!
DEFINITION. The reading of a table word as a command. The operation table gives no row any bits, so no word spells one.
-/
namespace Sys2Proof

/-- The command that a table word spells: none, since the operation table gives its rows no bits. -/
def decodeTableWord (_nbits _w : Nat) : Option Instr := none

end Sys2Proof
end

