-- ==== Sys2Proof/Config.lean ====
section
/-!
DEFINITION. The free values of the model: what the spec leaves open and the machine goes on with. Each is opaque, so no
proof can see a value of it. The numbered log entries say which open point each one stands for.
-/
namespace Sys2Proof.Config

/-- The TLB set of a page (R88 names the sets and not the hash): below 2,048 after reduction. -/
opaque tlbSet : Nat → Nat → Nat

/-- The way that pseudo-LRU replaces in a full TLB set (R88), and the walk-cache entry replaced (R89). -/
opaque victim : Nat → Nat

/-- The directory cache set of a line (R197 names the hash and not its form). -/
opaque dirSet : Nat → Nat

/-- The counter cache entry that makes room (R179 gives the size and not the replacement). -/
opaque ccVictim : Nat → Nat

/-- The fresh tree key that the on-die random source gives (R163). -/
opaque treeKey : Nat → Nat

/-- The part and stepping bytes of GET_KENEZ_INFO (R263 names them and not their coding). -/
opaque partId : Nat

/-- A measured QoS value of Get QoS Status (R237). -/
opaque qos : Nat → Nat

/-- The message body that a unit sends, or the firmware routine that a host request names (R283, R305). -/
opaque body : Nat → Nat

/-- The result of the signature check of a firmware reload that a register write starts (R319). -/
opaque sigCheck : Nat → Bool

/-- The bits of a flash byte that a failed program or erase reached (R404 names the failure and not what it leaves). -/
opaque flashPart : Nat → Nat → BitVec 8

/-- The slots that a read-write or rank turnaround takes (R343 names it and gives no length). -/
opaque turnSlots : Nat → Nat

/-- A PHY delay as a retraining pause leaves it (R70 step 6, R375: no rule gives the result). -/
opaque phyDelay : Nat → Nat

/-- The ranks whose centre updates a pause that no command describes had to limit (R67, R70 step 6, R375). -/
opaque driftLimited : Nat → Nat

/-- A record slot of a queue that no waiting record fills: what it still holds from before. -/
opaque staleSlot : Nat → Nat

/-- A line of the engines' own state (R391 names the pool and not its layout), under the move log it holds. -/
opaque engState : Nat → List (List Nat) → Nat

end Sys2Proof.Config
end

