-- ==== Sys2Proof/Machine/Crypto.lean ====
section
/-!
DEFINITION. The codes the spec computes: CRC-40 of a line (R34), CRC-32C (R144), CRC-64, CRC-16 (R280, R283),
CRC-8 (R404), AES-256 in counter mode and AES-GMAC (R166, R170, R178), SHA-384 and ECDSA P-384 (R388).
-/
namespace Sys2Proof.Machine

/-- One bit of a left-shifting CRC of width w over a bit b (the loop of R34). -/
def crcStep (w gen crc : Nat) (b : Bool) : Nat :=
  let fb := b != crc.testBit (w - 1)
  let s := (2 * crc) % 2 ^ w
  if fb then s ^^^ gen else s

/-- A CRC over a number's n bits, most significant bit first. -/
def crcBits (w gen : Nat) : Nat → Nat → Nat → Nat
  | 0, _, crc => crc
  | n + 1, x, crc => crcBits w gen n x (crcStep w gen crc (x.testBit n))

/-- A CRC over bytes in order, bit 7 of each byte first. -/
def crcBytes (w gen init : Nat) (bs : List Nat) : Nat :=
  bs.foldl (fun c b => crcBits w gen 8 b c) init

/-- CRC-40 of a line (R34): the seed tag, DA[47:6], side bits [127:40], then the data bytes from byte 0. -/
def crc40 (tag lineAddr sideHi : Nat) (data : Nat) : Nat :=
  let c := crcBits 40 0x0048200009 16 tag 0xFFFFFFFFFF
  let c := crcBits 40 0x0048200009 42 lineAddr c
  let c := crcBits 40 0x0048200009 88 sideHi c
  crcBytes 40 0x0048200009 c (leBytes 64 data)

/-- A number's n bits in reverse order. -/
def revBits : Nat → Nat → Nat
  | 0, _ => 0
  | n + 1, x => (x % 2) * 2 ^ n + revBits n (x / 2)

/-- CRC-32C with reflected input and output, initial value 0 and no final XOR (R144). -/
def crc32c (bs : List Nat) : Nat :=
  revBits 32 (bs.foldl (fun c b => crcBits 32 0x1EDC6F41 8 (revBits 8 b) c) 0)

/-- The link CRC of a Viaduct flit over its bytes 0 to 71 (R280). -/
def crc64 (bs : List Nat) : Nat := crcBytes 64 0x42F0E1EBA9EA3693 0xFFFFFFFFFFFFFFFF bs

/-- SCHK of a message slot (R283). -/
def crc16 (bs : List Nat) : Nat := crcBytes 16 0x8BB7 0 bs

/-- CHK of a Fenbo frame (R404). -/
def crc8 (bs : List Nat) : Nat := crcBytes 8 0x07 0 bs

/-- Multiplication by x in the field of AES. -/
def aesXtime (a : Nat) : Nat := if a ≥ 128 then ((2 * a) % 256) ^^^ 0x1B else 2 * a

/-- Multiplication in the field of AES. -/
def aesMul : Nat → Nat → Nat → Nat
  | 0, _, _ => 0
  | n + 1, a, b => (if b % 2 = 1 then a else 0) ^^^ aesMul n (aesXtime a) (b / 2)

/-- The multiplicative inverse in the field of AES, as the 254th power. -/
def aesInv (a : Nat) : Nat :=
  let sq := fun x => aesMul 8 x x
  let a2 := sq a; let a4 := sq a2; let a8 := sq a4; let a16 := sq a8
  let a32 := sq a16; let a64 := sq a32; let a128 := sq a64
  aesMul 8 a2 (aesMul 8 a4 (aesMul 8 a8 (aesMul 8 a16 (aesMul 8 a32 (aesMul 8 a64 a128)))))

/-- Rotation of a byte to the left. -/
def rotl8 (x n : Nat) : Nat := ((x * 2 ^ n) % 256) + x / 2 ^ (8 - n)

/-- The AES substitution of one byte. -/
def aesSub (a : Nat) : Nat :=
  let b := aesInv a
  b ^^^ rotl8 b 1 ^^^ rotl8 b 2 ^^^ rotl8 b 3 ^^^ rotl8 b 4 ^^^ 0x63

/-- Bytewise exclusive or of two byte strings. -/
def xorBytes (a b : List Nat) : List Nat := List.zipWith (fun x y => x ^^^ y) a b

/-- The AES-256 key schedule: words of four bytes, newest first, extended n times. -/
def aesExpand : Nat → Nat → List (List Nat) → Nat → List (List Nat)
  | 0, _, ws, _ => ws
  | n + 1, i, ws, rc =>
    let prev := ws.headD []
    let back := ws.getD 7 []
    let t :=
      if i % 8 = 0 then
        let r := (prev.drop 1 ++ prev.take 1).map aesSub
        (r.headD 0 ^^^ rc) :: r.drop 1
      else if i % 8 = 4 then prev.map aesSub
      else prev
    aesExpand n (i + 1) (xorBytes back t :: ws) (if i % 8 = 0 then aesXtime rc else rc)

/-- A byte string cut into pieces of four. -/
def chunk4 : Nat → List Nat → List (List Nat)
  | 0, _ => []
  | n + 1, bs => bs.take 4 :: chunk4 n (bs.drop 4)

/-- The byte permutation of ShiftRows, on a column-major block. -/
def shiftRows (b : List Nat) : List Nat :=
  [0, 5, 10, 15, 4, 9, 14, 3, 8, 13, 2, 7, 12, 1, 6, 11].map (fun i => b.getD i 0)

/-- MixColumns of one column. -/
def mixColumn (c : List Nat) : List Nat :=
  let g := fun i => c.getD i 0
  let m2 := fun i => aesXtime (g i)
  let m3 := fun i => aesXtime (g i) ^^^ g i
  [m2 0 ^^^ m3 1 ^^^ g 2 ^^^ g 3, g 0 ^^^ m2 1 ^^^ m3 2 ^^^ g 3,
   g 0 ^^^ g 1 ^^^ m2 2 ^^^ m3 3, m3 0 ^^^ g 1 ^^^ g 2 ^^^ m2 3]

/-- The AES rounds from a list of round keys (each 16 bytes), the last without MixColumns. -/
def aesRounds : List (List Nat) → List Nat → List Nat
  | [], b => b
  | [k], b => xorBytes (shiftRows (b.map aesSub)) k
  | k :: ks, b =>
    aesRounds ks (xorBytes ((chunk4 4 (shiftRows (b.map aesSub))).flatMap mixColumn) k)

/-- Big-endian bytes of a number: the first byte holds its highest bits. -/
def beBytes (n x : Nat) : List Nat := (leBytes n x).reverse

/-- The number that big-endian bytes spell. -/
def ofBe (bs : List Nat) : Nat := ofLe bs.reverse

/-- The round keys of AES-256, sixteen bytes each. -/
def aesKeys (key : Nat) : List (List Nat) :=
  let ws := (aesExpand 52 8 (chunk4 8 (beBytes 32 key)).reverse 1).reverse
  (List.range 15).map (fun r => ((ws.drop (4 * r)).take 4).flatten)

/-- AES-256 of one block; bit 127 is the first bit of input byte 0 (R166). -/
def aes256 (key block : Nat) : Nat :=
  match aesKeys key with
  | [] => 0
  | k0 :: ks => ofBe (aesRounds ks (xorBytes (beBytes 16 block) k0))

/-- Multiplication in GF(2^128) as GCM defines it. -/
def gcmMul : Nat → Nat → Nat → Nat → Nat
  | 0, _, _, z => z
  | n + 1, x, v, z =>
    gcmMul n x (if v % 2 = 1 then (v / 2) ^^^ (0xE1 * 2 ^ 120) else v / 2)
      (if x.testBit n then z ^^^ v else z)

/-- GHASH over 128-bit blocks. -/
def ghash (h : Nat) (blocks : List Nat) : Nat :=
  blocks.foldl (fun y b => gcmMul 128 (y ^^^ b) h 0) 0

/-- AES-GMAC with a 128-bit IV over 64 bytes of additional data (SP 800-38D). -/
def gmac64 (key iv : Nat) (aad : List Nat) : Nat :=
  let h := aes256 key 0
  let j0 := ghash h [iv, 128]
  let bl := (List.range 4).map (fun i => ofBe ((aad.drop (16 * i)).take 16))
  (ghash h (bl ++ [512 * 2 ^ 64])) ^^^ aes256 key j0

/-- The first 56 bits of a GMAC output (R170). -/
def tag56 (key iv : Nat) (aad : List Nat) : Nat := gmac64 key iv aad / 2 ^ 72

/-- The counter block of keystream block j (R166). -/
def counterBlock (slot lineAddr major minor j : Nat) : Nat :=
  2 ^ 124 * (slot % 16) + 2 ^ 82 * (lineAddr % 2 ^ 42) + 2 ^ 26 * (major % 2 ^ 56)
    + 2 ^ 19 * (minor % 128) + j % 4

/-- The 64 bytes of keystream of a line, as a number whose byte 0 pairs with data byte 0 (R166). -/
def keystream (key slot lineAddr major minor : Nat) : Nat :=
  ofLe ((List.range 4).flatMap (fun j => beBytes 16 (aes256 key (counterBlock slot lineAddr major minor j))))

/-- The TAG of a line (R170). -/
def lineTag (key slot lineAddr major minor cipher : Nat) : Nat :=
  tag56 key (counterBlock slot lineAddr major minor 0) (leBytes 64 cipher)

/-- The tree tag of a counter line or node (R178): NODE_TAG is taken as zero in the additional data. -/
def treeTag (key lineAddr version payload : Nat) : Nat :=
  tag56 key (2 ^ 80 * (lineAddr % 2 ^ 42) + 2 ^ 24 * (version % 2 ^ 56))
    (leBytes 64 payload)

/-! ### SHA-384 (R388; FIPS 180-4) -/

/-- The greatest r < 2^n, beside the bits already in `acc`, whose k-th power does not pass x. -/
def rootBits (k x : Nat) : Nat → Nat → Nat
  | 0, acc => acc
  | n + 1, acc => rootBits k x n (if (acc + 2 ^ n) ^ k ≤ x then acc + 2 ^ n else acc)

/-- The primes below 410: the first eighty. -/
def primes80 : List Nat :=
  (List.range 410).filter (fun n => 2 ≤ n && (List.range 19).all (fun d => d + 2 == n || n % (d + 2) != 0))

/-- The first 64 bits of the fraction of a prime's k-th root. -/
def rootWord (k p : Nat) : Nat := rootBits k (p * 2 ^ (64 * k)) 72 0 % 2 ^ 64

/-- The round constants, and the words the state begins with. -/
def shaK : List Nat := primes80.map (rootWord 3)
def shaInit : List Nat := ((primes80.drop 8).take 8).map (rootWord 2)

/-- A 64-bit rotation to the right. -/
def rotr64 (x n : Nat) : Nat := x / 2 ^ n + x % 2 ^ n * 2 ^ (64 - n)

/-- The message schedule, newest word first. -/
def shaSched : Nat → List Nat → List Nat
  | 0, w => w
  | n + 1, w =>
    let a := w.getD 1 0
    let b := w.getD 14 0
    let x := rotr64 a 19 ^^^ rotr64 a 61 ^^^ (a / 64)
    let y := rotr64 b 1 ^^^ rotr64 b 8 ^^^ (b / 128)
    shaSched n (((x + w.getD 6 0 + y + w.getD 15 0) % 2 ^ 64) :: w)

/-- One round on the eight working words, with the round's constant plus schedule word. -/
def shaRound (v : List Nat) (kw : Nat) : List Nat :=
  match v with
  | [a, b, c, d, e, f, g, h] =>
    let t1 := h + (rotr64 e 14 ^^^ rotr64 e 18 ^^^ rotr64 e 41) + ((e &&& f) ^^^ ((2 ^ 64 - 1 - e) &&& g)) + kw
    let t2 := (rotr64 a 28 ^^^ rotr64 a 34 ^^^ rotr64 a 39) + ((a &&& b) ^^^ (a &&& c) ^^^ (b &&& c))
    [(t1 + t2) % 2 ^ 64, a, b, c, (d + t1) % 2 ^ 64, e, f, g]
  | _ => v

/-- One block of 128 bytes. -/
def shaBlock (h : List Nat) (block : List Nat) : List Nat :=
  let w := (List.range 16).map (fun i => ofBe ((block.drop (8 * i)).take 8))
  let ws := (shaSched 64 w.reverse).reverse
  List.zipWith (fun x y => (x + y) % 2 ^ 64) h ((List.zipWith (fun k x => k + x) shaK ws).foldl shaRound h)

/-- The blocks of a padded message. -/
def shaBlocks : Nat → List Nat → List Nat → List Nat
  | 0, _, h => h
  | n + 1, bs, h => shaBlocks n (bs.drop 128) (shaBlock h (bs.take 128))

/-- SHA-384 of bytes, as a number whose highest bits are the first. -/
def sha384 (bs : List Nat) : Nat :=
  let n := bs.length
  let pad := 128 * ((n + 17 + 127) / 128) - (n + 17)
  let m := bs ++ 0x80 :: List.replicate pad 0 ++ beBytes 16 (8 * n)
  ((shaBlocks (m.length / 128) m shaInit).take 6).foldl (fun x w => 2 ^ 64 * x + w) 0

/-! ### ECDSA P-384 (R388; FIPS 186-5) -/

/-- The prime of the field, the order of the group, the curve's constant b and the base point. -/
def ecP : Nat := 2 ^ 384 - 2 ^ 128 - 2 ^ 96 + 2 ^ 32 - 1
def ecN : Nat := 0xffffffffffffffffffffffffffffffffffffffffffffffffc7634d81f4372ddf581a0db248b0a77aecec196accc52973
def ecB : Nat := 0xb3312fa7e23ee7e4988e056be3f82d19181d9c6efe8141120314088f5013875ac656398d8a2ed19d2a85c8edd3ec2aef
def ecG : Nat × Nat :=
  (0xaa87ca22be8b05378eb1c71ef320ad746e1d3b628ba79b9859f741e082542a385502f25dbf55296c3a545e3872760ab7,
   0x3617de4a96262c6f5d9e98bf9292dc29f8f41dbd289a147ce9da3113b5f0b8c00a60b1ce1d7e819d7a431d7c90ea0e5f)

/-- Subtraction in the field, of numbers below the prime. -/
def ecSub (a b : Nat) : Nat := (a + (ecP - b)) % ecP

/-- A power modulo m, over the exponent's n low bits. -/
def powMod (m x e : Nat) : Nat → Nat → Nat
  | 0, acc => acc
  | n + 1, acc => powMod m x e n (let q := acc * acc % m; if e.testBit n then q * x % m else q)

/-- The inverse modulo a prime of at most 384 bits. -/
def invMod (m x : Nat) : Nat := powMod m (x % m) (m - 2) 384 1

/-- A point in Jacobian coordinates; the point at infinity has z = 0. -/
structure EcPoint where
  x : Nat
  y : Nat
  z : Nat
  deriving DecidableEq, Repr

/-- Twice a point. -/
def ecDouble (p : EcPoint) : EcPoint :=
  let d := p.z * p.z % ecP
  let g := p.y * p.y % ecP
  let b := p.x * g % ecP
  let a := 3 * ecSub p.x d * (p.x + d) % ecP
  let x := ecSub (a * a % ecP) (8 * b % ecP)
  ⟨x, ecSub (a * ecSub (4 * b % ecP) x % ecP) (8 * g * g % ecP), 2 * p.y * p.z % ecP⟩

/-- The sum of two points. -/
def ecAdd (p q : EcPoint) : EcPoint :=
  if p.z = 0 then q
  else if q.z = 0 then p
  else
    let pz := p.z * p.z % ecP
    let qz := q.z * q.z % ecP
    let u := p.x * qz % ecP
    let s := p.y * qz * q.z % ecP
    let h := ecSub (q.x * pz % ecP) u
    let r := ecSub (q.y * pz * p.z % ecP) s
    if h = 0 then (if r = 0 then ecDouble p else ⟨1, 1, 0⟩)
    else
      let hh := h * h % ecP
      let hhh := h * hh % ecP
      let v := u * hh % ecP
      let x := ecSub (ecSub (r * r % ecP) hhh) (2 * v % ecP)
      ⟨x, ecSub (r * ecSub v x % ecP) (s * hhh % ecP), p.z * q.z * h % ecP⟩

/-- The n low bits of k times a point, added to twice the sum so far at each bit. -/
def ecMul (k : Nat) (p : EcPoint) : Nat → EcPoint → EcPoint
  | 0, acc => acc
  | n + 1, acc => ecMul k p n (let q := ecDouble acc; if k.testBit n then ecAdd q p else q)

/-- An uncompressed point: the byte 04 and two coordinates, on the curve. -/
def ecKey (bs : List Nat) : Option EcPoint :=
  let x := ofBe ((bs.drop 1).take 48)
  let y := ofBe ((bs.drop 49).take 48)
  if bs.length = 97 ∧ bs.headD 0 = 4 ∧ x < ecP ∧ y < ecP ∧ y * y % ecP = (x * x * x + (ecP - 3) * x + ecB) % ecP
  then some ⟨x, y, 1⟩ else none

/-- The signature r, s of a message's hash verifies under a public key. -/
def ecVerify (q : EcPoint) (hash r s : Nat) : Bool :=
  if r = 0 ∨ s = 0 ∨ ecN ≤ r ∨ ecN ≤ s then false
  else
    let w := invMod ecN s
    let pt := ecAdd (ecMul (hash * w % ecN) ⟨ecG.1, ecG.2, 1⟩ 384 ⟨1, 1, 0⟩) (ecMul (r * w % ecN) q 384 ⟨1, 1, 0⟩)
    let zi := invMod ecP pt.z
    pt.z != 0 && pt.x * (zi * zi % ecP) % ecP % ecN == r

end Sys2Proof.Machine
end

