-- ==== Sys2Proof/Machine/Fields.lean ====
section
/-!
DEFINITION. The register fields of the aperture, transcribed from the register tables of the spec: offset in the page,
lowest bit, width, access type (R8) and reset value. A field of an indexed register takes the index.
-/
namespace Sys2Proof.Machine

/-- The access types of R8. -/
inductive AccTy where
  | rw | ro | wo | w1c | w1s | rws | rwl
  deriving DecidableEq, Repr

/-- A register field: offset of its register in the page, lowest bit, width, access type, reset value. -/
structure Fld where
  off : Nat
  lo : Nat
  width : Nat
  ty : AccTy
  rst : Nat
  deriving DecidableEq, Repr

namespace Reg

/-- R45 -/
def PIER_LIU_CTL_SCRUB_EN : Fld := ⟨0x400, 0, 1, .rw, 1⟩
/-- R45 -/
def PIER_LIU_CTL_CE_FREEZE : Fld := ⟨0x400, 1, 1, .rw, 0⟩
/-- R45 -/
def PIER_LIU_CTL_SCRUB_HOURS : Fld := ⟨0x400, 8, 8, .rw, 24⟩
/-- R45 -/
def PIER_LIU_CTL_UE_LIMIT : Fld := ⟨0x400, 16, 8, .rw, 4⟩
/-- R45 -/
def PIER_LIU_CTL_UE_WINDOW_H : Fld := ⟨0x400, 24, 8, .rw, 24⟩
/-- R45 -/
def PIER_LIU_STAT_SCRUB_ACTIVE : Fld := ⟨0x404, 0, 1, .ro, 0⟩
/-- R45 -/
def PIER_LIU_STAT_SCRUB_LATE : Fld := ⟨0x404, 1, 1, .w1c, 0⟩
/-- R45 -/
def PIER_LIU_STAT_SCRUB_PASSES : Fld := ⟨0x404, 16, 16, .ro, 0⟩
/-- R45 -/
def PIER_CE_CNT_COUNT : Fld := ⟨0x408, 0, 31, .ro, 0⟩
/-- R45 -/
def PIER_CE_CNT_SAT : Fld := ⟨0x408, 31, 1, .w1c, 0⟩
/-- R45 -/
def PIER_RC_CNT_COUNT : Fld := ⟨0x40C, 0, 31, .ro, 0⟩
/-- R45 -/
def PIER_RC_CNT_SAT : Fld := ⟨0x40C, 31, 1, .w1c, 0⟩
/-- R45 -/
def PIER_UE_CNT_COUNT : Fld := ⟨0x410, 0, 31, .ro, 0⟩
/-- R45 -/
def PIER_UE_CNT_SAT : Fld := ⟨0x410, 31, 1, .w1c, 0⟩
/-- R45 -/
def PIER_CE_HEAD_NEXT : Fld := ⟨0x414, 0, 4, .ro, 0⟩
/-- R45 -/
def PIER_CE_HEAD_OVERFLOW : Fld := ⟨0x414, 16, 16, .ro, 0⟩
/-- R45 -/
def PIER_RANK_UE_COUNT (r : Nat) : Fld := ⟨0x420 + 4 * r, 0, 8, .ro, 0⟩
/-- R45 -/
def PIER_RANK_UE_RETIRED (r : Nat) : Fld := ⟨0x420 + 4 * r, 8, 1, .ro, 0⟩
/-- R77 -/
def HUB_SPAN_BASE_BASE_G (s : Nat) : Fld := ⟨0x40 + 0x20 * s, 0, 18, .rwl, 0⟩
/-- R77 -/
def HUB_SPAN_SIZE_SIZE_G (s : Nat) : Fld := ⟨0x44 + 0x20 * s, 0, 18, .rwl, 0⟩
/-- R77 -/
def HUB_SPAN_CTL_GRAIN (s : Nat) : Fld := ⟨0x48 + 0x20 * s, 0, 2, .rwl, 0⟩
/-- R77 -/
def HUB_SPAN_CTL_COUNT (s : Nat) : Fld := ⟨0x48 + 0x20 * s, 2, 3, .rwl, 0⟩
/-- R77 -/
def HUB_SPAN_CTL_MIRRORED (s : Nat) : Fld := ⟨0x48 + 0x20 * s, 5, 1, .rwl, 0⟩
/-- R77 -/
def HUB_SPAN_MEMBERS_MEMBER (s : Nat) : Fld := ⟨0x50 + 0x20 * s, 0, 64, .rwl, 0⟩
/-- R78 -/
def PIER_DCTL_CH_EN : Fld := ⟨0x40, 0, 1, .rwl, 0⟩
/-- R78 -/
def PIER_DCTL_PAGE_POL : Fld := ⟨0x40, 1, 2, .rw, 2⟩
/-- R78 -/
def PIER_DCTL_ADAPT_NS : Fld := ⟨0x40, 8, 8, .rw, 60⟩
/-- R78 -/
def PIER_DCTL_THROTTLE : Fld := ⟨0x40, 16, 7, .rw, 0⟩
/-- R78 -/
def PIER_GEOM_DPC2 : Fld := ⟨0x44, 0, 1, .rwl, 0⟩
/-- R78 -/
def PIER_GEOM_MRDIMM : Fld := ⟨0x44, 1, 1, .rwl, 0⟩
/-- R78 -/
def PIER_GEOM_RPM : Fld := ⟨0x44, 2, 2, .rwl, 0⟩
/-- R78 -/
def PIER_GEOM_DEV_X8 : Fld := ⟨0x44, 4, 1, .rwl, 0⟩
/-- R78 -/
def PIER_GEOM_ROW : Fld := ⟨0x44, 5, 2, .rwl, 0⟩
/-- R78 -/
def PIER_GEOM_SPARE_PRESENT : Fld := ⟨0x44, 7, 1, .rwl, 0⟩
/-- R78 -/
def PIER_GEOM_SPARE_RANK : Fld := ⟨0x44, 8, 3, .rwl, 0⟩
/-- R78 -/
def PIER_SPEED_RATE : Fld := ⟨0x48, 0, 16, .ro, 0⟩
/-- R78 -/
def PIER_SPEED_ACTIVE_SET : Fld := ⟨0x48, 16, 1, .ro, 0⟩
/-- R78 -/
def PIER_SPEED_SWITCH : Fld := ⟨0x48, 17, 1, .wo, 0⟩
/-- R78 -/
def PIER_SPEED_BUSY : Fld := ⟨0x48, 18, 1, .ro, 0⟩
/-- R78 -/
def PIER_SPEED_REFUSED : Fld := ⟨0x48, 19, 1, .w1c, 0⟩
/-- R78 -/
def PIER_TRAIN_PERIOD_MS : Fld := ⟨0x160, 0, 16, .rw, 100⟩
/-- R78 -/
def PIER_TRAIN_FROZEN : Fld := ⟨0x160, 16, 1, .ro, 0⟩
/-- R78 -/
def PIER_TRAIN_STAT_PAUSES : Fld := ⟨0x164, 0, 16, .ro, 0⟩
/-- R78 -/
def PIER_TRAIN_STAT_DRIFT_LIMIT : Fld := ⟨0x164, 16, 1, .w1c, 0⟩
/-- R78 -/
def PIER_TRAIN_STAT_TRAIN_FAIL : Fld := ⟨0x164, 17, 1, .w1c, 0⟩
/-- R78 -/
def PIER_TRAIN_STAT_FAIL_RANK : Fld := ⟨0x164, 18, 3, .ro, 0⟩
/-- R78 -/
def PIER_REF_SAME_BANK : Fld := ⟨0x168, 0, 1, .rw, 1⟩
/-- R78 -/
def PIER_REF_DOUBLE : Fld := ⟨0x168, 1, 1, .ro, 0⟩
/-- R78 -/
def PIER_SHARE_BASE_BASE_G (s : Nat) : Fld := ⟨0x180 + 4 * s, 0, 11, .rwl, 0⟩
/-- R78 -/
def PIER_SPARE_CTL_FAIL_RANK : Fld := ⟨0x200, 0, 3, .ro, 0⟩
/-- R78 -/
def PIER_SPARE_CTL_SPARE_PIER : Fld := ⟨0x200, 4, 4, .ro, 0⟩
/-- R78 -/
def PIER_SPARE_CTL_SPARE_PHYS : Fld := ⟨0x200, 8, 3, .ro, 0⟩
/-- R78 -/
def PIER_SPARE_CTL_LENT : Fld := ⟨0x200, 11, 1, .ro, 0⟩
/-- R78 -/
def PIER_SPARE_CTL_STATE : Fld := ⟨0x200, 12, 3, .ro, 0⟩
/-- R78 -/
def PIER_SPARE_CTL_TARGET : Fld := ⟨0x200, 16, 3, .rw, 0⟩
/-- R78 -/
def PIER_SPARE_CTL_RETIRE_UNCOPIED : Fld := ⟨0x200, 19, 1, .wo, 0⟩
/-- R78 -/
def PIER_SPARE_BOUND_LINE : Fld := ⟨0x208, 0, 32, .ro, 0⟩
/-- R79 -/
def PIER_TSET_RATE (k : Nat) : Fld := ⟨(0x60 + 0x80 * k) + 0x0, 0, 16, .rw, 0⟩
/-- R79 -/
def PIER_TSET_VALID (k : Nat) : Fld := ⟨(0x60 + 0x80 * k) + 0x0, 16, 1, .rw, 0⟩
/-- R79 -/
def PIER_TSET_TCL (k : Nat) : Fld := ⟨(0x60 + 0x80 * k) + 0x4, 0, 8, .rw, 0⟩
/-- R79 -/
def PIER_TSET_TCWL (k : Nat) : Fld := ⟨(0x60 + 0x80 * k) + 0x4, 8, 8, .rw, 0⟩
/-- R79 -/
def PIER_TSET_TRCD (k : Nat) : Fld := ⟨(0x60 + 0x80 * k) + 0x4, 16, 8, .rw, 0⟩
/-- R79 -/
def PIER_TSET_TRP (k : Nat) : Fld := ⟨(0x60 + 0x80 * k) + 0x4, 24, 8, .rw, 0⟩
/-- R79 -/
def PIER_TSET_TRAS (k : Nat) : Fld := ⟨(0x60 + 0x80 * k) + 0x8, 0, 10, .rw, 0⟩
/-- R79 -/
def PIER_TSET_TRC (k : Nat) : Fld := ⟨(0x60 + 0x80 * k) + 0x8, 10, 10, .rw, 0⟩
/-- R79 -/
def PIER_TSET_TWR (k : Nat) : Fld := ⟨(0x60 + 0x80 * k) + 0x8, 20, 10, .rw, 0⟩
/-- R79 -/
def PIER_TSET_TRFC (k : Nat) : Fld := ⟨(0x60 + 0x80 * k) + 0xC, 0, 16, .rw, 0⟩
/-- R79 -/
def PIER_TSET_TRFCSB (k : Nat) : Fld := ⟨(0x60 + 0x80 * k) + 0xC, 16, 16, .rw, 0⟩
/-- R79 -/
def PIER_TSET_TREFI (k : Nat) : Fld := ⟨(0x60 + 0x80 * k) + 0x10, 0, 16, .rw, 0⟩
/-- R79 -/
def PIER_TSET_TCCD_S (k : Nat) : Fld := ⟨(0x60 + 0x80 * k) + 0x14, 0, 8, .rw, 0⟩
/-- R79 -/
def PIER_TSET_TCCD_L (k : Nat) : Fld := ⟨(0x60 + 0x80 * k) + 0x14, 8, 8, .rw, 0⟩
/-- R79 -/
def PIER_TSET_TRRD_S (k : Nat) : Fld := ⟨(0x60 + 0x80 * k) + 0x14, 16, 8, .rw, 0⟩
/-- R79 -/
def PIER_TSET_TRRD_L (k : Nat) : Fld := ⟨(0x60 + 0x80 * k) + 0x14, 24, 8, .rw, 0⟩
/-- R79 -/
def PIER_TSET_TFAW (k : Nat) : Fld := ⟨(0x60 + 0x80 * k) + 0x18, 0, 10, .rw, 0⟩
/-- R79 -/
def PIER_TSET_TWTR_S (k : Nat) : Fld := ⟨(0x60 + 0x80 * k) + 0x18, 10, 10, .rw, 0⟩
/-- R79 -/
def PIER_TSET_TWTR_L (k : Nat) : Fld := ⟨(0x60 + 0x80 * k) + 0x18, 20, 10, .rw, 0⟩
/-- R104 -/
def PORT_XLAT_CTL_OWNER_ME : Fld := ⟨0x300, 0, 6, .rw, 0⟩
/-- R104 -/
def PORT_XLAT_STAT_WALKS : Fld := ⟨0x304, 0, 6, .ro, 0⟩
/-- R104 -/
def PORT_XLAT_STAT_HELD : Fld := ⟨0x304, 8, 9, .ro, 0⟩
/-- R104 -/
def PORT_XLAT_STAT_HOLD_FULL : Fld := ⟨0x304, 17, 1, .ro, 0⟩
/-- R104 -/
def PORT_INV_VIA_VIA : Fld := ⟨0x308, 12, 45, .rw, 0⟩
/-- R104 -/
def PORT_INV_SCOPE_VI_TAG : Fld := ⟨0x310, 0, 16, .rw, 0⟩
/-- R104 -/
def PORT_INV_SCOPE_SCOPE : Fld := ⟨0x310, 16, 2, .rw, 0⟩
/-- R104 -/
def PORT_INV_SCOPE_COUNT : Fld := ⟨0x310, 18, 14, .rw, 0⟩
/-- R104 -/
def PORT_TLB_INV_GO : Fld := ⟨0x314, 0, 1, .wo, 0⟩
/-- R104 -/
def PORT_WALK_INV_GO : Fld := ⟨0x318, 0, 1, .wo, 0⟩
/-- R104 -/
def PORT_INV_STAT_BUSY : Fld := ⟨0x31C, 0, 1, .ro, 0⟩
/-- R104 -/
def PORT_INV_STAT_REFUSED : Fld := ⟨0x31C, 1, 1, .w1c, 0⟩
/-- R104 -/
def PORT_INV_STAT_DONE : Fld := ⟨0x31C, 16, 16, .ro, 0⟩
/-- R105 -/
def HUB_XLAT_FSPAN_FRAME_SPANS : Fld := ⟨0x40, 0, 8, .rwl, 0⟩
/-- R105 -/
def HUB_XLAT_DESC_BASE_BASE : Fld := ⟨0x48, 0, 36, .rwl, 0⟩
/-- R105 -/
def HUB_XLAT_DESC_CNT_COUNT : Fld := ⟨0x50, 0, 40, .rwl, 0⟩
/-- R131 -/
def PIER_SAMP_CTL_EN : Fld := ⟨0x600, 0, 1, .rw, 1⟩
/-- R131 -/
def PIER_SAMP_CTL_N : Fld := ⟨0x600, 8, 17, .rw, 1024⟩
/-- R131 -/
def PIER_SAMP_STAT_DROPS : Fld := ⟨0x604, 16, 16, .w1c, 0⟩
/-- R131 -/
def PIER_SAMP_BASE_BASE : Fld := ⟨0x608, 0, 36, .rwl, 0⟩
/-- R131 -/
def PIER_SAMP_PTR_HEAD : Fld := ⟨0x610, 0, 13, .ro, 0⟩
/-- R131 -/
def PIER_SAMP_PTR_TAIL : Fld := ⟨0x610, 16, 13, .rw, 0⟩
/-- R132 -/
def HUB_XLAT_MIRROR_MIRROR_SPANS : Fld := ⟨0x58, 0, 8, .rwl, 0⟩
/-- R159 -/
def PIER_CODEC_CTL_CODE_MODE : Fld := ⟨0x700, 0, 2, .rw, 0⟩
/-- R159 -/
def PIER_CODEC_CTL_COMP0_OFF : Fld := ⟨0x700, 2, 1, .ro, 0⟩
/-- R159 -/
def PIER_CODEC_CTL_COMP1_OFF : Fld := ⟨0x700, 3, 1, .ro, 0⟩
/-- R159 -/
def PIER_CODEC_CTL_STRIPE_CLOSE_US : Fld := ⟨0x700, 16, 16, .rw, 200⟩
/-- R159 -/
def PIER_VFY_CNT_COUNT : Fld := ⟨0x704, 0, 31, .ro, 0⟩
/-- R159 -/
def PIER_VFY_CNT_SAT : Fld := ⟨0x704, 31, 1, .w1c, 0⟩
/-- R159 -/
def PIER_RAW_CNT_COUNT : Fld := ⟨0x708, 0, 31, .ro, 0⟩
/-- R159 -/
def PIER_RAW_CNT_SAT : Fld := ⟨0x708, 31, 1, .w1c, 0⟩
/-- R159 -/
def PIER_DEC_ERR_CNT_COUNT : Fld := ⟨0x70C, 0, 31, .ro, 0⟩
/-- R159 -/
def PIER_DEC_ERR_CNT_SAT : Fld := ⟨0x70C, 31, 1, .w1c, 0⟩
/-- R159 -/
def PIER_PS_STAT_FREE_Q : Fld := ⟨0x710, 0, 9, .ro, 0⟩
/-- R159 -/
def PIER_PS_STAT_OPEN : Fld := ⟨0x710, 16, 5, .ro, 0⟩
/-- R159 -/
def PIER_PS_STAT_WBUF : Fld := ⟨0x710, 21, 6, .ro, 0⟩
/-- R159 -/
def PIER_PS_STAT_WBUF_FULL : Fld := ⟨0x710, 27, 1, .ro, 0⟩
/-- R159 -/
def PIER_PS_STAT_PUSH_REFUSED : Fld := ⟨0x710, 28, 1, .w1c, 0⟩
/-- R159 -/
def PIER_PS_PUSH_STRIPE : Fld := ⟨0x718, 0, 32, .wo, 0⟩
/-- R160 -/
def HUB_PS_CTL_PS_SPANS : Fld := ⟨0x60, 0, 8, .rwl, 0⟩
/-- R160 -/
def HUB_PS_SUM_BASE_BASE : Fld := ⟨0x68, 0, 36, .rwl, 0⟩
/-- R191 -/
def HUB_KEY_LOAD_SLOT : Fld := ⟨0x80, 0, 4, .rw, 0⟩
/-- R191 -/
def HUB_KEY_LOAD_MODE : Fld := ⟨0x80, 4, 2, .rw, 0⟩
/-- R191 -/
def HUB_KEY_LOAD_GO : Fld := ⟨0x80, 6, 1, .wo, 0⟩
/-- R191 -/
def HUB_KEY_LOAD_REFUSED : Fld := ⟨0x80, 7, 1, .w1c, 0⟩
/-- R191 -/
def HUB_KEY_CLEAR_SLOT : Fld := ⟨0x84, 0, 4, .rw, 0⟩
/-- R191 -/
def HUB_KEY_CLEAR_GO : Fld := ⟨0x84, 4, 1, .wo, 0⟩
/-- R191 -/
def HUB_KEY_CLEAR_REFUSED : Fld := ⟨0x84, 5, 1, .w1c, 0⟩
/-- R191 -/
def HUB_KMAP_IDX_GIB : Fld := ⟨0x88, 0, 18, .rw, 0⟩
/-- R191 -/
def HUB_KMAP_DATA_SLOT : Fld := ⟨0x8C, 0, 4, .rw, 0⟩
/-- R191 -/
def HUB_KMAP_DATA_EN : Fld := ⟨0x8C, 4, 1, .rw, 0⟩
/-- R191 -/
def HUB_KMAP_DATA_RANK : Fld := ⟨0x8C, 8, 14, .rw, 0⟩
/-- R191 -/
def HUB_KMAP_DATA_REFUSED : Fld := ⟨0x8C, 31, 1, .w1c, 0⟩
/-- R191 -/
def HUB_KROT_CTL_SRC : Fld := ⟨0x90, 0, 4, .ro, 0⟩
/-- R191 -/
def HUB_KROT_CTL_DST : Fld := ⟨0x90, 4, 4, .ro, 0⟩
/-- R191 -/
def HUB_KROT_CTL_BUSY : Fld := ⟨0x90, 8, 1, .ro, 0⟩
/-- R191 -/
def HUB_KROT_BOUND_LINE : Fld := ⟨0x98, 0, 42, .ro, 0⟩
/-- R191 -/
def HUB_KSLOT_STAT_MODE (s : Nat) : Fld := ⟨0x100 + 0x20 * s, 0, 2, .ro, 0⟩
/-- R191 -/
def HUB_KSLOT_STAT_STATE (s : Nat) : Fld := ⟨0x100 + 0x20 * s, 2, 3, .ro, 0⟩
/-- R191 -/
def HUB_KSLOT_STAT_EXHAUST_WARN (s : Nat) : Fld := ⟨0x100 + 0x20 * s, 5, 1, .ro, 0⟩
/-- R191 -/
def HUB_KSLOT_STAT_TREE_LOST (s : Nat) : Fld := ⟨0x100 + 0x20 * s, 6, 1, .ro, 0⟩
/-- R191 -/
def HUB_KSLOT_STAT_TRUSTED (s : Nat) : Fld := ⟨0x100 + 0x20 * s, 7, 1, .ro, 0⟩
/-- R191 -/
def HUB_KSLOT_STAT_LOST (s : Nat) : Fld := ⟨0x100 + 0x20 * s, 8, 7, .ro, 0⟩
/-- R191 -/
def HUB_KSLOT_CTR_BASE (s : Nat) : Fld := ⟨0x108 + 0x20 * s, 0, 36, .rw, 0⟩
/-- R191 -/
def HUB_KSLOT_TREE_LEVELS (s : Nat) : Fld := ⟨0x110 + 0x20 * s, 0, 4, .rw, 0⟩
/-- R191 -/
def HUB_KSLOT_TREE_GRANULES (s : Nat) : Fld := ⟨0x110 + 0x20 * s, 4, 15, .ro, 0⟩
/-- R191 -/
def HUB_KTREE_LVL_BASE (s k : Nat) : Fld := ⟨0x400 + 0x80 * s + 8 * k, 0, 36, .rw, 0⟩
/-- R192 -/
def PIER_TAG_FAIL_CNT_COUNT : Fld := ⟨0x800, 0, 31, .ro, 0⟩
/-- R192 -/
def PIER_TAG_FAIL_CNT_SAT : Fld := ⟨0x800, 31, 1, .w1c, 0⟩
/-- R192 -/
def PIER_CTR_OVF_CNT_COUNT : Fld := ⟨0x804, 0, 31, .ro, 0⟩
/-- R192 -/
def PIER_CTR_OVF_CNT_SAT : Fld := ⟨0x804, 31, 1, .w1c, 0⟩
/-- R192 -/
def PIER_CCACHE_STAT_DIRTY : Fld := ⟨0x808, 0, 14, .ro, 0⟩
/-- R192 -/
def PIER_CCACHE_STAT_PINNED : Fld := ⟨0x808, 16, 8, .ro, 0⟩
/-- R214 -/
def HUB_COH_STAT_TRK_BUSY : Fld := ⟨0x40, 0, 14, .ro, 0⟩
/-- R214 -/
def HUB_COH_STAT_LOST : Fld := ⟨0x40, 16, 8, .ro, 0⟩
/-- R214 -/
def HUB_COH_STAT_SWEEP_ACTIVE : Fld := ⟨0x40, 24, 1, .ro, 0⟩
/-- R214 -/
def HUB_COH_CTL_DIR_FLUSH : Fld := ⟨0x44, 0, 1, .wo, 0⟩
/-- R214 -/
def HUB_COH_CTL_FLUSH_BUSY : Fld := ⟨0x44, 1, 1, .ro, 0⟩
/-- R214 -/
def HUB_DIR_STAT_VALID : Fld := ⟨0x48, 0, 21, .ro, 0⟩
/-- R214 -/
def HUB_DIR_STAT_DIRTY : Fld := ⟨0x48, 21, 21, .ro, 0⟩
/-- R214 -/
def HUB_DIR_STAT_PINNED : Fld := ⟨0x48, 42, 21, .ro, 0⟩
/-- R214 -/
def HUB_DIR_WB_CNT_COUNT : Fld := ⟨0x50, 0, 31, .ro, 0⟩
/-- R214 -/
def HUB_DIR_WB_CNT_SAT : Fld := ⟨0x50, 31, 1, .w1c, 0⟩
/-- R214 -/
def HUB_BI_CNT_COUNT : Fld := ⟨0x54, 0, 31, .ro, 0⟩
/-- R214 -/
def HUB_BI_CNT_SAT : Fld := ⟨0x54, 31, 1, .w1c, 0⟩
/-- R214 -/
def HUB_BI_TIMEOUT_CNT_COUNT : Fld := ⟨0x58, 0, 31, .ro, 0⟩
/-- R214 -/
def HUB_BI_TIMEOUT_CNT_SAT : Fld := ⟨0x58, 31, 1, .w1c, 0⟩
/-- R214 -/
def HUB_COH_LOST_CNT_DROPPED (k : Nat) : Fld := ⟨0x80 + 8 * k, 0, 32, .ro, 0⟩
/-- R214 -/
def HUB_COH_LOST_CNT_POISONED (k : Nat) : Fld := ⟨0x80 + 8 * k, 32, 32, .ro, 0⟩
/-- R215 -/
def PORT_BI_STAT_OUTSTANDING : Fld := ⟨0x340, 0, 7, .ro, 0⟩
/-- R215 -/
def PORT_BI_STAT_PROTOCOL : Fld := ⟨0x340, 8, 1, .w1c, 0⟩
/-- R215 -/
def PORT_BI_STAT_CONFLICTS : Fld := ⟨0x340, 16, 16, .ro, 0⟩
/-- R234 -/
def HUB_VI_STAT_USED : Fld := ⟨0x40, 0, 17, .ro, 0⟩
/-- R234 -/
def HUB_VI_FQ_BASE_BASE : Fld := ⟨0x48, 0, 36, .rwl, 0⟩
/-- R234 -/
def HUB_VI_CTX_IDX_TAG : Fld := ⟨0x50, 0, 16, .rw, 0⟩
/-- R264 -/
def PORT_LINK_STAT_UP : Fld := ⟨0x40, 0, 1, .ro, 0⟩
/-- R264 -/
def PORT_LINK_STAT_SPEED : Fld := ⟨0x40, 1, 2, .ro, 0⟩
/-- R264 -/
def PORT_LINK_STAT_WIDTH : Fld := ⟨0x40, 3, 5, .ro, 0⟩
/-- R264 -/
def PORT_LINK_STAT_FLIT : Fld := ⟨0x40, 8, 2, .ro, 0⟩
/-- R264 -/
def PORT_LINK_STAT_IN_GRACE : Fld := ⟨0x40, 10, 1, .ro, 0⟩
/-- R264 -/
def PORT_LINK_STAT_IDE_ON : Fld := ⟨0x40, 11, 1, .ro, 0⟩
/-- R264 -/
def PORT_LINK_CTL_L0P_EN : Fld := ⟨0x44, 0, 1, .rw, 0⟩
/-- R264 -/
def PORT_GRACE_GRACE_US : Fld := ⟨0x48, 0, 20, .rws, 10000⟩
/-- R264 -/
def PORT_DOWN_STAT_DOWNS : Fld := ⟨0x4C, 0, 16, .ro, 0⟩
/-- R264 -/
def PORT_DOWN_STAT_DISCARDED : Fld := ⟨0x4C, 16, 16, .ro, 0⟩
/-- R264 -/
def PORT_HOST_CRED_NDR : Fld := ⟨0x50, 0, 10, .ro, 0⟩
/-- R264 -/
def PORT_HOST_CRED_DRS : Fld := ⟨0x50, 10, 10, .ro, 0⟩
/-- R264 -/
def PORT_HOST_CRED_BISNP : Fld := ⟨0x50, 20, 10, .ro, 0⟩
/-- R264 -/
def PORT_HOST_CRED_HDMH_FORCED : Fld := ⟨0x50, 30, 1, .ro, 0⟩
/-- R264 -/
def PORT_TIMEOUT_CNT_COUNT : Fld := ⟨0x54, 0, 31, .ro, 0⟩
/-- R264 -/
def PORT_TIMEOUT_CNT_SAT : Fld := ⟨0x54, 31, 1, .w1c, 0⟩
/-- R264 -/
def PORT_IDE_FAIL_CNT_COUNT : Fld := ⟨0x58, 0, 31, .ro, 0⟩
/-- R264 -/
def PORT_IDE_FAIL_CNT_SAT : Fld := ⟨0x58, 31, 1, .w1c, 0⟩
/-- R264 -/
def PORT_PINS_PERST_N : Fld := ⟨0x5C, 0, 1, .ro, 0⟩
/-- R264 -/
def PORT_PINS_URG : Fld := ⟨0x5C, 1, 2, .ro, 0⟩
/-- R264 -/
def PORT_PINS_CLKREQ_N : Fld := ⟨0x5C, 3, 1, .ro, 1⟩
/-- R277 -/
def PACER_CTL_CEIL_PCT : Fld := ⟨0x40, 0, 7, .rw, 85⟩
/-- R277 -/
def PACER_CTL_EFF_PCT : Fld := ⟨0x40, 8, 7, .rw, 80⟩
/-- R277 -/
def PACER_CTL_URG3_MAX_MS : Fld := ⟨0x40, 16, 8, .rw, 100⟩
/-- R277 -/
def PACER_CTL_BG_FLOOR_PCT : Fld := ⟨0x40, 24, 5, .rw, 5⟩
/-- R277 -/
def PACER_STAT_SCALE : Fld := ⟨0x44, 0, 13, .ro, 4096⟩
/-- R277 -/
def PACER_STAT_SHORTFALL : Fld := ⟨0x44, 13, 1, .ro, 0⟩
/-- R277 -/
def PACER_STAT_URG3 : Fld := ⟨0x44, 16, 8, .ro, 0⟩
/-- R277 -/
def PACER_STAT_HOT_ANY : Fld := ⟨0x44, 24, 8, .ro, 0⟩
/-- R277 -/
def PACER_DELIV_D_Q : Fld := ⟨0x48, 0, 16, .ro, 0⟩
/-- R277 -/
def PACER_DELIV_CEIL_Q : Fld := ⟨0x48, 16, 16, .ro, 0⟩
/-- R277 -/
def PACER_GUAR_SUM_SUM_Q : Fld := ⟨0x4C, 0, 16, .ro, 0⟩
/-- R277 -/
def PACER_SHORT_CNT_COUNT : Fld := ⟨0x50, 0, 31, .ro, 0⟩
/-- R277 -/
def PACER_SHORT_CNT_SAT : Fld := ⟨0x50, 31, 1, .w1c, 0⟩
/-- R277 -/
def PACER_PORT_GUAR_Q (k : Nat) : Fld := ⟨0x60 + 4 * k, 0, 10, .rws, 0⟩
/-- R277 -/
def PACER_PORT_URG (k : Nat) : Fld := ⟨0x60 + 4 * k, 16, 2, .ro, 0⟩
/-- R277 -/
def PACER_PORT_OVERSTAY (k : Nat) : Fld := ⟨0x60 + 4 * k, 18, 1, .w1c, 0⟩
/-- R277 -/
def PACER_PORT_REFUSED (k : Nat) : Fld := ⟨0x60 + 4 * k, 19, 1, .w1c, 0⟩
/-- R277 -/
def PACER_PORT_SCALE_K (k : Nat) : Fld := ⟨0x60 + 4 * k, 20, 12, .ro, 4095⟩
/-- R277 -/
def PACER_CLASS_WEIGHT (c : Nat) : Fld := ⟨0x80 + 4 * c, 0, 8, .rw, 16⟩
/-- R277 -/
def PACER_PIER_DELIV_Q (p : Nat) : Fld := ⟨0xA0 + 4 * p, 0, 12, .ro, 0⟩
/-- R277 -/
def PACER_PIER_RESERVE_Q (p : Nat) : Fld := ⟨0xA0 + 4 * p, 16, 12, .ro, 0⟩
/-- R277 -/
def PACER_PIER_HOT (p : Nat) : Fld := ⟨0xA0 + 4 * p, 28, 1, .ro, 0⟩
/-- R300 -/
def VDT_CTL_MAX_SPEED : Fld := ⟨0x40, 0, 2, .rwl, 2⟩
/-- R300 -/
def VDT_CTL_RETRY : Fld := ⟨0x40, 2, 1, .wo, 0⟩
/-- R300 -/
def VDT_STAT_STATE : Fld := ⟨0x44, 0, 3, .ro, 0⟩
/-- R300 -/
def VDT_STAT_WIDTH_TX : Fld := ⟨0x44, 3, 2, .ro, 0⟩
/-- R300 -/
def VDT_STAT_WIDTH_RX : Fld := ⟨0x44, 5, 2, .ro, 0⟩
/-- R300 -/
def VDT_STAT_SPEED : Fld := ⟨0x44, 7, 2, .ro, 2⟩
/-- R300 -/
def VDT_STAT_SPARES_TX : Fld := ⟨0x44, 9, 2, .ro, 0⟩
/-- R300 -/
def VDT_STAT_SPARES_RX : Fld := ⟨0x44, 11, 2, .ro, 0⟩
/-- R300 -/
def VDT_STAT_FALLBACK : Fld := ⟨0x44, 13, 1, .ro, 0⟩
/-- R300 -/
def VDT_STAT_OFFLINE : Fld := ⟨0x44, 14, 1, .ro, 0⟩
/-- R300 -/
def VDT_GRACE_GRACE_US : Fld := ⟨0x48, 0, 14, .rws, 100⟩
/-- R300 -/
def VDT_UNACK_COUNT : Fld := ⟨0x4C, 0, 11, .ro, 0⟩
/-- R300 -/
def VDT_LANE_FAIL_TX_LANES : Fld := ⟨0x50, 0, 64, .ro, 0⟩
/-- R300 -/
def VDT_LANE_FAIL_RX_LANES : Fld := ⟨0x58, 0, 64, .ro, 0⟩
/-- R300 -/
def VDT_CRC_ERR_CNT_COUNT : Fld := ⟨0x60, 0, 31, .ro, 0⟩
/-- R300 -/
def VDT_CRC_ERR_CNT_SAT : Fld := ⟨0x60, 31, 1, .w1c, 0⟩
/-- R300 -/
def VDT_REPLAY_CNT_COUNT : Fld := ⟨0x64, 0, 31, .ro, 0⟩
/-- R300 -/
def VDT_REPLAY_CNT_SAT : Fld := ⟨0x64, 31, 1, .w1c, 0⟩
/-- R300 -/
def VDT_DROP_CNT_COUNT : Fld := ⟨0x68, 0, 31, .ro, 0⟩
/-- R300 -/
def VDT_DROP_CNT_SAT : Fld := ⟨0x68, 31, 1, .w1c, 0⟩
/-- R300 -/
def VDT_RETRAIN_CNT_COUNT : Fld := ⟨0x6C, 0, 31, .ro, 0⟩
/-- R300 -/
def VDT_RETRAIN_CNT_SAT : Fld := ⟨0x6C, 31, 1, .w1c, 0⟩
/-- R300 -/
def VDT_CRED_ADV_HDR (v : Nat) : Fld := ⟨0x70 + 4 * v, 0, 12, .ro, 0⟩
/-- R300 -/
def VDT_CRED_ADV_DATA (v : Nat) : Fld := ⟨0x70 + 4 * v, 12, 12, .ro, 0⟩
/-- R320 -/
def MBX_CMD_OPCODE (s : Nat) : Fld := ⟨(0x200 + 0x200 * s) + 0x0, 0, 16, .rw, 0⟩
/-- R320 -/
def MBX_CMD_LEN (s : Nat) : Fld := ⟨(0x200 + 0x200 * s) + 0x0, 16, 8, .rw, 0⟩
/-- R320 -/
def MBX_CMD_GO (s : Nat) : Fld := ⟨(0x200 + 0x200 * s) + 0x0, 31, 1, .wo, 0⟩
/-- R320 -/
def MBX_STAT_BUSY (s : Nat) : Fld := ⟨(0x200 + 0x200 * s) + 0x4, 0, 1, .ro, 0⟩
/-- R320 -/
def MBX_STAT_DONE (s : Nat) : Fld := ⟨(0x200 + 0x200 * s) + 0x4, 1, 1, .w1c, 0⟩
/-- R320 -/
def MBX_STAT_REFUSED (s : Nat) : Fld := ⟨(0x200 + 0x200 * s) + 0x4, 2, 1, .w1c, 0⟩
/-- R320 -/
def MBX_STAT_STATUS (s : Nat) : Fld := ⟨(0x200 + 0x200 * s) + 0x4, 8, 8, .ro, 0⟩
/-- R335 -/
def SEQ_CTL_LENGTH (b : Nat) : Fld := ⟨b + 0x0, 0, 10, .rwl, 0⟩
/-- R335 -/
def SEQ_CTL_HALTED (b : Nat) : Fld := ⟨b + 0x0, 10, 1, .ro, 0⟩
/-- R335 -/
def SEQ_STAT_CONTEXTS (b : Nat) : Fld := ⟨b + 0x4, 0, 10, .ro, 0⟩
/-- R335 -/
def SEQ_STAT_JOBQ (b : Nat) : Fld := ⟨b + 0x4, 10, 6, .ro, 0⟩
/-- R335 -/
def SEQ_STAT_FAULT_STEP (b : Nat) : Fld := ⟨b + 0x4, 16, 9, .ro, 0⟩
/-- R335 -/
def SEQ_TBL_IDX_STEP (b : Nat) : Fld := ⟨b + 0x8, 0, 9, .rw, 0⟩
/-- R335 -/
def SEQ_TBL_DATA_STEP (b : Nat) : Fld := ⟨b + 0x10, 0, 64, .ro, 0⟩
/-- R336 -/
def HUB_LAP_CTL_BATON : Fld := ⟨0x40, 0, 2, .ro, 0⟩
/-- R336 -/
def HUB_LAP_CTL_COAST : Fld := ⟨0x40, 2, 1, .ro, 0⟩
/-- R336 -/
def HUB_LAP_CTL_PASS : Fld := ⟨0x40, 3, 1, .wo, 0⟩
/-- R336 -/
def HUB_LAP_CTL_RESTART : Fld := ⟨0x40, 4, 4, .wo, 0⟩
/-- R336 -/
def HUB_LAP_CTL_FENCED : Fld := ⟨0x40, 8, 4, .ro, 0⟩
/-- R336 -/
def HUB_LAP_STAT_MISSED : Fld := ⟨0x44, 0, 2, .ro, 0⟩
/-- R336 -/
def HUB_LAP_STAT_PASSES : Fld := ⟨0x44, 16, 16, .ro, 0⟩
/-- R336 -/
def HUB_LAP_BEAT_BEAT : Fld := ⟨0x48, 0, 32, .wo, 0⟩
/-- R336 -/
def HUB_ENG_IDX_ENGINE : Fld := ⟨0x50, 0, 6, .rw, 0⟩
/-- R336 -/
def HUB_ENG_CTL_HALT : Fld := ⟨0x54, 0, 1, .rw, 0⟩
/-- R336 -/
def HUB_ENG_CTL_RESTART : Fld := ⟨0x54, 1, 1, .wo, 0⟩
/-- R336 -/
def HUB_ENG_CTL_FENCED : Fld := ⟨0x54, 2, 1, .ro, 0⟩
/-- R336 -/
def HUB_ENG_CTL_RUNNING : Fld := ⟨0x54, 3, 1, .ro, 0⟩
/-- R336 -/
def HUB_ENG_CTL_RESTARTS : Fld := ⟨0x54, 8, 8, .ro, 0⟩
/-- R336 -/
def HUB_ENG_DOORBELL_BELLS : Fld := ⟨0x58, 0, 32, .ro, 0⟩
/-- R336 -/
def HUB_ENG_IEI_MASK_ALLOW : Fld := ⟨0x60, 0, 64, .rw, 0xffffffffffffffff⟩
/-- R336 -/
def HUB_ENG_IEI_FAIL_FAILED : Fld := ⟨0x68, 0, 64, .w1c, 0⟩
/-- R336 -/
def HUB_EVT_MQ_BASE_BASE : Fld := ⟨0x80, 0, 36, .rwl, 0⟩
/-- R336 -/
def HUB_EVT_MQ_PTR_HEAD : Fld := ⟨0x88, 0, 12, .ro, 0⟩
/-- R336 -/
def HUB_EVT_MQ_PTR_TAIL : Fld := ⟨0x88, 16, 12, .rw, 0⟩
/-- R336 -/
def HUB_EVT_MISSED_IDX_SOURCE : Fld := ⟨0x90, 0, 9, .rw, 0⟩
/-- R336 -/
def HUB_EVT_MISSED_COUNT : Fld := ⟨0x94, 0, 16, .ro, 0⟩
/-- R336 -/
def HUB_EVT_MISSED_MAX : Fld := ⟨0x94, 16, 1, .ro, 0⟩
/-- R336 -/
def HUB_EVT_MISSED_CLEAR : Fld := ⟨0x94, 31, 1, .wo, 0⟩
/-- R336 -/
def HUB_EVT_ALERT_PEND : Fld := ⟨0x98, 0, 1, .ro, 0⟩
/-- R336 -/
def HUB_JNL_HELD : Fld := ⟨0xA0, 0, 11, .ro, 0⟩
/-- R336 -/
def HUB_JNL_BUF : Fld := ⟨0xA0, 11, 7, .ro, 0⟩
/-- R336 -/
def HUB_JNL_DEFERRED : Fld := ⟨0xA0, 18, 1, .ro, 0⟩
/-- R336 -/
def HUB_TIME_NS : Fld := ⟨0xA8, 0, 64, .ro, 0⟩
/-- R355 -/
def TEL_LAP_CTL_INTERVAL_US : Fld := ⟨0x40, 0, 20, .rws, 0⟩
/-- R355 -/
def TEL_LAP_STAT_RUNNING : Fld := ⟨0x44, 0, 1, .ro, 0⟩
/-- R355 -/
def TEL_LAP_STAT_STOPPED : Fld := ⟨0x44, 1, 1, .w1c, 0⟩
/-- R355 -/
def TEL_LAP_STAT_SKIPPED : Fld := ⟨0x44, 16, 16, .ro, 0⟩
/-- R355 -/
def TEL_LAP_NUM_LAP : Fld := ⟨0x48, 0, 64, .ro, 0⟩
/-- R355 -/
def TEL_FREEZE_FREEZE : Fld := ⟨0x50, 0, 1, .rw, 0⟩
/-- R355 -/
def TEL_FREEZE_CLEAR : Fld := ⟨0x50, 1, 1, .wo, 0⟩
/-- R355 -/
def TEL_DA_LO_LINE (r : Nat) : Fld := ⟨0x80 + 0x10 * r, 6, 42, .rw, 0⟩
/-- R355 -/
def TEL_DA_HI_LINE (r : Nat) : Fld := ⟨0x88 + 0x10 * r, 6, 42, .rw, 0⟩
/-- R384 -/
def CLK_ROOT_CTL_ROOT_SEL : Fld := ⟨0x40, 0, 3, .rws, 0⟩
/-- R384 -/
def CLK_ROOT_CTL_BACKUP : Fld := ⟨0x40, 3, 3, .rws, 0⟩
/-- R384 -/
def CLK_ROOT_CTL_ARM : Fld := ⟨0x40, 6, 1, .rws, 0⟩
/-- R384 -/
def CLK_ROOT_CTL_AUTO_ARM : Fld := ⟨0x40, 7, 1, .rws, 0⟩
/-- R384 -/
def CLK_ROOT_CTL_SEL_ERR : Fld := ⟨0x40, 8, 1, .w1c, 0⟩
/-- R384 -/
def CLK_ROOT_CTL_ARM_ERR : Fld := ⟨0x40, 9, 1, .w1c, 0⟩
/-- R384 -/
def CLK_ROOT_STAT_ROOT : Fld := ⟨0x44, 0, 3, .ro, 0⟩
/-- R384 -/
def CLK_ROOT_STAT_UNQUALIFIED : Fld := ⟨0x44, 3, 1, .ro, 0⟩
/-- R384 -/
def CLK_ROOT_STAT_HOLDOVER : Fld := ⟨0x44, 4, 1, .ro, 0⟩
/-- R384 -/
def CLK_ROOT_STAT_ARMED : Fld := ⟨0x44, 5, 1, .ro, 0⟩
/-- R384 -/
def CLK_ROOT_STAT_SWITCHING : Fld := ⟨0x44, 6, 1, .ro, 0⟩
/-- R384 -/
def CLK_ROOT_STAT_PRESENT : Fld := ⟨0x44, 8, 8, .ro, 0⟩
/-- R384 -/
def CLK_ROOT_STAT_READY : Fld := ⟨0x44, 16, 8, .ro, 0⟩
/-- R384 -/
def CLK_ROOT_CNT_FAILOVERS : Fld := ⟨0x48, 0, 16, .ro, 0⟩
/-- R384 -/
def CLK_ROOT_CNT_SWITCHES : Fld := ⟨0x48, 16, 16, .ro, 0⟩
/-- R384 -/
def CLK_CAND_PPM (k : Nat) : Fld := ⟨0x60 + 4 * k, 0, 16, .ro, 0⟩
/-- R384 -/
def CLK_CAND_REF (k : Nat) : Fld := ⟨0x60 + 4 * k, 16, 3, .ro, 0⟩
/-- R384 -/
def CLK_CAND_RUN (k : Nat) : Fld := ⟨0x60 + 4 * k, 19, 2, .ro, 0⟩
/-- R384 -/
def CLK_DOM_PLL (d : Nat) : Fld := ⟨0x100 + 4 * d, 0, 5, .rwl, 0⟩
/-- R384 -/
def CLK_DOM_DIV (d : Nat) : Fld := ⟨0x100 + 4 * d, 5, 6, .rwl, 0⟩
/-- R384 -/
def CLK_DOM_RUNNING (d : Nat) : Fld := ⟨0x100 + 4 * d, 16, 1, .ro, 0⟩
/-- R384 -/
def CLK_PLL_MULT (p : Nat) : Fld := ⟨0x200 + 4 * p, 0, 8, .rwl, 0⟩
/-- R384 -/
def CLK_PLL_LOCK (p : Nat) : Fld := ⟨0x200 + 4 * p, 8, 1, .ro, 0⟩
/-- R384 -/
def CLK_PLL_HOLD (p : Nat) : Fld := ⟨0x200 + 4 * p, 9, 1, .ro, 0⟩
/-- R384 -/
def CLK_GATE_IDX_NODE : Fld := ⟨0x300, 0, 8, .rw, 0⟩
/-- R384 -/
def CLK_GATE_CTL_CLOSE : Fld := ⟨0x304, 0, 1, .wo, 0⟩
/-- R384 -/
def CLK_GATE_CTL_OPEN : Fld := ⟨0x304, 1, 1, .wo, 0⟩
/-- R384 -/
def CLK_GATE_CTL_CLOSED : Fld := ⟨0x304, 2, 1, .ro, 0⟩
/-- R384 -/
def CLK_GATE_CTL_PENDING : Fld := ⟨0x304, 3, 1, .ro, 0⟩
/-- R384 -/
def CLK_GATE_CTL_REFUSED : Fld := ⟨0x304, 4, 1, .w1c, 0⟩
/-- R384 -/
def CLK_GATE_CTL_CAUSE : Fld := ⟨0x304, 5, 3, .ro, 0⟩
/-- R384 -/
def CLK_AUTO_AUTO_GATE : Fld := ⟨0x308, 0, 1, .rw, 1⟩
/-- R384 -/
def CLK_GATE_STAT_ACCESS_CLOSED : Fld := ⟨0x30C, 0, 1, .w1c, 0⟩
/-- R385 -/
def PWR_CTL_REQ : Fld := ⟨0x40, 0, 3, .wo, 0⟩
/-- R385 -/
def PWR_CTL_WAKE : Fld := ⟨0x40, 3, 1, .wo, 0⟩
/-- R385 -/
def PWR_CTL_SKIP_SAVE : Fld := ⟨0x40, 4, 1, .wo, 0⟩
/-- R385 -/
def PWR_CTL_IDLE_EN : Fld := ⟨0x40, 5, 1, .rws, 1⟩
/-- R385 -/
def PWR_CTL_SLEEP_TIMER_MS : Fld := ⟨0x40, 16, 16, .rws, 0⟩
/-- R385 -/
def PWR_STAT_STATE : Fld := ⟨0x44, 0, 3, .ro, 0⟩
/-- R385 -/
def PWR_STAT_PREP : Fld := ⟨0x44, 3, 1, .ro, 0⟩
/-- R385 -/
def PWR_STAT_ENTERING : Fld := ⟨0x44, 4, 1, .ro, 0⟩
/-- R385 -/
def PWR_STAT_EXITING : Fld := ⟨0x44, 5, 1, .ro, 0⟩
/-- R385 -/
def PWR_STAT_WAKE_LATCHED : Fld := ⟨0x44, 6, 1, .ro, 0⟩
/-- R385 -/
def PWR_STAT_REFUSED : Fld := ⟨0x44, 7, 1, .w1c, 0⟩
/-- R385 -/
def PWR_STAT_CAUSE : Fld := ⟨0x44, 8, 3, .ro, 0⟩
/-- R385 -/
def PWR_STAT_SAVE_WAIT : Fld := ⟨0x44, 11, 1, .ro, 0⟩
/-- R385 -/
def PWR_STAT_LAST_WAKE : Fld := ⟨0x44, 16, 3, .ro, 0⟩
/-- R385 -/
def PWR_IDLE_ENTRY_US : Fld := ⟨0x48, 0, 16, .rws, 100⟩
/-- R385 -/
def PWR_IDLE_CNT_COUNT : Fld := ⟨0x4C, 0, 31, .ro, 0⟩
/-- R385 -/
def PWR_IDLE_CNT_SAT : Fld := ⟨0x4C, 31, 1, .w1c, 0⟩
/-- R385 -/
def PWR_HOLD_CFG_CAP_10UF : Fld := ⟨0x50, 0, 16, .rwl, 0⟩
/-- R385 -/
def PWR_HOLD_CFG_RATIO : Fld := ⟨0x50, 16, 8, .rwl, 0⟩
/-- R385 -/
def PWR_HOLD_VMIN_VMIN_MV : Fld := ⟨0x54, 0, 16, .rwl, 0⟩
/-- R385 -/
def PWR_HOLD_VMIN_HOLD_EN : Fld := ⟨0x54, 16, 1, .rwl, 0⟩
/-- R385 -/
def PWR_HOLD_STAT_VHOLD_MV : Fld := ⟨0x58, 0, 10, .ro, 0⟩
/-- R385 -/
def PWR_HOLD_STAT_PASS : Fld := ⟨0x58, 10, 3, .ro, 0⟩
/-- R385 -/
def PWR_HOLD_STAT_ENERGY_MJ : Fld := ⟨0x58, 16, 16, .ro, 0⟩
/-- R397 -/
def TRUSS_BOOT_STAT_STAGE : Fld := ⟨0x40, 0, 4, .ro, 0⟩
/-- R397 -/
def TRUSS_BOOT_STAT_CAUSE : Fld := ⟨0x40, 4, 3, .ro, 0⟩
/-- R397 -/
def TRUSS_BOOT_STAT_SLOT : Fld := ⟨0x40, 7, 1, .ro, 0⟩
/-- R397 -/
def TRUSS_BOOT_STAT_FALLBACK : Fld := ⟨0x40, 8, 1, .ro, 0⟩
/-- R397 -/
def TRUSS_BOOT_STAT_DEGRADED : Fld := ⟨0x40, 9, 1, .ro, 0⟩
/-- R397 -/
def TRUSS_BOOT_STAT_HEALTH_USED : Fld := ⟨0x40, 10, 1, .ro, 0⟩
/-- R397 -/
def TRUSS_BOOT_STAT_WARM_REFUSED : Fld := ⟨0x40, 11, 1, .w1c, 0⟩
/-- R397 -/
def TRUSS_BOOT_STAT_SEQ_LO : Fld := ⟨0x40, 16, 16, .ro, 0⟩
/-- R397 -/
def TRUSS_CH_STAT_DISABLED : Fld := ⟨0x44, 0, 16, .ro, 0⟩
/-- R397 -/
def TRUSS_CH_STAT_RETIRED_AT_BOOT : Fld := ⟨0x44, 16, 16, .ro, 0⟩
/-- R397 -/
def TRUSS_CTL_WARM : Fld := ⟨0x48, 0, 1, .wo, 0⟩
/-- R397 -/
def TRUSS_CTL_COLD : Fld := ⟨0x48, 1, 1, .wo, 0⟩
/-- R408 -/
def BLOCK_ID_TYPE : Fld := ⟨0x0, 0, 8, .ro, 0⟩
/-- R408 -/
def BLOCK_ID_INSTANCE : Fld := ⟨0x0, 8, 16, .ro, 0⟩
/-- R408 -/
def BLOCK_VER_LAYOUT : Fld := ⟨0x4, 0, 8, .ro, 1⟩
/-- R408 -/
def BLOCK_VER_STEPPING : Fld := ⟨0x4, 8, 8, .ro, 177⟩
/-- R408 -/
def BLOCK_CTL_CAP_REARM : Fld := ⟨0x8, 0, 1, .wo, 0⟩
/-- R408 -/
def BLOCK_STAT_ACTIVE : Fld := ⟨0xC, 0, 1, .ro, 0⟩
/-- R408 -/
def BLOCK_STAT_OFFLINE : Fld := ⟨0xC, 1, 1, .ro, 0⟩
/-- R408 -/
def BLOCK_STAT_HALTED : Fld := ⟨0xC, 2, 1, .ro, 0⟩
/-- R408 -/
def BLOCK_STAT_CAP_VALID : Fld := ⟨0xC, 3, 1, .ro, 0⟩
/-- R408 -/
def EVT_STAT_RAISED : Fld := ⟨0x10, 0, 16, .w1c, 0⟩
/-- R408 -/
def EVT_ENA_ENA (n : Nat) : Fld := ⟨0x14, 0, 16, .rw, 2 ^ n - 1⟩
/-- R408 -/
def EVT_FORCE_KIND : Fld := ⟨0x18, 0, 16, .rw, 0⟩
/-- R408 -/
def EVT_FORCE_INDEX : Fld := ⟨0x18, 16, 5, .rw, 0⟩
/-- R408 -/
def EVT_FORCE_SEV : Fld := ⟨0x18, 21, 2, .rw, 0⟩
/-- R408 -/
def EVT_FORCE_GO : Fld := ⟨0x18, 31, 1, .wo, 0⟩
/-- R408 -/
def EVT_ROUTE_JNL : Fld := ⟨0x1C, 0, 16, .rw, 0⟩
/-- R408 -/
def EVT_ROUTE_ALERT : Fld := ⟨0x1C, 16, 16, .rw, 0⟩
/-- R412 -/
def HUB_DAW_BASE_EN : Fld := ⟨0x40, 0, 1, .rw, 0⟩
/-- R412 -/
def HUB_DAW_BASE_POISON : Fld := ⟨0x40, 1, 1, .w1c, 0⟩
/-- R412 -/
def HUB_DAW_BASE_BASE : Fld := ⟨0x40, 25, 23, .rw, 0⟩
/-- R79 -/
def PIER_TSET_PHY_DELAY (k i : Nat) : Fld := ⟨0x60 + 0x80 * k + 0x1C + 4 * i, 0, 32, .rw, 0⟩

/-- The fields of the PIER registers. -/
def pierOwn : List Fld :=
  [PIER_LIU_CTL_SCRUB_EN, PIER_LIU_CTL_CE_FREEZE, PIER_LIU_CTL_SCRUB_HOURS, PIER_LIU_CTL_UE_LIMIT, PIER_LIU_CTL_UE_WINDOW_H, PIER_LIU_STAT_SCRUB_ACTIVE]
  ++ [PIER_LIU_STAT_SCRUB_LATE, PIER_LIU_STAT_SCRUB_PASSES, PIER_CE_CNT_COUNT, PIER_CE_CNT_SAT, PIER_RC_CNT_COUNT, PIER_RC_CNT_SAT]
  ++ [PIER_UE_CNT_COUNT, PIER_UE_CNT_SAT, PIER_CE_HEAD_NEXT, PIER_CE_HEAD_OVERFLOW, PIER_DCTL_CH_EN, PIER_DCTL_PAGE_POL]
  ++ [PIER_DCTL_ADAPT_NS, PIER_DCTL_THROTTLE, PIER_GEOM_DPC2, PIER_GEOM_MRDIMM, PIER_GEOM_RPM, PIER_GEOM_DEV_X8]
  ++ [PIER_GEOM_ROW, PIER_GEOM_SPARE_PRESENT, PIER_GEOM_SPARE_RANK, PIER_SPEED_RATE, PIER_SPEED_ACTIVE_SET, PIER_SPEED_SWITCH]
  ++ [PIER_SPEED_BUSY, PIER_SPEED_REFUSED, PIER_TRAIN_PERIOD_MS, PIER_TRAIN_FROZEN, PIER_TRAIN_STAT_PAUSES, PIER_TRAIN_STAT_DRIFT_LIMIT]
  ++ [PIER_TRAIN_STAT_TRAIN_FAIL, PIER_TRAIN_STAT_FAIL_RANK, PIER_REF_SAME_BANK, PIER_REF_DOUBLE, PIER_SPARE_CTL_FAIL_RANK, PIER_SPARE_CTL_SPARE_PIER]
  ++ [PIER_SPARE_CTL_SPARE_PHYS, PIER_SPARE_CTL_LENT, PIER_SPARE_CTL_STATE, PIER_SPARE_CTL_TARGET, PIER_SPARE_CTL_RETIRE_UNCOPIED, PIER_SPARE_BOUND_LINE]
  ++ [PIER_SAMP_CTL_EN, PIER_SAMP_CTL_N, PIER_SAMP_STAT_DROPS, PIER_SAMP_BASE_BASE, PIER_SAMP_PTR_HEAD, PIER_SAMP_PTR_TAIL]
  ++ [PIER_CODEC_CTL_CODE_MODE, PIER_CODEC_CTL_COMP0_OFF, PIER_CODEC_CTL_COMP1_OFF, PIER_CODEC_CTL_STRIPE_CLOSE_US, PIER_VFY_CNT_COUNT, PIER_VFY_CNT_SAT]
  ++ [PIER_RAW_CNT_COUNT, PIER_RAW_CNT_SAT, PIER_DEC_ERR_CNT_COUNT, PIER_DEC_ERR_CNT_SAT, PIER_PS_STAT_FREE_Q, PIER_PS_STAT_OPEN]
  ++ [PIER_PS_STAT_WBUF, PIER_PS_STAT_WBUF_FULL, PIER_PS_STAT_PUSH_REFUSED, PIER_PS_PUSH_STRIPE, PIER_TAG_FAIL_CNT_COUNT, PIER_TAG_FAIL_CNT_SAT]
  ++ [PIER_CTR_OVF_CNT_COUNT, PIER_CTR_OVF_CNT_SAT, PIER_CCACHE_STAT_DIRTY, PIER_CCACHE_STAT_PINNED]
  ++ (List.range 8).map PIER_RANK_UE_COUNT
  ++ (List.range 8).map PIER_RANK_UE_RETIRED
  ++ (List.range 8).map PIER_SHARE_BASE_BASE_G

/-- The fields of the SPAN registers. -/
def spanFields : List Fld :=
  (List.range 8).map HUB_SPAN_BASE_BASE_G
  ++ (List.range 8).map HUB_SPAN_SIZE_SIZE_G
  ++ (List.range 8).map HUB_SPAN_CTL_GRAIN
  ++ (List.range 8).map HUB_SPAN_CTL_COUNT
  ++ (List.range 8).map HUB_SPAN_CTL_MIRRORED
  ++ (List.range 8).map HUB_SPAN_MEMBERS_MEMBER

/-- The fields of the TSET registers. -/
def tsetFields : List Fld :=
  (List.range 2).map PIER_TSET_RATE
  ++ (List.range 2).map PIER_TSET_VALID
  ++ (List.range 2).map PIER_TSET_TCL
  ++ (List.range 2).map PIER_TSET_TCWL
  ++ (List.range 2).map PIER_TSET_TRCD
  ++ (List.range 2).map PIER_TSET_TRP
  ++ (List.range 2).map PIER_TSET_TRAS
  ++ (List.range 2).map PIER_TSET_TRC
  ++ (List.range 2).map PIER_TSET_TWR
  ++ (List.range 2).map PIER_TSET_TRFC
  ++ (List.range 2).map PIER_TSET_TRFCSB
  ++ (List.range 2).map PIER_TSET_TREFI
  ++ (List.range 2).map PIER_TSET_TCCD_S
  ++ (List.range 2).map PIER_TSET_TCCD_L
  ++ (List.range 2).map PIER_TSET_TRRD_S
  ++ (List.range 2).map PIER_TSET_TRRD_L
  ++ (List.range 2).map PIER_TSET_TFAW
  ++ (List.range 2).map PIER_TSET_TWTR_S
  ++ (List.range 2).map PIER_TSET_TWTR_L
  ++ (List.range 2).flatMap (fun k => (List.range 25).map (PIER_TSET_PHY_DELAY k))

/-- The fields of the PORT registers. -/
def portOwn : List Fld :=
  [PORT_XLAT_CTL_OWNER_ME, PORT_XLAT_STAT_WALKS, PORT_XLAT_STAT_HELD, PORT_XLAT_STAT_HOLD_FULL, PORT_INV_VIA_VIA, PORT_INV_SCOPE_VI_TAG]
  ++ [PORT_INV_SCOPE_SCOPE, PORT_INV_SCOPE_COUNT, PORT_TLB_INV_GO, PORT_WALK_INV_GO, PORT_INV_STAT_BUSY, PORT_INV_STAT_REFUSED]
  ++ [PORT_INV_STAT_DONE, PORT_BI_STAT_OUTSTANDING, PORT_BI_STAT_PROTOCOL, PORT_BI_STAT_CONFLICTS, PORT_LINK_STAT_UP, PORT_LINK_STAT_SPEED]
  ++ [PORT_LINK_STAT_WIDTH, PORT_LINK_STAT_FLIT, PORT_LINK_STAT_IN_GRACE, PORT_LINK_STAT_IDE_ON, PORT_LINK_CTL_L0P_EN, PORT_GRACE_GRACE_US]
  ++ [PORT_DOWN_STAT_DOWNS, PORT_DOWN_STAT_DISCARDED, PORT_HOST_CRED_NDR, PORT_HOST_CRED_DRS, PORT_HOST_CRED_BISNP, PORT_HOST_CRED_HDMH_FORCED]
  ++ [PORT_TIMEOUT_CNT_COUNT, PORT_TIMEOUT_CNT_SAT, PORT_IDE_FAIL_CNT_COUNT, PORT_IDE_FAIL_CNT_SAT, PORT_PINS_PERST_N, PORT_PINS_URG]
  ++ [PORT_PINS_CLKREQ_N]

/-- The fields of the XLAT registers. -/
def xlatFields : List Fld :=
  [HUB_XLAT_FSPAN_FRAME_SPANS, HUB_XLAT_DESC_BASE_BASE, HUB_XLAT_DESC_CNT_COUNT, HUB_XLAT_MIRROR_MIRROR_SPANS, HUB_PS_CTL_PS_SPANS, HUB_PS_SUM_BASE_BASE]

/-- The fields of the KEY registers. -/
def keyFields : List Fld :=
  [HUB_KEY_LOAD_SLOT, HUB_KEY_LOAD_MODE, HUB_KEY_LOAD_GO, HUB_KEY_LOAD_REFUSED, HUB_KEY_CLEAR_SLOT, HUB_KEY_CLEAR_GO]
  ++ [HUB_KEY_CLEAR_REFUSED, HUB_KMAP_IDX_GIB, HUB_KMAP_DATA_SLOT, HUB_KMAP_DATA_EN, HUB_KMAP_DATA_RANK, HUB_KMAP_DATA_REFUSED]
  ++ [HUB_KROT_CTL_SRC, HUB_KROT_CTL_DST, HUB_KROT_CTL_BUSY, HUB_KROT_BOUND_LINE]
  ++ (List.range 16).map HUB_KSLOT_STAT_MODE
  ++ (List.range 16).map HUB_KSLOT_STAT_STATE
  ++ (List.range 16).map HUB_KSLOT_STAT_EXHAUST_WARN
  ++ (List.range 16).map HUB_KSLOT_STAT_TREE_LOST
  ++ (List.range 16).map HUB_KSLOT_STAT_TRUSTED
  ++ (List.range 16).map HUB_KSLOT_STAT_LOST
  ++ (List.range 16).map HUB_KSLOT_CTR_BASE
  ++ (List.range 16).map HUB_KSLOT_TREE_LEVELS
  ++ (List.range 16).map HUB_KSLOT_TREE_GRANULES
  ++ (List.range 16).flatMap (fun s => (List.range 10).map (fun k => HUB_KTREE_LVL_BASE s (k + 1)))

/-- The fields of the COH registers. -/
def cohFields : List Fld :=
  [HUB_COH_STAT_TRK_BUSY, HUB_COH_STAT_LOST, HUB_COH_STAT_SWEEP_ACTIVE, HUB_COH_CTL_DIR_FLUSH, HUB_COH_CTL_FLUSH_BUSY, HUB_DIR_STAT_VALID]
  ++ [HUB_DIR_STAT_DIRTY, HUB_DIR_STAT_PINNED, HUB_DIR_WB_CNT_COUNT, HUB_DIR_WB_CNT_SAT, HUB_BI_CNT_COUNT, HUB_BI_CNT_SAT]
  ++ [HUB_BI_TIMEOUT_CNT_COUNT, HUB_BI_TIMEOUT_CNT_SAT]
  ++ (List.range 8).map HUB_COH_LOST_CNT_DROPPED
  ++ (List.range 8).map HUB_COH_LOST_CNT_POISONED

/-- The fields of the HVI registers. -/
def hubViFields : List Fld :=
  [HUB_VI_STAT_USED, HUB_VI_FQ_BASE_BASE, HUB_VI_CTX_IDX_TAG]

/-- The fields of the PACER registers. -/
def pacerFields : List Fld :=
  [PACER_CTL_CEIL_PCT, PACER_CTL_EFF_PCT, PACER_CTL_URG3_MAX_MS, PACER_CTL_BG_FLOOR_PCT, PACER_STAT_SCALE, PACER_STAT_SHORTFALL]
  ++ [PACER_STAT_URG3, PACER_STAT_HOT_ANY, PACER_DELIV_D_Q, PACER_DELIV_CEIL_Q, PACER_GUAR_SUM_SUM_Q, PACER_SHORT_CNT_COUNT]
  ++ [PACER_SHORT_CNT_SAT]
  ++ (List.range 8).map PACER_PORT_GUAR_Q
  ++ (List.range 8).map PACER_PORT_URG
  ++ (List.range 8).map PACER_PORT_OVERSTAY
  ++ (List.range 8).map PACER_PORT_REFUSED
  ++ (List.range 8).map PACER_PORT_SCALE_K
  ++ (List.range 7).map PACER_CLASS_WEIGHT
  ++ (List.range 16).map PACER_PIER_DELIV_Q
  ++ (List.range 16).map PACER_PIER_RESERVE_Q
  ++ (List.range 16).map PACER_PIER_HOT

/-- The fields of the VDT registers. -/
def vdtFields : List Fld :=
  [VDT_CTL_MAX_SPEED, VDT_CTL_RETRY, VDT_STAT_STATE, VDT_STAT_WIDTH_TX, VDT_STAT_WIDTH_RX, VDT_STAT_SPEED]
  ++ [VDT_STAT_SPARES_TX, VDT_STAT_SPARES_RX, VDT_STAT_FALLBACK, VDT_STAT_OFFLINE, VDT_GRACE_GRACE_US, VDT_UNACK_COUNT]
  ++ [VDT_LANE_FAIL_TX_LANES, VDT_LANE_FAIL_RX_LANES, VDT_CRC_ERR_CNT_COUNT, VDT_CRC_ERR_CNT_SAT, VDT_REPLAY_CNT_COUNT, VDT_REPLAY_CNT_SAT]
  ++ [VDT_DROP_CNT_COUNT, VDT_DROP_CNT_SAT, VDT_RETRAIN_CNT_COUNT, VDT_RETRAIN_CNT_SAT]
  ++ (List.range 4).map VDT_CRED_ADV_HDR
  ++ (List.range 4).map VDT_CRED_ADV_DATA

/-- The fields of the MBX registers. -/
def mbxFields : List Fld :=
  (List.range 7).map MBX_CMD_OPCODE
  ++ (List.range 7).map MBX_CMD_LEN
  ++ (List.range 7).map MBX_CMD_GO
  ++ (List.range 7).map MBX_STAT_BUSY
  ++ (List.range 7).map MBX_STAT_DONE
  ++ (List.range 7).map MBX_STAT_REFUSED
  ++ (List.range 7).map MBX_STAT_STATUS

/-- The fields of the SEQ registers. -/
def seqFields (b : Nat) : List Fld :=
  [SEQ_CTL_LENGTH b, SEQ_CTL_HALTED b, SEQ_STAT_CONTEXTS b, SEQ_STAT_JOBQ b, SEQ_STAT_FAULT_STEP b, SEQ_TBL_IDX_STEP b, SEQ_TBL_DATA_STEP b]

/-- The fields of the ENG registers. -/
def engFields : List Fld :=
  [HUB_LAP_CTL_BATON, HUB_LAP_CTL_COAST, HUB_LAP_CTL_PASS, HUB_LAP_CTL_RESTART, HUB_LAP_CTL_FENCED, HUB_LAP_STAT_MISSED]
  ++ [HUB_LAP_STAT_PASSES, HUB_LAP_BEAT_BEAT, HUB_ENG_IDX_ENGINE, HUB_ENG_CTL_HALT, HUB_ENG_CTL_RESTART, HUB_ENG_CTL_FENCED]
  ++ [HUB_ENG_CTL_RUNNING, HUB_ENG_CTL_RESTARTS, HUB_ENG_DOORBELL_BELLS, HUB_ENG_IEI_MASK_ALLOW, HUB_ENG_IEI_FAIL_FAILED, HUB_EVT_MQ_BASE_BASE]
  ++ [HUB_EVT_MQ_PTR_HEAD, HUB_EVT_MQ_PTR_TAIL, HUB_EVT_MISSED_IDX_SOURCE, HUB_EVT_MISSED_COUNT, HUB_EVT_MISSED_MAX, HUB_EVT_MISSED_CLEAR]
  ++ [HUB_EVT_ALERT_PEND, HUB_JNL_HELD, HUB_JNL_BUF, HUB_JNL_DEFERRED, HUB_TIME_NS]

/-- The fields of the TEL registers. -/
def telFields : List Fld :=
  [TEL_LAP_CTL_INTERVAL_US, TEL_LAP_STAT_RUNNING, TEL_LAP_STAT_STOPPED, TEL_LAP_STAT_SKIPPED, TEL_LAP_NUM_LAP, TEL_FREEZE_FREEZE]
  ++ [TEL_FREEZE_CLEAR]
  ++ (List.range 8).map TEL_DA_LO_LINE
  ++ (List.range 8).map TEL_DA_HI_LINE

/-- The fields of the CLK registers. -/
def clkFields : List Fld :=
  [CLK_ROOT_CTL_ROOT_SEL, CLK_ROOT_CTL_BACKUP, CLK_ROOT_CTL_ARM, CLK_ROOT_CTL_AUTO_ARM, CLK_ROOT_CTL_SEL_ERR, CLK_ROOT_CTL_ARM_ERR]
  ++ [CLK_ROOT_STAT_ROOT, CLK_ROOT_STAT_UNQUALIFIED, CLK_ROOT_STAT_HOLDOVER, CLK_ROOT_STAT_ARMED, CLK_ROOT_STAT_SWITCHING, CLK_ROOT_STAT_PRESENT]
  ++ [CLK_ROOT_STAT_READY, CLK_ROOT_CNT_FAILOVERS, CLK_ROOT_CNT_SWITCHES, CLK_GATE_IDX_NODE, CLK_GATE_CTL_CLOSE, CLK_GATE_CTL_OPEN]
  ++ [CLK_GATE_CTL_CLOSED, CLK_GATE_CTL_PENDING, CLK_GATE_CTL_REFUSED, CLK_GATE_CTL_CAUSE, CLK_AUTO_AUTO_GATE, CLK_GATE_STAT_ACCESS_CLOSED]
  ++ (List.range 8).map CLK_CAND_PPM
  ++ (List.range 8).map CLK_CAND_REF
  ++ (List.range 8).map CLK_CAND_RUN
  ++ (List.range 64).map CLK_DOM_PLL
  ++ (List.range 64).map CLK_DOM_DIV
  ++ (List.range 64).map CLK_DOM_RUNNING
  ++ (List.range 24).map CLK_PLL_MULT
  ++ (List.range 24).map CLK_PLL_LOCK
  ++ (List.range 24).map CLK_PLL_HOLD

/-- The fields of the PWR registers. -/
def pwrFields : List Fld :=
  [PWR_CTL_REQ, PWR_CTL_WAKE, PWR_CTL_SKIP_SAVE, PWR_CTL_IDLE_EN, PWR_CTL_SLEEP_TIMER_MS, PWR_STAT_STATE]
  ++ [PWR_STAT_PREP, PWR_STAT_ENTERING, PWR_STAT_EXITING, PWR_STAT_WAKE_LATCHED, PWR_STAT_REFUSED, PWR_STAT_CAUSE]
  ++ [PWR_STAT_SAVE_WAIT, PWR_STAT_LAST_WAKE, PWR_IDLE_ENTRY_US, PWR_IDLE_CNT_COUNT, PWR_IDLE_CNT_SAT, PWR_HOLD_CFG_CAP_10UF]
  ++ [PWR_HOLD_CFG_RATIO, PWR_HOLD_VMIN_VMIN_MV, PWR_HOLD_VMIN_HOLD_EN, PWR_HOLD_STAT_VHOLD_MV, PWR_HOLD_STAT_PASS, PWR_HOLD_STAT_ENERGY_MJ]

/-- The fields of the TRUSS registers. -/
def trussFields : List Fld :=
  [TRUSS_BOOT_STAT_STAGE, TRUSS_BOOT_STAT_CAUSE, TRUSS_BOOT_STAT_SLOT, TRUSS_BOOT_STAT_FALLBACK, TRUSS_BOOT_STAT_DEGRADED, TRUSS_BOOT_STAT_HEALTH_USED]
  ++ [TRUSS_BOOT_STAT_WARM_REFUSED, TRUSS_BOOT_STAT_SEQ_LO, TRUSS_CH_STAT_DISABLED, TRUSS_CH_STAT_RETIRED_AT_BOOT, TRUSS_CTL_WARM, TRUSS_CTL_COLD]

/-- The fields of the HDR registers. -/
def headerFields (n : Nat) : List Fld :=
  [EVT_ENA_ENA n]
  ++ [BLOCK_ID_TYPE, BLOCK_ID_INSTANCE, BLOCK_VER_LAYOUT, BLOCK_VER_STEPPING, BLOCK_CTL_CAP_REARM, BLOCK_STAT_ACTIVE]
  ++ [BLOCK_STAT_OFFLINE, BLOCK_STAT_HALTED, BLOCK_STAT_CAP_VALID, EVT_STAT_RAISED, EVT_FORCE_KIND, EVT_FORCE_INDEX]
  ++ [EVT_FORCE_SEV, EVT_FORCE_GO, EVT_ROUTE_JNL, EVT_ROUTE_ALERT]

/-- The fields of the DAW registers. -/
def dawFields : List Fld :=
  [HUB_DAW_BASE_EN, HUB_DAW_BASE_POISON, HUB_DAW_BASE_BASE]

/-- The fields of a Pier page from 0x040 on. -/
def pierFields : List Fld := pierOwn ++ tsetFields ++ seqFields 0x900

/-- The fields of a port page from 0x040 on. -/
def portFields : List Fld := portOwn ++ seqFields 0x380

end Reg
end Sys2Proof.Machine
end

