-- ==== Sys2Proof/Machine/State.lean ====
section
/-!
DEFINITION. The state of the Kenez as plain data: registers, DRAM and flash contents, translation, coherence, encryption,
packed store, virtual instances, ports, Pacer, viaducts, sequencers, engines, events, telemetry, clocks, power, boot and
the sideband, and the queue of waiting commands.
-/
namespace Sys2Proof.Machine

/-- Why a command faults. -/
inductive Fault where
  /-- Raised by a meaning whose operand list has a length the spec gives no command (WellFormed.lean). Safe: the block
  does nothing on it. -/
  | illFormed
  deriving DecidableEq, Repr

/-- Why a command is refused. -/
inductive Refusal where
  /-- Raised by a dispatch arm whose command has no meaning yet. Safe: no statement speaks of such a command. -/
  | notModelled (mnemonic : String)
  deriving DecidableEq, Repr

/-- A line as the modules hold it: 512 data bits and 128 side bits (R28). -/
structure Line where
  data : BitVec 512
  side : BitVec 128
  deriving DecidableEq, Repr

/-- An event record (R327) by its fields; the VI field is present when VI_V is set. -/
structure Record where
  src : Nat
  kind : Nat
  sev : Nat
  coalesced : Bool
  vi : Option Nat
  time : Nat
  da : Nat
  count : Nat
  detail : Nat
  /-- in a CXL log, the DPA of a record written as a General Media Event (R251); none in every other record, which is a
  DRAM Event for CH_TRAIN_FAIL and RANK_UE_LIMIT and vendor-defined otherwise -/
  media : Option Nat := none
  deriving DecidableEq, Repr

/-- The LD a record's request came from, by port and LD, with the DPA of a host request (R251). -/
abbrev ReqFrom := Option (Nat × Nat × Option Nat)

/-- The states of a VI (R216, R217). -/
inductive ViState where
  | free | creating | quiesced | active | quiescing | frozen | resetting | removing
  deriving DecidableEq, Repr

/-- A queue of records with the pairs its coalescing tracks (R226, R330). -/
structure RecQueue where
  /-- the records waiting, oldest first -/
  recs : List Record
  /-- the index of the next record written -/
  head : Nat
  /-- the next index the reader takes -/
  tail : Nat
  /-- losses per severity since the OVERFLOW record was placed -/
  lost : List Nat
  /-- the last 64 written source and kind pairs with the write's time -/
  pairs : List (Nat × Nat × Nat)
  deriving DecidableEq, Repr

/-- A run of frames or of descriptors that backs pages of an assured part since its VI's creation (R123): tier, first one, count,
and the first frame of their mates where they are pairs of a mirrored VI (R110). -/
structure Run where
  tier : Nat
  base : Nat
  count : Nat
  mate : Option Nat
  deriving DecidableEq, Repr

/-- A context entry (R216) with the engine state kept beside it: the runs that back its assured part, its save count, and the step the
running command has reached. -/
structure Vi where
  st : ViState
  shared : Bool
  mirror : Bool
  telemetry : Bool
  telPerm : Bool
  keyEn : Bool
  /-- 0: 3 levels, 1: 4, 2: 5 -/
  depth : Nat
  cls : Nat
  pagePol : Nat
  codeMode : Nat
  keySlot : Nat
  dirtyLog : Bool
  restored : Bool
  ports : Nat
  ld : Nat
  dpaBaseG : Nat
  assuredG : Nat
  elasticG : Nat
  guarQ : Nat
  weight : Nat
  root : Nat
  tpoolBase : Nat
  tpoolTables : Nat
  restoreSeq : Nat
  dlogBase : Nat
  epoch : Nat
  irqEn : Bool
  fqVector : Nat
  fqMissed : Nat
  fqMissedMax : Bool
  fq : RecQueue
  /-- the zero descriptors or frames that back the assured part since creation, in page order (R123, R345) -/
  back : List Run
  /-- W is set in the leaves that no entry has been written over since creation (R228; the model's own form) -/
  wAll : Bool
  /-- SEQ of the last save (R230) and the source tag of a restored VI -/
  saveSeq : Nat
  sourceTag : Nat
  /-- the per-VI telemetry of the VI page (R227): T0, T1, T2 pages, lost pages, sectors -/
  tel : List Nat
  /-- the last completed step of a QUIESCE_VI or RELAY_FREEZE that runs (R217): 1 once its whole-VI invalidation has run -/
  step : Nat := 0
  deriving DecidableEq, Repr

/-- A dynamic-capacity extent (R245): VI, first 2 MiB block of the window, blocks, port, offered or accepted, elastic. -/
structure Extent where
  vi : Nat
  start : Nat
  blocks : Nat
  port : Nat
  accepted : Bool
  elastic : Bool
  /-- when a release was asked for (R128 step 2), and until when it is not asked for again -/
  asked : Option Nat
  notBefore : Nat
  deriving DecidableEq, Repr

/-- The kinds of host request (R201). -/
inductive ReqOp where
  | rd | rdData | wr | wrPtl | clnEvct | inv
  deriving DecidableEq, Repr

/-- Who made a request (R195, R249, R308, R340): a host, a command of an LD's mailbox, the home itself (a T2 line's POISON mark that
waits for a write-buffer entry), or a sequencer's job. -/
inductive Origin where
  | host
  | cmd
  | home
  | job (seq ctx : Nat)
  deriving DecidableEq, Repr

/-- Where a request stands. -/
inductive Phase where
  /-- held at window lookup (R225) -/
  | lookup
  /-- waiting at the boundary of a closed block (R369) or in the miss queue or on a walker (R90) -/
  | gate
  | miss
  /-- held under M, W or for an allocation (R92, R94, R95) -/
  | heldM
  | heldW
  | heldAlloc
  /-- in the chain of its line at the home (R203) -/
  | chained
  /-- waiting for snoop answers (R201, R205) -/
  | snoop
  /-- at the Pier: waiting for a burst of the given attempt (R38), or for recomputation sources (R39) -/
  | pierRead (attempt : Nat)
  | recompute
  /-- a write waiting for acceptance by the Pier or by the mirror's Pier (R26) -/
  | pierWrite
  /-- a T2 access at the descriptor Pier, waiting for a sub-block, or a T2 write waiting for acceptance (R143, R151) -/
  | t2desc
  | t2sub
  | t2write
  /-- answered, the response held while the link is down (R259) -/
  | answered
  deriving DecidableEq, Repr

/-- A request in the Kenez, from acceptance to its response. -/
structure Req where
  op : ReqOp
  org : Origin
  port : Nat
  ld : Nat
  mv : MetaValue
  hpa : Nat
  dpa : Nat
  vi : Nat
  via : Nat
  /-- the data of a write and its byte enables -/
  data : BitVec 512
  mask : BitVec 64
  /-- the leaf the request was translated through, with its level -/
  leaf : Nat
  lvl : Nat
  /-- the line's DA (T0, T1), or the descriptor index (T2) -/
  da : Nat
  tier : Nat
  phase : Phase
  /-- when it was accepted, and when its hold at window lookup began -/
  at0 : Nat
  heldAt : Nat
  /-- the snoops it waits for have made the line poisoned -/
  poison : Bool
  /-- the write's acceptance by the primary and by the mirror's Pier -/
  accP : Bool
  accM : Bool
  /-- the line as the refetch captured it -/
  last : Option Line
  /-- the side-bit directory a read of the line showed, SHARERS, DSTATE, OWNER -/
  dir : Option (Nat × Nat × Nat)
  /-- completed to the host by a timeout while the home keeps its tracker (R255, R298) -/
  orphan : Bool
  /-- the last table line that the walk before it read, 0 where its leaf came from the TLB (R87) -/
  walkDa : Nat := 0
  /-- its place in the order in which requests arrived at the home (R203) -/
  arr : Nat := 0
  /-- when it was first held in a hold slot of its port (R93 to R95) -/
  firstHeld : Option Nat := none
  deriving DecidableEq, Repr

/-- A walk in progress (R84). -/
structure Walk where
  port : Nat
  vi : Nat
  via : Nat
  write : Bool
  lvl : Nat
  tbl : Nat
  lineDa : Nat
  /-- table entries read so far, for the walk cache -/
  path : List (Nat × Nat)
  /-- an invalidation of its scope ran: the result is not cached (R99) -/
  stale : Bool
  deriving DecidableEq, Repr

/-- A TLB entry (R88): the leaf as read, and the level it was read at. -/
structure TlbEnt where
  vi : Nat
  page : Nat
  lvl : Nat
  leaf : Nat
  deriving DecidableEq, Repr

/-- A walk-cache entry (R89): the table DA that the entry of this VI, level and VIA names. -/
structure WcEnt where
  vi : Nat
  lvl : Nat
  pfx : Nat
  tbl : Nat
  deriving DecidableEq, Repr

/-- An invalidation in progress at a port (R99). -/
structure Inval where
  tlb : Bool
  vi : Nat
  scope : Nat
  count : Nat
  page : Nat
  deriving DecidableEq, Repr

/-- A BISnp (R202): its port and tag, line, the LD and the HPA it is addressed to (R201), kind, waiting request, and when it fell
due. Tag 64 is that of a BISnp held back while 64 are outstanding on its port (R203). -/
structure Snoop where
  port : Nat
  tag : Nat
  line : Nat
  ld : Nat
  hpa : Nat
  inv : Bool
  req : Option Nat
  at0 : Nat
  sent : Bool
  conflict : Bool
  deriving DecidableEq, Repr

/-- A directory cache entry (R197) with its place in the LRU order. -/
structure DirEnt where
  sharers : Nat
  dstate : Nat
  owner : Nat
  dirty : Bool
  t2 : Bool
  stamp : Nat
  deriving DecidableEq, Repr

/-- A logical device of a port (R241 to R251). -/
structure LogDev where
  capG : Nat
  /-- sizes of the DC regions in GiB and the mask of sharable regions -/
  dcG : List Nat
  sharable : Nat
  decoders : List (Nat × HdmDecoder)
  poison : List Nat
  poisonOvf : Bool
  /-- the four CXL logs (INFO, WARN, ERROR, FATAL) and the Dynamic Capacity log -/
  logs : List RecQueue
  dcLog : List Record
  /-- the media scan: next line, lines left, poisoned lines found -/
  scan : Option (Nat × Nat × List Nat)
  scanDone : List Nat
  /-- the background operation: opcode, done, response bytes -/
  bg : Option (Nat × Bool × List Nat)
  deriving DecidableEq, Repr

/-- The dynamic state of a host port beside its register page. -/
structure Prt where
  tlb : List TlbEnt
  wc : List WcEnt
  inv : Option Inval
  /-- end of the grace period -/
  graceEnd : Option Nat
  /-- mem and io streams' keys (R253) -/
  ideMem : Option (BitVec 256)
  ideIo : Option (BitVec 256)
  /-- keys were cleared: the link carries no CXL.mem until new ones are programmed (R253) -/
  ideWait : Bool
  /-- active lanes under L0p -/
  l0p : Nat
  /-- bytes moved in the last 100 µs window and its start -/
  traf : Nat
  trafAt : Nat
  /-- speed code and width the link last trained to, 0 before the first training since cold reset (R270) -/
  trSpeed : Nat
  trWidth : Nat
  /-- URG: level in effect, since when level 3, demoted until -/
  urgLevel : Nat
  urg3At : Option Nat
  demote : Option Nat
  /-- VIs whose requests are refused at once (R225) -/
  refused : List Nat
  /-- VIs bound at any time since their last whole-VI invalidation here (R98) -/
  seen : List Nat := []
  /-- VIs bound at any time since the last sweep (R210), and where the sweep stands -/
  bound : List Nat
  lost : Bool
  sweep : Bool
  sweepFrom : Nat
  deriving DecidableEq, Repr

/-- A queued write at a Pier (R62): line address, the primary's line address where this is the mirror's entry, plaintext, and
the side fields it carries. -/
structure QWrite where
  da : Nat
  prim : Nat
  data : BitVec 512
  poison : Bool
  tier : Nat
  sharers : Nat
  dstate : Nat
  owner : Nat
  tag : Nat
  at0 : Nat
  deriving DecidableEq, Repr

/-- An open or closing stripe in its owner's buffer (R147): region, placed sectors, their plaintext lines, start entries. -/
structure OpenStripe where
  base : Nat
  region : Nat
  used : Nat
  /-- plaintext line and poison, by data line number 0 to 959 -/
  lines : List (Nat × BitVec 512 × Bool)
  starts : List (Nat × Nat × Nat)
  at0 : Nat
  closed : Bool
  deriving DecidableEq, Repr

/-- A stripe's summary header (R149) with its start entries. -/
structure Stripe where
  live : Nat
  /-- 0 FREE, 1 OPEN, 2 WRITTEN, 3 CLEANING -/
  st : Nat
  degraded : Bool
  /-- closed while a member's Pier was offline, so without that unit: no recomputation until collected (R297) -/
  noUnit : Bool
  starts : List (Nat × Nat × Nat)
  deriving DecidableEq, Repr

/-- A relocation job of garbage collection (R154, R155). -/
structure Reloc where
  sector : Nat
  gen : Nat
  /-- the copy's first sector in the new stripe, once placed -/
  dst : Option Nat
  cnt : Nat
  deriving DecidableEq, Repr

/-- A write-buffer entry (R151): descriptor, sub-block, the page written where a host's write named it, the written lines
and the time of the first. -/
structure WBuf where
  desc : Nat
  sb : Nat
  page : Option Nat
  /-- line number in the sub-block, data, byte mask, poison -/
  lines : List (Nat × BitVec 512 × BitVec 64 × Bool)
  at0 : Nat
  deriving DecidableEq, Repr

/-- A counter cache entry (R179): a counter line or node, with the pins of an overflow or a rotation. -/
structure CEnt where
  slot : Nat
  lvl : Nat
  idx : Nat
  body : BitVec 512
  dirty : Bool
  /-- the version the parent holds for it, once its write-back was acknowledged -/
  acked : Bool
  /-- old counters and done mask of a running overflow (R175) -/
  ovf : Option (BitVec 512 × Nat)
  /-- pinned by a sequencer's job (R304) -/
  pinned : Bool
  deriving DecidableEq, Repr

/-- A key slot and its region record (R161, R163, R180, R181). -/
structure KSlot where
  st : Nat
  mode : Nat
  dataKey : BitVec 256
  tagKey : BitVec 256
  treeKey : Nat
  root : List Nat
  majorHigh : Nat
  versionHigh : Nat
  exhaust : Bool
  trusted : Bool
  /-- lost entries: level and DA -/
  lostList : List (Nat × Nat)
  /-- frames, by counter line number, whose MAJOR a refused write would have taken past its largest value (R176) -/
  spent : List Nat := []
  /-- lines that the boundary of a rotation from this slot passed because their subtree was lost (R189) -/
  skipped : List Nat := []
  allLost : Bool
  cmd : Bool
  deriving DecidableEq, Repr

/-- The slot ledger of a Pier (R342, R343): the remainder of booked time in 1/16,000 of a slot, and per subchannel the slots that
bursts booked before their time passed, the refresh slots still to pass, the remainder of throttled slots in percent, the last
burst (1 + 2 × rank + write), and one more than the time of the last read (0 none). -/
structure Ledger where
  frac : Nat
  ahead : List Nat
  refs : List Nat
  thr : List Nat
  last : List Nat
  rdAt : List Nat
  deriving DecidableEq, Repr

/-- The state of a Pier beside its register page. -/
structure Pr where
  /-- the write queue, oldest first -/
  wq : List QWrite
  /-- open row and policy per bank: rank * 64 + subchannel * 32 + bank group * 4 + bank -/
  rows : SMap (Nat × Nat × Nat)
  refs : Nat
  /-- refreshes that fell due in a pause: subchannel, rank and turn (R64) -/
  due : List (Nat × Nat × Nat)
  /-- when each subchannel's last periodic pause began (R65) -/
  pauseAt : SMap Nat
  led : Ledger
  /-- subchannels in a pause, and when MPC ZQCAL START was issued -/
  pause : Nat
  zq : SMap Nat
  /-- ranks whose last update was limited -/
  lim : Nat
  /-- a frequency change runs or is queued -/
  freq : Bool
  freqQ : Bool
  /-- scrub: rank, line index, pace and end of the pass -/
  scrub : Option (Nat × Nat)
  scrubEnd : Nat
  scrubLate : Bool
  /-- hourly buckets of uncorrectable events per rank, newest first -/
  ueB : SMap (List Nat)
  /-- the ring of correctable events (R45) -/
  ce : SMap (List Nat)
  ceHead : Nat
  retired : Nat
  /-- physical ranks that failed training (R67, R392), and the SPD serial numbers of both modules (R392) -/
  failed : Nat
  serial : Nat
  /-- physical ranks retired at boot that no spare serves (R393) -/
  skip : Nat
  /-- sparing: boundary B, rebuild by recomputation, logical ranks out of service (R76), ranks waiting for a spare -/
  bound : Nat
  rebuild : Bool
  dead : Nat
  pendRank : List Nat
  /-- the sample ring (R112): records by index -/
  samples : SMap Nat
  sampCnt : Nat
  freeQ : List Nat
  open_ : List OpenStripe
  wbuf : List WBuf
  /-- the cached descriptors of the pages whose descriptor Pier this is, as read or written through (R140) -/
  dcache : SMap (BitVec 512) := []
  vfyTimes : List (Nat × Nat)
  deriving DecidableEq, Repr

/-- One direction of a Viaduct (R286 to R290): its sender's state, sequence, credits and replay buffer, and its receiver's
expected sequence, freed credits, discard state and the slots that wait for their DATA flits. -/
structure Dir where
  /-- 0 INIT, 1 NORMAL, 2 REPLAY, 3 RETRAIN, 4 GRACE, 5 DOWN -/
  st : Nat
  seq : Nat
  /-- consumed and returned credits: header of VT0 to VT3, then data -/
  u : List Nat
  c : List Nat
  /-- unacknowledged flits, oldest first, with their sequence numbers -/
  replayBuf : List (Nat × BitVec 640)
  replays : Nat
  oldestAt : Nat
  exp : Nat
  ackV : Bool
  freed : List Nat
  adv : List Nat
  discard : Bool
  discAt : Nat
  want : List (List Nat)
  dropData : Nat
  /-- the class whose credits the next flit of this direction returns (R286) -/
  rot : Nat := 0
  deriving DecidableEq, Repr

/-- A Viaduct: both directions (tx: hub to die, rx: die to hub), its retrain and its grace period. -/
structure Lnk where
  tx : Dir
  rx : Dir
  /-- attempts of this retrain that found no width -/
  attempts : Nat
  /-- the far end has answered the pause -/
  paused : Bool
  /-- a widening retrain (R293) -/
  retry : Bool
  /-- an attempt succeeded, and TRAIN_DONE is to follow -/
  trained : Bool
  /-- the speed the next attempt trains at -/
  speedNow : Nat
  graceEnd : Option Nat
  downAt : Nat
  lastRetry : Nat
  deriving DecidableEq, Repr

/-- A job context of a sequencer (R302 to R306): the step, the job registers, the call stack, the steps executed, each unit's
status bits, the units at work, the unit waited for, and what the units hold for the context: the line last addressed and
its buffer, the keystream and counter, the codec's page part and stream. -/
structure JobCtx where
  pc : Nat
  j : List Nat
  stack : List Nat
  steps : Nat
  status : SMap Nat
  busy : Nat
  waiting : Option Nat
  job : BitVec 512
  /-- the request that holds a line at the home for it -/
  req : Option Nat
  da : Nat
  buf : Line
  ks : BitVec 512
  ctr : Option (Nat × Nat × Nat)
  codec : List Nat
  stream : List Nat
  /-- the status it ended with -/
  done : Option Nat
  deriving DecidableEq, Repr

/-- A sequencer: its table, contexts and job queue (R301, R305). -/
structure Sqr where
  table : List (BitVec 64)
  ctxs : SMap JobCtx
  jobq : List (BitVec 512)
  deriving DecidableEq, Repr

/-- An engine (R312 to R315). -/
structure Engine where
  running : Bool
  /-- HALT as software last wrote it (R336) -/
  halt : Bool
  fenced : Bool
  mailbox : List (BitVec 512)
  doorbell : Nat
  pending : Nat
  mask : Nat
  failed : Nat
  misses : Nat
  restarts : List Nat
  loading : Bool
  /-- jobs posted and not completed: job number and time -/
  jobs : List (Nat × Nat)
  /-- bytes of its 256 KiB of local memory that are not zero, by address (R17); only its firmware reads and writes them -/
  mem : SMap (BitVec 8) := []
  deriving DecidableEq, Repr

/-- A page move in the move log (R117, R120). Stage 1: M set; 2: first invalidation acknowledged and copied; 3: D named. -/
structure MoveLog where
  vi : Nat
  page : Nat
  e0 : Nat
  dest : Place
  eng : Nat
  stage : Nat
  /-- coast or a passed baton has interrupted it: it is resolved before anything else (R120) -/
  suspect : Bool
  deriving DecidableEq, Repr

/-- A manager mailbox slot (R320). -/
structure Mbx where
  req : List Nat
  rsp : List Nat
  /-- the opcode of the command accepted last -/
  op : Nat
  deriving DecidableEq, Repr

/-- A message the Kenez sends outside (the model's own record of it, newest first). -/
inductive Out where
  | drs (port : Nat) (data : BitVec 512) (poison : Bool) (mv : MetaValue) (devLoad : Nat)
  | ndr (port : Nat) (devLoad : Nat)
  | biSnp (port tag : Nat) (inv : Bool) (hpa : Nat)
  | biConflictAck (port tag : Nat)
  | msix (port ld vector : Nat)
  | reply (src : CmdSrc) (code : Nat) (bytes : List Nat)
  | dcEvent (port ld vi start blocks : Nat) (add : Bool)
  | sendFlit (link : Nat) (toDie : Bool) (ty : Nat) (a : Nat)
  | fenbo (bytes : List Nat)
  | regData (v : Nat)
  | widthAsk (port width : Nat)
  | jobMsg (eng : Nat) (full : Bool)
  | cas (eng : Nat) (ok : Bool)
  deriving DecidableEq, Repr

/-- The Fenbo request that runs, and the response that waits (R405). -/
structure FenboSt where
  run : Option (List Nat)
  rsp : Option (List Nat)
  /-- the status of the last request other than STATUS -/
  last : Nat
  deriving DecidableEq, Repr

/-- The clock root (R356 to R363). -/
structure Clk where
  present : Nat
  /-- candidates that were READY when the root was lost -/
  readyAtLoss : Nat
  holdSince : Option Nat
  switching : Bool
  /-- switch to this root when the PLLs lock -/
  target : Nat
  closed : List Nat
  pendNode : Option (Nat × Nat)
  deriving DecidableEq, Repr

/-- Power: state, target, and the electrical latches (R370 to R382, R420 to R427). State 0 Run, 1 Idle, 2 Sleep, 3 Deep
Sleep, 4 Off, 5 no VDD_AON. -/
structure Pwr where
  state : Nat
  target : Nat
  /-- 0 none, 1 preparation, 2 entering, 3 exiting -/
  trans : Nat
  wake : Option Nat
  rootLoss : Bool
  upAtLoss : Nat
  enMain : Bool
  enMem : Bool
  thermtrip : Bool
  failedStarts : Nat
  waitRestart : Bool
  sleepAt : Nat
  /-- the wait for the Off save has raised HOLDUP_DEFER; the save is made or abandoned (R376, R382) -/
  savedDefer : Bool
  skipSave : Bool
  addrSel : Nat
  warm : Bool
  /-- when VHOLD was last sampled (R381) -/
  holdAt : Nat
  deriving DecidableEq, Repr

/-- Lap dumps (R344 to R350): when they started and the next snapshot falls due, the lap of the last snapshot, whether the ring
header and the record of that snapshot are still to be written, what the snapshot latched, and what the next one carries. -/
structure Lap where
  start : Nat
  next : Nat
  lap : Nat
  header : Bool
  writing : Bool
  vals : SMap Nat
  flags : Nat
  skip : Nat
  time : Nat
  prevTime : Nat
  skipped : Nat
  reconfig : Bool
  gap : Bool
  deriving DecidableEq, Repr

/-- The journal (R332 to R334): buffer, tokens, write position and sequence. -/
structure Jnl where
  buf : List Record
  tok1 : Nat
  tok2 : Nat
  tok1At : Nat
  tok2At : Nat
  sector : Nat
  slot : Nat
  seq : Nat
  deriving DecidableEq, Repr

/-- The baton and coast (R316 to R319). -/
structure Keystone where
  windowAt : Nat
  /-- no window counts until the first beat: when the load or restart began -/
  loadAt : Option Nat
  restartMask : Nat
  bridgeFails : Nat
  /-- when the last probe round was made (R315) -/
  probeAt : Nat := 0
  deriving DecidableEq, Repr

/-- A Pacer bucket: level in bytes times 16,384 and the time it was last filled (R267). -/
structure Bucket where
  level : Nat
  at0 : Nat
  deriving DecidableEq, Repr

/-- The state of the Kenez. -/
structure State where
  /-- the commands waiting, first in first out (the model's own) -/
  pending : List Instr
  /-- HUB_TIME, ns since cold reset (R336) -/
  time : Nat
  /-- register fields by page, offset and lowest bit; an unlisted field holds its reset value (R8, R411) -/
  regs : SMap Nat
  /-- DRAM lines by DA line, copy and plane; an unlisted line reads as unlistedLine gives it -/
  media : SMap Line
  /-- SPI NOR flash (R386); an unlisted byte reads 0xFF -/
  flash : List Host.Cell
  /-- the frame owner map (R36): owning VI of allocated frames -/
  owner : SMap Nat
  /-- pairs of frames that hold a T0 page and its mirror (R110): the lower frame to the primary -/
  pairs : SMap Nat
  /-- the heat array (R113), by frame, and by 2^40 + descriptor; when it was last updated and decayed -/
  heat : SMap Nat
  heatAt : Nat
  decayAt : Nat
  /-- when each place's heat last fell below the demotion threshold of its tier (R114), and when MOVE_GBPS lets the next page go -/
  coolAt : SMap Nat
  moveAt : Nat
  vis : SMap Vi
  extents : List Extent
  /-- VI commands that run: tag and opcode, with the source that waits for the response -/
  running : SMap (Nat × CmdSrc)
  /-- dirty bitmaps (R232) by VI: pages set -/
  dirty : SMap (List Nat)
  ports : SMap Prt
  lds : SMap LogDev
  reqs : SMap Req
  nextReq : Nat
  walks : SMap Walk
  snoops : List Snoop
  dir : SMap DirEnt
  /-- the home's order: the next stamp of a directory entry's use and of a request's arrival -/
  dirStamp : Nat
  piers : SMap Pr
  stripes : SMap Stripe
  relocs : SMap Reloc
  /-- when GC_GBPS lets the next sectors be relocated (R156) -/
  gcAt : Nat
  /-- T2 writes shadowed at the copy Pier (R151), by descriptor * 4 + sub-block -/
  shadows : SMap (List (Nat × BitVec 512 × BitVec 64 × Bool))
  moves : List MoveLog
  slots : SMap KSlot
  kmap : SMap Nat
  stage : List Nat
  cc : SMap CEnt
  links : SMap Lnk
  sqrs : SMap Sqr
  engines : SMap Engine
  /-- the engine that holds each role (R310, R315): role number to engine -/
  roles : SMap Nat
  key : Keystone
  mbx : SMap Mbx
  policy : SMap (Nat × Nat × Nat)
  profile : Nat
  custom : Bool
  mq : RecQueue
  missed : SMap Nat
  missedMax : List Nat
  errCap : SMap Record
  alertAt : Option Nat
  alerts : Nat
  held : List Record
  jnl : Jnl
  telSel : SMap Nat
  telCnt : SMap Nat
  lap : Lap
  clk : Clk
  pwr : Pwr
  /-- boot: rails confirmed, image in use, manager port, RWL locked, boot halted -/
  aon : Bool
  rails : Bool
  img : Option Image
  locked : Bool
  zeroFilled : Bool
  metaSpan : Nat
  metaNext : Nat
  fenbo : FenboSt
  /-- snapshots of wide registers, by where they were read (R401) -/
  snap : SMap Nat
  bucketVi : SMap Bucket
  bucketPort : SMap Bucket
  shortAt : Option Nat
  ladder : Nat
  /-- thermal THROTTLE in force, the temperature of its last change, and the viaduct value per Pier (R294, R325) -/
  therm : Nat × Nat
  /-- when the engines last read the junction temperature (R325) -/
  thermAt : Nat := 0
  /-- the SHA-384 of the image key's public point that Pollumi fused into the hub (R388) -/
  keyHash : BitVec 384 :=
    0x8c4f262412b7f9ed867606705a130de5212fd048fbaf8c3842f4a240f4b45ba0c90f82194ccdda3ed89c96b0afe1d51d
  vdtThr : SMap Nat
  /-- the free-value counter (the model's own) -/
  free : Nat
  /-- what the Kenez has sent, newest first (the model's own) -/
  out : List Out
  deriving DecidableEq, Repr

/-- An empty record queue. -/
def RecQueue.empty : RecQueue := ⟨[], 0, 0, [0, 0, 0, 0], []⟩

/-- The context entry of a FREE tag: every field zero (R223). -/
def Vi.blank : Vi :=
  { st := .free, shared := false, mirror := false, telemetry := false, telPerm := false, keyEn := false, depth := 0,
    cls := 0, pagePol := 0, codeMode := 0, keySlot := 0, dirtyLog := false, restored := false, ports := 0, ld := 0,
    dpaBaseG := 0, assuredG := 0, elasticG := 0, guarQ := 0, weight := 0, root := 0, tpoolBase := 0, tpoolTables := 0,
    restoreSeq := 0, dlogBase := 0, epoch := 0, irqEn := false, fqVector := 0, fqMissed := 0, fqMissedMax := false,
    fq := RecQueue.empty, back := [], wAll := false, saveSeq := 0, sourceTag := 0, tel := [0, 0, 0, 0, 0] }

/-- A logical device before any allocation. -/
def LogDev.blank : LogDev :=
  { capG := 0, dcG := [], sharable := 0, decoders := [], poison := [], poisonOvf := false,
    logs := [RecQueue.empty, RecQueue.empty, RecQueue.empty, RecQueue.empty], dcLog := [], scan := none, scanDone := [],
    bg := none }

/-- A port after reset. -/
def Prt.blank : Prt :=
  { tlb := [], wc := [], inv := none, graceEnd := none, ideMem := none, ideIo := none, ideWait := false,
    l0p := 16, traf := 0, trafAt := 0, trSpeed := 0, trWidth := 0, urgLevel := 0, urg3At := none, demote := none, refused := [],
    bound := [], lost := false, sweep := false, sweepFrom := 0 }

/-- An empty ledger. -/
def Ledger.blank : Ledger := ⟨0, [0, 0], [0, 0], [0, 0], [0, 0], [0, 0]⟩

/-- A Pier after reset. -/
def Pr.blank : Pr :=
  { wq := [], rows := [], refs := 0, due := [], pauseAt := [], led := Ledger.blank, pause := 0, zq := [], lim := 0, freq := false, freqQ := false, scrub := none,
    scrubEnd := 0, scrubLate := false, ueB := [], ce := [], ceHead := 0, retired := 0, failed := 0, serial := 0, skip := 0, bound := 0, rebuild := false,
    dead := 0, pendRank := [], samples := [], sampCnt := 0, freeQ := [], open_ := [], wbuf := [], vfyTimes := [] }

/-- A Viaduct direction before INIT. -/
def Dir.blank : Dir :=
  { st := 0, seq := 0, u := List.replicate 8 0, c := List.replicate 8 0, replayBuf := [], replays := 0, oldestAt := 0,
    exp := 0, ackV := false, freed := List.replicate 8 0, adv := List.replicate 8 0, discard := false, discAt := 0,
    want := [], dropData := 0 }

/-- A Viaduct before INIT. -/
def Lnk.blank : Lnk :=
  { tx := Dir.blank, rx := Dir.blank, attempts := 0, paused := false, retry := false, trained := false, speedNow := 2,
    graceEnd := none, downAt := 0, lastRetry := 0 }

/-- A sequencer without a table. -/
def Sqr.blank : Sqr := ⟨[], [], []⟩

/-- An engine that is not running; its mask register allows every engine (R336). -/
def Engine.blank : Engine :=
  { running := false, halt := false, fenced := false, mailbox := [], doorbell := 0, pending := 0, mask := 2 ^ 64 - 1, failed := 0,
    misses := 0, restarts := [], loading := false, jobs := [] }

/-- A FREE key slot. -/
def KSlot.blank : KSlot :=
  { st := 0, mode := 0, dataKey := 0, tagKey := 0, treeKey := 0, root := [], majorHigh := 0, versionHigh := 0,
    exhaust := false, trusted := false, lostList := [], allLost := false, cmd := false }

/-- A free stripe. -/
def Stripe.blank : Stripe := ⟨0, 0, false, false, []⟩

/-- An empty mailbox slot. -/
def Mbx.blank : Mbx := ⟨[], [], 0⟩

/-- The Kenez when VDD_AON has not come up yet: every register at its reset value, nothing listed in DRAM or flash, the
flash erased, no command waiting. -/
def State.reset : State :=
  { pending := [], time := 0, regs := [], media := [], flash := [], owner := [], pairs := [], heat := [], heatAt := 0, decayAt := 0,
    coolAt := [], moveAt := 0, vis := [], extents := [],
    running := [], dirty := [], ports := [], lds := [], reqs := [], nextReq := 0, walks := [], snoops := [], dir := [],
    dirStamp := 0, piers := [], stripes := [], relocs := [], gcAt := 0, shadows := [], moves := [], slots := [], kmap := [],
    stage := [], cc := [], links := [], sqrs := [], engines := [], roles := [],
    key := ⟨0, none, 0, 0, 0⟩, mbx := [], policy := [], profile := 0, custom := false, mq := RecQueue.empty, missed := [],
    missedMax := [], errCap := [], alertAt := none, alerts := 0, held := [],
    jnl := ⟨[], 64, 16, 0, 0, 0, 0, 0⟩, telSel := [], telCnt := [], lap := ⟨0, 0, 0, false, false, [], 0, 0, 0, 0, 0, false, false⟩,
    clk := ⟨0, 0, none, false, 0, [], none⟩,
    pwr := { state := 5, target := 0, trans := 0, wake := none, rootLoss := false, upAtLoss := 0,
             enMain := false, enMem := false, thermtrip := false, failedStarts := 0,
             waitRestart := false, sleepAt := 0, savedDefer := false, skipSave := false, addrSel := 0, warm := false, holdAt := 0 },
    aon := false, rails := false, img := none, locked := false, zeroFilled := false, metaSpan := 0, metaNext := 0,
    fenbo := ⟨none, none, 0⟩, snap := [], bucketVi := [], bucketPort := [], shortAt := none, ladder := 0,
    therm := (0, 0), vdtThr := [], free := 0, out := [] }

end Sys2Proof.Machine
end

