-- ==== Sys2Proof/Machine/Ops.lean ====
section
/-!
DEFINITION. The named operations over the state that every family uses: register fields, the structured records, the
conditions of operation, the span interleave, the media address, and the flash bytes.
-/
namespace Sys2Proof.Machine

/-- The aperture page of Viaduct v (R399). -/
def pgVdt (v : Nat) : Nat := 0x10 + v
/-- The aperture page of port Hk (R399). -/
def pgPort (k : Nat) : Nat := 0x28 + k
/-- The aperture page of Pier Pn (R399). -/
def pgPier (n : Nat) : Nat := 0x30 + n

/-- The key of a register field in the register map. -/
def regKey (pg : Nat) (f : Fld) : Nat := 64 * (4096 * pg + f.off) + f.lo

/-- The value a register field holds. -/
def State.fld (s : State) (pg : Nat) (f : Fld) : Nat := SMap.getD s.regs (regKey pg f) f.rst

/-- The state with a register field set, as the block itself sets it. -/
def State.put (s : State) (pg : Nat) (f : Fld) (v : Nat) : State :=
  { s with regs := SMap.put s.regs (regKey pg f) (v % 2 ^ f.width) }

/-- A field read as a flag. -/
def State.flag (s : State) (pg : Nat) (f : Fld) : Bool := s.fld pg f != 0

/-- A 31-bit event counter raised by k; at 0x7FFF_FFFF it stays and SAT is set (R45 and its like). -/
def State.bump (s : State) (pg : Nat) (cnt sat : Fld) (k : Nat) : State :=
  let v := satAdd 0x7FFFFFFF (s.fld pg cnt) k
  let s := s.put pg cnt v
  if v = 0x7FFFFFFF then s.put pg sat 1 else s

/-- A message sent outside. -/
def State.emit (s : State) (o : Out) : State := { s with out := o :: s.out }

/-- The next free-value number. -/
def State.tick (s : State) : State := { s with free := s.free + 1 }

def State.vi (s : State) (t : Nat) : Vi := SMap.getD s.vis t Vi.blank
def State.setVi (s : State) (t : Nat) (v : Vi) : State := { s with vis := SMap.put s.vis t v }
def State.prt (s : State) (p : Nat) : Prt := SMap.getD s.ports p Prt.blank
def State.setPrt (s : State) (p : Nat) (v : Prt) : State := { s with ports := SMap.put s.ports p v }
def State.pier (s : State) (n : Nat) : Pr := SMap.getD s.piers n Pr.blank
def State.setPier (s : State) (n : Nat) (v : Pr) : State := { s with piers := SMap.put s.piers n v }
/-- The key of an LD: port and LD number, 16 for the FM-owned LD. -/
def ldKey (p ld : Nat) : Nat := 17 * p + ld
def State.ldev (s : State) (p ld : Nat) : LogDev := SMap.getD s.lds (ldKey p ld) LogDev.blank
def State.setLdev (s : State) (p ld : Nat) (v : LogDev) : State := { s with lds := SMap.put s.lds (ldKey p ld) v }
def State.link (s : State) (l : Nat) : Lnk := SMap.getD s.links l Lnk.blank
def State.setLink (s : State) (l : Nat) (v : Lnk) : State := { s with links := SMap.put s.links l v }
def State.sqr (s : State) (q : Nat) : Sqr := SMap.getD s.sqrs q Sqr.blank
def State.setSqr (s : State) (q : Nat) (v : Sqr) : State := { s with sqrs := SMap.put s.sqrs q v }
def State.eng (s : State) (e : Nat) : Engine := SMap.getD s.engines e Engine.blank
def State.setEng (s : State) (e : Nat) (v : Engine) : State := { s with engines := SMap.put s.engines e v }
def State.slot (s : State) (k : Nat) : KSlot := SMap.getD s.slots k KSlot.blank
def State.setSlot (s : State) (k : Nat) (v : KSlot) : State := { s with slots := SMap.put s.slots k v }
def State.stripe (s : State) (k : Nat) : Stripe := SMap.getD s.stripes k Stripe.blank
def State.setStripe (s : State) (k : Nat) (v : Stripe) : State := { s with stripes := SMap.put s.stripes k v }
def State.mbox (s : State) (k : Nat) : Mbx := SMap.getD s.mbx k Mbx.blank
def State.req? (s : State) (id : Nat) : Option Req := SMap.get? s.reqs id
def State.setReq (s : State) (id : Nat) (r : Req) : State := { s with reqs := SMap.put s.reqs id r }

/-- A policy parameter's value (R323). -/
def State.pol (s : State) (id : Nat) : Nat := (SMap.getD s.policy id (0, 0, 0)).1

/-- Coast (R318). -/
def State.coast (s : State) : Bool := s.flag 7 Reg.HUB_LAP_CTL_COAST
/-- Media ready (R390 step 11). -/
def State.ready (s : State) : Bool := s.fld 0 Reg.TRUSS_BOOT_STAT_STAGE == 0xF
/-- Run or Idle. -/
def State.awake (s : State) : Bool := s.pwr.state ≤ 1
/-- The data path works: media ready, in Run or Idle, not past the preparation of a low-power entry. -/
def State.serving (s : State) : Bool := s.ready && s.awake && s.pwr.trans ≤ 1
/-- The engines work; they halt at the end of a preparation (R374). -/
def State.engOn (s : State) : Bool := s.ready && s.awake && s.pwr.trans ≤ 1 && !s.coast && !s.pwr.warm
/-- Engines take up new background steps (R373 step 1 stops them during a preparation). -/
def State.engNew (s : State) : Bool := s.engOn && s.pwr.trans = 0
/-- A Pier is offline (R297). -/
def State.offline (s : State) (n : Nat) : Bool := s.flag (pgVdt n) Reg.VDT_STAT_OFFLINE
/-- A Pier serves its channel. -/
def State.pierOn (s : State) (n : Nat) : Bool := s.flag (pgPier n) Reg.PIER_DCTL_CH_EN && !s.offline n
/-- A port's link is up. -/
def State.linkUp (s : State) (p : Nat) : Bool := s.flag (pgPort p) Reg.PORT_LINK_STAT_UP
/-- Any port is at URG level 3 (R274). -/
def State.urg3 (s : State) : Bool := (List.range 8).any (fun k => (s.prt k).urgLevel == 3)
/-- The manager port the image names (R261). -/
def State.mgrPort (s : State) : Nat := match s.img with | some i => i.managerPort.val | none => 0
/-- The MC mask bit of a role's engine: the engine that holds role r (R310), by default r itself. -/
def State.role (s : State) (r : Nat) : Nat := SMap.getD s.roles r r

/-! ### Wakes (R363, R377, R378) -/

/-- A wake source (0 WAKE_N, 1 WAKE, 2 port, 3 PERST_N, 4 timer, 5 thermal, 6 root loss) acts in a power state. -/
def wakesFrom (src st : Nat) : Bool :=
  if st = 2 then src ≤ 6 else if st = 3 then src = 0 || src = 1 || src = 3 else st = 4 && src = 0

/-- A wake: latched from the request onwards, and the exit's start in Sleep and Deep Sleep; after a root loss only while a
candidate is present. LAST_WAKE records the first. -/
def State.wakeBy (s : State) (src : Nat) : State :=
  let p := s.pwr
  if p.trans = 1 ∨ p.trans = 2 then
    if !wakesFrom src p.target then s
    else
      let s := s.put 0xB Reg.PWR_STAT_WAKE_LATCHED 1
      if p.wake.isSome then s
      else ({ s with pwr := { p with wake := some src } } : State).put 0xB Reg.PWR_STAT_LAST_WAKE src
  else if p.trans = 0 && (p.state = 2 || p.state = 3) && wakesFrom src p.state && !(p.rootLoss && s.clk.present = 0) then
    (({ s with pwr := { p with wake := some src, trans := 3 } } : State).put 0xB Reg.PWR_STAT_LAST_WAKE src).put 0xB
      Reg.PWR_STAT_EXITING 1
  else s

/-- The Kenez leaves Idle (R372); the last-lap timer restarts its window. -/
def State.leaveIdle (s : State) : State :=
  if s.pwr.state = 1 then
    ((({ s with pwr := { s.pwr with state := 0 }, key := { s.key with windowAt := s.time } } : State).put 0xB
      Reg.PWR_STAT_STATE 0).put 7 Reg.HUB_LAP_STAT_MISSED 0)
  else s

/-- The state the Kenez is in, or the one it is on the way to. -/
def State.pwrGoal (s : State) : Nat := if s.pwr.trans = 1 ∨ s.pwr.trans = 2 then s.pwr.target else s.pwr.state

/-! ### Gates -/

/-- The parent of a gate-tree node (R367). -/
def gateParent (n : Nat) : Nat :=
  if n ≤ 16 then 0
  else if n ≤ 32 then 1 + (n - 17) / 4
  else if n ≤ 48 then n - 33 + 17
  else if n ≤ 64 then n - 49 + 17
  else if n ≤ 72 then n - 65 + 9
  else 5 + (n - 73) / 16

/-- A gate-tree node is closed (R368). -/
def State.gateShut (s : State) (n : Nat) : Bool := s.clk.closed.contains n

/-- The gate node of an aperture page, where its block has one (R367): a port or a Pier. -/
def gateOfPage (pg : Nat) : Option Nat :=
  if 0x28 ≤ pg ∧ pg < 0x30 then some (9 + (pg - 0x28))
  else if 0x30 ≤ pg ∧ pg < 0x40 then some (17 + (pg - 0x30))
  else none

/-! ### Spans (R54 to R60) -/

/-- The grain shift of a grain code (R55). -/
def grainShift (g : Nat) : Nat := [8, 12, 21, 30].getD g 8

def State.spanBase (s : State) (i : Nat) : Nat := 2 ^ 30 * s.fld 1 (Reg.HUB_SPAN_BASE_BASE_G i)
def State.spanSize (s : State) (i : Nat) : Nat := 2 ^ 30 * s.fld 1 (Reg.HUB_SPAN_SIZE_SIZE_G i)
def State.spanShift (s : State) (i : Nat) : Nat := grainShift (s.fld 1 (Reg.HUB_SPAN_CTL_GRAIN i))
def State.spanCount (s : State) (i : Nat) : Nat := 2 ^ s.fld 1 (Reg.HUB_SPAN_CTL_COUNT i)
def State.spanMirrored (s : State) (i : Nat) : Bool := s.flag 1 (Reg.HUB_SPAN_CTL_MIRRORED i)
def State.spanMember (s : State) (i m : Nat) : Nat := bits (s.fld 1 (Reg.HUB_SPAN_MEMBERS_MEMBER i)) (4 * m) 4

/-- The span a DA lies in (R57). -/
def State.spanOf (s : State) (da : Nat) : Option Nat :=
  (List.range 8).find? (fun i => s.spanBase i ≤ da && da < s.spanBase i + s.spanSize i)

/-- The span may hold T0 and T1 frames (R105). -/
def State.frameSpan (s : State) (i : Nat) : Bool := (s.fld 2 Reg.HUB_XLAT_FSPAN_FRAME_SPANS).testBit i
/-- The span pairs its frames (R132). -/
def State.mirrorSpan (s : State) (i : Nat) : Bool := (s.fld 2 Reg.HUB_XLAT_MIRROR_MIRROR_SPANS).testBit i
/-- The span is a packed-store span (R160). -/
def State.psSpan (s : State) (i : Nat) : Bool := (s.fld 2 Reg.HUB_PS_CTL_PS_SPANS).testBit i

/-- Where a DA lies (R57): span, primary Pier, copy Pier of a mirrored span, Pier offset. -/
structure Loc where
  span : Nat
  prim : Nat
  copy : Option Nat
  off : Nat
  deriving DecidableEq, Repr

/-- The decode of R57. -/
def State.decode (s : State) (da : Nat) : Option Loc :=
  match s.spanOf da with
  | none => none
  | some i =>
    let sh := s.spanShift i
    let off := da - s.spanBase i
    let g := off / 2 ^ sh
    let within := off % 2 ^ sh
    if s.spanMirrored i then
      let n := s.spanCount i / 2
      let p := g % n
      let q := g / n
      let a := s.spanMember i p
      let b := s.spanMember i (p + n)
      let prim := if q % 2 = 0 then a else b
      let copy := if q % 2 = 0 then b else a
      some ⟨i, prim, some copy, 2 ^ 30 * s.fld (pgPier prim) (Reg.PIER_SHARE_BASE_BASE_G i) + q * 2 ^ sh + within⟩
    else
      let prim := s.spanMember i (g % s.spanCount i)
      let q := g / s.spanCount i
      some ⟨i, prim, none, 2 ^ 30 * s.fld (pgPier prim) (Reg.PIER_SHARE_BASE_BASE_G i) + q * 2 ^ sh + within⟩

/-- The DA of the line that mirrors a T0 line: the pair frame (R109) with the line offset of R59. -/
def State.mirrorDa (s : State) (da : Nat) : Option Nat :=
  match s.spanOf da with
  | none => none
  | some i =>
    if s.mirrorSpan i then
      let o := da - s.spanBase i
      let h := s.spanSize i / 2
      let o' := if o < h then o + h else o - h
      let da' := s.spanBase i + o'
      if s.spanShift i < 12 then
        some (4096 * (da' / 4096) + (da' % 4096 ^^^ (2 ^ s.spanShift i * s.spanCount i / 2)))
      else some da'
    else none

/-- Ranks of a channel (R78, R53). -/
def State.ranks (s : State) (n : Nat) : Nat :=
  (s.fld (pgPier n) Reg.PIER_GEOM_DPC2 + 1) * 2 ^ s.fld (pgPier n) Reg.PIER_GEOM_RPM

/-- Bits of the line field of a row: 7 for x4 devices, 6 for x8 (R60). -/
def State.colBits (s : State) (n : Nat) : Nat := if s.flag (pgPier n) Reg.PIER_GEOM_DEV_X8 then 6 else 7

/-- Line-address bits of one rank: subchannel, bank group, bank, line in row, row (R60). -/
def State.rankBits (s : State) (n : Nat) : Nat :=
  6 + s.colBits n + (16 + s.fld (pgPier n) Reg.PIER_GEOM_ROW)

/-- Lines of one rank. -/
def State.rankLines (s : State) (n : Nat) : Nat := 2 ^ s.rankBits n

/-- The physical ranks in service before any sparing, ascending, the spare and ranks retired without one skipped (R60, R393). -/
def State.physRanks (s : State) (n : Nat) : List Nat :=
  (List.range (s.ranks n)).filter (fun r =>
    !(s.flag (pgPier n) Reg.PIER_GEOM_SPARE_PRESENT && r == s.fld (pgPier n) Reg.PIER_GEOM_SPARE_RANK)
      && !(s.pier n).skip.testBit r)

/-- A media address (R60): where a logical line of a Pier lies in the DRAM. -/
structure Ma where
  pier : Nat
  lrank : Nat
  line : Nat
  /-- Pier and physical rank that hold the line now, and whether it is the spare -/
  hpier : Nat
  prank : Nat
  spare : Bool
  /-- module and chip select of the physical rank -/
  module : Nat
  cs : Nat
  /-- bank group, bank, column address and row of the line -/
  bg : Nat
  ba : Nat
  col : Nat
  row : Nat
  deriving DecidableEq, Repr

/-- The subchannel of a media address: 0 A, 1 B (R60). -/
def Ma.sub (m : Ma) : Nat := m.line % 2

/-- The media address of line index l of a logical rank that a physical rank of Pier h holds (R60). -/
def State.maAt (s : State) (n lrank l h prank : Nat) (spare : Bool) : Ma :=
  let rpm := 2 ^ s.fld (pgPier h) Reg.PIER_GEOM_RPM
  let c := s.colBits h
  { pier := n, lrank := lrank, line := l, hpier := h, prank := prank, spare := spare, module := prank / rpm, cs := prank % rpm,
    bg := bits l 1 3, ba := bits l 4 2, col := 16 * bits l 6 c, row := l / 2 ^ (6 + c) }

/-- Sparing serves this line from the spare (R72, R75): STATE 1 COPYING, 2 HELD, 3 SPARED, 4 STALLED. -/
def State.onSpare (s : State) (n lrank line : Nat) : Bool :=
  let st := s.fld (pgPier n) Reg.PIER_SPARE_CTL_STATE
  (s.fld (pgPier n) Reg.PIER_SPARE_CTL_FAIL_RANK == lrank) &&
    (st == 3 || ((st == 1 || st == 2 || st == 4) && line < (s.pier n).bound))

/-- The media address of a Pier offset. -/
def State.maOf (s : State) (n off : Nat) : Ma :=
  let l := off / 64
  let j := l / s.rankLines n
  let line := l % s.rankLines n
  if s.onSpare n j line then
    s.maAt n j line (s.fld (pgPier n) Reg.PIER_SPARE_CTL_SPARE_PIER) (s.fld (pgPier n) Reg.PIER_SPARE_CTL_SPARE_PHYS) true
  else s.maAt n j line n ((s.physRanks n).getD j j) false

/-- The bank key of a media address: rank, bank, bank group and subchannel (R60). -/
def Ma.bank (m : Ma) : Nat := 64 * m.prank + 16 * m.ba + 2 * m.bg + m.sub

/-- The Pier and media address of a line's primary (copy 0) or metadata copy (copy 1). -/
def State.lineMa (s : State) (da copy : Nat) : Option Ma :=
  match s.decode da with
  | none => none
  | some l =>
    if copy = 0 then some (s.maOf l.prim l.off)
    else l.copy.map (fun c => s.maOf c l.off)

/-- Levels of a VI's tree (R80). -/
def Vi.levels (v : Vi) : Nat := v.depth + 3
/-- The window of a VI in GiB. -/
def Vi.winG (v : Vi) : Nat := v.assuredG + v.elasticG

/-! ### Flash (R386): a sorted list of bytes that differ from the erased value 0xFF -/

/-- The canonical form: addresses strictly rising, no listed byte equal to 0xFF. -/
def Memory.wf : List Host.Cell → Bool
  | [] => true
  | [(_, b)] => b != 0xFF
  | (a, b) :: (a', b') :: t => b != 0xFF && decide (a < a') && Memory.wf ((a', b') :: t)

/-- A byte of the flash. -/
def Memory.read : List Host.Cell → Nat → BitVec 8
  | [], _ => 0xFF
  | (a, b) :: t, k => if k = a then b else Memory.read t k

/-- A byte of the flash set, keeping the canonical form. -/
def Memory.write : List Host.Cell → Nat → BitVec 8 → List Host.Cell
  | [], k, v => if v = 0xFF then [] else [(k, v)]
  | (a, b) :: t, k, v =>
    if k < a then (if v = 0xFF then (a, b) :: t else (k, v) :: (a, b) :: t)
    else if k = a then (if v = 0xFF then t else (k, v) :: t)
    else (a, b) :: Memory.write t k v

/-- A 4 KiB sector erased. -/
def Memory.erase (m : List Host.Cell) (sector : Nat) : List Host.Cell :=
  List.filter (fun c => c.1 / 4096 != sector) m

/-- Bytes programmed: NOR flash clears bits and sets none. -/
def Memory.program (m : List Host.Cell) : Nat → List Nat → List Host.Cell
  | _, [] => m
  | a, b :: bs => Memory.program (Memory.write m a (Memory.read m a &&& BitVec.ofNat 8 b)) (a + 1) bs

def State.flashByte (s : State) (a : Nat) : Nat := (Memory.read s.flash a).toNat
/-- Bytes of the flash from an address. -/
def State.flashBytes (s : State) (a n : Nat) : List Nat := (List.range n).map (fun i => s.flashByte (a + i))

end Sys2Proof.Machine
end

