-- ==== Sys2Proof/Machine/Flags.lean ====
section
/-!
DEFINITION. The event system (R326 to R334, R251, R226): the page bit of a source, the queues with their flood rules, the
error capture, the CXL logs, the journal buffer and ALERT_N. Every event of the block is raised through State.raise.
-/
namespace Sys2Proof.Machine

/-- The severities of R327. -/
def INFO : Nat := 0
def WARN : Nat := 1
def ERROR : Nat := 2
def FATAL : Nat := 3

/-- The kind codes of R328 are the base of a row plus the position in it. A kind is one the tables list. -/
def kindKnown (k : Nat) : Bool :=
  k = 1 || (0x100 ≤ k && k ≤ 0x10B) || (0x200 ≤ k && k ≤ 0x20E) || (0x300 ≤ k && k ≤ 0x306) || (0x400 ≤ k && k ≤ 0x405)
    || (0x500 ≤ k && k ≤ 0x506) || (0x600 ≤ k && k ≤ 0x60D) || (0x700 ≤ k && k ≤ 0x707) || (0x800 ≤ k && k ≤ 0x809)
    || (0x900 ≤ k && k ≤ 0x90A) || (0xA00 ≤ k && k ≤ 0xA01) || (0xB00 ≤ k && k ≤ 0xB05)

/-- The sources of a page, bit 0 upward (R399). -/
def pageSources (pg : Nat) : List Nat :=
  match pg with
  | 0 => [60] | 1 => [5] | 2 => [12, 13] | 3 => [16, 17] | 4 => [21] | 5 => [24] | 6 => [28, 29]
  | 7 => [448, 449, 450, 451, 452, 453, 454, 455] | 8 => [48] | 9 => [56] | 0xA => [456, 457] | 0xB => [458, 459]
  | _ =>
    if 0x10 ≤ pg ∧ pg < 0x24 then [384 + 2 * (pg - 0x10), 385 + 2 * (pg - 0x10)]
    else if 0x28 ≤ pg ∧ pg < 0x30 then (List.range 8).map (fun i => 64 + 8 * (pg - 0x28) + i) ++ [40 + (pg - 0x28)]
    else if 0x30 ≤ pg ∧ pg < 0x40 then (List.range 16).map (fun i => 128 + 16 * (pg - 0x30) + i)
    else []

/-- The page of a source (R399). -/
def sourcePage (src : Nat) : Nat :=
  if src = 60 then 0 else if src = 5 then 1 else if src < 14 then 2 else if src < 20 then 3 else if src = 21 then 4
  else if src = 24 then 5 else if src < 30 then 6 else if src = 48 then 8 else if src = 56 then 9
  else if src < 48 then 0x28 + (src - 40)
  else if src < 128 then 0x28 + (src - 64) / 8
  else if src < 384 then 0x30 + (src - 128) / 16
  else if src < 424 then 0x10 + (src - 384) / 2
  else if src < 456 then 7 else if src < 458 then 0xA else 0xB

/-- The bit of a source in its page (R399). -/
def sourceBit (src : Nat) : Nat := (pageSources (sourcePage src)).idxOf src

/-- The EVT_ENA field of a page: every used bit resets to 1 (R408). -/
def enaFld (pg : Nat) : Fld := Reg.EVT_ENA_ENA (pageSources pg).length

/-- Bytes laid out from byte 24 of a record (R327). -/
def detail (bs : List Nat) : Nat := ofLe (bs.take 8)

/-- One more lost record of a severity. -/
def lose (l : List Nat) (sev : Nat) : List Nat := l.set sev (min 0xFFFF (l.getD sev 0 + 1))

/-- The four 16-bit loss counts of an OVERFLOW record (R330 rule 4). -/
def lostDetail (l : List Nat) : Nat := (l.map (fun n => [n % 256, n / 256])).flatten |> ofLe

/-- The highest severity among the counted losses. -/
def lostSev (l : List Nat) : Nat :=
  if l.getD 3 0 > 0 then 3 else if l.getD 2 0 > 0 then 2 else if l.getD 1 0 > 0 then 1 else 0

/-- The OVERFLOW record of a queue is waiting. -/
def hasOvf (q : RecQueue) : Bool := q.recs.any (fun r => r.src == 0 && r.kind == 1)

/-- A loss noted in the queue's OVERFLOW record: updated in place while unread, placed anew after that (R330 rule 4). -/
def RecQueue.noteLoss (q : RecQueue) (sev now size : Nat) : RecQueue :=
  if hasOvf q then
    let l := lose q.lost sev
    { q with lost := l, recs := q.recs.map (fun r =>
        if r.src == 0 && r.kind == 1 then { r with sev := lostSev l, detail := lostDetail l } else r) }
  else
    let l := lose [0, 0, 0, 0] sev
    { q with lost := l, head := (q.head + 1) % size,
             recs := q.recs ++ [⟨0, 1, lostSev l, false, none, now, 0, 1, lostDetail l, none⟩] }

/-- The first record a test picks, replaced. -/
def replaceFirst (f : Record → Bool) (n : Record) : List Record → List Record
  | [] => []
  | r :: t => if f r then n :: t else r :: replaceFirst f n t

/-- The last record a test picks, changed. -/
def mapLast (f : Record → Bool) (g : Record → Record) (l : List Record) : List Record :=
  ((l.reverse).foldl (fun (a : List Record × Bool) r =>
    if !a.2 && f r then (g r :: a.1, true) else (r :: a.1, a.2)) ([], false)).1

/-- The record a coalescing pair still tracks: written within the last 1 ms, and not yet read (R330 rule 1). -/
def RecQueue.tracked (q : RecQueue) (r : Record) (now : Nat) : Bool :=
  q.pairs.any (fun p => p.1 == r.src && p.2.1 == r.kind && now ≤ p.2.2 + 1000000) &&
    q.recs.any (fun x => x.src == r.src && x.kind == r.kind)

/-- A record offered to a queue of a size, where non-FATAL records may leave at most limN waiting and FATAL records limF,
and a FATAL record that finds no room replaces the oldest waiting INFO record when repl is set (R226, R330). The second
result is the record lost, if any; the third says that a record was written. -/
def RecQueue.push (q : RecQueue) (r : Record) (now size limN limF : Nat) (repl : Bool) :
    RecQueue × Option Record × Bool :=
  if q.tracked r now then
    ({ q with recs := mapLast (fun x => x.src == r.src && x.kind == r.kind) (fun x =>
        { x with count := min 0xFFFF (x.count + r.count), coalesced := true,
                 detail := if r.kind = 0x506 then r.detail else x.detail }) q.recs }, none, false)
  else
    let waiting := (q.recs.filter (fun x => !(x.src == 0 && x.kind == 1))).length
    let live := q.pairs.filter (fun p => now ≤ p.2.2 + 1000000 && q.recs.any (fun x => x.src == p.1 && x.kind == p.2.1))
    let pairs := if live.length < 64 then live ++ [(r.src, r.kind, now)] else live
    if waiting < (if r.sev = FATAL then limF else limN) then
      ({ q with recs := q.recs ++ [r], head := (q.head + 1) % size, pairs := pairs }, none, true)
    else if r.sev = FATAL && repl then
      match q.recs.find? (fun x => x.sev == INFO && !(x.src == 0 && x.kind == 1)) with
      | some x =>
        let q' := { q with recs := replaceFirst (fun y => y.sev == INFO && !(y.src == 0 && y.kind == 1)) r q.recs,
                           pairs := pairs }
        (q'.noteLoss x.sev now size, some x, true)
      | none => (q.noteLoss r.sev now size, some r, false)
    else (q.noteLoss r.sev now size, some r, false)

/-- A source's missed count raised (R330 rule 3). -/
def State.countMissed (s : State) (src : Nat) : State :=
  let n := min 0xFFFF (SMap.getD s.missed src 0 + 1)
  { s with missed := SMap.put s.missed src n,
           missedMax := (if n = 0xFFFF ∧ !s.missedMax.contains src then src :: s.missedMax else s.missedMax) }

def State.countLost (s : State) (r : Option Record) : State :=
  match r with
  | some x => s.countMissed x.src
  | none => s

/-- The record offered to the manager queue (R329, R330): 4,096 slots, 64 kept for FATAL, one of them for OVERFLOW. -/
def State.toManager (s : State) (r : Record) : State :=
  let (q, l, w) := s.mq.push r s.time 4096 4031 4094 true
  let s := ({ s with mq := q } : State).countLost l
  if w then s.emit (.msix s.mgrPort 16 1) else s

/-- The record offered to a VI's fault queue (R226): 64 slots, 62 for records, the 63rd for OVERFLOW. -/
def State.toFault (s : State) (t : Nat) (r : Record) : State :=
  let v := s.vi t
  let (q, l, w) := v.fq.push r s.time 64 62 62 true
  let n := if l.isSome then min 0xFFFF (v.fqMissed + 1) else v.fqMissed
  let s := (s.setVi t { v with fq := q, fqMissed := n, fqMissedMax := (v.fqMissedMax || n == 0xFFFF) }).countLost l
  if w && v.irqEn then
    (pick 8 (fun k => v.ports.testBit k)).foldl (fun s k => s.emit (.msix k v.ld v.fqVector)) s
  else s

/-- The record offered to one LD's CXL log of its severity (R251, R330): 255 records and a kept OVERFLOW slot. -/
def State.toLog (s : State) (p ld : Nat) (r : Record) : State :=
  let d := s.ldev p ld
  let (q, l, _) := (d.logs.getD r.sev RecQueue.empty).push r s.time 256 255 255 false
  (s.setLdev p ld { d with logs := d.logs.set r.sev q }).countLost l

/-- The port a host's request came from; an access of the FM-owned LD caches nothing (R207). -/
def readerOf (req : ReqFrom) : Option Nat :=
  match req with
  | some (p, l, _) => if l = 16 then none else some p
  | none => none

/-- The LDs a record goes to (R251): those its VI is bound on, and the LD of the request it arose from. DRAM Events go to the
FM-owned LD of the manager port; DC_EVENT to none. -/
def State.logTargets (s : State) (r : Record) (req : ReqFrom) : List (Nat × Nat) :=
  if r.kind = 0x60C then []
  else if r.kind = 0x105 ∨ r.kind = 0x103 then [(s.mgrPort, 16)]
  else
    let byVi := match r.vi with
      | some t => (pick 8 (fun k => (s.vi t).ports.testBit k)).map (fun k => (k, (s.vi t).ld))
      | none => []
    match req with
    | some (p, l, _) => if byVi.contains (p, l) then byVi else (p, l) :: byVi
    | none => byVi

/-- The record as one LD's log holds it (R251): LINE_POISONED on a host request is a General Media Event, with the LD's DPA,
in the requesting LD's log. -/
def Record.formAt (r : Record) (req : ReqFrom) (x : Nat × Nat) : Record :=
  match req with
  | some (p, l, some d) => if r.kind = 0x102 ∧ x = (p, l) then { r with media := some d } else r
  | _ => r

/-- The kinds that go to a VI's fault queue (R226, R255). -/
def faultKind (k : Nat) : Bool :=
  [0x200, 0x201, 0x202, 0x203, 0x205, 0x206, 0x207, 0x401, 0x505, 0x20E, 0x607].contains k

/-- A record offered to the journal buffer (R334): a token is drawn, then a place in the buffer of 64. -/
def State.toJournal (s : State) (r : Record) : State :=
  let extra := r.sev = FATAL ∨ r.kind = 0x103 ∨ r.kind = 0x105
  let j := s.jnl
  if j.tok1 = 0 ∧ ¬ (extra ∧ j.tok2 > 0) then s.countMissed r.src
  else
    let j := if j.tok1 > 0 then { j with tok1 := j.tok1 - 1 } else { j with tok2 := j.tok2 - 1 }
    if j.buf.length < 64 then { s with jnl := { j with buf := j.buf ++ [r] } }
    else
      match j.buf.find? (fun x => x.sev < r.sev) with
      | some x =>
        ({ s with jnl := { j with buf := (j.buf.erase x) ++ [r] } }).countMissed x.src
      | none => ({ s with jnl := j }).countMissed r.src

/-- An alert (R331): ALERT_N for 1 µs, or PEND within 10 ms of the last assertion's start. -/
def State.alert (s : State) : State :=
  match s.alertAt with
  | some t => if s.time < t + 10000000 then s.put 7 Reg.HUB_EVT_ALERT_PEND 1
              else { s with alertAt := some s.time, alerts := s.alerts + 1 }
  | none => { s with alertAt := some s.time, alerts := s.alerts + 1 }

/-- Hub telemetry event 0x08, EVT_RECORDS, counts every record produced (R339). -/
def State.countRecords (s : State) : State :=
  if s.flag 9 Reg.TEL_FREEZE_FREEZE then s
  else
    let hit := s.telSel.filter (fun p => p.1 < 128 && p.2 % 256 == 8 && p.2.testBit 8)
    { s with telCnt := hit.foldl (fun m p => SMap.put m p.1 ((SMap.getD m p.1 0 + 1) % 2 ^ 64)) s.telCnt }

/-- A record produced: the page's status bit, the error capture, and the queues its severity, enables and routes name
(R329, R408). Boot events wait in Truss until the event system starts (R394). -/
def State.produce (s : State) (r : Record) (req : ReqFrom) : State :=
  let pg := sourcePage r.src
  let b := sourceBit r.src
  let s := s.countRecords
  let s := s.put pg Reg.EVT_STAT_RAISED (setBit (s.fld pg Reg.EVT_STAT_RAISED) b)
  let s := if r.sev ≥ ERROR ∧ (SMap.get? s.errCap pg).isNone then { s with errCap := SMap.put s.errCap pg r } else s
  let ena := r.sev = FATAL || (s.fld pg (enaFld pg)).testBit b
  let s := if ena then s.toManager r else s
  let s := if ena then (match r.vi with
    | some t => if faultKind r.kind then s.toFault t r else s
    | none => s) else s
  let s := if ena then (s.logTargets r req).foldl (fun s x => s.toLog x.1 x.2 (r.formAt req x)) s else s
  let jr := r.sev = FATAL || r.kind = 0x103 || r.kind = 0x105 ||
    (ena && r.sev = ERROR && (s.fld pg Reg.EVT_ROUTE_JNL).testBit b)
  let s := if jr then s.toJournal r else s
  if r.sev = FATAL || (ena && r.sev = ERROR && (s.fld pg Reg.EVT_ROUTE_ALERT).testBit b) then s.alert else s

/-- An event raised now, with its VI, DA and detail, and the LD of the request it arose from. Before the event system starts, and
in Sleep and Deep Sleep, where no event hardware runs, it waits (R378, R394). -/
def State.raiseFor (s : State) (src kind sev : Nat) (vi : Option Nat) (da det : Nat) (req : ReqFrom) : State :=
  let r : Record := ⟨src, kind, sev, false, vi, s.time, da, 1, det, none⟩
  if s.ready && s.awake then (s.produce r req).leaveIdle else { s with held := s.held ++ [r] }

/-- An event that arose from no host request. -/
def State.raise (s : State) (src kind sev : Nat) (vi : Option Nat) (da det : Nat) : State :=
  s.raiseFor src kind sev vi da det none

/-! ### Registers of a closed block (R369) -/

/-- A register access that reaches a closed block: it reads 0 or is discarded, and the event is raised. -/
def State.closedAccess (s : State) : State :=
  (s.put 0xA Reg.CLK_GATE_STAT_ACCESS_CLOSED 1).raise 457 0x906 ERROR none 0 0

/-- A page's block is closed. -/
def State.pageShut (s : State) (pg : Nat) : Bool :=
  match gateOfPage pg with
  | some g => s.gateShut g
  | none => false

/-- A write that acts on the registers of a page. -/
def State.atPage (s : State) (pg : Nat) (f : State → State) : State := if s.pageShut pg then s.closedAccess else f s

end Sys2Proof.Machine
end

