-- ==== Sys2Proof/Machine/Operands.lean ====
section
/-!
DEFINITION. Operand forms: the layouts of entries, descriptors, context entries, records, steps, jobs and command payloads,
the HDM decoders and windows that turn an HPA into a VI and a VIA, and the telemetry filters.
-/
namespace Sys2Proof.Machine

/-! ### Table entries (R82) -/

def leafV (e : Nat) : Bool := e.testBit 0
def leafM (e : Nat) : Bool := e.testBit 1
def leafTier (e : Nat) : Nat := bits e 2 2
def leafL (e : Nat) : Bool := e.testBit 4
def leafA (e : Nat) : Bool := e.testBit 5
def leafW (e : Nat) : Bool := e.testBit 6
/-- ADDR, bits [51:12] of the entry. -/
def leafAddr (e : Nat) : Nat := bits e 12 40
/-- The index of a VIA at a level (R80). -/
def viaIndex (via lvl : Nat) : Nat := bits via (12 + 9 * (lvl - 1)) 9
/-- Pages of 4 KiB that one entry of a level reaches (R80). -/
def reach (lvl : Nat) : Nat := 512 ^ (lvl - 1)
/-- The frame DA of a T0 or T1 leaf at a level, for a VIA: the frame is aligned to its page size (R83). -/
def leafDa (e lvl via : Nat) : Nat :=
  let sz := 4096 * reach lvl
  (4096 * leafAddr e) / sz * sz + via % sz

/-- 64-bit entry i of a line. -/
def lineEntry (d : BitVec 512) (i : Nat) : Nat := bits d.toNat (64 * i) 64
/-- A line with 64-bit entry i replaced. -/
def setEntry (d : BitVec 512) (i v : Nat) : BitVec 512 := BitVec.ofNat 512 (setBits d.toNat (64 * i) 64 v)

/-! ### Chunk descriptors (R140 to R142) -/

/-- A sub-block record (R141). -/
structure SbRec where
  len : Nat
  raw : Bool
  dyn : Bool
  cnt : Nat
  sector : Nat
  deriving DecidableEq, Repr

def sbRec (x : Nat) : SbRec := ⟨bits x 0 11, x.testBit 11, x.testBit 12, bits x 13 3, bits x 16 40⟩
def SbRec.pack (r : SbRec) : Nat :=
  r.len + 2 ^ 11 * b2n r.raw + 2 ^ 12 * b2n r.dyn + 2 ^ 13 * (r.cnt % 8) + 2 ^ 16 * (r.sector % 2 ^ 40)
/-- Record i of a descriptor. -/
def descRec (d : Nat) (i : Nat) : SbRec := sbRec (bits d (128 + 56 * i) 56)
def descVi (d : Nat) : Nat := bits d 0 16
def descUsed (d : Nat) : Bool := d.testBit 16
def descGen (d : Nat) : Nat := bits d 32 32
def descCrc (d : Nat) : Nat := bits d 64 32
/-- A descriptor from its fields. -/
def descPack (vi gen crc : Nat) (used : Bool) (recs : List SbRec) : Nat :=
  vi % 65536 + 2 ^ 16 * b2n used + 2 ^ 32 * (gen % 2 ^ 32) + 2 ^ 64 * (crc % 2 ^ 32)
    + 2 ^ 128 * (recs.getD 0 ⟨0, false, false, 0, 0⟩).pack + 2 ^ 184 * (recs.getD 1 ⟨0, false, false, 0, 0⟩).pack
    + 2 ^ 240 * (recs.getD 2 ⟨0, false, false, 0, 0⟩).pack + 2 ^ 296 * (recs.getD 3 ⟨0, false, false, 0, 0⟩).pack
/-- The reserved fields of a descriptor are zero. -/
def descClean (d : Nat) : Bool := bits d 17 15 == 0 && bits d 96 32 == 0 && d / 2 ^ 352 == 0
/-- DA of descriptor x (R140). -/
def State.descDa (s : State) (x : Nat) : Nat := 4096 * s.fld 2 Reg.HUB_XLAT_DESC_BASE_BASE + 64 * x

/-- The base DA of the stripe a sector lies in, with its span (R146). -/
def State.stripeBase (s : State) (sector : Nat) : Option (Nat × Nat) :=
  let da := 256 * sector
  match s.spanOf da with
  | some i => if s.psSpan i then some (i, s.spanBase i + 65536 * ((da - s.spanBase i) / 65536)) else none
  | none => none

/-- The parity member of a stripe (R146). -/
def State.parityMember (s : State) (i base : Nat) : Nat := (base - s.spanBase i) / 65536 % 16

/-- The data sector number of a sector DA, if it is a data sector of a packed-store span (R146). -/
def State.dataSector (s : State) (sector : Nat) : Option Nat :=
  match s.stripeBase sector with
  | none => none
  | some (i, b) =>
    let p := s.parityMember i b
    let m := sector / 16 % 16
    if m = p then none else some (16 * (m - (if m > p then 1 else 0)) + sector % 16)

/-- DA of line j counted from a first sector (R143). -/
def State.sectorLine (s : State) (first j : Nat) : Nat :=
  match s.stripeBase first with
  | none => 256 * first + 64 * j
  | some (i, b) =>
    let p := s.parityMember i b
    let m := first / 16 % 16
    let u := m - (if m > p then 1 else 0)
    let q := 16 * u + first % 16 + j / 4
    let u := q / 16
    let m := u + (if u ≥ p then 1 else 0)
    b + 0x1000 * m + 0x100 * (q % 16) + 0x40 * (j % 4)

/-- A record matches one of the rows of R142. -/
def State.recOk (s : State) (r : SbRec) : Bool :=
  let placed := match s.dataSector r.sector with
    | some q => q + r.cnt ≤ 240
    | none => false
  if r.len = 0 then !r.raw && !r.dyn && r.cnt == 0 && r.sector == 0
  else if r.raw then r.len == 1024 && !r.dyn && r.cnt == 4 && placed
  else r.len ≤ 768 && r.cnt == ceilDiv r.len 256 && placed

/-! ### Context entries (R216) and event records (R327) -/

def ViState.code : ViState → Nat
  | .free => 0 | .creating => 1 | .quiesced => 2 | .active => 3 | .quiescing => 4 | .frozen => 5 | .resetting => 6
  | .removing => 7

/-- Fields laid out by bit position. -/
def layout (fs : List (Nat × Nat × Nat)) : Nat := fs.foldl (fun a f => a + (f.2.2 % 2 ^ f.2.1) * 2 ^ f.1) 0

/-- The 64-byte context entry (R216). -/
def Vi.pack (v : Vi) : Nat :=
  layout [(0, 3, v.st.code), (3, 1, b2n v.shared), (4, 1, b2n v.mirror), (5, 1, b2n v.telemetry), (6, 1, b2n v.telPerm),
    (7, 1, b2n v.keyEn), (8, 2, v.depth), (10, 3, v.cls), (13, 2, v.pagePol), (15, 2, v.codeMode), (17, 4, v.keySlot),
    (21, 1, b2n v.dirtyLog), (22, 1, b2n v.restored), (24, 8, v.ports), (32, 4, v.ld), (36, 18, v.dpaBaseG),
    (64, 16, v.assuredG), (80, 16, v.elasticG), (96, 10, v.guarQ), (106, 8, v.weight), (128, 36, v.root),
    (192, 36, v.tpoolBase), (256, 32, v.tpoolTables), (288, 32, v.restoreSeq), (320, 36, v.dlogBase), (384, 6, v.fq.head),
    (390, 6, v.fq.head + 64 - v.fq.recs.length), (396, 1, b2n v.irqEn), (397, 11, v.fqVector), (408, 16, v.fqMissed),
    (424, 1, b2n v.fqMissedMax), (448, 32, v.epoch)]

/-- The 32 bytes of a record (R327). -/
def Record.pack (r : Record) : Nat :=
  layout [(0, 9, r.src), (16, 16, r.kind), (32, 2, r.sev), (34, 1, b2n r.coalesced), (35, 1, b2n r.vi.isSome),
    (48, 16, r.vi.getD 0), (64, 64, r.time), (128, 48, r.da), (176, 16, r.count), (192, 64, r.detail)]

/-- The DETAIL of a line event (R40): seed tag, Pier, physical rank, and the cause in byte 31 (0 CRC, 1 SIDE_BITS, 2 TAG). -/
def lineDetail (seed pier rank cause : Nat) : Nat := detail [seed % 256, seed / 256 % 256, pier, rank, 0, 0, 0, cause]

/-! ### Steps and jobs (R302, R308) -/

def stepOp (w : Nat) : Nat := bits w 0 6
def stepUnit (w : Nat) : Nat := bits w 6 4
def stepA (w : Nat) : Nat := bits w 10 3
def stepB (w : Nat) : Nat := bits w 13 3
def stepTarget (w : Nat) : Nat := bits w 16 9
def stepTest (w : Nat) : Nat := bits w 25 6
def stepSense (w : Nat) : Bool := w.testBit 31
def stepImm (w : Nat) : Nat := bits w 32 31
/-- Even parity over a step's 64 bits (R302). -/
def parityOk (w : Nat) : Bool := (pick 64 (fun i => w.testBit i)).length % 2 == 0
def jobRoutine (d : BitVec 512) : Nat := bits d.toNat 0 6
def jobTag (d : BitVec 512) : Nat := bits d.toNat 16 16
def jobId (d : BitVec 512) : Nat := bits d.toNat 32 16
def jobEngine (d : BitVec 512) : Nat := bits d.toNat 48 6
/-- The class label and the page-policy hint that the engine assigned (R17, R308). -/
def jobClass (d : BitVec 512) : Nat := bits d.toNat 8 3
def jobHint (d : BitVec 512) : Nat := bits d.toNat 11 2
def jobReg (d : BitVec 512) (i : Nat) : Nat := if i = 0 then 0 else bits d.toNat (64 * i) 64

/-! ### Command payloads (R220, R263, R321) -/

def nats (l : List (BitVec 8)) : List Nat := l.map BitVec.toNat
/-- A little-endian field of n bytes at byte i. -/
def pf (p : List Nat) (i n : Nat) : Nat := ofLe ((p.drop i).take n)
/-- A byte of a payload. -/
def pb (p : List Nat) (i : Nat) : Nat := p.getD i 0
/-- Every listed byte of a payload is zero (R220). -/
def zeroBytes (p : List Nat) (ix : List Nat) : Bool := ix.all (fun i => pb p i == 0)

/-- The vendor opcodes with their request and response lengths (R263, R321). -/
def vendorOps : List (Nat × Nat × Nat) :=
  [(0xC000, 0, 64), (0xC100, 16, 20), (0xC101, 8, 4), (0xC102, 2, 4), (0xC103, 2, 4), (0xC104, 2, 4), (0xC105, 2, 4),
   (0xC106, 2, 4), (0xC107, 4, 4), (0xC108, 32, 32), (0xC109, 16, 4), (0xC200, 56, 4), (0xC201, 4, 4), (0xC202, 16, 4),
   (0xC203, 4, 4), (0xC300, 4, 16), (0xC301, 8, 4)]
/-- The commands that run as CXL background operations (R263). -/
def vendorBg (op : Nat) : Bool :=
  [0xC100, 0xC101, 0xC102, 0xC103, 0xC104, 0xC105, 0xC108, 0xC109, 0xC200, 0xC201, 0xC202, 0xC203].contains op
def vendorReq (op : Nat) : Option Nat := (vendorOps.find? (fun x => x.1 == op)).map (fun x => x.2.1)
def vendorRsp (op : Nat) : Nat := ((vendorOps.find? (fun x => x.1 == op)).map (fun x => x.2.2)).getD 4

/-- Bytes padded with zeros to a length. -/
def padTo (n : Nat) (l : List Nat) : List Nat := (l ++ List.replicate n 0).take n

/-! ### HDM decoders and windows (R241 to R243) -/

/-- Ways of a decoder: a power of two, with or without a factor of three (R242). -/
def decPow (d : HdmDecoder) : Nat := if d.ways.val < 5 then d.ways.val else d.ways.val - 5
def decThree (d : HdmDecoder) : Bool := 5 ≤ d.ways.val
def decWays (d : HdmDecoder) : Nat := 2 ^ decPow d * (if decThree d then 3 else 1)

/-- The DPA a decoder gives an HPA inside it, from its DPA base: the interleave bits are taken out (CXL 3.1). -/
def decDpa (d : HdmDecoder) (dpaBase hpa : Nat) : Nat :=
  let off := hpa - d.base.toNat
  let g := 2 ^ (8 + d.gran.val)
  let q := off / g / 2 ^ decPow d
  dpaBase + (if decThree d then q / 3 else q) * g + off % g

/-- The decoders of an LD with their DPA bases: each follows the one before, after its skip (R242). -/
def decoderBases : List (Nat × HdmDecoder) → Nat → List (HdmDecoder × Nat)
  | [], _ => []
  | (_, d) :: t, b =>
    let b' := b + 2 ^ 30 * d.skipG.toNat
    (d, b') :: decoderBases t (b' + d.size.toNat / decWays d)

/-- The committed decoder an HPA passes, with its DPA. -/
def LogDev.decodeHpa (l : LogDev) (hpa : Nat) : Option (HdmDecoder × Nat) :=
  (((decoderBases l.decoders 0).find? (fun x =>
    decide (x.1.base.toNat ≤ hpa ∧ hpa < x.1.base.toNat + x.1.size.toNat))).map
      (fun x => (x.1, decDpa x.1 x.2 hpa))).bind (fun x => if x.2 / 2 ^ 30 < l.capG + l.dcG.sum then some x else none)

/-- The HPA that the committed decoders of the LD give a DPA (R201): the interleave bits put back at the decoder's place. -/
def LogDev.hpaOf (l : LogDev) (dpa : Nat) : Option Nat :=
  ((decoderBases l.decoders 0).find? (fun x => decide (x.2 ≤ dpa ∧ dpa < x.2 + x.1.size.toNat / decWays x.1))).map (fun x =>
    let g := 2 ^ (8 + x.1.gran.val)
    let off := dpa - x.2
    x.1.base.toNat + (off / g * decWays x.1 + x.1.pos.val % decWays x.1) * g + off % g)

/-- The LD has an HDM-DB decoder in use; with no BISnp credit every decoder acts as HDM-H (R195, R239). -/
def State.hdmDb (s : State) (p ld : Nat) : Bool :=
  !s.flag (pgPort p) Reg.PORT_HOST_CRED_HDMH_FORCED && (s.ldev p ld).decoders.any (fun x => x.2.hdmDb)

/-- An HPA of an LD passes an HDM-DB decoder in use; the mode is each decoder's own (R195, R236). -/
def State.dbAt (s : State) (p ld hpa : Nat) : Bool :=
  !s.flag (pgPort p) Reg.PORT_HOST_CRED_HDMH_FORCED &&
    (match (s.ldev p ld).decodeHpa hpa with | some (d, _) => d.hdmDb | none => false)

/-- The DC region of an LD that a DPA lies in, with its base in GiB (R241). -/
def dcRegion : List Nat → Nat → Nat → Nat → Option (Nat × Nat × Nat)
  | [], _, _, _ => none
  | g :: t, base, i, x => if base ≤ x ∧ x < base + g then some (i, base, g) else dcRegion t (base + g) (i + 1) x

/-- The bound VI whose window holds a DPA at a port and LD, in a given set of states. -/
def State.windowOf (s : State) (p ld dpa : Nat) (ok : ViState → Bool) : Option Nat :=
  (s.vis.find? (fun x => ok x.2.st && x.2.ports.testBit p && x.2.ld == ld &&
    decide (2 ^ 30 * x.2.dpaBaseG ≤ dpa) && decide (dpa < 2 ^ 30 * (x.2.dpaBaseG + x.2.winG)))).map Prod.fst

/-- A DPA of a VI's window is accessible: a window in a DC region needs an accepted extent (R243). -/
def State.extentOk (s : State) (p t dpa : Nat) : Bool :=
  let v := s.vi t
  let d := s.ldev p v.ld
  if dpa / 2 ^ 30 < d.capG then true
  else
    let blk := (dpa - 2 ^ 30 * v.dpaBaseG) / 2 ^ 21
    s.extents.any (fun e => e.vi == t && e.port == p && e.accepted && decide (e.start ≤ blk ∧ blk < e.start + e.blocks))

/-! ### Telemetry (R337 to R340) -/

/-- Who a request belongs to, for the filters of R340: 0 host data, 1 manager, 2 engine-internal. -/
structure Flt where
  priv : Nat
  port : Option Nat
  vi : Option Nat
  cls : Nat
  da : Option Nat
  deriving DecidableEq, Repr

/-- A line address lies in a DA range whose bit is set (R340, R355). -/
def State.daPass (s : State) (mask : Nat) (da : Nat) : Bool :=
  (pick 8 (fun r => mask.testBit r)).any (fun r =>
    s.fld 9 (Reg.TEL_DA_LO_LINE r) ≤ da / 64 && da / 64 ≤ s.fld 9 (Reg.TEL_DA_HI_LINE r))

/-- The filters of a select value pass a request (R340). -/
def State.fltPass (s : State) (sel : Nat) (f : Flt) : Bool :=
  (bits sel 10 3).testBit f.priv &&
  (match bits sel 13 2 with
    | 1 => f.port == some (bits sel 16 3)
    | 2 => f.vi == some (bits sel 16 16)
    | _ => true) &&
  (bits sel 32 8).testBit f.cls &&
  (!sel.testBit 40 || (match f.da with | some d => s.daPass (bits sel 41 8) d | none => false))

/-- The select value a counter has at reset (R354). -/
def telSelReset : Nat := 0xFF00001C00

/-- A counter is fixed, with its event code (R337, R339). -/
def fixedCode (i : Nat) : Option Nat :=
  if i < 128 then none
  else if i < 512 then (if (i - 128) % 48 < 4 then some ((i - 128) % 48 + 1) else none)
  else if (i - 512) % 32 < 5 then some ((i - 512) % 32 + 1) else none

/-- Counters count: not frozen, and not stopped with their block (R338, R355). -/
def State.telOn (s : State) : Bool := !s.flag 9 Reg.TEL_FREEZE_FREEZE

/-- One event of a block whose counters start at lo and number n: every counter that selects its code and passes the
filters rises by the amount; filters act on events marked F only (R338 to R340). -/
def State.tally (s : State) (lo n code amt : Nat) (flt : Option Flt) : State :=
  if !s.telOn then s
  else
    let fixed := (pick n (fun j => fixedCode (lo + j) == some code)).map (fun j => lo + j)
    let prog := (s.telSel.filter (fun x => lo ≤ x.1 && x.1 < lo + n && (fixedCode x.1).isNone && x.2 % 256 == code
      && x.2.testBit 8 && (match flt with | some f => s.fltPass x.2 f | none => true))).map Prod.fst
    { s with telCnt := if amt = 0 then s.telCnt else
                         (fixed ++ prog).foldl (fun m i => SMap.put m i ((SMap.getD m i 0 + amt) % 2 ^ 64)) s.telCnt }

/-- A hub event, a port event, a Pier event (R339). -/
def State.telHub (s : State) (code amt : Nat) (f : Option Flt) : State := s.tally 0 128 code amt f
def State.telPort (s : State) (p code amt : Nat) (f : Option Flt) : State :=
  if s.flag (pgPort p) (Reg.SEQ_CTL_HALTED 0x380) then s else s.tally (128 + 48 * p) 48 code amt f
def State.telPier (s : State) (n code amt : Nat) (f : Option Flt) : State :=
  if s.offline n || s.flag (pgPier n) (Reg.SEQ_CTL_HALTED 0x900) then s else s.tally (512 + 32 * n) 32 code amt f

/-- The filter values of a request. -/
def State.reqFlt (s : State) (r : Req) : Flt :=
  { priv := (match r.org with | .host => 0 | .cmd => 1 | _ => 2),
    port := (match r.org with | .host => some r.port | _ => none),
    vi := some r.vi, cls := (s.vi r.vi).cls, da := if r.tier ≤ 1 then some r.da else none }

end Sys2Proof.Machine
end

