-- ==== Sys2Proof/Machine/Media.lean ====
section
/-!
DEFINITION. The lines in DRAM: side bits and seal (R30 to R35), the pools of the metadata reserve and what their lines hold
(R36, R112, R113, R149, R391), the backing of assured parts (R123), and the stored line of a DA.
-/
namespace Sys2Proof.Machine

/-! ### Lines -/

/-- Side bits [127:40] from their fields (R30). -/
def sideHi (tag sharers dstate owner tier : Nat) (poison mirror : Bool) (keyslot : Nat) : Nat :=
  tag % 2 ^ 56 + 2 ^ 56 * (sharers % 256) + 2 ^ 64 * (dstate % 4) + 2 ^ 66 * (owner % 8) + 2 ^ 72 * (tier % 4)
    + 2 ^ 74 * b2n poison + 2 ^ 75 * b2n mirror + 2 ^ 76 * (keyslot % 16)

/-- A line with its CRC-40 for a seed tag and DA (R34, R35). -/
def mkLine (seed da : Nat) (data : BitVec 512) (hi : Nat) : Line :=
  ⟨data, BitVec.ofNat 128 (2 ^ 40 * hi + crc40 seed (da / 64) hi data.toNat)⟩

def Line.hi (l : Line) : Nat := l.side.toNat / 2 ^ 40
def Line.crc (l : Line) : Nat := l.side.toNat % 2 ^ 40
def Line.tag (l : Line) : Nat := bits l.hi 0 56
def Line.sharers (l : Line) : Nat := bits l.hi 56 8
def Line.dstate (l : Line) : Nat := bits l.hi 64 2
def Line.owner (l : Line) : Nat := bits l.hi 66 3
def Line.tier (l : Line) : Nat := bits l.hi 72 2
def Line.poison (l : Line) : Bool := l.hi.testBit 74
def Line.mirror (l : Line) : Bool := l.hi.testBit 75
def Line.keyslot (l : Line) : Nat := bits l.hi 76 4

/-- The check of R34 for a seed tag and DA. -/
def Line.crcOk (l : Line) (seed da : Nat) : Bool := l.crc == crc40 seed (da / 64) l.hi l.data.toNat

/-- Illegal side bits of R31: DSTATE 0b11 or a reserved bit set. -/
def Line.illegal (l : Line) : Bool := l.dstate == 3 || bits l.hi 69 3 != 0 || bits l.hi 80 8 != 0

/-- Beat k of the burst that carries a line (R28, R29): DQ[31:0] in bits [31:0], data byte 4k lowest, and CB[7:0] above them. -/
def Line.beat (l : Line) (k : Nat) : BitVec 40 :=
  (l.side.extractLsb' (8 * k) 8) ++ (l.data.extractLsb' (32 * k) 32)

/-- The line whose burst has the given sixteen beats. -/
def Line.ofBeats (b : Nat → BitVec 40) : Line :=
  ⟨(List.range 16).foldl (fun a k => a ||| ((b k).setWidth 32).setWidth 512 <<< (32 * k)) 0,
   (List.range 16).foldl (fun a k => a ||| ((b k).extractLsb' 32 8).setWidth 128 <<< (8 * k)) 0⟩

/-- The line as a burst returns it with some of its 640 bits flipped: bits [40k+39:40k] of the operand are those of beat k. -/
def Line.flip (l : Line) (f : BitVec 640) : Line :=
  if f = 0 then l else Line.ofBeats (fun k => l.beat k ^^^ f.extractLsb' (40 * k) 40)

/-- The kind of a DA (R32): frame span, packed-store span, or another span, which holds metadata. -/
inductive DaKind where
  | frame | packed | metadata | unmapped
  deriving DecidableEq, Repr

def State.daKind (s : State) (da : Nat) : DaKind :=
  match s.spanOf da with
  | none => .unmapped
  | some i => if s.frameSpan i then .frame else if s.psSpan i then .packed else .metadata

/-- A frame of a run, and a mate of one. -/
def Run.frame (r : Run) (f : Nat) : Bool := r.tier != 2 && r.base ≤ f && f < r.base + r.count
def Run.isMate (r : Run) (f : Nat) : Bool :=
  match r.mate with
  | some b => b ≤ f && f < b + r.count
  | none => false
/-- A descriptor of a run. -/
def Run.desc (r : Run) (x : Nat) : Bool := r.tier == 2 && r.base ≤ x && x < r.base + r.count

/-- The run that backs a page of an assured part, and the page's place in it. -/
def runAt : List Run → Nat → Option (Run × Nat)
  | [], _ => none
  | r :: t, p => if p < r.count then some (r, p) else runAt t (p - r.count)

/-- The page that a run picked by a test backs, at a place of it. -/
def runPage (f : Run → Bool) (x : Nat) : List Run → Nat → Option Nat
  | [], _ => none
  | r :: t, a => if f r then some (a + (x - r.base)) else runPage f x t (a + r.count)

/-- The page of a VI that a frame or a descriptor backs since creation. -/
def Vi.backPage (v : Vi) (desc : Bool) (x : Nat) : Option Nat :=
  runPage (fun r => if desc then r.desc x else r.frame x) x v.back 0

/-- The VI and the run that a frame belongs to since a creation: none once the owner map has an entry of its own for it. -/
def State.backOf (s : State) (f : Nat) : Option (Nat × Run) :=
  if (SMap.get? s.owner f).isSome then none
  else s.vis.findSome? (fun p => (p.2.back.find? (fun r => r.frame f || r.isMate f)).map (fun r => (p.1, r)))

/-- The VI that owns a frame of a frame span (R36): the owner map, or a run that backs a VI's assured part. -/
def State.ownerOf (s : State) (frame : Nat) : Option Nat :=
  match SMap.get? s.owner frame with
  | some t => if t < 65536 then some t else none
  | none => (s.backOf frame).map Prod.fst

/-- The key of a line in the media map: DA line, copy and plane (1: held by the spare rank). -/
def mediaKey (da copy : Nat) (spare : Bool) : Nat := 4 * (da / 64) + 2 * copy + b2n spare

/-- DAs of the lines of a DA range that some copy or plane stores, ascending. -/
def State.storedLines (s : State) (lo hi : Nat) : List Nat :=
  s.media.foldr (fun (x : Nat × Line) (a : List Nat) =>
    let da := 64 * (x.1 / 4)
    if lo ≤ da ∧ da < hi ∧ a.head? ≠ some da then da :: a else a) []

/-- Tables below level l that precede a table of the pool: the root first, then level by level (the model's layout). -/
def poolStart (depth l w : Nat) : Nat :=
  let n3 := ceilDiv w 512
  match depth, l with
  | 5, 5 => 0 | 5, 4 => 1 | 5, 3 => 2 | 5, 2 => 2 + n3 | 5, _ => 2 + n3 + w
  | 4, 4 => 0 | 4, 3 => 1 | 4, 2 => 1 + n3 | 4, _ => 1 + n3 + w
  | _, 3 => 0 | _, 2 => n3 | _, _ => n3 + w

/-- The entry that a VI's tables hold at creation at level 1: the zero descriptor or frame of an assured page, or an
unbacked leaf (R122, R123). -/
def Vi.leaf0 (v : Vi) (page : Nat) : Nat :=
  let w := 64 * b2n v.wAll
  if page < 262144 * v.assuredG then
    match runAt v.back page with
    | some (r, k) => 1 + 4 * r.tier + w + 4096 * (r.base + k)
    | none => 1 + 3 * 4 + w
  else if page < 262144 * v.winG then 1 + 3 * 4 + w else 0

/-- The 64-bit entry i of table t of a VI's pool as its creation built it. -/
def Vi.entry0 (v : Vi) (t i : Nat) : Nat :=
  let d := v.levels
  let w := v.winG
  let at1 := poolStart d 1 w
  let at2 := poolStart d 2 w
  let at3 := poolStart d 3 w
  let ptr := fun (k : Nat) => 1 + 4096 * (v.tpoolBase + k)
  if at1 ≤ t then v.leaf0 (512 * (t - at1) + i)
  else if at2 ≤ t then ptr (at1 + 512 * (t - at2) + i)
  else if at3 ≤ t then (let k := 512 * (t - at3) + i; if k < w then ptr (at2 + k) else 0)
  else if d = 4 then (if i < ceilDiv w 512 then ptr (at3 + i) else 0)
  else if t = 1 then (if i < ceilDiv w 512 then ptr (at3 + i) else 0)
  else (if i = 0 then ptr 1 else 0)

/-- The data of a metadata line that nothing has written since the pools were laid out: the tables of a VI, its zero
descriptors, and zeros elsewhere (R77, R123, R390 step 9). -/
def State.meta0 (s : State) (da : Nat) : BitVec 512 :=
  let f := da / 4096
  match s.vis.find? (fun p => p.2.tpoolBase ≤ f && f < p.2.tpoolBase + p.2.tpoolTables) with
  | some (_, v) =>
    let t := f - v.tpoolBase
    let i0 := 8 * ((da % 4096) / 64)
    BitVec.ofNat 512 ((List.range 8).foldl (fun a i => a + v.entry0 t (i0 + i) * 2 ^ (64 * i)) 0)
  | none =>
    let b := 4096 * s.fld 2 Reg.HUB_XLAT_DESC_BASE_BASE
    let n := s.fld 2 Reg.HUB_XLAT_DESC_CNT_COUNT
    if b ≤ da ∧ da < b + 64 * n then
      let x := (da - b) / 64
      match s.vis.find? (fun p => p.2.back.any (fun r => r.desc x)) with
      | some (t, _) => BitVec.ofNat 512 (t + 2 ^ 16)
      | none => 0
    else 0

/-- The key map entry of the granule a DA lies in, when EN is set: the slot and RANK (R162). -/
def State.region (s : State) (da : Nat) : Option (Nat × Nat) :=
  let e := SMap.getD s.kmap (da / 2 ^ 30) 0
  if e.testBit 4 then some (e % 16, bits e 8 14) else none

/-- A zero line of a frame that backs an assured part from its VI's creation, sealed under counter (0, 0) of its key region
(R108, R123; the model's form of the zero-fill). -/
def State.zeroFrameLine (s : State) (t da tier : Nat) (mirror : Bool) : Line :=
  let plain := mkLine t da 0 (sideHi 0 0 0 0 tier false mirror 0)
  match s.region da with
  | none => plain
  | some (k, _) =>
    let sl := s.slot k
    if sl.mode = 0 then plain
    else
      let c := keystream sl.dataKey.toNat k (da / 64) 0 0
      let tg := if sl.mode = 2 then lineTag sl.tagKey.toNat k (da / 64) 0 0 c else 0
      mkLine t da (BitVec.ofNat 512 c) (sideHi tg 0 0 0 tier false mirror k)

/-- DA of an entry of a region's counter storage: level 0 is the counter lines, level k the nodes (R173, R178). -/
def State.ctrDa (s : State) (k lvl idx : Nat) : Nat :=
  4096 * (if lvl = 0 then s.fld 3 (Reg.HUB_KSLOT_CTR_BASE k) else s.fld 3 (Reg.HUB_KTREE_LVL_BASE k lvl)) + 64 * idx

/-- Granules of a slot's region, from the key map. -/
def State.granules (s : State) (k : Nat) : Nat := (s.kmap.filter (fun x => x.2.testBit 4 && x.2 % 16 == k)).length

/-- Entries of a level: N / 8^k rounded up (R178). -/
def State.ctrCount (s : State) (k lvl : Nat) : Nat := ceilDiv (2 ^ 18 * s.granules k) (8 ^ lvl)

/-- Levels of a slot's tree; 0 for a region without one. -/
def State.treeLevels (s : State) (k : Nat) : Nat := s.fld 3 (Reg.HUB_KSLOT_TREE_LEVELS k)

/-- Which entry of which slot's counter storage a DA is: slot, level, index. -/
def State.ctrId (s : State) (da : Nat) : Option (Nat × Nat × Nat) :=
  s.slots.findSome? (fun x =>
    if x.2.st < 2 || x.2.st == 5 ||
        (x.2.mode == 0 && !(x.2.st == 4 && (s.slot (s.fld 3 Reg.HUB_KROT_CTL_DST)).mode != 0)) then none
    else (List.range (s.treeLevels x.1 + 1)).findSome? (fun l =>
      let b := s.ctrDa x.1 l 0
      if b ≤ da ∧ da < b + 64 * s.ctrCount x.1 l then some (x.1, l, (da - b) / 64) else none))

/-- The body of a node with NODE_TAG taken as zero; a counter line has no tag in its data (R178). -/
def untagged (lvl : Nat) (d : BitVec 512) : Nat := if lvl = 0 then d.toNat else setBits d.toNat 448 56 0

/-- The stored line of a counter line or node: tree tag in the side bits or in NODE_TAG (R173, R178). -/
def State.ctrLine (s : State) (k lvl da ver : Nat) (body : BitVec 512) (copy : Bool) : Line :=
  let tg := if s.treeLevels k = 0 then 0 else treeTag (s.slot k).treeKey (da / 64) ver (untagged lvl body)
  if lvl = 0 then mkLine 0 da body (sideHi tg 0 0 0 3 false copy 0)
  else mkLine 0 da (BitVec.ofNat 512 (untagged lvl body + 2 ^ 448 * tg)) (sideHi 0 0 0 0 3 false copy 0)

/-! ### The pools of the metadata reserve (R391) -/

/-- Bytes of each pool in the order of R391: owner map, heat array, descriptors, stripe summaries, fault queues, manager queue,
sample rings, engine state. -/
def State.poolBytes (s : State) : List Nat :=
  let frames := ((pick 8 (fun i => s.frameSpan i)).map (fun i => s.spanSize i / 4096)).sum
  let stripes := ((pick 8 (fun i => s.psSpan i)).map (fun i => s.spanSize i / 65536)).sum
  let cnt := s.fld 2 Reg.HUB_XLAT_DESC_CNT_COUNT
  [4 * frames, frames + cnt, 64 * cnt, 1280 * stripes, 2 ^ 27, 2 ^ 17, 2 ^ 20, 2 ^ 26]

/-- The first frame of each pool, and of the remainder: back to back from a frame, each at a 4 KiB boundary. -/
def poolFrames : Nat → List Nat → List Nat
  | f, [] => [f]
  | f, b :: t => f :: poolFrames (f + ceilDiv b 4096) t

/-- The pool that a byte of the metadata reserve lies in, and its offset there. -/
def poolAt (x : Nat) : Nat → Nat → List Nat → Option (Nat × Nat)
  | _, _, [] => none
  | k, f, b :: t => if 4096 * f ≤ x ∧ x < 4096 * f + b then some (k, x - 4096 * f) else poolAt x (k + 1) (f + ceilDiv b 4096) t

/-- The pool and offset of a DA, once the pools are laid out. -/
def State.poolOf (s : State) (da : Nat) : Option (Nat × Nat) :=
  if s.metaNext = 0 then none else poolAt da 0 (s.spanBase s.metaSpan / 4096) s.poolBytes

/-- Number i of the units of a size that a list of spans holds in ascending order, as the unit's own number (R36, R149). -/
def unitOf (size base : Nat → Nat) (sz : Nat) : List Nat → Nat → Option Nat
  | [], _ => none
  | j :: t, i => if i < size j / sz then some (base j / sz + i) else unitOf size base sz t (i - size j / sz)

/-- The frame of an owner map entry, and the stripe of a summary. -/
def State.mapFrame (s : State) (i : Nat) : Option Nat :=
  unitOf s.spanSize s.spanBase 4096 (pick 8 (fun j => s.frameSpan j && s.spanSize j != 0)) i
def State.sumStripe (s : State) (k : Nat) : Option Nat :=
  unitOf s.spanSize s.spanBase 65536 (pick 8 (fun j => s.psSpan j && s.spanSize j != 0)) k

/-- The 32-bit owner map entry (R36), and the heat value (R113), of a number of the map. -/
def State.ownerWord (s : State) (i : Nat) : Nat :=
  match (s.mapFrame i).bind (fun f => s.ownerOf f) with
  | some t => t + 2 ^ 16
  | none => 0
def State.heatByte (s : State) (i : Nat) : Nat :=
  match s.mapFrame i with
  | some f => SMap.getD s.heat f 0
  | none => SMap.getD s.heat (2 ^ 40 + (i - (s.poolBytes.getD 0 0) / 4)) 0

/-- The Pier that owns a stripe: the one that holds its parity unit (R147). -/
def State.stripeOwner (s : State) (base : Nat) : Nat :=
  match s.stripeBase (base / 256) with
  | some (i, b) => s.spanMember i (s.parityMember i b)
  | none => 0

/-- A byte of a stripe's summary slot (R149). A stripe that was never opened has the zeros of the boot. -/
def State.sumByte (s : State) (k b : Nat) : Nat :=
  match s.sumStripe k with
  | none => 0
  | some n =>
    match SMap.get? s.stripes n with
    | none => 0
    | some st =>
      if b < 1200 then
        match st.starts.find? (fun e => e.1 == b / 5) with
        | some (_, d, sb) => (d % 2 ^ 38 + 2 ^ 38 * sb) / 256 ^ (b % 5) % 256
        | none => 0xFF
      else if b < 1216 then 0
      else (st.live % 256 + 2 ^ 8 * st.st + 2 ^ 10 * b2n st.degraded + 2 ^ 16 * s.stripeOwner (65536 * n)) / 256 ^ (b - 1216) % 256

/-- A record that waits in a queue at a slot; what a slot without one holds is left over from before (R226, R330). -/
def RecQueue.at_ (q : RecQueue) (size slot da : Nat) : Nat :=
  let k := (slot + q.recs.length + size - q.head) % size
  match (if k < q.recs.length then q.recs[k]? else none) with
  | some r => r.pack
  | none => Config.staleSlot da

/-- A number from its parts of w bits each, lowest first. -/
def ofParts (n w : Nat) (f : Nat → Nat) : Nat := (List.range n).foldl (fun a i => a + (f i % 2 ^ w) * 2 ^ (w * i)) 0

/-- The data that a line of a pool the engines or the event hardware keep holds now; none for other lines. The layout of the
engines' own state is theirs. -/
def State.poolLine (s : State) (da : Nat) : Option (BitVec 512) :=
  let o := fun (n : Nat) => some (BitVec.ofNat 512 n)
  match s.poolOf (64 * (da / 64)) with
  | some (0, x) => o (ofParts 16 32 (fun i => s.ownerWord (x / 4 + i)))
  | some (1, x) => o (ofParts 64 8 (fun i => s.heatByte (x + i)))
  | some (3, x) => o (ofParts 64 8 (fun i => s.sumByte ((x + i) / 1280) ((x + i) % 1280)))
  | some (4, x) => o (ofParts 2 256 (fun i => (s.vi (x / 2048)).fq.at_ 64 (x % 2048 / 32 + i) (da / 32 + i)))
  | some (5, x) => o (ofParts 2 256 (fun i => s.mq.at_ 4096 (x / 32 + i) (da / 32 + i)))
  | some (6, x) => o (ofParts 8 64 (fun i => SMap.getD (s.pier (x / 65536)).samples (x % 65536 / 8 + i) 0))
  | some (7, _) => o (Config.engState (da / 64) (s.moves.map (fun m => [m.vi, m.page, m.e0, m.eng])))
  | _ =>
    (s.vis.find? (fun p => p.2.dirtyLog && 4096 * p.2.dlogBase ≤ da && da < 4096 * p.2.dlogBase + 32768 * p.2.winG)).map (fun p =>
      BitVec.ofNat 512 (ofParts 512 1 (fun i =>
        b2n ((SMap.getD s.dirty p.1 []).contains (8 * (64 * (da / 64) - 4096 * p.2.dlogBase) + i)))))

/-- The owner map entries or heat values of a line, as a write to it leaves them (R36, R113). -/
def State.poolTake (s : State) (da : Nat) (l : Line) : State :=
  if l.poison || (s.region da).isSome || s.daKind da != .metadata then s
  else
    match s.poolOf (64 * (da / 64)) with
    | some (0, x) => (List.range 16).foldl (fun (s : State) (i : Nat) =>
        let e := bits l.data.toNat (32 * i) 32
        match s.mapFrame (x / 4 + i) with
        | some f => if e = s.ownerWord (x / 4 + i) then s
                    else { s with owner := SMap.put s.owner f (if e.testBit 16 then e % 65536 else 65536) }
        | none => s) s
    | some (1, x) => (List.range 64).foldl (fun (s : State) (i : Nat) =>
        let h := bits l.data.toNat (8 * i) 8
        if h = s.heatByte (x + i) then s
        else
          let key := match s.mapFrame (x + i) with
            | some f => f
            | none => 2 ^ 40 + (x + i - (s.poolBytes.getD 0 0) / 4)
          { s with heat := if h = 0 then SMap.del s.heat key else SMap.put s.heat key h }) s
    | _ => s

/-! ### The stored line of a DA -/

/-- What a line that nothing has written reads as (R390 step 9; a line the boot does not write reads as 640 zero bits). The
lines of a region's counter storage hold zero counters and versions, tagged where the region has a tree (R173, R178). -/
def State.unlistedLine (s : State) (da copy : Nat) : Line :=
  match s.daKind da with
  | .metadata =>
    if !s.zeroFilled then ⟨0, 0⟩
    else
      match s.ctrId da with
      | some (k, lvl, _) => s.ctrLine k lvl (64 * (da / 64)) 0 0 (copy == 1)
      | none => mkLine 0 da ((s.poolLine da).getD (s.meta0 da)) (sideHi 0 0 0 0 3 false (copy == 1) 0)
  | .packed => if s.zeroFilled then mkLine 0 da 0 (sideHi 0 0 0 0 2 false false 0) else ⟨0, 0⟩
  | .frame =>
    match s.backOf (da / 4096) with
    | some (t, r) => s.zeroFrameLine t da r.tier (!r.frame (da / 4096))
    | none => ⟨0, 0⟩
  | .unmapped => ⟨0, 0⟩

/-- A listed line as DRAM holds it: a line of an engine-kept pool outside every key region holds what the pool holds now. -/
def State.listedLine (s : State) (da : Nat) (l : Line) : Line :=
  if s.daKind da != .metadata || (s.region da).isSome then l
  else
    match s.poolLine da with
    | some d => mkLine 0 da d l.hi
    | none => l

/-- The stored line at a DA, copy and plane. -/
def State.rawLine (s : State) (da copy : Nat) (spare : Bool) : Line :=
  match SMap.get? s.media (mediaKey da copy spare) with
  | some l => s.listedLine da l
  | none => s.unlistedLine da copy

/-- The plane on which a copy of a line is served now (R72). -/
def State.planeOf (s : State) (da copy : Nat) : Bool :=
  match s.lineMa da copy with
  | some m => m.spare
  | none => false

/-- The line a burst reads (before the modules' errors). -/
def State.dramLine (s : State) (da copy : Nat) : Line := s.rawLine da copy (s.planeOf da copy)

/-- A whole line written to DRAM (R28). -/
def State.dramWrite (s : State) (da copy : Nat) (l : Line) : State :=
  let s := s.poolTake da l
  { s with media := SMap.put s.media (mediaKey da copy (s.planeOf da copy)) l }

/-- Forget every stored line of DA frames lo to hi - 1: they read as unlisted again. -/
def State.dropFrames (s : State) (lo hi : Nat) : State :=
  { s with media := SMap.drop' s.media (fun k => lo ≤ k / 256 && k / 256 < hi) }

/-- The key region of a DA: 0 for none, slot + 1 otherwise (R148). -/
def State.regionId (s : State) (da : Nat) : Nat :=
  match s.region da with
  | some (k, _) => k + 1
  | none => 0

end Sys2Proof.Machine
end

