-- ==== Sys2Proof/Machine/Bus.lean ====
section
/-!
DEFINITION. The DRAM bus of a Pier: the rows that an access leaves open (R61), the bursts with their events (R339), and the slot
ledger (R342, R343).
-/
namespace Sys2Proof.Machine

/-! ### The slot ledger (R342, R343) -/

/-- The classes of R343 that are booked, by the code of their event (R339): retired, front-starved, back-starved, and the six
kinds of waste. -/
def slotRetired : Nat := 2
def slotFront : Nat := 4
def slotBack : Nat := 5
def wasteRefresh : Nat := 6
def wastePause : Nat := 7
def wasteTurn : Nat := 8
def wasteRefetch : Nat := 9
def wasteParity : Nat := 0xA
def wasteWithheld : Nat := 0xB

/-- Slots booked to one class: SLOT_TOTAL, the class, and SLOT_WASTED where it is a waste. A disabled channel books nothing. -/
def State.book (s : State) (n cls amt : Nat) : State :=
  if !s.flag (pgPier n) Reg.PIER_DCTL_CH_EN then s
  else
    let s := (s.telPier n 1 amt none).telPier n cls amt none
    if wasteRefresh ≤ cls then s.telPier n 3 amt none else s

/-- The kinds of burst that R343 tells apart. -/
inductive Burst where
  | read | refetch | write | parity
  deriving DecidableEq, Repr

/-- The class of a burst's slot (R343). -/
def Burst.cls : Burst → Nat
  | .read | .write => slotRetired
  | .refetch => wasteRefetch
  | .parity => wasteParity

def Burst.writes : Burst → Bool
  | .read | .refetch => false
  | .write | .parity => true

/-- The slot of a burst, and the slots of a turnaround where the burst follows one of the other direction or of another rank at
once; how many slots a turnaround takes is open. -/
def State.burstSlot (s : State) (m : Ma) (b : Burst) : State :=
  let n := m.hpier
  let dir := 1 + 2 * m.prank + b2n b.writes
  let l := (s.pier n).led
  let ahead := l.ahead.getD m.sub 0
  let turn := ahead != 0 && l.last.getD m.sub 0 != 0 && l.last.getD m.sub 0 != dir
  let t := if turn then Config.turnSlots s.free else 0
  let s := (if turn then s.tick else s).book n wasteTurn t
  let s := s.book n b.cls 1
  s.setPier n { (s.pier n) with led := { l with ahead := l.ahead.set m.sub (ahead + t + 1), last := l.last.set m.sub dir,
                                                rdAt := if b.writes then l.rdAt else l.rdAt.set m.sub (s.time + 1) } }

/-- The slots of one subchannel that time has passed over and no burst has taken, booked by the first row of R343 that fits: a
retraining pause, a frequency change, refresh time, a slot withheld by THROTTLE, then starved at the back or the front. -/
def State.passSub (s : State) (n sub slots : Nat) (waits : Bool) : State :=
  let p := s.pier n
  let l := p.led
  let ahead := l.ahead.getD sub 0
  let k := less slots ahead
  let l := { l with ahead := l.ahead.set sub (less ahead slots) }
  if p.pause.testBit sub then (s.setPier n { p with led := l }).book n wastePause k
  else if p.freq then (s.setPier n { p with led := l }).book n wasteWithheld k
  else
    let due := l.refs.getD sub 0
    let r := min k due
    let acc := l.thr.getD sub 0 + (k - r) * min 90 (s.fld (pgPier n) Reg.PIER_DCTL_THROTTLE)
    let w := min (k - r) (acc / 100)
    let l := { l with refs := l.refs.set sub (due - r), thr := l.thr.set sub (acc - 100 * w) }
    (((s.setPier n { p with led := l }).book n wasteRefresh r).book n wasteWithheld w).book n
      (if waits then slotBack else slotFront) (k - r - w)

/-- Time passes over the slots of a Pier: data rate / 16 slots of each subchannel in a microsecond. -/
def State.passSlots (s : State) (n ns : Nat) (waits : Nat → Bool) : State :=
  if !s.flag (pgPier n) Reg.PIER_DCTL_CH_EN || s.offline n then s
  else
    let l := (s.pier n).led
    let x := l.frac + ns * s.fld (pgPier n) Reg.PIER_SPEED_RATE
    let s := s.setPier n { (s.pier n) with led := { l with frac := x % 16000 } }
    (s.passSub n 0 (x / 16000) (waits 0)).passSub n 1 (x / 16000) (waits 1)

/-- The slots of a refresh on a subchannel, still to pass: its cycle in clocks, eight clocks to a slot. -/
def State.refreshSlots (s : State) (n sub : Nat) : State :=
  let set := s.fld (pgPier n) Reg.PIER_SPEED_ACTIVE_SET
  let c := s.fld (pgPier n) (if s.flag (pgPier n) Reg.PIER_REF_SAME_BANK then Reg.PIER_TSET_TRFCSB set else Reg.PIER_TSET_TRFC set)
  let l := (s.pier n).led
  s.setPier n { (s.pier n) with led := { l with refs := l.refs.set sub (l.refs.getD sub 0 + ceilDiv c 8) } }

/-! ### Rows and bursts (R61) -/

/-- A column access to a bank: a row hit or an activation, and what the page policy of its hint leaves open. -/
def State.access (s : State) (m : Ma) (hint : Nat) (f : Option Flt) : State :=
  let pol := if hint = 3 then s.fld (pgPier m.hpier) Reg.PIER_DCTL_PAGE_POL else hint
  let hit := match SMap.get? (s.pier m.hpier).rows m.bank with
    | some x => x.1 == m.row
    | none => false
  let s := s.telPier m.hpier (if hit then 0x13 else 0x12) 1 f
  let p := s.pier m.hpier
  let shut := pol = 0 || (pol = 2 && s.fld (pgPier m.hpier) Reg.PIER_DCTL_ADAPT_NS = 0)
  s.setPier m.hpier { p with rows := if shut then SMap.del p.rows m.bank else SMap.put p.rows m.bank (m.row, pol, s.time) }

/-- The block's own accesses as the filters of R340 see them: engine-internal work of the background class, on a page of the VI
that owns the frame. -/
def State.engFlt (s : State) (da : Nat) : Flt :=
  ⟨2, none, match s.daKind da with | .frame => s.ownerOf (da / 4096) | _ => none, 7, some da⟩

/-- The same for a job that runs for a manager command (a relay, a media scan, a key command) and for an access through the aperture. -/
def State.mgrFlt (s : State) (da : Nat) : Flt := { s.engFlt da with priv := 1 }

/-- One burst of a line on the Pier that holds it (R61, R73, R339, R342). -/
def State.bus (s : State) (m : Ma) (b : Burst) (hint : Nat) (f : Option Flt) : State :=
  ((s.access m hint f).telPier m.hpier (if b.writes then 0x11 else 0x10) 1 f).burstSlot m b

/-- A burst of a line's copy at a DA; a DA that nothing holds has none. -/
def State.busAt (s : State) (da copy : Nat) (b : Burst) (hint : Nat := 3) (f : Option Flt := none) : State :=
  match s.lineMa da copy with
  | some m => s.bus m b hint (some (f.getD (s.engFlt da)))
  | none => s

/-- A line written to DRAM by its burst (R28), under the Pier's page policy unless a hint is given. -/
def State.storeLine (s : State) (da copy : Nat) (l : Line) (hint : Nat := 3) (f : Option Flt := none) : State :=
  (s.dramWrite da copy l).busAt da copy .write hint f

end Sys2Proof.Machine
end

