-- ==== Sys2Proof/Machine/Keys.lean ====
section
/-!
DEFINITION. Encryption and counters (R161 to R182): the slot that applies to a line, the counter of a line in the counter
cache, its advance for a write burst with the overflow and exhaustion rules, tags, and the versions of the counter tree.
-/
namespace Sys2Proof.Machine

/-- A rotation runs (R185). -/
def State.rotating (s : State) : Bool := s.flag 3 Reg.HUB_KROT_CTL_BUSY
def State.rotSrc (s : State) : Nat := s.fld 3 Reg.HUB_KROT_CTL_SRC
def State.rotDst (s : State) : Nat := s.fld 3 Reg.HUB_KROT_CTL_DST
/-- The rotation boundary B as DA[47:6] (R185). -/
def State.rotBound (s : State) : Nat := s.fld 3 Reg.HUB_KROT_BOUND_LINE

/-- The slot a write at a DA uses, or none where the DA lies in no region (R161, R185). -/
def State.writeSlot (s : State) (da : Nat) : Option Nat :=
  (s.region da).map (fun x => if s.rotating && x.1 == s.rotSrc && da / 64 < s.rotBound then s.rotDst else x.1)

/-- The KEYSLOT a write at a DA stores: 0 in no region and in a region whose mode is off (R30, R172). -/
def State.writeKeyslot (s : State) (da : Nat) : Nat :=
  match s.writeSlot da with
  | none => 0
  | some k => if (s.slot k).mode = 0 then 0 else k

/-- The KEYSLOT values R172 permits at a DA. -/
def State.keyslotOk (s : State) (da ks : Nat) : Bool :=
  match s.region da with
  | none => ks == 0
  | some (k, _) =>
    ks == (if (s.slot k).mode = 0 then 0 else k) || (s.rotating && k == s.rotSrc && ks == s.rotDst)

/-- The slot whose key decrypts a stored line: the destination where KEYSLOT names it, the region's own otherwise (R185). -/
def State.readSlot (s : State) (da ks : Nat) : Option Nat :=
  match s.region da with
  | none => none
  | some (k, _) =>
    let k := if s.rotating && k == s.rotSrc && ks == s.rotDst then s.rotDst else k
    if (s.slot k).mode = 0 then none else some k

/-- The number of a frame's counter line in its region (R173). -/
def counterIndex (rank da : Nat) : Nat := 2 ^ 18 * rank + da / 4096 % 2 ^ 18

/-- MAJOR and MINOR_j of a counter line (R174). -/
def ctrMajor (b : BitVec 512) : Nat := bits b.toNat 0 56
def ctrMinor (b : BitVec 512) (j : Nat) : Nat := bits b.toNat (56 + 7 * j) 7
def ctrSet (b : BitVec 512) (major j minor : Nat) : BitVec 512 :=
  BitVec.ofNat 512 (setBits (setBits b.toNat 0 56 major) (56 + 7 * j) 7 minor)
/-- A counter line with a MAJOR and all minors 0. -/
def ctrFresh (major : Nat) : BitVec 512 := BitVec.ofNat 512 (major % 2 ^ 56)

/-- The entry in the counter cache for a line of data, where the region keeps counters. -/
def State.ctrEnt (s : State) (da : Nat) : Option (Nat × Option CEnt) :=
  match s.region da with
  | none => none
  | some (k, r) =>
    if (s.slot k).mode = 0 && !(s.rotating && k == s.rotSrc && (s.slot s.rotDst).mode != 0) then none
    else
      let key := s.ctrDa k 0 (counterIndex r da) / 64
      some (key, SMap.get? s.cc key)

/-- The line number of a DA in its frame. -/
def lineNo (da : Nat) : Nat := da / 64 % 64

/-- The counter pair of line j: the old pair while an overflow or a rotation has not done the line (R175, R186). -/
def CEnt.pair (e : CEnt) (j : Nat) : Nat × Nat :=
  match e.ovf with
  | some (old, mask) => if mask.testBit j then (ctrMajor e.body, ctrMinor e.body j) else (ctrMajor old, ctrMinor old j)
  | none => (ctrMajor e.body, ctrMinor e.body j)

/-- A lost entry covers a counter line (R181). -/
def State.lostCovers (s : State) (k i : Nat) : Bool :=
  let sl := s.slot k
  sl.allLost || sl.lostList.any (fun x => decide (x.2 = s.ctrDa k x.1 (i / 8 ^ x.1)))

/-- The line lies in a poisoned subtree (R181). -/
def State.subtreeLost (s : State) (da : Nat) : Bool :=
  match s.region da with
  | none => false
  | some (k, r) => s.lostCovers k (counterIndex r da)

/-- The counter of a line for a read: no encryption, the pair, or not cached (R168). -/
inductive Ctr where
  | plain
  | ok (slot major minor : Nat)
  | wait
  deriving DecidableEq, Repr

def State.readCtr (s : State) (da ks : Nat) : Ctr :=
  match s.readSlot da ks with
  | none => .plain
  | some k =>
    match s.ctrEnt da with
    | some (_, some e) => let p := e.pair (lineNo da); .ok k p.1 p.2
    | some (_, none) => .wait
    | none => .plain

/-- The plaintext of stored data under a counter (R166). -/
def State.decrypt (s : State) (da : Nat) (c : Ctr) (d : BitVec 512) : BitVec 512 :=
  match c with
  | .ok k ma mi => d ^^^ BitVec.ofNat 512 (keystream (s.slot k).dataKey.toNat k (da / 64) ma mi)
  | _ => d

/-- The tag check of R171 for a stored line under a counter: passes where the slot's mode is not CTR+TAG. -/
def State.tagOk (s : State) (da : Nat) (c : Ctr) (l : Line) : Bool :=
  match c with
  | .ok k ma mi =>
    (s.slot k).mode != 2 || l.tag == lineTag (s.slot k).tagKey.toNat k (da / 64) ma mi l.data.toNat
  | _ => true

/-- What a write burst's counter advance answers (R169, R175, R176, R181). -/
inductive Adv where
  | plain
  | ok (slot major minor : Nat)
  | wait
  | refused
  deriving DecidableEq, Repr

/-- The largest MAJOR ever written in the region noted; the first to reach 2^55 raises KEY_EXHAUST_WARN (R176, R180). -/
def State.noteMajor (s : State) (k major : Nat) : State :=
  let sl := s.slot k
  let s := s.setSlot k { sl with majorHigh := max sl.majorHigh major }
  if major ≥ 2 ^ 55 ∧ !sl.exhaust then
    (s.setSlot k { (s.slot k) with exhaust := true }).raise 16 0x400 WARN none 0 0
  else s

/-- The counter Pier of a counter line: the Pier of its primary copy (R168). -/
def State.ctrPier (s : State) (da : Nat) : Nat := match s.decode da with | some l => l.prim | none => 0

/-- An overflow finished: all 64 lines done, so the pin goes and the routine is counted (R175 step 6). A rotation's pin
is released by the rotation step itself. -/
def State.ovfDone (s : State) (key : Nat) : State :=
  match SMap.get? s.cc key with
  | some e =>
    match e.ovf with
    | some (_, mask) =>
      if mask = 2 ^ 64 - 1 then
        ({ s with cc := SMap.put s.cc key { e with ovf := none } }).bump (pgPier (s.ctrPier (64 * key)))
          Reg.PIER_CTR_OVF_CNT_COUNT Reg.PIER_CTR_OVF_CNT_SAT 1
      else s
    | none => s
  | none => s

/-- The counter advances for one write burst of the line at a DA. MINOR 127 starts the overflow routine: the old counters
stay pinned with a done mask and the burst takes (new MAJOR, 0); in a rotation's pin, whose new MAJOR is 0, a line not
yet done keeps the old counters (R186); a MAJOR that would pass its largest value refuses the
burst, and every later write to the frame until its region is rotated (R176). A line of a frame pinned by a rotation whose minor
would pass 127 waits until the pin ends: the spec is silent on it (DESIGN CHOICE, log entry 87). -/
def State.advance (s : State) (da : Nat) : State × Adv :=
  match s.writeSlot da, s.ctrEnt da with
  | some k, some (key, some e) =>
    let j := lineNo da
    let f := match s.region da with | some (_, r) => counterIndex r da | none => 0
    if s.subtreeLost da then (s, .refused)
    else if (s.slot k).mode = 0 then (s, .plain)
    else if (s.slot k).spent.contains f then (s, .refused)
    else
      match e.ovf with
      | some (old, mask) =>
        if mask.testBit j then
          let mi := ctrMinor e.body j + 1
          if mi > 127 then (s, .wait)
          else
            let e' := { e with body := ctrSet e.body (ctrMajor e.body) j mi, dirty := true, acked := false }
            ({ s with cc := SMap.put s.cc key e' }, .ok k (ctrMajor e.body) mi)
        else if ctrMajor e.body = 0 then
          let mi := ctrMinor old j + 1
          if mi > 127 then (s, .wait)
          else
            let e' := { e with ovf := some (ctrSet old (ctrMajor old) j mi, mask), dirty := true, acked := false }
            ({ s with cc := SMap.put s.cc key e' }, .ok k (ctrMajor old) mi)
        else
          let e' := { e with ovf := some (old, setBit mask j), dirty := true, acked := false }
          (({ s with cc := SMap.put s.cc key e' } : State).ovfDone key, .ok k (ctrMajor e.body) 0)
      | none =>
        let mi := ctrMinor e.body j + 1
        if mi ≤ 127 then
          let e' := { e with body := ctrSet e.body (ctrMajor e.body) j mi, dirty := true, acked := false }
          let s := { s with cc := SMap.put s.cc key e' }
          (s.noteMajor k (ctrMajor e.body), .ok k (ctrMajor e.body) mi)
        else if ctrMajor e.body ≥ 2 ^ 56 - 1 then
          (s.setSlot k { (s.slot k) with spent := f :: (s.slot k).spent }, .refused)
        else
          let ma := ctrMajor e.body + 1
          let e' := { e with body := ctrFresh ma, ovf := some (e.body, 2 ^ j), dirty := true, acked := false }
          let s := { s with cc := SMap.put s.cc key e' }
          (s.noteMajor k ma, .ok k ma 0)
  | some k, some (_, none) =>
    if s.subtreeLost da then (s, .refused) else if (s.slot k).mode = 0 then (s, .plain) else (s, .wait)
  | _, _ => (s, .plain)

/-- Side bits and stored data of a line under an advanced counter (R26, R166, R170). -/
def State.sealLine (s : State) (seed da : Nat) (a : Adv) (data : BitVec 512) (poison mirror : Bool)
    (tier sharers dstate owner : Nat) : Line :=
  match a with
  | .ok k ma mi =>
    let sl := s.slot k
    let c := data ^^^ BitVec.ofNat 512 (keystream sl.dataKey.toNat k (da / 64) ma mi)
    let tg := if sl.mode = 2 then lineTag sl.tagKey.toNat k (da / 64) ma mi c.toNat else 0
    mkLine seed da c (sideHi tg sharers dstate owner tier poison mirror k)
  | _ => mkLine seed da data (sideHi 0 sharers dstate owner tier poison mirror 0)

/-- The version a parent holds for an entry: in the parent node's cache entry, or in the on-die root (R178, R179). -/
def State.parentVersion (s : State) (k lvl idx : Nat) : Option Nat :=
  if lvl = s.treeLevels k then some ((s.slot k).root.getD idx 0)
  else (SMap.get? s.cc (s.ctrDa k (lvl + 1) (idx / 8) / 64)).map (fun e => bits e.body.toNat (56 * (idx % 8)) 56)

/-- The tree tag of a fetched counter line or node matches its parent's version (R179). -/
def State.treeOk (s : State) (k lvl da ver : Nat) (l : Line) : Bool :=
  s.treeLevels k = 0 ||
    (let tg := if lvl = 0 then l.tag else bits l.data.toNat 448 56
     tg == treeTag (s.slot k).treeKey (da / 64) ver (untagged lvl l.data))

/-- A counter line or node written to both copies. -/
def State.writeCtr (s : State) (k lvl idx ver : Nat) (body : BitVec 512) : State :=
  let da := s.ctrDa k lvl idx
  (s.storeLine da 0 (s.ctrLine k lvl da ver body false)).storeLine da 1 (s.ctrLine k lvl da ver body true)

end Sys2Proof.Machine
end

