-- ==== Sys2Proof/Machine/Lines.lean ====
section
/-!
DEFINITION. Reading and writing one line (R27 to R46, R171, R205, R206, R297): the checks and recovery sequence, the
counting of line events, the correctable-error ring, rank retirement, and the line writes of jobs the home orders.
-/
namespace Sys2Proof.Machine

/-- The seed tag of a line (R35): the owning VI of a frame, zero elsewhere. -/
def State.seedOf (s : State) (da : Nat) : Nat :=
  match s.daKind da with
  | .frame => (s.ownerOf (da / 4096)).getD 0
  | _ => 0

/-- The VI field of a record about a line: the owner of a frame (R327). -/
def State.viOfDa (s : State) (da : Nat) : Option Nat :=
  match s.daKind da with
  | .frame => s.ownerOf (da / 4096)
  | _ => none

/-- The VI field of a record about a line accessed under a seed tag (R327): the seed tag of a host line; none for a line of a
frame that nobody owns and no VI's access reached. -/
def State.lineVi (s : State) (da seed : Nat) : Option Nat :=
  match s.daKind da with
  | .frame => if seed = 0 then s.ownerOf (da / 4096) else some seed
  | _ => none

/-- Two partner frames hold a T0 page and its mirror (R110): placed as a pair, or as the pairs of a run that backs an assured part. -/
def State.paired (s : State) (f g : Nat) : Bool :=
  (SMap.get? s.pairs (min f g)).isSome || (match s.backOf f with | some (_, r) => r.mate.isSome | none => false)

/-- The mirror line of a T0 line that a VI accesses: the partner frame's. A page of the frame's owner has one where it took the
pair (R110); an access of another VI, by a stale mapping, has the one its own VI's pages have (R102, R103, R109). -/
def State.mirrorOf (s : State) (da t : Nat) : Option Nat :=
  match s.mirrorDa da with
  | some d =>
    if (if s.ownerOf (da / 4096) = some t then s.paired (da / 4096) (d / 4096) else (s.vi t).mirror) then some d else none
  | none => none

/-- A Pier's rank is out of service without a copy, for this line (R76). -/
def State.deadLine (s : State) (m : Ma) : Bool :=
  (s.pier m.pier).dead.testBit m.lrank && !m.spare

/-- The line cannot be read where it lives: its Pier is offline, or its rank is out of service (R76, R297). -/
def State.gone (s : State) (da copy : Nat) : Bool :=
  match s.lineMa da copy with
  | some m => s.offline m.pier || s.offline m.hpier || !s.flag (pgPier m.pier) Reg.PIER_DCTL_CH_EN || s.deadLine m
  | none => true

/-! ### Writes waiting at a Pier (R20, R62) -/

/-- The Pier that holds a line's primary. -/
def State.primPier (s : State) (da : Nat) : Nat := match s.decode da with | some l => l.prim | none => 0

/-- The Pier whose DRAM holds a line now, on whose channel its accesses wait (R62, R73). -/
def State.holdPier (s : State) (da : Nat) : Nat := match s.lineMa da 0 with | some m => m.hpier | none => 0

/-- The newest write to a line waiting in its Pier's write queue (R20); of a line that is gone, the one waiting for its mirror
(R297). -/
def State.queued (s : State) (da : Nat) : Option QWrite :=
  match ((s.pier (s.holdPier da)).wq.reverse).find? (fun q => q.da / 64 == da / 64) with
  | some q => some q
  | none =>
    if s.gone da 0 then
      (List.range 16).findSome? (fun n => ((s.pier n).wq.reverse).find? (fun q => q.prim / 64 == da / 64))
    else none

/-- A write put into the write queue of the Pier that holds its line. -/
def State.pushWrite (s : State) (q : QWrite) : State :=
  let n := s.holdPier q.da
  s.setPier n { (s.pier n) with wq := (s.pier n).wq ++ [q] }

/-! ### Lines in progress at the home -/

/-- The home's name of a T2 line: descriptor and line number, above every DA line (R199; the model's numbering). -/
def t2Line (d ln : Nat) : Nat := 2 ^ 42 + 64 * d + ln

/-- The line a request is ordered on. -/
def Req.line (r : Req) : Nat := if r.tier = 2 then t2Line r.da (r.via / 64 % 64) else r.da / 64

/-- A request is class 4 (RwD) in R202. -/
def ReqOp.rwd : ReqOp → Bool
  | .wr | .wrPtl => true
  | _ => false

/-- The request holds its line's tracker at the home. -/
def Phase.tracked : Phase → Bool
  | .snoop | .pierRead _ | .recompute | .pierWrite | .t2desc | .t2sub | .t2write => true
  | _ => false

/-! ### The directory entry of a line (R196, R197) -/

abbrev DirF := Nat × Nat × Nat

/-- A cached directory entry's fields (R197). -/
def State.dirGet (s : State) (line : Nat) : Option DirF :=
  (SMap.get? s.dir line).map (fun e => (e.sharers, e.dstate, e.owner))

/-- Directory fields without a port; the line's holder is gone where the port owned it. -/
def dirWithout (d : DirF) (k : Nat) : DirF :=
  let sh := clrBit d.1 k
  if d.2.1 = 2 ∧ d.2.2 = k then (0, 0, 0) else if sh = 0 then (0, 0, 0) else (sh, d.2.1, d.2.2)

/-! ### Descriptors and their Piers (R140, R151, R157) -/

/-- The descriptor Pier of a descriptor: the primary's Pier, or the copy's while the primary's is offline (R157). -/
def State.descPier (s : State) (x : Nat) : Nat :=
  match s.decode (s.descDa x) with
  | some l => if s.offline l.prim then l.copy.getD l.prim else l.prim
  | none => 0

/-- A descriptor that the array holds at a DA. -/
def State.descAt (s : State) (da : Nat) : Option Nat :=
  let b := s.descDa 0
  if b ≤ da ∧ da < s.descDa (s.fld 2 Reg.HUB_XLAT_DESC_CNT_COUNT) then some ((da - b) / 64) else none

/-- A metadata line written otherwise than through its descriptor Pier: the descriptor is read from DRAM again. -/
def State.descForget (s : State) (da : Nat) : State :=
  match s.descAt da with
  | some x =>
    let n := s.descPier x
    if (SMap.get? (s.pier n).dcache x).isSome then s.setPier n { (s.pier n) with dcache := SMap.del (s.pier n).dcache x } else s
  | none => s

/-- A write-buffer entry of a sub-block at its descriptor Pier (R151). -/
def State.wbufEnt (s : State) (d sb : Nat) : Option WBuf :=
  (s.pier (s.descPier d)).wbuf.find? (fun w => w.desc == d && w.sb == sb)

/-- The sub-block of a T2 request, by descriptor * 4 + sub-block. -/
def Req.subKey (r : Req) : Nat := 4 * r.da + r.via / 64 % 64 / 16

/-- Write-buffer entries of a Pier in use: those that hold lines, and those given to a write that the copy Pier has still to
accept (R151). -/
def State.wbufUsed (s : State) (n : Nat) : Nat :=
  (s.pier n).wbuf.length + ((s.reqs.filter (fun x => x.2.phase == .t2write && x.2.accP && s.descPier x.2.da == n &&
    (s.wbufEnt x.2.da (x.2.subKey % 4)).isNone)).map (fun x => x.2.subKey)).eraseDups.length

/-- A write can take an entry for a sub-block: it has one, or one of the 32 is free (R151). -/
def State.wbufRoom (s : State) (d sb : Nat) : Bool := (s.wbufEnt d sb).isSome || s.wbufUsed (s.descPier d) < 32

/-- Bytes enabled by a mask taken from new data, the others from old. -/
def mergeBytes (old new : BitVec 512) (mask : BitVec 64) : BitVec 512 :=
  BitVec.ofNat 512 ((List.range 64).foldl (fun a i =>
    a + (bits (if mask.toNat.testBit i then new.toNat else old.toNat) (8 * i) 8) * 2 ^ (8 * i)) 0)

/-- A written line merged into an entry's lines in home order. -/
def wbufMerge (ls : List (Nat × BitVec 512 × BitVec 64 × Bool)) (ln : Nat) (d : BitVec 512) (m : BitVec 64) (poison : Bool) :
    List (Nat × BitVec 512 × BitVec 64 × Bool) :=
  match ls.find? (fun x => x.1 == ln) with
  | some (_, d0, m0, p0) =>
    ls.filter (fun x => x.1 != ln) ++ [(ln, mergeBytes d0 d m, m0 ||| m, if m = BitVec.allOnes 64 then poison else p0)]
  | none => ls ++ [(ln, d, m, poison)]

/-- A line put into the entry of its sub-block, and its shadow at the copy Pier (R151). -/
def State.wbufPut (s : State) (x sb : Nat) (page : Option Nat) (ln : Nat) (d : BitVec 512) (m : BitVec 64) (poison : Bool) : State :=
  let n := s.descPier x
  let p := s.pier n
  let s := match s.wbufEnt x sb with
    | some w => s.setPier n { p with wbuf := p.wbuf.map (fun (y : WBuf) => if y.desc == x && y.sb == sb then
        { w with lines := wbufMerge w.lines ln d m poison, page := page.or w.page } else y) }
    | none => s.setPier n { p with wbuf := p.wbuf ++ [(⟨x, sb, page, [(ln, d, m, poison)], s.time⟩ : WBuf)] }
  { s with shadows := SMap.put s.shadows (4 * x + sb) (wbufMerge (SMap.getD s.shadows (4 * x + sb) []) ln d m poison) }

/-- A write of a T2 line that nobody waits for, put where the home's T2 writes wait for their acceptance (R151). -/
def State.t2Orphan (s : State) (line : Nat) : State :=
  let d := less line (2 ^ 42) / 64
  let r : Req := { op := .wr, org := .home, port := 0, ld := 0, mv := .i, hpa := 0, dpa := 0, vi := 0, via := 64 * (line % 64),
                   data := 0, mask := BitVec.allOnes 64, leaf := 8 + 4096 * d, lvl := 1, da := d, tier := 2, phase := .t2write,
                   at0 := s.time, heldAt := s.time, poison := true, accP := false, accM := false, last := none, dir := none,
                   orphan := false, arr := s.dirStamp }
  { s.setReq s.nextReq r with nextReq := (s.nextReq + 1) % 2 ^ 32, dirStamp := s.dirStamp + 1 }

/-- A line marked with POISON in place, its data kept and its directory fields cleared (R209, R210); a T2 line takes the
mark in a write-buffer entry of its descriptor Pier, and waits for one while all are in use (R151). -/
def State.poisonCopy (s : State) (da copy : Nat) : State :=
  let l := s.dramLine da copy
  if s.gone da copy then s
  else s.storeLine da copy (mkLine (s.seedOf da) da l.data
    (sideHi l.tag 0 0 0 l.tier true l.mirror l.keyslot))

def State.markPoison (s : State) (line : Nat) : State :=
  if line ≥ 2 ^ 42 then
    let d := less line (2 ^ 42) / 64
    if s.wbufRoom d (line % 64 / 16) then s.wbufPut d (line % 64 / 16) none (line % 16) 0 (BitVec.allOnes 64) true
    else s.t2Orphan line
  else
    let da := 64 * line
    let mark := fun (s : State) (d : Nat) =>
      let n := s.holdPier d
      (if (s.queued d).isSome then
        s.setPier n { (s.pier n) with wq := (s.pier n).wq.map (fun q => if q.da / 64 == d / 64 then { q with poison := true } else q) }
      else s : State).poisonCopy d 0
    let s := mark s da
    match s.mirrorOf da (s.seedOf da) with
    | some d => mark s d
    | none => s

/-- The ports marked lost (R210). -/
def State.lostMask (s : State) : Nat := s.fld 4 Reg.HUB_COH_STAT_LOST

/-- A sharer bit dropped or a line poisoned for a lost port, counted (R210, R214). -/
def State.countDropped (s : State) (k : Nat) : State :=
  s.put 4 (Reg.HUB_COH_LOST_CNT_DROPPED k) (satAdd 0xFFFFFFFF (s.fld 4 (Reg.HUB_COH_LOST_CNT_DROPPED k)) 1)
def State.countPoisoned (s : State) (k : Nat) : State :=
  s.put 4 (Reg.HUB_COH_LOST_CNT_POISONED k) (satAdd 0xFFFFFFFF (s.fld 4 (Reg.HUB_COH_LOST_CNT_POISONED k)) 1)

/-- Directory fields corrected for the ports marked lost, before the line is served (R210 items 1 and 2). -/
def State.fixDir (s : State) (line : Nat) (d : DirF) : State × DirF :=
  (pick 8 (fun k => s.lostMask.testBit k && d.1.testBit k)).foldl (fun (x : State × DirF) (k : Nat) =>
    let s := x.1.countDropped k
    let s := if x.2.2.1 = 2 ∧ x.2.2.2 = k then (s.markPoison line).countPoisoned k else s
    (s, dirWithout x.2 k)) (s, d)

/-! ### Where a line is mapped -/

/-- A table DA lies in a VI's table pool (R81). -/
def Vi.inPool (v : Vi) (tbl : Nat) : Bool :=
  4096 * v.tpoolBase ≤ tbl && tbl < 4096 * (v.tpoolBase + v.tpoolTables)

/-- An entry of a table line as DRAM holds it, with no check of it. -/
def State.rawEntry (s : State) (da : Nat) : Nat :=
  let x := 64 * (da / 64)
  let l := s.dramLine x (b2n (s.gone x 0))
  lineEntry (s.decrypt x (s.readCtr x l.keyslot) l.data) (da / 8 % 8)

/-- The first page that an entry of a VI's tables maps, and the level of its table, by the entry's place in the pool (R80,
R81). -/
def Vi.entryPage (v : Vi) (da : Nat) : Nat × Nat :=
  let tb := da / 4096 - v.tpoolBase
  let i := da % 4096 / 8
  let d := v.levels
  let at1 := poolStart d 1 v.winG
  let at2 := poolStart d 2 v.winG
  if at1 ≤ tb then (512 * (tb - at1) + i, 1)
  else if at2 ≤ tb then (512 * (512 * (tb - at2) + i), 2)
  else if poolStart d 3 v.winG ≤ tb then (512 * (512 * (512 * (tb - poolStart d 3 v.winG) + i)), 3)
  else (0, 4)

/-- An entry of a table at a level is a leaf (R80, R83). -/
def leafAt (lvl e : Nat) : Bool := leafV e && (lvl == 1 || (leafL e && decide (lvl ≤ 3)))

/-- The page whose leaf names a frame, or names a descriptor, where the entry e at a DA is such a leaf. -/
def Vi.entryNames (v : Vi) (da e : Nat) (desc : Bool) (x : Nat) : Option Nat :=
  let p := v.entryPage da
  if !leafAt p.2 e then none
  else if desc then (if p.2 = 1 ∧ leafTier e = 2 ∧ leafAddr e = x then some p.1 else none)
  else
    let b := leafAddr e / reach p.2 * reach p.2
    if leafTier e ≤ 1 ∧ b ≤ x ∧ x < b + reach p.2 then some (p.1 + (x - b)) else none

/-- The page of a VI that its tables map to a frame or to a descriptor, and its leaf: an entry written since the VI's creation names
it, or what backed its assured part at creation does. -/
def State.leafNaming (s : State) (v : Vi) (desc : Bool) (x : Nat) : Option (Nat × Nat) :=
  let das := (s.storedLines (4096 * v.tpoolBase) (4096 * (v.tpoolBase + v.tpoolTables))).flatMap (fun x =>
    (List.range 8).map (fun i => x + 8 * i))
  let at_ := fun (da : Nat) => (v.entryNames da (s.rawEntry da) desc x).map (fun p => (p, s.rawEntry da))
  match das.findSome? at_ with
  | some p => some p
  | none => (v.backPage desc x).bind (fun p => at_ (4096 * (v.tpoolBase + poolStart v.levels 1 v.winG) + 8 * p))

def State.pageNaming (s : State) (v : Vi) (desc : Bool) (x : Nat) : Option Nat := (s.leafNaming v desc x).map Prod.fst

/-- The LD and the DPA of a line: the window of the VI that maps it, at its page. -/
def State.lineDpa (s : State) (line : Nat) : Option (Nat × Nat) :=
  let desc := decide (line ≥ 2 ^ 42)
  let x := if desc then (line - 2 ^ 42) / 64 else line / 64
  s.vis.findSome? (fun v =>
    if !desc && s.ownerOf x != some v.1 then none
    else (s.pageNaming v.2 desc x).map (fun p => (v.2.ld, 2 ^ 30 * v.2.dpaBaseG + 4096 * p + 64 * (line % 64))))

/-- The line the home orders for a line of a frame: its own, or the primary's where it is the mirror of a T0 line (R109, R196). -/
def State.primDa (s : State) (da : Nat) : Nat :=
  match s.mirrorDa da with
  | none => da
  | some d =>
    match SMap.get? s.pairs (min (da / 4096) (d / 4096)) with
    | some f => if f = da / 4096 then da else d
    | none =>
      match s.backOf (da / 4096) with
      | some (_, r) => if r.isMate (da / 4096) then d else da
      | none => da

/-! ### Snoops -/

/-- BISnps outstanding on a port (R202). -/
def State.snoopsOn (s : State) (p : Nat) : List Snoop := s.snoops.filter (fun x => x.port == p && x.tag < 64)

/-- A BISnp leaves its port, where the link is up, and is counted. -/
def State.issueSnoop (s : State) (sn : Snoop) : State :=
  if sn.sent then
    (((s.emit (.biSnp sn.port sn.tag sn.inv sn.hpa)).bump 4 Reg.HUB_BI_CNT_COUNT Reg.HUB_BI_CNT_SAT 1).telPort sn.port 0x15 1
      (some ⟨0, some sn.port, none, 0, some (64 * sn.line)⟩))
  else s

/-- A BISnp for a line on a port (R201 to R203): not sent again while one for the line is outstanding there; held
back while 64 are outstanding; not sent to a link that is down, where it times out the same way (R259). -/
def State.sendSnoop (s : State) (p line ld hpa : Nat) (inv : Bool) (req : Option Nat) : State :=
  if s.snoops.any (fun x => x.port == p && x.line == line) then s
  else
    match (List.range 64).find? (fun t => !(s.snoopsOn p).any (fun x => x.tag == t)) with
    | none => { s with snoops := s.snoops ++ [⟨p, 64, line, ld, hpa, inv, req, s.time, false, false⟩] }
    | some t =>
      let sn : Snoop := ⟨p, t, line, ld, hpa, inv, req, s.time, s.linkUp p, false⟩
      ({ s with snoops := s.snoops ++ [sn] } : State).issueSnoop sn

/-- A BISnp to a port for a line (R201), addressed by the HPA that the port's committed decoders give for the line's DPA: at
the LD and DPA given, else where the tables map the line. Where none maps it the BISnp is withheld and the port taken to
have answered BIRspI, with the line poisoned if the port owned it and BI_PROTOCOL raised with the line's DA. -/
def State.snoopPort (s : State) (k line : Nat) (inv : Bool) (req : Option Nat) (place : Option (Nat × Nat)) : State :=
  match (place.or (s.lineDpa line)).bind (fun x => ((s.ldev k x.1).hpaOf x.2).map (fun h => (x.1, h))) with
  | some (ld, hpa) => s.sendSnoop k line ld hpa inv req
  | none =>
    let d := (s.dirGet line).getD (0, 0, 0)
    let s := if d.2.1 = 2 ∧ d.2.2 = k then s.markPoison line else s
    let nd := dirWithout d k
    let s := { s with dir := (match SMap.get? s.dir line with
      | some e =>
        if e.t2 && nd.2.1 == 0 then SMap.del s.dir line
        else SMap.put s.dir line { e with sharers := nd.1, dstate := nd.2.1, owner := nd.2.2, dirty := !e.t2 }
      | none => s.dir) }
    let da := if line < 2 ^ 42 then 64 * line else 0
    (s.put (pgPort k) Reg.PORT_BI_STAT_PROTOCOL 1).raise (67 + 8 * k) 0x500 ERROR none da da

/-- The set of the directory cache a line falls in (R197). -/
def dirSetOf (line : Nat) : Nat := Config.dirSet line % 65536

/-- Every port an entry names is back-invalidated for its eviction (R199). -/
def State.recallNamed (s : State) (line : Nat) (e : DirEnt) : State :=
  (pick 8 (fun k => e.sharers.testBit k)).foldl (fun (s : State) (k : Nat) => s.snoopPort k line true none none) s

/-- Lines of a line's set that hold a way: cached entries, and lines of shared VIs whose request in progress has none yet. -/
def State.waysHeld (s : State) (line : Nat) : Nat :=
  let f := fun l => dirSetOf l == dirSetOf line && l != line
  (s.dir.filter (fun x => f x.1)).length +
    ((s.reqs.filter (fun x => x.2.phase.tracked && (s.vi x.2.vi).shared && f x.2.line && (s.dirGet x.2.line).isNone)).map
      (fun x => x.2.line)).eraseDups.length

/-- The least recently used entry of a line's set whose line no request in progress holds (R197). -/
def State.dirVictim (s : State) (line : Nat) : Option (Nat × DirEnt) :=
  (s.dir.filter (fun x => dirSetOf x.1 == dirSetOf line && !s.reqs.any (fun r => r.2.phase.tracked && r.2.line == x.1))).foldl
    (fun (a : Option (Nat × DirEnt)) x => match a with
      | some y => if x.2.stamp < y.2.stamp then some x else some y
      | none => some x) none

/-- The state with a way of the 16 of its set free for a line (R197): a clean entry is dropped without a write (R198); none while
the least recently used entry has to be written back or recalled first (R198, R199). -/
def State.dirWay (s : State) (line : Nat) : Option State :=
  if (s.dirGet line).isSome || s.waysHeld line < 16 then some s
  else
    match s.dirVictim line with
    | some (l, e) => if e.t2 || e.dirty || s.snoops.any (fun x => x.line == l) then none else some { s with dir := SMap.del s.dir l }
    | none => none

/-- A T2 entry that has to leave for a line's is recalled (R199); a dirty one waits for its write-back. -/
def State.makeWay (s : State) (line : Nat) : State :=
  match s.dirVictim line with
  | some (l, e) => if e.t2 then s.recallNamed l e else s
  | none => s

/-- The ports a VI is bound on that are snooped for one of its lines: those that reach it through an HDM-DB decoder, or whose
decoders no longer map it while one of them is HDM-DB, and that are not lost (R195, R201, R210). -/
def State.snoopedPorts (s : State) (t line : Nat) : List Nat :=
  let v := s.vi t
  let place := s.lineDpa line
  pick 8 (fun k => v.ports.testBit k && !(s.prt k).lost &&
    (match place.bind (fun x => (s.ldev k x.1).hpaOf x.2) with
      | some h => s.dbAt k v.ld h
      | none => s.hdmDb k v.ld))

/-! ### Line events (R40, R44, R45, R46) -/

/-- The hourly buckets of a rank as its window count (R46). -/
def ueSum (bs : List Nat) (hours : Nat) : Nat := (bs.take (hours + 1)).sum

/-- The Pier whose rank a physical rank serves (R46): the borrower of a lent spare, else its own Pier. -/
def State.servedPier (s : State) (m : Nat) (r : Nat) : Nat :=
  ((List.range 16).find? (fun n => n != m && s.fld (pgPier n) Reg.PIER_SPARE_CTL_SPARE_PIER == m
    && s.fld (pgPier n) Reg.PIER_SPARE_CTL_SPARE_PHYS == r
    && [1, 2, 3, 4].contains (s.fld (pgPier n) Reg.PIER_SPARE_CTL_STATE))).getD m

/-- The logical rank that a physical rank of a Pier serves on the Pier it serves. -/
def State.logicalOf (s : State) (m r : Nat) : Nat :=
  let n := s.servedPier m r
  if s.fld (pgPier n) Reg.PIER_SPARE_CTL_SPARE_PHYS = r ∧ s.fld (pgPier n) Reg.PIER_SPARE_CTL_SPARE_PIER = m
      ∧ [1, 2, 3, 4].contains (s.fld (pgPier n) Reg.PIER_SPARE_CTL_STATE)
  then s.fld (pgPier n) Reg.PIER_SPARE_CTL_FAIL_RANK
  else (s.physRanks m).idxOf r

/-- A logical rank of a Pier is the one its sparing serves: copied, held, spared or stalled (R75). -/
def State.sparing (s : State) (n lr : Nat) : Bool :=
  [1, 2, 3, 4].contains (s.fld (pgPier n) Reg.PIER_SPARE_CTL_STATE) && s.fld (pgPier n) Reg.PIER_SPARE_CTL_FAIL_RANK == lr

/-- The spare in use reached its limit: the copy stalls, or a spared rank is exhausted (R46, R75). -/
def State.spareLimit (s : State) (n : Nat) : State :=
  let st := s.fld (pgPier n) Reg.PIER_SPARE_CTL_STATE
  if st = 1 ∨ st = 2 then (s.put (pgPier n) Reg.PIER_SPARE_CTL_STATE 4).raise (133 + 16 * n) 0x109 ERROR none 0 0
  else if st = 3 then s.raise (133 + 16 * n) 0x10A ERROR none 0 0
  else s

/-- A physical rank of a Pier is in use as a spare. -/
def State.spareUsed (s : State) (m r : Nat) : Bool :=
  (List.range 16).any (fun n => s.fld (pgPier n) Reg.PIER_SPARE_CTL_SPARE_PIER == m &&
    s.fld (pgPier n) Reg.PIER_SPARE_CTL_SPARE_PHYS == r && [1, 2, 3, 4].contains (s.fld (pgPier n) Reg.PIER_SPARE_CTL_STATE))

/-- A physical rank of a Pier was retired before. -/
def State.rankRetired (s : State) (m r : Nat) : Bool :=
  s.flag (pgPier m) (Reg.PIER_RANK_UE_RETIRED r) || (s.pier m).retired.testBit r

/-- A physical rank of a Pier is retired (R46, R67): a spare rank takes its RETIRED bit and acts on the Pier it serves, an idle one
is no spare any more; another rank waits for the engines to start sparing, except where a sparing already serves it (R72). R46 sets
the RETIRED bit of a lent spare; for a Pier's own spare it is the model's DESIGN CHOICE (log entry 84). -/
def State.retireRank (s : State) (m r : Nat) : State :=
  let n := s.servedPier m r
  let lr := s.logicalOf m r
  if s.flag (pgPier m) Reg.PIER_GEOM_SPARE_PRESENT && s.fld (pgPier m) Reg.PIER_GEOM_SPARE_RANK == r then
    let used := s.spareUsed m r
    let s := s.put (pgPier m) (Reg.PIER_RANK_UE_RETIRED r) 1
    if used then s.spareLimit n else s
  else
    let p := s.pier m
    s.setPier m { p with retired := setBit p.retired r,
                         pendRank := if s.sparing m lr || p.pendRank.contains lr then p.pendRank else p.pendRank ++ [lr] }

/-- A rank reaches the limit of its window and is retired (R46): the event names the physical rank, the logical rank it
served and its Pier. -/
def State.rankLimit (s : State) (m r : Nat) : State :=
  let n := s.servedPier m r
  let lim := s.fld (pgPier n) Reg.PIER_LIU_CTL_UE_LIMIT
  let win := s.fld (pgPier n) Reg.PIER_LIU_CTL_UE_WINDOW_H
  let c := ueSum (SMap.getD (s.pier m).ueB r []) (win - 1)
  if lim = 0 ∨ win = 0 ∨ c < lim ∨ s.rankRetired m r then s
  else (s.raise (130 + 16 * n) 0x103 ERROR none 0 (detail [r, s.logicalOf m r, m])).retireRank m r

/-- One uncorrectable event counted against a physical rank of a Pier (R40 step 3, R46). -/
def State.countUe (s : State) (m r : Nat) : State :=
  let p := s.pier m
  let b := SMap.getD p.ueB r []
  let b' := match b with | [] => [1] | x :: t => (x + 1) :: t
  (s.setPier m { p with ueB := SMap.put p.ueB r b' }).rankLimit m r

/-- A correctable (kind 0) or recovered (kind 1) event: counter, ring entry and record (R44, R45). -/
def State.logCe (s : State) (da copy seed kind : Nat) (req : ReqFrom) : State :=
  match s.lineMa da copy with
  | none => s
  | some m =>
    let pg := pgPier m.hpier
    let s := if kind = 0 then s.bump pg Reg.PIER_CE_CNT_COUNT Reg.PIER_CE_CNT_SAT 1
             else s.bump pg Reg.PIER_RC_CNT_COUNT Reg.PIER_RC_CNT_SAT 1
    let p := s.pier m.hpier
    let e := [da / 64, m.prank, m.line % 2, kind, seed, s.time]
    let used := (SMap.get? p.ce p.ceHead).isSome
    let frz := s.flag pg Reg.PIER_LIU_CTL_CE_FREEZE
    let ovf := s.put pg Reg.PIER_CE_HEAD_OVERFLOW (satAdd 0xFFFF (s.fld pg Reg.PIER_CE_HEAD_OVERFLOW) 1)
    let s := if used && frz then ovf
      else (if used then ovf else s).setPier m.hpier
        { p with ce := SMap.put p.ce p.ceHead e, ceHead := (p.ceHead + 1) % 16 }
    let s := s.telPier m.hpier (if kind = 0 then 0x15 else 0x16) 1 (some ⟨0, none, some seed, 0, some da⟩)
    s.raiseFor (130 + 16 * m.hpier) (if kind = 0 then 0x100 else 0x101) (if kind = 0 then INFO else WARN)
      (s.lineVi da seed) da (lineDetail seed m.hpier m.prank 0) req

/-- LINE_POISONED for a line, on the Pier whose DRAM holds it (R40 step 4). -/
def State.raisePoison (s : State) (da copy seed cause : Nat) (req : ReqFrom) : State :=
  match s.lineMa da copy with
  | none => s
  | some m =>
    s.raiseFor (130 + 16 * m.hpier) 0x102 ERROR (s.lineVi da seed) da (lineDetail seed m.hpier m.prank cause) req

/-- The directory entry's fields for a line, where one is cached (R40, R197); a mirror copy carries its primary's (R196). -/
def State.dirFields (s : State) (da : Nat) : Nat × Nat × Nat := (s.dirGet (s.primDa da / 64)).getD (0, 0, 0)

/-- A stripe is marked DEGRADED when one of its lines carries POISON (R149, R157). -/
def State.degrade (s : State) (da : Nat) : State :=
  match s.stripeBase (da / 256) with
  | some (_, b) => s.setStripe (b / 65536) { (s.stripe (b / 65536)) with degraded := true }
  | none => s

/-- Every bound HDM-DB port other than the reader is recalled where a shared VI's line is poisoned and has no cached entry
(R206). -/
def State.recallShared (s : State) (da : Nat) (reader : Option Nat) : State :=
  let line := s.primDa da / 64
  match s.viOfDa da with
  | some t =>
    if (s.vi t).shared && (SMap.get? s.dir line).isNone then
      ((s.snoopedPorts t line).filter (fun k => some k != reader)).foldl
        (fun (s : State) (k : Nat) => s.snoopPort k line true none none) s
    else s
  | none => s

/-- The line rewritten with POISON (R40 step 1, R41): the data as held, the directory fields of a cached entry. -/
def State.poisonLine (s : State) (da seed : Nat) (v : Line) : Line :=
  let d := s.dirFields da
  mkLine seed da v.data (sideHi v.tag d.1 d.2.1 d.2.2 v.tier true v.mirror (s.writeKeyslot da))

/-- The count of an uncorrectable line and of its rank (R40 step 3). -/
def State.countLost1 (s : State) (m : Ma) (count : Bool) : State :=
  let s := s.bump (pgPier m.hpier) Reg.PIER_UE_CNT_COUNT Reg.PIER_UE_CNT_SAT 1
  if count then s.countUe m.hpier m.prank else s

/-- A line ends uncorrectable (R40): rewritten with POISON and the side fields the rule gives, counted against its rank
where the rule says so, and reported. -/
def State.uncorrectable (s : State) (da copy seed : Nat) (v : Line) (cause : Nat) (count : Bool) (reader : Option Nat)
    (req : ReqFrom) : State :=
  match s.lineMa da copy with
  | none => s
  | some m =>
    let s := s.recallShared da reader
    let s := s.storeLine da copy (s.poisonLine da seed v)
    let s := match s.daKind da with
      | .packed => s.degrade da
      | _ => s
    (s.countLost1 m count).raisePoison da copy seed cause req

/-! ### The read sequence (R38, R39) -/

/-- Sources of a recomputation: a single copy, or the fifteen other lines of a stripe (R39). -/
inductive Srcs where
  | none
  | one (da copy : Nat)
  | many (das : List Nat)
  deriving DecidableEq, Repr

/-- The recomputation source of a line that an access of the seed's VI reads (R39, R103). A stripe that is not yet written has none, and neither has one closed without a
unit (R297). -/
def State.sources (s : State) (da copy seed : Nat) : Srcs :=
  match s.daKind da with
  | .metadata => match s.decode da with
    | some l => if l.copy.isSome then .one da (1 - copy) else .none
    | none => .none
  | .packed =>
    match s.stripeBase (da / 256) with
    | none => .none
    | some (_, b) =>
      let st := s.stripe (b / 65536)
      if st.st = 1 || st.noUnit then .none
      else .many (((List.range 16).map (fun m => b + 0x1000 * m + da % 0x1000)).filter (fun d => d / 64 != da / 64))
  | .frame => match s.mirrorOf da seed with
    | some d => .one d 0
    | none => .none
  | .unmapped => .none

/-- How a burst of a line checks (R31, R34, R172). -/
inductive Chk where
  | bad
  | illegal
  | ok
  deriving DecidableEq, Repr

def State.check (s : State) (seed da : Nat) (v : Line) : Chk :=
  if !v.crcOk seed da then .bad
  else if v.illegal || !s.keyslotOk da v.keyslot then .illegal
  else .ok

/-- A recomputation source read (R39): with its refetch, and no recomputation of its own; the seed is that of the line it is read
for, at its own location (R35). -/
def State.readSrc (s : State) (da copy seed : Nat) (f : BitVec 640 × BitVec 640) : State × Option Line :=
  if s.gone da copy then (s, none)
  else
    let l := s.dramLine da copy
    let v := l.flip f.1
    let s := s.busAt da copy .read
    match s.check seed da v with
    | .ok => (s, some v)
    | .illegal => (s.uncorrectable da copy seed v 1 false none none, none)
    | .bad =>
      let w := l.flip f.2
      let s := s.busAt da copy .refetch
      match s.check seed da w with
      | .ok => (s.logCe da copy seed 0 none, some w)
      | .illegal => ((s.logCe da copy seed 0 none).uncorrectable da copy seed w 1 false none none, none)
      | .bad => (s.uncorrectable da copy seed w 0 true none none, none)

/-- The sources read in turn; every one must pass (R39). -/
def State.readSrcs (s : State) (seed : Nat) : List (Nat × Nat) → List (BitVec 640 × BitVec 640) → State × Option (List Line)
  | [], _ => (s, some [])
  | (da, copy) :: t, fs =>
    let (s, r) := s.readSrc da copy seed (fs.headD (0, 0))
    let (s, rest) := State.readSrcs s seed t fs.tail
    match r, rest with
    | some l, some ls => (s, some (l :: ls))
    | _, _ => (s, none)

/-- The line rebuilt from its sources (R39): the copy's data and side bits with MIRROR set to the line's own value, or the
XOR of fifteen lines with POISON set if any of them carries it. -/
def rebuilt (own : Bool) (seed da : Nat) (single : Bool) (ls : List Line) : Line :=
  if single then
    match ls with
    | [] => ⟨0, 0⟩
    | l :: _ => mkLine seed da l.data (setBits l.hi 75 1 (b2n own))
  else
    let hi := ls.foldl (fun a l => a ^^^ l.hi) 0
    mkLine seed da (ls.foldl (fun a l => a ^^^ l.data) 0) (setBits hi 74 1 (b2n (ls.any (fun l => l.poison))))

/-- The recomputation of a line (R39), without any rewrite: the rebuilt line where every source passed. -/
def State.recompLine (s : State) (da copy seed : Nat) (fs : List (BitVec 640 × BitVec 640)) : State × Option Line :=
  match s.sources da copy seed with
  | .none => (s, none)
  | .one d c =>
    let (s, r) := s.readSrcs seed [(d, c)] fs
    (s, r.map (fun ls =>
      let own := if s.daKind da = .metadata then copy == 1 else !(match ls with | l :: _ => l.mirror | [] => true)
      rebuilt own seed da true ls))
  | .many ds =>
    let (s, r) := s.readSrcs seed (ds.map (fun d => (d, 0))) fs
    (s, r.map (rebuilt false seed da false))

/-- What a line read ends in: the line, poison with the line held, or a wait for the copies of a rebuilt line to be recalled. -/
inductive RdRes where
  | good (l : Line)
  | poison (l : Line)
  | wait
  deriving DecidableEq, Repr

def rdOf (l : Line) : RdRes := if l.poison then .poison l else .good l

/-- A line without directory fields, under its own seed. -/
def dirless (seed da : Nat) (l : Line) : Line :=
  mkLine seed da l.data (setBits (setBits (setBits l.hi 56 8 0) 64 2 0) 66 3 0)

/-- The ports that an invalidating write of a rebuilt line has to recall (R205): those its cached entry names, else those the
fields it took from its source name. -/
def State.rebuiltNames (s : State) (da : Nat) (x : Line) : List Nat :=
  match s.viOfDa da with
  | some t =>
    let d := (s.dirGet (s.primDa da / 64)).getD (x.sharers, x.dstate, x.owner)
    if (s.vi t).shared && d.2.1 != 0 then pick 8 (fun k => d.1.testBit k) else []
  | none => []

/-- A rebuilt line's directory fields, corrected for lost ports (R210), stand in the directory cache until the copies they name are
recalled (R42, R205); a line that a lost port held exclusive is rebuilt with POISON. -/
def State.cacheRebuilt (s : State) (da : Nat) (x : Line) : State × Line :=
  let line := s.primDa da / 64
  let shared := match s.viOfDa da with | some t => (s.vi t).shared | none => false
  if !shared || x.dstate = 0 || (s.dirGet line).isSome then (s, x)
  else
    let s := (s.dirWay line).getD s
    let (s, d) := s.fixDir line (x.sharers, x.dstate, x.owner)
    ({ s with dir := SMap.put s.dir line ⟨d.1, d.2.1, d.2.2, true, false, s.dirStamp⟩, dirStamp := s.dirStamp + 1 },
      if x.dstate = 2 ∧ d.2.1 = 0 then ⟨x.data, BitVec.ofNat 128 (2 ^ 40 * setBits x.hi 74 1 1)⟩ else x)

/-- The copies a rebuilt line's fields name are recalled (R205). -/
def State.recallRebuilt (s : State) (da : Nat) (x : Line) : State :=
  (s.rebuiltNames da x).foldl (fun (s : State) (k : Nat) => s.snoopPort k (s.primDa da / 64) true none none) s

/-- The whole read sequence of R38 for a line, with its recovery rewrite (R42): the copies that the rebuilt line's source names are
recalled first (R205). A line that cannot be read where it lives is served by recomputation without any count or rewrite (R76,
R297). -/
def State.readLine (s : State) (da copy seed : Nat) (b : Bursts) (req : ReqFrom) (hint : Nat := 3) (f : Option Flt := none) :
    State × RdRes :=
  let reader := readerOf req
  if s.gone da copy then
    match s.recompLine da copy seed b.srcs with
    | (s, some l) => (s, rdOf l)
    | (s, none) => ((s.recallShared da reader).raisePoison da copy seed 0 req, .poison ⟨0, 0⟩)
  else
    let l := s.dramLine da copy
    let v := l.flip b.first
    let s := s.busAt da copy .read hint f
    match s.check seed da v with
    | .ok => (s, rdOf v)
    | .illegal => (s.uncorrectable da copy seed v 1 false reader req, .poison v)
    | .bad =>
      let w := l.flip b.second
      let s := s.busAt da copy .refetch
      match s.check seed da w with
      | .ok => (s.logCe da copy seed 0 req, rdOf w)
      | .illegal => ((s.logCe da copy seed 0 req).uncorrectable da copy seed w 1 false reader req, .poison w)
      | .bad =>
        match s.recompLine da copy seed b.srcs with
        | (s, some x) =>
          let (s, x) := s.cacheRebuilt da x
          let r := s.recallRebuilt da x
          if !(r.rebuiltNames da x).isEmpty then (r, .wait)
          else ((r.logCe da copy seed 1 req).storeLine da copy (dirless seed da x), rdOf x)
        | (s, none) => (s.uncorrectable da copy seed w 0 true reader req, .poison w)

/-! ### Writes leaving the queue (R169) -/

/-- The waiting writes of a line dropped from its Pier's queue: a later write replaces them (R169). -/
def State.unqueue (s : State) (da : Nat) : State :=
  let n := s.holdPier da
  let p := s.pier n
  if p.wq.any (fun q => q.da / 64 == da / 64) then
    s.setPier n { p with wq := p.wq.filter (fun q => q.da / 64 != da / 64) } else s

/-! ### Plaintext reads and writes of jobs (R118, R171, R205, R413) -/

/-- What a plaintext read answers: the data, poison with the bytes held, or a wait for the counter line (R168). -/
inductive PRes where
  | ok (d : BitVec 512)
  | poison (d : BitVec 512)
  | wait
  deriving DecidableEq, Repr

/-- A TAG mismatch counted and raised (R171). -/
def State.tagFail (s : State) (da seed : Nat) (req : ReqFrom) : State :=
  let n := s.primPier da
  let s := s.bump (pgPier n) Reg.PIER_TAG_FAIL_CNT_COUNT Reg.PIER_TAG_FAIL_CNT_SAT 1
  match s.lineMa da 0 with
  | some m => s.raiseFor (137 + 16 * n) 0x402 ERROR (s.lineVi da seed) da (lineDetail seed m.hpier m.prank 2) req
  | none => s

/-- The line of a TAG mismatch taken from its source where one passes both checks; uncorrectable without a rank count
otherwise (R171). A line rebuilt from its source already has no other one, and no place to be rewritten (R297). -/
def State.tagSource (s : State) (da seed : Nat) (c : Ctr) (l : Line) (fs : List (BitVec 640 × BitVec 640))
    (req : ReqFrom) : State × PRes :=
  if s.gone da 0 then ((s.recallShared da (readerOf req)).raisePoison da 0 seed 2 req, .poison l.data)
  else
  match s.recompLine da 0 seed fs with
  | (s, some x) =>
    if s.tagOk da c x && !x.poison then
      let (s, x) := s.cacheRebuilt da x
      let r := s.recallRebuilt da x
      if !(r.rebuiltNames da x).isEmpty then (r, .wait)
      else ((r.logCe da 0 seed 1 req).storeLine da 0 (dirless seed da x), .ok (s.decrypt da c x.data))
    else (s.uncorrectable da 0 seed l 2 false (readerOf req) req, .poison l.data)
  | (s, none) => (s.uncorrectable da 0 seed l 2 false (readerOf req) req, .poison l.data)

/-- The plaintext of a checked line, or poison, or a wait for its counter. -/
def State.openLine (s : State) (da seed : Nat) (r : RdRes) (fs : List (BitVec 640 × BitVec 640))
    (req : ReqFrom) : State × PRes :=
  match r with
  | .wait => (s, .wait)
  | .poison l =>
    (s, .poison (s.decrypt da (s.readCtr da l.keyslot) l.data))
  | .good l =>
    if s.subtreeLost da then (s, .poison l.data)
    else
      match s.readCtr da l.keyslot with
      | .wait => (s, .wait)
      | c => if s.tagOk da c l then (s, .ok (s.decrypt da c l.data)) else (s.tagFail da seed req).tagSource da seed c l fs req

/-- The plaintext of a line as a job or an aperture access reads it: from the write queue where a write waits (R20), else by
R38 and the tag check. -/
def State.readPlain (s : State) (da seed : Nat) (b : Bursts) (req : ReqFrom) (f : Option Flt := none) : State × PRes :=
  match s.queued da with
  | some q => (s.telPier (s.holdPier da) 0x14 1 (some (f.getD (s.engFlt da))), if q.poison then .poison q.data else .ok q.data)
  | none =>
    let (s1, r) := s.readLine da 0 seed b req 3 f
    match s1.openLine da seed r b.srcs req with
    | (_, .wait) => (s, .wait)
    | x => x

/-- WRITE_REFUSED for a line write that no request waits for (R177). -/
def State.raiseRefused (s : State) (da : Nat) : State := s.raise (137 + 16 * s.primPier da) 0x401 ERROR (s.viOfDa da) da 0

/-- What a line write of a job answers. -/
inductive WRes where
  | ok
  | wait
  | refused
  deriving DecidableEq, Repr

/-- A line is written to DRAM by a job that the home ordered: sealed under the counter its burst takes, with its copy or the
writing VI's mirror (R33, R102, R205). The directory fields are those given. A rank out of service discards it and leaves the line
poisoned (R76). -/
def State.writePlain (s : State) (da seed tier : Nat) (data : BitVec 512) (poison : Bool) (dir : Nat × Nat × Nat)
    (hint : Nat := 3) (f : Option Flt := none) : State × WRes :=
  match s.advance da with
  | (_, .wait) => (s, .wait)
  | (s', .refused) => (s', .refused)
  | (s', a) =>
    let s' := s'.unqueue da
    let l := s'.sealLine seed da a data poison false tier dir.1 dir.2.1 dir.2.2
    let dead := match s'.lineMa da 0 with
      | some m => s'.deadLine m
      | none => false
    let s' := if s'.gone da 0 then (if dead then s'.raisePoison da 0 seed 0 none else s') else s'.storeLine da 0 l hint f
    match s'.daKind da with
    | .metadata =>
      let s' := s'.descForget da
      if (match s'.decode da with | some x => x.copy.isSome | none => false) && !s'.gone da 1 then
        (s'.storeLine da 1 (mkLine seed da l.data (setBits l.hi 75 1 1)) hint f, .ok)
      else (s', .ok)
    | .frame =>
      match s'.mirrorOf da seed with
      | some d =>
        let s' := s'.unqueue d
        if s'.gone d 0 then (s', .ok)
        else (s'.storeLine d 0 (mkLine seed d l.data (setBits l.hi 75 1 1)) hint f, .ok)
      | none => (s', .ok)
    | _ => (s', .ok)

/-- A metadata line's data, for the block's own tables (no recovery events where both bursts are clean). -/
def State.metaRead (s : State) (da : Nat) (b : Bursts) : State × PRes := s.readPlain (64 * (da / 64)) 0 b none

/-- A metadata line written to both copies; refused where its counter cannot advance (R177). -/
def State.metaWrite (s : State) (da : Nat) (d : BitVec 512) : State × WRes := s.writePlain (64 * (da / 64)) 0 3 d false (0, 0, 0)

/-- A metadata line can be read and written now: its counter line is cached, where it has one (R167, R168). -/
def State.metaReady (s : State) (da : Nat) : Bool := (s.advance (64 * (da / 64))).2 != .wait

/-- A 64-bit entry of a table line as the home would read it now, with no burst error. -/
def State.peek (s : State) (da : Nat) : Option Nat :=
  match (s.metaRead da {}).2 with
  | .ok d => some (lineEntry d (da / 8 % 8))
  | _ => none

/-- A compare-and-write of an entry (R91): fails on a mismatch, on a poisoned or uncorrectable line, and where the write is refused
(R177). Its issuer has seen that the line is ready. -/
def State.casEntry (s : State) (da old new : Nat) (b : Bursts) : State × Bool :=
  match s.metaRead da b with
  | (s, .ok d) =>
    if lineEntry d (da / 8 % 8) = old then
      match s.metaWrite da (setEntry d (da / 8 % 8) new) with
      | (s, .ok) => (s, true)
      | (s, _) => (s, false)
    else (s, false)
  | (s, _) => (s, false)

end Sys2Proof.Machine
end

