-- ==== Sys2Proof/Machine/Home.lean ====
section
/-!
DEFINITION. The home (R193 to R215): the order of requests to one line, the directory and its cache, snoops and their
answers, host loss, and the stages of a request from the home to its response.
-/
namespace Sys2Proof.Machine

/-- The request still occupies its port's class 4 or class 5 buffer (R202, R225). -/
def Phase.buffered : Phase → Bool
  | .lookup | .gate | .miss | .chained => true
  | _ => false

/-- The write occupies a hold slot of its port (R97). -/
def Phase.held : Phase → Bool
  | .heldM | .heldW | .heldAlloc => true
  | _ => false

/-- Line trackers in use (R203, R214): one for each line that a request in progress holds. -/
def State.trackers (s : State) : Nat := ((s.reqs.filter (fun x => x.2.phase.tracked)).map (fun x => x.2.line)).eraseDups.length

/-- Requests of a port that a test picks. -/
def State.portReqs (s : State) (p : Nat) (f : Req → Bool) : Nat :=
  (s.reqs.filter (fun x => x.2.org == .host && x.2.port == p && f x.2)).length

/-- Buffer fill of class 5 and class 4 and the hold slots in use at a port. -/
def State.fill5 (s : State) (p : Nat) : Nat := s.portReqs p (fun r => !r.op.rwd && r.phase.buffered)
def State.fill4 (s : State) (p : Nat) : Nat := s.portReqs p (fun r => r.op.rwd && r.phase.buffered)
def State.heldWrites (s : State) (p : Nat) : Nat := s.portReqs p (fun r => r.phase.held)
/-- A walk of the page that a request misses is in progress at its port (R90). -/
def State.walked (s : State) (r : Req) : Bool :=
  s.walks.any (fun y => y.2.port == r.port && y.2.vi == r.vi && y.2.via / 4096 == r.via / 4096)
/-- Misses in the queue: those whose page no walker has taken (R90). -/
def State.missQueue (s : State) (p : Nat) : Nat := s.portReqs p (fun r => r.phase == .miss && !s.walked r)

/-- Request or write credits are withheld (R90, R97, R203). -/
def State.withheld (s : State) (p : Nat) : Bool :=
  128 ≤ s.missQueue p || 256 ≤ s.heldWrites p || 448 ≤ s.fill5 p || 256 ≤ s.fill4 p

/-- DevLoad of a response (R252): 0 Light, 1 Optimal, 2 Moderate, 3 Severe. -/
def State.devLoad (s : State) (p : Nat) : Nat :=
  if s.withheld p then 3
  else
    let f := max (s.fill5 p) (2 * s.fill4 p)
    if 4 * f < 512 then 0 else if 4 * f ≤ 3 * 512 then 1 else 2

/-! ### Poison lists (R248) -/

def LogDev.addPoison (l : LogDev) (dpa : Nat) : LogDev :=
  if l.poison.contains dpa then l
  else if l.poison.length < 256 then { l with poison := l.poison ++ [dpa] } else { l with poisonOvf := true }

def LogDev.delPoison (l : LogDev) (dpa : Nat) : LogDev := { l with poison := l.poison.filter (fun x => x != dpa) }

/-- A line of an LD found poisoned through it. -/
def State.listPoison (s : State) (p ld dpa : Nat) : State := s.setLdev p ld ((s.ldev p ld).addPoison (64 * (dpa / 64)))

/-- A full-line write removes the line's entry. -/
def State.unlistPoison (s : State) (p ld dpa : Nat) : State := s.setLdev p ld ((s.ldev p ld).delPoison (64 * (dpa / 64)))

/-! ### Responses -/

def State.dropReq (s : State) (id : Nat) : State := { s with reqs := SMap.del s.reqs id }

/-- A response to a host: sent with the link up, held in the grace period, discarded after it (R259), dropped where a timeout
answered already (R255). A mailbox command is answered with its return code Success; a job's request ends without one. -/
def State.respond (s : State) (id : Nat) (r : Req) (o : Out) : State :=
  match r.org with
  | .job _ _ | .home => s.dropReq id
  | .cmd => (s.dropReq id).emit (.reply (.hostLd (Fin.ofNat 8 r.port) (Fin.ofNat 16 r.ld)) 0 [])
  | .host =>
    if r.orphan then s.dropReq id
    else if s.linkUp r.port then (s.dropReq id).emit o
    else if s.flag (pgPort r.port) Reg.PORT_LINK_STAT_IN_GRACE then s.setReq id { r with phase := .answered }
    else (s.dropReq id).put (pgPort r.port) Reg.PORT_DOWN_STAT_DISCARDED
      (satAdd 0xFFFF (s.fld (pgPort r.port) Reg.PORT_DOWN_STAT_DISCARDED) 1)

/-- A read is answered with data, or with poison (R247). -/
def State.answer (s : State) (id : Nat) (r : Req) (d : BitVec 512) (poison : Bool) (mv : MetaValue) : State :=
  let p := r.port
  let f := some (s.reqFlt r)
  let sent := r.org == .host && !r.orphan && s.linkUp p
  let s := if sent then
      let s := ((s.telPort p 0x02 64 f).telPort p 0x14 (s.time - r.at0) f).setPrt p
        { (s.prt p) with traf := (s.prt p).traf + 64 }
      if poison then s.telPort p 0x16 1 f else s
    else s
  s.respond id r (.drs p d poison mv (s.devLoad p))

/-- The snooped port has a write or an eviction of the line in the Kenez (R208). -/
def State.inFlight (s : State) (sn : Snoop) : Bool :=
  s.reqs.any (fun x => x.2.org == .host && x.2.port == sn.port && x.2.ld == sn.ld && x.2.hpa / 64 == sn.hpa / 64 &&
    x.2.phase != .answered && !x.2.orphan && (match x.2.op with | .rd | .rdData => false | _ => true))

/-- The BIConflictAcks that waited for a port's completions of their lines are sent (R208). -/
def State.ackConflicts (s : State) (p : Nat) : State :=
  let due := fun (x : Snoop) => x.port == p && x.conflict && !s.inFlight x
  let s' := { s with snoops := s.snoops.map (fun x => if due x then { x with conflict := false } else x) }
  (s.snoops.filter due).foldl (fun (s : State) (x : Snoop) => s.emit (.biConflictAck p x.tag)) s'

/-- A write, a MemClnEvct or a MemInv is completed with NDR Cmp (R26, R247); a BIConflictAck that waited for it follows. -/
def State.complete (s : State) (id : Nat) (r : Req) : State :=
  (s.respond id r (.ndr r.port (s.devLoad r.port))).ackConflicts r.port

/-- A request ends without its effect: a read with poison, a write discarded and completed. -/
def State.refuseReq (s : State) (id : Nat) (r : Req) : State :=
  match r.op with
  | .rd | .rdData => s.answer id r 0 true .i
  | _ => s.complete id r

/-! ### The directory (R196 to R200) -/

/-- The directory state of a line set by the home (R198): an entry is allocated or updated, a T2 entry in state 0b00 and a
clean entry in state 0b00 are dropped. Where the line had none, its way was made free before (R197). -/
def State.dirSet (s : State) (line : Nat) (d : DirF) (dirty : Bool) : State :=
  let t2 := decide (line ≥ 2 ^ 42)
  if d.2.1 = 0 ∧ (t2 ∨ !dirty) then { s with dir := SMap.del s.dir line }
  else { s with dir := SMap.put s.dir line ⟨d.1, d.2.1, d.2.2, dirty && !t2, t2, s.dirStamp⟩, dirStamp := s.dirStamp + 1 }

/-- The home changes a line's directory state: an entry already held stays dirty. -/
def State.dirChange (s : State) (line : Nat) (d : DirF) : State :=
  if s.dirGet line = some d then s
  else if (s.dirGet line).isNone ∧ d.2.1 = 0 then s
  else s.dirSet line d true

/-! ### The stages of a request at the home -/

/-- The port takes caching rights on this request: a shared VI reached through HDM-DB by a port not marked lost (R193,
R195, R210). -/
def State.caching (s : State) (r : Req) : Bool :=
  r.org == .host && (s.vi r.vi).shared && s.dbAt r.port r.ld r.hpa && !s.lostMask.testBit r.port

/-- The MetaValue that a request may have: during a preparation, a read of a T2 line of a shared VI is granted no caching rights (R373
step 2, R396). -/
def State.askedMv (s : State) (r : Req) : MetaValue :=
  if r.op = .rd && r.tier = 2 && (s.vi r.vi).shared && (s.pwr.trans = 1 || s.pwr.warm) then .i else r.mv

/-- The snoops a request to a shared VI needs (R201, R205, R207): port and whether BISnpInv. -/
def wantSnoops (op : ReqOp) (mv : MetaValue) (k : Nat) (caching : Bool) (d : DirF) : List (Nat × Bool) :=
  let others := (pick 8 (fun i => d.1.testBit i && !(caching && i == k))).map (fun i => (i, true))
  let ownerData := if d.2.1 = 2 ∧ ¬ (caching ∧ d.2.2 = k) then [(d.2.2, false)] else []
  match op with
  | .rd => if caching && mv == .a then others else ownerData
  | .rdData => ownerData
  | .wr | .wrPtl => if caching && d.2.1 == 2 && d.2.2 == k then [] else others
  | .clnEvct | .inv => []

/-- The directory after a request (R201). -/
def dirAfter (op : ReqOp) (mv : MetaValue) (k : Nat) (caching : Bool) (d : DirF) : DirF :=
  match op with
  | .rd =>
    if !caching then d
    else match mv with
      | .a => (2 ^ k, 2, k)
      | .s => (setBit d.1 k, 1, 0)
      | .i => d
  | .rdData => d
  | .wr | .wrPtl =>
    if caching && d.2.1 == 2 && d.2.2 == k then
      match mv with
      | .i => (0, 0, 0)
      | .s => (2 ^ k, 1, 0)
      | .a => d
    else (0, 0, 0)
  | .clnEvct | .inv =>
    let sh := clrBit d.1 k
    if sh = 0 then (0, 0, 0) else if d.2.1 = 2 ∧ d.2.2 = k then (0, 0, 0) else (sh, d.2.1, d.2.2)

/-- The request's effect on the directory of a shared VI's line, applied with its completion. -/
def State.applyDir (s : State) (r : Req) : State :=
  if !(s.vi r.vi).shared then s
  else
    let d := (s.dirGet r.line).getD (0, 0, 0)
    s.dirChange r.line (dirAfter r.op (s.askedMv r) r.port (s.caching r) d)

/-- The MetaValue a read grants: as asked on a private VI, none to a non-caching reader (R194, R195, R210). -/
def State.granted (s : State) (r : Req) : MetaValue :=
  match r.op with
  | .rd => if (s.vi r.vi).shared && !s.caching r then .i else s.askedMv r
  | _ => .i

/-- A sample of a host access at the Pier that serves it (R111, R112); past half full the ring rings its tiering engine's
doorbell (R312). -/
def State.sample (s : State) (n : Nat) (r : Req) : State :=
  if r.org != .host || !s.flag (pgPier n) Reg.PIER_SAMP_CTL_EN then s
  else
    let p := s.pier n
    let n0 := s.fld (pgPier n) Reg.PIER_SAMP_CTL_N
    let every := if n0 = 0 then 1024 else max 64 (min 65536 n0)
    if p.sampCnt + 1 < every then s.setPier n { p with sampCnt := p.sampCnt + 1 }
    else
      let head := s.fld (pgPier n) Reg.PIER_SAMP_PTR_HEAD
      let tail := s.fld (pgPier n) Reg.PIER_SAMP_PTR_TAIL
      let rec_ := (if r.tier = 2 then r.da + 2 ^ 40 else r.da / 4096) + 2 ^ 41 * b2n r.op.rwd + 2 ^ 48 * r.vi
      if (head + 1) % 8192 = tail then
        let d := s.fld (pgPier n) Reg.PIER_SAMP_STAT_DROPS
        let s := (s.setPier n { p with sampCnt := 0 }).put (pgPier n) Reg.PIER_SAMP_STAT_DROPS (satAdd 0xFFFF d 1)
        if d = 0 then s.raise (134 + 16 * n) 0x208 INFO none 0 0 else s
      else
        let s := (s.setPier n { p with sampCnt := 0, samples := SMap.put p.samples head rec_ }).put (pgPier n)
          Reg.PIER_SAMP_PTR_HEAD ((head + 1) % 8192)
        let e := s.role (16 * (n / 4) + 4 + n % 4)
        if 4096 < (head + 8193 - tail) % 8192 then
          s.setEng e { (s.eng e) with doorbell := setBit (s.eng e).doorbell (8 + n) } else s

/-- The page's dirty bit, set after the home ordered a write to a VI that logs (R232). -/
def State.markDirty (s : State) (t page : Nat) : State :=
  if !(s.vi t).dirtyLog then s
  else
    let l := SMap.getD s.dirty t []
    if l.contains page then s else { s with dirty := SMap.put s.dirty t (page :: l) }

/-- A write that is refused with an error response (R177): a record on the given source, and NDR Cmp. -/
def State.refuseWrite (s : State) (id : Nat) (r : Req) (src da : Nat) : State :=
  (s.raiseFor src 0x401 ERROR (some r.vi) da 0 (some (r.port, r.ld, none))).complete id r

/-- A read's data, or the read half of a partial write, is there: the read is answered; the partial write becomes the
merged full line on its way to the write queue (R27). -/
def State.deliver (s : State) (id : Nat) (r : Req) (d : BitVec 512) (poison : Bool) : State :=
  match r.op with
  | .wrPtl =>
    s.setReq id { r with data := mergeBytes d r.data r.mask, mask := BitVec.allOnes 64, poison := poison || r.poison, phase := .pierWrite }
  | _ =>
    let s := if poison && r.org == .host then s.listPoison r.port r.ld r.dpa else s
    (s.applyDir r).answer id r d poison (s.granted r)

/-- The data stage of a request whose snoops are done: served from the write queue (R20), sent to the Pier, or completed. -/
def State.dataStage (s : State) (id : Nat) (r : Req) : State :=
  match r.op with
  | .clnEvct | .inv => (s.applyDir r).complete id r
  | .wr => s.setReq id { r with phase := if r.tier = 2 then .t2write else .pierWrite }
  | .wrPtl | .rd | .rdData =>
    if r.tier = 2 then s.setReq id { r with phase := if r.op == .wrPtl then .t2write else .t2desc }
    else
      match s.queued r.da with
      | some q => (s.telPier (s.primPier r.da) 0x14 1 (some (s.reqFlt r))).deliver id r q.data q.poison
      | none =>
        let s := if r.op.rwd then s else s.sample (s.primPier r.da) r
        s.setReq id { r with phase := if s.gone r.da 0 then .recompute else .pierRead 0, last := none }

/-- A write or an eviction of a line for which a BISnp is out on its port: it is applied at once and waits for no hold, so that
the recall it answers can end (R118, R203, R205, R208; DEDUCED). -/
def State.answersSnoop (s : State) (r : Req) : Bool :=
  r.org == .host && (match r.op with | .rd | .rdData => false | _ => true) &&
    s.snoops.any (fun x => x.port == r.port && x.ld == r.ld && x.tag < 64 && x.hpa / 64 == r.hpa / 64)

/-- Snoops for which a request waits: its own, and for a write that recalls the line's copies every one out on the line but its
own port's. A write or an eviction that answers a snoop waits for none (R208). -/
def State.snooping (s : State) (id : Nat) (r : Req) : Bool :=
  !s.answersSnoop r && s.snoops.any (fun x => x.req == some id || (r.op.rwd && x.line == r.line && x.port != r.port))

/-- The snoop stage: the directory is known, so the snoops are sent, and the request waits for their answers (R201). -/
def State.snoopStage (s : State) (id : Nat) (r : Req) : State :=
  let d := (s.dirGet r.line).getD (0, 0, 0)
  let ports := wantSnoops r.op (s.askedMv r) r.port (s.caching r) d
  let s := ports.foldl (fun (s : State) (x : Nat × Bool) =>
    s.snoopPort x.1 r.line x.2 (some id) (some ((s.vi r.vi).ld, 64 * (r.dpa / 64)))) s
  if s.snooping id r then s.setReq id { r with phase := .snoop, last := none }
  else s.dataStage id r

/-- A request is a sequencer job's. -/
def Origin.isJob : Origin → Bool
  | .job _ _ => true
  | _ => false

/-- The event targets and reader of a request. -/
def Req.lds (r : Req) : ReqFrom := match r.org with
  | .job _ _ | .home => none
  | .host => some (r.port, r.ld, some r.dpa)
  | _ => some (r.port, r.ld, none)

/-- The recall snoops that an uncorrectable line has just sent are waited for by this request (R206). -/
def State.claimSnoops (s : State) (line id : Nat) : State :=
  { s with snoops := s.snoops.map (fun x => if x.line == line && x.req.isNone then { x with req := some id } else x) }

/-- A read ends in poison: the answer waits for the recall of R206 where one runs. -/
def State.deliverPoison (s : State) (id : Nat) (r : Req) (d : BitVec 512) : State :=
  match r.op with
  | .wrPtl => s.deliver id r d true
  | .clnEvct | .inv => (s.applyDir r).complete id r
  | .wr => s.snoopStage id { r with dir := some (0, 0, 0) }
  | _ =>
    let s := s.claimSnoops r.line id
    if s.snooping id r then s.setReq id { r with phase := .snoop, poison := true, data := d }
    else s.deliver id r d true

/-- A read passed its check and needs no snoop: opened under its counter, or waiting for it (R168, R171). -/
def State.openRead (s : State) (id : Nat) (r : Req) (v : Line) : State :=
  if v.poison then s.deliverPoison id r (s.decrypt r.da (s.readCtr r.da v.keyslot) v.data)
  else if s.subtreeLost r.da then s.deliver id r v.data true
  else
    match s.readCtr r.da v.keyslot with
    | .wait => (s.telPier (s.ctrPier r.da) 0x1A 1 (some (s.reqFlt r))).setReq id { r with phase := .pierRead 2, last := some v }
    | c =>
      let s := if c = .plain then s else s.telPier (s.ctrPier r.da) 0x19 1 (some (s.reqFlt r))
      if s.tagOk r.da c v then s.deliver id r (s.decrypt r.da c v.data) false
      else (s.tagFail r.da r.vi r.lds).setReq id { r with phase := .recompute, last := some v }

/-- The directory of a line that has no cached entry, as its side bits or a queued write show it, corrected for lost ports (R210):
an entry is allocated where it is not 0b00, or where the correction is still to reach DRAM (R198). -/
def State.dirLoad (s : State) (line : Nat) (d0 : DirF) (dirty : Bool) : State :=
  let (s, d) := s.fixDir line d0
  if d.2.1 = 0 ∧ d = d0 then s else s.dirSet line d (dirty || d != d0)

/-- A request ordered at the home: a private VI needs no directory; a shared one takes it from the cache, as 0b00 for an
uncached T2 line, or from the side bits, which a line read brings (R194, R199, R201). -/
def State.orderReq (s : State) (id : Nat) (r : Req) : State :=
  let s := if r.op.rwd then s.markDirty r.vi (r.via / 4096) else s
  if !(s.vi r.vi).shared then s.dataStage id r
  else
    match SMap.get? s.dir r.line with
    | some e =>
      let s := s.telHub 0x01 1 (some (s.reqFlt r))
      let s := { s with dir := SMap.put s.dir r.line { e with stamp := s.dirStamp }, dirStamp := s.dirStamp + 1 }
      s.snoopStage id { r with dir := some (e.sharers, e.dstate, e.owner) }
    | none =>
      let s := (s.dirWay r.line).getD s
      let s := s.telHub 0x02 1 (some (s.reqFlt r))
      if r.tier = 2 then s.snoopStage id { r with dir := some (0, 0, 0) }
      else
        match s.queued r.da with
        | some q => (s.dirLoad r.line (q.sharers, q.dstate, q.owner) true).snoopStage id { r with dir := some (0, 0, 0) }
        | none => s.setReq id { r with phase := if s.gone r.da 0 then .recompute else .pierRead 0, last := none, dir := none }

/-- A request that joins the tracker of a line whose request waits for snoops: an RwD, which never waits for the request that
sent them, and the eviction that answers one (R203, R208). -/
def State.joins (s : State) (r : Req) : Bool := s.answersSnoop r || (r.op.rwd && s.snoops.any (fun x => x.line == r.line))

/-- No way of the directory cache can be made free for a line of a shared VI now (R197). -/
def State.wayless (s : State) (r : Req) : Bool := (s.vi r.vi).shared && (s.dirWay r.line).isNone

/-- A request must wait in its line's chain (R203): a request in progress holds the line, a recall of it is out, an earlier
request of its own class or above waits for the line, or no tracker or no way is free. An RwD passes class-5 requests of the
chain, since class 4 waits for no class 5 (R202), and joins a tracker that waits only for snoops (R208). -/
def State.mustWait (s : State) (r : Req) : Bool :=
  let joins := s.joins r
  s.reqs.any (fun x => x.2.line == r.line && x.2.arr != r.arr &&
    ((x.2.phase.tracked && !(joins && x.2.phase == .snoop)) ||
      (x.2.phase == .chained && x.2.arr < r.arr && !joins && (x.2.op.rwd || !r.op.rwd)))) ||
  (!joins && s.snoops.any (fun x => x.line == r.line)) ||
  (!joins && ((if r.op.rwd then 8192 ≤ s.trackers else 7168 ≤ s.trackers) || s.wayless r))

/-- A translated request enters the home (R19, R203), in its order of arrival: ordered now, or chained; a T2 entry that is in the
way of its line's is recalled (R199). -/
def State.enterHome (s : State) (id : Nat) (r : Req) : State :=
  let r := { r with arr := s.dirStamp }
  let s := { s with dirStamp := s.dirStamp + 1 }
  if s.mustWait r then (if s.wayless r then s.makeWay r.line else s).setReq id { r with phase := .chained } else s.orderReq id r

/-- The request of a list that arrived first at the home. -/
def firstArr : SMap Req → Option (Nat × Req)
  | [] => none
  | x :: t => match firstArr t with
    | some y => if y.2.arr < x.2.arr then some y else some x
    | none => some x

/-- Chained requests whose line is free are ordered, in their order of arrival; each pass orders at most one per unit of fuel. -/
def State.unchain : Nat → State → State
  | 0, s => s
  | n + 1, s =>
    match firstArr (s.reqs.filter (fun x => x.2.phase == .chained && !s.mustWait x.2)) with
    | some (id, r) => State.unchain n (s.orderReq id r)
    | none => s

/-- A request that waits for snoop answers may go on (R201, R208): none of its own is out, no write or eviction that joined it is
still on its way to the Pier, and no write that joined it, or joined it earlier, still waits. -/
def State.mayWake (s : State) (id : Nat) (r : Req) : Bool :=
  !s.snooping id r && !s.reqs.any (fun x => x.1 != id && x.2.line == r.line && x.2.phase.tracked &&
    (x.2.phase != .snoop || (x.2.op.rwd && (!r.op.rwd || x.2.arr < r.arr))))

/-- A request whose snoops are answered goes on to its data stage; a poisoned line is delivered, and a rebuilt line that no newer
write replaces is rewritten first (R42, R205). -/
def State.wakeReq (s : State) (id : Nat) : State :=
  match s.req? id with
  | some r =>
    if r.phase == .snoop && s.mayWake id r then
      if r.poison && !r.op.rwd then s.deliver id r r.data true
      else if r.op.rwd then s.snoopStage id r
      else
        match r.last with
        | some x =>
          let r := { r with last := none }
          if (s.queued r.da).isSome then s.dataStage id r
          else
            let s := s.storeLine r.da 0 x
            match r.op with
            | .rd | .rdData => s.openRead id r x
            | _ => s.dataStage id r
        | none => s.dataStage id r
    else s
  | none => s

/-- The home released a line: requests that waited for a joined write go on, and the chains proceed. -/
def State.release (s : State) : State :=
  let s := ((s.reqs.filter (fun x => x.2.phase == .snoop)).map Prod.fst).foldl (fun (s : State) (i : Nat) => s.wakeReq i) s
  State.unchain s.reqs.length s

/-- A flush goes on (R200): T2 entries are recalled, and once no entry is dirty or T2 the clean ones are dropped and the
flush ends. -/
def State.flushStep (s : State) : State :=
  if !s.flag 4 Reg.HUB_COH_CTL_FLUSH_BUSY then s
  else
    let s := (s.dir.filter (fun x => x.2.t2)).foldl (fun (s : State) (x : Nat × DirEnt) => s.recallNamed x.1 x.2) s
    if s.dir.any (fun x => x.2.t2 || x.2.dirty) then s
    else ({ s with dir := [] } : State).put 4 Reg.HUB_COH_CTL_FLUSH_BUSY 0

/-- The oldest BISnp held back on a port is sent under the tag that came free (R203). -/
def State.sendWaiting (s : State) (p tag : Nat) : State :=
  match s.snoops.find? (fun x => x.port == p && x.tag == 64) with
  | none => s
  | some w =>
    let sn := { w with tag := tag, at0 := s.time, sent := s.linkUp p }
    ({ s with snoops := s.snoops.filter (fun x => x != w) ++ [sn] } : State).issueSnoop sn

/-- A snoop ended: a BISnp that was held back takes its place, a running flush goes on, and so do the requests it held and the
chains behind them. -/
def State.endSnoop (s : State) (sn : Snoop) : State :=
  let s := { s with snoops := s.snoops.filter (fun x => !(x.port == sn.port && x.tag == sn.tag)) }
  ((s.sendWaiting sn.port sn.tag).flushStep).release

/-- The port's answer applied to the directory: it dropped its copy, or keeps a shared one (R201). -/
def State.snoopDir (s : State) (sn : Snoop) (keeps : Bool) : State :=
  match s.dirGet sn.line with
  | some d => s.dirSet sn.line (if keeps then (setBit d.1 sn.port, 1, 0) else dirWithout d sn.port) true
  | none => s

/-! ### Host loss (R209, R210) -/

/-- Every entry that names a lost port is corrected (R210 item 1). -/
def State.fixEntries (s : State) (k : Nat) : State :=
  (s.dir.filter (fun x => x.2.sharers.testBit k)).foldl (fun (s : State) (x : Nat × DirEnt) =>
    let s := s.countDropped k
    let s := if x.2.dstate = 2 ∧ x.2.owner = k then (s.markPoison x.1).countPoisoned k else s
    s.dirSet x.1 (dirWithout (x.2.sharers, x.2.dstate, x.2.owner) k) true) s

/-- The end of a port's sweep (R210): LOST clears, and the engines' list of VIs bound on the port starts anew. -/
def State.endSweep (s : State) (k : Nat) : State :=
  let d := s.fld 4 (Reg.HUB_COH_LOST_CNT_DROPPED k)
  let p := s.fld 4 (Reg.HUB_COH_LOST_CNT_POISONED k)
  let s := s.put 4 Reg.HUB_COH_STAT_LOST (clrBit s.lostMask k)
  let s := s.setPrt k { (s.prt k) with lost := false, sweep := false, sweepFrom := 0,
                                       bound := (s.vis.filter (fun x => x.2.ports.testBit k)).map Prod.fst }
  s.raise 21 0x503 (if p = 0 then WARN else ERROR) none 0
    (k + 2 ^ 8 * min 0xFFFFFF d + 2 ^ 32 * min 0xFFFFFF p)

/-- A BISnp that was still held back falls away with its port: the port holds no copy now (R210). -/
def State.dropWaiting (s : State) (k : Nat) : State :=
  let ws := s.snoops.filter (fun x => x.port == k && x.tag == 64)
  let s := { s with snoops := s.snoops.filter (fun x => !(x.port == k && x.tag == 64)) }
  (ws.filterMap (fun x => x.req)).foldl (fun (s : State) (id : Nat) => s.wakeReq id) s

/-- A port is marked lost: LOST set, its counts restarted, HOST_LOST raised, its entries corrected, its sweep due (R210);
with no shared VI bound on it since its last sweep the sweep is over at once. -/
def State.loseHost (s : State) (k cause : Nat) : State :=
  if s.lostMask.testBit k then s
  else
    let s := s.put 4 Reg.HUB_COH_STAT_LOST (setBit s.lostMask k)
    let s := (s.put 4 (Reg.HUB_COH_LOST_CNT_DROPPED k) 0).put 4 (Reg.HUB_COH_LOST_CNT_POISONED k) 0
    let s := s.raise 21 0x502 ERROR none 0 (detail [k, cause])
    let s := s.setPrt k { (s.prt k) with lost := true, sweep := true, sweepFrom := 0, urgLevel := 0 }
    let s := (s.fixEntries k).dropWaiting k
    if s.engOn && !(s.prt k).bound.any (fun t => (s.vi t).shared) then s.endSweep k else s

/-! ### Jobs and aperture accesses at the home (R19, R205) -/

/-- No request in progress holds a line but the one given, and none of its snoops is out. -/
def State.lineFree (s : State) (line : Nat) (but : Option Nat := none) : Bool :=
  !s.reqs.any (fun x => x.2.phase.tracked && x.2.line == line && some x.1 != but) && !s.snoops.any (fun x => x.line == line)

/-- The side bits that name a line's holders: the line's own, its mirror's where its Pier cannot serve it (R213), none where
neither can. -/
def State.dirLine (s : State) (da t : Nat) : Option DirF :=
  let read := fun (d : Nat) => let l := s.dramLine d 0; (l.sharers, l.dstate, l.owner)
  if !s.gone da 0 then some (read da)
  else
    match s.mirrorOf da t with
    | some d => if s.gone d 0 then none else some (read d)
    | none => none

/-- The directory of a line of a shared VI for a job: the cached entry, or that of a queued write or of the stored side bits
corrected for lost ports; where none can be read, every HDM-DB port the VI is bound on may hold the line (R206, R213). -/
def State.jobDir (s : State) (t line : Nat) : State × DirF :=
  if !(s.vi t).shared then (s, (0, 0, 0))
  else
    match s.dirGet line with
    | some d => (s, d)
    | none =>
      if line ≥ 2 ^ 42 then (s, (0, 0, 0))
      else
        let s := match s.queued (64 * line) with
          | some q => s.dirLoad line (q.sharers, q.dstate, q.owner) true
          | none => match s.dirLine (64 * line) t with
            | some d => s.dirLoad line d false
            | none =>
              let m := maskOf 8 (fun k => (s.snoopedPorts t line).contains k)
              if m = 0 then s else s.dirSet line (m, 1, 0) true
        (s, (s.dirGet line).getD (0, 0, 0))

/-- Host copies recalled for a job on a line (R205): the job may run when no snoop was needed; otherwise the snoops are sent
and the job is to be given again. Reads of a non-caching agent send BISnpData to an owner (R207). A line the job holds at the
home itself is excepted. -/
def State.recall (s : State) (t line : Nat) (inv : Bool) (dpa : Option Nat) (but : Option Nat := none) : State × Bool :=
  if !s.lineFree line but then (s, false)
  else
    match (if (s.vi t).shared then s.dirWay line else some s) with
    | none => (s.makeWay line, false)
    | some s =>
      let (s, d) := s.jobDir t line
      let ports := if inv then (pick 8 (fun k => d.1.testBit k)).map (fun k => (k, true))
        else if d.2.1 = 2 then [(d.2.2, false)] else []
      if ports.isEmpty then (s, true)
      else
        let s := ports.foldl (fun (s : State) (x : Nat × Bool) => s.snoopPort x.1 line x.2 none (dpa.map (fun x => ((s.vi t).ld, x)))) s
        (s, !s.snoops.any (fun x => x.line == line))

/-- The directory fields a rewritten line carries once its copies are recalled: none; a cached entry is cleared (R205). -/
def State.clearDir (s : State) (line : Nat) : State := ({ s with dir := SMap.del s.dir line } : State).flushStep

/-- Host copies of a line recalled for a job that rewrites it (R205): those of the line the home orders. -/
def State.jobRecall (s : State) (da : Nat) : State × Bool :=
  match s.viOfDa da with
  | some t => s.recall t (s.primDa da / 64) true none
  | none => (s, s.lineFree (da / 64))

/-- No copy of a rewritten line is out any more. -/
def State.jobClear (s : State) (da : Nat) : State := s.clearDir (s.primDa da / 64)

end Sys2Proof.Machine
end

