-- ==== Sys2Proof/Machine/Pace.lean ====
section
/-!
DEFINITION. The Pacer (R265 to R277): guarantees and their admission, deliverable bandwidth, shortfall scaling, token
buckets, and the URG levels.
-/
namespace Sys2Proof.Machine

/-- The Pacer's page. -/
def pgPacer : Nat := 6

/-- CEIL_PCT and EFF_PCT in effect: values above 95 act as 95 (R277). -/
def State.ceilPct (s : State) : Nat := min 95 (s.fld pgPacer Reg.PACER_CTL_CEIL_PCT)
def State.effPct (s : State) : Nat := min 95 (s.fld pgPacer Reg.PACER_CTL_EFF_PCT)

/-- The guarantees of the VIs that are not FREE, and of those bound on a port (R270). -/
def State.viGuar (s : State) (f : Vi → Bool) : Nat :=
  (s.vis.map (fun x => if x.2.st != .free && f x.2 then x.2.guarQ else 0)).sum
def State.portGuar (s : State) (k : Nat) : Nat := s.fld pgPacer (Reg.PACER_PORT_GUAR_Q k)
/-- The admitted sum (R270). -/
def State.admitted (s : State) : Nat := s.viGuar (fun _ => true) + ((List.range 8).map (fun k => s.portGuar k)).sum
/-- A port's charge (R270). -/
def State.portCharge (s : State) (k : Nat) : Nat := s.portGuar k + s.viGuar (fun v => v.ports.testBit k)

/-- One-direction bandwidth of a link in units of 0.25 GB/s, times 68 × 16 (R237): speed code 1 is 32 GT/s, 2 is 64 GT/s. -/
def linkBw (speed width : Nat) : Nat :=
  (if speed = 1 then 4 * (64 * 64) else 68 * (121 * 4)) * width

/-- The bandwidth a port's admission is judged by: as last trained, or x16 and 64 GT/s (R270). -/
def State.trainedBw (s : State) (k : Nat) : Nat :=
  let p := s.prt k
  if p.trWidth = 0 then linkBw 2 16 else linkBw p.trSpeed p.trWidth

/-- The bandwidth at the current width and speed, L0p included (R238, R272). -/
def State.currentBw (s : State) (k : Nat) : Nat :=
  let p := s.prt k
  if p.trWidth = 0 then linkBw 2 16 else linkBw p.trSpeed (min p.trWidth p.l0p)

/-- A charge fits a port limit of CEIL_PCT of a bandwidth (R270). -/
def State.fitsPort (s : State) (bw charge : Nat) : Bool := charge * (100 * (68 * 16)) ≤ s.ceilPct * bw

/-- D in units of 0.25 GB/s: the sum of what the Piers reported (R269). -/
def State.deliv (s : State) : Nat := ((List.range 16).map (fun n => s.fld pgPacer (Reg.PACER_PIER_DELIV_Q n))).sum

/-- A sum of guarantees fits the ceiling at the current D (R270). -/
def State.fitsDevice (s : State) (sum : Nat) : Bool := 100 * sum ≤ s.ceilPct * s.deliv

/-- The device scale of R272 as a fraction of 4,096. -/
def State.devScale (s : State) : Nat :=
  if 100 * s.admitted ≤ s.ceilPct * s.deliv then 4096 else 4096 * s.ceilPct * s.deliv / (100 * s.admitted)

/-- The port scale of R272. -/
def State.portScale (s : State) (k : Nat) : Nat :=
  if s.fitsPort (s.currentBw k) (s.portCharge k) then 4096
  else 4096 * s.ceilPct * s.currentBw k / (100 * (68 * 16) * s.portCharge k)

/-- The port scales below 4,096 (R273). -/
def State.lowScales (s : State) : List Nat :=
  ((List.range 8).map (fun k => s.portScale k)).filter (fun x => decide (x < 4096))

/-- The scales as the Pacer page shows them (R277). -/
def State.shownScales (s : State) : List Nat :=
  s.fld pgPacer Reg.PACER_STAT_SCALE :: (List.range 8).map (fun k => s.fld pgPacer (Reg.PACER_PORT_SCALE_K k))

/-- D, the ceiling, the sum and the scales recomputed, with the start and the end of a shortfall (R269, R272, R273). -/
def State.pacerUpdate (s : State) : State :=
  let full := s.lowScales.isEmpty && s.devScale == 4096
  let d := s.deliv
  let old := s.shownScales
  let det := detail (([s.devScale] ++ s.lowScales).flatMap (fun x => [x % 256, x / 256]))
  let s := (s.put pgPacer Reg.PACER_DELIV_D_Q d).put pgPacer Reg.PACER_DELIV_CEIL_Q (s.ceilPct * d / 100)
  let s := (s.put pgPacer Reg.PACER_GUAR_SUM_SUM_Q (min 0xFFFF s.admitted)).put pgPacer Reg.PACER_STAT_SCALE s.devScale
  let s := (List.range 8).foldl (fun (s : State) (k : Nat) =>
    s.put pgPacer (Reg.PACER_PORT_SCALE_K k) (min 4095 (s.portScale k))) s
  match s.shortAt with
  | none =>
    if full then s
    else
      let s := ({ s with shortAt := some s.time } : State).put pgPacer Reg.PACER_STAT_SHORTFALL 1
      (s.bump pgPacer Reg.PACER_SHORT_CNT_COUNT Reg.PACER_SHORT_CNT_SAT 1).raise 28 0x609 WARN none 0 det
  | some t =>
    if full then
      let s := ({ s with shortAt := none } : State).put pgPacer Reg.PACER_STAT_SHORTFALL 0
      s.raise 28 0x60A INFO none 0 (min 0xFFFFFFFFFFFF ((s.time - t) / 1000))
    else if s.shownScales == old then s
    else s.raise 28 0x609 WARN none 0 det

/-! ### Token buckets (R267) -/

/-- A bucket filled to now at a rate of rateQ × 0.25 GB/s scaled by f / 4,096, in bytes × 16,384: at most 2 µs of the rate and
never less than one line. -/
def Bucket.fill (b : Bucket) (now rateQ f : Nat) : Bucket :=
  let depth := max (64 * 16384) (2000 * (rateQ * f))
  ⟨min depth (b.level + rateQ * f * (now - b.at0)), now⟩

/-- Taking one line from a bucket. -/
def Bucket.take (b : Bucket) : Option Bucket :=
  if 64 * 16384 ≤ b.level then some ⟨less b.level (64 * 16384), b.at0⟩ else none

/-- The least port scale of the ports a VI is bound on. -/
def State.viScale (s : State) (t : Nat) : Nat :=
  s.devScale * ((pick 8 (fun k => (s.vi t).ports.testBit k)).foldl (fun a k => min a (s.portScale k)) 4096) / 4096

/-- A host request charged to its VI's bucket, then to its port's (R267); the answer says whether it is guaranteed. -/
def State.chargeBuckets (s : State) (p t : Nat) : State × Bool :=
  let v := s.vi t
  let b := (SMap.getD s.bucketVi t ⟨0, 0⟩).fill s.time v.guarQ (s.viScale t)
  match (if v.guarQ = 0 then none else b.take) with
  | some b' => ({ s with bucketVi := SMap.put s.bucketVi t b' }, true)
  | none =>
    let g := s.portGuar p
    let c := (SMap.getD s.bucketPort p ⟨0, 0⟩).fill s.time g (s.devScale * s.portScale p / 4096)
    match (if g = 0 then none else c.take) with
    | some c' => ({ s with bucketPort := SMap.put s.bucketPort p c' }, true)
    | none => (s, false)

/-- The rank at which a request is served (R274): 2 guaranteed, 3 URG level 3, 5 background, else 4. -/
def State.rankOf (s : State) (r : Req) (guar : Bool) : Nat :=
  let v := s.vi r.vi
  if guar then 2
  else if (s.prt r.port).urgLevel = 3 then 3
  else if v.cls = 7 || v.weight = 0 || s.fld pgPacer (Reg.PACER_CLASS_WEIGHT v.cls) = 0 then 5
  else 4

/-- The Pacer admits a host request, with its bytes counted at its rank (R267, R274, R339). -/
def State.pacerTake (s : State) (r : Req) : State :=
  match r.org with
  | .job _ _ | .home | .cmd => s
  | .host =>
    let (s, g) := s.chargeBuckets r.port r.vi
    let k := s.rankOf r g
    s.telHub (if k = 2 then 5 else if k = 5 then 7 else 6) 64 (some (s.reqFlt r))

/-! ### Deliverable bandwidth (R269) -/

/-- The part of a rotation's rate that falls on a Pier, in MB/s: the average over the region's granules, each shared evenly
by the members of its span (R188, R269). -/
def State.rotShare (s : State) (n : Nat) : Nat :=
  if !s.rotating || s.coast then 0
  else
    let gs := s.kmap.filter (fun x => x.2.testBit 4 && (x.2 % 16 == s.rotSrc || x.2 % 16 == s.rotDst))
    let part := (gs.map (fun x => match s.spanOf (2 ^ 30 * x.1) with
      | some i =>
        if (List.range (s.spanCount i)).any (fun m => s.spanMember i m == n) then 1000000 / s.spanCount i else 0
      | none => 0)).sum
    1000 * s.pol 0x400 * part / (1000000 * max 1 gs.length)

/-- What a sparing copy or rebuild of Pier k charges to Pier n, in MB/s (R74). -/
def State.spareShare (s : State) (k n : Nat) : Nat :=
  if s.coast || s.fld (pgPier k) Reg.PIER_SPARE_CTL_STATE != 1 then 0
  else
    let rate := 1000 * s.pol 0x304
    let m := s.fld (pgPier k) Reg.PIER_SPARE_CTL_SPARE_PIER
    if (s.pier k).rebuild then
      let src := n == k ^^^ 8 || (List.range 8).any (fun i => s.psSpan i && n != k &&
        (List.range (s.spanCount i)).any (fun x => s.spanMember i x == n) &&
        (List.range (s.spanCount i)).any (fun x => s.spanMember i x == k))
      (if n = m then rate else 0) + (if src then rate else 0)
    else if m = k then (if n = k then 2 * rate else 0)
    else if n = k ∨ n = m then rate else 0

/-- The reserve of a Pier in MB/s. -/
def State.reserve (s : State) (n : Nat) : Nat :=
  2 * s.rotShare n + ((List.range 16).map (fun k => s.spareShare k n)).sum

/-- Dp of a Pier in units of 0.25 GB/s, rounded down (R269). -/
def State.dp (s : State) (n : Nat) : Nat :=
  if s.offline n || !s.flag (pgPier n) Reg.PIER_DCTL_CH_EN || (s.pier n).freq then 0
  else
    let thr := min 90 (s.fld (pgPier n) Reg.PIER_DCTL_THROTTLE)
    (8 * s.fld (pgPier n) Reg.PIER_SPEED_RATE * s.effPct * (100 - thr) - 10000 * s.reserve n) / 2500000

/-- A Pier's report: Dp and its reserve, and the Pacer's recomputation. -/
def State.report (s : State) (n : Nat) : State :=
  let s := s.put pgPacer (Reg.PACER_PIER_RESERVE_Q n) (s.reserve n / 250)
  (s.put pgPacer (Reg.PACER_PIER_DELIV_Q n) (s.dp n)).pacerUpdate

/-! ### URG levels (R275, R276) -/

/-- The level in effect for the pins as they are (R275); after an overstay it is 2 whatever they show, and level 3 without time acts as
2 (R276). -/
def State.urgOf (s : State) (k : Nat) : Nat :=
  let pin := s.fld (pgPort k) Reg.PORT_PINS_URG
  if !s.linkUp k || !s.flag (pgPort k) Reg.PORT_PINS_PERST_N || (s.prt k).lost then 0
  else if (s.prt k).demote.isSome then 2
  else if pin = 3 ∧ s.fld pgPacer Reg.PACER_CTL_URG3_MAX_MS = 0 then 2
  else pin

/-- The level in effect taken anew, with the time served at level 3 counted (R339). -/
def State.urgUpdate (s : State) (k : Nat) : State :=
  let l := s.urgOf k
  let p := s.prt k
  let s := match p.urg3At with
    | some t => if l = 3 then s else s.telPort k 0x17 (s.time - t) none
    | none => s
  s.setPrt k { p with urgLevel := l, urg3At := if l = 3 then some (p.urg3At.getD s.time) else none }

/-! ### Meanings -/

/-- URG_LEVEL_CHANGE (R275). A level in effect of 1 or more also asks for widening (R240). -/
def execUrgLevelChange (p : Fin 8) (level : Fin 4) (s : State) : Host.Outcome State Fault Refusal :=
  let s := (s.put (pgPort p.val) Reg.PORT_PINS_URG level.val).urgUpdate p.val
  let q := s.prt p.val
  .next (if 1 ≤ q.urgLevel && q.l0p < q.trWidth && s.flag (pgPort p.val) Reg.PORT_LINK_CTL_L0P_EN then
    s.emit (.widthAsk p.val q.trWidth) else s)

/-- URG_OVERSTAY (R276): due when level 3 has lasted longer than URG3_MAX_MS. -/
def execUrgOverstay (p : Fin 8) (s : State) : Host.Outcome State Fault Refusal :=
  let q := s.prt p.val
  match q.urg3At with
  | some t =>
    if t + 1000000 * s.fld pgPacer Reg.PACER_CTL_URG3_MAX_MS < s.time then
      let s := (s.setPrt p.val { q with demote := some (s.time + 100000000) }).urgUpdate p.val
      .next ((s.put pgPacer (Reg.PACER_PORT_OVERSTAY p.val) 1).raise 29 0x60B WARN none 0 (detail [p.val]))
    else .next s
  | none => .next s

/-- URG_OVERSTAY_END (R276): the 100 ms are over. -/
def execUrgOverstayEnd (p : Fin 8) (s : State) : Host.Outcome State Fault Refusal :=
  let q := s.prt p.val
  match q.demote with
  | some t => .next (if t ≤ s.time then (s.setPrt p.val { q with demote := none }).urgUpdate p.val else s)
  | none => .next s

/-- DELIVERABLE_REPORT (R269). -/
def execDeliverableReport (n : Fin 16) (s : State) : Host.Outcome State Fault Refusal := .next (s.report n.val)

/-- PACER_HOTSPOT (R271). -/
def execPacerHotspot (n : Fin 16) (s : State) : Host.Outcome State Fault Refusal :=
  .next (if s.flag pgPacer (Reg.PACER_PIER_HOT n.val) then s
    else (s.put pgPacer (Reg.PACER_PIER_HOT n.val) 1).raise 28 0x608 WARN none 0 (detail [n.val]))

/-- HOT_CLEAR (R271). -/
def execHotClear (n : Fin 16) (s : State) : Host.Outcome State Fault Refusal :=
  .next (s.put pgPacer (Reg.PACER_PIER_HOT n.val) 0)

/-- A write of PACER_PORT_k (R270, R277): the guarantee is taken where both checks pass; the W1C bits clear. -/
def State.writePortGuar (s : State) (k v : Nat) : State :=
  let g := bits v 0 10
  let s := if v.testBit 18 then s.put pgPacer (Reg.PACER_PORT_OVERSTAY k) 0 else s
  let s := if v.testBit 19 then s.put pgPacer (Reg.PACER_PORT_REFUSED k) 0 else s
  let sum := s.admitted - s.portGuar k + g
  let chg := s.portCharge k - s.portGuar k + g
  if s.fitsDevice sum && s.fitsPort (s.trainedBw k) chg then (s.put pgPacer (Reg.PACER_PORT_GUAR_Q k) g).pacerUpdate
  else s.put pgPacer (Reg.PACER_PORT_REFUSED k) 1

/-- PACER_PORT_GUAR_WRITE (R270). -/
def execPacerPortGuarWrite (p : Fin 8) (v : BitVec 32) (s : State) : Host.Outcome State Fault Refusal :=
  .next (s.writePortGuar p.val v.toNat)

/-- A write of PACER_CTL (R270, R277): never refused. -/
def State.writePacerCtl (s : State) (v : Nat) : State :=
  let s := (s.put pgPacer Reg.PACER_CTL_CEIL_PCT (bits v 0 7)).put pgPacer Reg.PACER_CTL_EFF_PCT (bits v 8 7)
  let s := (s.put pgPacer Reg.PACER_CTL_URG3_MAX_MS (bits v 16 8)).put pgPacer Reg.PACER_CTL_BG_FLOOR_PCT (bits v 24 5)
  ((List.range 8).foldl (fun (s : State) (k : Nat) => s.urgUpdate k) s).pacerUpdate

/-- PACER_CTL_WRITE (R270). -/
def execPacerCtlWrite (v : BitVec 32) (s : State) : Host.Outcome State Fault Refusal := .next (s.writePacerCtl v.toNat)

end Sys2Proof.Machine
end

