-- ==== Sys2Proof/Machine/Codec.lean ====
section
/-!
DEFINITION. The decompressor of R136: raw DEFLATE (RFC 1951) limited to one final block of fixed or dynamic codes.
-/
namespace Sys2Proof.Machine

/-- A bit source: the stream as a number whose bit 0 is read first, the bits read, and the bits there are. -/
structure Src where
  x : Nat
  pos : Nat
  lim : Nat
  deriving DecidableEq, Repr

/-- n bits read, least significant first; none past the end. -/
def Src.get (s : Src) (n : Nat) : Option (Nat × Src) :=
  if s.pos + n ≤ s.lim then some (bits s.x s.pos n, { s with pos := s.pos + n }) else none

/-- A canonical code: symbols per length 1 to 15, and the symbols in order of length and value. -/
structure Huff where
  cnt : List Nat
  sym : List Nat
  deriving DecidableEq, Repr

/-- The canonical code of a list of code lengths. -/
def huffOf (lens : List Nat) : Huff :=
  let at_ := fun l => (List.range lens.length).filter (fun i => lens.getD i 0 == l)
  ⟨(List.range 15).map (fun l => (at_ (l + 1)).length), (List.range 15).flatMap (fun l => at_ (l + 1))⟩

/-- Codes left unused after each length: negative for an oversubscribed code, positive for an incomplete one. -/
def Huff.left (h : Huff) : Int := h.cnt.foldl (fun (a : Int) (n : Nat) => if a < 0 then a else 2 * a - (n : Int)) 1

/-- One symbol decoded: code so far, first code of the length, symbols before it. -/
def huffGo : List Nat → Huff → Src → Nat → Nat → Nat → Option (Nat × Src)
  | [], _, _, _, _, _ => none
  | n :: t, h, s, code, first, idx =>
    match s.get 1 with
    | none => none
    | some (b, s) =>
      let code := code + b
      if code < first + n then
        if first ≤ code then (h.sym[idx + (code - first)]?).map (fun v => (v, s)) else none
      else huffGo t h s (2 * code) (2 * (first + n)) (idx + n)

def Huff.get (h : Huff) (s : Src) : Option (Nat × Src) := huffGo h.cnt h s 0 0 0

/-- Base and extra bits of the length symbols 257 to 285, and of the distance symbols 0 to 29. -/
def lenBase : List (Nat × Nat) :=
  [(3, 0), (4, 0), (5, 0), (6, 0), (7, 0), (8, 0), (9, 0), (10, 0), (11, 1), (13, 1), (15, 1), (17, 1), (19, 2), (23, 2),
   (27, 2), (31, 2), (35, 3), (43, 3), (51, 3), (59, 3), (67, 4), (83, 4), (99, 4), (115, 4), (131, 5), (163, 5), (195, 5),
   (227, 5), (258, 0)]
def distBase (d : Nat) : Nat × Nat :=
  if d < 4 then (d + 1, 0) else ((2 + d % 2) * 2 ^ (d / 2 - 1) + 1, d / 2 - 1)

/-- A match copied from the output so far, newest byte first. -/
def copyMatch : Nat → Nat → List Nat → List Nat
  | 0, _, out => out
  | n + 1, d, out => copyMatch n d (out.getD (d - 1) 0 :: out)

/-- Where the decoding of a block stands: the bits still to read, the output, newest byte first, and the length in bits that the
same symbols take under the fixed codes. -/
structure Infl where
  src : Src
  out : List Nat
  fx : Nat
  deriving DecidableEq, Repr

/-- Bits of a literal or length symbol under the fixed codes. -/
def fixedBits (v : Nat) : Nat := if v < 144 then 8 else if v < 256 then 9 else if v < 280 then 7 else 8

/-- The symbols of a block until its end, or until the output reaches a stop; the answer says whether the end was reached. -/
def inflateGo : Nat → Huff → Huff → Nat → Infl → Option (Infl × Bool)
  | 0, _, _, _, _ => none
  | n + 1, l, d, stop, z =>
    if stop ≤ z.out.length then some (z, false)
    else
      match l.get z.src with
      | none => none
      | some (v, s) =>
        if v < 256 then (if 1024 ≤ z.out.length then none else inflateGo n l d stop ⟨s, v :: z.out, z.fx + fixedBits v⟩)
        else if v = 256 then some (⟨s, z.out, z.fx + 7⟩, true)
        else
          match lenBase[v - 257]? with
          | none => none
          | some (lb, le) =>
            match s.get le with
            | none => none
            | some (x, s) =>
              match d.get s with
              | none => none
              | some (dv, s) =>
                if 30 ≤ dv then none
                else
                  let (db, de) := distBase dv
                  match s.get de with
                  | none => none
                  | some (y, s) =>
                    let len := lb + x
                    let dist := db + y
                    if z.out.length < dist ∨ 1024 < z.out.length + len then none
                    else inflateGo n l d stop ⟨s, copyMatch len dist z.out, z.fx + fixedBits v + le + 5 + de⟩

/-- The fixed codes. -/
def fixedLit : Huff := huffOf (List.replicate 144 8 ++ List.replicate 112 9 ++ List.replicate 24 7 ++ List.replicate 8 8)
def fixedDist : Huff := huffOf (List.replicate 32 5)

/-- The order of the code-length code's lengths. -/
def clOrder : List Nat := [16, 17, 18, 0, 8, 7, 9, 6, 10, 5, 11, 4, 12, 3, 13, 2, 14, 1, 15]

/-- n three-bit lengths. -/
def readCl : Nat → Src → Option (List Nat × Src)
  | 0, s => some ([], s)
  | n + 1, s =>
    match s.get 3 with
    | none => none
    | some (v, s) => (readCl n s).map (fun x => (v :: x.1, x.2))

/-- The code lengths of both trees, with their repeat codes; lengths so far newest first. -/
def readLens : Nat → Huff → Src → Nat → List Nat → Option (List Nat × Src)
  | 0, _, s, total, out => if out.length = total then some (out.reverse, s) else none
  | n + 1, h, s, total, out =>
    if total < out.length then none
    else if out.length = total then some (out.reverse, s)
    else
      match h.get s with
      | none => none
      | some (v, s) =>
        if v < 16 then readLens n h s total (v :: out)
        else
          let (eb, base) := if v = 16 then (2, 3) else if v = 17 then (3, 3) else (7, 11)
          if v = 16 ∧ out = [] then none
          else
            match s.get eb with
            | none => none
            | some (x, s) =>
              readLens n h s total (List.replicate (base + x) (if v = 16 then out.headD 0 else 0) ++ out)

/-- The trees of a dynamic block: complete codes, but that the distance tree may hold a single code (R136). R136 names only the
single-code tree; one that holds no code at all, which a block without matches may carry, is accepted too (DESIGN CHOICE, log
entry 85). -/
def dynTrees (s : Src) : Option (Huff × Huff × Src) :=
  match s.get 5, (s.get 5).bind (fun x => x.2.get 5), ((s.get 5).bind (fun x => x.2.get 5)).bind (fun x => x.2.get 4) with
  | some (hl, _), some (hd, _), some (hc, s) =>
    match readCl (hc + 4) s with
    | none => none
    | some (cl, s) =>
      let lens := (List.range 19).map (fun i => cl.getD (clOrder.idxOf i) 0)
      let h := huffOf lens
      if h.left ≠ 0 ∨ 286 < hl + 257 then none
      else
        match readLens 320 h s (hl + 257 + hd + 1) [] with
        | none => none
        | some (all, s) =>
          let l := huffOf (all.take (hl + 257))
          let d := huffOf (all.drop (hl + 257))
          let single := d.sym.length ≤ 1 && d.cnt.drop 1 == List.replicate 14 0
          if l.left ≠ 0 ∨ (d.left ≠ 0 ∧ !single) then none else some (l, d, s)
  | _, _, _ => none

/-- A stream of len bytes decoded until its output reaches a stop, or to its end with exactly 1,024 bytes; the answer is the state
at the end, whether the block used dynamic codes, and whether its end was reached. A code of 286 or 287, or a distance code of 30 or
31, is rejected. -/
def inflateRun (bs : List Nat) (len stop : Nat) : Option (Infl × Bool × Bool) :=
  let s : Src := ⟨ofLe (bs.take len), 0, 8 * len⟩
  match s.get 3 with
  | none => none
  | some (hdr, s) =>
    if hdr % 2 = 0 then none
    else
      let trees := if hdr / 2 = 1 then some (fixedLit, fixedDist, s) else if hdr / 2 = 2 then dynTrees s else none
      match trees with
      | none => none
      | some (l, d, s) =>
        match inflateGo 1100 l d stop ⟨s, [], 3⟩ with
        | some (z, done) => if done && z.out.length != 1024 then none else some (z, hdr / 2 == 2, done)
        | none => none

/-- The output of a stream up to a stop, and whether the block used dynamic codes. -/
def inflate (bs : List Nat) (len stop : Nat) : Option (List Nat × Bool) :=
  (inflateRun bs len stop).map (fun x => (x.1.out.reverse, x.2.1))

/-- The whole stream decoded (R136, R138): a stop past any output. -/
def inflateAll (bs : List Nat) (len : Nat) : Option (List Nat × Bool) := inflate bs len 2048

/-! ### What the compressor emits (R135, R137) -/

/-- A decoded stream is one that the compressor emits under a code mode (0 AUTO, 1 FIXED, 2 DYNAMIC): its last byte holds the last
bit of the end-of-block symbol and zero padding, and its code is the one chosen. Under AUTO dynamic codes are chosen only where
they are shorter than fixed codes for the same symbols. How long a dynamic code would be for symbols emitted under fixed codes
depends on the code lengths that the compressor picks, which the spec does not state: there the operand's own choice stands
(DESIGN CHOICE, log entry 86). -/
def emitsAs (mode : Nat) (stream : List Nat) (z : Infl) (dyn : Bool) : Bool :=
  stream.length == (z.src.pos + 7) / 8 && bits z.src.x z.src.pos (8 * stream.length - z.src.pos) == 0 &&
    (match mode with
      | 1 => !dyn
      | 2 => dyn
      | _ => !dyn || decide (z.src.pos < z.fx))

/-- A stream that the compressor can put out for a sub-block's bytes: one it emits under the code mode, or one that does not decode
to them, which only a fault of the compressor produces and the verify decompressor catches (R138). -/
def canEmit (mode : Nat) (bytes stream : List Nat) : Bool :=
  match inflateRun stream stream.length 2048 with
  | some (z, dyn, _) => z.out.reverse != bytes || emitsAs mode stream z dyn
  | none => true

end Sys2Proof.Machine
end

