-- ==== Sys2Proof/Machine/Xlat.lean ====
section
/-!
DEFINITION. Translation (R80 to R105): TLB and walk cache, walks and their faults, held writes, invalidation, the window
lookup before them (R225, R243), and the meanings of the translation commands.
-/
namespace Sys2Proof.Machine

/-! ### Leaves in memory -/

/-- Where the leaf of a VIA lies and what it holds, read from the tables from a level on: DA of the entry, level, entry. -/
def State.findLeafAt (s : State) (v : Vi) (via : Nat) : Nat → Nat → Option (Nat × Nat × Nat)
  | 0, _ => none
  | l + 1, tbl =>
    if !v.inPool tbl then none
    else
      let da := tbl + 8 * viaIndex via (l + 1)
      match s.peek da with
      | none => none
      | some e =>
        if !leafV e then some (da, l + 1, e)
        else if l ≠ 0 ∧ !leafL e then s.findLeafAt v via l (4096 * leafAddr e)
        else some (da, l + 1, e)

/-- The leaf of a VIA as the tables hold it now. -/
def State.findLeaf (s : State) (t via : Nat) : Option (Nat × Nat × Nat) :=
  let v := s.vi t
  s.findLeafAt v via v.levels (4096 * v.root)

/-! ### TLB and walk cache (R88, R89) -/

/-- A TLB entry covers a page. -/
def TlbEnt.covers (e : TlbEnt) (vi page : Nat) : Bool := e.vi == vi && e.page / reach e.lvl == page / reach e.lvl

def Prt.tlbHit (p : Prt) (vi page : Nat) : Option TlbEnt := p.tlb.find? (fun e => e.covers vi page)

/-- The port's own entry for a page removed (R93). -/
def State.tlbDrop (s : State) (k vi page : Nat) : State :=
  let p := s.prt k
  s.setPrt k { p with tlb := p.tlb.filter (fun e => !e.covers vi page) }

/-- The TLB set of an entry (R88). -/
def tlbSetOf (vi page : Nat) : Nat := Config.tlbSet vi page % 2048

/-- A leaf placed in the TLB; in a full set of 8 the victim the replacement picks makes room. -/
def State.tlbFill (s : State) (k vi page lvl leaf : Nat) : State :=
  let p := s.prt k
  let e : TlbEnt := ⟨vi, page / reach lvl * reach lvl, lvl, leaf⟩
  let old := p.tlb.filter (fun x => !x.covers vi page)
  let set := old.filter (fun x => tlbSetOf x.vi x.page == tlbSetOf vi e.page)
  if set.length < 8 then s.setPrt k { p with tlb := e :: old }
  else
    let v := set.getD (Config.victim s.free % 8) e
    (s.setPrt k { p with tlb := e :: old.filter (fun x => x != v) }).tick

/-- A walk-cache entry placed (R89). -/
def State.wcFill (s : State) (k : Nat) (e : WcEnt) : State :=
  let p := s.prt k
  let old := p.wc.filter (fun x => !(x.vi == e.vi && x.lvl == e.lvl && x.pfx == e.pfx))
  if old.length < 2048 then s.setPrt k { p with wc := e :: old }
  else
    let v := old.getD (Config.victim s.free % 2048) e
    (s.setPrt k { p with wc := e :: old.filter (fun x => x != v) }).tick

/-- The VIA prefix that an entry of a level covers. -/
def viaPrefix (via lvl : Nat) : Nat := via / 2 ^ (12 + 9 * (lvl - 1))

/-- Where a walk begins: below the deepest cached table entry, else at the root (R84). -/
def State.walkStart (s : State) (k t via : Nat) : Nat × Nat :=
  let v := s.vi t
  match [2, 3, 4, 5].findSome? (fun l =>
      ((s.prt k).wc.find? (fun e => e.vi == t && e.lvl == l && e.pfx == viaPrefix via l)).map (fun e => (l - 1, e.tbl))) with
  | some x => x
  | none => (v.levels, 4096 * v.root)

/-- Walkers busy at a port (R90). -/
def State.walkers (s : State) (k : Nat) : Nat := (s.walks.filter (fun x => x.2.port == k)).length

/-! ### Use of a leaf (R83, R92 to R97) -/

/-- A held write's fault or drop record (R94 to R96). -/
def State.raiseHold (s : State) (r : Req) (kind sev : Nat) : State :=
  s.raiseFor (66 + 8 * r.port) kind sev (some r.vi) 0 0 (some (r.port, r.ld, none))

/-- A miss waits for a walk of its page: one in progress for the same VI and page is joined, a free walker starts, with all 32
busy it waits in the miss queue, and with the queue full at the boundary (R90). -/
def State.startWalk (s : State) (id : Nat) (r : Req) : State :=
  if s.walked r then s.setReq id { r with phase := .miss }
  else if 32 ≤ s.walkers r.port then s.setReq id { r with phase := if 128 ≤ s.missQueue r.port then .gate else .miss }
  else
    let w := s.walkStart r.port r.vi r.via
    let s := s.setReq id { r with phase := .miss }
    { s with walks := SMap.put s.walks id ⟨r.port, r.vi, r.via, r.op.rwd, w.1, w.2, 0, [], false⟩ }

/-- A write is held in a hold slot, counted from when it was first held (R93, R94), or at the boundary while all 256 are in use
(R97). -/
def State.hold (s : State) (id : Nat) (r : Req) (ph : Phase) : State :=
  if 256 ≤ s.heldWrites r.port then s.setReq id { r with phase := .gate }
  else (s.setReq id { r with phase := ph, firstHeld := some (r.firstHeld.getD s.time) }).telPort r.port 0x13 1 (some (s.reqFlt r))

/-- A write has been held for a time since it was first held (R93 to R95). -/
def State.heldFor (s : State) (r : Req) (ns : Nat) : Bool := decide (r.firstHeld.getD s.time + ns ≤ s.time)

/-- A translated request goes to the home through the Pacer (R25 steps 4 and 5). -/
def State.toHome (s : State) (id : Nat) (r : Req) (leaf lvl : Nat) : State :=
  let r := { r with leaf := leaf, lvl := lvl, tier := leafTier leaf,
                    da := if leafTier leaf = 2 then leafAddr leaf else leafDa leaf lvl (64 * (r.via / 64)) }
  (s.pacerTake r).enterHome id r

/-- A write held under M is resolved by clearing M (R93 steps 1 to 3): the write goes to the leaf's location, or walks again.
The leaf is compared as the port used it. While the table line's counter is not cached, the write stays held. -/
def State.resolveM (s : State) (id : Nat) (r : Req) (b : Bursts) : State :=
  match s.findLeaf r.vi r.via with
  | none => (s.tlbDrop r.port r.vi (r.via / 4096)).startWalk id r
  | some (da, _, _) =>
    if !s.metaReady da then (if r.phase.held then s else s.hold id r .heldM)
    else
      match s.casEntry da r.leaf (r.leaf - 2) b with
      | (s, true) => (s.raiseHold r 0x204 WARN).toHome id r (r.leaf - 2) r.lvl
      | (s, false) => (s.tlbDrop r.port r.vi (r.via / 4096)).startWalk id r

/-- A write through an unbacked leaf (R95): M is set, the owner engine's doorbell rung, and the write held; in coast it is
dropped (R96). -/
def State.askAllocation (s : State) (id : Nat) (r : Req) (leaf lvl : Nat) : State :=
  let r := { r with leaf := leaf, lvl := lvl, tier := 3 }
  if s.coast then (s.raiseHold r 0x207 ERROR).complete id r
  else if leafM leaf then s.hold id r .heldAlloc
  else
    match s.findLeaf r.vi r.via with
    | none => (s.tlbDrop r.port r.vi (r.via / 4096)).startWalk id r
    | some (da, _, _) =>
      match s.casEntry da leaf (leaf + 2) {} with
      | (s, true) =>
        let o := s.fld (pgPort r.port) Reg.PORT_XLAT_CTL_OWNER_ME
        let s := s.setEng o { (s.eng o) with doorbell := setBit (s.eng o).doorbell r.port }
        s.hold id { r with leaf := leaf + 2 } .heldAlloc
      | (s, false) => (s.tlbDrop r.port r.vi (r.via / 4096)).startWalk id r

/-- A request meets its leaf: unbacked reads are answered by the port with zeros (R83); writes through W or M are held, W
first (R92, R94); the rest goes to the home. -/
def State.useLeaf (s : State) (id : Nat) (r : Req) (leaf lvl : Nat) : State :=
  if leafTier leaf = 3 then
    match r.op with
    | .rd | .rdData => s.answer id r 0 false (if (s.vi r.vi).shared then .i else r.mv)
    | .clnEvct | .inv => s.complete id r
    | _ => if leafW leaf then s.hold id { r with leaf := leaf, lvl := lvl, tier := 3 } .heldW
           else s.askAllocation id r leaf lvl
  else if r.op.rwd ∧ leafW leaf ∧ !s.answersSnoop r then s.hold id { r with leaf := leaf, lvl := lvl } .heldW
  else if r.op.rwd ∧ leafM leaf ∧ !s.answersSnoop r then
    let r := { r with leaf := leaf, lvl := lvl }
    if s.coast then s.resolveM id r {} else s.hold id r .heldM
  else s.toHome id r leaf lvl

/-- Translation of a request from the TLB, or by a walk (R84, R88). -/
def State.translate (s : State) (id : Nat) (r : Req) : State :=
  match (s.prt r.port).tlbHit r.vi (r.via / 4096) with
  | some e => (s.telPort r.port 0x10 1 (some (s.reqFlt r))).useLeaf id { r with walkDa := 0 } e.leaf e.lvl
  | none => (s.telPort r.port 0x11 1 (some (s.reqFlt r))).startWalk id r

/-! ### Window lookup (R224, R225, R243) -/

/-- A request outside every decoder or window (R243). -/
def State.unmapped (s : State) (id : Nat) (r : Req) (hpa : Bool) : State :=
  let a := if hpa then r.hpa else r.dpa
  let det := r.ld + 16 * b2n hpa + 256 * (a % 2 ^ 56)
  (s.raiseFor (68 + 8 * r.port) 0x605 WARN none 0 det (some (r.port, r.ld, none))).refuseReq id r

/-- A request of a VI that is quiescing or quiesced is refused (R225). -/
def State.notActive (s : State) (id : Nat) (r : Req) : State :=
  (s.raiseFor (68 + 8 * r.port) 0x505 WARN (some r.vi) 0 0 (some (r.port, r.ld, none))).refuseReq id r

/-- The VI states in which a bound window serves, and those in which it holds (R225, R243). -/
def ViState.serves : ViState → Bool
  | .active | .frozen => true
  | _ => false
def ViState.holds : ViState → Bool
  | .quiescing | .quiesced => true
  | _ => false

/-- A request whose window serves: its extent is checked, and it is translated (R243, R25 step 3). -/
def State.served (s : State) (id : Nat) (r : Req) (t : Nat) : State :=
  let r := { r with vi := t, via := r.dpa - 2 ^ 30 * (s.vi t).dpaBaseG }
  if !s.extentOk r.port t r.dpa then s.unmapped id r false
  else if r.op.rwd ∧ (s.vi t).telemetry then s.refuseWrite id r (68 + 8 * r.port) 0
  else s.translate id r

/-- Decode and window lookup of an accepted request, then its translation (R25 steps 2 and 3); a mailbox command names its DPA
itself (R249). The write-back that a recall asks for passes the hold of a VI that is quiescing. -/
def State.lookup (s : State) (id : Nat) (r : Req) : State :=
  match (if r.org = .cmd then some r.dpa else ((s.ldev r.port r.ld).decodeHpa r.hpa).map Prod.snd) with
  | none => s.unmapped id r true
  | some dpa =>
    let r := { r with dpa := dpa }
    match s.windowOf r.port r.ld dpa ViState.serves with
    | some t => s.served id r t
    | none =>
      match s.windowOf r.port r.ld dpa ViState.holds with
      | some t =>
        let r := { r with vi := t, via := dpa - 2 ^ 30 * (s.vi t).dpaBaseG }
        if s.answersSnoop r then s.served id r t
        else if (s.prt r.port).refused.contains t then s.notActive id r
        else s.setReq id { r with phase := .lookup, heldAt := s.time }
      | none => s.unmapped id r false

/-- An accepted request starts: it waits at a closed gate (R369), and a write while its port's hold slots are all in use (R97). -/
def State.startReq (s : State) (id : Nat) (r : Req) : State :=
  if s.gateShut (9 + r.port) || (s.flag (pgPort r.port) Reg.PORT_LINK_STAT_IDE_ON && s.gateShut (65 + r.port)) || (r.op.rwd && 256 ≤ s.heldWrites r.port) then s.setReq id { r with phase := .gate }
  else s.lookup id r

/-- Requests of a port waiting at a boundary start again, oldest first, at most one per unit of fuel. -/
def State.ungate : Nat → List Nat → State → State
  | 0, _, s => s
  | _, [], s => s
  | n + 1, id :: t, s =>
    State.ungate n t (match s.req? id with
      | some r => if r.phase == .gate then s.startReq id r else s
      | none => s)

def State.ungatePort (s : State) (k : Nat) : State :=
  let ids := (s.reqs.filter (fun x => x.2.port == k && x.2.phase == .gate)).map Prod.fst
  State.ungate ids.length ids s

/-- The chains and the boundary waiters proceed after a request ended. -/
def State.settle (s : State) (k : Nat) : State := (s.ungatePort k).release

/-! ### Walks (R84 to R87) -/

/-- The misses that waited for a page's walk. -/
def State.waiters (s : State) (w : Walk) : List (Nat × Req) :=
  s.reqs.filter (fun x => x.2.phase == .miss && x.2.port == w.port && x.2.vi == w.vi && x.2.via / 4096 == w.via / 4096)

/-- A free walker takes the oldest miss that has no walk (R90). -/
def State.nextWalk (s : State) (k : Nat) : State :=
  match s.reqs.find? (fun x => x.2.phase == .miss && x.2.port == k && !s.walked x.2) with
  | some (id, r) => s.startWalk id r
  | none => s

/-- A walk restarted because an invalidation passed it (R99 item 2): the requests walk again. -/
def State.rewalk (s : State) (id : Nat) (w : Walk) : State :=
  let s' := { s with walks := SMap.del s.walks id }
  (s.waiters w).foldl (fun (s : State) (x : Nat × Req) => s.startWalk x.1 x.2) s'

/-- A walk ends in a fault (R86, R87): its requests get poison or are discarded, a record goes to the fault queue and the
log, and nothing is cached. The requests of a walk that an invalidation passed walk again (R99 item 2). -/
def State.walkFault (s : State) (id : Nat) (w : Walk) (kind sev : Nat) : State :=
  if w.stale then s.rewalk id w
  else
  let s' := { s with walks := SMap.del s.walks id }
  let s' := (s.waiters w).foldl (fun (s : State) (x : Nat × Req) =>
    let det := w.lvl + 256 * b2n x.2.op.rwd + 65536 * (x.2.via / 4096)
    (s.raiseFor (66 + 8 * w.port) kind sev (some w.vi) w.lineDa det (some (x.2.port, x.2.ld, none))).refuseReq x.1 x.2) s'
  (s'.nextWalk w.port).settle w.port

/-- A walk reaches its leaf: A is set by a posted update, TLB and walk cache are filled, and the requests go on. -/
def State.walkDone (s : State) (id : Nat) (w : Walk) (da e : Nat) : State :=
  let s := if leafA e then s else (s.casEntry da e (e + 32) {}).1
  if w.stale then s.rewalk id w
  else
    let s' := { s with walks := SMap.del s.walks id }
    let s' := s'.tlbFill w.port w.vi (w.via / 4096) w.lvl e
    let s' := w.path.foldl (fun (s : State) (x : Nat × Nat) => s.wcFill w.port ⟨w.vi, x.1, viaPrefix w.via x.1, x.2⟩) s'
    let s' := (s.waiters w).foldl (fun (s : State) (x : Nat × Req) => s.useLeaf x.1 { x.2 with walkDa := 64 * (da / 64) } e w.lvl) s'
    (s'.nextWalk w.port).settle w.port

/-- What the leaf checks of R84 answer: no fault, or kind. -/
def State.leafFault (s : State) (e lvl via : Nat) : Option Nat :=
  if lvl ≥ 4 then some 0x203
  else if leafTier e = 2 ∧ lvl > 1 then some 0x203
  else if leafTier e ≤ 1 && (leafAddr e / 2 ^ 36 != 0 || s.daKind (leafDa e lvl via) != .frame) then some 0x201
  else if leafTier e = 2 ∧ s.fld 2 Reg.HUB_XLAT_DESC_CNT_COUNT ≤ leafAddr e then some 0x201
  else none

/-- One table line of a walk (R84). -/
def State.walkStep (s : State) (id : Nat) (w : Walk) (b : Bursts) : State :=
  let v := s.vi w.vi
  if !v.inPool w.tbl then s.walkFault id w 0x201 ERROR
  else
    let da := w.tbl + 8 * viaIndex w.via w.lvl
    match s.metaRead da b with
    | (_, .wait) => s
    | (s, .poison _) => s.walkFault id { w with lineDa := 64 * (da / 64) } 0x202 ERROR
    | (s, .ok d) =>
      let s := s.telPort w.port 0x12 1 (some ⟨0, some w.port, some w.vi, v.cls, some da⟩)
      let e := lineEntry d (da / 8 % 8)
      let w := { w with lineDa := 64 * (da / 64) }
      if !leafV e then s.walkFault id w 0x200 WARN
      else if w.lvl > 1 ∧ !leafL e then
        let tbl := 4096 * leafAddr e
        { s with walks := SMap.put s.walks id { w with lvl := w.lvl - 1, tbl := tbl, path := (w.lvl, tbl) :: w.path } }
      else
        match s.leafFault e w.lvl w.via with
        | some k => s.walkFault id w k ERROR
        | none => s.walkDone id w da e

/-! ### Invalidation (R98 to R100) -/

/-- A page of a VI lies in the scope of an invalidation: every VI, one VI, or a page range; walk-cache scopes take the whole
VI. -/
def Inval.hits (i : Inval) (vi page lvl : Nat) : Bool :=
  if i.scope = 2 then true
  else if i.scope = 1 ∨ !i.tlb then i.vi == vi
  else
    let p0 := page / reach lvl * reach lvl
    i.vi == vi && decide (p0 < i.page + i.count) && decide (i.page < p0 + reach lvl)

/-- Entries of a scope removed, and the walks in flight whose table reaches into the scope marked stale (R99). -/
def State.invApply (s : State) (k : Nat) (i : Inval) : State :=
  let p := s.prt k
  let p := if i.tlb then { p with tlb := p.tlb.filter (fun e => !i.hits e.vi e.page e.lvl) }
           else { p with wc := p.wc.filter (fun e => !i.hits e.vi 0 1) }
  let p := if i.tlb && i.scope ≠ 0 then { p with seen := if i.scope = 2 then [] else p.seen.filter (fun t => t != i.vi) } else p
  { (s.setPrt k { p with inv := some i }) with
    walks := s.walks.map (fun x => if x.2.port == k && i.hits x.2.vi (x.2.via / 4096) (min 3 x.2.lvl)
                                   then (x.1, { x.2 with stale := true }) else x) }

/-- DONE increments and BUSY clears. -/
def State.invCount (s : State) (k : Nat) : State :=
  s.put (pgPort k) Reg.PORT_INV_STAT_DONE (s.fld (pgPort k) Reg.PORT_INV_STAT_DONE + 1)

/-- GO in PORT_TLB_INV or PORT_WALK_INV (R99). -/
def State.invGo (s : State) (k : Nat) (tlb : Bool) : State :=
  let pg := pgPort k
  let scope := s.fld pg Reg.PORT_INV_SCOPE_SCOPE
  let i : Inval := ⟨tlb, s.fld pg Reg.PORT_INV_SCOPE_VI_TAG, scope, s.fld pg Reg.PORT_INV_SCOPE_COUNT,
    s.fld pg Reg.PORT_INV_VIA_VIA⟩
  if (s.prt k).inv.isSome || scope == 3 then s.put pg Reg.PORT_INV_STAT_REFUSED 1
  else if tlb ∧ scope = 0 ∧ i.count = 0 then s.invCount k
  else (s.invApply k i).put pg Reg.PORT_INV_STAT_BUSY 1

/-- Held writes of a scope walk again (R99 item 4). -/
def State.releaseHeld (s : State) (k : Nat) (f : Req → Bool) : State :=
  (s.reqs.filter (fun x => x.2.port == k && x.2.phase.held && f x.2)).foldl
    (fun (s : State) (x : Nat × Req) => s.startWalk x.1 x.2) s

/-- An invalidation ends: BUSY clears, DONE increments, and the held writes of the scope walk again (R99 item 4). -/
def State.invFinish (s : State) (k : Nat) (i : Inval) : State :=
  let s := (s.setPrt k { (s.prt k) with inv := none }).put (pgPort k) Reg.PORT_INV_STAT_BUSY 0
  ((s.invCount k).releaseHeld k (fun r => i.hits r.vi (r.via / 4096) r.lvl)).settle k

/-- BUSY clears once the walks of the scope have ended and every request translated through a removed entry is ordered at the home
(R99 items 2 and 3). -/
def State.invDone (s : State) (k : Nat) : State :=
  match (s.prt k).inv with
  | none => s
  | some i =>
    if s.walks.any (fun x => x.2.port == k && x.2.stale) ||
        (i.tlb && s.reqs.any (fun x => x.2.port == k && x.2.phase == .chained && i.hits x.2.vi (x.2.via / 4096) x.2.lvl)) then s
    else s.invFinish k i

/-- An owner engine waits for BUSY = 0 (R98 step 2): the walks of the scope end, and their requests walk again. Whatever the engine
then copies or frees, it does once no request of the page is in progress (R99 item 3). -/
def State.invWait (s : State) (k : Nat) : State :=
  match (s.prt k).inv with
  | none => s
  | some i =>
    ((s.walks.filter (fun x => x.2.port == k && x.2.stale)).foldl (fun (s : State) (x : Nat × Walk) => s.rewalk x.1 x.2) s).invFinish k i

/-- An owner engine's invalidation of a scope on its port, run to its end (R98 step 2): after one in progress, PORT_INV_VIA and
PORT_INV_SCOPE written, then GO for the TLB and GO for the walk cache. -/
def State.invRun (s : State) (k scope t count page : Nat) : State :=
  let pg := pgPort k
  let s := s.invWait k
  let s := (((s.put pg Reg.PORT_INV_VIA_VIA page).put pg Reg.PORT_INV_SCOPE_VI_TAG t).put pg Reg.PORT_INV_SCOPE_SCOPE scope).put pg
    Reg.PORT_INV_SCOPE_COUNT count
  (((s.invGo k true).invWait k).invGo k false).invWait k

/-- A change of a VI's entries made visible on a port by its owner engine (R98): a page range that COUNT can hold, or the whole
VI. -/
def State.invNow (s : State) (k t page count : Nat) (whole : Bool) : State :=
  if whole || 2 ^ 14 ≤ count then s.invRun k 1 t 0 0 else s.invRun k 0 t count page

/-- Every entry of a port invalidated, SCOPE 0b10 (R315). -/
def State.invPort (s : State) (k : Nat) : State := s.invRun k 2 0 0 0

/-- The invalidation of R98 on every port where a VI is bound or was bound since that port's last whole-VI invalidation. -/
def State.invalidate (s : State) (t page count : Nat) (whole : Bool) : State :=
  (pick 8 (fun k => (s.vi t).ports.testBit k || (s.prt k).seen.contains t)).foldl
    (fun (s : State) (k : Nat) => s.invNow k t page count whole) s

/-! ### Meanings -/

/-- WALK (R84). -/
def execWalk (id : BitVec 32) (b : Bursts) (s : State) : Host.Outcome State Fault Refusal :=
  match SMap.get? s.walks id.toNat with
  | some w => .next (s.walkStep id.toNat w b)
  | none => .next s

/-- COMPARE_AND_WRITE (R91, R311): by an engine, within the metadata reserve, ordered at the home; it waits for the line's counter.
A DA outside every span raises DA_UNMAPPED of kind 2 and fails (R58). -/
def execCompareAndWrite (eng : Fin 64) (da : BitVec 48) (old new : BitVec 64) (b : Bursts) (s : State) :
    Host.Outcome State Fault Refusal :=
  if !(s.eng eng.val).running then .next s
  else
    match s.daKind da.toNat with
    | .metadata =>
      if !s.lineFree (da.toNat / 64) || !s.metaReady da.toNat then .next s
      else
        match s.casEntry (8 * (da.toNat / 8)) old.toNat new.toNat b with
        | (s, ok) => .next (s.emit (.cas eng.val ok))
    | .unmapped => .next ((s.raise 5 0x10B ERROR none da.toNat (detail [2, eng.val])).emit (.cas eng.val false))
    | _ => .next s

/-- MOVE_HOLD_EXPIRED (R93): due 4 µs after the write was first held, and at once in coast (R96). -/
def execMoveHoldExpired (id : BitVec 32) (b : Bursts) (s : State) : Host.Outcome State Fault Refusal :=
  match s.req? id.toNat with
  | some r =>
    if r.phase == .heldM && (s.heldFor r 4000 || s.coast) then
      .next ((s.resolveM id.toNat r b).settle r.port)
    else .next s
  | none => .next s

/-- WRITE_HELD_DROPPED (R94): due 2 ms after the write was first held. -/
def execWriteHeldDropped (id : BitVec 32) (s : State) : Host.Outcome State Fault Refusal :=
  match s.req? id.toNat with
  | some r =>
    if r.phase == .heldW && s.heldFor r 2000000 then
      .next (((s.raiseHold r 0x205 ERROR).complete id.toNat r).settle r.port)
    else .next s
  | none => .next s

/-- ALLOC_TIMEOUT (R95): due 1 ms after the write was first held. -/
def execAllocTimeout (id : BitVec 32) (s : State) : Host.Outcome State Fault Refusal :=
  match s.req? id.toNat with
  | some r =>
    if r.phase == .heldAlloc && s.heldFor r 1000000 then
      .next (((s.raiseHold r 0x206 ERROR).complete id.toNat r).settle r.port)
    else .next s
  | none => .next s

/-- PORT_TLB_INV (R99). -/
def execPortTlbInv (p : Fin 8) (s : State) : Host.Outcome State Fault Refusal :=
  .next (s.atPage (pgPort p.val) (fun s => s.invGo p.val true))

/-- PORT_WALK_INV (R99). -/
def execPortWalkInv (p : Fin 8) (s : State) : Host.Outcome State Fault Refusal :=
  .next (s.atPage (pgPort p.val) (fun s => s.invGo p.val false))

/-- INVALIDATION_DONE (R99). -/
def execInvalidationDone (p : Fin 8) (s : State) : Host.Outcome State Fault Refusal := .next (s.invDone p.val)

/-- VI_NOT_ACTIVE (R225): due once a request has been held at window lookup for 1 ms; from then on the port refuses the VI's
requests at once. -/
def execViNotActive (id : BitVec 32) (s : State) : Host.Outcome State Fault Refusal :=
  match s.req? id.toNat with
  | some r =>
    if r.phase == .lookup && decide (r.heldAt + 1000000 ≤ s.time) then
      let p := s.prt r.port
      let s := s.setPrt r.port { p with refused := if p.refused.contains r.vi then p.refused else r.vi :: p.refused }
      .next ((s.notActive id.toNat r).settle r.port)
    else .next s
  | none => .next s

end Sys2Proof.Machine
end

