-- ==== Sys2Proof/Machine/HostReq.lean ====
section
/-!
DEFINITION. Host requests end to end (R25 to R27, R38 to R42, R168, R201 to R209, R255): acceptance, the burst of a read
with refetch and recomputation, the acceptance of a write and its drain, and the snoop answers.
-/
namespace Sys2Proof.Machine

/-! ### Acceptance -/

/-- A port's and a Pier's sequencer run: a table of length 0 disables one, a parity failure halts it (R16, R307). -/
def State.portSeq (s : State) (p : Nat) : Bool :=
  s.fld (pgPort p) (Reg.SEQ_CTL_LENGTH 0x380) != 0 && !s.flag (pgPort p) (Reg.SEQ_CTL_HALTED 0x380)
def State.pierSeq (s : State) (n : Nat) : Bool :=
  s.fld (pgPier n) (Reg.SEQ_CTL_LENGTH 0x900) != 0 && !s.flag (pgPier n) (Reg.SEQ_CTL_HALTED 0x900)

/-- A port can take CXL.mem requests: its link is up with host credits, and its keys are in place (R239, R253, R259). -/
def State.portLive (s : State) (p : Nat) : Bool :=
  s.portSeq p && s.linkUp p && s.fld (pgPort p) Reg.PORT_HOST_CRED_NDR != 0 && s.fld (pgPort p) Reg.PORT_HOST_CRED_DRS != 0
    && !(s.prt p).ideWait
/-- It serves them; a root-loss entry to Deep Sleep stops that (R363). -/
def State.portServes (s : State) (p : Nat) : Bool := s.serving && s.portLive p && !s.pwr.rootLoss && !s.pwr.warm
/-- It holds them: from the end of the preparation of Sleep to the exit (R374). -/
def State.portHolds (s : State) (p : Nat) : Bool :=
  s.ready && s.portLive p && (s.pwr.state = 2 || (s.pwr.trans = 2 && s.pwr.target = 2)) && !s.pwr.rootLoss

/-- Its host sends requests before media ready: each has the outcome of R243 without the event (R390). -/
def State.portEarly (s : State) (p : Nat) : Bool :=
  !s.ready && s.awake && s.fld 0 Reg.TRUSS_BOOT_STAT_STAGE != 0xE && s.portLive p

/-- The host holds a credit for the request's class (R202, R239): none for a request while the miss queue is full (R90), and none
for a write while all hold slots are in use (R97). -/
def State.hasCredit (s : State) (p : Nat) (op : ReqOp) : Bool :=
  if op.rwd then s.fill4 p < 256 && s.heldWrites p < 256 else s.fill5 p < 448 && s.missQueue p < 128

/-- A host request is accepted, decoded and started; without service or credit the host cannot send it. In Sleep, and on the way
there, it wakes the Kenez (R377). -/
def State.accept (s : State) (op : ReqOp) (p ld hpa : Nat) (mv : MetaValue) (data : BitVec 512) (mask : BitVec 64) : State :=
  if !(s.portServes p || s.portHolds p || s.portEarly p) || !s.hasCredit p op then s
  else
    let id := s.nextReq
    let r : Req := { op := op, org := .host, port := p, ld := ld, mv := mv, hpa := 64 * (hpa / 64), dpa := 0, vi := 0, via := 0,
                     data := data, mask := mask, leaf := 0, lvl := 0, da := 0, tier := 3, phase := .lookup,
                     at0 := s.time, heldAt := s.time, poison := false, accP := false, accM := false,
                     last := none, dir := none, orphan := false }
    let f := some (s.reqFlt r)
    let s := { s.leaveIdle with nextReq := (id + 1) % 2 ^ 32 }
    let s := s.telPort p (if op.rwd then 0x04 else 0x03) 1 f
    let s := if op.rwd then (s.telPort p 0x01 64 f).setPrt p { (s.prt p) with traf := (s.prt p).traf + 64 } else s
    if s.portEarly p then s.refuseReq id r
    else (if s.portServes p then (s.startReq id r).release else s.setReq id { r with phase := .gate }).wakeBy 2

/-- MEMRD (R25, R201). -/
def execMemrd (p : Fin 8) (ld : Fin 16) (hpa : BitVec 52) (mv : MetaValue) (s : State) :
    Host.Outcome State Fault Refusal := .next (s.accept .rd p.val ld.val hpa.toNat mv 0 0)

/-- MEMRDDATA (R201). -/
def execMemrddata (p : Fin 8) (ld : Fin 16) (hpa : BitVec 52) (s : State) : Host.Outcome State Fault Refusal :=
  .next (s.accept .rdData p.val ld.val hpa.toNat .i 0 0)

/-- MEMWR (R26, R201). -/
def execMemwr (p : Fin 8) (ld : Fin 16) (hpa : BitVec 52) (mv : MetaValue) (data : BitVec 512) (s : State) :
    Host.Outcome State Fault Refusal :=
  .next (s.accept .wr p.val ld.val hpa.toNat mv data (BitVec.allOnes 64))

/-- MEMWRPTL (R27). -/
def execMemwrptl (p : Fin 8) (ld : Fin 16) (hpa : BitVec 52) (mv : MetaValue) (data : BitVec 512) (mask : BitVec 64)
    (s : State) : Host.Outcome State Fault Refusal := .next (s.accept .wrPtl p.val ld.val hpa.toNat mv data mask)

/-- MEMCLNEVCT (R201). -/
def execMemclnevct (p : Fin 8) (ld : Fin 16) (hpa : BitVec 52) (s : State) : Host.Outcome State Fault Refusal :=
  .next (s.accept .clnEvct p.val ld.val hpa.toNat .i 0 0)

/-- MEMINV (R201). -/
def execMeminv (p : Fin 8) (ld : Fin 16) (hpa : BitVec 52) (s : State) : Host.Outcome State Fault Refusal :=
  .next (s.accept .inv p.val ld.val hpa.toNat .i 0 0)

/-! ### Snoop answers -/

/-- An answer permitted for a snoop (R201): BIRspI, and BIRspS to BISnpData. -/
def birspOk (inv : Bool) : BiAnswer → Bool
  | .i => true
  | .s => !inv
  | .e => false

/-- BI_PROTOCOL on a port (R201). -/
def State.biProtocol (s : State) (p : Nat) : State :=
  (s.put (pgPort p) Reg.PORT_BI_STAT_PROTOCOL 1).raise (67 + 8 * p) 0x500 ERROR none 0 0

def State.findSnoop (s : State) (p tag : Nat) : Option Snoop := s.snoops.find? (fun x => x.port == p && x.tag == tag)

/-- BIRSP (R201). -/
def execBirsp (p : Fin 8) (tag : Fin 64) (r : BiAnswer) (s : State) : Host.Outcome State Fault Refusal :=
  match s.findSnoop p.val tag.val with
  | none => .next (s.biProtocol p.val)
  | some sn =>
    let s := if birspOk sn.inv r then s else s.biProtocol p.val
    .next ((s.snoopDir sn (birspOk sn.inv r && r == .s)).endSnoop sn)

/-- Writes and evictions of a snooped line that its port still holds go on at once (R203, R208). -/
def State.freeSnooped (s : State) (sn : Snoop) : State :=
  (s.reqs.filter (fun x => (x.2.phase == .heldM || x.2.phase == .heldW || x.2.phase == .lookup) && x.2.port == sn.port &&
    x.2.hpa / 64 == sn.hpa / 64 && s.answersSnoop x.2)).foldl (fun (s : State) (x : Nat × Req) => s.lookup x.1 x.2) s

/-- BICONFLICT (R208): counted; acknowledged at once, or after the completion of the host's own write of the line. -/
def execBiconflict (p : Fin 8) (tag : Fin 64) (s : State) : Host.Outcome State Fault Refusal :=
  let pg := pgPort p.val
  let s := s.put pg Reg.PORT_BI_STAT_CONFLICTS (s.fld pg Reg.PORT_BI_STAT_CONFLICTS + 1)
  match s.findSnoop p.val tag.val with
  | none => .next (s.emit (.biConflictAck p.val tag.val))
  | some sn =>
    let s := s.freeSnooped sn
    if s.inFlight sn then
      .next { s with snoops := s.snoops.map (fun x => if x == sn then { x with conflict := true } else x) }
    else .next (s.emit (.biConflictAck p.val tag.val))

/-- BI_TIMEOUT (R209): due 1 ms after the snoop fell due. A line the port owned is poisoned before its loss clears the counts of
HUB_COH_LOST_CNT, so they do not count it (DESIGN CHOICE, log entry 91: the rule does not order the two). -/
def execBiTimeout (p : Fin 8) (tag : Fin 64) (s : State) : Host.Outcome State Fault Refusal :=
  match s.findSnoop p.val tag.val with
  | none => .next s
  | some sn =>
    if s.time < sn.at0 + 1000000 then .next s
    else
      let d := (s.dirGet sn.line).getD (0, 0, 0)
      let s := s.bump 4 Reg.HUB_BI_TIMEOUT_CNT_COUNT Reg.HUB_BI_TIMEOUT_CNT_SAT 1
      let s := if d.2.1 = 2 ∧ d.2.2 = p.val then s.markPoison sn.line else s
      let s := s.raise (67 + 8 * p.val) 0x501 ERROR none (if sn.line < 2 ^ 42 then 64 * sn.line else 0) 0
      .next (((s.snoopDir sn false).loseHost p.val 0).urgUpdate p.val |>.endSnoop sn)

/-! ### The read at the Pier -/

/-- A line captured and checked (R38): its side bits give the directory of a shared line not cached (R198, R201). -/
def State.captured (s : State) (id : Nat) (r : Req) (v : Line) : State :=
  if (s.vi r.vi).shared && r.dir.isNone then
    let s := s.dirLoad r.line (v.sharers, v.dstate, v.owner) false
    let d := (s.dirGet r.line).getD (0, 0, 0)
    let r := { r with dir := some d }
    match r.op with
    | .rd | .rdData =>
      if (wantSnoops r.op (s.askedMv r) r.port (s.caching r) d).isEmpty then
        (s.sample (s.primPier r.da) r).openRead id r (s.dramLine r.da 0 |> fun l => if l.poison then l else v)
      else s.snoopStage id r
    | _ => s.snoopStage id r
  else s.openRead id r v

/-- A burst of a line read (R38): passed, refetched, sent to recomputation, or uncorrectable. -/
def State.burst (s : State) (id : Nat) (r : Req) (att : Nat) (flip : BitVec 640) : State :=
  if s.gone r.da 0 then s.setReq id { r with phase := .recompute, last := none }
  else
    let v := (s.dramLine r.da 0).flip flip
    let s := s.busAt r.da 0 (if att = 0 then .read else .refetch) (if att = 0 then (s.vi r.vi).pagePol else 3) (some (s.reqFlt r))
    match s.check r.vi r.da v with
    | .ok => (if att = 0 then s else s.logCe r.da 0 r.vi 0 r.lds).captured id r v
    | .illegal =>
      ((if att = 0 then s else s.logCe r.da 0 r.vi 0 r.lds).uncorrectable r.da 0 r.vi v 1 false (some r.port) r.lds).deliverPoison
        id r v.data
    | .bad =>
      if att = 0 then s.setReq id { r with phase := .pierRead 1 }
      else
        match s.sources r.da 0 r.vi with
        | .none => (s.uncorrectable r.da 0 r.vi v 0 true (some r.port) r.lds).deliverPoison id r v.data
        | _ => s.setReq id { r with phase := .recompute, last := some v }

/-- The Pier's work on a subchannel can run: its sequencer has a table and is not halted, its clock runs, and no pause or
frequency change holds the channel (R16, R66, R70, R307, R369). -/
def State.pierRuns (s : State) (n sub : Nat) : Bool :=
  s.pierSeq n && !s.gateShut (17 + n) && !(s.pier n).freq && !(s.pier n).pause.testBit sub

/-- A Pier's Viaduct holds its traffic: it retrains or is in its grace period (R292, R296). -/
def State.linkHeld (s : State) (n : Nat) : Bool :=
  let k := s.link n
  3 ≤ max k.tx.st k.rx.st && max k.tx.st k.rx.st ≤ 4

/-- The cipher unit of a Pier can take a line: its gate is open, or the line lies in no key region (R367, R369). -/
def State.cipherOpen (s : State) (n da : Nat) : Bool := !s.gateShut (49 + n) || s.regionId da = 0
/-- The codec unit of a Pier has its clock (R367, R369). -/
def State.codecOpen (s : State) (n : Nat) : Bool := !s.gateShut (33 + n)

/-- The Pier of a line's copy runs and its Viaduct carries traffic; a Pier that is offline holds nothing back. -/
def State.copyRuns (s : State) (da copy : Nat) : Bool :=
  match s.lineMa da copy with
  | some m => s.gone da copy ||
    (s.pierRuns m.hpier m.sub && !s.linkHeld m.pier && !s.linkHeld m.hpier && s.cipherOpen m.pier da)
  | none => true
def State.lineRuns (s : State) (da : Nat) : Bool := s.copyRuns da 0

/-- The Piers of a line's recomputation sources run. -/
def State.sourcesRun (s : State) (da copy seed : Nat) : Bool :=
  match s.sources da copy seed with
  | .none => true
  | .one d c => s.copyRuns d c
  | .many ds => ds.all (fun d => s.copyRuns d 0)

/-- Reads of a subchannel that wait for their burst, as the home released them. -/
def State.readsOn (s : State) (n sub : Nat) : SMap Req :=
  s.reqs.filter (fun x => (x.2.phase == .pierRead 0 || x.2.phase == .pierRead 1) &&
    (match s.lineMa x.2.da 0 with | some m => m.hpier == n && m.sub == sub | none => false))

/-- A read stands in the read queue of its subchannel: 64 lines, the earliest that the home released (R62). -/
def State.readQueued (s : State) (r : Req) : Bool :=
  match s.lineMa r.da 0 with
  | some m => ((s.readsOn m.hpier m.sub).filter (fun x => x.2.arr < r.arr)).length < 64
  | none => true

/-- LINE_BURST (R38). -/
def execLineBurst (id : BitVec 32) (flip : BitVec 640) (s : State) : Host.Outcome State Fault Refusal :=
  match s.req? id.toNat with
  | some r =>
    match r.phase with
    | .pierRead att => if att < 2 && s.lineRuns r.da && s.readQueued r then .next ((s.burst id.toNat r att flip).settle r.port) else .next s
    | _ => .next s
  | none => .next s

/-- A rebuilt line of a request (R42, R205): the copies that its source's fields name, other than the reader's, are recalled, and
the line is rewritten with no directory fields. The spec does not say whether the reader is recalled; the model spares it as R206
does (DESIGN CHOICE, log entry 94). -/
def State.rewriteRebuilt (s : State) (id : Nat) (r : Req) (x : Line) : State :=
  let shared := (s.vi r.vi).shared
  let s := if shared && r.dir.isNone then s.dirLoad r.line (x.sharers, x.dstate, x.owner) true else s
  let x := if shared && x.dstate == 2 && s.lostMask.testBit x.owner
    then ⟨x.data, BitVec.ofNat 128 (2 ^ 40 * setBits x.hi 74 1 1)⟩ else x
  let z := dirless r.vi r.da x
  let d := if shared then (s.dirGet r.line).getD (0, 0, 0) else (0, 0, 0)
  let ports := pick 8 (fun k => d.1.testBit k && !(s.caching r && k == r.port))
  let r := { r with dir := some d }
  if ports.isEmpty then
    let s := s.storeLine r.da 0 z
    match r.op with
    | .rd | .rdData | .wrPtl => s.openRead id r z
    | _ => s.snoopStage id r
  else
    let s := ports.foldl (fun (s : State) (k : Nat) =>
      s.snoopPort k r.line true (some id) (some ((s.vi r.vi).ld, 64 * (r.dpa / 64)))) s
    if s.snooping id r then s.setReq id { r with phase := .snoop, last := some z }
    else
      let s := s.storeLine r.da 0 z
      match r.op with
      | .rd | .rdData => s.openRead id r z
      | _ => s.snoopStage id r

/-- The recomputation of a request's line (R39, R171, R297): of a line whose tag failed under both checks; of a line that cannot be
read where it lives without count or rewrite; else the recovery of R38. -/
def State.recomputeReq (s : State) (id : Nat) (r : Req) (b : Bursts) : State :=
  let tagged := match r.last with
    | some v => if s.check r.vi r.da v = Chk.ok then some v else none
    | none => none
  match tagged with
  | some v =>
    match s.tagSource r.da r.vi (s.readCtr r.da v.keyslot) v b.srcs r.lds with
    | (s, .ok d) => s.deliver id r d false
    | (s, .wait) => s
    | (s, .poison _) => s.deliverPoison id r v.data
  | none =>
    if s.gone r.da 0 then
      match s.recompLine r.da 0 r.vi b.srcs with
      | (s, some x) => s.captured id r x
      | (s, none) => ((s.recallShared r.da (some r.port)).raisePoison r.da 0 r.vi 0 r.lds).deliverPoison id r 0
    else
      match r.last with
      | some v =>
        match s.recompLine r.da 0 r.vi b.srcs with
        | (s, some x) => (s.logCe r.da 0 r.vi 1 r.lds).rewriteRebuilt id r x
        | (s, none) => (s.uncorrectable r.da 0 r.vi v 0 true (some r.port) r.lds).deliverPoison id r v.data
      | none => s.setReq id { r with phase := .pierRead 0 }

/-- RECOMPUTE (R39). -/
def execRecompute (id : BitVec 32) (b : Bursts) (s : State) : Host.Outcome State Fault Refusal :=
  match s.req? id.toNat with
  | some r => if r.phase == .recompute && s.sourcesRun r.da 0 r.vi then .next ((s.recomputeReq id.toNat r b).settle r.port) else .next s
  | none => .next s

/-- COUNTER_REQUEST (R168): the counter Pier answers a read that waited for its counter line, once it is cached. -/
def execCounterRequest (id : BitVec 32) (s : State) : Host.Outcome State Fault Refusal :=
  match s.req? id.toNat with
  | some r =>
    match r.phase, r.last with
    | .pierRead 2, some v => .next ((s.openRead id.toNat r v).settle r.port)
    | _, _ => .next s
  | none => .next s

/-! ### The write at the Pier -/

/-- Lines waiting in a subchannel's write queue (R62). -/
def State.wqFill (s : State) (n sub : Nat) : Nat := ((s.pier n).wq.filter (fun q => q.da / 64 % 2 == sub)).length

/-- A write whose line has no Pier to take it (R76, R297): discarded and completed; an offline Pier refuses it by record, a
rank out of service leaves the line poisoned. -/
def State.writeGone (s : State) (id : Nat) (r : Req) : State :=
  match s.lineMa r.da 0 with
  | none => s.complete id r
  | some m =>
    if s.deadLine m then (s.raisePoison r.da 0 r.vi 0 r.lds).complete id r
    else s.refuseWrite id r (130 + 16 * (if s.offline m.hpier then m.hpier else m.pier)) r.da

/-- A full line enters the write queue, and the mirror's Pier's where the page is mirrored, with the directory fields it will carry,
and is completed (R26, R62, R198). -/
def State.enqueue (s : State) (id : Nat) (r : Req) : State :=
  let s := s.sample (s.primPier r.da) r
  let s := s.applyDir r
  let d := (s.dirGet r.line).getD (0, 0, 0)
  let q : QWrite := ⟨r.da, r.da, r.data, r.poison, r.tier, d.1, d.2.1, d.2.2, r.vi, s.time⟩
  let s := (s.unqueue r.da).pushWrite q
  let s := match (if r.tier = 0 then s.mirrorOf r.da r.vi else none) with
    | some m => if s.gone m 0 then s else (s.unqueue m).pushWrite { q with da := m }
    | none => s
  let s := if r.op == .wr && !r.org.isJob && !r.poison then s.unlistPoison r.port r.ld r.dpa else s
  s.complete id r

/-- The Pier, or the mirror's Pier, accepts a write (R26, R62, R297). -/
def State.acceptWrite (s : State) (id : Nat) (r : Req) (mirror : Bool) : State :=
  let mir := if r.tier = 0 then s.mirrorOf r.da r.vi else none
  let alive := match mir with | some d => !s.gone d 0 | none => false
  if s.gone r.da 0 && !alive then s.writeGone id r
  else
    match s.advance r.da with
    | (s, .refused) => s.refuseWrite id r (137 + 16 * s.primPier r.da) r.da
    | (_, _) =>
      if s.gone r.da 0 then
        if !mirror then s
        else
          match s.writePlain r.da r.vi r.tier r.data r.poison ((s.applyDir r).dirGet r.line |>.getD (0, 0, 0)) with
          | (_, .wait) => s
          | (s', _) => (s'.applyDir r).complete id r
      else
        let at_ := if mirror then mir.getD r.da else r.da
        if mirror && !alive then s
        else
          match s.lineMa at_ 0 with
          | none => s
          | some m =>
            if 128 ≤ s.wqFill m.hpier m.sub || s.gateShut (17 + m.hpier) || s.linkHeld m.hpier || !s.pierSeq m.hpier then s
            else
              let r := if mirror then { r with accM := true } else { r with accP := true }
              if r.accP && (r.accM || !alive) then s.enqueue id r else s.setReq id r

/-- WRITE_QUEUE_ACCEPT (R26). -/
def execWriteQueueAccept (id : BitVec 32) (mirror : Bool) (s : State) : Host.Outcome State Fault Refusal :=
  match s.req? id.toNat with
  | some r =>
    if r.phase == .pierWrite && !r.org.isJob then .next ((s.acceptWrite id.toNat r mirror).settle r.port) else .next s
  | none => .next s

/-- An entry whose fields a full-line write carried is clean; in state 0b00 it is dropped (R198). A running flush goes on (R200). -/
def State.dirClean (s : State) (line : Nat) : State :=
  match SMap.get? s.dir line with
  | some e => (if e.dstate = 0 then { s with dir := SMap.del s.dir line }
              else { s with dir := SMap.put s.dir line { e with dirty := false } } : State).flushStep
  | none => s

/-- One queued write issued to DRAM under the counter its burst takes, both bursts of a mirrored line together (R62, R102, R169); it
stays queued while its counter line is not cached. -/
def State.drainOne (s : State) (q : QWrite) : State :=
  let d := (s.dirGet (q.prim / 64)).getD (q.sharers, q.dstate, q.owner)
  let v := s.vi q.tag
  if !s.cipherOpen (s.primPier q.prim) q.prim then s else
  match s.writePlain q.prim q.tag q.tier q.data q.poison d v.pagePol (some ⟨0, none, some q.tag, v.cls, some q.prim⟩) with
  | (_, .wait) => s
  | (s', .refused) =>
    let s' := s'.unqueue q.prim
    let s' := match s'.mirrorOf q.prim q.tag with
      | some m => s'.unqueue m
      | none => s'
    s'.raiseRefused q.prim
  | (s', .ok) => s'.dirClean (q.prim / 64)

/-- The writes waiting for a subchannel, oldest first. -/
def State.wqOn (s : State) (n sub : Nat) : List QWrite := (s.pier n).wq.filter (fun q => q.da / 64 % 2 == sub)

/-- The writes of a subchannel are due to drain (R62): 96 wait, no read has waited for 500 ns, or the oldest has waited 8 µs. -/
def State.drainDue (s : State) (n sub : Nat) : Bool :=
  96 ≤ s.wqFill n sub || ((s.readsOn n sub).isEmpty && decide ((s.pier n).led.rdAt.getD sub 0 ≤ less (s.time + 1) 500)) ||
    (match (s.wqOn n sub).head? with
      | some q => decide (q.at0 + 8000 ≤ s.time)
      | none => false)

/-- The oldest writes of a subchannel issued, in a batch of at least 32 where so many wait (R62). -/
def State.drain (s : State) (n sub count : Nat) : State :=
  ((s.wqOn n sub).take (max 32 count)).foldl (fun (s : State) (q : QWrite) =>
    if (s.queued q.da).isSome then s.drainOne q else s) s

/-- WRITE_DRAIN (R62). -/
def execWriteDrain (n : Fin 16) (sub : Fin 2) (count : Fin 129) (s : State) : Host.Outcome State Fault Refusal :=
  .next (if s.pierRuns n.val sub.val && s.drainDue n.val sub.val then (s.drain n.val sub.val count.val).release else s)

/-! ### Timeouts (R255) -/

/-- The VI that a request reached: the one it was translated for, else the one whose window its address lies in. -/
def State.reqVi (s : State) (r : Req) : Option Nat :=
  if r.tier = 3 ∧ r.via = 0 then
    (((s.ldev r.port r.ld).decodeHpa r.hpa).map Prod.snd).bind (fun d => s.windowOf r.port r.ld d (fun _ => true))
  else some r.vi

/-- The host's side of a request completed by its port: the home's side goes on where it holds a tracker (R298). -/
def State.timeOut (s : State) (id : Nat) (r : Req) : State :=
  let pg := pgPort r.port
  let s := s.bump pg Reg.PORT_TIMEOUT_CNT_COUNT Reg.PORT_TIMEOUT_CNT_SAT 1
  let s := s.raiseFor (71 + 8 * r.port) 0x607 ERROR (s.reqVi r) 0 0
    (some (r.port, r.ld, none))
  if r.phase.tracked then
    let s' := s.refuseReq id r
    s'.setReq id { r with orphan := true }
  else s.refuseReq id r

/-- REQ_TIMEOUT (R255): due 2 ms after acceptance without an internal answer. -/
def execReqTimeout (id : BitVec 32) (s : State) : Host.Outcome State Fault Refusal :=
  match s.req? id.toNat with
  | some r =>
    if r.org == .host && r.phase != .answered && !r.orphan && decide (r.at0 + 2000000 ≤ s.time) then
      .next ((s.timeOut id.toNat r).settle r.port)
    else .next s
  | none => .next s

end Sys2Proof.Machine
end

