-- ==== Sys2Proof/Machine/Packed.lean ====
section
/-!
DEFINITION. The packed store (R133 to R160): descriptors, T2 reads and writes, sub-block rewrites, stripes and garbage
collection.
-/
namespace Sys2Proof.Machine

/-! ### Descriptors (R140 to R142) -/

/-- The copy Pier of a descriptor. -/
def State.copyPier (s : State) (x : Nat) : Nat :=
  match s.decode (s.descDa x) with
  | some l => l.copy.getD l.prim
  | none => 0

/-- A descriptor entered in its descriptor Pier's cache of 8,192 (R140); which one leaves a full cache is open. -/
def State.descFill (s : State) (x : Nat) (d : BitVec 512) : State :=
  let n := s.descPier x
  let c := (s.pier n).dcache
  if (SMap.get? c x).isSome || c.length < 8192 then s.setPier n { (s.pier n) with dcache := SMap.put c x d }
  else
    let v := (List.getD c (Config.victim s.free % 8192) (x, d)).1
    (s.setPier n { (s.pier n) with dcache := SMap.put (SMap.del c v) x d }).tick

/-- A descriptor read at its descriptor Pier: from its cache, else the metadata line by R38 (R140, R150). -/
def State.descRead (s : State) (x : Nat) (b : Bursts) : State × PRes :=
  match SMap.get? (s.pier (s.descPier x)).dcache x with
  | some d => (s, .ok d)
  | none =>
    match s.metaRead (s.descDa x) b with
    | (s, .ok d) => (s.descFill x d, .ok d)
    | a => a

/-- A descriptor as it is read now, with clean bursts. -/
def State.descPeek (s : State) (x : Nat) : Option Nat :=
  match (s.descRead x {}).2 with
  | .ok d => some d.toNat
  | _ => none

/-- A descriptor can be read and written now (R167, R168). -/
def State.descReady (s : State) (x : Nat) : Bool := s.metaReady (s.descDa x)

/-- A descriptor written through to both copies (R140); where its counter refuses the write, the refusal is reported (R177). -/
def State.descWrite (s : State) (x d : Nat) : State :=
  let cached := (SMap.get? (s.pier (s.descPier x)).dcache x).isSome
  match s.metaWrite (s.descDa x) (BitVec.ofNat 512 d) with
  | (s, .refused) => s.raiseRefused (s.descDa x)
  | (s, _) => if cached then s.descFill x (BitVec.ofNat 512 d) else s

/-- What the check of a descriptor for a VI answers (R142): valid, of no such page, or inconsistent. -/
inductive DescChk where
  | ok | foreign | invalid
  deriving DecidableEq, Repr

def State.descCheck (s : State) (d vi : Nat) : DescChk :=
  if !descUsed d || descVi d != vi then .foreign
  else if descClean d && (List.range 4).all (fun i => s.recOk (descRec d i)) then .ok
  else .invalid

/-- A descriptor's records. -/
def descRecs (d : Nat) : List SbRec := (List.range 4).map (descRec d)

/-- A descriptor with one record changed and GEN incremented (R141, R152). -/
def descPut (d i : Nat) (r : SbRec) (crc : Nat) : Nat :=
  descPack (descVi d) (descGen d + 1) crc (descUsed d) ((descRecs d).set i r)

/-! ### Stripes (R145 to R149) -/

/-- The key region a VI's pages lie in. -/
def Vi.regionId (v : Vi) : Nat := if v.keyEn then v.keySlot + 1 else 0

/-- DA of data sector q of the stripe at a base (R146). -/
def State.dataSectorDa (s : State) (base q : Nat) : Nat :=
  match s.stripeBase (base / 256) with
  | some (i, b) =>
    let p := s.parityMember i b
    let u := q / 16
    b + 0x1000 * (u + (if p ≤ u then 1 else 0)) + 0x100 * (q % 16)
  | none => base

/-- The open stripe of a base at its owner. -/
def State.openStripe (s : State) (base : Nat) : Option OpenStripe :=
  ((s.pier (s.stripeOwner base)).open_).find? (fun o => o.base == base)

/-- A Pier's open stripe replaced. -/
def State.setOpen (s : State) (n : Nat) (o : OpenStripe) : State :=
  let p := s.pier n
  s.setPier n { p with open_ := p.open_.map (fun x => if x.base == o.base then o else x) }

/-- LIVE of a stripe changed; an empty written stripe returns to FREE (R149, R155). -/
def State.addLive (s : State) (base n : Nat) : State :=
  let k := base / 65536
  s.setStripe k { (s.stripe k) with live := (s.stripe k).live + n }
def State.subLive (s : State) (sector n : Nat) : State :=
  match s.stripeBase sector with
  | none => s
  | some (_, b) =>
    let k := b / 65536
    let st := s.stripe k
    let live := st.live - n
    if live = 0 ∧ 2 ≤ st.st then s.setStripe k Stripe.blank else s.setStripe k { st with live := live }

/-- A stripe closed to further placements (R147): its unfilled sectors are zeros, counted as dead. -/
def State.closeStripe (s : State) (n : Nat) (o : OpenStripe) : State :=
  if o.closed then s
  else
    let s := s.setOpen n { o with closed := true }
    if o.used < 240 then s.raise (136 + 16 * n) 0x305 INFO none o.base 0 else s

/-- A free stripe of a region taken from a Pier's queue and opened. -/
def State.openNew (s : State) (n region : Nat) : Option (State × OpenStripe) :=
  let p := s.pier n
  match p.freeQ.find? (fun b => s.regionId b == region) with
  | none => none
  | some b =>
    if 16 ≤ p.open_.length then none
    else
      let o : OpenStripe := ⟨b, region, 0, [], [], s.time, false⟩
      let s := s.setPier n { p with freeQ := p.freeQ.erase b, open_ := p.open_ ++ [o] }
      some (s.setStripe (b / 65536) ⟨0, 1, false, false, []⟩, o)

/-- Sectors placed in a Pier's open stripe of a region (R147): the lines go to the stripe buffer, the start entry to the
summary, LIVE rises. A stripe without room for them is closed. The answer is the first sector, or none where no stripe of the region
is queued. -/
def State.place (s : State) (n region cnt desc sb : Nat) (ls : List (BitVec 512 × Bool)) : State × Option Nat :=
  let cur := (s.pier n).open_.find? (fun o => o.region == region && !o.closed)
  let full := match cur with | some o => decide (240 < o.used + cnt) | none => false
  let s := match cur with
    | some o => if full then s.closeStripe n o else s
    | none => s
  match (match cur with | some o => if full then s.openNew n region else some (s, o) | none => s.openNew n region) with
  | none => (s, none)
  | some (s, o) =>
    let q := o.used
    let o' := { o with used := q + cnt, at0 := (if q = 0 then s.time else o.at0),
                       lines := o.lines ++ (ls.zipIdx.map (fun x => (4 * q + x.2, x.1.1, x.1.2))),
                       starts := o.starts ++ [(q, desc, sb)] }
    let k := o.base / 65536
    let s := s.setOpen n o'
    let s := s.setStripe k { (s.stripe k) with live := (s.stripe k).live + cnt, starts := (s.stripe k).starts ++ [(q, desc, sb)] }
    let s := if o'.used = 240 ∨ s.fld (pgPier n) Reg.PIER_CODEC_CTL_STRIPE_CLOSE_US = 0 then s.closeStripe n o' else s
    (s, some (s.dataSectorDa o.base q / 256))

/-- A sector line as a T2 access reads it: from the stripe buffer while its stripe is not written (R147), else by R38. A stripe whose
buffer went with its Pier reads as poison (R157). -/
def State.sectorRead (s : State) (req : ReqFrom) (da : Nat) (b : Bursts) : State × PRes :=
  match s.stripeBase (da / 256) with
  | none => (s, .poison 0)
  | some (_, base) =>
    match s.openStripe base with
    | some o =>
      match s.dataSector (da / 256) with
      | none => (s, .poison 0)
      | some q =>
        match o.lines.find? (fun x => x.1 == 4 * q + da / 64 % 4) with
        | some (_, d, p) => (s, if p then .poison d else .ok d)
        | none => (s, .ok 0)
    | none => if (s.stripe (base / 65536)).st = 1 then (s, .poison 0) else s.readPlain da 0 b req

/-- Lines of a run read in order; a wait anywhere is a wait of the whole. -/
def State.sectorReads (s : State) (req : ReqFrom) : List Nat → List Bursts → State × Option (List (BitVec 512 × Bool))
  | [], _ => (s, some [])
  | da :: t, bs =>
    match s.sectorRead req da (bs.headD {}) with
    | (_, .wait) => (s, none)
    | (s1, r) =>
      match State.sectorReads s1 req t bs.tail with
      | (_, none) => (s, none)
      | (s2, some ls) => (s2, some ((match r with | .ok d => (d, false) | .poison d => (d, true) | .wait => (0, true)) :: ls))

/-- Bytes of a line. -/
def lineBytes (d : BitVec 512) : List Nat := leBytes 64 d.toNat
/-- A line from 64 bytes. -/
def bytesLine (bs : List Nat) : BitVec 512 := BitVec.ofNat 512 (ofLe (bs.take 64))
/-- 64-byte pieces of a byte string as lines. -/
def toLines (n : Nat) (bs : List Nat) : List (BitVec 512) := (List.range n).map (fun i => bytesLine (bs.drop (64 * i)))

/-- What reading a sub-block answers: its sixteen lines with their poison, nothing decodable, or a wait. -/
inductive SubRes where
  | lines (ls : List (BitVec 512 × Bool))
  | lost
  | wait
  deriving DecidableEq, Repr

/-- The sector lines a record's stream takes. -/
def State.recLines (s : State) (r : SbRec) : List Nat :=
  (List.range (if r.raw then 16 else ceilDiv r.len 64)).map (fun j => s.sectorLine r.sector j)

/-- The Pier that decodes a record: the one that holds its first sector (R150). -/
def State.recPier (s : State) (r : SbRec) : Nat := s.primPier (256 * r.sector)

/-- The sector lines recomputed from parity after a rejected stream (R136): rewritten as recovered lines where they decode. -/
def State.recompStream (s : State) (das : List Nat) (bs : List Bursts) : State × Option (List Line) :=
  match das with
  | [] => (s, some [])
  | da :: t =>
    match s.recompLine da 0 0 (bs.headD {}).srcs with
    | (s, none) => (s, none)
    | (s, some l) =>
      match State.recompStream s t bs.tail with
      | (s, some ls) => (s, some (l :: ls))
      | (s, none) => (s, none)

/-- A codec's work as the filters of R340 see it: that of a host request, or engine work for a VI. -/
def State.codecFlt (s : State) (vi : Nat) (req : ReqFrom) : Flt :=
  ⟨if req.isSome then 0 else 2, req.map (fun x => x.1), some vi, if req.isSome then (s.vi vi).cls else 7, none⟩

/-- A compressed record decoded up to a stop (R136, R139, R143), with the forced recomputation of a rejected stream. -/
def State.decodeRec (s : State) (vi : Nat) (req : ReqFrom) (r : SbRec) (stop : Nat) (bs : List Bursts) : State × SubRes :=
  let das := s.recLines r
  let n := s.recPier r
  match s.sectorReads req das bs with
  | (_, none) => (s, .wait)
  | (s, some ls) =>
    if ls.any (fun x => x.2) then (s, .lost)
    else
      match inflate (ls.flatMap (fun x => lineBytes x.1)) r.len stop with
      | some (out, _) =>
        (s.telPier n 0x17 (min 1024 stop) (some (s.codecFlt vi req)), .lines ((toLines 16 (out ++ List.replicate 1024 0)).map (fun l => (l, false))))
      | none =>
        let s := s.bump (pgPier n) Reg.PIER_DEC_ERR_CNT_COUNT Reg.PIER_DEC_ERR_CNT_SAT 1
        match s.recompStream das bs with
        | (s1, some xs) =>
          let pl := (das.zip xs).map (fun x => s1.decrypt x.1 (s1.readCtr x.1 x.2.keyslot) x.2.data)
          match inflate (pl.flatMap lineBytes) r.len stop with
          | some (out, _) =>
            if xs.any (fun l => l.poison) then (s1.raise (135 + 16 * n) 0x300 ERROR (some vi) (256 * r.sector) 0, .lost)
            else
              let s2 := (das.zip xs).foldl (fun (s : State) (x : Nat × Line) => (s.logCe x.1 0 0 1 req).storeLine x.1 0 x.2) s1
              (s2, .lines ((toLines 16 (out ++ List.replicate 1024 0)).map (fun l => (l, false))))
          | none => (s1.raise (135 + 16 * n) 0x300 ERROR (some vi) (256 * r.sector) 0, .lost)
        | (s1, none) => (s1.raise (135 + 16 * n) 0x300 ERROR (some vi) (256 * r.sector) 0, .lost)

/-- A sub-block read whole (R133, R143): zeros, the raw lines one by one, or the decoded stream. -/
def State.readSub (s : State) (vi : Nat) (r : SbRec) (bs : List Bursts) : State × SubRes :=
  if r.len = 0 then (s, .lines (List.replicate 16 (0, false)))
  else if r.raw then
    match s.sectorReads none (s.recLines r) bs with
    | (s, some ls) => (s, .lines ls)
    | (s, none) => (s, .wait)
  else s.decodeRec vi none r 2048 bs

/-! ### Write-buffer entries (R151) -/

/-- The lines of an entry laid over those of a sub-block; a full line takes its own poison, a partial one keeps the old. -/
def wbufOver (ls : List (BitVec 512 × Bool)) (w : List (Nat × BitVec 512 × BitVec 64 × Bool)) : List (BitVec 512 × Bool) :=
  ls.zipIdx.map (fun (x : (BitVec 512 × Bool) × Nat) => match w.find? (fun y => y.1 == x.2) with
    | some (_, d, m, p) => (mergeBytes x.1.1 d m, if m = BitVec.allOnes 64 then p else x.1.2 || p)
    | none => x.1)

/-- A descriptor's entries and shadows dropped. -/
def State.wbufDrop (s : State) (d : Nat) (sb : Option Nat) : State :=
  let hit := fun (w : WBuf) => w.desc == d && (match sb with | some i => w.sb == i | none => true)
  let s := (List.range 16).foldl (fun (s : State) (n : Nat) =>
    if (s.pier n).wbuf.any hit then s.setPier n { (s.pier n) with wbuf := (s.pier n).wbuf.filter (fun w => !hit w) } else s) s
  { s with shadows := SMap.drop' s.shadows (fun k => k / 4 == d && (match sb with | some i => k % 4 == i | none => true)) }

/-! ### Freeing (R117, R122, R130) -/

/-- A descriptor freed: its sectors become dead, USED clears, its heat, buffered writes and directory entries go (R213). -/
def State.freeDesc (s : State) (x : Nat) : State :=
  let s := match s.descPeek x with
    | some d => (descRecs d).foldl (fun (s : State) (r : SbRec) => if r.cnt = 0 then s else s.subLive r.sector r.cnt) s
    | none => s
  let s := (s.descWrite x 0).wbufDrop x none
  { s with heat := SMap.del s.heat (2 ^ 40 + x),
           dir := SMap.drop' s.dir (fun l => decide (2 ^ 42 ≤ l) && less l (2 ^ 42) / 64 == x) }

/-- A frame freed: its owner map entry and its heat are cleared, and the directory entries of its lines dropped (R36, R113,
R213). -/
def State.freeFrame (s : State) (f : Nat) : State :=
  { s with owner := SMap.put s.owner f 65536, heat := SMap.del s.heat f, coolAt := SMap.del s.coolAt f, dir := SMap.drop' s.dir (fun l => l / 64 == f) }

/-- A frame freed, and its partner with it where the two hold a page and its mirror (R110). -/
def State.freePair (s : State) (f : Nat) : State :=
  match s.mirrorDa (4096 * f) with
  | some m =>
    if s.paired f (m / 4096) then
      { (s.freeFrame f).freeFrame (m / 4096) with pairs := SMap.del s.pairs (min f (m / 4096)) }
    else s.freeFrame f
  | none => s.freeFrame f

/-- The backing that a leaf names freed, where the VI still owns it. -/
def State.freeLeaf (s : State) (t e via : Nat) : State :=
  match leafTier e with
  | 2 => s.freeDesc (leafAddr e)
  | 3 => s
  | _ =>
    let f := leafDa e 1 (4096 * (via / 4096)) / 4096
    if s.ownerOf f = some t then s.freePair f else s

/-- The leaf of a page can be written now (R167, R168). -/
def State.leafReady (s : State) (t page : Nat) : Bool :=
  match s.findLeaf t (4096 * page) with
  | some (da, _, _) => s.metaReady da
  | none => true

/-- A page whose elastic write finds no space (R130): the leaf is written with V = 0 and SW = 0xF and invalidated, its
backing is freed, and CAP_EXHAUSTED raised. How the VI tag and the VIA stand in the record's DETAIL is open: the 2 bytes of the tag
and then the 6 bytes of the page number VIA[56:12] (DESIGN CHOICE, log entry 96). -/
def State.exhaustPage (s : State) (t page : Nat) : State :=
  let via := 4096 * page
  match s.findLeaf t via with
  | none => s
  | some (da, _, e) =>
    match s.casEntry da e (0xF * 2 ^ 60) {} with
    | (s, false) => s
    | (s, true) =>
      let s := (s.invalidate t page 1 false).markDirty t page
      let s := if leafV e then s.freeLeaf t e via else s
      s.raise 12 0x20E FATAL (some t) 0 (detail (leBytes 2 t ++ leBytes 6 page))

/-! ### T2 reads (R143, R150) -/

/-- A T2 request refused because its descriptor is not this VI's, or is inconsistent or lost (R87, R142). -/
def State.descRefuse (s : State) (id : Nat) (r : Req) (chk : DescChk) : State :=
  if r.org = .home then s.dropReq id
  else
  let s := if chk = .foreign then
      s.raiseFor (66 + 8 * r.port) 0x201 ERROR (some r.vi) r.walkDa (1 + 256 * b2n r.op.rwd + 65536 * (r.via / 4096)) r.lds
    else s.raiseFor (135 + 16 * s.descPier r.da) 0x303 ERROR (some r.vi) (s.descDa r.da) 0 r.lds
  s.refuseReq id r

/-- The quarter of its page that a request's line lies in. -/
def Req.sub (r : Req) : Nat := r.via / 64 % 64 / 16
/-- The line's number in its sub-block. -/
def Req.subLine (r : Req) : Nat := r.via / 64 % 16

/-- T2_LINE_READ at the descriptor Pier: USED and the VI tag are checked (R150 step 3), then the line comes from a write-buffer
entry (R151), from a zero record, or from the sectors. -/
def State.t2Resolve (s : State) (id : Nat) (r : Req) (b : Bursts) : State :=
  match s.descRead r.da b with
  | (_, .wait) => s
  | (s, .poison _) => s.descRefuse id r .invalid
  | (s, .ok d) =>
    match s.descCheck d.toNat r.vi with
    | .ok =>
      let w := match s.wbufEnt r.da r.sub with | some w => w.lines | none => []
      match w.find? (fun x => x.1 == r.subLine && x.2.2.1 == BitVec.allOnes 64) with
      | some (_, d, _, p) => s.deliver id r d p
      | none =>
        let s := s.sample (s.descPier r.da) r
        if (descRec d.toNat r.sub).len = 0 then
          let x := (wbufOver (List.replicate 16 (0, false)) w).getD r.subLine (0, false)
          s.deliver id r x.1 x.2
        else s.setReq id { r with phase := .t2sub }
    | c => s.descRefuse id r c

/-- T2_LINE_READ (R143). -/
def execT2LineRead (id : BitVec 32) (b : Bursts) (s : State) : Host.Outcome State Fault Refusal :=
  match s.req? id.toNat with
  | some r => if r.phase == .t2desc then .next ((s.t2Resolve id.toNat r b).settle r.port) else .next s
  | none => .next s

/-- One line of a record read for a host (R143): the raw line itself, or the stream decoded as far as the line. -/
def State.recLine (s : State) (vi : Nat) (req : ReqFrom) (rec_ : SbRec) (ln : Nat) (bs : List Bursts) : State × SubRes :=
  if rec_.len = 0 then (s, .lines (List.replicate 16 (0, false)))
  else if rec_.raw then
    match s.sectorRead req (s.sectorLine rec_.sector ln) (bs.headD {}) with
    | (_, .wait) => (s, .wait)
    | (s, .ok d) => (s, .lines ((List.replicate 16 (0, false)).set ln (d, false)))
    | (s, .poison d) => (s, .lines ((List.replicate 16 (0, false)).set ln (d, true)))
  else s.decodeRec vi req rec_ (64 * ln + 64) bs

/-- SUBBLOCK_DECODE (R136). -/
def execSubblockDecode (id : BitVec 32) (bs : List Bursts) (s : State) : Host.Outcome State Fault Refusal :=
  match s.req? id.toNat with
  | some r =>
    if r.phase != .t2sub then .next s
    else
      match s.descRead r.da {} with
      | (_, .wait) => .next s
      | (s, .poison _) => .next ((s.descRefuse id.toNat r .invalid).settle r.port)
      | (s, .ok d) =>
        let x := descRec d.toNat r.sub
        if !x.raw && !s.codecOpen (s.recPier x) then .next s else
        match s.recLine r.vi r.lds x r.subLine bs with
        | (_, .wait) => .next s
        | (s, .lost) => .next ((s.deliver id.toNat r 0 true).settle r.port)
        | (s, .lines ls) =>
          let x := (wbufOver ls (match s.wbufEnt r.da r.sub with | some w => w.lines | none => [])).getD r.subLine (0, false)
          .next ((s.deliver id.toNat r x.1 x.2).settle r.port)
  | none => .next s

/-! ### T2 writes (R151) -/

/-- A T2 write merged into its entry and completed, with the shadow at the copy Pier. -/
def State.t2Accept (s : State) (id : Nat) (r : Req) : State :=
  let s := s.wbufPut r.da r.sub (if r.org = .home then none else some (r.via / 4096)) r.subLine r.data r.mask r.poison
  if r.org = .home then s.dropReq id
  else
    let s := if r.op == .wr && !r.org.isJob then s.unlistPoison r.port r.ld r.dpa else s
    ((s.sample (s.descPier r.da) r).applyDir r).complete id r

/-- T2_WRITE (R151): the descriptor Pier accepts where it has an entry to give, its copy Pier beside it. A host's write meets the
check of the descriptor (R142). -/
def execT2Write (id : BitVec 32) (copy : Bool) (s : State) : Host.Outcome State Fault Refusal :=
  match s.req? id.toNat with
  | some r =>
    if r.phase != .t2write then .next s
    else
      match s.descRead r.da {} with
      | (_, .wait) => .next s
      | (s, .poison _) => .next ((s.descRefuse id.toNat r .invalid).settle r.port)
      | (s, .ok d) =>
        match s.descCheck d.toNat (if r.org = .home then descVi d.toNat else r.vi) with
        | .ok =>
          if !copy && !r.accP && !s.wbufRoom r.da r.sub then .next s
          else
            let r := if copy then { r with accM := true } else { r with accP := true }
            let lone := s.offline (s.primPier (s.descDa r.da)) || s.offline (s.copyPier r.da)
            if (r.accP || (lone && s.wbufRoom r.da r.sub)) && (r.accM || lone) then .next ((s.t2Accept id.toNat r).settle r.port)
            else .next (s.setReq id.toNat r)
        | c => .next ((s.descRefuse id.toNat r c).settle r.port)
  | none => .next s

/-! ### Sub-block rewrite (R134 to R139, R152) -/

/-- CODE_MODE in effect for a VI: a context of 1 or 2 forces its own (R137, R216). -/
def State.codeMode (s : State) (n vi : Nat) : Nat :=
  let m := (s.vi vi).codeMode
  if m = 1 ∨ m = 2 then m else let c := s.fld (pgPier n) Reg.PIER_CODEC_CTL_CODE_MODE; if c = 3 then 0 else c

/-- A verify mismatch on a Pier (R138): counted and raised; the sixteenth within a second takes a compressor out of use. Which of the
two compressors took the sub-block is open: the model charges compressor 0 until it is out of use, then compressor 1 (DESIGN CHOICE,
log entry 88). -/
def State.verifyFail (s : State) (n vi : Nat) : State :=
  let pg := pgPier n
  let s := (s.bump pg Reg.PIER_VFY_CNT_COUNT Reg.PIER_VFY_CNT_SAT 1).raise (135 + 16 * n) 0x301 WARN (some vi) 0 0
  let c := if s.flag pg Reg.PIER_CODEC_CTL_COMP0_OFF then 1 else 0
  let p := s.pier n
  let ts := (c, s.time) :: p.vfyTimes.filter (fun x => decide (s.time < x.2 + 1000000000))
  let s := s.setPier n { p with vfyTimes := ts }
  if 16 ≤ (ts.filter (fun x => x.1 == c)).length then
    let s := s.put pg (if c = 0 then Reg.PIER_CODEC_CTL_COMP0_OFF else Reg.PIER_CODEC_CTL_COMP1_OFF) 1
    (s.setPier n { (s.pier n) with vfyTimes := ts.filter (fun x => x.1 != c) }).raise (135 + 16 * n) 0x302 ERROR none 0 0
  else s

/-- A Pier compresses a sub-block: it holds no poisoned line and not only zeros, and a compressor is in use (R134, R138, R139). -/
def State.compresses (s : State) (n : Nat) (ls : List (BitVec 512 × Bool)) : Bool :=
  !ls.any (fun x => x.2) && !(ls.all (fun x => x.1 == 0)) &&
    !(s.flag (pgPier n) Reg.PIER_CODEC_CTL_COMP0_OFF && s.flag (pgPier n) Reg.PIER_CODEC_CTL_COMP1_OFF)

/-- A stream is one that a Pier's compressor puts out for a sub-block of a VI, where it compresses it (R135, R137). -/
def State.emitOk (s : State) (n vi : Nat) (ls : List (BitVec 512 × Bool)) (stream : List Nat) : Bool :=
  !s.compresses n ls || canEmit (s.codeMode n vi) (ls.flatMap (fun x => lineBytes x.1)) stream

/-- How a sub-block is stored (R133, R134, R138, R139): form of the record without its sector, with the lines to place. -/
def State.storeForm (s : State) (n : Nat) (vi : Nat) (ls : List (BitVec 512 × Bool)) (stream : List Nat) :
    State × SbRec × List (BitVec 512 × Bool) :=
  let raw : SbRec := ⟨1024, true, false, 4, 0⟩
  let rawOf := fun (s : State) => (s.bump (pgPier n) Reg.PIER_RAW_CNT_COUNT Reg.PIER_RAW_CNT_SAT 1, raw, ls)
  if !s.compresses n ls then
    (if !ls.any (fun x => x.2) && ls.all (fun x => x.1 == 0) then (s, ⟨0, false, false, 0, 0⟩, []) else rawOf s)
  else
    let s := s.telPier n 0x18 1024 (some (s.codecFlt vi none))
    if 768 < stream.length then rawOf s
    else
      match inflateAll stream stream.length with
      | some (out, dyn) =>
        if out = ls.flatMap (fun x => lineBytes x.1) then
          let cnt := ceilDiv stream.length 256
          (s, ⟨stream.length, false, dyn, cnt, 0⟩,
            (toLines (4 * cnt) (stream ++ List.replicate (256 * cnt) 0)).map (fun l => (l, false)))
        else rawOf (s.verifyFail n vi)
      | none => rawOf (s.verifyFail n vi)

/-- Live sectors and sector capacity of a region in the packed store (R129, R148). -/
def State.regionLive (s : State) (region : Nat) : Nat :=
  (s.stripes.map (fun x => if s.regionId (65536 * x.1) = region then x.2.live else 0)).sum
def State.regionCap (s : State) (region : Nat) : Nat :=
  ((List.range 8).map (fun i => if s.psSpan i then
    240 * (16384 * ((List.range (s.spanSize i / 2 ^ 30)).filter (fun g => s.regionId (s.spanBase i + 2 ^ 30 * g) == region)).length)
    else 0)).sum

/-- A page lies in its VI's elastic part (R122). -/
def Vi.elastic (v : Vi) (page : Nat) : Bool := 262144 * v.assuredG ≤ page

/-- The page CRC after a rewrite (R144): old XOR new at the written lines; afresh where the old bytes cannot be decoded. -/
def crcDelta (crc sb : Nat) (old new : List (BitVec 512 × Bool)) : Nat :=
  crc ^^^ crc32c (List.replicate (1024 * sb) 0 ++ (old.zip new).flatMap (fun x => lineBytes (x.1.1 ^^^ x.2.1))
    ++ List.replicate (1024 * (3 - sb)) 0)

/-- The whole page's lines, sub-block by sub-block; a sub-block that cannot be decoded counts with zero bytes held. -/
def State.readPage (s : State) (vi : Nat) : List SbRec → List Bursts → State × Option (List (List (BitVec 512 × Bool)))
  | [], _ => (s, some [])
  | r :: t, bs =>
    let n := (if r.len = 0 then 0 else (s.recLines r).length)
    match s.readSub vi r (bs.take n) with
    | (_, .wait) => (s, none)
    | (s1, x) =>
      match State.readPage s1 vi t (bs.drop n) with
      | (_, none) => (s, none)
      | (s2, some ls) =>
        (s2, some ((match x with | .lines l => l | _ => List.replicate 16 (0, true)) :: ls))

/-- The record placed and the descriptor written (R152). -/
def State.commitSub (s : State) (x sb d : Nat) (old new : SbRec) (first crc : Nat) : State :=
  let r := if new.cnt = 0 then new else { new with sector := first }
  let s := s.descWrite x (descPut d sb r crc)
  let s := if old.cnt = 0 then s else s.subLive old.sector old.cnt
  s.wbufDrop x (some sb)

/-- PAGE_CRC after a rewrite (R144): by the change of the written lines, or afresh over the whole new page where the old sub-block
cannot be decoded; none while a line of the other sub-blocks waits for its counter. -/
def State.newCrc (s : State) (d sb : Nat) (old : Option (List (BitVec 512 × Bool))) (ls : List (BitVec 512 × Bool)) (bs : List Bursts) :
    Option Nat :=
  match old with
  | some base => some (crcDelta (descCrc d) sb base ls)
  | none =>
    match s.readPage (descVi d) ((descRecs d).set sb ⟨0, false, false, 0, 0⟩) bs with
    | (_, some pgs) => some (crc32c ((pgs.set sb ls).flatMap (fun l => l.flatMap (fun y => lineBytes y.1))))
    | (_, none) => none

/-- Placement and commit; a rewrite that finds no stripe of its region waits, and in coast is discarded (R152, R153). -/
def State.finishSub (s s1 : State) (w : WBuf) (d : Nat) (new : SbRec) (pl : List (BitVec 512 × Bool)) (crc : Nat) : State :=
  let x := w.desc
  let n := s.descPier x
  let orec := descRec d w.sb
  let rg := (s.vi (descVi d)).regionId
  if new.cnt = 0 then s1.commitSub x w.sb d orec new 0 crc
  else
    match s1.place n rg new.cnt x w.sb pl with
    | (s2, some first) => s2.commitSub x w.sb d orec new first crc
    | (_, none) =>
      if s.coast then (s.wbufDrop x (some w.sb)).raise (136 + 16 * n) 0x306 FATAL (some (descVi d)) (s.descDa x) 0
      else (s.place n rg new.cnt x w.sb pl).1

/-- The rewrite of an entry's sub-block from its old lines (R129, R130, R152, R153); it waits while a line it needs waits for its
counter. -/
def State.rewriteSub (s : State) (w : WBuf) (d : Nat) (old : Option (List (BitVec 512 × Bool))) (bs : List Bursts)
    (stream : List Nat) : State :=
  let x := w.desc
  let t := descVi d
  let n := s.descPier x
  let v := s.vi t
  let ls := wbufOver (old.getD (List.replicate 16 (0, true))) w.lines
  let orec := descRec d w.sb
  if !s.emitOk n t ls stream then s
  else
    let (s1, new, pl) := s.storeForm n t ls stream
    let grow := orec.cnt < new.cnt &&
      decide (s.pol 0x204 * s.regionCap v.regionId < 100 * (s.regionLive v.regionId + new.cnt - orec.cnt))
    match (if grow && !s.coast then (w.page.or (s.pageNaming v true x)).filter (fun pg => v.elastic pg) else none) with
    | some pg => if s.leafReady t pg then (s.wbufDrop x (some w.sb)).exhaustPage t pg else s
    | none =>
      match s.newCrc d w.sb old ls bs with
      | some crc => s.finishSub s1 w d new pl crc
      | none => s

/-- SUBBLOCK_REWRITE (R152). A page whose descriptor has become invalid loses the write (R142). -/
def execSubblockRewrite (d : BitVec 40) (sb : Fin 4) (bs : List Bursts) (stream : List (BitVec 8)) (s : State) :
    Host.Outcome State Fault Refusal :=
  match s.wbufEnt d.toNat sb.val with
  | none => .next s
  | some w =>
    match s.descRead d.toNat {} with
    | (_, .wait) => .next s
    | (s, .poison _) => .next (s.wbufDrop d.toNat (some sb.val))
    | (s, .ok x) =>
      if s.descCheck x.toNat (descVi x.toNat) != .ok then .next (s.wbufDrop d.toNat (some sb.val))
      else if !s.descReady d.toNat || !s.codecOpen (s.descPier d.toNat) then .next s
      else
        match s.readSub (descVi x.toNat) (descRec x.toNat sb.val) bs with
        | (_, .wait) => .next s
        | (s, .lines ls) => .next ((s.rewriteSub w x.toNat (some ls) (bs.drop 16) (nats stream)).release)
        | (s, .lost) => .next ((s.rewriteSub w x.toNat none (bs.drop 16) (nats stream)).release)

/-! ### Closing and writing stripes (R147) -/

/-- A move or a relocation waits on sectors of an open stripe (R147, R155). -/
def State.stripeWanted (s : State) (o : OpenStripe) : Bool :=
  o.starts.any (fun x =>
    (match SMap.get? s.relocs (4 * x.2.1 + x.2.2) with
      | some j => j.dst == some (s.dataSectorDa o.base x.1 / 256)
      | none => false) ||
    s.moves.any (fun m => match m.dest with | .desc d => d.toNat == x.2.1 | _ => false))

/-- Deep Sleep, Off or a warm reset is being entered (R147). -/
def State.storeEnds (s : State) : Bool := s.pwr.warm || ((s.pwr.trans = 1 || s.pwr.trans = 2) && 3 ≤ s.pwr.target)

/-- An open stripe is to be closed (R147): STRIPE_CLOSE_US has passed since its first placement, a move or a relocation waits on it,
or a low-power entry or a warm reset empties the store. The other cases of R147 close it as sectors are placed. -/
def State.stripeDue (s : State) (n : Nat) (o : OpenStripe) : Bool :=
  decide (o.at0 + 1000 * s.fld (pgPier n) Reg.PIER_CODEC_CTL_STRIPE_CLOSE_US ≤ s.time) || s.stripeWanted o || s.storeEnds

/-- STRIPE_CLOSE (R147). -/
def execStripeClose (n : Fin 16) (stripe : BitVec 32) (s : State) : Host.Outcome State Fault Refusal :=
  match (s.pier n.val).open_.find? (fun o => o.base == 65536 * stripe.toNat) with
  | some o => .next (if s.offline n.val || !s.stripeDue n.val o then s else s.closeStripe n.val o)
  | none => .next s

/-- A sector line sealed under a new counter and written where its Pier takes it; the answer is the line as the parity covers it:
the old one where the counter refuses the write (R177). None while the counter line is not cached. -/
def State.writeSector (s : State) (da : Nat) (d : BitVec 512) (p : Bool) : Option (State × Line) :=
  match s.advance da with
  | (_, .wait) => none
  | (s, .refused) => some (s.raiseRefused da, s.dramLine da 0)
  | (s, a) =>
    let s := s.unqueue da
    let l := s.sealLine 0 da a d p false 2 0 0 0
    some (if s.gone da 0 then s else s.storeLine da 0 l, l)

/-- The data lines of a closed stripe written in turn; none when a counter line is not cached. -/
def State.writeLines (s : State) : List (Nat × BitVec 512 × Bool) → Option (State × List (Nat × Line))
  | [] => some (s, [])
  | (da, d, p) :: t =>
    match s.writeSector da d p with
    | none => none
    | some (s, l) => (State.writeLines s t).map (fun x => (x.1, (da, l) :: x.2))

/-- The parity unit of a stripe over its data lines: their XOR at each unit offset, over ciphertext and side bits (R32, R147). -/
def State.writeParity (s : State) (i b : Nat) (ls : List (Nat × Line)) : State :=
  (List.range 64).foldl (fun (s : State) (j : Nat) =>
    let xs := (ls.filter (fun x => x.1 / 64 % 64 == j)).map Prod.snd
    let da := b + 0x1000 * s.parityMember i b + 64 * j
    if s.gone da 0 then s
    else (s.dramWrite da 0 (mkLine 0 da (xs.foldl (fun a l => a ^^^ l.data) 0) (xs.foldl (fun a l => a ^^^ l.hi) 0))).busAt da 0
      .parity) s

/-- A closed stripe's sixteen units accepted (R147): its lines reach DRAM, the stripe counts as written, and it is DEGRADED
where a line carries POISON or a member's Pier is offline (R149, R297). -/
def State.stripeDone (s : State) (n : Nat) (o : OpenStripe) : State :=
  match s.stripeBase (o.base / 256) with
  | none => s
  | some (i, b) =>
    let data := (List.range 960).map (fun j =>
      let da := s.dataSectorDa b (j / 4) + 64 * (j % 4)
      match o.lines.find? (fun x => x.1 == j) with
      | some (_, d, p) => (da, d, p)
      | none => (da, 0, false))
    match s.writeLines data with
    | none => s
    | some (s1, ls) =>
      let s1 := s1.writeParity i b ls
      let short := (List.range 16).any (fun m => s.offline (s.spanMember i m))
      let deg := o.lines.any (fun x => x.2.2) || short
      let p := s1.pier n
      let s1 := s1.setPier n { p with open_ := p.open_.filter (fun x => x.base != o.base) }
      let k := b / 65536
      let st := s1.stripe k
      s1.setStripe k (if st.live = 0 then Stripe.blank else { st with st := 2, degraded := deg, noUnit := short })

/-- STRIPE_WRITTEN (R147). -/
def execStripeWritten (stripe : BitVec 32) (s : State) : Host.Outcome State Fault Refusal :=
  match s.openStripe (65536 * stripe.toNat) with
  | some o => if o.closed && !s.offline (s.stripeOwner o.base) then .next (s.stripeDone (s.stripeOwner o.base) o) else .next s
  | none => .next s

/-- A push to the free-stripe queue (R147, R159). -/
def State.psPush (s : State) (n v : Nat) : State :=
  let b := 65536 * v
  let p := s.pier n
  let own := match s.stripeBase (b / 256) with
    | some (i, _) => s.spanMember i (s.parityMember i b) == n
    | none => false
  if own && decide (p.freeQ.length < 256) then s.setPier n { p with freeQ := p.freeQ ++ [b] }
  else s.put (pgPier n) Reg.PIER_PS_STAT_PUSH_REFUSED 1

/-- PIER_PS_PUSH (R159). -/
def execPierPsPush (n : Fin 16) (v : BitVec 32) (s : State) : Host.Outcome State Fault Refusal :=
  .next (s.atPage (pgPier n.val) (fun s => s.psPush n.val v.toNat))

/-! ### Garbage collection (R154, R155) -/

/-- The stripe is the next one that garbage collection takes: DEGRADED ones first, then the least live below GC_LIVE_PCT (R154). A
stripe stays CLEANING where a relocation job of it has died because GEN changed: the spec does not say what follows, and the model
posts no second job; the stripe ends with its last live sector (DESIGN CHOICE, log entry 89). -/
def State.gcNext (s : State) (k : Nat) : Bool :=
  let st := s.stripe k
  let written := s.stripes.filter (fun x => x.2.st == 2)
  st.st == 2 && (st.degraded || (!written.any (fun x => x.2.degraded) && decide (100 * st.live < 240 * s.pol 0x201) &&
    !written.any (fun x => decide (x.2.live < st.live))))

/-- Garbage collection may run: the engines take new work, no port is at URG level 3, and its pace allows it (R154, R274). -/
def State.gcRuns (s : State) : Bool := !s.urg3 && decide (s.gcAt ≤ s.time)

/-- Sector bytes charged to GC_GBPS, at twice the rate from ladder step 1 on (R128, R156). -/
def State.gcCharge (s : State) (bytes : Nat) : State :=
  { s with gcAt := max s.gcAt s.time + bytes / max 1 (s.pol 0x202 * (if 1 ≤ s.ladder then 2 else 1)) }

/-- GC_SELECT (R154): CLEANING, and a relocation job for every start entry whose record is still the one placed there. -/
def execGcSelect (stripe : BitVec 32) (s : State) : Host.Outcome State Fault Refusal :=
  let k := stripe.toNat
  let st := s.stripe k
  if !s.engNew || !s.gcRuns || !s.gcNext k || st.starts.any (fun e => (s.descRead e.2.1 {}).2 == .wait) then .next s
  else
    .next (st.starts.foldl (fun (s : State) (e : Nat × Nat × Nat) =>
      match s.descRead e.2.1 {} with
      | (s, .ok d) =>
        let r := descRec d.toNat e.2.2
        if descUsed d.toNat && r.sector == s.dataSectorDa (65536 * k) e.1 / 256 && r.cnt != 0 then
          { s with relocs := SMap.put s.relocs (4 * e.2.1 + e.2.2) ⟨r.sector, descGen d.toNat, none, r.cnt⟩ }
        else s
      | (s, _) => s) (s.setStripe k { st with st := 3 }))

/-- The stripe that received a relocated sub-block closed (R154). -/
def State.closeReceiver (s : State) (n first : Nat) : State :=
  match s.stripeBase first with
  | some (_, b) => match s.openStripe b with
    | some o => s.closeStripe n o
    | none => s
  | none => s

/-- RELOCATION (R154): the sectors are copied without decompression into an open stripe of the same region, which is closed. -/
def execRelocation (d : BitVec 40) (sb : Fin 4) (bs : List Bursts) (s : State) : Host.Outcome State Fault Refusal :=
  let key := 4 * d.toNat + sb.val
  match SMap.get? s.relocs key with
  | none => .next s
  | some j =>
    if j.dst.isSome || s.coast || !s.gcRuns then .next s
    else
      match s.descRead d.toNat {} with
      | (_, .wait) => .next s
      | (s, .poison _) => .next { s with relocs := SMap.del s.relocs key }
      | (s, .ok x) =>
        let r := descRec x.toNat sb.val
        if r.sector != j.sector || descGen x.toNat != j.gen then .next { s with relocs := SMap.del s.relocs key }
        else
          match s.sectorReads none ((List.range (4 * j.cnt)).map (fun i => s.sectorLine j.sector i)) bs with
          | (_, none) => .next s
          | (s1, some ls) =>
            match s1.place (s1.descPier d.toNat) (s1.regionId (256 * j.sector)) j.cnt d.toNat sb.val ls with
            | (s2, none) => .next s2
            | (s2, some first) =>
              .next (({ s2 with relocs := SMap.put s2.relocs key { j with dst := some first } } : State).closeReceiver
                (s2.descPier d.toNat) first |>.gcCharge (256 * j.cnt))

/-- RELOCATION_COMMIT (R155): after the new stripe is written, the record is switched where it still holds the job's sector
and generation; otherwise the copy is dead, as it is where the new stripe was lost with its Pier (R157). -/
def execRelocationCommit (d : BitVec 40) (sb : Fin 4) (s : State) : Host.Outcome State Fault Refusal :=
  let key := 4 * d.toNat + sb.val
  match SMap.get? s.relocs key with
  | none => .next s
  | some j =>
    match j.dst.bind (fun first => (s.stripeBase first).map (fun y => (first, y.2))) with
    | none => .next s
    | some (first, b) =>
      if (s.openStripe b).isSome || !s.descReady d.toNat then .next s
      else if (s.stripe (b / 65536)).st = 1 then .next { s with relocs := SMap.del s.relocs key }
      else
        match s.descRead d.toNat {} with
        | (_, .wait) => .next s
        | (s, .poison _) => .next (({ s with relocs := SMap.del s.relocs key } : State).subLive first j.cnt)
        | (s, .ok x) =>
          let s := { s with relocs := SMap.del s.relocs key }
          let r := descRec x.toNat sb.val
          if descUsed x.toNat && r.sector == j.sector && descGen x.toNat == j.gen then
            .next ((s.descWrite d.toNat (descPut x.toNat sb.val { r with sector := first } (descCrc x.toNat))).subLive j.sector j.cnt)
          else .next (s.subLive first j.cnt)

end Sys2Proof.Machine
end

