-- ==== Sys2Proof/Machine/Dram.lean ====
section
/-!
DEFINITION. The DRAM channels (R45 to R50, R61 to R76, R175): refresh, retraining pauses, frequency change, scrub, the
uncorrectable window, rank sparing and rebuild, and the overflow jobs of the counters.
-/
namespace Sys2Proof.Machine

/-! ### From a Pier offset back to the DA (R47) -/

/-- Bytes of a member's share of a span. -/
def State.shareBytes (s : State) (i : Nat) : Nat :=
  s.spanSize i * (if s.spanMirrored i then 2 else 1) / s.spanCount i

/-- The DA and copy that an offset of a Pier's share of a span holds. -/
def State.daInSpan (s : State) (n i x : Nat) : Option (Nat × Nat) :=
  let sh := s.spanShift i
  let q := x / 2 ^ sh
  let within := x % 2 ^ sh
  match (List.range (s.spanCount i)).find? (fun m => s.spanMember i m == n) with
  | none => none
  | some m =>
    if s.spanMirrored i then
      let h := s.spanCount i / 2
      let prim := decide ((q % 2 = 0 ∧ m < h) ∨ (q % 2 = 1 ∧ h ≤ m))
      some (s.spanBase i + (q * h + m % h) * 2 ^ sh + within, if prim then 0 else 1)
    else some (s.spanBase i + (q * s.spanCount i + m) * 2 ^ sh + within, 0)

/-- The DA and copy at a Pier offset, none in a hole between the shares. -/
def State.daOfOff (s : State) (n off : Nat) : Option (Nat × Nat) :=
  (List.range 8).findSome? (fun i =>
    let b := 2 ^ 30 * s.fld (pgPier n) (Reg.PIER_SHARE_BASE_BASE_G i)
    if s.spanSize i != 0 && (List.range (s.spanCount i)).any (fun m => s.spanMember i m == n)
        && decide (b ≤ off) && decide (off < b + s.shareBytes i)
    then s.daInSpan n i (off - b) else none)

/-- The DA and copy of a line of a logical rank. -/
def State.daOfLine (s : State) (n rank line : Nat) : Option (Nat × Nat) :=
  s.daOfOff n (64 * (rank * s.rankLines n) + 64 * line)

/-! ### Counter overflow (R175) -/

/-- One line of an overflowed frame written anew under the new MAJOR; a line already done is skipped. -/
def State.overflowLine (s : State) (da : Nat) (b : Bursts) : State :=
  match s.ctrEnt da with
  | some (_, some e) =>
    match e.ovf with
    | some (_, mask) =>
      if mask.testBit (lineNo da) || ctrMajor e.body == 0 then s
      else
        match s.jobRecall da with
        | (s, false) => s
        | (s, true) =>
          let t := s.seedOf da
          let l := s.dramLine da 0
          let wr := fun (s : State) (d : BitVec 512) (poison : Bool) => match s.writePlain da t l.tier d poison (0, 0, 0) with
            | (s', .ok) => s'.jobClear da
            | (s', _) => s'
          match s.readPlain da t b none with
          | (s, .ok d) => wr s d false
          | (s, .poison d) => wr s d true
          | (s, .wait) => s
    | none => s
  | _ => s

/-- OVERFLOW_STEP (R175). -/
def execOverflowStep (da : BitVec 48) (b : Bursts) (s : State) : Host.Outcome State Fault Refusal :=
  let d := 64 * (da.toNat / 64)
  .next (if s.serving && s.lineRuns d then s.overflowLine d b else s)

/-! ### Refresh (R64) -/

/-- Open rows of a Pier closed where a test picks their bank key. -/
def State.closeRows (s : State) (n : Nat) (f : Nat → Bool) : State :=
  s.setPier n { (s.pier n) with rows := SMap.drop' (s.pier n).rows f }

/-- The Pier's channel is in normal operation: neither in self-refresh nor in a frequency change. -/
def State.channelUp (s : State) (n : Nat) : Bool :=
  s.flag (pgPier n) Reg.PIER_DCTL_CH_EN && s.awake && !(s.pier n).freq

/-- A refresh issued to a rank's part on a subchannel: same-bank refresh closes one bank of every bank group, in turn; all-bank
refresh the rank. -/
def State.refreshPart (s : State) (n sub rank turn : Nat) : State :=
  let sb := s.flag (pgPier n) Reg.PIER_REF_SAME_BANK
  (s.refreshSlots n sub).closeRows n (fun k => k / 64 == rank && k % 2 == sub && (!sb || k % 64 / 16 == turn))

/-- A refresh of a rank falls due: issued on each subchannel, or kept for the end of its pause (R64). -/
def State.refreshRank (s : State) (n rank : Nat) : State :=
  let p := s.pier n
  let turn := p.refs % 4
  let s := s.setPier n { p with refs := p.refs + 1 }
  [0, 1].foldl (fun (s : State) (sub : Nat) =>
    if p.pause.testBit sub then s.setPier n { (s.pier n) with due := (s.pier n).due ++ [(sub, rank, turn)] }
    else s.refreshPart n sub rank turn) s

/-- The refreshes that fell due in a subchannel's pause, issued at its end (R64, R66 step 6). -/
def State.refreshDue (s : State) (n sub : Nat) : State :=
  let p := s.pier n
  (p.due.filter (fun x => x.1 == sub)).foldl (fun (s : State) (x : Nat × Nat × Nat) => s.refreshPart n sub x.2.1 x.2.2)
    (s.setPier n { p with due := p.due.filter (fun x => x.1 != sub) })

/-- REFRESH (R64): never deferred but for a retraining pause. -/
def execRefresh (n : Fin 16) (rank : Fin 8) (s : State) : Host.Outcome State Fault Refusal :=
  .next (if s.channelUp n.val && decide (rank.val < s.ranks n.val) then s.refreshRank n.val rank.val else s)

/-- MR4_POLL (R64). -/
def execMr4Poll (n : Fin 16) (hot : Bool) (s : State) : Host.Outcome State Fault Refusal :=
  .next (if s.channelUp n.val then s.leaveIdle.put (pgPier n.val) Reg.PIER_REF_DOUBLE (b2n hot) else s)

/-! ### Retraining pauses (R65 to R68) -/

/-- Pauses run: the engines work and PERIOD_MS is not 0 (R68). -/
def State.pausesRun (s : State) (n : Nat) : Bool :=
  s.engOn && s.channelUp n && s.fld (pgPier n) Reg.PIER_TRAIN_PERIOD_MS != 0

/-- ZQCAL_START (R66). -/
def execZqcalStart (n : Fin 16) (sub : Fin 2) (s : State) : Host.Outcome State Fault Refusal :=
  .next (if s.pausesRun n.val then
    s.setPier n.val { (s.pier n.val) with zq := SMap.put (s.pier n.val).zq sub.val s.time } else s)

/-- No subchannel of the Kenez is in a periodic pause (R65). -/
def State.noPause (s : State) : Bool := (List.range 16).all (fun k => (s.pier k).pause == 0)

/-- ZQ calibration was started at least 1 µs ago (R66). -/
def Pr.zqReady (p : Pr) (sub now : Nat) : Bool :=
  match SMap.get? p.zq sub with
  | some t => decide (t + 1000 ≤ now)
  | none => false

/-- The pause period in effect, in ms: 1 to 9 act as 10, and values above 1,000 as 1,000 (R65). -/
def State.pausePeriod (s : State) (n : Nat) : Nat := max 10 (min 1000 (s.fld (pgPier n) Reg.PIER_TRAIN_PERIOD_MS))

/-- A subchannel's next periodic pause is due: a period after its last one (R65). -/
def State.pauseDue (s : State) (n sub : Nat) : Bool :=
  match SMap.get? (s.pier n).pauseAt sub with
  | some t => decide (t + 1000000 * s.pausePeriod n ≤ s.time)
  | none => true

/-- TRAIN_PAUSE (R65, R66): step 1 precharges all banks of the subchannel. -/
def execTrainPause (n : Fin 16) (sub : Fin 2) (s : State) : Host.Outcome State Fault Refusal :=
  let p := s.pier n.val
  .next (if s.pausesRun n.val && s.noPause && s.pauseDue n.val sub.val && p.zqReady sub.val s.time then
    let p' : Pr := { p with
      pause := setBit p.pause sub.val, zq := SMap.del p.zq sub.val, pauseAt := SMap.put p.pauseAt sub.val s.time }
    (s.leaveIdle.setPier n.val p').closeRows n.val
      (fun k => k % 2 == sub.val) else s)

/-- A rank limited in two consecutive pauses (R67): spared as if it had reached its uncorrectable limit, unless it was retired
before. -/
def State.trainFail (s : State) (n r : Nat) : State :=
  let s := (s.put (pgPier n) Reg.PIER_TRAIN_STAT_TRAIN_FAIL 1).put (pgPier n) Reg.PIER_TRAIN_STAT_FAIL_RANK r
  let s := s.setPier n { (s.pier n) with failed := setBit (s.pier n).failed r }
  let s := s.raise (132 + 16 * n) 0x105 ERROR none 0 (detail [r, s.logicalOf n r, n])
  if s.rankRetired n r then s else s.retireRank n r

/-- PHY delay words of the active set as a pause leaves them. -/
def State.setDelays (s : State) (n : Nat) (ds : List Nat) : State :=
  let k := s.fld (pgPier n) Reg.PIER_SPEED_ACTIVE_SET
  ((ds.take 25).zipIdx).foldl (fun (s : State) (x : Nat × Nat) => s.put (pgPier n) (Reg.PIER_TSET_PHY_DELAY k x.2) x.1) s

/-- What a pause of a subchannel leaves (R66 step 5, R67): its updates counted and kept, the limited ranks remembered until the
subchannel's next pause. -/
def State.pauseDone (s : State) (n sub lim : Nat) (delays : List Nat) : State :=
  let pg := pgPier n
  let p := s.pier n
  let lim := maskOf (s.ranks n) (fun r => lim.testBit r)
  let twice := pick (s.ranks n) (fun r => lim.testBit r && p.lim.testBit (8 * sub + r))
  let s := s.setPier n { p with lim := setBits p.lim (8 * sub) 8 lim }
  let s := s.put pg Reg.PIER_TRAIN_STAT_PAUSES (s.fld pg Reg.PIER_TRAIN_STAT_PAUSES + 1)
  let s := s.setDelays n delays
  let s := if lim = 0 then s else s.put pg Reg.PIER_TRAIN_STAT_DRIFT_LIMIT 1
  twice.foldl (fun (s : State) (r : Nat) => s.trainFail n r) s

/-- TRAIN_PAUSE_END (R66, R67). -/
def execTrainPauseEnd (n : Fin 16) (sub : Fin 2) (limited : BitVec 8) (delays : List (BitVec 36)) (s : State) :
    Host.Outcome State Fault Refusal :=
  let p := s.pier n.val
  if !p.pause.testBit sub.val then .next s
  else
    let s := s.setPier n.val { p with pause := clrBit p.pause sub.val }
    .next ((s.pauseDone n.val sub.val limited.toNat (delays.map BitVec.toNat)).refreshDue n.val sub.val)

/-- The pause of each subchannel, one after the other, that ends a frequency change or a self-refresh exit (R65, R70 step 6, R375,
R396): no command tells its outcome, so the delays and the limited ranks are free values. None runs in coast or with PERIOD_MS 0
(R68). -/
def State.exitPauses (s : State) (n : Nat) : State :=
  if s.coast || s.fld (pgPier n) Reg.PIER_TRAIN_PERIOD_MS = 0 || !s.flag (pgPier n) Reg.PIER_DCTL_CH_EN then s
  else
    [0, 1].foldl (fun (s : State) (sub : Nat) =>
      s.tick.pauseDone n sub (Config.driftLimited s.free) ((List.range 25).map (fun i => Config.phyDelay (32 * s.free + i)))) s

/-! ### Frequency change (R69, R70) -/

/-- Copies are held (R75): those a test picks by the Pier whose rank is spared, and by its lender. -/
def State.holdCopies (s : State) (f : Nat → Bool) : State :=
  (pick 16 (fun n => s.fld (pgPier n) Reg.PIER_SPARE_CTL_STATE == 1 &&
    (f n || f (s.fld (pgPier n) Reg.PIER_SPARE_CTL_SPARE_PIER)))).foldl
      (fun (s : State) (n : Nat) => s.put (pgPier n) Reg.PIER_SPARE_CTL_STATE 2) s

/-- Held copies continue once the engines work and no change runs on either channel (R75). -/
def State.resumeCopies (s : State) : State :=
  if s.coast then s
  else (pick 16 (fun n => s.fld (pgPier n) Reg.PIER_SPARE_CTL_STATE == 2 && !(s.pier n).freq &&
    !(s.pier (s.fld (pgPier n) Reg.PIER_SPARE_CTL_SPARE_PIER)).freq)).foldl
      (fun (s : State) (n : Nat) => s.put (pgPier n) Reg.PIER_SPARE_CTL_STATE 1) s

/-- Channels that change rate now. -/
def State.changing (s : State) : Nat := (pick 16 (fun n => (s.pier n).freq)).length

/-- A change starts: the banks are precharged, and copies on the channel are held. -/
def State.startFreq (s : State) (n : Nat) : State :=
  (s.setPier n { (s.pier n) with freq := true, freqQ := false, rows := [] }).holdCopies (fun k => k == n)

/-- A write of PIER_SPEED.SWITCH (R69, R70). -/
def State.doSwitch (s : State) (n : Nat) : State :=
  let pg := pgPier n
  let inactive := 1 - s.fld pg Reg.PIER_SPEED_ACTIVE_SET
  if s.flag pg Reg.PIER_SPEED_BUSY || !s.flag pg (Reg.PIER_TSET_VALID inactive) then s.put pg Reg.PIER_SPEED_REFUSED 1
  else
    let s := s.put pg Reg.PIER_SPEED_BUSY 1
    if s.changing < 4 then s.startFreq n else s.setPier n { (s.pier n) with freqQ := true }

/-- SWITCH (R69). -/
def execSwitch (n : Fin 16) (s : State) : Host.Outcome State Fault Refusal :=
  .next (s.atPage (pgPier n.val) (fun s => s.doSwitch n.val))

/-- A write to a timing set's word (R69, R79): its fields are taken unless the set is the active one. -/
def State.writeTiming (s : State) (n set off v : Nat) : State :=
  let pg := pgPier n
  if s.fld pg Reg.PIER_SPEED_ACTIVE_SET = set then s.put pg Reg.PIER_SPEED_REFUSED 1
  else (Reg.tsetFields.filter (fun f => f.off == 0x60 + 0x80 * set + off)).foldl
    (fun (s : State) (f : Fld) => s.put pg f (bits v f.lo f.width)) s

/-- TIMING_SET_WRITE (R69). -/
def execTimingSetWrite (n : Fin 16) (set : Fin 2) (off : Fin 32) (v : BitVec 32) (s : State) :
    Host.Outcome State Fault Refusal :=
  .next (s.atPage (pgPier n.val) (fun s => s.writeTiming n.val set.val (4 * off.val) v.toNat))

/-- FREQ_CHANGE_DONE (R70): the inactive set is active now, and one pause per subchannel ends the change; the lowest queued change
starts. -/
def execFreqChangeDone (n : Fin 16) (s : State) : Host.Outcome State Fault Refusal :=
  let pg := pgPier n.val
  if !(s.pier n.val).freq then .next s
  else
    let k := 1 - s.fld pg Reg.PIER_SPEED_ACTIVE_SET
    let old := s.fld pg Reg.PIER_SPEED_RATE
    let new := s.fld pg (Reg.PIER_TSET_RATE k)
    let s := s.setPier n.val { (s.pier n.val) with freq := false }
    let s := ((s.put pg Reg.PIER_SPEED_ACTIVE_SET k).put pg Reg.PIER_SPEED_RATE new).put pg Reg.PIER_SPEED_BUSY 0
    let s := (s.exitPauses n.val).raise (132 + 16 * n.val) 0x106 INFO none 0 (detail [old % 256, old / 256, new % 256, new / 256])
    let s := match (List.range 16).find? (fun q => (s.pier q).freqQ) with
      | some q => s.startFreq q
      | none => s
    .next s.resumeCopies

/-! ### Scrub (R45, R47 to R49) -/

/-- A scrub pass starts at the first in-service rank, where scrub is enabled and the period is not 0. -/
def State.startScrub (s : State) (n : Nat) : State :=
  let pg := pgPier n
  let h := s.fld pg Reg.PIER_LIU_CTL_SCRUB_HOURS
  if h = 0 || !s.flag pg Reg.PIER_LIU_CTL_SCRUB_EN || !s.flag pg Reg.PIER_DCTL_CH_EN then s
  else (s.setPier n { (s.pier n) with scrub := some (0, 0), scrubEnd := s.time + 3600000000000 * h,
                                      scrubLate := false }).put pg Reg.PIER_LIU_STAT_SCRUB_ACTIVE 1

/-- The pass in progress stops, uncounted. -/
def State.stopScrub (s : State) (n : Nat) : State :=
  (s.setPier n { (s.pier n) with scrub := none, scrubLate := false }).put (pgPier n) Reg.PIER_LIU_STAT_SCRUB_ACTIVE 0

/-- A write of PIER_LIU_CTL (R45). -/
def State.writeLiuCtl (s : State) (n v : Nat) : State :=
  let pg := pgPier n
  let was := s.flag pg Reg.PIER_LIU_CTL_SCRUB_EN
  let s := (s.put pg Reg.PIER_LIU_CTL_SCRUB_EN (bits v 0 1)).put pg Reg.PIER_LIU_CTL_CE_FREEZE (bits v 1 1)
  let s := (s.put pg Reg.PIER_LIU_CTL_SCRUB_HOURS (bits v 8 8)).put pg Reg.PIER_LIU_CTL_UE_LIMIT (bits v 16 8)
  let s := s.put pg Reg.PIER_LIU_CTL_UE_WINDOW_H (bits v 24 8)
  if was && !v.testBit 0 then s.stopScrub n else if !was && v.testBit 0 then s.startScrub n else s

/-- PIER_LIU_CTL_WRITE (R45). -/
def execPierLiuCtlWrite (n : Fin 16) (v : BitVec 32) (s : State) : Host.Outcome State Fault Refusal :=
  .next (s.atPage (pgPier n.val) (fun s => s.writeLiuCtl n.val v.toNat))

/-- The read and repair of one scrubbed line (R48): refetched, recovered and uncorrectable lines are rewritten, with host
copies recalled first; the answer says whether the line is done. -/
def State.scrubLine (s : State) (da copy : Nat) (b : Bursts) : State × Bool :=
  let seed := s.seedOf da
  if s.gone da copy then (s, true)
  else
    let l := s.dramLine da copy
    if s.check seed da (l.flip b.first) = .ok then (s.busAt da copy .read, true)
    else
      match s.jobRecall da with
      | (s, false) => (s, false)
      | (s, true) =>
        match s.readLine da copy seed b none with
        | (s, .wait) => (s, false)
        | (s, _) =>
          let w := l.flip b.second
          let refetched := s.check seed da w = .ok && s.check seed da (l.flip b.first) = .bad
          ((if refetched then s.storeLine da copy (if s.daKind da = .frame then dirless seed da w else w) else s).jobClear da, true)

/-- Scrub skips the line (R48): a frame that is not allocated, or a line with a write waiting. -/
def State.scrubSkips (s : State) (da : Nat) : Bool :=
  (s.queued da).isSome || (s.daKind da == .frame && (s.ownerOf (da / 4096)).isNone)

/-- The pass moves to the next line; after the last it is counted, and a late pass is followed at once by the next. -/
def State.scrubNext (s : State) (n rank line : Nat) : State :=
  let pg := pgPier n
  let p := s.pier n
  if line + 1 < s.rankLines n then s.setPier n { p with scrub := some (rank, line + 1) }
  else if rank + 1 < (s.physRanks n).length then s.setPier n { p with scrub := some (rank + 1, 0) }
  else
    let late := p.scrubLate
    let s := (s.stopScrub n).put pg Reg.PIER_LIU_STAT_SCRUB_PASSES (s.fld pg Reg.PIER_LIU_STAT_SCRUB_PASSES + 1)
    if late then s.startScrub n else s

/-- SCRUB_STEP (R47): held while the channel is paused, changing rate or gated, and behind URG level 3. -/
def execScrubStep (n : Fin 16) (b : Bursts) (s : State) : Host.Outcome State Fault Refusal :=
  match (s.pier n.val).scrub with
  | some (rank, line) =>
    let s := s.leaveIdle
    if !s.serving || s.urg3 || !s.pierOn n.val || !s.pierSeq n.val || s.gateShut (17 + n.val) then .next s
    else
      match s.daOfLine n.val rank line with
      | none => .next (s.scrubNext n.val rank line)
      | some (da, copy) =>
        if s.scrubSkips da then .next (s.scrubNext n.val rank line)
        else if !s.copyRuns da copy then .next s
        else
          match s.scrubLine da copy b with
          | (s, true) => .next (s.scrubNext n.val rank line)
          | (s, false) => .next s
  | none => .next s

/-- SCRUB_PERIOD_END (R49): a pass still running is late; with none running the next one starts. -/
def execScrubPeriodEnd (n : Fin 16) (s : State) : Host.Outcome State Fault Refusal :=
  let p := s.pier n.val
  if s.time < p.scrubEnd ∨ !s.ready then .next s
  else
    match p.scrub with
    | some _ =>
      if p.scrubLate then .next s
      else .next (((s.setPier n.val { p with scrubLate := true }).put (pgPier n.val) Reg.PIER_LIU_STAT_SCRUB_LATE 1).raise
        (131 + 16 * n.val) 0x104 WARN none 0 0)
    | none => .next (s.startScrub n.val)

/-- UE_WINDOW_TICK (R46): an hour passes in every rank's buckets. -/
def execUeWindowTick (n : Fin 16) (s : State) : Host.Outcome State Fault Refusal :=
  let p := s.pier n.val
  let s := s.setPier n.val { p with ueB := p.ueB.map (fun x => (x.1, (0 :: x.2).take 256)) }
  .next ((List.range 8).foldl (fun (s : State) (r : Nat) => s.rankLimit n.val r) s)

/-! ### Rank sparing (R71 to R76) -/

/-- A Pier's spare rank is idle: present, in service, not lent, and not in use for a rank of its own. -/
def State.spareIdle (s : State) (m : Nat) : Bool :=
  let pg := pgPier m
  let r := s.fld pg Reg.PIER_GEOM_SPARE_RANK
  s.pierOn m && s.flag pg Reg.PIER_GEOM_SPARE_PRESENT && !s.flag pg Reg.PIER_SPARE_CTL_LENT
    && !s.flag pg (Reg.PIER_RANK_UE_RETIRED r) && !(s.pier m).retired.testBit r
    && !([1, 2, 3, 4].contains (s.fld pg Reg.PIER_SPARE_CTL_STATE) && s.fld pg Reg.PIER_SPARE_CTL_SPARE_PIER == m)

/-- The spare the engines choose for a rank of a Pier (R71). -/
def State.chooseSpare (s : State) (n : Nat) : Option Nat :=
  if s.spareIdle n then some n
  else (List.range 16).find? (fun m => m / 4 == n / 4 && m != n && s.spareIdle m && s.rankLines n ≤ s.rankLines m)

/-- SPARE_EXHAUSTED for a rank (R75). -/
def State.exhausted (s : State) (n rank : Nat) : State :=
  s.raise (133 + 16 * n) 0x10A ERROR none 0 (detail [rank])

/-- Sparing of a logical rank begins, or finds no spare (R75); the rank that a sparing already serves starts no second one (R72). -/
def State.startSparing (s : State) (n rank : Nat) : State :=
  let pg := pgPier n
  let p := s.pier n
  let s := s.setPier n { p with pendRank := p.pendRank.filter (fun x => x != rank) }
  if s.sparing n rank then s
  else if s.fld pg Reg.PIER_SPARE_CTL_STATE != 0 then s.exhausted n rank
  else
    match s.chooseSpare n with
    | none => (s.put pg Reg.PIER_SPARE_CTL_STATE 5).exhausted n rank
    | some m =>
      let phys := s.fld (pgPier m) Reg.PIER_GEOM_SPARE_RANK
      let s := (s.put pg Reg.PIER_SPARE_CTL_FAIL_RANK rank).put pg Reg.PIER_SPARE_CTL_SPARE_PIER m
      let s := (s.put pg Reg.PIER_SPARE_CTL_SPARE_PHYS phys).put pg Reg.PIER_SPARE_CTL_STATE 1
      let s := if m = n then s else s.put (pgPier m) Reg.PIER_SPARE_CTL_LENT 1
      let s := s.setPier n { (s.pier n) with bound := 0, rebuild := (s.pier n).dead.testBit rank }
      s.raise (133 + 16 * n) 0x107 WARN none 0 0

/-- SPARING_START (R75): for a rank that waits for it. -/
def execSparingStart (n : Fin 16) (rank : Fin 8) (s : State) : Host.Outcome State Fault Refusal :=
  .next (if s.engNew && (s.pier n.val).pendRank.contains rank.val then s.startSparing n.val rank.val else s)

/-- A copy or rebuild step of a Pier can run on the subchannel of the line at B (R72, R74): a copy reads its own channel, and both
write the spare's. -/
def State.spareRuns (s : State) (n : Nat) : Bool :=
  let m := s.fld (pgPier n) Reg.PIER_SPARE_CTL_SPARE_PIER
  let p := s.pier n
  s.engNew && s.fld (pgPier n) Reg.PIER_SPARE_CTL_STATE == 1 && !s.urg3 && (p.rebuild || s.pierRuns n (p.bound % 2)) &&
    s.pierRuns m (p.bound % 2)

/-- The boundary passes a line; after the last one the rank is spared (R75). -/
def State.spareAdvance (s : State) (n : Nat) : State :=
  let pg := pgPier n
  let p := s.pier n
  let s := s.setPier n { p with bound := p.bound + 1 }
  if p.bound + 1 < s.rankLines n then s
  else
    let j := s.fld pg Reg.PIER_SPARE_CTL_FAIL_RANK
    let s := (s.put pg Reg.PIER_SPARE_CTL_STATE 3).put pg (Reg.PIER_RANK_UE_RETIRED ((s.physRanks n).getD j j)) 1
    s.raise (133 + 16 * n) 0x108 INFO none 0 0

/-- A line at B written to the spare by its burst there, and B moved past it (R72). -/
def State.toSpare (s : State) (n da copy : Nat) (l : Line) : State :=
  let pg := pgPier n
  let s := ({ s with media := SMap.put s.media (mediaKey da copy true) l } : State).jobClear da
  let h := s.fld pg Reg.PIER_SPARE_CTL_SPARE_PIER
  (s.bus (s.maAt n (s.fld pg Reg.PIER_SPARE_CTL_FAIL_RANK) (s.pier n).bound h (s.fld pg Reg.PIER_SPARE_CTL_SPARE_PHYS) true) .write 3
    (some (s.engFlt da))).spareAdvance n

/-- A line ready to be copied: a write that waits for it is issued first, and its host copies are recalled (R72). -/
def State.copyReady (s : State) (da : Nat) : State × Bool :=
  let s := match s.queued da with
    | some q => s.drainOne q
    | none => s
  if (s.queued da).isSome then (s, false) else s.jobRecall da

/-- One line copied (R72): read with its recovery, written to the spare, B moved past it. -/
def State.copyLine (s : State) (n da copy : Nat) (b : Bursts) : State :=
  match s.copyReady da with
  | (s, false) => s
  | (s, true) =>
    let seed := s.seedOf da
    match s.readLine da copy seed b none with
    | (s, .good l) => s.toSpare n da copy (dirless seed da l)
    | (s, .poison _) => s.toSpare n da copy (dirless seed da (s.dramLine da copy))
    | (s, .wait) => s

/-- SPARE_COPY_STEP (R72). -/
def execSpareCopyStep (n : Fin 16) (b : Bursts) (s : State) : Host.Outcome State Fault Refusal :=
  let p := s.pier n.val
  if !s.spareRuns n.val || p.rebuild then .next s
  else
    match s.daOfLine n.val (s.fld (pgPier n.val) Reg.PIER_SPARE_CTL_FAIL_RANK) p.bound with
    | none => .next (s.spareAdvance n.val)
    | some (da, copy) => .next (s.copyLine n.val da copy b)

/-- A write of RETIRE_UNCOPIED (R76): TARGET is out of service from now on. Naming the rank of a STALLED copy, which the rule leaves
open, does the same there and leaves STATE at STALLED, with B and the lines below it kept (DESIGN CHOICE, log entry 93). -/
def State.retireUncopied (s : State) (n : Nat) : State :=
  let pg := pgPier n
  let t := s.fld pg Reg.PIER_SPARE_CTL_TARGET
  let st := s.fld pg Reg.PIER_SPARE_CTL_STATE
  let same := s.fld pg Reg.PIER_SPARE_CTL_FAIL_RANK == t
  let p := s.pier n
  if t ≥ (s.physRanks n).length ∨ (st = 3 ∧ same) then s
  else
    let s := (s.setPier n { p with dead := setBit p.dead t }).put pg
      (Reg.PIER_RANK_UE_RETIRED ((s.physRanks n).getD t t)) 1
    if (st = 1 ∨ st = 2 ∨ st = 4) ∧ same then s.setPier n { (s.pier n) with rebuild := true }
    else if p.pendRank.contains t then s
    else s.setPier n { (s.pier n) with pendRank := p.pendRank ++ [t] }

/-- RETIRE_UNCOPIED (R76). -/
def execRetireUncopied (n : Fin 16) (s : State) : Host.Outcome State Fault Refusal :=
  .next (s.atPage (pgPier n.val) (fun s => s.retireUncopied n.val))

/-- The tier of the page that the owner map and the owning VI's translation give a frame, 0b00 where they give none (R76). -/
def State.tierOfFrame (s : State) (f : Nat) : Nat :=
  match s.ownerOf f with
  | none => 0
  | some t =>
    match s.leafNaming (s.vi t) false (s.primDa (4096 * f) / 4096) with
    | some (_, e) => leafTier e
    | none => 0

/-- The poisoned line a rebuild writes where recomputation gives none (R76). -/
def State.lostLine (s : State) (da seed : Nat) : Line :=
  let tier := match s.daKind da with
    | .metadata => 3
    | .packed => 2
    | _ => s.tierOfFrame (da / 4096)
  mkLine seed da 0 (sideHi 0 0 0 0 tier true false (s.writeKeyslot da))

/-- One line rebuilt into the spare (R76): its sources' Piers run. -/
def State.rebuildLine (s : State) (n da copy : Nat) (b : Bursts) : State :=
  let seed := s.seedOf da
  if !s.sourcesRun da copy seed then s
  else
    match s.copyReady da with
    | (s, false) => s
    | (s, true) =>
      match s.recompLine da copy seed b.srcs with
      | (s, some x) => s.toSpare n da copy (dirless seed da x)
      | (s, none) => s.toSpare n da copy (s.lostLine da seed)

/-- SPARE_REBUILD_STEP (R76). -/
def execSpareRebuildStep (n : Fin 16) (b : Bursts) (s : State) : Host.Outcome State Fault Refusal :=
  let p := s.pier n.val
  if !s.spareRuns n.val || !p.rebuild then .next s
  else
    match s.daOfLine n.val (s.fld (pgPier n.val) Reg.PIER_SPARE_CTL_FAIL_RANK) p.bound with
    | none => .next (s.spareAdvance n.val)
    | some (da, copy) => .next (s.rebuildLine n.val da copy b)

/-- ADAPT_NS_EXPIRY (R61): an adaptive row that has had no hit for ADAPT_NS is closed. -/
def execAdaptNsExpiry (n : Fin 16) (bank : Fin 512) (s : State) : Host.Outcome State Fault Refusal :=
  let p := s.pier n.val
  match SMap.get? p.rows bank.val with
  | some (_, pol, t) =>
    .next (if pol = 2 ∧ t + s.fld (pgPier n.val) Reg.PIER_DCTL_ADAPT_NS ≤ s.time then
      s.setPier n.val { p with rows := SMap.del p.rows bank.val } else s)
  | none => .next s

end Sys2Proof.Machine
end

