-- ==== Sys2Proof/Machine/Tier.lean ====
section
/-!
DEFINITION. Tiers, moves and capacity (R106 to R132): heat, allocation of pages, the page move with its log, the capacity
figures and the pressure ladder, and the dynamic-capacity notices it sends.
-/
namespace Sys2Proof.Machine

/-! ### Heat (R113) -/

/-- A frame span holds T0: its frames are paired; with no paired span, the lowest of several frame spans. The rest hold T1. -/
def State.t0Span (s : State) (i : Nat) : Bool :=
  let fr := pick 8 (fun j => s.frameSpan j && s.spanSize j != 0)
  if fr.any (fun j => s.mirrorSpan j) then s.mirrorSpan i else decide (1 < fr.length) && fr.head? == some i

/-- The tier that a frame's span gives it. -/
def State.frameTier (s : State) (f : Nat) : Nat :=
  match s.spanOf (4096 * f) with
  | some i => if s.t0Span i then 0 else 1
  | none => 1

/-- The heat of a place, by its key: a frame, or 2^40 + a descriptor. -/
def State.heatOf (s : State) (key : Nat) : Nat := SMap.getD s.heat key 0

/-- The heat below which the page at a place cools (R114): T0_DEMOTE for a T0 frame, T2_COLD for a T1 frame. -/
def State.coolBelow (s : State) (key : Nat) : Nat :=
  if 2 ^ 40 ≤ key then 0 else if s.frameTier key = 0 then s.pol 0x105 else s.pol 0x108

/-- A place's heat set; the time it falls below the threshold of its tier is kept. -/
def State.setHeat (s : State) (key h : Nat) : State :=
  let s' := { s with heat := if h = 0 then SMap.del s.heat key else SMap.put s.heat key h }
  if s.coolBelow key ≤ s.heatOf key ∧ h < s.coolBelow key then { s' with coolAt := SMap.put s.coolAt key s.time } else s'

/-- The samples of a Pier's ring, from TAIL to HEAD, folded into the heat array. -/
def State.foldHeat (s : State) (n : Nat) : State :=
  let pg := pgPier n
  let head := s.fld pg Reg.PIER_SAMP_PTR_HEAD
  let tail := s.fld pg Reg.PIER_SAMP_PTR_TAIL
  ((List.range ((head + 8192 - tail) % 8192)).foldl (fun (s : State) (i : Nat) =>
    let key := bits (SMap.getD (s.pier n).samples ((tail + i) % 8192) 0) 0 41
    s.setHeat key (min 255 (s.heatOf key + s.pol 0x101))) s).put pg Reg.PIER_SAMP_PTR_TAIL head

/-- HEAT_UPDATE (R113): due every 1 ms. -/
def execHeatUpdate (s : State) : Host.Outcome State Fault Refusal :=
  .next (if s.engOn && decide (s.heatAt ≤ s.time) then
    (List.range 16).foldl (fun (s : State) (n : Nat) => s.foldHeat n) { s with heatAt := s.time + 1000000 } else s)

/-- One decay of a heat value (R113). -/
def decayed (h : Nat) : Nat := h - (h + 3) / 4

/-- HEAT_DECAY (R113): due every DECAY_MS. -/
def execHeatDecay (s : State) : Host.Outcome State Fault Refusal :=
  .next (if s.engOn && decide (s.decayAt ≤ s.time) then
    s.heat.foldl (fun (s : State) (x : Nat × Nat) => s.setHeat x.1 (decayed x.2))
      { s with decayAt := s.time + 1000000 * s.pol 0x102 } else s)

/-! ### Capacity (R106, R124, R126, R127) -/

/-- Frames of a span. -/
def State.spanFrames (s : State) (i : Nat) : Nat := s.spanSize i / 4096

/-- A frame lies in a span. -/
def State.inSpan (s : State) (i f : Nat) : Bool := s.spanBase i ≤ 4096 * f && 4096 * f < s.spanBase i + s.spanSize i

/-! Ranges, as first number and count. -/

/-- What is left of a range without another one. -/
def cutOne (x c : Nat × Nat) : List (Nat × Nat) :=
  [(x.1, less (min (x.1 + x.2) c.1) x.1), (max x.1 (c.1 + c.2), less (x.1 + x.2) (max x.1 (c.1 + c.2)))].filter (fun y => y.2 != 0)

def cutAll (xs cs : List (Nat × Nat)) : List (Nat × Nat) := cs.foldl (fun xs c => xs.flatMap (fun x => cutOne x c)) xs

def lenAll (xs : List (Nat × Nat)) : Nat := (xs.map Prod.snd).sum

/-- What two lists of ranges share. -/
def meetAll (xs ys : List (Nat × Nat)) : List (Nat × Nat) :=
  xs.flatMap (fun x => (ys.map (fun y => (max x.1 y.1, less (min (x.1 + x.2) (y.1 + y.2)) (max x.1 y.1)))).filter (fun z => z.2 != 0))

/-- Ascending ranges with adjacent ones joined. -/
def joinAll (xs : List (Nat × Nat)) : List (Nat × Nat) :=
  (xs.foldl (fun (a : List (Nat × Nat)) x => match a with
    | y :: t => if y.1 + y.2 = x.1 then (y.1, y.2 + x.2) :: t else x :: a
    | [] => [x]) []).reverse

/-- The first numbers of ranges, so many in all, and how many are still missing. -/
def takeAll : Nat → List (Nat × Nat) → List (Nat × Nat) × Nat
  | k, [] => ([], k)
  | k, x :: t =>
    if k = 0 then ([], 0)
    else let r := takeAll (k - min k x.2) t; ((x.1, min k x.2) :: r.1, r.2)

/-- The frames that back assured parts since creation, mates included (R123). -/
def State.frameExtents (s : State) : List (Nat × Nat) :=
  s.vis.flatMap (fun x => (x.2.back.filter (fun r => r.tier != 2)).flatMap (fun r =>
    (r.base, r.count) :: (match r.mate with | some b => [(b, r.count)] | none => [])))

/-- The frames of a span in use. -/
def State.usedRuns (s : State) (i : Nat) : List (Nat × Nat) :=
  let own := s.owner.filter (fun x => s.inSpan i x.1)
  cutAll (s.frameExtents.filter (fun e => s.inSpan i e.1)) (own.map (fun x => (x.1, 1)))
    ++ (own.filter (fun x => x.2 < 65536)).map (fun x => (x.1, 1))

def State.freeFrames (s : State) (i : Nat) : Nat := s.spanFrames i - lenAll (s.usedRuns i)

/-- The frames of a span in a key region (R162, R216). -/
def State.regionParts (s : State) (i r : Nat) : List (Nat × Nat) :=
  joinAll (((List.range (s.spanSize i / 2 ^ 30)).filter (fun g => s.regionId (s.spanBase i + 2 ^ 30 * g) == r)).map (fun g =>
    (s.spanBase i / 4096 + 262144 * g, 262144)))

/-- The free frames of a span in a key region, and the free pairs by their lower frames (R110). -/
def State.frameGaps (s : State) (i r : Nat) : List (Nat × Nat) := cutAll (s.regionParts i r) (s.usedRuns i)
def State.pairGaps (s : State) (i r : Nat) : List (Nat × Nat) :=
  let h := s.spanFrames i / 2
  let b := s.spanBase i / 4096
  let gaps := s.frameGaps i r
  meetAll (meetAll gaps [(b, h)]) ((meetAll gaps [(b + h, h)]).map (fun x => (x.1 - h, x.2)))

/-- Raw capacity in bytes: the enabled channels' DRAM, spare ranks included (R126). -/
def State.rawBytes (s : State) : Nat :=
  ((List.range 16).map (fun n => if s.flag (pgPier n) Reg.PIER_DCTL_CH_EN then 64 * (s.ranks n * s.rankLines n) else 0)).sum

/-- The emergency reserve in frames (R126). -/
def State.reserveFrames (s : State) : Nat := ceilDiv (ceilDiv s.rawBytes 100) 4096

/-- The lowest-numbered frame span that holds T1: the home of the reserve. Where no frame span holds T1 the spec names no home for
it; the model then holds no reserve and takes nothing from the usable capacity (DESIGN CHOICE, log entry 95). -/
def State.reserveSpan (s : State) : Option Nat :=
  (List.range 8).find? (fun i => s.frameSpan i && s.spanSize i != 0 && !s.t0Span i)

/-- Frames left in the reserve: freed space refills it before anything else. -/
def State.reserveLeft (s : State) : Nat :=
  match s.reserveSpan with
  | some i => min s.reserveFrames (s.freeFrames i)
  | none => 0

/-- Free frames of a tier outside the reserve. -/
def State.freeOfTier (s : State) (tier : Nat) : Nat :=
  ((List.range 8).map (fun i => if s.frameSpan i && (s.t0Span i == (tier == 0)) then
    s.freeFrames i - (if s.reserveSpan = some i then s.reserveLeft else 0) else 0)).sum

/-- Data sectors of the packed store in a key region below PS_FILL_MAX, those free, and both over every region (R127, R148). -/
def State.sectorCapIn (s : State) (r : Nat) : Nat := s.regionCap r * s.pol 0x204 / 100
def State.sectorFreeIn (s : State) (r : Nat) : Nat := less (s.sectorCapIn r) (s.regionLive r)
def State.sectorCap (s : State) : Nat := ((List.range 17).map (fun r => s.sectorCapIn r)).sum
def State.sectorFree (s : State) : Nat := ((List.range 17).map (fun r => s.sectorFreeIn r)).sum

/-- Usable capacity and free usable capacity in 256-byte units (R124, R127). -/
def State.usable (s : State) : Nat :=
  ((List.range 8).map (fun i => if s.frameSpan i then
    16 * (if s.mirrorSpan i then s.spanFrames i / 2 else s.spanFrames i) else 0)).sum + s.sectorCap
    - (match s.reserveSpan with | some _ => 16 * s.reserveFrames | none => 0)
def State.freeUsable (s : State) : Nat := 16 * (s.freeOfTier 0 + s.freeOfTier 1) + s.sectorFree

/-- The ladder step whose condition holds (R128). -/
def State.ladderStep (s : State) : Nat :=
  let f := s.freeUsable
  let u := s.usable
  if f = 0 then (if s.reserveLeft = 0 then 5 else 4)
  else if 100 * f < 2 * u then 3 else if 100 * f < 5 * u then 2 else if 10 * f < u then 1 else 0

/-! ### Dynamic-capacity notices (R245, R246) -/

/-- Severity of a DC_EVENT's sub-event. -/
def dcSev (sub : Nat) : Nat := if sub = 3 ∨ sub = 5 then WARN else INFO

/-- The Kenez's own record of a dynamic-capacity step, and for adds and release requests the host's record in the LD's
Dynamic Capacity log. -/
def State.dcNotice (s : State) (e : Extent) (sub : Nat) : State :=
  let ld := (s.vi e.vi).ld
  let s := s.raise (69 + 8 * e.port) 0x60C (dcSev sub) (some e.vi) 0 (detail [sub])
  if sub = 0 ∨ sub = 3 ∨ sub = 5 then
    let d := s.ldev e.port ld
    let r : Record := ⟨69 + 8 * e.port, 0x60C, dcSev sub, false, some e.vi, s.time, e.start, e.blocks, sub, none⟩
    (s.setLdev e.port ld { d with dcLog := d.dcLog ++ [r] }).emit (.dcEvent e.port ld e.vi e.start e.blocks (sub == 0))
  else s

/-! ### The pressure ladder (R128) -/

/-- The entries of a VI's tables in lines written since its creation: first page, level, DA and entry (R80, R81). -/
def State.wroteEntries (s : State) (t : Nat) : List (Nat × Nat × Nat × Nat) :=
  let v := s.vi t
  (s.storedLines (4096 * v.tpoolBase) (4096 * (v.tpoolBase + v.tpoolTables))).flatMap (fun x =>
    (List.range 8).filterMap (fun i => (s.peek (x + 8 * i)).map (fun e =>
      ((v.entryPage (x + 8 * i)).1, (v.entryPage (x + 8 * i)).2, x + 8 * i, e))))

/-- The 2 MiB and 1 GiB leaves of a VI (R83, R107): first page, level and entry. -/
def State.largeLeaves (s : State) (t : Nat) : List (Nat × Nat × Nat) :=
  ((s.wroteEntries t).filter (fun x => x.2.1 != 1 && leafAt x.2.1 x.2.2.2)).map (fun x => (x.1, x.2.1, x.2.2.2))

/-- The leaves of a VI that a level-1 table line written since creation holds, and no larger leaf hides: page and entry. -/
def State.wroteLeaves (s : State) (t : Nat) : List (Nat × Nat) :=
  let big := s.largeLeaves t
  ((s.wroteEntries t).filter (fun x => x.2.1 == 1 && !big.any (fun y => y.1 ≤ x.1 && x.1 < y.1 + reach y.2.1))).map (fun x =>
    (x.1, x.2.2.2))

/-- Backed pages of a range of a VI's elastic part. -/
def State.backedIn (s : State) (t page count : Nat) : Nat :=
  ((s.wroteLeaves t).filter (fun x => page ≤ x.1 && x.1 < page + count && leafV x.2 && leafTier x.2 != 3)).length +
    ((s.largeLeaves t).map (fun x => if leafTier x.2.2 = 3 then 0 else less (min (x.1 + reach x.2.1) (page + count)) (max x.1 page))).sum

def Extent.backed (s : State) (e : Extent) : Nat := s.backedIn e.vi (512 * e.start) (512 * e.blocks)

/-- Extents that were asked for and not released within 10 s: not asked for again within 60 s. -/
def State.expireAsks (s : State) : State :=
  { s with extents := s.extents.map (fun e => match e.asked with
      | some t => if t + 10000000000 ≤ s.time then { e with asked := none, notBefore := s.time + 60000000000 } else e
      | none => e) }

/-- Blocks of 2 MiB that a release is asked for. -/
def State.askedBlocks (s : State) : Nat :=
  (s.extents.map (fun e => if e.asked.isSome then e.blocks else 0)).sum

/-- Hosts asked to release extents, those with the fewest backed pages first, at most 16 GiB outstanding. -/
def State.askReleases : Nat → State → State
  | 0, s => s
  | n + 1, s =>
    let cand := s.extents.filter (fun e => e.elastic && e.accepted && e.asked.isNone && decide (e.notBefore ≤ s.time) &&
      decide (s.askedBlocks + e.blocks ≤ 8192))
    match cand.foldl (fun (a : Option Extent) (e : Extent) => match a with
        | some x => if e.backed s < x.backed s then some e else some x
        | none => some e) none with
    | none => s
    | some e =>
      let s' := { s with extents := s.extents.map (fun x => if x == e then { x with asked := some s.time } else x) }
      State.askReleases n (s'.dcNotice e 3)

/-- The event of a ladder step. -/
def ladderEvent (k : Nat) : Nat × Nat :=
  [(0x20A, WARN), (0x20B, WARN), (0x20C, ERROR), (0x20D, ERROR), (0x20E, FATAL)].getD (k - 1) (0x20A, WARN)

/-- The ladder evaluated anew: every step that becomes active raises its event, and step 2 asks for releases. -/
def State.ladderEval (s : State) : State :=
  let k := s.ladderStep
  let s' := (List.range 5).foldl (fun (s : State) (i : Nat) =>
    if s.ladder < i + 1 ∧ i + 1 ≤ k then s.raise 12 (ladderEvent (i + 1)).1 (ladderEvent (i + 1)).2 none 0 0 else s) s
  let s' := { s' with ladder := k }
  if 2 ≤ k then s'.expireAsks.askReleases s'.extents.length else s'

/-- PRESSURE_LADDER (R127, R128). -/
def execPressureLadder (s : State) : Host.Outcome State Fault Refusal := .next (if s.engOn then s.ladderEval else s)

/-- An evaluation after an allocation or a release that crossed a threshold (R127). -/
def State.ladderCross (s : State) : State := if s.ladderStep = s.ladder then s else s.ladderEval

/-! ### Places (R108, R110, R123) -/

/-- No line of a frame lies on an offline Pier (R297). -/
def State.frameServed (s : State) (f : Nat) : Bool :=
  (List.range 64).all (fun i => match s.decode (4096 * f + 64 * i) with
    | some l => !s.offline l.prim
    | none => false)

/-- A frame of a frame span that nothing owns. -/
def State.frameFree (s : State) (f : Nat) : Bool :=
  (match s.spanOf (4096 * f) with | some i => s.frameSpan i | none => false) && (s.ownerOf f).isNone && s.frameServed f

/-- A frame lies where a VI's pages lie: in its key region, or outside every region (R216). -/
def State.frameFor (s : State) (t f : Nat) : Bool := s.regionId (4096 * f) == (s.vi t).regionId

/-- The tier a place gives a page. -/
def State.placeTier (s : State) : Place → Nat
  | .frame f => s.frameTier f.toNat
  | .desc _ => 2
  | .none => 3

/-- A descriptor is not in use. -/
def State.descFree (s : State) (x : Nat) : Bool :=
  decide (x < s.fld 2 Reg.HUB_XLAT_DESC_CNT_COUNT) && (match s.descPeek x with | some d => !descUsed d | none => false)

/-- A free frame whose partner is in use exists for an unmirrored VI's T0 page (R110). -/
def State.loneFrame (s : State) (t : Nat) : Bool :=
  let ok := fun (f : Nat) => s.frameTier f == 0 && s.frameFree f && s.frameFor t f
  (s.owner.any (fun x => decide (x.2 < 65536) && (match s.mirrorDa (4096 * x.1) with | some m => ok (m / 4096) | none => false))) ||
    s.vis.any (fun y => y.2.back.any (fun r => r.tier == 0 && r.mate.isNone && (match s.mirrorDa (4096 * r.base) with
      | some m => (cutAll [(m / 4096, r.count)] ((List.range 8).flatMap (fun i => s.usedRuns i))).any (fun x => ok x.1)
      | none => false)))

/-- A place is free for a page of a VI: a free frame, the whole pair for a mirrored VI in T0, else in T0 a frame whose partner is in
use where there is one (R110), or a descriptor not in use. Frames of the reserve are no free place. -/
def State.placeFree (s : State) (t : Nat) (pl : Place) : Bool :=
  match pl with
  | .frame f =>
    let mate := (s.mirrorDa (4096 * f.toNat)).map (fun m => m / 4096)
    s.frameFree f.toNat && s.frameFor t f.toNat &&
    (if s.frameTier f.toNat = 0 && (s.vi t).mirror then
      (match mate with
      | some m => s.frameFree m && s.frameFor t m
      | none => false)
    else decide (0 < s.freeOfTier (s.frameTier f.toNat)) &&
      (s.frameTier f.toNat != 0 || !s.loneFrame t || (match mate with | some m => (s.ownerOf m).isSome | none => true)))
  | .desc x => s.descFree x.toNat
  | .none => false

/-- Of the frames of one interleave round of a span, those that a test passes, and all of them. -/
def State.roundShare (s : State) (i : Nat) (ok : Nat → Bool) : Nat × Nat :=
  let step := max 1 (2 ^ s.spanShift i / 4096)
  (((List.range (s.spanCount i)).filter (fun m => ok (s.spanBase i / 4096 + m * step))).length, s.spanCount i)

/-- Free frames of a span in a key region that the engines may place: none with a line on an offline Pier (R297). -/
def State.openFrames (s : State) (i r : Nat) : Nat :=
  let sh := s.roundShare i s.frameServed
  if sh.1 = sh.2 then lenAll (s.frameGaps i r)
  else less (lenAll (s.regionParts i r) * sh.1 / sh.2)
    (lenAll ((meetAll (s.regionParts i r) (s.usedRuns i)).filter (fun x => s.frameServed x.1)))

/-- Free pairs of a paired span in a key region that the engines may place. -/
def State.openPairs (s : State) (i r : Nat) : Nat :=
  let ok := fun (f : Nat) => s.frameServed f && (match s.mirrorDa (4096 * f) with
    | some m => s.frameServed (m / 4096)
    | none => false)
  let sh := s.roundShare i ok
  lenAll (s.pairGaps i r) * sh.1 / sh.2

/-- Frames of a span outside the reserve that a page of a key region may take. -/
def State.openOutside (s : State) (i r : Nat) : Nat :=
  min (s.openFrames i r) (s.freeFrames i - (if s.reserveSpan = some i then s.reserveLeft else 0))

/-- Frames of the reserve that a page of a key region may take. -/
def State.openReserve (s : State) (r : Nat) : Nat :=
  match s.reserveSpan with
  | some i => min s.reserveLeft (s.openFrames i r)
  | none => 0

/-- Descriptors in use: the runs that back assured parts, and those written since. -/
def State.descsUsed (s : State) : List (Nat × Nat) :=
  let lo := s.descDa 0
  let hi := s.descDa (s.fld 2 Reg.HUB_XLAT_DESC_CNT_COUNT)
  let wrote := (s.storedLines lo hi).map (fun x => (x - lo) / 64)
  cutAll (s.vis.flatMap (fun x => (x.2.back.filter (fun r => r.tier == 2)).map (fun r => (r.base, r.count)))) (wrote.map (fun x => (x, 1)))
    ++ (wrote.filter (fun x => !s.descFree x)).map (fun x => (x, 1))

/-- The descriptors not in use. -/
def State.descGaps (s : State) : List (Nat × Nat) := cutAll [(0, s.fld 2 Reg.HUB_XLAT_DESC_CNT_COUNT)] s.descsUsed

/-- A tier has free space for a VI's page, in its key region: a pair for a mirrored page in T0, a frame outside the reserve, or free
sectors and a descriptor (R108, R110, R148). -/
def State.tierHasSpace (s : State) (t tier : Nat) : Bool :=
  let r := (s.vi t).regionId
  if tier = 0 ∧ (s.vi t).mirror then
    (List.range 8).any (fun i => s.frameSpan i && s.t0Span i && s.mirrorSpan i && decide (0 < s.openPairs i r))
  else if tier ≤ 1 then
    (List.range 8).any (fun i => s.frameSpan i && (s.t0Span i == (tier == 0)) && decide (0 < s.openOutside i r))
  else decide (0 < s.sectorFreeIn r) && !s.descGaps.isEmpty

/-- NEW_TIER and the tiers after it in the order T0, T1, T2 (R108), then those before it: an allocation takes free space where there
is any (R129; DEDUCED, log entry 98). -/
def State.tierOrder (s : State) : List Nat :=
  let k := min 2 (s.pol 0x103)
  [0, 1, 2].filter (fun x => decide (k ≤ x)) ++ [0, 1, 2].filter (fun x => decide (x < k))

/-- The first tier of the order with free space. -/
def State.firstTier (s : State) (t : Nat) : Option Nat := s.tierOrder.find? (fun k => s.tierHasSpace t k)

/-- A frame given to a VI: its owner map entry, with no heat (R36, R113). -/
def State.ownFrame (s : State) (t f : Nat) : State :=
  { s with owner := SMap.put s.owner f t, heat := SMap.del s.heat f, coolAt := SMap.put s.coolAt f s.time }

/-- A place claimed for a page: the owner map entries of the frame, or of the pair of a mirrored VI's T0 page, or a zero descriptor
(R36, R108, R110, R125). -/
def State.claim (s : State) (t : Nat) (pl : Place) : State :=
  match pl with
  | .frame f =>
    let s' := s.ownFrame t f.toNat
    match s.mirrorDa (4096 * f.toNat) with
    | some m =>
      if s.frameTier f.toNat = 0 && (s.vi t).mirror then
        { s'.ownFrame t (m / 4096) with pairs := SMap.put s.pairs (min f.toNat (m / 4096)) f.toNat }
      else s'
    | none => s'
  | .desc x => { s.descWrite x.toNat (descPack t 0 0 true []) with heat := SMap.del s.heat (2 ^ 40 + x.toNat) }
  | .none => s

/-- A claimed place given back. -/
def State.unclaim (s : State) (t : Nat) (pl : Place) : State :=
  match pl with
  | .frame f => if s.ownerOf f.toNat = some t then s.freePair f.toNat else s
  | .desc x => s.freeDesc x.toNat
  | .none => s

/-- A place can be claimed and given back now: its descriptor's counter line is cached, where it has one (R167, R168). -/
def State.placeReady (s : State) : Place → Bool
  | .desc x => s.descReady x.toNat
  | _ => true

/-- TIER and ADDR of the leaf that names a place. -/
def State.placeLeaf (s : State) (pl : Place) : Nat :=
  match pl with
  | .frame f => 4 * s.frameTier f.toNat + 4096 * f.toNat
  | .desc x => 8 + 4096 * x.toNat
  | .none => 12

/-- The leaf for a place with V set and A and W carried from another (R117, R121). -/
def State.leafFor (s : State) (pl : Place) (e : Nat) : Nat := 1 + s.placeLeaf pl + 32 * b2n (leafA e) + 64 * b2n (leafW e)

/-- The lines of a frame written, each with its poison, under the owner's seed (R108, R118): none where a write would have
to wait or is refused. -/
def State.writeFrame (s : State) (t tier da : Nat) : List (BitVec 512 × Bool) → Option State
  | [] => some s
  | (d, p) :: ls =>
    match s.writePlain da t tier d p (0, 0, 0) with
    | (s', .ok) => State.writeFrame s' t tier (da + 64) ls
    | (_, _) => none

/-- A frame zero-filled (R108 step 2). -/
def State.zeroFill (s : State) (t : Nat) (pl : Place) : Option State :=
  match pl with
  | .frame f => s.writeFrame t (s.frameTier f.toNat) (4096 * f.toNat) (List.replicate 64 (0, false))
  | _ => some s

/-! ### Allocation (R108, R128 to R130) -/

/-- The reserve serves an elastic page of a VI: no tier has free space, ladder step 4 holds, and a frame of it is left in the VI's key
region (R126, R128). -/
def State.reserveServes (s : State) (t page : Nat) : Bool :=
  (s.vi t).elastic page && (s.firstTier t).isNone && decide (4 ≤ s.ladderStep) && decide (0 < s.openReserve (s.vi t).regionId)

/-- A place in the reserve that an elastic page may take: a free T1 frame of the reserve's span. -/
def State.reservePlace (s : State) (t page : Nat) (pl : Place) : Bool :=
  match pl with
  | .frame f => s.reserveServes t page && s.frameFree f.toNat && s.frameFor t f.toNat && s.reserveSpan == s.spanOf (4096 * f.toNat)
  | _ => false

/-- The place is the one the rules lead to: in the first tier of the order that has space. -/
def State.placeOk (s : State) (t page : Nat) (pl : Place) : Bool :=
  (s.placeFree t pl && s.firstTier t == some (s.placeTier pl)) || s.reservePlace t page pl

/-- Bytes charged to MOVE_GBPS, the rate of moves and zero-fill over all engines (R114). -/
def State.moveCharge (s : State) (bytes : Nat) : State :=
  { s with moveAt := max s.moveAt s.time + bytes / max 1 (s.pol 0x10B) }

/-- A page placed for the writes held on it; it waits where a line it writes waits for its counter. -/
def State.placePage (s : State) (t page da e : Nat) (pl : Place) : State :=
  if !s.metaReady da || !s.placeReady pl then s
  else
  match (s.claim t pl).zeroFill t pl with
  | none => s
  | some s' =>
    match (s'.moveCharge 4096).casEntry da e (s.leafFor pl e) {} with
    | (s', true) => (s'.invalidate t page 1 false).ladderCross
    | (s', false) => s'.unclaim t pl

/-- Held writes of a page with no space left: discarded and completed (R130 step 4). -/
def State.dropHeld (s : State) (t page : Nat) : State :=
  (s.reqs.filter (fun x => x.2.phase == .heldAlloc && x.2.vi == t && x.2.via / 4096 == page)).foldl
    (fun (s : State) (x : Nat × Req) => s.complete x.1 x.2) s

/-- PAGE_ALLOCATE (R108, R130): the engine's choice of place for a write held for allocation; a place the rules do not allow
is none. -/
def execPageAllocate (id : BitVec 32) (place : Place) (s : State) : Host.Outcome State Fault Refusal :=
  match s.req? id.toNat with
  | none => .next s
  | some r =>
    if r.phase != .heldAlloc || !s.engOn then .next s
    else
      let page := r.via / 4096
      match s.findLeaf r.vi r.via with
      | none => .next s
      | some (da, _, e) =>
        if !leafV e || leafTier e != 3 || !leafM e then .next ((s.invalidate r.vi page 1 false).settle r.port)
        else if s.placeOk r.vi page place then .next ((s.placePage r.vi page da e place).settle r.port)
        else if place == .none && (s.vi r.vi).elastic page && (s.firstTier r.vi).isNone && !s.reserveServes r.vi page &&
            s.metaReady da then
          .next (((s.dropHeld r.vi page).exhaustPage r.vi page).settle r.port)
        else .next s

/-! ### Moves (R116 to R121) -/

def State.moveOf (s : State) (t page : Nat) : Option MoveLog := s.moves.find? (fun m => m.vi == t && m.page == page)
def State.clearMove (s : State) (t page : Nat) : State :=
  { s with moves := s.moves.filter (fun m => !(m.vi == t && m.page == page)) }
def State.setMove (s : State) (m : MoveLog) : State :=
  { s with moves := s.moves.map (fun x => if x.vi == m.vi && x.page == m.page then m else x) }

/-- MOVE_ABANDONED (R119). -/
def State.abandon (s : State) (t page : Nat) : State :=
  (s.clearMove t page).raise 13 0x209 INFO (some t) 0 0

/-- Engines start moves on a VI (R116, R345). -/
def Vi.movable (v : Vi) : Bool := v.st == .active && !v.telemetry

/-- A destination a move may take: free, and of another place than the page's own. -/
def State.moveDest (s : State) (t : Nat) (pl : Place) : Bool := s.placeFree t pl && s.tierHasSpace t (s.placeTier pl)

/-- The heat key of a leaf's place, and of a place. -/
def heatKey (e page : Nat) : Nat := if leafTier e = 2 then 2 ^ 40 + leafAddr e else leafDa e 1 (4096 * page) / 4096
def placeKey : Place → Nat
  | .frame f => f.toNat
  | .desc x => 2 ^ 40 + x.toNat
  | .none => 2 ^ 41

/-- A frame's page cools for so many seconds (R114). -/
def State.cooledFor (s : State) (key secs : Nat) : Bool :=
  decide (s.heatOf key < s.coolBelow key) && decide (SMap.getD s.coolAt key 0 + 1000000000 * secs ≤ s.time)

/-- No page of a tier that engines may move is colder (R114, R128). -/
def State.coldest (s : State) (tier h : Nat) : Bool :=
  let free := fun (t f : Nat) => (s.vi t).movable && s.frameTier f == tier && !s.moves.any (fun m => heatKey m.e0 m.page == f)
  s.owner.all (fun x => 65536 ≤ x.2 || !free x.2 x.1 || (SMap.get? s.pairs x.1).isSome || h ≤ s.heatOf x.1) &&
    s.vis.all (fun y => !y.2.movable || y.2.back.all (fun r => r.tier != tier || h = 0 ||
      (cutAll [(r.base, r.count)] (((s.heat.filter (fun x => decide (h ≤ x.2))).map (fun x => (x.1, 1))) ++
        s.owner.map (fun x => (x.1, 1)))).isEmpty))

/-- T0 has fewer free frames than T0_FREE_PCT asks for (R114). -/
def State.t0Short (s : State) : Bool :=
  let sp := pick 8 (fun i => s.frameSpan i && s.t0Span i)
  decide (100 * (sp.map (fun i => s.freeFrames i)).sum < s.pol 0x107 * (sp.map (fun i => s.spanFrames i)).sum)

/-- A page is moved away from where a line of it lies: its Pier is offline or its rank is retired (R75, R76, R297). -/
def State.evacuates (s : State) (e page : Nat) : Bool :=
  leafTier e ≤ 1 && (List.range 64).any (fun i => match s.lineMa (leafDa e 1 (4096 * page) + 64 * i) 0 with
    | some m => s.offline m.hpier || s.offline m.pier || s.rankRetired m.hpier m.prank
    | none => false)

/-- The policy lets a page move from its place to a tier (R114, R115, R128): up at a promotion threshold; down once it has cooled for
long enough, or coldest first regardless of age at ladder step 1, and from T0 also to keep T0_FREE_PCT free. T2_AGE_S 0 compresses
nothing by age. -/
def State.moveWanted (s : State) (e page tier : Nat) : Bool :=
  let key := heatKey e page
  let h := s.heatOf key
  let step1 := decide (1 ≤ s.ladder)
  match leafTier e, tier with
  | 1, 0 => decide (s.pol 0x104 ≤ h)
  | 0, 1 => s.cooledFor key (s.pol 0x106) || (step1 && decide (h < s.pol 0x105) && s.coldest 0 h) || (s.t0Short && s.coldest 0 h)
  | 1, 2 => (s.pol 0x109 != 0 && s.cooledFor key (s.pol 0x109)) || (step1 && decide (h < s.pol 0x108) && s.coldest 1 h)
  | 2, 1 => decide (s.pol 0x10A ≤ h)
  | _, _ => false

/-- MOVE_START (R114 to R117): a move that the policy wants or that leaves a failing place is logged, M set by compare-and-write, and
the first invalidation run; MOVE_GBPS paces the starts. -/
def execMoveStart (eng : Fin 64) (vi : BitVec 16) (page : BitVec 45) (dest : Place) (s : State) :
    Host.Outcome State Fault Refusal :=
  let t := vi.toNat
  let pg := page.toNat
  if !s.engNew || s.urg3 || !(s.vi t).movable || (s.moveOf t pg).isSome || decide (s.time < s.moveAt) || !s.moveDest t dest ||
      !s.placeReady dest then .next s
  else
    match s.findLeaf t (4096 * pg) with
    | some (da, 1, e) =>
      if !leafV e || leafM e || leafTier e == 3 || !s.metaReady da ||
          !(s.moveWanted e pg (s.placeTier dest) || s.evacuates e pg) then .next s
      else
        let s := { s with moves := ⟨t, pg, e, dest, eng.val, 1, false⟩ :: s.moves }
        match s.casEntry da e (e + 2) {} with
        | (s, true) => .next (((s.claim t dest).moveCharge 4096).invalidate t pg 1 false)
        | (s, false) => .next (s.abandon t pg)
    | _ => .next s

/-- The home's lines of a page at a leaf. -/
def leafLines (e page : Nat) : List Nat :=
  if leafTier e = 2 then (List.range 64).map (fun i => t2Line (leafAddr e) i)
  else (List.range 64).map (fun i => leafDa e 1 (4096 * page) / 64 + i)

/-- No request of any sender is under way on a page's lines (R99, R103). -/
def State.pageQuiet (s : State) (e page : Nat) : Bool :=
  let ls := leafLines e page
  !s.reqs.any (fun x => (x.2.phase.tracked || x.2.phase == .chained) && ls.contains x.2.line)

/-- Host copies of a page's lines recalled (R118); the answer says that none remains. -/
def State.recallPage (s : State) (t e page : Nat) : State × Bool :=
  (leafLines e page).foldl (fun (x : State × Bool) (l : Nat) =>
    match x.1.recall t l true none with
    | (s, ok) => (s, x.2 && ok)) (s, true)

/-- The lines of a T0 or T1 page read one by one (R118), for a manager command or for the engines' own work. -/
def State.readFrame (s : State) (t : Nat) (mgr : Bool) : List Nat → List Bursts → State × Option (List (BitVec 512 × Bool))
  | [], _ => (s, some [])
  | da :: ds, bs =>
    match s.readPlain da t (bs.headD {}) none (if mgr then some (s.mgrFlt da) else none) with
    | (_, .wait) => (s, none)
    | (s1, r) =>
      match State.readFrame s1 t mgr ds bs.tail with
      | (_, none) => (s, none)
      | (s2, some ls) => (s2, some ((match r with | .ok d => (d, false) | .poison d => (d, true) | .wait => (0, true)) :: ls))

/-- A T2 page read whole with its buffered writes, its descriptor and its page CRC checked (R142, R144). -/
def State.readT2Page (s : State) (t x : Nat) (bs : List Bursts) : State × Option (List (BitVec 512 × Bool)) :=
  let lost := List.replicate 64 ((0 : BitVec 512), true)
  let invalid := fun (s : State) => s.raise (135 + 16 * s.descPier x) 0x303 ERROR (some t) (s.descDa x) 0
  match s.descRead x {} with
  | (_, .wait) => (s, none)
  | (s, .poison _) => (invalid s, some lost)
  | (s0, .ok dw) =>
    let d := dw.toNat
    if s0.descCheck d t = .foreign then (s0, some lost)
    else if s0.descCheck d t != .ok then (invalid s0, some lost)
    else
      match s0.readPage (descVi d) (descRecs d) bs with
      | (_, none) => (s, none)
      | (s, some subs) =>
        let raw := subs.flatten
        let bad := !raw.any (fun l => l.2) && crc32c (raw.flatMap (fun l => lineBytes l.1)) != descCrc d
        let s := if bad then s.raise (136 + 16 * s.descPier x) 0x304 ERROR (some (descVi d)) (s.descDa x) 0 else s
        let merged := subs.zipIdx.map (fun y => match s.wbufEnt x y.2 with
          | some w => wbufOver y.1 w.lines
          | none => y.1)
        (s, some (merged.flatten.map (fun l => if bad then (l.1, true) else l)))

/-- The plaintext lines of a page at a leaf. -/
def State.readPageAt (s : State) (t e page : Nat) (bs : List Bursts) : State × Option (List (BitVec 512 × Bool)) :=
  if leafTier e = 2 then s.readT2Page t (leafAddr e) bs
  else s.readFrame t false ((leafLines e page).map (fun l => 64 * l)) bs

/-- Sixteen lines at a time. -/
def quarters (ls : List (BitVec 512 × Bool)) : List (List (BitVec 512 × Bool)) :=
  (List.range 4).map (fun i => (ls.drop (16 * i)).take 16)

/-- The sub-blocks of a page compressed, placed and recorded in its descriptor (R118, R133, R152): none where a stream is none that
the compressor puts out, or no stripe of the region is open or queued. -/
def State.fillDesc (s : State) (t x : Nat) : List (Nat × List (BitVec 512 × Bool)) → List (List Nat) → List SbRec →
    Option (State × List SbRec)
  | [], _, rs => some (s, rs)
  | (sb, ls) :: rest, streams, rs =>
    let n := s.descPier x
    if !s.codecOpen n || !s.emitOk n t ls (streams.headD []) then none
    else
      match s.storeForm n t ls (streams.headD []) with
      | (s1, f, pl) =>
        if f.cnt = 0 then State.fillDesc s1 t x rest streams.tail (rs ++ [f])
        else
          match s1.place n (s.vi t).regionId f.cnt x sb pl with
          | (_, none) => none
          | (s2, some first) => State.fillDesc s2 t x rest streams.tail (rs ++ [{ f with sector := first }])

/-- A page's lines written at a place: a frame line by line, a descriptor through its sub-blocks. -/
def State.writePlace (s : State) (t : Nat) (pl : Place) (ls : List (BitVec 512 × Bool)) (streams : List (List Nat)) :
    Option State :=
  match pl with
  | .frame f => s.writeFrame t (s.frameTier f.toNat) (4096 * f.toNat) ls
  | .desc x =>
    (s.fillDesc t x.toNat ((quarters ls).zipIdx.map (fun y => (y.2, y.1))) streams []).map (fun y =>
      y.1.descWrite x.toNat (descPack t y.2.length (crc32c (ls.flatMap (fun l => lineBytes l.1))) true y.2))
  | .none => none

/-- Two leaves differ in a field other than M, A and W (R117). -/
def leafChanged (e e0 : Nat) : Bool :=
  setBits (setBits e 1 1 0) 5 2 0 != setBits (setBits e0 1 1 0) 5 2 0

/-- The copy ended: D is named in the leaf and the second invalidation run, or the move is abandoned (R117). -/
def State.nameDest (s : State) (m : MoveLog) : State :=
  match s.findLeaf m.vi (4096 * m.page) with
  | none => (s.unclaim m.vi m.dest).abandon m.vi m.page
  | some (da, _, e) =>
    if !leafM e || leafChanged e m.e0 then (s.unclaim m.vi m.dest).abandon m.vi m.page
    else
      match s.casEntry da e (s.leafFor m.dest e) {} with
      | (s, false) => (s.unclaim m.vi m.dest).abandon m.vi m.page
      | (s, true) =>
        let h := s.heatOf (heatKey m.e0 m.page)
        let s := if h = 0 then s else { s with heat := SMap.put s.heat (placeKey m.dest) h }
        (s.setMove { m with stage := 3 }).invalidate m.vi m.page 1 false

/-- A move's destination lies in sectors of an open stripe, which no leaf may name yet (R155). -/
def State.destOpen (s : State) (m : MoveLog) : Bool :=
  match m.dest with
  | .desc x => match s.descPeek x.toNat with
    | some d => (descRecs d).any (fun r => r.cnt != 0 && (match s.stripeBase r.sector with
        | some (_, b) => (s.openStripe b).isSome
        | none => false))
    | none => true
  | _ => false

/-- The lines a move reads and writes can be reached now: no pause, frequency change or stopped Pier holds them (R121). -/
def State.moveRuns (s : State) (m : MoveLog) : Bool :=
  let at_ := fun (da : Nat) => (List.range 64).all (fun i => s.lineRuns (da + 64 * i))
  (if leafTier m.e0 = 2 then
    match s.descPeek (leafAddr m.e0) with
    | some d => (descRecs d).all (fun r => (s.recLines r).all (fun da => s.lineRuns da))
    | none => true
  else at_ (leafDa m.e0 1 (4096 * m.page))) &&
  (match m.dest with
    | .frame f => at_ (4096 * f.toNat) && (match s.mirrorOf (4096 * f.toNat) m.vi with | some d => at_ d | none => true)
    | _ => true)

/-- The descriptor that a leaf names can be freed now (R167, R168). -/
def State.leafPlaceReady (s : State) (e : Nat) : Bool := leafTier e != 2 || s.descReady (leafAddr e)

/-- The leaf of a page can be written now, and so can a move's destination (R167, R168). -/
def State.moveReady (s : State) (m : MoveLog) : Bool := s.leafReady m.vi m.page && s.placeReady m.dest

/-- MOVE_COPY_DONE (R117, R118, R121): waits while host copies or requests of S remain, while a line cannot be reached or a counter
line is not cached, and behind URG level 3 (R116). A copy into T2 ends once its stripes are written, with the command given again
(R155). -/
def execMoveCopyDone (vi : BitVec 16) (page : BitVec 45) (bs : List Bursts) (streams : List (List (BitVec 8))) (s : State) :
    Host.Outcome State Fault Refusal :=
  match s.moveOf vi.toNat page.toNat with
  | none => .next s
  | some m =>
    if !s.engOn || s.urg3 || m.suspect || !s.moveReady m then .next s
    else if m.stage = 2 then .next (if s.destOpen m then s else (s.nameDest m).release)
    else if m.stage != 1 || !s.pageQuiet m.e0 m.page || !s.moveRuns m then .next s
    else
      match s.recallPage m.vi m.e0 m.page with
      | (s, false) => .next s
      | (s0, true) =>
        match s0.readPageAt m.vi m.e0 m.page bs with
        | (_, none) => .next s0
        | (s1, some ls) =>
          match s1.writePlace m.vi m.dest ls (streams.map nats) with
          | none => .next s0
          | some s2 => .next (if s2.destOpen m then (s2.setMove { m with stage := 2 }).release else (s2.nameDest m).release)

/-- MOVE_FINISH (R117): S is freed once nothing is under way on it, and the log cleared. -/
def execMoveFinish (vi : BitVec 16) (page : BitVec 45) (s : State) : Host.Outcome State Fault Refusal :=
  match s.moveOf vi.toNat page.toNat with
  | none => .next s
  | some m =>
    if m.stage != 3 || !s.engOn || m.suspect || !s.pageQuiet m.e0 m.page || !s.leafPlaceReady m.e0 then .next s
    else .next ((s.freeLeaf m.vi m.e0 (4096 * m.page)).clearMove m.vi m.page).ladderCross

/-- The leaf names a move's destination. -/
def State.namesDest (s : State) (m : MoveLog) (e : Nat) : Bool :=
  leafV e && 4 * bits e 2 2 + 4096 * leafAddr e == s.placeLeaf m.dest

/-- MOVE_LOG_RESOLVE (R120): of a move that coast or a passed baton interrupted; S is freed once nothing is under way on it. -/
def execMoveLogResolve (vi : BitVec 16) (page : BitVec 45) (s : State) : Host.Outcome State Fault Refusal :=
  match s.moveOf vi.toNat page.toNat with
  | none => .next s
  | some m =>
    if !s.engOn || !m.suspect || !s.moveReady m then .next s
    else
      match s.findLeaf m.vi (4096 * m.page) with
      | none => .next ((s.unclaim m.vi m.dest).clearMove m.vi m.page)
      | some (da, _, e) =>
        if s.namesDest m e then
          if !s.pageQuiet m.e0 m.page || !s.leafPlaceReady m.e0 then .next s
          else
            let s := s.invalidate m.vi m.page 1 false
            .next ((s.freeLeaf m.vi m.e0 (4096 * m.page)).clearMove m.vi m.page).ladderCross
        else
          let s := if leafM e && !leafChanged e m.e0 then (s.casEntry da e (e - 2) {}).1 else s
          let s := s.invalidate m.vi m.page 1 false
          .next ((s.unclaim m.vi m.dest).clearMove m.vi m.page)

end Sys2Proof.Machine
end

