-- ==== Sys2Proof/Machine/Command.lean ====
section
/-!
DEFINITION. The envelope of management commands (R219, R262, R263, R320): how a command reaches the engines over each path,
when it runs, and how its response goes back.
-/
namespace Sys2Proof.Machine

/-! ### CXL mailbox return codes (R263; the numbers are those of CXL 3.1) -/

def ccSuccess : Nat := 0x0000
def ccStarted : Nat := 0x0001
def ccInvalid : Nat := 0x0002
def ccUnsupported : Nat := 0x0003
def ccBusy : Nat := 0x0006
def ccPayload : Nat := 0x0016

/-! ### Status codes (R219, R321) -/

def stDone : Nat := 0x00
def stNoContext : Nat := 0x01
def stBadField : Nat := 0x02
def stSizeZero : Nat := 0x03
def stBadKey : Nat := 0x04
def stNoCapacity : Nat := 0x05
def stNoBandwidth : Nat := 0x06
def stNoMetadata : Nat := 0x07
def stBadState : Nat := 0x08
def stBadBinding : Nat := 0x09
def stNoStaging : Nat := 0x0A
def stBadBlob : Nat := 0x0B
def stBusy : Nat := 0x0C
def stRefused : Nat := 0x0D

/-- The LD key of the FM-owned LD: the manager port's seventeenth (R241, R261). -/
def State.fmLd (s : State) : LogDev := s.ldev s.mgrPort 16

/-- A response returned to a path (R263, R320): the mailbox slot sets DONE with MSI-X vector 0 of the FM-owned LD; a
background command leaves its response for Get Background Operation Status. -/
def State.respondCmd (s : State) (src : CmdSrc) (op : Nat) (rsp : List Nat) : State :=
  let rsp := padTo (vendorRsp op) rsp
  match src with
  | .mbx k =>
    let s := { s with mbx := SMap.put s.mbx k.val { (s.mbox k.val) with rsp := padTo 256 rsp } }
    let s := ((s.put 8 (Reg.MBX_STAT_BUSY k.val) 0).put 8 (Reg.MBX_STAT_DONE k.val) 1).put 8
      (Reg.MBX_STAT_STATUS k.val) (rsp.headD 0)
    s.emit (.msix s.mgrPort 16 0)
  | .fmLd =>
    if vendorBg op then
      let s := s.setLdev s.mgrPort 16 { s.fmLd with bg := some (op, true, rsp) }
      s.emit (.msix s.mgrPort 16 2)
    else s.emit (.reply src ccSuccess rsp)
  | .i3c => s.emit (.reply src ccSuccess rsp)
  | .hostLd _ _ => s.emit (.reply src ccUnsupported [])

/-- A command of the path runs already: one on the FM-owned LD in the background, one over I3C (R262). -/
def State.pathBusy (s : State) (src : CmdSrc) (op : Nat) : Bool :=
  match src with
  | .fmLd => vendorBg op && (match s.fmLd.bg with | some (_, done, _) => !done | none => false) &&
      s.running.any (fun x => x.2.2 == .fmLd)
  | .i3c => s.running.any (fun x => x.2.2 == .i3c)
  | _ => false

/-- A mailbox slot holds this command for the engines (R320). -/
def State.mbxHolds (s : State) (k op : Nat) : Bool :=
  s.flag 8 (Reg.MBX_STAT_BUSY k) && (s.mbox k).op == op

/-- A vendor command that arrives over a path (R262, R263): refused by the path, left waiting while the engines are away or
the slot does not hold it, or run on its payload. A run without a response goes on until a later step ends it. -/
def State.vendor (s : State) (src : CmdSrc) (op : Nat) (req : List Nat)
    (run : State → List Nat → State × Option (List Nat)) : State :=
  match src with
  | .hostLd _ _ => s.emit (.reply src ccUnsupported [])
  | .mbx k =>
    if !s.mbxHolds k.val op || !s.engNew || s.running.any (fun x => x.2.2 == src) then s
    else
      match run s (padTo ((vendorReq op).getD 0) (s.mbox k.val).req) with
      | (s, some rsp) => s.respondCmd src op rsp
      | (s, none) => s
  | _ =>
    if some req.length != vendorReq op then s.emit (.reply src ccPayload [])
    else if s.pathBusy src op then s.emit (.reply src ccBusy [])
    else if !s.engNew then s
    else
      let s := if src = .fmLd ∧ vendorBg op ∧ s.fmLd.bg ≠ some (op, false, []) then
          (s.setLdev s.mgrPort 16 { s.fmLd with bg := some (op, false, []) }).emit (.reply src ccStarted [])
        else s
      match run s req with
      | (s, some rsp) => s.respondCmd src op rsp
      | (s, none) => s

/-- The command goes on under a key: a VI's tag, or 65,536 plus a slot. -/
def State.keepRunning (s : State) (key op : Nat) (src : CmdSrc) : State :=
  { s with running := SMap.put s.running key (op, src) }

/-- The command that runs under a key ends with a response. -/
def State.endRunning (s : State) (key : Nat) (rsp : List Nat) : State :=
  match SMap.get? s.running key with
  | some (op, src) => ({ s with running := SMap.del s.running key } : State).respondCmd src op rsp
  | none => s

/-! ### The metadata reserve (R391) -/

/-- A slot's region has counter storage: its mode, or the mode it is rotated to, keeps counters (R173, R186). -/
def State.hasCtrs (s : State) (k : Nat) : Bool :=
  2 ≤ (s.slot k).st && (s.slot k).st != 5 && ((s.slot k).mode != 0 || (s.rotating && k == s.rotSrc && (s.slot s.rotDst).mode != 0))

/-- The frame ranges of a slot's counter storage. -/
def State.ctrRanges (s : State) (k : Nat) : List (Nat × Nat) :=
  if !s.hasCtrs k then []
  else (List.range (s.treeLevels k + 1)).map (fun l => (s.ctrDa k l 0 / 4096, ceilDiv (s.ctrCount k l) 64))

/-- The frame ranges taken on demand: table pools, dirty bitmaps and counter storage. -/
def State.onDemand (s : State) : List (Nat × Nat) :=
  s.vis.flatMap (fun x => if x.2.st = .free then [] else
    (x.2.tpoolBase, x.2.tpoolTables) :: (if x.2.dirtyLog then [(x.2.dlogBase, 8 * x.2.winG)] else []))
  ++ (List.range 16).flatMap (fun k => s.ctrRanges k)

/-- Two ranges share no frame. -/
def apart (a b : Nat × Nat) : Bool := a.1 + a.2 ≤ b.1 || b.1 + b.2 ≤ a.1

/-- A frame range fits in the on-demand part of the metadata reserve, apart from what is taken. -/
def State.metaFits (s : State) (r : Nat × Nat) : Bool :=
  s.metaNext ≤ r.1 && 4096 * (r.1 + r.2) ≤ s.spanBase s.metaSpan + s.spanSize s.metaSpan && s.onDemand.all (fun x => apart r x)

/-- Several ranges fit together. -/
def State.metaFitsAll (s : State) : List (Nat × Nat) → Bool
  | [] => true
  | r :: t => s.metaFits r && t.all (fun x => apart r x) && State.metaFitsAll s t

end Sys2Proof.Machine
end

