-- ==== Sys2Proof/Machine/KeyCmds.lean ====
section
/-!
DEFINITION. Key slots, regions and rotation (R161 to R191): loading and clearing keys, the key map, region setup and release,
rotation of lines and stripes, the counter cache with its tree, and trusting rebuilds.
-/
namespace Sys2Proof.Machine

/-! ### Keys and the key map (R163, R165, R191) -/

/-- A write of HUB_KEY_LOAD. -/
def State.writeKeyLoad (s : State) (v : Nat) : State :=
  let k := bits v 0 4
  let mode := bits v 4 2
  let s := (s.put 3 Reg.HUB_KEY_LOAD_SLOT k).put 3 Reg.HUB_KEY_LOAD_MODE mode
  let s := if v.testBit 7 then s.put 3 Reg.HUB_KEY_LOAD_REFUSED 0 else s
  if !v.testBit 6 then s
  else if (s.slot k).st != 0 || mode == 3 then s.put 3 Reg.HUB_KEY_LOAD_REFUSED 1
  else
    let d := if mode = 0 then 0 else ofLe (padTo 32 s.stage)
    let t := if mode = 0 then 0 else ofLe (padTo 32 (s.stage.drop 32))
    { s.setSlot k { KSlot.blank with st := 1, mode := mode, dataKey := BitVec.ofNat 256 d, tagKey := BitVec.ofNat 256 t }
      with stage := [] }

/-- HUB_KEY_LOAD (R163). -/
def execHubKeyLoad (v : BitVec 32) (s : State) : Host.Outcome State Fault Refusal := .next (s.writeKeyLoad v.toNat)

/-- A write of HUB_KEY_CLEAR. -/
def State.writeKeyClear (s : State) (v : Nat) : State :=
  let k := bits v 0 4
  let s := s.put 3 Reg.HUB_KEY_CLEAR_SLOT k
  let s := if v.testBit 5 then s.put 3 Reg.HUB_KEY_CLEAR_REFUSED 0 else s
  if !v.testBit 4 then s
  else if (s.slot k).st != 1 then s.put 3 Reg.HUB_KEY_CLEAR_REFUSED 1
  else s.setSlot k KSlot.blank

/-- HUB_KEY_CLEAR (R163). -/
def execHubKeyClear (v : BitVec 32) (s : State) : Host.Outcome State Fault Refusal := .next (s.writeKeyClear v.toNat)

/-- A key map entry names a slot that software may not touch: ACTIVE, ROT_SRC or ROT_DST (R191). An entry without EN names
none. -/
def State.kmapFixed (s : State) (e : Nat) : Bool := e.testBit 4 && 3 ≤ (s.slot (e % 16)).st

/-- A write of HUB_KMAP_DATA. -/
def State.writeKmap (s : State) (v : Nat) : State :=
  let g := s.fld 3 Reg.HUB_KMAP_IDX_GIB
  let s := if v.testBit 31 then s.put 3 Reg.HUB_KMAP_DATA_REFUSED 0 else s
  let e := bits v 0 5 + 256 * bits v 8 14
  if s.kmapFixed (SMap.getD s.kmap g 0) || s.kmapFixed e then s.put 3 Reg.HUB_KMAP_DATA_REFUSED 1
  else { s with kmap := if e = 0 then SMap.del s.kmap g else SMap.put s.kmap g e }

/-- KMAP_WRITE (R191). -/
def execKmapWrite (v : BitVec 32) (s : State) : Host.Outcome State Fault Refusal := .next (s.writeKmap v.toNat)

/-! ### Region setup and release (R163, R173, R183) -/

/-- The granules that a REGION_SETUP payload names, ascending, none twice (R321). -/
def setupGranules (p : List Nat) : List Nat :=
  let all := (List.range (pb p 1)).flatMap (fun i =>
    (List.range (pf p (11 + 6 * i) 3 % 2 ^ 18)).map (fun j => pf p (8 + 6 * i) 3 % 2 ^ 18 + j))
  (all.mergeSort (fun a b => a ≤ b)).eraseDups

/-- The bytes of a REGION_SETUP payload that are not listed are zero. -/
def setupClean (p : List Nat) : Bool :=
  zeroBytes p [2, 3, 4, 5, 6, 7] && pb p 0 < 16

/-- The granule of the register aperture (R398). -/
def apertureGranule : Nat := 0xFFFFFC000000 / 2 ^ 30

/-- A frame range shares no granule of a list. -/
def offGranules (gs : List Nat) (r : Nat × Nat) : Bool :=
  r.2 == 0 || !gs.any (fun g => r.1 / 262144 ≤ g && g ≤ (r.1 + r.2 - 1) / 262144)

/-- Tree levels over a number of granules: h of R178. -/
def treeHeight (g : Nat) : Nat :=
  ((List.range 11).find? (fun h => 2 ^ 18 * g ≤ 8 ^ (h + 1))).getD 10

/-- The storage ranges that an engine proposes for a region: the counter lines, and each tree level. -/
def storageRanges (g mode ctrBase : Nat) (lvls : List Nat) : List (Nat × Nat) :=
  if mode = 0 then []
  else (ctrBase, ceilDiv (2 ^ 18 * g) 64) ::
    (if mode = 2 then (List.range (treeHeight g)).map (fun l =>
      (lvls.getD l 0, ceilDiv (ceilDiv (2 ^ 18 * g) (8 ^ (l + 1))) 64)) else [])

/-- Storage registers of a slot written, and the old lines of the new storage forgotten (R173); mode off has none. -/
def State.setStorage (s : State) (k g mode ctrBase : Nat) (lvls : List Nat) (fresh : List (Nat × Nat)) : State :=
  let h := if mode = 2 then treeHeight g else 0
  let s := fresh.foldl (fun (s : State) (r : Nat × Nat) => s.dropFrames r.1 (r.1 + r.2)) s
  let s := (if mode = 0 then s else s.put 3 (Reg.HUB_KSLOT_CTR_BASE k) ctrBase).put 3 (Reg.HUB_KSLOT_TREE_LEVELS k) h
  (List.range h).foldl (fun (s : State) (l : Nat) => s.put 3 (Reg.HUB_KTREE_LVL_BASE k (l + 1)) (lvls.getD l 0)) s

/-- No granule of a frame range is EN, as the storage of counters asks (R162). -/
def State.offEn (s : State) (r : Nat × Nat) : Bool :=
  offGranules ((s.kmap.filter (fun x => x.2.testBit 4)).map Prod.fst) r

/-- The region's granules entered in the key map with their ranks (R162). -/
def State.mapGranules (s : State) (k : Nat) (gs : List Nat) : State :=
  { s with kmap := gs.zipIdx.foldl (fun (m : SMap Nat) (x : Nat × Nat) => SMap.put m x.1 (k + 16 + 256 * x.2)) s.kmap }

/-- A counter-storage frame of any region lies in a granule. -/
def State.holdsStorage (s : State) (g : Nat) : Bool :=
  (List.range 16).any (fun k => (s.ctrRanges k).any (fun r => !offGranules [g] r))

/-- The status of a REGION_SETUP, DONE where it is accepted (R183, R321). -/
def State.setupCheck (s : State) (p : List Nat) (ctrBase : Nat) (lvls : List Nat) : Nat :=
  let k := pb p 0
  let gs := setupGranules p
  let rs := storageRanges gs.length (s.slot (k % 16)).mode ctrBase lvls
  if !setupClean p || pb p 1 = 0 || 8 < pb p 1 then stBadField
  else if (s.slot k).cmd then stBusy
  else if (s.slot k).st != 1 || gs.isEmpty || decide (16384 < gs.length) then stRefused
  else if gs.any (fun g => (SMap.getD s.kmap g 0).testBit 4 || g == apertureGranule || s.holdsStorage g) then stRefused
  else if !s.metaFitsAll rs || !rs.all (offGranules gs) || !rs.all s.offEn then stNoMetadata
  else stDone

/-- REGION_SETUP (R183): the slot goes to INIT with its map, storage and a fresh tree key; the response waits for the
storage. -/
def execRegionSetup (src : CmdSrc) (req : List (BitVec 8)) (ctrBase : BitVec 36) (lvlBases : List (BitVec 36)) (s : State) :
    Host.Outcome State Fault Refusal :=
  .next (s.vendor src 0xC200 (nats req) (fun (s : State) (p : List Nat) =>
    let lv := lvlBases.map BitVec.toNat
    let c := s.setupCheck p ctrBase.toNat lv
    if c != stDone then (s, some [c])
    else
      let k := pb p 0
      let gs := setupGranules p
      let sl := s.slot k
      let s := (s.mapGranules k gs).setStorage k gs.length sl.mode ctrBase.toNat lv
        (storageRanges gs.length sl.mode ctrBase.toNat lv)
      let s := s.setSlot k { sl with st := 2, cmd := true, treeKey := Config.treeKey s.free, root := List.replicate 8 0 }
      ((s.tick).keepRunning (65536 + k) 0xC200 src, none)))

/-- REGION_INIT_DONE (R163, R173). -/
def execRegionInitDone (slot : Fin 16) (s : State) : Host.Outcome State Fault Refusal :=
  let sl := s.slot slot.val
  .next (if sl.st == 2 && s.engOn then
    (s.setSlot slot.val { sl with st := 3, cmd := false }).endRunning (65536 + slot.val) [stDone] else s)

/-- The granules of a slot's region, ascending. -/
def State.regionGranules (s : State) (k : Nat) : List Nat :=
  (s.kmap.filter (fun x => x.2.testBit 4 && x.2 % 16 == k)).map Prod.fst

/-- The cached entries of a slot's storage forgotten. -/
def State.dropCached (s : State) (k : Nat) : State := { s with cc := s.cc.filter (fun x => x.2.slot != k) }

/-- The storage registers of a slot at zero: its storage and tree are free (R163, R188). -/
def State.clearStorage (s : State) (k : Nat) : State :=
  (List.range 10).foldl (fun (s : State) (l : Nat) => s.put 3 (Reg.HUB_KTREE_LVL_BASE k (l + 1)) 0)
    ((s.put 3 (Reg.HUB_KSLOT_CTR_BASE k) 0).put 3 (Reg.HUB_KSLOT_TREE_LEVELS k) 0)

/-- REGION_RELEASE (R163, R183): EN cleared in the region's key map entries, its storage and tree free, its record zero. -/
def State.releaseRegion (s : State) (p : List Nat) : State × Nat :=
  let k := pb p 0
  if 16 ≤ k ∨ !zeroBytes p [1, 2, 3] then (s, stBadField)
  else if (s.slot k).cmd then (s, stBusy)
  else if (s.slot k).st != 3 || s.rotating || s.vis.any (fun x => x.2.st != .free && x.2.keyEn && x.2.keySlot == k)
      || (s.regionGranules k).any (fun g => s.daKind (2 ^ 30 * g) == .metadata) then (s, stRefused)
  else
    let s := { s with kmap := (s.kmap.map (fun (x : Nat × Nat) => if x.2.testBit 4 && x.2 % 16 == k then (x.1, clrBit x.2 4) else x)).filter
                                (fun x => x.2 != 0) }
    (((s.dropCached k).clearStorage k).setSlot k KSlot.blank, stDone)

/-- REGION_RELEASE (R183). -/
def execRegionRelease (src : CmdSrc) (req : List (BitVec 8)) (s : State) : Host.Outcome State Fault Refusal :=
  .next (s.vendor src 0xC203 (nats req) (fun (s : State) (p : List Nat) => match s.releaseRegion p with
    | (s, c) => (s, some [c])))

/-! ### The start of a rotation (R184) -/

/-- The tree built over a region that had none: every written counter line is tagged anew under version 0. -/
def State.buildTree (s : State) (k : Nat) : State :=
  let b := s.ctrDa k 0 0
  let n := s.ctrCount k 0
  (s.storedLines b (b + 64 * n)).foldl (fun (s : State) (x : Nat) =>
    s.writeCtr k 0 ((x - b) / 64) 0 (s.dramLine x (b2n (s.gone x 0))).data) s

/-- The status of a ROTATE_KEY, DONE where it is accepted. New storage is asked for where the source lacks what the
destination needs. -/
def State.rotateCheck (s : State) (p : List Nat) (rs : List (Nat × Nat)) : Nat :=
  let a := pb p 0
  let b := pb p 1
  if 16 ≤ a ∨ 16 ≤ b ∨ !zeroBytes p [2, 3] then stBadField
  else if (s.slot a).cmd || (s.slot b).cmd then stBusy
  else if (s.slot a).st != 3 || (s.slot b).st != 1 || s.rotating || decide ((s.slot b).mode < (s.slot a).mode) then stRefused
  else if ((s.slot a).mode = 0 ∧ b = 0) ∨ ((s.slot b).mode = 0 ∧ a = 0) then stRefused
  else if !s.metaFitsAll rs || !rs.all s.offEn then stNoMetadata
  else stDone

/-- The storage that a rotation adds to the source's record: counter lines for a source without, and a tree. -/
def State.rotateRanges (s : State) (a b ctrBase : Nat) (lvls : List Nat) : List (Nat × Nat) :=
  let g := s.granules a
  let all := storageRanges g (s.slot b).mode ctrBase lvls
  if (s.slot a).mode = 0 then all
  else if (s.slot a).mode = 1 ∧ (s.slot b).mode = 2 then all.drop 1 else []

/-- The rotation starts: SRC, DST and BUSY set, B at the region's first line. -/
def State.startRotation (s : State) (a b ctrBase : Nat) (lvls : List Nat) : State :=
  let g := s.granules a
  let sa := s.slot a
  let sb := s.slot b
  let grow := sb.mode = 2 ∧ sa.mode != 2
  let fresh := s.rotateRanges a b ctrBase lvls
  let s := if sa.mode = 0 then s.setStorage a g sb.mode ctrBase lvls fresh
    else if grow then s.setStorage a g 2 (s.fld 3 (Reg.HUB_KSLOT_CTR_BASE a)) lvls fresh else s
  let s := s.setSlot a { sa with st := 4, cmd := true, treeKey := if grow then Config.treeKey s.free else sa.treeKey,
                                 root := if grow then List.replicate 8 0 else sa.root, skipped := [] }
  let s := (s.tick).setSlot b { sb with st := 5, cmd := true }
  let s := ((s.put 3 Reg.HUB_KROT_CTL_SRC a).put 3 Reg.HUB_KROT_CTL_DST b).put 3 Reg.HUB_KROT_CTL_BUSY 1
  let s := s.put 3 Reg.HUB_KROT_BOUND_LINE (2 ^ 24 * (s.regionGranules a).headD 0)
  if sa.mode = 1 ∧ sb.mode = 2 then s.buildTree a else s

/-- ROTATE_KEY (R184): the response waits for the end of the rotation. -/
def execRotateKey (src : CmdSrc) (req : List (BitVec 8)) (ctrBase : BitVec 36) (lvlBases : List (BitVec 36)) (s : State) :
    Host.Outcome State Fault Refusal :=
  .next (s.vendor src 0xC201 (nats req) (fun (s : State) (p : List Nat) =>
    let lv := lvlBases.map BitVec.toNat
    let c := s.rotateCheck p (s.rotateRanges (pb p 0) (pb p 1) ctrBase.toNat lv)
    if c != stDone then (s, some [c])
    else ((s.startRotation (pb p 0) (pb p 1) ctrBase.toNat lv).keepRunning (65536 + pb p 0) 0xC201 src, none)))

/-! ### The rotation step (R185 to R189) -/

/-- B moved on by a number of lines: to the next granule of the region past the end of one, and to the end of the last
granule when none is left. -/
def State.moveB (s : State) (n : Nat) : State :=
  let b := s.rotBound + n
  if b % 2 ^ 24 != 0 then s.put 3 Reg.HUB_KROT_BOUND_LINE b
  else
    let g := s.rotBound / 2 ^ 24
    let nxt := (s.regionGranules s.rotSrc).find? (fun x => decide (g < x))
    s.put 3 Reg.HUB_KROT_BOUND_LINE (match nxt with | some x => 2 ^ 24 * x | none => b)

/-- B has passed the region's last line. -/
def State.rotEnd (s : State) : Bool := !(s.regionGranules s.rotSrc).contains (s.rotBound / 2 ^ 24)

/-- The end of a rotation (R188): map, record and contexts pass to the destination, and the source slot is zeroised. The high marks
keep the largest values written in the region under either slot (R180). -/
def State.rotateDone (s : State) : State :=
  let a := s.rotSrc
  let b := s.rotDst
  let sa := s.slot a
  let sb := s.slot b
  let s := { s with kmap := s.kmap.map (fun (x : Nat × Nat) => if x.2.testBit 4 && x.2 % 16 == a then (x.1, x.2 - a + b) else x) }
  let s := { s with vis := s.vis.map (fun (x : Nat × Vi) => if x.2.keyEn && x.2.keySlot == a && x.2.st != ViState.free
                                               then (x.1, { x.2 with keySlot := b }) else x) }
  let s := (s.put 3 (Reg.HUB_KSLOT_CTR_BASE b) (s.fld 3 (Reg.HUB_KSLOT_CTR_BASE a))).put 3
    (Reg.HUB_KSLOT_TREE_LEVELS b) (s.treeLevels a)
  let s := (List.range 10).foldl (fun (s : State) (l : Nat) =>
    s.put 3 (Reg.HUB_KTREE_LVL_BASE b (l + 1)) (s.fld 3 (Reg.HUB_KTREE_LVL_BASE a (l + 1)))) s
  let s := { s with cc := s.cc.map (fun (x : Nat × CEnt) => if x.2.slot == a then (x.1, { x.2 with slot := b }) else x) }
  let s := s.setSlot b { sb with st := 3, cmd := false, treeKey := sa.treeKey, root := sa.root, majorHigh := max sa.majorHigh sb.majorHigh,
                                 versionHigh := max sa.versionHigh sb.versionHigh, exhaust := false, trusted := false }
  let s := ((s.setSlot a KSlot.blank).clearStorage a).put 3 Reg.HUB_KROT_CTL_BUSY 0
  let s := s.endRunning (65536 + a) [stDone]
  s.raise 16 0x405 INFO none 0 0

/-- The frame at B has been pinned with both counter sets (R186): its counter line holds MAJOR 0 from here on. -/
def State.pinFrame (s : State) (key : Nat) (e : CEnt) : State :=
  { s with cc := SMap.put s.cc key { e with body := ctrFresh 0, ovf := some (e.body, 0), dirty := true, acked := false } }

/-- A line of the pinned frame done: its bit set, its minor zero. -/
def State.pinDone (s : State) (key j : Nat) : State :=
  match SMap.get? s.cc key with
  | some e =>
    match e.ovf with
    | some (old, mask) =>
      let m := setBit mask j
      { s with cc := SMap.put s.cc key { e with ovf := if j = 63 then none else some (old, m), dirty := true, acked := false } }
    | none => s
  | none => s

/-- A line sealed under the destination with its counters reset (R186, R187). -/
def State.sealReset (s : State) (seed da tier : Nat) (data : BitVec 512) (poison mirror : Bool) : Line :=
  s.sealLine seed da (if (s.slot s.rotDst).mode = 0 then .plain else .ok s.rotDst 0 0) data poison mirror tier 0 0 0

/-- The copy or the mirror of a line written under a key command. -/
def State.writeSecond (s : State) (seed da : Nat) (l : Line) : State :=
  match s.daKind da with
  | .metadata => if s.gone da 1 then s else s.storeLine da 1 (mkLine seed da l.data (setBits l.hi 75 1 1)) 3 (some (s.mgrFlt da))
  | .frame => match s.mirrorOf da seed with
    | some d => if s.gone d 0 then s else (s.unqueue d).storeLine d 0 (mkLine seed d l.data (setBits l.hi 75 1 1)) 3
                (some (s.mgrFlt d))
    | none => s
  | _ => s

/-- A rotated line written, with its metadata copy or its mirror (R33, R185). -/
def State.writeRotated (s : State) (seed da tier : Nat) (data : BitVec 512) (poison : Bool) : State :=
  let s := s.unqueue da
  let l := s.sealReset seed da tier data poison false
  let s := if s.gone da 0 then s else s.storeLine da 0 l 3 (some (s.mgrFlt da))
  s.writeSecond seed da l

/-- A rotated line's step ends: its frame's pin knows it done, its directory entry is gone, and B or the list of skipped lines moves
past it. -/
def State.rotated (s : State) (da : Nat) : State :=
  match s.ctrEnt da with
  | some (key, _) => s.pinDone key (lineNo da)
  | none => s

/-- B passes a line, or a skipped line is done (R189). -/
def State.passLine (s : State) (late : Bool) : State :=
  if late then s.setSlot s.rotSrc { (s.slot s.rotSrc) with skipped := (s.slot s.rotSrc).skipped.tail } else s.moveB 1

/-- The step of one line (R185): read under its own slot, written under the destination. A frame that nobody owns has no seed to check
its lines by; they are re-encrypted as they stand (DESIGN CHOICE, log entry 99). -/
def State.rotateLine (s : State) (da : Nat) (late : Bool) (b : Bursts) : State :=
  match s.jobRecall da with
  | (s, false) => s
  | (s0, true) =>
    let seed := s0.seedOf da
    let l := s0.dramLine da 0
    let fin := fun (s : State) (d : BitVec 512) (poison : Bool) =>
      ((((s.passLine late).writeRotated seed da l.tier d poison).rotated da).jobClear da).release
    if s0.daKind da == .frame && (s0.ownerOf (da / 4096)).isNone then
      fin (s0.busAt da 0 .read 3 (some (s0.mgrFlt da))) (s0.decrypt da (s0.readCtr da l.keyslot) l.data) l.poison
    else
      match s0.readPlain da seed b none (some (s0.mgrFlt da)) with
      | (s, .wait) => s
      | (s, .ok d) => fin s d false
      | (s, .poison d) => fin s d true

/-- One line rotated with its frame pinned under both counter sets (R186); a frame in an overflow routine is waited for (R189), and a
mirror is skipped, since its primary's step writes it. -/
def State.rotatePinned (s : State) (da : Nat) (late : Bool) (b : Bursts) : State :=
  match s.ctrEnt da with
  | some (_, none) => s
  | some (key, some e) =>
    if (match e.ovf with | some _ => ctrMajor e.body != 0 | none => false) then s
    else
      let s := if e.ovf.isNone then s.pinFrame key e else s
      if s.primDa da != da then (s.passLine late).pinDone key (lineNo da) else s.rotateLine da late b
  | none => if s.primDa da != da then s.passLine late else s.rotateLine da late b

/-- B passes the lines of a poisoned subtree, which are rotated after their rebuild (R189). -/
def State.skipLines (s : State) (das : List Nat) (n : Nat) : State :=
  (s.setSlot s.rotSrc { (s.slot s.rotSrc) with skipped := (s.slot s.rotSrc).skipped ++ das }).moveB n

/-- One rotation step: at B, or past the end at the lines that were skipped; the rotation ends when none is lost any more. -/
def State.rotateStep (s : State) (b : Bursts) : State :=
  let da := 64 * s.rotBound
  if s.rotEnd then
    let sa := s.slot s.rotSrc
    if !sa.lostList.isEmpty || sa.allLost then s
    else
      match sa.skipped with
      | [] => s.rotateDone
      | d :: _ => if s.daKind d == .packed || !s.lineRuns d then s else s.rotatePinned d true b
  else if s.daKind da == .packed then s
  else if s.daKind da == .unmapped then s.moveB (64 - lineNo da)
  else if s.subtreeLost da then
    s.skipLines ((List.range (64 - lineNo da)).map (fun i => da + 64 * i)) (64 - lineNo da)
  else s.rotatePinned da false b

/-- The engines rotate (R188). -/
def State.rotateRuns (s : State) : Bool := s.rotating && s.engNew && !s.urg3

/-- ROTATION_STEP (R185). -/
def execRotationStep (b : Bursts) (s : State) : Host.Outcome State Fault Refusal :=
  .next (if s.rotateRuns && (s.rotEnd || s.lineRuns (64 * s.rotBound)) then s.rotateStep b else s)

/-- The data lines of a stripe: units in order without the parity unit. -/
def State.stripeLines (s : State) (i b : Nat) : List Nat :=
  let p := s.parityMember i b
  ((List.range 16).filter (fun m => m != p)).flatMap (fun m => (List.range 64).map (fun j => b + 0x1000 * m + 64 * j))

/-- The counters of a stripe's data units reset; none where one of them is not cached. -/
def State.resetUnits (s : State) (das : List Nat) : Option State :=
  das.foldl (fun (a : Option State) (da : Nat) => match a with
    | none => none
    | some s => match s.ctrEnt da with
      | some (key, some e) =>
        if e.ovf.isSome then none
        else some { s with cc := SMap.put s.cc key { e with body := ctrFresh 0, dirty := true, acked := false } }
      | some (_, none) => none
      | none => some s) (some s)

/-- The place where the next stripe is rotated: B, or past the end the first skipped line (R189). -/
def State.rotatePlace (s : State) : Nat := if s.rotEnd then (s.slot s.rotSrc).skipped.headD 0 else 64 * s.rotBound

/-- B passes a stripe, or a skipped one is done. -/
def State.passStripe (s : State) : State := if s.rotEnd then s.passLine true else s.moveB 1024

/-- One stripe rotated (R187): a CLEANING stripe, and one closed and not yet written, is waited for; a stripe without data in DRAM
has its counters reset. The parity covers every line as it is to be, also those of a Pier that is offline. -/
def State.rotateStripe (s : State) (bs : List Bursts) : State :=
  let da := s.rotatePlace
  match s.stripeBase (da / 256) with
  | none => s
  | some (i, b) =>
    let lines := s.stripeLines i b
    let units := lines.filter (fun d => d % 4096 == 0)
    let st := s.stripe (b / 65536)
    if st.st = 3 || (match s.openStripe b with | some o => o.closed | none => false) then s
    else if units.any (fun d => s.subtreeLost d) then (if s.rotEnd then s else s.skipLines [b] 1024)
    else if st.st != 2 then (match s.resetUnits units with | some s' => s'.passStripe | none => s)
    else
      match s.sectorReads none lines bs with
      | (_, none) => s
      | (s1, some ls) =>
        match s1.resetUnits units with
        | none => s
        | some s2 =>
          let s2 := s2.passStripe
          let new := (lines.zip ls).map (fun (x : Nat × (BitVec 512 × Bool)) => (x.1, s2.sealReset 0 x.1 2 x.2.1 x.2.2 false))
          (new.foldl (fun (s : State) (x : Nat × Line) => if s.gone x.1 0 then s else s.storeLine x.1 0 x.2) s2).writeParity i b new

/-- STRIPE_ROTATION_STEP (R187). -/
def execStripeRotationStep (bs : List Bursts) (s : State) : Host.Outcome State Fault Refusal :=
  .next (if s.rotateRuns && s.daKind s.rotatePlace == .packed then s.rotateStripe bs else s)

/-! ### The counter cache and the tree (R178 to R181) -/

/-- Entries of a counter Pier's cache (R179). -/
def State.ccOf (s : State) (n : Nat) : List (Nat × CEnt) := s.cc.filter (fun x => s.ctrPier (64 * x.1) == n)

/-- Room made in a counter Pier's cache: a clean unpinned entry goes; none where all are dirty or pinned. -/
def State.ccRoom (s : State) (n : Nat) : Option State :=
  if (s.ccOf n).length < 8192 then some s
  else
    let cl := (s.ccOf n).filter (fun x => !x.2.dirty && x.2.ovf.isNone && !x.2.pinned)
    match cl[Config.ccVictim s.free % max 1 cl.length]? with
    | some x => some { s with cc := SMap.del s.cc x.1, free := s.free + 1 }
    | none => none

/-- A counter line or node is lost (R181): recorded, or the whole region poisoned, with TREE_LOST. -/
def State.loseEntry (s : State) (k lvl da : Nat) : State :=
  let sl := s.slot k
  let sl := if sl.lostList.length < 64 then { sl with lostList := sl.lostList ++ [(lvl, da)] } else { sl with allLost := true }
  (s.setSlot k sl).raise 17 0x403 ERROR none da (detail (lvl :: leBytes 6 da))

/-- An ancestor of an entry, or the entry, is lost. -/
def State.entryLost (s : State) (k lvl idx : Nat) : Bool :=
  let sl := s.slot k
  sl.allLost || sl.lostList.any (fun x => decide (lvl ≤ x.1) && decide (x.2 = s.ctrDa k x.1 (idx / 8 ^ (x.1 - lvl))))

/-- An entry fetched from DRAM (R179): checked under R38 and against its parent's version, on the copy where the primary ends
uncorrectable or fails its tag. An entry is lost where neither copy serves, also where one ends uncorrectable and the other fails its
tag, a mixed case that the rule does not name (DESIGN CHOICE, log entry 90). -/
def State.fetchCtr (s : State) (da : Nat) (b : Bursts) : State :=
  match s.ctrId da with
  | none => s
  | some (k, lvl, idx) =>
    if !s.hasCtrs k || (SMap.get? s.cc (da / 64)).isSome || s.entryLost k lvl idx then s
    else
      match (if s.treeLevels k = 0 then some 0 else s.parentVersion k lvl idx) with
      | none => s
      | some ver =>
        match s.ccRoom (s.ctrPier da) with
        | none => s
        | some s =>
          let take := fun (s : State) (l : Line) =>
            { s with cc := SMap.put s.cc (da / 64) ⟨k, lvl, idx, BitVec.ofNat 512 (untagged lvl l.data), false, false, none, false⟩ }
          let second := fun (s : State) => match s.readSrc da 1 0 (b.srcs.headD (0, 0)) with
            | (s, some x) => if s.treeOk k lvl da ver x && !x.poison then take s x else s.loseEntry k lvl da
            | (s, none) => s.loseEntry k lvl da
          match s.readLine da 0 0 b none with
          | (s, .good l) => if s.treeOk k lvl da ver l then take s l else second s
          | (s, _) => second s

/-- COUNTER_FETCH (R179). -/
def execCounterFetch (da : BitVec 48) (b : Bursts) (s : State) : Host.Outcome State Fault Refusal :=
  let d := 64 * (da.toNat / 64)
  .next (if s.lineRuns d then s.fetchCtr d b else s)

/-- A version raised in the parent of an entry: in its cached node, or in the on-die root (R179, R180). -/
def State.raiseVersion (s : State) (k lvl idx v : Nat) : State :=
  let sl := s.slot k
  let s := s.setSlot k { sl with versionHigh := max sl.versionHigh v }
  if lvl = s.treeLevels k then s.setSlot k { (s.slot k) with root := (padTo 8 sl.root).set idx v }
  else
    let key := s.ctrDa k (lvl + 1) (idx / 8) / 64
    match SMap.get? s.cc key with
    | some e => { s with cc := SMap.put s.cc key { e with body := BitVec.ofNat 512 (setBits e.body.toNat (56 * (idx % 8)) 56 v),
                                                           dirty := true, acked := false } }
    | none => s

/-- VERSION_INCREMENT (R179): the parent applies the increment for a dirty entry and acknowledges. -/
def execVersionIncrement (da : BitVec 48) (s : State) : Host.Outcome State Fault Refusal :=
  let key := da.toNat / 64
  match SMap.get? s.cc key with
  | some e =>
    if !e.dirty || e.acked || s.treeLevels e.slot == 0 then .next s
    else
      match s.parentVersion e.slot e.lvl e.idx with
      | none => .next s
      | some v =>
        let s := s.raiseVersion e.slot e.lvl e.idx (v + 1)
        .next (match SMap.get? s.cc key with
          | some e => { s with cc := SMap.put s.cc key { e with acked := true } }
          | none => s)
  | none => .next s

/-- COUNTER_WRITEBACK (R179): a dirty entry that is not pinned is written once its parent has acknowledged. -/
def State.writeBackCtr (s : State) (key : Nat) : State :=
  match SMap.get? s.cc key with
  | some e =>
    if !e.dirty || e.ovf.isSome then s
    else
      match (if s.treeLevels e.slot = 0 then some 0 else if e.acked then s.parentVersion e.slot e.lvl e.idx else none) with
      | none => s
      | some v =>
        let s := s.writeCtr e.slot e.lvl e.idx v e.body
        { s with cc := SMap.put s.cc key { e with dirty := false, acked := false } }
  | none => s

/-- COUNTER_WRITEBACK (R179). -/
def execCounterWriteback (da : BitVec 48) (s : State) : Host.Outcome State Fault Refusal :=
  .next (s.writeBackCtr (da.toNat / 64))

/-! ### Trusting rebuilds (R182) -/

/-- The body of an entry as a rebuild takes it: from the cache, or from DRAM checked by CRC-40 only. -/
def State.trustBody (s : State) (k lvl idx : Nat) (b : Bursts) : State × Option (BitVec 512) :=
  let da := s.ctrDa k lvl idx
  match SMap.get? s.cc (da / 64) with
  | some e => (s, some e.body)
  | none =>
    match s.readLine da 0 0 b none with
    | (s, .good l) => (s, some (BitVec.ofNat 512 (untagged lvl l.data)))
    | (s, .poison l) => (s, if l.crcOk 0 da then some (BitVec.ofNat 512 (untagged lvl l.data)) else none)
    | (s, .wait) => (s, none)

/-- The entry written under a version, in DRAM and in the cache where it is held. -/
def State.trustWrite (s : State) (k lvl idx ver : Nat) (body : BitVec 512) : State :=
  let s := s.writeCtr k lvl idx ver body
  let key := s.ctrDa k lvl idx / 64
  match SMap.get? s.cc key with
  | some e => { s with cc := SMap.put s.cc key { e with body := body, dirty := false, acked := false } }
  | none => s

/-- The frame that a counter line of a region belongs to, as a DA. -/
def State.ctrFrame (s : State) (k idx : Nat) : Option Nat :=
  (s.kmap.find? (fun x => x.2.testBit 4 && x.2 % 16 == k && bits x.2 8 14 == idx / 2 ^ 18)).map (fun x =>
    2 ^ 30 * x.1 + 4096 * (idx % 2 ^ 18))

/-- The 64 data lines of a frame marked with POISON (R182). -/
def State.poisonFrame (s : State) (da : Nat) : State :=
  (List.range 64).foldl (fun (s : State) (i : Nat) =>
    let d := da + 64 * i
    let l := s.dramLine d 0
    let seed := s.seedOf d
    let x := mkLine seed d l.data (sideHi 0 0 0 0 l.tier true l.mirror (s.writeKeyslot d))
    (if s.gone d 0 then s else (s.unqueue d).storeLine d 0 x).writeSecond seed d x) s

/-- The lines of a frame, where there is one, rewritten with POISON. -/
def State.poisonAt (s : State) (da : Option Nat) : State :=
  match da with
  | some da => s.poisonFrame da
  | none => s

/-- A counter line rebuilt: MAJOR above every MAJOR of the region, minors 0, the frame's data poisoned. -/
def State.rebuildCtrLine (s : State) (k idx ver : Nat) : State :=
  let sl := s.slot k
  let ma := sl.majorHigh + 1
  let s := s.setSlot k { sl with majorHigh := ma }
  let s := s.trustWrite k 0 idx ver (ctrFresh ma)
  s.poisonAt (s.ctrFrame k idx)

/-- The children of a node re-tagged under fresh versions: the node's body, none where a child cannot be read. With whole
set, an unreadable counter line is rebuilt instead. -/
def State.retagChildren (s : State) (k lvl idx : Nat) (whole : Bool) : List Nat → List Bursts → State × Option Nat
  | [], _ => (s, some 0)
  | i :: t, bs =>
    let c := 8 * idx + i
    if s.ctrCount k (lvl - 1) ≤ c then (s, some 0)
    else
      let v := (s.slot k).versionHigh + 1 + i
      let lost := whole && (s.slot k).lostList.contains (lvl - 1, s.ctrDa k (lvl - 1) c) && lvl == 1
      match (if lost then (s, none) else s.trustBody k (lvl - 1) c (bs.headD {})) with
      | (s1, some body) =>
        match State.retagChildren s1 k lvl idx whole t bs.tail with
        | (s2, some n) => (s2.trustWrite k (lvl - 1) c v body, some (n + v * 2 ^ (56 * i)))
        | (s2, none) => (s2, none)
      | (s1, none) =>
        if whole && lvl == 1 then
          match State.retagChildren s1 k lvl idx whole t bs.tail with
          | (s2, some n) => (s2.rebuildCtrLine k c v, some (n + v * 2 ^ (56 * i)))
          | (s2, none) => (s2, none)
        else (s1, none)

/-- An entry brought into its counter Pier's cache, with its ancestors from the root down, each read without burst error; none where a
cache has no room (R179). -/
def State.pull (s : State) (k lvl idx : Nat) : Option State :=
  (List.range (s.treeLevels k + 1 - lvl)).foldl (fun (a : Option State) (i : Nat) => a.bind (fun s =>
    let l := s.treeLevels k - i
    let da := s.ctrDa k l (idx / 8 ^ (l - lvl))
    if (SMap.get? s.cc (da / 64)).isSome || s.entryLost k l (idx / 8 ^ (l - lvl)) then some s
    else if (s.ccRoom (s.ctrPier da)).isNone then none else some (s.fetchCtr da {}))) (some s)

/-- The version that a rebuilt entry is tagged under, raised in its parent (R182): a parent that is lost itself holds none yet, and
its own rebuild tags the entry anew. None where a cache has no room for the parent. -/
def State.newVersion (s : State) (k lvl idx : Nat) : Option (State × Nat) :=
  if s.treeLevels k = 0 then some (s, 0)
  else
    match (if lvl = s.treeLevels k then some s else s.pull k (lvl + 1) (idx / 8)) with
    | none => none
    | some s =>
      match s.parentVersion k lvl idx with
      | some v => some (s.raiseVersion k lvl idx (v + 1), v + 1)
      | none =>
        let sl := s.slot k
        some (s.setSlot k { sl with versionHigh := sl.versionHigh + 1 }, sl.versionHigh + 1)

/-- A node rebuilt over its children (R182); its own version in the parent is raised and it is tagged under it. -/
def State.rebuildNode (s : State) (k lvl idx : Nat) (whole : Bool) (bs : List Bursts) : Option State :=
  match s.retagChildren k lvl idx whole (List.range 8) bs with
  | (s1, some body) =>
    let sl := s1.slot k
    let s1 := s1.setSlot k { sl with versionHigh := sl.versionHigh + 8 }
    if whole then some (s1.trustWrite k lvl idx 0 (BitVec.ofNat 512 body))
    else (s1.newVersion k lvl idx).map (fun x => x.1.trustWrite k lvl idx x.2 (BitVec.ofNat 512 body))
  | (_, none) => none

/-- The counter lines of a region without a tree that are lost: those recorded, and, where the record was full, those that DRAM no
longer gives (R182). -/
def State.lostLines (s : State) (k : Nat) : List Nat :=
  let b := s.ctrDa k 0 0
  let rec_ := ((s.slot k).lostList.filter (fun x => x.1 == 0)).map (fun x => (x.2 - b) / 64)
  let bad := ((s.storedLines b (b + 64 * s.ctrCount k 0)).filter (fun x =>
    !(s.dramLine x (b2n (s.gone x 0))).crcOk 0 x)).map (fun x => (x - b) / 64)
  (rec_ ++ (if (s.slot k).allLost then bad else [])).eraseDups

/-- The whole tree rebuilt, level by level from the bottom; the root takes fresh versions last. -/
def State.rebuildAll (s : State) (k : Nat) (bs : List Bursts) : Option State :=
  let nodes := (List.range (s.treeLevels k)).flatMap (fun l => (List.range (s.ctrCount k (l + 1))).map (fun x => (l + 1, x)))
  match nodes.zipIdx.foldl (fun (a : Option State) (x : (Nat × Nat) × Nat) =>
      a.bind (fun s => s.rebuildNode k x.1.1 x.1.2 true (bs.drop (8 * x.2)))) (some s) with
  | none => none
  | some s =>
    let h := s.treeLevels k
    some ((List.range (min 8 (s.ctrCount k h))).foldl (fun (s : State) (i : Nat) =>
      let v := (s.slot k).versionHigh + 1
      let s := s.raiseVersion k h i v
      match s.trustBody k h i {} with
      | (s, some body) => s.trustWrite k h i v body
      | (s, none) => s) s)

/-- A rebuild done: TREE_TRUSTED, TRUSTED set, the entry no longer lost. -/
def State.trusted (s : State) (k lvl da : Nat) (whole : Bool) : State :=
  let sl := s.slot k
  let s := s.setSlot k { sl with trusted := true, allLost := !whole && sl.allLost,
                                 lostList := if whole then [] else sl.lostList.filter (fun x => x.2 != da) }
  s.raise 17 0x404 WARN none da 0

/-- A lost entry lies below another in its tree. -/
def State.hasLostChild (s : State) (k lvl idx : Nat) : Bool :=
  (s.slot k).lostList.any (fun x => decide (x.1 < lvl) && (match s.ctrId x.2 with
    | some (_, l, i) => i / 8 ^ (lvl - l) == idx
    | none => false))

/-- REBUILD_TRUSTING of one entry or of the whole tree (R182, R183); without an answer it waits for room in a counter cache. -/
def State.rebuildTrusting (s : State) (p : List Nat) (bs : List Bursts) : State × Option Nat :=
  let k := pb p 0
  let da := pf p 8 6
  if 16 ≤ k ∨ !zeroBytes p [1, 2, 3, 4, 5, 6, 7, 14, 15] ∨ da % 64 != 0 then (s, some stBadField)
  else if (s.slot k).cmd && (s.slot k).st != 4 then (s, some stBusy)
  else if (s.slot k).st != 3 && (s.slot k).st != 4 then (s, some stRefused)
  else if da = 0 then
    if s.treeLevels k = 0 then
      (((s.lostLines k).foldl (fun (s : State) (i : Nat) => s.rebuildCtrLine k i 0) s).trusted k 0 0 true, some stDone)
    else
      match s.rebuildAll k bs with
      | some s' => (s'.trusted k (s'.treeLevels k) 0 true, some stDone)
      | none => (s, none)
  else
    match s.ctrId da with
    | none => (s, some stRefused)
    | some (_, lvl, idx) =>
      if !(s.slot k).lostList.contains (lvl, da) || s.hasLostChild k lvl idx then (s, some stRefused)
      else if lvl = 0 then
        match s.newVersion k 0 idx with
        | some (s, v) => ((s.trusted k 0 da false).rebuildCtrLine k idx v, some stDone)
        | none => (s, none)
      else
        match s.rebuildNode k lvl idx false bs with
        | some s' => (s'.trusted k lvl da false, some stDone)
        | none => (s, none)

/-- REBUILD_TRUSTING (R182). -/
def execRebuildTrusting (src : CmdSrc) (req : List (BitVec 8)) (bs : List Bursts) (s : State) :
    Host.Outcome State Fault Refusal :=
  .next (s.vendor src 0xC202 (nats req) (fun (s : State) (p : List Nat) => match s.rebuildTrusting p bs with
    | (s, c) => (s, c.map (fun x => [x]))))

end Sys2Proof.Machine
end

