-- ==== Sys2Proof/Machine/Coh.lean ====
section
/-!
DEFINITION. The directory cache's write-backs and flush (R198 to R200) and the sweep after a host loss (R210 to R212).
-/
namespace Sys2Proof.Machine

/-- DIR_FLUSH written (R200, R214). -/
def State.dirFlush (s : State) : State := (s.put 4 Reg.HUB_COH_CTL_FLUSH_BUSY 1).flushStep.release

/-- DIR_FLUSH (R200). -/
def execDirFlush (s : State) : Host.Outcome State Fault Refusal := .next s.dirFlush

/-- A dirty entry's line read and written back with the entry's fields under its next counter, to both copies of a mirrored line
(R198); the entry stays dirty where the write waits or is refused. -/
def State.dirWriteback (s : State) (da : Nat) (e : DirEnt) (b : Bursts) : State :=
  let seed := s.seedOf da
  let put := fun (s : State) (d : BitVec 512) (poison : Bool) =>
    match s.writePlain da seed (s.dramLine da 0).tier d poison (e.sharers, e.dstate, e.owner) with
    | (_, .wait) => s
    | (s', .refused) => s'
    | (s', .ok) => ((s'.bump 4 Reg.HUB_DIR_WB_CNT_COUNT Reg.HUB_DIR_WB_CNT_SAT 1).telHub 0x03 1 (some (s'.engFlt da))).dirClean
        (da / 64)
  match s.readPlain da seed b none with
  | (_, .wait) => s
  | (s', .ok d) => put s' d false
  | (s', .poison d) => put s' d true

/-- DIRECTORY_WRITEBACK (R198): ordered at the home, so it waits while the line is held. -/
def execDirectoryWriteback (da : BitVec 48) (b : Bursts) (s : State) : Host.Outcome State Fault Refusal :=
  let line := da.toNat / 64
  match SMap.get? s.dir line with
  | some e =>
    if e.dirty && !e.t2 && s.lineFree line && s.lineRuns (64 * line) then .next (s.dirWriteback (64 * line) e b).release
    else .next s
  | none => .next s

/-! ### The sweep (R210 item 3) -/

/-- Backed T0 and T1 pages of a VI, at or after a page: the first one. -/
def State.nextBacked (s : State) (t page : Nat) : Option Nat :=
  let v := s.vi t
  let wrote := s.wroteLeaves t
  let big := s.largeLeaves t
  let hit := (wrote.filter (fun x => page ≤ x.1 && leafV x.2 && leafTier x.2 ≤ 1)).map Prod.fst
  let huge := (big.filter (fun x => decide (page < x.1 + reach x.2.1) && decide (leafTier x.2.2 ≤ 1))).map (fun x => max page x.1)
  let runs := (v.back.foldl (fun (a : Nat × List (Nat × Nat)) (r : Run) =>
    (a.1 + r.count, if r.tier ≤ 1 then a.2 ++ [(a.1, r.count)] else a.2)) (0, [])).2
  let rest := (cutAll runs ((0, page) :: wrote.map (fun x => (x.1, 1)) ++ big.map (fun x => (x.1, reach x.2.1)))).map Prod.fst
  (hit ++ huge ++ rest).min?

/-- The VIs that a sweep of a port covers: the shared ones on its list, in its order. -/
def State.sweepVis (s : State) (k : Nat) : List Nat := (s.prt k).bound.filter (fun t => (s.vi t).shared && (s.vi t).st != .free)

/-- The next line of a sweep from a position (VI number in the list, page, line): position and VI. -/
def State.sweepNext (s : State) : List Nat → Nat → Nat → Option (Nat × Nat × Nat)
  | [], _, _ => none
  | t :: ts, i, pos =>
    let page := if pos / 2 ^ 60 = i then pos % 2 ^ 60 / 64 else 0
    let line := if pos / 2 ^ 60 = i then pos % 64 else 0
    if i < pos / 2 ^ 60 then State.sweepNext s ts (i + 1) pos
    else
      match s.nextBacked t page with
      | some p => some (2 ^ 60 * i + 64 * p + (if p = page then line else 0), t, p)
      | none => State.sweepNext s ts (i + 1) (2 ^ 60 * (i + 1))

/-- A line of a VI whose side bits, or whose queued write, name lost ports is corrected (R198, R210): the corrected fields go to a
dirty entry, and a line that a lost port held exclusive is poisoned in place. A cached entry is authoritative and corrected already.
The answer says that the line is done: it is not while the copies of a rebuilt line are recalled or the set has no way free. -/
def State.sweepLine (s : State) (t da : Nat) (b : Bursts) : State × Bool :=
  let line := da / 64
  let names := fun (s : State) (d : DirF) => (pick 8 (fun k => s.lostMask.testBit k && d.1.testBit k)) != []
  if (s.dirGet line).isSome then (s, true)
  else
    match s.dirWay line with
    | none => (s.makeWay line, false)
    | some w =>
      match s.queued da with
      | some q =>
        let d := (q.sharers, q.dstate, q.owner)
        (if names s d then w.dirLoad line d true else s, true)
      | none =>
        match s.readLine da 0 (s.seedOf da) b none with
        | (s, .wait) => (s, false)
        | (s, _) =>
          match s.dirLine da t with
          | some d => (if names s d then ((s.dirWay line).getD s).dirLoad line d false else s, true)
          | none => (s, true)

/-- HOST_SWEEP_STEP (R210, R212): the next line of the sweep; a step without lines left ends it. It waits in coast, under URG
level 3, and while the line is held at the home. -/
def execHostSweepStep (p : Fin 8) (vi : BitVec 16) (page : BitVec 45) (line : Fin 64) (b : Bursts) (s : State) :
    Host.Outcome State Fault Refusal :=
  let k := p.val
  if !(s.prt k).sweep || !s.engNew || s.urg3 then .next s
  else
    match s.sweepNext (s.sweepVis k) 0 (s.prt k).sweepFrom with
    | none => .next ((s.endSweep k).urgUpdate k)
    | some (pos, t, pg) =>
      if t != vi.toNat || pg != page.toNat || pos % 64 != line.val then .next s
      else
        match s.findLeaf t (4096 * pg) with
        | none => .next s
        | some (_, lvl, e) =>
          let da := leafDa e lvl (4096 * pg) + 64 * line.val
          if !s.lineFree (da / 64) || !s.lineRuns da then .next s
          else
            match s.sweepLine t da b with
            | (s, false) => .next s
            | (s, true) =>
            let s := s.setPrt k { (s.prt k) with sweepFrom := pos + 1 }
            if (s.sweepNext (s.sweepVis k) 0 (pos + 1)).isNone then .next ((s.endSweep k).urgUpdate k) else .next s

end Sys2Proof.Machine
end

