-- ==== Sys2Proof/Machine/Vi.lean ====
section
/-!
DEFINITION. Virtual instances (R216 to R227): creation, binding, quiesce, reset and removal, freeze and thaw, the dirty log,
and the registers of a VI page.
-/
namespace Sys2Proof.Machine

/-! ### State changes (R217) -/

/-- A VI's STATE changes: EPOCH rises, and VI_STATE is raised. -/
def State.viTo (s : State) (t : Nat) (st : ViState) : State :=
  let v := s.vi t
  (s.setVi t { v with st := st, epoch := (v.epoch + 1) % 2 ^ 32 }).raise 24 0x504 INFO (some t) 0
    (detail (leBytes 2 t ++ [v.st.code, st.code]))

/-- A command runs on the VI (R217). -/
def State.viBusy (s : State) (t : Nat) : Bool := (SMap.get? s.running t).isSome

/-- The invalidation of a whole VI on the ports of a mask (R99, R222, R223). -/
def State.invPorts (s : State) (t mask : Nat) : State :=
  (pick 8 (fun k => mask.testBit k)).foldl (fun (s : State) (k : Nat) => s.invNow k t 0 1 true) s

/-! ### Creation (R218, R219, R124, R125) -/

/-- Tables of a window of w GiB in a tree of so many levels (R218). -/
def poolTables (levels w : Nat) : Nat := 512 * w + w + ceilDiv w 512 + (levels - 3)

/-- The exposure ceiling in GiB: the lesser of 48 TiB and three times the raw size of the spans that back
pages (R124). -/
def State.exposeCeil (s : State) : Nat :=
  min 49152 (3 * ((List.range 8).map (fun i => if s.frameSpan i || s.psSpan i then s.fld 1 (Reg.HUB_SPAN_SIZE_SIZE_G i) else 0)).sum)

/-- The assured parts beside one of a region fit the usable capacity with each key region's packed-store sectors counted apart
(R125, R148): what a region's sectors do not hold needs frames. -/
def State.fitsAssured (s : State) (region assured : Nat) : Bool :=
  let need := fun (r : Nat) => ((s.vis.filter (fun x => x.2.st != .free && x.2.regionId == r)).map (fun x => x.2.assuredG)).sum +
    (if r = region then assured else 0)
  let frames := s.usable - s.sectorCap
  decide (((List.range 17).map (fun r => less (2 ^ 22 * need r) (s.sectorCapIn r))).sum ≤ frames)

/-- Sizes fit the exposure limit and the assured maximum, and growth is allowed (R125). -/
def State.fitsCapacity (s : State) (region assured elastic : Nat) : Bool :=
  let live := s.vis.filter (fun x => x.2.st != .free)
  let a := (live.map (fun x => x.2.assuredG)).sum + assured
  let e := (live.map (fun x => x.2.elasticG)).sum + elastic
  decide (100 * (a + e) ≤ s.pol 0x10D * s.exposeCeil) && decide (2 ^ 22 * a ≤ s.usable) && s.fitsAssured region assured &&
    decide (s.ladder < 3)

/-- The lowest FREE tag (R220): at most as high as the number of entries in use. -/
def State.lowestFree (s : State) : Option Nat :=
  match (List.range (s.vis.length + 1)).find? (fun t => (s.vi t).st == .free) with
  | some t => if t < 65536 then some t else none
  | none => none

/-- The tag a creation takes: the one asked for, or the lowest FREE one. -/
def State.askTag (s : State) (any : Bool) (t : Nat) : Option Nat :=
  if any then s.lowestFree else if (s.vi t).st = .free then some t else none

/-- The fields of CREATE_VI's payload (R220), MIRROR forced by MIRROR_ALL (R114). -/
def State.createFields (s : State) (p : List Nat) : Vi :=
  { Vi.blank with
      shared := (pb p 2).testBit 1, mirror := (pb p 2).testBit 2 || s.pol 0x10C != 0, telemetry := (pb p 2).testBit 3,
      telPerm := (pb p 2).testBit 4, keyEn := (pb p 2).testBit 5, depth := bits (pb p 3) 0 2, cls := bits (pb p 3) 2 3,
      pagePol := bits (pb p 3) 5 2, keySlot := bits (pb p 4) 0 4, codeMode := bits (pb p 4) 4 2,
      assuredG := pf p 8 2, elasticG := pf p 10 2, guarQ := bits (pf p 12 2) 0 10, weight := pb p 14 }

/-- Reserved fields of CREATE_VI's payload are zero. -/
def createClean (p : List Nat) : Bool :=
  bits (pb p 2) 6 2 == 0 && bits (pb p 3) 7 1 == 0 && bits (pb p 4) 6 2 == 0 && zeroBytes p [5, 6, 7, 15] &&
    bits (pf p 12 2) 10 6 == 0

/-- Frames back the assured part (R123, R345): no packed store, or the telemetry VI. -/
def State.byFrames (s : State) (v : Vi) : Bool := v.telemetry || s.fld 2 Reg.HUB_PS_CTL_PS_SPANS == 0

/-- The checks of a creation in the order of R219; the pool is the place the engines found for the tables. -/
def State.createCheck (s : State) (tag : Option Nat) (clean : Bool) (v : Vi) (tpool : Nat) : Nat :=
  if tag.isNone then stNoContext
  else if !clean || v.depth = 3 || decide (2 ^ (9 * v.levels + 12) < 2 ^ 30 * v.winG)
      || (v.telemetry && s.vis.any (fun x => x.2.st != .free && x.2.telemetry)) then stBadField
  else if v.winG = 0 then stSizeZero
  else if v.keyEn && (s.slot v.keySlot).st != 3 then stBadKey
  else if !s.fitsCapacity v.regionId v.assuredG v.elasticG then stNoCapacity
  else if !s.fitsDevice (s.admitted + v.guarQ) then stNoBandwidth
  else if !s.metaFits (tpool, poolTables v.levels v.winG) then stNoMetadata
  else stDone

/-- Ranges from a number on, then what lies before it: the order in which a place is looked for. -/
def fromHint (h : Nat) (xs : List (Nat × Nat)) : List (Nat × Nat) := cutAll xs [(0, h)] ++ cutAll xs [(h, 2 ^ 64)]

/-- The frames of a span with no line on an offline Pier that may back an assured part (R297): all of them, or whole granules of a
span that interleaves by the granule. -/
def State.servedParts (s : State) (i : Nat) : List (Nat × Nat) :=
  let b := s.spanBase i / 4096
  let sh := s.roundShare i s.frameServed
  if sh.1 = sh.2 then [(b, s.spanFrames i)]
  else if s.spanShift i < 30 then []
  else ((List.range (s.spanFrames i / 262144)).filter (fun g => s.frameServed (b + 262144 * g))).map (fun g => (b + 262144 * g, 262144))

/-- The free places of a tier's spans for a VI's assured pages, outside the reserve: pairs for a mirrored VI in T0, and else in T0
frames whose partner is in use before others (R108, R110, R126). -/
def State.tierRuns (s : State) (v : Vi) (tier hint : Nat) : List Run :=
  (pick 8 (fun i => s.frameSpan i && s.spanSize i != 0 && (s.t0Span i == (tier == 0)))).flatMap (fun i =>
    let h := s.spanFrames i / 2
    let b := s.spanBase i / 4096
    let ok := s.servedParts i
    let pairs := meetAll (meetAll (s.pairGaps i v.regionId) ok) ((meetAll ok [(b + h, h)]).map (fun x => (x.1 - h, x.2)))
    if tier = 0 && v.mirror then
      (if s.mirrorSpan i then (fromHint hint pairs).map (fun x => ⟨0, x.1, x.2, some (x.1 + h)⟩) else [])
    else
      let gaps := meetAll (s.frameGaps i v.regionId) ok
      if tier = 0 then
        let both := pairs ++ pairs.map (fun x => (x.1 + h, x.2))
        (cutAll gaps both ++ fromHint hint both).map (fun x => ⟨0, x.1, x.2, none⟩)
      else
        let cap := s.freeFrames i - (if s.reserveSpan = some i then s.reserveLeft else 0)
        (takeAll cap (fromHint hint gaps)).1.map (fun x => ⟨1, x.1, x.2, none⟩))

/-- The first pages of runs, so many in all, and how many are still missing. -/
def takeRuns : Nat → List Run → List Run × Nat
  | k, [] => ([], k)
  | k, x :: t =>
    if k = 0 then ([], 0)
    else
      let n := min k x.count
      let r := takeRuns (k - n) t
      (if n = 0 then r.1 else { x with count := n } :: r.1, r.2)

/-- The places that back the assured part of a VI: zero descriptors, or frames of the tiers in R108's order, of T1 for the telemetry
VI (R108, R123, R345). None where there are not enough. -/
def State.backing (s : State) (v : Vi) (hint : Nat) : Option (List Run) :=
  let cand :=
    if !s.byFrames v then (fromHint hint s.descGaps).map (fun x => (⟨2, x.1, x.2, none⟩ : Run))
    else ((if v.telemetry then [1] else s.tierOrder.filter (fun k => decide (k ≤ 1))).flatMap (fun k => s.tierRuns v k hint))
  match takeRuns (262144 * v.assuredG) cand with
  | (rs, 0) => some rs
  | _ => none

/-- The context entry of a VI that is being created (R216, R218), with what backs its assured part. -/
def newVi (v : Vi) (tpool : Nat) (back : List Run) : Vi :=
  { v with root := tpool, tpoolBase := tpool, tpoolTables := poolTables v.levels v.winG, back := back }

/-- Lines of a DA range forgotten: they read as their unlisted contents again. -/
def State.dropLines (s : State) (lo hi : Nat) : State :=
  { s with media := SMap.drop' s.media (fun k => decide (lo ≤ 64 * (k / 4)) && decide (64 * (k / 4) < hi)) }

/-- Frames of a run that hold stored lines. -/
def State.usedLines (s : State) (b n : Nat) : List Nat :=
  ((s.media.filter (fun x => decide (b ≤ x.1 / 256) && decide (x.1 / 256 < b + n))).map (fun x => x.1 / 256)).eraseDups

/-- Frames zero-filled one after the other (R108 step 2). -/
def State.zeroFrames (s : State) (t tier : Nat) : List Nat → Option State
  | [] => some s
  | f :: fs =>
    match s.writeFrame t tier (4096 * f) (List.replicate 64 (0, false)) with
    | some s' => State.zeroFrames s' t tier fs
    | none => none

/-- A frame, or a descriptor, of a VI's runs, mates included. -/
def Vi.hasFrame (v : Vi) (f : Nat) : Bool := v.back.any (fun r => r.frame f || r.isMate f)
def Vi.hasDesc (v : Vi) (x : Nat) : Bool := v.back.any (fun r => r.desc x)

/-- The descriptors that lines written since the boot hold, of those a test picks. -/
def State.storedDescs (s : State) (f : Nat → Bool) : List Nat :=
  ((s.storedLines (s.descDa 0) (s.descDa (s.fld 2 Reg.HUB_XLAT_DESC_CNT_COUNT))).map (fun x => (x - s.descDa 0) / 64)).filter f

/-- The runs of a VI taken. What they hold reads as the creation leaves it; a frame with an owner map entry from before takes a new
one, and a descriptor written before is written anew. Heat, queued writes and cached descriptors of earlier owners are gone (R36,
R113, R123). -/
def State.takeBack (s : State) (t : Nat) : State :=
  let v := s.vi t
  let ex := (s.owner.filter (fun x => v.hasFrame x.1)).map Prod.fst
  let ps := v.back.flatMap (fun r => match r.mate with
    | some m => ((ex.filter (fun f => r.frame f)).map (fun f => (f, f - r.base + m))) ++
        ((ex.filter (fun f => r.isMate f)).map (fun f => (f - m + r.base, f)))
    | none => [])
  let s := { s with owner := ex.foldl (fun (m : SMap Nat) (f : Nat) => SMap.put m f t) s.owner,
                    pairs := ps.foldl (fun (m : SMap Nat) (x : Nat × Nat) => SMap.put m (min x.1 x.2) x.1) (SMap.drop' s.pairs v.hasFrame),
                    coolAt := SMap.drop' s.coolAt v.hasFrame,
                    heat := SMap.drop' s.heat (fun k => if k < 2 ^ 40 then v.hasFrame k else v.hasDesc (k - 2 ^ 40)) }
  let s := (List.range 16).foldl (fun (s : State) (n : Nat) =>
    s.setPier n { (s.pier n) with wq := (s.pier n).wq.filter (fun q => !v.hasFrame (q.da / 4096)) }) s
  (s.storedDescs v.hasDesc).foldl (fun (s : State) (x : Nat) => s.descWrite x (descPack t 0 0 true [])) s

/-- The runs of a VI given back: the heat and the directory entries of what they still backed go (R113, R213). -/
def State.dropBack (s : State) (t : Nat) : State :=
  let v := s.vi t
  let ws := s.storedDescs v.hasDesc
  let f := fun (x : Nat) => v.hasFrame x && (SMap.get? s.owner x).isNone
  let d := fun (x : Nat) => v.hasDesc x && !ws.contains x
  { s with heat := SMap.drop' s.heat (fun k => if k < 2 ^ 40 then f k else d (k - 2 ^ 40)),
           coolAt := SMap.drop' s.coolAt f,
           dir := SMap.drop' s.dir (fun l => if l < 2 ^ 42 then f (l / 64) else d ((l - 2 ^ 42) / 64)) }.setVi t { v with back := [] }

/-- The tables built and the assured pages given zero descriptors or zero-filled frames (R123, R217): the lines read as the
creation leaves them; frames written before are filled anew, which waits where a counter line is not cached. -/
def State.buildVi (s : State) (t : Nat) : Option State :=
  let v := s.vi t
  let s := s.dropFrames v.tpoolBase (v.tpoolBase + v.tpoolTables)
  (v.back.filter (fun r => r.tier != 2)).foldl (fun (a : Option State) (r : Run) => a.bind (fun s =>
    let old := fun (b : Nat) => s.usedLines b r.count ++
      (s.owner.filter (fun x => decide (b ≤ x.1) && decide (x.1 < b + r.count))).map Prod.fst
    s.zeroFrames t r.tier ((old r.base ++ (match r.mate with
      | some m => (old m).map (fun f => f - m + r.base)
      | none => [])).eraseDups))) (some s)

/-- CREATE_VI (R217 to R221). -/
def execCreateVi (src : CmdSrc) (req : List (BitVec 8)) (tpool : BitVec 36) (descBase : BitVec 40) (s : State) :
    Host.Outcome State Fault Refusal :=
  .next (s.vendor src 0xC100 (nats req) (fun (s : State) (p : List Nat) =>
    let v := s.createFields p
    let tag := s.askTag ((pb p 2).testBit 0) (pf p 0 2)
    let c := s.createCheck tag (createClean p) v tpool.toNat
    if c != stDone then (s, some [c])
    else
      match s.backing v descBase.toNat with
      | none => (s, some [stNoCapacity])
      | some back =>
        let t := tag.getD 0
        if !(s.storedDescs (newVi v tpool.toNat back).hasDesc).all s.descReady then (s, none)
        else
        let s := (s.setVi t { newVi v tpool.toNat back with epoch := (s.vi t).epoch }).takeBack t
        (((s.viTo t .creating).keepRunning t 0xC100 src).pacerUpdate.ladderCross, none)))

/-- The response of a creation (R221). -/
def State.createRsp (s : State) (t : Nat) : List Nat :=
  [stDone, 0] ++ leBytes 2 t ++ [0, 0, 0, 0] ++ leBytes 8 (s.vi t).tpoolBase ++ leBytes 4 (s.vi t).tpoolTables

/-- VI_CREATE_DONE (R217, R223). -/
def execViCreateDone (vi : BitVec 16) (s : State) : Host.Outcome State Fault Refusal :=
  let t := vi.toNat
  if (s.vi t).st != .creating || !s.engOn then .next s
  else
    match s.buildVi t with
    | none => .next s
    | some s => .next ((s.viTo t .quiesced).endRunning t (s.createRsp t))

/-! ### Extents of a binding (R244 to R246) -/

/-- Extents of a VI on ports of a mask leave by force (R246); ranges granted from the elastic part stay granted, as entries of
no port (port 8) where no other port holds them. -/
def State.forceRelease (s : State) (t mask : Nat) : State :=
  let gone := s.extents.filter (fun e => e.vi == t && mask.testBit e.port && decide (e.port < 8))
  let s := gone.foldl (fun (s : State) (e : Extent) => s.dcNotice e 5) s
  let keep := s.extents.filter (fun e => !(e.vi == t && mask.testBit e.port && decide (e.port < 8)))
  let held := (gone.filter (fun e => e.elastic && !keep.any (fun x => x.vi == t && x.start == e.start))).map
    (fun e => { e with port := 8, accepted := false, asked := none })
  { s with extents := keep ++ held.eraseDups }

/-- Entries of an LD's extent list. -/
def State.extentCount (s : State) (k ld : Nat) : Nat := (s.extents.filter (fun e => e.port == k && (s.vi e.vi).ld == ld)).length

/-- An extent offered on a port (R245), whose LD's list holds at most 1,024. -/
def State.offer (s : State) (t start blocks port : Nat) (elastic : Bool) : State :=
  if 1024 ≤ s.extentCount port (s.vi t).ld then s
  else
  let e : Extent := ⟨t, start, blocks, port, false, elastic, none, 0⟩
  ({ s with extents := s.extents ++ [e] } : State).dcNotice e 0

/-- Elastic ranges granted to a VI. -/
def State.grants (s : State) (t : Nat) : List (Nat × Nat) :=
  ((s.extents.filter (fun e => e.vi == t && e.elastic)).map (fun e => (e.start, e.blocks))).eraseDups

/-- The extents that a binding offers on a port: the assured part and the ranges granted, where the port's list lacks them. -/
def State.offerAll (s : State) (t k : Nat) : State :=
  let v := s.vi t
  let has := fun (s : State) (b : Nat) => s.extents.any (fun e => e.vi == t && e.port == k && e.start == b)
  let s := if v.assuredG = 0 || has s 0 then s else s.offer t 0 (512 * v.assuredG) k false
  (s.grants t).foldl (fun (s : State) (g : Nat × Nat) => if has s g.1 then s else s.offer t g.1 g.2 k true) s

/-- The window lies in the LD as R244 asks: static capacity without an elastic part, one DC region with one, sharable where
the VI is shared. -/
def State.windowPlace (s : State) (v : Vi) (k ld base : Nat) : Bool :=
  let d := s.ldev k ld
  if v.elasticG = 0 then decide (base + v.winG ≤ d.capG)
  else
    match dcRegion d.dcG d.capG 0 base with
    | some (i, b, g) => decide (base + v.winG ≤ b + g) && (!v.shared || d.sharable.testBit i)
    | none => false

/-! ### Binding (R222, R224) -/

/-- Another bound VI's window meets a window on a port and LD. -/
def State.overlaps (s : State) (t k ld base w : Nat) : Bool :=
  s.vis.any (fun x => x.1 != t && x.2.ports.testBit k && x.2.ld == ld &&
    decide (x.2.dpaBaseG < base + w) && decide (base < x.2.dpaBaseG + x.2.winG))

/-- A binding of the telemetry VI on a port is permitted (R224). -/
def State.telOk (s : State) (t k ld : Nat) : Bool :=
  k == s.mgrPort || s.vis.any (fun x => x.1 != t && x.2.ports.testBit k && x.2.ld == ld && x.2.telPerm)

/-- The reasons of BAD_BINDING (R222, R244). -/
def State.badBinding (s : State) (t ports ld base : Nat) : Bool :=
  let v := s.vi t
  let ks := pick 8 (fun k => ports.testBit k)
  (!v.shared && decide (1 < ks.length)) ||
  ks.any (fun k =>
    let d := s.ldev k ld
    s.lostMask.testBit k || decide (d.capG + d.dcG.sum < base + v.winG) || s.overlaps t k ld base v.winG ||
      !s.windowPlace v k ld base || (v.telemetry && !s.telOk t k ld))

/-- The checks of BIND_VI in the order of R219. -/
def State.bindCheck (s : State) (p : List Nat) : Nat :=
  let t := pf p 0 2
  let v := s.vi t
  let ports := pb p 2
  if bits (pb p 3) 4 4 != 0 || bits (pf p 4 4) 18 14 != 0 then stBadField
  else if (pick 8 (fun k => ports.testBit k)).any (fun k =>
      !s.fitsPort (s.trainedBw k) (s.portCharge k + (if v.ports.testBit k then 0 else v.guarQ))) then stNoBandwidth
  else if v.st != .quiesced then stBadState
  else if s.badBinding t ports (bits (pb p 3) 0 4) (bits (pf p 4 4) 0 18) then stBadBinding
  else if s.viBusy t then stBusy
  else stDone

/-- The written leaves of a VI, of every size, whose W bit is not the one given: DA and entry. -/
def State.leavesW (s : State) (t : Nat) (w : Bool) : List (Nat × Nat) :=
  ((s.wroteEntries t).filter (fun x => leafAt x.2.1 x.2.2.2 && leafW x.2.2.2 != w)).map (fun x => (x.2.2.1, x.2.2.2))

/-- Every leaf of a VI can be written now (R167, R168). -/
def State.leavesReady (s : State) (t : Nat) (w : Bool) : Bool := (s.leavesW t w).all (fun x => s.metaReady x.1)

/-- W cleared in every leaf of a VI (R217, R222). -/
def State.clearW (s : State) (t : Nat) : State :=
  let s' := (s.leavesW t false).foldl (fun (s : State) (x : Nat × Nat) => (s.casEntry x.1 x.2 (x.2 - 64) {}).1) s
  s'.setVi t { (s'.vi t) with wAll := false }

/-- W set in every leaf of a VI by compare-and-write (R228). -/
def State.setW (s : State) (t : Nat) : State :=
  let s' := (s.leavesW t true).foldl (fun (s : State) (x : Nat × Nat) => (s.casEntry x.1 x.2 (x.2 + 64) {}).1) s
  s'.setVi t { (s'.vi t) with wAll := true }

/-- A VI takes requests again: ports refuse none of its requests at once, and those held at window lookup pass it again
(R225). -/
def State.unholdVi (s : State) (t : Nat) : State :=
  let s := (List.range 8).foldl (fun (s : State) (k : Nat) =>
    if (s.prt k).refused.contains t then s.setPrt k { (s.prt k) with refused := (s.prt k).refused.filter (fun x => x != t) }
    else s) s
  ((s.reqs.filter (fun x => x.2.phase == .lookup && x.2.vi == t)).foldl (fun (s : State) (x : Nat × Req) =>
    s.lookup x.1 x.2) s).release

/-- A port's list of the VIs bound on it since its last sweep (R210). -/
def State.noteBound (s : State) (t k : Nat) : State :=
  if (s.prt k).bound.contains t then s else s.setPrt k { (s.prt k) with bound := (s.prt k).bound ++ [t] }

/-- A port's list of the VIs bound on it since its last whole-VI invalidation (R98). -/
def State.noteSeen (s : State) (t k : Nat) : State :=
  if (s.prt k).seen.contains t then s else s.setPrt k { (s.prt k) with seen := t :: (s.prt k).seen }

/-- The accepted binding (R222). -/
def State.bind (s : State) (t ports ld base : Nat) : State :=
  let v := s.vi t
  let s := if ports = 0 then s else s.clearW t
  let s := s.invPorts t (v.ports ||| ports)
  let drop := if v.ld = ld ∧ v.dpaBaseG = base then maskOf 8 (fun k => v.ports.testBit k && !ports.testBit k) else v.ports
  let s := s.forceRelease t drop
  let s := (pick 8 (fun k => v.ports.testBit k)).foldl (fun (s : State) (k : Nat) => s.noteSeen t k) s
  let s := s.setVi t { (s.vi t) with ports := ports, ld := ld, dpaBaseG := base }
  let s := s.pacerUpdate
  if ports = 0 then s
  else
    let ks := pick 8 (fun k => ports.testBit k)
    let s := ks.foldl (fun (s : State) (k : Nat) => s.noteBound t k) s
    let s := s.viTo t .active
    let s := if v.elasticG = 0 then s else ks.foldl (fun (s : State) (k : Nat) => s.offerAll t k) s
    ({ s with extents := s.extents.filter (fun e => !(e.vi == t && e.port == 8)) } : State).unholdVi t

/-- BIND_VI (R222). -/
def execBindVi (src : CmdSrc) (req : List (BitVec 8)) (s : State) : Host.Outcome State Fault Refusal :=
  .next (s.vendor src 0xC101 (nats req) (fun (s : State) (p : List Nat) =>
    let c := s.bindCheck p
    if c != stDone then (s, some [c])
    else if pb p 2 != 0 && !s.leavesReady (pf p 0 2) false then (s, none)
    else (s.bind (pf p 0 2) (pb p 2) (bits (pb p 3) 0 4) (bits (pf p 4 4) 0 18), some [stDone])))

/-! ### Recall of a VI's copies and quiesce (R225) -/

/-- A line's queued write or side bits name a holder, or cannot be read (R206, R213). -/
def State.namedBy (s : State) (t da : Nat) : Bool :=
  match s.queued da with
  | some q => q.dstate != 0
  | none => match s.dirLine da t with
    | some d => d.2.1 != 0
    | none => true

/-- The lines of a shared VI that some port may hold: those its directory entries name, and those of its frames, mirror copies apart,
whose queued writes or side bits name one. -/
def State.namedLines (s : State) (t : Nat) : List Nat :=
  let inDir := (s.dir.filter (fun x => x.2.dstate != 0 && (if x.2.t2
      then (match s.descPeek (less x.1 (2 ^ 42) / 64) with | some d => descVi d == t | none => true)
      else s.viOfDa (64 * x.1) == some t))).map Prod.fst
  let das := (s.storedLines 0 (2 ^ 48) ++ (List.range 16).flatMap (fun n => (s.pier n).wq.map (fun (q : QWrite) => 64 * (q.da / 64)))).eraseDups
  inDir ++ ((das.filter (fun da => (s.dirGet (da / 64)).isNone && s.viOfDa da == some t && s.primDa da == da && s.namedBy t da)).map
    (fun da => da / 64))

/-- Every host copy of a shared VI recalled (R225 step 5); the answer says that none remains. -/
def State.recallVi (s : State) (t : Nat) : State × Bool :=
  if !(s.vi t).shared then (s, true)
  else
    (s.namedLines t).foldl (fun (x : State × Bool) (l : Nat) =>
      match x.1.recall t l true none with
      | (s, ok) => (if ok then s.dirChange l (0, 0, 0) else s, x.2 && ok)) (s, true)

/-- Requests of a VI past window lookup are over (R225 step 2). -/
def State.drained (s : State) (t : Nat) : Bool :=
  !s.reqs.any (fun x => x.2.vi == t && x.2.phase != .lookup && x.2.phase != .gate && x.2.phase != .answered)

/-- A command whose payload is a tag alone: refused in other states than those it names, or while another runs. -/
def State.tagCheck (s : State) (t : Nat) (ok : ViState → Bool) : Nat :=
  if !ok (s.vi t).st then stBadState else if s.viBusy t then stBusy else stDone

/-- QUIESCE_VI (R225): the VI starts quiescing; its response waits for the end. -/
def execQuiesceVi (src : CmdSrc) (req : List (BitVec 8)) (s : State) : Host.Outcome State Fault Refusal :=
  .next (s.vendor src 0xC102 (nats req) (fun (s : State) (p : List Nat) =>
    let t := pf p 0 2
    let c := s.tagCheck t (fun st => st == .active || st == .frozen)
    if c != stDone then (s, some [c]) else ((s.viTo t .quiescing).keepRunning t 0xC102 src, none)))

/-- The whole-VI invalidation of a running command, once (R217, R225 step 4, R228 step 2), and the end of its steps. -/
def State.invStep (s : State) (t : Nat) : State :=
  if (s.vi t).step = 1 then s
  else
    let s := s.invPorts t (s.vi t).ports
    s.setVi t { (s.vi t) with step := 1 }
def State.stepDone (s : State) (t : Nat) : State := s.setVi t { (s.vi t) with step := 0 }

/-- QUIESCE_DONE (R225): waits for the drain, for moves and for the recall. -/
def execQuiesceDone (vi : BitVec 16) (s : State) : Host.Outcome State Fault Refusal :=
  let t := vi.toNat
  if (s.vi t).st != .quiescing || !s.engOn || !s.drained t || s.moves.any (fun m => m.vi == t) then .next s
  else
    match (s.invStep t).recallVi t with
    | (s, false) => .next s
    | (s, true) => .next (((s.stepDone t).viTo t .quiesced).endRunning t [stDone])

/-! ### Reset and removal (R223) -/

/-- Dumps stop under R350: the telemetry VI is gone, or a dump write failed. -/
def State.lapStop (s : State) : State :=
  if !s.flag 9 Reg.TEL_LAP_STAT_RUNNING then s
  else
    let s := (s.put 9 Reg.TEL_LAP_STAT_RUNNING 0).put 9 Reg.TEL_LAP_STAT_STOPPED 1
    ({ s with lap := { s.lap with writing := false, header := false } } : State).raise 56 0xA01 ERROR none 0 0

/-- The descriptors written since the boot that are a VI's. -/
def State.viDescs (s : State) (t : Nat) : List Nat :=
  s.storedDescs (fun d => match s.descPeek d with | some y => descUsed y && descVi y == t | none => false)

/-- A VI's descriptors, and those that its assured part takes anew, can be written now (R167, R168). -/
def State.backingReady (s : State) (t : Nat) : Bool :=
  (s.storedDescs (fun d => (s.vi t).hasDesc d || (s.viDescs t).contains d)).all s.descReady

/-- Every backing of a VI freed (R223): the leaves that name one, what frames and descriptors still stand in its name, and the runs
of its creation. -/
def State.freeBacking (s : State) (t : Nat) : State :=
  let s' := (s.wroteLeaves t).foldl (fun (s : State) (x : Nat × Nat) =>
    if leafV x.2 then s.freeLeaf t x.2 (4096 * x.1) else s) s
  let s' := (s'.viDescs t).foldl (fun (s : State) (d : Nat) => s.freeDesc d) s'
  let s' := ((s'.owner.filter (fun x => x.2 == t)).map Prod.fst).foldl (fun (s : State) (f : Nat) => s.freePair f) s'
  s'.dropBack t

/-- The fault queue and the dirty bitmap cleared, the bitmap freed (R218, R223). -/
def State.clearQueues (s : State) (t : Nat) : State :=
  { s.setVi t { (s.vi t) with fq := RecQueue.empty, fqMissed := 0, fqMissedMax := false, dirtyLog := false, dlogBase := 0,
                              wAll := false } with dirty := SMap.del s.dirty t }

/-- The state at creation restored (R223): backing freed, tables rebuilt, assured pages backed anew. -/
def State.resetVi (s : State) (t : Nat) : Option State :=
  let old := (s.vi t).back
  let s := (s.freeBacking t).clearQueues t
  let s := if (s.vi t).telemetry then s.lapStop else s
  let back := (s.backing (s.vi t) ((old.map (fun r => r.base)).headD 0)).getD old
  let s := s.setVi t { (s.vi t) with back := back }
  if !(s.storedDescs (s.vi t).hasDesc).all s.descReady then none
  else
  ((s.takeBack t).buildVi t).map (fun s => (s.invPorts t (s.vi t).ports).ladderCross)

/-- RESET_VI (R223). -/
def execResetVi (src : CmdSrc) (req : List (BitVec 8)) (s : State) : Host.Outcome State Fault Refusal :=
  .next (s.vendor src 0xC103 (nats req) (fun (s : State) (p : List Nat) =>
    let t := pf p 0 2
    let c := s.tagCheck t (fun st => st == .quiesced)
    if c != stDone then (s, some [c])
    else if !s.backingReady t then (s, none)
    else
      match (s.viTo t .resetting).resetVi t with
      | some s => (s.viTo t .quiesced, some [stDone])
      | none => (s, none)))

/-- A VI removed (R223): reset, its extents released by force, its resources returned, its entry FREE. -/
def State.removeVi (s : State) (t : Nat) : State :=
  let v := s.vi t
  let s := ((s.viTo t .removing).freeBacking t).clearQueues t
  let s := if v.telemetry then s.lapStop else s
  let s := s.forceRelease t 0xFF
  let s := { s with extents := s.extents.filter (fun e => e.vi != t) }
  let s := s.dropFrames v.tpoolBase (v.tpoolBase + v.tpoolTables)
  let s := s.invPorts t 0xFF
  let s := s.viTo t .free
  (({ s with vis := SMap.del s.vis t } : State).pacerUpdate).ladderCross

/-- REMOVE_VI (R223). -/
def execRemoveVi (src : CmdSrc) (req : List (BitVec 8)) (s : State) : Host.Outcome State Fault Refusal :=
  .next (s.vendor src 0xC104 (nats req) (fun (s : State) (p : List Nat) =>
    let t := pf p 0 2
    let c := s.tagCheck t (fun st => st == .quiesced)
    if c != stDone then (s, some [c])
    else if !s.backingReady t then (s, none)
    else (s.removeVi t, some [stDone])))

/-! ### Freeze, thaw and the dirty log (R217, R228, R232) -/

/-- The payload a command arrives with: the slot's stored request for a mailbox, else its own. -/
def State.payloadOf (s : State) (src : CmdSrc) (op : Nat) (req : List (BitVec 8)) : List Nat :=
  match src with
  | .mbx k => padTo ((vendorReq op).getD 0) (s.mbox k.val).req
  | _ => nats req

/-- The freeze goes on (R228): W in every leaf, invalidation, recall; FROZEN once no host copy remains. -/
def State.freezeGo (s : State) (t : Nat) : State :=
  match ((if (s.vi t).step = 1 then s else s.setW t).invStep t).recallVi t with
  | (s, false) => s
  | (s, true) => ((s.stepDone t).viTo t .frozen).endRunning t [stDone]

/-- RELAY_FREEZE (R228): given again, it goes on once the snoops it sent are answered. -/
def execRelayFreeze (src : CmdSrc) (req : List (BitVec 8)) (s : State) : Host.Outcome State Fault Refusal :=
  let t := pf (s.payloadOf src 0xC105 req) 0 2
  if SMap.get? s.running t = some (0xC105, src) then .next (if s.engOn then s.freezeGo t else s)
  else
    .next (s.vendor src 0xC105 (nats req) (fun (s : State) (p : List Nat) =>
      let t := pf p 0 2
      let c := s.tagCheck t (fun st => st == .active)
      if c != stDone then (s, some [c])
      else if !s.leavesReady t true then (s, none)
      else ((s.keepRunning t 0xC105 src).freezeGo t, none)))

/-- RELAY_THAW (R217). -/
def execRelayThaw (src : CmdSrc) (req : List (BitVec 8)) (s : State) : Host.Outcome State Fault Refusal :=
  .next (s.vendor src 0xC106 (nats req) (fun (s : State) (p : List Nat) =>
    let t := pf p 0 2
    let c := s.tagCheck t (fun st => st == .frozen)
    if c != stDone then (s, some [c])
    else if !s.leavesReady t false then (s, none)
    else ((((s.clearW t).viTo t .active).invPorts t (s.vi t).ports).unholdVi t, some [stDone])))

/-- The checks of DIRTY_LOG in the order of R219; the base is the place the engines found for the bitmap. -/
def State.dlogCheck (s : State) (p : List Nat) (base : Nat) : Nat :=
  let t := pf p 0 2
  let v := s.vi t
  if (pb p 2 != 1 && pb p 2 != 2) || pb p 3 != 0 then stBadField
  else if pb p 2 = 1 && !v.dirtyLog && !s.metaFits (base, 8 * v.winG) then stNoMetadata
  else s.tagCheck t (fun st => st == .active || st == .frozen || st == .quiesced)

/-- DIRTY_LOG (R232): START clears the bitmap, STOP frees it. -/
def State.dirtyLog (s : State) (src : CmdSrc) (req : List Nat) (base : Nat) : State :=
  s.vendor src 0xC107 req (fun (s : State) (p : List Nat) =>
    let t := pf p 0 2
    let v := s.vi t
    let c := s.dlogCheck p base
    if c != stDone then (s, some [c])
    else if pb p 2 = 1 then
      ({ s.setVi t { v with dirtyLog := true, dlogBase := if v.dirtyLog then v.dlogBase else base } with
          dirty := SMap.put s.dirty t [] }, some [stDone])
    else
      ({ s.setVi t { v with dirtyLog := false, dlogBase := 0 } with dirty := SMap.del s.dirty t }, some [stDone]))

/-- DIRTY_LOG with OP 0x01 (R232); a payload whose OP is 0x02 belongs to DIRTY_LOG_STOP. -/
def execDirtyLogStart (src : CmdSrc) (req : List (BitVec 8)) (base : BitVec 36) (s : State) :
    Host.Outcome State Fault Refusal :=
  .next (if pb (s.payloadOf src 0xC107 req) 2 = 2 then s else s.dirtyLog src (nats req) base.toNat)

/-- DIRTY_LOG with OP 0x02 (R232); any other OP belongs to DIRTY_LOG_START. -/
def execDirtyLogStop (src : CmdSrc) (req : List (BitVec 8)) (s : State) : Host.Outcome State Fault Refusal :=
  .next (if pb (s.payloadOf src 0xC107 req) 2 = 2 then s.dirtyLog src (nats req) 0 else s)

/-! ### The VI page (R227) -/

/-- The VI page of a tag shows on a port and LD: the VI is bound there. -/
def State.viPage (s : State) (p ld t : Nat) : Bool :=
  (s.vi t).st != .free && (s.vi t).ports.testBit p && (s.vi t).ld == ld && s.awake && s.linkUp p

/-- A write of VI_DOORBELL. -/
def State.viDoorbell (s : State) (t v : Nat) : State := s.raise 24 0x506 INFO (some t) 0 (detail (leBytes 2 t ++ leBytes 4 v))

/-- VI_DOORBELL (R227). -/
def execViDoorbell (p : Fin 8) (ld : Fin 16) (vi : BitVec 16) (v : BitVec 32) (s : State) :
    Host.Outcome State Fault Refusal :=
  .next (if s.viPage p.val ld.val vi.toNat then s.viDoorbell vi.toNat v.toNat else s)

/-- FQ_MISSED_CLEAR (R227): bit 31 of VI_FQ_MISSED. -/
def execFqMissedClear (p : Fin 8) (ld : Fin 16) (vi : BitVec 16) (v : BitVec 32) (s : State) :
    Host.Outcome State Fault Refusal :=
  let t := vi.toNat
  .next (if s.viPage p.val ld.val t && v.toNat.testBit 31 then
    s.setVi t { (s.vi t) with fqMissed := 0, fqMissedMax := false } else s)

/-- Sectors of the packed store that a VI's descriptors hold. -/
def State.viSectors (s : State) (t : Nat) : Nat :=
  let lo := s.descDa 0
  ((s.storedLines lo (s.descDa (s.fld 2 Reg.HUB_XLAT_DESC_CNT_COUNT))).map (fun x =>
    match s.descPeek ((x - lo) / 64) with
    | some d => if descUsed d && descVi d == t then ((descRecs d).map (fun r => r.cnt)).sum else 0
    | none => 0)).sum

/-- The telemetry of a VI page: T0, T1 and T2 pages, pages left by R130, sectors. -/
def State.viTel (s : State) (t : Nat) : List Nat :=
  let v := s.vi t
  let w := s.wroteLeaves t
  let big := s.largeLeaves t
  let hidden := w.map (fun x => (x.1, 1)) ++ big.map (fun x => (x.1, reach x.2.1))
  let runs := (v.back.foldl (fun (a : Nat × List (Nat × Nat × Nat)) (r : Run) =>
    (a.1 + r.count, a.2 ++ [(r.tier, a.1, r.count)])) (0, [])).2
  let n := fun (k : Nat) => (w.filter (fun x => leafV x.2 && leafTier x.2 == k)).length +
    ((big.filter (fun x => leafTier x.2.2 == k)).map (fun x => reach x.2.1)).sum +
    lenAll (cutAll ((runs.filter (fun r => r.1 == k)).map Prod.snd) hidden)
  [n 0, n 1, n 2, (w.filter (fun x => x.2 == 0xF * 2 ^ 60)).length, s.viSectors t]

/-- VI_TEL_UPDATE (R227): frozen in coast. -/
def execViTelUpdate (s : State) : Host.Outcome State Fault Refusal :=
  .next (if s.engOn then { s with vis := s.vis.map (fun (x : Nat × Vi) => (x.1, { x.2 with tel := s.viTel x.1 })) } else s)

end Sys2Proof.Machine
end

