-- ==== Sys2Proof/Machine/Relay.lean ====
section
/-!
DEFINITION. Relay (R228 to R233): blobs saved into a staging VI and restored from one.
-/
namespace Sys2Proof.Machine

abbrev PLine := BitVec 512 × Bool

/-! ### Access to a VI's pages by the engines -/

/-- The lines of a page as the home reads them for a job; an unbacked page reads as zeros, a page without a leaf as none. -/
def State.pageLines (s : State) (t page : Nat) (bs : List Bursts) : State × Option (List PLine) :=
  match s.findLeaf t (4096 * page) with
  | some (_, lvl, e) =>
    if !leafV e then (s, none)
    else if leafTier e = 3 then (s, some (List.replicate 64 (0, false)))
    else if leafTier e = 2 then s.readT2Page t (leafAddr e) bs
    else s.readFrame t true ((List.range 64).map (fun i => leafDa e lvl (4096 * page) + 64 * i)) bs
  | none => (s, none)

/-- Enabled bytes of one line of a page of a private VI written by a job (R151, R205): none where the write has to wait. A partial write
of a poisoned line leaves it poisoned (R40). -/
def State.putLine (s : State) (t page ln : Nat) (d : BitVec 512) (m : BitVec 64) : Option State :=
  match s.findLeaf t (4096 * page) with
  | some (_, lvl, e) =>
    if !leafV e || leafM e || leafW e || leafTier e == 3 then none
    else if leafTier e = 2 then
      (if s.wbufRoom (leafAddr e) (ln / 16) then some (s.wbufPut (leafAddr e) (ln / 16) (some page) (ln % 16) d m false) else none)
    else
      let da := leafDa e lvl (4096 * page) + 64 * ln
      let write := fun (s : State) (d : BitVec 512) (poison : Bool) => match s.writePlain da t (leafTier e) d poison (0, 0, 0) 3 (some (s.mgrFlt da)) with
        | (_, .wait) => none
        | (s', .refused) => some (s'.raiseRefused da)
        | (s', .ok) => some s'
      if !s.lineFree (da / 64) || !s.lineRuns da then none
      else if m = BitVec.allOnes 64 then write s d false
      else
        match s.readPlain da t {} none (some (s.mgrFlt da)) with
        | (_, .wait) => none
        | (s', .ok x) => write s' (mergeBytes x d m) false
        | (s', .poison x) => write s' (mergeBytes x d m) true
  | none => none

/-- Bytes written at a VIA of a VI, line by line; fuel bounds the lines. -/
def State.putBytes : Nat → State → Nat → Nat → List Nat → Option State
  | 0, s, _, _, _ => some s
  | _, s, _, _, [] => some s
  | n + 1, s, t, via, b :: bs =>
    let l := (b :: bs).take 64
    let m : BitVec 64 := BitVec.ofNat 64 (2 ^ l.length - 1)
    match s.putLine t (via / 4096) (via / 64 % 64) (bytesLine l) m with
    | some s' => State.putBytes n s' t (via + 64) ((b :: bs).drop 64)
    | none => none

/-! ### Saving (R229, R230, R232) -/

/-- The staging VI is fit (R229): private, ACTIVE, neither the source nor the telemetry VI, with the range in its assured
part. -/
def State.stagingOk (s : State) (t st via len : Nat) : Bool :=
  let v := s.vi st
  !v.shared && v.st == .active && st != t && !v.telemetry && decide (via + len ≤ 2 ^ 30 * v.assuredG)

/-- What a page is: 0 unbacked, 1 lost, 2 backed. -/
def State.pageKind (s : State) (t page : Nat) : Nat :=
  match s.findLeaf t (4096 * page) with
  | some (_, _, e) => if leafV e then (if leafTier e = 3 then 0 else 2) else if e = 0xF * 2 ^ 60 then 1 else 0
  | none => 0

def State.pageTier (s : State) (t page : Nat) : Nat :=
  match s.findLeaf t (4096 * page) with
  | some (_, _, e) => leafTier e
  | none => 3

/-- The pages of a range that a save of a mode covers, ascending (R229, R232): in the window. -/
def State.savePages (s : State) (t mode start count : Nat) : List Nat :=
  let pages := ((List.range (min count (262144 * (s.vi t).winG))).map (fun i => start + i))
  if mode = 1 then pages.filter (fun p => s.pageKind t p != 0)
  else pages.filter (fun p => (SMap.getD s.dirty t []).contains p)

/-- Host copies of the pages a save reads: an exclusive owner is asked for its data (R207). -/
def State.saveRecall (s : State) (t : Nat) (pages : List Nat) : State × Bool :=
  if !(s.vi t).shared then (s, true)
  else
    pages.foldl (fun (x : State × Bool) (p : Nat) =>
      match x.1.findLeaf t (4096 * p) with
      | some (_, _, e) =>
        if !leafV e || leafTier e == 3 then x
        else (leafLines e p).foldl (fun (y : State × Bool) (l : Nat) =>
          match y.1.recall t l false none with
          | (s, ok) => (s, y.2 && ok)) x
      | none => x) (s, true)

/-- One record (R230). -/
def recordBytes (page kind tier : Nat) (ls : List PLine) : List Nat :=
  let zero := kind == 2 && ls.all (fun l => l.1 == 0 && !l.2)
  let flags := b2n zero + 2 * b2n (kind == 0) + 4 * b2n (kind == 1) + 8 * b2n (kind == 2 && tier == 0)
    + 16 * b2n (kind == 2 && tier == 2)
  let mask := if kind = 2 then maskOf 64 (fun i => (ls.getD i (0, false)).2) else 0
  leBytes 8 (page + 2 ^ 56 * flags) ++ leBytes 8 mask ++
    (if kind = 2 && !zero then ls.flatMap (fun l => lineBytes l.1) else [])

/-- The records of a list of pages; none where a page's read has to wait. -/
def State.saveRecords (s : State) (t : Nat) : List Nat → List Bursts → State × Option (List Nat)
  | [], _ => (s, some [])
  | p :: ps, bs =>
    let kind := s.pageKind t p
    let rd := if kind = 2 then s.pageLines t p (bs.take 64) else (s, some [])
    match rd with
    | (_, none) => (s, none)
    | (s1, some ls) =>
      match State.saveRecords s1 t ps (bs.drop 64) with
      | (s2, some rest) => (s2, some (recordBytes p kind (s.pageTier t p) ls ++ rest))
      | (_, none) => (s, none)

/-- The source's context entry in a blob: bits [31:21], [63:24] and [511:128] zero (R230). -/
def blobContext (v : Vi) : Nat :=
  let x := v.pack % 2 ^ 128
  bits x 0 21 + 2 ^ 64 * bits x 64 64

/-- The header of a blob with a value of BLOB_CRC (R230). -/
def blobHeader (t : Nat) (v : Vi) (mode seq n len start stop crc : Nat) : List Nat :=
  leBytes 4 0x42525A4B ++ leBytes 2 1 ++ [mode, 0] ++ leBytes 2 t ++ [0, 0, 0, 0, 0, 0] ++ leBytes 4 seq ++ leBytes 4 v.epoch
    ++ leBytes 8 n ++ leBytes 8 len ++ leBytes 8 start ++ leBytes 8 stop ++ leBytes 4 crc ++ [0, 0, 0, 0]
    ++ leBytes 64 (blobContext v) ++ leBytes 4 (v.guarQ + 2 ^ 10 * v.weight + 2 ^ 18 * v.cls) ++ List.replicate 124 0

/-- The checks of RELAY_SAVE in the order of R219. -/
def State.saveCheck (s : State) (p : List Nat) : Nat :=
  let t := pf p 0 2
  let v := s.vi t
  let mode := pb p 2
  if (mode != 1 && mode != 2) || !zeroBytes p [3, 6, 7] || pf p 8 8 % 4096 != 0 || pf p 16 8 % 4096 != 0 then stBadField
  else if (v.st != .active && v.st != .frozen) || (mode == 2 && !v.dirtyLog) || (mode == 1 && v.st == .active && !v.dirtyLog)
    then stBadState
  else if !s.stagingOk t (pf p 4 2) (pf p 8 8) (4112 * min (pf p 24 8) 16777216 + 256) then stNoStaging
  else if s.viBusy t then stBusy
  else stDone

/-- The response of a save (R221). -/
def saveRsp (len n next : Nat) : List Nat :=
  [stDone, 0, 0, 0, 0, 0, 0, 0] ++ leBytes 8 len ++ leBytes 8 n ++ leBytes 8 next

/-- A save that passed its checks (R229, R232): the dirty bits of the pages it covers are cleared, their records and the header
written to the staging VI. -/
def State.save (s : State) (p : List Nat) (bs : List Bursts) : State × Option (List Nat) :=
  let t := pf p 0 2
  let mode := pb p 2
  let start := pf p 16 8
  let all := s.savePages t mode (start / 4096) (pf p 24 8)
  let pages := all.take 16777216
  let next := match all.drop 16777216 with
    | x :: _ => 4096 * x
    | [] => start + 4096 * pf p 24 8
  if pf p 24 8 = 0 then (s, some (saveRsp 0 0 start))
  else if s.urg3 then (s, none)
  else
    match s.saveRecall t pages with
    | (s0, false) => (s0, none)
    | (s0, true) =>
      let s1 := if mode = 2 then
          { s0 with dirty := SMap.put s0.dirty t ((SMap.getD s0.dirty t []).filter (fun x => !pages.contains x)) } else s0
      match s1.saveRecords t pages bs with
      | (_, none) => (s0, none)
      | (s2, some recs) =>
        let v := s2.vi t
        let seq := (v.saveSeq + 1) % 2 ^ 32
        let len := 256 + recs.length
        let hdr := blobHeader t v mode seq pages.length len start next
        let crc := crc32c (hdr 0 ++ recs)
        let s3 := s2.setVi t { v with saveSeq := seq }
        match State.putBytes (len / 64 + 1) s3 (pf p 4 2) (pf p 8 8) (hdr crc ++ recs) with
        | some s4 => (s4, some (saveRsp len pages.length next))
        | none => (s0, none)

def State.relaySave (s : State) (src : CmdSrc) (req : List Nat) (bs : List Bursts) : State :=
  s.vendor src 0xC108 req (fun (s : State) (p : List Nat) =>
    let c := s.saveCheck p
    if c != stDone then (s, some [c]) else s.save p bs)

/-- RELAY_SAVE with MODE 0x01 (R229); a payload whose MODE is 0x02 belongs to RELAY_SAVE_DELTA. -/
def execRelaySaveFull (src : CmdSrc) (req : List (BitVec 8)) (bs : List Bursts) (s : State) :
    Host.Outcome State Fault Refusal :=
  .next (if pb (s.payloadOf src 0xC108 req) 2 = 2 then s else s.relaySave src (nats req) bs)

/-- RELAY_SAVE with MODE 0x02 (R229, R232); any other MODE belongs to RELAY_SAVE_FULL. -/
def execRelaySaveDelta (src : CmdSrc) (req : List (BitVec 8)) (bs : List Bursts) (s : State) :
    Host.Outcome State Fault Refusal :=
  .next (if pb (s.payloadOf src 0xC108 req) 2 = 2 then s.relaySave src (nats req) bs else s)

/-! ### Restoring (R231) -/

/-- Bytes of a VI from a page on, so many pages; none where a line is poisoned or cannot be read. -/
def State.bytesOf (s : State) (t page : Nat) : Nat → Option (List Nat)
  | 0 => some []
  | n + 1 =>
    match (s.pageLines t page []).2 with
    | some ls =>
      if ls.any (fun l => l.2) then none
      else
        match State.bytesOf s t (page + 1) n with
        | some r => some (ls.flatMap (fun l => lineBytes l.1) ++ r)
        | none => none
    | none => none

/-- A record of a blob: page, flags, poison mask, page bytes. -/
structure BlobRec where
  page : Nat
  flags : Nat
  mask : Nat
  bytes : List Nat
  deriving DecidableEq, Repr

/-- The records that bytes hold, so many; none unless they are used up exactly. -/
def parseRecs : Nat → List Nat → Option (List BlobRec)
  | 0, [] => some []
  | 0, _ => none
  | n + 1, bs =>
    let w := pf bs 0 8
    let flags := w / 2 ^ 56
    let size := if flags % 8 = 0 then 4112 else 16
    if bs.length < size then none
    else
      match parseRecs n (bs.drop size) with
      | some r => some (⟨w % 2 ^ 45, flags, pf bs 8 8, (bs.drop 16).take (size - 16)⟩ :: r)
      | none => none

/-- The blob at a VIA of the staging VI, with the checks of R231: its bytes and its records. -/
def State.readBlob (s : State) (st via : Nat) : Option (List Nat × List BlobRec) :=
  match s.bytesOf st (via / 4096) 1 with
  | none => none
  | some h =>
    let len := pf h 0x20 8
    if pf h 0 4 != 0x42525A4B || pf h 4 2 != 1 || (pb h 6 != 1 && pb h 6 != 2) || decide (len < 256)
        || decide (2 ^ 30 * (s.vi st).assuredG < via + len) then none
    else
      match s.bytesOf st (via / 4096) (ceilDiv len 4096) with
      | none => none
      | some all =>
        let b := all.take len
        if crc32c (b.take 0x38 ++ [0, 0, 0, 0] ++ b.drop 0x3C) != pf b 0x38 4 then none
        else (parseRecs (pf b 0x18 8) (b.drop 256)).map (fun r => (b, r))

/-- The tier a record's page goes to (R108, R231): the first choice its flags give, else the first of the order with space. -/
def State.restoreTier (s : State) (t : Nat) (r : BlobRec) : Option Nat :=
  let first := if r.flags.testBit 3 then 0 else if r.flags.testBit 4 then 2 else 1
  if s.tierHasSpace t first then some first else s.firstTier t

/-- The leaf of a page changed for a restore, its old backing freed; none where a line it writes has to wait (R167, R168). -/
def State.swapLeaf (s : State) (t page new : Nat) (free : Bool) : Option State :=
  match s.findLeaf t (4096 * page) with
  | none => none
  | some (da, _, e) =>
    if !s.metaReady da || !(if free && leafV e then s.leafPlaceReady e else true) then none
    else
      match s.casEntry da e new {} with
      | (s, true) => some (if free && leafV e then s.freeLeaf t e (4096 * page) else s)
      | (_, false) => none

/-- Lines written at a place for a restore: a frame is written, a descriptor takes them through its write buffer (R151), and waits where
that has no room. -/
def State.fillPlace (s : State) (t page : Nat) (pl : Place) (ls : List PLine) : Option State :=
  match pl with
  | .frame f => s.writeFrame t (s.frameTier f.toNat) (4096 * f.toNat) ls
  | .desc x =>
    if ls.all (fun l => l.1 == 0 && !l.2) then some s
    else ls.zipIdx.foldl (fun (a : Option State) (y : PLine × Nat) => a.bind (fun s =>
      if s.wbufRoom x.toNat (y.2 / 16) then
        some (s.wbufPut x.toNat (y.2 / 16) (some page) (y.2 % 16) y.1.1 (BitVec.allOnes 64) y.1.2)
      else none)) (some s)
  | .none => none

/-- A page's own backing as a place. -/
def leafPlace (e page : Nat) : Place :=
  if leafTier e = 2 then .desc (BitVec.ofNat 40 (leafAddr e))
  else if leafTier e = 3 then .none
  else .frame (BitVec.ofNat 36 (leafDa e 1 (4096 * page) / 4096))

/-- The lines of a page written at a place the engines chose, which the rules allow, or over the page's own backing; a page of
the elastic part with no place left is lost (R130, R233). -/
def State.restorePage (s : State) (t : Nat) (r : BlobRec) (tier : Option Nat) (pl : Place) (ls : List PLine) : Option State :=
  match s.findLeaf t (4096 * r.page) with
  | none => none
  | some (_, _, e) =>
    let own := leafPlace e r.page
    let own := if leafV e then own else .none
    if !s.placeReady pl then none
    else if own != .none && pl == own then
      match own with
      | .desc x => ((s.freeDesc x.toNat).descWrite x.toNat (descPack t 0 0 true [])).fillPlace t r.page own ls
      | _ => s.fillPlace t r.page own ls
    else if (s.placeFree t pl && tier == some (s.placeTier pl)) || s.reservePlace t r.page pl then
      match (s.claim t pl).fillPlace t r.page pl ls with
      | some s => s.swapLeaf t r.page (s.leafFor pl 0) true
      | none => none
    else if pl == .none && (s.vi t).elastic r.page && (s.firstTier t).isNone && !s.reserveServes t r.page &&
        s.leafReady t r.page then
      some (s.exhaustPage t r.page)
    else none

/-- One record applied (R231). Records that need a place take the next one. -/
def State.applyRec (s : State) (t : Nat) (r : BlobRec) (pls : List Place) : Option (State × List Place) :=
  let pl := pls.headD .none
  if r.flags.testBit 2 then
    (s.swapLeaf t r.page (0xF * 2 ^ 60) true).map (fun s => (s.markDirty t r.page, pls))
  else if r.flags.testBit 1 ∧ (s.vi t).elastic r.page then
    (s.swapLeaf t r.page 13 true).map (fun s => (s.markDirty t r.page, pls))
  else if r.flags % 8 != 0 then
    let tier := if s.fld 2 Reg.HUB_PS_CTL_PS_SPANS = 0 then s.restoreTier t r else some 2
    (s.restorePage t r tier pl (List.replicate 64 (0, false))).map (fun s => (s, pls.tail))
  else
    let ls := (toLines 64 r.bytes).zipIdx.map (fun y => (y.1, r.mask.testBit y.2))
    (s.restorePage t r (s.restoreTier t r) pl ls).map (fun s => (s, pls.tail))

/-- Records applied one after the other until one has to wait: the state, how many, and whether all are. -/
def State.applyRecs (s : State) (t : Nat) : List BlobRec → List Place → State × Nat × Bool
  | [], _ => (s, 0, true)
  | r :: rs, pls =>
    match s.applyRec t r pls with
    | some (s', pls') => match State.applyRecs s' t rs pls' with
      | (s'', n, ok) => (s'', n + 1, ok)
    | none => (s, 0, false)

/-- The response of a restore (R221). -/
def restoreRsp (t : Nat) : List Nat := [stDone, 0] ++ leBytes 2 t

/-- A restore goes on with the records not yet applied (R217, R231). With the last one RESTORE_SEQ takes SEQ and the VI is left
QUIESCED. -/
def State.restoreGo (s : State) (t : Nat) (b : List Nat) (rs : List BlobRec) (pls : List Place) : State × Bool :=
  match s.applyRecs t (rs.drop (s.vi t).step) pls with
  | (s, n, false) => (s.setVi t { (s.vi t) with step := (s.vi t).step + n }, false)
  | (s, _, true) =>
    let s := s.setVi t { (s.vi t) with restoreSeq := pf b 0x10 4, sourceTag := pf b 8 2, step := 0 }
    let s := (s.invalidate t 0 1 true).ladderCross
    (if (s.vi t).st = .creating then s.viTo t .quiesced else s, true)

/-- The entry of a VI that a blob describes (R230, R231). -/
def State.blobVi (s : State) (p b : List Nat) : Vi :=
  let c := pf b 0x40 16
  let q := pf b 0x80 4
  { Vi.blank with
      shared := c.testBit 3, mirror := c.testBit 4 || s.pol 0x10C != 0, telemetry := c.testBit 5, telPerm := c.testBit 6,
      keyEn := (pb p 2).testBit 5, depth := bits c 8 2, cls := bits q 18 3, pagePol := bits c 13 2, codeMode := bits c 15 2,
      keySlot := bits (pb p 3) 0 4, assuredG := bits c 64 16, elasticG := bits c 80 16, guarQ := bits q 0 10,
      weight := bits q 10 8 }

/-- Reserved fields of RELAY_RESTORE's payload are zero, and the blob's VIA is aligned. -/
def restoreClean (p : List Nat) : Bool :=
  bits (pb p 2) 2 3 == 0 && bits (pb p 2) 6 2 == 0 && bits (pb p 3) 4 4 == 0 && zeroBytes p [6, 7] && pf p 8 8 % 4096 == 0

/-- RELAY_RESTORE with NEW = 1 (R231): the VI created from the blob, its tables built, the records applied; it goes on while records
have to wait. -/
def State.restoreNew (s : State) (src : CmdSrc) (p : List Nat) (tpool b0 : Nat) (pls : List Place) : State × Option (List Nat) :=
  let tag := s.askTag ((pb p 2).testBit 0) (pf p 0 2)
  let st := pf p 4 2
  if tag.isNone then (s, some [stNoContext])
  else if !restoreClean p then (s, some [stBadField])
  else if (pb p 2).testBit 5 && (s.slot (bits (pb p 3) 0 4)).st != 3 then (s, some [stBadKey])
  else if !s.stagingOk 65536 st (pf p 8 8) 256 then (s, some [stNoStaging])
  else
    match s.readBlob st (pf p 8 8) with
    | none => (s, some [stBadBlob])
    | some (b, rs) =>
      let v := s.blobVi p b
      let c := s.createCheck tag true v tpool
      if c != stDone then (s, some [c])
      else
        match s.backing v b0 with
        | none => (s, some [stNoCapacity])
        | some back =>
          let t := tag.getD 0
          if !(s.storedDescs (newVi v tpool back).hasDesc).all s.descReady then (s, none)
          else
            let s1 := (s.setVi t { newVi v tpool back with epoch := (s.vi t).epoch, restored := true }).takeBack t
            match (s1.viTo t .creating).buildVi t with
            | none => (s, none)
            | some s2 =>
              match s2.pacerUpdate.restoreGo t b rs pls with
              | (s3, true) => (s3, some (restoreRsp t))
              | (s3, false) => (s3.keepRunning t 0xC109 src, none)

/-- RELAY_RESTORE with NEW = 0 (R231). -/
def State.restoreApply (s : State) (src : CmdSrc) (p : List Nat) (pls : List Place) : State × Option (List Nat) :=
  let t := pf p 0 2
  let st := pf p 4 2
  if !restoreClean p then (s, some [stBadField])
  else if (s.vi t).st != .quiesced || !(s.vi t).restored then (s, some [stBadState])
  else if !s.stagingOk t st (pf p 8 8) 256 then (s, some [stNoStaging])
  else
    match s.readBlob st (pf p 8 8) with
    | none => (s, some [stBadBlob])
    | some (b, rs) =>
      if pf b 8 2 != (s.vi t).sourceTag || decide (pf b 0x10 4 ≤ (s.vi t).restoreSeq) then (s, some [stBadBlob])
      else if s.viBusy t then (s, some [stBusy])
      else
        match s.restoreGo t b rs pls with
        | (s1, true) => (s1, some (restoreRsp t))
        | (s1, false) => (s1.keepRunning t 0xC109 src, none)

/-- A running restore goes on: the blob is read again, and one that no longer passes its checks ends it with BAD_BLOB. -/
def State.restoreMore (s : State) (t : Nat) (p : List Nat) (pls : List Place) : State :=
  if !s.engOn then s
  else
    match s.readBlob (pf p 4 2) (pf p 8 8) with
    | none => (s.setVi t { (s.vi t) with step := 0 }).endRunning t [stBadBlob]
    | some (b, rs) =>
      match s.restoreGo t b rs pls with
      | (s, true) => s.endRunning t (restoreRsp t)
      | (s, false) => s

/-- The VI whose restore a path runs. -/
def State.restoring (s : State) (src : CmdSrc) : Option Nat := (s.running.find? (fun x => x.2 == (0xC109, src))).map Prod.fst

/-- RELAY_RESTORE_NEW (R231); a payload with NEW = 0 belongs to RELAY_RESTORE_APPLY. -/
def execRelayRestoreNew (src : CmdSrc) (req : List (BitVec 8)) (tpool : BitVec 36) (descBase : BitVec 40)
    (places : List Place) (s : State) : Host.Outcome State Fault Refusal :=
  .next (if (pb (s.payloadOf src 0xC109 req) 2).testBit 1 then
    match s.restoring src with
    | some t => s.restoreMore t (s.payloadOf src 0xC109 req) places
    | none => s.vendor src 0xC109 (nats req) (fun (s : State) (p : List Nat) =>
        s.restoreNew src p tpool.toNat descBase.toNat places)
  else s)

/-- RELAY_RESTORE_APPLY (R231); a payload with NEW = 1 belongs to RELAY_RESTORE_NEW. -/
def execRelayRestoreApply (src : CmdSrc) (req : List (BitVec 8)) (places : List Place) (s : State) :
    Host.Outcome State Fault Refusal :=
  .next (if (pb (s.payloadOf src 0xC109 req) 2).testBit 1 then s
    else
      match s.restoring src with
      | some t => s.restoreMore t (s.payloadOf src 0xC109 req) places
      | none => s.vendor src 0xC109 (nats req) (fun (s : State) (p : List Nat) => s.restoreApply src p places))

end Sys2Proof.Machine
end

