-- ==== Sys2Proof/WellFormed.lean ====
section
/-!
DEFINITION. The checks on a command's operand lists: lengths that the spec fixes for the thing the list stands for. A
command that fails its check is none the outside can send.
-/
namespace Sys2Proof

/-- A Fenbo request frame on the wire: seven bytes of header, as many data bytes as its LEN byte can name, and CHK (R404). -/
def frameLenOk (f : List (BitVec 8)) : Bool := f.length ≤ 263

/-- One SPD, or none, per channel (R52). -/
def spdLenOk (l : List (Option Spd)) : Bool := l.length = 16

/-- At most eight DC regions (R241). -/
def regionsOk (l : List (BitVec 36)) : Bool := l.length ≤ 8

/-- The operand lists of a command have lengths that its row allows. -/
def Instr.wf : Instr → Bool
  | .populationCheck spd => spdLenOk spd
  | .setLdAllocations _ _ _ _ dcG _ => regionsOk dcG
  | .tunnelManagementCommand _ _ _ _ dcG _ => regionsOk dcG
  | .fenboRd f => frameLenOk f
  | .fenboWr f => frameLenOk f
  | .spiRd f => frameLenOk f
  | .spiProg f => frameLenOk f
  | .spiErase f => frameLenOk f
  | .fenboStatus f => frameLenOk f
  | .badOp f => frameLenOk f
  | _ => true

end Sys2Proof
end

