-- ==== Sys2Proof/Machine/Port.lean ====
section
/-!
DEFINITION. Host ports (R235 to R263): link up and down with the grace period, PERST_N, IDE, L0p, decoders, LD allocations,
dynamic capacity, the poison list, the media scan, firmware update, the CXL event logs, and the remaining mailbox commands.
-/
namespace Sys2Proof.Machine

/-! ### Link down and up (R235, R239, R253, R259, R260) -/

/-- Held responses of a port discarded (R259), with their count. -/
def State.discardHeld (s : State) (k : Nat) : State × Nat :=
  let ids := (s.reqs.filter (fun x => x.2.org == .host && x.2.port == k && x.2.phase == .answered)).map Prod.fst
  let pg := pgPort k
  let s := ids.foldl (fun (s : State) (id : Nat) => s.dropReq id) s
  (s.put pg Reg.PORT_DOWN_STAT_DISCARDED (satAdd 0xFFFF (s.fld pg Reg.PORT_DOWN_STAT_DISCARDED) ids.length), ids.length)

/-- The grace period ends with the link down, or PERST_N ends it (R257, R259, R260): held responses are discarded and the port
is marked lost. -/
def State.graceOver (s : State) (k cause : Nat) : State :=
  let s := (s.discardHeld k).1
  let s := (s.setPrt k { (s.prt k) with graceEnd := none }).put (pgPort k) Reg.PORT_LINK_STAT_IN_GRACE 0
  ((s.raise (64 + 8 * k) 0x602 ERROR none 0 0).loseHost k cause).urgUpdate k

/-- DL_Down (R253, R259, R264): LINK_DOWN, IDE keys cleared, and the grace period started; one of 0 ends at once (R260), with the cause
that R210 gives. -/
def State.dlDown (s : State) (k : Nat) (cause : Nat := 1) : State :=
  let pg := pgPort k
  let p := s.prt k
  let g := min 1000000 (s.fld pg Reg.PORT_GRACE_GRACE_US)
  let s := s.setPrt k { p with ideWait := p.ideWait || p.ideMem.isSome || p.ideIo.isSome, ideMem := none, ideIo := none,
                               graceEnd := some (s.time + 1000 * g) }
  let s := (((s.put pg Reg.PORT_LINK_STAT_UP 0).put pg Reg.PORT_LINK_STAT_SPEED 0).put pg Reg.PORT_LINK_STAT_WIDTH 0).put pg
    Reg.PORT_LINK_STAT_FLIT 0
  let s := (s.put pg Reg.PORT_LINK_STAT_IDE_ON 0).put pg Reg.PORT_LINK_STAT_IN_GRACE 1
  let s := (s.put pg Reg.PORT_DOWN_STAT_DOWNS (satAdd 0xFFFF (s.fld pg Reg.PORT_DOWN_STAT_DOWNS) 1)).put pg
    Reg.PORT_DOWN_STAT_DISCARDED 0
  let s := s.raise (64 + 8 * k) 0x600 ERROR none 0 0
  let s := s.urgUpdate k
  if g = 0 then s.graceOver k cause else s

/-- LINK_DOWN (R259). -/
def execLinkDown (p : Fin 8) (s : State) : Host.Outcome State Fault Refusal :=
  .next (if s.linkUp p.val then s.dlDown p.val else s)

/-- DL_Up at a speed for CXL (R239, R259): held responses discarded, host credits taken, the Pacer told. -/
def State.dlUp (s : State) (k : Nat) (t : LinkTrain) : State :=
  let pg := pgPort k
  let w := if t.x8 then 8 else 16
  let (s, n) := if s.flag pg Reg.PORT_LINK_STAT_IN_GRACE then s.discardHeld k else (s, 0)
  let s := s.setPrt k { (s.prt k) with graceEnd := none, l0p := w, trSpeed := t.speed.val, trWidth := w,
                                       traf := 0, trafAt := s.time }
  let s := ((s.put pg Reg.PORT_LINK_STAT_UP 1).put pg Reg.PORT_LINK_STAT_SPEED t.speed.val).put pg Reg.PORT_LINK_STAT_WIDTH w
  let s := (s.put pg Reg.PORT_LINK_STAT_FLIT (if t.speed.val = 1 then 0 else if t.latOpt then 2 else 1)).put pg
    Reg.PORT_LINK_STAT_IN_GRACE 0
  let s := ((s.put pg Reg.PORT_HOST_CRED_NDR t.ndr.toNat).put pg Reg.PORT_HOST_CRED_DRS t.drs.toNat).put pg
    Reg.PORT_HOST_CRED_BISNP t.bisnp.toNat
  let s := s.put pg Reg.PORT_HOST_CRED_HDMH_FORCED (b2n (t.bisnp == 0))
  let s := s.raise (64 + 8 * k) 0x601 INFO none 0 (n % 2 ^ 32)
  let s := if t.ndr == 0 || t.drs == 0 then s.raise (64 + 8 * k) 0x604 ERROR none 0 0 else s
  (s.urgUpdate k).pacerUpdate

/-- LINK_UP (R235, R259): a link that trains below 32 GT/s is not brought up. -/
def execLinkUp (p : Fin 8) (t : LinkTrain) (s : State) : Host.Outcome State Fault Refusal :=
  let k := p.val
  if s.linkUp k || !s.flag (pgPort k) Reg.PORT_PINS_PERST_N || !s.awake || s.pwr.trans == 2 || s.fld 0 Reg.TRUSS_BOOT_STAT_STAGE < 6 || s.fld 0 Reg.TRUSS_BOOT_STAT_STAGE == 0xE ||
      s.flag (pgPort k) (Reg.SEQ_CTL_HALTED 0x380) then .next s
  else if t.speed.val = 0 then .next (s.raise (64 + 8 * k) 0x603 ERROR none 0 0)
  else .next (s.dlUp k t)

/-- LINK_GRACE_END (R259): due at the end of the period. -/
def execLinkGraceEnd (p : Fin 8) (s : State) : Host.Outcome State Fault Refusal :=
  match (s.prt p.val).graceEnd with
  | some t => .next (if t ≤ s.time then s.graceOver p.val 1 else s)
  | none => .next s

/-- A port's LDs, the FM-owned LD of the manager port included. -/
def portLds (k : Nat) : List Nat := (List.range 17).map (fun i => ldKey k i)

/-- The fundamental reset of a port (R257): decoders and event logs of its LDs go; the port page and the bindings stay. -/
def State.portReset (s : State) (k : Nat) : State :=
  let s := { s with lds := s.lds.map (fun (x : Nat × LogDev) => if (portLds k).contains x.1 then
    (x.1, { x.2 with decoders := [], logs := LogDev.blank.logs, dcLog := [] }) else x) }
  s.setPrt k { (s.prt k) with ideMem := none, ideIo := none }

/-- PERST_N (R257, R259, R377): the pin falls, which wakes the Kenez from Sleep. -/
def execPerstN (p : Fin 8) (s : State) : Host.Outcome State Fault Refusal :=
  let k := p.val
  let pg := pgPort k
  if !s.flag pg Reg.PORT_PINS_PERST_N then .next s
  else
    let s := if s.linkUp k then s.dlDown k 2 else s
    let s := (s.put pg Reg.PORT_PINS_PERST_N 0).urgUpdate k
    let s := if (s.prt k).graceEnd.isSome then s.graceOver k 2 else s
    let s := s.portReset k
    .next (if s.pwrGoal = 2 then s.wakeBy 3 else s)

/-! ### IDE (R253, R254) -/

/-- IDE_FAIL (R254): counted and raised, and the link goes down. -/
def execIdeFail (p : Fin 8) (s : State) : Host.Outcome State Fault Refusal :=
  let k := p.val
  if !s.linkUp k || ((s.prt k).ideMem.isNone && (s.prt k).ideIo.isNone) then .next s
  else
    let s := s.bump (pgPort k) Reg.PORT_IDE_FAIL_CNT_COUNT Reg.PORT_IDE_FAIL_CNT_SAT 1
    .next ((s.raise (65 + 8 * k) 0x606 ERROR none 0 0).dlDown k)

/-- IDE_KM (R253): a stream's key set or refreshed; with both streams keyed the link carries CXL.mem again. -/
def execIdeKm (p : Fin 8) (mem : Bool) (key : BitVec 256) (s : State) : Host.Outcome State Fault Refusal :=
  let k := p.val
  if !s.linkUp k then .next s
  else
    let q := s.prt k
    let q := if mem then { q with ideMem := some key } else { q with ideIo := some key }
    let both := q.ideMem.isSome && q.ideIo.isSome
    .next ((s.setPrt k { q with ideWait := q.ideWait && !both }).put (pgPort k) Reg.PORT_LINK_STAT_IDE_ON (b2n both))

/-! ### L0p (R240) -/

/-- Bytes of traffic in 100 µs do not pass a share num / den of a width's bandwidth. -/
def trafFits (speed width traf num den : Nat) : Bool := 1088 * (4 * traf) * den ≤ 100000 * linkBw speed width * num

/-- L0P_EVALUATE (R240): every 100 µs with L0P_EN set, the port asks its host for a width. -/
def execL0pEvaluate (p : Fin 8) (s : State) : Host.Outcome State Fault Refusal :=
  let k := p.val
  let q := s.prt k
  if !s.flag (pgPort k) Reg.PORT_LINK_CTL_L0P_EN || !s.linkUp k || s.time < q.trafAt + 100000 then .next s
  else
    let s' := s.setPrt k { q with traf := 0, trafAt := s.time }
    let wide := decide (1 ≤ q.urgLevel) || decide (256 < s.fill5 k) || decide (128 < s.fill4 k)
      || !trafFits q.trSpeed q.l0p q.traf 1 2
    let want := if wide then q.trWidth
      else (([2, 4, 8, 16].filter (fun w => w ≤ q.trWidth)).find? (fun w => trafFits q.trSpeed w q.traf 1 2)).getD q.trWidth
    .next (if (wide && q.l0p < q.trWidth) || (!wide && want < q.l0p) then s'.emit (.widthAsk k want) else s')

/-- L0P_WIDTH_CHANGE (R238, R240): every width change the host asks for is accepted. -/
def execL0pWidthChange (p : Fin 8) (width : Fin 4) (s : State) : Host.Outcome State Fault Refusal :=
  let k := p.val
  let w := 2 ^ (width.val + 1)
  if !s.linkUp k || (s.prt k).trWidth < w then .next s
  else .next ((s.setPrt k { (s.prt k) with l0p := w }).put (pgPort k) Reg.PORT_LINK_STAT_WIDTH w).pacerUpdate

/-! ### Decoders and allocations (R241, R242, R262) -/

/-- HDM_DECODER_COMMIT (R242): a decoder in HDM-DB mode is committed only while the port has BISnp credits. -/
def execHdmDecoderCommit (p : Fin 8) (ld : Fin 16) (i : Fin 8) (d : HdmDecoder) (s : State) :
    Host.Outcome State Fault Refusal :=
  let k := p.val
  if !s.linkUp k || (d.hdmDb && s.fld (pgPort k) Reg.PORT_HOST_CRED_BISNP == 0) then .next s
  else
    let l := s.ldev k ld.val
    .next (s.setLdev k ld.val { l with decoders := SMap.put l.decoders i.val d })

/-- Set LD Allocations (R241): at most 48 TiB per LD. -/
def State.setAlloc (s : State) (src : CmdSrc) (p ld capG : Nat) (dcG : List Nat) (sharable : Nat) : State :=
  if 49152 < capG + dcG.sum then s.emit (.reply src ccInvalid [])
  else (s.setLdev p ld { (s.ldev p ld) with capG := capG, dcG := dcG, sharable := sharable }).emit (.reply src ccSuccess [])

/-- SET_LD_ALLOCATIONS (R241, R262): an FM API command, taken over I3C; other paths have no FM API, or carry it by tunnel. -/
def execSetLdAllocations (src : CmdSrc) (p : Fin 8) (ld : Fin 16) (capG : BitVec 18) (dcG : List (BitVec 36))
    (sharable : BitVec 8) (s : State) : Host.Outcome State Fault Refusal :=
  if !regionsOk dcG then .fault .illFormed
  else if !s.awake then .next s
  else if src = .i3c then .next (s.setAlloc src p.val ld.val capG.toNat (dcG.map BitVec.toNat) sharable.toNat)
  else .next (s.emit (.reply src ccUnsupported []))

/-- TUNNEL_MANAGEMENT_COMMAND (R262): the FM API command through the FM-owned LD's mailbox. -/
def execTunnelManagementCommand (src : CmdSrc) (p : Fin 8) (ld : Fin 16) (capG : BitVec 18) (dcG : List (BitVec 36))
    (sharable : BitVec 8) (s : State) : Host.Outcome State Fault Refusal :=
  if !regionsOk dcG then .fault .illFormed
  else if !s.awake then .next s
  else if src = .fmLd ∧ s.linkUp s.mgrPort then
    .next (s.setAlloc src p.val ld.val capG.toNat (dcG.map BitVec.toNat) sharable.toNat)
  else .next (s.emit (.reply src ccUnsupported []))

/-! ### Dynamic capacity (R245, R246) -/

/-- An add is refused (R245). -/
def State.addRefused (s : State) (t start blocks : Nat) : Bool :=
  let v := s.vi t
  v.st == .free || decide (start < 512 * v.assuredG) || decide (512 * v.winG < start + blocks) ||
  s.extents.any (fun e => e.vi == t && decide (e.start < start + blocks) && decide (start < e.start + e.blocks)) ||
  decide (3 ≤ s.ladder) || (pick 8 (fun k => v.ports.testBit k)).any (fun k => decide (1024 ≤ s.extentCount k v.ld))

/-- INITIATE_DC_ADD (R245, R262): an FM API command; one of no blocks succeeds at once (R11). -/
def execInitiateDcAdd (src : CmdSrc) (vi : BitVec 16) (start blocks : BitVec 32) (s : State) :
    Host.Outcome State Fault Refusal :=
  let t := vi.toNat
  if src != .i3c && src != .fmLd then .next (s.emit (.reply src ccUnsupported []))
  else if blocks = 0 then .next (s.emit (.reply src ccSuccess []))
  else if !s.engOn then .next s
  else if s.addRefused t start.toNat blocks.toNat then .next (s.emit (.reply src ccInvalid []))
  else
    let ks := pick 8 (fun k => (s.vi t).ports.testBit k)
    let s := if ks.isEmpty then { s with extents := s.extents ++ [⟨t, start.toNat, blocks.toNat, 8, false, true, none, 0⟩] }
      else ks.foldl (fun (s : State) (k : Nat) => s.offer t start.toNat blocks.toNat k true) s
    .next (s.emit (.reply src ccSuccess []))

/-- The extent offered at a block of a VI on a port. -/
def State.offered (s : State) (k t start : Nat) : Option Extent :=
  s.extents.find? (fun e => e.vi == t && e.port == k && e.start == start && !e.accepted)

/-- ADD_DC_RESPONSE (R245): the first blocks of an offered extent are accepted, the rest declined. -/
def execAddDcResponse (p : Fin 8) (ld : Fin 16) (vi : BitVec 16) (start accept : BitVec 32) (s : State) :
    Host.Outcome State Fault Refusal :=
  let t := vi.toNat
  if !s.linkUp p.val || !(s.vi t).ports.testBit p.val || (s.vi t).ld != ld.val then .next s
  else
    match s.offered p.val t start.toNat with
    | none => .next s
    | some e =>
      let n := min accept.toNat e.blocks
      let rest := s.extents.filter (fun x => x != e)
      let s := { s with extents := if n = 0 then rest else rest ++ [{ e with accepted := true, blocks := n }] }
      let s := if n = 0 then s else s.dcNotice e 1
      .next (if n < e.blocks then s.dcNotice e 2 else s)

/-- A page returned to unbacked (R122, R130): its leaf rewritten, its backing freed after the invalidation. -/
def State.unback (s : State) (t page : Nat) : State :=
  match s.findLeaf t (4096 * page) with
  | none => s
  | some (da, _, e) =>
    if leafV e && leafTier e == 3 then s
    else
      match s.casEntry da e 13 {} with
      | (s, true) => if leafV e then (s.markDirty t page).freeLeaf t e (4096 * page) else s.markDirty t page
      | (s, false) => s

/-- The pages of a released range that a table line written since creation maps, and those that its runs still back. -/
def State.rangePages (s : State) (t start blocks : Nat) : List Nat :=
  ((s.wroteLeaves t).filter (fun x => decide (512 * start ≤ x.1) && decide (x.1 < 512 * (start + blocks)))).map Prod.fst

/-- The larger leaves inside a range. -/
def State.rangeLarge (s : State) (t start blocks : Nat) : List (Nat × Nat × Nat) :=
  (s.largeLeaves t).filter (fun x => decide (512 * start ≤ x.1) && decide (x.1 + reach x.2.1 ≤ 512 * (start + blocks)))

/-- A 2 MiB or 1 GiB page returned to unbacked, with all its frames. -/
def State.unbackLarge (s : State) (t : Nat) (x : Nat × Nat × Nat) : State :=
  match s.findLeaf t (4096 * x.1) with
  | some (da, _, e) =>
    match s.casEntry da e 29 {} with
    | (s, true) =>
      let f := leafDa e x.2.1 (4096 * x.1) / 4096
      let s := (s.owner.filter (fun y => y.2 == t && decide (f ≤ y.1) && decide (y.1 < f + reach x.2.1))).foldl
        (fun (s : State) (y : Nat × Nat) => s.freePair y.1) s
      if (s.vi t).dirtyLog then (List.range (reach x.2.1)).foldl (fun (s : State) (i : Nat) => s.markDirty t (x.1 + i)) s else s
    | (s, false) => s
  | none => s

/-- The pages of a released range return to unbacked. -/
def State.unbackRange (s : State) (t start blocks : Nat) : State :=
  let s' := (s.rangePages t start blocks).foldl (fun (s : State) (p : Nat) => s.unback t p) s
  let s' := (s.rangeLarge t start blocks).foldl (fun (s : State) (x : Nat × Nat × Nat) => s.unbackLarge t x) s'
  (s'.invalidate t (512 * start) (512 * blocks) false).ladderCross

/-- The leaves of a range, and the descriptors they name, can be written now (R167, R168). -/
def State.rangeReady (s : State) (t start blocks : Nat) : Bool :=
  (s.rangePages t start blocks).all (fun p => match s.findLeaf t (4096 * p) with
    | some (da, _, e) => s.metaReady da && (!leafV e || s.leafPlaceReady e)
    | none => true) &&
  (s.rangeLarge t start blocks).all (fun x => s.leafReady t x.1)

/-- Requests of a range of a VI's pages are under way at the home. -/
def State.rangeQuiet (s : State) (t start blocks : Nat) : Bool :=
  !s.reqs.any (fun x => x.2.vi == t && (x.2.phase.tracked || x.2.phase == .chained) &&
    decide (512 * start ≤ x.2.via / 4096) && decide (x.2.via / 4096 < 512 * (start + blocks)))

/-- One extent released by its host (R246): the pages of an elastic one return to unbacked once no other port holds it. -/
def State.releaseExtent (s : State) (e : Extent) : State :=
  let s := ({ s with extents := s.extents.filter (fun x => x != e) } : State).dcNotice e 4
  if e.elastic && !s.extents.any (fun x => x.vi == e.vi && x.start == e.start) then s.unbackRange e.vi e.start e.blocks else s

/-- RELEASE_DC (R122, R246): the accepted extents that lie inside the range. Waits for the engines and for requests under way. -/
def execReleaseDc (p : Fin 8) (ld : Fin 16) (vi : BitVec 16) (start blocks : BitVec 32) (s : State) :
    Host.Outcome State Fault Refusal :=
  let t := vi.toNat
  if !s.linkUp p.val || !s.engOn || (s.vi t).ld != ld.val || !s.rangeQuiet t start.toNat blocks.toNat ||
      !s.rangeReady t start.toNat blocks.toNat then .next s
  else
    .next ((s.extents.filter (fun e => e.vi == t && e.port == p.val && e.accepted && decide (start.toNat ≤ e.start) &&
      decide (e.start + e.blocks ≤ start.toNat + blocks.toNat))).foldl (fun (s : State) (e : Extent) => s.releaseExtent e) s)

/-! ### Poison commands (R248, R249) -/

/-- The output of Get Poison List: flags, count, and a 16-byte record per entry (the layout of CXL 3.1). -/
def LogDev.poisonBytes (l : LogDev) : List Nat :=
  [2 * b2n l.poisonOvf, 0, 0, 0, 0, 0, 0, 0, 0, 0] ++ leBytes 2 l.poison.length ++ List.replicate 20 0
    ++ l.poison.flatMap (fun a => leBytes 8 a ++ leBytes 4 1 ++ [0, 0, 0, 0])

/-- GET_POISON_LIST (R248): reading it out completely ends Poison List Overflow. -/
def execGetPoisonList (p : Fin 8) (ld : Fin 16) (s : State) : Host.Outcome State Fault Refusal :=
  if !s.linkUp p.val then .next s
  else
    let l := s.ldev p.val ld.val
    .next ((s.setLdev p.val ld.val { l with poisonOvf := false }).emit (.reply (.hostLd p ld) ccSuccess l.poisonBytes))

/-- CXL return code Invalid Physical Address. -/
def ccAddress : Nat := 0x000F

/-- An invalidating write of a mailbox command enters by its DPA (R205, R249): accepted only inside a window bound on the
LD. -/
def State.cmdWrite (s : State) (p : Fin 8) (ld : Fin 16) (dpa : Nat) (op : ReqOp) (data : BitVec 512) (mask : BitVec 64)
    (poison : Bool) : State :=
  if !s.portServes p.val then s
  else if (s.windowOf p.val ld.val dpa (fun _ => true)).isNone then s.emit (.reply (.hostLd p ld) ccAddress [])
  else
    let r : Req := { op := op, org := .cmd, port := p.val, ld := ld.val, mv := .i, hpa := 0, dpa := 64 * (dpa / 64), vi := 0,
                     via := 0, data := data, mask := mask, leaf := 0, lvl := 0, da := 0, tier := 3, phase := .lookup,
                     at0 := s.time, heldAt := s.time, poison := poison, accP := false, accM := false, last := none,
                     dir := none, orphan := false }
    let s' := { s with nextReq := (s.nextReq + 1) % 2 ^ 32 }
    let s' := if poison then s'.listPoison p.val ld.val dpa else s'.unlistPoison p.val ld.val dpa
    (s'.startReq s.nextReq r).release

/-- INJECT_POISON (R249): the line rewritten with POISON, its data kept. -/
def execInjectPoison (p : Fin 8) (ld : Fin 16) (dpa : BitVec 52) (s : State) : Host.Outcome State Fault Refusal :=
  .next (s.cmdWrite p ld dpa.toNat .wrPtl 0 0 true)

/-- CLEAR_POISON (R249): the 64 bytes given, as a full-line write. -/
def execClearPoison (p : Fin 8) (ld : Fin 16) (dpa : BitVec 52) (data : BitVec 512) (s : State) :
    Host.Outcome State Fault Refusal := .next (s.cmdWrite p ld dpa.toNat .wr data (BitVec.allOnes 64) false)

/-! ### The media scan (R250) -/

/-- SCAN_MEDIA (R250): a second scan of the LD is refused as Busy; one of no lines succeeds at once (R11). -/
def execScanMedia (p : Fin 8) (ld : Fin 16) (dpa : BitVec 52) (lines : BitVec 32) (s : State) :
    Host.Outcome State Fault Refusal :=
  let l := s.ldev p.val ld.val
  if !s.linkUp p.val then .next s
  else if lines = 0 then .next (s.emit (.reply (.hostLd p ld) ccSuccess []))
  else if l.scan.isSome then .next (s.emit (.reply (.hostLd p ld) ccBusy []))
  else
    .next ((s.setLdev p.val ld.val { l with scan := some (64 * (dpa.toNat / 64), lines.toNat, []), scanDone := [],
                                            bg := some (0x4304, false, []) }).emit (.reply (.hostLd p ld) ccStarted []))

/-- The scan ends (R250): its event and its completion. -/
def State.scanOver (s : State) (k ld : Nat) (found : List Nat) : State :=
  let l := s.ldev k ld
  let n := found.length
  let s := s.setLdev k ld { l with scan := none, scanDone := found, bg := some (0x4304, true, []) }
  (s.raiseFor (70 + 8 * k) 0x60D (if n = 0 then INFO else WARN) none 0 (min 0xFFFFFFFF n) (some (k, ld, none))).emit (.msix k ld 2)

/-- One line of a T2 page as a host would read it (R142, R143, R151): none where the read has to wait. -/
def State.readT2Line (s : State) (t x ln : Nat) (b : Bursts) : State × Option Bool :=
  let invalid := fun (s : State) => s.raise (135 + 16 * s.descPier x) 0x303 ERROR (some t) (s.descDa x) 0
  match s.descRead x {} with
  | (_, .wait) => (s, none)
  | (s, .poison _) => (invalid s, some true)
  | (s0, .ok d) =>
    if s0.descCheck d.toNat t = .foreign then (s0, some true)
    else if s0.descCheck d.toNat t != .ok then (invalid s0, some true)
    else
      let w := match s0.wbufEnt x (ln / 16) with | some w => w.lines | none => []
      match w.find? (fun y => y.1 == ln % 16 && y.2.2.1 == BitVec.allOnes 64) with
      | some (_, _, _, p) => (s0, some p)
      | none =>
        match s0.recLine t none (descRec d.toNat (ln / 16)) (ln % 16) (List.replicate 16 b) with
        | (_, .wait) => (s, none)
        | (s, .lost) => (s, some true)
        | (s, .lines ls) => (s, some ((wbufOver ls w).getD (ln % 16) (0, false)).2)

/-- What one step of a scan meets at a DPA: nothing backed there, a wait, or the line read and whether it is poisoned. -/
def State.scanRead (s : State) (k ld dpa : Nat) (b : Bursts) : State × Option (Option Bool) :=
  match s.windowOf k ld dpa (fun _ => true) with
  | none => (s, some none)
  | some t =>
    let via := dpa - 2 ^ 30 * (s.vi t).dpaBaseG
    match s.findLeaf t via with
    | none => (s, some none)
    | some (_, lvl, e) =>
      if !leafV e || leafTier e == 3 then (s, some none)
      else
        let line := if leafTier e = 2 then t2Line (leafAddr e) (via / 64 % 64) else leafDa e lvl (64 * (via / 64)) / 64
        match s.recall t line false (some dpa) with
        | (s, false) => (s, none)
        | (s, true) =>
          if leafTier e = 2 then
            match s.readT2Line t (leafAddr e) (via / 64 % 64) b with
            | (s, some p) => (s, some (some p))
            | (s, none) => (s, none)
          else if !s.lineRuns (64 * line) then (s, none)
          else
            match s.readPlain (64 * line) t b none (some (s.mgrFlt (64 * line))) with
            | (s', .ok _) => (s', some (some false))
            | (s', .poison _) => (s', some (some true))
            | (s', .wait) => (s', none)

/-- One step of a scan: the next line, or the rest of a page that is not backed. -/
def State.scanStep (s : State) (k ld : Nat) (b : Bursts) : State :=
  match (s.ldev k ld).scan with
  | none => s
  | some (dpa, left, found) =>
    if left = 0 then s.scanOver k ld found
    else
      match s.scanRead k ld dpa b with
      | (s, none) => s
      | (s, some res) =>
        let n := if res.isNone then min left (64 - dpa / 64 % 64) else 1
        let bad := res == some true
        let s := if bad then s.listPoison k ld dpa else s
        let found := if bad then found ++ [dpa] else found
        if left = n then s.scanOver k ld found
        else s.setLdev k ld { (s.ldev k ld) with scan := some (dpa + 64 * n, left - n, found) }

/-- A scan goes on: with the engines, or in coast to the end of its page (R250). -/
def State.scanGoes (s : State) (k ld : Nat) : Bool :=
  s.engNew || (s.coast && s.ready && s.awake && s.pwr.trans == 0 &&
    (match (s.ldev k ld).scan with | some (dpa, _, _) => dpa / 64 % 64 != 0 | none => false))

/-- SCAN_MEDIA_STEP (R250): waits in coast once its page is read, under URG level 3 and for host copies. -/
def execScanMediaStep (p : Fin 8) (ld : Fin 16) (b : Bursts) (s : State) : Host.Outcome State Fault Refusal :=
  .next (if s.scanGoes p.val ld.val && !s.urg3 then s.scanStep p.val ld.val b else s)

/-- Backed pages of a VI from a page on, below another. -/
def State.backedPages (s : State) (t lo hi : Nat) : Nat :=
  let w := (s.wroteLeaves t).map (fun x => (x.1, 1))
  let big := (s.largeLeaves t).map (fun x => (x.1, reach x.2.1))
  let cap := min hi (262144 * (s.vi t).assuredG)
  lenAll (cutAll [(lo, less cap lo)] (w ++ big)) + s.backedIn t lo (hi - lo)

/-- Backed bytes of a DPA range that lies in windows bound on an LD. -/
def State.backedBytes (s : State) (k ld dpa lines : Nat) : Nat :=
  let e := dpa + 64 * lines
  ((s.vis.filter (fun x => x.2.ports.testBit k && x.2.ld == ld)).map (fun x =>
    let b := 2 ^ 30 * x.2.dpaBaseG
    let hi := min e (b + 2 ^ 30 * x.2.winG)
    if hi ≤ max dpa b then 0 else 4096 * s.backedPages x.1 ((max dpa b - b) / 4096) (ceilDiv (hi - b) 4096))).sum

/-- GET_SCAN_MEDIA_CAPABILITIES (R250): backed bytes / 4 GB/s, in milliseconds. -/
def execGetScanMediaCapabilities (p : Fin 8) (ld : Fin 16) (dpa : BitVec 52) (lines : BitVec 32) (s : State) :
    Host.Outcome State Fault Refusal :=
  .next (if s.linkUp p.val then s.emit (.reply (.hostLd p ld) ccSuccess
    (leBytes 4 (ceilDiv (s.backedBytes p.val ld.val dpa.toNat lines.toNat) 4000000))) else s)

/-- GET_SCAN_MEDIA_RESULTS (R250). -/
def execGetScanMediaResults (p : Fin 8) (ld : Fin 16) (s : State) : Host.Outcome State Fault Refusal :=
  .next (if s.linkUp p.val then s.emit (.reply (.hostLd p ld) ccSuccess
    ((s.ldev p.val ld.val).scanDone.flatMap (fun a => leBytes 8 a))) else s)

/-! ### Event logs (R251, R330) -/

/-- CLEAR_EVENT_RECORDS (R251): the oldest records of a log read and cleared. -/
def execClearEventRecords (p : Fin 8) (ld : Fin 17) (log : Fin 4) (count : BitVec 12) (s : State) :
    Host.Outcome State Fault Refusal :=
  let d := s.ldev p.val ld.val
  let q := d.logs.getD log.val RecQueue.empty
  let n := min count.toNat q.recs.length
  let q' := { q with recs := q.recs.drop n, tail := (q.tail + n) % 256 }
  .next (if s.linkUp p.val then
    (s.setLdev p.val ld.val { d with logs := d.logs.set log.val q' }).emit
      (.reply (if ld.val < 16 then .hostLd p (Fin.ofNat 16 ld.val) else .fmLd) ccSuccess
        ((q.recs.take n).flatMap (fun r => leBytes 32 r.pack)))
    else s)

/-! ### Firmware update (R236, R386) -/

/-- The image slot that the boot header does not name: flash offset; with the header erased or torn, slot B. -/
def State.idleSlot (s : State) : Nat :=
  if ofLe (s.flashBytes 0 4) = 0x48424B54 ∧ s.flashByte 4 = 1 then 0x100000 else 0x1000000

/-- Bytes of the flash set, as an erase and a program leave them. -/
def Memory.store (m : List Host.Cell) : Nat → List Nat → List Host.Cell
  | _, [] => m
  | a, b :: bs => Memory.store (Memory.write m a (BitVec.ofNat 8 b)) (a + 1) bs

/-- TRANSFER_FW (R236, R386): from the manager port only, into the inactive slot of 15 MiB. -/
def execTransferFw (p : Fin 8) (off : BitVec 32) (bytes : List (BitVec 8)) (s : State) : Host.Outcome State Fault Refusal :=
  let src := if p.val = s.mgrPort then CmdSrc.fmLd else .hostLd p 0
  if !s.linkUp p.val then .next s
  else if p.val ≠ s.mgrPort then .next (s.emit (.reply src ccUnsupported []))
  else if 0xF00000 < off.toNat + bytes.length then .next (s.emit (.reply src ccInvalid []))
  else .next ({ s with flash := Memory.store s.flash (s.idleSlot + off.toNat) (nats bytes) }.emit (.reply src ccSuccess []))

/-- ACTIVATE_FW (R386): the boot header names the other slot, which the next cold boot tries first. -/
def execActivateFw (p : Fin 8) (s : State) : Host.Outcome State Fault Refusal :=
  let src := if p.val = s.mgrPort then CmdSrc.fmLd else .hostLd p 0
  if !s.linkUp p.val then .next s
  else if p.val ≠ s.mgrPort then .next (s.emit (.reply src ccUnsupported []))
  else
    let a := if s.idleSlot = 0x1000000 then 1 else 0
    .next ({ s with flash := Memory.store (Memory.erase s.flash 0) 0 (leBytes 4 0x48424B54 ++ [a]) }.emit
      (.reply src ccSuccess []))

/-! ### Other mailbox commands (R237, R262, R263) -/

/-- GET_QOS_STATUS (R237): measured values, which the spec does not give a form. -/
def execGetQosStatus (src : CmdSrc) (p : Fin 8) (s : State) : Host.Outcome State Fault Refusal :=
  if !s.awake then .next s
  else if src = .i3c ∨ src = .fmLd then .next ((s.emit (.reply src ccSuccess [(Config.qos (8 * s.free + p.val)) % 256])).tick)
  else .next (s.emit (.reply src ccUnsupported []))

/-- The status bytes of a background operation: opcode, per cent complete, and its response once done. -/
def bgBytes (bg : Option (Nat × Bool × List Nat)) : List Nat :=
  match bg with
  | some (op, done, rsp) => leBytes 2 op ++ [if done then 100 else 0] ++ rsp
  | none => [0, 0, 0]

/-- GET_BACKGROUND_OPERATION_STATUS (R263): of the mailbox it is asked on. -/
def execGetBackgroundOperationStatus (src : CmdSrc) (s : State) : Host.Outcome State Fault Refusal :=
  if !s.awake then .next s
  else
    match src with
    | .fmLd => .next (s.emit (.reply src ccSuccess (bgBytes s.fmLd.bg)))
    | .hostLd p ld => .next (s.emit (.reply src ccSuccess (bgBytes (s.ldev p.val ld.val).bg)))
    | .i3c => .next (s.emit (.reply src ccSuccess (bgBytes none)))
    | .mbx _ => .next (s.emit (.reply src ccUnsupported []))

/-- UNSUPPORTED_COMMAND (R237, R262): an opcode of no implemented feature, or a vendor opcode on a host LD's mailbox. -/
def execUnsupportedCommand (src : CmdSrc) (opcode : BitVec 16) (s : State) : Host.Outcome State Fault Refusal :=
  let vendor := (vendorReq opcode.toNat).isSome
  let host := match src with | .hostLd _ _ => true | _ => false
  .next (if s.awake && (!vendor || host) then s.emit (.reply src ccUnsupported []) else s)

end Sys2Proof.Machine
end

