-- ==== Sys2Proof/Machine/Viaduct.lean ====
section
/-!
DEFINITION. The Viaducts (R278 to R300): flits, credits, acknowledgement and replay, dropped slots, retraining and spare
lanes, the grace period, and a Pier that goes offline. Links 0 to 15 are DV0 to DV15, 16 to 19 are CV0 to CV3.
-/
namespace Sys2Proof.Machine

/-- A data viaduct. -/
def isDv (l : Nat) : Bool := l < 16

/-- The first event source of a link; the second is one above (R299). -/
def vdtSource (l : Nat) : Nat := 384 + 2 * l

/-- One direction of a link. -/
def Lnk.dir (k : Lnk) (toDie : Bool) : Dir := if toDie then k.tx else k.rx
def Lnk.setDir (k : Lnk) (toDie : Bool) (d : Dir) : Lnk := if toDie then { k with tx := d } else { k with rx := d }

/-- A link replaced, with the registers that show its state and its unacknowledged flits (R300). -/
def State.putLink (s : State) (l : Nat) (k : Lnk) : State :=
  ((s.setLink l k).put (pgVdt l) Reg.VDT_STAT_STATE (max k.tx.st k.rx.st)).put (pgVdt l) Reg.VDT_UNACK_COUNT
    k.tx.replayBuf.length

def State.putDir (s : State) (l : Nat) (toDie : Bool) (d : Dir) : State := s.putLink l ((s.link l).setDir toDie d)

/-! ### Flit fields (R280 to R283) -/

/-- Bytes of a flit. -/
def flitBytes (f : BitVec 640) (i n : Nat) : List Nat := (List.range n).map (fun j => bits f.toNat (8 * (i + j)) 8)
def flitOk (f : BitVec 640) : Bool := crc64 (flitBytes f 0 72) == bits f.toNat 576 64
def flitSeq (f : BitVec 640) : Nat := bits f.toNat 0 12
def flitAck (f : BitVec 640) : Nat := bits f.toNat 12 12
def flitAckV (f : BitVec 640) : Bool := f.toNat.testBit 24
def flitType (f : BitVec 640) : Nat := bits f.toNat 25 3
def flitVt (f : BitVec 640) : Nat := bits f.toNat 28 2
def flitCrHdr (f : BitVec 640) : Nat := bits f.toNat 30 12
def flitCrData (f : BitVec 640) : Nat := bits f.toNat 42 12
def flitDcnt (f : BitVec 640) : Nat := bits f.toNat 54 3
/-- Slot i of a HDR flit. -/
def flitSlot (f : BitVec 640) (i : Nat) : List Nat := flitBytes f (8 + 16 * i) 16
def slotVt (b : List Nat) : Nat := b.headD 0 % 4
def slotData (b : List Nat) : Bool := (b.headD 0).testBit 2
def slotDest (b : List Nat) : Nat := b.headD 0 / 8
def slotEmpty (b : List Nat) : Bool := b.all (fun x => x == 0)

/-- A flit from its fields, with its link CRC. -/
def mkFlit (seq ack : Nat) (ackV : Bool) (ty vt hdr data dcnt : Nat) (payload : List Nat) : BitVec 640 :=
  let h := layout [(0, 12, seq), (12, 12, ack), (24, 1, b2n ackV), (25, 3, ty), (28, 2, vt), (30, 12, hdr), (42, 12, data),
    (54, 3, dcnt)]
  let b := leBytes 8 h ++ padTo 64 payload
  BitVec.ofNat 640 (ofLe b + 2 ^ 576 * crc64 b)

/-! ### Credits and acknowledgement (R285 to R289) -/

/-- The advertisement of a direction's receiving end (R285): header of VT0 to VT3, then data. -/
def advert (l : Nat) (toDie fallback : Bool) : List Nat :=
  if !isDv l then [0, 0, 0, 256, 0, 0, 0, 64]
  else
    let v := if fallback then (32, 8) else (0, 0)
    if toDie then [512, 256, 128, v.1, 256, 256, 64, v.2] else [256, 512, 128, v.1, 128, 512, 64, v.2]

/-- An ACK takes every flit it covers out of the replay buffer; an advance ends a replay (R289, R290). -/
def Dir.takeAck (d : Dir) (ack now : Nat) : Dir :=
  match d.replayBuf with
  | [] => d
  | (f, _) :: _ =>
    let n := (ack + 4097 - f) % 4096
    if n = 0 ∨ d.replayBuf.length < n then d
    else { d with replayBuf := d.replayBuf.drop n, replays := 0, oldestAt := now, st := if d.st = 2 then 1 else d.st }

/-- The returned totals of one class (R286). -/
def Dir.takeCredit (d : Dir) (vt hdr data : Nat) : Dir :=
  if d.adv.getD vt 0 = 0 then d else { d with c := (d.c.set vt hdr).set (4 + vt) data }

/-- The sender holds credit for a slot of a class and its DATA flit (R286). -/
def Dir.credit (d : Dir) (vt : Nat) (data : Bool) : Bool :=
  let ok := fun (i : Nat) => (d.u.getD i 0 + 4096 - d.c.getD i 0) % 4096 < d.adv.getD i 0
  ok vt && (!data || ok (4 + vt))

/-- The receiver frees a slot's buffers (R286). -/
def Dir.free (d : Dir) (vt : Nat) (data : Bool) : Dir :=
  let f := d.freed.set vt ((d.freed.getD vt 0 + 1) % 4096)
  { d with freed := if data then f.set (4 + vt) ((f.getD (4 + vt) 0 + 1) % 4096) else f }

/-- The next class after one in the rotation of the classes advertised non-zero (R286). -/
def Dir.nextVt (o : Dir) (v : Nat) : Nat :=
  (((List.range 4).map (fun i => (v + 1 + i) % 4)).find? (fun i => o.adv.getD i 0 != 0)).getD 0

/-- A sequenced flit as it leaves now: the header carries the current ACK of the other direction and one class's credit return, and
the link CRC covers it (R281, R286, R289). -/
def Dir.stamp (o : Dir) (vt : Nat) (q ty dcnt : Nat) (p : List Nat) : Nat × BitVec 640 :=
  (q, mkFlit q ((o.exp + 4095) % 4096) o.ackV ty vt (o.freed.getD vt 0) (o.freed.getD (4 + vt) 0) dcnt p)

/-- Sequenced flits stamped in turn; the classes rotate. -/
def Dir.stamps (o : Dir) : Nat → List (Nat × Nat × Nat × List Nat) → List (Nat × BitVec 640) × Nat
  | v, [] => ([], v)
  | v, (q, ty, dc, p) :: t =>
    let r := Dir.stamps o (o.nextVt v) t
    (o.stamp v q ty dc p :: r.1, r.2)

/-- Sequenced flits of a direction sent. -/
def State.sendFlits (s : State) (l : Nat) (toDie : Bool) (fs : List (Nat × BitVec 640)) : State :=
  fs.foldl (fun (s : State) (x : Nat × BitVec 640) => s.emit (.sendFlit l toDie (flitType x.2) x.1)) s

/-- A flit without sequence number sent on a direction; it too takes its turn in the rotation (R286). -/
def State.sendCtl (s : State) (l : Nat) (toDie : Bool) (ty a : Nat) : State :=
  let k := s.link l
  let d := k.dir toDie
  (s.putDir l toDie { d with rot := (k.dir !toDie).nextVt d.rot }).emit (.sendFlit l toDie ty a)

/-- Every unacknowledged flit is sent again, in order, with its SEQ and payload and a header of now (R289). -/
def State.retransmit (s : State) (l : Nat) (toDie : Bool) : State :=
  let k := s.link l
  let d := k.dir toDie
  let (fs, v) := (k.dir !toDie).stamps d.rot
    (d.replayBuf.map (fun x => (x.1, flitType x.2, flitDcnt x.2, flitBytes x.2 8 64)))
  (s.putDir l toDie { d with oldestAt := s.time, replayBuf := fs, rot := v }).sendFlits l toDie fs

/-- One message sent on a class of a direction (R283, R286, R287): a HDR flit and its DATA flit enter the replay buffer; false
where the link does not send, holds no credit or its window is full. -/
def State.sendSlot (s : State) (l : Nat) (toDie : Bool) (slot : List Nat) (data : Option (List Nat)) : State × Bool :=
  let k := s.link l
  let d := k.dir toDie
  let o := k.dir !toDie
  let vt := slotVt slot
  let n := 1 + b2n data.isSome
  if (d.st != 1 && d.st != 2) || !d.credit vt data.isSome || 1024 < d.replayBuf.length + n then (s, false)
  else
    let (fs, rot) := o.stamps d.rot ((d.seq, 1, b2n data.isSome, slot) ::
      (match data with | some b => [((d.seq + 1) % 4096, 2, 0, b)] | none => []))
    let u := d.u.set vt ((d.u.getD vt 0 + 1) % 4096)
    let u := if data.isSome then u.set (4 + vt) ((u.getD (4 + vt) 0 + 1) % 4096) else u
    let s := s.putDir l toDie { d with seq := (d.seq + n) % 4096, u := u, replayBuf := d.replayBuf ++ fs, rot := rot,
                                       oldestAt := if d.replayBuf.isEmpty then s.time else d.oldestAt }
    (s.sendFlits l toDie fs, true)

/-! ### Retrains (R289, R290, R292) -/

/-- A retrain starts: PAUSE_REQ is sent, and both directions stop. -/
def State.startRetrain (s : State) (l : Nat) (toDie retry : Bool) : State :=
  let k := s.link l
  let pg := pgVdt l
  let s := s.putLink l { k with tx := { k.tx with st := 3 }, rx := { k.rx with st := 3 }, attempts := 0, paused := false,
                                retry := retry, trained := false,
                                speedNow := if retry then min 2 (s.fld pg Reg.VDT_CTL_MAX_SPEED) else s.fld pg Reg.VDT_STAT_SPEED }
  s.sendCtl l toDie 5 1

/-- A replay trigger of a direction (R289, R290). -/
def State.trigger (s : State) (l : Nat) (toDie : Bool) : State :=
  let d := (s.link l).dir toDie
  if d.st != 1 && d.st != 2 then s
  else if d.st = 2 ∧ 3 ≤ d.replays then s.startRetrain l toDie false
  else
    let s := s.bump (pgVdt l) Reg.VDT_REPLAY_CNT_COUNT Reg.VDT_REPLAY_CNT_SAT 1
    (s.putDir l toDie { d with st := 2, replays := if d.st = 1 then 1 else d.replays + 1 }).retransmit l toDie

/-- A REPLAY_REQ for a direction's sender: its ACK is taken, and a replay is triggered. -/
def State.replayReq (s : State) (l : Nat) (toDie : Bool) (ack : Nat) : State :=
  (s.putDir l toDie (((s.link l).dir toDie).takeAck ack s.time)).trigger l toDie

/-- A direction's receiver asks for a replay and discards until flit E arrives (R288). -/
def State.askReplay (s : State) (l : Nat) (toDie : Bool) : State :=
  let d := (s.link l).dir toDie
  if d.discard then s
  else (s.putDir l toDie { d with discard := true, discAt := s.time }).sendCtl l (!toDie) 4 ((d.exp + 4095) % 4096)

/-- A PAUSE_REQ arrives: answered, and both directions stop (R292). -/
def State.pauseIn (s : State) (l : Nat) (toDie : Bool) : State :=
  let k := s.link l
  let live := fun (x : Nat) => x == 1 || x == 2
  if live k.tx.st || live k.rx.st then
    (s.putLink l { k with tx := { k.tx with st := 3 }, rx := { k.rx with st := 3 }, attempts := 0, paused := true, retry := false,
                          trained := false, speedNow := s.fld (pgVdt l) Reg.VDT_STAT_SPEED }).sendCtl l (!toDie) 5 2
  else if k.tx.st = 3 then (s.putLink l { k with paused := true }).sendCtl l (!toDie) 5 2
  else s

/-- A PAUSE_ACK arrives. -/
def State.pauseAcked (s : State) (l : Nat) : State :=
  if (s.link l).tx.st = 3 then s.putLink l { (s.link l) with paused := true } else s

/-- The control viaduct of a data viaduct's channel die is down: VT3 rides the data viaduct from its next training on
(R295). -/
def State.fallback (s : State) (l : Nat) : State :=
  if isDv l && (s.link (16 + l / 4)).tx.st == 5 && !s.flag (pgVdt l) Reg.VDT_STAT_FALLBACK then
    let k := s.link l
    let f := fun (d : Dir) => { d with adv := (d.adv.set 3 32).set 7 8 }
    (((s.setLink l { k with tx := f k.tx, rx := f k.rx }).put (pgVdt l) Reg.VDT_STAT_FALLBACK 1).put (pgVdt l)
      (Reg.VDT_CRED_ADV_HDR 3) 32).put (pgVdt l) (Reg.VDT_CRED_ADV_DATA 3) 8
  else s

/-- The next data viaduct of a channel die whose control viaduct is DOWN retrains, one after the other (R295). -/
def State.fallbackNext (s : State) (die : Nat) : State :=
  let dvs := (List.range 4).map (fun i => 4 * die + i)
  let live := fun (x : Nat) => x == 1 || x == 2
  if (s.link (16 + die)).tx.st != 5 || dvs.any (fun l => (s.link l).tx.st == 3) then s
  else
    match dvs.find? (fun l => live (s.link l).tx.st && live (s.link l).rx.st && !s.flag (pgVdt l) Reg.VDT_STAT_FALLBACK) with
    | some l => s.startRetrain l true false
    | none => s

/-- TRAIN_DONE exchanged: both directions send again, from ACK + 1 (R290, R292). -/
def State.trainOver (s : State) (l : Nat) : State :=
  let k := s.link l
  if !k.trained then s
  else
    let f := fun (d : Dir) => { d with st := 1, replays := 0 }
    let s := (s.putLink l { k with tx := f k.tx, rx := f k.rx, trained := false, retry := false, paused := false,
                                   attempts := 0 }).fallback l
    let s := ((s.sendCtl l true 5 3).retransmit l true).retransmit l false
    if isDv l then s.fallbackNext (l / 4) else s

/-! ### Receipt (R288, R291) -/

/-- A destination that a receiving end reaches: a die end its own Piers or itself, the hub every legal one (R283). -/
def destOk (l : Nat) (toDie : Bool) (d : Nat) : Bool :=
  if !toDie then d ≤ 0x14
  else if isDv l then d == l
  else d == 0x11 + (l - 16) || d / 4 == l - 16

/-- Slots and flits dropped: counted and raised (R291). -/
def State.vdtDrop (s : State) (l n : Nat) : State :=
  (s.bump (pgVdt l) Reg.VDT_DROP_CNT_COUNT Reg.VDT_DROP_CNT_SAT n).raise (vdtSource l + 1) 0x703 ERROR none 0 0

/-- A slot with its DATA flit delivered or dropped; its credits return either way. -/
def State.takeSlot (s : State) (l : Nat) (toDie : Bool) (slot : List Nat) (data : Option (List Nat)) : State :=
  let d := (s.link l).dir toDie
  let vt := slotVt slot
  let chk := crc16 (slot.take 14 ++ data.getD []) == ofLe (slot.drop 14)
  let s := s.putDir l toDie (d.free vt data.isSome)
  if chk && d.adv.getD vt 0 != 0 && destOk l toDie (slotDest slot) then s else s.vdtDrop l (1 + b2n data.isSome)

/-- The slots of a HDR flit in order: those with DATA = 1 wait for their DATA flits. -/
def State.takeHdr (s : State) (l : Nat) (toDie : Bool) (f : BitVec 640) : State :=
  (List.range 4).foldl (fun (s : State) (i : Nat) =>
    let b := flitSlot f i
    let d := (s.link l).dir toDie
    if slotEmpty b then s
    else if slotData b then s.putDir l toDie { d with want := d.want ++ [b] }
    else s.takeSlot l toDie b none) (s.putDir l toDie { ((s.link l).dir toDie) with dropData := 0 })

/-- A DATA flit: for the first waiting slot, one of those that follow a dropped flit, or without a slot. -/
def State.takeData (s : State) (l : Nat) (toDie : Bool) (f : BitVec 640) : State :=
  let d := (s.link l).dir toDie
  if 0 < d.dropData then (s.putDir l toDie { d with dropData := d.dropData - 1 }).vdtDrop l 1
  else
    match d.want with
    | w :: t => (s.putDir l toDie { d with want := t }).takeSlot l toDie w (some (flitBytes f 8 64))
    | [] => s.vdtDrop l 1

/-- A flit of an illegal TYPE: dropped with the DATA flits that follow it, its slots' credits returned. -/
def State.takeBad (s : State) (l : Nat) (toDie : Bool) (f : BitVec 640) : State :=
  let d := (List.range 4).foldl (fun (d : Dir) (i : Nat) =>
    let b := flitSlot f i
    if slotEmpty b then d else d.free (slotVt b) (slotData b)) ((s.link l).dir toDie)
  (s.putDir l toDie { d with dropData := flitDcnt f }).vdtDrop l 1

/-- A flit with a sequence number against E (R288). -/
def State.sequenced (s : State) (l : Nat) (toDie : Bool) (f : BitVec 640) : State :=
  let d := (s.link l).dir toDie
  let q := flitSeq f
  if q = d.exp then
    let s := s.putDir l toDie { d with exp := (d.exp + 1) % 4096, ackV := true, discard := false }
    match flitType f with
    | 1 => s.takeHdr l toDie f
    | 2 => s.takeData l toDie f
    | _ => s.takeBad l toDie f
  else if (d.exp + 8191 - q) % 4096 < 2048 then s
  else s.askReplay l toDie

/-- The ACK and the credits that a flit carries for the other direction. -/
def State.takeHeader (s : State) (l : Nat) (toDie : Bool) (f : BitVec 640) : State :=
  let d := (s.link l).dir !toDie
  let d := if flitAckV f then d.takeAck (flitAck f) s.time else d
  s.putDir l (!toDie) (d.takeCredit (flitVt f) (flitCrHdr f) (flitCrData f))

/-- INIT advertisements: the receiver of the other direction states what it takes (R282, R285). -/
def State.takeInit (s : State) (l : Nat) (toDie : Bool) (f : BitVec 640) : State :=
  let k := s.link l
  let d := k.dir !toDie
  if d.st != 0 then s
  else
    let a := fun (v o : Nat) => min 1024 (ofLe (flitBytes f (8 + 4 * v + o) 2))
    s.putDir l (!toDie) { d with adv := [a 0 0, a 1 0, a 2 0, a 3 0, a 0 2, a 1 2, a 2 2, a 3 2] }

/-- A LINK_CTL flit (R282). -/
def State.takeCtl (s : State) (l : Nat) (toDie : Bool) (f : BitVec 640) : State :=
  match bits f.toNat 64 8 with
  | 1 => s.pauseIn l toDie
  | 2 => s.pauseAcked l
  | 3 => s.trainOver l
  | _ => s

/-- A flit received on a direction (R288): nothing arrives in GRACE or DOWN, only INIT before INIT and LINK_CTL in a
retrain. -/
def State.flitIn (s : State) (l : Nat) (toDie : Bool) (f : BitVec 640) : State :=
  let d := (s.link l).dir toDie
  if 4 ≤ d.st then s
  else if !flitOk f then
    let s := s.bump (pgVdt l) Reg.VDT_CRC_ERR_CNT_COUNT Reg.VDT_CRC_ERR_CNT_SAT 1
    if d.st = 1 ∨ d.st = 2 then s.askReplay l toDie else s
  else if d.st = 0 then (if flitType f = 3 then s.takeInit l toDie f else s)
  else if d.st = 3 then (if flitType f = 5 then (s.takeHeader l toDie f).takeCtl l toDie f else s)
  else
    let s := s.takeHeader l toDie f
    match flitType f with
    | 0 | 3 => s
    | 4 => s.replayReq l (!toDie) (flitAck f)
    | 5 => s.takeCtl l toDie f
    | _ => s.sequenced l toDie f

/-- FLIT_RECEIVE (R288). -/
def execFlitReceive (l : Fin 20) (toDie : Bool) (flit : BitVec 640) (s : State) : Host.Outcome State Fault Refusal :=
  .next (s.flitIn l.val toDie flit)

/-- REPLAY_REQ (R289): for the sender of the direction named. -/
def execReplayReq (l : Fin 20) (toDie : Bool) (ack : BitVec 12) (s : State) : Host.Outcome State Fault Refusal :=
  .next (s.replayReq l.val toDie ack.toNat)

/-- REPLAY_TIMEOUT (R289): due when the oldest unacknowledged flit has waited 1 µs. -/
def execReplayTimeout (l : Fin 20) (toDie : Bool) (s : State) : Host.Outcome State Fault Refusal :=
  let d := (s.link l.val).dir toDie
  .next (if !d.replayBuf.isEmpty && d.oldestAt + 1000 ≤ s.time then s.trigger l.val toDie else s)

/-- DISCARD_REPEAT (R288). -/
def execDiscardRepeat (l : Fin 20) (toDie : Bool) (s : State) : Host.Outcome State Fault Refusal :=
  let d := (s.link l.val).dir toDie
  .next (if d.discard && (d.st == 1 || d.st == 2) && decide (d.discAt + 1000 ≤ s.time) then
    (s.putDir l.val toDie { d with discard := false }).askReplay l.val toDie else s)

/-- INIT exchanged both ways (R285, R290): a direction takes the advertisement that an INIT flit brought, else the one that the ends
of this link make. -/
def State.linkInit (s : State) (l : Nat) : State :=
  let k := s.link l
  let fb := s.flag (pgVdt l) Reg.VDT_STAT_FALLBACK
  let told := fun (t : Bool) => if (k.dir t).adv.any (fun x => x != 0) then (k.dir t).adv else advert l t fb
  let up := fun (t : Bool) => { Dir.blank with st := 1, adv := told t, oldestAt := s.time }
  let s := s.putLink l { k with tx := up true, rx := up false, attempts := 0, paused := false, retry := false, trained := false,
                                graceEnd := none }
  (List.range 4).foldl (fun (s : State) (v : Nat) =>
    (s.put (pgVdt l) (Reg.VDT_CRED_ADV_HDR v) ((told true).getD v 0)).put (pgVdt l) (Reg.VDT_CRED_ADV_DATA v)
      ((told true).getD (4 + v) 0)) s

/-- VIADUCT_INIT (R290): in INIT, with the rails in range. -/
def execViaductInit (l : Fin 20) (s : State) : Host.Outcome State Fault Refusal :=
  let k := s.link l.val
  .next (if s.rails && k.tx.st == 0 && k.rx.st == 0 then s.linkInit l.val else s)

/-- PAUSE_REQ (R292). -/
def execPauseReq (l : Fin 20) (toDie : Bool) (s : State) : Host.Outcome State Fault Refusal := .next (s.pauseIn l.val toDie)

/-- PAUSE_ACK (R292). -/
def execPauseAck (l : Fin 20) (_toDie : Bool) (s : State) : Host.Outcome State Fault Refusal := .next (s.pauseAcked l.val)

/-- TRAIN_DONE (R292). -/
def execTrainDone (l : Fin 20) (s : State) : Host.Outcome State Fault Refusal := .next (s.trainOver l.val)

/-! ### A link that is lost (R295 to R298) -/

/-- The copies and the spared ranks that an offline Pier takes part in (R75). -/
def State.spareOffline (s : State) (n : Nat) : State :=
  (List.range 16).foldl (fun (s : State) (k : Nat) =>
    let st := s.fld (pgPier k) Reg.PIER_SPARE_CTL_STATE
    let lends := s.fld (pgPier k) Reg.PIER_SPARE_CTL_SPARE_PIER == n
    if (st == 1 || st == 2) && (k == n || lends) then
      (s.put (pgPier k) Reg.PIER_SPARE_CTL_STATE 4).raise (133 + 16 * k) 0x109 ERROR none 0 0
    else if st == 3 && k != n && lends then s.raise (133 + 16 * k) 0x109 ERROR none 0 0
    else s) s

/-- The packed-store roles of an offline Pier (R157): its write-buffer entries are replayed at their copy Piers, its stripe buffers and
its descriptor cache are lost, and what points into those stripes reads as poison. -/
def State.packedOffline (s : State) (n : Nat) : State :=
  let p := s.pier n
  let s := s.setPier n { p with wbuf := [], open_ := [], dcache := [] }
  (p.wbuf).foldl (fun (s : State) (w : WBuf) =>
    let c := s.copyPier w.desc
    if s.offline c then s else s.setPier c { (s.pier c) with wbuf := (s.pier c).wbuf ++ [w] }) s

/-- A data viaduct's grace period is over: its Pier goes offline (R297). The writes in its queue are lost with it; a mirrored line's
stay in the mirror's queue. -/
def State.pierOffline (s : State) (n : Nat) : State :=
  let s := s.put (pgVdt n) Reg.VDT_STAT_OFFLINE 1
  let s := s.raise (vdtSource n + 1) 0x707 FATAL none 0 0
  let s := s.packedOffline n
  let s := s.setPier n { (s.pier n) with wq := [] }
  (s.spareOffline n).report n

/-- The grace period ends (R295, R297): a data viaduct takes its Pier offline, a control viaduct its die's management traffic
to the data viaducts. -/
def State.linkDead (s : State) (l : Nat) : State :=
  let k := s.link l
  let f := fun (d : Dir) => { d with st := 5 }
  let s := s.putLink l { k with tx := f k.tx, rx := f k.rx, graceEnd := none, trained := false }
  if isDv l then s.pierOffline l else s.fallbackNext (l - 16)

/-- A link goes down (R296, R298). -/
def State.linkLost (s : State) (l : Nat) : State :=
  let k := s.link l
  let pg := pgVdt l
  let f := fun (d : Dir) => { d with st := 4 }
  let us := min 10000 (s.fld pg Reg.VDT_GRACE_GRACE_US)
  let s := s.putLink l { k with tx := f k.tx, rx := f k.rx, attempts := 0, trained := false, retry := false,
                                speedNow := min 2 (s.fld pg Reg.VDT_CTL_MAX_SPEED), graceEnd := some (s.time + 1000 * us),
                                downAt := s.time, lastRetry := s.time }
  let s := s.raise (vdtSource l + 1) 0x705 ERROR none 0 0
  let s := if us = 0 then s.linkDead l else s
  if isDv l then s.fallbackNext (l / 4) else s

/-- The width a direction takes with some lanes failing (R279, R292): 0 x64, 1 x32, 2 x16. -/
def widthOf (fail : Nat) : Option Nat :=
  let g := fun (i : Nat) => bits fail (16 * i) 16 == 0
  if g 0 && g 1 && g 2 && g 3 then some 0
  else if (g 0 && g 1) || (g 2 && g 3) then some 1
  else if g 0 || g 1 || g 2 || g 3 then some 2
  else none

/-- Spares in use for failing lanes of a control viaduct, where eight lanes are left (R295). -/
def sparesOf (fail : Nat) : Option Nat :=
  if (pick 10 (fun i => fail.testBit i)).length ≤ 2 then some (pick 8 (fun i => fail.testBit i)).length else none

/-- An attempt found a width: a data viaduct takes it, with an event where it is narrower or slower; a control viaduct maps
its spares (R292, R294, R295). -/
def State.takeWidth (s : State) (l : Nat) (tx rx speed : Nat) : State :=
  let pg := pgVdt l
  if isDv l then
    let worse := decide (s.fld pg Reg.VDT_STAT_WIDTH_TX < tx ∨ s.fld pg Reg.VDT_STAT_WIDTH_RX < rx ∨
      speed < s.fld pg Reg.VDT_STAT_SPEED)
    let s := ((s.put pg Reg.VDT_STAT_WIDTH_TX tx).put pg Reg.VDT_STAT_WIDTH_RX rx).put pg Reg.VDT_STAT_SPEED speed
    if worse then s.raise (vdtSource l) 0x701 WARN none 0 (detail [tx, speed, rx, speed]) else s
  else
    let more := decide (s.fld pg Reg.VDT_STAT_SPARES_TX < tx ∨ s.fld pg Reg.VDT_STAT_SPARES_RX < rx)
    let s := (s.put pg Reg.VDT_STAT_SPARES_TX tx).put pg Reg.VDT_STAT_SPARES_RX rx
    if more then s.raise (vdtSource l) 0x702 WARN none 0 0 else s

/-- The widths, or spares, that an attempt with these failing lanes gives both directions. -/
def attemptResult (l tx rx : Nat) : Option (Nat × Nat) :=
  let w := fun (m : Nat) => if isDv l then widthOf m else sparesOf (m % 2 ^ 10)
  match w tx, w rx with
  | some a, some b => some (a, b)
  | _, _ => none

/-- The lanes that fail in an attempt, recorded and counted (R292, R300). -/
def State.noteAttempt (s : State) (l tx rx : Nat) : State :=
  let pg := pgVdt l
  let m := fun (x : Nat) => if isDv l then x else x % 2 ^ 10
  let s := (s.put pg Reg.VDT_LANE_FAIL_TX_LANES (m tx)).put pg Reg.VDT_LANE_FAIL_RX_LANES (m rx)
  s.bump pg Reg.VDT_RETRAIN_CNT_COUNT Reg.VDT_RETRAIN_CNT_SAT 1

/-- The event of a retrain (R299). -/
def State.noteRetrain (s : State) (l : Nat) : State := s.raise (vdtSource l) 0x700 INFO none 0 0

/-- A retrain attempt ends (R290, R292, R293, R295, R296). -/
def State.attemptDone (s : State) (l tx rx : Nat) : State :=
  let k := s.link l
  let s := s.noteAttempt l tx rx
  let done := fun (s : State) => s.putLink l { (s.link l) with trained := true }
  if k.retry then
    (if attemptResult l tx rx = some (0, 0) then done (s.takeWidth l 0 0 k.speedNow) else done s).noteRetrain l
  else
    match attemptResult l tx rx with
    | some (a, b) => (done (s.takeWidth l a b k.speedNow)).noteRetrain l
    | none =>
      let s := if !isDv l && k.attempts == 0 then s.raise (vdtSource l + 1) 0x704 ERROR none 0 0 else s
      if k.attempts < 2 then s.putLink l { k with attempts := k.attempts + 1, speedNow := k.speedNow - 1 }
      else (s.noteRetrain l).linkLost l

/-- RETRAIN_ATTEMPT_DONE (R292). -/
def execRetrainAttemptDone (l : Fin 20) (tx rx : BitVec 64) (s : State) : Host.Outcome State Fault Refusal :=
  let k := s.link l.val
  .next (if k.tx.st == 3 && !k.trained then s.attemptDone l.val tx.toNat rx.toNat else s)

/-- A write of RETRY (R293): a data viaduct in use starts a widening retrain. -/
def State.vdtRetry (s : State) (l : Nat) : State :=
  let k := s.link l
  let live := fun (x : Nat) => x == 1 || x == 2
  if isDv l && live k.tx.st && live k.rx.st then s.startRetrain l true true else s

/-- VDT_RETRY (R293). -/
def execVdtRetry (l : Fin 20) (s : State) : Host.Outcome State Fault Refusal := .next (s.vdtRetry l.val)

/-- VDT_GRACE_RETRY (R296): every 10 µs in GRACE, at falling speeds from the highest; a training that completes ends the loss. -/
def execVdtGraceRetry (l : Fin 20) (tx rx : BitVec 64) (s : State) : Host.Outcome State Fault Refusal :=
  let k := s.link l.val
  if k.tx.st != 4 || k.trained || decide (s.time < k.lastRetry + 10000) then .next s
  else
    let s := s.noteAttempt l.val tx.toNat rx.toNat
    match attemptResult l.val tx.toNat rx.toNat with
    | some (a, b) =>
      let s := s.takeWidth l.val a b k.speedNow
      let s := s.putLink l.val { k with trained := true, graceEnd := none }
      .next (s.raise (vdtSource l.val + 1) 0x706 INFO none 0 (min 0xFFFFFFFFFFFF ((s.time - k.downAt) / 1000)))
    | none =>
      let top := min 2 (s.fld (pgVdt l.val) Reg.VDT_CTL_MAX_SPEED)
      .next (s.putLink l.val { k with lastRetry := s.time, speedNow := if k.speedNow = 0 then top else k.speedNow - 1 })

/-- VDT_GRACE_END (R297). -/
def execVdtGraceEnd (l : Fin 20) (s : State) : Host.Outcome State Fault Refusal :=
  match (s.link l.val).graceEnd with
  | some t => .next (if t ≤ s.time then s.linkDead l.val else s)
  | none => .next s

/-- The viaduct value of THROTTLE (R294): line-data capacity of the narrower direction against the channel peak, in MB/s. -/
def State.vdtThrottle (s : State) (n : Nat) : Nat :=
  let pg := pgVdt n
  let f := 2 ^ max (s.fld pg Reg.VDT_STAT_WIDTH_TX) (s.fld pg Reg.VDT_STAT_WIDTH_RX)
  let l := [40960, 81920, 102400].getD (s.fld pg Reg.VDT_STAT_SPEED) 102400
  let p := 8 * s.fld (pgPier n) Reg.PIER_SPEED_RATE
  if p * f ≤ l then 0 else ceilDiv (100 * (p * f - l)) (p * f)

/-- NARROW_THROTTLE (R294). -/
def execNarrowThrottle (l : Fin 20) (s : State) : Host.Outcome State Fault Refusal :=
  if !s.engOn || !isDv l.val then .next s
  else
    let v := s.vdtThrottle l.val
    let s := { s with vdtThr := SMap.put s.vdtThr l.val v }
    .next (s.put (pgPier l.val) Reg.PIER_DCTL_THROTTLE (max v s.therm.1))

end Sys2Proof.Machine
end

