-- ==== Sys2Proof/Machine/Seqr.lean ====
section
/-!
DEFINITION. The stride sequencers (R301 to R309): jobs, contexts, the steps and their unit operations, SEQ_FAULT and
SEQ_HALT. Sequencers 0 to 15 are those of P0 to P15, 16 to 23 those of H0 to H7.
-/
namespace Sys2Proof.Machine

/-! ### A sequencer and its registers -/

/-- The page and the base offset of a sequencer's registers (R335). -/
def seqPage (q : Nat) : Nat := if q < 16 then pgPier q else pgPort (q - 16)
def seqBase (q : Nat) : Nat := if q < 16 then 0x900 else 0x380
/-- The event source of a sequencer (R306). -/
def seqSource (q : Nat) : Nat := if q < 16 then 128 + 16 * q else 40 + (q - 16)
/-- Contexts of a sequencer (R305). -/
def seqContexts (q : Nat) : Nat := if q < 16 then 256 else 512

def State.seqLength (s : State) (q : Nat) : Nat := s.fld (seqPage q) (Reg.SEQ_CTL_LENGTH (seqBase q))
def State.seqHalted (s : State) (q : Nat) : Bool := s.flag (seqPage q) (Reg.SEQ_CTL_HALTED (seqBase q))

/-- The sequencer steps: its table is not empty, it is not halted, its block's clock runs, its Pier is not offline. -/
def State.seqLive (s : State) (q : Nat) : Bool :=
  s.seqLength q != 0 && !s.seqHalted q && s.awake && !s.gateShut (if q < 16 then 17 + q else 9 + (q - 16)) &&
    !(q < 16 && s.offline q)

/-- A sequencer replaced, with CONTEXTS and JOBQ (R335). -/
def State.putSqr (s : State) (q : Nat) (v : Sqr) : State :=
  ((s.setSqr q v).put (seqPage q) (Reg.SEQ_STAT_CONTEXTS (seqBase q)) v.ctxs.length).put (seqPage q)
    (Reg.SEQ_STAT_JOBQ (seqBase q)) (min 63 v.jobq.length)

def State.putCtx (s : State) (q ctx : Nat) (c : JobCtx) : State :=
  s.putSqr q { (s.sqr q) with ctxs := SMap.put (s.sqr q).ctxs ctx c }

/-- A fresh context of a job (R302, R308): J1 to J7 from the descriptor, at the routine's entry; a routine at or beyond LENGTH
fails with ROUTINE and runs no step (R301). -/
def State.newCtx (s : State) (q : Nat) (d : BitVec 512) : JobCtx :=
  { pc := jobRoutine d, j := (List.range 8).map (jobReg d), stack := [], steps := 0, status := [], busy := 0, waiting := none,
    job := d, req := none, da := 0, buf := ⟨0, 0⟩, ks := 0, ctr := none, codec := [], stream := [],
    done := if s.seqLength q ≤ jobRoutine d then some 0x81 else none }

/-- Queued jobs start in free contexts, oldest first (R305). -/
def State.startJobs : Nat → State → Nat → State
  | 0, s, _ => s
  | n + 1, s, q =>
    let v := s.sqr q
    match v.jobq, (List.range (seqContexts q)).find? (fun i => (SMap.get? v.ctxs i).isNone) with
    | d :: t, some i =>
      if s.seqHalted q then s
      else State.startJobs n (s.putSqr q { v with jobq := t, ctxs := SMap.put v.ctxs i (s.newCtx q d) }) q
    | _, _ => s

/-- JOB_POST (R305, R308): FULL is answered where 64 jobs wait. -/
def execJobPost (eng : Fin 64) (q : Fin 24) (desc : BitVec 512) (s : State) : Host.Outcome State Fault Refusal :=
  let e := s.eng eng.val
  let v := s.sqr q.val
  if !e.running then .next s
  else if 64 ≤ v.jobq.length then .next (s.emit (.jobMsg eng.val true))
  else
    let s := s.setEng eng.val { e with jobs := e.jobs ++ [(jobId desc, s.time)] }
    .next (State.startJobs 1 (s.putSqr q.val { v with jobq := v.jobq ++ [desc] }) q.val)

/-- A message put into an engine's mailbox (R312); false where 32 wait. -/
def State.toMailbox (s : State) (e : Nat) (m : BitVec 512) : State × Bool :=
  let v := s.eng e
  if 32 ≤ v.mailbox.length then (s, false) else (s.setEng e { v with mailbox := v.mailbox ++ [m] }, true)

/-- A doorbell bit set by hardware (R312). -/
def State.ring (s : State) (e bit : Nat) : State := s.setEng e { (s.eng e) with doorbell := setBit (s.eng e).doorbell bit }

/-- The completion message of a job (R309): JOB_ID in bytes 0 and 1, the status in byte 2, J1 in bytes 8 to 15. -/
def completion (c : JobCtx) (st : Nat) : BitVec 512 :=
  BitVec.ofNat 512 (jobId c.job + 2 ^ 16 * (st % 256) + 2 ^ 64 * (c.j.getD 1 0 % 2 ^ 64))

/-- The home's line that a context still holds is released. -/
def State.dropCtxReq (s : State) (c : JobCtx) : State :=
  match c.req with
  | some id => (s.dropReq id).release
  | none => s

/-- A context removed, with the next queued job started in its place. -/
def State.endCtx (s : State) (q ctx : Nat) (c : JobCtx) : State :=
  let v := s.sqr q
  State.startJobs 1 ((s.putSqr q { v with ctxs := SMap.del v.ctxs ctx }).dropCtxReq c) q

/-- The post an engine waits for, taken off its list. -/
def State.dropJob (s : State) (e id : Nat) : State :=
  let v := s.eng e
  match v.jobs.find? (fun x => x.1 == id) with
  | some x => s.setEng e { v with jobs := v.jobs.erase x }
  | none => s

/-- JOB_COMPLETION (R309): an ended job's message goes to its engine; discarded for a halted engine and for a job the engine has
given up; sent again later to a full mailbox. -/
def execJobCompletion (q : Fin 24) (ctx : Fin 512) (s : State) : Host.Outcome State Fault Refusal :=
  match SMap.get? (s.sqr q.val).ctxs ctx.val with
  | none => .next s
  | some c =>
    match c.done with
    | none => .next s
    | some st =>
      let e := jobEngine c.job
      if !(s.eng e).running || !(s.eng e).jobs.any (fun x => x.1 == jobId c.job) then .next (s.endCtx q.val ctx.val c)
      else
        match s.toMailbox e (completion c st) with
        | (_, false) => .next s
        | (s, true) => .next (((s.ring e 24).dropJob e (jobId c.job)).endCtx q.val ctx.val c)

/-- JOB_TIMEOUT (R309): due 2 ms after the post. -/
def execJobTimeout (eng : Fin 64) (job : BitVec 16) (s : State) : Host.Outcome State Fault Refusal :=
  match (s.eng eng.val).jobs.find? (fun x => x.1 == job.toNat) with
  | some x => .next (if x.2 + 2000000 ≤ s.time then s.dropJob eng.val job.toNat else s)
  | none => .next s

/-! ### Faults and halts (R306, R307) -/

/-- A context ends with SEQ_FAULT. -/
def State.faultCtx (s : State) (q ctx : Nat) : State :=
  match SMap.get? (s.sqr q).ctxs ctx with
  | some c => (s.putCtx q ctx { c with done := some 0x80, waiting := none, req := none }).dropCtxReq c
  | none => s

/-- A job meets a fault: FAULT_STEP and SEQ_FAULT (R306). -/
def State.seqFault (s : State) (q ctx pc : Nat) : State :=
  let s := s.put (seqPage q) (Reg.SEQ_STAT_FAULT_STEP (seqBase q)) pc
  (s.raise (seqSource q) 0x800 ERROR none 0 0).faultCtx q ctx

/-- Host requests under way at a halted sequencer are answered at once: reads with poison, writes discarded (R306). -/
def State.endRequests (s : State) (f : Req → Bool) : State :=
  ((s.reqs.filter (fun x => x.2.org == .host && x.2.phase != .answered && f x.2)).foldl
    (fun (s : State) (x : Nat × Req) => s.refuseReq x.1 x.2) s).release

/-- A step fails its parity check (R307): the sequencer halts with every context ended; a Pier goes offline without a grace
period, a port's link goes down with its grace period ended. -/
def State.seqHalt (s : State) (q pc : Nat) : State :=
  let s := (s.put (seqPage q) (Reg.SEQ_CTL_HALTED (seqBase q)) 1).put (seqPage q) (Reg.SEQ_STAT_FAULT_STEP (seqBase q)) pc
  let s := s.raise (seqSource q) 0x801 FATAL none 0 0
  let s := ((s.sqr q).ctxs).foldl (fun (s : State) (x : Nat × JobCtx) =>
    if x.2.done.isSome then s else s.faultCtx q x.1) s
  if q < 16 then
    (s.endRequests (fun r => r.phase.tracked &&
      (if r.tier = 2 then s.descPier r.da == q else s.primPier r.da == q))).linkDead q
  else
    let k := q - 16
    let s := s.endRequests (fun r => r.port == k)
    let s := if s.linkUp k then s.dlDown k 3 else s
    if s.flag (pgPort k) Reg.PORT_LINK_STAT_IN_GRACE then s.graceOver k 3 else s

/-! ### Steps (R302 to R304) -/

/-- Operations of a unit, 0 for a unit the sequencer does not have (R304). -/
def unitOps (q u : Nat) : Nat :=
  if q < 16 then [0, 3, 4, 4, 3, 2, 4, 4].getD u 0 else (if u = 6 then 4 else if u = 8 then 3 else if u = 9 then 2 else 0)
/-- A unit exists in a sequencer (R304). -/
def unitOk (q u : Nat) : Bool := u == 0 || unitOps q u != 0

/-- A step names a legal operation and a legal unit (R303, R304, R306). -/
def stepLegal (q w : Nat) : Bool :=
  match stepOp w with
  | 1 => 1 ≤ stepImm w % 65536 && stepImm w % 65536 ≤ unitOps q (stepUnit w)
  | 2 | 3 => unitOk q (stepUnit w)
  | o => o ≤ 0xA

/-- What a context meets at its next step. -/
inductive Fetch where
  | idle
  | halt (pc : Nat)
  | fault (pc : Nat)
  | step (c : JobCtx) (w : Nat)
  deriving DecidableEq, Repr

def State.fetchStep (s : State) (q ctx : Nat) : Fetch :=
  match SMap.get? (s.sqr q).ctxs ctx with
  | none => .idle
  | some c =>
    if !s.seqLive q || c.done.isSome || c.waiting.isSome then .idle
    else if s.seqLength q ≤ c.pc then .fault c.pc
    else
      let w := ((s.sqr q).table.getD c.pc 0).toNat
      if !parityOk w then .halt c.pc
      else if 65536 ≤ c.steps || !stepLegal q w then .fault c.pc
      else .step c w

/-- What a step does: done, a fault of its own, or not yet possible. -/
inductive StepRes where
  | ok (s : State) (c : JobCtx)
  | fault
  | wait
  /-- not possible yet, with what it has set going meanwhile -/
  | later (s : State) (c : JobCtx)

/-- One step of a context, where it is the step wanted: other steps change nothing here, a fault and a parity failure are taken
whichever step was asked for. -/
def State.runStep (s : State) (q ctx : Nat) (want : Nat → Bool) (f : State → JobCtx → Nat → StepRes) : State :=
  match s.fetchStep q ctx with
  | .idle => s
  | .halt pc => s.seqHalt q pc
  | .fault pc => s.seqFault q ctx pc
  | .step c w =>
    if want w then
      match f s c w with
      | .ok s c' => s.putCtx q ctx { c' with steps := c.steps + 1 }
      | .fault => s.seqFault q ctx c.pc
      | .wait => s
      | .later s c' => s.putCtx q ctx c'
    else s

def JobCtx.reg (c : JobCtx) (i : Nat) : Nat := if i = 0 then 0 else c.j.getD i 0
/-- A write of a job register; J0 ignores it (R302). -/
def JobCtx.setReg (c : JobCtx) (i v : Nat) : JobCtx := if i = 0 then c else { c with j := c.j.set i (v % 2 ^ 64) }
def JobCtx.next (c : JobCtx) : JobCtx := { c with pc := c.pc + 1 }
/-- A unit's status bits for the context. -/
def JobCtx.stat (c : JobCtx) (u : Nat) : Nat := SMap.getD c.status u 0
/-- ZERO of the SEQ unit after ADD or LOOP (R304). -/
def JobCtx.zero (c : JobCtx) (v : Nat) : JobCtx := { c with status := SMap.put c.status 0 (if v % 2 ^ 64 = 0 then 4 else 0) }

/-- NOP (R303). -/
def execNop (q : Fin 24) (ctx : Fin 512) (s : State) : Host.Outcome State Fault Refusal :=
  .next (s.runStep q.val ctx.val (fun w => stepOp w == 0) (fun s c _ => .ok s c.next))

/-- WAIT (R303): stalls until the unit reports DONE for the context. -/
def execWait (q : Fin 24) (ctx : Fin 512) (s : State) : Host.Outcome State Fault Refusal :=
  .next (s.runStep q.val ctx.val (fun w => stepOp w == 2) (fun s c w =>
    .ok s (if (c.stat (stepUnit w)).testBit 0 then c.next else { c.next with waiting := some (stepUnit w) })))

/-- A step continues at TARGET: a fault at or beyond LENGTH (R306). -/
def State.goTo (s : State) (q : Nat) (c : JobCtx) (t : Nat) : StepRes :=
  if s.seqLength q ≤ t then .fault else .ok s { c with pc := t }

/-- BR (R303). -/
def execBr (q : Fin 24) (ctx : Fin 512) (s : State) : Host.Outcome State Fault Refusal :=
  .next (s.runStep q.val ctx.val (fun w => stepOp w == 3) (fun s c w =>
    if (c.stat (stepUnit w)).testBit (stepTest w) == stepSense w then s.goTo q.val c (stepTarget w) else .ok s c.next))

/-- JMP (R303). -/
def execJmp (q : Fin 24) (ctx : Fin 512) (s : State) : Host.Outcome State Fault Refusal :=
  .next (s.runStep q.val ctx.val (fun w => stepOp w == 4) (fun s c w => s.goTo q.val c (stepTarget w)))

/-- SET (R303). -/
def execSet (q : Fin 24) (ctx : Fin 512) (s : State) : Host.Outcome State Fault Refusal :=
  .next (s.runStep q.val ctx.val (fun w => stepOp w == 5) (fun s c w => .ok s (c.setReg (stepB w) (stepImm w)).next))

/-- IMM sign-extended from bit 30, modulo 2^64 (R303). -/
def immSigned (w : Nat) : Nat := if (stepImm w).testBit 30 then 2 ^ 64 - 2 ^ 31 + stepImm w else stepImm w

/-- ADD (R303). -/
def execAdd (q : Fin 24) (ctx : Fin 512) (s : State) : Host.Outcome State Fault Refusal :=
  .next (s.runStep q.val ctx.val (fun w => stepOp w == 6) (fun s c w =>
    let v := c.reg (stepA w) + immSigned w
    .ok s ((c.setReg (stepB w) v).zero v).next))

/-- LOOP (R303). -/
def execLoop (q : Fin 24) (ctx : Fin 512) (s : State) : Host.Outcome State Fault Refusal :=
  .next (s.runStep q.val ctx.val (fun w => stepOp w == 7) (fun s c w =>
    let v := c.reg (stepB w) + 2 ^ 64 - 1
    let c := (c.setReg (stepB w) v).zero v
    if c.reg (stepB w) != 0 then s.goTo q.val c (stepTarget w) else .ok s c.next))

/-- CALL (R303, R306): a fault at depth 4. -/
def execCall (q : Fin 24) (ctx : Fin 512) (s : State) : Host.Outcome State Fault Refusal :=
  .next (s.runStep q.val ctx.val (fun w => stepOp w == 8) (fun s c w =>
    if 4 ≤ c.stack.length then .fault else s.goTo q.val { c with stack := (c.pc + 1) :: c.stack } (stepTarget w)))

/-- RET (R303, R306): a fault with an empty stack. -/
def execRet (q : Fin 24) (ctx : Fin 512) (s : State) : Host.Outcome State Fault Refusal :=
  .next (s.runStep q.val ctx.val (fun w => stepOp w == 9) (fun s c _ =>
    match c.stack with
    | p :: t => .ok s { c with pc := p, stack := t }
    | [] => .fault))

/-- END (R303): the job ends with status IMM[7:0] and result J1. -/
def execEndStep (q : Fin 24) (ctx : Fin 512) (s : State) : Host.Outcome State Fault Refusal :=
  .next (s.runStep q.val ctx.val (fun w => stepOp w == 0xA) (fun s c w => .ok s { c with done := some (stepImm w % 256) }))

/-- ILLEGAL_OPCODE (R306): an illegal step ends the job; a legal one is not this command's. -/
def execIllegalOpcode (q : Fin 24) (ctx : Fin 512) (s : State) : Host.Outcome State Fault Refusal :=
  .next (s.runStep q.val ctx.val (fun _ => false) (fun _ _ _ => .wait))

/-- UNIT_DONE (R303): a unit at work for a context reports DONE, and a context that waits for it goes on. -/
def execUnitDone (q : Fin 24) (ctx : Fin 512) (unit : Fin 16) (s : State) : Host.Outcome State Fault Refusal :=
  match SMap.get? (s.sqr q.val).ctxs ctx.val with
  | some c =>
    if !s.seqLive q.val || !c.busy.testBit unit.val then .next s
    else .next (s.putCtx q.val ctx.val { c with
      busy := clrBit c.busy unit.val, status := SMap.put c.status unit.val (setBit (c.stat unit.val) 0),
      waiting := if c.waiting = some unit.val then none else c.waiting })
  | none => .next s

/-! ### Unit operations (R304) -/

/-- The wanted step is an ISSUE of an operation on a unit. -/
def isIssue (u op : Nat) (w : Nat) : Bool := stepOp w == 1 && stepUnit w == u && stepImm w % 65536 == op

/-- A unit has taken an operation: its status bits but DONE, and the next step. -/
def JobCtx.took (c : JobCtx) (u st : Nat) : JobCtx :=
  { c.next with status := SMap.put c.status u st, busy := setBit c.busy u }

/-- The line address of an operation: DA[47:6] in a job register. -/
def JobCtx.lineDa (c : JobCtx) (i : Nat) : Nat := 64 * (c.reg i % 2 ^ 42)

/-- The copy of a DA that a Pier holds. -/
def State.copyAt (s : State) (q da : Nat) : Option Nat :=
  match s.decode da with
  | some l => if l.prim = q then some 0 else if l.copy = some q then some 1 else none
  | none => none

/-- DA_UNMAPPED for an engine job (R58). -/
def State.jobUnmapped (s : State) (c : JobCtx) (da : Nat) : State :=
  s.raise 5 0x10B ERROR none da (detail [1, jobEngine c.job])

/-- A line that reads as poison. -/
def poisonOf (seed da : Nat) : Line := mkLine seed da 0 (sideHi 0 0 0 0 0 true false 0)

/-- The request of a job that holds a line at the home (R19). -/
def jobReq (q ctx : Nat) (c : JobCtx) (da now : Nat) : Req :=
  { op := .wr, org := .job q ctx, port := 0, ld := 0, mv := .i, hpa := 0, dpa := 0, vi := jobTag c.job, via := 0, data := 0,
    mask := BitVec.allOnes 64, leaf := 0, lvl := 0, da := da, tier := 0, phase := .pierWrite, at0 := now, heldAt := now,
    poison := false, accP := false, accM := false, last := none, dir := none, orphan := false }

/-- A job of a Pier's sequencer takes the line of a DRAM operation at the home (R19): it waits while another request holds the line,
and recalls its host copies, all of them before a write (R205). It holds the line until it takes another or ends. -/
def State.jobHold (s : State) (q ctx : Nat) (c : JobCtx) (da : Nat) (wr : Bool) : State × JobCtx × Bool :=
  let line := s.primDa da / 64
  let mine := match c.req.bind s.req? with
    | some r => r.line == line
    | none => false
  if mine && !wr then (s, c, true)
  else
    let (s, c) := if mine then (s, c) else (s.dropCtxReq c, { c with req := none })
    match (match s.viOfDa da with | some t => s.recall t line wr none c.req | none => (s, s.lineFree line c.req)) with
    | (s, false) => (s, c, false)
    | (s, true) =>
      if mine then (s, c, true)
      else
        let id := s.nextReq
        (({ s with nextReq := (id + 1) % 2 ^ 32 } : State).setReq id (jobReq q ctx c (64 * line) s.time), { c with req := some id }, true)

/-- A job's burst as the filters of R340 see it: its VI, class label and line. -/
def JobCtx.flt (c : JobCtx) (da : Nat) : Flt := ⟨2, none, some (jobTag c.job), jobClass c.job, some da⟩

/-- A DRAM read of a line, on the plane given (R304, R72): from the write queue where a write waits (R20). -/
def State.unitRead (s : State) (q ctx : Nat) (c : JobCtx) (a : Nat) (other : Bool) (flip : BitVec 640) : StepRes :=
  let da := c.lineDa a
  let seed := s.seedOf da
  if (s.spanOf da).isNone then .ok (s.jobUnmapped c da) ({ c with da := da, buf := poisonOf 0 da }.took 1 2)
  else
    match s.copyAt q da with
    | none => .ok s (c.took 1 2)
    | some k =>
      if s.gone da k then .ok s ({ c with da := da, buf := poisonOf seed da }.took 1 2)
      else if !s.copyRuns da k then .wait
      else
        match s.jobHold q ctx c da false with
        | (s, c, false) => .later s c
        | (s, c, true) =>
          match s.queued da with
          | some w =>
            let l := mkLine seed da w.data (sideHi 0 w.sharers w.dstate w.owner w.tier w.poison (k == 1) 0)
            .ok (s.telPier q 0x14 1 (some (c.flt da))) ({ c with da := da, buf := l }.took 1 4)
          | none =>
            let l := if other then s.rawLine da k (!s.planeOf da k) else s.dramLine da k
            .ok (s.busAt da k .read (jobHint c.job) (some (c.flt da))) ({ c with da := da, buf := l.flip flip }.took 1 0)

/-- DRAM_RD (R304). -/
def execDramRd (q : Fin 24) (ctx : Fin 512) (flip : BitVec 640) (s : State) : Host.Outcome State Fault Refusal :=
  .next (s.runStep q.val ctx.val (isIssue 1 1) (fun s c w => s.unitRead q.val ctx.val c (stepA w) false flip))

/-- DRAM_RD_OTHER (R304): the line on the other side of the sparing boundary. -/
def execDramRdOther (q : Fin 24) (ctx : Fin 512) (flip : BitVec 640) (s : State) : Host.Outcome State Fault Refusal :=
  .next (s.runStep q.val ctx.val (isIssue 1 3) (fun s c w => s.unitRead q.val ctx.val c (stepA w) true flip))

/-- A write that waits in the queue for a line goes to DRAM before a later one that the home has released (R19, R20). -/
def State.drainFirst (s : State) (da : Nat) : State :=
  match s.queued (s.primDa da) with
  | some w => s.drainOne w
  | none => s

/-- A job's write to a line that is gone (R76, R297): discarded; a rank out of service leaves the line poisoned. -/
def State.jobLost (s : State) (da k : Nat) : State :=
  match s.lineMa da k with
  | some m => if s.deadLine m then s.raisePoison da k (s.seedOf da) 0 none else s
  | none => s

/-- DRAM_WR (R304): the line buffer written; unmapped it is discarded (R58). -/
def execDramWr (q : Fin 24) (ctx : Fin 512) (s : State) : Host.Outcome State Fault Refusal :=
  .next (s.runStep q.val ctx.val (isIssue 1 2) (fun s c w =>
    let da := c.lineDa (stepA w)
    if (s.spanOf da).isNone then .ok (s.jobUnmapped c da) ({ c with da := da }.took 1 2)
    else
      match s.copyAt q.val da with
      | none => .ok s (c.took 1 2)
      | some k =>
        if s.gone da k then .ok (s.jobLost da k) ({ c with da := da }.took 1 2)
        else if !s.copyRuns da k then .wait
        else
          match s.jobHold q.val ctx.val c da true with
          | (s, c, false) => .later s c
          | (s, c, true) =>
            let s := s.drainFirst da
            if (s.queued (s.primDa da)).isSome then .later s c
            else .ok (((s.storeLine da k c.buf (jobHint c.job) (some (c.flt da))).descForget da).jobClear da)
              ({ c with da := da }.took 1 0)))

/-- LIU_CHECK (R304): CRC_OK, ILLEGAL_SIDE and POISON of the line buffer, under the line's own seed. -/
def execLiuCheck (q : Fin 24) (ctx : Fin 512) (s : State) : Host.Outcome State Fault Refusal :=
  .next (s.runStep q.val ctx.val (isIssue 2 1) (fun s c _ =>
    .ok s (c.took 2 (4 * b2n (c.buf.crcOk (s.seedOf c.da) c.da)
      + 8 * b2n (c.buf.illegal || !s.keyslotOk c.da c.buf.keyslot) + 16 * b2n c.buf.poison))))

/-- LIU_GEN (R304): the line buffer's CRC-40 computed. -/
def execLiuGen (q : Fin 24) (ctx : Fin 512) (s : State) : Host.Outcome State Fault Refusal :=
  .next (s.runStep q.val ctx.val (isIssue 2 2) (fun s c _ =>
    .ok s ({ c with buf := mkLine (s.seedOf c.da) c.da c.buf.data c.buf.hi }.took 2 0)))

/-- LIU_LOG_CE (R304): a correctable event of the line logged (R44, R45). -/
def execLiuLogCe (q : Fin 24) (ctx : Fin 512) (s : State) : Host.Outcome State Fault Refusal :=
  .next (s.runStep q.val ctx.val (isIssue 2 3) (fun s c _ =>
    .ok (s.logCe c.da ((s.copyAt q.val c.da).getD 0) (s.seedOf c.da) 0 none) (c.took 2 0)))

/-- LIU_COUNT_UE (R304): an uncorrectable event counted against the line's rank (R46). -/
def execLiuCountUe (q : Fin 24) (ctx : Fin 512) (s : State) : Host.Outcome State Fault Refusal :=
  .next (s.runStep q.val ctx.val (isIssue 2 4) (fun s c _ =>
    match s.lineMa c.da ((s.copyAt q.val c.da).getD 0) with
    | some m => .ok (s.countUe m.hpier m.prank) (c.took 2 0)
    | none => .ok s (c.took 2 2)))

/-- CIPHER_KEYSTREAM (R304): the keystream of the line under the counter held (R166); none without a counter. -/
def execCipherKeystream (q : Fin 24) (ctx : Fin 512) (s : State) : Host.Outcome State Fault Refusal :=
  .next (s.runStep q.val ctx.val (isIssue 3 1) (fun s c _ =>
    .ok s ({ c with ks := (match c.ctr with
      | some (k, ma, mi) => BitVec.ofNat 512 (keystream (s.slot k).dataKey.toNat k (c.da / 64) ma mi)
      | none => 0) }.took 3 (c.stat 3 &&& 8))))

/-- CIPHER_XOR (R304): the keystream applied to the line buffer, whose bytes also go to the codec's input. -/
def execCipherXor (q : Fin 24) (ctx : Fin 512) (s : State) : Host.Outcome State Fault Refusal :=
  .next (s.runStep q.val ctx.val (isIssue 3 2) (fun s c _ =>
    let d := c.buf.data ^^^ c.ks
    .ok s ({ c with buf := ⟨d, c.buf.side⟩, stream := c.stream ++ leBytes 64 d.toNat }.took 3 (c.stat 3 &&& 8))))

/-- TAG_CHECK (R304): TAG_OK for the line buffer under the counter held (R171). -/
def execTagCheck (q : Fin 24) (ctx : Fin 512) (s : State) : Host.Outcome State Fault Refusal :=
  .next (s.runStep q.val ctx.val (isIssue 3 3) (fun s c _ =>
    let ok := match c.ctr with
      | some (k, ma, mi) => s.tagOk c.da (.ok k ma mi) c.buf
      | none => true
    .ok s (c.took 3 (4 * b2n ok + (c.stat 3 &&& 8)))))

/-- TAG_GEN (R304): the TAG of the line buffer under the counter held (R170). -/
def execTagGen (q : Fin 24) (ctx : Fin 512) (s : State) : Host.Outcome State Fault Refusal :=
  .next (s.runStep q.val ctx.val (isIssue 3 4) (fun s c _ =>
    let tg := match c.ctr with
      | some (k, ma, mi) =>
        if (s.slot k).mode = 2 then lineTag (s.slot k).tagKey.toNat k (c.da / 64) ma mi c.buf.data.toNat else 0
      | none => 0
    .ok s ({ c with buf := ⟨c.buf.data, BitVec.ofNat 128 (c.buf.crc + 2 ^ 40 * setBits c.buf.hi 0 56 tg)⟩ }.took 3
      (c.stat 3 &&& 8))))

/-- INFLATE (R304): the gathered stream's first bytes, as many as J[A] names, become a sub-block; REJECT otherwise (R136). -/
def execInflate (q : Fin 24) (ctx : Fin 512) (s : State) : Host.Outcome State Fault Refusal :=
  .next (s.runStep q.val ctx.val (isIssue 4 1) (fun s c w =>
    match inflateAll (c.stream.take (c.reg (stepA w))) (c.reg (stepA w)) with
    | some (out, _) => if out.length = 1024 then .ok s ({ c with codec := out, stream := [] }.took 4 0)
                       else .ok s ({ c with stream := [] }.took 4 6)
    | none => .ok s ({ c with stream := [] }.took 4 6)))

/-- DEFLATE (R304): the gathered kilobyte becomes a stream, one that the compressor can emit for it (R135, R137), whose length goes to
J[B]; LONG over 768 bytes. -/
def execDeflate (q : Fin 24) (ctx : Fin 512) (stream : List (BitVec 8)) (s : State) : Host.Outcome State Fault Refusal :=
  .next (s.runStep q.val ctx.val (isIssue 4 2) (fun s c w =>
    if !canEmit (s.codeMode q.val (jobTag c.job)) (padTo 1024 c.stream) (nats stream) then .wait
    else .ok s (({ c with codec := padTo 1024 c.stream, stream := nats stream }.setReg (stepB w) stream.length).took 4
      (16 * b2n (decide (768 < stream.length))))))

/-- VERIFY (R304): the stream decompressed and compared; MISMATCH where it differs (R138). -/
def execVerify (q : Fin 24) (ctx : Fin 512) (s : State) : Host.Outcome State Fault Refusal :=
  .next (s.runStep q.val ctx.val (isIssue 4 3) (fun s c _ =>
    let ok := match inflateAll c.stream c.stream.length with
      | some (out, _) => out == c.codec
      | none => false
    .ok s (c.took 4 (8 * b2n (!ok)))))

/-- ALLOC_PLACE (R304, R147): the stream placed in the Pier's open stripe of the VI's region, for the descriptor and sub-block
that J[A] names as 4 × descriptor + sub-block; the first sector goes to J[B]. -/
def execAllocPlace (q : Fin 24) (ctx : Fin 512) (s : State) : Host.Outcome State Fault Refusal :=
  .next (s.runStep q.val ctx.val (isIssue 5 1) (fun s c w =>
    let n := ceilDiv c.stream.length 256
    let ls := (toLines (4 * n) (padTo (256 * n) c.stream)).map (fun d => (d, false))
    match s.place q.val (s.vi (jobTag c.job)).regionId n (c.reg (stepA w) / 4) (c.reg (stepA w) % 4) ls with
    | (s, some sector) => .ok s ((c.setReg (stepB w) sector).took 5 0)
    | (s, none) => .ok s (c.took 5 6)))

/-- ALLOC_CLOSE (R304, R147): the Pier's open stripe of the VI's region closed. -/
def execAllocClose (q : Fin 24) (ctx : Fin 512) (s : State) : Host.Outcome State Fault Refusal :=
  .next (s.runStep q.val ctx.val (isIssue 5 2) (fun s c _ =>
    match (s.pier q.val).open_.find? (fun o => o.region == (s.vi (jobTag c.job)).regionId && !o.closed) with
    | some o => .ok (s.closeStripe q.val o) (c.took 5 0)
    | none => .ok s (c.took 5 4)))

/-- The message a unit sends: class, destination from J[A], source, a body that no rule lays out, and SCHK (R283). -/
def sentSlot (q vt dest body : Nat) : List Nat :=
  let b := [vt % 4 + 8 * (dest % 32), if q < 16 then q else 0x10] ++ leBytes 12 body
  b ++ leBytes 2 (crc16 b)

/-- VDT_SEND (R304): a message on VT0 to VT3, from a Pier to the hub, or from a port's sequencer to the Pier that J[A] names;
CREDIT_WAIT where the link takes none. -/
def execVdtSend (q : Fin 24) (ctx : Fin 512) (s : State) : Host.Outcome State Fault Refusal :=
  .next (s.runStep q.val ctx.val (fun w => stepOp w == 1 && stepUnit w == 6) (fun s c w =>
    let dest := c.reg (stepA w) % 32
    let l := if q.val < 16 then q.val else dest % 16
    let slot := sentSlot q.val (stepImm w % 65536 - 1) dest (Config.body s.free)
    match s.tick.sendSlot l (!(q.val < 16)) slot none with
    | (s, true) => .ok s (c.took 6 0)
    | (_, false) => .ok s (c.took 6 4)))

/-- The counter of a line for a job: it waits while the counter line is not cached (R168). -/
def State.jobCtr (s : State) (da : Nat) : Ctr := s.readCtr da (s.writeKeyslot da)

/-- CCACHE_GET (R304): the line's counter, MAJOR × 128 + MINOR, also to J[B]. -/
def execCcacheGet (q : Fin 24) (ctx : Fin 512) (s : State) : Host.Outcome State Fault Refusal :=
  .next (s.runStep q.val ctx.val (isIssue 7 1) (fun s c w =>
    let da := c.lineDa (stepA w)
    match s.jobCtr da with
    | .wait => .wait
    | .plain => .ok s ({ c with ctr := none }.took 7 0)
    | .ok k ma mi =>
      .ok (s.telPier (s.ctrPier da) 0x19 1 (some (c.flt da))) (({ c with ctr := some (k, ma, mi) }.setReg (stepB w) (128 * ma + mi)).took 7 0)))

/-- CCACHE_ADVANCE (R304): the line's counter advanced for a write; OVERFLOW where the routine starts (R175); a refused advance
sets REFUSED of the cipher and ends the job (R177, R309). -/
def execCcacheAdvance (q : Fin 24) (ctx : Fin 512) (s : State) : Host.Outcome State Fault Refusal :=
  .next (s.runStep q.val ctx.val (isIssue 7 2) (fun s c w =>
    let da := c.lineDa (stepA w)
    match s.advance da with
    | (_, .wait) => .wait
    | (s, .plain) => .ok s ({ c with ctr := none }.took 7 0)
    | (s, .refused) => .ok s { c.took 7 2 with status := SMap.put (c.took 7 2).status 3 8, done := some 0x82 }
    | (s', .ok k ma mi) =>
      let was := match s.ctrEnt da with | some (_, some e) => e.ovf.isSome | _ => false
      let is := match s'.ctrEnt da with | some (_, some e) => e.ovf.isSome | _ => false
      .ok s' (({ c with ctr := some (k, ma, mi) }.setReg (stepB w) (128 * ma + mi)).took 7 (4 * b2n (is && !was)))))

/-- A counter entry's pin set or released. -/
def State.pinCtr (s : State) (da : Nat) (on : Bool) : Option State :=
  match s.ctrEnt da with
  | some (key, some e) => some { s with cc := SMap.put s.cc key { e with pinned := on } }
  | some (_, none) => none
  | none => some s

/-- CCACHE_PIN (R304): the counters of the line's frame stay in the cache. -/
def execCcachePin (q : Fin 24) (ctx : Fin 512) (s : State) : Host.Outcome State Fault Refusal :=
  .next (s.runStep q.val ctx.val (isIssue 7 3) (fun s c w =>
    match s.pinCtr (c.lineDa (stepA w)) true with
    | some s => .ok s (c.took 7 0)
    | none => .wait))

/-- CCACHE_UNPIN (R304). -/
def execCcacheUnpin (q : Fin 24) (ctx : Fin 512) (s : State) : Host.Outcome State Fault Refusal :=
  .next (s.runStep q.val ctx.val (isIssue 7 4) (fun s c w =>
    match s.pinCtr (c.lineDa (stepA w)) false with
    | some s => .ok s (c.took 7 0)
    | none => .ok s (c.took 7 0)))

/-- XLAT_LOOKUP (R304): the port's TLB looked up for the job's VI and the VIA in J[A]; a hit's leaf goes to J[B]. -/
def execXlatLookup (q : Fin 24) (ctx : Fin 512) (s : State) : Host.Outcome State Fault Refusal :=
  .next (s.runStep q.val ctx.val (isIssue 8 1) (fun s c w =>
    match (s.prt (q.val - 16)).tlbHit (jobTag c.job) (c.reg (stepA w) / 4096) with
    | some e => .ok s ((c.setReg (stepB w) e.leaf).took 8 4)
    | none => .ok s (c.took 8 0)))

/-- XLAT_WALK (R304): the tables walked for the VIA in J[A]; a present leaf fills the TLB and goes to J[B], FAULT otherwise. -/
def execXlatWalk (q : Fin 24) (ctx : Fin 512) (s : State) : Host.Outcome State Fault Refusal :=
  .next (s.runStep q.val ctx.val (isIssue 8 2) (fun s c w =>
    let via := c.reg (stepA w)
    match s.findLeaf (jobTag c.job) via with
    | some (_, l, e) =>
      if !leafV e || (s.leafFault e l via).isSome then .ok s (c.took 8 10)
      else .ok (s.tlbFill (q.val - 16) (jobTag c.job) (via / 4096) l e) ((c.setReg (stepB w) e).took 8 4)
    | none => .ok s (c.took 8 10)))

/-- XLAT_HOLD (R304): HELD while the leaf of the VIA in J[A] keeps writes waiting, with M or W set (R92, R94). -/
def execXlatHold (q : Fin 24) (ctx : Fin 512) (s : State) : Host.Outcome State Fault Refusal :=
  .next (s.runStep q.val ctx.val (isIssue 8 3) (fun s c w =>
    match s.findLeaf (jobTag c.job) (c.reg (stepA w)) with
    | some (_, _, e) => .ok s (c.took 8 (16 * b2n (leafM e || leafW e)))
    | none => .ok s (c.took 8 2)))

/-- HOME_ORDER (R304, R19, R205): the line in J[A] is held for the job once no request has it and its host copies are recalled;
SNOOP_WAIT until then. -/
def execHomeOrder (q : Fin 24) (ctx : Fin 512) (s : State) : Host.Outcome State Fault Refusal :=
  .next (s.runStep q.val ctx.val (isIssue 9 1) (fun s c w =>
    let da := c.lineDa (stepA w)
    if c.req.isSome then .ok s (c.took 9 2)
    else if !s.lineFree (da / 64) then .ok s (c.took 9 4)
    else
      match s.jobRecall da with
      | (s, false) => .ok s (c.took 9 4)
      | (s, true) =>
        let id := s.nextReq
        .ok (({ s with nextReq := (id + 1) % 2 ^ 32 } : State).setReq id (jobReq q.val ctx.val c da s.time))
          ({ c with req := some id }.took 9 0)))

/-- HOME_RELEASE (R304): the line held is released, and the requests behind it go on. -/
def execHomeRelease (q : Fin 24) (ctx : Fin 512) (s : State) : Host.Outcome State Fault Refusal :=
  .next (s.runStep q.val ctx.val (isIssue 9 2) (fun s c _ =>
    match c.req with
    | some id => .ok ((s.dropReq id).release) ({ c with req := none }.took 9 0)
    | none => .ok s (c.took 9 2)))

end Sys2Proof.Machine
end

