-- ==== Sys2Proof/Machine/Engines.lean ====
section
/-!
DEFINITION. The management engines (R310 to R315), the Keystone with its baton and last-lap timer, and coast (R316 to R319).
-/
namespace Sys2Proof.Machine

/-- The hub's engine page. -/
def pgHub : Nat := 7

/-- An engine halts: it runs nothing, and the jobs it waited for are forgotten (R309). -/
def State.haltEng (s : State) (e : Nat) : State :=
  s.setEng e { (s.eng e) with running := false, loading := false, jobs := [] }

/-- Moves that an interruption leaves to their log: they are resolved before anything else (R120, R315). -/
def State.suspectMoves (s : State) (f : MoveLog → Bool) : State :=
  { s with moves := s.moves.map (fun m => if f m then { m with suspect := true } else m) }

/-! ### Mailboxes and interrupts (R312, R313) -/

/-- MAILBOX_SEND (R312): a full mailbox answers FULL at once. -/
def execMailboxSend (eng dst : Fin 64) (msg : BitVec 512) (s : State) : Host.Outcome State Fault Refusal :=
  if !(s.eng eng.val).running then .next s
  else
    match s.toMailbox dst.val msg with
    | (s, true) => .next s
    | (s, false) => .next (s.emit (.jobMsg eng.val true))

/-- Engine i interrupts target j (R313): the pending bit, or SEND_FAILED of i where j is halted or masks i. -/
def State.interruptOne (s : State) (i j : Nat) : State :=
  let t := s.eng j
  if t.running && t.mask.testBit i then s.setEng j { t with pending := setBit t.pending i }
  else s.setEng i { (s.eng i) with failed := setBit (s.eng i).failed j }

/-- INTERRUPT (R313): the target mask names the other engines; an engine has no link to itself. -/
def execInterrupt (eng : Fin 64) (mask : BitVec 64) (s : State) : Host.Outcome State Fault Refusal :=
  if !(s.eng eng.val).running then .next s
  else .next ((pick 64 (fun j => j != eng.val && mask.toNat.testBit j)).foldl
    (fun (s : State) (j : Nat) => s.interruptOne eng.val j) s)

/-- A running engine takes the oldest message of its mailbox and clears its doorbell and its pending interrupts (R312, R313):
the engines' part of an idle nanosecond. -/
def State.engineTick (s : State) : State :=
  if !s.engOn then s
  else { s with engines := s.engines.map (fun x =>
    if x.2.running then (x.1, { x.2 with mailbox := x.2.mailbox.drop 1, doorbell := 0, pending := 0 }) else x) }

/-- Edges of a clock of f MHz in the nanosecond that begins at t. -/
def edges (f t : Nat) : Nat := (t + 1) * f / 1000 - t * f / 1000

/-- A nanosecond of a Pier: its slots pass (R342, R343), and the lines that wait in its queues are summed at each clock of 1.6 GHz
(R339). -/
def State.pierTick (s : State) (n : Nat) : State :=
  let rd := fun (b : Nat) => (s.readsOn n b).length
  let s := s.passSlots n 1 (fun b => 0 < rd b || 0 < s.wqFill n b)
  if s.gateShut (17 + n) then s
  else
    let e := edges 1600 s.time
    (s.telPier n 0x1B (e * (rd 0 + rd 1)) none).telPier n 0x1C (e * (s.pier n).wq.length) none

/-- The counters that every clock adds to, of the hub at 2.0 GHz and of the Piers (R339); none in Sleep (R338). -/
def State.countTick (s : State) : State :=
  if 2 ≤ s.pwr.state then s
  else (List.range 16).foldl (fun (s : State) (n : Nat) => s.pierTick n) (s.telHub 0x04 (edges 2000 s.time * s.trackers) none)

/-- A nanosecond of an idle block: HUB_TIME counts while the package is powered and outside Deep Sleep and Off (R336,
R364), and so do the counters of every clock (R338). -/
def State.idle (s : State) : State :=
  if s.pwr.state ≤ 2 then ({ s.countTick with time := s.time + 1 } : State).engineTick else s

/-! ### Roles (R310, R315) -/

/-- The port that a role owns the tables of (R310). -/
def rolePort (r : Nat) : Option Nat :=
  if r % 16 = 2 ∨ r % 16 = 3 then some (2 * (r / 16) + (r % 16 - 2)) else none

/-- A role passes to an engine; a new port owner rewrites OWNER_ME and invalidates the port (R315). -/
def State.giveRole (s : State) (r e : Nat) : State :=
  let s := { s with roles := if e = r then SMap.del s.roles r else SMap.put s.roles r e }
  match rolePort r with
  | some k => (s.put (pgPort k) Reg.PORT_XLAT_CTL_OWNER_ME e).invPort k
  | none => s

/-- Spares in the order in which a cluster's roles take them: its own first, then those of the clusters after it. -/
def spareOrder (k : Nat) : List Nat :=
  (List.range 4).flatMap (fun i => [16 * ((k + i) % 4) + 14, 16 * ((k + i) % 4) + 15])

/-- A spare is free: it runs and holds no role. -/
def State.spareFree (s : State) (e : Nat) : Bool := (s.eng e).running && !s.roles.any (fun x => x.2 == e)

/-- The roles of an engine that went down pass to free spares, while there are any (R315). -/
def State.passRoles (s : State) (e : Nat) : State :=
  (pick 64 (fun r => 2 ≤ r % 16 && r % 16 < 14 && s.role r == e)).foldl (fun (s : State) (r : Nat) =>
    match (spareOrder (e / 16)).find? (fun x => s.spareFree x) with
    | some x => s.giveRole r x
    | none => s) s

/-- Restarts of an engine within the last hour. -/
def State.recentRestarts (s : State) (e : Nat) : List Nat :=
  (s.eng e).restarts.filter (fun t => decide (s.time < t + 3600000000000))

/-- An engine is halted and reloads its firmware; the third restart within an hour fences it (R315). The answer says whether
it was fenced. -/
def State.reloadEng (s : State) (e : Nat) : State × Bool :=
  let r := s.recentRestarts e ++ [s.time]
  let s := (s.haltEng e).suspectMoves (fun m => m.eng == e)
  let s := s.setEng e { (s.eng e) with mem := [] }
  if 3 ≤ r.length then
    let s := s.setEng e { (s.eng e) with restarts := r, fenced := true, mask := 0, misses := 0 }
    ((s.raise (448 + e / 16) 0x803 ERROR none 0 0).passRoles e, true)
  else ((s.setEng e { (s.eng e) with restarts := r, loading := true, misses := 0, halt := false }).passRoles e, false)

/-- The Keystone restarts an engine that missed three probes. -/
def State.restartEng (s : State) (e : Nat) : State :=
  match s.reloadEng e with
  | (s, true) => s
  | (s, false) => s.raise (448 + e / 16) 0x802 WARN none 0 0

/-! ### The Keystone -/

def State.baton (s : State) : Nat := s.fld pgHub Reg.HUB_LAP_CTL_BATON
def State.fencedMcs (s : State) : Nat := s.fld pgHub Reg.HUB_LAP_CTL_FENCED
/-- The designated pair of a cluster runs (R316). -/
def State.pairRuns (s : State) (k : Nat) : Bool := (s.eng (16 * k)).running && (s.eng (16 * k + 1)).running
/-- The Keystone works. -/
def State.keystoneRuns (s : State) : Bool := s.engOn && s.pairRuns s.baton

/-- KEYSTONE_PROBE (R315): every 10 ms; the operand says which running engines answered this round. -/
def execKeystoneProbe (answered : BitVec 64) (s : State) : Host.Outcome State Fault Refusal :=
  if !s.keystoneRuns || decide (s.time < s.key.probeAt + 10000000) then .next s
  else
    let s := { s with key := { s.key with probeAt := s.time } }
    .next ((pick 64 (fun e => (s.eng e).running)).foldl (fun (s : State) (e : Nat) =>
      let g := s.eng e
      if answered.toNat.testBit e then s.setEng e { g with misses := 0 }
      else if g.misses < 2 then s.setEng e { g with misses := g.misses + 1 }
      else s.restartEng e) s)

/-- ENGINE_RELOAD_DONE (R315): the engine runs and takes its own roles back. -/
def execEngineReloadDone (eng : Fin 64) (s : State) : Host.Outcome State Fault Refusal :=
  let g := s.eng eng.val
  if !g.loading || !s.engOn || s.gateShut (73 + eng.val) then .next s
  else
    let s := s.setEng eng.val { g with running := true, loading := false, misses := 0 }
    .next (if s.role eng.val = eng.val then s else s.giveRole eng.val eng.val)

/-! ### Coast (R318) -/

/-- A hold is resolved at once on entering coast (R96). -/
def State.resolveHold (s : State) (id : Nat) (r : Req) : State :=
  match r.phase with
  | .heldM => s.resolveM id r {}
  | .heldAlloc => (s.raiseHold r 0x207 ERROR).complete id r
  | _ => s

/-- Every hold of every port resolved. -/
def State.resolveHolds (s : State) : State :=
  let s := (s.reqs.filter (fun x => x.2.phase == .heldM || x.2.phase == .heldAlloc)).foldl
    (fun (s : State) (x : Nat × Req) => s.resolveHold x.1 x.2) s
  (List.range 8).foldl (fun (s : State) (k : Nat) => s.settle k) s

/-- The Kenez enters coast: every engine halts, copies are held, and holds are resolved. -/
def State.enterCoast (s : State) : State :=
  let s := s.put pgHub Reg.HUB_LAP_CTL_COAST 1
  let s := { s with key := { s.key with loadAt := none, restartMask := 0, bridgeFails := 0 } }
  let s := (List.range 64).foldl (fun (s : State) (e : Nat) => s.haltEng e) s
  let s := s.suspectMoves (fun _ => true)
  ((s.raise 453 0x805 FATAL none 0 0).holdCopies (fun _ => true)).resolveHolds

/-- A cluster's designated pair halts, its matrix masks are cleared, and the cluster is FENCED (R317). -/
def State.fenceMc (s : State) (k : Nat) : State :=
  let s := [16 * k, 16 * k + 1].foldl (fun (s : State) (e : Nat) =>
    (s.haltEng e).setEng e { ((s.haltEng e).eng e) with mask := 0 }) s
  s.put pgHub Reg.HUB_LAP_CTL_FENCED (setBit s.fencedMcs k)

/-- A cluster takes the baton: doorbell bit 26, and windows of its own. -/
def State.takeBaton (s : State) (k : Nat) : State :=
  let s := (s.put pgHub Reg.HUB_LAP_CTL_BATON k).put pgHub Reg.HUB_LAP_STAT_MISSED 0
  (s.ring (16 * k) 26).ring (16 * k + 1) 26

/-- The baton passes (R317): causes 0 three windows, 1 lockstep mismatch, 2 PASS. With no cluster to take it, coast begins. -/
def State.passBaton (s : State) (cause : Nat) : State :=
  let old := s.baton
  let s := s.fenceMc old
  match ([1, 2, 3].map (fun i => (old + i) % 4)).find? (fun k => !s.fencedMcs.testBit k && s.pairRuns k) with
  | some k =>
    let s := (s.takeBaton k).suspectMoves (fun _ => true)
    let s := { s with key := { s.key with windowAt := s.time, loadAt := none } }
    let s := s.put pgHub Reg.HUB_LAP_STAT_PASSES (min 0xFFFF (s.fld pgHub Reg.HUB_LAP_STAT_PASSES + 1))
    s.raise 452 0x804 ERROR none 0 (detail [old, k, cause])
  | none => s.enterCoast

/-! ### Meanings -/

/-- A beat of an engine: only those of the baton pair count. -/
def State.lapBeat (s : State) (eng : Nat) : State :=
  let k := s.baton
  let pair := eng == 16 * k || eng == 16 * k + 1
  if !s.ready || !s.awake || !pair || !s.pairRuns k then s
  else
    let s := (s.put pgHub Reg.HUB_LAP_STAT_MISSED 0)
    let s := { s with key := { s.key with windowAt := s.time, loadAt := none, restartMask := 0, bridgeFails := 0 } }
    if s.coast then
      ((s.put pgHub Reg.HUB_LAP_CTL_COAST 0).raise 453 0x806 WARN none 0 0).resumeCopies
    else s

/-- HUB_LAP_BEAT (R317, R319): only the baton pair's beats count; the first beat after a restart ends coast. -/
def execHubLapBeat (eng : Fin 64) (s : State) : Host.Outcome State Fault Refusal := .next (s.leaveIdle.lapBeat eng.val)

/-- LAP_WINDOW_END (R317): due 1.0 ms after the last beat, and every 1.0 ms from there; the timer stops in
Idle (R372). -/
def execLapWindowEnd (s : State) : Host.Outcome State Fault Refusal :=
  let m := s.fld pgHub Reg.HUB_LAP_STAT_MISSED
  if !s.engOn || s.pwr.state != 0 || s.key.loadAt.isSome || decide (s.time < s.key.windowAt + 1000000 * (m + 1)) then .next s
  else if m < 2 then .next (s.put pgHub Reg.HUB_LAP_STAT_MISSED (m + 1))
  else .next ((s.put pgHub Reg.HUB_LAP_STAT_MISSED 3).passBaton 0)

/-- LOCKSTEP_MISMATCH (R317). -/
def execLockstepMismatch (s : State) : Host.Outcome State Fault Refusal :=
  .next (if s.engOn then s.passBaton 1 else s)

/-- A write of HUB_LAP_CTL.PASS: no effect in coast (R336). -/
def State.writePass (s : State) : State := if s.engOn then s.passBaton 2 else s

/-- PASS (R317). -/
def execPass (s : State) : Host.Outcome State Fault Refusal := .next s.writePass

/-- BRIDGE_TIMEOUT (R318): the third failed transaction in a row enters coast. -/
def execBridgeTimeout (s : State) : Host.Outcome State Fault Refusal :=
  if !s.engOn then .next s
  else if 2 ≤ s.key.bridgeFails then .next s.enterCoast
  else .next { s with key := { s.key with bridgeFails := s.key.bridgeFails + 1 } }

/-- The clusters a mask names. -/
def mcsOf (mask : Nat) : List Nat := pick 4 (fun k => mask.testBit k)
/-- The engines of the clusters a mask names. -/
def engsOf (mask : Nat) : List Nat := pick 64 (fun e => mask.testBit (e / 16))

/-- A restart fails (R319): the named clusters are FENCED and halted, and coast goes on. -/
def State.restartFail (s : State) (mask : Nat) : State :=
  let s := (engsOf mask).foldl (fun (s : State) (e : Nat) => s.haltEng e) s
  let s := s.put pgHub Reg.HUB_LAP_CTL_FENCED (maskOf 4 (fun k => s.fencedMcs.testBit k || mask.testBit k))
  let s := { s with key := { s.key with loadAt := none, restartMask := 0 } }
  s.raise 453 0x807 FATAL none 0 0

/-- A write of HUB_LAP_CTL.RESTART (R319): acts only in coast, and a zero mask names no cluster. The second operand is the
result of the signature check. -/
def State.writeRestart (s : State) (mask : Nat) (sigOk : Bool) : State :=
  match mcsOf mask with
  | [] => s
  | k :: _ =>
    if !s.coast || !s.ready || !s.awake then s
    else if !sigOk then s.restartFail mask
    else
      let s := s.put pgHub Reg.HUB_LAP_CTL_FENCED (maskOf 4 (fun k => s.fencedMcs.testBit k && !mask.testBit k))
      let s := ((engsOf mask).filter (fun e => !(s.eng e).fenced)).foldl (fun (s : State) (e : Nat) =>
        s.setEng e { (s.eng e) with running := true, loading := false, halt := false, misses := 0, mask := 2 ^ 64 - 1 }) s
      { s.takeBaton k with key := { s.key with loadAt := some s.time, restartMask := mask } }

/-- RESTART (R319). -/
def execRestart (mask : BitVec 4) (sigOk : Bool) (s : State) : Host.Outcome State Fault Refusal :=
  .next (s.writeRestart mask.toNat sigOk)

/-- RESTART_BEAT_TIMEOUT (R319): due 250 ms after the restart or the load. -/
def execRestartBeatTimeout (s : State) : Host.Outcome State Fault Refusal :=
  match s.key.loadAt with
  | some t =>
    if decide (s.time < t + 250000000) || !s.ready || !s.awake then .next s
    else if s.coast then .next (s.restartFail s.key.restartMask)
    else .next ((s.put pgHub Reg.HUB_LAP_STAT_MISSED 3).passBaton 0)
  | none => .next s

/-- RESTART of HUB_ENG_CTL: the engine reloads and starts; refused while it is FENCED (R336). -/
def State.engReload (s : State) : State :=
  let e := s.fld pgHub Reg.HUB_ENG_IDX_ENGINE
  if (s.eng e).fenced || !s.engOn then s else (s.reloadEng e).1

/-- A write of HUB_ENG_CTL for the engine that HUB_ENG_IDX names (R336). -/
def State.writeEngCtl (s : State) (v : Nat) : State :=
  let e := s.fld pgHub Reg.HUB_ENG_IDX_ENGINE
  let s := s.setEng e { (s.eng e) with halt := v.testBit 0 }
  if v.testBit 0 then s.haltEng e else if v.testBit 1 then s.engReload else s

/-- ENGINE_HALT (R336). -/
def execEngineHalt (v : BitVec 32) (s : State) : Host.Outcome State Fault Refusal := .next (s.writeEngCtl v.toNat)

/-- ENG_RESTART (R336). -/
def execEngRestart (s : State) : Host.Outcome State Fault Refusal := .next s.engReload

end Sys2Proof.Machine
end

