-- ==== Sys2Proof/Machine/Manager.lean ====
section
/-!
DEFINITION. The manager's commands and registers (R320 to R325), thermal throttling, and the readers' side of the event system:
the alert holdoff, the fault journal, forced records, the error capture, missed counts and ring tails (R331 to R336, R408,
R409, R433).
-/
namespace Sys2Proof.Machine

/-! ### GET_KENEZ_INFO and the policy commands (R263, R321 to R324) -/

/-- The response of GET_KENEZ_INFO. -/
def State.kenezInfo (s : State) : List Nat :=
  padTo 64 (leBytes 8 Config.partId ++ leBytes 8 (s.rawBytes / 2 ^ 30) ++ leBytes 8 (s.exposeCeil * s.pol 0x10D / 100)
    ++ [if s.custom then 4 else s.profile, s.mgrPort])

/-- GET_KENEZ_INFO (R263). -/
def execGetKenezInfo (src : CmdSrc) (s : State) : Host.Outcome State Fault Refusal :=
  .next (s.vendor src 0xC000 [] (fun s _ => (s, some s.kenezInfo)))

/-- A policy parameter with its limits: value, least, greatest. -/
def State.polEntry (s : State) (id : Nat) : Option (Nat × Nat × Nat) := SMap.get? s.policy id

/-- POLICY_GET (R321). -/
def execPolicyGet (src : CmdSrc) (req : List (BitVec 8)) (s : State) : Host.Outcome State Fault Refusal :=
  .next (s.vendor src 0xC300 (nats req) (fun s p =>
    match s.polEntry (pf p 0 2) with
    | some (v, lo, hi) =>
      if zeroBytes p [2, 3] then (s, some ([stDone, 0, 0, 0] ++ leBytes 4 v ++ leBytes 4 lo ++ leBytes 4 hi))
      else (s, some [stBadField])
    | none => (s, some [stBadField])))

/-- A change refused by R115: T0_DEMOTE at or above T0_PROMOTE, or T2_COLD at or above T2_PROMOTE. -/
def State.polClash (s : State) (id v : Nat) : Bool :=
  let at_ := fun (k : Nat) => if k = id then v else s.pol k
  at_ 0x104 ≤ at_ 0x105 || at_ 0x10A ≤ at_ 0x108

/-- A register field that mirrors a parameter, written on every Pier's page. -/
def State.putPiers (s : State) (f : Fld) (v : Nat) : State :=
  (List.range 16).foldl (fun (s : State) (n : Nat) => s.put (pgPier n) f v) s

/-- PACER_CTL with one of its fields replaced. -/
def State.pacerWith (s : State) (f : Fld) (v : Nat) : State :=
  let s := s.put pgPacer f v
  ((List.range 8).foldl (fun (s : State) (k : Nat) => s.urgUpdate k) s).pacerUpdate

/-- The registers that mirror a parameter rewritten; raising MIRROR_ALL sets MIRROR in every context entry (R324). -/
def State.applyPolicy (s : State) (id v : Nat) : State :=
  match id with
  | 0x100 => s.putPiers Reg.PIER_SAMP_CTL_N v
  | 0x10C => if v = 0 then s else { s with vis := s.vis.map (fun x => (x.1, if x.2.st = .free then x.2 else { x.2 with mirror := true })) }
  | 0x200 => s.putPiers Reg.PIER_CODEC_CTL_CODE_MODE v
  | 0x203 => s.putPiers Reg.PIER_CODEC_CTL_STRIPE_CLOSE_US v
  | 0x300 => s.putPiers Reg.PIER_LIU_CTL_SCRUB_HOURS v
  | 0x301 => s.putPiers Reg.PIER_LIU_CTL_UE_LIMIT v
  | 0x302 => s.putPiers Reg.PIER_LIU_CTL_UE_WINDOW_H v
  | 0x303 => s.putPiers Reg.PIER_TRAIN_PERIOD_MS v
  | 0x500 => s.pacerWith Reg.PACER_CTL_CEIL_PCT v
  | 0x501 => s.pacerWith Reg.PACER_CTL_EFF_PCT v
  | 0x502 => s.pacerWith Reg.PACER_CTL_URG3_MAX_MS v
  | 0x503 => s.pacerWith Reg.PACER_CTL_BG_FLOOR_PCT v
  | _ => s

/-- A change of a parameter: the table, the mirroring registers, CUSTOM, POLICY_CHANGE and the engines' doorbells (R324). -/
def State.changePolicy (s : State) (id v lo hi : Nat) : State :=
  let s := { s with policy := SMap.put s.policy id (v, lo, hi), custom := true }
  let s := (s.applyPolicy id v).raise 454 0x808 INFO none 0 0
  (pick 64 (fun e => (s.eng e).running)).foldl (fun (s : State) (e : Nat) => s.ring e 27) s

/-- What POLICY_SET answers and does. -/
def State.policySet (s : State) (p : List Nat) : State × Nat :=
  let id := pf p 0 2
  let v := pf p 4 4
  match s.polEntry id with
  | none => (s, stBadField)
  | some (old, lo, hi) =>
    if !zeroBytes p [2, 3] then (s, stBadField)
    else if v = old then (s, stDone)
    else if v < lo || hi < v || s.polClash id v then (s, stRefused)
    else (s.changePolicy id v lo hi, stDone)

/-- POLICY_SET (R324). -/
def execPolicySet (src : CmdSrc) (req : List (BitVec 8)) (s : State) : Host.Outcome State Fault Refusal :=
  .next (s.vendor src 0xC301 (nats req) (fun s p => ((s.policySet p).1, some [(s.policySet p).2])))

/-! ### Mailbox slots (R320, R322) -/

/-- The engine to which the Keystone dispatches a command: VI commands by tag, key commands by slot, else itself (R310). -/
def State.cmdEngine (s : State) (op : Nat) (p : List Nat) : Nat :=
  if 0xC100 ≤ op ∧ op < 0xC200 then s.role (16 * (pf p 0 2 % 4) + 12)
  else if 0xC200 ≤ op ∧ op < 0xC300 then s.role (16 * (pb p 0 % 4) + 10)
  else 16 * s.baton

/-- The hub mailbox page. -/
def pgMbx : Nat := 8

/-- A write of a slot's MBX_CMD. A refused GO changes nothing but REFUSED. -/
def State.writeMbxCmd (s : State) (k v : Nat) : State :=
  let op := bits v 0 16
  let len := bits v 16 8
  let held := (s.put pgMbx (Reg.MBX_CMD_OPCODE k) op).put pgMbx (Reg.MBX_CMD_LEN k) len
  if !v.testBit 31 then held
  else if s.flag pgMbx (Reg.MBX_STAT_BUSY k) || vendorReq op != some len then s.put pgMbx (Reg.MBX_STAT_REFUSED k) 1
  else
    let s := held.put pgMbx (Reg.MBX_STAT_BUSY k) 1
    let s := { s with mbx := SMap.put s.mbx k { (s.mbox k) with op := op } }
    if s.keystoneRuns then s.ring (s.cmdEngine op (s.mbox k).req) 25 else s

/-- MBX_CMD_GO (R320). -/
def execMbxCmdGo (slot : Fin 7) (v : BitVec 32) (s : State) : Host.Outcome State Fault Refusal :=
  .next (s.writeMbxCmd slot.val v.toNat)

/-! ### Thermal throttling (R325) -/

/-- The thermal value for a junction temperature. -/
def State.thermValue (s : State) (t : Nat) : Nat := min 90 (10 * (t - s.pol 0x600))

/-- THERMAL_THROTTLE (R325): every 10 ms; a change is applied once the temperature has moved at least 2 °C from that of the last change; in
coast the last values stay. -/
def execThermalThrottle (t : BitVec 8) (s : State) : Host.Outcome State Fault Refusal :=
  if !s.engOn || decide (s.time < s.thermAt + 10000000) then .next s
  else
    let s := { s with thermAt := s.time }
    let v := s.thermValue t.toNat
    let far := decide (s.therm.2 + 2 ≤ t.toNat ∨ t.toNat + 2 ≤ s.therm.2)
    let s := if v != s.therm.1 && far then { s with therm := (v, t.toNat) } else s
    .next ((List.range 16).foldl (fun (s : State) (n : Nat) =>
      s.put (pgPier n) Reg.PIER_DCTL_THROTTLE (max (SMap.getD s.vdtThr n 0) s.therm.1)) s)

/-! ### Alerts (R331) -/

/-- ALERT_HOLDOFF_END (R331): due 10 ms after the last assertion's start; alerts in that time cause one assertion now. -/
def execAlertHoldoffEnd (s : State) : Host.Outcome State Fault Refusal :=
  match s.alertAt with
  | some t =>
    if s.time < t + 10000000 then .next s
    else if s.flag pgHub Reg.HUB_EVT_ALERT_PEND then
      .next (({ s with alertAt := some s.time, alerts := s.alerts + 1 } : State).put pgHub Reg.HUB_EVT_ALERT_PEND 0)
    else .next { s with alertAt := none }
  | none => .next s

/-! ### The fault journal (R332 to R334, R381) -/

/-- The hub's power page. -/
def pgPwr : Nat := 0xB

/-- The hold-up check for a kind of commit: 0 a record, 1 a sector erase, 2 the Off save; a sample is good for 100 µs (R381). -/
def State.holdPass (s : State) (k : Nat) : Bool :=
  !s.flag pgPwr Reg.PWR_HOLD_VMIN_HOLD_EN ||
    ((s.fld pgPwr Reg.PWR_HOLD_STAT_PASS).testBit k && decide (s.time ≤ s.pwr.holdAt + 100000))

/-- Address of a journal sector in the flash (R386). -/
def jnlSector (i : Nat) : Nat := 0x1000 + 4096 * i

/-- A journal sector is erased. -/
def State.jnlErased (s : State) (i : Nat) : Bool :=
  s.flash.all (fun c => !(jnlSector i ≤ c.1 && c.1 < jnlSector i + 4096))

/-- Bytes programmed into the flash. -/
def State.flashPut (s : State) (a : Nat) (bs : List Nat) : State := { s with flash := Memory.program s.flash a bs }

/-- The sector that comes after the writer's, its header programmed, and the one ahead of it erased (R332). A fresh journal
starts in its first sector. -/
def State.jnlTurn (s : State) : State :=
  let j := s.jnl
  let i := if j.slot = 0 then j.sector else (j.sector + 1) % 11
  let s := { s with flash := Memory.erase s.flash (jnlSector ((i + 1) % 11) / 4096) }
  let s := s.flashPut (jnlSector i) (leBytes 4 0x4A4E4C4B ++ leBytes 4 (j.seq + 1))
  { s with jnl := { j with sector := i, slot := 1, seq := j.seq + 1 } }

/-- One record programmed at the writer's slot, with its commit byte (R333). -/
def State.jnlPut (s : State) (r : Record) : State :=
  let j := s.jnl
  let s := s.flashPut (jnlSector j.sector + 32 * j.slot) (leBytes 32 r.pack)
  { s with jnl := { j with slot := j.slot + 1, buf := j.buf.drop 1 } }

/-- A commit is deferred: DEFERRED, and JOURNAL_DEFER once while the check fails (R334). -/
def State.jnlDefer (s : State) : State :=
  if s.flag pgHub Reg.HUB_JNL_DEFERRED then s
  else (s.put pgHub Reg.HUB_JNL_DEFERRED 1).raise 455 0x809 WARN none 0 0

/-- The oldest buffered record committed, after the sector it needs; the second operand says the hold-up check is made. -/
def State.jnlCommit (s : State) (checked : Bool) : State :=
  match s.jnl.buf with
  | [] => s
  | r :: _ =>
    let turn := s.jnl.slot = 0 || 128 ≤ s.jnl.slot
    if checked && ((turn && !s.holdPass 1) || !s.holdPass 0) then s.jnlDefer
    else
      let s := s.put pgHub Reg.HUB_JNL_DEFERRED 0
      (if turn then s.jnlTurn else s).jnlPut r

/-- JOURNAL_WRITE (R334). -/
def execJournalWrite (s : State) : Host.Outcome State Fault Refusal :=
  .next (if s.ready && s.awake then s.jnlCommit true else s)

/-- JOURNAL_TOKEN_REFILL (R334): one token every 10 s, or one an hour in the second bucket. -/
def execJournalTokenRefill (second : Bool) (s : State) : Host.Outcome State Fault Refusal :=
  let j := s.jnl
  if second then
    .next (if s.time < j.tok2At + 3600000000000 then s
      else { s with jnl := { j with tok2 := min 16 (j.tok2 + 1), tok2At := j.tok2At + 3600000000000 } })
  else
    .next (if s.time < j.tok1At + 10000000000 then s
      else { s with jnl := { j with tok1 := min 64 (j.tok1 + 1), tok1At := j.tok1At + 10000000000 } })

/-! ### Event registers (R336, R408, R409) -/

/-- A write of a page's EVT_FORCE (R409): GO produces one record, for an INDEX of the page and a KIND of R328. -/
def State.writeForce (s : State) (pg v : Nat) : State :=
  let kind := bits v 0 16
  let ix := bits v 16 5
  let sev := bits v 21 2
  let s := ((s.put pg Reg.EVT_FORCE_KIND kind).put pg Reg.EVT_FORCE_INDEX ix).put pg Reg.EVT_FORCE_SEV sev
  match (pageSources pg)[ix]? with
  | some src => if v.testBit 31 && kindKnown kind then s.raise src kind sev none 0 (2 ^ 64 - 1) else s
  | none => s

/-- EVT_FORCE (R409): on a block page. -/
def execEvtForce (page : BitVec 8) (v : BitVec 32) (s : State) : Host.Outcome State Fault Refusal :=
  if (pageSources page.toNat).isEmpty then .next s
  else .next (s.atPage page.toNat (fun s => s.writeForce page.toNat v.toNat))

/-- CAP_REARM clears the page's error capture (R408). -/
def State.rearm (s : State) (pg : Nat) : State := { s with errCap := SMap.del s.errCap pg }

/-- CAP_REARM (R408). -/
def execCapRearm (page : BitVec 8) (s : State) : Host.Outcome State Fault Refusal :=
  if (pageSources page.toNat).isEmpty then .next s else .next (s.atPage page.toNat (fun s => s.rearm page.toNat))

/-- CLEAR of HUB_EVT_MISSED: the count and MAX of the source that the index names (R336). -/
def State.clearMissed (s : State) : State :=
  let i := s.fld pgHub Reg.HUB_EVT_MISSED_IDX_SOURCE
  { s with missed := SMap.del s.missed i, missedMax := s.missedMax.filter (fun x => x != i) }

/-- EVT_MISSED_CLEAR (R336). -/
def execEvtMissedClear (s : State) : Host.Outcome State Fault Refusal := .next s.clearMissed

/-- The records that a TAIL write takes, or none where it would pass HEAD (R433). -/
def tailTakes (head tail new size : Nat) : Option Nat :=
  let n := (new + size - tail) % size
  if n ≤ (head + size - tail) % size then some n else none

/-- The manager reads its queue up to a new TAIL. -/
def State.managerTail (s : State) (new : Nat) : State :=
  match tailTakes s.mq.head s.mq.tail (new % 4096) 4096 with
  | some n => { s with mq := { s.mq with recs := s.mq.recs.drop n, tail := new % 4096 } }
  | none => s

/-- A VI's fault queue read up to a new TAIL. -/
def State.faultTail (s : State) (t new : Nat) : State :=
  let v := s.vi t
  match tailTakes v.fq.head v.fq.tail (new % 64) 64 with
  | some n => s.setVi t { v with fq := { v.fq with recs := v.fq.recs.drop n, tail := new % 64 } }
  | none => s

/-- A Pier's sample ring read up to a new TAIL. -/
def State.sampleTail (s : State) (n new : Nat) : State :=
  let pg := pgPier n
  match tailTakes (s.fld pg Reg.PIER_SAMP_PTR_HEAD) (s.fld pg Reg.PIER_SAMP_PTR_TAIL) (new % 8192) 8192 with
  | some _ => s.put pg Reg.PIER_SAMP_PTR_TAIL (new % 8192)
  | none => s

/-- RING_TAIL_WRITE (R433). -/
def execRingTailWrite (ring : Ring) (tail : BitVec 13) (s : State) : Host.Outcome State Fault Refusal :=
  match ring with
  | .manager => .next (s.managerTail tail.toNat)
  | .fault p ld vi => .next (if s.viPage p.val ld.val vi.toNat then s.faultTail vi.toNat tail.toNat else s)
  | .samples n => .next (s.atPage (pgPier n.val) (fun s => s.sampleTail n.val tail.toNat))

end Sys2Proof.Machine
end

