-- ==== Sys2Proof/Machine/Tel.lean ====
section
/-!
DEFINITION. Telemetry registers and lap dumps (R337 to R355).
-/
namespace Sys2Proof.Machine

/-- The hub telemetry page. -/
def pgTel : Nat := 9

/-! ### Lap dumps (R344 to R350) -/

/-- The interval in effect, in µs: 1 to 9 act as 10, above 1,000,000 as 1,000,000 (R344). -/
def lapInterval (v : Nat) : Nat := if v = 0 then 0 else max 10 (min 1000000 v)
def State.lapUs (s : State) : Nat := lapInterval (s.fld pgTel Reg.TEL_LAP_CTL_INTERVAL_US)

/-- The telemetry VI, where it is ACTIVE or FROZEN (R350). -/
def State.telVi (s : State) : Option Nat :=
  (s.vis.find? (fun x => x.2.telemetry && (x.2.st == .active || x.2.st == .frozen))).map Prod.fst

/-- Records that the ring holds (R346). -/
def State.lapSlots (s : State) (t : Nat) : Nat := less (2 ^ 30 * (s.vi t).assuredG) 4096 / 12288
/-- The VIA of a lap's record (R346). -/
def State.lapVia (s : State) (t l : Nat) : Nat := 0x1000 + 12288 * ((l - 1) % s.lapSlots t)

/-- What a write of the dump unit meets: it is done, it has to wait, or dumps stop (R345, R349, R350). -/
inductive DumpRes where
  | ok (s : State)
  | wait (s : State)
  | stop

/-- One line of the ring written at a VIA of the telemetry VI with its CLASS, as an invalidating write (R205, R345). -/
def State.dumpLine (s : State) (t via : Nat) (bs : List Nat) : DumpRes :=
  match s.findLeaf t via with
  | none => .stop
  | some (_, lvl, e) =>
    if !leafV e || 2 ≤ leafTier e then .stop
    else if leafW e || leafM e then .wait s
    else
      let da := leafDa e lvl via
      match s.recall t (da / 64) true none with
      | (s, false) => .wait s
      | (s, true) =>
        let v := s.vi t
        match s.writePlain da t (leafTier e) (bytesLine bs) false (0, 0, 0) v.pagePol (some ⟨2, none, some t, v.cls, some da⟩) with
        | (s, .ok) => .ok ((s.clearDir (da / 64)).markDirty t (via / 4096))
        | (_, .refused) => .stop
        | (s, .wait) => .wait s

/-- Consecutive lines of the ring. -/
def State.dumpLines : List (List Nat) → State → Nat → Nat → DumpRes
  | [], s, _, _ => .ok s
  | l :: ls, s, t, via =>
    match s.dumpLine t via l with
    | .ok s => State.dumpLines ls s t (via + 64)
    | r => r

/-- Bytes in 64-byte pieces. -/
def pieces (n : Nat) (bs : List Nat) : List (List Nat) := (List.range n).map (fun i => (bs.drop (64 * i)).take 64)

/-- The ring header (R346). -/
def State.lapHeader (s : State) (t newest : Nat) : List Nat :=
  padTo 64 (leBytes 4 0x50414C4B ++ leBytes 4 1 ++ leBytes 4 (s.lapSlots t) ++ leBytes 4 s.lapUs ++ leBytes 8 newest
    ++ leBytes 8 s.lap.start)

/-- The first line of a record: LAP, TIME, PREV_TIME, DUMPED, FLAGS and SKIPPED (R347). -/
def Lap.line0 (l : Lap) (lap : Nat) : List Nat :=
  padTo 64 (leBytes 8 lap ++ leBytes 8 l.time ++ leBytes 8 l.prevTime ++ leBytes 2 l.vals.length ++ [l.flags, 0] ++ leBytes 4 l.skip)

/-- The lines of a record after the first: MAP and the values (R347). -/
def Lap.tail (l : Lap) : List (List Nat) :=
  pieces 2 (leBytes 128 (l.vals.foldl (fun a x => a + 2 ^ x.1) 0)) ++ [List.replicate 64 0] ++
    (List.range 128).map (fun i => (List.range 8).flatMap (fun j => leBytes 8 (SMap.getD l.vals (8 * i + j) 0))) ++
    List.replicate 60 (List.replicate 64 0)

/-- The header written where it is still due: its first line and the zeros after it. -/
def State.dumpHeader (s : State) (t : Nat) : DumpRes :=
  if s.lap.header then
    match State.dumpLines (s.lapHeader t 0 :: List.replicate 63 (List.replicate 64 0)) s t 0 with
    | .ok s => .ok { s with lap := { s.lap with header := false } }
    | r => r
  else .ok s

/-- A record written in the order of R348. -/
def State.dumpRecord (s : State) (t : Nat) : DumpRes :=
  let l := s.lap
  let via := s.lapVia t l.lap
  match s.dumpLine t via (l.line0 0) with
  | .ok s =>
    match State.dumpLines l.tail s t (via + 64) with
    | .ok s =>
      match s.dumpLine t via (l.line0 l.lap) with
      | .ok s =>
        match s.dumpLine t 0 (s.lapHeader t l.lap) with
        | .ok s => .ok (({ s with lap := { s.lap with writing := false } } : State).put pgTel Reg.TEL_LAP_NUM_LAP l.lap)
        | r => r
      | r => r
    | r => r
  | r => r

/-- What the dump unit still has to write: the header, then the record in progress. -/
def State.dumpWork (s : State) : State :=
  if !s.flag pgTel Reg.TEL_LAP_STAT_RUNNING then s
  else
    match s.telVi with
    | none => s.lapStop
    | some t =>
      match s.dumpHeader t with
      | .stop => s.lapStop
      | .wait s => s
      | .ok s =>
        if !s.lap.writing then s
        else
          match s.dumpRecord t with
          | .stop => s.lapStop
          | .wait s => s
          | .ok s => s

/-- INTERVAL_US written (R344): dumps start at lap 1, or stop at 0. -/
def State.writeLapCtl (s : State) (v : Nat) : State :=
  let s := s.put pgTel Reg.TEL_LAP_CTL_INTERVAL_US (bits v 0 20)
  if bits v 0 20 = 0 then
    ({ s with lap := { s.lap with writing := false, header := false } } : State).put pgTel Reg.TEL_LAP_STAT_RUNNING 0
  else
    let s := ((s.put pgTel Reg.TEL_LAP_STAT_RUNNING 1).put pgTel Reg.TEL_LAP_STAT_SKIPPED 0).put pgTel Reg.TEL_LAP_NUM_LAP 0
    ({ s with lap := ⟨s.time, s.time + 1000 * s.lapUs, 0, true, false, [], 0, 0, 0, 0, 0, false, false⟩ } : State).dumpWork

/-- LAP_DUMP_START (R344). -/
def execLapDumpStart (v : BitVec 32) (s : State) : Host.Outcome State Fault Refusal := .next (s.writeLapCtl v.toNat)

/-- LAP_DUMP_STOP (R344). -/
def execLapDumpStop (s : State) : Host.Outcome State Fault Refusal := .next (s.writeLapCtl 0)

/-- The counters whose DUMP bit is set, with their values. -/
def State.dumped (s : State) : SMap Nat :=
  (s.telSel.filter (fun x => x.2.testBit 9)).map (fun x => (x.1, SMap.getD s.telCnt x.1 0))

/-- FLAGS of a record (R347). -/
def State.lapFlags (s : State) : Nat :=
  b2n s.coast + 2 * b2n s.lap.reconfig + 4 * b2n (s.flag pgTel Reg.TEL_FREEZE_FREEZE) + 8 * b2n s.lap.gap
    + 16 * b2n ((List.range 16).any (fun n => s.offline n))

/-- When the next snapshot falls due: whole intervals from the start. -/
def State.lapNext (s : State) : Nat :=
  s.lap.start + (1 + (s.time - s.lap.start) / (1000 * s.lapUs)) * (1000 * s.lapUs)

/-- LAP_SNAPSHOT (R344, R349, R351): due at its time in Run, and in Idle, which it ends; skipped while the record before is being written. -/
def execLapSnapshot (s : State) : Host.Outcome State Fault Refusal :=
  if !s.flag pgTel Reg.TEL_LAP_STAT_RUNNING || !s.awake || decide (s.time < s.lap.next) then .next s
  else if s.telVi.isNone then .next s.lapStop
  else
    let s := s.leaveIdle
    let s := { s with lap := { s.lap with next := s.lapNext } }
    if s.lap.writing then
      let n := s.fld pgTel Reg.TEL_LAP_STAT_SKIPPED
      let s := s.put pgTel Reg.TEL_LAP_STAT_SKIPPED (min 0xFFFF (n + 1))
      .next (({ s with lap := { s.lap with skipped := s.lap.skipped + 1, gap := true } } : State).raise 56 0xA00 INFO none 0 0)
    else
      let l := s.lap
      .next { s with lap := { l with lap := l.lap + 1, writing := true, vals := s.dumped, flags := s.lapFlags, skip := l.skipped,
                                     prevTime := l.time, time := s.time, skipped := 0, reconfig := false, gap := false } }

/-- LAP_RECORD_DONE (R348): the dump unit's writes go on to their end, or wait, or stop the dumps. -/
def execLapRecordDone (s : State) : Host.Outcome State Fault Refusal :=
  .next (if s.ready && s.awake then s.dumpWork else s)

/-! ### Counters (R338, R341, R354, R355) -/

/-- The next record carries RECONFIG (R347). -/
def State.reconfigured (s : State) : State := { s with lap := { s.lap with reconfig := true } }

/-- TEL_FREEZE (R355). -/
def execTelFreeze (on : Bool) (s : State) : Host.Outcome State Fault Refusal :=
  .next (s.put pgTel Reg.TEL_FREEZE_FREEZE (b2n on))

/-- All counters set to 0. -/
def State.telClear (s : State) : State := ({ s with telCnt := [] } : State).reconfigured

/-- TEL_CLEAR (R355). -/
def execTelClear (s : State) : Host.Outcome State Fault Refusal := .next s.telClear

/-- The page that holds a counter (R354). -/
def telPage (i : Nat) : Nat := if i < 128 then pgTel else if i < 512 then pgPort ((i - 128) / 48) else pgPier ((i - 512) / 32)

/-- A counter's value. -/
def State.telValue (s : State) (i : Nat) : Nat := SMap.getD s.telCnt i 0
/-- A counter's select register as it reads: a fixed counter shows its code and EN, and takes DUMP only (R354). -/
def State.telSelect (s : State) (i : Nat) : Nat :=
  let v := SMap.getD s.telSel i telSelReset
  match fixedCode i with
  | some c => telSelReset + c + 256 + 512 * b2n (v.testBit 9)
  | none => v

/-- A counter set to a value (R338). -/
def State.writeTelCnt (s : State) (i v : Nat) : State :=
  ({ s with telCnt := if v = 0 then SMap.del s.telCnt i else SMap.put s.telCnt i (v % 2 ^ 64) } : State).reconfigured

/-- TEL_CNT_WRITE (R338). -/
def execTelCntWrite (i : Fin 1024) (v : BitVec 64) (s : State) : Host.Outcome State Fault Refusal :=
  .next (s.atPage (telPage i.val) (fun s => s.writeTelCnt i.val v.toNat))

/-- A counter's select register written; its value is not touched (R341, R354). -/
def State.writeTelSel (s : State) (i v : Nat) : State :=
  let w := match fixedCode i with
    | some _ => telSelReset + 512 * b2n (v.testBit 9)
    | none => bits v 0 15 + 2 ^ 16 * bits v 16 33
  ({ s with telSel := SMap.put s.telSel i w } : State).reconfigured

/-- TEL_SEL_WRITE (R341). -/
def execTelSelWrite (i : Fin 1024) (v : BitVec 64) (s : State) : Host.Outcome State Fault Refusal :=
  .next (s.atPage (telPage i.val) (fun s => s.writeTelSel i.val v.toNat))

end Sys2Proof.Machine
end

