-- ==== Sys2Proof/Machine/Clock.lean ====
section
/-!
DEFINITION. The clock root with its candidates, backup and holdover (R356 to R363), and the gate tree (R366 to R369, R384).
-/
namespace Sys2Proof.Machine

/-- The hub clock page. -/
def pgClk : Nat := 0xA

def State.root (s : State) : Nat := s.fld pgClk Reg.CLK_ROOT_STAT_ROOT
def State.candPresent (s : State) (k : Nat) : Bool := s.clk.present.testBit k
def State.candReady (s : State) (k : Nat) : Bool := (s.fld pgClk Reg.CLK_ROOT_STAT_READY).testBit k
def State.armed (s : State) : Bool := s.flag pgClk Reg.CLK_ROOT_STAT_ARMED
def State.backup (s : State) : Nat := s.fld pgClk Reg.CLK_ROOT_CTL_BACKUP
/-- Fewer than two candidates are present (R358). -/
def State.unqualified (s : State) : Bool := (pick 8 (fun k => s.candPresent k)).length < 2
/-- The clocks run from a root: powered, and not in Deep Sleep or Off. -/
def State.clocked (s : State) : Bool := s.rails && decide (s.pwr.state ≤ 2)

/-! ### Root and backup (R358 to R362) -/

/-- ARMED set or cleared; ARM reads the same. -/
def State.putArmed (s : State) (on : Bool) : State :=
  (s.put pgClk Reg.CLK_ROOT_STAT_ARMED (b2n on)).put pgClk Reg.CLK_ROOT_CTL_ARM (b2n on)

/-- With AUTO_ARM set, the lowest-numbered READY candidate other than the root is armed (R360). -/
def State.autoArm (s : State) : State :=
  if !s.flag pgClk Reg.CLK_ROOT_CTL_AUTO_ARM then s
  else
    match (List.range 8).find? (fun k => k != s.root && s.candReady k) with
    | some k => (s.put pgClk Reg.CLK_ROOT_CTL_BACKUP k).putArmed true
    | none => s

/-- An armed backup that lost READY is disarmed (R360). -/
def State.backupLost (s : State) : State := ((s.putArmed false).raise 456 0x904 WARN none 0 0).autoArm

/-- READY of a candidate cleared, with its run of windows; a backup is disarmed. -/
def State.unready (s : State) (k : Nat) : State :=
  let s := (s.put pgClk (Reg.CLK_CAND_RUN k) 0).put pgClk Reg.CLK_ROOT_STAT_READY
    (clrBit (s.fld pgClk Reg.CLK_ROOT_STAT_READY) k)
  if s.armed && s.backup == k then s.backupLost else s

/-- A candidate becomes the root. -/
def State.setRoot (s : State) (k : Nat) : State :=
  (s.put pgClk Reg.CLK_ROOT_STAT_ROOT k).put pgClk Reg.CLK_ROOT_CTL_ROOT_SEL k

/-- The PLLs are locked to a root: no holdover, no switch in progress. -/
def State.locked2 (s : State) : State :=
  let s := (s.put pgClk Reg.CLK_ROOT_STAT_HOLDOVER 0).put pgClk Reg.CLK_ROOT_STAT_SWITCHING 0
  { s with clk := { s.clk with switching := false, holdSince := none } }

/-- The outcome of a failover (R361): the new root, ARMED clear, AUTO_ARM, and the event. -/
def State.failover (s : State) (k : Nat) : State :=
  let n := s.fld pgClk Reg.CLK_ROOT_CNT_FAILOVERS
  let s := (((s.setRoot k).locked2).putArmed false).put pgClk Reg.CLK_ROOT_CNT_FAILOVERS (min 0xFFFF (n + 1))
  (s.autoArm).raise 456 0x901 ERROR none 0 0

/-- The root is lost (R361, R362): the PLLs hold over, and relock to an armed backup. -/
def State.rootLost (s : State) : State :=
  let ready := s.fld pgClk Reg.CLK_ROOT_STAT_READY
  let s := s.put pgClk Reg.CLK_ROOT_STAT_HOLDOVER 1
  if s.armed && s.candPresent s.backup then
    ({ s with clk := { s.clk with switching := true, target := s.backup } } : State).put pgClk Reg.CLK_ROOT_STAT_SWITCHING 1
  else
    let up := maskOf 8 (fun k => s.linkUp k)
    let s := { s with clk := { s.clk with switching := false, holdSince := some s.time, readyAtLoss := ready },
                      pwr := { s.pwr with upAtLoss := up } }
    (s.put pgClk Reg.CLK_ROOT_STAT_SWITCHING 0).raise 456 0x902 FATAL none 0 0

/-- A candidate becomes absent (R356, R358). -/
def State.candAbsent (s : State) (k : Nat) : State :=
  let s := { s with clk := { s.clk with present := clrBit s.clk.present k } }
  if !s.clocked then s
  else
    let lost := k == s.root && !s.flag pgClk Reg.CLK_ROOT_STAT_HOLDOVER
    let gone := s.clk.switching && s.clk.target == k
    let s := s.unready k
    let s := if lost || gone then s.rootLost else s
    if s.unqualified then (pick 8 (fun j => s.candReady j)).foldl (fun (s : State) (j : Nat) => s.unready j) s else s

/-- REFCLK_ABSENT (R356). -/
def execRefclkAbsent (p : Fin 8) (s : State) : Host.Outcome State Fault Refusal :=
  .next (if s.candPresent p.val then s.candAbsent p.val else s)

/-- REFCLK_PRESENT (R356): measured from now on. -/
def execRefclkPresent (p : Fin 8) (s : State) : Host.Outcome State Fault Refusal :=
  .next { s with clk := { s.clk with present := setBit s.clk.present p.val } }

/-- The reference a candidate is measured against (R357). -/
def State.refFor (s : State) (k : Nat) : Option Nat :=
  if k != s.root then (if s.candPresent s.root then some s.root else none)
  else if s.armed then some s.backup
  else (List.range 8).find? (fun j => j != k && s.candPresent j)

/-- The signed 16-bit form of an offset in ppm from a count of periods; it stays at the limits. -/
def ppmField (count : Nat) : Nat :=
  if 100000 ≤ count then min 0x7FFF (10 * (count - 100000))
  else (let n := min 0x8000 (10 * (100000 - count)); (0x10000 - n) % 0x10000)

/-- CANDIDATE_WINDOW (R357): the operand is the candidate's periods counted in 100,000 periods of the reference. -/
def execCandidateWindow (p : Fin 8) (count : BitVec 20) (s : State) : Host.Outcome State Fault Refusal :=
  let k := p.val
  if !s.clocked || !s.candPresent k then .next s
  else
    match s.refFor k with
    | none => .next s
    | some r =>
      let c := count.toNat
      let s := (s.put pgClk (Reg.CLK_CAND_PPM k) (ppmField c)).put pgClk (Reg.CLK_CAND_REF k) r
      if 99940 ≤ c ∧ c ≤ 100060 then
        let n := min 3 (s.fld pgClk (Reg.CLK_CAND_RUN k) + 1)
        let s := s.put pgClk (Reg.CLK_CAND_RUN k) n
        .next (if n = 3 && !s.unqualified then
          s.put pgClk Reg.CLK_ROOT_STAT_READY (setBit (s.fld pgClk Reg.CLK_ROOT_STAT_READY) k) else s)
      else .next (s.unready k)

/-- A switch of root requested (R359). -/
def State.writeRootSel (s : State) (k : Nat) : State :=
  if k = s.root then s
  else if !s.candReady k || s.clk.switching || s.flag pgClk Reg.CLK_ROOT_STAT_HOLDOVER || s.pwr.trans != 0 then
    s.put pgClk Reg.CLK_ROOT_CTL_SEL_ERR 1
  else
    let n := s.fld pgClk Reg.CLK_ROOT_CNT_SWITCHES
    let s := if s.armed && s.backup == k then s.putArmed false else s
    ((s.setRoot k).put pgClk Reg.CLK_ROOT_CNT_SWITCHES (min 0xFFFF (n + 1))).raise 456 0x900 INFO none 0 0

/-- ROOT_SEL (R359): the switch takes its 2 µs within the command. -/
def execRootSel (p : Fin 8) (s : State) : Host.Outcome State Fault Refusal := .next (s.writeRootSel p.val)

/-- BACKUP written with ARM (R360): without ARM nothing is armed. -/
def State.writeArm (s : State) (k : Nat) (arm : Bool) : State :=
  let s := s.put pgClk Reg.CLK_ROOT_CTL_BACKUP k
  if !arm then s.putArmed false
  else if !s.candReady k || k == s.root || s.pwr.trans != 0 then (s.putArmed false).put pgClk Reg.CLK_ROOT_CTL_ARM_ERR 1
  else s.putArmed true

/-- ARM (R360). -/
def execArm (p : Fin 8) (s : State) : Host.Outcome State Fault Refusal := .next (s.writeArm p.val true)

/-- RELOCK_DONE (R361). -/
def execRelockDone (s : State) : Host.Outcome State Fault Refusal :=
  .next (if s.clk.switching then s.failover s.clk.target else s)

/-- ROOT_RETURN (R362 item 1): within 1 ms of the loss, the root's offset measured over 100 µs. -/
def execRootReturn (inRange : Bool) (s : State) : Host.Outcome State Fault Refusal :=
  match s.clk.holdSince with
  | some t =>
    .next (if inRange && s.candPresent s.root && decide (s.time ≤ t + 1000000) then (s.locked2).raise 456 0x903 WARN none 0 0 else s)
  | none => .next s

/-! ### The way into Deep Sleep after a root loss (R363, R373) -/

/-- A preparation starts (R373): the directory flush begins with it. -/
def State.startPrep (s : State) (target : Nat) : State :=
  let s := { s with pwr := { s.pwr with trans := 1, target := target, wake := none, skipSave := false, savedDefer := false } }
  ((s.put 0xB Reg.PWR_STAT_PREP 1).put 0xB Reg.PWR_STAT_WAKE_LATCHED 0).dirFlush

/-- HOLDOVER_END (R362 items 2 and 3): due 1 ms after the loss, once no transition runs. In Sleep the Kenez leaves Sleep first. -/
def execHoldoverEnd (s : State) : Host.Outcome State Fault Refusal :=
  match s.clk.holdSince with
  | some t =>
    if decide (s.time < t + 1000000) || s.pwr.trans != 0 || s.pwr.rootLoss then .next s
    else
      match (List.range 8).find? (fun k => k != s.root && s.clk.readyAtLoss.testBit k && s.candPresent k) with
      | some k => .next (s.failover k)
      | none =>
        if s.pwr.state = 2 then .next ({ s.wakeBy 6 with pwr := { (s.wakeBy 6).pwr with rootLoss := true } })
        else .next (({ s with pwr := { s.pwr with state := 0, rootLoss := true } } : State).put 0xB Reg.PWR_STAT_STATE 0 |>.startPrep 3)
  | none => .next s

/-! ### Gating (R367 to R369) -/

/-- A node of the gate tree has a child open. -/
def State.childOpen (s : State) (n : Nat) : Bool := (pick 137 (fun m => m != 0 && gateParent m == n)).any (fun m => !s.gateShut m)

/-- Requests under way at a Pier: as data Pier, or as descriptor Pier of a T2 access. -/
def State.pierWork (s : State) (n : Nat) : Bool :=
  s.reqs.any (fun x => x.2.phase.tracked && (if x.2.tier = 2 then s.descPier x.2.da == n else s.primPier x.2.da == n))

/-- A node's block is mid-access (R368): a port with requests, walks, snoops or an invalidation; a Pier or one of its units with
requests, queued writes, write-buffer entries or open stripes. -/
def State.nodeBusy (s : State) (n : Nat) : Bool :=
  if 9 ≤ n ∧ n ≤ 16 then
    let k := n - 9
    s.reqs.any (fun x => x.2.port == k && x.2.phase != .gate) || s.walks.any (fun x => x.2.port == k) ||
      s.snoops.any (fun x => x.port == k) || (s.prt k).inv.isSome
  else if 17 ≤ n ∧ n ≤ 32 then
    let p := s.pier (n - 17)
    s.pierWork (n - 17) || !p.wq.isEmpty || !p.wbuf.isEmpty || !p.open_.isEmpty
  else if 33 ≤ n ∧ n ≤ 48 then
    let p := s.pier (n - 33)
    !p.wbuf.isEmpty || !p.open_.isEmpty || s.reqs.any (fun x => x.2.phase == .t2sub && s.descPier x.2.da == n - 33)
  else if 49 ≤ n ∧ n ≤ 64 then s.pierWork (n - 49) || !(s.pier (n - 49)).wq.isEmpty
  else false

/-- The node that CLK_GATE_IDX names. -/
def State.gateNode (s : State) : Nat := s.fld pgClk Reg.CLK_GATE_IDX_NODE

/-- A CLOSE or OPEN refused with a cause: nothing else changes. -/
def State.gateRefuse (s : State) (cause : Nat) : State :=
  (s.put pgClk Reg.CLK_GATE_CTL_REFUSED 1).put pgClk Reg.CLK_GATE_CTL_CAUSE cause

/-- A node closes. -/
def State.shutNode (s : State) (n : Nat) : State := { s with clk := { s.clk with closed := n :: s.clk.closed, pendNode := none } }

/-- CLOSE written (R368). -/
def State.writeClose (s : State) : State :=
  let n := s.gateNode
  if s.clk.pendNode.isSome then s.gateRefuse 4
  else if n = 0 then s.gateRefuse 1
  else if 136 < n || s.gateShut n then s
  else if s.childOpen n then s.gateRefuse 2
  else if 73 ≤ n ∧ (s.eng (n - 73)).running then s.gateRefuse 3
  else if s.nodeBusy n then { s with clk := { s.clk with pendNode := some (n, s.time) } }
  else s.shutNode n

/-- GATE_CLOSE (R368). -/
def execGateClose (s : State) : Host.Outcome State Fault Refusal := .next s.writeClose

/-- OPEN written (R368): the work that waits at the boundary of a port or of its IDE unit goes on. -/
def State.writeOpen (s : State) : State :=
  let n := s.gateNode
  if s.clk.pendNode.isSome then s.gateRefuse 4
  else if 136 < n || !s.gateShut n then s
  else if s.gateShut (gateParent n) then s.gateRefuse 5
  else
    let s := { s with clk := { s.clk with closed := s.clk.closed.filter (fun m => m != n) } }
    if 9 ≤ n ∧ n ≤ 16 then s.settle (n - 9) else if 65 ≤ n ∧ n ≤ 72 then s.settle (n - 65) else s

/-- GATE_OPEN (R368). -/
def execGateOpen (s : State) : Host.Outcome State Fault Refusal := .next s.writeOpen

/-- GATE_PENDING_DONE (R368). -/
def execGatePendingDone (s : State) : Host.Outcome State Fault Refusal :=
  match s.clk.pendNode with
  | some (n, _) => .next (if s.nodeBusy n then s else s.shutNode n)
  | none => .next s

/-- GATE_BUSY (R368): due 10 µs after the write. -/
def execGateBusy (s : State) : Host.Outcome State Fault Refusal :=
  match s.clk.pendNode with
  | some (n, t) =>
    if s.time < t + 10000 || !s.nodeBusy n then .next s
    else
      let s := ({ s with clk := { s.clk with pendNode := none } } : State).gateRefuse 4
      .next (s.raise 457 0x905 WARN none 0 0)
  | none => .next s

end Sys2Proof.Machine
end

