-- ==== Sys2Proof/Machine/Power.lean ====
section
/-!
DEFINITION. Power states (R370 to R379), the hold-up check and the Off state save (R376, R381, R382), the rails and the thermal
trip (R420 to R422, R427).
-/
namespace Sys2Proof.Machine

/-! ### Requests and preparation (R371, R373) -/

/-- The cause with which a request is refused, if any (R371). -/
def State.pwrRefusal (s : State) (target : Nat) : Option Nat :=
  if s.pwr.trans != 0 || s.pwr.warm then some 1
  else if 2 ≤ s.pwr.state then some 2
  else if 3 ≤ target && (List.range 8).any (fun k => s.linkUp k) then some 3
  else if 3 ≤ target && (List.range 8).any (fun k => s.flag (pgPort k) Reg.PORT_LINK_STAT_IN_GRACE || (s.prt k).sweep) then some 4
  else none

/-- A request for a state (R371): the state already held does nothing, Idle is left first. -/
def State.pwrReq (s : State) (target : Nat) : State :=
  if !s.ready || (s.pwr.trans = 0 && s.pwr.state = target) then s
  else
    match s.pwrRefusal target with
    | some c =>
      ((s.put pgPwr Reg.PWR_STAT_REFUSED 1).put pgPwr Reg.PWR_STAT_CAUSE c).raise 458 0x909 WARN none 0 0
    | none => s.leaveIdle.startPrep target

/-- SLEEP_REQUEST (R371). -/
def execSleepRequest (s : State) : Host.Outcome State Fault Refusal := .next (s.pwrReq 2)
/-- DEEP_SLEEP_REQUEST (R371). -/
def execDeepSleepRequest (s : State) : Host.Outcome State Fault Refusal := .next (s.pwrReq 3)
/-- OFF_REQUEST (R371). -/
def execOffRequest (s : State) : Host.Outcome State Fault Refusal := .next (s.pwrReq 4)

/-- The directory is flushed (R200, R373 step 3): the flush is over, and what hosts have changed since stands in DRAM (step 2), so that
the entries left can be dropped. -/
def State.dirSynced (s : State) : Bool := !s.flag 4 Reg.HUB_COH_CTL_FLUSH_BUSY && s.dir.all (fun x => !x.2.dirty && !x.2.t2)

/-- Write buffers are drained, open stripes closed, counters and nodes written back, write queues drained (R373 step 4). -/
def State.drainedAll (s : State) : Bool :=
  s.piers.all (fun x => x.2.wbuf.isEmpty && x.2.open_.isEmpty && x.2.wq.isEmpty) &&
    s.cc.all (fun x => !x.2.dirty && x.2.ovf.isNone)

/-- The preparation for a target is over. -/
def State.prepared (s : State) (target : Nat) : Bool := s.dirSynced && (target < 3 || s.drainedAll)

/-- PREP_DONE (R200, R373, R378): the directory cache is empty then. -/
def execPrepDone (s : State) : Host.Outcome State Fault Refusal :=
  if s.pwr.trans != 1 || !s.prepared s.pwr.target then .next s
  else
    .next ((({ s with dir := [], pwr := { s.pwr with trans := 2 } } : State).put pgPwr Reg.PWR_STAT_PREP 0).put pgPwr Reg.PWR_STAT_ENTERING 1)

/-! ### The hold-up check (R381, R382) -/

/-- The available energy times 64 × 10^9, in mJ: C in units of 10 µF, RATIO × 8. -/
def State.holdEnergy (s : State) (mv : Nat) : Nat :=
  let v := mv * s.fld pgPwr Reg.PWR_HOLD_CFG_RATIO
  let m := s.fld pgPwr Reg.PWR_HOLD_VMIN_VMIN_MV
  5 * s.fld pgPwr Reg.PWR_HOLD_CFG_CAP_10UF * (v * v - 64 * (m * m))

/-- The checks that an energy passes: 0.2 mJ for a record, 46 mJ for an erase, 60 mJ for the Off save. -/
def holdBits (e : Nat) : Nat :=
  b2n (decide (64000000000 ≤ 5 * e)) + 2 * b2n (decide (46 * 64000000000 ≤ e)) + 4 * b2n (decide (60 * 64000000000 ≤ e))

/-- The Off save waits on its check: SAVE_WAIT, and HOLDUP_DEFER once per wait. -/
def State.deferSave (s : State) : State :=
  let s := s.put pgPwr Reg.PWR_STAT_SAVE_WAIT 1
  if s.pwr.savedDefer then s
  else ({ s with pwr := { s.pwr with savedDefer := true } } : State).raise 459 0x90A WARN none 0 0

/-- The Off save is due. -/
def State.saveDue (s : State) : Bool := s.pwr.trans = 2 && s.pwr.target = 4 && !s.pwr.skipSave

/-- VHOLD_SAMPLE (R381): the energy and the checks; what is deferred is checked again. -/
def execVholdSample (mv : BitVec 10) (s : State) : Host.Outcome State Fault Refusal :=
  if !s.rails || 2 ≤ s.pwr.state then .next s
  else
    let e := s.holdEnergy mv.toNat
    let on := s.flag pgPwr Reg.PWR_HOLD_VMIN_HOLD_EN
    let s := (s.put pgPwr Reg.PWR_HOLD_STAT_VHOLD_MV mv.toNat).put pgPwr Reg.PWR_HOLD_STAT_ENERGY_MJ (min 0xFFFF (e / 64000000000))
    let s := s.put pgPwr Reg.PWR_HOLD_STAT_PASS (if on then holdBits e else 7)
    let s := { s with pwr := { s.pwr with holdAt := s.time } }
    let s := if s.jnl.buf.isEmpty || s.holdPass 0 then s else s.jnlDefer
    .next (if s.saveDue && !s.holdPass 2 then s.deferSave else s)

/-! ### The Off state save (R376, R392) -/

/-- Every buffered record written to the journal. -/
def State.flushJournal : Nat → State → State
  | 0, s => s
  | n + 1, s => State.flushJournal n (s.jnlCommit false)

/-- One Pier's entry of the rank health record (R392). -/
def State.healthEntry (s : State) (n : Nat) : List Nat :=
  let pg := pgPier n
  let use := [1, 2, 3, 4].contains (s.fld pg Reg.PIER_SPARE_CTL_STATE)
  padTo 32 (leBytes 8 (s.pier n).serial ++ [maskOf 8 (fun r => s.rankRetired n r), (s.pier n).failed % 256,
    (if use then s.fld pg Reg.PIER_SPARE_CTL_SPARE_PHYS else 0) + 8 * b2n use])

/-- JPOS: the journal sector's sequence number and slot, in four bytes (R392; the packing is the model's). -/
def Jnl.pos (j : Jnl) : Nat := (128 * j.seq + j.slot) % 2 ^ 32

/-- The rank health record (R392). -/
def State.healthRecord (s : State) : List Nat :=
  let hd := fun (crc : Nat) => padTo 32 (leBytes 4 0x484C4B52 ++ leBytes 4 s.jnl.pos ++ leBytes 4 crc)
  let body := (List.range 16).flatMap (fun n => s.healthEntry n)
  hd (crc32c (hd 0 ++ body)) ++ body

/-- The Off state save: the journal buffer, an Off record, and the rank health record in its erased sector. -/
def State.offSave (s : State) : State :=
  let off : Record := ⟨458, 0x907, INFO, false, none, s.time, 0, 1, 0, none⟩
  let s := { s with jnl := { s.jnl with buf := s.jnl.buf ++ [off] } }
  let s := State.flushJournal s.jnl.buf.length s
  let s := { s with flash := Memory.erase s.flash 0xC }
  let s := s.flashPut 0xC000 s.healthRecord
  ({ s with pwr := { s.pwr with skipSave := true } } : State).put pgPwr Reg.PWR_STAT_SAVE_WAIT 0

/-- OFF_STATE_SAVE (R376): once the hold-up check passes. -/
def execOffStateSave (s : State) : Host.Outcome State Fault Refusal :=
  .next (if !s.saveDue then s else if s.holdPass 2 then s.offSave else s.deferSave)

/-- A write of PWR_CTL.SKIP_SAVE: a deferred save is abandoned. -/
def State.skipOffSave (s : State) : State :=
  if s.saveDue && s.flag pgPwr Reg.PWR_STAT_SAVE_WAIT then
    ({ s with pwr := { s.pwr with skipSave := true } } : State).put pgPwr Reg.PWR_STAT_SAVE_WAIT 0
  else s

/-- SKIP_SAVE (R376). -/
def execSkipSave (s : State) : Host.Outcome State Fault Refusal := .next s.skipOffSave

/-! ### Entry and exit (R374 to R379) -/

/-- The block with its power gone: what the flash, the input pins and the always-on logic hold stays, and the model's own
fields. -/
def State.unpowered (s : State) (pw : Pwr) : State :=
  let t : State := { State.reset with pending := s.pending, flash := s.flash, clk := { State.reset.clk with present := s.clk.present },
                                      pwr := pw, aon := s.aon, free := s.free, out := s.out, keyHash := s.keyHash }
  (List.range 8).foldl (fun (t : State) (k : Nat) =>
    (t.put (pgPort k) Reg.PORT_PINS_PERST_N (s.fld (pgPort k) Reg.PORT_PINS_PERST_N)).put (pgPort k) Reg.PORT_PINS_URG
      (s.fld (pgPort k) Reg.PORT_PINS_URG)) t

/-- The always-on logic at the start of a power-up (R420 step 1): PWR_EN_MEM, then PWR_EN_MAIN. -/
def Pwr.starting (p : Pwr) : Pwr :=
  { State.reset.pwr with state := 0, addrSel := p.addrSel, failedStarts := p.failedStarts, enMem := true, enMain := true }

/-- A full cold boot begins (R376, R390, R395). -/
def State.coldBoot (s : State) : State :=
  (s.unpowered s.pwr.starting).put 0 Reg.TRUSS_BOOT_STAT_STAGE 1

/-- Nothing is under way that entry must let end: accepted requests, walks, snoops and sequencer contexts (R363, R374). Held
writes stay. -/
def State.quiet (s : State) : Bool :=
  !s.reqs.any (fun x => x.2.phase.tracked || x.2.phase == .miss) && s.walks.isEmpty && s.snoops.isEmpty &&
    s.sqrs.all (fun x => x.2.ctxs.isEmpty && x.2.jobq.isEmpty) && s.piers.all (fun x => !x.2.freq)

/-- Viaduct replay buffers are drained (R374 step 3). -/
def State.linksIdle (s : State) : Bool :=
  s.links.all (fun x => x.2.tx.replayBuf.isEmpty && x.2.rx.replayBuf.isEmpty && (x.2.tx.st ≤ 1 || x.2.tx.st == 5))

/-- Every row closed: the channels are in self-refresh. -/
def State.selfRefresh (s : State) : State := { s with piers := s.piers.map (fun x => (x.1, { x.2 with rows := [], pause := 0 })) }

/-- The target state of an entry is reached. -/
def State.enterState (s : State) (st : Nat) : State :=
  let w := s.pwr.wake
  let s := { s with pwr := { s.pwr with state := st, trans := if w.isSome then 3 else 0, sleepAt := s.time } }
  let s := ((s.put pgPwr Reg.PWR_STAT_STATE st).put pgPwr Reg.PWR_STAT_ENTERING 0).put pgPwr Reg.PWR_STAT_EXITING (b2n w.isSome)
  s.raise 458 0x907 INFO none 0 0

/-- A port as Deep Sleep leaves it: its link down, its caches and held writes empty. -/
def State.portDeep (s : State) (k : Nat) : State :=
  let pg := pgPort k
  let s := (((s.put pg Reg.PORT_LINK_STAT_UP 0).put pg Reg.PORT_LINK_STAT_SPEED 0).put pg Reg.PORT_LINK_STAT_WIDTH 0).put pg
    Reg.PORT_LINK_STAT_FLIT 0
  ((s.put pg Reg.PORT_LINK_STAT_IDE_ON 0).put pg Reg.PORT_INV_STAT_BUSY 0).setPrt k { (s.prt k) with
    tlb := [], wc := [], inv := none, seen := [], ideMem := none, ideIo := none }

/-- What Deep Sleep does not keep (R375, R379, R410): host links, translation caches and held writes, the counter and descriptor
caches, the engines' memory, the telemetry counters and the error captures. -/
def State.deepLoss (s : State) : State :=
  let s := (List.range 8).foldl (fun (s : State) (k : Nat) => s.portDeep k) s
  let s := (s.locked2).selfRefresh
  { s with reqs := [], walks := [], snoops := [], cc := [], telCnt := [], errCap := [],
           piers := s.piers.map (fun x => (x.1, { x.2 with dcache := [] })),
           engines := s.engines.map (fun x => (x.1, { x.2 with running := false, loading := false, mailbox := [], doorbell := 0,
                                                               pending := 0, jobs := [], mem := [] })),
           pwr := { s.pwr with enMain := false } }

/-- ENTRY_DONE (R374 to R378). -/
def execEntryDone (s : State) : Host.Outcome State Fault Refusal :=
  if s.pwr.trans != 2 || !s.quiet || !s.linksIdle then .next s
  else if s.pwr.target = 2 then .next (s.selfRefresh.enterState 2)
  else if s.pwr.target = 3 then .next (s.deepLoss.enterState 3)
  else if s.saveDue then .next s
  else
    let wake := s.pwr.wake.isSome
    let s := s.raise 458 0x907 INFO none 0 0
    let s := s.unpowered { State.reset.pwr with state := 4, addrSel := s.pwr.addrSel, failedStarts := s.pwr.failedStarts }
    .next (if wake then s.coldBoot else s)

/-- The Viaducts run INIT and train again, but for those that are down. -/
def State.reinitLinks (s : State) : State :=
  (pick 20 (fun l => 1 ≤ (s.link l).tx.st && (s.link l).tx.st != 5)).foldl (fun (s : State) (l : Nat) => s.linkInit l) s

/-- Events held while no event hardware ran are recorded (R378, R394). -/
def State.recordHeld (s : State) : State :=
  (s.held).foldl (fun (s : State) (r : Record) => s.produce r none) ({ s with held := [] } : State)

/-- The engines load their firmware and resume logged work as after coast (R319, R375, R396): the last-lap timer counts no
window until the first beat. -/
def State.engineLoad (s : State) : State :=
  if s.coast then s
  else
    let s := (pick 64 (fun e => !(s.eng e).fenced && !(s.eng e).halt && !s.fencedMcs.testBit (e / 16))).foldl
      (fun (s : State) (e : Nat) => s.setEng e { (s.eng e) with running := true, loading := false, misses := 0 }) s
    ({ s.suspectMoves (fun _ => true) with key := ⟨s.time, some s.time, 0, 0, s.time⟩ } : State).put pgHub Reg.HUB_LAP_STAT_MISSED 0

/-- Candidates that went absent while nothing measured them lose READY; the root after a Deep Sleep is the one held, or the
lowest-numbered present one after a root loss or where the root is absent (R363, R375). -/
def State.rootAtWake (s : State) : State :=
  let s := (pick 8 (fun k => s.candReady k && !s.candPresent k)).foldl (fun (s : State) (k : Nat) => s.unready k) s
  if s.pwr.rootLoss || !s.candPresent s.root then
    match (List.range 8).find? (fun k => s.candPresent k) with
    | some k => s.setRoot k
    | none => s
  else s

/-- The Kenez is back in Run: held events, PWR_EXIT with the state left and the wake source, held requests released. -/
def State.backToRun (s : State) (left : Nat) : State :=
  let w := s.pwr.wake.getD 0
  let s := { s with pwr := { s.pwr with state := 0, trans := 0, wake := none }, lap := { s.lap with gap := true } }
  let s := ((s.put pgPwr Reg.PWR_STAT_STATE 0).put pgPwr Reg.PWR_STAT_EXITING 0).put pgPwr Reg.PWR_STAT_WAKE_LATCHED 0
  let s := (s.recordHeld).raise 458 0x908 INFO none 0 (detail [left, w])
  (List.range 8).foldl (fun (s : State) (k : Nat) => s.settle k) s

/-- The retraining pauses of every channel that leaves self-refresh (R375 step 4, R396 step 5). -/
def State.allPauses (s : State) : State := (List.range 16).foldl (fun (s : State) (n : Nat) => s.exitPauses n) s

/-- The main rails and the root clock on the way out of Deep Sleep (R375). -/
def State.deepExit (s : State) : State := { s.rootAtWake with pwr := { s.pwr with enMain := true, rootLoss := false } }

/-- EXIT_DONE (R374, R375, R378): after a root loss, the ports whose links were up at the loss are lost (R363); a Sleep left
for a root loss goes on to Deep Sleep. -/
def execExitDone (s : State) : Host.Outcome State Fault Refusal :=
  if s.pwr.trans != 3 then .next s
  else if s.pwr.state = 2 then
    let s := ({ s.reinitLinks with key := { s.key with windowAt := s.time } } : State).put pgHub Reg.HUB_LAP_STAT_MISSED 0
    let s := s.backToRun 2
    .next (if s.pwr.rootLoss then s.startPrep 3 else s)
  else if s.clk.present = 0 then .next s
  else
    let lost := if s.pwr.rootLoss then s.pwr.upAtLoss else 0
    let s := (s.deepExit.reinitLinks.allPauses.engineLoad).backToRun 3
    .next ((pick 8 (fun k => lost.testBit k)).foldl (fun (s : State) (k : Nat) => (s.loseHost k 1).urgUpdate k) s).resumeCopies

/-! ### Wakes (R377) -/

/-- WAKE (R377): PWR_CTL.WAKE written. -/
def execWake (s : State) : Host.Outcome State Fault Refusal := .next (s.wakeBy 1)

/-- WAKE_N (R372, R377): from Idle too, and from Off into a cold boot. -/
def execWakeN (s : State) : Host.Outcome State Fault Refusal :=
  let p := s.pwr
  if p.state = 4 then
    .next (if p.waitRestart || 3 ≤ p.failedStarts || p.thermtrip || !s.aon then s else s.coldBoot)
  else .next (s.leaveIdle.wakeBy 0)

/-- SLEEP_TIMER (R377): due SLEEP_TIMER_MS after Sleep was reached. -/
def execSleepTimer (s : State) : Host.Outcome State Fault Refusal :=
  let ms := s.fld pgPwr Reg.PWR_CTL_SLEEP_TIMER_MS
  .next (if s.pwr.state = 2 && ms != 0 && decide (s.pwr.sleepAt + 1000000 * ms ≤ s.time) then s.wakeBy 4 else s)

/-- THERMAL_WAKE (R377): the junction reaches THERM_START_C. -/
def execThermalWake (t : BitVec 8) (s : State) : Host.Outcome State Fault Refusal :=
  .next (if s.pwrGoal = 2 && decide (s.pol 0x600 ≤ t.toNat) then s.wakeBy 5 else s)

/-- PERST_N_DEASSERT (R257, R377): the pin rises, which wakes the Kenez from Deep Sleep. -/
def execPerstNDeassert (p : Fin 8) (s : State) : Host.Outcome State Fault Refusal :=
  let s := (s.put (pgPort p.val) Reg.PORT_PINS_PERST_N 1).urgUpdate p.val
  .next (if s.pwrGoal = 3 then s.wakeBy 3 else s)

/-! ### Idle (R372) -/

/-- The queues and trackers that must be empty for Idle. -/
def State.idleQuiet (s : State) : Bool :=
  s.reqs.isEmpty && s.quiet && s.piers.all (fun x => x.2.wq.isEmpty && x.2.wbuf.isEmpty && x.2.open_.isEmpty) &&
    !s.flag 4 Reg.HUB_COH_CTL_FLUSH_BUSY

/-- IDLE_ENTRY (R372): the sender says that the links are in L1, that no engine timer is near, and that all has held for
ENTRY_US. -/
def execIdleEntry (s : State) : Host.Outcome State Fault Refusal :=
  if !s.ready || s.pwr.state != 0 || s.pwr.trans != 0 || s.pwr.warm || !s.flag pgPwr Reg.PWR_CTL_IDLE_EN || !s.idleQuiet then .next s
  else
    let s := ({ s.selfRefresh with pwr := { s.pwr with state := 1 } } : State).put pgPwr Reg.PWR_STAT_STATE 1
    .next (s.bump pgPwr Reg.PWR_IDLE_CNT_COUNT Reg.PWR_IDLE_CNT_SAT 1)

/-- IDLE_EXIT (R372). -/
def execIdleExit (s : State) : Host.Outcome State Fault Refusal := .next s.leaveIdle

/-! ### Rails and the thermal trip (R420 to R422, R427) -/

/-- RAIL_FAULT (R422): both enables fall, and nothing is saved. A start fails when a rail misses its window or faults within 1 s;
after three in a row the enables stay low. -/
def execRailFault (s : State) : Host.Outcome State Fault Refusal :=
  let p := s.pwr
  if !p.enMem then .next s
  else
    let failed := !s.rails || decide (s.time ≤ 1000000000)
    let n := if failed then p.failedStarts + 1 else 0
    .next (s.unpowered { State.reset.pwr with state := 4, addrSel := p.addrSel, failedStarts := n, waitRestart := n < 3 })

/-- RAIL_RESTART (R422): 100 ms later the power-up starts again. -/
def execRailRestart (s : State) : Host.Outcome State Fault Refusal :=
  .next (if s.pwr.waitRestart then s.coldBoot else s)

/-- The trip temperature of the part (R427). -/
def State.tripAt (s : State) : Nat := match s.img with | some i => if i.gradeE then 120 else 115 | none => 115

/-- THERMTRIP (R427): latched until SYS_RESET_N or VDD_AON; both enables fall, and nothing is saved. -/
def execThermtrip (t : BitVec 8) (s : State) : Host.Outcome State Fault Refusal :=
  if !s.rails || !s.pwr.enMain || decide (t.toNat < s.tripAt) then .next s
  else .next (s.unpowered { State.reset.pwr with state := 4, addrSel := s.pwr.addrSel, thermtrip := true })

end Sys2Proof.Machine
end

