-- ==== Sys2Proof/Machine/Reset.lean ====
section
/-!
DEFINITION. The causes of a cold reset and the start of a warm reset (R395, R396), VDD_AON and the rails (R418, R420, R422).
-/
namespace Sys2Proof.Machine

/-- A cold reset (R395) while the always-on logic runs: the thermal latch and the failed starts are left as given. -/
def State.coldFrom (s : State) (failed : Nat) : State :=
  ({ s with pwr := { State.reset.pwr with addrSel := s.pwr.addrSel, failedStarts := failed } } : State).coldBoot

/-- VDD_AON_UP (R395, R418, R420): the sideband address is read once, and a cold boot starts. -/
def execVddAonUp (addrSel : Fin 4) (s : State) : Host.Outcome State Fault Refusal :=
  if s.aon then .next s
  else .next (({ s with aon := true, pwr := { State.reset.pwr with addrSel := addrSel.val } } : State).coldFrom 0)

/-- VDD_AON_OFF (R380, R406): nothing is powered. -/
def execVddAonOff (s : State) : Host.Outcome State Fault Refusal :=
  .next (({ s with aon := false } : State).unpowered State.reset.pwr)

/-- SYS_RESET_N (R395, R422, R427): it also ends the thermal latch and the wait after failed starts. -/
def execSysResetN (s : State) : Host.Outcome State Fault Refusal := .next (if s.aon then s.coldFrom 0 else s)

/-- TRUSS_CTL.COLD written (R395): reachable once the Truss page runs, outside Sleep and Deep Sleep. -/
def State.writeCold (s : State) : State := if s.rails && s.awake then s.coldFrom s.pwr.failedStarts else s

/-- COLD (R395). -/
def execCold (s : State) : Host.Outcome State Fault Refusal := .next s.writeCold

/-- A warm reset starts (R396 steps 1 and 2): ports stop accepting, links go down, and the directory flush begins. -/
def State.startWarm (s : State) : State :=
  let s := { s.leaveIdle with pwr := { s.leaveIdle.pwr with warm := true } }
  ((pick 8 (fun k => s.linkUp k)).foldl (fun (s : State) (k : Nat) => s.dlDown k) s).dirFlush

/-- TRUSS_CTL.WARM written (R396): accepted in Run or Idle, with no boot and no transition in progress. -/
def State.writeWarm (s : State) : State :=
  if !s.ready || !s.awake || s.pwr.trans != 0 || s.pwr.warm then s.put 0 Reg.TRUSS_BOOT_STAT_WARM_REFUSED 1 else s.startWarm

/-- WARM (R396): reachable as TRUSS_CTL is. -/
def execWarm (s : State) : Host.Outcome State Fault Refusal := .next (if s.rails && s.awake then s.writeWarm else s)

/-- RAILS_CONFIRMED (R358, R390, R420): with every rail in range and a REFCLK present, the lowest-numbered present one becomes
the root, and the boot reaches step 2. -/
def execRailsConfirmed (s : State) : Host.Outcome State Fault Refusal :=
  if !s.aon || s.rails || !s.pwr.enMem || !s.pwr.enMain then .next s
  else
    match (List.range 8).find? (fun k => s.candPresent k) with
    | some k => .next ((({ s with rails := true } : State).setRoot k).put 0 Reg.TRUSS_BOOT_STAT_STAGE 2)
    | none => .next s

end Sys2Proof.Machine
end

