-- ==== Sys2Proof/Machine/Aperture.lean ====
section
/-!
DEFINITION. The register aperture (R398 to R402, R408, R411): which fields a page has, what each reads, what a write of a word
does, the wide registers with their snapshots, the DA window (R412, R413), and the VI pages of a host LD (R227, R414).
-/
namespace Sys2Proof.Machine

/-! ### Pages (R399, R408) -/

/-- Viaduct, port and Pier pages. -/
def isVdtPage (pg : Nat) : Bool := 0x10 ≤ pg && pg < 0x24
def isPortPage (pg : Nat) : Bool := 0x28 ≤ pg && pg < 0x30
def isPierPage (pg : Nat) : Bool := 0x30 ≤ pg && pg < 0x40

/-- The pages that the aperture allocates (R399). -/
def pageKnown (pg : Nat) : Bool := pg ≤ 0xC || isVdtPage pg || isPortPage pg || isPierPage pg

/-- The fields of a page from 0x040 on. -/
def ownFields (pg : Nat) : List Fld :=
  match pg with
  | 0 => Reg.trussFields | 1 => Reg.spanFields | 2 => Reg.xlatFields | 3 => Reg.keyFields | 4 => Reg.cohFields
  | 5 => Reg.hubViFields | 6 => Reg.pacerFields | 7 => Reg.engFields | 8 => Reg.mbxFields | 9 => Reg.telFields
  | 0xA => Reg.clkFields | 0xB => Reg.pwrFields | 0xC => Reg.dawFields
  | _ => if isVdtPage pg then Reg.vdtFields else if isPortPage pg then Reg.portFields
         else if isPierPage pg then Reg.pierFields else []

/-- The fields of a page, its header first. -/
def pageFields (pg : Nat) : List Fld :=
  if pageKnown pg then Reg.headerFields (pageSources pg).length ++ ownFields pg else []

/-- BLOCK_ID.TYPE and INSTANCE (R399, R408). -/
def blockType (pg : Nat) : Nat :=
  if pg ≤ 0xC then pg + 1 else if isVdtPage pg then (if pg < 0x20 then 0x10 else 0x11) else if isPortPage pg then 0x20 else 0x30
def blockInstance (pg : Nat) : Nat :=
  if pg ≤ 0xC then 0 else if isVdtPage pg then pg - 0x10 else if isPortPage pg then pg - 0x28 else pg - 0x30

/-- The sequencer of a port or Pier page. -/
def pageSeq (pg : Nat) : Nat := if isPierPage pg then pg - 0x30 else 16 + (pg - 0x28)

/-- BLOCK_STAT.ACTIVE (R408). -/
def State.blockActive (s : State) (pg : Nat) : Bool :=
  if isVdtPage pg then s.fld pg Reg.VDT_STAT_STATE == 1
  else if isPortPage pg then s.linkUp (pg - 0x28) && s.portSeq (pg - 0x28)
  else if isPierPage pg then s.flag pg Reg.PIER_DCTL_CH_EN && s.pierSeq (pg - 0x30)
  else if pg = 0 then s.rails else s.ready

/-- BLOCK_STAT.OFFLINE (R408). -/
def State.blockOffline (s : State) (pg : Nat) : Bool :=
  if isVdtPage pg then s.fld pg Reg.VDT_STAT_STATE == 5
  else if isPortPage pg then (s.prt (pg - 0x28)).lost
  else if isPierPage pg then s.offline (pg - 0x30) else false

/-- BLOCK_STAT.HALTED (R408). -/
def State.blockHalted (s : State) (pg : Nat) : Bool :=
  (isPortPage pg || isPierPage pg) && s.flag pg (Reg.SEQ_CTL_HALTED (seqBase (pageSeq pg)))

/-! ### What fields read -/

/-- A header field. -/
def State.viewHeader (s : State) (pg : Nat) (f : Fld) : Nat :=
  if f = Reg.BLOCK_ID_TYPE then blockType pg
  else if f = Reg.BLOCK_ID_INSTANCE then blockInstance pg
  else if f = Reg.BLOCK_STAT_ACTIVE then b2n (s.blockActive pg)
  else if f = Reg.BLOCK_STAT_OFFLINE then b2n (s.blockOffline pg)
  else if f = Reg.BLOCK_STAT_HALTED then b2n (s.blockHalted pg)
  else if f = Reg.BLOCK_STAT_CAP_VALID then b2n (SMap.get? s.errCap pg).isSome
  else s.fld pg f

/-- A field of the key page (R191). -/
def State.viewKey (s : State) (f : Fld) : Nat :=
  let e := SMap.getD s.kmap (s.fld 3 Reg.HUB_KMAP_IDX_GIB) 0
  let k := (f.off - 0x100) / 0x20
  let sl := s.slot k
  if f = Reg.HUB_KMAP_DATA_SLOT then e % 16
  else if f = Reg.HUB_KMAP_DATA_EN then bits e 4 1
  else if f = Reg.HUB_KMAP_DATA_RANK then bits e 8 14
  else if f.off < 0x100 ∨ 0x300 ≤ f.off then s.fld 3 f
  else if f = Reg.HUB_KSLOT_STAT_MODE k then sl.mode
  else if f = Reg.HUB_KSLOT_STAT_STATE k then sl.st
  else if f = Reg.HUB_KSLOT_STAT_EXHAUST_WARN k then b2n sl.exhaust
  else if f = Reg.HUB_KSLOT_STAT_TREE_LOST k then b2n (sl.allLost || !sl.lostList.isEmpty)
  else if f = Reg.HUB_KSLOT_STAT_TRUSTED k then b2n sl.trusted
  else if f = Reg.HUB_KSLOT_STAT_LOST k then min 64 sl.lostList.length
  else if f = Reg.HUB_KSLOT_TREE_GRANULES k then s.granules k
  else s.fld 3 f

/-- A field of the coherence page (R214). -/
def State.viewCoh (s : State) (f : Fld) : Nat :=
  if f = Reg.HUB_COH_STAT_TRK_BUSY then s.trackers
  else if f = Reg.HUB_COH_STAT_SWEEP_ACTIVE then b2n ((List.range 8).any (fun k => (s.prt k).sweep))
  else if f = Reg.HUB_DIR_STAT_VALID then s.dir.length
  else if f = Reg.HUB_DIR_STAT_DIRTY then (s.dir.filter (fun x => x.2.dirty)).length
  else if f = Reg.HUB_DIR_STAT_PINNED then (s.dir.filter (fun x => x.2.t2)).length
  else s.fld 4 f

/-- A field of the Pacer page (R277). -/
def State.viewPacer (s : State) (f : Fld) : Nat :=
  let k := (f.off - 0x60) / 4
  if f = Reg.PACER_STAT_URG3 then maskOf 8 (fun k => (s.prt k).urgLevel == 3)
  else if f = Reg.PACER_STAT_HOT_ANY then (pick 16 (fun n => s.flag pgPacer (Reg.PACER_PIER_HOT n))).length
  else if k < 8 ∧ f = Reg.PACER_PORT_URG k then (s.prt k).urgLevel
  else s.fld pgPacer f

/-- Complete records in the journal's sectors (R332, R333). -/
def State.jnlHeld (s : State) : Nat :=
  ((List.range 11).map (fun i =>
    if ofLe (s.flashBytes (jnlSector i) 4) = 0x4A4E4C4B
    then ((List.range 127).filter (fun j => s.flashByte (jnlSector i + 32 * (j + 1) + 5) == 0)).length else 0)).sum

/-- A field of the engine page (R336), for the engine and the source that the index registers name. -/
def State.viewEng (s : State) (f : Fld) : Nat :=
  let e := s.fld pgHub Reg.HUB_ENG_IDX_ENGINE
  let g := s.eng e
  let i := s.fld pgHub Reg.HUB_EVT_MISSED_IDX_SOURCE
  if f = Reg.HUB_ENG_CTL_HALT then b2n g.halt
  else if f = Reg.HUB_ENG_CTL_FENCED then b2n g.fenced
  else if f = Reg.HUB_ENG_CTL_RUNNING then b2n g.running
  else if f = Reg.HUB_ENG_CTL_RESTARTS then min 255 (s.recentRestarts e).length
  else if f = Reg.HUB_ENG_DOORBELL_BELLS then g.doorbell
  else if f = Reg.HUB_ENG_IEI_MASK_ALLOW then g.mask
  else if f = Reg.HUB_ENG_IEI_FAIL_FAILED then g.failed
  else if f = Reg.HUB_EVT_MQ_PTR_HEAD then s.mq.head
  else if f = Reg.HUB_EVT_MQ_PTR_TAIL then s.mq.tail
  else if f = Reg.HUB_EVT_MISSED_COUNT then SMap.getD s.missed i 0
  else if f = Reg.HUB_EVT_MISSED_MAX then b2n (s.missedMax.contains i)
  else if f = Reg.HUB_JNL_HELD then s.jnlHeld
  else if f = Reg.HUB_JNL_BUF then s.jnl.buf.length
  else if f = Reg.HUB_TIME_NS then s.time
  else s.fld pgHub f

/-- The clock of a domain runs (R364, R370): powered, outside a stop of the power state, and its block's gate open. -/
def State.domRuns (s : State) (d : Nat) : Bool :=
  let st := s.pwr.state
  let shut := if 1 ≤ d ∧ d < 5 then s.gateShut (4 + d) else if 8 ≤ d ∧ d < 16 then s.gateShut (1 + d)
    else if 16 ≤ d ∧ d < 32 then s.gateShut (1 + d) else false
  s.rails && !shut &&
    (if st = 0 then true
     else if st = 1 then !(d < 6 || (16 ≤ d && d < 32) || 48 ≤ d)
     else st = 2 && (d = 6 || d = 7 || (8 ≤ d && d < 16 && s.linkUp (d - 8))))

/-- A PLL is a DRAM PLL, and its Pier (R384). -/
def dramPll (p : Nat) : Option Nat := if p < 4 ∨ (p - 4) % 5 = 0 then none else some (4 * ((p - 4) / 5) + (p - 4) % 5 - 1)

/-- A field of the clock page (R384). -/
def State.viewClk (s : State) (f : Fld) : Nat :=
  let d := (f.off - 0x100) / 4
  let p := (f.off - 0x200) / 4
  if f = Reg.CLK_ROOT_STAT_UNQUALIFIED then b2n s.unqualified
  else if f = Reg.CLK_ROOT_STAT_PRESENT then s.clk.present
  else if f = Reg.CLK_GATE_CTL_CLOSED then b2n (s.gateShut s.gateNode)
  else if f = Reg.CLK_GATE_CTL_PENDING then b2n s.clk.pendNode.isSome
  else if 0x100 ≤ f.off ∧ f = Reg.CLK_DOM_RUNNING d then b2n (s.domRuns d)
  else if 0x200 ≤ f.off ∧ f = Reg.CLK_PLL_LOCK p then b2n (s.clocked && !s.flag pgClk Reg.CLK_ROOT_STAT_HOLDOVER)
  else if 0x200 ≤ f.off ∧ f = Reg.CLK_PLL_HOLD p then s.fld pgClk Reg.CLK_ROOT_STAT_HOLDOVER
  else if 0x200 ≤ f.off ∧ f = Reg.CLK_PLL_MULT p then
    (match dramPll p with
     | some n => s.fld (pgPier n) Reg.PIER_SPEED_RATE / 200
     | none => s.fld pgClk f)
  else s.fld pgClk f

/-- A port asserts Hk_CLKREQ_N: its link is up, or its REFCLK is the root or the armed backup (R258). DEDUCED (log entry 113). -/
def State.clkReq (s : State) (k : Nat) : Bool :=
  s.linkUp k || (s.clocked && (k == s.root || (s.armed && k == s.backup)))

/-- A field of a port page (R104, R215, R335). -/
def State.viewPort (s : State) (k : Nat) (f : Fld) : Nat :=
  let held := (s.reqs.filter (fun x => x.2.port == k && x.2.phase.held)).length
  let q := s.sqr (16 + k)
  if f = Reg.PORT_XLAT_STAT_WALKS then (s.walks.filter (fun x => x.2.port == k)).length
  else if f = Reg.PORT_XLAT_STAT_HELD then held
  else if f = Reg.PORT_XLAT_STAT_HOLD_FULL then b2n (decide (256 ≤ held))
  else if f = Reg.PORT_BI_STAT_OUTSTANDING then (s.snoops.filter (fun x => x.port == k && x.sent)).length
  else if f = Reg.PORT_PINS_CLKREQ_N then b2n (!s.clkReq k)
  else if f = Reg.SEQ_TBL_DATA_STEP 0x380 then (q.table.getD (s.fld (pgPort k) (Reg.SEQ_TBL_IDX_STEP 0x380)) 0).toNat
  else s.fld (pgPort k) f

/-- PIER_SPARE_BOUND (R78). -/
def State.spareBound (s : State) (n : Nat) : Nat :=
  let st := s.fld (pgPier n) Reg.PIER_SPARE_CTL_STATE
  if st = 0 ∨ st = 5 then 0 else if st = 3 then s.rankLines n else (s.pier n).bound

/-- A field of a Pier page (R45, R78, R159, R192, R335). COUNT of PIER_RANK_UE_r stays at 255, and shows the bucket of the current hour
where UE_WINDOW_H is 0; PINNED stays at 255 (DESIGN CHOICE, log entry 92). -/
def State.viewPier (s : State) (n : Nat) (f : Fld) : Nat :=
  let pg := pgPier n
  let p := s.pier n
  let r := (f.off - 0x420) / 4
  let mine := s.cc.filter (fun x => s.ctrPier (s.ctrDa x.2.slot x.2.lvl x.2.idx) == n)
  if f = Reg.PIER_CE_HEAD_NEXT then p.ceHead
  else if r < 8 ∧ f = Reg.PIER_RANK_UE_COUNT r then
    min 255 (ueSum (SMap.getD p.ueB r []) (s.fld (pgPier (s.servedPier n r)) Reg.PIER_LIU_CTL_UE_WINDOW_H - 1))
  else if f = Reg.PIER_TRAIN_FROZEN then b2n (s.coast || s.fld pg Reg.PIER_TRAIN_PERIOD_MS == 0)
  else if f = Reg.PIER_SPARE_BOUND_LINE then s.spareBound n
  else if f = Reg.PIER_PS_STAT_FREE_Q then p.freeQ.length
  else if f = Reg.PIER_PS_STAT_OPEN then min 16 p.open_.length
  else if f = Reg.PIER_PS_STAT_WBUF then min 32 (s.wbufUsed n)
  else if f = Reg.PIER_PS_STAT_WBUF_FULL then b2n (decide (32 ≤ s.wbufUsed n))
  else if f = Reg.PIER_CCACHE_STAT_DIRTY then (mine.filter (fun x => x.2.dirty)).length
  else if f = Reg.PIER_CCACHE_STAT_PINNED then min 255 (mine.filter (fun x => x.2.ovf.isSome)).length
  else if f = Reg.SEQ_TBL_DATA_STEP 0x900 then ((s.sqr n).table.getD (s.fld pg (Reg.SEQ_TBL_IDX_STEP 0x900)) 0).toNat
  else s.fld pg f

/-- What a field reads; WO fields read 0 (R8). -/
def State.view (s : State) (pg : Nat) (f : Fld) : Nat :=
  if f.ty = .wo then 0
  else if f.off < 0x40 then s.viewHeader pg f
  else
    match pg with
    | 3 => s.viewKey f
    | 4 => s.viewCoh f
    | 5 => if f = Reg.HUB_VI_STAT_USED then (s.vis.filter (fun x => x.2.st != .free)).length else s.fld 5 f
    | 6 => s.viewPacer f
    | 7 => s.viewEng f
    | 0xA => s.viewClk f
    | _ =>
      if isPortPage pg then s.viewPort (pg - 0x28) f
      else if isPierPage pg then s.viewPier (pg - 0x30) f
      else if 0x20 ≤ pg && f = Reg.VDT_STAT_SPEED then 1
      else s.fld pg f

/-! ### Wide registers (R401) -/

/-- A ring entry of correctable events (R45). -/
def ceEntry (e : List Nat) : Nat :=
  match e with
  | [line, rank, sub, kind, seed, t] =>
    layout [(0, 42, line), (42, 3, rank), (45, 1, sub), (46, 1, kind), (47, 1, 1), (48, 16, seed), (64, 64, t)]
  | _ => 0

/-- The wide register that a page offset lies in: its offset, its length in bytes, and its value. -/
def State.wide (s : State) (pg o : Nat) : Option (Nat × Nat × Nat) :=
  if 0x20 ≤ o ∧ o < 0x40 then
    some (0x20, 32, match SMap.get? s.errCap pg with | some r => r.pack | none => 0)
  else if pg = 5 ∧ 0x80 ≤ o ∧ o < 0xC0 then some (0x80, 64, (s.vi (s.fld 5 Reg.HUB_VI_CTX_IDX_TAG)).pack)
  else if pg = 8 ∧ 0x200 ≤ o then
    let k := (o - 0x200) / 0x200
    let x := (o - 0x200) % 0x200
    let m := s.mbox k
    if 0x40 ≤ x ∧ x < 0x100 then some (0x240 + 0x200 * k, 192, ofLe m.req)
    else if 0x100 ≤ x then some (0x300 + 0x200 * k, 256, ofLe m.rsp) else none
  else if isPierPage pg ∧ 0x500 ≤ o ∧ o < 0x600 then
    some (16 * (o / 16), 16, ceEntry (SMap.getD (s.pier (pg - 0x30)).ce ((o - 0x500) / 16) []))
  else none

/-- The telemetry counter whose registers lie at a page offset (R354). -/
def telAt (pg o : Nat) : Option Nat :=
  if pg = 9 then (if 0x100 ≤ o ∧ o < 0x900 then some ((o - 0x100) / 16) else none)
  else if isPortPage pg then (if 0x400 ≤ o ∧ o < 0x700 then some (128 + 48 * (pg - 0x28) + (o - 0x400) / 16) else none)
  else if isPierPage pg then (if 0xA00 ≤ o ∧ o < 0xC00 then some (512 + 32 * (pg - 0x30) + (o - 0xA00) / 16) else none)
  else none

/-- A 32-bit word at an aligned page offset, wide registers apart. -/
def State.word (s : State) (pg o : Nat) : Nat :=
  match telAt pg o with
  | some i =>
    if o % 16 < 8 then bits (s.telSelect i) (8 * (o % 8)) 32 else bits (s.telValue i) (8 * (o % 8)) 32
  | none =>
    (((pageFields pg).filter (fun f => f.off ≤ o && o < f.off + 8)).map (fun f =>
      bits (s.view pg f % 2 ^ f.width * 2 ^ f.lo) (8 * (o - f.off)) 32)).foldl (fun a b => a ||| b) 0

/-- A read of 4 or 8 bytes at an aligned offset of a page: the first word of a wide register takes its snapshot. -/
def State.pageRead (s : State) (pg o size : Nat) : State × Nat :=
  match s.wide pg o with
  | some (base, _, v) =>
    let key := 4096 * pg + base
    let s := if o = base then { s with snap := SMap.put s.snap key v } else s
    (s, bits (SMap.getD s.snap key v) (8 * (o - base)) (8 * size))
  | none => (s, s.word pg o + (if size = 8 then 2 ^ 32 * s.word pg (o + 4) else 0))

/-! ### What writes do (R8, R411) -/

/-- A field written by a write of w bits at lo of its register, with the written bits of v in place. A counter's SAT clears its
COUNT too. -/
def State.writeFld (s : State) (pg : Nat) (f : Fld) (lo w v : Nat) : State :=
  if f.lo + f.width ≤ lo ∨ lo + w ≤ f.lo then s
  else
    let old := s.fld pg f
    let new := bits (setBits (old * 2 ^ f.lo) lo w (bits v lo w)) f.lo f.width
    let ones := bits (bits v lo w * 2 ^ lo) f.lo f.width
    match f.ty with
    | .rw | .rws => s.put pg f new
    | .rwl => if s.locked then s else s.put pg f new
    | .w1s => s.put pg f (old ||| ones)
    | .w1c =>
      let s := s.put pg f (old - (old &&& ones))
      if f.lo = 31 && ones != 0 then s.put pg ⟨f.off, 0, 31, .ro, 0⟩ 0 else s
    | .ro | .wo => s

/-- The plain effect of a write on the fields of a register. -/
def State.writeFields (s : State) (pg r lo w v : Nat) : State :=
  ((pageFields pg).filter (fun f => f.off == r)).foldl (fun (s : State) (f : Fld) => s.writeFld pg f lo w v) s

/-- HUB_LAP_CTL (R336): PASS, and RESTART with the outcome of its signature check. -/
def State.writeLapHub (s : State) (v : Nat) : State :=
  let r := bits v 4 4
  if s.coast then (if r = 0 then s else (s.writeRestart r (Config.sigCheck s.free)).tick)
  else if v.testBit 3 then s.writePass else s

/-- CLK_ROOT_CTL (R359, R360). -/
def State.writeRootCtl (s : State) (v : Nat) : State :=
  let s := (s.put pgClk Reg.CLK_ROOT_CTL_AUTO_ARM (bits v 7 1))
  let s := if v.testBit 8 then s.put pgClk Reg.CLK_ROOT_CTL_SEL_ERR 0 else s
  let s := if v.testBit 9 then s.put pgClk Reg.CLK_ROOT_CTL_ARM_ERR 0 else s
  let s := s.writeRootSel (bits v 0 3)
  let arm := v.testBit 6
  if arm && s.armed && s.backup == bits v 3 3 then s else s.writeArm (bits v 3 3) arm

/-- PWR_CTL (R371, R376, R377). -/
def State.writePwrCtl (s : State) (v : Nat) : State :=
  let s := (s.put pgPwr Reg.PWR_CTL_IDLE_EN (bits v 5 1)).put pgPwr Reg.PWR_CTL_SLEEP_TIMER_MS (bits v 16 16)
  let s := if v.testBit 3 then s.wakeBy 1 else s
  let s := if v.testBit 4 then s.skipOffSave else s
  let r := bits v 0 3
  if 2 ≤ r ∧ r ≤ 4 then s.pwrReq r else s

/-- An engine's mask, and its failed sends (R336). -/
def State.writeIei (s : State) (fail : Bool) (lo w v : Nat) : State :=
  let e := s.fld pgHub Reg.HUB_ENG_IDX_ENGINE
  let g := s.eng e
  if fail then s.setEng e { g with failed := g.failed - (g.failed &&& (bits v lo w * 2 ^ lo)) }
  else s.setEng e { g with mask := setBits g.mask lo w (bits v lo w) }

/-- A write of a register of a hub page with an action of its own; none where the write is plain. -/
def State.hubAct (s : State) (pg r lo w v : Nat) (path : Path) : Option State :=
  match pg with
  | 0 => if r = 0x48 then some (if v.testBit 1 then s.writeCold else if v.testBit 0 then s.writeWarm else s) else none
  | 3 =>
    if r = 0x80 then some (s.writeKeyLoad v)
    else if r = 0x84 then some (s.writeKeyClear v)
    else if r = 0x8C then some (s.writeKmap v)
    else if 0x100 ≤ r then
      let k := if r < 0x300 then (r - 0x100) / 0x20 else (r - 0x400) / 0x80
      if (s.slot k).st = 1 ∨ (s.slot k).st = 2 then none else some s
    else none
  | 4 => if r = 0x44 then some (if v.testBit 0 then s.dirFlush else s) else none
  | 6 =>
    if r = 0x40 then some (s.writePacerCtl v)
    else if 0x60 ≤ r ∧ r < 0x80 then some (s.writePortGuar ((r - 0x60) / 4) v) else none
  | 7 =>
    if r = 0x40 then some (s.writeLapHub v)
    else if r = 0x48 then some (match path with | .engine e => s.lapBeat e.val | _ => s)
    else if r = 0x54 then some (s.writeEngCtl v)
    else if r = 0x60 then some (s.writeIei false lo w v)
    else if r = 0x68 then some (s.writeIei true lo w v)
    else if r = 0x88 then some (s.managerTail (bits v 16 12))
    else if r = 0x94 then some (if v.testBit 31 then s.clearMissed else s) else none
  | 8 => if 0x200 ≤ r ∧ r % 0x200 = 0 then some (s.writeMbxCmd ((r - 0x200) / 0x200) v) else none
  | 9 =>
    if r = 0x40 then some (s.writeLapCtl v)
    else if r = 0x50 then
      let s := s.put pgTel Reg.TEL_FREEZE_FREEZE (bits v 0 1)
      some (if v.testBit 1 then s.telClear else s)
    else none
  | 0xA =>
    if r = 0x40 then some (s.writeRootCtl v)
    else if 0x200 ≤ r ∧ r < 0x260 then (if (dramPll ((r - 0x200) / 4)).isSome then some s else none)
    else if r = 0x304 then
      let s := s.writeFields pgClk r lo w v
      some (if v.testBit 0 then s.writeClose else if v.testBit 1 then s.writeOpen else s)
    else none
  | 0xB => if r = 0x40 then some (s.writePwrCtl v) else none
  | _ => none

/-- A write of a register of a viaduct, port or Pier page with an action of its own. -/
def State.blockAct (s : State) (pg r lo w v : Nat) : Option State :=
  if isVdtPage pg then
    if r = 0x40 then
      let s := s.writeFields pg r lo w v
      some (if v.testBit 2 then s.vdtRetry (pg - 0x10) else s)
    else none
  else if isPortPage pg then
    if r = 0x314 then some (if v.testBit 0 then s.invGo (pg - 0x28) true else s)
    else if r = 0x318 then some (if v.testBit 0 then s.invGo (pg - 0x28) false else s) else none
  else
    let n := pg - 0x30
    if r = 0x48 then
      let s := s.writeFields pg r lo w v
      some (if v.testBit 17 then s.doSwitch n else s)
    else if 0x60 ≤ r ∧ r < 0x160 then some (s.writeTiming n ((r - 0x60) / 0x80) ((r - 0x60) % 0x80) v)
    else if r = 0x200 then
      let s := s.writeFields pg r lo w v
      some (if v.testBit 19 then s.retireUncopied n else s)
    else if r = 0x400 then some (s.writeLiuCtl n v)
    else if r = 0x610 then some (s.sampleTail n (bits v 16 13))
    else if r = 0x718 then some (s.psPush n v) else none

/-- A write of a header register with an action of its own (R408, R409). -/
def State.headAct (s : State) (pg r v : Nat) : Option State :=
  if r = 0x8 then some (if v.testBit 0 then s.rearm pg else s)
  else if r = 0x18 then some (s.writeForce pg v) else none

/-- A write of w bits at lo of the register at page offset r. -/
def State.regWrite (s : State) (pg r lo w v : Nat) (path : Path) : State :=
  match (if r < 0x40 then s.headAct pg r v else if pg ≤ 0xC then s.hubAct pg r lo w v path else s.blockAct pg r lo w v) with
  | some s' => s'
  | none => s.writeFields pg r lo w v

/-- The register at an offset is 64 bits wide. -/
def reg64 (pg r : Nat) : Bool := (pageFields pg).any (fun f => f.off == r && 32 < f.lo + f.width)

/-- A 4-byte write: a whole register, or half of a 64-bit one. -/
def State.writeWord (s : State) (pg o v : Nat) (path : Path) : State :=
  if 4 ≤ o ∧ reg64 pg (o - 4) then s.regWrite pg (o - 4) 32 32 (2 ^ 32 * (v % 2 ^ 32)) path
  else s.regWrite pg o 0 32 (v % 2 ^ 32) path

/-- Bytes of a list replaced from a position. -/
def patch (n : Nat) (l : List Nat) (i : Nat) (bs : List Nat) : List Nat :=
  let l := padTo n l
  (l.take i ++ bs ++ l.drop (i + bs.length)).take n

/-- A write of a key stage word, or of a mailbox request; it takes the place of what a snapshot showed. -/
def State.wideWrite (s : State) (pg o size v : Nat) : Option State :=
  if pg = 3 ∧ 0x40 ≤ o ∧ o < 0x80 then some { s with stage := patch 64 s.stage (o - 0x40) (leBytes size v) }
  else
    match s.wide pg o with
    | some (base, n, _) =>
      if pg = 8 ∧ n = 192 then
        let k := (o - 0x200) / 0x200
        let m := s.mbox k
        some { s with mbx := SMap.put s.mbx k { m with req := patch 192 m.req (o - base) (leBytes size v) },
                      snap := SMap.del s.snap (4096 * pg + base) }
      else some s
    | none => none

/-- A telemetry register written, whole or by half. -/
def State.telWrite (s : State) (i o size v : Nat) : State :=
  let old := if o % 16 < 8 then s.telSelect i else s.telValue i
  let new := setBits old (8 * (o % 8)) (8 * size) v
  if o % 16 < 8 then s.writeTelSel i new else s.writeTelCnt i new

/-- A write of 4 or 8 bytes at an aligned offset of a page: one access for a 64-bit register, else in ascending order (R401). -/
def State.pageWrite (s : State) (pg o size v : Nat) (path : Path) : State :=
  match s.wideWrite pg o size v with
  | some s' => s'
  | none =>
    match telAt pg o with
    | some i => s.telWrite i o size v
    | none =>
      if size = 4 then s.writeWord pg o v path
      else if reg64 pg o then s.regWrite pg o 0 64 v path
      else (s.writeWord pg o v path).writeWord pg (o + 4) (v / 2 ^ 32) path

/-! ### The DA window (R58, R412, R413) -/

/-- The requester of a window access: kind and number (R58). -/
def State.requester (s : State) (path : Path) : List Nat :=
  match path with
  | .bar => [3, s.mgrPort]
  | .engine e => [2, e.val]
  | _ => [4, 0]

/-- The FM-owned LD whose request a window access through the manager's BAR is (R251). -/
def State.windowFrom (s : State) (path : Path) : ReqFrom :=
  match path with
  | .bar => some (s.mgrPort, 16, none)
  | _ => none

/-- A window access as the filters of R340 see it: the manager's through its BAR or through Fenbo, else an engine's. -/
def State.windowFlt (s : State) (path : Path) (da : Nat) : Flt :=
  match path with
  | .engine _ => s.engFlt da
  | _ => s.mgrFlt da

/-- DA_UNMAPPED for a window access (R58). -/
def State.windowMiss (s : State) (da : Nat) (path : Path) : State :=
  s.raiseFor 5 0x10B ERROR none da (detail (s.requester path)) (s.windowFrom path)

/-- The DA that a window offset names. -/
def State.windowDa (s : State) (off : Nat) : Nat := 2 ^ 25 * s.fld 0xC Reg.HUB_DAW_BASE_BASE + off

/-- A window read that ends in poison. -/
def State.windowPoison (s : State) (size : Nat) : State × Nat :=
  (s.put 0xC Reg.HUB_DAW_BASE_POISON 1, 2 ^ (8 * size) - 1)

/-- A window read, as a non-caching agent's (R207): none where it has to wait. -/
def State.windowRead (s : State) (off size : Nat) (path : Path) (b : Bursts) : State × Option Nat :=
  let da := s.windowDa off
  if !s.flag 0xC Reg.HUB_DAW_BASE_EN then (s, some 0)
  else if (s.spanOf da).isNone then ((((s.windowMiss da path).windowPoison size).1), some (2 ^ (8 * size) - 1))
  else
    let line := 64 * (da / 64)
    match s.recall ((s.viOfDa line).getD 0) (s.primDa line / 64) false none with
    | (s, false) => (s, none)
    | (s, true) =>
      match s.readPlain line (s.seedOf line) b (s.windowFrom path) (some (s.windowFlt path line)) with
      | (s, .wait) => (s, none)
      | (s, .poison _) => ((s.windowPoison size).1, some (2 ^ (8 * size) - 1))
      | (s, .ok d) => (s, some (bits d.toNat (8 * (da % 64)) (8 * size)))

/-- A window write: an invalidating write (R205), merged with the line as a partial write (R27); false where it has to wait. One that its
counter refuses is reported (R177). -/
def State.windowWrite (s : State) (off size v : Nat) (path : Path) (b : Bursts) : State × Bool :=
  let da := s.windowDa off
  if !s.flag 0xC Reg.HUB_DAW_BASE_EN then (s, true)
  else if (s.spanOf da).isNone then (s.windowMiss da path, true)
  else
    let line := 64 * (da / 64)
    let seed := s.seedOf line
    let tier := (s.dramLine line 0).tier
    let put := fun (s : State) (d : BitVec 512) (poison : Bool) =>
      match s.writePlain line seed tier (BitVec.ofNat 512 (setBits d.toNat (8 * (da % 64)) (8 * size) v)) poison (0, 0, 0) 3
        (some (s.windowFlt path line)) with
      | (s, .wait) => (s, false)
      | (s, .refused) => (s.raiseRefused line, true)
      | (s, .ok) => (s.jobClear line, true)
    match s.jobRecall line with
    | (s, false) => (s, false)
    | (s, true) =>
      match s.readPlain line seed b (s.windowFrom path) (some (s.windowFlt path line)) with
      | (s, .wait) => (s, false)
      | (s, .poison d) => put s d true
      | (s, .ok d) => put s d false

/-! ### Accesses (R400 to R402, R406) -/

/-- What a path reaches: nothing, only the Truss page, the power page with CLK_ROOT_STAT, or all (R261, R311, R406). -/
inductive Reach where
  | none | truss | lowPower | all
  deriving DecidableEq, Repr

def State.reach (s : State) (path : Path) : Reach :=
  match path with
  | .bar => if s.awake && s.pwr.trans ≤ 1 && s.linkUp s.mgrPort then .all else .none
  | .engine e => if s.engOn && (s.eng e.val).running then .all else .none
  | .host _ _ => .none
  | .fenbo =>
    if !s.rails then .none
    else if s.pwr.state = 2 ∨ s.pwr.state = 3 then .lowPower
    else if s.pwr.state = 4 then .none
    else if s.ready then .all else .truss

/-- The aperture offset shows through a reach. -/
def Reach.shows (r : Reach) (off : Nat) : Bool :=
  match r with
  | .none => false
  | .truss => off < 0x1000
  | .lowPower => off / 4096 == 0xB || (0xA044 ≤ off && off < 0xA048)
  | .all => true

/-- An offset of the journal window (R399). -/
def inJournal (off : Nat) : Bool := 0x40000 ≤ off && off < 0x4B000

/-- A read at an aligned aperture offset; none where it has to wait. -/
def State.apRead (s : State) (off size : Nat) (path : Path) (b : Bursts) : State × Option Nat :=
  let s := s.leaveIdle
  if 0x2000000 ≤ off then s.windowRead (less off 0x2000000) size path b
  else if inJournal off then (s, some (ofLe (s.flashBytes (0x1000 + less off 0x40000) size)))
  else if s.pageShut (off / 4096) then (s.closedAccess, some 0)
  else ((s.pageRead (off / 4096) (off % 4096) size).1, some (s.pageRead (off / 4096) (off % 4096) size).2)

/-- A write at an aligned aperture offset; false where it has to wait. -/
def State.apWrite (s : State) (off size v : Nat) (path : Path) (b : Bursts) : State × Bool :=
  let s := s.leaveIdle
  if 0x2000000 ≤ off then s.windowWrite (less off 0x2000000) size v path b
  else if inJournal off then (s, true)
  else if s.pageShut (off / 4096) then (s.closedAccess, true)
  else (s.pageWrite (off / 4096) (off % 4096) size v path, true)

/-- An access by a path: misaligned, or to what the path does not show, it reads 0 (R400, R401). -/
def State.readAt (s : State) (off size : Nat) (path : Path) (b : Bursts) : State × Option Nat :=
  if off % size != 0 || 2 ^ 26 ≤ off || !(s.reach path).shows off then (s, some 0) else s.apRead off size path b

def State.writeAt (s : State) (off size v : Nat) (path : Path) (b : Bursts) : State × Bool :=
  if off % size != 0 || 2 ^ 26 ≤ off || !(s.reach path).shows off then (s, true) else s.apWrite off size v path b

/-! ### VI pages in a host LD's BAR (R227, R414) -/

/-- The wide registers of a VI page: its fault records. -/
def State.viRecord (s : State) (t i : Nat) : Nat :=
  (s.vi t).fq.at_ 64 i ((2 ^ 12 * s.fld 5 Reg.HUB_VI_FQ_BASE_BASE + 2048 * t) / 32 + i)

/-- The word of a VI page at an aligned offset. -/
def State.viWord (s : State) (t o : Nat) : Nat :=
  let v := s.vi t
  let tel := fun (i : Nat) => bits (v.tel.getD i 0) (8 * (o % 8)) 32
  match o with
  | 0 => 0x50 + 256 * t
  | 4 => 1 + 0xB1 * 256
  | 0x40 => t + 2 ^ 16 * v.st.code + 2 ^ 19 * b2n v.shared + 2 ^ 20 * b2n v.telPerm + 2 ^ 21 * b2n v.dirtyLog
  | 0x44 => v.assuredG + 2 ^ 16 * v.elasticG
  | 0x48 => v.fq.head + 2 ^ 8 * v.fq.tail + 2 ^ 16 * b2n v.irqEn
  | 0x4C => v.fqMissed + 2 ^ 16 * b2n v.fqMissedMax
  | 0x100 | 0x104 => tel 0
  | 0x108 | 0x10C => tel 1
  | 0x110 | 0x114 => tel 2
  | 0x118 | 0x11C => tel 3
  | 0x120 | 0x124 => tel 4
  | _ => 0

/-- A read of a VI page; its fault records are wide registers. -/
def State.viRead (s : State) (t o size : Nat) : State × Nat :=
  if 0x800 ≤ o then
    let key := 2 ^ 26 + 4096 * t + 32 * (o / 32)
    let v := s.viRecord t ((o - 0x800) / 32)
    let s := if o % 32 = 0 then { s with snap := SMap.put s.snap key v } else s
    (s, bits (SMap.getD s.snap key v) (8 * (o % 32)) (8 * size))
  else (s, s.viWord t o + (if size = 8 then 2 ^ 32 * s.viWord t (o + 4) else 0))

/-- A 4-byte write of a VI page: TAIL with IRQ_EN, CLEAR of the missed count, and the doorbell. -/
def State.viWrite (s : State) (t o v : Nat) : State :=
  match o with
  | 0x48 => (s.setVi t { (s.vi t) with irqEn := v.testBit 16 }).faultTail t (bits v 8 6)
  | 0x4C => if v.testBit 31 then s.setVi t { (s.vi t) with fqMissed := 0, fqMissedMax := false } else s
  | 0x50 => s.viDoorbell t (v % 2 ^ 32)
  | _ => s

/-- The VI page that an offset of an LD's BAR0 lies in, where it shows. -/
def State.barVi (s : State) (p ld off size : Nat) : Option Nat :=
  let t := (less off 0x1000000) / 4096
  if 0x1000000 ≤ off && off < 0x11000000 && off % size == 0 && s.viPage p ld t then some t else none

/-! ### Meanings -/

/-- Bytes of an access. -/
def sizeOf8 (size8 : Bool) : Nat := if size8 then 8 else 4

/-- The manager port's host touches its BAR while the Kenez sleeps: it wakes (R377), and the access waits. -/
def State.barAsleep (s : State) (path : Path) : Bool := path == .bar && s.linkUp s.mgrPort && s.pwrGoal == 2 && s.reach path == .none

/-- WIDE_REGISTER_READ (R401): any register read; the value read goes out. -/
def execWideRegisterRead (path : Path) (off : BitVec 29) (size8 : Bool) (s : State) : Host.Outcome State Fault Refusal :=
  let n := sizeOf8 size8
  if s.barAsleep path then .next (s.wakeBy 2)
  else
    match path with
    | .host p ld =>
      match s.barVi p.val ld.val off.toNat n with
      | some t => .next ((s.leaveIdle.viRead t (off.toNat % 4096) n).1.emit (.regData (s.leaveIdle.viRead t (off.toNat % 4096) n).2))
      | none => .next (s.emit (.regData 0))
    | _ =>
      match s.readAt off.toNat n path {} with
      | (s, some v) => .next (s.emit (.regData v))
      | (s, none) => .next s

/-- REGISTER_WRITE (R8, R401, R402). -/
def execRegisterWrite (path : Path) (off : BitVec 29) (size8 : Bool) (v : BitVec 64) (s : State) :
    Host.Outcome State Fault Refusal :=
  let n := sizeOf8 size8
  if s.barAsleep path then .next (s.wakeBy 2)
  else
    match path with
    | .host p ld =>
      match s.barVi p.val ld.val off.toNat n with
      | some t =>
        let o := off.toNat % 4096
        let s := s.leaveIdle.viWrite t o (v.toNat % 2 ^ 32)
        .next (if size8 then s.viWrite t (o + 4) (v.toNat / 2 ^ 32) else s)
      | none => .next s
    | _ => .next (s.writeAt off.toNat n (v.toNat % 2 ^ (8 * n)) path {}).1

/-- DA_WINDOW_READ (R413). -/
def execDaWindowRead (path : Path) (off : BitVec 25) (size8 : Bool) (b : Bursts) (s : State) :
    Host.Outcome State Fault Refusal :=
  if s.barAsleep path then .next (s.wakeBy 2)
  else
    match s.readAt (0x2000000 + off.toNat) (sizeOf8 size8) path b with
    | (s, some v) => .next (s.emit (.regData v))
    | (s, none) => .next s

/-- DA_WINDOW_WRITE (R413). -/
def execDaWindowWrite (path : Path) (off : BitVec 25) (size8 : Bool) (v : BitVec 64) (b : Bursts) (s : State) :
    Host.Outcome State Fault Refusal :=
  let n := sizeOf8 size8
  if s.barAsleep path then .next (s.wakeBy 2)
  else .next (s.writeAt (0x2000000 + off.toNat) n (v.toNat % 2 ^ (8 * n)) path b).1

end Sys2Proof.Machine
end

