-- ==== Sys2Proof/Machine/Sideband.lean ====
section
/-!
DEFINITION. Fenbo (R403 to R407): request frames and their checks, the operations, and the response frames.
-/
namespace Sys2Proof.Machine

/-! ### Frames (R404) -/

/-- A response frame. -/
def fenboFrame (status tag : Nat) (data : List Nat) : List Nat :=
  let b := [status, tag, data.length] ++ data
  b ++ [crc8 b]

/-- Fields of a request frame. -/
def frameOp (f : List Nat) : Nat := f.getD 0 0
def frameTag (f : List Nat) : Nat := f.getD 1 0
def frameAddr (f : List Nat) : Nat := ofLe ((f.drop 2).take 4)
def frameLen (f : List Nat) : Nat := f.getD 6 0
def frameData (f : List Nat) : List Nat := (f.drop 7).take (frameLen f)

/-- CHK matches. -/
def frameChk (f : List Nat) : Bool := crc8 f.dropLast == f.getLastD 256

/-- OP is known, LEN is one it allows, and the frame has the bytes that LEN names. -/
def frameOk (f : List Nat) : Bool :=
  let n := frameLen f
  match frameOp f with
  | 1 => (n == 4 || n == 8) && f.length == 8
  | 2 => (n == 4 || n == 8) && f.length == 8 + n
  | 3 => 1 ≤ n && n ≤ 64 && f.length == 8
  | 4 => 1 ≤ n && n ≤ 64 && f.length == 8 + n
  | 5 => n == 0 && f.length == 8
  | 6 => n == 0 && f.length == 8
  | _ => false

/-- ADDR fits the operation: aligned and inside the aperture, or inside the flash; a program stays in one flash page. -/
def frameAddrOk (f : List Nat) : Bool :=
  let a := frameAddr f
  let n := frameLen f
  match frameOp f with
  | 1 | 2 => a % n == 0 && a < 2 ^ 26
  | 3 => a + n ≤ 2 ^ 25
  | 4 => a < 2 ^ 25 && a % 256 + n ≤ 256
  | 5 => a < 2 ^ 25
  | _ => true

/-- The boot is halted (R394). -/
def State.bootHalted (s : State) : Bool := s.fld 0 Reg.TRUSS_BOOT_STAT_STAGE == 0xE

/-- A flash operation is one that the state gives (R404, R406). -/
def State.spiAllowed (s : State) (op : Nat) : Bool :=
  if op = 3 then s.pwr.state != 3 else if op = 4 ∨ op = 5 then s.bootHalted else true

/-- The target acknowledges its address: the clocks run, or VDD_AON alone in Deep Sleep (R406). -/
def State.fenboUp (s : State) : Bool := s.rails && s.pwr.state ≤ 3

/-- The error with which a request ends before anything is performed, or none. -/
def State.frameError (s : State) (f : List Nat) : Option Nat :=
  if !frameChk f then some 4
  else if !frameOk f then some 2
  else if !frameAddrOk f then some 3
  else if !s.spiAllowed (frameOp f) then some 5
  else none

/-! ### Requests (R404, R405) -/

/-- A request frame arrives: one runs at a time, and another is discarded. -/
def State.fenboTake (s : State) (f : List Nat) : State :=
  if !s.fenboUp || s.fenbo.run.isSome then s else { s with fenbo := { s.fenbo with run := some f, rsp := none } }

/-- A row of the table takes the frames that carry its OP. -/
def fenboRow (op : Nat) (f : List (BitVec 8)) (s : State) : Host.Outcome State Fault Refusal :=
  if !frameLenOk f then .fault .illFormed
  else
    let f := f.map BitVec.toNat
    .next (if frameOp f = op then s.fenboTake f else s)

/-- FENBO_RD (R404). -/
def execFenboRd (f : List (BitVec 8)) (s : State) : Host.Outcome State Fault Refusal := fenboRow 1 f s
/-- FENBO_WR (R404). -/
def execFenboWr (f : List (BitVec 8)) (s : State) : Host.Outcome State Fault Refusal := fenboRow 2 f s
/-- SPI_RD (R404). -/
def execSpiRd (f : List (BitVec 8)) (s : State) : Host.Outcome State Fault Refusal := fenboRow 3 f s
/-- SPI_PROG (R404). -/
def execSpiProg (f : List (BitVec 8)) (s : State) : Host.Outcome State Fault Refusal := fenboRow 4 f s
/-- SPI_ERASE (R404). -/
def execSpiErase (f : List (BitVec 8)) (s : State) : Host.Outcome State Fault Refusal := fenboRow 5 f s
/-- FENBO_STATUS (R404). -/
def execFenboStatus (f : List (BitVec 8)) (s : State) : Host.Outcome State Fault Refusal := fenboRow 6 f s

/-- BAD_OP (R404): a frame with an unknown OP, or a LEN not allowed for it. -/
def execBadOp (f : List (BitVec 8)) (s : State) : Host.Outcome State Fault Refusal :=
  if !frameLenOk f then .fault .illFormed
  else .next (if frameOk (f.map BitVec.toNat) then s else s.fenboTake (f.map BitVec.toNat))

/-! ### Ends (R405) -/

/-- The running request ends with a status and data; a reset that the request made leaves nothing to answer. -/
def State.fenboEnd (s : State) (f : List Nat) (status : Nat) (data : List Nat) : State :=
  if s.fenbo.run.isNone then s
  else { s with fenbo := { run := none, rsp := some (fenboFrame status (frameTag f) data),
                           last := if frameOp f = 6 then s.fenbo.last else status } }

/-- Bytes programmed as far as a failed program reached them. -/
def Memory.programPart (n : Nat) (m : List Host.Cell) : Nat → List Nat → List Host.Cell
  | _, [] => m
  | a, b :: bs =>
    Memory.programPart n (Memory.write m a (Memory.read m a &&& (BitVec.ofNat 8 b ||| Config.flashPart n a))) (a + 1) bs

/-- A sector as a failed erase leaves it. -/
def Memory.erasePart (n : Nat) (m : List Host.Cell) (sector : Nat) : List Host.Cell :=
  List.filter (fun (c : Host.Cell) => c.2 != 0xFF)
    (List.map (fun (c : Host.Cell) => if c.1 / 4096 = sector then (c.1, c.2 ||| Config.flashPart n c.1) else c) m)

/-- SPI_PROG and SPI_ERASE carried out, or failed. -/
def State.spiDo (s : State) (f : List Nat) (ok : Bool) : State :=
  let a := frameAddr f
  if frameOp f = 4 then
    if ok then { s with flash := Memory.program s.flash a (frameData f) }
    else ({ s with flash := Memory.programPart s.free s.flash a (frameData f) } : State).tick
  else if ok then { s with flash := Memory.erase s.flash (a / 4096) }
  else ({ s with flash := Memory.erasePart s.free s.flash (a / 4096) } : State).tick

/-- What the running request does. -/
def State.fenboRun (s : State) (f : List Nat) (flashOk : Bool) : State :=
  match s.frameError f with
  | some e => s.fenboEnd f e []
  | none =>
    let a := frameAddr f
    let n := frameLen f
    match frameOp f with
    | 1 =>
      match s.readAt a n .fenbo {} with
      | (s, some v) => s.fenboEnd f 0 (leBytes n v)
      | (s, none) => s
    | 2 =>
      match s.writeAt a n (ofLe (frameData f)) .fenbo {} with
      | (s, true) => s.fenboEnd f 0 []
      | (s, false) => s
    | 3 => s.fenboEnd f 0 (s.flashBytes a n)
    | 6 => s.fenboEnd f s.fenbo.last []
    | _ => (s.spiDo f flashOk).fenboEnd f (if flashOk then 0 else 6) []

/-- FENBO_OP_DONE (R405). -/
def execFenboOpDone (flashOk : Bool) (s : State) : Host.Outcome State Fault Refusal :=
  match s.fenbo.run with
  | some f => .next (if s.fenboUp then s.fenboRun f flashOk else s)
  | none => .next s

/-- FENBO_RESPONSE (R404, R405): BUSY while a request runs. -/
def execFenboResponse (s : State) : Host.Outcome State Fault Refusal :=
  if !s.fenboUp then .next s
  else
    match s.fenbo.run, s.fenbo.rsp with
    | some f, _ => .next (s.emit (.fenbo (fenboFrame 1 (frameTag f) [])))
    | none, some r => .next (s.emit (.fenbo r))
    | none, none => .next s

end Sys2Proof.Machine
end

