-- ==== Sys2Proof/Machine/Boot.lean ====
section
/-!
DEFINITION. The boot from the Truss image to media ready (R386 to R394), with the rank health record and the metadata pools, and
the end of a warm reset (R396).
-/
namespace Sys2Proof.Machine

/-! ### Stage 2 to 6: the image (R386 to R389) -/

/-- A halted boot with its cause (R394): host links are not trained in it. -/
def State.halt (s : State) (cause : Nat) : State :=
  let s := (pick 8 (fun k => s.linkUp k)).foldl (fun (s : State) (k : Nat) => s.dlDown k) s
  (s.put 0 Reg.TRUSS_BOOT_STAT_STAGE 0xE).put 0 Reg.TRUSS_BOOT_STAT_CAUSE cause

/-- The boot header's ACTIVE slot, where the header is whole (R386). -/
def State.bootSlot (s : State) : Option Nat :=
  let a := s.flashByte 4
  if ofLe (s.flashBytes 0 4) = 0x48424B54 ∧ a ≤ 1 then some a else none

/-- The image a boot takes: slot, whether it came from the second slot tried, and the image (R386, R388). -/
def State.chooseImage (s : State) (a b : Option Image) : Option (Nat × Bool × Image) :=
  match s.bootSlot with
  | some act =>
    let first := if act = 0 then a else b
    let second := if act = 0 then b else a
    (match first, second with
     | some i, _ => some (act, false, i)
     | none, some i => some (1 - act, true, i)
     | none, none => none)
  | none =>
    match a, b with
    | some x, some y => if x.seq.toNat < y.seq.toNat then some (1, false, y) else some (0, false, x)
    | some x, none => some (0, false, x)
    | none, some y => some (1, false, y)
    | none, none => none

/-! ### Acceptance (R387, R388) -/

/-- Little-endian bytes of an image slot, as a number. -/
def State.slotNat (s : State) (slot off n : Nat) : Nat := ofLe (s.flashBytes (0x100000 + 0xF00000 * slot + off) n)

/-- A section of an image: its type, where it lies and its CRC. -/
structure Section where
  kind : Nat
  off : Nat
  len : Nat
  crc : Nat
  deriving DecidableEq, Repr

/-- The sections that the header of a slot lists. -/
def State.slotSections (s : State) (slot : Nat) : List Section :=
  (List.range (s.slotNat slot 0x10 2)).map (fun i =>
    let a := 0x20 + 16 * i
    ⟨s.slotNat slot a 2, s.slotNat slot (a + 4) 4, s.slotNat slot (a + 8) 4, s.slotNat slot (a + 12) 4⟩)

/-- The header of a slot has the layout of R387, with the profile and the build sequence of the operand. -/
def State.slotHeader (s : State) (slot : Nat) (i : Image) : Bool :=
  let len := s.slotNat slot 0xC 4
  let n := s.slotNat slot 0x10 2
  s.slotNat slot 0 4 == 0x53535254 && s.slotNat slot 4 2 == 1 && s.slotNat slot 6 1 == i.profile.val &&
    s.slotNat slot 8 4 == i.seq.toNat && 1 ≤ n && n ≤ 64 && 0x20 + 16 * n + 256 ≤ len && len ≤ 0xF00000

/-- The register pairs that the register-list sections of a slot hold. -/
def State.slotPairs (s : State) (slot : Nat) : List (Nat × Nat) :=
  ((s.slotSections slot).filter (fun c => c.kind == 1)).flatMap (fun c =>
    (List.range (c.len / 8)).map (fun j => (s.slotNat slot (c.off + 8 * j) 4, s.slotNat slot (c.off + 8 * j + 4) 4)))

/-- Every section lies inside the image under its CRC, and register lists hold whole pairs: those of the operand. -/
def State.slotBody (s : State) (slot : Nat) (i : Image) : Bool :=
  (s.slotSections slot).all (fun c =>
    c.off + c.len ≤ s.slotNat slot 0xC 4 && c.crc == crc32c (s.flashBytes (0x100000 + 0xF00000 * slot + c.off) c.len) &&
      (c.kind != 1 || c.len % 8 == 0)) &&
    s.slotPairs slot == i.regs.map (fun x => (x.1.toNat, x.2.toNat))

/-- PUBKEY is the fused key, and SIG verifies under it over bytes 0 to LEN − 257 (R388). -/
def State.slotSigned (s : State) (slot : Nat) : Bool :=
  let base := 0x100000 + 0xF00000 * slot
  let len := s.slotNat slot 0xC 4
  let key := s.flashBytes (base + less len 256) 97
  let sig := s.flashBytes (base + less len 128) 96
  match ecKey key with
  | some q =>
    sha384 key == s.keyHash.toNat &&
      ecVerify q (sha384 (s.flashBytes base (less len 256))) (ofBe (sig.take 48)) (ofBe (sig.drop 48))
  | none => false

/-- The contents that R388 bounds: stride tables of at most 512 steps with correct parity, policy values inside their limits. -/
def wellMade (i : Image) : Bool :=
  i.tables.all (fun t => decide (t.2.length ≤ 512) && t.2.all (fun w => parityOk w.toNat)) &&
    i.policy.all (fun e => decide (e.2.2.1.toNat ≤ e.2.1.toNat) && decide (e.2.1.toNat ≤ e.2.2.2.toNat))

/-- The slot of the flash holds an image that R388 accepts, with the contents that the operand lists. -/
def State.accepts (s : State) (slot : Nat) (i : Image) : Bool :=
  s.slotHeader slot i && s.slotBody slot i && s.slotSigned slot && wellMade i

/-! ### The image applied (R389) -/

/-- A register of the list whose contents lie outside its page: the key page, the interrupt masks and the clock page. -/
def listActs (pg o : Nat) : Bool := pg == 3 || pg == 0xA || (pg == 7 && 0x60 ≤ o && o < 0x70)

/-- A pair of the register list (R389, R411): the fields of the word take the value. No command bit acts and no limit of a running
machine is checked, except that what a key, mask or clock register stands for changes by that register's own rules (log entry
69). -/
def State.applyReg (s : State) (off v : Nat) : State :=
  let pg := off / 4096
  let o := off % 4096
  if listActs pg o then s.pageWrite pg o 4 v .fenbo
  else
    match telAt pg o with
    | some i => s.telWrite i o 4 v
    | none =>
      if 4 ≤ o ∧ reg64 pg (o - 4) then s.writeFields pg (o - 4) 32 32 (2 ^ 32 * v) else s.writeFields pg o 0 32 v

/-- The register list applied in order. -/
def State.applyRegs (s : State) (l : List (BitVec 26 × BitVec 32)) : State :=
  l.foldl (fun (s : State) (x : BitVec 26 × BitVec 32) => s.applyReg x.1.toNat x.2.toNat) s

/-- The stride tables, each with its LENGTH (R301, R389). -/
def State.applyTables (s : State) (l : List (Fin 24 × List (BitVec 64))) : State :=
  l.foldl (fun (s : State) (x : Fin 24 × List (BitVec 64)) =>
    let pg := if x.1.val < 16 then pgPier x.1.val else pgPort (x.1.val - 16)
    (s.setSqr x.1.val { (s.sqr x.1.val) with table := x.2 }).put pg (Reg.SEQ_CTL_LENGTH (seqBase x.1.val)) x.2.length) s

/-- The registers that mirror parameters hold the table's values (R323). -/
def State.mirrorPolicy (s : State) : State :=
  s.policy.foldl (fun (s : State) (x : Nat × Nat × Nat × Nat) => s.applyPolicy x.1 x.2.1) s

/-- A row of a profile table: the parameter, its limits, and its value in each profile. -/
structure PolRow where
  id : Nat
  lo : Nat
  hi : Nat
  vals : List Nat
  deriving DecidableEq, Repr

/-- The shipped parameters (R323) with the values that the four profiles give them (R22, R114, R156; R45, R65, R74, R124, R188,
R210, R229, R277 for the rest): BALANCED, LATENCY, CAPACITY, RESILIENCE. -/
def profileRows : List PolRow :=
  [⟨0x100, 64, 65536, [1024, 1024, 1024, 1024]⟩, ⟨0x101, 1, 255, [32, 32, 32, 32]⟩,
   ⟨0x102, 100, 600000, [10000, 10000, 10000, 10000]⟩, ⟨0x103, 0, 2, [1, 0, 1, 1]⟩, ⟨0x104, 1, 255, [160, 96, 160, 160]⟩,
   ⟨0x105, 0, 254, [96, 48, 96, 96]⟩, ⟨0x106, 0, 86400, [60, 300, 10, 60]⟩, ⟨0x107, 0, 50, [2, 1, 2, 2]⟩,
   ⟨0x108, 0, 254, [2, 2, 2, 2]⟩, ⟨0x109, 0, 86400, [300, 0, 30, 300]⟩, ⟨0x10A, 1, 255, [64, 32, 128, 64]⟩,
   ⟨0x10B, 1, 32, [4, 4, 8, 4]⟩, ⟨0x10C, 0, 1, [0, 0, 0, 1]⟩, ⟨0x10D, 1, 100, [50, 34, 100, 34]⟩] ++
  [⟨0x200, 0, 2, [0, 1, 0, 0]⟩, ⟨0x201, 1, 95, [40, 40, 60, 40]⟩, ⟨0x202, 1, 16, [1, 1, 2, 1]⟩,
   ⟨0x203, 0, 65535, [200, 200, 500, 100]⟩, ⟨0x204, 50, 95, [80, 80, 80, 80]⟩, ⟨0x300, 0, 255, [24, 24, 24, 12]⟩,
   ⟨0x301, 0, 255, [4, 4, 4, 2]⟩, ⟨0x302, 0, 255, [24, 24, 24, 24]⟩, ⟨0x303, 0, 1000, [100, 100, 100, 100]⟩,
   ⟨0x304, 1, 16, [2, 2, 2, 2]⟩] ++
  [⟨0x400, 1, 16, [2, 2, 2, 2]⟩, ⟨0x401, 1, 32, [8, 8, 8, 8]⟩, ⟨0x402, 1, 32, [4, 4, 4, 4]⟩, ⟨0x500, 0, 95, [85, 85, 85, 85]⟩,
   ⟨0x501, 0, 95, [80, 80, 80, 80]⟩, ⟨0x502, 0, 255, [100, 100, 100, 100]⟩, ⟨0x503, 0, 20, [5, 5, 5, 5]⟩]

/-- The table of a profile, by parameter; THERM_START_C goes by the part's grade (R323). -/
def profileTable (profile : Nat) (gradeE : Bool) : SMap (Nat × Nat × Nat) :=
  (profileRows ++ [(⟨0x600, 85, 110, List.replicate 4 (if gradeE then 105 else 100)⟩ : PolRow)]).map (fun (r : PolRow) =>
    (r.id, r.vals.getD profile 0, r.lo, r.hi))

/-- The policy parameter table (R323, R389): the profile's, with the entries that the image carries in their place. -/
def State.loadPolicy (s : State) (i : Image) : State :=
  ({ s with policy := i.policy.foldl (fun (m : SMap (Nat × Nat × Nat)) (x : BitVec 16 × BitVec 32 × BitVec 32 × BitVec 32) =>
              SMap.put m x.1.toNat (x.2.1.toNat, x.2.2.1.toNat, x.2.2.2.toNat)) (profileTable i.profile.val i.gradeE),
            profile := i.profile.val, custom := false } : State).mirrorPolicy

/-- The clock preferences applied under R359 and R360 (R358): the first READY candidate of the root order, and the backup. -/
def State.loadClocks (s : State) (i : Image) : State :=
  let s := s.put pgClk Reg.CLK_ROOT_CTL_AUTO_ARM (b2n i.autoArm)
  let s := match i.rootOrder.find? (fun k => s.candReady k.val) with
    | some k => s.writeRootSel k.val
    | none => s
  match i.backup with
  | some k => s.writeArm k.val true
  | none => s

/-- SPAN_RESTRICTED with the span, or 0xFF, and the reason; the boot ends DEGRADED (R394). -/
def State.restrict (s : State) (span reason : Nat) : State :=
  (s.put 0 Reg.TRUSS_BOOT_STAT_DEGRADED 1).raise 60 0xB02 ERROR none 0 (detail [span, reason])

/-- Two members lie half the list apart and on partner Piers, for every pair (R59, R109). -/
def State.partnersApart (s : State) (i : Nat) : Bool :=
  let n := s.spanCount i
  n % 2 == 0 && (List.range (n / 2)).all (fun m => s.spanMember i (m + n / 2) == (s.spanMember i m ^^^ 8))

/-- The mirror bit of a span is allowed (R109). -/
def State.mirrorAllowed (s : State) (i : Nat) : Bool :=
  let n := s.spanCount i
  let g := 2 ^ s.spanShift i
  let h := s.spanSize i / 2
  s.partnersApart i && (if s.spanShift i < 12 then h % (g * n) == 0 else h / g % n == n / 2 && h % g == 0)

/-- The packed-store bit of a span is allowed (R145). -/
def State.packedAllowed (s : State) (i : Nat) : Bool := s.spanCount i == 16 && s.spanShift i == 12 && !s.spanMirrored i

/-- The span bits and the descriptor count as they are applied (R394). -/
def State.checkSpans (s : State) : State :=
  let bad := (pick 8 (fun i => s.mirrorSpan i && !s.mirrorAllowed i))
  let s := bad.foldl (fun (s : State) (i : Nat) =>
    (s.put 2 Reg.HUB_XLAT_MIRROR_MIRROR_SPANS (clrBit (s.fld 2 Reg.HUB_XLAT_MIRROR_MIRROR_SPANS) i)).restrict i 0) s
  let bad := (pick 8 (fun i => s.psSpan i && !s.packedAllowed i))
  let s := bad.foldl (fun (s : State) (i : Nat) =>
    (s.put 2 Reg.HUB_PS_CTL_PS_SPANS (clrBit (s.fld 2 Reg.HUB_PS_CTL_PS_SPANS) i)).restrict i 1) s
  if 0x3FFFFFFFFF < s.fld 2 Reg.HUB_XLAT_DESC_CNT_COUNT then
    (s.put 2 Reg.HUB_XLAT_DESC_CNT_COUNT 0x3FFFFFFFFF).restrict 0xFF 3
  else s

/-! ### The journal at boot (R332) -/

/-- The journal's sectors with a header: sector and sequence number. -/
def State.jnlHeads (s : State) : List (Nat × Nat) :=
  ((List.range 11).filter (fun i => ofLe (s.flashBytes (jnlSector i) 4) = 0x4A4E4C4B)).map (fun i =>
    (i, ofLe (s.flashBytes (jnlSector i + 4) 4)))

/-- The first slot of a sector that nothing has written. -/
def State.jnlFree (s : State) (i : Nat) : Nat :=
  ((List.range 128).find? (fun k => 1 ≤ k && (s.flashBytes (jnlSector i + 32 * k) 32).all (fun b => b == 0xFF))).getD 128

/-- The Kenez finds the highest sequence number and continues after it. -/
def State.jnlScan (s : State) : State :=
  match s.jnlHeads with
  | [] => { s with jnl := { s.jnl with sector := 0, slot := 0, seq := 0 } }
  | h :: t =>
    let top := t.foldl (fun (m x : Nat × Nat) => if m.2 < x.2 then x else m) h
    { s with jnl := { s.jnl with sector := top.1, slot := s.jnlFree top.1, seq := top.2 } }

/-- Steps 3 to 5 with an accepted image. -/
def State.applyImage (s : State) (slot : Nat) (second : Bool) (i : Image) : State :=
  let s := { s with img := some i, metaSpan := i.metaSpan.val }
  let s := ((s.put 0 Reg.TRUSS_BOOT_STAT_SLOT slot).put 0 Reg.TRUSS_BOOT_STAT_SEQ_LO i.seq.toNat).put 0
    Reg.TRUSS_BOOT_STAT_FALLBACK (b2n second)
  let s := if second then s.raise 60 0xB00 WARN none 0 0 else s
  let s := (((s.applyRegs i.regs).applyTables i.tables).loadPolicy i).loadClocks i
  (s.checkSpans.jnlScan).put 0 Reg.TRUSS_BOOT_STAT_STAGE 6

/-- BOOT_IMAGE_READ (R387, R388, R394): the operands say whether the flash answers SFDP, and list what the sections of each slot
hold; R388 accepts a slot by its bytes in the flash. -/
def execBootImageRead (sfdp : Bool) (a b : Option Image) (s : State) : Host.Outcome State Fault Refusal :=
  if s.fld 0 Reg.TRUSS_BOOT_STAT_STAGE != 2 || !s.rails then .next s
  else if !sfdp then .next (s.halt 1)
  else
    match s.chooseImage (a.filter (s.accepts 0)) (b.filter (s.accepts 1)) with
    | some (slot, second, i) => .next (s.applyImage slot second i)
    | none => .next (s.halt 2)

/-! ### Stage 7: the population (R52, R53) -/

/-- The data rates of a module's row. -/
def rowRates (d : Spd) : List Nat :=
  if d.mrdimm then [8800, 10400, 12800]
  else if d.modules.val = 2 then [4800, 5200, 5600, 6400]
  else [4800, 5200, 5600, 6400, 7200, 8000]

/-- The modules of a channel match their row, and the two of a channel are identical. -/
def spdOk (d : Spd) : Bool :=
  d.modules.val != 0 && [1, 2, 4].contains d.ranks && d.ranks * d.modules.val ≤ 8 && 1 ≤ d.capacityG && d.capacityG ≤ 512 &&
    (d.modules.val == 1 || d.identical) &&
    (if d.mrdimm then d.modules.val == 1 && !d.devX8 && [32, 64].contains d.density else [16, 32, 64].contains d.density)

/-- Rates of the row that the modules support and the image holds a timing set for, ascending. -/
def spdRates (i : Image) (d : Spd) : List Nat :=
  (rowRates d).filter (fun r => d.rates.contains r && i.timing.any (fun t => t.mrdimm == d.mrdimm && t.rate == r))

/-- The members of a span. -/
def State.members (s : State) (i : Nat) : List Nat := (List.range (s.spanCount i)).map (fun m => s.spanMember i m)

/-- The spans that list a Pier. -/
def State.spansOf (s : State) (n : Nat) : List Nat := pick 8 (fun i => s.spanSize i != 0 && (s.members i).contains n)

/-- MIRROR_SPANS as the image's register list sets it (R53). -/
def imgMirrorSpans (i : Image) : Nat :=
  i.regs.foldl (fun (m : Nat) (x : BitVec 26 × BitVec 32) => if x.1.toNat = 0x2058 then x.2.toNat % 256 else m) 0

/-- Pn and its partner carry unlike modules, and the rule applies to them (R53): P(n + 8) is disabled. -/
def State.unlike (s : State) (i : Image) (spd : List (Option Spd)) (n : Nat) : Bool :=
  match spd.getD n none, spd.getD (n + 8) none with
  | some a, some b =>
    a.modules.val != 0 && b.modules.val != 0 && (a.mrdimm != b.mrdimm || a.capacityG != b.capacityG) &&
      (s.spansOf n ++ s.spansOf (n + 8)).any (fun k => s.spanMirrored k || (imgMirrorSpans i).testBit k)
  | _, _ => false

/-- The rates each channel may take, none for a disabled one, before the rule of small grains. -/
def State.channelRates (s : State) (i : Image) (spd : List (Option Spd)) : List (List Nat) :=
  (List.range 16).map (fun n =>
    match spd.getD n none with
    | some d =>
      if !spdOk d || s.fld (pgPier n) Reg.PIER_GEOM_RPM == 3 || (8 ≤ n && s.unlike i spd (n - 8)) then [] else spdRates i d
    | none => [])

/-- The greatest of a list, 0 where it is empty. -/
def greatest (l : List Nat) : Nat := l.foldl max 0

/-- The members of a span with a grain below 4 KiB run one rate: the highest common one, or the first member's highest, and the
others that cannot run it are disabled. -/
def oneRate (c : List (List Nat)) (members : List Nat) : List (List Nat) :=
  match members.filter (fun n => !(c.getD n []).isEmpty) with
  | [] => c
  | f :: t =>
    let common := (c.getD f []).filter (fun r => t.all (fun n => (c.getD n []).contains r))
    let r := greatest (if common.isEmpty then c.getD f [] else common)
    (List.range 16).map (fun n =>
      let l := c.getD n []
      if !members.contains n then l else if l.contains r then [r] else [])

/-- The rates of every channel under all rules of R53. -/
def State.population (s : State) (i : Image) (spd : List (Option Spd)) : List (List Nat) :=
  (pick 8 (fun k => s.spanSize k != 0 && s.spanShift k < 12)).foldl (fun (c : List (List Nat)) (k : Nat) =>
    oneRate c (s.members k)) (s.channelRates i spd)

/-- A timing set's words laid into its fields (R79). -/
def State.loadTiming (s : State) (n set : Nat) (words : List (BitVec 32)) : State :=
  (Reg.tsetFields.filter (fun f => 0x60 + 0x80 * set ≤ f.off && f.off < 0xE0 + 0x80 * set)).foldl
    (fun (s : State) (f : Fld) =>
      s.put (pgPier n) f (bits (words.getD ((f.off - (0x60 + 0x80 * set)) / 4) 0).toNat f.lo f.width)) s

/-- The bytes that the shares of a Pier take of its ranks. -/
def State.shareEnd (s : State) (n : Nat) : Nat :=
  greatest ((s.spansOf n).map (fun i =>
    2 ^ 30 * s.fld (pgPier n) (Reg.PIER_SHARE_BASE_BASE_G i) +
      s.spanSize i / s.spanCount i * (if s.spanMirrored i then 2 else 1)))

/-- The spare rank that Truss designates where the register list says nothing of the Pier's geometry (R71): the highest-numbered
physical rank, where the other ranks still hold the Pier's shares (DESIGN CHOICE, log entry 100). -/
def State.defaultSpare (s : State) (i : Image) (n : Nat) : State :=
  let pg := pgPier n
  let r := s.ranks n
  if i.regs.any (fun x => x.1.toNat == 4096 * pg + 0x44) || r < 2 || 64 * ((r - 1) * s.rankLines n) < s.shareEnd n then s
  else (s.put pg Reg.PIER_GEOM_SPARE_PRESENT 1).put pg Reg.PIER_GEOM_SPARE_RANK (r - 1)

/-- A channel brought into use: its geometry as SPD gives it, its spare, its rate and timing set A. -/
def State.enable (s : State) (i : Image) (n : Nat) (d : Spd) (rate : Nat) : State :=
  let pg := pgPier n
  let row := if d.density = 16 then 0 else if d.density = 32 then 1 else 2
  let rpm := if d.ranks = 4 then 2 else d.ranks - 1
  let s := ((s.put pg Reg.PIER_GEOM_DPC2 (d.modules.val - 1)).put pg Reg.PIER_GEOM_MRDIMM (b2n d.mrdimm)).put pg
    Reg.PIER_GEOM_RPM rpm
  let s := ((s.put pg Reg.PIER_GEOM_DEV_X8 (b2n d.devX8)).put pg Reg.PIER_GEOM_ROW row).defaultSpare i n
  let s := ((s.put pg Reg.PIER_DCTL_CH_EN 1).put pg Reg.PIER_SPEED_RATE rate).put pg Reg.PIER_SPEED_ACTIVE_SET 0
  let s := match i.timing.find? (fun t => t.mrdimm == d.mrdimm && t.rate == rate) with
    | some t => s.loadTiming n 0 t.words
    | none => s
  s.setPier n { (s.pier n) with serial := d.serial0.toNat + 2 ^ 32 * d.serial1.toNat }

/-- A channel disabled at boot (R394): an offline Pier from the start where a span lists it. -/
def State.disable (s : State) (n : Nat) : State :=
  let s := (s.put (pgPier n) Reg.PIER_DCTL_CH_EN 0).put 0 Reg.TRUSS_BOOT_STAT_DEGRADED 1
  let s := s.put 0 Reg.TRUSS_CH_STAT_DISABLED (setBit (s.fld 0 Reg.TRUSS_CH_STAT_DISABLED) n)
  if (s.spansOf n).isEmpty then s
  else (s.put (pgVdt n) Reg.VDT_STAT_OFFLINE 1).raise 60 0xB01 ERROR none 0 0

/-- A channel is disabled. -/
def State.chOff (s : State) (n : Nat) : Bool := (s.fld 0 Reg.TRUSS_CH_STAT_DISABLED).testBit n

/-- What disabled channels bring with them (R394): packed-store spans with two of them, and the halt of a metadata pair without
either Pier. -/
def State.boundary (s : State) : State × Bool :=
  let bad := pick 8 (fun i => s.psSpan i && decide (2 ≤ ((s.members i).filter (fun n => s.chOff n)).length))
  let s := bad.foldl (fun (s : State) (i : Nat) =>
    (s.put 2 Reg.HUB_PS_CTL_PS_SPANS (clrBit (s.fld 2 Reg.HUB_PS_CTL_PS_SPANS) i)).restrict i 2) s
  let dead := (List.range 8).any (fun i => s.spanSize i != 0 && !s.frameSpan i && !s.psSpan i && s.spanMirrored i &&
    (List.range (s.spanCount i / 2)).any (fun m => s.chOff (s.spanMember i m) && s.chOff (s.spanMember i (m + s.spanCount i / 2))))
  (s, dead)

/-! ### The rank health record (R392, R393) -/

/-- The record is whole: MAGIC, and its CRC with the field taken as zero. -/
def State.healthOk (s : State) : Bool :=
  ofLe (s.flashBytes 0xC000 4) == 0x484C4B52 &&
    ofLe (s.flashBytes 0xC008 4) == crc32c (s.flashBytes 0xC000 8 ++ [0, 0, 0, 0] ++ s.flashBytes 0xC00C 532)

/-- The physical ranks of a Pier that the record names: retired, and failed training. -/
def State.healthRanks (s : State) (n : Nat) : Nat × Nat :=
  let a := 0xC020 + 32 * n
  if ofLe (s.flashBytes a 8) = (s.pier n).serial then (s.flashByte (a + 8), s.flashByte (a + 9)) else (0, 0)

/-- A complete journal record that retires a rank, placed at or after a position: Pier and physical rank. -/
def State.jnlRank (s : State) (pos i seq k : Nat) : Option (Nat × Nat) :=
  let a := jnlSector i + 32 * k
  let kind := ofLe (s.flashBytes (a + 2) 2)
  if (kind = 0x103 ∨ kind = 0x105) ∧ s.flashByte (a + 5) = 0 ∧ pos ≤ (128 * seq + k) % 2 ^ 32 then
    some (s.flashByte (a + 26) % 16, s.flashByte (a + 24) % 8)
  else none

/-- The ranks that the journal retires from a position on. -/
def State.jnlRanks (s : State) (pos : Nat) : List (Nat × Nat) :=
  s.jnlHeads.flatMap (fun h => (List.range 128).filterMap (fun k => if k = 0 then none else s.jnlRank pos h.1 h.2 k))

/-- A physical rank's mark: retired. -/
def State.retireAtBoot (s : State) (n r : Nat) : State :=
  let s := s.setPier n { (s.pier n) with retired := setBit (s.pier n).retired r }
  let s := s.put (pgPier n) (Reg.PIER_RANK_UE_RETIRED r) 1
  s.put 0 Reg.TRUSS_CH_STAT_RETIRED_AT_BOOT (setBit (s.fld 0 Reg.TRUSS_CH_STAT_RETIRED_AT_BOOT) n)

/-- The spare of a rank retired at boot serves its logical rank at once; without one the rank serves no more (R393). -/
def State.spareAtBoot (s : State) (n r : Nat) : State :=
  let pg := pgPier n
  match (s.physRanks n).findIdx? (fun x => x == r) with
  | none => s
  | some l =>
    let m? := if s.fld pg Reg.PIER_SPARE_CTL_STATE = 0 then s.chooseSpare n else none
    match m? with
    | some m =>
      let s := ((s.put pg Reg.PIER_SPARE_CTL_FAIL_RANK l).put pg Reg.PIER_SPARE_CTL_SPARE_PIER m).put pg
        Reg.PIER_SPARE_CTL_SPARE_PHYS (s.fld (pgPier m) Reg.PIER_GEOM_SPARE_RANK)
      let s := s.put pg Reg.PIER_SPARE_CTL_STATE 3
      if m = n then s else s.put (pgPier m) Reg.PIER_SPARE_CTL_LENT 1
    | none =>
      let s := if s.fld pg Reg.PIER_SPARE_CTL_STATE = 0 then s.put pg Reg.PIER_SPARE_CTL_STATE 5 else s
      s.setPier n { (s.pier n) with skip := setBit (s.pier n).skip r }

/-- The channels that a rule disables. -/
def State.disableAll (s : State) (l : List Nat) : State :=
  l.foldl (fun (s : State) (n : Nat) => if s.chOff n then s else s.disable n) s

/-- The rank health record and the journal applied (R392, R393). -/
def State.applyHealth (s : State) : State :=
  let ok := s.healthOk
  let s := if ok then s.put 0 Reg.TRUSS_BOOT_STAT_HEALTH_USED 1 else s.raise 60 0xB03 WARN none 0 0
  let pos := if ok then ofLe (s.flashBytes 0xC004 4) else 0
  let jr := s.jnlRanks pos
  let on := pick 16 (fun n => !s.chOff n)
  let s := on.foldl (fun (s : State) (n : Nat) =>
    let h := if ok then s.healthRanks n else (0, 0)
    let s := s.setPier n { (s.pier n) with failed := h.2 }
    (pick 8 (fun r => decide (r < s.ranks n) && (h.1.testBit r || h.2.testBit r || jr.contains (n, r)))).foldl
      (fun (s : State) (r : Nat) => s.retireAtBoot n r) s) s
  let s := on.foldl (fun (s : State) (n : Nat) =>
    (pick 8 (fun r => (s.pier n).retired.testBit r)).foldl (fun (s : State) (r : Nat) => s.spareAtBoot n r) s) s
  s.disableAll (on.filter (fun n => decide (64 * ((s.physRanks n).length * s.rankLines n) < s.shareEnd n)))

/-- A stage that may have disabled channels ends: the boot goes on, or halts without metadata. -/
def State.nextStage (s : State) (stage : Nat) : State :=
  match s.boundary with
  | (s, true) => s.halt 3
  | (s, false) => s.put 0 Reg.TRUSS_BOOT_STAT_STAGE stage

/-- Step 7 with the SPD of every channel. -/
def State.populate (s : State) (i : Image) (spd : List (Option Spd)) : State :=
  let c := s.population i spd
  let s := (List.range 16).foldl (fun (s : State) (n : Nat) =>
    match spd.getD n none, c.getD n [] with
    | some d, r :: rs => s.enable i n d (greatest (r :: rs))
    | _, _ => s) s
  let s := s.disableAll (pick 16 (fun n => (c.getD n []).isEmpty))
  (s.applyHealth).nextStage 8

/-- POPULATION_CHECK (R53, R392, R393): the operand gives the SPD of the sixteen channels. -/
def execPopulationCheck (spd : List (Option Spd)) (s : State) : Host.Outcome State Fault Refusal :=
  if !spdLenOk spd then .fault .illFormed
  else if s.fld 0 Reg.TRUSS_BOOT_STAT_STAGE != 6 then .next s
  else
    match s.img with
    | some i => .next (s.populate i spd)
    | none => .next s

/-! ### Stages 8 to 11 -/

/-- DRAM_TRAINING_DONE (R390 step 8, R394): the operand names the channels that failed training. -/
def execDramTrainingDone (failed : BitVec 16) (s : State) : Host.Outcome State Fault Refusal :=
  if s.fld 0 Reg.TRUSS_BOOT_STAT_STAGE != 8 then .next s
  else .next ((s.disableAll (pick 16 (fun n => failed.toNat.testBit n))).nextStage 9)

/-- METADATA_ZERO_DONE (R390 step 9): metadata lines and packed-store lines read as zeros under their fixed side bits. -/
def execMetadataZeroDone (s : State) : Host.Outcome State Fault Refusal :=
  if s.fld 0 Reg.TRUSS_BOOT_STAT_STAGE != 9 then .next s
  else .next (({ s with zeroFilled := true } : State).put 0 Reg.TRUSS_BOOT_STAT_STAGE 10)

/-- The pools laid out, and their base registers written (R391). -/
def State.layPools (s : State) : State :=
  let p := poolFrames (s.spanBase s.metaSpan / 4096) s.poolBytes
  let s := ((s.put 2 Reg.HUB_XLAT_DESC_BASE_BASE (p.getD 2 0)).put 2 Reg.HUB_PS_SUM_BASE_BASE (p.getD 3 0)).put 5
    Reg.HUB_VI_FQ_BASE_BASE (p.getD 4 0)
  let s := s.put 7 Reg.HUB_EVT_MQ_BASE_BASE (p.getD 5 0)
  let s := (List.range 16).foldl (fun (s : State) (n : Nat) =>
    s.put (pgPier n) Reg.PIER_SAMP_BASE_BASE (p.getD 6 0 + 16 * n)) s
  { s with metaNext := p.getD 8 0, vis := [] }

/-- The engines released, the baton with MC0, each port with its owner engine (R310, R316, R390 step 10). -/
def State.releaseEngines (s : State) : State :=
  let s := (List.range 64).foldl (fun (s : State) (e : Nat) => s.setEng e { (s.eng e) with running := true }) s
  let s := (List.range 8).foldl (fun (s : State) (k : Nat) =>
    s.put (pgPort k) Reg.PORT_XLAT_CTL_OWNER_ME (16 * (k / 2) + 2 + k % 2)) s
  ({ s with key := ⟨s.time, none, 0, 0, s.time⟩ } : State).put pgHub Reg.HUB_LAP_CTL_BATON 0

/-- Scrub starts on every Pier, and every Pier reports its delivery. -/
def State.startPiers (s : State) : State :=
  (List.range 16).foldl (fun (s : State) (n : Nat) => ((s.startScrub n)).report n) s

/-- The pools laid out, the engines released, and what the boot loaded locked (R390 step 10, R391). -/
def State.poolsUp (s : State) : State := { s.layPools.releaseEngines with locked := true }

/-- Both of the journal's buckets full (R334). -/
def State.tokensFull (s : State) : State :=
  { s with jnl := { s.jnl with tok1 := 64, tok2 := 16, tok1At := s.time, tok2At := s.time } }

/-- BOOT_DONE with the slot and the image's sequence number (R394). -/
def State.bootDone (s : State) : State :=
  s.raise 60 0xB04 INFO none 0
    (detail (s.fld 0 Reg.TRUSS_BOOT_STAT_SLOT :: leBytes 4 (match s.img with | some i => i.seq.toNat | none => 0)))

/-- The lap dumps run at the interval that TEL_LAP_CTL holds (R344). -/
def State.startLaps (s : State) : State :=
  let us := s.fld pgTel Reg.TEL_LAP_CTL_INTERVAL_US
  if us = 0 then s else s.writeLapCtl us

/-- POOL_ALLOCATION (R390 steps 10 and 11, R391, R394): media ready, with the boot's events recorded and BOOT_DONE raised. -/
def execPoolAllocation (s : State) : Host.Outcome State Fault Refusal :=
  if s.fld 0 Reg.TRUSS_BOOT_STAT_STAGE != 10 then .next s
  else
    .next (((s.poolsUp.tokensFull.put 0 Reg.TRUSS_BOOT_STAT_STAGE 0xF).startPiers.startLaps.recordHeld).bootDone)

/-! ### The end of a warm reset (R396) -/

/-- Registers of a page that hold state a warm reset keeps, beside RWL and RWS fields: by offset. -/
def warmOffsets (pg : Nat) : List Nat :=
  if pg = 4 then [0x40] ++ (List.range 8).map (fun k => 0x80 + 8 * k)
  else if isVdtPage pg then [0x44]
  else if isPortPage pg then [0x40, 0x4C, 0x5C, 0x380]
  else if isPierPage pg then [0x48, 0x200, 0x404, 0x900] ++ (List.range 8).map (fun r => 0x420 + 4 * r)
    ++ (List.range 64).map (fun i => 0x60 + 4 * i)
  else []

/-- A field keeps its value over a warm reset: RWL and RWS fields, the whole of the Truss, key, mailbox and clock pages' read-only
fields, PASSES, what R396 and the rules of each block keep, and the timing sets in use. -/
def warmKeeps (pg : Nat) (f : Fld) : Bool :=
  f.ty = .rwl || f.ty = .rws || pg = 0 || pg = 8 || (pg = 3 && (f.ty != .rw || 0x100 ≤ f.off)) || (pg = 0xA && f.ty != .rw)
    || (warmOffsets pg).contains f.off || f = Reg.HUB_LAP_STAT_PASSES || f = Reg.PIER_CODEC_CTL_COMP0_OFF ||
    f = Reg.PIER_CODEC_CTL_COMP1_OFF || (pg = 3 && f.off = 0x8C)

/-- The listed register fields that a warm reset keeps. -/
def State.warmRegs (s : State) : SMap Nat :=
  s.regs.filter (fun x =>
    let pg := x.1 / 262144
    (pageFields pg).any (fun f => regKey pg f == x.1 && warmKeeps pg f))

/-- An LD keeps its allocation and its poison list. -/
def LogDev.warm (l : LogDev) : LogDev :=
  { LogDev.blank with capG := l.capG, dcG := l.dcG, sharable := l.sharable, poison := l.poison, poisonOvf := l.poisonOvf }

/-- A port keeps its grace period, its lost hosts and sweeps, the training history and the pins' levels; its caches are empty. -/
def Prt.warm (p : Prt) : Prt :=
  { Prt.blank with graceEnd := p.graceEnd, trSpeed := p.trSpeed, trWidth := p.trWidth, urgLevel := p.urgLevel, urg3At := p.urg3At,
                   demote := p.demote, bound := p.bound, lost := p.lost, sweep := p.sweep, sweepFrom := p.sweepFrom }

/-- A Pier keeps the ranks that are retired, failed or spared; its queues are drained, its rows closed. -/
def Pr.warm (p : Pr) : Pr :=
  { Pr.blank with retired := p.retired, failed := p.failed, serial := p.serial, skip := p.skip, bound := p.bound,
                  rebuild := p.rebuild, dead := p.dead, pendRank := p.pendRank, freeQ := p.freeQ, ueB := p.ueB,
                  scrub := p.scrub, scrubEnd := p.scrubEnd, scrubLate := p.scrubLate, samples := p.samples }

/-- The logic reset of step 4: what is kept stays, and the rest takes its reset value. -/
def State.warmLogic (s : State) : State :=
  { s with
    regs := s.warmRegs
    ports := s.ports.map (fun x => (x.1, x.2.warm))
    lds := s.lds.map (fun x => (x.1, x.2.warm))
    piers := s.piers.map (fun x => (x.1, x.2.warm))
    sqrs := s.sqrs.map (fun x => (x.1, { x.2 with ctxs := [], jobq := [] }))
    engines := s.engines.map (fun x => (x.1, { Engine.blank with fenced := x.2.fenced }))
    reqs := [], walks := [], snoops := [], dir := [], dirStamp := 0, cc := [], stage := []
    mq := RecQueue.empty, missed := [], missedMax := [], alertAt := none, held := s.held
    jnl := { s.jnl with buf := [] }
    telSel := [], telCnt := [], lap := State.reset.lap, snap := [], bucketVi := [], bucketPort := [], shortAt := none, ladder := 0
    therm := (0, 0), vdtThr := [], fenbo := ⟨none, none, 0⟩
    clk := { s.clk with closed := [], pendNode := none }
    pwr := { s.pwr with warm := false } }

/-- RW fields of the register list return to their image values: only fields that a warm reset does not keep are written. -/
def State.rereg (s : State) (off v : Nat) : State :=
  let pg := off / 4096
  let o := off % 4096
  match telAt pg o with
  | some i => s.telWrite i o 4 v
  | none =>
    let r := if 4 ≤ o ∧ reg64 pg (o - 4) then o - 4 else o
    let lo := if r = o then 0 else 32
    ((pageFields pg).filter (fun f => f.off == r && f.ty = .rw && !warmKeeps pg f)).foldl
      (fun (s : State) (f : Fld) => s.writeFld pg f lo 32 (v * 2 ^ lo)) s

/-- The warm reset's end: registers, links, engines, owners, Pacer and dumps start again. -/
def State.warmEnd (s : State) : State :=
  let s := s.warmLogic
  let s := match s.img with
    | some i => i.regs.foldl (fun (s : State) (x : BitVec 26 × BitVec 32) => s.rereg x.1.toNat x.2.toNat) s
    | none => s
  let s := (s.mirrorPolicy).reinitLinks.allPauses
  let s := (List.range 8).foldl (fun (s : State) (k : Nat) =>
    s.put (pgPort k) Reg.PORT_XLAT_CTL_OWNER_ME (s.role (16 * (k / 2) + 2 + k % 2))) s
  let s := s.engineLoad
  ((List.range 16).foldl (fun (s : State) (n : Nat) => s.report n) s).startLaps

/-- WARM_RESET_DONE (R396): once ports, home, Piers and Viaducts have nothing left to finish. -/
def execWarmResetDone (s : State) : Host.Outcome State Fault Refusal :=
  if !s.pwr.warm || !s.quiet || !s.prepared 3 || !s.linksIdle || !s.reqs.all (fun x => x.2.phase == .answered) then .next s
  else .next (s.warmEnd.raise 60 0xB05 INFO none 0 0)

end Sys2Proof.Machine
end

