-- ==== Sys2Proof/Machine/Dispatch.lean ====
section
/-!
DEFINITION. The dispatch of a command to its meaning, one arm per command.
-/
namespace Sys2Proof.Machine

/-- The effect of a command on everything but the queue. -/
def exec (i : Instr) (s : State) : Host.Outcome State Fault Refusal :=
  match i with
  | .memrd p ld hpa mv => Sys2Proof.Machine.execMemrd p ld hpa mv s
  | .memrddata p ld hpa => Sys2Proof.Machine.execMemrddata p ld hpa s
  | .memwr p ld hpa mv data => Sys2Proof.Machine.execMemwr p ld hpa mv data s
  | .memwrptl p ld hpa mv data mask => Sys2Proof.Machine.execMemwrptl p ld hpa mv data mask s
  | .memclnevct p ld hpa => Sys2Proof.Machine.execMemclnevct p ld hpa s
  | .meminv p ld hpa => Sys2Proof.Machine.execMeminv p ld hpa s
  | .birsp p tag r => Sys2Proof.Machine.execBirsp p tag r s
  | .biconflict p tag => Sys2Proof.Machine.execBiconflict p tag s
  | .biTimeout p tag => Sys2Proof.Machine.execBiTimeout p tag s
  | .reqTimeout id => Sys2Proof.Machine.execReqTimeout id s
  | .walk id b => Sys2Proof.Machine.execWalk id b s
  | .compareAndWrite eng da old new b => Sys2Proof.Machine.execCompareAndWrite eng da old new b s
  | .moveHoldExpired id b => Sys2Proof.Machine.execMoveHoldExpired id b s
  | .writeHeldDropped id => Sys2Proof.Machine.execWriteHeldDropped id s
  | .allocTimeout id => Sys2Proof.Machine.execAllocTimeout id s
  | .portTlbInv p => Sys2Proof.Machine.execPortTlbInv p s
  | .portWalkInv p => Sys2Proof.Machine.execPortWalkInv p s
  | .invalidationDone p => Sys2Proof.Machine.execInvalidationDone p s
  | .lineBurst id flip => Sys2Proof.Machine.execLineBurst id flip s
  | .recompute id b => Sys2Proof.Machine.execRecompute id b s
  | .writeQueueAccept id mirror => Sys2Proof.Machine.execWriteQueueAccept id mirror s
  | .writeDrain n sub count => Sys2Proof.Machine.execWriteDrain n sub count s
  | .overflowStep da b => Sys2Proof.Machine.execOverflowStep da b s
  | .refresh n rank => Sys2Proof.Machine.execRefresh n rank s
  | .mr4Poll n hot => Sys2Proof.Machine.execMr4Poll n hot s
  | .zqcalStart n sub => Sys2Proof.Machine.execZqcalStart n sub s
  | .trainPause n sub => Sys2Proof.Machine.execTrainPause n sub s
  | .trainPauseEnd n sub limited delays => Sys2Proof.Machine.execTrainPauseEnd n sub limited delays s
  | .switch n => Sys2Proof.Machine.execSwitch n s
  | .timingSetWrite n set off v => Sys2Proof.Machine.execTimingSetWrite n set off v s
  | .freqChangeDone n => Sys2Proof.Machine.execFreqChangeDone n s
  | .pierLiuCtlWrite n v => Sys2Proof.Machine.execPierLiuCtlWrite n v s
  | .scrubStep n b => Sys2Proof.Machine.execScrubStep n b s
  | .scrubPeriodEnd n => Sys2Proof.Machine.execScrubPeriodEnd n s
  | .ueWindowTick n => Sys2Proof.Machine.execUeWindowTick n s
  | .sparingStart n rank => Sys2Proof.Machine.execSparingStart n rank s
  | .spareCopyStep n b => Sys2Proof.Machine.execSpareCopyStep n b s
  | .retireUncopied n => Sys2Proof.Machine.execRetireUncopied n s
  | .spareRebuildStep n b => Sys2Proof.Machine.execSpareRebuildStep n b s
  | .heatUpdate => Sys2Proof.Machine.execHeatUpdate s
  | .heatDecay => Sys2Proof.Machine.execHeatDecay s
  | .pageAllocate id place => Sys2Proof.Machine.execPageAllocate id place s
  | .moveStart eng vi page dest => Sys2Proof.Machine.execMoveStart eng vi page dest s
  | .moveCopyDone vi page bs streams => Sys2Proof.Machine.execMoveCopyDone vi page bs streams s
  | .moveFinish vi page => Sys2Proof.Machine.execMoveFinish vi page s
  | .moveLogResolve vi page => Sys2Proof.Machine.execMoveLogResolve vi page s
  | .pressureLadder => Sys2Proof.Machine.execPressureLadder s
  | .t2LineRead id b => Sys2Proof.Machine.execT2LineRead id b s
  | .subblockDecode id bs => Sys2Proof.Machine.execSubblockDecode id bs s
  | .t2Write id copy => Sys2Proof.Machine.execT2Write id copy s
  | .subblockRewrite d sb bs stream => Sys2Proof.Machine.execSubblockRewrite d sb bs stream s
  | .stripeClose n stripe => Sys2Proof.Machine.execStripeClose n stripe s
  | .stripeWritten stripe => Sys2Proof.Machine.execStripeWritten stripe s
  | .pierPsPush n v => Sys2Proof.Machine.execPierPsPush n v s
  | .gcSelect stripe => Sys2Proof.Machine.execGcSelect stripe s
  | .relocation d sb bs => Sys2Proof.Machine.execRelocation d sb bs s
  | .relocationCommit d sb => Sys2Proof.Machine.execRelocationCommit d sb s
  | .hubKeyLoad v => Sys2Proof.Machine.execHubKeyLoad v s
  | .hubKeyClear v => Sys2Proof.Machine.execHubKeyClear v s
  | .kmapWrite v => Sys2Proof.Machine.execKmapWrite v s
  | .regionSetup src req ctrBase lvlBases => Sys2Proof.Machine.execRegionSetup src req ctrBase lvlBases s
  | .regionInitDone slot => Sys2Proof.Machine.execRegionInitDone slot s
  | .rotateKey src req ctrBase lvlBases => Sys2Proof.Machine.execRotateKey src req ctrBase lvlBases s
  | .rotationStep b => Sys2Proof.Machine.execRotationStep b s
  | .stripeRotationStep bs => Sys2Proof.Machine.execStripeRotationStep bs s
  | .rebuildTrusting src req bs => Sys2Proof.Machine.execRebuildTrusting src req bs s
  | .regionRelease src req => Sys2Proof.Machine.execRegionRelease src req s
  | .counterRequest id => Sys2Proof.Machine.execCounterRequest id s
  | .counterFetch da b => Sys2Proof.Machine.execCounterFetch da b s
  | .counterWriteback da => Sys2Proof.Machine.execCounterWriteback da s
  | .versionIncrement da => Sys2Proof.Machine.execVersionIncrement da s
  | .dirFlush => Sys2Proof.Machine.execDirFlush s
  | .directoryWriteback da b => Sys2Proof.Machine.execDirectoryWriteback da b s
  | .hostSweepStep p vi page line b => Sys2Proof.Machine.execHostSweepStep p vi page line b s
  | .createVi src req tpool descBase => Sys2Proof.Machine.execCreateVi src req tpool descBase s
  | .viCreateDone vi => Sys2Proof.Machine.execViCreateDone vi s
  | .bindVi src req => Sys2Proof.Machine.execBindVi src req s
  | .quiesceVi src req => Sys2Proof.Machine.execQuiesceVi src req s
  | .quiesceDone vi => Sys2Proof.Machine.execQuiesceDone vi s
  | .viNotActive id => Sys2Proof.Machine.execViNotActive id s
  | .resetVi src req => Sys2Proof.Machine.execResetVi src req s
  | .removeVi src req => Sys2Proof.Machine.execRemoveVi src req s
  | .relayFreeze src req => Sys2Proof.Machine.execRelayFreeze src req s
  | .relayThaw src req => Sys2Proof.Machine.execRelayThaw src req s
  | .dirtyLogStart src req base => Sys2Proof.Machine.execDirtyLogStart src req base s
  | .dirtyLogStop src req => Sys2Proof.Machine.execDirtyLogStop src req s
  | .relaySaveFull src req bs => Sys2Proof.Machine.execRelaySaveFull src req bs s
  | .relaySaveDelta src req bs => Sys2Proof.Machine.execRelaySaveDelta src req bs s
  | .relayRestoreNew src req tpool descBase places => Sys2Proof.Machine.execRelayRestoreNew src req tpool descBase places s
  | .relayRestoreApply src req places => Sys2Proof.Machine.execRelayRestoreApply src req places s
  | .viDoorbell p ld vi v => Sys2Proof.Machine.execViDoorbell p ld vi v s
  | .fqMissedClear p ld vi v => Sys2Proof.Machine.execFqMissedClear p ld vi v s
  | .viTelUpdate => Sys2Proof.Machine.execViTelUpdate s
  | .getKenezInfo src => Sys2Proof.Machine.execGetKenezInfo src s
  | .policyGet src req => Sys2Proof.Machine.execPolicyGet src req s
  | .policySet src req => Sys2Proof.Machine.execPolicySet src req s
  | .linkDown p => Sys2Proof.Machine.execLinkDown p s
  | .linkUp p t => Sys2Proof.Machine.execLinkUp p t s
  | .linkGraceEnd p => Sys2Proof.Machine.execLinkGraceEnd p s
  | .perstN p => Sys2Proof.Machine.execPerstN p s
  | .ideFail p => Sys2Proof.Machine.execIdeFail p s
  | .ideKm p mem key => Sys2Proof.Machine.execIdeKm p mem key s
  | .l0pEvaluate p => Sys2Proof.Machine.execL0pEvaluate p s
  | .l0pWidthChange p width => Sys2Proof.Machine.execL0pWidthChange p width s
  | .hdmDecoderCommit p ld k d => Sys2Proof.Machine.execHdmDecoderCommit p ld k d s
  | .setLdAllocations src p ld capG dcG sharable => Sys2Proof.Machine.execSetLdAllocations src p ld capG dcG sharable s
  | .initiateDcAdd src vi start blocks => Sys2Proof.Machine.execInitiateDcAdd src vi start blocks s
  | .addDcResponse p ld vi start accept => Sys2Proof.Machine.execAddDcResponse p ld vi start accept s
  | .releaseDc p ld vi start blocks => Sys2Proof.Machine.execReleaseDc p ld vi start blocks s
  | .getPoisonList p ld => Sys2Proof.Machine.execGetPoisonList p ld s
  | .injectPoison p ld dpa => Sys2Proof.Machine.execInjectPoison p ld dpa s
  | .clearPoison p ld dpa data => Sys2Proof.Machine.execClearPoison p ld dpa data s
  | .scanMedia p ld dpa lines => Sys2Proof.Machine.execScanMedia p ld dpa lines s
  | .scanMediaStep p ld b => Sys2Proof.Machine.execScanMediaStep p ld b s
  | .getScanMediaCapabilities p ld dpa lines => Sys2Proof.Machine.execGetScanMediaCapabilities p ld dpa lines s
  | .getScanMediaResults p ld => Sys2Proof.Machine.execGetScanMediaResults p ld s
  | .transferFw p off bytes => Sys2Proof.Machine.execTransferFw p off bytes s
  | .activateFw p => Sys2Proof.Machine.execActivateFw p s
  | .getQosStatus src p => Sys2Proof.Machine.execGetQosStatus src p s
  | .getBackgroundOperationStatus src => Sys2Proof.Machine.execGetBackgroundOperationStatus src s
  | .tunnelManagementCommand src p ld capG dcG sharable => Sys2Proof.Machine.execTunnelManagementCommand src p ld capG dcG sharable s
  | .unsupportedCommand src opcode => Sys2Proof.Machine.execUnsupportedCommand src opcode s
  | .urgLevelChange p level => Sys2Proof.Machine.execUrgLevelChange p level s
  | .urgOverstay p => Sys2Proof.Machine.execUrgOverstay p s
  | .urgOverstayEnd p => Sys2Proof.Machine.execUrgOverstayEnd p s
  | .deliverableReport n => Sys2Proof.Machine.execDeliverableReport n s
  | .pacerHotspot n => Sys2Proof.Machine.execPacerHotspot n s
  | .pacerPortGuarWrite p v => Sys2Proof.Machine.execPacerPortGuarWrite p v s
  | .pacerCtlWrite v => Sys2Proof.Machine.execPacerCtlWrite v s
  | .flitReceive l toDie flit => Sys2Proof.Machine.execFlitReceive l toDie flit s
  | .replayReq l toDie ack => Sys2Proof.Machine.execReplayReq l toDie ack s
  | .replayTimeout l toDie => Sys2Proof.Machine.execReplayTimeout l toDie s
  | .discardRepeat l toDie => Sys2Proof.Machine.execDiscardRepeat l toDie s
  | .viaductInit l => Sys2Proof.Machine.execViaductInit l s
  | .pauseReq l toDie => Sys2Proof.Machine.execPauseReq l toDie s
  | .pauseAck l toDie => Sys2Proof.Machine.execPauseAck l toDie s
  | .trainDone l => Sys2Proof.Machine.execTrainDone l s
  | .retrainAttemptDone l tx rx => Sys2Proof.Machine.execRetrainAttemptDone l tx rx s
  | .vdtRetry l => Sys2Proof.Machine.execVdtRetry l s
  | .vdtGraceRetry l tx rx => Sys2Proof.Machine.execVdtGraceRetry l tx rx s
  | .vdtGraceEnd l => Sys2Proof.Machine.execVdtGraceEnd l s
  | .narrowThrottle l => Sys2Proof.Machine.execNarrowThrottle l s
  | .jobPost eng q desc => Sys2Proof.Machine.execJobPost eng q desc s
  | .jobCompletion q ctx => Sys2Proof.Machine.execJobCompletion q ctx s
  | .jobTimeout eng job => Sys2Proof.Machine.execJobTimeout eng job s
  | .nop q ctx => Sys2Proof.Machine.execNop q ctx s
  | .wait q ctx => Sys2Proof.Machine.execWait q ctx s
  | .br q ctx => Sys2Proof.Machine.execBr q ctx s
  | .jmp q ctx => Sys2Proof.Machine.execJmp q ctx s
  | .set q ctx => Sys2Proof.Machine.execSet q ctx s
  | .add q ctx => Sys2Proof.Machine.execAdd q ctx s
  | .loop q ctx => Sys2Proof.Machine.execLoop q ctx s
  | .call q ctx => Sys2Proof.Machine.execCall q ctx s
  | .ret q ctx => Sys2Proof.Machine.execRet q ctx s
  | .endStep q ctx => Sys2Proof.Machine.execEndStep q ctx s
  | .dramRd q ctx flip => Sys2Proof.Machine.execDramRd q ctx flip s
  | .dramWr q ctx => Sys2Proof.Machine.execDramWr q ctx s
  | .dramRdOther q ctx flip => Sys2Proof.Machine.execDramRdOther q ctx flip s
  | .liuCheck q ctx => Sys2Proof.Machine.execLiuCheck q ctx s
  | .liuGen q ctx => Sys2Proof.Machine.execLiuGen q ctx s
  | .liuLogCe q ctx => Sys2Proof.Machine.execLiuLogCe q ctx s
  | .liuCountUe q ctx => Sys2Proof.Machine.execLiuCountUe q ctx s
  | .cipherKeystream q ctx => Sys2Proof.Machine.execCipherKeystream q ctx s
  | .cipherXor q ctx => Sys2Proof.Machine.execCipherXor q ctx s
  | .tagCheck q ctx => Sys2Proof.Machine.execTagCheck q ctx s
  | .tagGen q ctx => Sys2Proof.Machine.execTagGen q ctx s
  | .inflate q ctx => Sys2Proof.Machine.execInflate q ctx s
  | .deflate q ctx stream => Sys2Proof.Machine.execDeflate q ctx stream s
  | .verify q ctx => Sys2Proof.Machine.execVerify q ctx s
  | .allocPlace q ctx => Sys2Proof.Machine.execAllocPlace q ctx s
  | .allocClose q ctx => Sys2Proof.Machine.execAllocClose q ctx s
  | .vdtSend q ctx => Sys2Proof.Machine.execVdtSend q ctx s
  | .ccacheGet q ctx => Sys2Proof.Machine.execCcacheGet q ctx s
  | .ccacheAdvance q ctx => Sys2Proof.Machine.execCcacheAdvance q ctx s
  | .ccachePin q ctx => Sys2Proof.Machine.execCcachePin q ctx s
  | .ccacheUnpin q ctx => Sys2Proof.Machine.execCcacheUnpin q ctx s
  | .xlatLookup q ctx => Sys2Proof.Machine.execXlatLookup q ctx s
  | .xlatWalk q ctx => Sys2Proof.Machine.execXlatWalk q ctx s
  | .xlatHold q ctx => Sys2Proof.Machine.execXlatHold q ctx s
  | .homeOrder q ctx => Sys2Proof.Machine.execHomeOrder q ctx s
  | .homeRelease q ctx => Sys2Proof.Machine.execHomeRelease q ctx s
  | .unitDone q ctx unit => Sys2Proof.Machine.execUnitDone q ctx unit s
  | .mailboxSend eng dst msg => Sys2Proof.Machine.execMailboxSend eng dst msg s
  | .interrupt eng mask => Sys2Proof.Machine.execInterrupt eng mask s
  | .keystoneProbe answered => Sys2Proof.Machine.execKeystoneProbe answered s
  | .engineReloadDone eng => Sys2Proof.Machine.execEngineReloadDone eng s
  | .hubLapBeat eng => Sys2Proof.Machine.execHubLapBeat eng s
  | .lapWindowEnd => Sys2Proof.Machine.execLapWindowEnd s
  | .lockstepMismatch => Sys2Proof.Machine.execLockstepMismatch s
  | .pass => Sys2Proof.Machine.execPass s
  | .bridgeTimeout => Sys2Proof.Machine.execBridgeTimeout s
  | .restart mask sigOk => Sys2Proof.Machine.execRestart mask sigOk s
  | .restartBeatTimeout => Sys2Proof.Machine.execRestartBeatTimeout s
  | .engineHalt v => Sys2Proof.Machine.execEngineHalt v s
  | .engRestart => Sys2Proof.Machine.execEngRestart s
  | .mbxCmdGo slot v => Sys2Proof.Machine.execMbxCmdGo slot v s
  | .thermalThrottle t => Sys2Proof.Machine.execThermalThrottle t s
  | .alertHoldoffEnd => Sys2Proof.Machine.execAlertHoldoffEnd s
  | .journalWrite => Sys2Proof.Machine.execJournalWrite s
  | .journalTokenRefill second => Sys2Proof.Machine.execJournalTokenRefill second s
  | .evtForce page v => Sys2Proof.Machine.execEvtForce page v s
  | .capRearm page => Sys2Proof.Machine.execCapRearm page s
  | .evtMissedClear => Sys2Proof.Machine.execEvtMissedClear s
  | .ringTailWrite ring tail => Sys2Proof.Machine.execRingTailWrite ring tail s
  | .lapDumpStart v => Sys2Proof.Machine.execLapDumpStart v s
  | .lapDumpStop => Sys2Proof.Machine.execLapDumpStop s
  | .lapSnapshot => Sys2Proof.Machine.execLapSnapshot s
  | .lapRecordDone => Sys2Proof.Machine.execLapRecordDone s
  | .telFreeze on => Sys2Proof.Machine.execTelFreeze on s
  | .telClear => Sys2Proof.Machine.execTelClear s
  | .telCntWrite k v => Sys2Proof.Machine.execTelCntWrite k v s
  | .telSelWrite k v => Sys2Proof.Machine.execTelSelWrite k v s
  | .refclkAbsent p => Sys2Proof.Machine.execRefclkAbsent p s
  | .candidateWindow p count => Sys2Proof.Machine.execCandidateWindow p count s
  | .rootSel p => Sys2Proof.Machine.execRootSel p s
  | .arm p => Sys2Proof.Machine.execArm p s
  | .relockDone => Sys2Proof.Machine.execRelockDone s
  | .rootReturn inRange => Sys2Proof.Machine.execRootReturn inRange s
  | .holdoverEnd => Sys2Proof.Machine.execHoldoverEnd s
  | .gateClose => Sys2Proof.Machine.execGateClose s
  | .gateOpen => Sys2Proof.Machine.execGateOpen s
  | .gatePendingDone => Sys2Proof.Machine.execGatePendingDone s
  | .gateBusy => Sys2Proof.Machine.execGateBusy s
  | .sleepRequest => Sys2Proof.Machine.execSleepRequest s
  | .deepSleepRequest => Sys2Proof.Machine.execDeepSleepRequest s
  | .offRequest => Sys2Proof.Machine.execOffRequest s
  | .prepDone => Sys2Proof.Machine.execPrepDone s
  | .offStateSave => Sys2Proof.Machine.execOffStateSave s
  | .skipSave => Sys2Proof.Machine.execSkipSave s
  | .entryDone => Sys2Proof.Machine.execEntryDone s
  | .exitDone => Sys2Proof.Machine.execExitDone s
  | .wake => Sys2Proof.Machine.execWake s
  | .wakeN => Sys2Proof.Machine.execWakeN s
  | .sleepTimer => Sys2Proof.Machine.execSleepTimer s
  | .thermalWake t => Sys2Proof.Machine.execThermalWake t s
  | .idleEntry => Sys2Proof.Machine.execIdleEntry s
  | .idleExit => Sys2Proof.Machine.execIdleExit s
  | .vholdSample mv => Sys2Proof.Machine.execVholdSample mv s
  | .railFault => Sys2Proof.Machine.execRailFault s
  | .railRestart => Sys2Proof.Machine.execRailRestart s
  | .thermtrip t => Sys2Proof.Machine.execThermtrip t s
  | .vddAonUp addrSel => Sys2Proof.Machine.execVddAonUp addrSel s
  | .sysResetN => Sys2Proof.Machine.execSysResetN s
  | .cold => Sys2Proof.Machine.execCold s
  | .warm => Sys2Proof.Machine.execWarm s
  | .warmResetDone => Sys2Proof.Machine.execWarmResetDone s
  | .bootImageRead sfdp a b => Sys2Proof.Machine.execBootImageRead sfdp a b s
  | .populationCheck spd => Sys2Proof.Machine.execPopulationCheck spd s
  | .dramTrainingDone failed => Sys2Proof.Machine.execDramTrainingDone failed s
  | .metadataZeroDone => Sys2Proof.Machine.execMetadataZeroDone s
  | .poolAllocation => Sys2Proof.Machine.execPoolAllocation s
  | .fenboRd f => Sys2Proof.Machine.execFenboRd f s
  | .fenboWr f => Sys2Proof.Machine.execFenboWr f s
  | .spiRd f => Sys2Proof.Machine.execSpiRd f s
  | .spiProg f => Sys2Proof.Machine.execSpiProg f s
  | .spiErase f => Sys2Proof.Machine.execSpiErase f s
  | .fenboStatus f => Sys2Proof.Machine.execFenboStatus f s
  | .fenboOpDone flashOk => Sys2Proof.Machine.execFenboOpDone flashOk s
  | .fenboResponse => Sys2Proof.Machine.execFenboResponse s
  | .daWindowRead path off size8 b => Sys2Proof.Machine.execDaWindowRead path off size8 b s
  | .daWindowWrite path off size8 v b => Sys2Proof.Machine.execDaWindowWrite path off size8 v b s
  | .wideRegisterRead path off size8 => Sys2Proof.Machine.execWideRegisterRead path off size8 s
  | .registerWrite path off size8 v => Sys2Proof.Machine.execRegisterWrite path off size8 v s
  | .perstNDeassert p => Sys2Proof.Machine.execPerstNDeassert p s
  | .vddAonOff => Sys2Proof.Machine.execVddAonOff s
  | .refclkPresent p => Sys2Proof.Machine.execRefclkPresent p s
  | .railsConfirmed => Sys2Proof.Machine.execRailsConfirmed s
  | .clearEventRecords p ld log count => Sys2Proof.Machine.execClearEventRecords p ld log count s
  | .badOp f => Sys2Proof.Machine.execBadOp f s
  | .illegalOpcode q ctx => Sys2Proof.Machine.execIllegalOpcode q ctx s
  | .hotClear n => Sys2Proof.Machine.execHotClear n s
  | .adaptNsExpiry n bank => Sys2Proof.Machine.execAdaptNsExpiry n bank s

end Sys2Proof.Machine
end

