-- ==== Sys2Proof/Safety.lean ====
section
/-!
DEFINITION. What claims call a sound state, what it is for a command to complete, and what a command leaves alone.
-/
namespace Sys2Proof.Machine

/-- A sound state: the flash, the DRAM map and the register map in canonical form, and the power state and transition legal
codes (R370: Run, Idle, Sleep, Deep Sleep, Off, and the package without VDD_AON). -/
def State.Sound (s : State) : Prop :=
  Memory.wf s.flash = true ∧ SMap.sorted s.media = true ∧ SMap.sorted s.regs = true ∧ s.pwr.state ≤ 5 ∧ s.pwr.trans ≤ 3

/-- A sound state with a given queue. -/
def State.Keeps (q : List Instr) (s : State) : Prop := s.pending = q ∧ s.Sound

/-- A command answers a next state of which something holds. -/
def Completes (c : Instr) (s : State) (P : State → Prop) : Prop := ∃ t, exec c s = .next t ∧ P t

/-- The request a host's message makes (R25, R201): its line address, its data and byte enables, nothing looked up yet. -/
def hostReq (op : ReqOp) (p ld hpa : Nat) (mv : MetaValue) (data : BitVec 512) (mask : BitVec 64) (now : Nat) : Req :=
  { op := op, org := .host, port := p, ld := ld, mv := mv, hpa := 64 * (hpa / 64), dpa := 0, vi := 0, via := 0, data := data,
    mask := mask, leaf := 0, lvl := 0, da := 0, tier := 3, phase := .lookup, at0 := now, heldAt := now, poison := false,
    accP := false, accM := false, last := none, dir := none, orphan := false }

/-- The state with a request counted at its port before its lookup: Idle left, the next number taken, one request counted, and
for an RwD its 64 bytes (R339, R372). -/
def State.tookReq (s : State) (op : ReqOp) (p : Nat) (r : Req) : State :=
  let f := some (s.reqFlt r)
  let s := ({ s.leaveIdle with nextReq := (s.nextReq + 1) % 2 ^ 32 } : State).telPort p (if op.rwd then 0x04 else 0x03) 1 f
  if op.rwd then (s.telPort p 0x01 64 f).setPrt p { (s.prt p) with traf := (s.prt p).traf + 64 } else s

/-- The engines take a vendor command from a path now (R262, R263, R320): they take up new work, and a mailbox slot holds the
command with none of the slot's commands running, or the payload sent has the command's length and no command of the path
runs. The payload is p. -/
def State.engTakes (s : State) (src : CmdSrc) (op : Nat) (req p : List Nat) : Bool :=
  s.engNew && match src with
  | .hostLd _ _ => false
  | .mbx k => s.mbxHolds k.val op && !s.running.any (fun x => x.2.2 == .mbx k) &&
      p == padTo ((vendorReq op).getD 0) (s.mbox k.val).req
  | src => some req.length == vendorReq op && !s.pathBusy src op && p == req

/-- The state in which a command taken from a path runs: a background command of the FM-owned LD has been answered Background
Command Started (R263). -/
def State.taken (s : State) (src : CmdSrc) (op : Nat) : State :=
  if src = .fmLd ∧ vendorBg op ∧ s.fmLd.bg ≠ some (op, false, []) then
    (s.setLdev s.mgrPort 16 { s.fmLd with bg := some (op, false, []) }).emit (.reply src ccStarted [])
  else s

/-- What a program stored, its keys and its translations are the same in two states: DRAM, the flash, the frame owner map, the key
slots and the key map, the directory, the requests in flight, the ports, the Piers and the shared extents. -/
def State.SameStore (s t : State) : Prop :=
  t.media = s.media ∧ t.flash = s.flash ∧ t.owner = s.owner ∧ t.slots = s.slots ∧ t.dir = s.dir ∧ t.reqs = s.reqs ∧
  t.ports = s.ports ∧ t.piers = s.piers ∧ t.extents = s.extents ∧ t.kmap = s.kmap

end Sys2Proof.Machine
end

