-- ==== Sys2Proof/Certificates/Slice0/Obligations.lean ====
section
/-! DEFINITION. The statements of this row for the provers: what each command does from a state that meets its
conditions (with the whole next state, and so its frame), and what holds of every state and every step. -/

open Sys2Proof Sys2Proof.Machine

/-- A host request that the port serves is taken and started. With the port serving and the host holding a credit,
MemRd, MemRdData, MemClnEvct and MemInv take the next request number, count one request, and start at the window
lookup; chains that may go on do so, and a preparation of Sleep notes the request as a wake. With the port
serving and the host holding an RwD credit, a full-line write enables all 64 bytes, a partial write those of its
mask; each counts its 64 bytes at the port and starts at the window lookup. Of what it says, log entries 6 and
98 tell what is the model's choice. Rests on R25, R201, R87, 02_conventions.md, R26, R27. -/
def Obligations.HostRequestsComplete : Prop :=
  -- memrd
  (∀ (p : Fin 8) (ld : Fin 16) (hpa : BitVec 52) (mv : MetaValue) (s : State),
      let r := hostReq .rd p.val ld.val hpa.toNat mv 0 0 s.time
      s.portServes p.val = true →
      s.hasCredit p.val .rd = true →
      exec (.memrd p ld hpa mv) s = .next ((((s.tookReq .rd p.val r).startReq s.nextReq r).release).wakeBy 2)) ∧
  -- memrddata
  (∀ (p : Fin 8) (ld : Fin 16) (hpa : BitVec 52) (s : State),
      let r := hostReq .rdData p.val ld.val hpa.toNat .i 0 0 s.time
      s.portServes p.val = true →
      s.hasCredit p.val .rdData = true →
      exec (.memrddata p ld hpa) s = .next ((((s.tookReq .rdData p.val r).startReq s.nextReq r).release).wakeBy 2)) ∧
  -- memclnevct
  (∀ (p : Fin 8) (ld : Fin 16) (hpa : BitVec 52) (s : State),
      let r := hostReq .clnEvct p.val ld.val hpa.toNat .i 0 0 s.time
      s.portServes p.val = true →
      s.hasCredit p.val .clnEvct = true →
      exec (.memclnevct p ld hpa) s = .next ((((s.tookReq .clnEvct p.val r).startReq s.nextReq r).release).wakeBy 2)) ∧
  -- meminv
  (∀ (p : Fin 8) (ld : Fin 16) (hpa : BitVec 52) (s : State),
      let r := hostReq .inv p.val ld.val hpa.toNat .i 0 0 s.time
      s.portServes p.val = true →
      s.hasCredit p.val .inv = true →
      exec (.meminv p ld hpa) s = .next ((((s.tookReq .inv p.val r).startReq s.nextReq r).release).wakeBy 2)) ∧
  -- memwr
  (∀ (p : Fin 8) (ld : Fin 16) (hpa : BitVec 52) (mv : MetaValue) (data : BitVec 512) (s : State),
      let r := hostReq .wr p.val ld.val hpa.toNat mv data (BitVec.allOnes 64) s.time
      s.portServes p.val = true →
      s.hasCredit p.val .wr = true →
      exec (.memwr p ld hpa mv data) s = .next ((((s.tookReq .wr p.val r).startReq s.nextReq r).release).wakeBy 2)) ∧
  -- memwrptl
  (∀ (p : Fin 8) (ld : Fin 16) (hpa : BitVec 52) (mv : MetaValue) (data : BitVec 512) (mask : BitVec 64) (s : State),
      let r := hostReq .wrPtl p.val ld.val hpa.toNat mv data mask s.time
      s.portServes p.val = true →
      s.hasCredit p.val .wrPtl = true →
      exec (.memwrptl p ld hpa mv data mask) s = .next ((((s.tookReq .wrPtl p.val r).startReq s.nextReq r).release).wakeBy 2))

/-- Answers to a BISnp and its timeout end or mark the snoop. A permitted BIRsp updates the directory and ends the
snoop; a BIConflict is counted, lets a write or eviction of the line that the port holds go on, and is
acknowledged, at once where the host then has no write or eviction of the line in the Kenez; a BISnp without a
BIRsp for 1 ms counts, raises BI_TIMEOUT, loses the host and ends. Of what it says, log entries 91 and 102 tell
what is the model's choice. Rests on R201, R208, R209. -/
def Obligations.SnoopAnswersComplete : Prop :=
  -- birsp
  (∀ (p : Fin 8) (tag : Fin 64) (a : BiAnswer) (sn : Snoop) (s : State),
      s.findSnoop p.val tag.val = some sn →
      birspOk sn.inv a = true →
      exec (.birsp p tag a) s = .next ((s.snoopDir sn (a == .s)).endSnoop sn)) ∧
  -- biconflict_waits
  (∀ (p : Fin 8) (tag : Fin 64) (sn : Snoop) (s : State),
      let s1 := (s.put (pgPort p.val) Reg.PORT_BI_STAT_CONFLICTS (s.fld (pgPort p.val) Reg.PORT_BI_STAT_CONFLICTS + 1)).freeSnooped sn
      s.findSnoop p.val tag.val = some sn →
      s1.inFlight sn = true →
      exec (.biconflict p tag) s = .next ({ s1 with snoops := s1.snoops.map (fun x => if x == sn then { x with conflict := true } else x) })) ∧
  -- biconflict
  (∀ (p : Fin 8) (tag : Fin 64) (sn : Snoop) (s : State),
      let s1 := (s.put (pgPort p.val) Reg.PORT_BI_STAT_CONFLICTS (s.fld (pgPort p.val) Reg.PORT_BI_STAT_CONFLICTS + 1)).freeSnooped sn
      s.findSnoop p.val tag.val = some sn →
      s1.inFlight sn = false →
      exec (.biconflict p tag) s = .next (s1.emit (.biConflictAck p.val tag.val))) ∧
  -- biTimeout
  (∀ (p : Fin 8) (tag : Fin 64) (sn : Snoop) (s : State),
      s.findSnoop p.val tag.val = some sn →
      sn.at0 + 1000000 ≤ s.time →
      (∀ d, s.dirGet sn.line = some d → ¬ (d.2.1 = 2 ∧ d.2.2 = p.val)) →
      exec (.biTimeout p tag) s = .next ((((((s.bump 4 Reg.HUB_BI_TIMEOUT_CNT_COUNT Reg.HUB_BI_TIMEOUT_CNT_SAT 1).raise (67 + 8 * p.val) 0x501 ERROR none (if sn.line < 2 ^ 42 then 64 * sn.line else 0) 0).snoopDir sn false).loseHost p.val 0).urgUpdate p.val).endSnoop sn)) ∧
  -- biTimeout_owner
  (∀ (p : Fin 8) (tag : Fin 64) (sn : Snoop) (m : Nat) (s : State),
      s.findSnoop p.val tag.val = some sn →
      sn.at0 + 1000000 ≤ s.time →
      s.dirGet sn.line = some (m, 2, p.val) →
      exec (.biTimeout p tag) s = .next (((((((s.bump 4 Reg.HUB_BI_TIMEOUT_CNT_COUNT Reg.HUB_BI_TIMEOUT_CNT_SAT 1).markPoison sn.line).raise (67 + 8 * p.val) 0x501 ERROR none (if sn.line < 2 ^ 42 then 64 * sn.line else 0) 0).snoopDir sn false).loseHost p.val 0).urgUpdate p.val).endSnoop sn))

/-- A request held or waiting beyond its limit is resolved, dropped, refused or completed. A write held under M for
4 µs, or at once in coast, is resolved; a write held under W for 2 ms or for an allocation for 1 ms is
discarded, with its event, and completed; a request held at window lookup for 1 ms is refused and so are the
port's further requests of that VI; an accepted request without an internal answer after 2 ms is completed by
the port. Rests on R93, R94, R95, R225, R255. -/
def Obligations.HeldWritesComplete : Prop :=
  -- moveHoldExpired
  (∀ (id : BitVec 32) (b : Bursts) (r : Req) (f : Nat) (s : State),
      s.req? id.toNat = some r →
      r.phase = .heldM →
      r.firstHeld = some f →
      (f + 4000 ≤ s.time ∨ s.coast = true) →
      exec (.moveHoldExpired id b) s = .next ((s.resolveM id.toNat r b).settle r.port)) ∧
  -- writeHeldDropped
  (∀ (id : BitVec 32) (r : Req) (f : Nat) (s : State),
      s.req? id.toNat = some r →
      r.phase = .heldW →
      r.firstHeld = some f →
      f + 2000000 ≤ s.time →
      exec (.writeHeldDropped id) s = .next (((s.raiseHold r 0x205 ERROR).complete id.toNat r).settle r.port)) ∧
  -- allocTimeout
  (∀ (id : BitVec 32) (r : Req) (f : Nat) (s : State),
      s.req? id.toNat = some r →
      r.phase = .heldAlloc →
      r.firstHeld = some f →
      f + 1000000 ≤ s.time →
      exec (.allocTimeout id) s = .next (((s.raiseHold r 0x206 ERROR).complete id.toNat r).settle r.port)) ∧
  -- viNotActive
  (∀ (id : BitVec 32) (r : Req) (s : State),
      s.req? id.toNat = some r →
      r.phase = .lookup →
      r.heldAt + 1000000 ≤ s.time →
      exec (.viNotActive id) s = .next (((s.setPrt r.port { (s.prt r.port) with refused := if (s.prt r.port).refused.contains r.vi then (s.prt r.port).refused else r.vi :: (s.prt r.port).refused }).notActive id.toNat r).settle r.port)) ∧
  -- reqTimeout
  (∀ (id : BitVec 32) (r : Req) (s : State),
      s.req? id.toNat = some r →
      r.org = .host →
      r.phase ≠ .answered →
      r.orphan = false →
      r.at0 + 2000000 ≤ s.time →
      exec (.reqTimeout id) s = .next ((s.timeOut id.toNat r).settle r.port))

/-- Walks move on, and invalidations start and end. A valid entry that names a table sends the walk one level down
and is remembered for the walk cache; an entry without V faults the walk with NOT_PRESENT; a checked leaf ends
it; an engine's compare-and-write of a metadata entry with a free line answers success or failure. With no
invalidation running and SCOPE not 0b11, GO in PORT_TLB_INV or PORT_WALK_INV removes the entries of the scope
and sets BUSY; when no stale walk of the port is left BUSY clears, DONE rises by one, and the held writes of the
scope walk again. Of what it says, log entries 9, 10 and 82 tell what is the model's choice. Rests on R84, R86,
R91, R98, R99, R369. -/
def Obligations.TranslationComplete : Prop :=
  -- walk_down
  (∀ (id : BitVec 32) (b : Bursts) (w : Walk) (d : BitVec 512) (s : State),
      let da := w.tbl + 8 * viaIndex w.via w.lvl
      let e := lineEntry d (da / 8 % 8)
let s1 := (s.metaRead da b).1.telPort w.port 0x12 1 (some ⟨0, some w.port, some w.vi, (s.vi w.vi).cls, some da⟩)
      let w1 : Walk := { w with lineDa := 64 * (da / 64), lvl := w.lvl - 1, tbl := 4096 * leafAddr e, path := (w.lvl, 4096 * leafAddr e) :: w.path }
      SMap.get? s.walks id.toNat = some w →
      (s.vi w.vi).inPool w.tbl = true →
      (s.metaRead da b).2 = .ok d →
      leafV e = true →
      leafL e = false →
      1 < w.lvl →
      exec (.walk id b) s = .next ({ s1 with walks := SMap.put s1.walks id.toNat w1 })) ∧
  -- walk_leaf
  (∀ (id : BitVec 32) (b : Bursts) (w : Walk) (d : BitVec 512) (s : State),
      let da := w.tbl + 8 * viaIndex w.via w.lvl
      let e := lineEntry d (da / 8 % 8)
      SMap.get? s.walks id.toNat = some w →
      (s.vi w.vi).inPool w.tbl = true →
      (s.metaRead da b).2 = .ok d →
      leafV e = true →
      (w.lvl = 1 ∨ leafL e = true) →
      ((s.metaRead da b).1.telPort w.port 0x12 1 (some ⟨0, some w.port, some w.vi, (s.vi w.vi).cls, some da⟩)).leafFault e w.lvl w.via = none →
      exec (.walk id b) s = .next (((s.metaRead da b).1.telPort w.port 0x12 1 (some ⟨0, some w.port, some w.vi, (s.vi w.vi).cls, some da⟩)).walkDone id.toNat { w with lineDa := 64 * (da / 64) } da e)) ∧
  -- compareAndWrite
  (∀ (eng : Fin 64) (da : BitVec 48) (old new : BitVec 64) (b : Bursts) (s : State),
      (s.eng eng.val).running = true →
      s.daKind da.toNat = .metadata →
      s.lineFree (da.toNat / 64) = true →
      s.metaReady da.toNat = true →
      exec (.compareAndWrite eng da old new b) s = .next ((s.casEntry (8 * (da.toNat / 8)) old.toNat new.toNat b).1.emit (.cas eng.val (s.casEntry (8 * (da.toNat / 8)) old.toNat new.toNat b).2))) ∧
  -- portTlbInv
  (∀ (p : Fin 8) (s : State),
      let pg := pgPort p.val
      let i : Inval := ⟨true, s.fld pg Reg.PORT_INV_SCOPE_VI_TAG, s.fld pg Reg.PORT_INV_SCOPE_SCOPE, s.fld pg Reg.PORT_INV_SCOPE_COUNT, s.fld pg Reg.PORT_INV_VIA_VIA⟩
      s.pageShut pg = false →
      (s.prt p.val).inv = none →
      i.scope ≠ 3 →
      (i.scope = 0 → i.count ≠ 0) →
      exec (.portTlbInv p) s = .next ((s.invApply p.val i).put pg Reg.PORT_INV_STAT_BUSY 1)) ∧
  -- portTlbInv_empty
  (∀ (p : Fin 8) (s : State),
      let pg := pgPort p.val
      s.pageShut pg = false →
      (s.prt p.val).inv = none →
      s.fld pg Reg.PORT_INV_SCOPE_SCOPE = 0 →
      s.fld pg Reg.PORT_INV_SCOPE_COUNT = 0 →
      exec (.portTlbInv p) s = .next (s.put pg Reg.PORT_INV_STAT_DONE (s.fld pg Reg.PORT_INV_STAT_DONE + 1))) ∧
  -- portWalkInv
  (∀ (p : Fin 8) (s : State),
      let pg := pgPort p.val
      let i : Inval := ⟨false, s.fld pg Reg.PORT_INV_SCOPE_VI_TAG, s.fld pg Reg.PORT_INV_SCOPE_SCOPE, s.fld pg Reg.PORT_INV_SCOPE_COUNT, s.fld pg Reg.PORT_INV_VIA_VIA⟩
      s.pageShut pg = false →
      (s.prt p.val).inv = none →
      i.scope ≠ 3 →
      exec (.portWalkInv p) s = .next ((s.invApply p.val i).put pg Reg.PORT_INV_STAT_BUSY 1)) ∧
  -- invalidationDone
  (∀ (p : Fin 8) (i : Inval) (s : State),
      (s.prt p.val).inv = some i →
      (s.walks.any (fun x => x.2.port == p.val && x.2.stale)) = false →
      (i.tlb && s.reqs.any (fun x => x.2.port == p.val && x.2.phase == .chained && i.hits x.2.vi (x.2.via / 4096) x.2.lvl)) = false →
      exec (.invalidationDone p) s = .next ((((((s.setPrt p.val { (s.prt p.val) with inv := none }).put (pgPort p.val) Reg.PORT_INV_STAT_BUSY 0).put (pgPort p.val) Reg.PORT_INV_STAT_DONE (s.fld (pgPort p.val) Reg.PORT_INV_STAT_DONE + 1)).releaseHeld p.val (fun r => i.hits r.vi (r.via / 4096) r.lvl))).settle p.val))

/-- Bursts, recomputations and counters answer reads, and writes are accepted and drained. A captured burst goes
through the check of R38; returned recomputation sources rebuild the line or end it; a counter that has arrived
opens the line that waited for it. Each then lets the chains of the port and the home proceed. An unmirrored
write to a line that can be reached, with its counter not refused and its write queue not full, is queued at the
Pier and completed to its host; a drain writes at least the 32 oldest lines of the subchannel. Of what it says,
log entries 6, 101 and 103 tell what is the model's choice. Rests on R38, R39, R40, R168, R171, R26, R61, R62,
R20. -/
def Obligations.PierTrafficComplete : Prop :=
  -- lineBurst
  (∀ (id : BitVec 32) (flip : BitVec 640) (r : Req) (att : Nat) (s : State),
      s.req? id.toNat = some r →
      r.phase = .pierRead att →
      att < 2 →
      s.lineRuns r.da = true →
      s.readQueued r = true →
      exec (.lineBurst id flip) s = .next ((s.burst id.toNat r att flip).settle r.port)) ∧
  -- recompute
  (∀ (id : BitVec 32) (b : Bursts) (r : Req) (s : State),
      s.req? id.toNat = some r →
      r.phase = .recompute →
      s.sourcesRun r.da 0 r.vi = true →
      exec (.recompute id b) s = .next ((s.recomputeReq id.toNat r b).settle r.port)) ∧
  -- counterRequest
  (∀ (id : BitVec 32) (r : Req) (v : Line) (s : State),
      s.req? id.toNat = some r →
      r.phase = .pierRead 2 →
      r.last = some v →
      exec (.counterRequest id) s = .next ((s.openRead id.toNat r v).settle r.port)) ∧
  -- writeQueueAccept
  (∀ (id : BitVec 32) (r : Req) (m : Ma) (s : State),
      s.req? id.toNat = some r →
      r.phase = .pierWrite →
      r.org.isJob = false →
      r.tier ≠ 0 →
      s.gone r.da 0 = false →
      (s.advance r.da).2 ≠ .refused →
      s.lineMa r.da 0 = some m →
      s.wqFill m.hpier m.sub < 128 →
      s.gateShut (17 + m.hpier) = false →
      s.linkHeld m.hpier = false →
      s.pierSeq m.hpier = true →
      exec (.writeQueueAccept id false) s = .next ((s.enqueue id.toNat { r with accP := true }).settle r.port)) ∧
  -- writeDrain
  (∀ (n : Fin 16) (sub : Fin 2) (count : Fin 129) (s : State),
      s.gateShut (17 + n.val) = false →
      s.pierSeq n.val = true →
      (s.pier n.val).freq = false →
      (s.pier n.val).pause.testBit sub.val = false →
      s.drainDue n.val sub.val = true →
      exec (.writeDrain n sub count) s = .next (((((s.pier n.val).wq.filter (fun q => q.da / 64 % 2 == sub.val)).take (max 32 count.val)).foldl (fun (s : State) (q : QWrite) => if (s.queued q.da).isSome then s.drainOne q else s) s).release))

/-- The Pacer's levels, reports, hotspots and register writes. A level change sets the pins and the level in effect;
an overstay at level 3 demotes the port for 100 ms, sets OVERSTAY and raises its event; the end of the demotion
takes the level anew; a report stores Dp and the reserve and recomputes the scales; HOT is set with its event
and cleared. Where the sum of guarantees fits the device ceiling and the port's charge fits its trained
bandwidth, GUAR_Q is written and the scales recomputed; otherwise REFUSED is set and GUAR_Q stays. A write of
PACER_CTL takes all four fields. Of what it says, log entry 8 tell what is the model's choice. Rests on R269,
R270, R271, R275, R276, R277. -/
def Obligations.PacerComplete : Prop :=
  -- urgLevelChange
  (∀ (p : Fin 8) (level : Fin 4) (s : State),
      (s.prt p.val).trWidth ≤ (s.prt p.val).l0p →
      exec (.urgLevelChange p level) s = .next ((s.put (pgPort p.val) Reg.PORT_PINS_URG level.val).urgUpdate p.val)) ∧
  -- urgLevelChange_none
  (∀ (p : Fin 8) (level : Fin 4) (s : State),
      let s1 := (s.put (pgPort p.val) Reg.PORT_PINS_URG level.val).urgUpdate p.val
      (s1.prt p.val).urgLevel = 0 →
      exec (.urgLevelChange p level) s = .next (s1)) ∧
  -- urgLevelChange_widen
  (∀ (p : Fin 8) (level : Fin 4) (s : State),
      let s1 := (s.put (pgPort p.val) Reg.PORT_PINS_URG level.val).urgUpdate p.val
      1 ≤ (s1.prt p.val).urgLevel →
      (s.prt p.val).l0p < (s.prt p.val).trWidth →
      s.flag (pgPort p.val) Reg.PORT_LINK_CTL_L0P_EN = true →
      exec (.urgLevelChange p level) s = .next (s1.emit (.widthAsk p.val (s.prt p.val).trWidth))) ∧
  -- urgOverstay
  (∀ (p : Fin 8) (t0 : Nat) (s : State),
      (s.prt p.val).urg3At = some t0 →
      t0 + 1000000 * s.fld pgPacer Reg.PACER_CTL_URG3_MAX_MS < s.time →
      exec (.urgOverstay p) s = .next ((((s.setPrt p.val { (s.prt p.val) with demote := some (s.time + 100000000) }).urgUpdate p.val).put pgPacer (Reg.PACER_PORT_OVERSTAY p.val) 1).raise 29 0x60B WARN none 0 (detail [p.val]))) ∧
  -- urgOverstayEnd
  (∀ (p : Fin 8) (t0 : Nat) (s : State),
      (s.prt p.val).demote = some t0 →
      t0 ≤ s.time →
      exec (.urgOverstayEnd p) s = .next ((s.setPrt p.val { (s.prt p.val) with demote := none }).urgUpdate p.val)) ∧
  -- deliverableReport
  (∀ (n : Fin 16) (s : State),
      let s1 := s.put pgPacer (Reg.PACER_PIER_RESERVE_Q n.val) (s.reserve n.val / 250)
      exec (.deliverableReport n) s = .next ((s1.put pgPacer (Reg.PACER_PIER_DELIV_Q n.val) (s1.dp n.val)).pacerUpdate)) ∧
  -- pacerHotspot
  (∀ (n : Fin 16) (s : State),
      s.flag pgPacer (Reg.PACER_PIER_HOT n.val) = false →
      exec (.pacerHotspot n) s = .next ((s.put pgPacer (Reg.PACER_PIER_HOT n.val) 1).raise 28 0x608 WARN none 0 (detail [n.val]))) ∧
  -- hotClear
  (∀ (n : Fin 16) (s : State),
      exec (.hotClear n) s = .next (s.put pgPacer (Reg.PACER_PIER_HOT n.val) 0)) ∧
  -- pacerPortGuarWrite
  (∀ (p : Fin 8) (v : BitVec 32) (s : State),
      v.toNat.testBit 18 = false →
      v.toNat.testBit 19 = false →
      s.fitsDevice (s.admitted - s.portGuar p.val + bits v.toNat 0 10) = true →
      s.fitsPort (s.trainedBw p.val) (s.portCharge p.val - s.portGuar p.val + bits v.toNat 0 10) = true →
      exec (.pacerPortGuarWrite p v) s = .next ((s.put pgPacer (Reg.PACER_PORT_GUAR_Q p.val) (bits v.toNat 0 10)).pacerUpdate)) ∧
  -- pacerPortGuarWrite_refused
  (∀ (p : Fin 8) (v : BitVec 32) (s : State),
      v.toNat.testBit 18 = false →
      v.toNat.testBit 19 = false →
      (s.fitsDevice (s.admitted - s.portGuar p.val + bits v.toNat 0 10) && s.fitsPort (s.trainedBw p.val) (s.portCharge p.val - s.portGuar p.val + bits v.toNat 0 10)) = false →
      exec (.pacerPortGuarWrite p v) s = .next (s.put pgPacer (Reg.PACER_PORT_REFUSED p.val) 1)) ∧
  -- pacerCtlWrite
  (∀ (v : BitVec 32) (s : State),
      exec (.pacerCtlWrite v) s = .next (((List.range 8).foldl (fun (x : State) (k : Nat) => x.urgUpdate k) ((((s.put pgPacer Reg.PACER_CTL_CEIL_PCT (bits v.toNat 0 7)).put pgPacer Reg.PACER_CTL_EFF_PCT (bits v.toNat 8 7)).put pgPacer Reg.PACER_CTL_URG3_MAX_MS (bits v.toNat 16 8)).put pgPacer Reg.PACER_CTL_BG_FLOOR_PCT (bits v.toNat 24 5))).pacerUpdate))

/-- A T2 read is resolved and decoded, and a T2 write accepted and rewritten. A checked descriptor whose record
holds data sends the read on to its sub-block; the decoded line, under what the write buffer holds, answers it;
a T2 write is accepted into a write-buffer entry once both the descriptor Pier and its copy have it; a rewrite
of an entry whose sixteen lines were all written makes no read. Of what it says, log entries 6 and 20 tell what
is the model's choice. Rests on R143, R136, R151, R152, R156. -/
def Obligations.PackedRequestsComplete : Prop :=
  -- t2LineRead
  (∀ (id : BitVec 32) (b : Bursts) (r : Req) (d : BitVec 512) (s : State),
      let s1 := (s.descRead r.da b).1
      s.req? id.toNat = some r →
      r.phase = .t2desc →
      s1.wbufEnt r.da r.sub = none →
      (s.descRead r.da b).2 = .ok d →
      s1.descCheck d.toNat r.vi = .ok →
      (descRec d.toNat r.sub).len ≠ 0 →
      exec (.t2LineRead id b) s = .next ((((s1.sample (s1.descPier r.da) r).setReq id.toNat { r with phase := .t2sub })).settle r.port)) ∧
  -- subblockDecode
  (∀ (id : BitVec 32) (bs : List Bursts) (r : Req) (d : BitVec 512) (ls : List (BitVec 512 × Bool)) (s : State),
      let s1 := (s.descRead r.da {}).1
      s.req? id.toNat = some r →
      r.phase = .t2sub →
      (s.descRead r.da {}).2 = .ok d →
      (descRec d.toNat r.sub).raw = true ∨ s1.codecOpen (s1.recPier (descRec d.toNat r.sub)) = true →
      (s1.recLine r.vi r.lds (descRec d.toNat r.sub) r.subLine bs).2 = .lines ls →
      (s1.recLine r.vi r.lds (descRec d.toNat r.sub) r.subLine bs).1.wbufEnt r.da r.sub = none →
      exec (.subblockDecode id bs) s = .next (((s1.recLine r.vi r.lds (descRec d.toNat r.sub) r.subLine bs).1.deliver id.toNat r ((wbufOver ls []).getD r.subLine (0, false)).1 ((wbufOver ls []).getD r.subLine (0, false)).2).settle r.port)) ∧
  -- t2Write
  (∀ (id : BitVec 32) (copy : Bool) (r : Req) (d : BitVec 512) (s : State),
      let s1 := (s.descRead r.da {}).1
      s.req? id.toNat = some r →
      r.phase = .t2write →
      r.org ≠ .home →
      (s.descRead r.da {}).2 = .ok d →
      s1.descCheck d.toNat r.vi = .ok →
      (copy = true ∨ s1.wbufRoom r.da r.sub = true) →
      (copy = true → r.accP = true) →
      (copy = false → r.accM = true) →
      exec (.t2Write id copy) s = .next ((s1.t2Accept id.toNat (if copy then { r with accM := true } else { r with accP := true })).settle r.port)) ∧
  -- subblockRewrite
  (∀ (d : BitVec 40) (sb : Fin 4) (bs : List Bursts) (stream : List (BitVec 8)) (w : WBuf) (x : BitVec 512) (ls : List (BitVec 512 × Bool)) (s : State),
      let s1 := (s.descRead d.toNat {}).1
      let s2 := (s1.readSub (descVi x.toNat) (descRec x.toNat sb.val) bs).1
      s.wbufEnt d.toNat sb.val = some w →
      (s.descRead d.toNat {}).2 = .ok x →
      s1.descCheck x.toNat (descVi x.toNat) = .ok →
      s1.descReady d.toNat = true →
      s1.codecOpen (s1.descPier d.toNat) = true →
      (s1.readSub (descVi x.toNat) (descRec x.toNat sb.val) bs).2 = .lines ls →
      exec (.subblockRewrite d sb bs stream) s = .next ((s2.rewriteSub w x.toNat (some ls) (bs.drop 16) (nats stream)).release))

/-- Stripes close, are written, are queued, and are cleaned. An open stripe closes, with STRIPE_PADDED where it is
not full; a closed stripe at a Pier that is on becomes written; a stripe the Pier owns joins its free queue of
256, any other push sets PUSH_REFUSED; garbage collection sets CLEANING and posts a job for each used record; a
relocated copy is committed once its stripe is written. Of what it says, log entries 6, 7, 88 and 89 tell what
is the model's choice. Rests on R147, R154, R155, R159, R369. -/
def Obligations.PackedStripesComplete : Prop :=
  -- stripeClose
  (∀ (n : Fin 16) (k : BitVec 32) (o : OpenStripe) (s : State),
      (s.pier n.val).open_.find? (fun o => o.base == 65536 * k.toNat) = some o →
      s.offline n.val = false →
      o.closed = false →
      240 ≤ o.used →
      s.stripeDue n.val o = true →
      exec (.stripeClose n k) s = .next (s.setOpen n.val { o with closed := true })) ∧
  -- stripeClose_padded
  (∀ (n : Fin 16) (k : BitVec 32) (o : OpenStripe) (s : State),
      (s.pier n.val).open_.find? (fun o => o.base == 65536 * k.toNat) = some o →
      s.offline n.val = false →
      o.closed = false →
      o.used < 240 →
      s.stripeDue n.val o = true →
      exec (.stripeClose n k) s = .next ((s.setOpen n.val { o with closed := true }).raise (136 + 16 * n.val) 0x305 INFO none o.base 0)) ∧
  -- stripeWritten
  (∀ (k : BitVec 32) (o : OpenStripe) (s : State),
      s.openStripe (65536 * k.toNat) = some o →
      o.closed = true →
      s.offline (s.stripeOwner o.base) = false →
      exec (.stripeWritten k) s = .next (s.stripeDone (s.stripeOwner o.base) o)) ∧
  -- pierPsPush
  (∀ (n : Fin 16) (v : BitVec 32) (i b : Nat) (s : State),
      s.pageShut (pgPier n.val) = false →
      s.stripeBase (65536 * v.toNat / 256) = some (i, b) →
      s.spanMember i (s.parityMember i (65536 * v.toNat)) = n.val →
      (s.pier n.val).freeQ.length < 256 →
      exec (.pierPsPush n v) s = .next (s.setPier n.val { (s.pier n.val) with freeQ := (s.pier n.val).freeQ ++ [65536 * v.toNat] })) ∧
  -- pierPsPush_full
  (∀ (n : Fin 16) (v : BitVec 32) (s : State),
      s.pageShut (pgPier n.val) = false →
      256 ≤ (s.pier n.val).freeQ.length →
      exec (.pierPsPush n v) s = .next (s.put (pgPier n.val) Reg.PIER_PS_STAT_PUSH_REFUSED 1)) ∧
  -- gcSelect
  (∀ (k : BitVec 32) (s : State),
      s.engNew = true →
      s.gcRuns = true →
      s.gcNext k.toNat = true →
      (s.stripe k.toNat).starts = [] →
      exec (.gcSelect k) s = .next (s.setStripe k.toNat { (s.stripe k.toNat) with st := 3 })) ∧
  -- gcSelect_job
  (∀ (k : BitVec 32) (sec d sb : Nat) (x : BitVec 512) (s : State),
      let s1 := s.setStripe k.toNat { (s.stripe k.toNat) with st := 3 }
      s.engNew = true →
      s.gcRuns = true →
      s.gcNext k.toNat = true →
      (s.stripe k.toNat).starts = [(sec, d, sb)] →
      (s.descRead d {}).2 ≠ .wait →
      (s1.descRead d {}).2 = .ok x →
      descUsed x.toNat = true →
      (descRec x.toNat sb).sector = (s1.descRead d {}).1.dataSectorDa (65536 * k.toNat) sec / 256 →
      (descRec x.toNat sb).cnt ≠ 0 →
      exec (.gcSelect k) s = .next ({ (s1.descRead d {}).1 with relocs := SMap.put (s1.descRead d {}).1.relocs (4 * d + sb) ⟨(descRec x.toNat sb).sector, descGen x.toNat, none, (descRec x.toNat sb).cnt⟩ })) ∧
  -- relocation_dead
  (∀ (d : BitVec 40) (sb : Fin 4) (bs : List Bursts) (j : Reloc) (x : BitVec 512) (s : State),
      let s1 := (s.descRead d.toNat {}).1
      SMap.get? s.relocs (4 * d.toNat + sb.val) = some j →
      (s.descRead d.toNat {}).2 = .ok x →
      j.dst = none →
      s.coast = false →
      s.gcRuns = true →
      (descRec x.toNat sb.val).sector ≠ j.sector ∨ descGen x.toNat ≠ j.gen →
      exec (.relocation d sb bs) s = .next ({ s1 with relocs := SMap.del s1.relocs (4 * d.toNat + sb.val) })) ∧
  -- relocation
  (∀ (d : BitVec 40) (sb : Fin 4) (bs : List Bursts) (j : Reloc) (x : BitVec 512) (ls : List (BitVec 512 × Bool)) (first : Nat) (s : State),
      let s1 := (s.descRead d.toNat {}).1
      let q := s1.sectorReads none ((List.range (4 * j.cnt)).map (fun i => s1.sectorLine j.sector i)) bs
      let p := q.1.place (q.1.descPier d.toNat) (q.1.regionId (256 * j.sector)) j.cnt d.toNat sb.val ls
      SMap.get? s.relocs (4 * d.toNat + sb.val) = some j →
      (s.descRead d.toNat {}).2 = .ok x →
      j.dst = none →
      s.coast = false →
      s.gcRuns = true →
      (descRec x.toNat sb.val).sector = j.sector →
      descGen x.toNat = j.gen →
      q.2 = some ls →
      p.2 = some first →
      exec (.relocation d sb bs) s = .next ((({ p.1 with relocs := SMap.put p.1.relocs (4 * d.toNat + sb.val) { j with dst := some first } } : State).closeReceiver (p.1.descPier d.toNat) first).gcCharge (256 * j.cnt))) ∧
  -- relocationCommit
  (∀ (d : BitVec 40) (sb : Fin 4) (j : Reloc) (first i b : Nat) (x : BitVec 512) (s : State),
      let s1 := (s.descRead d.toNat {}).1
      let s2 : State := { s1 with relocs := SMap.del s1.relocs (4 * d.toNat + sb.val) }
      SMap.get? s.relocs (4 * d.toNat + sb.val) = some j →
      j.dst = some first →
      s.stripeBase first = some (i, b) →
      s.openStripe b = none →
      (s.stripe (b / 65536)).st ≠ 1 →
      s.descReady d.toNat = true →
      (s.descRead d.toNat {}).2 = .ok x →
      descUsed x.toNat = true →
      (descRec x.toNat sb.val).sector = j.sector →
      descGen x.toNat = j.gen →
      exec (.relocationCommit d sb) s = .next ((s2.descWrite d.toNat (descPut x.toNat sb.val { (descRec x.toNat sb.val) with sector := first } (descCrc x.toNat))).subLive j.sector j.cnt))

/-- Refresh, training and calibration, and data-rate changes of a Pier. With the channel in normal operation a
refresh closes the rows it takes, an MR4 poll sets the interval, a ZQ calibration is noted; a pause starts with
all rows of its subchannel closed and ends with its updates applied; an adaptive row without a hit for ADAPT_NS
is closed. SWITCH with a VALID inactive set and no change running sets BUSY and starts the change where fewer
than four channels change, else queues it; it is refused while BUSY or without a valid set; the end makes the
other set active, takes its rate, raises FREQ_CHANGE and starts the lowest queued change; a write to the
inactive set takes the word's fields. Of what it says, log entry 104 tell what is the model's choice. Rests on
R61, R64, R65, R66, R67, R68, R69, R70, R79, R369. -/
def Obligations.DramUpkeepComplete : Prop :=
  -- refresh
  (∀ (n : Fin 16) (rank : Fin 8) (s : State),
      let s1 := s.setPier n.val { (s.pier n.val) with refs := (s.pier n.val).refs + 1 }
      let turn := (s.pier n.val).refs % 4
      s.channelUp n.val = true →
      (s.pier n.val).pause = 0 →
      rank.val < s.ranks n.val →
      exec (.refresh n rank) s = .next ((s1.refreshPart n.val 0 rank.val turn).refreshPart n.val 1 rank.val turn)) ∧
  -- mr4Poll
  (∀ (n : Fin 16) (hot : Bool) (s : State),
      s.channelUp n.val = true →
      exec (.mr4Poll n hot) s = .next (s.leaveIdle.put (pgPier n.val) Reg.PIER_REF_DOUBLE (b2n hot))) ∧
  -- zqcalStart
  (∀ (n : Fin 16) (sub : Fin 2) (s : State),
      s.pausesRun n.val = true →
      exec (.zqcalStart n sub) s = .next (s.setPier n.val { (s.pier n.val) with zq := SMap.put (s.pier n.val).zq sub.val s.time })) ∧
  -- trainPause
  (∀ (n : Fin 16) (sub : Fin 2) (s : State),
      s.pausesRun n.val = true →
      s.noPause = true →
      s.pauseDue n.val sub.val = true →
      (s.pier n.val).zqReady sub.val s.time = true →
      exec (.trainPause n sub) s = .next ((s.leaveIdle.setPier n.val { (s.pier n.val) with pause := setBit (s.pier n.val).pause sub.val, zq := SMap.del (s.pier n.val).zq sub.val, pauseAt := SMap.put (s.pier n.val).pauseAt sub.val s.time }).closeRows n.val (fun k => k % 2 == sub.val))) ∧
  -- trainPauseEnd
  (∀ (n : Fin 16) (sub : Fin 2) (delays : List (BitVec 36)) (s : State),
      let p : Pr := { (s.pier n.val) with pause := clrBit (s.pier n.val).pause sub.val }
      (s.pier n.val).pause.testBit sub.val = true →
      exec (.trainPauseEnd n sub 0 delays) s = .next (((((s.setPier n.val p).setPier n.val { p with lim := setBits p.lim (8 * sub.val) 8 0 }).put (pgPier n.val) Reg.PIER_TRAIN_STAT_PAUSES (s.fld (pgPier n.val) Reg.PIER_TRAIN_STAT_PAUSES + 1)).setDelays n.val (delays.map BitVec.toNat)).refreshDue n.val sub.val)) ∧
  -- adaptNsExpiry
  (∀ (n : Fin 16) (bank : Fin 512) (row t0 : Nat) (s : State),
      SMap.get? (s.pier n.val).rows bank.val = some (row, 2, t0) →
      t0 + s.fld (pgPier n.val) Reg.PIER_DCTL_ADAPT_NS ≤ s.time →
      exec (.adaptNsExpiry n bank) s = .next (s.setPier n.val { (s.pier n.val) with rows := SMap.del (s.pier n.val).rows bank.val })) ∧
  -- switch
  (∀ (n : Fin 16) (s : State),
      s.pageShut (pgPier n.val) = false →
      s.flag (pgPier n.val) Reg.PIER_SPEED_BUSY = false →
      s.flag (pgPier n.val) (Reg.PIER_TSET_VALID (1 - s.fld (pgPier n.val) Reg.PIER_SPEED_ACTIVE_SET)) = true →
      s.changing < 4 →
      exec (.switch n) s = .next ((s.put (pgPier n.val) Reg.PIER_SPEED_BUSY 1).startFreq n.val)) ∧
  -- switch_queued
  (∀ (n : Fin 16) (s : State),
      s.pageShut (pgPier n.val) = false →
      s.flag (pgPier n.val) Reg.PIER_SPEED_BUSY = false →
      s.flag (pgPier n.val) (Reg.PIER_TSET_VALID (1 - s.fld (pgPier n.val) Reg.PIER_SPEED_ACTIVE_SET)) = true →
      4 ≤ s.changing →
      exec (.switch n) s = .next ((s.put (pgPier n.val) Reg.PIER_SPEED_BUSY 1).setPier n.val { (s.pier n.val) with freqQ := true })) ∧
  -- switch_refused
  (∀ (n : Fin 16) (s : State),
      s.pageShut (pgPier n.val) = false →
      (s.flag (pgPier n.val) Reg.PIER_SPEED_BUSY = true ∨ s.flag (pgPier n.val) (Reg.PIER_TSET_VALID (1 - s.fld (pgPier n.val) Reg.PIER_SPEED_ACTIVE_SET)) = false) →
      exec (.switch n) s = .next (s.put (pgPier n.val) Reg.PIER_SPEED_REFUSED 1)) ∧
  -- timingSetWrite
  (∀ (n : Fin 16) (set : Fin 2) (off : Fin 32) (v : BitVec 32) (s : State),
      s.pageShut (pgPier n.val) = false →
      s.fld (pgPier n.val) Reg.PIER_SPEED_ACTIVE_SET ≠ set.val →
      exec (.timingSetWrite n set off v) s = .next ((Reg.tsetFields.filter (fun f => f.off == 0x60 + 0x80 * set.val + 4 * off.val)).foldl (fun (s : State) (f : Fld) => s.put (pgPier n.val) f (bits v.toNat f.lo f.width)) s)) ∧
  -- timingSetWrite_active
  (∀ (n : Fin 16) (set : Fin 2) (off : Fin 32) (v : BitVec 32) (s : State),
      s.pageShut (pgPier n.val) = false →
      s.fld (pgPier n.val) Reg.PIER_SPEED_ACTIVE_SET = set.val →
      exec (.timingSetWrite n set off v) s = .next (s.put (pgPier n.val) Reg.PIER_SPEED_REFUSED 1)) ∧
  -- freqChangeDone
  (∀ (n : Fin 16) (s : State),
      let pg := pgPier n.val
      let k := 1 - s.fld pg Reg.PIER_SPEED_ACTIVE_SET
      let old := s.fld pg Reg.PIER_SPEED_RATE
      let new := s.fld pg (Reg.PIER_TSET_RATE k)
      let s1 := (((((s.setPier n.val { (s.pier n.val) with freq := false }).put pg Reg.PIER_SPEED_ACTIVE_SET k).put pg Reg.PIER_SPEED_RATE new).put pg Reg.PIER_SPEED_BUSY 0).exitPauses n.val).raise (132 + 16 * n.val) 0x106 INFO none 0 (detail [old % 256, old / 256, new % 256, new / 256])
      (s.pier n.val).freq = true →
      (List.range 16).find? (fun q => (s1.pier q).freqQ) = none →
      exec (.freqChangeDone n) s = .next (s1.resumeCopies)) ∧
  -- freqChangeDone_next
  (∀ (n : Fin 16) (q : Nat) (s : State),
      let pg := pgPier n.val
      let k := 1 - s.fld pg Reg.PIER_SPEED_ACTIVE_SET
      let old := s.fld pg Reg.PIER_SPEED_RATE
      let new := s.fld pg (Reg.PIER_TSET_RATE k)
      let s1 := (((((s.setPier n.val { (s.pier n.val) with freq := false }).put pg Reg.PIER_SPEED_ACTIVE_SET k).put pg Reg.PIER_SPEED_RATE new).put pg Reg.PIER_SPEED_BUSY 0).exitPauses n.val).raise (132 + 16 * n.val) 0x106 INFO none 0 (detail [old % 256, old / 256, new % 256, new / 256])
      (s.pier n.val).freq = true →
      (List.range 16).find? (fun q => (s1.pier q).freqQ) = some q →
      exec (.freqChangeDone n) s = .next ((s1.startFreq q).resumeCopies))

/-- Scrub starts, steps, ends late or anew, and the uncorrectable window moves. A write of PIER_LIU_CTL takes its
fields and starts or stops the pass; a step checks and repairs the line it stands at and moves on, and passes
over a line scrub skips; the end of the period with a pass running sets SCRUB_LATE and raises its event once,
and with none running starts the next; an hour moves every bucket and tries the limit of each rank. Of what it
says, log entries 6 and 92 tell what is the model's choice. Rests on R45, R46, R47, R48, R49. -/
def Obligations.ScrubComplete : Prop :=
  -- pierLiuCtlWrite
  (∀ (n : Fin 16) (v : BitVec 32) (s : State),
      s.pageShut (pgPier n.val) = false →
      exec (.pierLiuCtlWrite n v) s = .next (s.writeLiuCtl n.val v.toNat)) ∧
  -- scrubStep_skip
  (∀ (n : Fin 16) (b : Bursts) (rank line da copy : Nat) (s : State),
      let s1 := s.leaveIdle
      (s.pier n.val).scrub = some (rank, line) →
      s1.serving = true →
      s1.urg3 = false →
      s1.pierOn n.val = true →
      s1.pierSeq n.val = true →
      s1.gateShut (17 + n.val) = false →
      s1.daOfLine n.val rank line = some (da, copy) →
      s1.scrubSkips da = true →
      exec (.scrubStep n b) s = .next (s1.scrubNext n.val rank line)) ∧
  -- scrubStep
  (∀ (n : Fin 16) (b : Bursts) (rank line da copy : Nat) (s : State),
      let s1 := s.leaveIdle
      (s.pier n.val).scrub = some (rank, line) →
      s1.serving = true →
      s1.urg3 = false →
      s1.pierOn n.val = true →
      s1.pierSeq n.val = true →
      s1.gateShut (17 + n.val) = false →
      s1.daOfLine n.val rank line = some (da, copy) →
      s1.scrubSkips da = false →
      s1.copyRuns da copy = true →
      (s1.scrubLine da copy b).2 = true →
      exec (.scrubStep n b) s = .next ((s1.scrubLine da copy b).1.scrubNext n.val rank line)) ∧
  -- scrubPeriodEnd_late
  (∀ (n : Fin 16) (at_ : Nat × Nat) (s : State),
      (s.pier n.val).scrubEnd ≤ s.time →
      s.ready = true →
      (s.pier n.val).scrub = some at_ →
      (s.pier n.val).scrubLate = false →
      exec (.scrubPeriodEnd n) s = .next (((s.setPier n.val { (s.pier n.val) with scrubLate := true }).put (pgPier n.val) Reg.PIER_LIU_STAT_SCRUB_LATE 1).raise (131 + 16 * n.val) 0x104 WARN none 0 0)) ∧
  -- scrubPeriodEnd
  (∀ (n : Fin 16) (s : State),
      (s.pier n.val).scrubEnd ≤ s.time →
      s.ready = true →
      (s.pier n.val).scrub = none →
      exec (.scrubPeriodEnd n) s = .next (s.startScrub n.val)) ∧
  -- ueWindowTick
  (∀ (n : Fin 16) (s : State),
      exec (.ueWindowTick n) s = .next ((List.range 8).foldl (fun (s : State) (r : Nat) => s.rankLimit n.val r) (s.setPier n.val { (s.pier n.val) with ueB := (s.pier n.val).ueB.map (fun x => (x.1, (0 :: x.2).take 256)) })))

/-- A retired rank is copied or rebuilt onto a spare, line by line. Sparing of a waiting rank takes the chosen
spare, records it, goes to COPYING and raises SPARE_START, or goes to NO_SPARE and raises SPARE_EXHAUSTED; a
copy step reads the line at B with its recovery, writes it to the spare without directory fields and moves B; a
rebuild step writes the recomputed or the poisoned line; a write of RETIRE_UNCOPIED takes TARGET out of service.
Of what it says, log entries 6, 84, 93 and 100 tell what is the model's choice. Rests on R71, R72, R73, R74,
R75, R76. -/
def Obligations.SparingComplete : Prop :=
  -- sparingStart
  (∀ (n : Fin 16) (rank : Fin 8) (m : Nat) (s : State),
      let pg := pgPier n.val
      let s1 := s.setPier n.val { (s.pier n.val) with pendRank := (s.pier n.val).pendRank.filter (fun x => x != rank.val) }
      let phys := s1.fld (pgPier m) Reg.PIER_GEOM_SPARE_RANK
      let s2 := (((s1.put pg Reg.PIER_SPARE_CTL_FAIL_RANK rank.val).put pg Reg.PIER_SPARE_CTL_SPARE_PIER m).put pg Reg.PIER_SPARE_CTL_SPARE_PHYS phys).put pg Reg.PIER_SPARE_CTL_STATE 1
      let s3 := if m = n.val then s2 else s2.put (pgPier m) Reg.PIER_SPARE_CTL_LENT 1
      s.engNew = true →
      (s.pier n.val).pendRank.contains rank.val = true →
      s.fld pg Reg.PIER_SPARE_CTL_STATE = 0 →
      s1.sparing n.val rank.val = false →
      s1.chooseSpare n.val = some m →
      exec (.sparingStart n rank) s = .next ((s3.setPier n.val { (s3.pier n.val) with bound := 0, rebuild := (s3.pier n.val).dead.testBit rank.val }).raise (133 + 16 * n.val) 0x107 WARN none 0 0)) ∧
  -- sparingStart_none
  (∀ (n : Fin 16) (rank : Fin 8) (s : State),
      let s1 := s.setPier n.val { (s.pier n.val) with pendRank := (s.pier n.val).pendRank.filter (fun x => x != rank.val) }
      s.engNew = true →
      (s.pier n.val).pendRank.contains rank.val = true →
      s.fld (pgPier n.val) Reg.PIER_SPARE_CTL_STATE = 0 →
      s1.sparing n.val rank.val = false →
      s1.chooseSpare n.val = none →
      exec (.sparingStart n rank) s = .next ((s1.put (pgPier n.val) Reg.PIER_SPARE_CTL_STATE 5).raise (133 + 16 * n.val) 0x10A ERROR none 0 (detail [rank.val]))) ∧
  -- spareCopyStep
  (∀ (n : Fin 16) (b : Bursts) (da copy : Nat) (l : Line) (s : State),
      let s1 := (s.copyReady da).1
      let q := s1.readLine da copy (s1.seedOf da) b none
      s.spareRuns n.val = true →
      (s.pier n.val).rebuild = false →
      s.daOfLine n.val (s.fld (pgPier n.val) Reg.PIER_SPARE_CTL_FAIL_RANK) (s.pier n.val).bound = some (da, copy) →
      (s.copyReady da).2 = true →
      q.2 = .good l →
      exec (.spareCopyStep n b) s = .next (q.1.toSpare n.val da copy (dirless (s1.seedOf da) da l))) ∧
  -- spareRebuildStep
  (∀ (n : Fin 16) (b : Bursts) (da copy : Nat) (s : State),
      let s1 := (s.copyReady da).1
      let q := s1.recompLine da copy (s.seedOf da) b.srcs
      s.spareRuns n.val = true →
      (s.pier n.val).rebuild = true →
      s.daOfLine n.val (s.fld (pgPier n.val) Reg.PIER_SPARE_CTL_FAIL_RANK) (s.pier n.val).bound = some (da, copy) →
      s.sourcesRun da copy (s.seedOf da) = true →
      (s.copyReady da).2 = true →
      q.2 = none →
      exec (.spareRebuildStep n b) s = .next (q.1.toSpare n.val da copy (q.1.lostLine da (s.seedOf da)))) ∧
  -- retireUncopied
  (∀ (n : Fin 16) (s : State),
      let pg := pgPier n.val
      let t := s.fld pg Reg.PIER_SPARE_CTL_TARGET
      s.pageShut pg = false →
      t < (s.physRanks n.val).length →
      s.fld pg Reg.PIER_SPARE_CTL_STATE = 0 →
      (s.pier n.val).pendRank = [] →
      exec (.retireUncopied n) s = .next (((s.setPier n.val { (s.pier n.val) with dead := setBit (s.pier n.val).dead t }).put pg (Reg.PIER_RANK_UE_RETIRED ((s.physRanks n.val).getD t t)) 1).setPier n.val { (s.pier n.val) with dead := setBit (s.pier n.val).dead t, pendRank := [t] }))

/-- Heat is folded and decayed, and the pressure ladder evaluated, while the engines work. With the engines working,
every sample raises its page's heat by HEAT_STEP to at most 255 and TAIL meets HEAD; a decay takes a quarter,
rounded up, and drops zeros; an evaluation raises each step newly reached and asks for releases from step 2 on.
Of what it says, log entries 95, 96, 98 and 106 tell what is the model's choice. Rests on R113, R127, R128. -/
def Obligations.HeatAndLadderComplete : Prop :=
  -- heatUpdate
  (∀ (s : State),
      s.engOn = true →
      s.heatAt ≤ s.time →
      exec .heatUpdate s = .next ((List.range 16).foldl (fun (s : State) (n : Nat) => s.foldHeat n) { s with heatAt := s.time + 1000000 })) ∧
  -- heatDecay
  (∀ (s : State),
      s.engOn = true →
      s.decayAt ≤ s.time →
      exec .heatDecay s = .next (s.heat.foldl (fun (s : State) (x : Nat × Nat) => s.setHeat x.1 (decayed x.2)) { s with decayAt := s.time + 1000000 * s.pol 0x102 })) ∧
  -- pressureLadder
  (∀ (s : State),
      s.engOn = true →
      exec .pressureLadder s = .next (s.ladderEval))

/-- A page is allocated, moved, finished and resolved through its leaf. An allowed place for a held write is
claimed, filled with zeros and named by compare-and-write; a move logs itself, sets M and invalidates; a copied
page is named; a finished move frees the source and clears its log; an engine that resumes frees the source of a
move whose leaf names its destination and gives back the destination of any other. Of what it says, log entries
7, 23, 25 and 107 tell what is the model's choice. Rests on R108, R117, R118, R120, R130. -/
def Obligations.PageMovesComplete : Prop :=
  -- pageAllocate
  (∀ (id : BitVec 32) (place : Place) (r : Req) (da lvl e : Nat) (s : State),
      s.req? id.toNat = some r →
      r.phase = .heldAlloc →
      s.engOn = true →
      s.findLeaf r.vi r.via = some (da, lvl, e) →
      leafV e = true →
      leafTier e = 3 →
      leafM e = true →
      s.placeOk r.vi (r.via / 4096) place = true →
      exec (.pageAllocate id place) s = .next ((s.placePage r.vi (r.via / 4096) da e place).settle r.port)) ∧
  -- moveStart
  (∀ (eng : Fin 64) (vi : BitVec 16) (page : BitVec 45) (dest : Place) (da e : Nat) (s : State),
      let s1 : State := { s with moves := ⟨vi.toNat, page.toNat, e, dest, eng.val, 1, false⟩ :: s.moves }
      s.engNew = true →
      s.urg3 = false →
      (s.vi vi.toNat).movable = true →
      s.moveOf vi.toNat page.toNat = none →
      s.moveAt ≤ s.time →
      s.moveDest vi.toNat dest = true →
      s.placeReady dest = true →
      s.findLeaf vi.toNat (4096 * page.toNat) = some (da, 1, e) →
      leafV e = true →
      leafM e = false →
      leafTier e ≠ 3 →
      s.metaReady da = true →
      (s.moveWanted e page.toNat (s.placeTier dest) = true ∨ s.evacuates e page.toNat = true) →
      (s1.casEntry da e (e + 2) {}).2 = true →
      exec (.moveStart eng vi page dest) s = .next ((((s1.casEntry da e (e + 2) {}).1.claim vi.toNat dest).moveCharge 4096).invalidate vi.toNat page.toNat 1 false)) ∧
  -- moveCopyDone
  (∀ (vi : BitVec 16) (page : BitVec 45) (bs : List Bursts) (streams : List (List (BitVec 8))) (m : MoveLog) (ls : List (BitVec 512 × Bool)) (s2 : State) (s : State),
      let s0 := (s.recallPage m.vi m.e0 m.page).1
      let q := s0.readPageAt m.vi m.e0 m.page bs
      s.moveOf vi.toNat page.toNat = some m →
      m.stage = 1 →
      m.suspect = false →
      s.urg3 = false →
      s.moveReady m = true →
      s.engOn = true →
      s.pageQuiet m.e0 m.page = true →
      s.moveRuns m = true →
      (s.recallPage m.vi m.e0 m.page).2 = true →
      q.2 = some ls →
      q.1.writePlace m.vi m.dest ls (streams.map nats) = some s2 →
      s2.destOpen m = false →
      exec (.moveCopyDone vi page bs streams) s = .next ((s2.nameDest m).release)) ∧
  -- moveFinish
  (∀ (vi : BitVec 16) (page : BitVec 45) (m : MoveLog) (s : State),
      s.moveOf vi.toNat page.toNat = some m →
      m.stage = 3 →
      s.engOn = true →
      m.suspect = false →
      s.leafPlaceReady m.e0 = true →
      s.pageQuiet m.e0 m.page = true →
      exec (.moveFinish vi page) s = .next (((s.freeLeaf m.vi m.e0 (4096 * m.page)).clearMove m.vi m.page).ladderCross)) ∧
  -- moveLogResolve_done
  (∀ (vi : BitVec 16) (page : BitVec 45) (m : MoveLog) (da lvl e : Nat) (s : State),
      s.moveOf vi.toNat page.toNat = some m →
      s.engOn = true →
      m.suspect = true →
      s.moveReady m = true →
      s.pageQuiet m.e0 m.page = true →
      s.leafPlaceReady m.e0 = true →
      s.findLeaf m.vi (4096 * m.page) = some (da, lvl, e) →
      s.namesDest m e = true →
      exec (.moveLogResolve vi page) s = .next ((((s.invalidate m.vi m.page 1 false).freeLeaf m.vi m.e0 (4096 * m.page)).clearMove m.vi m.page).ladderCross)) ∧
  -- moveLogResolve_undone
  (∀ (vi : BitVec 16) (page : BitVec 45) (m : MoveLog) (da lvl e : Nat) (s : State),
      s.moveOf vi.toNat page.toNat = some m →
      s.engOn = true →
      m.suspect = true →
      s.moveReady m = true →
      s.findLeaf m.vi (4096 * m.page) = some (da, lvl, e) →
      s.namesDest m e = false →
      leafM e = false →
      exec (.moveLogResolve vi page) s = .next (((s.invalidate m.vi m.page 1 false).unclaim m.vi m.dest).clearMove m.vi m.page))

/-- Keys load and clear, map entries are guarded, and regions are set up, rotated and released. GO loads the staged
keys into a FREE slot with MODE 0 to 2 and clears the stage; a GO for another slot or MODE 3 sets REFUSED; GO in
HUB_KEY_CLEAR frees a LOADED slot and is refused elsewhere; a map entry changes unless its old or new slot is
ACTIVE or rotating. A command that the engines take and whose checks pass: setup maps the granules, sets the
storage and takes the slot to INIT with a fresh tree key; the initialised slot becomes ACTIVE and the response
goes back; a rotation starts; a rebuild and a release answer with what they found. Of what it says, log entries
13, 36, 39 and 99 tell what is the model's choice. Rests on R163, R191, R173, R182, R183, R184, R263. -/
def Obligations.KeysComplete : Prop :=
  -- hubKeyLoad
  (∀ (v : BitVec 32) (s : State),
      let k := bits v.toNat 0 4
      let mode := bits v.toNat 4 2
      let s1 := (s.put 3 Reg.HUB_KEY_LOAD_SLOT k).put 3 Reg.HUB_KEY_LOAD_MODE mode
      v.toNat.testBit 6 = true →
      v.toNat.testBit 7 = false →
      (s.slot k).st = 0 →
      (mode = 1 ∨ mode = 2) →
      exec (.hubKeyLoad v) s = .next ({ s1.setSlot k { KSlot.blank with st := 1, mode := mode, dataKey := BitVec.ofNat 256 (ofLe (padTo 32 s.stage)), tagKey := BitVec.ofNat 256 (ofLe (padTo 32 (s.stage.drop 32))) } with stage := [] })) ∧
  -- hubKeyLoad_refused
  (∀ (v : BitVec 32) (s : State),
      let k := bits v.toNat 0 4
      let mode := bits v.toNat 4 2
      v.toNat.testBit 6 = true →
      v.toNat.testBit 7 = false →
      (s.slot k).st ≠ 0 ∨ mode = 3 →
      exec (.hubKeyLoad v) s = .next (((s.put 3 Reg.HUB_KEY_LOAD_SLOT k).put 3 Reg.HUB_KEY_LOAD_MODE mode).put 3 Reg.HUB_KEY_LOAD_REFUSED 1)) ∧
  -- hubKeyClear
  (∀ (v : BitVec 32) (s : State),
      v.toNat.testBit 4 = true →
      v.toNat.testBit 5 = false →
      (s.slot (bits v.toNat 0 4)).st = 1 →
      exec (.hubKeyClear v) s = .next ((s.put 3 Reg.HUB_KEY_CLEAR_SLOT (bits v.toNat 0 4)).setSlot (bits v.toNat 0 4) KSlot.blank)) ∧
  -- hubKeyClear_refused
  (∀ (v : BitVec 32) (s : State),
      v.toNat.testBit 4 = true →
      v.toNat.testBit 5 = false →
      (s.slot (bits v.toNat 0 4)).st ≠ 1 →
      exec (.hubKeyClear v) s = .next ((s.put 3 Reg.HUB_KEY_CLEAR_SLOT (bits v.toNat 0 4)).put 3 Reg.HUB_KEY_CLEAR_REFUSED 1)) ∧
  -- kmapWrite
  (∀ (v : BitVec 32) (s : State),
      let g := s.fld 3 Reg.HUB_KMAP_IDX_GIB
      let e := bits v.toNat 0 5 + 256 * bits v.toNat 8 14
      v.toNat.testBit 31 = false →
      s.kmapFixed (SMap.getD s.kmap g 0) = false →
      s.kmapFixed e = false →
      e ≠ 0 →
      exec (.kmapWrite v) s = .next ({ s with kmap := SMap.put s.kmap g e })) ∧
  -- kmapWrite_refused
  (∀ (v : BitVec 32) (s : State),
      v.toNat.testBit 31 = false →
      s.kmapFixed (bits v.toNat 0 5 + 256 * bits v.toNat 8 14) = true →
      exec (.kmapWrite v) s = .next (s.put 3 Reg.HUB_KMAP_DATA_REFUSED 1)) ∧
  -- regionSetup
  (∀ (src : CmdSrc) (req : List (BitVec 8)) (ctrBase : BitVec 36) (lvlBases : List (BitVec 36)) (p : List Nat) (s : State),
      let s1 := s.taken src 0xC200
      let k := pb p 0
      let gs := setupGranules p
      let lv := lvlBases.map BitVec.toNat
      let s2 := (s1.mapGranules k gs).setStorage k gs.length (s1.slot k).mode ctrBase.toNat lv (storageRanges gs.length (s1.slot k).mode ctrBase.toNat lv)
      let s3 := s2.setSlot k { (s1.slot k) with st := 2, cmd := true, treeKey := Config.treeKey s2.free, root := List.replicate 8 0 }
      s.engTakes src 0xC200 (nats req) p = true →
      s1.setupCheck p ctrBase.toNat lv = stDone →
      exec (.regionSetup src req ctrBase lvlBases) s = .next ((s3.tick).keepRunning (65536 + k) 0xC200 src)) ∧
  -- regionInitDone
  (∀ (k : Fin 16) (s : State),
      (s.slot k.val).st = 2 →
      s.engOn = true →
      exec (.regionInitDone k) s = .next ((s.setSlot k.val { (s.slot k.val) with st := 3, cmd := false }).endRunning (65536 + k.val) [stDone])) ∧
  -- rotateKey
  (∀ (src : CmdSrc) (req : List (BitVec 8)) (ctrBase : BitVec 36) (lvlBases : List (BitVec 36)) (p : List Nat) (s : State),
      let s1 := s.taken src 0xC201
      let lv := lvlBases.map BitVec.toNat
      s.engTakes src 0xC201 (nats req) p = true →
      s1.rotateCheck p (s1.rotateRanges (pb p 0) (pb p 1) ctrBase.toNat lv) = stDone →
      exec (.rotateKey src req ctrBase lvlBases) s = .next ((s1.startRotation (pb p 0) (pb p 1) ctrBase.toNat lv).keepRunning (65536 + pb p 0) 0xC201 src)) ∧
  -- rebuildTrusting
  (∀ (src : CmdSrc) (req : List (BitVec 8)) (bs : List Bursts) (p : List Nat) (s : State),
      s.engTakes src 0xC202 (nats req) p = true →
      ((s.taken src 0xC202).rebuildTrusting p bs).2 = stDone →
      exec (.rebuildTrusting src req bs) s = .next (((s.taken src 0xC202).rebuildTrusting p bs).1.respondCmd src 0xC202 [stDone])) ∧
  -- regionRelease
  (∀ (src : CmdSrc) (req : List (BitVec 8)) (p : List Nat) (s : State),
      s.engTakes src 0xC203 (nats req) p = true →
      ((s.taken src 0xC203).releaseRegion p).2 = stDone →
      exec (.regionRelease src req) s = .next (((s.taken src 0xC203).releaseRegion p).1.respondCmd src 0xC203 [stDone]))

/-- Counters are fetched, lost and rebuilt, and a rotation goes on. A fetched entry whose tree tag agrees with its
parent's version enters the cache; the parent raises the version of a dirty entry and acknowledges; an
acknowledged dirty entry is written under that version and is clean; a line of an overflowed frame is read under
its old counter and written under the new one. While the engines rotate, a step at a plain line re-encrypts it;
at the end of the region the step ends the rotation where nothing of the source is lost; a stripe that holds
nothing is passed whole once its counters are reset. Of what it says, log entries 7, 12, 37, 87, 90 and 99 tell
what is the model's choice. Rests on R168, R173, R175, R178, R179, R184, R185, R187, R188. -/
def Obligations.CounterTreeComplete : Prop :=
  -- counterFetch
  (∀ (da : BitVec 48) (b : Bursts) (k lvl idx ver : Nat) (s1 : State) (l : Line) (s : State),
      let d := 64 * (da.toNat / 64)
      let q := s1.readLine d 0 0 b none
      s.lineRuns d = true →
      s.ctrId d = some (k, lvl, idx) →
      s.hasCtrs k = true →
      SMap.get? s.cc (d / 64) = none →
      s.entryLost k lvl idx = false →
      (if s.treeLevels k = 0 then some 0 else s.parentVersion k lvl idx) = some ver →
      s.ccRoom (s.ctrPier d) = some s1 →
      q.2 = .good l →
      q.1.treeOk k lvl d ver l = true →
      exec (.counterFetch da b) s = .next ({ q.1 with cc := SMap.put q.1.cc (d / 64) ⟨k, lvl, idx, BitVec.ofNat 512 (untagged lvl l.data), false, false, none, false⟩ })) ∧
  -- versionIncrement
  (∀ (da : BitVec 48) (e e1 : CEnt) (v : Nat) (s : State),
      let key := da.toNat / 64
      let s1 := s.raiseVersion e.slot e.lvl e.idx (v + 1)
      SMap.get? s.cc key = some e →
      e.dirty = true →
      e.acked = false →
      s.treeLevels e.slot ≠ 0 →
      s.parentVersion e.slot e.lvl e.idx = some v →
      SMap.get? s1.cc key = some e1 →
      exec (.versionIncrement da) s = .next ({ s1 with cc := SMap.put s1.cc key { e1 with acked := true } })) ∧
  -- counterWriteback
  (∀ (da : BitVec 48) (e : CEnt) (v : Nat) (s : State),
      let s1 := s.writeCtr e.slot e.lvl e.idx v e.body
      SMap.get? s.cc (da.toNat / 64) = some e →
      e.dirty = true →
      e.ovf = none →
      (if s.treeLevels e.slot = 0 then some 0 else if e.acked then s.parentVersion e.slot e.lvl e.idx else none) = some v →
      exec (.counterWriteback da) s = .next ({ s1 with cc := SMap.put s1.cc (da.toNat / 64) { e with dirty := false, acked := false } })) ∧
  -- overflowStep
  (∀ (da : BitVec 48) (b : Bursts) (key mask : Nat) (e : CEnt) (old d : BitVec 512) (s : State),
      let a := 64 * (da.toNat / 64)
      let s1 := (s.jobRecall a).1
      let q := s1.readPlain a (s1.seedOf a) b none
      let w := q.1.writePlain a (s1.seedOf a) (s1.dramLine a 0).tier d false (0, 0, 0)
      s.serving = true →
      s.lineRuns a = true →
      s.ctrEnt a = some (key, some e) →
      e.ovf = some (old, mask) →
      mask.testBit (lineNo a) = false →
      ctrMajor e.body ≠ 0 →
      (s.jobRecall a).2 = true →
      q.2 = .ok d →
      w.2 = .ok →
      exec (.overflowStep da b) s = .next (w.1.jobClear a)) ∧
  -- rotationStep_end
  (∀ (b : Bursts) (s : State),
      s.rotateRuns = true →
      s.rotEnd = true →
      (s.slot s.rotSrc).lostList = [] →
      (s.slot s.rotSrc).allLost = false →
      (s.slot s.rotSrc).skipped = [] →
      exec (.rotationStep b) s = .next (s.rotateDone)) ∧
  -- rotationStep
  (∀ (b : Bursts) (s : State),
      let da := 64 * s.rotBound
      s.rotateRuns = true →
      s.rotEnd = false →
      s.lineRuns da = true →
      s.daKind da = .frame →
      s.subtreeLost da = false →
      s.ctrEnt da = none →
      s.primDa da = da →
      exec (.rotationStep b) s = .next (s.rotateLine da false b)) ∧
  -- stripeRotationStep
  (∀ (bs : List Bursts) (i a : Nat) (s1 : State) (s : State),
      let units := (s.stripeLines i a).filter (fun d => d % 4096 == 0)
      s.rotateRuns = true →
      s.rotEnd = false →
      s.daKind (64 * s.rotBound) = .packed →
      s.stripeBase (64 * s.rotBound / 256) = some (i, a) →
      (s.stripe (a / 65536)).st < 2 →
      (s.openStripe a).all (fun o => !o.closed) = true →
      (units.any (fun d => s.subtreeLost d)) = false →
      s.resetUnits units = some s1 →
      s1.rotEnd = false →
      exec (.stripeRotationStep bs) s = .next (s1.moveB 1024))

/-- The directory is flushed and written back, and a lost host's lines are swept. DIR_FLUSH sets BUSY and starts the
flush; a dirty entry of a free line is written back with its fields; the sweep of a lost port corrects one line
after another and ends with HOST_SWEEP_DONE. Of what it says, log entries 54 and 94 tell what is the model's
choice. Rests on R198, R200, R210, R212. -/
def Obligations.DirectoryComplete : Prop :=
  -- dirFlush
  (∀ (s : State),
      exec .dirFlush s = .next (((s.put 4 Reg.HUB_COH_CTL_FLUSH_BUSY 1).flushStep).release)) ∧
  -- directoryWriteback
  (∀ (da : BitVec 48) (b : Bursts) (e : DirEnt) (s : State),
      SMap.get? s.dir (da.toNat / 64) = some e →
      e.dirty = true →
      e.t2 = false →
      s.lineFree (da.toNat / 64) = true →
      s.lineRuns (64 * (da.toNat / 64)) = true →
      exec (.directoryWriteback da b) s = .next ((s.dirWriteback (64 * (da.toNat / 64)) e b).release)) ∧
  -- hostSweepStep_end
  (∀ (p : Fin 8) (vi : BitVec 16) (page : BitVec 45) (line : Fin 64) (b : Bursts) (s : State),
      (s.prt p.val).sweep = true →
      s.engNew = true →
      s.urg3 = false →
      s.sweepNext (s.sweepVis p.val) 0 (s.prt p.val).sweepFrom = none →
      exec (.hostSweepStep p vi page line b) s = .next ((s.endSweep p.val).urgUpdate p.val)) ∧
  -- hostSweepStep
  (∀ (p : Fin 8) (vi : BitVec 16) (page : BitVec 45) (line : Fin 64) (b : Bursts) (pos a lvl e : Nat) (s : State),
      let da := leafDa e lvl (4096 * page.toNat) + 64 * line.val
      let s1 := (s.sweepLine vi.toNat da b).1
      let s2 := s1.setPrt p.val { (s1.prt p.val) with sweepFrom := pos + 1 }
      (s.prt p.val).sweep = true →
      s.engNew = true →
      s.urg3 = false →
      s.sweepNext (s.sweepVis p.val) 0 (s.prt p.val).sweepFrom = some (pos, vi.toNat, page.toNat) →
      pos % 64 = line.val →
      s.findLeaf vi.toNat (4096 * page.toNat) = some (a, lvl, e) →
      s.lineFree (da / 64) = true →
      s.lineRuns da = true →
      (s.sweepLine vi.toNat da b).2 = true →
      (s2.sweepNext (s2.sweepVis p.val) 0 (pos + 1)).isNone = false →
      exec (.hostSweepStep p vi page line b) s = .next (s2))

/-- A VI is created, bound, quiesced, reset and removed. For a command that the engines take and whose checks pass:
creation fills a FREE tag's entry and takes it to CREATING; the built VI becomes QUIESCED and the response goes
back; binding, quiescing, resetting and removing act on the VI their payload names, and the drained VI becomes
QUIESCED. Of what it says, log entries 33 and 108 tell what is the model's choice. Rests on R217, R218, R222,
R223, R225. -/
def Obligations.ViLifecycleComplete : Prop :=
  -- createVi
  (∀ (src : CmdSrc) (req : List (BitVec 8)) (tpool : BitVec 36) (descBase : BitVec 40) (p : List Nat) (t : Nat) (back : List Run) (s : State),
      let s1 := s.taken src 0xC100
      let v := newVi (s1.createFields p) tpool.toNat back
      let s2 := (s1.setVi t { v with epoch := (s1.vi t).epoch }).takeBack t
      s.engTakes src 0xC100 (nats req) p = true →
      s1.askTag ((pb p 2).testBit 0) (pf p 0 2) = some t →
      s1.createCheck (some t) (createClean p) (s1.createFields p) tpool.toNat = stDone →
      s1.backing (s1.createFields p) descBase.toNat = some back →
      (s1.storedDescs v.hasDesc).all s1.descReady = true →
      exec (.createVi src req tpool descBase) s = .next ((((s2.viTo t .creating).keepRunning t 0xC100 src).pacerUpdate).ladderCross)) ∧
  -- viCreateDone
  (∀ (vi : BitVec 16) (s1 : State) (s : State),
      (s.vi vi.toNat).st = .creating →
      s.engOn = true →
      s.buildVi vi.toNat = some s1 →
      exec (.viCreateDone vi) s = .next ((s1.viTo vi.toNat .quiesced).endRunning vi.toNat (s1.createRsp vi.toNat))) ∧
  -- bindVi
  (∀ (src : CmdSrc) (req : List (BitVec 8)) (p : List Nat) (s : State),
      s.engTakes src 0xC101 (nats req) p = true →
      (s.taken src 0xC101).bindCheck p = stDone →
      (pb p 2 = 0 ∨ (s.taken src 0xC101).leavesReady (pf p 0 2) false = true) →
      exec (.bindVi src req) s = .next (((s.taken src 0xC101).bind (pf p 0 2) (pb p 2) (bits (pb p 3) 0 4) (bits (pf p 4 4) 0 18)).respondCmd src 0xC101 [stDone])) ∧
  -- quiesceVi
  (∀ (src : CmdSrc) (req : List (BitVec 8)) (p : List Nat) (s : State),
      s.engTakes src 0xC102 (nats req) p = true →
      (s.taken src 0xC102).tagCheck (pf p 0 2) (fun st => st == .active || st == .frozen) = stDone →
      exec (.quiesceVi src req) s = .next (((s.taken src 0xC102).viTo (pf p 0 2) .quiescing).keepRunning (pf p 0 2) 0xC102 src)) ∧
  -- quiesceDone
  (∀ (vi : BitVec 16) (s : State),
      let t := vi.toNat
      let s1 := ((s.invStep t).recallVi t).1
      (s.vi t).st = .quiescing →
      s.engOn = true →
      s.drained t = true →
      s.moves.any (fun m => m.vi == t) = false →
      ((s.invStep t).recallVi t).2 = true →
      exec (.quiesceDone vi) s = .next (((s1.stepDone t).viTo t .quiesced).endRunning t [stDone])) ∧
  -- resetVi
  (∀ (src : CmdSrc) (req : List (BitVec 8)) (p : List Nat) (s2 : State) (s : State),
      let s1 := s.taken src 0xC103
      s.engTakes src 0xC103 (nats req) p = true →
      s1.tagCheck (pf p 0 2) (fun st => st == .quiesced) = stDone →
      s1.backingReady (pf p 0 2) = true →
      (s1.viTo (pf p 0 2) .resetting).resetVi (pf p 0 2) = some s2 →
      exec (.resetVi src req) s = .next ((s2.viTo (pf p 0 2) .quiesced).respondCmd src 0xC103 [stDone])) ∧
  -- removeVi
  (∀ (src : CmdSrc) (req : List (BitVec 8)) (p : List Nat) (s : State),
      s.engTakes src 0xC104 (nats req) p = true →
      (s.taken src 0xC104).tagCheck (pf p 0 2) (fun st => st == .quiesced) = stDone →
      (s.taken src 0xC104).backingReady (pf p 0 2) = true →
      exec (.removeVi src req) s = .next (((s.taken src 0xC104).removeVi (pf p 0 2)).respondCmd src 0xC104 [stDone]))

/-- A VI is frozen, thawed and logged, and its page's registers act. A freeze of an ACTIVE VI sets W in every leaf
and goes on to FROZEN, and given again it goes on from where it stood; a thaw clears W, makes the VI ACTIVE and
releases its held writes; dirty logging starts with an empty bitmap and stops; the doorbell raises its event
with the value, the missed count clears, and the telemetry words are updated. Of what it says, log entry 33 tell
what is the model's choice. Rests on R217, R227, R228, R232. -/
def Obligations.ViFreezeAndLogComplete : Prop :=
  -- relayFreeze
  (∀ (src : CmdSrc) (req : List (BitVec 8)) (p : List Nat) (s : State),
      SMap.get? s.running (pf (s.payloadOf src 0xC105 req) 0 2) ≠ some (0xC105, src) →
      s.engTakes src 0xC105 (nats req) p = true →
      (s.taken src 0xC105).tagCheck (pf p 0 2) (fun st => st == .active) = stDone →
      (s.taken src 0xC105).leavesReady (pf p 0 2) true = true →
      exec (.relayFreeze src req) s = .next (((s.taken src 0xC105).keepRunning (pf p 0 2) 0xC105 src).freezeGo (pf p 0 2))) ∧
  -- relayFreeze_again
  (∀ (src : CmdSrc) (req : List (BitVec 8)) (s : State),
      SMap.get? s.running (pf (s.payloadOf src 0xC105 req) 0 2) = some (0xC105, src) →
      s.engOn = true →
      exec (.relayFreeze src req) s = .next (s.freezeGo (pf (s.payloadOf src 0xC105 req) 0 2))) ∧
  -- relayThaw
  (∀ (src : CmdSrc) (req : List (BitVec 8)) (p : List Nat) (s : State),
      let s1 := s.taken src 0xC106
      let t := pf p 0 2
      s.engTakes src 0xC106 (nats req) p = true →
      s1.tagCheck t (fun st => st == .frozen) = stDone →
      s1.leavesReady t false = true →
      exec (.relayThaw src req) s = .next (((((s1.clearW t).viTo t .active).invPorts t (s1.vi t).ports).unholdVi t).respondCmd src 0xC106 [stDone])) ∧
  -- dirtyLogStart
  (∀ (src : CmdSrc) (req : List (BitVec 8)) (base : BitVec 36) (p : List Nat) (s : State),
      let s1 := s.taken src 0xC107
      let t := pf p 0 2
      pb (s.payloadOf src 0xC107 req) 2 ≠ 2 →
      s.engTakes src 0xC107 (nats req) p = true →
      s1.dlogCheck p base.toNat = stDone →
      pb p 2 = 1 →
      exec (.dirtyLogStart src req base) s = .next (({ s1.setVi t { (s1.vi t) with dirtyLog := true, dlogBase := if (s1.vi t).dirtyLog then (s1.vi t).dlogBase else base.toNat } with dirty := SMap.put s1.dirty t [] } : State).respondCmd src 0xC107 [stDone])) ∧
  -- dirtyLogStop
  (∀ (src : CmdSrc) (req : List (BitVec 8)) (p : List Nat) (s : State),
      let s1 := s.taken src 0xC107
      let t := pf p 0 2
      pb (s.payloadOf src 0xC107 req) 2 = 2 →
      s.engTakes src 0xC107 (nats req) p = true →
      s1.dlogCheck p 0 = stDone →
      pb p 2 = 2 →
      exec (.dirtyLogStop src req) s = .next (({ s1.setVi t { (s1.vi t) with dirtyLog := false, dlogBase := 0 } with dirty := SMap.del s1.dirty t } : State).respondCmd src 0xC107 [stDone])) ∧
  -- viDoorbell
  (∀ (p : Fin 8) (ld : Fin 16) (vi : BitVec 16) (v : BitVec 32) (s : State),
      s.viPage p.val ld.val vi.toNat = true →
      exec (.viDoorbell p ld vi v) s = .next (s.raise 24 0x506 INFO (some vi.toNat) 0 (detail (leBytes 2 vi.toNat ++ leBytes 4 v.toNat)))) ∧
  -- fqMissedClear
  (∀ (p : Fin 8) (ld : Fin 16) (vi : BitVec 16) (v : BitVec 32) (s : State),
      s.viPage p.val ld.val vi.toNat = true →
      v.toNat.testBit 31 = true →
      exec (.fqMissedClear p ld vi v) s = .next (s.setVi vi.toNat { (s.vi vi.toNat) with fqMissed := 0, fqMissedMax := false })) ∧
  -- viTelUpdate
  (∀ (s : State),
      s.engOn = true →
      exec .viTelUpdate s = .next ({ s with vis := s.vis.map (fun (x : Nat × Vi) => (x.1, { x.2 with tel := s.viTel x.1 })) }))

/-- A VI is saved whole or by its dirty pages, and restored as new or applied. A save the engines take and whose
checks pass writes its blob and answers DONE, by MODE whole or as a DELTA; a restore with NEW creates a VI from
the blob and applies its records; without NEW the later blob of the same source is applied to the RESTORED VI.
Of what it says, log entries 7 and 41 tell what is the model's choice. Rests on R229, R231, R232. -/
def Obligations.RelayComplete : Prop :=
  -- relaySaveFull
  (∀ (src : CmdSrc) (req : List (BitVec 8)) (bs : List Bursts) (p rsp : List Nat) (s : State),
      let s1 := s.taken src 0xC108
      pb (s.payloadOf src 0xC108 req) 2 ≠ 2 →
      s.engTakes src 0xC108 (nats req) p = true →
      s1.saveCheck p = stDone →
      (s1.save p bs).2 = some rsp →
      exec (.relaySaveFull src req bs) s = .next ((s1.save p bs).1.respondCmd src 0xC108 rsp)) ∧
  -- relaySaveDelta
  (∀ (src : CmdSrc) (req : List (BitVec 8)) (bs : List Bursts) (p rsp : List Nat) (s : State),
      let s1 := s.taken src 0xC108
      pb (s.payloadOf src 0xC108 req) 2 = 2 →
      s.engTakes src 0xC108 (nats req) p = true →
      s1.saveCheck p = stDone →
      (s1.save p bs).2 = some rsp →
      exec (.relaySaveDelta src req bs) s = .next ((s1.save p bs).1.respondCmd src 0xC108 rsp)) ∧
  -- relayRestoreNew
  (∀ (src : CmdSrc) (req : List (BitVec 8)) (tpool : BitVec 36) (descBase : BitVec 40) (places : List Place) (p rsp : List Nat) (s : State),
      let s1 := s.taken src 0xC109
      (pb (s.payloadOf src 0xC109 req) 2).testBit 1 = true →
      s.restoring src = none →
      s.engTakes src 0xC109 (nats req) p = true →
      (s1.restoreNew src p tpool.toNat descBase.toNat places).2 = some (stDone :: rsp) →
      exec (.relayRestoreNew src req tpool descBase places) s = .next ((s1.restoreNew src p tpool.toNat descBase.toNat places).1.respondCmd src 0xC109 (stDone :: rsp))) ∧
  -- relayRestoreApply
  (∀ (src : CmdSrc) (req : List (BitVec 8)) (places : List Place) (p rsp : List Nat) (s : State),
      let s1 := s.taken src 0xC109
      (pb (s.payloadOf src 0xC109 req) 2).testBit 1 = false →
      s.restoring src = none →
      s.engTakes src 0xC109 (nats req) p = true →
      (s1.restoreApply src p places).2 = some (stDone :: rsp) →
      exec (.relayRestoreApply src req places) s = .next ((s1.restoreApply src p places).1.respondCmd src 0xC109 (stDone :: rsp)))

/-- A port's link goes down and up, ends its grace period, is reset, keyed and resized. DL_Down of a link that is up
starts its consequences; a link that trains at 32 GT/s or more with its pin high comes up, and one that trains
lower raises LINK_TRAIN_FAIL; the grace period ends when it is due; a falling PERST_N resets the port and ends
the grace period; an IDE failure counts, raises its event and takes the link down; a key sets its stream and
IDE_ON shows both; the port asks for a width, and a change asked for is taken. Of what it says, log entries 42,
43, 45 and 65 tell what is the model's choice. Rests on R235, R240, R253, R254, R257, R259, R377. -/
def Obligations.LinksComplete : Prop :=
  -- linkDown
  (∀ (p : Fin 8) (s : State),
      s.linkUp p.val = true →
      exec (.linkDown p) s = .next (s.dlDown p.val)) ∧
  -- linkUp
  (∀ (p : Fin 8) (t : LinkTrain) (s : State),
      s.linkUp p.val = false →
      s.flag (pgPort p.val) Reg.PORT_PINS_PERST_N = true →
      s.awake = true →
      s.pwr.trans ≠ 2 →
      6 ≤ s.fld 0 Reg.TRUSS_BOOT_STAT_STAGE →
      s.fld 0 Reg.TRUSS_BOOT_STAT_STAGE ≠ 0xE →
      s.flag (pgPort p.val) (Reg.SEQ_CTL_HALTED 0x380) = false →
      t.speed ≠ 0 →
      exec (.linkUp p t) s = .next (s.dlUp p.val t)) ∧
  -- linkUp_slow
  (∀ (p : Fin 8) (t : LinkTrain) (s : State),
      s.linkUp p.val = false →
      s.flag (pgPort p.val) Reg.PORT_PINS_PERST_N = true →
      s.awake = true →
      s.pwr.trans ≠ 2 →
      6 ≤ s.fld 0 Reg.TRUSS_BOOT_STAT_STAGE →
      s.fld 0 Reg.TRUSS_BOOT_STAT_STAGE ≠ 0xE →
      s.flag (pgPort p.val) (Reg.SEQ_CTL_HALTED 0x380) = false →
      t.speed = 0 →
      exec (.linkUp p t) s = .next (s.raise (64 + 8 * p.val) 0x603 ERROR none 0 0)) ∧
  -- linkGraceEnd
  (∀ (p : Fin 8) (t0 : Nat) (s : State),
      (s.prt p.val).graceEnd = some t0 →
      t0 ≤ s.time →
      exec (.linkGraceEnd p) s = .next (s.graceOver p.val 1)) ∧
  -- perstN
  (∀ (p : Fin 8) (s : State),
      let pg := pgPort p.val
      let s1 := if s.linkUp p.val then s.dlDown p.val 2 else s
      let s2 := (s1.put pg Reg.PORT_PINS_PERST_N 0).urgUpdate p.val
      let s3 := (if (s2.prt p.val).graceEnd.isSome then s2.graceOver p.val 2 else s2).portReset p.val
      s.flag pg Reg.PORT_PINS_PERST_N = true →
      s3.pwrGoal ≠ 2 →
      exec (.perstN p) s = .next (s3)) ∧
  -- perstN_wakes
  (∀ (p : Fin 8) (s : State),
      let pg := pgPort p.val
      let s1 := if s.linkUp p.val then s.dlDown p.val 2 else s
      let s2 := (s1.put pg Reg.PORT_PINS_PERST_N 0).urgUpdate p.val
      let s3 := (if (s2.prt p.val).graceEnd.isSome then s2.graceOver p.val 2 else s2).portReset p.val
      s.flag pg Reg.PORT_PINS_PERST_N = true →
      s3.pwrGoal = 2 →
      exec (.perstN p) s = .next (s3.wakeBy 3)) ∧
  -- ideFail
  (∀ (p : Fin 8) (s : State),
      s.linkUp p.val = true →
      (s.prt p.val).ideMem ≠ none ∨ (s.prt p.val).ideIo ≠ none →
      exec (.ideFail p) s = .next (((s.bump (pgPort p.val) Reg.PORT_IDE_FAIL_CNT_COUNT Reg.PORT_IDE_FAIL_CNT_SAT 1).raise (65 + 8 * p.val) 0x606 ERROR none 0 0).dlDown p.val)) ∧
  -- ideKm
  (∀ (p : Fin 8) (mem : Bool) (key : BitVec 256) (s : State),
      let q := if mem then { (s.prt p.val) with ideMem := some key } else { (s.prt p.val) with ideIo := some key }
      s.linkUp p.val = true →
      exec (.ideKm p mem key) s = .next ((s.setPrt p.val { q with ideWait := q.ideWait && !(q.ideMem.isSome && q.ideIo.isSome) }).put (pgPort p.val) Reg.PORT_LINK_STAT_IDE_ON (b2n (q.ideMem.isSome && q.ideIo.isSome)))) ∧
  -- l0pEvaluate_busy
  (∀ (p : Fin 8) (s : State),
      let q := s.prt p.val
      s.flag (pgPort p.val) Reg.PORT_LINK_CTL_L0P_EN = true →
      s.linkUp p.val = true →
      q.trafAt + 100000 ≤ s.time →
      1 ≤ q.urgLevel →
      q.l0p < q.trWidth →
      exec (.l0pEvaluate p) s = .next ((s.setPrt p.val { q with traf := 0, trafAt := s.time }).emit (.widthAsk p.val q.trWidth))) ∧
  -- l0pWidthChange
  (∀ (p : Fin 8) (width : Fin 4) (s : State),
      s.linkUp p.val = true →
      2 ^ (width.val + 1) ≤ (s.prt p.val).trWidth →
      exec (.l0pWidthChange p width) s = .next (((s.setPrt p.val { (s.prt p.val) with l0p := 2 ^ (width.val + 1) }).put (pgPort p.val) Reg.PORT_LINK_STAT_WIDTH (2 ^ (width.val + 1))).pacerUpdate))

/-- An LD is sized, decoded, and given and asked back elastic extents. Allocations that fit the exposure limit are
taken over I3C, and through the FM-owned LD's mailbox as a tunnelled command; a decoder is committed; an extent
is offered, its accepted part granted, and the accepted extents inside a released range go back. Of what it
says, log entries 26 and 44 tell what is the model's choice. Rests on R241, R242, R245, R246, R262. -/
def Obligations.LdAllocationComplete : Prop :=
  -- setLdAllocations
  (∀ (p : Fin 8) (ld : Fin 16) (capG : BitVec 18) (dcG : List (BitVec 36)) (sharable : BitVec 8) (s : State),
      regionsOk dcG = true →
      s.awake = true →
      capG.toNat + (dcG.map BitVec.toNat).sum ≤ 49152 →
      exec (.setLdAllocations .i3c p ld capG dcG sharable) s = .next ((s.setLdev p.val ld.val { (s.ldev p.val ld.val) with capG := capG.toNat, dcG := dcG.map BitVec.toNat, sharable := sharable.toNat }).emit (.reply .i3c ccSuccess []))) ∧
  -- tunnelManagementCommand
  (∀ (p : Fin 8) (ld : Fin 16) (capG : BitVec 18) (dcG : List (BitVec 36)) (sharable : BitVec 8) (s : State),
      regionsOk dcG = true →
      s.awake = true →
      s.linkUp s.mgrPort = true →
      capG.toNat + (dcG.map BitVec.toNat).sum ≤ 49152 →
      exec (.tunnelManagementCommand .fmLd p ld capG dcG sharable) s = .next ((s.setLdev p.val ld.val { (s.ldev p.val ld.val) with capG := capG.toNat, dcG := dcG.map BitVec.toNat, sharable := sharable.toNat }).emit (.reply .fmLd ccSuccess []))) ∧
  -- hdmDecoderCommit
  (∀ (p : Fin 8) (ld : Fin 16) (i : Fin 8) (d : HdmDecoder) (s : State),
      s.linkUp p.val = true →
      (d.hdmDb = false ∨ s.fld (pgPort p.val) Reg.PORT_HOST_CRED_BISNP ≠ 0) →
      exec (.hdmDecoderCommit p ld i d) s = .next (s.setLdev p.val ld.val { (s.ldev p.val ld.val) with decoders := SMap.put (s.ldev p.val ld.val).decoders i.val d })) ∧
  -- initiateDcAdd
  (∀ (src : CmdSrc) (vi : BitVec 16) (start blocks : BitVec 32) (s : State),
      (src = .i3c ∨ src = .fmLd) →
      blocks ≠ 0 →
      s.engOn = true →
      s.addRefused vi.toNat start.toNat blocks.toNat = false →
      pick 8 (fun k => (s.vi vi.toNat).ports.testBit k) ≠ [] →
      exec (.initiateDcAdd src vi start blocks) s = .next (((pick 8 (fun k => (s.vi vi.toNat).ports.testBit k)).foldl (fun (s : State) (k : Nat) => s.offer vi.toNat start.toNat blocks.toNat k true) s).emit (.reply src ccSuccess []))) ∧
  -- initiateDcAdd_refused
  (∀ (src : CmdSrc) (vi : BitVec 16) (start blocks : BitVec 32) (s : State),
      (src = .i3c ∨ src = .fmLd) →
      blocks ≠ 0 →
      s.engOn = true →
      s.addRefused vi.toNat start.toNat blocks.toNat = true →
      exec (.initiateDcAdd src vi start blocks) s = .next (s.emit (.reply src ccInvalid []))) ∧
  -- addDcResponse
  (∀ (p : Fin 8) (ld : Fin 16) (vi : BitVec 16) (start accept : BitVec 32) (e : Extent) (s : State),
      s.linkUp p.val = true →
      (s.vi vi.toNat).ports.testBit p.val = true →
      (s.vi vi.toNat).ld = ld.val →
      s.offered p.val vi.toNat start.toNat = some e →
      0 < e.blocks →
      e.blocks ≤ accept.toNat →
      exec (.addDcResponse p ld vi start accept) s = .next (({ s with extents := s.extents.filter (fun x => x != e) ++ [{ e with accepted := true }] } : State).dcNotice e 1)) ∧
  -- addDcResponse_declined
  (∀ (p : Fin 8) (ld : Fin 16) (vi : BitVec 16) (start : BitVec 32) (e : Extent) (s : State),
      s.linkUp p.val = true →
      (s.vi vi.toNat).ports.testBit p.val = true →
      (s.vi vi.toNat).ld = ld.val →
      s.offered p.val vi.toNat start.toNat = some e →
      0 < e.blocks →
      exec (.addDcResponse p ld vi start 0) s = .next (({ s with extents := s.extents.filter (fun x => x != e) } : State).dcNotice e 2)) ∧
  -- releaseDc
  (∀ (p : Fin 8) (ld : Fin 16) (vi : BitVec 16) (start blocks : BitVec 32) (s : State),
      s.linkUp p.val = true →
      s.engOn = true →
      (s.vi vi.toNat).ld = ld.val →
      s.rangeQuiet vi.toNat start.toNat blocks.toNat = true →
      s.rangeReady vi.toNat start.toNat blocks.toNat = true →
      exec (.releaseDc p ld vi start blocks) s = .next ((s.extents.filter (fun e => e.vi == vi.toNat && e.port == p.val && e.accepted && decide (start.toNat ≤ e.start) && decide (e.start + e.blocks ≤ start.toNat + blocks.toNat))).foldl (fun (s : State) (e : Extent) => s.releaseExtent e) s))

/-- The poison, scan and event commands of an LD. Over a link that is up: the poison list is answered and its
overflow ends; injection and clearing of poison start their line's rewrite where the DPA lies in a bound window;
a scan starts and answers Started, or Busy while one runs; a finished scan's step ends it; the time and the
results are answered; event records are read and cleared. Of what it says, log entries 27 and 34 tell what is
the model's choice. Rests on R248, R249, R250, R251. -/
def Obligations.LdCommandsComplete : Prop :=
  -- getPoisonList
  (∀ (p : Fin 8) (ld : Fin 16) (s : State),
      s.linkUp p.val = true →
      exec (.getPoisonList p ld) s = .next ((s.setLdev p.val ld.val { (s.ldev p.val ld.val) with poisonOvf := false }).emit (.reply (.hostLd p ld) ccSuccess (s.ldev p.val ld.val).poisonBytes))) ∧
  -- injectPoison
  (∀ (p : Fin 8) (ld : Fin 16) (dpa : BitVec 52) (s : State),
      let r := { hostReq .wrPtl p.val ld.val 0 .i 0 0 s.time with org := .cmd, dpa := 64 * (dpa.toNat / 64), poison := true }
      let s1 : State := { s with nextReq := (s.nextReq + 1) % 2 ^ 32 }
      s.portServes p.val = true →
      (s.windowOf p.val ld.val dpa.toNat (fun _ => true)).isSome = true →
      exec (.injectPoison p ld dpa) s = .next ((((s1.listPoison p.val ld.val dpa.toNat).startReq s.nextReq r).release))) ∧
  -- clearPoison
  (∀ (p : Fin 8) (ld : Fin 16) (dpa : BitVec 52) (data : BitVec 512) (s : State),
      let r := { hostReq .wr p.val ld.val 0 .i data (BitVec.allOnes 64) s.time with org := .cmd, dpa := 64 * (dpa.toNat / 64) }
      let s1 : State := { s with nextReq := (s.nextReq + 1) % 2 ^ 32 }
      s.portServes p.val = true →
      (s.windowOf p.val ld.val dpa.toNat (fun _ => true)).isSome = true →
      exec (.clearPoison p ld dpa data) s = .next ((((s1.unlistPoison p.val ld.val dpa.toNat).startReq s.nextReq r).release))) ∧
  -- scanMedia
  (∀ (p : Fin 8) (ld : Fin 16) (dpa : BitVec 52) (lines : BitVec 32) (s : State),
      s.linkUp p.val = true →
      lines ≠ 0 →
      (s.ldev p.val ld.val).scan = none →
      exec (.scanMedia p ld dpa lines) s = .next ((s.setLdev p.val ld.val { (s.ldev p.val ld.val) with scan := some (64 * (dpa.toNat / 64), lines.toNat, []), scanDone := [], bg := some (0x4304, false, []) }).emit (.reply (.hostLd p ld) ccStarted []))) ∧
  -- scanMedia_busy
  (∀ (p : Fin 8) (ld : Fin 16) (dpa : BitVec 52) (lines : BitVec 32) (s : State),
      s.linkUp p.val = true →
      lines ≠ 0 →
      (s.ldev p.val ld.val).scan ≠ none →
      exec (.scanMedia p ld dpa lines) s = .next (s.emit (.reply (.hostLd p ld) ccBusy []))) ∧
  -- scanMediaStep_end
  (∀ (p : Fin 8) (ld : Fin 16) (b : Bursts) (dpa : Nat) (found : List Nat) (s : State),
      s.scanGoes p.val ld.val = true →
      s.urg3 = false →
      (s.ldev p.val ld.val).scan = some (dpa, 0, found) →
      exec (.scanMediaStep p ld b) s = .next (s.scanOver p.val ld.val found)) ∧
  -- scanMediaStep
  (∀ (p : Fin 8) (ld : Fin 16) (b : Bursts) (dpa left : Nat) (found : List Nat) (bad : Bool) (s : State),
      let s1 := (s.scanRead p.val ld.val dpa b).1
      let s2 := if bad then s1.listPoison p.val ld.val dpa else s1
      s.scanGoes p.val ld.val = true →
      s.urg3 = false →
      (s.ldev p.val ld.val).scan = some (dpa, left, found) →
      1 < left →
      (s.scanRead p.val ld.val dpa b).2 = some (some bad) →
      exec (.scanMediaStep p ld b) s = .next (s2.setLdev p.val ld.val { (s2.ldev p.val ld.val) with scan := some (dpa + 64, left - 1, if bad then found ++ [dpa] else found) })) ∧
  -- getScanMediaCapabilities
  (∀ (p : Fin 8) (ld : Fin 16) (dpa : BitVec 52) (lines : BitVec 32) (s : State),
      s.linkUp p.val = true →
      exec (.getScanMediaCapabilities p ld dpa lines) s = .next (s.emit (.reply (.hostLd p ld) ccSuccess (leBytes 4 (ceilDiv (s.backedBytes p.val ld.val dpa.toNat lines.toNat) 4000000))))) ∧
  -- getScanMediaResults
  (∀ (p : Fin 8) (ld : Fin 16) (s : State),
      s.linkUp p.val = true →
      exec (.getScanMediaResults p ld) s = .next (s.emit (.reply (.hostLd p ld) ccSuccess ((s.ldev p.val ld.val).scanDone.flatMap (fun a => leBytes 8 a))))) ∧
  -- clearEventRecords
  (∀ (p : Fin 8) (ld : Fin 17) (log : Fin 4) (count : BitVec 12) (s : State),
      let d := s.ldev p.val ld.val
      let q := d.logs.getD log.val RecQueue.empty
      let n := min count.toNat q.recs.length
      s.linkUp p.val = true →
      exec (.clearEventRecords p ld log count) s = .next ((s.setLdev p.val ld.val { d with logs := d.logs.set log.val { q with recs := q.recs.drop n, tail := (q.tail + n) % 256 } }).emit (.reply (if ld.val < 16 then .hostLd p (Fin.ofNat 16 ld.val) else .fmLd) ccSuccess ((q.recs.take n).flatMap (fun r => leBytes 32 r.pack)))))

/-- Firmware, QoS, background and unsupported commands answer on their path. From the manager port a transfer inside
the 15 MiB slot is stored in the inactive slot, and an activation rewrites the boot header; QoS values, which
the spec gives no form, are free values of the model; the background status of the asking mailbox is answered;
an opcode of no implemented feature answers Unsupported. Of what it says, log entries 14, 15, 27 and 40 tell
what is the model's choice. Rests on R236, R237, R262, R263, R386. -/
def Obligations.CommandRepliesComplete : Prop :=
  -- transferFw
  (∀ (p : Fin 8) (off : BitVec 32) (bytes : List (BitVec 8)) (s : State),
      s.linkUp p.val = true →
      p.val = s.mgrPort →
      off.toNat + bytes.length ≤ 0xF00000 →
      exec (.transferFw p off bytes) s = .next (({ s with flash := Memory.store s.flash (s.idleSlot + off.toNat) (nats bytes) } : State).emit (.reply .fmLd ccSuccess []))) ∧
  -- activateFw
  (∀ (p : Fin 8) (s : State),
      s.linkUp p.val = true →
      p.val = s.mgrPort →
      exec (.activateFw p) s = .next (({ s with flash := Memory.store (Memory.erase s.flash 0) 0 (leBytes 4 0x48424B54 ++ [if s.idleSlot = 0x1000000 then 1 else 0]) } : State).emit (.reply .fmLd ccSuccess []))) ∧
  -- getQosStatus
  (∀ (src : CmdSrc) (p : Fin 8) (s : State),
      s.awake = true →
      (src = .i3c ∨ src = .fmLd) →
      exec (.getQosStatus src p) s = .next ((s.emit (.reply src ccSuccess [(Config.qos (8 * s.free + p.val)) % 256])).tick)) ∧
  -- getBackgroundOperationStatus
  (∀ (p : Fin 8) (ld : Fin 16) (s : State),
      s.awake = true →
      exec (.getBackgroundOperationStatus (.hostLd p ld)) s = .next (s.emit (.reply (.hostLd p ld) ccSuccess (bgBytes (s.ldev p.val ld.val).bg)))) ∧
  -- getBackgroundOperationStatus_fm
  (∀ (s : State),
      s.awake = true →
      exec (.getBackgroundOperationStatus .fmLd) s = .next (s.emit (.reply .fmLd ccSuccess (bgBytes s.fmLd.bg)))) ∧
  -- unsupportedCommand
  (∀ (src : CmdSrc) (opcode : BitVec 16) (s : State),
      s.awake = true →
      vendorReq opcode.toNat = none →
      exec (.unsupportedCommand src opcode) s = .next (s.emit (.reply src ccUnsupported [])))

/-- Flits, acknowledgements, replays and retrains of a viaduct. For a link that sends: an ordinary HDR flit with the
expected number advances E and delivers its slots after its ACK and credits are taken; a REPLAY_REQ or a 1 us
wait for an ACK counts one replay and sends every unacknowledged flit again; a discarding receiver repeats its
request after 1 us. Of what it says, log entries 16, 46 and 47 tell what is the model's choice. Rests on R282,
R285, R286, R288, R289, R290, R291. -/
def Obligations.ViaductTrafficComplete : Prop :=
  -- flitReceive
  (∀ (l : Fin 20) (toDie : Bool) (flit : BitVec 640) (s : State),
      let s1 := s.takeHeader l.val toDie flit
      let d := (s1.link l.val).dir toDie
      ((s.link l.val).dir toDie).st = 1 →
      flitOk flit = true →
      flitType flit = 1 →
      flitSeq flit = d.exp →
      exec (.flitReceive l toDie flit) s = .next ((s1.putDir l.val toDie { d with exp := (d.exp + 1) % 4096, ackV := true, discard := false }).takeHdr l.val toDie flit)) ∧
  -- flitReceive_crc
  (∀ (l : Fin 20) (toDie : Bool) (flit : BitVec 640) (s : State),
      ((s.link l.val).dir toDie).st = 1 →
      flitOk flit = false →
      exec (.flitReceive l toDie flit) s = .next ((s.bump (pgVdt l.val) Reg.VDT_CRC_ERR_CNT_COUNT Reg.VDT_CRC_ERR_CNT_SAT 1).askReplay l.val toDie)) ∧
  -- replayReq
  (∀ (l : Fin 20) (toDie : Bool) (ack : BitVec 12) (s : State),
      let d := ((s.link l.val).dir toDie).takeAck ack.toNat s.time
      let s1 := (s.putDir l.val toDie d).bump (pgVdt l.val) Reg.VDT_REPLAY_CNT_COUNT Reg.VDT_REPLAY_CNT_SAT 1
      d.st = 1 →
      exec (.replayReq l toDie ack) s = .next ((s1.putDir l.val toDie { d with st := 2, replays := 1 }).retransmit l.val toDie)) ∧
  -- replayTimeout
  (∀ (l : Fin 20) (toDie : Bool) (s : State),
      let d := (s.link l.val).dir toDie
      d.replayBuf ≠ [] →
      d.oldestAt + 1000 ≤ s.time →
      d.st = 1 →
      exec (.replayTimeout l toDie) s = .next (((s.bump (pgVdt l.val) Reg.VDT_REPLAY_CNT_COUNT Reg.VDT_REPLAY_CNT_SAT 1).putDir l.val toDie { d with st := 2, replays := 1 }).retransmit l.val toDie)) ∧
  -- discardRepeat
  (∀ (l : Fin 20) (toDie : Bool) (s : State),
      let d := (s.link l.val).dir toDie
      d.discard = true →
      d.st = 1 →
      d.discAt + 1000 ≤ s.time →
      exec (.discardRepeat l toDie) s = .next (((s.putDir l.val toDie { d with discard := false }).putDir l.val toDie { d with discard := true, discAt := s.time }).sendCtl l.val (!toDie) 4 ((d.exp + 4095) % 4096))) ∧
  -- viaductInit
  (∀ (l : Fin 20) (s : State),
      s.rails = true →
      (s.link l.val).tx.st = 0 →
      (s.link l.val).rx.st = 0 →
      exec (.viaductInit l) s = .next (s.linkInit l.val)) ∧
  -- pauseReq
  (∀ (l : Fin 20) (toDie : Bool) (s : State),
      let k := s.link l.val
      k.tx.st = 1 →
      exec (.pauseReq l toDie) s = .next ((s.putLink l.val { k with tx := { k.tx with st := 3 }, rx := { k.rx with st := 3 }, attempts := 0, paused := true, retry := false, trained := false, speedNow := s.fld (pgVdt l.val) Reg.VDT_STAT_SPEED }).sendCtl l.val (!toDie) 5 2)) ∧
  -- pauseAck
  (∀ (l : Fin 20) (toDie : Bool) (s : State),
      (s.link l.val).tx.st = 3 →
      exec (.pauseAck l toDie) s = .next (s.putLink l.val { (s.link l.val) with paused := true })) ∧
  -- trainDone
  (∀ (l : Fin 20) (s : State),
      let k := s.link l.val
      let s1 := (s.putLink l.val { k with tx := { k.tx with st := 1, replays := 0 }, rx := { k.rx with st := 1, replays := 0 }, trained := false, retry := false, paused := false, attempts := 0 }).fallback l.val
      k.trained = true →
      exec (.trainDone l) s = .next (if l.val < 16 then (((s1.sendCtl l.val true 5 3).retransmit l.val true).retransmit l.val false).fallbackNext (l.val / 4) else ((s1.sendCtl l.val true 5 3).retransmit l.val true).retransmit l.val false))

/-- Retrains, widening and the grace period of a viaduct. A retrain attempt that leaves a width takes it and waits
for TRAIN_DONE, and the third failed one loses the link; RETRY starts a widening retrain; in GRACE an attempt
every 10 us that finds a width ends the loss, and the end of the period takes the link down; a narrower link
sets the viaduct value of THROTTLE. Of what it says, log entries 48, 49 and 58 tell what is the model's choice.
Rests on R292, R293, R294, R296, R297. -/
def Obligations.ViaductRetrainComplete : Prop :=
  -- retrainAttemptDone
  (∀ (l : Fin 20) (tx rx : BitVec 64) (a b : Nat) (s : State),
      let k := s.link l.val
      let s1 := (s.noteAttempt l.val tx.toNat rx.toNat).takeWidth l.val a b k.speedNow
      k.tx.st = 3 →
      k.trained = false →
      k.retry = false →
      attemptResult l.val tx.toNat rx.toNat = some (a, b) →
      exec (.retrainAttemptDone l tx rx) s = .next ((s1.putLink l.val { (s1.link l.val) with trained := true }).noteRetrain l.val)) ∧
  -- retrainAttemptDone_lost
  (∀ (l : Fin 20) (tx rx : BitVec 64) (s : State),
      let k := s.link l.val
      k.tx.st = 3 →
      k.trained = false →
      k.retry = false →
      k.attempts = 2 →
      attemptResult l.val tx.toNat rx.toNat = none →
      exec (.retrainAttemptDone l tx rx) s = .next (((s.noteAttempt l.val tx.toNat rx.toNat).noteRetrain l.val).linkLost l.val)) ∧
  -- vdtRetry
  (∀ (l : Fin 20) (s : State),
      l.val < 16 →
      (s.link l.val).tx.st = 1 →
      (s.link l.val).rx.st = 1 →
      exec (.vdtRetry l) s = .next (s.startRetrain l.val true true)) ∧
  -- vdtGraceRetry
  (∀ (l : Fin 20) (tx rx : BitVec 64) (a b : Nat) (s : State),
      let k := s.link l.val
      let s1 := (s.noteAttempt l.val tx.toNat rx.toNat).takeWidth l.val a b k.speedNow
      k.tx.st = 4 →
      k.trained = false →
      k.lastRetry + 10000 ≤ s.time →
      attemptResult l.val tx.toNat rx.toNat = some (a, b) →
      exec (.vdtGraceRetry l tx rx) s = .next ((s1.putLink l.val { k with trained := true, graceEnd := none }).raise (vdtSource l.val + 1) 0x706 INFO none 0 (min 0xFFFFFFFFFFFF ((s1.time - k.downAt) / 1000)))) ∧
  -- vdtGraceEnd
  (∀ (l : Fin 20) (e : Nat) (s : State),
      (s.link l.val).graceEnd = some e →
      e ≤ s.time →
      exec (.vdtGraceEnd l) s = .next (s.linkDead l.val)) ∧
  -- narrowThrottle
  (∀ (l : Fin 20) (s : State),
      s.engOn = true →
      l.val < 16 →
      exec (.narrowThrottle l) s = .next ((({ s with vdtThr := SMap.put s.vdtThr l.val (s.vdtThrottle l.val) } : State).put (pgPier l.val) Reg.PIER_DCTL_THROTTLE (max (s.vdtThrottle l.val) s.therm.1))))

/-- Jobs are posted, completed, given up and refused. A post to a sequencer with room joins its queue and starts in
a free context; an ended job's completion goes to its engine's mailbox with doorbell bit 24 and its context
ends; a job is given up 2 ms after its post; a unit reports DONE; an illegal step ends its job with SEQ_FAULT.
Of what it says, log entries 51 and 52 tell what is the model's choice. Rests on R305, R306, R308, R309. -/
def Obligations.JobsComplete : Prop :=
  -- jobPost
  (∀ (eng : Fin 64) (q : Fin 24) (desc : BitVec 512) (s : State),
      let e := s.eng eng.val
      e.running = true →
      (s.sqr q.val).jobq.length < 64 →
      exec (.jobPost eng q desc) s = .next (State.startJobs 1 ((s.setEng eng.val { e with jobs := e.jobs ++ [(jobId desc, s.time)] }).putSqr q.val { (s.sqr q.val) with jobq := (s.sqr q.val).jobq ++ [desc] }) q.val)) ∧
  -- jobPost_full
  (∀ (eng : Fin 64) (q : Fin 24) (desc : BitVec 512) (s : State),
      (s.eng eng.val).running = true →
      64 ≤ (s.sqr q.val).jobq.length →
      exec (.jobPost eng q desc) s = .next (s.emit (.jobMsg eng.val true))) ∧
  -- jobCompletion
  (∀ (q : Fin 24) (ctx : Fin 512) (c : JobCtx) (st : Nat) (s : State),
      let e := jobEngine c.job
      let s1 := s.setEng e { (s.eng e) with mailbox := (s.eng e).mailbox ++ [completion c st] }
      SMap.get? (s.sqr q.val).ctxs ctx.val = some c →
      c.done = some st →
      (s.eng e).running = true →
      (s.eng e).jobs.any (fun x => x.1 == jobId c.job) = true →
      (s.eng e).mailbox.length < 32 →
      exec (.jobCompletion q ctx) s = .next (((s1.ring e 24).dropJob e (jobId c.job)).endCtx q.val ctx.val c)) ∧
  -- jobTimeout
  (∀ (eng : Fin 64) (job : BitVec 16) (x : Nat × Nat) (s : State),
      (s.eng eng.val).jobs.find? (fun x => x.1 == job.toNat) = some x →
      x.2 + 2000000 ≤ s.time →
      exec (.jobTimeout eng job) s = .next (s.setEng eng.val { (s.eng eng.val) with jobs := (s.eng eng.val).jobs.erase x })) ∧
  -- unitDone
  (∀ (q : Fin 24) (ctx : Fin 512) (unit : Fin 16) (c : JobCtx) (s : State),
      SMap.get? (s.sqr q.val).ctxs ctx.val = some c →
      s.seqLive q.val = true →
      c.busy.testBit unit.val = true →
      exec (.unitDone q ctx unit) s = .next (s.putCtx q.val ctx.val { c with busy := clrBit c.busy unit.val, status := SMap.put c.status unit.val (setBit (c.stat unit.val) 0), waiting := if c.waiting = some unit.val then none else c.waiting })) ∧
  -- illegalOpcode
  (∀ (q : Fin 24) (ctx : Fin 512) (pc : Nat) (s : State),
      s.fetchStep q.val ctx.val = .fault pc →
      exec (.illegalOpcode q ctx) s = .next (s.seqFault q.val ctx.val pc))

/-- The sequencing steps of a routine. For a context that fetches a legal step with the opcode named, the step
counts and has the opcode's effect: NOP, WAIT, BR (taken and not taken), JMP, SET, ADD with ZERO, LOOP, CALL
within depth 4, RET and END. A jump's TARGET lies below LENGTH. Of what it says, log entries 52 and 53 tell what
is the model's choice. Rests on R302, R303, R304, R306. -/
def Obligations.StepsComplete : Prop :=
  -- nop
  (∀ (q : Fin 24) (ctx : Fin 512) (c : JobCtx) (w : Nat) (s : State),
      s.fetchStep q.val ctx.val = .step c w →
      stepOp w = 0 →
      exec (.nop q ctx) s = .next (s.putCtx q.val ctx.val { c.next with steps := c.steps + 1 })) ∧
  -- wait
  (∀ (q : Fin 24) (ctx : Fin 512) (c : JobCtx) (w : Nat) (s : State),
      s.fetchStep q.val ctx.val = .step c w →
      stepOp w = 2 →
      (c.stat (stepUnit w)).testBit 0 = true →
      exec (.wait q ctx) s = .next (s.putCtx q.val ctx.val { c.next with steps := c.steps + 1 })) ∧
  -- wait_stalls
  (∀ (q : Fin 24) (ctx : Fin 512) (c : JobCtx) (w : Nat) (s : State),
      s.fetchStep q.val ctx.val = .step c w →
      stepOp w = 2 →
      (c.stat (stepUnit w)).testBit 0 = false →
      exec (.wait q ctx) s = .next (s.putCtx q.val ctx.val { ({ c.next with waiting := some (stepUnit w) } : JobCtx) with steps := c.steps + 1 })) ∧
  -- br_taken
  (∀ (q : Fin 24) (ctx : Fin 512) (c : JobCtx) (w : Nat) (s : State),
      s.fetchStep q.val ctx.val = .step c w →
      stepOp w = 3 →
      (c.stat (stepUnit w)).testBit (stepTest w) = stepSense w →
      stepTarget w < s.seqLength q.val →
      exec (.br q ctx) s = .next (s.putCtx q.val ctx.val { ({ c with pc := stepTarget w } : JobCtx) with steps := c.steps + 1 })) ∧
  -- br
  (∀ (q : Fin 24) (ctx : Fin 512) (c : JobCtx) (w : Nat) (s : State),
      s.fetchStep q.val ctx.val = .step c w →
      stepOp w = 3 →
      (c.stat (stepUnit w)).testBit (stepTest w) ≠ stepSense w →
      exec (.br q ctx) s = .next (s.putCtx q.val ctx.val { c.next with steps := c.steps + 1 })) ∧
  -- jmp
  (∀ (q : Fin 24) (ctx : Fin 512) (c : JobCtx) (w : Nat) (s : State),
      s.fetchStep q.val ctx.val = .step c w →
      stepOp w = 4 →
      stepTarget w < s.seqLength q.val →
      exec (.jmp q ctx) s = .next (s.putCtx q.val ctx.val { ({ c with pc := stepTarget w } : JobCtx) with steps := c.steps + 1 })) ∧
  -- set
  (∀ (q : Fin 24) (ctx : Fin 512) (c : JobCtx) (w : Nat) (s : State),
      s.fetchStep q.val ctx.val = .step c w →
      stepOp w = 5 →
      exec (.set q ctx) s = .next (s.putCtx q.val ctx.val { (c.setReg (stepB w) (stepImm w)).next with steps := c.steps + 1 })) ∧
  -- add
  (∀ (q : Fin 24) (ctx : Fin 512) (c : JobCtx) (w : Nat) (s : State),
      let v := c.reg (stepA w) + immSigned w
      s.fetchStep q.val ctx.val = .step c w →
      stepOp w = 6 →
      exec (.add q ctx) s = .next (s.putCtx q.val ctx.val { ((c.setReg (stepB w) v).zero v).next with steps := c.steps + 1 })) ∧
  -- loop
  (∀ (q : Fin 24) (ctx : Fin 512) (c : JobCtx) (w : Nat) (s : State),
      let v := c.reg (stepB w) + 2 ^ 64 - 1
      let c1 := (c.setReg (stepB w) v).zero v
      s.fetchStep q.val ctx.val = .step c w →
      stepOp w = 7 →
      c1.reg (stepB w) ≠ 0 →
      stepTarget w < s.seqLength q.val →
      exec (.loop q ctx) s = .next (s.putCtx q.val ctx.val { ({ c1 with pc := stepTarget w } : JobCtx) with steps := c.steps + 1 })) ∧
  -- loop_ends
  (∀ (q : Fin 24) (ctx : Fin 512) (c : JobCtx) (w : Nat) (s : State),
      let v := c.reg (stepB w) + 2 ^ 64 - 1
      let c1 := (c.setReg (stepB w) v).zero v
      s.fetchStep q.val ctx.val = .step c w →
      stepOp w = 7 →
      c1.reg (stepB w) = 0 →
      exec (.loop q ctx) s = .next (s.putCtx q.val ctx.val { c1.next with steps := c.steps + 1 })) ∧
  -- call
  (∀ (q : Fin 24) (ctx : Fin 512) (c : JobCtx) (w : Nat) (s : State),
      s.fetchStep q.val ctx.val = .step c w →
      stepOp w = 8 →
      c.stack.length < 4 →
      stepTarget w < s.seqLength q.val →
      exec (.call q ctx) s = .next (s.putCtx q.val ctx.val { ({ c with stack := (c.pc + 1) :: c.stack, pc := stepTarget w } : JobCtx) with steps := c.steps + 1 })) ∧
  -- ret
  (∀ (q : Fin 24) (ctx : Fin 512) (c : JobCtx) (w : Nat) (p : Nat) (r : List Nat) (s : State),
      s.fetchStep q.val ctx.val = .step c w →
      stepOp w = 9 →
      c.stack = p :: r →
      exec (.ret q ctx) s = .next (s.putCtx q.val ctx.val { ({ c with pc := p, stack := r } : JobCtx) with steps := c.steps + 1 })) ∧
  -- endStep
  (∀ (q : Fin 24) (ctx : Fin 512) (c : JobCtx) (w : Nat) (s : State),
      s.fetchStep q.val ctx.val = .step c w →
      stepOp w = 0xA →
      exec (.endStep q ctx) s = .next (s.putCtx q.val ctx.val { ({ c with done := some (stepImm w % 256) } : JobCtx) with steps := c.steps + 1 }))

/-- The DRAM and line units of a Pier's sequencer. For a context that fetches the operation named: a read of a
mapped line of this Pier fills the line buffer, from the write queue where a write waits and otherwise from
DRAM, on either plane; a write stores the line buffer; a line of no span is unmapped; the line unit checks,
generates, logs and counts. Of what it says, log entries 52, 53 and 62 tell what is the model's choice. Rests on
R58, R72, R304. -/
def Obligations.PierUnitsComplete : Prop :=
  -- dramRd
  (∀ (q : Fin 24) (ctx : Fin 512) (flip : BitVec 640) (c : JobCtx) (w : Nat) (k : Nat) (s1 : State) (c1 : JobCtx) (s : State),
      let da := c.lineDa (stepA w)
      s.fetchStep q.val ctx.val = .step c w →
      isIssue 1 1 w = true →
      (s.spanOf da).isNone = false →
      s.copyAt q.val da = some k →
      s.gone da k = false →
      s.copyRuns da k = true →
      s.jobHold q.val ctx.val c da false = (s1, c1, true) →
      s1.queued da = none →
      exec (.dramRd q ctx flip) s = .next ((s1.busAt da k .read (jobHint c1.job) (some (c1.flt da))).putCtx q.val ctx.val { (({ c1 with da := da, buf := (s1.dramLine da k).flip flip } : JobCtx).took 1 0) with steps := c.steps + 1 })) ∧
  -- dramRdOther
  (∀ (q : Fin 24) (ctx : Fin 512) (flip : BitVec 640) (c : JobCtx) (w : Nat) (k : Nat) (s1 : State) (c1 : JobCtx) (s : State),
      let da := c.lineDa (stepA w)
      s.fetchStep q.val ctx.val = .step c w →
      isIssue 1 3 w = true →
      (s.spanOf da).isNone = false →
      s.copyAt q.val da = some k →
      s.gone da k = false →
      s.copyRuns da k = true →
      s.jobHold q.val ctx.val c da false = (s1, c1, true) →
      s1.queued da = none →
      exec (.dramRdOther q ctx flip) s = .next ((s1.busAt da k .read (jobHint c1.job) (some (c1.flt da))).putCtx q.val ctx.val { (({ c1 with da := da, buf := (s1.rawLine da k (!s1.planeOf da k)).flip flip } : JobCtx).took 1 0) with steps := c.steps + 1 })) ∧
  -- dramWr
  (∀ (q : Fin 24) (ctx : Fin 512) (c : JobCtx) (w : Nat) (k : Nat) (s1 : State) (c1 : JobCtx) (s : State),
      let da := c.lineDa (stepA w)
      let s2 := s1.drainFirst da
      s.fetchStep q.val ctx.val = .step c w →
      isIssue 1 2 w = true →
      (s.spanOf da).isNone = false →
      s.copyAt q.val da = some k →
      s.gone da k = false →
      s.copyRuns da k = true →
      s.jobHold q.val ctx.val c da true = (s1, c1, true) →
      (s2.queued (s2.primDa da)).isSome = false →
      exec (.dramWr q ctx) s = .next ((((s2.storeLine da k c1.buf (jobHint c1.job) (some (c1.flt da))).descForget da).jobClear da).putCtx q.val ctx.val { (({ c1 with da := da } : JobCtx).took 1 0) with steps := c.steps + 1 })) ∧
  -- liuCheck
  (∀ (q : Fin 24) (ctx : Fin 512) (c : JobCtx) (w : Nat) (s : State),
      s.fetchStep q.val ctx.val = .step c w →
      isIssue 2 1 w = true →
      exec (.liuCheck q ctx) s = .next (s.putCtx q.val ctx.val { (c.took 2 (4 * b2n (c.buf.crcOk (s.seedOf c.da) c.da) + 8 * b2n (c.buf.illegal || !s.keyslotOk c.da c.buf.keyslot) + 16 * b2n c.buf.poison)) with steps := c.steps + 1 })) ∧
  -- liuGen
  (∀ (q : Fin 24) (ctx : Fin 512) (c : JobCtx) (w : Nat) (s : State),
      s.fetchStep q.val ctx.val = .step c w →
      isIssue 2 2 w = true →
      exec (.liuGen q ctx) s = .next (s.putCtx q.val ctx.val { (({ c with buf := mkLine (s.seedOf c.da) c.da c.buf.data c.buf.hi } : JobCtx).took 2 0) with steps := c.steps + 1 })) ∧
  -- liuLogCe
  (∀ (q : Fin 24) (ctx : Fin 512) (c : JobCtx) (w : Nat) (s : State),
      s.fetchStep q.val ctx.val = .step c w →
      isIssue 2 3 w = true →
      exec (.liuLogCe q ctx) s = .next ((s.logCe c.da ((s.copyAt q.val c.da).getD 0) (s.seedOf c.da) 0 none).putCtx q.val ctx.val { (c.took 2 0) with steps := c.steps + 1 })) ∧
  -- liuCountUe
  (∀ (q : Fin 24) (ctx : Fin 512) (c : JobCtx) (w : Nat) (m : Ma) (s : State),
      s.fetchStep q.val ctx.val = .step c w →
      isIssue 2 4 w = true →
      s.lineMa c.da ((s.copyAt q.val c.da).getD 0) = some m →
      exec (.liuCountUe q ctx) s = .next ((s.countUe m.hpier m.prank).putCtx q.val ctx.val { (c.took 2 0) with steps := c.steps + 1 }))

/-- The cipher, codec and allocation units of a Pier's sequencer. For a context that fetches the operation named:
the keystream, the exclusive or, the TAG's check and generation; the compressed stream, its decompression and
its verification; and a place in an open stripe, and its closing. Of what it says, log entries 52, 53, 85 and 86
tell what is the model's choice. Rests on R136, R138, R147, R166, R170, R171, R304. -/
def Obligations.CipherAndCodecUnitsComplete : Prop :=
  -- cipherKeystream
  (∀ (q : Fin 24) (ctx : Fin 512) (c : JobCtx) (w : Nat) (k ma mi : Nat) (s : State),
      s.fetchStep q.val ctx.val = .step c w →
      isIssue 3 1 w = true →
      c.ctr = some (k, ma, mi) →
      exec (.cipherKeystream q ctx) s = .next (s.putCtx q.val ctx.val { (({ c with ks := BitVec.ofNat 512 (keystream (s.slot k).dataKey.toNat k (c.da / 64) ma mi) } : JobCtx).took 3 (c.stat 3 &&& 8)) with steps := c.steps + 1 })) ∧
  -- cipherXor
  (∀ (q : Fin 24) (ctx : Fin 512) (c : JobCtx) (w : Nat) (s : State),
      s.fetchStep q.val ctx.val = .step c w →
      isIssue 3 2 w = true →
      exec (.cipherXor q ctx) s = .next (s.putCtx q.val ctx.val { (({ c with buf := ⟨c.buf.data ^^^ c.ks, c.buf.side⟩, stream := c.stream ++ leBytes 64 (c.buf.data ^^^ c.ks).toNat } : JobCtx).took 3 (c.stat 3 &&& 8)) with steps := c.steps + 1 })) ∧
  -- tagCheck
  (∀ (q : Fin 24) (ctx : Fin 512) (c : JobCtx) (w : Nat) (k ma mi : Nat) (s : State),
      s.fetchStep q.val ctx.val = .step c w →
      isIssue 3 3 w = true →
      c.ctr = some (k, ma, mi) →
      exec (.tagCheck q ctx) s = .next (s.putCtx q.val ctx.val { (c.took 3 (4 * b2n (s.tagOk c.da (.ok k ma mi) c.buf) + (c.stat 3 &&& 8))) with steps := c.steps + 1 })) ∧
  -- tagGen
  (∀ (q : Fin 24) (ctx : Fin 512) (c : JobCtx) (w : Nat) (k ma mi : Nat) (s : State),
      s.fetchStep q.val ctx.val = .step c w →
      isIssue 3 4 w = true →
      c.ctr = some (k, ma, mi) →
      (s.slot k).mode = 2 →
      exec (.tagGen q ctx) s = .next (s.putCtx q.val ctx.val { (({ c with buf := ⟨c.buf.data, BitVec.ofNat 128 (c.buf.crc + 2 ^ 40 * setBits c.buf.hi 0 56 (lineTag (s.slot k).tagKey.toNat k (c.da / 64) ma mi c.buf.data.toNat))⟩ } : JobCtx).took 3 (c.stat 3 &&& 8)) with steps := c.steps + 1 })) ∧
  -- inflate
  (∀ (q : Fin 24) (ctx : Fin 512) (c : JobCtx) (w : Nat) (o : List Nat) (n : Bool) (s : State),
      s.fetchStep q.val ctx.val = .step c w →
      isIssue 4 1 w = true →
      inflateAll (c.stream.take (c.reg (stepA w))) (c.reg (stepA w)) = some (o, n) →
      o.length = 1024 →
      exec (.inflate q ctx) s = .next (s.putCtx q.val ctx.val { (({ c with codec := o, stream := [] } : JobCtx).took 4 0) with steps := c.steps + 1 })) ∧
  -- inflate_reject
  (∀ (q : Fin 24) (ctx : Fin 512) (c : JobCtx) (w : Nat) (s : State),
      s.fetchStep q.val ctx.val = .step c w →
      isIssue 4 1 w = true →
      inflateAll (c.stream.take (c.reg (stepA w))) (c.reg (stepA w)) = none →
      exec (.inflate q ctx) s = .next (s.putCtx q.val ctx.val { (({ c with stream := [] } : JobCtx).took 4 6) with steps := c.steps + 1 })) ∧
  -- deflate
  (∀ (q : Fin 24) (ctx : Fin 512) (stream : List (BitVec 8)) (c : JobCtx) (w : Nat) (s : State),
      s.fetchStep q.val ctx.val = .step c w →
      isIssue 4 2 w = true →
      canEmit (s.codeMode q.val (jobTag c.job)) (padTo 1024 c.stream) (nats stream) = true →
      exec (.deflate q ctx stream) s = .next (s.putCtx q.val ctx.val { ((({ c with codec := padTo 1024 c.stream, stream := nats stream } : JobCtx).setReg (stepB w) stream.length).took 4 (16 * b2n (decide (768 < stream.length)))) with steps := c.steps + 1 })) ∧
  -- verify
  (∀ (q : Fin 24) (ctx : Fin 512) (c : JobCtx) (w : Nat) (o : List Nat) (n : Bool) (s : State),
      s.fetchStep q.val ctx.val = .step c w →
      isIssue 4 3 w = true →
      inflateAll c.stream c.stream.length = some (o, n) →
      exec (.verify q ctx) s = .next (s.putCtx q.val ctx.val { (c.took 4 (8 * b2n (!(o == c.codec)))) with steps := c.steps + 1 })) ∧
  -- allocPlace
  (∀ (q : Fin 24) (ctx : Fin 512) (c : JobCtx) (w : Nat) (t : State) (sector : Nat) (s : State),
      s.fetchStep q.val ctx.val = .step c w →
      isIssue 5 1 w = true →
      s.place q.val (s.vi (jobTag c.job)).regionId (ceilDiv c.stream.length 256) (c.reg (stepA w) / 4) (c.reg (stepA w) % 4) ((toLines (4 * ceilDiv c.stream.length 256) (padTo (256 * ceilDiv c.stream.length 256) c.stream)).map (fun d => (d, false))) = (t, some sector) →
      exec (.allocPlace q ctx) s = .next ((t).putCtx q.val ctx.val { ((c.setReg (stepB w) sector).took 5 0) with steps := c.steps + 1 })) ∧
  -- allocClose
  (∀ (q : Fin 24) (ctx : Fin 512) (c : JobCtx) (w : Nat) (o : OpenStripe) (s : State),
      s.fetchStep q.val ctx.val = .step c w →
      isIssue 5 2 w = true →
      (s.pier q.val).open_.find? (fun o => o.region == (s.vi (jobTag c.job)).regionId && !o.closed) = some o →
      exec (.allocClose q ctx) s = .next ((s.closeStripe q.val o).putCtx q.val ctx.val { (c.took 5 0) with steps := c.steps + 1 }))

/-- The viaduct, counter-cache, translation and home units of the sequencers. For a context that fetches the
operation named: a message goes out where the link takes it; a cached counter is read, advanced, pinned and
unpinned; a port's TLB is looked up, the tables walked and the hold of a leaf tested; a line is ordered at its
home and released. The message's body is a free value (Config.body). Of what it says, log entries 16, 52 and 53
tell what is the model's choice. Rests on R19, R92, R94, R168, R175, R205, R304. -/
def Obligations.LinkCounterAndHomeUnitsComplete : Prop :=
  -- vdtSend
  (∀ (q : Fin 24) (ctx : Fin 512) (c : JobCtx) (w : Nat) (t : State) (s : State),
      let dest := c.reg (stepA w) % 32
      let l := if q.val < 16 then q.val else dest % 16
      s.fetchStep q.val ctx.val = .step c w →
      (stepOp w == 1 && stepUnit w == 6) = true →
      s.tick.sendSlot l (!decide (q.val < 16)) (sentSlot q.val (stepImm w % 65536 - 1) dest (Config.body s.free)) none = (t, true) →
      exec (.vdtSend q ctx) s = .next ((t).putCtx q.val ctx.val { (c.took 6 0) with steps := c.steps + 1 })) ∧
  -- ccacheGet
  (∀ (q : Fin 24) (ctx : Fin 512) (c : JobCtx) (w : Nat) (k ma mi : Nat) (s : State),
      let da := c.lineDa (stepA w)
      s.fetchStep q.val ctx.val = .step c w →
      isIssue 7 1 w = true →
      s.jobCtr da = .ok k ma mi →
      exec (.ccacheGet q ctx) s = .next ((s.telPier (s.ctrPier da) 0x19 1 (some (c.flt da))).putCtx q.val ctx.val { ((({ c with ctr := some (k, ma, mi) } : JobCtx).setReg (stepB w) (128 * ma + mi)).took 7 0) with steps := c.steps + 1 })) ∧
  -- ccacheAdvance
  (∀ (q : Fin 24) (ctx : Fin 512) (c : JobCtx) (w : Nat) (t : State) (k ma mi : Nat) (s : State),
      let da := c.lineDa (stepA w)
      let ovf := fun (u : State) => match u.ctrEnt da with | some (_, some e) => e.ovf.isSome | _ => false
      s.fetchStep q.val ctx.val = .step c w →
      isIssue 7 2 w = true →
      s.advance da = (t, .ok k ma mi) →
      exec (.ccacheAdvance q ctx) s = .next ((t).putCtx q.val ctx.val { ((({ c with ctr := some (k, ma, mi) } : JobCtx).setReg (stepB w) (128 * ma + mi)).took 7 (4 * b2n (ovf t && !ovf s))) with steps := c.steps + 1 })) ∧
  -- ccachePin
  (∀ (q : Fin 24) (ctx : Fin 512) (c : JobCtx) (w : Nat) (t : State) (s : State),
      s.fetchStep q.val ctx.val = .step c w →
      isIssue 7 3 w = true →
      s.pinCtr (c.lineDa (stepA w)) true = some t →
      exec (.ccachePin q ctx) s = .next ((t).putCtx q.val ctx.val { (c.took 7 0) with steps := c.steps + 1 })) ∧
  -- ccacheUnpin
  (∀ (q : Fin 24) (ctx : Fin 512) (c : JobCtx) (w : Nat) (t : State) (s : State),
      s.fetchStep q.val ctx.val = .step c w →
      isIssue 7 4 w = true →
      s.pinCtr (c.lineDa (stepA w)) false = some t →
      exec (.ccacheUnpin q ctx) s = .next ((t).putCtx q.val ctx.val { (c.took 7 0) with steps := c.steps + 1 })) ∧
  -- xlatLookup
  (∀ (q : Fin 24) (ctx : Fin 512) (c : JobCtx) (w : Nat) (e : TlbEnt) (s : State),
      s.fetchStep q.val ctx.val = .step c w →
      isIssue 8 1 w = true →
      (s.prt (q.val - 16)).tlbHit (jobTag c.job) (c.reg (stepA w) / 4096) = some e →
      exec (.xlatLookup q ctx) s = .next (s.putCtx q.val ctx.val { ((c.setReg (stepB w) e.leaf).took 8 4) with steps := c.steps + 1 })) ∧
  -- xlatWalk
  (∀ (q : Fin 24) (ctx : Fin 512) (c : JobCtx) (w : Nat) (a l e : Nat) (s : State),
      let via := c.reg (stepA w)
      s.fetchStep q.val ctx.val = .step c w →
      isIssue 8 2 w = true →
      s.findLeaf (jobTag c.job) via = some (a, l, e) →
      leafV e = true →
      s.leafFault e l via = none →
      exec (.xlatWalk q ctx) s = .next ((s.tlbFill (q.val - 16) (jobTag c.job) (via / 4096) l e).putCtx q.val ctx.val { ((c.setReg (stepB w) e).took 8 4) with steps := c.steps + 1 })) ∧
  -- xlatHold
  (∀ (q : Fin 24) (ctx : Fin 512) (c : JobCtx) (w : Nat) (a l e : Nat) (s : State),
      s.fetchStep q.val ctx.val = .step c w →
      isIssue 8 3 w = true →
      s.findLeaf (jobTag c.job) (c.reg (stepA w)) = some (a, l, e) →
      exec (.xlatHold q ctx) s = .next (s.putCtx q.val ctx.val { (c.took 8 (16 * b2n (leafM e || leafW e))) with steps := c.steps + 1 })) ∧
  -- homeOrder
  (∀ (q : Fin 24) (ctx : Fin 512) (c : JobCtx) (w : Nat) (s : State),
      let da := c.lineDa (stepA w)
      let u := (s.jobRecall da).1
      s.fetchStep q.val ctx.val = .step c w →
      isIssue 9 1 w = true →
      c.req = none →
      s.lineFree (da / 64) = true →
      (s.jobRecall da).2 = true →
      exec (.homeOrder q ctx) s = .next (((({ u with nextReq := (u.nextReq + 1) % 2 ^ 32 } : State).setReq u.nextReq (jobReq q.val ctx.val c da u.time))).putCtx q.val ctx.val { (({ c with req := some u.nextReq } : JobCtx).took 9 0) with steps := c.steps + 1 })) ∧
  -- homeRelease
  (∀ (q : Fin 24) (ctx : Fin 512) (c : JobCtx) (w : Nat) (id : Nat) (s : State),
      s.fetchStep q.val ctx.val = .step c w →
      isIssue 9 2 w = true →
      c.req = some id →
      exec (.homeRelease q ctx) s = .next (((s.dropReq id).release).putCtx q.val ctx.val { (({ c with req := none } : JobCtx).took 9 0) with steps := c.steps + 1 }))

/-- Mailboxes, interrupts, probes and restarts of the management engines. A running engine's message joins a mailbox
with room, and its interrupt sets the pending bits of the targets its mask names; a probe round counts misses
and restarts; an engine reloaded takes its own role back; HALT and RESTART of HUB_ENG_CTL act on the engine that
HUB_ENG_IDX names. Of what it says, log entries 55 and 56 tell what is the model's choice. Rests on R312, R313,
R315, R336. -/
def Obligations.EnginesComplete : Prop :=
  -- mailboxSend
  (∀ (eng dst : Fin 64) (msg : BitVec 512) (s : State),
      (s.eng eng.val).running = true →
      (s.eng dst.val).mailbox.length < 32 →
      exec (.mailboxSend eng dst msg) s = .next (s.setEng dst.val { (s.eng dst.val) with mailbox := (s.eng dst.val).mailbox ++ [msg] })) ∧
  -- interrupt
  (∀ (eng : Fin 64) (mask : BitVec 64) (s : State),
      (s.eng eng.val).running = true →
      exec (.interrupt eng mask) s = .next ((pick 64 (fun j => j != eng.val && mask.toNat.testBit j)).foldl (fun (s : State) (j : Nat) => s.interruptOne eng.val j) s)) ∧
  -- keystoneProbe
  (∀ (answered : BitVec 64) (s : State),
      s.keystoneRuns = true →
      s.key.probeAt + 10000000 ≤ s.time →
      exec (.keystoneProbe answered) s = .next ((pick 64 (fun e => (s.eng e).running)).foldl (fun (s : State) (e : Nat) => if answered.toNat.testBit e then s.setEng e { (s.eng e) with misses := 0 } else if (s.eng e).misses < 2 then s.setEng e { (s.eng e) with misses := (s.eng e).misses + 1 } else s.restartEng e) ({ s with key := { s.key with probeAt := s.time } } : State))) ∧
  -- engineReloadDone
  (∀ (eng : Fin 64) (s : State),
      (s.eng eng.val).loading = true →
      s.engOn = true →
      s.gateShut (73 + eng.val) = false →
      s.role eng.val = eng.val →
      exec (.engineReloadDone eng) s = .next (s.setEng eng.val { (s.eng eng.val) with running := true, loading := false, misses := 0 })) ∧
  -- engineReloadDone_role
  (∀ (eng : Fin 64) (s : State),
      (s.eng eng.val).loading = true →
      s.engOn = true →
      s.gateShut (73 + eng.val) = false →
      s.role eng.val ≠ eng.val →
      exec (.engineReloadDone eng) s = .next ((s.setEng eng.val { (s.eng eng.val) with running := true, loading := false, misses := 0 }).giveRole eng.val eng.val)) ∧
  -- engineHalt
  (∀ (v : BitVec 32) (s : State),
      let e := s.fld pgHub Reg.HUB_ENG_IDX_ENGINE
      v.toNat.testBit 0 = true →
      exec (.engineHalt v) s = .next ((s.setEng e { (s.eng e) with halt := true }).haltEng e)) ∧
  -- engRestart
  (∀ (s : State),
      let e := s.fld pgHub Reg.HUB_ENG_IDX_ENGINE
      (s.eng e).fenced = false →
      s.engOn = true →
      exec .engRestart s = .next ((s.reloadEng e).1))

/-- The last-lap timer, the baton, coast and restart. A beat of the running baton pair starts the windows again; a
window without a beat counts, and the third passes the baton, as do a lockstep mismatch and PASS; the third
bridge timeout in a row enters coast; a restart in coast with a good signature runs the named clusters, and one
without a beat for 250 ms fails. Of what it says, log entries 17 and 56 tell what is the model's choice. Rests
on R317, R318, R319. -/
def Obligations.KeystoneComplete : Prop :=
  -- hubLapBeat
  (∀ (eng : Fin 64) (s : State),
      let s0 := s.leaveIdle
      s0.ready = true →
      s0.awake = true →
      (eng.val = 16 * s0.baton ∨ eng.val = 16 * s0.baton + 1) →
      s0.pairRuns s0.baton = true →
      s0.coast = false →
      exec (.hubLapBeat eng) s = .next (({ s0.put pgHub Reg.HUB_LAP_STAT_MISSED 0 with key := { s0.key with windowAt := s0.time, loadAt := none, restartMask := 0, bridgeFails := 0 } } : State))) ∧
  -- lapWindowEnd
  (∀ (s : State),
      let m := s.fld pgHub Reg.HUB_LAP_STAT_MISSED
      s.engOn = true →
      s.pwr.state = 0 →
      s.key.loadAt = none →
      s.key.windowAt + 1000000 * (m + 1) ≤ s.time →
      m < 2 →
      exec .lapWindowEnd s = .next (s.put pgHub Reg.HUB_LAP_STAT_MISSED (m + 1))) ∧
  -- lapWindowEnd_third
  (∀ (s : State),
      let m := s.fld pgHub Reg.HUB_LAP_STAT_MISSED
      s.engOn = true →
      s.pwr.state = 0 →
      s.key.loadAt = none →
      s.key.windowAt + 1000000 * (m + 1) ≤ s.time →
      2 ≤ m →
      exec .lapWindowEnd s = .next ((s.put pgHub Reg.HUB_LAP_STAT_MISSED 3).passBaton 0)) ∧
  -- lockstepMismatch
  (∀ (s : State),
      s.engOn = true →
      exec .lockstepMismatch s = .next (s.passBaton 1)) ∧
  -- pass
  (∀ (s : State),
      s.engOn = true →
      exec .pass s = .next (s.passBaton 2)) ∧
  -- bridgeTimeout
  (∀ (s : State),
      s.engOn = true →
      s.key.bridgeFails < 2 →
      exec .bridgeTimeout s = .next (({ s with key := { s.key with bridgeFails := s.key.bridgeFails + 1 } } : State))) ∧
  -- bridgeTimeout_third
  (∀ (s : State),
      s.engOn = true →
      2 ≤ s.key.bridgeFails →
      exec .bridgeTimeout s = .next (s.enterCoast)) ∧
  -- restart
  (∀ (mask : BitVec 4) (k : Nat) (r : List Nat) (s : State),
      let s1 := s.put pgHub Reg.HUB_LAP_CTL_FENCED (maskOf 4 (fun k => s.fencedMcs.testBit k && !mask.toNat.testBit k))
      let s2 := ((engsOf mask.toNat).filter (fun e => !(s1.eng e).fenced)).foldl (fun (s : State) (e : Nat) => s.setEng e { (s.eng e) with running := true, loading := false, halt := false, misses := 0, mask := 2 ^ 64 - 1 }) s1
      mcsOf mask.toNat = k :: r →
      s.coast = true →
      s.ready = true →
      s.awake = true →
      exec (.restart mask true) s = .next (({ s2.takeBaton k with key := { s2.key with loadAt := some s2.time, restartMask := mask.toNat } } : State))) ∧
  -- restart_badSignature
  (∀ (mask : BitVec 4) (k : Nat) (r : List Nat) (s : State),
      mcsOf mask.toNat = k :: r →
      s.coast = true →
      s.ready = true →
      s.awake = true →
      exec (.restart mask false) s = .next (s.restartFail mask.toNat)) ∧
  -- restartBeatTimeout
  (∀ (e : Nat) (s : State),
      s.key.loadAt = some e →
      e + 250000000 ≤ s.time →
      s.ready = true →
      s.awake = true →
      s.coast = true →
      exec .restartBeatTimeout s = .next (s.restartFail s.key.restartMask))

/-- GET_KENEZ_INFO, the policy commands and the mailbox slots. For a command that the engines take: the information
is answered; a known parameter is read; a value within its limits that clashes with no other is applied and a
refused one is not; a mailbox slot with a legal opcode and length becomes BUSY and rings its engine. Of what it
says, log entries 14 and 31 tell what is the model's choice. Rests on R263, R320, R321, R324. -/
def Obligations.ManagerCommandsComplete : Prop :=
  -- getKenezInfo
  (∀ (src : CmdSrc) (p : List Nat) (s : State),
      s.engTakes src 0xC000 [] p = true →
      exec (.getKenezInfo src) s = .next ((s.taken src 0xC000).respondCmd src 0xC000 (s.taken src 0xC000).kenezInfo)) ∧
  -- policyGet
  (∀ (src : CmdSrc) (req : List (BitVec 8)) (p : List Nat) (v lo hi : Nat) (s : State),
      s.engTakes src 0xC300 (nats req) p = true →
      (s.taken src 0xC300).polEntry (pf p 0 2) = some (v, lo, hi) →
      zeroBytes p [2, 3] = true →
      exec (.policyGet src req) s = .next ((s.taken src 0xC300).respondCmd src 0xC300 ([stDone, 0, 0, 0] ++ leBytes 4 v ++ leBytes 4 lo ++ leBytes 4 hi))) ∧
  -- policySet
  (∀ (src : CmdSrc) (req : List (BitVec 8)) (p : List Nat) (old lo hi : Nat) (s : State),
      let id := pf p 0 2
      let v := pf p 4 4
      s.engTakes src 0xC301 (nats req) p = true →
      (s.taken src 0xC301).polEntry id = some (old, lo, hi) →
      zeroBytes p [2, 3] = true →
      v ≠ old →
      lo ≤ v →
      v ≤ hi →
      (s.taken src 0xC301).polClash id v = false →
      exec (.policySet src req) s = .next (((s.taken src 0xC301).changePolicy id v lo hi).respondCmd src 0xC301 [stDone])) ∧
  -- mbxCmdGo
  (∀ (slot : Fin 7) (v : BitVec 32) (s : State),
      let k := slot.val
      let op := bits v.toNat 0 16
      let held := (s.put pgMbx (Reg.MBX_CMD_OPCODE k) op).put pgMbx (Reg.MBX_CMD_LEN k) (bits v.toNat 16 8)
      let busy := held.put pgMbx (Reg.MBX_STAT_BUSY k) 1
      let s1 := ({ busy with mbx := SMap.put s.mbx k { (s.mbox k) with op := op } } : State)
      v.toNat.testBit 31 = true →
      s.flag pgMbx (Reg.MBX_STAT_BUSY k) = false →
      vendorReq op = some (bits v.toNat 16 8) →
      s1.keystoneRuns = true →
      exec (.mbxCmdGo slot v) s = .next (s1.ring (s1.cmdEngine op (s1.mbox k).req) 25))

/-- Thermal throttling, the alert holdoff and the fault journal. A thermal value that differs after at least 2
degrees sets THROTTLE of every Pier to the larger of both values; alerts in the holdoff cause one assertion at
its end; the oldest buffered record is programmed into the open sector; tokens come back at their pace. Of what
it says, log entries 40, 55, 58 and 59 tell what is the model's choice. Rests on R325, R331, R332, R333, R334. -/
def Obligations.HeatThrottleAndJournalComplete : Prop :=
  -- thermalThrottle
  (∀ (t : BitVec 8) (s : State),
      let s1 := ({ s with thermAt := s.time, therm := (s.thermValue t.toNat, t.toNat) } : State)
      s.engOn = true →
      s.thermAt + 10000000 ≤ s.time →
      s.thermValue t.toNat ≠ s.therm.1 →
      (s.therm.2 + 2 ≤ t.toNat ∨ t.toNat + 2 ≤ s.therm.2) →
      exec (.thermalThrottle t) s = .next ((List.range 16).foldl (fun (s : State) (n : Nat) => s.put (pgPier n) Reg.PIER_DCTL_THROTTLE (max (SMap.getD s.vdtThr n 0) s.therm.1)) s1)) ∧
  -- alertHoldoffEnd
  (∀ (a : Nat) (s : State),
      s.alertAt = some a →
      a + 10000000 ≤ s.time →
      s.flag pgHub Reg.HUB_EVT_ALERT_PEND = true →
      exec .alertHoldoffEnd s = .next (({ s with alertAt := some s.time, alerts := s.alerts + 1 } : State).put pgHub Reg.HUB_EVT_ALERT_PEND 0)) ∧
  -- alertHoldoffEnd_quiet
  (∀ (a : Nat) (s : State),
      s.alertAt = some a →
      a + 10000000 ≤ s.time →
      s.flag pgHub Reg.HUB_EVT_ALERT_PEND = false →
      exec .alertHoldoffEnd s = .next (({ s with alertAt := none } : State))) ∧
  -- journalWrite
  (∀ (r : Record) (l : List Record) (s : State),
      let s1 := s.put pgHub Reg.HUB_JNL_DEFERRED 0
      let a := jnlSector s.jnl.sector + 32 * s.jnl.slot
      s.ready = true →
      s.awake = true →
      s.jnl.buf = r :: l →
      0 < s.jnl.slot →
      s.jnl.slot < 128 →
      s.holdPass 0 = true →
      exec .journalWrite s = .next (({ s1 with flash := Memory.program s.flash a (leBytes 32 r.pack), jnl := { s.jnl with slot := s.jnl.slot + 1, buf := l } } : State))) ∧
  -- journalTokenRefill
  (∀ (s : State),
      s.jnl.tok1At + 10000000000 ≤ s.time →
      exec (.journalTokenRefill false) s = .next (({ s with jnl := { s.jnl with tok1 := min 64 (s.jnl.tok1 + 1), tok1At := s.jnl.tok1At + 10000000000 } } : State))) ∧
  -- journalTokenRefill_second
  (∀ (s : State),
      s.jnl.tok2At + 3600000000000 ≤ s.time →
      exec (.journalTokenRefill true) s = .next (({ s with jnl := { s.jnl with tok2 := min 16 (s.jnl.tok2 + 1), tok2At := s.jnl.tok2At + 3600000000000 } } : State)))

/-- Forced records, the error capture, missed counts and ring tails. GO of EVT_FORCE with an index of the page and a
known kind produces one record; a rearm clears the page's capture; the missed count named clears; and a TAIL
that does not pass HEAD takes the records before it off its ring. Of what it says, log entries 57 and 60 tell
what is the model's choice. Rests on R336, R408, R409, R433. -/
def Obligations.EventReadersComplete : Prop :=
  -- evtForce
  (∀ (page : BitVec 8) (v : BitVec 32) (src : Nat) (s : State),
      let pg := page.toNat
      let s1 := ((s.put pg Reg.EVT_FORCE_KIND (bits v.toNat 0 16)).put pg Reg.EVT_FORCE_INDEX (bits v.toNat 16 5)).put pg Reg.EVT_FORCE_SEV (bits v.toNat 21 2)
      (pageSources pg)[bits v.toNat 16 5]? = some src →
      s.pageShut pg = false →
      v.toNat.testBit 31 = true →
      kindKnown (bits v.toNat 0 16) = true →
      exec (.evtForce page v) s = .next (s1.raise src (bits v.toNat 0 16) (bits v.toNat 21 2) none 0 (2 ^ 64 - 1))) ∧
  -- capRearm
  (∀ (page : BitVec 8) (s : State),
      pageSources page.toNat ≠ [] →
      s.pageShut page.toNat = false →
      exec (.capRearm page) s = .next (({ s with errCap := SMap.del s.errCap page.toNat } : State))) ∧
  -- evtMissedClear
  (∀ (s : State),
      let i := s.fld pgHub Reg.HUB_EVT_MISSED_IDX_SOURCE
      exec .evtMissedClear s = .next (({ s with missed := SMap.del s.missed i, missedMax := s.missedMax.filter (fun x => x != i) } : State))) ∧
  -- ringTailWrite_manager
  (∀ (tail : BitVec 13) (n : Nat) (s : State),
      tailTakes s.mq.head s.mq.tail (tail.toNat % 4096) 4096 = some n →
      exec (.ringTailWrite .manager tail) s = .next (({ s with mq := { s.mq with recs := s.mq.recs.drop n, tail := tail.toNat % 4096 } } : State))) ∧
  -- ringTailWrite_fault
  (∀ (p : Fin 8) (ld : Fin 16) (vi : BitVec 16) (tail : BitVec 13) (n : Nat) (s : State),
      let v := s.vi vi.toNat
      s.viPage p.val ld.val vi.toNat = true →
      tailTakes v.fq.head v.fq.tail (tail.toNat % 64) 64 = some n →
      exec (.ringTailWrite (.fault p ld vi) tail) s = .next (s.setVi vi.toNat { v with fq := { v.fq with recs := v.fq.recs.drop n, tail := tail.toNat % 64 } })) ∧
  -- ringTailWrite_samples
  (∀ (m : Fin 16) (tail : BitVec 13) (k : Nat) (s : State),
      let pg := pgPier m.val
      s.pageShut pg = false →
      tailTakes (s.fld pg Reg.PIER_SAMP_PTR_HEAD) (s.fld pg Reg.PIER_SAMP_PTR_TAIL) (tail.toNat % 8192) 8192 = some k →
      exec (.ringTailWrite (.samples m) tail) s = .next (s.put pg Reg.PIER_SAMP_PTR_TAIL (tail.toNat % 8192)))

/-- Counters, select registers and lap dumps. Writes of counters and select registers mark the next record; CLEAR
zeroes every counter; an interval starts dumps at lap 1 with one of at least 10 us; a snapshot latches the
values at its time, and is skipped while the record before is still being written. Of what it says, log entries
61 and 62 tell what is the model's choice. Rests on R338, R341, R344, R348, R349, R354, R355. -/
def Obligations.TelemetryComplete : Prop :=
  -- lapDumpStart
  (∀ (v : BitVec 32) (s : State),
      let s1 := s.put pgTel Reg.TEL_LAP_CTL_INTERVAL_US (bits v.toNat 0 20)
      let s2 := ((s1.put pgTel Reg.TEL_LAP_STAT_RUNNING 1).put pgTel Reg.TEL_LAP_STAT_SKIPPED 0).put pgTel Reg.TEL_LAP_NUM_LAP 0
      bits v.toNat 0 20 ≠ 0 →
      exec (.lapDumpStart v) s = .next (({ s2 with lap := ⟨s2.time, s2.time + 1000 * s2.lapUs, 0, true, false, [], 0, 0, 0, 0, 0, false, false⟩ } : State).dumpWork)) ∧
  -- lapDumpStop
  (∀ (s : State),
      let s1 := s.put pgTel Reg.TEL_LAP_CTL_INTERVAL_US 0
      exec .lapDumpStop s = .next (({ s1 with lap := { s1.lap with writing := false, header := false } } : State).put pgTel Reg.TEL_LAP_STAT_RUNNING 0)) ∧
  -- lapSnapshot
  (∀ (s : State),
      let s0 := s.leaveIdle
      s.flag pgTel Reg.TEL_LAP_STAT_RUNNING = true →
      s.awake = true →
      s.lap.next ≤ s.time →
      s.telVi.isNone = false →
      s0.lap.writing = false →
      exec .lapSnapshot s = .next (({ s0 with lap := { s0.lap with next := s0.lapNext, lap := s0.lap.lap + 1, writing := true, vals := s0.dumped, flags := s0.lapFlags, skip := s0.lap.skipped, prevTime := s0.lap.time, time := s0.time, skipped := 0, reconfig := false, gap := false } } : State))) ∧
  -- lapSnapshot_skipped
  (∀ (s : State),
      let s0 := s.leaveIdle
      let s1 := ({ s0 with lap := { s0.lap with next := s0.lapNext, skipped := s0.lap.skipped + 1, gap := true } } : State)
      s.flag pgTel Reg.TEL_LAP_STAT_RUNNING = true →
      s.awake = true →
      s.lap.next ≤ s.time →
      s.telVi.isNone = false →
      s0.lap.writing = true →
      exec .lapSnapshot s = .next ((s1.put pgTel Reg.TEL_LAP_STAT_SKIPPED (min 0xFFFF (s0.fld pgTel Reg.TEL_LAP_STAT_SKIPPED + 1))).raise 56 0xA00 INFO none 0 0)) ∧
  -- lapRecordDone
  (∀ (s : State),
      s.ready = true →
      s.awake = true →
      exec .lapRecordDone s = .next (s.dumpWork)) ∧
  -- telFreeze
  (∀ (on : Bool) (s : State),
      exec (.telFreeze on) s = .next (s.put pgTel Reg.TEL_FREEZE_FREEZE (b2n on))) ∧
  -- telClear
  (∀ (s : State),
      exec .telClear s = .next (({ s with telCnt := [], lap := { s.lap with reconfig := true } } : State))) ∧
  -- telCntWrite
  (∀ (i : Fin 1024) (v : BitVec 64) (s : State),
      s.pageShut (telPage i.val) = false →
      v.toNat ≠ 0 →
      exec (.telCntWrite i v) s = .next (({ s with telCnt := SMap.put s.telCnt i.val v.toNat, lap := { s.lap with reconfig := true } } : State))) ∧
  -- telSelWrite
  (∀ (i : Fin 1024) (v : BitVec 64) (s : State),
      let w := if (fixedCode i.val).isSome then telSelReset + 512 * b2n (v.toNat.testBit 9) else bits v.toNat 0 15 + 2 ^ 16 * bits v.toNat 16 33
      s.pageShut (telPage i.val) = false →
      exec (.telSelWrite i v) s = .next (({ s with telSel := SMap.put s.telSel i.val w, lap := { s.lap with reconfig := true } } : State)))

/-- Candidates, the root clock, its backup and holdover. A candidate appears, is measured, or is lost; the third
window in range in a row makes it READY; ROOT_SEL with a READY candidate switches and counts; ARM with a READY
candidate other than the root arms it; a relock ends a failover; a root that returns in range within 1 ms ends
the holdover, and its end goes on to a READY candidate or into Deep Sleep. Of what it says, log entries 63 and
64 tell what is the model's choice. Rests on R356, R357, R359, R360, R361, R362. -/
def Obligations.ClockRootComplete : Prop :=
  -- refclkAbsent
  (∀ (p : Fin 8) (s : State),
      s.candPresent p.val = true →
      exec (.refclkAbsent p) s = .next (s.candAbsent p.val)) ∧
  -- refclkPresent
  (∀ (p : Fin 8) (s : State),
      exec (.refclkPresent p) s = .next (({ s with clk := { s.clk with present := setBit s.clk.present p.val } } : State))) ∧
  -- candidateWindow
  (∀ (p : Fin 8) (count : BitVec 20) (r : Nat) (s : State),
      let s1 := (s.put pgClk (Reg.CLK_CAND_PPM p.val) (ppmField count.toNat)).put pgClk (Reg.CLK_CAND_REF p.val) r
      s.clocked = true →
      s.candPresent p.val = true →
      s.refFor p.val = some r →
      99940 ≤ count.toNat →
      count.toNat ≤ 100060 →
      min 3 (s1.fld pgClk (Reg.CLK_CAND_RUN p.val) + 1) < 3 →
      exec (.candidateWindow p count) s = .next (s1.put pgClk (Reg.CLK_CAND_RUN p.val) (min 3 (s1.fld pgClk (Reg.CLK_CAND_RUN p.val) + 1)))) ∧
  -- candidateWindow_ready
  (∀ (p : Fin 8) (count : BitVec 20) (r : Nat) (s : State),
      let s1 := (s.put pgClk (Reg.CLK_CAND_PPM p.val) (ppmField count.toNat)).put pgClk (Reg.CLK_CAND_REF p.val) r
      let s2 := s1.put pgClk (Reg.CLK_CAND_RUN p.val) 3
      s.clocked = true →
      s.candPresent p.val = true →
      s.refFor p.val = some r →
      99940 ≤ count.toNat →
      count.toNat ≤ 100060 →
      2 ≤ s1.fld pgClk (Reg.CLK_CAND_RUN p.val) →
      s2.unqualified = false →
      exec (.candidateWindow p count) s = .next (s2.put pgClk Reg.CLK_ROOT_STAT_READY (setBit (s2.fld pgClk Reg.CLK_ROOT_STAT_READY) p.val))) ∧
  -- candidateWindow_out
  (∀ (p : Fin 8) (count : BitVec 20) (r : Nat) (s : State),
      let s1 := (s.put pgClk (Reg.CLK_CAND_PPM p.val) (ppmField count.toNat)).put pgClk (Reg.CLK_CAND_REF p.val) r
      s.clocked = true →
      s.candPresent p.val = true →
      s.refFor p.val = some r →
      (count.toNat < 99940 ∨ 100060 < count.toNat) →
      exec (.candidateWindow p count) s = .next (s1.unready p.val)) ∧
  -- rootSel
  (∀ (p : Fin 8) (s : State),
      let s1 := if s.armed && s.backup == p.val then s.putArmed false else s
      p.val ≠ s.root →
      s.candReady p.val = true →
      s.clk.switching = false →
      s.flag pgClk Reg.CLK_ROOT_STAT_HOLDOVER = false →
      s.pwr.trans = 0 →
      exec (.rootSel p) s = .next (((s1.setRoot p.val).put pgClk Reg.CLK_ROOT_CNT_SWITCHES (min 0xFFFF (s.fld pgClk Reg.CLK_ROOT_CNT_SWITCHES + 1))).raise 456 0x900 INFO none 0 0)) ∧
  -- arm
  (∀ (p : Fin 8) (s : State),
      let s1 := s.put pgClk Reg.CLK_ROOT_CTL_BACKUP p.val
      s1.candReady p.val = true →
      p.val ≠ s1.root →
      s.pwr.trans = 0 →
      exec (.arm p) s = .next (s1.putArmed true)) ∧
  -- relockDone
  (∀ (s : State),
      s.clk.switching = true →
      exec .relockDone s = .next (s.failover s.clk.target)) ∧
  -- rootReturn
  (∀ (e : Nat) (s : State),
      s.clk.holdSince = some e →
      s.candPresent s.root = true →
      s.time ≤ e + 1000000 →
      exec (.rootReturn true) s = .next ((s.locked2).raise 456 0x903 WARN none 0 0)) ∧
  -- holdoverEnd
  (∀ (e k : Nat) (s : State),
      s.clk.holdSince = some e →
      e + 1000000 ≤ s.time →
      s.pwr.trans = 0 →
      s.pwr.rootLoss = false →
      (List.range 8).find? (fun k => k != s.root && s.clk.readyAtLoss.testBit k && s.candPresent k) = some k →
      exec .holdoverEnd s = .next (s.failover k)) ∧
  -- holdoverEnd_none
  (∀ (e : Nat) (s : State),
      let s1 := ({ s with pwr := { s.pwr with state := 0, rootLoss := true } } : State).put 0xB Reg.PWR_STAT_STATE 0
      s.clk.holdSince = some e →
      e + 1000000 ≤ s.time →
      s.pwr.trans = 0 →
      s.pwr.rootLoss = false →
      s.pwr.state ≠ 2 →
      (List.range 8).find? (fun k => k != s.root && s.clk.readyAtLoss.testBit k && s.candPresent k) = none →
      exec .holdoverEnd s = .next (s1.startPrep 3))

/-- Clock gates close, open, wait and time out. For the node that CLK_GATE_IDX names: an open leaf that is not busy
closes at once and a busy one waits, to close when its work ends or to be refused with CLK_GATE_BUSY 10 us after
the write; a closed node under an open parent opens. Of what it says, log entry 65 tell what is the model's
choice. Rests on R367, R368. -/
def Obligations.GatesComplete : Prop :=
  -- gateClose
  (∀ (s : State),
      let n := s.gateNode
      s.clk.pendNode = none →
      n ≠ 0 →
      n ≤ 136 →
      s.gateShut n = false →
      s.childOpen n = false →
      ¬(73 ≤ n ∧ (s.eng (n - 73)).running = true) →
      s.nodeBusy n = false →
      exec .gateClose s = .next (({ s with clk := { s.clk with closed := n :: s.clk.closed, pendNode := none } } : State))) ∧
  -- gateClose_busy
  (∀ (s : State),
      let n := s.gateNode
      s.clk.pendNode = none →
      n ≠ 0 →
      n ≤ 136 →
      s.gateShut n = false →
      s.childOpen n = false →
      ¬(73 ≤ n ∧ (s.eng (n - 73)).running = true) →
      s.nodeBusy n = true →
      exec .gateClose s = .next (({ s with clk := { s.clk with pendNode := some (n, s.time) } } : State))) ∧
  -- gateOpen
  (∀ (s : State),
      let n := s.gateNode
      let s1 := ({ s with clk := { s.clk with closed := s.clk.closed.filter (fun m => m != n) } } : State)
      s.clk.pendNode = none →
      n ≤ 136 →
      s.gateShut n = true →
      s.gateShut (gateParent n) = false →
      exec .gateOpen s = .next (if 9 ≤ n ∧ n ≤ 16 then s1.settle (n - 9) else if 65 ≤ n ∧ n ≤ 72 then s1.settle (n - 65) else s1)) ∧
  -- gatePendingDone
  (∀ (n e : Nat) (s : State),
      s.clk.pendNode = some (n, e) →
      s.nodeBusy n = false →
      exec .gatePendingDone s = .next (({ s with clk := { s.clk with closed := n :: s.clk.closed, pendNode := none } } : State))) ∧
  -- gateBusy
  (∀ (n e : Nat) (s : State),
      let s1 := ({ s with clk := { s.clk with pendNode := none } } : State)
      s.clk.pendNode = some (n, e) →
      e + 10000 ≤ s.time →
      s.nodeBusy n = true →
      exec .gateBusy s = .next ((s1.gateRefuse 4).raise 457 0x905 WARN none 0 0))

/-- Power states are requested, prepared and entered. A request that nothing refuses leaves Idle and starts the
preparation; a prepared one goes on to the entry; a quiet block enters Sleep with self-refresh, Deep Sleep with
its losses, or Off once the health record is saved or skipped; VHOLD is sampled; Idle is entered and left. Of
what it says, log entry 66 tell what is the model's choice. Rests on R371, R372, R373, R374, R375, R376, R378,
R381. -/
def Obligations.PowerEntryComplete : Prop :=
  -- sleepRequest
  (∀ (s : State),
      s.ready = true →
      ¬(s.pwr.trans = 0 ∧ s.pwr.state = 2) →
      s.pwrRefusal 2 = none →
      exec .sleepRequest s = .next (s.leaveIdle.startPrep 2)) ∧
  -- deepSleepRequest
  (∀ (s : State),
      s.ready = true →
      ¬(s.pwr.trans = 0 ∧ s.pwr.state = 3) →
      s.pwrRefusal 3 = none →
      exec .deepSleepRequest s = .next (s.leaveIdle.startPrep 3)) ∧
  -- offRequest
  (∀ (s : State),
      s.ready = true →
      ¬(s.pwr.trans = 0 ∧ s.pwr.state = 4) →
      s.pwrRefusal 4 = none →
      exec .offRequest s = .next (s.leaveIdle.startPrep 4)) ∧
  -- prepDone
  (∀ (s : State),
      s.pwr.trans = 1 →
      s.prepared s.pwr.target = true →
      exec .prepDone s = .next ((({ s with dir := [], pwr := { s.pwr with trans := 2 } } : State).put pgPwr Reg.PWR_STAT_PREP 0).put pgPwr Reg.PWR_STAT_ENTERING 1)) ∧
  -- entryDone_sleep
  (∀ (s : State),
      s.pwr.trans = 2 →
      s.quiet = true →
      s.linksIdle = true →
      s.pwr.target = 2 →
      exec .entryDone s = .next (s.selfRefresh.enterState 2)) ∧
  -- entryDone_deep
  (∀ (s : State),
      s.pwr.trans = 2 →
      s.quiet = true →
      s.linksIdle = true →
      s.pwr.target = 3 →
      exec .entryDone s = .next (s.deepLoss.enterState 3)) ∧
  -- entryDone_off
  (∀ (s : State),
      let s1 := s.raise 458 0x907 INFO none 0 0
      s.pwr.trans = 2 →
      s.quiet = true →
      s.linksIdle = true →
      s.pwr.target = 4 →
      s.saveDue = false →
      s.pwr.wake = none →
      exec .entryDone s = .next (s1.unpowered { State.reset.pwr with state := 4, addrSel := s1.pwr.addrSel, failedStarts := s1.pwr.failedStarts })) ∧
  -- offStateSave
  (∀ (s : State),
      s.saveDue = true →
      s.holdPass 2 = true →
      exec .offStateSave s = .next (s.offSave)) ∧
  -- skipSave
  (∀ (s : State),
      exec .skipSave s = .next (s.skipOffSave)) ∧
  -- vholdSample
  (∀ (mv : BitVec 10) (s : State),
      let e := s.holdEnergy mv.toNat
      let s1 := (s.put pgPwr Reg.PWR_HOLD_STAT_VHOLD_MV mv.toNat).put pgPwr Reg.PWR_HOLD_STAT_ENERGY_MJ (min 0xFFFF (e / 64000000000))
      let s2 := s1.put pgPwr Reg.PWR_HOLD_STAT_PASS (if s.flag pgPwr Reg.PWR_HOLD_VMIN_HOLD_EN then holdBits e else 7)
      s.rails = true →
      s.pwr.state < 2 →
      s.jnl.buf = [] →
      s.saveDue = false →
      exec (.vholdSample mv) s = .next (({ s2 with pwr := { s2.pwr with holdAt := s2.time } } : State))) ∧
  -- idleEntry
  (∀ (s : State),
      let s1 := ({ s.selfRefresh with pwr := { s.pwr with state := 1 } } : State).put pgPwr Reg.PWR_STAT_STATE 1
      s.ready = true →
      s.pwr.state = 0 →
      s.pwr.trans = 0 →
      s.pwr.warm = false →
      s.flag pgPwr Reg.PWR_CTL_IDLE_EN = true →
      s.idleQuiet = true →
      exec .idleEntry s = .next (s1.bump pgPwr Reg.PWR_IDLE_CNT_COUNT Reg.PWR_IDLE_CNT_SAT 1)) ∧
  -- idleExit
  (∀ (s : State),
      exec .idleExit s = .next (s.leaveIdle))

/-- Wakes and the way back to Run. Each wake source counts from the states it wakes from: PWR_CTL.WAKE, WAKE_N, the
sleep timer, the thermal start and a port's PERST_N; the exit from Sleep trains the links again and restarts the
last-lap window, the exit from Deep Sleep loads the engines and recovers the clock. Of what it says, log entries
64, 66 and 104 tell what is the model's choice. Rests on R257, R362, R363, R372, R374, R375, R377, R378. -/
def Obligations.PowerExitComplete : Prop :=
  -- wake
  (∀ (s : State),
      exec .wake s = .next (s.wakeBy 1)) ∧
  -- wakeN
  (∀ (s : State),
      s.pwr.state ≠ 4 →
      exec .wakeN s = .next (s.leaveIdle.wakeBy 0)) ∧
  -- wakeN_off
  (∀ (s : State),
      s.pwr.state = 4 →
      s.pwr.waitRestart = false →
      s.pwr.failedStarts < 3 →
      s.pwr.thermtrip = false →
      s.aon = true →
      exec .wakeN s = .next (s.coldBoot)) ∧
  -- sleepTimer
  (∀ (s : State),
      s.pwr.state = 2 →
      s.fld pgPwr Reg.PWR_CTL_SLEEP_TIMER_MS ≠ 0 →
      s.pwr.sleepAt + 1000000 * s.fld pgPwr Reg.PWR_CTL_SLEEP_TIMER_MS ≤ s.time →
      exec .sleepTimer s = .next (s.wakeBy 4)) ∧
  -- thermalWake
  (∀ (t : BitVec 8) (s : State),
      s.pwrGoal = 2 →
      s.pol 0x600 ≤ t.toNat →
      exec (.thermalWake t) s = .next (s.wakeBy 5)) ∧
  -- perstNDeassert
  (∀ (p : Fin 8) (s : State),
      let s1 := (s.put (pgPort p.val) Reg.PORT_PINS_PERST_N 1).urgUpdate p.val
      exec (.perstNDeassert p) s = .next (if s1.pwrGoal = 3 then s1.wakeBy 3 else s1)) ∧
  -- exitDone_sleep
  (∀ (s : State),
      let s1 := ({ s.reinitLinks with key := { s.key with windowAt := s.time } } : State).put pgHub Reg.HUB_LAP_STAT_MISSED 0
      s.pwr.trans = 3 →
      s.pwr.state = 2 →
      (s1.backToRun 2).pwr.rootLoss = false →
      exec .exitDone s = .next (s1.backToRun 2)) ∧
  -- exitDone_deep
  (∀ (s : State),
      s.pwr.trans = 3 →
      s.pwr.state ≠ 2 →
      s.clk.present ≠ 0 →
      s.pwr.rootLoss = false →
      exec .exitDone s = .next (((s.deepExit.reinitLinks.allPauses.engineLoad).backToRun 3).resumeCopies))

/-- Rails, thermal trip and the resets. The rails come up with the root clock, fault, and restart; a thermal trip
latches; VDD_AON appears and goes; SYS_RESET_N and COLD start from cold; WARM starts a warm reset, which ends
once the block is quiet. Of what it says, log entries 67, 68, 77 and 78 tell what is the model's choice. Rests
on R358, R380, R390, R395, R396, R406, R418, R420, R422, R427. -/
def Obligations.RailsAndResetsComplete : Prop :=
  -- railFault
  (∀ (s : State),
      let n := if !s.rails || decide (s.time ≤ 1000000000) then s.pwr.failedStarts + 1 else 0
      s.pwr.enMem = true →
      exec .railFault s = .next (s.unpowered { State.reset.pwr with state := 4, addrSel := s.pwr.addrSel, failedStarts := n, waitRestart := n < 3 })) ∧
  -- railRestart
  (∀ (s : State),
      s.pwr.waitRestart = true →
      exec .railRestart s = .next (s.coldBoot)) ∧
  -- thermtrip
  (∀ (t : BitVec 8) (s : State),
      s.rails = true →
      s.pwr.enMain = true →
      s.tripAt ≤ t.toNat →
      exec (.thermtrip t) s = .next (s.unpowered { State.reset.pwr with state := 4, addrSel := s.pwr.addrSel, thermtrip := true })) ∧
  -- vddAonUp
  (∀ (addrSel : Fin 4) (s : State),
      s.aon = false →
      exec (.vddAonUp addrSel) s = .next (({ s with aon := true, pwr := { State.reset.pwr with addrSel := addrSel.val } } : State).coldFrom 0)) ∧
  -- vddAonOff
  (∀ (s : State),
      exec .vddAonOff s = .next (({ s with aon := false } : State).unpowered State.reset.pwr)) ∧
  -- sysResetN
  (∀ (s : State),
      s.aon = true →
      exec .sysResetN s = .next (s.coldFrom 0)) ∧
  -- cold
  (∀ (s : State),
      s.rails = true →
      s.awake = true →
      exec .cold s = .next (s.coldFrom s.pwr.failedStarts)) ∧
  -- warm
  (∀ (s : State),
      s.rails = true →
      s.awake = true →
      exec .warm s = .next (s.writeWarm)) ∧
  -- railsConfirmed
  (∀ (k : Nat) (s : State),
      s.aon = true →
      s.rails = false →
      s.pwr.enMem = true →
      s.pwr.enMain = true →
      (List.range 8).find? (fun k => s.candPresent k) = some k →
      exec .railsConfirmed s = .next ((({ s with rails := true } : State).setRoot k).put 0 Reg.TRUSS_BOOT_STAT_STAGE 2)) ∧
  -- warmResetDone
  (∀ (s : State),
      s.pwr.warm = true →
      s.quiet = true →
      s.prepared 3 = true →
      s.linksIdle = true →
      s.reqs.all (fun x => x.2.phase == .answered) = true →
      exec .warmResetDone s = .next (s.warmEnd.raise 60 0xB05 INFO none 0 0))

/-- Register reads and writes and the DA window. A read by BAR, Fenbo or an engine answers the value at the offset,
and a write stores it under the field's access; a host reaches only the page of its own VI; the DA window reads
and writes DRAM at its base; an access that Sleep keeps away from the BAR wakes the Kenez. Of what it says, log
entries 70 and 72 tell what is the model's choice. Rests on R8, R398, R401, R402, R413, R414. -/
def Obligations.RegisterAccessComplete : Prop :=
  -- wideRegisterRead
  (∀ (path : Path) (off : BitVec 29) (size8 : Bool) (t : State) (v : Nat) (s : State),
      (∀ p ld, path ≠ .host p ld) →
      s.barAsleep path = false →
      s.readAt off.toNat (sizeOf8 size8) path {} = (t, some v) →
      exec (.wideRegisterRead path off size8) s = .next (t.emit (.regData v))) ∧
  -- wideRegisterRead_host
  (∀ (p : Fin 8) (ld : Fin 16) (off : BitVec 29) (size8 : Bool) (t : Nat) (s : State),
      let r := s.leaveIdle.viRead t (off.toNat % 4096) (sizeOf8 size8)
      s.barVi p.val ld.val off.toNat (sizeOf8 size8) = some t →
      exec (.wideRegisterRead (.host p ld) off size8) s = .next (r.1.emit (.regData r.2))) ∧
  -- registerWrite
  (∀ (path : Path) (off : BitVec 29) (size8 : Bool) (v : BitVec 64) (s : State),
      (∀ p ld, path ≠ .host p ld) →
      s.barAsleep path = false →
      exec (.registerWrite path off size8 v) s = .next ((s.writeAt off.toNat (sizeOf8 size8) (v.toNat % 2 ^ (8 * sizeOf8 size8)) path {}).1)) ∧
  -- registerWrite_host
  (∀ (p : Fin 8) (ld : Fin 16) (off : BitVec 29) (size8 : Bool) (v : BitVec 64) (t : Nat) (s : State),
      let o := off.toNat % 4096
      let s1 := s.leaveIdle.viWrite t o (v.toNat % 2 ^ 32)
      s.barVi p.val ld.val off.toNat (sizeOf8 size8) = some t →
      exec (.registerWrite (.host p ld) off size8 v) s = .next (if size8 then s1.viWrite t (o + 4) (v.toNat / 2 ^ 32) else s1)) ∧
  -- registerWrite_asleep
  (∀ (path : Path) (off : BitVec 29) (size8 : Bool) (v : BitVec 64) (s : State),
      s.barAsleep path = true →
      exec (.registerWrite path off size8 v) s = .next (s.wakeBy 2)) ∧
  -- daWindowRead
  (∀ (path : Path) (off : BitVec 25) (size8 : Bool) (b : Bursts) (t : State) (v : Nat) (s : State),
      s.barAsleep path = false →
      s.readAt (0x2000000 + off.toNat) (sizeOf8 size8) path b = (t, some v) →
      exec (.daWindowRead path off size8 b) s = .next (t.emit (.regData v))) ∧
  -- daWindowWrite
  (∀ (path : Path) (off : BitVec 25) (size8 : Bool) (v : BitVec 64) (b : Bursts) (s : State),
      s.barAsleep path = false →
      exec (.daWindowWrite path off size8 v b) s = .next ((s.writeAt (0x2000000 + off.toNat) (sizeOf8 size8) (v.toNat % 2 ^ (8 * sizeOf8 size8)) path b).1))

/-- Fenbo request frames, their operation and the response. With the sideband up and no request running, a frame of
8 to 263 bytes with the row's OP becomes the running request and the previous response is gone, as does a frame
of no legal OP or length under BAD_OP; the operation ends with its response, which is read, and reads BUSY while
one runs. Of what it says, log entries 40 and 73 tell what is the model's choice. Rests on R404, R405. -/
def Obligations.SidebandComplete : Prop :=
  -- fenboRd
  (∀ (f : List (BitVec 8)) (s : State),
      frameLenOk f = true →
      frameOp (f.map BitVec.toNat) = 1 →
      s.fenboUp = true →
      s.fenbo.run = none →
      exec (.fenboRd f) s = .next (({ s with fenbo := { s.fenbo with run := some (f.map BitVec.toNat), rsp := none } } : State))) ∧
  -- fenboWr
  (∀ (f : List (BitVec 8)) (s : State),
      frameLenOk f = true →
      frameOp (f.map BitVec.toNat) = 2 →
      s.fenboUp = true →
      s.fenbo.run = none →
      exec (.fenboWr f) s = .next (({ s with fenbo := { s.fenbo with run := some (f.map BitVec.toNat), rsp := none } } : State))) ∧
  -- spiRd
  (∀ (f : List (BitVec 8)) (s : State),
      frameLenOk f = true →
      frameOp (f.map BitVec.toNat) = 3 →
      s.fenboUp = true →
      s.fenbo.run = none →
      exec (.spiRd f) s = .next (({ s with fenbo := { s.fenbo with run := some (f.map BitVec.toNat), rsp := none } } : State))) ∧
  -- spiProg
  (∀ (f : List (BitVec 8)) (s : State),
      frameLenOk f = true →
      frameOp (f.map BitVec.toNat) = 4 →
      s.fenboUp = true →
      s.fenbo.run = none →
      exec (.spiProg f) s = .next (({ s with fenbo := { s.fenbo with run := some (f.map BitVec.toNat), rsp := none } } : State))) ∧
  -- spiErase
  (∀ (f : List (BitVec 8)) (s : State),
      frameLenOk f = true →
      frameOp (f.map BitVec.toNat) = 5 →
      s.fenboUp = true →
      s.fenbo.run = none →
      exec (.spiErase f) s = .next (({ s with fenbo := { s.fenbo with run := some (f.map BitVec.toNat), rsp := none } } : State))) ∧
  -- fenboStatus
  (∀ (f : List (BitVec 8)) (s : State),
      frameLenOk f = true →
      frameOp (f.map BitVec.toNat) = 6 →
      s.fenboUp = true →
      s.fenbo.run = none →
      exec (.fenboStatus f) s = .next (({ s with fenbo := { s.fenbo with run := some (f.map BitVec.toNat), rsp := none } } : State))) ∧
  -- badOp
  (∀ (f : List (BitVec 8)) (s : State),
      frameLenOk f = true →
      frameOk (f.map BitVec.toNat) = false →
      s.fenboUp = true →
      s.fenbo.run = none →
      exec (.badOp f) s = .next (({ s with fenbo := { s.fenbo with run := some (f.map BitVec.toNat), rsp := none } } : State))) ∧
  -- fenboOpDone
  (∀ (flashOk : Bool) (f : List Nat) (s : State),
      s.fenbo.run = some f →
      s.fenboUp = true →
      exec (.fenboOpDone flashOk) s = .next (s.fenboRun f flashOk)) ∧
  -- fenboResponse
  (∀ (r : List Nat) (s : State),
      s.fenboUp = true →
      s.fenbo.run = none →
      s.fenbo.rsp = some r →
      exec .fenboResponse s = .next (s.emit (.fenbo r))) ∧
  -- fenboResponse_busy
  (∀ (f : List Nat) (s : State),
      s.fenboUp = true →
      s.fenbo.run = some f →
      exec .fenboResponse s = .next (s.emit (.fenbo (fenboFrame 1 (frameTag f) []))))

/-- The steps of a boot. Each step acts at its own stage: the image read takes the chosen image, or halts with cause
1 without SFDP and 2 without an image; the population check takes the sixteen SPD answers; training disables the
channels that failed; the metadata is zeroed; and the pools laid out make media ready. Of what it says, log
entries 22, 69, 74, 75, 76, 97, 100 and 106 tell what is the model's choice. Rests on R53, R388, R390, R391,
R392, R393, R394. -/
def Obligations.BootComplete : Prop :=
  -- bootImageRead
  (∀ (a b : Option Image) (slot : Nat) (second : Bool) (i : Image) (s : State),
      s.fld 0 Reg.TRUSS_BOOT_STAT_STAGE = 2 →
      s.rails = true →
      s.chooseImage (a.filter (s.accepts 0)) (b.filter (s.accepts 1)) = some (slot, second, i) →
      exec (.bootImageRead true a b) s = .next (s.applyImage slot second i)) ∧
  -- bootImageRead_noImage
  (∀ (a b : Option Image) (s : State),
      s.fld 0 Reg.TRUSS_BOOT_STAT_STAGE = 2 →
      s.rails = true →
      s.chooseImage (a.filter (s.accepts 0)) (b.filter (s.accepts 1)) = none →
      exec (.bootImageRead true a b) s = .next (s.halt 2)) ∧
  -- bootImageRead_noFlash
  (∀ (a b : Option Image) (s : State),
      s.fld 0 Reg.TRUSS_BOOT_STAT_STAGE = 2 →
      s.rails = true →
      exec (.bootImageRead false a b) s = .next (s.halt 1)) ∧
  -- populationCheck
  (∀ (spd : List (Option Spd)) (i : Image) (s : State),
      spd.length = 16 →
      s.fld 0 Reg.TRUSS_BOOT_STAT_STAGE = 6 →
      s.img = some i →
      exec (.populationCheck spd) s = .next (s.populate i spd)) ∧
  -- dramTrainingDone
  (∀ (failed : BitVec 16) (s : State),
      s.fld 0 Reg.TRUSS_BOOT_STAT_STAGE = 8 →
      exec (.dramTrainingDone failed) s = .next ((s.disableAll (pick 16 (fun n => failed.toNat.testBit n))).nextStage 9)) ∧
  -- metadataZeroDone
  (∀ (s : State),
      s.fld 0 Reg.TRUSS_BOOT_STAT_STAGE = 9 →
      exec .metadataZeroDone s = .next (({ s with zeroFilled := true } : State).put 0 Reg.TRUSS_BOOT_STAT_STAGE 10)) ∧
  -- poolAllocation
  (∀ (s : State),
      s.fld 0 Reg.TRUSS_BOOT_STAT_STAGE = 10 →
      exec .poolAllocation s = .next (((s.poolsUp.tokensFull.put 0 Reg.TRUSS_BOOT_STAT_STAGE 0xF).startPiers.startLaps.recordHeld).bootDone))

/-- One step takes the command at the front of the queue. A step of a state with the command c in front is exec of c
on the state with the queue's rest. On an empty queue a nanosecond passes while the hub's clock runs (power
state 0 to 2): the counters of every clock count, and the engines take what waits for them; in Deep Sleep, Off
and without VDD_AON nothing happens. The idle step is the model's choice (log entry 2). Rests on 00_scope.md,
13_engines_sequencers_recovery.md. -/
def Obligations.StepTakesFront : Prop :=
  (∀ (c : Instr) (rest : List Instr) (s : State), s.pending = c :: rest → step s = exec c { s with pending := rest }) ∧
  (∀ s : State, s.pending = [] → s.pwr.state ≤ 2 → step s = .next ({ s.countTick with time := s.time + 1 } : State).engineTick) ∧
  (∀ s : State, s.pending = [] → 2 < s.pwr.state → step s = .next s)

/-- The state before VDD_AON comes up. Reset is a sound state with nothing waiting, no rail in range, no link up and
no memory listed; the registers read the reset values of the register map: the Pacer's percentages, the training
period, the sample rate, the counters' select words and the Viaducts' grace period. Where the map gives none the
value is the model's (log entry 3). Rests on 09_virtual_instances.md, 11_pacer.md, 14_telemetry.md,
17_register_map.md. -/
def Obligations.ResetState : Prop :=
  State.reset.Sound ∧ State.reset.pending = [] ∧ State.reset.aon = false ∧ State.reset.rails = false ∧ State.reset.media = [] ∧
  State.reset.fld pgPacer Reg.PACER_CTL_CEIL_PCT = 85 ∧ State.reset.fld pgPacer Reg.PACER_CTL_EFF_PCT = 80 ∧
  State.reset.fld pgPacer Reg.PACER_CTL_URG3_MAX_MS = 100 ∧ State.reset.fld pgPacer Reg.PACER_CTL_BG_FLOOR_PCT = 5 ∧
  (∀ n : Fin 16, State.reset.fld (pgPier n.val) Reg.PIER_TRAIN_PERIOD_MS = 100 ∧
    State.reset.fld (pgPier n.val) Reg.PIER_SAMP_CTL_N = 1024 ∧ State.reset.fld (pgPier n.val) Reg.PIER_LIU_CTL_UE_LIMIT = 4) ∧
  (∀ l : Fin 20, State.reset.fld (pgVdt l.val) Reg.VDT_GRACE_GRACE_US = 100 ∧ State.reset.fld (pgVdt l.val) Reg.VDT_STAT_SPEED = 2) ∧
  (∀ k : Fin 8, State.reset.linkUp k.val = false ∧ State.reset.fld (pgPort k.val) Reg.PORT_GRACE_GRACE_US = 10000) ∧
  (∀ i : Fin 128, bits (State.reset.telSelect i.val) 10 3 = 7 ∧ bits (State.reset.telSelect i.val) 32 8 = 0xFF ∧ State.reset.telValue i.val = 0)

/-- A select register takes effect at once and leaves the counter. A write of a programmable counter's select
register on a page whose block is open completes; from the next state on it reads as written, and no counter's
value is touched. Formalises R341. -/
def Obligations.SelectKeepsCounter : Prop :=
  ∀ (i : Fin 1024) (v : BitVec 64) (s : State), s.pageShut (telPage i.val) = false → fixedCode i.val = none →
    ∃ t, exec (.telSelWrite i v) s = .next t ∧
      t.telSelect i.val = bits v.toNat 0 15 + 2 ^ 16 * bits v.toNat 16 33 ∧
      (∀ j, j ≠ i.val → t.telSelect j = s.telSelect j) ∧ t.telCnt = s.telCnt ∧ ∀ j, t.telValue j = s.telValue j

/-- Every well-formed command completes, and an ill-formed one stops by name. For every state, a command whose
operand lists have the lengths its row allows answers a next state, and a command that fails its check answers
the fault illFormed and nothing else. The check is the model's (log entry 1). Rests on 00_scope.md,
17_register_map.md. -/
def Obligations.OnlyIllFormedStops : Prop :=
  (∀ (c : Instr) (s : State), c.wf = true → ∃ t, exec c s = .next t) ∧
  (∀ (c : Instr) (s : State), c.wf = false → exec c s = .fault .illFormed)

/-- No command's effect touches the queue. From every sound state, exec of any command leaves the waiting commands
as they are: what a command does to other commands is nothing but its effect on the rest of the state. Rests on
00_scope.md. -/
def Obligations.ExecKeepsQueue : Prop :=
  ∀ (c : Instr) (s t : State), s.Sound → exec c s = .next t → t.pending = s.pending

/-- Every step keeps the state sound. From every sound state, a step that answers a next state answers a sound one:
the flash keeps its canonical form (so that equal contents are equal data), the DRAM map and the register map
stay sorted without duplicates (log entry 21), and the power state and its transition stay legal codes. Rests on
03_dram_channels.md, 15_clocks_and_power.md, 16_boot_and_configuration.md, 17_register_map.md. -/
def Obligations.StepKeepsSound : Prop :=
  ∀ (s t : State), s.Sound → step s = .next t → t.Sound

/-- A flit holds its header, its payload and their CRC-64. For every header and every payload of 64 bytes, the flit
built from them holds the header in bytes 0 to 7 and the payload in bytes 8 to 71, little-endian, and in bytes
72 to 79 the CRC-64 of bytes 0 to 71, taken bit 7 of each byte first from the initial value of all ones with the
generator named and no final XOR; and a receiver accepts a flit exactly where that CRC agrees. Formalises R280,
R6. -/
def Obligations.FlitLayout : Prop :=
  (∀ (seq ack ty vt hdr data dcnt : Nat) (ackV : Bool) (p : List Nat), p.length = 64 → (∀ x ∈ p, x < 256) →
    let f := mkFlit seq ack ackV ty vt hdr data dcnt p
    bits f.toNat 0 64 = layout [(0, 12, seq), (12, 12, ack), (24, 1, b2n ackV), (25, 3, ty), (28, 2, vt), (30, 12, hdr),
      (42, 12, data), (54, 3, dcnt)] ∧ flitBytes f 8 64 = p ∧ ofLe (flitBytes f 72 8) = crc64 (flitBytes f 0 72) ∧
    flitOk f = true) ∧
  (∀ f : BitVec 640, flitOk f = (crc64 (flitBytes f 0 72) == ofLe (flitBytes f 72 8))) ∧
  crc64 [] = 0xFFFFFFFFFFFFFFFF ∧
  (∀ (bs : List Nat) (b : Nat), crc64 (bs ++ [b]) = [7, 6, 5, 4, 3, 2, 1, 0].foldl (fun c i =>
      if (b.testBit i) != (c.testBit 63) then ((2 * c) % 2 ^ 64) ^^^ 0x42F0E1EBA9EA3693 else (2 * c) % 2 ^ 64) (crc64 bs))

/-- A written line carries its side bits and passes its own check. For every data and every value of the side
fields, the line made for a seed tag and a DA holds the data and each field at its place of the side bits, with
the reserved bits zero; it passes the CRC-40 check for that seed tag and DA, and is legal unless DSTATE is 0b11.
Rests on R30, R31, R34, R35. -/
def Obligations.LineSideBits : Prop :=
  ∀ (seed da tag sharers dstate owner tier slot : Nat) (poison mirror : Bool) (data : BitVec 512),
    tag < 2 ^ 56 → sharers < 256 → dstate < 4 → owner < 8 → tier < 4 → slot < 16 →
    let l := mkLine seed da data (sideHi tag sharers dstate owner tier poison mirror slot)
    l.data = data ∧ bits l.side.toNat 0 40 = crc40 seed (da / 64) l.hi data.toNat ∧ bits l.side.toNat 40 56 = tag ∧
    bits l.side.toNat 96 8 = sharers ∧ bits l.side.toNat 104 2 = dstate ∧ bits l.side.toNat 106 3 = owner ∧
    bits l.side.toNat 109 3 = 0 ∧ bits l.side.toNat 112 2 = tier ∧ l.side.toNat.testBit 114 = poison ∧
    l.side.toNat.testBit 115 = mirror ∧ bits l.side.toNat 116 4 = slot ∧ bits l.side.toNat 120 8 = 0 ∧
    l.crcOk seed da = true ∧ (l.illegal = true ↔ dstate = 3)

/-- A counter line holds MAJOR and 64 minor counters. MAJOR is bits 55 to 0 and MINOR_j bits 62 + 7j to 56 + 7j of a
counter line; setting MAJOR and one minor counter changes no other minor counter and leaves the reserved bits as
they were, and a fresh counter line has its MAJOR, minors of 0 and reserved bits of 0. Formalises R174. -/
def Obligations.CounterLineLayout : Prop :=
  (∀ b : BitVec 512, ctrMajor b = bits b.toNat 0 56 ∧ ∀ j, j < 64 → ctrMinor b j = bits b.toNat (56 + 7 * j) 7) ∧
  (∀ (b : BitVec 512) (ma j mi : Nat), ma < 2 ^ 56 → j < 64 → mi < 128 →
    ctrMajor (ctrSet b ma j mi) = ma ∧ ctrMinor (ctrSet b ma j mi) j = mi ∧
    (∀ i, i < 64 → i ≠ j → ctrMinor (ctrSet b ma j mi) i = ctrMinor b i) ∧
    bits (ctrSet b ma j mi).toNat 504 8 = bits b.toNat 504 8) ∧
  (∀ ma, ma < 2 ^ 56 → ctrMajor (ctrFresh ma) = ma ∧ (∀ j, j < 64 → ctrMinor (ctrFresh ma) j = 0) ∧
    bits (ctrFresh ma).toNat 504 8 = 0)

/-- Programming clears bits of the flash and an erase sets a sector. In a flash in canonical form, a programmed byte
reads as the old byte with the bits cleared that the programmed value has clear, every other byte is unchanged,
and after a sector's erase its bytes read 0xFF and all others as before. That programming sets no bit is the
model's reading of a NOR flash (log entry 40). Rests on R332, R333, R386, R405. -/
def Obligations.FlashBytes : Prop :=
  (∀ (m : List Host.Cell) (a : Nat) (bs : List Nat), Memory.wf m = true →
    (∀ i, (h : i < bs.length) → Memory.read (Memory.program m a bs) (a + i) = Memory.read m (a + i) &&& BitVec.ofNat 8 bs[i]) ∧
    (∀ x, x < a ∨ a + bs.length ≤ x → Memory.read (Memory.program m a bs) x = Memory.read m x)) ∧
  (∀ (m : List Host.Cell) (n x : Nat), Memory.read (Memory.erase m n) x = if x / 4096 = n then 0xFF else Memory.read m x)

/-- A line written to DRAM is the line read back, and no other line changes. After a whole line is written to a copy
of a DA that no engine-kept pool of the metadata reserve holds, that copy's burst returns the line, the burst of
every other line address or copy returns what it returned before, and no other part of the state changes. A line
of such a pool reads as what its pool holds after the write, under the bits beside it that were written, and
nothing but the DRAM, the owner map and the heat array changes. What the pools hold is the model's reading of
R391 (log entry 19). Rests on R28, R33, R36, R72, R113. -/
def Obligations.DramReadAfterWrite : Prop :=
  (∀ (s : State) (da copy : Nat) (l : Line), copy < 2 →
    s.daKind da ≠ .metadata ∨ (s.region da).isSome = true ∨ s.poolLine da = none →
    (s.dramWrite da copy l).dramLine da copy = l ∧
    (∀ (x k : Nat), k < 2 → x / 64 ≠ da / 64 ∨ k ≠ copy → (s.dramWrite da copy l).dramLine x k = s.dramLine x k) ∧
    ∃ m, s.dramWrite da copy l = { s with media := m }) ∧
  (∀ (s : State) (da copy : Nat) (l : Line) (d : BitVec 512), copy < 2 →
    (s.dramWrite da copy l).daKind da = .metadata → (s.dramWrite da copy l).region da = none →
    (s.dramWrite da copy l).poolLine da = some d →
    (s.dramWrite da copy l).dramLine da copy = mkLine 0 da d l.hi) ∧
  (∀ (s : State) (da copy : Nat) (l : Line), ∃ m o h, s.dramWrite da copy l = { s with media := m, owner := o, heat := h })

/-- Each beat of a burst carries four data bytes on DQ and eight side bits on CB. For every line and every beat k
from 0 to 15, DQ[7:0] to DQ[31:24] carry data bytes 4k to 4k + 3 and CB[7:0] carries side bits [8k+7:8k]; the
line that has the sixteen beats of a line is that line; and bits flipped on the beats of a burst are flipped at
their places in it. Formalises R29. -/
def Obligations.BeatLayout : Prop :=
  (∀ (l : Line) (k i : Nat), k < 16 → i < 4 → (l.beat k).extractLsb' (8 * i) 8 = l.data.extractLsb' (8 * (4 * k + i)) 8) ∧
  (∀ (l : Line) (k : Nat), k < 16 → (l.beat k).extractLsb' 32 8 = l.side.extractLsb' (8 * k) 8) ∧
  (∀ l : Line, Line.ofBeats l.beat = l) ∧
  (∀ (l : Line) (f : BitVec 640) (k : Nat), k < 16 → (l.flip f).beat k = l.beat k ^^^ f.extractLsb' (40 * k) 40)

/-- Every slot that is booked keeps SLOT_TOTAL the sum of the four class counters. Where SLOT_TOTAL of a Pier equals
the sum of SLOT_RETIRED, SLOT_WASTED, SLOT_FRONT and SLOT_BACK (modulo 2^64), it does so after slots of any
class are booked, after any burst on any Pier, and after time has passed over any Pier's slots. Which
turnarounds take how many slots is a free value (Config.turnSlots). Rests on R342, R343. -/
def Obligations.LedgerBalances : Prop :=
  ∀ (n : Fin 16) (s : State),
    let bal := fun (u : State) => let v := fun (j : Nat) => u.telValue (512 + 32 * n.val + j)
      v 0 % 2 ^ 64 = (v 1 + v 2 + v 3 + v 4) % 2 ^ 64
    bal s →
    (∀ p cls amt : Nat, cls = slotRetired ∨ cls = slotFront ∨ cls = slotBack ∨ wasteRefresh ≤ cls → bal (s.book p cls amt)) ∧
    (∀ (m : Ma) (b : Burst) (hint : Nat) (f : Option Flt), bal (s.bus m b hint f)) ∧
    (∀ (p ns : Nat) (waits : Nat → Bool), bal (s.passSlots p ns waits))

/-- A line sealed under its counter opens to the same plaintext. A line sealed under the counter its burst took, in
a key slot below 16, names that slot in KEYSLOT, passes the CRC-40 check and the TAG check under the same
counter, and decrypts to the plaintext it was sealed from. Rests on R26, R34, R166, R170, R171. -/
def Obligations.SealedLineOpens : Prop :=
  ∀ (s : State) (seed da k ma mi tier sharers dstate owner : Nat) (data : BitVec 512) (poison mirror : Bool), k < 16 →
    let l := s.sealLine seed da (.ok k ma mi) data poison mirror tier sharers dstate owner
    l.keyslot = k ∧ l.crcOk seed da = true ∧ s.tagOk da (.ok k ma mi) l = true ∧ s.decrypt da (.ok k ma mi) l.data = data

/-- PASS halts the old pair, fences its cluster and gives the baton on. Where the Keystone works and k is the first
cluster after the old one that is not FENCED and whose pair runs, PASS answers a next state in which k holds the
baton, the old cluster is FENCED with its pair halted and its masks cleared, doorbell bit 26 is set on both
engines of k, and no other engine has changed. Rests on R316, R317. -/
def Obligations.BatonPasses : Prop :=
  ∀ (s : State) (k : Nat), s.engOn = true → s.baton < 4 →
    ([1, 2, 3].map (fun i => (s.baton + i) % 4)).find? (fun k => !s.fencedMcs.testBit k && s.pairRuns k) = some k →
    ∃ t, exec .pass s = .next t ∧ t.baton = k ∧ t.fencedMcs.testBit s.baton = true ∧
      (∀ e, e = 16 * s.baton ∨ e = 16 * s.baton + 1 → (t.eng e).running = false ∧ (t.eng e).mask = 0) ∧
      (∀ e, e = 16 * k ∨ e = 16 * k + 1 → (t.eng e).doorbell.testBit 26 = true ∧ (t.eng e).running = true) ∧
      (∀ e, e ≠ 16 * s.baton → e ≠ 16 * s.baton + 1 → e ≠ 16 * k → e ≠ 16 * k + 1 → t.eng e = s.eng e)

/-- Control commands leave stored data, keys and translations alone. The frame of the commands that act on events,
telemetry, clocks, engines' mailboxes and a link's pause and replay: where one of them answers a next state,
DRAM, the flash, the frame owner map, the key slots and the key map, the directory, the requests in flight, the
ports, the Piers and the extents are what they were. Rests on R312, R313, R336, R341, R355, R357, R359, R360,
R408, R409, R433, 17_register_map.md. -/
def Obligations.ControlFrame : Prop :=
  ∀ (c : Instr) (s t : State),
    (match c with
      | .refclkPresent _ | .candidateWindow _ _ | .rootSel _ | .arm _ | .gateClose | .gatePendingDone | .gateBusy | .telFreeze _
      | .telClear | .telCntWrite _ _ | .telSelWrite _ _ | .evtForce _ _ | .capRearm _ | .evtMissedClear | .alertHoldoffEnd
      | .journalTokenRefill _ | .interrupt _ _ | .mailboxSend _ _ _ | .jobTimeout _ _ | .pauseReq _ _ | .pauseAck _ _
      | .replayReq _ _ _ | .replayTimeout _ _ | .discardRepeat _ _ | .vdtRetry _ | .thermalThrottle _ | .lapDumpStop
      | .lapSnapshot => true
      | _ => false) = true →
    exec c s = .next t →
    s.SameStore t
end

