-- ==== Sys2Proof/Laws/Map.lean ====
section
/-!
SUPPORT. The finite map and the flash: a key set reads back, other keys stay, and every operation keeps the canonical form.
-/
namespace Sys2Proof

/-! ### The finite map -/

@[simp] theorem SMap.get?_nil {α : Type} (k : Nat) : SMap.get? ([] : SMap α) k = none := rfl

theorem SMap.get?_cons {α : Type} (a : Nat) (v : α) (t : SMap α) (k : Nat) :
    SMap.get? ((a, v) :: t) k = if k = a then some v else SMap.get? t k := rfl

@[simp] theorem SMap.get?_put_same {α : Type} (m : SMap α) (k : Nat) (v : α) : SMap.get? (SMap.put m k v) k = some v := by
  induction m with
  | nil => simp [SMap.put, SMap.get?]
  | cons x t ih =>
    obtain ⟨a, w⟩ := x
    simp only [SMap.put]
    split
    · simp [SMap.get?]
    · split
      · simp [SMap.get?]
      · simp_all [SMap.get?]

theorem SMap.get?_put_other {α : Type} (m : SMap α) {k j : Nat} (v : α) (h : j ≠ k) :
    SMap.get? (SMap.put m k v) j = SMap.get? m j := by
  induction m with
  | nil => simp [SMap.put, SMap.get?, h]
  | cons x t ih =>
    obtain ⟨a, w⟩ := x
    simp only [SMap.put]
    split
    · simp [SMap.get?, h]
    · split
      · subst_vars; simp [SMap.get?, h]
      · simp only [SMap.get?]; split <;> simp_all

theorem SMap.get?_put {α : Type} (m : SMap α) (k j : Nat) (v : α) :
    SMap.get? (SMap.put m k v) j = if j = k then some v else SMap.get? m j := by
  split
  · subst_vars; simp
  · exact SMap.get?_put_other m v ‹_›

@[simp] theorem SMap.getD_put_same {α : Type} (m : SMap α) (k : Nat) (v d : α) : SMap.getD (SMap.put m k v) k d = v := by
  simp [SMap.getD]

theorem SMap.getD_put_other {α : Type} (m : SMap α) {k j : Nat} (v d : α) (h : j ≠ k) :
    SMap.getD (SMap.put m k v) j d = SMap.getD m j d := by
  simp [SMap.getD, SMap.get?_put_other m v h]

/-- Every key of a map lies above a bound. -/
def SMap.above {α : Type} (b : Nat) (m : SMap α) : Prop := ∀ p ∈ m, b < p.1

theorem SMap.sorted_cons {α : Type} (a : Nat) (v : α) (t : SMap α) :
    SMap.sorted ((a, v) :: t) = true ↔ SMap.above a t ∧ SMap.sorted t = true := by
  induction t generalizing a v with
  | nil => simp [SMap.sorted, SMap.above]
  | cons x t ih =>
    obtain ⟨b, w⟩ := x
    have h := ih b w
    simp only [SMap.sorted, Bool.and_eq_true, decide_eq_true_eq]
    constructor
    · rintro ⟨hab, hs⟩
      refine ⟨fun p hp => ?_, hs⟩
      rcases List.mem_cons.mp hp with rfl | hp
      · exact hab
      · exact Nat.lt_trans hab ((h.mp hs).1 p hp)
    · rintro ⟨ha, hs⟩
      exact ⟨ha (b, w) List.mem_cons_self, hs⟩

theorem SMap.above_put {α : Type} {m : SMap α} {b k : Nat} {v : α} (h : SMap.above b m) (hk : b < k) :
    SMap.above b (SMap.put m k v) := by
  induction m with
  | nil => intro p hp; simp_all [SMap.put]
  | cons x t ih =>
    obtain ⟨a, w⟩ := x
    have ht : SMap.above b t := fun p hp => h p (List.mem_cons_of_mem _ hp)
    have ha : b < a := h (a, w) List.mem_cons_self
    simp only [SMap.put]
    split
    · intro p hp; rcases List.mem_cons.mp hp with rfl | hp
      · exact hk
      · exact h p hp
    · split
      · intro p hp; rcases List.mem_cons.mp hp with rfl | hp
        · exact hk
        · exact ht p hp
      · intro p hp; rcases List.mem_cons.mp hp with rfl | hp
        · exact ha
        · exact ih ht p hp

theorem SMap.above_cons {α : Type} {b a : Nat} {v : α} {t : SMap α} (hb : b < a) (h : SMap.above a t) :
    SMap.above b ((a, v) :: t) := by
  intro p hp
  rcases List.mem_cons.mp hp with rfl | hp
  · exact hb
  · exact Nat.lt_trans hb (h p hp)

theorem SMap.sorted_put {α : Type} (m : SMap α) (k : Nat) (v : α) (h : SMap.sorted m = true) :
    SMap.sorted (SMap.put m k v) = true := by
  induction m with
  | nil => rfl
  | cons x t ih =>
    obtain ⟨a, w⟩ := x
    have ⟨ha, ht⟩ := (SMap.sorted_cons a w t).mp h
    simp only [SMap.put]
    split
    · exact (SMap.sorted_cons k v _).mpr ⟨SMap.above_cons (by assumption) ha, h⟩
    · split
      · subst_vars; exact (SMap.sorted_cons _ v t).mpr ⟨ha, ht⟩
      · exact (SMap.sorted_cons a w _).mpr ⟨SMap.above_put ha (by omega), ih ht⟩

theorem SMap.sorted_filter {α : Type} (m : SMap α) (f : Nat × α → Bool) (h : SMap.sorted m = true) :
    SMap.sorted (List.filter f m) = true := by
  induction m with
  | nil => rfl
  | cons x t ih =>
    obtain ⟨a, w⟩ := x
    have ⟨ha, ht⟩ := (SMap.sorted_cons a w t).mp h
    simp only [List.filter_cons]
    split
    · exact (SMap.sorted_cons a w _).mpr ⟨fun p hp => ha p (List.mem_filter.mp hp).1, ih ht⟩
    · exact ih ht

theorem SMap.sorted_del {α : Type} (m : SMap α) (k : Nat) (h : SMap.sorted m = true) : SMap.sorted (SMap.del m k) = true :=
  SMap.sorted_filter m _ h

theorem SMap.sorted_drop' {α : Type} (m : SMap α) (f : Nat → Bool) (h : SMap.sorted m = true) :
    SMap.sorted (SMap.drop' m f) = true :=
  SMap.sorted_filter m _ h

namespace Machine

/-! ### The flash -/

/-- Every address of a flash list lies above a bound. -/
def Memory.above (b : Nat) (m : List Host.Cell) : Prop := ∀ p ∈ m, b < p.1

theorem Memory.wf_cons (a : Nat) (v : BitVec 8) (t : List Host.Cell) :
    Memory.wf ((a, v) :: t) = true ↔ v ≠ 0xFF ∧ Memory.above a t ∧ Memory.wf t = true := by
  induction t generalizing a v with
  | nil => simp [Memory.wf, Memory.above]
  | cons x t ih =>
    obtain ⟨b, w⟩ := x
    have h := ih b w
    simp only [Memory.wf, Bool.and_eq_true, decide_eq_true_eq, bne_iff_ne, ne_eq]
    constructor
    · rintro ⟨⟨hv, hab⟩, hs⟩
      refine ⟨hv, fun p hp => ?_, hs⟩
      rcases List.mem_cons.mp hp with rfl | hp
      · exact hab
      · exact Nat.lt_trans hab ((h.mp hs).2.1 p hp)
    · rintro ⟨hv, ha, hs⟩
      exact ⟨⟨hv, ha (b, w) List.mem_cons_self⟩, hs⟩

theorem Memory.above_write {m : List Host.Cell} {b k : Nat} {v : BitVec 8} (h : Memory.above b m) (hk : b < k) :
    Memory.above b (Memory.write m k v) := by
  induction m with
  | nil => intro p hp; simp only [Memory.write] at hp; split at hp <;> simp_all
  | cons x t ih =>
    obtain ⟨a, w⟩ := x
    have ht : Memory.above b t := fun p hp => h p (List.mem_cons_of_mem _ hp)
    have ha : b < a := h (a, w) List.mem_cons_self
    have put : ∀ (l : List Host.Cell) (c : Host.Cell), b < c.1 → Memory.above b l → Memory.above b (c :: l) := by
      intro l c hc hl p hp
      rcases List.mem_cons.mp hp with rfl | hp
      · exact hc
      · exact hl p hp
    simp only [Memory.write]
    split
    · split
      · exact h
      · exact put _ _ hk h
    · split
      · split
        · exact ht
        · exact put _ _ hk ht
      · exact put _ _ ha (ih ht)

theorem Memory.above_cons {b a : Nat} {v : BitVec 8} {t : List Host.Cell} (hb : b < a) (h : Memory.above a t) :
    Memory.above b ((a, v) :: t) := by
  intro p hp
  rcases List.mem_cons.mp hp with rfl | hp
  · exact hb
  · exact Nat.lt_trans hb (h p hp)

theorem Memory.wf_write (m : List Host.Cell) (k : Nat) (v : BitVec 8) (h : Memory.wf m = true) :
    Memory.wf (Memory.write m k v) = true := by
  induction m with
  | nil =>
    simp only [Memory.write]
    split
    · rfl
    · simpa [Memory.wf] using ‹_›
  | cons x t ih =>
    obtain ⟨a, w⟩ := x
    have ⟨hw, ha, ht⟩ := (Memory.wf_cons a w t).mp h
    simp only [Memory.write]
    split
    · split
      · exact h
      · exact (Memory.wf_cons k v _).mpr ⟨by assumption, Memory.above_cons (by assumption) ha, h⟩
    · split
      · split
        · exact ht
        · subst_vars; exact (Memory.wf_cons _ v t).mpr ⟨‹_›, ha, ht⟩
      · exact (Memory.wf_cons a w _).mpr ⟨hw, Memory.above_write ha (by omega), ih ht⟩

theorem Memory.wf_filter (m : List Host.Cell) (f : Host.Cell → Bool) (h : Memory.wf m = true) :
    Memory.wf (List.filter f m) = true := by
  induction m with
  | nil => rfl
  | cons x t ih =>
    obtain ⟨a, w⟩ := x
    have ⟨hw, ha, ht⟩ := (Memory.wf_cons a w t).mp h
    simp only [List.filter_cons]
    split
    · exact (Memory.wf_cons a w _).mpr ⟨hw, fun p hp => ha p (List.mem_filter.mp hp).1, ih ht⟩
    · exact ih ht

theorem Memory.wf_erase (m : List Host.Cell) (sector : Nat) (h : Memory.wf m = true) : Memory.wf (Memory.erase m sector) = true :=
  Memory.wf_filter m _ h

theorem Memory.wf_program (m : List Host.Cell) (a : Nat) (bs : List Nat) (h : Memory.wf m = true) :
    Memory.wf (Memory.program m a bs) = true := by
  induction bs generalizing m a with
  | nil => exact h
  | cons b bs ih => exact ih _ _ (Memory.wf_write m a _ h)

/-- A byte at or below every address of the list reads as erased. -/
theorem Memory.read_above {m : List Host.Cell} {b k : Nat} (h : Memory.above b m) (hk : k ≤ b) : Memory.read m k = 0xFF := by
  induction m with
  | nil => rfl
  | cons x t ih =>
    obtain ⟨a, w⟩ := x
    have ha : b < a := h (a, w) List.mem_cons_self
    simp only [Memory.read]
    rw [if_neg (by omega)]
    exact ih (fun p hp => h p (List.mem_cons_of_mem _ hp))

/-- A byte written reads back, and every other byte stays. -/
theorem Memory.read_write (m : List Host.Cell) (k j : Nat) (v : BitVec 8) (h : Memory.wf m = true) :
    Memory.read (Memory.write m k v) j = if j = k then v else Memory.read m j := by
  induction m with
  | nil =>
    simp only [Memory.write]
    split
    · subst_vars; simp [Memory.read]
    · simp [Memory.read]
  | cons x t ih =>
    obtain ⟨a, w⟩ := x
    have ⟨hw, ha, ht⟩ := (Memory.wf_cons a w t).mp h
    simp only [Memory.write]
    split
    · split
      · subst_vars
        split
        · subst_vars; exact Memory.read_above (Memory.above_cons (by assumption) ha) le_rfl
        · rfl
      · simp [Memory.read]
    · split
      · subst_vars
        split
        · subst_vars
          split
          · subst_vars; exact Memory.read_above ha le_rfl
          · simp [Memory.read, *]
        · split <;> simp [Memory.read, *]
      · simp only [Memory.read, ih ht]
        split
        · rw [if_neg (by omega)]
        · rfl

end Machine
end Sys2Proof
end

