-- ==== Sys2Proof/Laws/State.lean ====
section
/-!
SUPPORT. What each update of the state leaves alone, one lemma per field and update, and what it writes: a register field,
a port, a Pier, a request and their like read back as written, and others read as before.
-/
namespace Sys2Proof.Machine

/-! ### put -/

@[simp] theorem State.put_pending (s : State) (pg : Nat) (f : Fld) (v : Nat) : (s.put pg f v).pending = s.pending := rfl
@[simp] theorem State.put_time (s : State) (pg : Nat) (f : Fld) (v : Nat) : (s.put pg f v).time = s.time := rfl
@[simp] theorem State.put_media (s : State) (pg : Nat) (f : Fld) (v : Nat) : (s.put pg f v).media = s.media := rfl
@[simp] theorem State.put_flash (s : State) (pg : Nat) (f : Fld) (v : Nat) : (s.put pg f v).flash = s.flash := rfl
@[simp] theorem State.put_owner (s : State) (pg : Nat) (f : Fld) (v : Nat) : (s.put pg f v).owner = s.owner := rfl
@[simp] theorem State.put_pairs (s : State) (pg : Nat) (f : Fld) (v : Nat) : (s.put pg f v).pairs = s.pairs := rfl
@[simp] theorem State.put_heat (s : State) (pg : Nat) (f : Fld) (v : Nat) : (s.put pg f v).heat = s.heat := rfl
@[simp] theorem State.put_heatAt (s : State) (pg : Nat) (f : Fld) (v : Nat) : (s.put pg f v).heatAt = s.heatAt := rfl
@[simp] theorem State.put_decayAt (s : State) (pg : Nat) (f : Fld) (v : Nat) : (s.put pg f v).decayAt = s.decayAt := rfl
@[simp] theorem State.put_coolAt (s : State) (pg : Nat) (f : Fld) (v : Nat) : (s.put pg f v).coolAt = s.coolAt := rfl
@[simp] theorem State.put_moveAt (s : State) (pg : Nat) (f : Fld) (v : Nat) : (s.put pg f v).moveAt = s.moveAt := rfl
@[simp] theorem State.put_vis (s : State) (pg : Nat) (f : Fld) (v : Nat) : (s.put pg f v).vis = s.vis := rfl
@[simp] theorem State.put_extents (s : State) (pg : Nat) (f : Fld) (v : Nat) : (s.put pg f v).extents = s.extents := rfl
@[simp] theorem State.put_running (s : State) (pg : Nat) (f : Fld) (v : Nat) : (s.put pg f v).running = s.running := rfl
@[simp] theorem State.put_dirty (s : State) (pg : Nat) (f : Fld) (v : Nat) : (s.put pg f v).dirty = s.dirty := rfl
@[simp] theorem State.put_ports (s : State) (pg : Nat) (f : Fld) (v : Nat) : (s.put pg f v).ports = s.ports := rfl
@[simp] theorem State.put_lds (s : State) (pg : Nat) (f : Fld) (v : Nat) : (s.put pg f v).lds = s.lds := rfl
@[simp] theorem State.put_reqs (s : State) (pg : Nat) (f : Fld) (v : Nat) : (s.put pg f v).reqs = s.reqs := rfl
@[simp] theorem State.put_nextReq (s : State) (pg : Nat) (f : Fld) (v : Nat) : (s.put pg f v).nextReq = s.nextReq := rfl
@[simp] theorem State.put_walks (s : State) (pg : Nat) (f : Fld) (v : Nat) : (s.put pg f v).walks = s.walks := rfl
@[simp] theorem State.put_snoops (s : State) (pg : Nat) (f : Fld) (v : Nat) : (s.put pg f v).snoops = s.snoops := rfl
@[simp] theorem State.put_dir (s : State) (pg : Nat) (f : Fld) (v : Nat) : (s.put pg f v).dir = s.dir := rfl
@[simp] theorem State.put_dirStamp (s : State) (pg : Nat) (f : Fld) (v : Nat) : (s.put pg f v).dirStamp = s.dirStamp := rfl
@[simp] theorem State.put_piers (s : State) (pg : Nat) (f : Fld) (v : Nat) : (s.put pg f v).piers = s.piers := rfl
@[simp] theorem State.put_stripes (s : State) (pg : Nat) (f : Fld) (v : Nat) : (s.put pg f v).stripes = s.stripes := rfl
@[simp] theorem State.put_relocs (s : State) (pg : Nat) (f : Fld) (v : Nat) : (s.put pg f v).relocs = s.relocs := rfl
@[simp] theorem State.put_gcAt (s : State) (pg : Nat) (f : Fld) (v : Nat) : (s.put pg f v).gcAt = s.gcAt := rfl
@[simp] theorem State.put_shadows (s : State) (pg : Nat) (f : Fld) (v : Nat) : (s.put pg f v).shadows = s.shadows := rfl
@[simp] theorem State.put_moves (s : State) (pg : Nat) (f : Fld) (v : Nat) : (s.put pg f v).moves = s.moves := rfl
@[simp] theorem State.put_slots (s : State) (pg : Nat) (f : Fld) (v : Nat) : (s.put pg f v).slots = s.slots := rfl
@[simp] theorem State.put_kmap (s : State) (pg : Nat) (f : Fld) (v : Nat) : (s.put pg f v).kmap = s.kmap := rfl
@[simp] theorem State.put_stage (s : State) (pg : Nat) (f : Fld) (v : Nat) : (s.put pg f v).stage = s.stage := rfl
@[simp] theorem State.put_cc (s : State) (pg : Nat) (f : Fld) (v : Nat) : (s.put pg f v).cc = s.cc := rfl
@[simp] theorem State.put_links (s : State) (pg : Nat) (f : Fld) (v : Nat) : (s.put pg f v).links = s.links := rfl
@[simp] theorem State.put_sqrs (s : State) (pg : Nat) (f : Fld) (v : Nat) : (s.put pg f v).sqrs = s.sqrs := rfl
@[simp] theorem State.put_engines (s : State) (pg : Nat) (f : Fld) (v : Nat) : (s.put pg f v).engines = s.engines := rfl
@[simp] theorem State.put_roles (s : State) (pg : Nat) (f : Fld) (v : Nat) : (s.put pg f v).roles = s.roles := rfl
@[simp] theorem State.put_key (s : State) (pg : Nat) (f : Fld) (v : Nat) : (s.put pg f v).key = s.key := rfl
@[simp] theorem State.put_mbx (s : State) (pg : Nat) (f : Fld) (v : Nat) : (s.put pg f v).mbx = s.mbx := rfl
@[simp] theorem State.put_policy (s : State) (pg : Nat) (f : Fld) (v : Nat) : (s.put pg f v).policy = s.policy := rfl
@[simp] theorem State.put_profile (s : State) (pg : Nat) (f : Fld) (v : Nat) : (s.put pg f v).profile = s.profile := rfl
@[simp] theorem State.put_custom (s : State) (pg : Nat) (f : Fld) (v : Nat) : (s.put pg f v).custom = s.custom := rfl
@[simp] theorem State.put_mq (s : State) (pg : Nat) (f : Fld) (v : Nat) : (s.put pg f v).mq = s.mq := rfl
@[simp] theorem State.put_missed (s : State) (pg : Nat) (f : Fld) (v : Nat) : (s.put pg f v).missed = s.missed := rfl
@[simp] theorem State.put_missedMax (s : State) (pg : Nat) (f : Fld) (v : Nat) : (s.put pg f v).missedMax = s.missedMax := rfl
@[simp] theorem State.put_errCap (s : State) (pg : Nat) (f : Fld) (v : Nat) : (s.put pg f v).errCap = s.errCap := rfl
@[simp] theorem State.put_alertAt (s : State) (pg : Nat) (f : Fld) (v : Nat) : (s.put pg f v).alertAt = s.alertAt := rfl
@[simp] theorem State.put_alerts (s : State) (pg : Nat) (f : Fld) (v : Nat) : (s.put pg f v).alerts = s.alerts := rfl
@[simp] theorem State.put_held (s : State) (pg : Nat) (f : Fld) (v : Nat) : (s.put pg f v).held = s.held := rfl
@[simp] theorem State.put_jnl (s : State) (pg : Nat) (f : Fld) (v : Nat) : (s.put pg f v).jnl = s.jnl := rfl
@[simp] theorem State.put_telSel (s : State) (pg : Nat) (f : Fld) (v : Nat) : (s.put pg f v).telSel = s.telSel := rfl
@[simp] theorem State.put_telCnt (s : State) (pg : Nat) (f : Fld) (v : Nat) : (s.put pg f v).telCnt = s.telCnt := rfl
@[simp] theorem State.put_lap (s : State) (pg : Nat) (f : Fld) (v : Nat) : (s.put pg f v).lap = s.lap := rfl
@[simp] theorem State.put_clk (s : State) (pg : Nat) (f : Fld) (v : Nat) : (s.put pg f v).clk = s.clk := rfl
@[simp] theorem State.put_pwr (s : State) (pg : Nat) (f : Fld) (v : Nat) : (s.put pg f v).pwr = s.pwr := rfl
@[simp] theorem State.put_aon (s : State) (pg : Nat) (f : Fld) (v : Nat) : (s.put pg f v).aon = s.aon := rfl
@[simp] theorem State.put_rails (s : State) (pg : Nat) (f : Fld) (v : Nat) : (s.put pg f v).rails = s.rails := rfl
@[simp] theorem State.put_img (s : State) (pg : Nat) (f : Fld) (v : Nat) : (s.put pg f v).img = s.img := rfl
@[simp] theorem State.put_locked (s : State) (pg : Nat) (f : Fld) (v : Nat) : (s.put pg f v).locked = s.locked := rfl
@[simp] theorem State.put_zeroFilled (s : State) (pg : Nat) (f : Fld) (v : Nat) : (s.put pg f v).zeroFilled = s.zeroFilled := rfl
@[simp] theorem State.put_metaSpan (s : State) (pg : Nat) (f : Fld) (v : Nat) : (s.put pg f v).metaSpan = s.metaSpan := rfl
@[simp] theorem State.put_metaNext (s : State) (pg : Nat) (f : Fld) (v : Nat) : (s.put pg f v).metaNext = s.metaNext := rfl
@[simp] theorem State.put_fenbo (s : State) (pg : Nat) (f : Fld) (v : Nat) : (s.put pg f v).fenbo = s.fenbo := rfl
@[simp] theorem State.put_snap (s : State) (pg : Nat) (f : Fld) (v : Nat) : (s.put pg f v).snap = s.snap := rfl
@[simp] theorem State.put_bucketVi (s : State) (pg : Nat) (f : Fld) (v : Nat) : (s.put pg f v).bucketVi = s.bucketVi := rfl
@[simp] theorem State.put_bucketPort (s : State) (pg : Nat) (f : Fld) (v : Nat) : (s.put pg f v).bucketPort = s.bucketPort := rfl
@[simp] theorem State.put_shortAt (s : State) (pg : Nat) (f : Fld) (v : Nat) : (s.put pg f v).shortAt = s.shortAt := rfl
@[simp] theorem State.put_ladder (s : State) (pg : Nat) (f : Fld) (v : Nat) : (s.put pg f v).ladder = s.ladder := rfl
@[simp] theorem State.put_therm (s : State) (pg : Nat) (f : Fld) (v : Nat) : (s.put pg f v).therm = s.therm := rfl
@[simp] theorem State.put_thermAt (s : State) (pg : Nat) (f : Fld) (v : Nat) : (s.put pg f v).thermAt = s.thermAt := rfl
@[simp] theorem State.put_keyHash (s : State) (pg : Nat) (f : Fld) (v : Nat) : (s.put pg f v).keyHash = s.keyHash := rfl
@[simp] theorem State.put_vdtThr (s : State) (pg : Nat) (f : Fld) (v : Nat) : (s.put pg f v).vdtThr = s.vdtThr := rfl
@[simp] theorem State.put_free (s : State) (pg : Nat) (f : Fld) (v : Nat) : (s.put pg f v).free = s.free := rfl
@[simp] theorem State.put_out (s : State) (pg : Nat) (f : Fld) (v : Nat) : (s.put pg f v).out = s.out := rfl

/-! ### emit -/

@[simp] theorem State.emit_pending (s : State) (o : Out) : (s.emit o).pending = s.pending := rfl
@[simp] theorem State.emit_time (s : State) (o : Out) : (s.emit o).time = s.time := rfl
@[simp] theorem State.emit_regs (s : State) (o : Out) : (s.emit o).regs = s.regs := rfl
@[simp] theorem State.emit_media (s : State) (o : Out) : (s.emit o).media = s.media := rfl
@[simp] theorem State.emit_flash (s : State) (o : Out) : (s.emit o).flash = s.flash := rfl
@[simp] theorem State.emit_owner (s : State) (o : Out) : (s.emit o).owner = s.owner := rfl
@[simp] theorem State.emit_pairs (s : State) (o : Out) : (s.emit o).pairs = s.pairs := rfl
@[simp] theorem State.emit_heat (s : State) (o : Out) : (s.emit o).heat = s.heat := rfl
@[simp] theorem State.emit_heatAt (s : State) (o : Out) : (s.emit o).heatAt = s.heatAt := rfl
@[simp] theorem State.emit_decayAt (s : State) (o : Out) : (s.emit o).decayAt = s.decayAt := rfl
@[simp] theorem State.emit_coolAt (s : State) (o : Out) : (s.emit o).coolAt = s.coolAt := rfl
@[simp] theorem State.emit_moveAt (s : State) (o : Out) : (s.emit o).moveAt = s.moveAt := rfl
@[simp] theorem State.emit_vis (s : State) (o : Out) : (s.emit o).vis = s.vis := rfl
@[simp] theorem State.emit_extents (s : State) (o : Out) : (s.emit o).extents = s.extents := rfl
@[simp] theorem State.emit_running (s : State) (o : Out) : (s.emit o).running = s.running := rfl
@[simp] theorem State.emit_dirty (s : State) (o : Out) : (s.emit o).dirty = s.dirty := rfl
@[simp] theorem State.emit_ports (s : State) (o : Out) : (s.emit o).ports = s.ports := rfl
@[simp] theorem State.emit_lds (s : State) (o : Out) : (s.emit o).lds = s.lds := rfl
@[simp] theorem State.emit_reqs (s : State) (o : Out) : (s.emit o).reqs = s.reqs := rfl
@[simp] theorem State.emit_nextReq (s : State) (o : Out) : (s.emit o).nextReq = s.nextReq := rfl
@[simp] theorem State.emit_walks (s : State) (o : Out) : (s.emit o).walks = s.walks := rfl
@[simp] theorem State.emit_snoops (s : State) (o : Out) : (s.emit o).snoops = s.snoops := rfl
@[simp] theorem State.emit_dir (s : State) (o : Out) : (s.emit o).dir = s.dir := rfl
@[simp] theorem State.emit_dirStamp (s : State) (o : Out) : (s.emit o).dirStamp = s.dirStamp := rfl
@[simp] theorem State.emit_piers (s : State) (o : Out) : (s.emit o).piers = s.piers := rfl
@[simp] theorem State.emit_stripes (s : State) (o : Out) : (s.emit o).stripes = s.stripes := rfl
@[simp] theorem State.emit_relocs (s : State) (o : Out) : (s.emit o).relocs = s.relocs := rfl
@[simp] theorem State.emit_gcAt (s : State) (o : Out) : (s.emit o).gcAt = s.gcAt := rfl
@[simp] theorem State.emit_shadows (s : State) (o : Out) : (s.emit o).shadows = s.shadows := rfl
@[simp] theorem State.emit_moves (s : State) (o : Out) : (s.emit o).moves = s.moves := rfl
@[simp] theorem State.emit_slots (s : State) (o : Out) : (s.emit o).slots = s.slots := rfl
@[simp] theorem State.emit_kmap (s : State) (o : Out) : (s.emit o).kmap = s.kmap := rfl
@[simp] theorem State.emit_stage (s : State) (o : Out) : (s.emit o).stage = s.stage := rfl
@[simp] theorem State.emit_cc (s : State) (o : Out) : (s.emit o).cc = s.cc := rfl
@[simp] theorem State.emit_links (s : State) (o : Out) : (s.emit o).links = s.links := rfl
@[simp] theorem State.emit_sqrs (s : State) (o : Out) : (s.emit o).sqrs = s.sqrs := rfl
@[simp] theorem State.emit_engines (s : State) (o : Out) : (s.emit o).engines = s.engines := rfl
@[simp] theorem State.emit_roles (s : State) (o : Out) : (s.emit o).roles = s.roles := rfl
@[simp] theorem State.emit_key (s : State) (o : Out) : (s.emit o).key = s.key := rfl
@[simp] theorem State.emit_mbx (s : State) (o : Out) : (s.emit o).mbx = s.mbx := rfl
@[simp] theorem State.emit_policy (s : State) (o : Out) : (s.emit o).policy = s.policy := rfl
@[simp] theorem State.emit_profile (s : State) (o : Out) : (s.emit o).profile = s.profile := rfl
@[simp] theorem State.emit_custom (s : State) (o : Out) : (s.emit o).custom = s.custom := rfl
@[simp] theorem State.emit_mq (s : State) (o : Out) : (s.emit o).mq = s.mq := rfl
@[simp] theorem State.emit_missed (s : State) (o : Out) : (s.emit o).missed = s.missed := rfl
@[simp] theorem State.emit_missedMax (s : State) (o : Out) : (s.emit o).missedMax = s.missedMax := rfl
@[simp] theorem State.emit_errCap (s : State) (o : Out) : (s.emit o).errCap = s.errCap := rfl
@[simp] theorem State.emit_alertAt (s : State) (o : Out) : (s.emit o).alertAt = s.alertAt := rfl
@[simp] theorem State.emit_alerts (s : State) (o : Out) : (s.emit o).alerts = s.alerts := rfl
@[simp] theorem State.emit_held (s : State) (o : Out) : (s.emit o).held = s.held := rfl
@[simp] theorem State.emit_jnl (s : State) (o : Out) : (s.emit o).jnl = s.jnl := rfl
@[simp] theorem State.emit_telSel (s : State) (o : Out) : (s.emit o).telSel = s.telSel := rfl
@[simp] theorem State.emit_telCnt (s : State) (o : Out) : (s.emit o).telCnt = s.telCnt := rfl
@[simp] theorem State.emit_lap (s : State) (o : Out) : (s.emit o).lap = s.lap := rfl
@[simp] theorem State.emit_clk (s : State) (o : Out) : (s.emit o).clk = s.clk := rfl
@[simp] theorem State.emit_pwr (s : State) (o : Out) : (s.emit o).pwr = s.pwr := rfl
@[simp] theorem State.emit_aon (s : State) (o : Out) : (s.emit o).aon = s.aon := rfl
@[simp] theorem State.emit_rails (s : State) (o : Out) : (s.emit o).rails = s.rails := rfl
@[simp] theorem State.emit_img (s : State) (o : Out) : (s.emit o).img = s.img := rfl
@[simp] theorem State.emit_locked (s : State) (o : Out) : (s.emit o).locked = s.locked := rfl
@[simp] theorem State.emit_zeroFilled (s : State) (o : Out) : (s.emit o).zeroFilled = s.zeroFilled := rfl
@[simp] theorem State.emit_metaSpan (s : State) (o : Out) : (s.emit o).metaSpan = s.metaSpan := rfl
@[simp] theorem State.emit_metaNext (s : State) (o : Out) : (s.emit o).metaNext = s.metaNext := rfl
@[simp] theorem State.emit_fenbo (s : State) (o : Out) : (s.emit o).fenbo = s.fenbo := rfl
@[simp] theorem State.emit_snap (s : State) (o : Out) : (s.emit o).snap = s.snap := rfl
@[simp] theorem State.emit_bucketVi (s : State) (o : Out) : (s.emit o).bucketVi = s.bucketVi := rfl
@[simp] theorem State.emit_bucketPort (s : State) (o : Out) : (s.emit o).bucketPort = s.bucketPort := rfl
@[simp] theorem State.emit_shortAt (s : State) (o : Out) : (s.emit o).shortAt = s.shortAt := rfl
@[simp] theorem State.emit_ladder (s : State) (o : Out) : (s.emit o).ladder = s.ladder := rfl
@[simp] theorem State.emit_therm (s : State) (o : Out) : (s.emit o).therm = s.therm := rfl
@[simp] theorem State.emit_thermAt (s : State) (o : Out) : (s.emit o).thermAt = s.thermAt := rfl
@[simp] theorem State.emit_keyHash (s : State) (o : Out) : (s.emit o).keyHash = s.keyHash := rfl
@[simp] theorem State.emit_vdtThr (s : State) (o : Out) : (s.emit o).vdtThr = s.vdtThr := rfl
@[simp] theorem State.emit_free (s : State) (o : Out) : (s.emit o).free = s.free := rfl

/-! ### tick -/

@[simp] theorem State.tick_pending (s : State) : (s.tick).pending = s.pending := rfl
@[simp] theorem State.tick_time (s : State) : (s.tick).time = s.time := rfl
@[simp] theorem State.tick_regs (s : State) : (s.tick).regs = s.regs := rfl
@[simp] theorem State.tick_media (s : State) : (s.tick).media = s.media := rfl
@[simp] theorem State.tick_flash (s : State) : (s.tick).flash = s.flash := rfl
@[simp] theorem State.tick_owner (s : State) : (s.tick).owner = s.owner := rfl
@[simp] theorem State.tick_pairs (s : State) : (s.tick).pairs = s.pairs := rfl
@[simp] theorem State.tick_heat (s : State) : (s.tick).heat = s.heat := rfl
@[simp] theorem State.tick_heatAt (s : State) : (s.tick).heatAt = s.heatAt := rfl
@[simp] theorem State.tick_decayAt (s : State) : (s.tick).decayAt = s.decayAt := rfl
@[simp] theorem State.tick_coolAt (s : State) : (s.tick).coolAt = s.coolAt := rfl
@[simp] theorem State.tick_moveAt (s : State) : (s.tick).moveAt = s.moveAt := rfl
@[simp] theorem State.tick_vis (s : State) : (s.tick).vis = s.vis := rfl
@[simp] theorem State.tick_extents (s : State) : (s.tick).extents = s.extents := rfl
@[simp] theorem State.tick_running (s : State) : (s.tick).running = s.running := rfl
@[simp] theorem State.tick_dirty (s : State) : (s.tick).dirty = s.dirty := rfl
@[simp] theorem State.tick_ports (s : State) : (s.tick).ports = s.ports := rfl
@[simp] theorem State.tick_lds (s : State) : (s.tick).lds = s.lds := rfl
@[simp] theorem State.tick_reqs (s : State) : (s.tick).reqs = s.reqs := rfl
@[simp] theorem State.tick_nextReq (s : State) : (s.tick).nextReq = s.nextReq := rfl
@[simp] theorem State.tick_walks (s : State) : (s.tick).walks = s.walks := rfl
@[simp] theorem State.tick_snoops (s : State) : (s.tick).snoops = s.snoops := rfl
@[simp] theorem State.tick_dir (s : State) : (s.tick).dir = s.dir := rfl
@[simp] theorem State.tick_dirStamp (s : State) : (s.tick).dirStamp = s.dirStamp := rfl
@[simp] theorem State.tick_piers (s : State) : (s.tick).piers = s.piers := rfl
@[simp] theorem State.tick_stripes (s : State) : (s.tick).stripes = s.stripes := rfl
@[simp] theorem State.tick_relocs (s : State) : (s.tick).relocs = s.relocs := rfl
@[simp] theorem State.tick_gcAt (s : State) : (s.tick).gcAt = s.gcAt := rfl
@[simp] theorem State.tick_shadows (s : State) : (s.tick).shadows = s.shadows := rfl
@[simp] theorem State.tick_moves (s : State) : (s.tick).moves = s.moves := rfl
@[simp] theorem State.tick_slots (s : State) : (s.tick).slots = s.slots := rfl
@[simp] theorem State.tick_kmap (s : State) : (s.tick).kmap = s.kmap := rfl
@[simp] theorem State.tick_stage (s : State) : (s.tick).stage = s.stage := rfl
@[simp] theorem State.tick_cc (s : State) : (s.tick).cc = s.cc := rfl
@[simp] theorem State.tick_links (s : State) : (s.tick).links = s.links := rfl
@[simp] theorem State.tick_sqrs (s : State) : (s.tick).sqrs = s.sqrs := rfl
@[simp] theorem State.tick_engines (s : State) : (s.tick).engines = s.engines := rfl
@[simp] theorem State.tick_roles (s : State) : (s.tick).roles = s.roles := rfl
@[simp] theorem State.tick_key (s : State) : (s.tick).key = s.key := rfl
@[simp] theorem State.tick_mbx (s : State) : (s.tick).mbx = s.mbx := rfl
@[simp] theorem State.tick_policy (s : State) : (s.tick).policy = s.policy := rfl
@[simp] theorem State.tick_profile (s : State) : (s.tick).profile = s.profile := rfl
@[simp] theorem State.tick_custom (s : State) : (s.tick).custom = s.custom := rfl
@[simp] theorem State.tick_mq (s : State) : (s.tick).mq = s.mq := rfl
@[simp] theorem State.tick_missed (s : State) : (s.tick).missed = s.missed := rfl
@[simp] theorem State.tick_missedMax (s : State) : (s.tick).missedMax = s.missedMax := rfl
@[simp] theorem State.tick_errCap (s : State) : (s.tick).errCap = s.errCap := rfl
@[simp] theorem State.tick_alertAt (s : State) : (s.tick).alertAt = s.alertAt := rfl
@[simp] theorem State.tick_alerts (s : State) : (s.tick).alerts = s.alerts := rfl
@[simp] theorem State.tick_held (s : State) : (s.tick).held = s.held := rfl
@[simp] theorem State.tick_jnl (s : State) : (s.tick).jnl = s.jnl := rfl
@[simp] theorem State.tick_telSel (s : State) : (s.tick).telSel = s.telSel := rfl
@[simp] theorem State.tick_telCnt (s : State) : (s.tick).telCnt = s.telCnt := rfl
@[simp] theorem State.tick_lap (s : State) : (s.tick).lap = s.lap := rfl
@[simp] theorem State.tick_clk (s : State) : (s.tick).clk = s.clk := rfl
@[simp] theorem State.tick_pwr (s : State) : (s.tick).pwr = s.pwr := rfl
@[simp] theorem State.tick_aon (s : State) : (s.tick).aon = s.aon := rfl
@[simp] theorem State.tick_rails (s : State) : (s.tick).rails = s.rails := rfl
@[simp] theorem State.tick_img (s : State) : (s.tick).img = s.img := rfl
@[simp] theorem State.tick_locked (s : State) : (s.tick).locked = s.locked := rfl
@[simp] theorem State.tick_zeroFilled (s : State) : (s.tick).zeroFilled = s.zeroFilled := rfl
@[simp] theorem State.tick_metaSpan (s : State) : (s.tick).metaSpan = s.metaSpan := rfl
@[simp] theorem State.tick_metaNext (s : State) : (s.tick).metaNext = s.metaNext := rfl
@[simp] theorem State.tick_fenbo (s : State) : (s.tick).fenbo = s.fenbo := rfl
@[simp] theorem State.tick_snap (s : State) : (s.tick).snap = s.snap := rfl
@[simp] theorem State.tick_bucketVi (s : State) : (s.tick).bucketVi = s.bucketVi := rfl
@[simp] theorem State.tick_bucketPort (s : State) : (s.tick).bucketPort = s.bucketPort := rfl
@[simp] theorem State.tick_shortAt (s : State) : (s.tick).shortAt = s.shortAt := rfl
@[simp] theorem State.tick_ladder (s : State) : (s.tick).ladder = s.ladder := rfl
@[simp] theorem State.tick_therm (s : State) : (s.tick).therm = s.therm := rfl
@[simp] theorem State.tick_thermAt (s : State) : (s.tick).thermAt = s.thermAt := rfl
@[simp] theorem State.tick_keyHash (s : State) : (s.tick).keyHash = s.keyHash := rfl
@[simp] theorem State.tick_vdtThr (s : State) : (s.tick).vdtThr = s.vdtThr := rfl
@[simp] theorem State.tick_out (s : State) : (s.tick).out = s.out := rfl

/-! ### setVi -/

@[simp] theorem State.setVi_pending (s : State) (t : Nat) (v : Vi) : (s.setVi t v).pending = s.pending := rfl
@[simp] theorem State.setVi_time (s : State) (t : Nat) (v : Vi) : (s.setVi t v).time = s.time := rfl
@[simp] theorem State.setVi_regs (s : State) (t : Nat) (v : Vi) : (s.setVi t v).regs = s.regs := rfl
@[simp] theorem State.setVi_media (s : State) (t : Nat) (v : Vi) : (s.setVi t v).media = s.media := rfl
@[simp] theorem State.setVi_flash (s : State) (t : Nat) (v : Vi) : (s.setVi t v).flash = s.flash := rfl
@[simp] theorem State.setVi_owner (s : State) (t : Nat) (v : Vi) : (s.setVi t v).owner = s.owner := rfl
@[simp] theorem State.setVi_pairs (s : State) (t : Nat) (v : Vi) : (s.setVi t v).pairs = s.pairs := rfl
@[simp] theorem State.setVi_heat (s : State) (t : Nat) (v : Vi) : (s.setVi t v).heat = s.heat := rfl
@[simp] theorem State.setVi_heatAt (s : State) (t : Nat) (v : Vi) : (s.setVi t v).heatAt = s.heatAt := rfl
@[simp] theorem State.setVi_decayAt (s : State) (t : Nat) (v : Vi) : (s.setVi t v).decayAt = s.decayAt := rfl
@[simp] theorem State.setVi_coolAt (s : State) (t : Nat) (v : Vi) : (s.setVi t v).coolAt = s.coolAt := rfl
@[simp] theorem State.setVi_moveAt (s : State) (t : Nat) (v : Vi) : (s.setVi t v).moveAt = s.moveAt := rfl
@[simp] theorem State.setVi_extents (s : State) (t : Nat) (v : Vi) : (s.setVi t v).extents = s.extents := rfl
@[simp] theorem State.setVi_running (s : State) (t : Nat) (v : Vi) : (s.setVi t v).running = s.running := rfl
@[simp] theorem State.setVi_dirty (s : State) (t : Nat) (v : Vi) : (s.setVi t v).dirty = s.dirty := rfl
@[simp] theorem State.setVi_ports (s : State) (t : Nat) (v : Vi) : (s.setVi t v).ports = s.ports := rfl
@[simp] theorem State.setVi_lds (s : State) (t : Nat) (v : Vi) : (s.setVi t v).lds = s.lds := rfl
@[simp] theorem State.setVi_reqs (s : State) (t : Nat) (v : Vi) : (s.setVi t v).reqs = s.reqs := rfl
@[simp] theorem State.setVi_nextReq (s : State) (t : Nat) (v : Vi) : (s.setVi t v).nextReq = s.nextReq := rfl
@[simp] theorem State.setVi_walks (s : State) (t : Nat) (v : Vi) : (s.setVi t v).walks = s.walks := rfl
@[simp] theorem State.setVi_snoops (s : State) (t : Nat) (v : Vi) : (s.setVi t v).snoops = s.snoops := rfl
@[simp] theorem State.setVi_dir (s : State) (t : Nat) (v : Vi) : (s.setVi t v).dir = s.dir := rfl
@[simp] theorem State.setVi_dirStamp (s : State) (t : Nat) (v : Vi) : (s.setVi t v).dirStamp = s.dirStamp := rfl
@[simp] theorem State.setVi_piers (s : State) (t : Nat) (v : Vi) : (s.setVi t v).piers = s.piers := rfl
@[simp] theorem State.setVi_stripes (s : State) (t : Nat) (v : Vi) : (s.setVi t v).stripes = s.stripes := rfl
@[simp] theorem State.setVi_relocs (s : State) (t : Nat) (v : Vi) : (s.setVi t v).relocs = s.relocs := rfl
@[simp] theorem State.setVi_gcAt (s : State) (t : Nat) (v : Vi) : (s.setVi t v).gcAt = s.gcAt := rfl
@[simp] theorem State.setVi_shadows (s : State) (t : Nat) (v : Vi) : (s.setVi t v).shadows = s.shadows := rfl
@[simp] theorem State.setVi_moves (s : State) (t : Nat) (v : Vi) : (s.setVi t v).moves = s.moves := rfl
@[simp] theorem State.setVi_slots (s : State) (t : Nat) (v : Vi) : (s.setVi t v).slots = s.slots := rfl
@[simp] theorem State.setVi_kmap (s : State) (t : Nat) (v : Vi) : (s.setVi t v).kmap = s.kmap := rfl
@[simp] theorem State.setVi_stage (s : State) (t : Nat) (v : Vi) : (s.setVi t v).stage = s.stage := rfl
@[simp] theorem State.setVi_cc (s : State) (t : Nat) (v : Vi) : (s.setVi t v).cc = s.cc := rfl
@[simp] theorem State.setVi_links (s : State) (t : Nat) (v : Vi) : (s.setVi t v).links = s.links := rfl
@[simp] theorem State.setVi_sqrs (s : State) (t : Nat) (v : Vi) : (s.setVi t v).sqrs = s.sqrs := rfl
@[simp] theorem State.setVi_engines (s : State) (t : Nat) (v : Vi) : (s.setVi t v).engines = s.engines := rfl
@[simp] theorem State.setVi_roles (s : State) (t : Nat) (v : Vi) : (s.setVi t v).roles = s.roles := rfl
@[simp] theorem State.setVi_key (s : State) (t : Nat) (v : Vi) : (s.setVi t v).key = s.key := rfl
@[simp] theorem State.setVi_mbx (s : State) (t : Nat) (v : Vi) : (s.setVi t v).mbx = s.mbx := rfl
@[simp] theorem State.setVi_policy (s : State) (t : Nat) (v : Vi) : (s.setVi t v).policy = s.policy := rfl
@[simp] theorem State.setVi_profile (s : State) (t : Nat) (v : Vi) : (s.setVi t v).profile = s.profile := rfl
@[simp] theorem State.setVi_custom (s : State) (t : Nat) (v : Vi) : (s.setVi t v).custom = s.custom := rfl
@[simp] theorem State.setVi_mq (s : State) (t : Nat) (v : Vi) : (s.setVi t v).mq = s.mq := rfl
@[simp] theorem State.setVi_missed (s : State) (t : Nat) (v : Vi) : (s.setVi t v).missed = s.missed := rfl
@[simp] theorem State.setVi_missedMax (s : State) (t : Nat) (v : Vi) : (s.setVi t v).missedMax = s.missedMax := rfl
@[simp] theorem State.setVi_errCap (s : State) (t : Nat) (v : Vi) : (s.setVi t v).errCap = s.errCap := rfl
@[simp] theorem State.setVi_alertAt (s : State) (t : Nat) (v : Vi) : (s.setVi t v).alertAt = s.alertAt := rfl
@[simp] theorem State.setVi_alerts (s : State) (t : Nat) (v : Vi) : (s.setVi t v).alerts = s.alerts := rfl
@[simp] theorem State.setVi_held (s : State) (t : Nat) (v : Vi) : (s.setVi t v).held = s.held := rfl
@[simp] theorem State.setVi_jnl (s : State) (t : Nat) (v : Vi) : (s.setVi t v).jnl = s.jnl := rfl
@[simp] theorem State.setVi_telSel (s : State) (t : Nat) (v : Vi) : (s.setVi t v).telSel = s.telSel := rfl
@[simp] theorem State.setVi_telCnt (s : State) (t : Nat) (v : Vi) : (s.setVi t v).telCnt = s.telCnt := rfl
@[simp] theorem State.setVi_lap (s : State) (t : Nat) (v : Vi) : (s.setVi t v).lap = s.lap := rfl
@[simp] theorem State.setVi_clk (s : State) (t : Nat) (v : Vi) : (s.setVi t v).clk = s.clk := rfl
@[simp] theorem State.setVi_pwr (s : State) (t : Nat) (v : Vi) : (s.setVi t v).pwr = s.pwr := rfl
@[simp] theorem State.setVi_aon (s : State) (t : Nat) (v : Vi) : (s.setVi t v).aon = s.aon := rfl
@[simp] theorem State.setVi_rails (s : State) (t : Nat) (v : Vi) : (s.setVi t v).rails = s.rails := rfl
@[simp] theorem State.setVi_img (s : State) (t : Nat) (v : Vi) : (s.setVi t v).img = s.img := rfl
@[simp] theorem State.setVi_locked (s : State) (t : Nat) (v : Vi) : (s.setVi t v).locked = s.locked := rfl
@[simp] theorem State.setVi_zeroFilled (s : State) (t : Nat) (v : Vi) : (s.setVi t v).zeroFilled = s.zeroFilled := rfl
@[simp] theorem State.setVi_metaSpan (s : State) (t : Nat) (v : Vi) : (s.setVi t v).metaSpan = s.metaSpan := rfl
@[simp] theorem State.setVi_metaNext (s : State) (t : Nat) (v : Vi) : (s.setVi t v).metaNext = s.metaNext := rfl
@[simp] theorem State.setVi_fenbo (s : State) (t : Nat) (v : Vi) : (s.setVi t v).fenbo = s.fenbo := rfl
@[simp] theorem State.setVi_snap (s : State) (t : Nat) (v : Vi) : (s.setVi t v).snap = s.snap := rfl
@[simp] theorem State.setVi_bucketVi (s : State) (t : Nat) (v : Vi) : (s.setVi t v).bucketVi = s.bucketVi := rfl
@[simp] theorem State.setVi_bucketPort (s : State) (t : Nat) (v : Vi) : (s.setVi t v).bucketPort = s.bucketPort := rfl
@[simp] theorem State.setVi_shortAt (s : State) (t : Nat) (v : Vi) : (s.setVi t v).shortAt = s.shortAt := rfl
@[simp] theorem State.setVi_ladder (s : State) (t : Nat) (v : Vi) : (s.setVi t v).ladder = s.ladder := rfl
@[simp] theorem State.setVi_therm (s : State) (t : Nat) (v : Vi) : (s.setVi t v).therm = s.therm := rfl
@[simp] theorem State.setVi_thermAt (s : State) (t : Nat) (v : Vi) : (s.setVi t v).thermAt = s.thermAt := rfl
@[simp] theorem State.setVi_keyHash (s : State) (t : Nat) (v : Vi) : (s.setVi t v).keyHash = s.keyHash := rfl
@[simp] theorem State.setVi_vdtThr (s : State) (t : Nat) (v : Vi) : (s.setVi t v).vdtThr = s.vdtThr := rfl
@[simp] theorem State.setVi_free (s : State) (t : Nat) (v : Vi) : (s.setVi t v).free = s.free := rfl
@[simp] theorem State.setVi_out (s : State) (t : Nat) (v : Vi) : (s.setVi t v).out = s.out := rfl

/-! ### setPrt -/

@[simp] theorem State.setPrt_pending (s : State) (p : Nat) (v : Prt) : (s.setPrt p v).pending = s.pending := rfl
@[simp] theorem State.setPrt_time (s : State) (p : Nat) (v : Prt) : (s.setPrt p v).time = s.time := rfl
@[simp] theorem State.setPrt_regs (s : State) (p : Nat) (v : Prt) : (s.setPrt p v).regs = s.regs := rfl
@[simp] theorem State.setPrt_media (s : State) (p : Nat) (v : Prt) : (s.setPrt p v).media = s.media := rfl
@[simp] theorem State.setPrt_flash (s : State) (p : Nat) (v : Prt) : (s.setPrt p v).flash = s.flash := rfl
@[simp] theorem State.setPrt_owner (s : State) (p : Nat) (v : Prt) : (s.setPrt p v).owner = s.owner := rfl
@[simp] theorem State.setPrt_pairs (s : State) (p : Nat) (v : Prt) : (s.setPrt p v).pairs = s.pairs := rfl
@[simp] theorem State.setPrt_heat (s : State) (p : Nat) (v : Prt) : (s.setPrt p v).heat = s.heat := rfl
@[simp] theorem State.setPrt_heatAt (s : State) (p : Nat) (v : Prt) : (s.setPrt p v).heatAt = s.heatAt := rfl
@[simp] theorem State.setPrt_decayAt (s : State) (p : Nat) (v : Prt) : (s.setPrt p v).decayAt = s.decayAt := rfl
@[simp] theorem State.setPrt_coolAt (s : State) (p : Nat) (v : Prt) : (s.setPrt p v).coolAt = s.coolAt := rfl
@[simp] theorem State.setPrt_moveAt (s : State) (p : Nat) (v : Prt) : (s.setPrt p v).moveAt = s.moveAt := rfl
@[simp] theorem State.setPrt_vis (s : State) (p : Nat) (v : Prt) : (s.setPrt p v).vis = s.vis := rfl
@[simp] theorem State.setPrt_extents (s : State) (p : Nat) (v : Prt) : (s.setPrt p v).extents = s.extents := rfl
@[simp] theorem State.setPrt_running (s : State) (p : Nat) (v : Prt) : (s.setPrt p v).running = s.running := rfl
@[simp] theorem State.setPrt_dirty (s : State) (p : Nat) (v : Prt) : (s.setPrt p v).dirty = s.dirty := rfl
@[simp] theorem State.setPrt_lds (s : State) (p : Nat) (v : Prt) : (s.setPrt p v).lds = s.lds := rfl
@[simp] theorem State.setPrt_reqs (s : State) (p : Nat) (v : Prt) : (s.setPrt p v).reqs = s.reqs := rfl
@[simp] theorem State.setPrt_nextReq (s : State) (p : Nat) (v : Prt) : (s.setPrt p v).nextReq = s.nextReq := rfl
@[simp] theorem State.setPrt_walks (s : State) (p : Nat) (v : Prt) : (s.setPrt p v).walks = s.walks := rfl
@[simp] theorem State.setPrt_snoops (s : State) (p : Nat) (v : Prt) : (s.setPrt p v).snoops = s.snoops := rfl
@[simp] theorem State.setPrt_dir (s : State) (p : Nat) (v : Prt) : (s.setPrt p v).dir = s.dir := rfl
@[simp] theorem State.setPrt_dirStamp (s : State) (p : Nat) (v : Prt) : (s.setPrt p v).dirStamp = s.dirStamp := rfl
@[simp] theorem State.setPrt_piers (s : State) (p : Nat) (v : Prt) : (s.setPrt p v).piers = s.piers := rfl
@[simp] theorem State.setPrt_stripes (s : State) (p : Nat) (v : Prt) : (s.setPrt p v).stripes = s.stripes := rfl
@[simp] theorem State.setPrt_relocs (s : State) (p : Nat) (v : Prt) : (s.setPrt p v).relocs = s.relocs := rfl
@[simp] theorem State.setPrt_gcAt (s : State) (p : Nat) (v : Prt) : (s.setPrt p v).gcAt = s.gcAt := rfl
@[simp] theorem State.setPrt_shadows (s : State) (p : Nat) (v : Prt) : (s.setPrt p v).shadows = s.shadows := rfl
@[simp] theorem State.setPrt_moves (s : State) (p : Nat) (v : Prt) : (s.setPrt p v).moves = s.moves := rfl
@[simp] theorem State.setPrt_slots (s : State) (p : Nat) (v : Prt) : (s.setPrt p v).slots = s.slots := rfl
@[simp] theorem State.setPrt_kmap (s : State) (p : Nat) (v : Prt) : (s.setPrt p v).kmap = s.kmap := rfl
@[simp] theorem State.setPrt_stage (s : State) (p : Nat) (v : Prt) : (s.setPrt p v).stage = s.stage := rfl
@[simp] theorem State.setPrt_cc (s : State) (p : Nat) (v : Prt) : (s.setPrt p v).cc = s.cc := rfl
@[simp] theorem State.setPrt_links (s : State) (p : Nat) (v : Prt) : (s.setPrt p v).links = s.links := rfl
@[simp] theorem State.setPrt_sqrs (s : State) (p : Nat) (v : Prt) : (s.setPrt p v).sqrs = s.sqrs := rfl
@[simp] theorem State.setPrt_engines (s : State) (p : Nat) (v : Prt) : (s.setPrt p v).engines = s.engines := rfl
@[simp] theorem State.setPrt_roles (s : State) (p : Nat) (v : Prt) : (s.setPrt p v).roles = s.roles := rfl
@[simp] theorem State.setPrt_key (s : State) (p : Nat) (v : Prt) : (s.setPrt p v).key = s.key := rfl
@[simp] theorem State.setPrt_mbx (s : State) (p : Nat) (v : Prt) : (s.setPrt p v).mbx = s.mbx := rfl
@[simp] theorem State.setPrt_policy (s : State) (p : Nat) (v : Prt) : (s.setPrt p v).policy = s.policy := rfl
@[simp] theorem State.setPrt_profile (s : State) (p : Nat) (v : Prt) : (s.setPrt p v).profile = s.profile := rfl
@[simp] theorem State.setPrt_custom (s : State) (p : Nat) (v : Prt) : (s.setPrt p v).custom = s.custom := rfl
@[simp] theorem State.setPrt_mq (s : State) (p : Nat) (v : Prt) : (s.setPrt p v).mq = s.mq := rfl
@[simp] theorem State.setPrt_missed (s : State) (p : Nat) (v : Prt) : (s.setPrt p v).missed = s.missed := rfl
@[simp] theorem State.setPrt_missedMax (s : State) (p : Nat) (v : Prt) : (s.setPrt p v).missedMax = s.missedMax := rfl
@[simp] theorem State.setPrt_errCap (s : State) (p : Nat) (v : Prt) : (s.setPrt p v).errCap = s.errCap := rfl
@[simp] theorem State.setPrt_alertAt (s : State) (p : Nat) (v : Prt) : (s.setPrt p v).alertAt = s.alertAt := rfl
@[simp] theorem State.setPrt_alerts (s : State) (p : Nat) (v : Prt) : (s.setPrt p v).alerts = s.alerts := rfl
@[simp] theorem State.setPrt_held (s : State) (p : Nat) (v : Prt) : (s.setPrt p v).held = s.held := rfl
@[simp] theorem State.setPrt_jnl (s : State) (p : Nat) (v : Prt) : (s.setPrt p v).jnl = s.jnl := rfl
@[simp] theorem State.setPrt_telSel (s : State) (p : Nat) (v : Prt) : (s.setPrt p v).telSel = s.telSel := rfl
@[simp] theorem State.setPrt_telCnt (s : State) (p : Nat) (v : Prt) : (s.setPrt p v).telCnt = s.telCnt := rfl
@[simp] theorem State.setPrt_lap (s : State) (p : Nat) (v : Prt) : (s.setPrt p v).lap = s.lap := rfl
@[simp] theorem State.setPrt_clk (s : State) (p : Nat) (v : Prt) : (s.setPrt p v).clk = s.clk := rfl
@[simp] theorem State.setPrt_pwr (s : State) (p : Nat) (v : Prt) : (s.setPrt p v).pwr = s.pwr := rfl
@[simp] theorem State.setPrt_aon (s : State) (p : Nat) (v : Prt) : (s.setPrt p v).aon = s.aon := rfl
@[simp] theorem State.setPrt_rails (s : State) (p : Nat) (v : Prt) : (s.setPrt p v).rails = s.rails := rfl
@[simp] theorem State.setPrt_img (s : State) (p : Nat) (v : Prt) : (s.setPrt p v).img = s.img := rfl
@[simp] theorem State.setPrt_locked (s : State) (p : Nat) (v : Prt) : (s.setPrt p v).locked = s.locked := rfl
@[simp] theorem State.setPrt_zeroFilled (s : State) (p : Nat) (v : Prt) : (s.setPrt p v).zeroFilled = s.zeroFilled := rfl
@[simp] theorem State.setPrt_metaSpan (s : State) (p : Nat) (v : Prt) : (s.setPrt p v).metaSpan = s.metaSpan := rfl
@[simp] theorem State.setPrt_metaNext (s : State) (p : Nat) (v : Prt) : (s.setPrt p v).metaNext = s.metaNext := rfl
@[simp] theorem State.setPrt_fenbo (s : State) (p : Nat) (v : Prt) : (s.setPrt p v).fenbo = s.fenbo := rfl
@[simp] theorem State.setPrt_snap (s : State) (p : Nat) (v : Prt) : (s.setPrt p v).snap = s.snap := rfl
@[simp] theorem State.setPrt_bucketVi (s : State) (p : Nat) (v : Prt) : (s.setPrt p v).bucketVi = s.bucketVi := rfl
@[simp] theorem State.setPrt_bucketPort (s : State) (p : Nat) (v : Prt) : (s.setPrt p v).bucketPort = s.bucketPort := rfl
@[simp] theorem State.setPrt_shortAt (s : State) (p : Nat) (v : Prt) : (s.setPrt p v).shortAt = s.shortAt := rfl
@[simp] theorem State.setPrt_ladder (s : State) (p : Nat) (v : Prt) : (s.setPrt p v).ladder = s.ladder := rfl
@[simp] theorem State.setPrt_therm (s : State) (p : Nat) (v : Prt) : (s.setPrt p v).therm = s.therm := rfl
@[simp] theorem State.setPrt_thermAt (s : State) (p : Nat) (v : Prt) : (s.setPrt p v).thermAt = s.thermAt := rfl
@[simp] theorem State.setPrt_keyHash (s : State) (p : Nat) (v : Prt) : (s.setPrt p v).keyHash = s.keyHash := rfl
@[simp] theorem State.setPrt_vdtThr (s : State) (p : Nat) (v : Prt) : (s.setPrt p v).vdtThr = s.vdtThr := rfl
@[simp] theorem State.setPrt_free (s : State) (p : Nat) (v : Prt) : (s.setPrt p v).free = s.free := rfl
@[simp] theorem State.setPrt_out (s : State) (p : Nat) (v : Prt) : (s.setPrt p v).out = s.out := rfl

/-! ### setPier -/

@[simp] theorem State.setPier_pending (s : State) (n : Nat) (v : Pr) : (s.setPier n v).pending = s.pending := rfl
@[simp] theorem State.setPier_time (s : State) (n : Nat) (v : Pr) : (s.setPier n v).time = s.time := rfl
@[simp] theorem State.setPier_regs (s : State) (n : Nat) (v : Pr) : (s.setPier n v).regs = s.regs := rfl
@[simp] theorem State.setPier_media (s : State) (n : Nat) (v : Pr) : (s.setPier n v).media = s.media := rfl
@[simp] theorem State.setPier_flash (s : State) (n : Nat) (v : Pr) : (s.setPier n v).flash = s.flash := rfl
@[simp] theorem State.setPier_owner (s : State) (n : Nat) (v : Pr) : (s.setPier n v).owner = s.owner := rfl
@[simp] theorem State.setPier_pairs (s : State) (n : Nat) (v : Pr) : (s.setPier n v).pairs = s.pairs := rfl
@[simp] theorem State.setPier_heat (s : State) (n : Nat) (v : Pr) : (s.setPier n v).heat = s.heat := rfl
@[simp] theorem State.setPier_heatAt (s : State) (n : Nat) (v : Pr) : (s.setPier n v).heatAt = s.heatAt := rfl
@[simp] theorem State.setPier_decayAt (s : State) (n : Nat) (v : Pr) : (s.setPier n v).decayAt = s.decayAt := rfl
@[simp] theorem State.setPier_coolAt (s : State) (n : Nat) (v : Pr) : (s.setPier n v).coolAt = s.coolAt := rfl
@[simp] theorem State.setPier_moveAt (s : State) (n : Nat) (v : Pr) : (s.setPier n v).moveAt = s.moveAt := rfl
@[simp] theorem State.setPier_vis (s : State) (n : Nat) (v : Pr) : (s.setPier n v).vis = s.vis := rfl
@[simp] theorem State.setPier_extents (s : State) (n : Nat) (v : Pr) : (s.setPier n v).extents = s.extents := rfl
@[simp] theorem State.setPier_running (s : State) (n : Nat) (v : Pr) : (s.setPier n v).running = s.running := rfl
@[simp] theorem State.setPier_dirty (s : State) (n : Nat) (v : Pr) : (s.setPier n v).dirty = s.dirty := rfl
@[simp] theorem State.setPier_ports (s : State) (n : Nat) (v : Pr) : (s.setPier n v).ports = s.ports := rfl
@[simp] theorem State.setPier_lds (s : State) (n : Nat) (v : Pr) : (s.setPier n v).lds = s.lds := rfl
@[simp] theorem State.setPier_reqs (s : State) (n : Nat) (v : Pr) : (s.setPier n v).reqs = s.reqs := rfl
@[simp] theorem State.setPier_nextReq (s : State) (n : Nat) (v : Pr) : (s.setPier n v).nextReq = s.nextReq := rfl
@[simp] theorem State.setPier_walks (s : State) (n : Nat) (v : Pr) : (s.setPier n v).walks = s.walks := rfl
@[simp] theorem State.setPier_snoops (s : State) (n : Nat) (v : Pr) : (s.setPier n v).snoops = s.snoops := rfl
@[simp] theorem State.setPier_dir (s : State) (n : Nat) (v : Pr) : (s.setPier n v).dir = s.dir := rfl
@[simp] theorem State.setPier_dirStamp (s : State) (n : Nat) (v : Pr) : (s.setPier n v).dirStamp = s.dirStamp := rfl
@[simp] theorem State.setPier_stripes (s : State) (n : Nat) (v : Pr) : (s.setPier n v).stripes = s.stripes := rfl
@[simp] theorem State.setPier_relocs (s : State) (n : Nat) (v : Pr) : (s.setPier n v).relocs = s.relocs := rfl
@[simp] theorem State.setPier_gcAt (s : State) (n : Nat) (v : Pr) : (s.setPier n v).gcAt = s.gcAt := rfl
@[simp] theorem State.setPier_shadows (s : State) (n : Nat) (v : Pr) : (s.setPier n v).shadows = s.shadows := rfl
@[simp] theorem State.setPier_moves (s : State) (n : Nat) (v : Pr) : (s.setPier n v).moves = s.moves := rfl
@[simp] theorem State.setPier_slots (s : State) (n : Nat) (v : Pr) : (s.setPier n v).slots = s.slots := rfl
@[simp] theorem State.setPier_kmap (s : State) (n : Nat) (v : Pr) : (s.setPier n v).kmap = s.kmap := rfl
@[simp] theorem State.setPier_stage (s : State) (n : Nat) (v : Pr) : (s.setPier n v).stage = s.stage := rfl
@[simp] theorem State.setPier_cc (s : State) (n : Nat) (v : Pr) : (s.setPier n v).cc = s.cc := rfl
@[simp] theorem State.setPier_links (s : State) (n : Nat) (v : Pr) : (s.setPier n v).links = s.links := rfl
@[simp] theorem State.setPier_sqrs (s : State) (n : Nat) (v : Pr) : (s.setPier n v).sqrs = s.sqrs := rfl
@[simp] theorem State.setPier_engines (s : State) (n : Nat) (v : Pr) : (s.setPier n v).engines = s.engines := rfl
@[simp] theorem State.setPier_roles (s : State) (n : Nat) (v : Pr) : (s.setPier n v).roles = s.roles := rfl
@[simp] theorem State.setPier_key (s : State) (n : Nat) (v : Pr) : (s.setPier n v).key = s.key := rfl
@[simp] theorem State.setPier_mbx (s : State) (n : Nat) (v : Pr) : (s.setPier n v).mbx = s.mbx := rfl
@[simp] theorem State.setPier_policy (s : State) (n : Nat) (v : Pr) : (s.setPier n v).policy = s.policy := rfl
@[simp] theorem State.setPier_profile (s : State) (n : Nat) (v : Pr) : (s.setPier n v).profile = s.profile := rfl
@[simp] theorem State.setPier_custom (s : State) (n : Nat) (v : Pr) : (s.setPier n v).custom = s.custom := rfl
@[simp] theorem State.setPier_mq (s : State) (n : Nat) (v : Pr) : (s.setPier n v).mq = s.mq := rfl
@[simp] theorem State.setPier_missed (s : State) (n : Nat) (v : Pr) : (s.setPier n v).missed = s.missed := rfl
@[simp] theorem State.setPier_missedMax (s : State) (n : Nat) (v : Pr) : (s.setPier n v).missedMax = s.missedMax := rfl
@[simp] theorem State.setPier_errCap (s : State) (n : Nat) (v : Pr) : (s.setPier n v).errCap = s.errCap := rfl
@[simp] theorem State.setPier_alertAt (s : State) (n : Nat) (v : Pr) : (s.setPier n v).alertAt = s.alertAt := rfl
@[simp] theorem State.setPier_alerts (s : State) (n : Nat) (v : Pr) : (s.setPier n v).alerts = s.alerts := rfl
@[simp] theorem State.setPier_held (s : State) (n : Nat) (v : Pr) : (s.setPier n v).held = s.held := rfl
@[simp] theorem State.setPier_jnl (s : State) (n : Nat) (v : Pr) : (s.setPier n v).jnl = s.jnl := rfl
@[simp] theorem State.setPier_telSel (s : State) (n : Nat) (v : Pr) : (s.setPier n v).telSel = s.telSel := rfl
@[simp] theorem State.setPier_telCnt (s : State) (n : Nat) (v : Pr) : (s.setPier n v).telCnt = s.telCnt := rfl
@[simp] theorem State.setPier_lap (s : State) (n : Nat) (v : Pr) : (s.setPier n v).lap = s.lap := rfl
@[simp] theorem State.setPier_clk (s : State) (n : Nat) (v : Pr) : (s.setPier n v).clk = s.clk := rfl
@[simp] theorem State.setPier_pwr (s : State) (n : Nat) (v : Pr) : (s.setPier n v).pwr = s.pwr := rfl
@[simp] theorem State.setPier_aon (s : State) (n : Nat) (v : Pr) : (s.setPier n v).aon = s.aon := rfl
@[simp] theorem State.setPier_rails (s : State) (n : Nat) (v : Pr) : (s.setPier n v).rails = s.rails := rfl
@[simp] theorem State.setPier_img (s : State) (n : Nat) (v : Pr) : (s.setPier n v).img = s.img := rfl
@[simp] theorem State.setPier_locked (s : State) (n : Nat) (v : Pr) : (s.setPier n v).locked = s.locked := rfl
@[simp] theorem State.setPier_zeroFilled (s : State) (n : Nat) (v : Pr) : (s.setPier n v).zeroFilled = s.zeroFilled := rfl
@[simp] theorem State.setPier_metaSpan (s : State) (n : Nat) (v : Pr) : (s.setPier n v).metaSpan = s.metaSpan := rfl
@[simp] theorem State.setPier_metaNext (s : State) (n : Nat) (v : Pr) : (s.setPier n v).metaNext = s.metaNext := rfl
@[simp] theorem State.setPier_fenbo (s : State) (n : Nat) (v : Pr) : (s.setPier n v).fenbo = s.fenbo := rfl
@[simp] theorem State.setPier_snap (s : State) (n : Nat) (v : Pr) : (s.setPier n v).snap = s.snap := rfl
@[simp] theorem State.setPier_bucketVi (s : State) (n : Nat) (v : Pr) : (s.setPier n v).bucketVi = s.bucketVi := rfl
@[simp] theorem State.setPier_bucketPort (s : State) (n : Nat) (v : Pr) : (s.setPier n v).bucketPort = s.bucketPort := rfl
@[simp] theorem State.setPier_shortAt (s : State) (n : Nat) (v : Pr) : (s.setPier n v).shortAt = s.shortAt := rfl
@[simp] theorem State.setPier_ladder (s : State) (n : Nat) (v : Pr) : (s.setPier n v).ladder = s.ladder := rfl
@[simp] theorem State.setPier_therm (s : State) (n : Nat) (v : Pr) : (s.setPier n v).therm = s.therm := rfl
@[simp] theorem State.setPier_thermAt (s : State) (n : Nat) (v : Pr) : (s.setPier n v).thermAt = s.thermAt := rfl
@[simp] theorem State.setPier_keyHash (s : State) (n : Nat) (v : Pr) : (s.setPier n v).keyHash = s.keyHash := rfl
@[simp] theorem State.setPier_vdtThr (s : State) (n : Nat) (v : Pr) : (s.setPier n v).vdtThr = s.vdtThr := rfl
@[simp] theorem State.setPier_free (s : State) (n : Nat) (v : Pr) : (s.setPier n v).free = s.free := rfl
@[simp] theorem State.setPier_out (s : State) (n : Nat) (v : Pr) : (s.setPier n v).out = s.out := rfl

/-! ### setLdev -/

@[simp] theorem State.setLdev_pending (s : State) (p ld : Nat) (v : LogDev) : (s.setLdev p ld v).pending = s.pending := rfl
@[simp] theorem State.setLdev_time (s : State) (p ld : Nat) (v : LogDev) : (s.setLdev p ld v).time = s.time := rfl
@[simp] theorem State.setLdev_regs (s : State) (p ld : Nat) (v : LogDev) : (s.setLdev p ld v).regs = s.regs := rfl
@[simp] theorem State.setLdev_media (s : State) (p ld : Nat) (v : LogDev) : (s.setLdev p ld v).media = s.media := rfl
@[simp] theorem State.setLdev_flash (s : State) (p ld : Nat) (v : LogDev) : (s.setLdev p ld v).flash = s.flash := rfl
@[simp] theorem State.setLdev_owner (s : State) (p ld : Nat) (v : LogDev) : (s.setLdev p ld v).owner = s.owner := rfl
@[simp] theorem State.setLdev_pairs (s : State) (p ld : Nat) (v : LogDev) : (s.setLdev p ld v).pairs = s.pairs := rfl
@[simp] theorem State.setLdev_heat (s : State) (p ld : Nat) (v : LogDev) : (s.setLdev p ld v).heat = s.heat := rfl
@[simp] theorem State.setLdev_heatAt (s : State) (p ld : Nat) (v : LogDev) : (s.setLdev p ld v).heatAt = s.heatAt := rfl
@[simp] theorem State.setLdev_decayAt (s : State) (p ld : Nat) (v : LogDev) : (s.setLdev p ld v).decayAt = s.decayAt := rfl
@[simp] theorem State.setLdev_coolAt (s : State) (p ld : Nat) (v : LogDev) : (s.setLdev p ld v).coolAt = s.coolAt := rfl
@[simp] theorem State.setLdev_moveAt (s : State) (p ld : Nat) (v : LogDev) : (s.setLdev p ld v).moveAt = s.moveAt := rfl
@[simp] theorem State.setLdev_vis (s : State) (p ld : Nat) (v : LogDev) : (s.setLdev p ld v).vis = s.vis := rfl
@[simp] theorem State.setLdev_extents (s : State) (p ld : Nat) (v : LogDev) : (s.setLdev p ld v).extents = s.extents := rfl
@[simp] theorem State.setLdev_running (s : State) (p ld : Nat) (v : LogDev) : (s.setLdev p ld v).running = s.running := rfl
@[simp] theorem State.setLdev_dirty (s : State) (p ld : Nat) (v : LogDev) : (s.setLdev p ld v).dirty = s.dirty := rfl
@[simp] theorem State.setLdev_ports (s : State) (p ld : Nat) (v : LogDev) : (s.setLdev p ld v).ports = s.ports := rfl
@[simp] theorem State.setLdev_reqs (s : State) (p ld : Nat) (v : LogDev) : (s.setLdev p ld v).reqs = s.reqs := rfl
@[simp] theorem State.setLdev_nextReq (s : State) (p ld : Nat) (v : LogDev) : (s.setLdev p ld v).nextReq = s.nextReq := rfl
@[simp] theorem State.setLdev_walks (s : State) (p ld : Nat) (v : LogDev) : (s.setLdev p ld v).walks = s.walks := rfl
@[simp] theorem State.setLdev_snoops (s : State) (p ld : Nat) (v : LogDev) : (s.setLdev p ld v).snoops = s.snoops := rfl
@[simp] theorem State.setLdev_dir (s : State) (p ld : Nat) (v : LogDev) : (s.setLdev p ld v).dir = s.dir := rfl
@[simp] theorem State.setLdev_dirStamp (s : State) (p ld : Nat) (v : LogDev) : (s.setLdev p ld v).dirStamp = s.dirStamp := rfl
@[simp] theorem State.setLdev_piers (s : State) (p ld : Nat) (v : LogDev) : (s.setLdev p ld v).piers = s.piers := rfl
@[simp] theorem State.setLdev_stripes (s : State) (p ld : Nat) (v : LogDev) : (s.setLdev p ld v).stripes = s.stripes := rfl
@[simp] theorem State.setLdev_relocs (s : State) (p ld : Nat) (v : LogDev) : (s.setLdev p ld v).relocs = s.relocs := rfl
@[simp] theorem State.setLdev_gcAt (s : State) (p ld : Nat) (v : LogDev) : (s.setLdev p ld v).gcAt = s.gcAt := rfl
@[simp] theorem State.setLdev_shadows (s : State) (p ld : Nat) (v : LogDev) : (s.setLdev p ld v).shadows = s.shadows := rfl
@[simp] theorem State.setLdev_moves (s : State) (p ld : Nat) (v : LogDev) : (s.setLdev p ld v).moves = s.moves := rfl
@[simp] theorem State.setLdev_slots (s : State) (p ld : Nat) (v : LogDev) : (s.setLdev p ld v).slots = s.slots := rfl
@[simp] theorem State.setLdev_kmap (s : State) (p ld : Nat) (v : LogDev) : (s.setLdev p ld v).kmap = s.kmap := rfl
@[simp] theorem State.setLdev_stage (s : State) (p ld : Nat) (v : LogDev) : (s.setLdev p ld v).stage = s.stage := rfl
@[simp] theorem State.setLdev_cc (s : State) (p ld : Nat) (v : LogDev) : (s.setLdev p ld v).cc = s.cc := rfl
@[simp] theorem State.setLdev_links (s : State) (p ld : Nat) (v : LogDev) : (s.setLdev p ld v).links = s.links := rfl
@[simp] theorem State.setLdev_sqrs (s : State) (p ld : Nat) (v : LogDev) : (s.setLdev p ld v).sqrs = s.sqrs := rfl
@[simp] theorem State.setLdev_engines (s : State) (p ld : Nat) (v : LogDev) : (s.setLdev p ld v).engines = s.engines := rfl
@[simp] theorem State.setLdev_roles (s : State) (p ld : Nat) (v : LogDev) : (s.setLdev p ld v).roles = s.roles := rfl
@[simp] theorem State.setLdev_key (s : State) (p ld : Nat) (v : LogDev) : (s.setLdev p ld v).key = s.key := rfl
@[simp] theorem State.setLdev_mbx (s : State) (p ld : Nat) (v : LogDev) : (s.setLdev p ld v).mbx = s.mbx := rfl
@[simp] theorem State.setLdev_policy (s : State) (p ld : Nat) (v : LogDev) : (s.setLdev p ld v).policy = s.policy := rfl
@[simp] theorem State.setLdev_profile (s : State) (p ld : Nat) (v : LogDev) : (s.setLdev p ld v).profile = s.profile := rfl
@[simp] theorem State.setLdev_custom (s : State) (p ld : Nat) (v : LogDev) : (s.setLdev p ld v).custom = s.custom := rfl
@[simp] theorem State.setLdev_mq (s : State) (p ld : Nat) (v : LogDev) : (s.setLdev p ld v).mq = s.mq := rfl
@[simp] theorem State.setLdev_missed (s : State) (p ld : Nat) (v : LogDev) : (s.setLdev p ld v).missed = s.missed := rfl
@[simp] theorem State.setLdev_missedMax (s : State) (p ld : Nat) (v : LogDev) : (s.setLdev p ld v).missedMax = s.missedMax := rfl
@[simp] theorem State.setLdev_errCap (s : State) (p ld : Nat) (v : LogDev) : (s.setLdev p ld v).errCap = s.errCap := rfl
@[simp] theorem State.setLdev_alertAt (s : State) (p ld : Nat) (v : LogDev) : (s.setLdev p ld v).alertAt = s.alertAt := rfl
@[simp] theorem State.setLdev_alerts (s : State) (p ld : Nat) (v : LogDev) : (s.setLdev p ld v).alerts = s.alerts := rfl
@[simp] theorem State.setLdev_held (s : State) (p ld : Nat) (v : LogDev) : (s.setLdev p ld v).held = s.held := rfl
@[simp] theorem State.setLdev_jnl (s : State) (p ld : Nat) (v : LogDev) : (s.setLdev p ld v).jnl = s.jnl := rfl
@[simp] theorem State.setLdev_telSel (s : State) (p ld : Nat) (v : LogDev) : (s.setLdev p ld v).telSel = s.telSel := rfl
@[simp] theorem State.setLdev_telCnt (s : State) (p ld : Nat) (v : LogDev) : (s.setLdev p ld v).telCnt = s.telCnt := rfl
@[simp] theorem State.setLdev_lap (s : State) (p ld : Nat) (v : LogDev) : (s.setLdev p ld v).lap = s.lap := rfl
@[simp] theorem State.setLdev_clk (s : State) (p ld : Nat) (v : LogDev) : (s.setLdev p ld v).clk = s.clk := rfl
@[simp] theorem State.setLdev_pwr (s : State) (p ld : Nat) (v : LogDev) : (s.setLdev p ld v).pwr = s.pwr := rfl
@[simp] theorem State.setLdev_aon (s : State) (p ld : Nat) (v : LogDev) : (s.setLdev p ld v).aon = s.aon := rfl
@[simp] theorem State.setLdev_rails (s : State) (p ld : Nat) (v : LogDev) : (s.setLdev p ld v).rails = s.rails := rfl
@[simp] theorem State.setLdev_img (s : State) (p ld : Nat) (v : LogDev) : (s.setLdev p ld v).img = s.img := rfl
@[simp] theorem State.setLdev_locked (s : State) (p ld : Nat) (v : LogDev) : (s.setLdev p ld v).locked = s.locked := rfl
@[simp] theorem State.setLdev_zeroFilled (s : State) (p ld : Nat) (v : LogDev) : (s.setLdev p ld v).zeroFilled = s.zeroFilled := rfl
@[simp] theorem State.setLdev_metaSpan (s : State) (p ld : Nat) (v : LogDev) : (s.setLdev p ld v).metaSpan = s.metaSpan := rfl
@[simp] theorem State.setLdev_metaNext (s : State) (p ld : Nat) (v : LogDev) : (s.setLdev p ld v).metaNext = s.metaNext := rfl
@[simp] theorem State.setLdev_fenbo (s : State) (p ld : Nat) (v : LogDev) : (s.setLdev p ld v).fenbo = s.fenbo := rfl
@[simp] theorem State.setLdev_snap (s : State) (p ld : Nat) (v : LogDev) : (s.setLdev p ld v).snap = s.snap := rfl
@[simp] theorem State.setLdev_bucketVi (s : State) (p ld : Nat) (v : LogDev) : (s.setLdev p ld v).bucketVi = s.bucketVi := rfl
@[simp] theorem State.setLdev_bucketPort (s : State) (p ld : Nat) (v : LogDev) : (s.setLdev p ld v).bucketPort = s.bucketPort := rfl
@[simp] theorem State.setLdev_shortAt (s : State) (p ld : Nat) (v : LogDev) : (s.setLdev p ld v).shortAt = s.shortAt := rfl
@[simp] theorem State.setLdev_ladder (s : State) (p ld : Nat) (v : LogDev) : (s.setLdev p ld v).ladder = s.ladder := rfl
@[simp] theorem State.setLdev_therm (s : State) (p ld : Nat) (v : LogDev) : (s.setLdev p ld v).therm = s.therm := rfl
@[simp] theorem State.setLdev_thermAt (s : State) (p ld : Nat) (v : LogDev) : (s.setLdev p ld v).thermAt = s.thermAt := rfl
@[simp] theorem State.setLdev_keyHash (s : State) (p ld : Nat) (v : LogDev) : (s.setLdev p ld v).keyHash = s.keyHash := rfl
@[simp] theorem State.setLdev_vdtThr (s : State) (p ld : Nat) (v : LogDev) : (s.setLdev p ld v).vdtThr = s.vdtThr := rfl
@[simp] theorem State.setLdev_free (s : State) (p ld : Nat) (v : LogDev) : (s.setLdev p ld v).free = s.free := rfl
@[simp] theorem State.setLdev_out (s : State) (p ld : Nat) (v : LogDev) : (s.setLdev p ld v).out = s.out := rfl

/-! ### setLink -/

@[simp] theorem State.setLink_pending (s : State) (l : Nat) (v : Lnk) : (s.setLink l v).pending = s.pending := rfl
@[simp] theorem State.setLink_time (s : State) (l : Nat) (v : Lnk) : (s.setLink l v).time = s.time := rfl
@[simp] theorem State.setLink_regs (s : State) (l : Nat) (v : Lnk) : (s.setLink l v).regs = s.regs := rfl
@[simp] theorem State.setLink_media (s : State) (l : Nat) (v : Lnk) : (s.setLink l v).media = s.media := rfl
@[simp] theorem State.setLink_flash (s : State) (l : Nat) (v : Lnk) : (s.setLink l v).flash = s.flash := rfl
@[simp] theorem State.setLink_owner (s : State) (l : Nat) (v : Lnk) : (s.setLink l v).owner = s.owner := rfl
@[simp] theorem State.setLink_pairs (s : State) (l : Nat) (v : Lnk) : (s.setLink l v).pairs = s.pairs := rfl
@[simp] theorem State.setLink_heat (s : State) (l : Nat) (v : Lnk) : (s.setLink l v).heat = s.heat := rfl
@[simp] theorem State.setLink_heatAt (s : State) (l : Nat) (v : Lnk) : (s.setLink l v).heatAt = s.heatAt := rfl
@[simp] theorem State.setLink_decayAt (s : State) (l : Nat) (v : Lnk) : (s.setLink l v).decayAt = s.decayAt := rfl
@[simp] theorem State.setLink_coolAt (s : State) (l : Nat) (v : Lnk) : (s.setLink l v).coolAt = s.coolAt := rfl
@[simp] theorem State.setLink_moveAt (s : State) (l : Nat) (v : Lnk) : (s.setLink l v).moveAt = s.moveAt := rfl
@[simp] theorem State.setLink_vis (s : State) (l : Nat) (v : Lnk) : (s.setLink l v).vis = s.vis := rfl
@[simp] theorem State.setLink_extents (s : State) (l : Nat) (v : Lnk) : (s.setLink l v).extents = s.extents := rfl
@[simp] theorem State.setLink_running (s : State) (l : Nat) (v : Lnk) : (s.setLink l v).running = s.running := rfl
@[simp] theorem State.setLink_dirty (s : State) (l : Nat) (v : Lnk) : (s.setLink l v).dirty = s.dirty := rfl
@[simp] theorem State.setLink_ports (s : State) (l : Nat) (v : Lnk) : (s.setLink l v).ports = s.ports := rfl
@[simp] theorem State.setLink_lds (s : State) (l : Nat) (v : Lnk) : (s.setLink l v).lds = s.lds := rfl
@[simp] theorem State.setLink_reqs (s : State) (l : Nat) (v : Lnk) : (s.setLink l v).reqs = s.reqs := rfl
@[simp] theorem State.setLink_nextReq (s : State) (l : Nat) (v : Lnk) : (s.setLink l v).nextReq = s.nextReq := rfl
@[simp] theorem State.setLink_walks (s : State) (l : Nat) (v : Lnk) : (s.setLink l v).walks = s.walks := rfl
@[simp] theorem State.setLink_snoops (s : State) (l : Nat) (v : Lnk) : (s.setLink l v).snoops = s.snoops := rfl
@[simp] theorem State.setLink_dir (s : State) (l : Nat) (v : Lnk) : (s.setLink l v).dir = s.dir := rfl
@[simp] theorem State.setLink_dirStamp (s : State) (l : Nat) (v : Lnk) : (s.setLink l v).dirStamp = s.dirStamp := rfl
@[simp] theorem State.setLink_piers (s : State) (l : Nat) (v : Lnk) : (s.setLink l v).piers = s.piers := rfl
@[simp] theorem State.setLink_stripes (s : State) (l : Nat) (v : Lnk) : (s.setLink l v).stripes = s.stripes := rfl
@[simp] theorem State.setLink_relocs (s : State) (l : Nat) (v : Lnk) : (s.setLink l v).relocs = s.relocs := rfl
@[simp] theorem State.setLink_gcAt (s : State) (l : Nat) (v : Lnk) : (s.setLink l v).gcAt = s.gcAt := rfl
@[simp] theorem State.setLink_shadows (s : State) (l : Nat) (v : Lnk) : (s.setLink l v).shadows = s.shadows := rfl
@[simp] theorem State.setLink_moves (s : State) (l : Nat) (v : Lnk) : (s.setLink l v).moves = s.moves := rfl
@[simp] theorem State.setLink_slots (s : State) (l : Nat) (v : Lnk) : (s.setLink l v).slots = s.slots := rfl
@[simp] theorem State.setLink_kmap (s : State) (l : Nat) (v : Lnk) : (s.setLink l v).kmap = s.kmap := rfl
@[simp] theorem State.setLink_stage (s : State) (l : Nat) (v : Lnk) : (s.setLink l v).stage = s.stage := rfl
@[simp] theorem State.setLink_cc (s : State) (l : Nat) (v : Lnk) : (s.setLink l v).cc = s.cc := rfl
@[simp] theorem State.setLink_sqrs (s : State) (l : Nat) (v : Lnk) : (s.setLink l v).sqrs = s.sqrs := rfl
@[simp] theorem State.setLink_engines (s : State) (l : Nat) (v : Lnk) : (s.setLink l v).engines = s.engines := rfl
@[simp] theorem State.setLink_roles (s : State) (l : Nat) (v : Lnk) : (s.setLink l v).roles = s.roles := rfl
@[simp] theorem State.setLink_key (s : State) (l : Nat) (v : Lnk) : (s.setLink l v).key = s.key := rfl
@[simp] theorem State.setLink_mbx (s : State) (l : Nat) (v : Lnk) : (s.setLink l v).mbx = s.mbx := rfl
@[simp] theorem State.setLink_policy (s : State) (l : Nat) (v : Lnk) : (s.setLink l v).policy = s.policy := rfl
@[simp] theorem State.setLink_profile (s : State) (l : Nat) (v : Lnk) : (s.setLink l v).profile = s.profile := rfl
@[simp] theorem State.setLink_custom (s : State) (l : Nat) (v : Lnk) : (s.setLink l v).custom = s.custom := rfl
@[simp] theorem State.setLink_mq (s : State) (l : Nat) (v : Lnk) : (s.setLink l v).mq = s.mq := rfl
@[simp] theorem State.setLink_missed (s : State) (l : Nat) (v : Lnk) : (s.setLink l v).missed = s.missed := rfl
@[simp] theorem State.setLink_missedMax (s : State) (l : Nat) (v : Lnk) : (s.setLink l v).missedMax = s.missedMax := rfl
@[simp] theorem State.setLink_errCap (s : State) (l : Nat) (v : Lnk) : (s.setLink l v).errCap = s.errCap := rfl
@[simp] theorem State.setLink_alertAt (s : State) (l : Nat) (v : Lnk) : (s.setLink l v).alertAt = s.alertAt := rfl
@[simp] theorem State.setLink_alerts (s : State) (l : Nat) (v : Lnk) : (s.setLink l v).alerts = s.alerts := rfl
@[simp] theorem State.setLink_held (s : State) (l : Nat) (v : Lnk) : (s.setLink l v).held = s.held := rfl
@[simp] theorem State.setLink_jnl (s : State) (l : Nat) (v : Lnk) : (s.setLink l v).jnl = s.jnl := rfl
@[simp] theorem State.setLink_telSel (s : State) (l : Nat) (v : Lnk) : (s.setLink l v).telSel = s.telSel := rfl
@[simp] theorem State.setLink_telCnt (s : State) (l : Nat) (v : Lnk) : (s.setLink l v).telCnt = s.telCnt := rfl
@[simp] theorem State.setLink_lap (s : State) (l : Nat) (v : Lnk) : (s.setLink l v).lap = s.lap := rfl
@[simp] theorem State.setLink_clk (s : State) (l : Nat) (v : Lnk) : (s.setLink l v).clk = s.clk := rfl
@[simp] theorem State.setLink_pwr (s : State) (l : Nat) (v : Lnk) : (s.setLink l v).pwr = s.pwr := rfl
@[simp] theorem State.setLink_aon (s : State) (l : Nat) (v : Lnk) : (s.setLink l v).aon = s.aon := rfl
@[simp] theorem State.setLink_rails (s : State) (l : Nat) (v : Lnk) : (s.setLink l v).rails = s.rails := rfl
@[simp] theorem State.setLink_img (s : State) (l : Nat) (v : Lnk) : (s.setLink l v).img = s.img := rfl
@[simp] theorem State.setLink_locked (s : State) (l : Nat) (v : Lnk) : (s.setLink l v).locked = s.locked := rfl
@[simp] theorem State.setLink_zeroFilled (s : State) (l : Nat) (v : Lnk) : (s.setLink l v).zeroFilled = s.zeroFilled := rfl
@[simp] theorem State.setLink_metaSpan (s : State) (l : Nat) (v : Lnk) : (s.setLink l v).metaSpan = s.metaSpan := rfl
@[simp] theorem State.setLink_metaNext (s : State) (l : Nat) (v : Lnk) : (s.setLink l v).metaNext = s.metaNext := rfl
@[simp] theorem State.setLink_fenbo (s : State) (l : Nat) (v : Lnk) : (s.setLink l v).fenbo = s.fenbo := rfl
@[simp] theorem State.setLink_snap (s : State) (l : Nat) (v : Lnk) : (s.setLink l v).snap = s.snap := rfl
@[simp] theorem State.setLink_bucketVi (s : State) (l : Nat) (v : Lnk) : (s.setLink l v).bucketVi = s.bucketVi := rfl
@[simp] theorem State.setLink_bucketPort (s : State) (l : Nat) (v : Lnk) : (s.setLink l v).bucketPort = s.bucketPort := rfl
@[simp] theorem State.setLink_shortAt (s : State) (l : Nat) (v : Lnk) : (s.setLink l v).shortAt = s.shortAt := rfl
@[simp] theorem State.setLink_ladder (s : State) (l : Nat) (v : Lnk) : (s.setLink l v).ladder = s.ladder := rfl
@[simp] theorem State.setLink_therm (s : State) (l : Nat) (v : Lnk) : (s.setLink l v).therm = s.therm := rfl
@[simp] theorem State.setLink_thermAt (s : State) (l : Nat) (v : Lnk) : (s.setLink l v).thermAt = s.thermAt := rfl
@[simp] theorem State.setLink_keyHash (s : State) (l : Nat) (v : Lnk) : (s.setLink l v).keyHash = s.keyHash := rfl
@[simp] theorem State.setLink_vdtThr (s : State) (l : Nat) (v : Lnk) : (s.setLink l v).vdtThr = s.vdtThr := rfl
@[simp] theorem State.setLink_free (s : State) (l : Nat) (v : Lnk) : (s.setLink l v).free = s.free := rfl
@[simp] theorem State.setLink_out (s : State) (l : Nat) (v : Lnk) : (s.setLink l v).out = s.out := rfl

/-! ### setSqr -/

@[simp] theorem State.setSqr_pending (s : State) (q : Nat) (v : Sqr) : (s.setSqr q v).pending = s.pending := rfl
@[simp] theorem State.setSqr_time (s : State) (q : Nat) (v : Sqr) : (s.setSqr q v).time = s.time := rfl
@[simp] theorem State.setSqr_regs (s : State) (q : Nat) (v : Sqr) : (s.setSqr q v).regs = s.regs := rfl
@[simp] theorem State.setSqr_media (s : State) (q : Nat) (v : Sqr) : (s.setSqr q v).media = s.media := rfl
@[simp] theorem State.setSqr_flash (s : State) (q : Nat) (v : Sqr) : (s.setSqr q v).flash = s.flash := rfl
@[simp] theorem State.setSqr_owner (s : State) (q : Nat) (v : Sqr) : (s.setSqr q v).owner = s.owner := rfl
@[simp] theorem State.setSqr_pairs (s : State) (q : Nat) (v : Sqr) : (s.setSqr q v).pairs = s.pairs := rfl
@[simp] theorem State.setSqr_heat (s : State) (q : Nat) (v : Sqr) : (s.setSqr q v).heat = s.heat := rfl
@[simp] theorem State.setSqr_heatAt (s : State) (q : Nat) (v : Sqr) : (s.setSqr q v).heatAt = s.heatAt := rfl
@[simp] theorem State.setSqr_decayAt (s : State) (q : Nat) (v : Sqr) : (s.setSqr q v).decayAt = s.decayAt := rfl
@[simp] theorem State.setSqr_coolAt (s : State) (q : Nat) (v : Sqr) : (s.setSqr q v).coolAt = s.coolAt := rfl
@[simp] theorem State.setSqr_moveAt (s : State) (q : Nat) (v : Sqr) : (s.setSqr q v).moveAt = s.moveAt := rfl
@[simp] theorem State.setSqr_vis (s : State) (q : Nat) (v : Sqr) : (s.setSqr q v).vis = s.vis := rfl
@[simp] theorem State.setSqr_extents (s : State) (q : Nat) (v : Sqr) : (s.setSqr q v).extents = s.extents := rfl
@[simp] theorem State.setSqr_running (s : State) (q : Nat) (v : Sqr) : (s.setSqr q v).running = s.running := rfl
@[simp] theorem State.setSqr_dirty (s : State) (q : Nat) (v : Sqr) : (s.setSqr q v).dirty = s.dirty := rfl
@[simp] theorem State.setSqr_ports (s : State) (q : Nat) (v : Sqr) : (s.setSqr q v).ports = s.ports := rfl
@[simp] theorem State.setSqr_lds (s : State) (q : Nat) (v : Sqr) : (s.setSqr q v).lds = s.lds := rfl
@[simp] theorem State.setSqr_reqs (s : State) (q : Nat) (v : Sqr) : (s.setSqr q v).reqs = s.reqs := rfl
@[simp] theorem State.setSqr_nextReq (s : State) (q : Nat) (v : Sqr) : (s.setSqr q v).nextReq = s.nextReq := rfl
@[simp] theorem State.setSqr_walks (s : State) (q : Nat) (v : Sqr) : (s.setSqr q v).walks = s.walks := rfl
@[simp] theorem State.setSqr_snoops (s : State) (q : Nat) (v : Sqr) : (s.setSqr q v).snoops = s.snoops := rfl
@[simp] theorem State.setSqr_dir (s : State) (q : Nat) (v : Sqr) : (s.setSqr q v).dir = s.dir := rfl
@[simp] theorem State.setSqr_dirStamp (s : State) (q : Nat) (v : Sqr) : (s.setSqr q v).dirStamp = s.dirStamp := rfl
@[simp] theorem State.setSqr_piers (s : State) (q : Nat) (v : Sqr) : (s.setSqr q v).piers = s.piers := rfl
@[simp] theorem State.setSqr_stripes (s : State) (q : Nat) (v : Sqr) : (s.setSqr q v).stripes = s.stripes := rfl
@[simp] theorem State.setSqr_relocs (s : State) (q : Nat) (v : Sqr) : (s.setSqr q v).relocs = s.relocs := rfl
@[simp] theorem State.setSqr_gcAt (s : State) (q : Nat) (v : Sqr) : (s.setSqr q v).gcAt = s.gcAt := rfl
@[simp] theorem State.setSqr_shadows (s : State) (q : Nat) (v : Sqr) : (s.setSqr q v).shadows = s.shadows := rfl
@[simp] theorem State.setSqr_moves (s : State) (q : Nat) (v : Sqr) : (s.setSqr q v).moves = s.moves := rfl
@[simp] theorem State.setSqr_slots (s : State) (q : Nat) (v : Sqr) : (s.setSqr q v).slots = s.slots := rfl
@[simp] theorem State.setSqr_kmap (s : State) (q : Nat) (v : Sqr) : (s.setSqr q v).kmap = s.kmap := rfl
@[simp] theorem State.setSqr_stage (s : State) (q : Nat) (v : Sqr) : (s.setSqr q v).stage = s.stage := rfl
@[simp] theorem State.setSqr_cc (s : State) (q : Nat) (v : Sqr) : (s.setSqr q v).cc = s.cc := rfl
@[simp] theorem State.setSqr_links (s : State) (q : Nat) (v : Sqr) : (s.setSqr q v).links = s.links := rfl
@[simp] theorem State.setSqr_engines (s : State) (q : Nat) (v : Sqr) : (s.setSqr q v).engines = s.engines := rfl
@[simp] theorem State.setSqr_roles (s : State) (q : Nat) (v : Sqr) : (s.setSqr q v).roles = s.roles := rfl
@[simp] theorem State.setSqr_key (s : State) (q : Nat) (v : Sqr) : (s.setSqr q v).key = s.key := rfl
@[simp] theorem State.setSqr_mbx (s : State) (q : Nat) (v : Sqr) : (s.setSqr q v).mbx = s.mbx := rfl
@[simp] theorem State.setSqr_policy (s : State) (q : Nat) (v : Sqr) : (s.setSqr q v).policy = s.policy := rfl
@[simp] theorem State.setSqr_profile (s : State) (q : Nat) (v : Sqr) : (s.setSqr q v).profile = s.profile := rfl
@[simp] theorem State.setSqr_custom (s : State) (q : Nat) (v : Sqr) : (s.setSqr q v).custom = s.custom := rfl
@[simp] theorem State.setSqr_mq (s : State) (q : Nat) (v : Sqr) : (s.setSqr q v).mq = s.mq := rfl
@[simp] theorem State.setSqr_missed (s : State) (q : Nat) (v : Sqr) : (s.setSqr q v).missed = s.missed := rfl
@[simp] theorem State.setSqr_missedMax (s : State) (q : Nat) (v : Sqr) : (s.setSqr q v).missedMax = s.missedMax := rfl
@[simp] theorem State.setSqr_errCap (s : State) (q : Nat) (v : Sqr) : (s.setSqr q v).errCap = s.errCap := rfl
@[simp] theorem State.setSqr_alertAt (s : State) (q : Nat) (v : Sqr) : (s.setSqr q v).alertAt = s.alertAt := rfl
@[simp] theorem State.setSqr_alerts (s : State) (q : Nat) (v : Sqr) : (s.setSqr q v).alerts = s.alerts := rfl
@[simp] theorem State.setSqr_held (s : State) (q : Nat) (v : Sqr) : (s.setSqr q v).held = s.held := rfl
@[simp] theorem State.setSqr_jnl (s : State) (q : Nat) (v : Sqr) : (s.setSqr q v).jnl = s.jnl := rfl
@[simp] theorem State.setSqr_telSel (s : State) (q : Nat) (v : Sqr) : (s.setSqr q v).telSel = s.telSel := rfl
@[simp] theorem State.setSqr_telCnt (s : State) (q : Nat) (v : Sqr) : (s.setSqr q v).telCnt = s.telCnt := rfl
@[simp] theorem State.setSqr_lap (s : State) (q : Nat) (v : Sqr) : (s.setSqr q v).lap = s.lap := rfl
@[simp] theorem State.setSqr_clk (s : State) (q : Nat) (v : Sqr) : (s.setSqr q v).clk = s.clk := rfl
@[simp] theorem State.setSqr_pwr (s : State) (q : Nat) (v : Sqr) : (s.setSqr q v).pwr = s.pwr := rfl
@[simp] theorem State.setSqr_aon (s : State) (q : Nat) (v : Sqr) : (s.setSqr q v).aon = s.aon := rfl
@[simp] theorem State.setSqr_rails (s : State) (q : Nat) (v : Sqr) : (s.setSqr q v).rails = s.rails := rfl
@[simp] theorem State.setSqr_img (s : State) (q : Nat) (v : Sqr) : (s.setSqr q v).img = s.img := rfl
@[simp] theorem State.setSqr_locked (s : State) (q : Nat) (v : Sqr) : (s.setSqr q v).locked = s.locked := rfl
@[simp] theorem State.setSqr_zeroFilled (s : State) (q : Nat) (v : Sqr) : (s.setSqr q v).zeroFilled = s.zeroFilled := rfl
@[simp] theorem State.setSqr_metaSpan (s : State) (q : Nat) (v : Sqr) : (s.setSqr q v).metaSpan = s.metaSpan := rfl
@[simp] theorem State.setSqr_metaNext (s : State) (q : Nat) (v : Sqr) : (s.setSqr q v).metaNext = s.metaNext := rfl
@[simp] theorem State.setSqr_fenbo (s : State) (q : Nat) (v : Sqr) : (s.setSqr q v).fenbo = s.fenbo := rfl
@[simp] theorem State.setSqr_snap (s : State) (q : Nat) (v : Sqr) : (s.setSqr q v).snap = s.snap := rfl
@[simp] theorem State.setSqr_bucketVi (s : State) (q : Nat) (v : Sqr) : (s.setSqr q v).bucketVi = s.bucketVi := rfl
@[simp] theorem State.setSqr_bucketPort (s : State) (q : Nat) (v : Sqr) : (s.setSqr q v).bucketPort = s.bucketPort := rfl
@[simp] theorem State.setSqr_shortAt (s : State) (q : Nat) (v : Sqr) : (s.setSqr q v).shortAt = s.shortAt := rfl
@[simp] theorem State.setSqr_ladder (s : State) (q : Nat) (v : Sqr) : (s.setSqr q v).ladder = s.ladder := rfl
@[simp] theorem State.setSqr_therm (s : State) (q : Nat) (v : Sqr) : (s.setSqr q v).therm = s.therm := rfl
@[simp] theorem State.setSqr_thermAt (s : State) (q : Nat) (v : Sqr) : (s.setSqr q v).thermAt = s.thermAt := rfl
@[simp] theorem State.setSqr_keyHash (s : State) (q : Nat) (v : Sqr) : (s.setSqr q v).keyHash = s.keyHash := rfl
@[simp] theorem State.setSqr_vdtThr (s : State) (q : Nat) (v : Sqr) : (s.setSqr q v).vdtThr = s.vdtThr := rfl
@[simp] theorem State.setSqr_free (s : State) (q : Nat) (v : Sqr) : (s.setSqr q v).free = s.free := rfl
@[simp] theorem State.setSqr_out (s : State) (q : Nat) (v : Sqr) : (s.setSqr q v).out = s.out := rfl

/-! ### setEng -/

@[simp] theorem State.setEng_pending (s : State) (e : Nat) (v : Engine) : (s.setEng e v).pending = s.pending := rfl
@[simp] theorem State.setEng_time (s : State) (e : Nat) (v : Engine) : (s.setEng e v).time = s.time := rfl
@[simp] theorem State.setEng_regs (s : State) (e : Nat) (v : Engine) : (s.setEng e v).regs = s.regs := rfl
@[simp] theorem State.setEng_media (s : State) (e : Nat) (v : Engine) : (s.setEng e v).media = s.media := rfl
@[simp] theorem State.setEng_flash (s : State) (e : Nat) (v : Engine) : (s.setEng e v).flash = s.flash := rfl
@[simp] theorem State.setEng_owner (s : State) (e : Nat) (v : Engine) : (s.setEng e v).owner = s.owner := rfl
@[simp] theorem State.setEng_pairs (s : State) (e : Nat) (v : Engine) : (s.setEng e v).pairs = s.pairs := rfl
@[simp] theorem State.setEng_heat (s : State) (e : Nat) (v : Engine) : (s.setEng e v).heat = s.heat := rfl
@[simp] theorem State.setEng_heatAt (s : State) (e : Nat) (v : Engine) : (s.setEng e v).heatAt = s.heatAt := rfl
@[simp] theorem State.setEng_decayAt (s : State) (e : Nat) (v : Engine) : (s.setEng e v).decayAt = s.decayAt := rfl
@[simp] theorem State.setEng_coolAt (s : State) (e : Nat) (v : Engine) : (s.setEng e v).coolAt = s.coolAt := rfl
@[simp] theorem State.setEng_moveAt (s : State) (e : Nat) (v : Engine) : (s.setEng e v).moveAt = s.moveAt := rfl
@[simp] theorem State.setEng_vis (s : State) (e : Nat) (v : Engine) : (s.setEng e v).vis = s.vis := rfl
@[simp] theorem State.setEng_extents (s : State) (e : Nat) (v : Engine) : (s.setEng e v).extents = s.extents := rfl
@[simp] theorem State.setEng_running (s : State) (e : Nat) (v : Engine) : (s.setEng e v).running = s.running := rfl
@[simp] theorem State.setEng_dirty (s : State) (e : Nat) (v : Engine) : (s.setEng e v).dirty = s.dirty := rfl
@[simp] theorem State.setEng_ports (s : State) (e : Nat) (v : Engine) : (s.setEng e v).ports = s.ports := rfl
@[simp] theorem State.setEng_lds (s : State) (e : Nat) (v : Engine) : (s.setEng e v).lds = s.lds := rfl
@[simp] theorem State.setEng_reqs (s : State) (e : Nat) (v : Engine) : (s.setEng e v).reqs = s.reqs := rfl
@[simp] theorem State.setEng_nextReq (s : State) (e : Nat) (v : Engine) : (s.setEng e v).nextReq = s.nextReq := rfl
@[simp] theorem State.setEng_walks (s : State) (e : Nat) (v : Engine) : (s.setEng e v).walks = s.walks := rfl
@[simp] theorem State.setEng_snoops (s : State) (e : Nat) (v : Engine) : (s.setEng e v).snoops = s.snoops := rfl
@[simp] theorem State.setEng_dir (s : State) (e : Nat) (v : Engine) : (s.setEng e v).dir = s.dir := rfl
@[simp] theorem State.setEng_dirStamp (s : State) (e : Nat) (v : Engine) : (s.setEng e v).dirStamp = s.dirStamp := rfl
@[simp] theorem State.setEng_piers (s : State) (e : Nat) (v : Engine) : (s.setEng e v).piers = s.piers := rfl
@[simp] theorem State.setEng_stripes (s : State) (e : Nat) (v : Engine) : (s.setEng e v).stripes = s.stripes := rfl
@[simp] theorem State.setEng_relocs (s : State) (e : Nat) (v : Engine) : (s.setEng e v).relocs = s.relocs := rfl
@[simp] theorem State.setEng_gcAt (s : State) (e : Nat) (v : Engine) : (s.setEng e v).gcAt = s.gcAt := rfl
@[simp] theorem State.setEng_shadows (s : State) (e : Nat) (v : Engine) : (s.setEng e v).shadows = s.shadows := rfl
@[simp] theorem State.setEng_moves (s : State) (e : Nat) (v : Engine) : (s.setEng e v).moves = s.moves := rfl
@[simp] theorem State.setEng_slots (s : State) (e : Nat) (v : Engine) : (s.setEng e v).slots = s.slots := rfl
@[simp] theorem State.setEng_kmap (s : State) (e : Nat) (v : Engine) : (s.setEng e v).kmap = s.kmap := rfl
@[simp] theorem State.setEng_stage (s : State) (e : Nat) (v : Engine) : (s.setEng e v).stage = s.stage := rfl
@[simp] theorem State.setEng_cc (s : State) (e : Nat) (v : Engine) : (s.setEng e v).cc = s.cc := rfl
@[simp] theorem State.setEng_links (s : State) (e : Nat) (v : Engine) : (s.setEng e v).links = s.links := rfl
@[simp] theorem State.setEng_sqrs (s : State) (e : Nat) (v : Engine) : (s.setEng e v).sqrs = s.sqrs := rfl
@[simp] theorem State.setEng_roles (s : State) (e : Nat) (v : Engine) : (s.setEng e v).roles = s.roles := rfl
@[simp] theorem State.setEng_key (s : State) (e : Nat) (v : Engine) : (s.setEng e v).key = s.key := rfl
@[simp] theorem State.setEng_mbx (s : State) (e : Nat) (v : Engine) : (s.setEng e v).mbx = s.mbx := rfl
@[simp] theorem State.setEng_policy (s : State) (e : Nat) (v : Engine) : (s.setEng e v).policy = s.policy := rfl
@[simp] theorem State.setEng_profile (s : State) (e : Nat) (v : Engine) : (s.setEng e v).profile = s.profile := rfl
@[simp] theorem State.setEng_custom (s : State) (e : Nat) (v : Engine) : (s.setEng e v).custom = s.custom := rfl
@[simp] theorem State.setEng_mq (s : State) (e : Nat) (v : Engine) : (s.setEng e v).mq = s.mq := rfl
@[simp] theorem State.setEng_missed (s : State) (e : Nat) (v : Engine) : (s.setEng e v).missed = s.missed := rfl
@[simp] theorem State.setEng_missedMax (s : State) (e : Nat) (v : Engine) : (s.setEng e v).missedMax = s.missedMax := rfl
@[simp] theorem State.setEng_errCap (s : State) (e : Nat) (v : Engine) : (s.setEng e v).errCap = s.errCap := rfl
@[simp] theorem State.setEng_alertAt (s : State) (e : Nat) (v : Engine) : (s.setEng e v).alertAt = s.alertAt := rfl
@[simp] theorem State.setEng_alerts (s : State) (e : Nat) (v : Engine) : (s.setEng e v).alerts = s.alerts := rfl
@[simp] theorem State.setEng_held (s : State) (e : Nat) (v : Engine) : (s.setEng e v).held = s.held := rfl
@[simp] theorem State.setEng_jnl (s : State) (e : Nat) (v : Engine) : (s.setEng e v).jnl = s.jnl := rfl
@[simp] theorem State.setEng_telSel (s : State) (e : Nat) (v : Engine) : (s.setEng e v).telSel = s.telSel := rfl
@[simp] theorem State.setEng_telCnt (s : State) (e : Nat) (v : Engine) : (s.setEng e v).telCnt = s.telCnt := rfl
@[simp] theorem State.setEng_lap (s : State) (e : Nat) (v : Engine) : (s.setEng e v).lap = s.lap := rfl
@[simp] theorem State.setEng_clk (s : State) (e : Nat) (v : Engine) : (s.setEng e v).clk = s.clk := rfl
@[simp] theorem State.setEng_pwr (s : State) (e : Nat) (v : Engine) : (s.setEng e v).pwr = s.pwr := rfl
@[simp] theorem State.setEng_aon (s : State) (e : Nat) (v : Engine) : (s.setEng e v).aon = s.aon := rfl
@[simp] theorem State.setEng_rails (s : State) (e : Nat) (v : Engine) : (s.setEng e v).rails = s.rails := rfl
@[simp] theorem State.setEng_img (s : State) (e : Nat) (v : Engine) : (s.setEng e v).img = s.img := rfl
@[simp] theorem State.setEng_locked (s : State) (e : Nat) (v : Engine) : (s.setEng e v).locked = s.locked := rfl
@[simp] theorem State.setEng_zeroFilled (s : State) (e : Nat) (v : Engine) : (s.setEng e v).zeroFilled = s.zeroFilled := rfl
@[simp] theorem State.setEng_metaSpan (s : State) (e : Nat) (v : Engine) : (s.setEng e v).metaSpan = s.metaSpan := rfl
@[simp] theorem State.setEng_metaNext (s : State) (e : Nat) (v : Engine) : (s.setEng e v).metaNext = s.metaNext := rfl
@[simp] theorem State.setEng_fenbo (s : State) (e : Nat) (v : Engine) : (s.setEng e v).fenbo = s.fenbo := rfl
@[simp] theorem State.setEng_snap (s : State) (e : Nat) (v : Engine) : (s.setEng e v).snap = s.snap := rfl
@[simp] theorem State.setEng_bucketVi (s : State) (e : Nat) (v : Engine) : (s.setEng e v).bucketVi = s.bucketVi := rfl
@[simp] theorem State.setEng_bucketPort (s : State) (e : Nat) (v : Engine) : (s.setEng e v).bucketPort = s.bucketPort := rfl
@[simp] theorem State.setEng_shortAt (s : State) (e : Nat) (v : Engine) : (s.setEng e v).shortAt = s.shortAt := rfl
@[simp] theorem State.setEng_ladder (s : State) (e : Nat) (v : Engine) : (s.setEng e v).ladder = s.ladder := rfl
@[simp] theorem State.setEng_therm (s : State) (e : Nat) (v : Engine) : (s.setEng e v).therm = s.therm := rfl
@[simp] theorem State.setEng_thermAt (s : State) (e : Nat) (v : Engine) : (s.setEng e v).thermAt = s.thermAt := rfl
@[simp] theorem State.setEng_keyHash (s : State) (e : Nat) (v : Engine) : (s.setEng e v).keyHash = s.keyHash := rfl
@[simp] theorem State.setEng_vdtThr (s : State) (e : Nat) (v : Engine) : (s.setEng e v).vdtThr = s.vdtThr := rfl
@[simp] theorem State.setEng_free (s : State) (e : Nat) (v : Engine) : (s.setEng e v).free = s.free := rfl
@[simp] theorem State.setEng_out (s : State) (e : Nat) (v : Engine) : (s.setEng e v).out = s.out := rfl

/-! ### setSlot -/

@[simp] theorem State.setSlot_pending (s : State) (k : Nat) (v : KSlot) : (s.setSlot k v).pending = s.pending := rfl
@[simp] theorem State.setSlot_time (s : State) (k : Nat) (v : KSlot) : (s.setSlot k v).time = s.time := rfl
@[simp] theorem State.setSlot_regs (s : State) (k : Nat) (v : KSlot) : (s.setSlot k v).regs = s.regs := rfl
@[simp] theorem State.setSlot_media (s : State) (k : Nat) (v : KSlot) : (s.setSlot k v).media = s.media := rfl
@[simp] theorem State.setSlot_flash (s : State) (k : Nat) (v : KSlot) : (s.setSlot k v).flash = s.flash := rfl
@[simp] theorem State.setSlot_owner (s : State) (k : Nat) (v : KSlot) : (s.setSlot k v).owner = s.owner := rfl
@[simp] theorem State.setSlot_pairs (s : State) (k : Nat) (v : KSlot) : (s.setSlot k v).pairs = s.pairs := rfl
@[simp] theorem State.setSlot_heat (s : State) (k : Nat) (v : KSlot) : (s.setSlot k v).heat = s.heat := rfl
@[simp] theorem State.setSlot_heatAt (s : State) (k : Nat) (v : KSlot) : (s.setSlot k v).heatAt = s.heatAt := rfl
@[simp] theorem State.setSlot_decayAt (s : State) (k : Nat) (v : KSlot) : (s.setSlot k v).decayAt = s.decayAt := rfl
@[simp] theorem State.setSlot_coolAt (s : State) (k : Nat) (v : KSlot) : (s.setSlot k v).coolAt = s.coolAt := rfl
@[simp] theorem State.setSlot_moveAt (s : State) (k : Nat) (v : KSlot) : (s.setSlot k v).moveAt = s.moveAt := rfl
@[simp] theorem State.setSlot_vis (s : State) (k : Nat) (v : KSlot) : (s.setSlot k v).vis = s.vis := rfl
@[simp] theorem State.setSlot_extents (s : State) (k : Nat) (v : KSlot) : (s.setSlot k v).extents = s.extents := rfl
@[simp] theorem State.setSlot_running (s : State) (k : Nat) (v : KSlot) : (s.setSlot k v).running = s.running := rfl
@[simp] theorem State.setSlot_dirty (s : State) (k : Nat) (v : KSlot) : (s.setSlot k v).dirty = s.dirty := rfl
@[simp] theorem State.setSlot_ports (s : State) (k : Nat) (v : KSlot) : (s.setSlot k v).ports = s.ports := rfl
@[simp] theorem State.setSlot_lds (s : State) (k : Nat) (v : KSlot) : (s.setSlot k v).lds = s.lds := rfl
@[simp] theorem State.setSlot_reqs (s : State) (k : Nat) (v : KSlot) : (s.setSlot k v).reqs = s.reqs := rfl
@[simp] theorem State.setSlot_nextReq (s : State) (k : Nat) (v : KSlot) : (s.setSlot k v).nextReq = s.nextReq := rfl
@[simp] theorem State.setSlot_walks (s : State) (k : Nat) (v : KSlot) : (s.setSlot k v).walks = s.walks := rfl
@[simp] theorem State.setSlot_snoops (s : State) (k : Nat) (v : KSlot) : (s.setSlot k v).snoops = s.snoops := rfl
@[simp] theorem State.setSlot_dir (s : State) (k : Nat) (v : KSlot) : (s.setSlot k v).dir = s.dir := rfl
@[simp] theorem State.setSlot_dirStamp (s : State) (k : Nat) (v : KSlot) : (s.setSlot k v).dirStamp = s.dirStamp := rfl
@[simp] theorem State.setSlot_piers (s : State) (k : Nat) (v : KSlot) : (s.setSlot k v).piers = s.piers := rfl
@[simp] theorem State.setSlot_stripes (s : State) (k : Nat) (v : KSlot) : (s.setSlot k v).stripes = s.stripes := rfl
@[simp] theorem State.setSlot_relocs (s : State) (k : Nat) (v : KSlot) : (s.setSlot k v).relocs = s.relocs := rfl
@[simp] theorem State.setSlot_gcAt (s : State) (k : Nat) (v : KSlot) : (s.setSlot k v).gcAt = s.gcAt := rfl
@[simp] theorem State.setSlot_shadows (s : State) (k : Nat) (v : KSlot) : (s.setSlot k v).shadows = s.shadows := rfl
@[simp] theorem State.setSlot_moves (s : State) (k : Nat) (v : KSlot) : (s.setSlot k v).moves = s.moves := rfl
@[simp] theorem State.setSlot_kmap (s : State) (k : Nat) (v : KSlot) : (s.setSlot k v).kmap = s.kmap := rfl
@[simp] theorem State.setSlot_stage (s : State) (k : Nat) (v : KSlot) : (s.setSlot k v).stage = s.stage := rfl
@[simp] theorem State.setSlot_cc (s : State) (k : Nat) (v : KSlot) : (s.setSlot k v).cc = s.cc := rfl
@[simp] theorem State.setSlot_links (s : State) (k : Nat) (v : KSlot) : (s.setSlot k v).links = s.links := rfl
@[simp] theorem State.setSlot_sqrs (s : State) (k : Nat) (v : KSlot) : (s.setSlot k v).sqrs = s.sqrs := rfl
@[simp] theorem State.setSlot_engines (s : State) (k : Nat) (v : KSlot) : (s.setSlot k v).engines = s.engines := rfl
@[simp] theorem State.setSlot_roles (s : State) (k : Nat) (v : KSlot) : (s.setSlot k v).roles = s.roles := rfl
@[simp] theorem State.setSlot_key (s : State) (k : Nat) (v : KSlot) : (s.setSlot k v).key = s.key := rfl
@[simp] theorem State.setSlot_mbx (s : State) (k : Nat) (v : KSlot) : (s.setSlot k v).mbx = s.mbx := rfl
@[simp] theorem State.setSlot_policy (s : State) (k : Nat) (v : KSlot) : (s.setSlot k v).policy = s.policy := rfl
@[simp] theorem State.setSlot_profile (s : State) (k : Nat) (v : KSlot) : (s.setSlot k v).profile = s.profile := rfl
@[simp] theorem State.setSlot_custom (s : State) (k : Nat) (v : KSlot) : (s.setSlot k v).custom = s.custom := rfl
@[simp] theorem State.setSlot_mq (s : State) (k : Nat) (v : KSlot) : (s.setSlot k v).mq = s.mq := rfl
@[simp] theorem State.setSlot_missed (s : State) (k : Nat) (v : KSlot) : (s.setSlot k v).missed = s.missed := rfl
@[simp] theorem State.setSlot_missedMax (s : State) (k : Nat) (v : KSlot) : (s.setSlot k v).missedMax = s.missedMax := rfl
@[simp] theorem State.setSlot_errCap (s : State) (k : Nat) (v : KSlot) : (s.setSlot k v).errCap = s.errCap := rfl
@[simp] theorem State.setSlot_alertAt (s : State) (k : Nat) (v : KSlot) : (s.setSlot k v).alertAt = s.alertAt := rfl
@[simp] theorem State.setSlot_alerts (s : State) (k : Nat) (v : KSlot) : (s.setSlot k v).alerts = s.alerts := rfl
@[simp] theorem State.setSlot_held (s : State) (k : Nat) (v : KSlot) : (s.setSlot k v).held = s.held := rfl
@[simp] theorem State.setSlot_jnl (s : State) (k : Nat) (v : KSlot) : (s.setSlot k v).jnl = s.jnl := rfl
@[simp] theorem State.setSlot_telSel (s : State) (k : Nat) (v : KSlot) : (s.setSlot k v).telSel = s.telSel := rfl
@[simp] theorem State.setSlot_telCnt (s : State) (k : Nat) (v : KSlot) : (s.setSlot k v).telCnt = s.telCnt := rfl
@[simp] theorem State.setSlot_lap (s : State) (k : Nat) (v : KSlot) : (s.setSlot k v).lap = s.lap := rfl
@[simp] theorem State.setSlot_clk (s : State) (k : Nat) (v : KSlot) : (s.setSlot k v).clk = s.clk := rfl
@[simp] theorem State.setSlot_pwr (s : State) (k : Nat) (v : KSlot) : (s.setSlot k v).pwr = s.pwr := rfl
@[simp] theorem State.setSlot_aon (s : State) (k : Nat) (v : KSlot) : (s.setSlot k v).aon = s.aon := rfl
@[simp] theorem State.setSlot_rails (s : State) (k : Nat) (v : KSlot) : (s.setSlot k v).rails = s.rails := rfl
@[simp] theorem State.setSlot_img (s : State) (k : Nat) (v : KSlot) : (s.setSlot k v).img = s.img := rfl
@[simp] theorem State.setSlot_locked (s : State) (k : Nat) (v : KSlot) : (s.setSlot k v).locked = s.locked := rfl
@[simp] theorem State.setSlot_zeroFilled (s : State) (k : Nat) (v : KSlot) : (s.setSlot k v).zeroFilled = s.zeroFilled := rfl
@[simp] theorem State.setSlot_metaSpan (s : State) (k : Nat) (v : KSlot) : (s.setSlot k v).metaSpan = s.metaSpan := rfl
@[simp] theorem State.setSlot_metaNext (s : State) (k : Nat) (v : KSlot) : (s.setSlot k v).metaNext = s.metaNext := rfl
@[simp] theorem State.setSlot_fenbo (s : State) (k : Nat) (v : KSlot) : (s.setSlot k v).fenbo = s.fenbo := rfl
@[simp] theorem State.setSlot_snap (s : State) (k : Nat) (v : KSlot) : (s.setSlot k v).snap = s.snap := rfl
@[simp] theorem State.setSlot_bucketVi (s : State) (k : Nat) (v : KSlot) : (s.setSlot k v).bucketVi = s.bucketVi := rfl
@[simp] theorem State.setSlot_bucketPort (s : State) (k : Nat) (v : KSlot) : (s.setSlot k v).bucketPort = s.bucketPort := rfl
@[simp] theorem State.setSlot_shortAt (s : State) (k : Nat) (v : KSlot) : (s.setSlot k v).shortAt = s.shortAt := rfl
@[simp] theorem State.setSlot_ladder (s : State) (k : Nat) (v : KSlot) : (s.setSlot k v).ladder = s.ladder := rfl
@[simp] theorem State.setSlot_therm (s : State) (k : Nat) (v : KSlot) : (s.setSlot k v).therm = s.therm := rfl
@[simp] theorem State.setSlot_thermAt (s : State) (k : Nat) (v : KSlot) : (s.setSlot k v).thermAt = s.thermAt := rfl
@[simp] theorem State.setSlot_keyHash (s : State) (k : Nat) (v : KSlot) : (s.setSlot k v).keyHash = s.keyHash := rfl
@[simp] theorem State.setSlot_vdtThr (s : State) (k : Nat) (v : KSlot) : (s.setSlot k v).vdtThr = s.vdtThr := rfl
@[simp] theorem State.setSlot_free (s : State) (k : Nat) (v : KSlot) : (s.setSlot k v).free = s.free := rfl
@[simp] theorem State.setSlot_out (s : State) (k : Nat) (v : KSlot) : (s.setSlot k v).out = s.out := rfl

/-! ### setStripe -/

@[simp] theorem State.setStripe_pending (s : State) (k : Nat) (v : Stripe) : (s.setStripe k v).pending = s.pending := rfl
@[simp] theorem State.setStripe_time (s : State) (k : Nat) (v : Stripe) : (s.setStripe k v).time = s.time := rfl
@[simp] theorem State.setStripe_regs (s : State) (k : Nat) (v : Stripe) : (s.setStripe k v).regs = s.regs := rfl
@[simp] theorem State.setStripe_media (s : State) (k : Nat) (v : Stripe) : (s.setStripe k v).media = s.media := rfl
@[simp] theorem State.setStripe_flash (s : State) (k : Nat) (v : Stripe) : (s.setStripe k v).flash = s.flash := rfl
@[simp] theorem State.setStripe_owner (s : State) (k : Nat) (v : Stripe) : (s.setStripe k v).owner = s.owner := rfl
@[simp] theorem State.setStripe_pairs (s : State) (k : Nat) (v : Stripe) : (s.setStripe k v).pairs = s.pairs := rfl
@[simp] theorem State.setStripe_heat (s : State) (k : Nat) (v : Stripe) : (s.setStripe k v).heat = s.heat := rfl
@[simp] theorem State.setStripe_heatAt (s : State) (k : Nat) (v : Stripe) : (s.setStripe k v).heatAt = s.heatAt := rfl
@[simp] theorem State.setStripe_decayAt (s : State) (k : Nat) (v : Stripe) : (s.setStripe k v).decayAt = s.decayAt := rfl
@[simp] theorem State.setStripe_coolAt (s : State) (k : Nat) (v : Stripe) : (s.setStripe k v).coolAt = s.coolAt := rfl
@[simp] theorem State.setStripe_moveAt (s : State) (k : Nat) (v : Stripe) : (s.setStripe k v).moveAt = s.moveAt := rfl
@[simp] theorem State.setStripe_vis (s : State) (k : Nat) (v : Stripe) : (s.setStripe k v).vis = s.vis := rfl
@[simp] theorem State.setStripe_extents (s : State) (k : Nat) (v : Stripe) : (s.setStripe k v).extents = s.extents := rfl
@[simp] theorem State.setStripe_running (s : State) (k : Nat) (v : Stripe) : (s.setStripe k v).running = s.running := rfl
@[simp] theorem State.setStripe_dirty (s : State) (k : Nat) (v : Stripe) : (s.setStripe k v).dirty = s.dirty := rfl
@[simp] theorem State.setStripe_ports (s : State) (k : Nat) (v : Stripe) : (s.setStripe k v).ports = s.ports := rfl
@[simp] theorem State.setStripe_lds (s : State) (k : Nat) (v : Stripe) : (s.setStripe k v).lds = s.lds := rfl
@[simp] theorem State.setStripe_reqs (s : State) (k : Nat) (v : Stripe) : (s.setStripe k v).reqs = s.reqs := rfl
@[simp] theorem State.setStripe_nextReq (s : State) (k : Nat) (v : Stripe) : (s.setStripe k v).nextReq = s.nextReq := rfl
@[simp] theorem State.setStripe_walks (s : State) (k : Nat) (v : Stripe) : (s.setStripe k v).walks = s.walks := rfl
@[simp] theorem State.setStripe_snoops (s : State) (k : Nat) (v : Stripe) : (s.setStripe k v).snoops = s.snoops := rfl
@[simp] theorem State.setStripe_dir (s : State) (k : Nat) (v : Stripe) : (s.setStripe k v).dir = s.dir := rfl
@[simp] theorem State.setStripe_dirStamp (s : State) (k : Nat) (v : Stripe) : (s.setStripe k v).dirStamp = s.dirStamp := rfl
@[simp] theorem State.setStripe_piers (s : State) (k : Nat) (v : Stripe) : (s.setStripe k v).piers = s.piers := rfl
@[simp] theorem State.setStripe_relocs (s : State) (k : Nat) (v : Stripe) : (s.setStripe k v).relocs = s.relocs := rfl
@[simp] theorem State.setStripe_gcAt (s : State) (k : Nat) (v : Stripe) : (s.setStripe k v).gcAt = s.gcAt := rfl
@[simp] theorem State.setStripe_shadows (s : State) (k : Nat) (v : Stripe) : (s.setStripe k v).shadows = s.shadows := rfl
@[simp] theorem State.setStripe_moves (s : State) (k : Nat) (v : Stripe) : (s.setStripe k v).moves = s.moves := rfl
@[simp] theorem State.setStripe_slots (s : State) (k : Nat) (v : Stripe) : (s.setStripe k v).slots = s.slots := rfl
@[simp] theorem State.setStripe_kmap (s : State) (k : Nat) (v : Stripe) : (s.setStripe k v).kmap = s.kmap := rfl
@[simp] theorem State.setStripe_stage (s : State) (k : Nat) (v : Stripe) : (s.setStripe k v).stage = s.stage := rfl
@[simp] theorem State.setStripe_cc (s : State) (k : Nat) (v : Stripe) : (s.setStripe k v).cc = s.cc := rfl
@[simp] theorem State.setStripe_links (s : State) (k : Nat) (v : Stripe) : (s.setStripe k v).links = s.links := rfl
@[simp] theorem State.setStripe_sqrs (s : State) (k : Nat) (v : Stripe) : (s.setStripe k v).sqrs = s.sqrs := rfl
@[simp] theorem State.setStripe_engines (s : State) (k : Nat) (v : Stripe) : (s.setStripe k v).engines = s.engines := rfl
@[simp] theorem State.setStripe_roles (s : State) (k : Nat) (v : Stripe) : (s.setStripe k v).roles = s.roles := rfl
@[simp] theorem State.setStripe_key (s : State) (k : Nat) (v : Stripe) : (s.setStripe k v).key = s.key := rfl
@[simp] theorem State.setStripe_mbx (s : State) (k : Nat) (v : Stripe) : (s.setStripe k v).mbx = s.mbx := rfl
@[simp] theorem State.setStripe_policy (s : State) (k : Nat) (v : Stripe) : (s.setStripe k v).policy = s.policy := rfl
@[simp] theorem State.setStripe_profile (s : State) (k : Nat) (v : Stripe) : (s.setStripe k v).profile = s.profile := rfl
@[simp] theorem State.setStripe_custom (s : State) (k : Nat) (v : Stripe) : (s.setStripe k v).custom = s.custom := rfl
@[simp] theorem State.setStripe_mq (s : State) (k : Nat) (v : Stripe) : (s.setStripe k v).mq = s.mq := rfl
@[simp] theorem State.setStripe_missed (s : State) (k : Nat) (v : Stripe) : (s.setStripe k v).missed = s.missed := rfl
@[simp] theorem State.setStripe_missedMax (s : State) (k : Nat) (v : Stripe) : (s.setStripe k v).missedMax = s.missedMax := rfl
@[simp] theorem State.setStripe_errCap (s : State) (k : Nat) (v : Stripe) : (s.setStripe k v).errCap = s.errCap := rfl
@[simp] theorem State.setStripe_alertAt (s : State) (k : Nat) (v : Stripe) : (s.setStripe k v).alertAt = s.alertAt := rfl
@[simp] theorem State.setStripe_alerts (s : State) (k : Nat) (v : Stripe) : (s.setStripe k v).alerts = s.alerts := rfl
@[simp] theorem State.setStripe_held (s : State) (k : Nat) (v : Stripe) : (s.setStripe k v).held = s.held := rfl
@[simp] theorem State.setStripe_jnl (s : State) (k : Nat) (v : Stripe) : (s.setStripe k v).jnl = s.jnl := rfl
@[simp] theorem State.setStripe_telSel (s : State) (k : Nat) (v : Stripe) : (s.setStripe k v).telSel = s.telSel := rfl
@[simp] theorem State.setStripe_telCnt (s : State) (k : Nat) (v : Stripe) : (s.setStripe k v).telCnt = s.telCnt := rfl
@[simp] theorem State.setStripe_lap (s : State) (k : Nat) (v : Stripe) : (s.setStripe k v).lap = s.lap := rfl
@[simp] theorem State.setStripe_clk (s : State) (k : Nat) (v : Stripe) : (s.setStripe k v).clk = s.clk := rfl
@[simp] theorem State.setStripe_pwr (s : State) (k : Nat) (v : Stripe) : (s.setStripe k v).pwr = s.pwr := rfl
@[simp] theorem State.setStripe_aon (s : State) (k : Nat) (v : Stripe) : (s.setStripe k v).aon = s.aon := rfl
@[simp] theorem State.setStripe_rails (s : State) (k : Nat) (v : Stripe) : (s.setStripe k v).rails = s.rails := rfl
@[simp] theorem State.setStripe_img (s : State) (k : Nat) (v : Stripe) : (s.setStripe k v).img = s.img := rfl
@[simp] theorem State.setStripe_locked (s : State) (k : Nat) (v : Stripe) : (s.setStripe k v).locked = s.locked := rfl
@[simp] theorem State.setStripe_zeroFilled (s : State) (k : Nat) (v : Stripe) : (s.setStripe k v).zeroFilled = s.zeroFilled := rfl
@[simp] theorem State.setStripe_metaSpan (s : State) (k : Nat) (v : Stripe) : (s.setStripe k v).metaSpan = s.metaSpan := rfl
@[simp] theorem State.setStripe_metaNext (s : State) (k : Nat) (v : Stripe) : (s.setStripe k v).metaNext = s.metaNext := rfl
@[simp] theorem State.setStripe_fenbo (s : State) (k : Nat) (v : Stripe) : (s.setStripe k v).fenbo = s.fenbo := rfl
@[simp] theorem State.setStripe_snap (s : State) (k : Nat) (v : Stripe) : (s.setStripe k v).snap = s.snap := rfl
@[simp] theorem State.setStripe_bucketVi (s : State) (k : Nat) (v : Stripe) : (s.setStripe k v).bucketVi = s.bucketVi := rfl
@[simp] theorem State.setStripe_bucketPort (s : State) (k : Nat) (v : Stripe) : (s.setStripe k v).bucketPort = s.bucketPort := rfl
@[simp] theorem State.setStripe_shortAt (s : State) (k : Nat) (v : Stripe) : (s.setStripe k v).shortAt = s.shortAt := rfl
@[simp] theorem State.setStripe_ladder (s : State) (k : Nat) (v : Stripe) : (s.setStripe k v).ladder = s.ladder := rfl
@[simp] theorem State.setStripe_therm (s : State) (k : Nat) (v : Stripe) : (s.setStripe k v).therm = s.therm := rfl
@[simp] theorem State.setStripe_thermAt (s : State) (k : Nat) (v : Stripe) : (s.setStripe k v).thermAt = s.thermAt := rfl
@[simp] theorem State.setStripe_keyHash (s : State) (k : Nat) (v : Stripe) : (s.setStripe k v).keyHash = s.keyHash := rfl
@[simp] theorem State.setStripe_vdtThr (s : State) (k : Nat) (v : Stripe) : (s.setStripe k v).vdtThr = s.vdtThr := rfl
@[simp] theorem State.setStripe_free (s : State) (k : Nat) (v : Stripe) : (s.setStripe k v).free = s.free := rfl
@[simp] theorem State.setStripe_out (s : State) (k : Nat) (v : Stripe) : (s.setStripe k v).out = s.out := rfl

/-! ### setReq -/

@[simp] theorem State.setReq_pending (s : State) (id : Nat) (r : Req) : (s.setReq id r).pending = s.pending := rfl
@[simp] theorem State.setReq_time (s : State) (id : Nat) (r : Req) : (s.setReq id r).time = s.time := rfl
@[simp] theorem State.setReq_regs (s : State) (id : Nat) (r : Req) : (s.setReq id r).regs = s.regs := rfl
@[simp] theorem State.setReq_media (s : State) (id : Nat) (r : Req) : (s.setReq id r).media = s.media := rfl
@[simp] theorem State.setReq_flash (s : State) (id : Nat) (r : Req) : (s.setReq id r).flash = s.flash := rfl
@[simp] theorem State.setReq_owner (s : State) (id : Nat) (r : Req) : (s.setReq id r).owner = s.owner := rfl
@[simp] theorem State.setReq_pairs (s : State) (id : Nat) (r : Req) : (s.setReq id r).pairs = s.pairs := rfl
@[simp] theorem State.setReq_heat (s : State) (id : Nat) (r : Req) : (s.setReq id r).heat = s.heat := rfl
@[simp] theorem State.setReq_heatAt (s : State) (id : Nat) (r : Req) : (s.setReq id r).heatAt = s.heatAt := rfl
@[simp] theorem State.setReq_decayAt (s : State) (id : Nat) (r : Req) : (s.setReq id r).decayAt = s.decayAt := rfl
@[simp] theorem State.setReq_coolAt (s : State) (id : Nat) (r : Req) : (s.setReq id r).coolAt = s.coolAt := rfl
@[simp] theorem State.setReq_moveAt (s : State) (id : Nat) (r : Req) : (s.setReq id r).moveAt = s.moveAt := rfl
@[simp] theorem State.setReq_vis (s : State) (id : Nat) (r : Req) : (s.setReq id r).vis = s.vis := rfl
@[simp] theorem State.setReq_extents (s : State) (id : Nat) (r : Req) : (s.setReq id r).extents = s.extents := rfl
@[simp] theorem State.setReq_running (s : State) (id : Nat) (r : Req) : (s.setReq id r).running = s.running := rfl
@[simp] theorem State.setReq_dirty (s : State) (id : Nat) (r : Req) : (s.setReq id r).dirty = s.dirty := rfl
@[simp] theorem State.setReq_ports (s : State) (id : Nat) (r : Req) : (s.setReq id r).ports = s.ports := rfl
@[simp] theorem State.setReq_lds (s : State) (id : Nat) (r : Req) : (s.setReq id r).lds = s.lds := rfl
@[simp] theorem State.setReq_nextReq (s : State) (id : Nat) (r : Req) : (s.setReq id r).nextReq = s.nextReq := rfl
@[simp] theorem State.setReq_walks (s : State) (id : Nat) (r : Req) : (s.setReq id r).walks = s.walks := rfl
@[simp] theorem State.setReq_snoops (s : State) (id : Nat) (r : Req) : (s.setReq id r).snoops = s.snoops := rfl
@[simp] theorem State.setReq_dir (s : State) (id : Nat) (r : Req) : (s.setReq id r).dir = s.dir := rfl
@[simp] theorem State.setReq_dirStamp (s : State) (id : Nat) (r : Req) : (s.setReq id r).dirStamp = s.dirStamp := rfl
@[simp] theorem State.setReq_piers (s : State) (id : Nat) (r : Req) : (s.setReq id r).piers = s.piers := rfl
@[simp] theorem State.setReq_stripes (s : State) (id : Nat) (r : Req) : (s.setReq id r).stripes = s.stripes := rfl
@[simp] theorem State.setReq_relocs (s : State) (id : Nat) (r : Req) : (s.setReq id r).relocs = s.relocs := rfl
@[simp] theorem State.setReq_gcAt (s : State) (id : Nat) (r : Req) : (s.setReq id r).gcAt = s.gcAt := rfl
@[simp] theorem State.setReq_shadows (s : State) (id : Nat) (r : Req) : (s.setReq id r).shadows = s.shadows := rfl
@[simp] theorem State.setReq_moves (s : State) (id : Nat) (r : Req) : (s.setReq id r).moves = s.moves := rfl
@[simp] theorem State.setReq_slots (s : State) (id : Nat) (r : Req) : (s.setReq id r).slots = s.slots := rfl
@[simp] theorem State.setReq_kmap (s : State) (id : Nat) (r : Req) : (s.setReq id r).kmap = s.kmap := rfl
@[simp] theorem State.setReq_stage (s : State) (id : Nat) (r : Req) : (s.setReq id r).stage = s.stage := rfl
@[simp] theorem State.setReq_cc (s : State) (id : Nat) (r : Req) : (s.setReq id r).cc = s.cc := rfl
@[simp] theorem State.setReq_links (s : State) (id : Nat) (r : Req) : (s.setReq id r).links = s.links := rfl
@[simp] theorem State.setReq_sqrs (s : State) (id : Nat) (r : Req) : (s.setReq id r).sqrs = s.sqrs := rfl
@[simp] theorem State.setReq_engines (s : State) (id : Nat) (r : Req) : (s.setReq id r).engines = s.engines := rfl
@[simp] theorem State.setReq_roles (s : State) (id : Nat) (r : Req) : (s.setReq id r).roles = s.roles := rfl
@[simp] theorem State.setReq_key (s : State) (id : Nat) (r : Req) : (s.setReq id r).key = s.key := rfl
@[simp] theorem State.setReq_mbx (s : State) (id : Nat) (r : Req) : (s.setReq id r).mbx = s.mbx := rfl
@[simp] theorem State.setReq_policy (s : State) (id : Nat) (r : Req) : (s.setReq id r).policy = s.policy := rfl
@[simp] theorem State.setReq_profile (s : State) (id : Nat) (r : Req) : (s.setReq id r).profile = s.profile := rfl
@[simp] theorem State.setReq_custom (s : State) (id : Nat) (r : Req) : (s.setReq id r).custom = s.custom := rfl
@[simp] theorem State.setReq_mq (s : State) (id : Nat) (r : Req) : (s.setReq id r).mq = s.mq := rfl
@[simp] theorem State.setReq_missed (s : State) (id : Nat) (r : Req) : (s.setReq id r).missed = s.missed := rfl
@[simp] theorem State.setReq_missedMax (s : State) (id : Nat) (r : Req) : (s.setReq id r).missedMax = s.missedMax := rfl
@[simp] theorem State.setReq_errCap (s : State) (id : Nat) (r : Req) : (s.setReq id r).errCap = s.errCap := rfl
@[simp] theorem State.setReq_alertAt (s : State) (id : Nat) (r : Req) : (s.setReq id r).alertAt = s.alertAt := rfl
@[simp] theorem State.setReq_alerts (s : State) (id : Nat) (r : Req) : (s.setReq id r).alerts = s.alerts := rfl
@[simp] theorem State.setReq_held (s : State) (id : Nat) (r : Req) : (s.setReq id r).held = s.held := rfl
@[simp] theorem State.setReq_jnl (s : State) (id : Nat) (r : Req) : (s.setReq id r).jnl = s.jnl := rfl
@[simp] theorem State.setReq_telSel (s : State) (id : Nat) (r : Req) : (s.setReq id r).telSel = s.telSel := rfl
@[simp] theorem State.setReq_telCnt (s : State) (id : Nat) (r : Req) : (s.setReq id r).telCnt = s.telCnt := rfl
@[simp] theorem State.setReq_lap (s : State) (id : Nat) (r : Req) : (s.setReq id r).lap = s.lap := rfl
@[simp] theorem State.setReq_clk (s : State) (id : Nat) (r : Req) : (s.setReq id r).clk = s.clk := rfl
@[simp] theorem State.setReq_pwr (s : State) (id : Nat) (r : Req) : (s.setReq id r).pwr = s.pwr := rfl
@[simp] theorem State.setReq_aon (s : State) (id : Nat) (r : Req) : (s.setReq id r).aon = s.aon := rfl
@[simp] theorem State.setReq_rails (s : State) (id : Nat) (r : Req) : (s.setReq id r).rails = s.rails := rfl
@[simp] theorem State.setReq_img (s : State) (id : Nat) (r : Req) : (s.setReq id r).img = s.img := rfl
@[simp] theorem State.setReq_locked (s : State) (id : Nat) (r : Req) : (s.setReq id r).locked = s.locked := rfl
@[simp] theorem State.setReq_zeroFilled (s : State) (id : Nat) (r : Req) : (s.setReq id r).zeroFilled = s.zeroFilled := rfl
@[simp] theorem State.setReq_metaSpan (s : State) (id : Nat) (r : Req) : (s.setReq id r).metaSpan = s.metaSpan := rfl
@[simp] theorem State.setReq_metaNext (s : State) (id : Nat) (r : Req) : (s.setReq id r).metaNext = s.metaNext := rfl
@[simp] theorem State.setReq_fenbo (s : State) (id : Nat) (r : Req) : (s.setReq id r).fenbo = s.fenbo := rfl
@[simp] theorem State.setReq_snap (s : State) (id : Nat) (r : Req) : (s.setReq id r).snap = s.snap := rfl
@[simp] theorem State.setReq_bucketVi (s : State) (id : Nat) (r : Req) : (s.setReq id r).bucketVi = s.bucketVi := rfl
@[simp] theorem State.setReq_bucketPort (s : State) (id : Nat) (r : Req) : (s.setReq id r).bucketPort = s.bucketPort := rfl
@[simp] theorem State.setReq_shortAt (s : State) (id : Nat) (r : Req) : (s.setReq id r).shortAt = s.shortAt := rfl
@[simp] theorem State.setReq_ladder (s : State) (id : Nat) (r : Req) : (s.setReq id r).ladder = s.ladder := rfl
@[simp] theorem State.setReq_therm (s : State) (id : Nat) (r : Req) : (s.setReq id r).therm = s.therm := rfl
@[simp] theorem State.setReq_thermAt (s : State) (id : Nat) (r : Req) : (s.setReq id r).thermAt = s.thermAt := rfl
@[simp] theorem State.setReq_keyHash (s : State) (id : Nat) (r : Req) : (s.setReq id r).keyHash = s.keyHash := rfl
@[simp] theorem State.setReq_vdtThr (s : State) (id : Nat) (r : Req) : (s.setReq id r).vdtThr = s.vdtThr := rfl
@[simp] theorem State.setReq_free (s : State) (id : Nat) (r : Req) : (s.setReq id r).free = s.free := rfl
@[simp] theorem State.setReq_out (s : State) (id : Nat) (r : Req) : (s.setReq id r).out = s.out := rfl

/-! ### What was set reads back -/

@[simp] theorem State.vi_setVi (s : State) (t : Nat) (v : Vi) : (s.setVi t v).vi t = v := by
  simp [State.vi, State.setVi]
theorem State.vi_setVi_other (s : State) {t j : Nat} (v : Vi) (h : j ≠ t) : (s.setVi t v).vi j = s.vi j := by
  simp [State.vi, State.setVi, SMap.getD_put_other _ _ _ h]

@[simp] theorem State.prt_setPrt (s : State) (p : Nat) (v : Prt) : (s.setPrt p v).prt p = v := by
  simp [State.prt, State.setPrt]
theorem State.prt_setPrt_other (s : State) {p j : Nat} (v : Prt) (h : j ≠ p) : (s.setPrt p v).prt j = s.prt j := by
  simp [State.prt, State.setPrt, SMap.getD_put_other _ _ _ h]

@[simp] theorem State.pier_setPier (s : State) (n : Nat) (v : Pr) : (s.setPier n v).pier n = v := by
  simp [State.pier, State.setPier]
theorem State.pier_setPier_other (s : State) {n j : Nat} (v : Pr) (h : j ≠ n) : (s.setPier n v).pier j = s.pier j := by
  simp [State.pier, State.setPier, SMap.getD_put_other _ _ _ h]

@[simp] theorem State.link_setLink (s : State) (l : Nat) (v : Lnk) : (s.setLink l v).link l = v := by
  simp [State.link, State.setLink]
theorem State.link_setLink_other (s : State) {l j : Nat} (v : Lnk) (h : j ≠ l) : (s.setLink l v).link j = s.link j := by
  simp [State.link, State.setLink, SMap.getD_put_other _ _ _ h]

@[simp] theorem State.sqr_setSqr (s : State) (q : Nat) (v : Sqr) : (s.setSqr q v).sqr q = v := by
  simp [State.sqr, State.setSqr]
theorem State.sqr_setSqr_other (s : State) {q j : Nat} (v : Sqr) (h : j ≠ q) : (s.setSqr q v).sqr j = s.sqr j := by
  simp [State.sqr, State.setSqr, SMap.getD_put_other _ _ _ h]

@[simp] theorem State.eng_setEng (s : State) (e : Nat) (v : Engine) : (s.setEng e v).eng e = v := by
  simp [State.eng, State.setEng]
theorem State.eng_setEng_other (s : State) {e j : Nat} (v : Engine) (h : j ≠ e) : (s.setEng e v).eng j = s.eng j := by
  simp [State.eng, State.setEng, SMap.getD_put_other _ _ _ h]

@[simp] theorem State.slot_setSlot (s : State) (k : Nat) (v : KSlot) : (s.setSlot k v).slot k = v := by
  simp [State.slot, State.setSlot]
theorem State.slot_setSlot_other (s : State) {k j : Nat} (v : KSlot) (h : j ≠ k) : (s.setSlot k v).slot j = s.slot j := by
  simp [State.slot, State.setSlot, SMap.getD_put_other _ _ _ h]

@[simp] theorem State.stripe_setStripe (s : State) (k : Nat) (v : Stripe) : (s.setStripe k v).stripe k = v := by
  simp [State.stripe, State.setStripe]
theorem State.stripe_setStripe_other (s : State) {k j : Nat} (v : Stripe) (h : j ≠ k) : (s.setStripe k v).stripe j = s.stripe j := by
  simp [State.stripe, State.setStripe, SMap.getD_put_other _ _ _ h]

@[simp] theorem State.ldev_setLdev (s : State) (p ld : Nat) (v : LogDev) : (s.setLdev p ld v).ldev p ld = v := by
  simp [State.ldev, State.setLdev]

@[simp] theorem State.req?_setReq (s : State) (id : Nat) (r : Req) : (s.setReq id r).req? id = some r := by
  simp [State.req?, State.setReq]
theorem State.req?_setReq_other (s : State) {id j : Nat} (r : Req) (h : j ≠ id) : (s.setReq id r).req? j = s.req? j := by
  simp [State.req?, State.setReq, SMap.get?_put_other _ _ h]

/-! ### Register fields -/

@[simp] theorem State.fld_put (s : State) (pg : Nat) (f : Fld) (v : Nat) : (s.put pg f v).fld pg f = v % 2 ^ f.width := by
  simp [State.fld, State.put]
theorem State.fld_put_other (s : State) {pg qg : Nat} {f g : Fld} (v : Nat) (h : regKey qg g ≠ regKey pg f) :
    (s.put pg f v).fld qg g = s.fld qg g := by
  simp [State.fld, State.put, SMap.getD_put_other _ _ _ h]

@[simp] theorem State.emit_fld (s : State) (o : Out) (pg : Nat) (f : Fld) : (s.emit o).fld pg f = s.fld pg f := rfl
@[simp] theorem State.tick_fld (s : State) (pg : Nat) (f : Fld) : (s.tick).fld pg f = s.fld pg f := rfl
@[simp] theorem State.setVi_fld (s : State) (t : Nat) (v : Vi) (pg : Nat) (f : Fld) : (s.setVi t v).fld pg f = s.fld pg f := rfl
@[simp] theorem State.setPrt_fld (s : State) (p : Nat) (v : Prt) (pg : Nat) (f : Fld) : (s.setPrt p v).fld pg f = s.fld pg f := rfl
@[simp] theorem State.setPier_fld (s : State) (n : Nat) (v : Pr) (pg : Nat) (f : Fld) : (s.setPier n v).fld pg f = s.fld pg f := rfl
@[simp] theorem State.setLdev_fld (s : State) (p ld : Nat) (v : LogDev) (pg : Nat) (f : Fld) : (s.setLdev p ld v).fld pg f = s.fld pg f := rfl
@[simp] theorem State.setLink_fld (s : State) (l : Nat) (v : Lnk) (pg : Nat) (f : Fld) : (s.setLink l v).fld pg f = s.fld pg f := rfl
@[simp] theorem State.setSqr_fld (s : State) (q : Nat) (v : Sqr) (pg : Nat) (f : Fld) : (s.setSqr q v).fld pg f = s.fld pg f := rfl
@[simp] theorem State.setEng_fld (s : State) (e : Nat) (v : Engine) (pg : Nat) (f : Fld) : (s.setEng e v).fld pg f = s.fld pg f := rfl
@[simp] theorem State.setSlot_fld (s : State) (k : Nat) (v : KSlot) (pg : Nat) (f : Fld) : (s.setSlot k v).fld pg f = s.fld pg f := rfl
@[simp] theorem State.setStripe_fld (s : State) (k : Nat) (v : Stripe) (pg : Nat) (f : Fld) : (s.setStripe k v).fld pg f = s.fld pg f := rfl
@[simp] theorem State.setReq_fld (s : State) (id : Nat) (r : Req) (pg : Nat) (f : Fld) : (s.setReq id r).fld pg f = s.fld pg f := rfl

/-! ### A structured record across the other updates -/

@[simp] theorem State.put_vi (s : State) (pg : Nat) (f : Fld) (v : Nat) (x : Nat) : (s.put pg f v).vi x = s.vi x := rfl
@[simp] theorem State.emit_vi (s : State) (o : Out) (x : Nat) : (s.emit o).vi x = s.vi x := rfl
@[simp] theorem State.tick_vi (s : State) (x : Nat) : (s.tick).vi x = s.vi x := rfl
@[simp] theorem State.setPrt_vi (s : State) (p : Nat) (v : Prt) (x : Nat) : (s.setPrt p v).vi x = s.vi x := rfl
@[simp] theorem State.setPier_vi (s : State) (n : Nat) (v : Pr) (x : Nat) : (s.setPier n v).vi x = s.vi x := rfl
@[simp] theorem State.setLdev_vi (s : State) (p ld : Nat) (v : LogDev) (x : Nat) : (s.setLdev p ld v).vi x = s.vi x := rfl
@[simp] theorem State.setLink_vi (s : State) (l : Nat) (v : Lnk) (x : Nat) : (s.setLink l v).vi x = s.vi x := rfl
@[simp] theorem State.setSqr_vi (s : State) (q : Nat) (v : Sqr) (x : Nat) : (s.setSqr q v).vi x = s.vi x := rfl
@[simp] theorem State.setEng_vi (s : State) (e : Nat) (v : Engine) (x : Nat) : (s.setEng e v).vi x = s.vi x := rfl
@[simp] theorem State.setSlot_vi (s : State) (k : Nat) (v : KSlot) (x : Nat) : (s.setSlot k v).vi x = s.vi x := rfl
@[simp] theorem State.setStripe_vi (s : State) (k : Nat) (v : Stripe) (x : Nat) : (s.setStripe k v).vi x = s.vi x := rfl
@[simp] theorem State.setReq_vi (s : State) (id : Nat) (r : Req) (x : Nat) : (s.setReq id r).vi x = s.vi x := rfl
@[simp] theorem State.put_prt (s : State) (pg : Nat) (f : Fld) (v : Nat) (x : Nat) : (s.put pg f v).prt x = s.prt x := rfl
@[simp] theorem State.emit_prt (s : State) (o : Out) (x : Nat) : (s.emit o).prt x = s.prt x := rfl
@[simp] theorem State.tick_prt (s : State) (x : Nat) : (s.tick).prt x = s.prt x := rfl
@[simp] theorem State.setVi_prt (s : State) (t : Nat) (v : Vi) (x : Nat) : (s.setVi t v).prt x = s.prt x := rfl
@[simp] theorem State.setPier_prt (s : State) (n : Nat) (v : Pr) (x : Nat) : (s.setPier n v).prt x = s.prt x := rfl
@[simp] theorem State.setLdev_prt (s : State) (p ld : Nat) (v : LogDev) (x : Nat) : (s.setLdev p ld v).prt x = s.prt x := rfl
@[simp] theorem State.setLink_prt (s : State) (l : Nat) (v : Lnk) (x : Nat) : (s.setLink l v).prt x = s.prt x := rfl
@[simp] theorem State.setSqr_prt (s : State) (q : Nat) (v : Sqr) (x : Nat) : (s.setSqr q v).prt x = s.prt x := rfl
@[simp] theorem State.setEng_prt (s : State) (e : Nat) (v : Engine) (x : Nat) : (s.setEng e v).prt x = s.prt x := rfl
@[simp] theorem State.setSlot_prt (s : State) (k : Nat) (v : KSlot) (x : Nat) : (s.setSlot k v).prt x = s.prt x := rfl
@[simp] theorem State.setStripe_prt (s : State) (k : Nat) (v : Stripe) (x : Nat) : (s.setStripe k v).prt x = s.prt x := rfl
@[simp] theorem State.setReq_prt (s : State) (id : Nat) (r : Req) (x : Nat) : (s.setReq id r).prt x = s.prt x := rfl
@[simp] theorem State.put_pier (s : State) (pg : Nat) (f : Fld) (v : Nat) (x : Nat) : (s.put pg f v).pier x = s.pier x := rfl
@[simp] theorem State.emit_pier (s : State) (o : Out) (x : Nat) : (s.emit o).pier x = s.pier x := rfl
@[simp] theorem State.tick_pier (s : State) (x : Nat) : (s.tick).pier x = s.pier x := rfl
@[simp] theorem State.setVi_pier (s : State) (t : Nat) (v : Vi) (x : Nat) : (s.setVi t v).pier x = s.pier x := rfl
@[simp] theorem State.setPrt_pier (s : State) (p : Nat) (v : Prt) (x : Nat) : (s.setPrt p v).pier x = s.pier x := rfl
@[simp] theorem State.setLdev_pier (s : State) (p ld : Nat) (v : LogDev) (x : Nat) : (s.setLdev p ld v).pier x = s.pier x := rfl
@[simp] theorem State.setLink_pier (s : State) (l : Nat) (v : Lnk) (x : Nat) : (s.setLink l v).pier x = s.pier x := rfl
@[simp] theorem State.setSqr_pier (s : State) (q : Nat) (v : Sqr) (x : Nat) : (s.setSqr q v).pier x = s.pier x := rfl
@[simp] theorem State.setEng_pier (s : State) (e : Nat) (v : Engine) (x : Nat) : (s.setEng e v).pier x = s.pier x := rfl
@[simp] theorem State.setSlot_pier (s : State) (k : Nat) (v : KSlot) (x : Nat) : (s.setSlot k v).pier x = s.pier x := rfl
@[simp] theorem State.setStripe_pier (s : State) (k : Nat) (v : Stripe) (x : Nat) : (s.setStripe k v).pier x = s.pier x := rfl
@[simp] theorem State.setReq_pier (s : State) (id : Nat) (r : Req) (x : Nat) : (s.setReq id r).pier x = s.pier x := rfl
@[simp] theorem State.put_link (s : State) (pg : Nat) (f : Fld) (v : Nat) (x : Nat) : (s.put pg f v).link x = s.link x := rfl
@[simp] theorem State.emit_link (s : State) (o : Out) (x : Nat) : (s.emit o).link x = s.link x := rfl
@[simp] theorem State.tick_link (s : State) (x : Nat) : (s.tick).link x = s.link x := rfl
@[simp] theorem State.setVi_link (s : State) (t : Nat) (v : Vi) (x : Nat) : (s.setVi t v).link x = s.link x := rfl
@[simp] theorem State.setPrt_link (s : State) (p : Nat) (v : Prt) (x : Nat) : (s.setPrt p v).link x = s.link x := rfl
@[simp] theorem State.setPier_link (s : State) (n : Nat) (v : Pr) (x : Nat) : (s.setPier n v).link x = s.link x := rfl
@[simp] theorem State.setLdev_link (s : State) (p ld : Nat) (v : LogDev) (x : Nat) : (s.setLdev p ld v).link x = s.link x := rfl
@[simp] theorem State.setSqr_link (s : State) (q : Nat) (v : Sqr) (x : Nat) : (s.setSqr q v).link x = s.link x := rfl
@[simp] theorem State.setEng_link (s : State) (e : Nat) (v : Engine) (x : Nat) : (s.setEng e v).link x = s.link x := rfl
@[simp] theorem State.setSlot_link (s : State) (k : Nat) (v : KSlot) (x : Nat) : (s.setSlot k v).link x = s.link x := rfl
@[simp] theorem State.setStripe_link (s : State) (k : Nat) (v : Stripe) (x : Nat) : (s.setStripe k v).link x = s.link x := rfl
@[simp] theorem State.setReq_link (s : State) (id : Nat) (r : Req) (x : Nat) : (s.setReq id r).link x = s.link x := rfl
@[simp] theorem State.put_sqr (s : State) (pg : Nat) (f : Fld) (v : Nat) (x : Nat) : (s.put pg f v).sqr x = s.sqr x := rfl
@[simp] theorem State.emit_sqr (s : State) (o : Out) (x : Nat) : (s.emit o).sqr x = s.sqr x := rfl
@[simp] theorem State.tick_sqr (s : State) (x : Nat) : (s.tick).sqr x = s.sqr x := rfl
@[simp] theorem State.setVi_sqr (s : State) (t : Nat) (v : Vi) (x : Nat) : (s.setVi t v).sqr x = s.sqr x := rfl
@[simp] theorem State.setPrt_sqr (s : State) (p : Nat) (v : Prt) (x : Nat) : (s.setPrt p v).sqr x = s.sqr x := rfl
@[simp] theorem State.setPier_sqr (s : State) (n : Nat) (v : Pr) (x : Nat) : (s.setPier n v).sqr x = s.sqr x := rfl
@[simp] theorem State.setLdev_sqr (s : State) (p ld : Nat) (v : LogDev) (x : Nat) : (s.setLdev p ld v).sqr x = s.sqr x := rfl
@[simp] theorem State.setLink_sqr (s : State) (l : Nat) (v : Lnk) (x : Nat) : (s.setLink l v).sqr x = s.sqr x := rfl
@[simp] theorem State.setEng_sqr (s : State) (e : Nat) (v : Engine) (x : Nat) : (s.setEng e v).sqr x = s.sqr x := rfl
@[simp] theorem State.setSlot_sqr (s : State) (k : Nat) (v : KSlot) (x : Nat) : (s.setSlot k v).sqr x = s.sqr x := rfl
@[simp] theorem State.setStripe_sqr (s : State) (k : Nat) (v : Stripe) (x : Nat) : (s.setStripe k v).sqr x = s.sqr x := rfl
@[simp] theorem State.setReq_sqr (s : State) (id : Nat) (r : Req) (x : Nat) : (s.setReq id r).sqr x = s.sqr x := rfl
@[simp] theorem State.put_eng (s : State) (pg : Nat) (f : Fld) (v : Nat) (x : Nat) : (s.put pg f v).eng x = s.eng x := rfl
@[simp] theorem State.emit_eng (s : State) (o : Out) (x : Nat) : (s.emit o).eng x = s.eng x := rfl
@[simp] theorem State.tick_eng (s : State) (x : Nat) : (s.tick).eng x = s.eng x := rfl
@[simp] theorem State.setVi_eng (s : State) (t : Nat) (v : Vi) (x : Nat) : (s.setVi t v).eng x = s.eng x := rfl
@[simp] theorem State.setPrt_eng (s : State) (p : Nat) (v : Prt) (x : Nat) : (s.setPrt p v).eng x = s.eng x := rfl
@[simp] theorem State.setPier_eng (s : State) (n : Nat) (v : Pr) (x : Nat) : (s.setPier n v).eng x = s.eng x := rfl
@[simp] theorem State.setLdev_eng (s : State) (p ld : Nat) (v : LogDev) (x : Nat) : (s.setLdev p ld v).eng x = s.eng x := rfl
@[simp] theorem State.setLink_eng (s : State) (l : Nat) (v : Lnk) (x : Nat) : (s.setLink l v).eng x = s.eng x := rfl
@[simp] theorem State.setSqr_eng (s : State) (q : Nat) (v : Sqr) (x : Nat) : (s.setSqr q v).eng x = s.eng x := rfl
@[simp] theorem State.setSlot_eng (s : State) (k : Nat) (v : KSlot) (x : Nat) : (s.setSlot k v).eng x = s.eng x := rfl
@[simp] theorem State.setStripe_eng (s : State) (k : Nat) (v : Stripe) (x : Nat) : (s.setStripe k v).eng x = s.eng x := rfl
@[simp] theorem State.setReq_eng (s : State) (id : Nat) (r : Req) (x : Nat) : (s.setReq id r).eng x = s.eng x := rfl
@[simp] theorem State.put_slot (s : State) (pg : Nat) (f : Fld) (v : Nat) (x : Nat) : (s.put pg f v).slot x = s.slot x := rfl
@[simp] theorem State.emit_slot (s : State) (o : Out) (x : Nat) : (s.emit o).slot x = s.slot x := rfl
@[simp] theorem State.tick_slot (s : State) (x : Nat) : (s.tick).slot x = s.slot x := rfl
@[simp] theorem State.setVi_slot (s : State) (t : Nat) (v : Vi) (x : Nat) : (s.setVi t v).slot x = s.slot x := rfl
@[simp] theorem State.setPrt_slot (s : State) (p : Nat) (v : Prt) (x : Nat) : (s.setPrt p v).slot x = s.slot x := rfl
@[simp] theorem State.setPier_slot (s : State) (n : Nat) (v : Pr) (x : Nat) : (s.setPier n v).slot x = s.slot x := rfl
@[simp] theorem State.setLdev_slot (s : State) (p ld : Nat) (v : LogDev) (x : Nat) : (s.setLdev p ld v).slot x = s.slot x := rfl
@[simp] theorem State.setLink_slot (s : State) (l : Nat) (v : Lnk) (x : Nat) : (s.setLink l v).slot x = s.slot x := rfl
@[simp] theorem State.setSqr_slot (s : State) (q : Nat) (v : Sqr) (x : Nat) : (s.setSqr q v).slot x = s.slot x := rfl
@[simp] theorem State.setEng_slot (s : State) (e : Nat) (v : Engine) (x : Nat) : (s.setEng e v).slot x = s.slot x := rfl
@[simp] theorem State.setStripe_slot (s : State) (k : Nat) (v : Stripe) (x : Nat) : (s.setStripe k v).slot x = s.slot x := rfl
@[simp] theorem State.setReq_slot (s : State) (id : Nat) (r : Req) (x : Nat) : (s.setReq id r).slot x = s.slot x := rfl
@[simp] theorem State.put_stripe (s : State) (pg : Nat) (f : Fld) (v : Nat) (x : Nat) : (s.put pg f v).stripe x = s.stripe x := rfl
@[simp] theorem State.emit_stripe (s : State) (o : Out) (x : Nat) : (s.emit o).stripe x = s.stripe x := rfl
@[simp] theorem State.tick_stripe (s : State) (x : Nat) : (s.tick).stripe x = s.stripe x := rfl
@[simp] theorem State.setVi_stripe (s : State) (t : Nat) (v : Vi) (x : Nat) : (s.setVi t v).stripe x = s.stripe x := rfl
@[simp] theorem State.setPrt_stripe (s : State) (p : Nat) (v : Prt) (x : Nat) : (s.setPrt p v).stripe x = s.stripe x := rfl
@[simp] theorem State.setPier_stripe (s : State) (n : Nat) (v : Pr) (x : Nat) : (s.setPier n v).stripe x = s.stripe x := rfl
@[simp] theorem State.setLdev_stripe (s : State) (p ld : Nat) (v : LogDev) (x : Nat) : (s.setLdev p ld v).stripe x = s.stripe x := rfl
@[simp] theorem State.setLink_stripe (s : State) (l : Nat) (v : Lnk) (x : Nat) : (s.setLink l v).stripe x = s.stripe x := rfl
@[simp] theorem State.setSqr_stripe (s : State) (q : Nat) (v : Sqr) (x : Nat) : (s.setSqr q v).stripe x = s.stripe x := rfl
@[simp] theorem State.setEng_stripe (s : State) (e : Nat) (v : Engine) (x : Nat) : (s.setEng e v).stripe x = s.stripe x := rfl
@[simp] theorem State.setSlot_stripe (s : State) (k : Nat) (v : KSlot) (x : Nat) : (s.setSlot k v).stripe x = s.stripe x := rfl
@[simp] theorem State.setReq_stripe (s : State) (id : Nat) (r : Req) (x : Nat) : (s.setReq id r).stripe x = s.stripe x := rfl
@[simp] theorem State.put_req? (s : State) (pg : Nat) (f : Fld) (v : Nat) (x : Nat) : (s.put pg f v).req? x = s.req? x := rfl
@[simp] theorem State.put_ldev (s : State) (pg : Nat) (f : Fld) (v : Nat) (x y : Nat) : (s.put pg f v).ldev x y = s.ldev x y := rfl
@[simp] theorem State.emit_req? (s : State) (o : Out) (x : Nat) : (s.emit o).req? x = s.req? x := rfl
@[simp] theorem State.emit_ldev (s : State) (o : Out) (x y : Nat) : (s.emit o).ldev x y = s.ldev x y := rfl
@[simp] theorem State.tick_req? (s : State) (x : Nat) : (s.tick).req? x = s.req? x := rfl
@[simp] theorem State.tick_ldev (s : State) (x y : Nat) : (s.tick).ldev x y = s.ldev x y := rfl
@[simp] theorem State.setVi_req? (s : State) (t : Nat) (v : Vi) (x : Nat) : (s.setVi t v).req? x = s.req? x := rfl
@[simp] theorem State.setVi_ldev (s : State) (t : Nat) (v : Vi) (x y : Nat) : (s.setVi t v).ldev x y = s.ldev x y := rfl
@[simp] theorem State.setPrt_req? (s : State) (p : Nat) (v : Prt) (x : Nat) : (s.setPrt p v).req? x = s.req? x := rfl
@[simp] theorem State.setPrt_ldev (s : State) (p : Nat) (v : Prt) (x y : Nat) : (s.setPrt p v).ldev x y = s.ldev x y := rfl
@[simp] theorem State.setPier_req? (s : State) (n : Nat) (v : Pr) (x : Nat) : (s.setPier n v).req? x = s.req? x := rfl
@[simp] theorem State.setPier_ldev (s : State) (n : Nat) (v : Pr) (x y : Nat) : (s.setPier n v).ldev x y = s.ldev x y := rfl
@[simp] theorem State.setLdev_req? (s : State) (p ld : Nat) (v : LogDev) (x : Nat) : (s.setLdev p ld v).req? x = s.req? x := rfl
@[simp] theorem State.setLink_req? (s : State) (l : Nat) (v : Lnk) (x : Nat) : (s.setLink l v).req? x = s.req? x := rfl
@[simp] theorem State.setLink_ldev (s : State) (l : Nat) (v : Lnk) (x y : Nat) : (s.setLink l v).ldev x y = s.ldev x y := rfl
@[simp] theorem State.setSqr_req? (s : State) (q : Nat) (v : Sqr) (x : Nat) : (s.setSqr q v).req? x = s.req? x := rfl
@[simp] theorem State.setSqr_ldev (s : State) (q : Nat) (v : Sqr) (x y : Nat) : (s.setSqr q v).ldev x y = s.ldev x y := rfl
@[simp] theorem State.setEng_req? (s : State) (e : Nat) (v : Engine) (x : Nat) : (s.setEng e v).req? x = s.req? x := rfl
@[simp] theorem State.setEng_ldev (s : State) (e : Nat) (v : Engine) (x y : Nat) : (s.setEng e v).ldev x y = s.ldev x y := rfl
@[simp] theorem State.setSlot_req? (s : State) (k : Nat) (v : KSlot) (x : Nat) : (s.setSlot k v).req? x = s.req? x := rfl
@[simp] theorem State.setSlot_ldev (s : State) (k : Nat) (v : KSlot) (x y : Nat) : (s.setSlot k v).ldev x y = s.ldev x y := rfl
@[simp] theorem State.setStripe_req? (s : State) (k : Nat) (v : Stripe) (x : Nat) : (s.setStripe k v).req? x = s.req? x := rfl
@[simp] theorem State.setStripe_ldev (s : State) (k : Nat) (v : Stripe) (x y : Nat) : (s.setStripe k v).ldev x y = s.ldev x y := rfl
@[simp] theorem State.setReq_ldev (s : State) (id : Nat) (r : Req) (x y : Nat) : (s.setReq id r).ldev x y = s.ldev x y := rfl

end Sys2Proof.Machine
end

