-- ==== Sys2Proof/Laws/Complete.lean ====
section
/-! SUPPORT. What the shared operations answer on the paths on which a command completes: a host request that its port serves
(State.accept), a vendor command that the engines take (State.vendor), a sequencer step that its unit performs
(State.runStep), and the fields that the operations before them leave as they are. -/

namespace Sys2Proof.Machine

/-- An event changes the telemetry counts and nothing else. -/
theorem State.tally_eq (s : State) (b n c a : Nat) (f : Option Flt) : ∃ m, s.tally b n c a f = { s with telCnt := m } := by
  unfold State.tally
  (repeat' split) <;> exact ⟨_, rfl⟩
theorem State.telPort_eq (s : State) (p c a : Nat) (f : Option Flt) : ∃ m, s.telPort p c a f = { s with telCnt := m } := by
  unfold State.telPort
  split
  · exact ⟨_, rfl⟩
  · exact State.tally_eq ..

theorem leaveIdle_fld (s : State) (pg : Nat) (f : Fld) (h : pg < 7 ∨ 0x28 ≤ pg) (hf : f.off < 4096) (hl : f.lo < 64) : s.leaveIdle.fld pg f = s.fld pg f := by
  unfold State.leaveIdle
  split
  · rw [State.fld_put_other, State.fld_put_other]; rfl
    all_goals (simp [regKey, Reg.HUB_LAP_STAT_MISSED, Reg.PWR_STAT_STATE]; omega)
  · rfl
theorem leaveIdle_prt (s : State) (p : Nat) : s.leaveIdle.prt p = s.prt p := by
  unfold State.leaveIdle; split <;> rfl

theorem took_facts (s : State) (op : ReqOp) (p : Nat) (r : Req) :
    (s.tookReq op p r).regs = s.leaveIdle.regs ∧ (s.tookReq op p r).pwr = s.leaveIdle.pwr ∧
    ((s.tookReq op p r).prt p).ideWait = (s.leaveIdle.prt p).ideWait := by
  unfold State.tookReq
  obtain ⟨m, hm⟩ := State.telPort_eq ({ s.leaveIdle with nextReq := (s.nextReq + 1) % 2 ^ 32 } : State) p (if op.rwd then 0x04 else 0x03) 1 (some (s.reqFlt r))
  simp only [hm]
  split
  · obtain ⟨m', hm'⟩ := State.telPort_eq ({ s.leaveIdle with nextReq := (s.nextReq + 1) % 2 ^ 32, telCnt := m } : State) p 1 64 (some (s.reqFlt r))
    simp only [hm']
    refine ⟨rfl, rfl, ?_⟩
    rw [State.prt_setPrt]; rfl
  · exact ⟨rfl, rfl, rfl⟩

theorem took_fld (s : State) (op : ReqOp) (p : Nat) (r : Req) (pg : Nat) (f : Fld) (h : pg < 7 ∨ 0x28 ≤ pg) (hf : f.off < 4096) (hl : f.lo < 64) :
   (s.tookReq op p r).fld pg f = s.fld pg f := by
  rw [← leaveIdle_fld s pg f h hf hl]; unfold State.fld; rw [(took_facts s op p r).1]

theorem took_ready (s : State) (op : ReqOp) (p : Nat) (r : Req) : (s.tookReq op p r).ready = s.ready := by
  unfold State.ready; rw [took_fld] <;> simp [Reg.TRUSS_BOOT_STAT_STAGE]

theorem took_portLive (s : State) (op : ReqOp) (p : Nat) (r : Req) : (s.tookReq op p r).portLive p = s.portLive p := by
  unfold State.portLive State.portSeq State.linkUp State.flag
  rw [took_fld, took_fld, took_fld, took_fld, took_fld, (took_facts s op p r).2.2, leaveIdle_prt]
  all_goals first | (right; unfold pgPort; omega) | simp [Reg.SEQ_CTL_LENGTH, Reg.SEQ_CTL_HALTED, Reg.PORT_LINK_STAT_UP, Reg.PORT_HOST_CRED_NDR, Reg.PORT_HOST_CRED_DRS]

/-- Leaving Idle changes the power state from Idle to Run and nothing else of the power block. -/
theorem leaveIdle_pwr (s : State) : s.leaveIdle.pwr = { s.pwr with state := if s.pwr.state = 1 then 0 else s.pwr.state } := by
  unfold State.leaveIdle; split <;> simp

theorem took_portServes (s : State) (op : ReqOp) (p : Nat) (r : Req) (h : s.portServes p = true) : (s.tookReq op p r).portServes p = true := by
  unfold State.portServes State.serving State.awake at *
  rw [took_ready, took_portLive, (took_facts s op p r).2.1, leaveIdle_pwr]
  simp at *
  split <;> simp_all

/-- A request that the port serves and the host has a credit for is taken, started and, where its chains may go on, released. -/
theorem accept_eq (s : State) (op : ReqOp) (p ld hpa : Nat) (mv : MetaValue) (data : BitVec 512) (mask : BitVec 64)
    (h1 : s.portServes p = true) (h2 : s.hasCredit p op = true) :
    s.accept op p ld hpa mv data mask =
      (((s.tookReq op p (hostReq op p ld hpa mv data mask s.time)).startReq s.nextReq (hostReq op p ld hpa mv data mask s.time)).release).wakeBy 2 := by
  have hr : s.ready = true := by simp [State.portServes, State.serving] at h1; exact h1.1.1.1.1.1
  have h3 := took_portServes s op p (hostReq op p ld hpa mv data mask s.time) h1
  have h4 : (s.tookReq op p (hostReq op p ld hpa mv data mask s.time)).portEarly p = false := by
    simp [State.portEarly, took_ready, hr]
  unfold State.accept
  rw [if_neg (by simp [h1, h2])]
  change (if (s.tookReq op p (hostReq op p ld hpa mv data mask s.time)).portEarly p = true then _ else
    ((if (s.tookReq op p (hostReq op p ld hpa mv data mask s.time)).portServes p = true then _ else _ : State).wakeBy 2)) = _
  rw [h4, h3]; rfl
theorem put_findSnoop (s : State) (pg : Nat) (f : Fld) (v p t : Nat) : (s.put pg f v).findSnoop p t = s.findSnoop p t := rfl
theorem put_inFlight (s : State) (pg : Nat) (f : Fld) (v : Nat) (sn : Snoop) : (s.put pg f v).inFlight sn = s.inFlight sn := rfl
/-- A new urgency level touches the two urgency fields of its port only. -/
theorem urgUpdate_prt (s : State) (k : Nat) : ∃ a b, (s.urgUpdate k).prt k = { (s.prt k) with urgLevel := a, urg3At := b } := by
  unfold State.urgUpdate; simp only [State.prt_setPrt]; exact ⟨_, _, rfl⟩
theorem urgUpdate_l0p (s : State) (k : Nat) : ((s.urgUpdate k).prt k).l0p = (s.prt k).l0p := by
  obtain ⟨a, b, h⟩ := urgUpdate_prt s k; rw [h]
theorem urgUpdate_trWidth (s : State) (k : Nat) : ((s.urgUpdate k).prt k).trWidth = (s.prt k).trWidth := by
  obtain ⟨a, b, h⟩ := urgUpdate_prt s k; rw [h]
theorem urgUpdate_fld (s : State) (k pg : Nat) (f : Fld) : (s.urgUpdate k).fld pg f = s.fld pg f := by
  unfold State.urgUpdate
  simp only [State.setPrt_fld]
  split <;> (try split) <;> try rfl
  all_goals (rename_i t _ _; obtain ⟨m, hm⟩ := State.telPort_eq s k 0x17 (s.time - t) none; rw [hm]; rfl)
theorem urgUpdate_flag (s : State) (k pg : Nat) (f : Fld) : (s.urgUpdate k).flag pg f = s.flag pg f := by
  unfold State.flag; rw [urgUpdate_fld]
/-- A vendor command that the engines take runs on its payload, and its response, if any, goes back on its path. -/
theorem vendor_taken (s : State) (src : CmdSrc) (op : Nat) (req p : List Nat) (run : State → List Nat → State × Option (List Nat))
    (h : s.engTakes src op req p) :
    s.vendor src op req run = match run (s.taken src op) p with
      | (s, some rsp) => s.respondCmd src op rsp
      | (s, none) => s := by
  cases src with
  | hostLd => simp [State.engTakes] at h
  | mbx k => simp only [State.engTakes, Bool.and_eq_true, Bool.not_eq_true', beq_iff_eq] at h; obtain ⟨h1, ⟨a, b⟩, c⟩ := h; subst c; simp only [State.vendor, a, b, h1, State.taken]; rfl
  | fmLd => simp [State.engTakes] at h; obtain ⟨h1, ⟨a, b⟩, c⟩ := h; subst c; simp [State.vendor, a, b, h1, State.taken]; try rfl
  | i3c => simp [State.engTakes] at h; obtain ⟨h1, ⟨a, b⟩, c⟩ := h; subst c; simp [State.vendor, a, b, h1, State.taken]; try rfl

theorem changing_put (s : State) (pg : Nat) (f : Fld) (v : Nat) : (s.put pg f v).changing = s.changing := rfl
theorem putLink_time (s : State) (l : Nat) (k : Lnk) : (s.putLink l k).time = s.time := rfl
theorem link_putLink (s : State) (l : Nat) (k : Lnk) : (s.putLink l k).link l = k := by
  unfold State.putLink; simp
theorem link_putDir (s : State) (l : Nat) (b : Bool) (d : Dir) : ((s.putDir l b d).link l).dir b = d := by
  unfold State.putDir; rw [link_putLink]; cases b <;> rfl
/-- A fetched step of the wanted kind that its unit performs moves the context on by one step. -/
theorem runStep_ok {s t : State} {q ctx : Nat} {want : Nat → Bool} {f : State → JobCtx → Nat → StepRes} {c : JobCtx} {w : Nat} (c' : JobCtx)
    (h : s.fetchStep q ctx = .step c w) (hw : want w = true) (hf : f s c w = .ok t c') :
    s.runStep q ctx want f = t.putCtx q ctx { c' with steps := c.steps + 1 } := by
  simp [State.runStep, h, hw, hf]
end Sys2Proof.Machine
end

