-- ==== Sys2Proof/Laws/Frame.lean ====
section
/-!
SUPPORT. What the shared operations on registers, events, links, engines and clocks leave alone: each keeps what is stored, the keys
and the translations (State.SameStore).
-/
set_option maxRecDepth 4000

namespace Sys2Proof.Machine

theorem State.SameStore.refl (s : State) : State.SameStore s s := by simp [State.SameStore]

theorem State.SameStore.trans {a b c : State} (h : State.SameStore a b) (g : State.SameStore b c) : State.SameStore a c := by
  unfold State.SameStore at *; simp_all

theorem same_put (s : State) (pg : Nat) (f : Fld) (v : Nat) : State.SameStore s (s.put pg f v) := by simp [State.SameStore, State.put]

theorem same_emit (s : State) (o) : State.SameStore s (s.emit o) := by simp [State.SameStore, State.emit]

theorem same_ite {s a b : State} {c : Prop} [Decidable c] (h : State.SameStore s a) (g : State.SameStore s b) : State.SameStore s (if c then a else b) := by split <;> assumption

theorem same_foldl {α : Type} {s : State} {f : State → α → State} {l : List α} (h : ∀ s x, State.SameStore s (f s x)) : State.SameStore s (l.foldl f s) := by
  induction l generalizing s with
  | nil => exact State.SameStore.refl s
  | cons a t ih => exact (h s a).trans ih

theorem same_leaveIdle (s : State) : State.SameStore s s.leaveIdle := by
  unfold State.leaveIdle; split <;> simp [State.SameStore, State.put]

theorem same_countMissed (s : State) (x) : State.SameStore s (s.countMissed x) := by simp [State.SameStore, State.countMissed]

theorem same_countLost (s : State) (x) : State.SameStore s (s.countLost x) := by
  unfold State.countLost; split
  · exact same_countMissed ..
  · exact State.SameStore.refl _

theorem same_mq (s : State) (q) : State.SameStore s { s with mq := q } := by simp [State.SameStore]

theorem same_toManager (s : State) (r) : State.SameStore s (s.toManager r) := by
  unfold State.toManager
  split
  dsimp only
  split
  · exact ((same_mq s _).trans (same_countLost _ _)).trans (same_emit _ _)
  · exact (same_mq s _).trans (same_countLost _ _)

theorem same_setVi (s : State) (k v) : State.SameStore s (s.setVi k v) := by simp [State.SameStore, State.setVi]

theorem same_setLdev (s : State) (k l v) : State.SameStore s (s.setLdev k l v) := by simp [State.SameStore, State.setLdev]

theorem same_toFault (s : State) (t r) : State.SameStore s (s.toFault t r) := by
  unfold State.toFault
  dsimp only
  split
  · exact ((same_setVi s _ _).trans (same_countLost _ _)).trans (same_foldl (fun s x => same_emit _ _))
  · exact (same_setVi s _ _).trans (same_countLost _ _)

theorem same_toLog (s : State) (p l : Nat) (r : Record) : State.SameStore s (s.toLog p l r) := by
  unfold State.toLog
  exact (same_setLdev s _ _ _).trans (same_countLost _ _)

theorem same_jnl (s : State) (j) : State.SameStore s { s with jnl := j } := by simp [State.SameStore]

theorem same_toJournal (s : State) (r) : State.SameStore s (s.toJournal r) := by
  unfold State.toJournal
  dsimp only
  (repeat' split) <;> first | exact same_countMissed _ _ | exact same_jnl _ _

theorem same_alert (s : State) : State.SameStore s s.alert := by
  unfold State.alert
  (repeat' split) <;> simp [State.SameStore, State.put]

theorem same_countRecords (s : State) : State.SameStore s s.countRecords := by
  unfold State.countRecords
  (repeat' split) <;> simp [State.SameStore]

theorem same_errCap (s : State) (e) : State.SameStore s { s with errCap := e } := by simp [State.SameStore]

theorem same_produce (s : State) (r q) : State.SameStore s (s.produce r q) := by
  unfold State.produce
  extract_lets pg b s1 s2 s3 ena s4 s5 s6 jr s7
  have h1 : State.SameStore s s1 := same_countRecords s
  have h2 : State.SameStore s s2 := h1.trans (same_put ..)
  have h3 : State.SameStore s s3 := h2.trans (same_ite (same_errCap _ _) (State.SameStore.refl _))
  have h4 : State.SameStore s s4 := h3.trans (same_ite (same_toManager _ _) (State.SameStore.refl _))
  have h5 : State.SameStore s s5 := by
    refine h4.trans ?_
    simp only [s5]
    split
    · split
      · exact same_ite (same_toFault ..) (State.SameStore.refl _)
      · exact State.SameStore.refl _
    · exact State.SameStore.refl _
  have h6 : State.SameStore s s6 := h5.trans (same_ite (same_foldl (fun _ _ => same_toLog ..)) (State.SameStore.refl _))
  have h7 : State.SameStore s s7 := h6.trans (same_ite (same_toJournal ..) (State.SameStore.refl _))
  exact h7.trans (same_ite (same_alert _) (State.SameStore.refl _))

theorem same_held (s : State) (e) : State.SameStore s { s with held := e } := by simp [State.SameStore]

theorem same_raise (s : State) (a b c d e f) : State.SameStore s (s.raise a b c d e f) := by
  unfold State.raise State.raiseFor
  dsimp only
  split
  · exact (same_produce ..).trans (same_leaveIdle _)
  · exact same_held ..

theorem same_clk (s : State) (e) : State.SameStore s { s with clk := e } := by simp [State.SameStore]

theorem same_lap (s : State) (e) : State.SameStore s { s with lap := e } := by simp [State.SameStore]

theorem same_setEng (s : State) (a b) : State.SameStore s (s.setEng a b) := by simp [State.SameStore, State.setEng]

theorem same_setLink (s : State) (a b) : State.SameStore s (s.setLink a b) := by simp [State.SameStore, State.setLink]

theorem same_putLink (s : State) (a b) : State.SameStore s (s.putLink a b) := by simp [State.SameStore, State.putLink, State.setLink, State.put]

theorem same_putDir (s : State) (a b c) : State.SameStore s (s.putDir a b c) := same_putLink ..

theorem same_bump (s : State) (a b c d) : State.SameStore s (s.bump a b c d) := by
  unfold State.bump; dsimp only; split <;> simp [State.SameStore, State.put]

theorem same_sendCtl (s : State) (a b c d) : State.SameStore s (s.sendCtl a b c d) := (same_putDir ..).trans (same_emit ..)

theorem same_sendFlits (s : State) (a b c) : State.SameStore s (s.sendFlits a b c) := by
  unfold State.sendFlits
  exact same_foldl (fun _ _ => same_emit ..)

theorem same_retransmit (s : State) (a b) : State.SameStore s (s.retransmit a b) := by
  unfold State.retransmit
  exact (same_putDir ..).trans (same_sendFlits ..)

theorem same_startRetrain (s : State) (a b c) : State.SameStore s (s.startRetrain a b c) := by
  unfold State.startRetrain
  exact (same_putLink ..).trans (same_sendCtl ..)

theorem same_trigger (s : State) (a b) : State.SameStore s (s.trigger a b) := by
  unfold State.trigger
  exact same_ite (State.SameStore.refl _) (same_ite (same_startRetrain ..) (((same_bump ..).trans (same_putDir ..)).trans (same_retransmit ..)))

theorem same_closed (s : State) : State.SameStore s s.closedAccess := (same_put ..).trans (same_raise ..)

theorem same_atPage (s : State) (pg) (f : State → State) (h : ∀ s, State.SameStore s (f s)) : State.SameStore s (s.atPage pg f) := same_ite (same_closed _) (h _)

theorem same_lapStop (s : State) : State.SameStore s s.lapStop := by
  unfold State.lapStop
  exact same_ite (State.SameStore.refl _) ((((same_put ..).trans (same_put ..)).trans (same_lap ..)).trans (same_raise ..))

theorem same_putArmed (s : State) (b : Bool) : State.SameStore s (s.putArmed b) := (same_put ..).trans (same_put ..)

theorem same_autoArm (s : State) : State.SameStore s s.autoArm := by
  unfold State.autoArm
  refine same_ite (State.SameStore.refl _) ?_
  split
  · exact (same_put ..).trans (same_putArmed ..)
  · exact State.SameStore.refl _

theorem same_backupLost (s : State) : State.SameStore s s.backupLost :=
  ((same_putArmed ..).trans (same_raise ..)).trans (same_autoArm _)

theorem same_unready (s : State) (k : Nat) : State.SameStore s (s.unready k) := by
  unfold State.unready
  exact ((same_put ..).trans (same_put ..)).trans (same_ite (same_backupLost _) (State.SameStore.refl _))

theorem same_setRoot (s : State) (k : Nat) : State.SameStore s (s.setRoot k) := (same_put ..).trans (same_put ..)

theorem same_gateRefuse (s : State) (k : Nat) : State.SameStore s (s.gateRefuse k) := by
  unfold State.gateRefuse
  exact (same_put ..).trans (same_put ..)

theorem same_shutNode (s : State) (k : Nat) : State.SameStore s (s.shutNode k) := same_clk ..

theorem same_reconfigured (s : State) : State.SameStore s s.reconfigured := same_lap ..

end Sys2Proof.Machine
end

