-- ==== Sys2Proof/Laws/Keeps.lean ====
section
/-!
SUPPORT. How a sound state with its queue is carried through a meaning: the base cases that every frame lemma is built from.
-/
namespace Sys2Proof.Machine

/-- The state of a pair is kept. -/
def PKeeps {α : Type} (q : List Instr) (p : State × α) : Prop := p.1.Keeps q
/-- The state of an answer is kept where there is one. -/
def NKeeps (q : List Instr) (o : Option State) : Prop := ∀ t, o = some t → t.Keeps q
/-- The state of an answered pair is kept. -/
def NPKeeps {α : Type} (q : List Instr) (o : Option (State × α)) : Prop := ∀ p, o = some p → p.1.Keeps q
/-- The next state of an outcome is kept. -/
def OKeeps (q : List Instr) (o : Host.Outcome State Fault Refusal) : Prop := ∀ t, o = .next t → t.Keeps q
/-- The state of a sequencer step is kept. -/
def SKeeps (q : List Instr) (r : StepRes) : Prop := ∀ t c, r = .ok t c ∨ r = .later t c → t.Keeps q
/-- The state a write of the dump unit answers is kept. -/
def DKeeps (q : List Instr) (r : DumpRes) : Prop := ∀ t, r = .ok t ∨ r = .wait t → t.Keeps q

section
variable {q : List Instr} {s t : State} {α β : Type}

theorem keeps_of (h1 : t.pending = s.pending) (h2 : t.flash = s.flash) (h3 : t.media = s.media) (h4 : t.regs = s.regs)
    (h5 : t.pwr.state = s.pwr.state) (h6 : t.pwr.trans = s.pwr.trans) (h : s.Keeps q) : t.Keeps q := by
  simpa [State.Keeps, State.Sound, h1, h2, h3, h4, h5, h6] using h

theorem keeps_ite {c : Prop} [Decidable c] {a b : State} (ha : a.Keeps q) (hb : b.Keeps q) :
    (if c then a else b).Keeps q := by split <;> assumption

theorem keeps_foldl {f : State → β → State} {l : List β} (h : ∀ s b, s.Keeps q → (f s b).Keeps q) (hs : s.Keeps q) :
    (l.foldl f s).Keeps q := by
  induction l generalizing s with
  | nil => exact hs
  | cons b l ih => exact ih (h s b hs)

theorem keeps_fst {p : State × α} (h : PKeeps q p) : p.1.Keeps q := h
theorem pkeeps_eq {p : State × α} {x : α} (e : p = (t, x)) (h : PKeeps q p) : t.Keeps q := by subst e; exact h
theorem nkeeps_eq {o : Option State} (e : o = some t) (h : NKeeps q o) : t.Keeps q := h t e
theorem npkeeps_eq {o : Option (State × α)} {x : α} (e : o = some (t, x)) (h : NPKeeps q o) : t.Keeps q := h _ e
theorem npkeeps_var {o : Option (State × α)} {p : State × α} (e : o = some p) (h : NPKeeps q o) : p.1.Keeps q := h _ e

theorem pkeeps_mk {x : α} (h : s.Keeps q) : PKeeps q (s, x) := h
theorem pkeeps_ite {c : Prop} [Decidable c] {a b : State × α} (ha : PKeeps q a) (hb : PKeeps q b) :
    PKeeps q (if c then a else b) := by split <;> assumption
theorem pkeeps_foldl {f : State × α → β → State × α} {l : List β} {p : State × α}
    (h : ∀ p b, PKeeps q p → PKeeps q (f p b)) (hs : PKeeps q p) : PKeeps q (l.foldl f p) := by
  induction l generalizing p with
  | nil => exact hs
  | cons b l ih => exact ih (h p b hs)

theorem keeps_of_n (h : NKeeps q (some s)) : s.Keeps q := h s rfl
theorem nkeeps_none : NKeeps q none := by intro t h; cases h
theorem nkeeps_some (h : s.Keeps q) : NKeeps q (some s) := by intro t e; cases e; exact h
theorem nkeeps_ite {c : Prop} [Decidable c] {a b : Option State} (ha : NKeeps q a) (hb : NKeeps q b) :
    NKeeps q (if c then a else b) := by split <;> assumption
theorem npkeeps_none : NPKeeps q (none : Option (State × α)) := by intro t h; cases h
theorem npkeeps_some {p : State × α} (h : PKeeps q p) : NPKeeps q (some p) := by intro t e; cases e; exact h
theorem npkeeps_ite {c : Prop} [Decidable c] {a b : Option (State × α)} (ha : NPKeeps q a) (hb : NPKeeps q b) :
    NPKeeps q (if c then a else b) := by split <;> assumption

theorem okeeps_next (h : s.Keeps q) : OKeeps q (.next s) := by intro t e; cases e; exact h
theorem okeeps_fault {r : Fault} : OKeeps q (.fault r) := by intro t e; cases e
theorem okeeps_ite {c : Prop} [Decidable c] {a b : Host.Outcome State Fault Refusal} (ha : OKeeps q a) (hb : OKeeps q b) :
    OKeeps q (if c then a else b) := by split <;> assumption

theorem skeeps_ok {c : JobCtx} (h : s.Keeps q) : SKeeps q (.ok s c) := by intro t c' e; rcases e with e | e <;> cases e; exact h
theorem skeeps_later {c : JobCtx} (h : s.Keeps q) : SKeeps q (.later s c) := by intro t c' e; rcases e with e | e <;> cases e; exact h
theorem skeeps_fault : SKeeps q .fault := by intro t c e; rcases e with e | e <;> cases e
theorem skeeps_wait : SKeeps q .wait := by intro t c e; rcases e with e | e <;> cases e
theorem skeeps_ite {c : Prop} [Decidable c] {a b : StepRes} (ha : SKeeps q a) (hb : SKeeps q b) :
    SKeeps q (if c then a else b) := by split <;> assumption
theorem dkeeps_ok (h : s.Keeps q) : DKeeps q (.ok s) := by intro t e; rcases e with e | e <;> cases e; exact h
theorem dkeeps_wait (h : s.Keeps q) : DKeeps q (.wait s) := by intro t e; rcases e with e | e <;> cases e; exact h
theorem dkeeps_stop : DKeeps q .stop := by intro t e; rcases e with e | e <;> cases e
theorem dkeeps_ok_eq {r : DumpRes} (e : r = .ok s) (h : DKeeps q r) : s.Keeps q := h s (Or.inl e)
theorem dkeeps_wait_eq {r : DumpRes} (e : r = .wait s) (h : DKeeps q r) : s.Keeps q := h s (Or.inr e)

theorem keeps_of_p {x : α} (h : PKeeps q (s, x)) : s.Keeps q := h
theorem keeps_of_np {x : α} (h : NPKeeps q (some (s, x))) : s.Keeps q := h _ rfl
theorem nkeeps_foldl {f : Option State → β → Option State} {l : List β} {o : Option State}
    (h : ∀ o b, NKeeps q o → NKeeps q (f o b)) (ho : NKeeps q o) : NKeeps q (l.foldl f o) := by
  induction l generalizing o with
  | nil => exact ho
  | cons b l ih => exact ih (h o b ho)
theorem npkeeps_foldl {f : Option (State × α) → β → Option (State × α)} {l : List β} {o : Option (State × α)}
    (h : ∀ o b, NPKeeps q o → NPKeeps q (f o b)) (ho : NPKeeps q o) : NPKeeps q (l.foldl f o) := by
  induction l generalizing o with
  | nil => exact ho
  | cons b l ih => exact ih (h o b ho)
theorem nkeeps_getD {o : Option State} (h : NKeeps q o) (hs : s.Keeps q) : (o.getD s).Keeps q := by
  cases o with
  | none => exact hs
  | some t => exact keeps_of_n h
theorem nkeeps_bind {o : Option State} {f : State → Option State} (hf : ∀ s, s.Keeps q → NKeeps q (f s)) (h : NKeeps q o) :
    NKeeps q (o.bind f) := by
  cases o with
  | none => exact nkeeps_none
  | some s => exact hf s (keeps_of_n h)
theorem nkeeps_map {o : Option State} {f : State → State} (hf : ∀ s, s.Keeps q → (f s).Keeps q) (h : NKeeps q o) :
    NKeeps q (o.map f) := by
  cases o with
  | none => exact nkeeps_none
  | some s => exact nkeeps_some (hf s (keeps_of_n h))
theorem npkeeps_map {o : Option State} {f : State → State × α} (hf : ∀ s, s.Keeps q → PKeeps q (f s)) (h : NKeeps q o) :
    NPKeeps q (o.map f) := by
  cases o with
  | none => exact npkeeps_none
  | some s => exact npkeeps_some (hf s (keeps_of_n h))
theorem nkeeps_map_pair {o : Option (State × α)} {f : State × α → State} (hf : ∀ p, PKeeps q p → (f p).Keeps q)
    (h : NPKeeps q o) : NKeeps q (o.map f) := by
  cases o with
  | none => exact nkeeps_none
  | some p => exact nkeeps_some (hf p (h p rfl))

/-- A term of a kind that carries a state: what a proof asks of a local definition before it carries it along. -/
theorem is_state (_ : State) : True := trivial
theorem is_pair (_ : State × α) : True := trivial
theorem is_opt (_ : Option State) : True := trivial
theorem is_opt_pair (_ : Option (State × α)) : True := trivial
theorem is_fun (_ : State → α) : True := trivial
theorem is_pwr (_ : Pwr) : True := trivial
theorem is_step (_ : StepRes) : True := trivial

/-- Writing any field but the queue, the maps, the flash and the power record keeps. -/
theorem keeps_mk
    {x_time : Nat} {x_owner : SMap Nat} {x_pairs : SMap Nat} {x_heat : SMap Nat} {x_heatAt : Nat} {x_decayAt : Nat}
    {x_coolAt : SMap Nat} {x_moveAt : Nat} {x_vis : SMap Vi} {x_extents : List Extent} {x_running : SMap (Nat × CmdSrc)}
    {x_dirty : SMap (List Nat)} {x_ports : SMap Prt} {x_lds : SMap LogDev} {x_reqs : SMap Req} {x_nextReq : Nat}
    {x_walks : SMap Walk} {x_snoops : List Snoop} {x_dir : SMap DirEnt} {x_dirStamp : Nat} {x_piers : SMap Pr}
    {x_stripes : SMap Stripe} {x_relocs : SMap Reloc} {x_gcAt : Nat}
    {x_shadows : SMap (List (Nat × BitVec 512 × BitVec 64 × Bool))} {x_moves : List MoveLog} {x_slots : SMap KSlot}
    {x_kmap : SMap Nat} {x_stage : List Nat} {x_cc : SMap CEnt} {x_links : SMap Lnk} {x_sqrs : SMap Sqr}
    {x_engines : SMap Engine} {x_roles : SMap Nat} {x_key : Keystone} {x_mbx : SMap Mbx}
    {x_policy : SMap (Nat × Nat × Nat)} {x_profile : Nat} {x_custom : Bool} {x_mq : RecQueue} {x_missed : SMap Nat}
    {x_missedMax : List Nat} {x_errCap : SMap Record} {x_alertAt : Option Nat} {x_alerts : Nat} {x_held : List Record}
    {x_jnl : Jnl} {x_telSel : SMap Nat} {x_telCnt : SMap Nat} {x_lap : Lap} {x_clk : Clk} {x_aon : Bool} {x_rails : Bool}
    {x_img : Option Image} {x_locked : Bool} {x_zeroFilled : Bool} {x_metaSpan : Nat} {x_metaNext : Nat}
    {x_fenbo : FenboSt} {x_snap : SMap Nat} {x_bucketVi : SMap Bucket} {x_bucketPort : SMap Bucket}
    {x_shortAt : Option Nat} {x_ladder : Nat} {x_therm : Nat × Nat} {x_thermAt : Nat} {x_keyHash : BitVec 384}
    {x_vdtThr : SMap Nat} {x_free : Nat} {x_out : List Out} :
    (State.mk
      s.pending x_time s.regs s.media s.flash x_owner x_pairs x_heat x_heatAt x_decayAt x_coolAt x_moveAt x_vis x_extents
      x_running x_dirty x_ports x_lds x_reqs x_nextReq x_walks x_snoops x_dir x_dirStamp x_piers x_stripes x_relocs
      x_gcAt x_shadows x_moves x_slots x_kmap x_stage x_cc x_links x_sqrs x_engines x_roles x_key x_mbx x_policy
      x_profile x_custom x_mq x_missed x_missedMax x_errCap x_alertAt x_alerts x_held x_jnl x_telSel x_telCnt x_lap x_clk
      s.pwr x_aon x_rails x_img x_locked x_zeroFilled x_metaSpan x_metaNext x_fenbo x_snap x_bucketVi x_bucketPort
      x_shortAt x_ladder x_therm x_thermAt x_keyHash x_vdtThr x_free x_out).Keeps q =
      s.Keeps q := rfl

/-- The same with the power record written but for its state and transition. -/
theorem keeps_mkp
    {x_time : Nat} {x_owner : SMap Nat} {x_pairs : SMap Nat} {x_heat : SMap Nat} {x_heatAt : Nat} {x_decayAt : Nat}
    {x_coolAt : SMap Nat} {x_moveAt : Nat} {x_vis : SMap Vi} {x_extents : List Extent} {x_running : SMap (Nat × CmdSrc)}
    {x_dirty : SMap (List Nat)} {x_ports : SMap Prt} {x_lds : SMap LogDev} {x_reqs : SMap Req} {x_nextReq : Nat}
    {x_walks : SMap Walk} {x_snoops : List Snoop} {x_dir : SMap DirEnt} {x_dirStamp : Nat} {x_piers : SMap Pr}
    {x_stripes : SMap Stripe} {x_relocs : SMap Reloc} {x_gcAt : Nat}
    {x_shadows : SMap (List (Nat × BitVec 512 × BitVec 64 × Bool))} {x_moves : List MoveLog} {x_slots : SMap KSlot}
    {x_kmap : SMap Nat} {x_stage : List Nat} {x_cc : SMap CEnt} {x_links : SMap Lnk} {x_sqrs : SMap Sqr}
    {x_engines : SMap Engine} {x_roles : SMap Nat} {x_key : Keystone} {x_mbx : SMap Mbx}
    {x_policy : SMap (Nat × Nat × Nat)} {x_profile : Nat} {x_custom : Bool} {x_mq : RecQueue} {x_missed : SMap Nat}
    {x_missedMax : List Nat} {x_errCap : SMap Record} {x_alertAt : Option Nat} {x_alerts : Nat} {x_held : List Record}
    {x_jnl : Jnl} {x_telSel : SMap Nat} {x_telCnt : SMap Nat} {x_lap : Lap} {x_clk : Clk} {x_aon : Bool} {x_rails : Bool}
    {x_img : Option Image} {x_locked : Bool} {x_zeroFilled : Bool} {x_metaSpan : Nat} {x_metaNext : Nat}
    {x_fenbo : FenboSt} {x_snap : SMap Nat} {x_bucketVi : SMap Bucket} {x_bucketPort : SMap Bucket}
    {x_shortAt : Option Nat} {x_ladder : Nat} {x_therm : Nat × Nat} {x_thermAt : Nat} {x_keyHash : BitVec 384}
    {x_vdtThr : SMap Nat} {x_free : Nat} {x_out : List Out} {y_target : Nat} {y_wake : Option Nat} {y_rootLoss : Bool}
    {y_upAtLoss : Nat} {y_enMain : Bool} {y_enMem : Bool} {y_thermtrip : Bool} {y_failedStarts : Nat}
    {y_waitRestart : Bool} {y_sleepAt : Nat} {y_savedDefer : Bool} {y_skipSave : Bool} {y_addrSel : Nat} {y_warm : Bool}
    {y_holdAt : Nat} :
    (State.mk
      s.pending x_time s.regs s.media s.flash x_owner x_pairs x_heat x_heatAt x_decayAt x_coolAt x_moveAt x_vis x_extents
      x_running x_dirty x_ports x_lds x_reqs x_nextReq x_walks x_snoops x_dir x_dirStamp x_piers x_stripes x_relocs
      x_gcAt x_shadows x_moves x_slots x_kmap x_stage x_cc x_links x_sqrs x_engines x_roles x_key x_mbx x_policy
      x_profile x_custom x_mq x_missed x_missedMax x_errCap x_alertAt x_alerts x_held x_jnl x_telSel x_telCnt x_lap x_clk
      (Pwr.mk s.pwr.state y_target s.pwr.trans y_wake y_rootLoss y_upAtLoss y_enMain y_enMem y_thermtrip y_failedStarts y_waitRestart y_sleepAt y_savedDefer y_skipSave y_addrSel y_warm y_holdAt)
      x_aon x_rails x_img x_locked x_zeroFilled x_metaSpan x_metaNext x_fenbo x_snap x_bucketVi x_bucketPort x_shortAt
      x_ladder x_therm x_thermAt x_keyHash x_vdtThr x_free x_out).Keeps q =
      s.Keeps q := rfl

/-- Any write with a flash in canonical form keeps. -/
theorem keeps_mkf
    {x_time : Nat} {x_owner : SMap Nat} {x_pairs : SMap Nat} {x_heat : SMap Nat} {x_heatAt : Nat} {x_decayAt : Nat}
    {x_coolAt : SMap Nat} {x_moveAt : Nat} {x_vis : SMap Vi} {x_extents : List Extent} {x_running : SMap (Nat × CmdSrc)}
    {x_dirty : SMap (List Nat)} {x_ports : SMap Prt} {x_lds : SMap LogDev} {x_reqs : SMap Req} {x_nextReq : Nat}
    {x_walks : SMap Walk} {x_snoops : List Snoop} {x_dir : SMap DirEnt} {x_dirStamp : Nat} {x_piers : SMap Pr}
    {x_stripes : SMap Stripe} {x_relocs : SMap Reloc} {x_gcAt : Nat}
    {x_shadows : SMap (List (Nat × BitVec 512 × BitVec 64 × Bool))} {x_moves : List MoveLog} {x_slots : SMap KSlot}
    {x_kmap : SMap Nat} {x_stage : List Nat} {x_cc : SMap CEnt} {x_links : SMap Lnk} {x_sqrs : SMap Sqr}
    {x_engines : SMap Engine} {x_roles : SMap Nat} {x_key : Keystone} {x_mbx : SMap Mbx}
    {x_policy : SMap (Nat × Nat × Nat)} {x_profile : Nat} {x_custom : Bool} {x_mq : RecQueue} {x_missed : SMap Nat}
    {x_missedMax : List Nat} {x_errCap : SMap Record} {x_alertAt : Option Nat} {x_alerts : Nat} {x_held : List Record}
    {x_jnl : Jnl} {x_telSel : SMap Nat} {x_telCnt : SMap Nat} {x_lap : Lap} {x_clk : Clk} {x_aon : Bool} {x_rails : Bool}
    {x_img : Option Image} {x_locked : Bool} {x_zeroFilled : Bool} {x_metaSpan : Nat} {x_metaNext : Nat}
    {x_fenbo : FenboSt} {x_snap : SMap Nat} {x_bucketVi : SMap Bucket} {x_bucketPort : SMap Bucket}
    {x_shortAt : Option Nat} {x_ladder : Nat} {x_therm : Nat × Nat} {x_thermAt : Nat} {x_keyHash : BitVec 384}
    {x_vdtThr : SMap Nat} {x_free : Nat} {x_out : List Out} {x_flash : List Host.Cell}
    (hf : Memory.wf x_flash = true) (h : s.Keeps q) :
    (State.mk
      s.pending x_time s.regs s.media x_flash x_owner x_pairs x_heat x_heatAt x_decayAt x_coolAt x_moveAt x_vis x_extents
      x_running x_dirty x_ports x_lds x_reqs x_nextReq x_walks x_snoops x_dir x_dirStamp x_piers x_stripes x_relocs
      x_gcAt x_shadows x_moves x_slots x_kmap x_stage x_cc x_links x_sqrs x_engines x_roles x_key x_mbx x_policy
      x_profile x_custom x_mq x_missed x_missedMax x_errCap x_alertAt x_alerts x_held x_jnl x_telSel x_telCnt x_lap x_clk
      s.pwr x_aon x_rails x_img x_locked x_zeroFilled x_metaSpan x_metaNext x_fenbo x_snap x_bucketVi x_bucketPort
      x_shortAt x_ladder x_therm x_thermAt x_keyHash x_vdtThr x_free x_out).Keeps q :=
  ⟨h.1, hf, h.2.2⟩

/-- Any write with a power record of legal codes keeps. -/
theorem keeps_mkpw
    {x_time : Nat} {x_owner : SMap Nat} {x_pairs : SMap Nat} {x_heat : SMap Nat} {x_heatAt : Nat} {x_decayAt : Nat}
    {x_coolAt : SMap Nat} {x_moveAt : Nat} {x_vis : SMap Vi} {x_extents : List Extent} {x_running : SMap (Nat × CmdSrc)}
    {x_dirty : SMap (List Nat)} {x_ports : SMap Prt} {x_lds : SMap LogDev} {x_reqs : SMap Req} {x_nextReq : Nat}
    {x_walks : SMap Walk} {x_snoops : List Snoop} {x_dir : SMap DirEnt} {x_dirStamp : Nat} {x_piers : SMap Pr}
    {x_stripes : SMap Stripe} {x_relocs : SMap Reloc} {x_gcAt : Nat}
    {x_shadows : SMap (List (Nat × BitVec 512 × BitVec 64 × Bool))} {x_moves : List MoveLog} {x_slots : SMap KSlot}
    {x_kmap : SMap Nat} {x_stage : List Nat} {x_cc : SMap CEnt} {x_links : SMap Lnk} {x_sqrs : SMap Sqr}
    {x_engines : SMap Engine} {x_roles : SMap Nat} {x_key : Keystone} {x_mbx : SMap Mbx}
    {x_policy : SMap (Nat × Nat × Nat)} {x_profile : Nat} {x_custom : Bool} {x_mq : RecQueue} {x_missed : SMap Nat}
    {x_missedMax : List Nat} {x_errCap : SMap Record} {x_alertAt : Option Nat} {x_alerts : Nat} {x_held : List Record}
    {x_jnl : Jnl} {x_telSel : SMap Nat} {x_telCnt : SMap Nat} {x_lap : Lap} {x_clk : Clk} {x_aon : Bool} {x_rails : Bool}
    {x_img : Option Image} {x_locked : Bool} {x_zeroFilled : Bool} {x_metaSpan : Nat} {x_metaNext : Nat}
    {x_fenbo : FenboSt} {x_snap : SMap Nat} {x_bucketVi : SMap Bucket} {x_bucketPort : SMap Bucket}
    {x_shortAt : Option Nat} {x_ladder : Nat} {x_therm : Nat × Nat} {x_thermAt : Nat} {x_keyHash : BitVec 384}
    {x_vdtThr : SMap Nat} {x_free : Nat} {x_out : List Out} {x_pwr : Pwr}
    (h1 : x_pwr.state ≤ 5) (h2 : x_pwr.trans ≤ 3) (h : s.Keeps q) :
    (State.mk
      s.pending x_time s.regs s.media s.flash x_owner x_pairs x_heat x_heatAt x_decayAt x_coolAt x_moveAt x_vis x_extents
      x_running x_dirty x_ports x_lds x_reqs x_nextReq x_walks x_snoops x_dir x_dirStamp x_piers x_stripes x_relocs
      x_gcAt x_shadows x_moves x_slots x_kmap x_stage x_cc x_links x_sqrs x_engines x_roles x_key x_mbx x_policy
      x_profile x_custom x_mq x_missed x_missedMax x_errCap x_alertAt x_alerts x_held x_jnl x_telSel x_telCnt x_lap x_clk
      x_pwr x_aon x_rails x_img x_locked x_zeroFilled x_metaSpan x_metaNext x_fenbo x_snap x_bucketVi x_bucketPort
      x_shortAt x_ladder x_therm x_thermAt x_keyHash x_vdtThr x_free x_out).Keeps q :=
  ⟨h.1, h.2.1, h.2.2.1, h.2.2.2.1, h1, h2⟩

/-- A register field put keeps the canonical form. -/
theorem State.put_keeps {pg : Nat} {f : Fld} {v : Nat} (h : s.Keeps q) : (s.put pg f v).Keeps q :=
  ⟨h.1, h.2.1, h.2.2.1, SMap.sorted_put _ _ _ h.2.2.2.1, h.2.2.2.2⟩

/-- The DRAM map replaced by one in canonical form. -/
theorem keeps_media {m : SMap Line} (h : s.Keeps q) (hm : SMap.sorted m = true) : ({ s with media := m } : State).Keeps q :=
  ⟨h.1, h.2.1, hm, h.2.2.2⟩

/-- The flash replaced by one in canonical form. -/
theorem keeps_flash {m : List Host.Cell} (h : s.Keeps q) (hm : Memory.wf m = true) : ({ s with flash := m } : State).Keeps q :=
  ⟨h.1, hm, h.2.2⟩

theorem State.Keeps.state_le (h : s.Keeps q) : s.pwr.state ≤ 5 := h.2.2.2.2.1
theorem State.Keeps.trans_le (h : s.Keeps q) : s.pwr.trans ≤ 3 := h.2.2.2.2.2

/-- The power record replaced by one with legal codes. -/
theorem keeps_pwr (h1 : t.pending = s.pending) (h2 : t.flash = s.flash) (h3 : t.media = s.media) (h4 : t.regs = s.regs)
    (h5 : t.pwr.state ≤ 5) (h6 : t.pwr.trans ≤ 3) (h : s.Keeps q) : t.Keeps q := by
  obtain ⟨a, b, c, d, -, -⟩ := h
  exact ⟨h1 ▸ a, h2 ▸ b, h3 ▸ c, h4 ▸ d, h5, h6⟩

theorem State.Keeps.media_sorted (h : s.Keeps q) : SMap.sorted s.media = true := h.2.2.1
theorem State.Keeps.flash_wf (h : s.Keeps q) : Memory.wf s.flash = true := h.2.1
theorem State.Keeps.regs_sorted (h : s.Keeps q) : SMap.sorted s.regs = true := h.2.2.2.1

theorem State.dropFrames_keeps {lo hi : Nat} (h : s.Keeps q) : (s.dropFrames lo hi).Keeps q :=
  keeps_media h (SMap.sorted_drop' _ _ h.media_sorted)

end

end Sys2Proof.Machine
end

