-- ==== Sys2Proof/Laws/KeepsOps.lean ====
section
/-!
SUPPORT. The meanings and operations of Machine/Ops.lean keep a sound state and its queue.
-/
set_option linter.unusedTactic false
set_option linter.unusedSimpArgs false
set_option linter.unusedVariables false
set_option linter.unreachableTactic false

namespace Sys2Proof.Machine

theorem State.bump_keeps {Q : List Instr} {s : State} {pg : Nat} {cnt : Fld} {sat : Fld} {k : Nat} (h : s.Keeps Q) :
    (State.bump s pg cnt sat k).Keeps Q := by
  unfold State.bump
  repeat' first
    | with_reducible assumption | with_reducible apply State.put_keeps | with_reducible apply keeps_ite
    | (extract_lets +onlyGivenNames x; (have : True := by clear_value x; clear * - x; exact is_state (by assumption)); clear this; refine (fun hx => ?_ : State.Keeps Q x → _) ?_ <;> [clear_value x; (dsimp -zeta only [x]; clear x)])
    | (extract_lets +onlyGivenNames x; clear_value x) | split | dsimp -zeta only

theorem State.emit_keeps {Q : List Instr} {s : State} {o : Out} (h : s.Keeps Q) :
    (State.emit s o).Keeps Q := by
  unfold State.emit
  repeat' first
    | with_reducible assumption | with_reducible apply keeps_ite | fail_if_no_progress with_reducible rw [keeps_mk] | split
    | dsimp -zeta only

theorem State.tick_keeps {Q : List Instr} {s : State} (h : s.Keeps Q) :
    (State.tick s).Keeps Q := by
  unfold State.tick
  repeat' first
    | with_reducible assumption | with_reducible apply keeps_ite | fail_if_no_progress with_reducible rw [keeps_mk] | split
    | dsimp -zeta only

theorem State.setVi_keeps {Q : List Instr} {s : State} {t : Nat} {v : Vi} (h : s.Keeps Q) :
    (State.setVi s t v).Keeps Q := by
  unfold State.setVi
  repeat' first
    | with_reducible assumption | with_reducible apply State.put_keeps | with_reducible apply keeps_ite
    | fail_if_no_progress with_reducible rw [keeps_mk] | split | dsimp -zeta only

theorem State.setPrt_keeps {Q : List Instr} {s : State} {p : Nat} {v : Prt} (h : s.Keeps Q) :
    (State.setPrt s p v).Keeps Q := by
  unfold State.setPrt
  repeat' first
    | with_reducible assumption | with_reducible apply State.put_keeps | with_reducible apply keeps_ite
    | fail_if_no_progress with_reducible rw [keeps_mk] | split | dsimp -zeta only

theorem State.setPier_keeps {Q : List Instr} {s : State} {n : Nat} {v : Pr} (h : s.Keeps Q) :
    (State.setPier s n v).Keeps Q := by
  unfold State.setPier
  repeat' first
    | with_reducible assumption | with_reducible apply State.put_keeps | with_reducible apply keeps_ite
    | fail_if_no_progress with_reducible rw [keeps_mk] | split | dsimp -zeta only

theorem State.setLdev_keeps {Q : List Instr} {s : State} {p : Nat} {ld : Nat} {v : LogDev} (h : s.Keeps Q) :
    (State.setLdev s p ld v).Keeps Q := by
  unfold State.setLdev
  repeat' first
    | with_reducible assumption | with_reducible apply State.put_keeps | with_reducible apply keeps_ite
    | fail_if_no_progress with_reducible rw [keeps_mk] | split | dsimp -zeta only

theorem State.setLink_keeps {Q : List Instr} {s : State} {l : Nat} {v : Lnk} (h : s.Keeps Q) :
    (State.setLink s l v).Keeps Q := by
  unfold State.setLink
  repeat' first
    | with_reducible assumption | with_reducible apply State.put_keeps | with_reducible apply keeps_ite
    | fail_if_no_progress with_reducible rw [keeps_mk] | split | dsimp -zeta only

theorem State.setSqr_keeps {Q : List Instr} {s : State} {q : Nat} {v : Sqr} (h : s.Keeps Q) :
    (State.setSqr s q v).Keeps Q := by
  unfold State.setSqr
  repeat' first
    | with_reducible assumption | with_reducible apply State.put_keeps | with_reducible apply keeps_ite
    | fail_if_no_progress with_reducible rw [keeps_mk] | split | dsimp -zeta only

theorem State.setEng_keeps {Q : List Instr} {s : State} {e : Nat} {v : Engine} (h : s.Keeps Q) :
    (State.setEng s e v).Keeps Q := by
  unfold State.setEng
  repeat' first
    | with_reducible assumption | with_reducible apply State.put_keeps | with_reducible apply keeps_ite
    | fail_if_no_progress with_reducible rw [keeps_mk] | split | dsimp -zeta only

theorem State.setSlot_keeps {Q : List Instr} {s : State} {k : Nat} {v : KSlot} (h : s.Keeps Q) :
    (State.setSlot s k v).Keeps Q := by
  unfold State.setSlot
  repeat' first
    | with_reducible assumption | with_reducible apply State.put_keeps | with_reducible apply keeps_ite
    | fail_if_no_progress with_reducible rw [keeps_mk] | split | dsimp -zeta only

theorem State.setStripe_keeps {Q : List Instr} {s : State} {k : Nat} {v : Stripe} (h : s.Keeps Q) :
    (State.setStripe s k v).Keeps Q := by
  unfold State.setStripe
  repeat' first
    | with_reducible assumption | with_reducible apply State.put_keeps | with_reducible apply keeps_ite
    | fail_if_no_progress with_reducible rw [keeps_mk] | split | dsimp -zeta only

theorem State.setReq_keeps {Q : List Instr} {s : State} {id : Nat} {r : Req} (h : s.Keeps Q) :
    (State.setReq s id r).Keeps Q := by
  unfold State.setReq
  repeat' first
    | with_reducible assumption | with_reducible apply State.put_keeps | with_reducible apply keeps_ite
    | fail_if_no_progress with_reducible rw [keeps_mk] | split | dsimp -zeta only

theorem State.wakeBy_keeps {Q : List Instr} {s : State} {src : Nat} (h : s.Keeps Q) : (s.wakeBy src).Keeps Q := by
  unfold State.wakeBy
  dsimp only
  split
  · split
    · exact h
    · split
      · exact State.put_keeps h
      · exact State.put_keeps (keeps_of (s := s.put 0xB Reg.PWR_STAT_WAKE_LATCHED 1) rfl rfl rfl rfl rfl rfl (State.put_keeps h))
  · split
    · exact State.put_keeps (State.put_keeps (keeps_pwr (s := s) rfl rfl rfl rfl h.state_le (le_refl 3) h))
    · exact h

theorem State.leaveIdle_keeps {Q : List Instr} {s : State} (h : s.Keeps Q) : s.leaveIdle.Keeps Q := by
  unfold State.leaveIdle
  split
  · exact State.put_keeps (State.put_keeps (keeps_pwr (s := s) rfl rfl rfl rfl (Nat.zero_le 5) h.trans_le h))
  · exact h

end Sys2Proof.Machine
end

