-- ==== Sys2Proof/Laws/KeepsFlags.lean ====
section
/-!
SUPPORT. The meanings and operations of Machine/Flags.lean keep a sound state and its queue.
-/
set_option linter.unusedTactic false
set_option linter.unusedSimpArgs false
set_option linter.unusedVariables false
set_option linter.unreachableTactic false

namespace Sys2Proof.Machine

theorem State.countMissed_keeps {Q : List Instr} {s : State} {src : Nat} (h : s.Keeps Q) :
    (State.countMissed s src).Keeps Q := by
  unfold State.countMissed
  repeat' first
    | with_reducible assumption | with_reducible apply State.put_keeps | with_reducible apply keeps_ite
    | (extract_lets +onlyGivenNames x; (have : True := by clear_value x; clear * - x; exact is_state (by assumption)); clear this; refine (fun hx => ?_ : State.Keeps Q x → _) ?_ <;> [clear_value x; (dsimp -zeta only [x]; clear x)])
    | (extract_lets +onlyGivenNames x; clear_value x) | fail_if_no_progress with_reducible rw [keeps_mk] | split
    | dsimp -zeta only

theorem State.countLost_keeps {Q : List Instr} {s : State} {r : Option Record} (h : s.Keeps Q) :
    (State.countLost s r).Keeps Q := by
  unfold State.countLost
  repeat' first
    | with_reducible assumption | with_reducible apply State.countMissed_keeps | with_reducible apply keeps_ite
    | fail_if_no_progress with_reducible rw [keeps_mk] | split | dsimp -zeta only

theorem State.toManager_keeps {Q : List Instr} {s : State} {r : Record} (h : s.Keeps Q) :
    (State.toManager s r).Keeps Q := by
  unfold State.toManager
  repeat' first
    | with_reducible assumption | with_reducible apply State.countLost_keeps | with_reducible apply State.emit_keeps
    | with_reducible apply keeps_ite
    | (extract_lets +onlyGivenNames x; (have : True := by clear_value x; clear * - x; exact is_state (by assumption)); clear this; refine (fun hx => ?_ : State.Keeps Q x → _) ?_ <;> [clear_value x; (dsimp -zeta only [x]; clear x)])
    | (extract_lets +onlyGivenNames x; clear_value x) | fail_if_no_progress with_reducible rw [keeps_mk] | split
    | dsimp -zeta only

theorem State.toFault_keeps {Q : List Instr} {s : State} {t : Nat} {r : Record} (h : s.Keeps Q) :
    (State.toFault s t r).Keeps Q := by
  unfold State.toFault
  repeat' first
    | with_reducible assumption | with_reducible apply State.setVi_keeps | with_reducible apply State.countLost_keeps
    | with_reducible apply State.emit_keeps | with_reducible apply keeps_ite
    | with_reducible refine keeps_foldl (fun _ _ _ => ?_) ?_ | with_reducible refine nkeeps_foldl (fun _ _ _ => ?_) ?_
    | with_reducible refine npkeeps_foldl (fun _ _ _ => ?_) ?_
    | (extract_lets +onlyGivenNames x; (have : True := by clear_value x; clear * - x; exact is_state (by assumption)); clear this; refine (fun hx => ?_ : State.Keeps Q x → _) ?_ <;> [clear_value x; (dsimp -zeta only [x]; clear x)])
    | (extract_lets +onlyGivenNames x; clear_value x) | fail_if_no_progress with_reducible rw [keeps_mk] | split
    | dsimp -zeta only

theorem State.toLog_keeps {Q : List Instr} {s : State} {p : Nat} {ld : Nat} {r : Record} (h : s.Keeps Q) :
    (State.toLog s p ld r).Keeps Q := by
  unfold State.toLog
  repeat' first
    | with_reducible assumption | with_reducible apply State.setLdev_keeps | with_reducible apply State.countLost_keeps
    | with_reducible apply keeps_ite
    | (extract_lets +onlyGivenNames x; (have : True := by clear_value x; clear * - x; exact is_state (by assumption)); clear this; refine (fun hx => ?_ : State.Keeps Q x → _) ?_ <;> [clear_value x; (dsimp -zeta only [x]; clear x)])
    | (extract_lets +onlyGivenNames x; clear_value x) | fail_if_no_progress with_reducible rw [keeps_mk] | split
    | dsimp -zeta only

theorem State.toJournal_keeps {Q : List Instr} {s : State} {r : Record} (h : s.Keeps Q) :
    (State.toJournal s r).Keeps Q := by
  unfold State.toJournal
  repeat' first
    | with_reducible assumption | with_reducible apply State.countMissed_keeps | with_reducible apply keeps_ite
    | (extract_lets +onlyGivenNames x; (have : True := by clear_value x; clear * - x; exact is_state (by assumption)); clear this; refine (fun hx => ?_ : State.Keeps Q x → _) ?_ <;> [clear_value x; (dsimp -zeta only [x]; clear x)])
    | (extract_lets +onlyGivenNames x; clear_value x) | fail_if_no_progress with_reducible rw [keeps_mk] | split
    | dsimp -zeta only

theorem State.alert_keeps {Q : List Instr} {s : State} (h : s.Keeps Q) :
    (State.alert s).Keeps Q := by
  unfold State.alert
  repeat' first
    | with_reducible assumption | with_reducible apply State.put_keeps | with_reducible apply keeps_ite
    | fail_if_no_progress with_reducible rw [keeps_mk] | split | dsimp -zeta only

theorem State.countRecords_keeps {Q : List Instr} {s : State} (h : s.Keeps Q) :
    (State.countRecords s).Keeps Q := by
  unfold State.countRecords
  repeat' first
    | with_reducible assumption | with_reducible apply State.put_keeps | with_reducible apply keeps_ite
    | with_reducible refine keeps_foldl (fun _ _ _ => ?_) ?_ | with_reducible refine nkeeps_foldl (fun _ _ _ => ?_) ?_
    | with_reducible refine npkeeps_foldl (fun _ _ _ => ?_) ?_
    | (extract_lets +onlyGivenNames x; (have : True := by clear_value x; clear * - x; exact is_state (by assumption)); clear this; refine (fun hx => ?_ : State.Keeps Q x → _) ?_ <;> [clear_value x; (dsimp -zeta only [x]; clear x)])
    | (extract_lets +onlyGivenNames x; clear_value x) | fail_if_no_progress with_reducible rw [keeps_mk] | split
    | dsimp -zeta only

theorem State.produce_keeps {Q : List Instr} {s : State} {r : Record} {req : ReqFrom} (h : s.Keeps Q) :
    (State.produce s r req).Keeps Q := by
  unfold State.produce
  repeat' first
    | with_reducible assumption | with_reducible apply State.countRecords_keeps | with_reducible apply State.put_keeps
    | with_reducible apply State.toManager_keeps | with_reducible apply State.toFault_keeps
    | with_reducible apply State.toLog_keeps | with_reducible apply State.toJournal_keeps
    | with_reducible apply State.alert_keeps | with_reducible apply keeps_ite
    | with_reducible refine keeps_foldl (fun _ _ _ => ?_) ?_ | with_reducible refine nkeeps_foldl (fun _ _ _ => ?_) ?_
    | with_reducible refine npkeeps_foldl (fun _ _ _ => ?_) ?_
    | (extract_lets +onlyGivenNames x; (have : True := by clear_value x; clear * - x; exact is_state (by assumption)); clear this; refine (fun hx => ?_ : State.Keeps Q x → _) ?_ <;> [clear_value x; (dsimp -zeta only [x]; clear x)])
    | (extract_lets +onlyGivenNames x; clear_value x) | fail_if_no_progress with_reducible rw [keeps_mk] | split
    | dsimp -zeta only

theorem State.raiseFor_keeps {Q : List Instr} {s : State} {src : Nat} {kind : Nat} {sev : Nat} {vi : Option Nat} {da : Nat} {det : Nat} {req : ReqFrom} (h : s.Keeps Q) :
    (State.raiseFor s src kind sev vi da det req).Keeps Q := by
  unfold State.raiseFor
  repeat' first
    | with_reducible assumption | with_reducible apply State.produce_keeps | with_reducible apply State.leaveIdle_keeps
    | with_reducible apply keeps_ite
    | (extract_lets +onlyGivenNames x; (have : True := by clear_value x; clear * - x; exact is_state (by assumption)); clear this; refine (fun hx => ?_ : State.Keeps Q x → _) ?_ <;> [clear_value x; (dsimp -zeta only [x]; clear x)])
    | (extract_lets +onlyGivenNames x; clear_value x) | fail_if_no_progress with_reducible rw [keeps_mk] | split
    | dsimp -zeta only

theorem State.raise_keeps {Q : List Instr} {s : State} {src : Nat} {kind : Nat} {sev : Nat} {vi : Option Nat} {da : Nat} {det : Nat} (h : s.Keeps Q) :
    (State.raise s src kind sev vi da det).Keeps Q := by
  unfold State.raise
  repeat' first
    | with_reducible assumption | with_reducible apply State.raiseFor_keeps | with_reducible apply keeps_ite | split
    | dsimp -zeta only

theorem State.closedAccess_keeps {Q : List Instr} {s : State} (h : s.Keeps Q) :
    (State.closedAccess s).Keeps Q := by
  unfold State.closedAccess
  repeat' first
    | with_reducible assumption | with_reducible apply State.put_keeps | with_reducible apply State.raise_keeps
    | with_reducible apply keeps_ite | split | dsimp -zeta only

theorem State.atPage_keeps {Q : List Instr} {s : State} {pg : Nat} {f : State → State}
    (hf : ∀ s, s.Keeps Q → (f s).Keeps Q) (h : s.Keeps Q) : (s.atPage pg f).Keeps Q := by
  unfold State.atPage
  split
  · exact State.closedAccess_keeps h
  · exact hf s h

end Sys2Proof.Machine
end

