-- ==== Sys2Proof/Laws/KeepsOperands.lean ====
section
/-!
SUPPORT. The meanings and operations of Machine/Operands.lean keep a sound state and its queue.
-/
set_option linter.unusedTactic false
set_option linter.unusedSimpArgs false
set_option linter.unusedVariables false
set_option linter.unreachableTactic false

namespace Sys2Proof.Machine

theorem State.tally_keeps {Q : List Instr} {s : State} {lo : Nat} {n : Nat} {code : Nat} {amt : Nat} {flt : Option Flt} (h : s.Keeps Q) :
    (State.tally s lo n code amt flt).Keeps Q := by
  unfold State.tally
  repeat' first
    | with_reducible assumption | with_reducible apply State.put_keeps | with_reducible apply keeps_ite
    | with_reducible refine keeps_foldl (fun _ _ _ => ?_) ?_ | with_reducible refine nkeeps_foldl (fun _ _ _ => ?_) ?_
    | with_reducible refine npkeeps_foldl (fun _ _ _ => ?_) ?_
    | (extract_lets +onlyGivenNames x; (have : True := by clear_value x; clear * - x; exact is_state (by assumption)); clear this; refine (fun hx => ?_ : State.Keeps Q x → _) ?_ <;> [clear_value x; (dsimp -zeta only [x]; clear x)])
    | (extract_lets +onlyGivenNames x; clear_value x) | fail_if_no_progress with_reducible rw [keeps_mk] | split
    | dsimp -zeta only

theorem State.telHub_keeps {Q : List Instr} {s : State} {code : Nat} {amt : Nat} {f : Option Flt} (h : s.Keeps Q) :
    (State.telHub s code amt f).Keeps Q := by
  unfold State.telHub
  repeat' first
    | with_reducible assumption | with_reducible apply State.tally_keeps | with_reducible apply keeps_ite | split
    | dsimp -zeta only

theorem State.telPort_keeps {Q : List Instr} {s : State} {p : Nat} {code : Nat} {amt : Nat} {f : Option Flt} (h : s.Keeps Q) :
    (State.telPort s p code amt f).Keeps Q := by
  unfold State.telPort
  repeat' first
    | with_reducible assumption | with_reducible apply State.tally_keeps | with_reducible apply keeps_ite | split
    | dsimp -zeta only

theorem State.telPier_keeps {Q : List Instr} {s : State} {n : Nat} {code : Nat} {amt : Nat} {f : Option Flt} (h : s.Keeps Q) :
    (State.telPier s n code amt f).Keeps Q := by
  unfold State.telPier
  repeat' first
    | with_reducible assumption | with_reducible apply State.tally_keeps | with_reducible apply keeps_ite | split
    | dsimp -zeta only

end Sys2Proof.Machine
end

