-- ==== Sys2Proof/Laws/KeepsMedia.lean ====
section
/-!
SUPPORT. The meanings and operations of Machine/Media.lean keep a sound state and its queue.
-/
set_option linter.unusedTactic false
set_option linter.unusedSimpArgs false
set_option linter.unusedVariables false
set_option linter.unreachableTactic false

namespace Sys2Proof.Machine

theorem State.poolTake_keeps {Q : List Instr} {s : State} {da : Nat} {l : Line} (h : s.Keeps Q) :
    (State.poolTake s da l).Keeps Q := by
  unfold State.poolTake
  repeat' first
    | with_reducible assumption | with_reducible apply State.put_keeps | with_reducible apply keeps_ite
    | with_reducible refine keeps_foldl (fun _ _ _ => ?_) ?_ | with_reducible refine nkeeps_foldl (fun _ _ _ => ?_) ?_
    | with_reducible refine npkeeps_foldl (fun _ _ _ => ?_) ?_
    | (extract_lets +onlyGivenNames x; (have : True := by clear_value x; clear * - x; exact is_state (by assumption)); clear this; refine (fun hx => ?_ : State.Keeps Q x → _) ?_ <;> [clear_value x; (dsimp -zeta only [x]; clear x)])
    | (extract_lets +onlyGivenNames x; clear_value x) | fail_if_no_progress with_reducible rw [keeps_mk] | split
    | dsimp -zeta only

theorem State.dramWrite_keeps {Q : List Instr} {s : State} {da copy : Nat} {l : Line} (h : s.Keeps Q) :
    (State.dramWrite s da copy l).Keeps Q := by
  unfold State.dramWrite
  have hp : (s.poolTake da l).Keeps Q := State.poolTake_keeps h
  exact keeps_media hp (SMap.sorted_put _ _ _ hp.media_sorted)

end Sys2Proof.Machine
end

