-- ==== Sys2Proof/Laws/KeepsBus.lean ====
section
/-!
SUPPORT. The meanings and operations of Machine/Bus.lean keep a sound state and its queue.
-/
set_option linter.unusedTactic false
set_option linter.unusedSimpArgs false
set_option linter.unusedVariables false
set_option linter.unreachableTactic false

namespace Sys2Proof.Machine

theorem State.book_keeps {Q : List Instr} {s : State} {n : Nat} {cls : Nat} {amt : Nat} (h : s.Keeps Q) :
    (State.book s n cls amt).Keeps Q := by
  unfold State.book
  repeat' first
    | with_reducible assumption | with_reducible apply State.telPier_keeps | with_reducible apply keeps_ite
    | (extract_lets +onlyGivenNames x; (have : True := by clear_value x; clear * - x; exact is_state (by assumption)); clear this; refine (fun hx => ?_ : State.Keeps Q x → _) ?_ <;> [clear_value x; (dsimp -zeta only [x]; clear x)])
    | (extract_lets +onlyGivenNames x; clear_value x) | split | dsimp -zeta only

theorem State.burstSlot_keeps {Q : List Instr} {s : State} {m : Ma} {b : Burst} (h : s.Keeps Q) :
    (State.burstSlot s m b).Keeps Q := by
  unfold State.burstSlot
  repeat' first
    | with_reducible assumption | with_reducible apply State.tick_keeps | with_reducible apply State.book_keeps
    | with_reducible apply State.setPier_keeps | with_reducible apply keeps_ite
    | (extract_lets +onlyGivenNames x; (have : True := by clear_value x; clear * - x; exact is_state (by assumption)); clear this; refine (fun hx => ?_ : State.Keeps Q x → _) ?_ <;> [clear_value x; (dsimp -zeta only [x]; clear x)])
    | (extract_lets +onlyGivenNames x; clear_value x) | fail_if_no_progress with_reducible rw [keeps_mk] | split
    | dsimp -zeta only

theorem State.passSub_keeps {Q : List Instr} {s : State} {n : Nat} {sub : Nat} {slots : Nat} {waits : Bool} (h : s.Keeps Q) :
    (State.passSub s n sub slots waits).Keeps Q := by
  unfold State.passSub
  repeat' first
    | with_reducible assumption | with_reducible apply State.setPier_keeps | with_reducible apply State.book_keeps
    | with_reducible apply keeps_ite
    | (extract_lets +onlyGivenNames x; (have : True := by clear_value x; clear * - x; exact is_state (by assumption)); clear this; refine (fun hx => ?_ : State.Keeps Q x → _) ?_ <;> [clear_value x; (dsimp -zeta only [x]; clear x)])
    | (extract_lets +onlyGivenNames x; clear_value x) | fail_if_no_progress with_reducible rw [keeps_mk] | split
    | dsimp -zeta only

theorem State.passSlots_keeps {Q : List Instr} {s : State} {n : Nat} {ns : Nat} {waits : Nat → Bool} (h : s.Keeps Q) :
    (State.passSlots s n ns waits).Keeps Q := by
  unfold State.passSlots
  repeat' first
    | with_reducible assumption | with_reducible apply State.setPier_keeps | with_reducible apply State.passSub_keeps
    | with_reducible apply keeps_ite
    | (extract_lets +onlyGivenNames x; (have : True := by clear_value x; clear * - x; exact is_state (by assumption)); clear this; refine (fun hx => ?_ : State.Keeps Q x → _) ?_ <;> [clear_value x; (dsimp -zeta only [x]; clear x)])
    | (extract_lets +onlyGivenNames x; clear_value x) | fail_if_no_progress with_reducible rw [keeps_mk] | split
    | dsimp -zeta only

theorem State.refreshSlots_keeps {Q : List Instr} {s : State} {n : Nat} {sub : Nat} (h : s.Keeps Q) :
    (State.refreshSlots s n sub).Keeps Q := by
  unfold State.refreshSlots
  repeat' first
    | with_reducible assumption | with_reducible apply State.setPier_keeps | with_reducible apply keeps_ite
    | (extract_lets +onlyGivenNames x; (have : True := by clear_value x; clear * - x; exact is_state (by assumption)); clear this; refine (fun hx => ?_ : State.Keeps Q x → _) ?_ <;> [clear_value x; (dsimp -zeta only [x]; clear x)])
    | (extract_lets +onlyGivenNames x; clear_value x) | fail_if_no_progress with_reducible rw [keeps_mk] | split
    | dsimp -zeta only

theorem State.access_keeps {Q : List Instr} {s : State} {m : Ma} {hint : Nat} {f : Option Flt} (h : s.Keeps Q) :
    (State.access s m hint f).Keeps Q := by
  unfold State.access
  repeat' first
    | with_reducible assumption | with_reducible apply State.telPier_keeps | with_reducible apply State.setPier_keeps
    | with_reducible apply State.put_keeps | with_reducible apply keeps_ite
    | (extract_lets +onlyGivenNames x; (have : True := by clear_value x; clear * - x; exact is_state (by assumption)); clear this; refine (fun hx => ?_ : State.Keeps Q x → _) ?_ <;> [clear_value x; (dsimp -zeta only [x]; clear x)])
    | (extract_lets +onlyGivenNames x; clear_value x) | fail_if_no_progress with_reducible rw [keeps_mk] | split
    | dsimp -zeta only

theorem State.bus_keeps {Q : List Instr} {s : State} {m : Ma} {b : Burst} {hint : Nat} {f : Option Flt} (h : s.Keeps Q) :
    (State.bus s m b hint f).Keeps Q := by
  unfold State.bus
  repeat' first
    | with_reducible assumption | with_reducible apply State.access_keeps | with_reducible apply State.telPier_keeps
    | with_reducible apply State.burstSlot_keeps | with_reducible apply keeps_ite | split | dsimp -zeta only

theorem State.busAt_keeps {Q : List Instr} {s : State} {da : Nat} {copy : Nat} {b : Burst} {hint : Nat} {f : Option Flt} (h : s.Keeps Q) :
    (State.busAt s da copy b hint f).Keeps Q := by
  unfold State.busAt
  repeat' first
    | with_reducible assumption | with_reducible apply State.bus_keeps | with_reducible apply keeps_ite
    | fail_if_no_progress with_reducible rw [keeps_mk] | split | dsimp -zeta only

theorem State.storeLine_keeps {Q : List Instr} {s : State} {da : Nat} {copy : Nat} {l : Line} {hint : Nat} {f : Option Flt} (h : s.Keeps Q) :
    (State.storeLine s da copy l hint f).Keeps Q := by
  unfold State.storeLine
  repeat' first
    | with_reducible assumption | with_reducible apply State.dramWrite_keeps | with_reducible apply State.busAt_keeps
    | with_reducible apply keeps_ite | split | dsimp -zeta only

end Sys2Proof.Machine
end

