-- ==== Sys2Proof/Laws/KeepsKeys.lean ====
section
/-!
SUPPORT. The meanings and operations of Machine/Keys.lean keep a sound state and its queue.
-/
set_option linter.unusedTactic false
set_option linter.unusedSimpArgs false
set_option linter.unusedVariables false
set_option linter.unreachableTactic false

namespace Sys2Proof.Machine

theorem State.noteMajor_keeps {Q : List Instr} {s : State} {k : Nat} {major : Nat} (h : s.Keeps Q) :
    (State.noteMajor s k major).Keeps Q := by
  unfold State.noteMajor
  repeat' first
    | with_reducible assumption | with_reducible apply State.setSlot_keeps | with_reducible apply State.raise_keeps
    | with_reducible apply keeps_ite
    | (extract_lets +onlyGivenNames x; (have : True := by clear_value x; clear * - x; exact is_state (by assumption)); clear this; refine (fun hx => ?_ : State.Keeps Q x → _) ?_ <;> [clear_value x; (dsimp -zeta only [x]; clear x)])
    | (extract_lets +onlyGivenNames x; clear_value x) | fail_if_no_progress with_reducible rw [keeps_mk] | split
    | dsimp -zeta only

theorem State.ovfDone_keeps {Q : List Instr} {s : State} {key : Nat} (h : s.Keeps Q) :
    (State.ovfDone s key).Keeps Q := by
  unfold State.ovfDone
  repeat' first
    | with_reducible assumption | with_reducible apply State.put_keeps | with_reducible apply State.bump_keeps
    | with_reducible apply keeps_ite | fail_if_no_progress with_reducible rw [keeps_mk] | split | dsimp -zeta only

theorem State.advance_keeps {Q : List Instr} {s : State} {da : Nat} (h : s.Keeps Q) :
    PKeeps Q (State.advance s da) := by
  unfold State.advance
  repeat' first
    | with_reducible assumption | with_reducible apply State.put_keeps | with_reducible apply State.ovfDone_keeps
    | with_reducible apply State.noteMajor_keeps | with_reducible apply State.setSlot_keeps
    | with_reducible apply keeps_ite | with_reducible exact keeps_fst (by with_reducible assumption)
    | with_reducible apply pkeeps_ite | with_reducible exact pkeeps_eq (by assumption) (by assumption)
    | with_reducible refine pkeeps_eq (by assumption) ?_ | with_reducible exact keeps_of_p (by with_reducible assumption)
    | (extract_lets +onlyGivenNames x; (have : True := by clear_value x; clear * - x; exact is_state (by assumption)); clear this; refine (fun hx => ?_ : State.Keeps Q x → _) ?_ <;> [clear_value x; (dsimp -zeta only [x]; clear x)])
    | (extract_lets +onlyGivenNames x; (have : True := by clear_value x; clear * - x; exact is_pair (by assumption)); clear this; refine (fun hx => ?_ : PKeeps Q x → _) ?_ <;> [clear_value x; (dsimp -zeta only [x]; clear x)])
    | (extract_lets +onlyGivenNames x; clear_value x) | fail_if_no_progress with_reducible rw [keeps_mk] | split
    | dsimp -zeta only | with_reducible apply pkeeps_mk

theorem State.writeCtr_keeps {Q : List Instr} {s : State} {k : Nat} {lvl : Nat} {idx : Nat} {ver : Nat} {body : BitVec 512} (h : s.Keeps Q) :
    (State.writeCtr s k lvl idx ver body).Keeps Q := by
  unfold State.writeCtr
  repeat' first
    | with_reducible assumption | with_reducible apply State.storeLine_keeps | with_reducible apply keeps_ite
    | (extract_lets +onlyGivenNames x; (have : True := by clear_value x; clear * - x; exact is_state (by assumption)); clear this; refine (fun hx => ?_ : State.Keeps Q x → _) ?_ <;> [clear_value x; (dsimp -zeta only [x]; clear x)])
    | (extract_lets +onlyGivenNames x; clear_value x) | split | dsimp -zeta only

end Sys2Proof.Machine
end

