-- ==== Sys2Proof/Laws/KeepsLines.lean ====
section
/-!
SUPPORT. The meanings and operations of Machine/Lines.lean keep a sound state and its queue.
-/
set_option linter.unusedTactic false
set_option linter.unusedSimpArgs false
set_option linter.unusedVariables false
set_option linter.unreachableTactic false

namespace Sys2Proof.Machine

theorem State.pushWrite_keeps {Q : List Instr} {s : State} {q : QWrite} (h : s.Keeps Q) :
    (State.pushWrite s q).Keeps Q := by
  unfold State.pushWrite
  repeat' first
    | with_reducible assumption | with_reducible apply State.setPier_keeps | with_reducible apply keeps_ite
    | (extract_lets +onlyGivenNames x; (have : True := by clear_value x; clear * - x; exact is_state (by assumption)); clear this; refine (fun hx => ?_ : State.Keeps Q x → _) ?_ <;> [clear_value x; (dsimp -zeta only [x]; clear x)])
    | (extract_lets +onlyGivenNames x; clear_value x) | fail_if_no_progress with_reducible rw [keeps_mk] | split
    | dsimp -zeta only

theorem State.descForget_keeps {Q : List Instr} {s : State} {da : Nat} (h : s.Keeps Q) :
    (State.descForget s da).Keeps Q := by
  unfold State.descForget
  repeat' first
    | with_reducible assumption | with_reducible apply State.setPier_keeps | with_reducible apply keeps_ite
    | (extract_lets +onlyGivenNames x; (have : True := by clear_value x; clear * - x; exact is_state (by assumption)); clear this; refine (fun hx => ?_ : State.Keeps Q x → _) ?_ <;> [clear_value x; (dsimp -zeta only [x]; clear x)])
    | (extract_lets +onlyGivenNames x; clear_value x) | fail_if_no_progress with_reducible rw [keeps_mk] | split
    | dsimp -zeta only

theorem State.wbufPut_keeps {Q : List Instr} {s : State} {x : Nat} {sb : Nat} {page : Option Nat} {ln : Nat} {d : BitVec 512} {m : BitVec 64} {poison : Bool} (h : s.Keeps Q) :
    (State.wbufPut s x sb page ln d m poison).Keeps Q := by
  unfold State.wbufPut
  repeat' first
    | with_reducible assumption | with_reducible apply State.setPier_keeps | with_reducible apply State.put_keeps
    | with_reducible apply keeps_ite
    | (extract_lets +onlyGivenNames x; (have : True := by clear_value x; clear * - x; exact is_state (by assumption)); clear this; refine (fun hx => ?_ : State.Keeps Q x → _) ?_ <;> [clear_value x; (dsimp -zeta only [x]; clear x)])
    | (extract_lets +onlyGivenNames x; clear_value x) | fail_if_no_progress with_reducible rw [keeps_mk] | split
    | dsimp -zeta only

theorem State.t2Orphan_keeps {Q : List Instr} {s : State} {line : Nat} (h : s.Keeps Q) :
    (State.t2Orphan s line).Keeps Q := by
  unfold State.t2Orphan
  repeat' first
    | with_reducible assumption | with_reducible apply State.setReq_keeps | with_reducible apply keeps_ite
    | (extract_lets +onlyGivenNames x; (have : True := by clear_value x; clear * - x; exact is_state (by assumption)); clear this; refine (fun hx => ?_ : State.Keeps Q x → _) ?_ <;> [clear_value x; (dsimp -zeta only [x]; clear x)])
    | (extract_lets +onlyGivenNames x; clear_value x) | fail_if_no_progress with_reducible rw [keeps_mk] | split
    | dsimp -zeta only

theorem State.poisonCopy_keeps {Q : List Instr} {s : State} {da : Nat} {copy : Nat} (h : s.Keeps Q) :
    (State.poisonCopy s da copy).Keeps Q := by
  unfold State.poisonCopy
  repeat' first
    | with_reducible assumption | with_reducible apply State.storeLine_keeps | with_reducible apply keeps_ite
    | (extract_lets +onlyGivenNames x; (have : True := by clear_value x; clear * - x; exact is_state (by assumption)); clear this; refine (fun hx => ?_ : State.Keeps Q x → _) ?_ <;> [clear_value x; (dsimp -zeta only [x]; clear x)])
    | (extract_lets +onlyGivenNames x; clear_value x) | split | dsimp -zeta only

theorem State.markPoison_keeps {Q : List Instr} {s : State} {line : Nat} (h : s.Keeps Q) :
    (State.markPoison s line).Keeps Q := by
  unfold State.markPoison
  repeat' first
    | with_reducible assumption | with_reducible apply State.wbufPut_keeps | with_reducible apply State.t2Orphan_keeps
    | with_reducible apply State.setPier_keeps | with_reducible apply State.poisonCopy_keeps
    | with_reducible apply keeps_ite
    | (extract_lets +onlyGivenNames x; (have : True := by clear_value x; clear * - x; exact is_state (by assumption)); clear this; refine (fun hx => ?_ : State.Keeps Q x → _) ?_ <;> [clear_value x; (dsimp -zeta only [x]; clear x)])
    | (extract_lets +onlyGivenNames x; (have : True := by clear_value x; clear * - x; exact is_fun (by assumption)); clear this; dsimp -zeta only [x]; clear x)
    | (extract_lets +onlyGivenNames x; clear_value x) | fail_if_no_progress with_reducible rw [keeps_mk] | split
    | dsimp -zeta only

theorem State.countDropped_keeps {Q : List Instr} {s : State} {k : Nat} (h : s.Keeps Q) :
    (State.countDropped s k).Keeps Q := by
  unfold State.countDropped
  repeat' first
    | with_reducible assumption | with_reducible apply State.put_keeps | with_reducible apply keeps_ite | split
    | dsimp -zeta only

theorem State.countPoisoned_keeps {Q : List Instr} {s : State} {k : Nat} (h : s.Keeps Q) :
    (State.countPoisoned s k).Keeps Q := by
  unfold State.countPoisoned
  repeat' first
    | with_reducible assumption | with_reducible apply State.put_keeps | with_reducible apply keeps_ite | split
    | dsimp -zeta only

theorem State.fixDir_keeps {Q : List Instr} {s : State} {line : Nat} {d : DirF} (h : s.Keeps Q) :
    PKeeps Q (State.fixDir s line d) := by
  unfold State.fixDir
  repeat' first
    | with_reducible assumption | with_reducible apply State.countDropped_keeps
    | with_reducible apply State.markPoison_keeps | with_reducible apply State.countPoisoned_keeps
    | with_reducible apply keeps_ite | with_reducible exact keeps_fst (by with_reducible assumption)
    | with_reducible apply pkeeps_ite | with_reducible exact pkeeps_eq (by assumption) (by assumption)
    | with_reducible refine pkeeps_eq (by assumption) ?_ | with_reducible refine keeps_foldl (fun _ _ _ => ?_) ?_
    | with_reducible refine pkeeps_foldl (fun _ _ _ => ?_) ?_ | with_reducible refine nkeeps_foldl (fun _ _ _ => ?_) ?_
    | with_reducible refine npkeeps_foldl (fun _ _ _ => ?_) ?_
    | with_reducible exact keeps_of_p (by with_reducible assumption)
    | (extract_lets +onlyGivenNames x; (have : True := by clear_value x; clear * - x; exact is_state (by assumption)); clear this; refine (fun hx => ?_ : State.Keeps Q x → _) ?_ <;> [clear_value x; (dsimp -zeta only [x]; clear x)])
    | (extract_lets +onlyGivenNames x; (have : True := by clear_value x; clear * - x; exact is_pair (by assumption)); clear this; refine (fun hx => ?_ : PKeeps Q x → _) ?_ <;> [clear_value x; (dsimp -zeta only [x]; clear x)])
    | (extract_lets +onlyGivenNames x; clear_value x) | split | dsimp -zeta only | with_reducible apply pkeeps_mk

theorem State.issueSnoop_keeps {Q : List Instr} {s : State} {sn : Snoop} (h : s.Keeps Q) :
    (State.issueSnoop s sn).Keeps Q := by
  unfold State.issueSnoop
  repeat' first
    | with_reducible assumption | with_reducible apply State.emit_keeps | with_reducible apply State.bump_keeps
    | with_reducible apply State.telPort_keeps | with_reducible apply keeps_ite | split | dsimp -zeta only

theorem State.sendSnoop_keeps {Q : List Instr} {s : State} {p : Nat} {line : Nat} {ld : Nat} {hpa : Nat} {inv : Bool} {req : Option Nat} (h : s.Keeps Q) :
    (State.sendSnoop s p line ld hpa inv req).Keeps Q := by
  unfold State.sendSnoop
  repeat' first
    | with_reducible assumption | with_reducible apply State.issueSnoop_keeps | with_reducible apply keeps_ite
    | (extract_lets +onlyGivenNames x; (have : True := by clear_value x; clear * - x; exact is_state (by assumption)); clear this; refine (fun hx => ?_ : State.Keeps Q x → _) ?_ <;> [clear_value x; (dsimp -zeta only [x]; clear x)])
    | (extract_lets +onlyGivenNames x; clear_value x) | fail_if_no_progress with_reducible rw [keeps_mk] | split
    | dsimp -zeta only

theorem State.snoopPort_keeps {Q : List Instr} {s : State} {k : Nat} {line : Nat} {inv : Bool} {req : Option Nat} {place : Option (Nat × Nat)} (h : s.Keeps Q) :
    (State.snoopPort s k line inv req place).Keeps Q := by
  unfold State.snoopPort
  repeat' first
    | with_reducible assumption | with_reducible apply State.place_keeps | with_reducible apply State.bind_keeps
    | with_reducible apply State.sendSnoop_keeps | with_reducible apply State.markPoison_keeps
    | with_reducible apply State.put_keeps | with_reducible apply State.raise_keeps
    | (with_reducible apply keeps_fst; with_reducible apply State.place_keeps) | with_reducible apply keeps_ite
    | with_reducible exact keeps_fst (by with_reducible assumption) | with_reducible apply pkeeps_ite
    | with_reducible exact pkeeps_eq (by assumption) (by assumption) | with_reducible refine pkeeps_eq (by assumption) ?_
    | with_reducible exact keeps_of_p (by with_reducible assumption) | with_reducible refine nkeeps_bind (fun _ _ => ?_) ?_
    | (extract_lets +onlyGivenNames x; (have : True := by clear_value x; clear * - x; exact is_state (by assumption)); clear this; refine (fun hx => ?_ : State.Keeps Q x → _) ?_ <;> [clear_value x; (dsimp -zeta only [x]; clear x)])
    | (extract_lets +onlyGivenNames x; (have : True := by clear_value x; clear * - x; exact is_pair (by assumption)); clear this; refine (fun hx => ?_ : PKeeps Q x → _) ?_ <;> [clear_value x; (dsimp -zeta only [x]; clear x)])
    | (extract_lets +onlyGivenNames x; clear_value x) | fail_if_no_progress with_reducible rw [keeps_mk] | split
    | dsimp -zeta only | with_reducible apply pkeeps_mk

theorem State.recallNamed_keeps {Q : List Instr} {s : State} {line : Nat} {e : DirEnt} (h : s.Keeps Q) :
    (State.recallNamed s line e).Keeps Q := by
  unfold State.recallNamed
  repeat' first
    | with_reducible assumption | with_reducible apply State.snoopPort_keeps | with_reducible apply keeps_ite
    | with_reducible refine keeps_foldl (fun _ _ _ => ?_) ?_ | with_reducible refine nkeeps_foldl (fun _ _ _ => ?_) ?_
    | with_reducible refine npkeeps_foldl (fun _ _ _ => ?_) ?_ | split | dsimp -zeta only

theorem State.dirWay_keeps {Q : List Instr} {s : State} {line : Nat} (h : s.Keeps Q) :
    NKeeps Q (State.dirWay s line) := by
  unfold State.dirWay
  repeat' first
    | with_reducible assumption | with_reducible apply keeps_ite | with_reducible exact nkeeps_none
    | with_reducible apply nkeeps_some | with_reducible apply nkeeps_ite
    | with_reducible refine nkeeps_eq (by assumption) ?_ | with_reducible exact keeps_of_n (by with_reducible assumption)
    | fail_if_no_progress with_reducible rw [keeps_mk] | split | dsimp -zeta only

theorem State.makeWay_keeps {Q : List Instr} {s : State} {line : Nat} (h : s.Keeps Q) :
    (State.makeWay s line).Keeps Q := by
  unfold State.makeWay
  repeat' first
    | with_reducible assumption | with_reducible apply State.recallNamed_keeps | with_reducible apply keeps_ite
    | fail_if_no_progress with_reducible rw [keeps_mk] | split | dsimp -zeta only

theorem State.spareLimit_keeps {Q : List Instr} {s : State} {n : Nat} (h : s.Keeps Q) :
    (State.spareLimit s n).Keeps Q := by
  unfold State.spareLimit
  repeat' first
    | with_reducible assumption | with_reducible apply State.put_keeps | with_reducible apply State.raise_keeps
    | with_reducible apply keeps_ite
    | (extract_lets +onlyGivenNames x; (have : True := by clear_value x; clear * - x; exact is_state (by assumption)); clear this; refine (fun hx => ?_ : State.Keeps Q x → _) ?_ <;> [clear_value x; (dsimp -zeta only [x]; clear x)])
    | (extract_lets +onlyGivenNames x; clear_value x) | split | dsimp -zeta only

theorem State.retireRank_keeps {Q : List Instr} {s : State} {m : Nat} {r : Nat} (h : s.Keeps Q) :
    (State.retireRank s m r).Keeps Q := by
  unfold State.retireRank
  repeat' first
    | with_reducible assumption | with_reducible apply State.put_keeps | with_reducible apply State.spareLimit_keeps
    | with_reducible apply State.setPier_keeps | with_reducible apply keeps_ite
    | (extract_lets +onlyGivenNames x; (have : True := by clear_value x; clear * - x; exact is_state (by assumption)); clear this; refine (fun hx => ?_ : State.Keeps Q x → _) ?_ <;> [clear_value x; (dsimp -zeta only [x]; clear x)])
    | (extract_lets +onlyGivenNames x; clear_value x) | fail_if_no_progress with_reducible rw [keeps_mk] | split
    | dsimp -zeta only

theorem State.rankLimit_keeps {Q : List Instr} {s : State} {m : Nat} {r : Nat} (h : s.Keeps Q) :
    (State.rankLimit s m r).Keeps Q := by
  unfold State.rankLimit
  repeat' first
    | with_reducible assumption | with_reducible apply State.raise_keeps | with_reducible apply State.retireRank_keeps
    | with_reducible apply keeps_ite
    | (extract_lets +onlyGivenNames x; (have : True := by clear_value x; clear * - x; exact is_state (by assumption)); clear this; refine (fun hx => ?_ : State.Keeps Q x → _) ?_ <;> [clear_value x; (dsimp -zeta only [x]; clear x)])
    | (extract_lets +onlyGivenNames x; clear_value x) | split | dsimp -zeta only

theorem State.countUe_keeps {Q : List Instr} {s : State} {m : Nat} {r : Nat} (h : s.Keeps Q) :
    (State.countUe s m r).Keeps Q := by
  unfold State.countUe
  repeat' first
    | with_reducible assumption | with_reducible apply State.setPier_keeps | with_reducible apply State.put_keeps
    | with_reducible apply State.rankLimit_keeps | with_reducible apply keeps_ite
    | (extract_lets +onlyGivenNames x; (have : True := by clear_value x; clear * - x; exact is_state (by assumption)); clear this; refine (fun hx => ?_ : State.Keeps Q x → _) ?_ <;> [clear_value x; (dsimp -zeta only [x]; clear x)])
    | (extract_lets +onlyGivenNames x; clear_value x) | fail_if_no_progress with_reducible rw [keeps_mk] | split
    | dsimp -zeta only

theorem State.logCe_keeps {Q : List Instr} {s : State} {da : Nat} {copy : Nat} {seed : Nat} {kind : Nat} {req : ReqFrom} (h : s.Keeps Q) :
    (State.logCe s da copy seed kind req).Keeps Q := by
  unfold State.logCe
  repeat' first
    | with_reducible assumption | with_reducible apply State.bump_keeps | with_reducible apply State.put_keeps
    | with_reducible apply State.setPier_keeps | with_reducible apply State.telPier_keeps
    | with_reducible apply State.raiseFor_keeps | with_reducible apply keeps_ite
    | (extract_lets +onlyGivenNames x; (have : True := by clear_value x; clear * - x; exact is_state (by assumption)); clear this; refine (fun hx => ?_ : State.Keeps Q x → _) ?_ <;> [clear_value x; (dsimp -zeta only [x]; clear x)])
    | (extract_lets +onlyGivenNames x; clear_value x) | fail_if_no_progress with_reducible rw [keeps_mk] | split
    | dsimp -zeta only

theorem State.raisePoison_keeps {Q : List Instr} {s : State} {da : Nat} {copy : Nat} {seed : Nat} {cause : Nat} {req : ReqFrom} (h : s.Keeps Q) :
    (State.raisePoison s da copy seed cause req).Keeps Q := by
  unfold State.raisePoison
  repeat' first
    | with_reducible assumption | with_reducible apply State.raiseFor_keeps | with_reducible apply keeps_ite
    | fail_if_no_progress with_reducible rw [keeps_mk] | split | dsimp -zeta only

theorem State.degrade_keeps {Q : List Instr} {s : State} {da : Nat} (h : s.Keeps Q) :
    (State.degrade s da).Keeps Q := by
  unfold State.degrade
  repeat' first
    | with_reducible assumption | with_reducible apply State.setStripe_keeps | with_reducible apply keeps_ite
    | fail_if_no_progress with_reducible rw [keeps_mk] | split | dsimp -zeta only

theorem State.recallShared_keeps {Q : List Instr} {s : State} {da : Nat} {reader : Option Nat} (h : s.Keeps Q) :
    (State.recallShared s da reader).Keeps Q := by
  unfold State.recallShared
  repeat' first
    | with_reducible assumption | with_reducible apply State.snoopPort_keeps | with_reducible apply keeps_ite
    | with_reducible refine keeps_foldl (fun _ _ _ => ?_) ?_ | with_reducible refine nkeeps_foldl (fun _ _ _ => ?_) ?_
    | with_reducible refine npkeeps_foldl (fun _ _ _ => ?_) ?_
    | (extract_lets +onlyGivenNames x; (have : True := by clear_value x; clear * - x; exact is_state (by assumption)); clear this; refine (fun hx => ?_ : State.Keeps Q x → _) ?_ <;> [clear_value x; (dsimp -zeta only [x]; clear x)])
    | (extract_lets +onlyGivenNames x; clear_value x) | fail_if_no_progress with_reducible rw [keeps_mk] | split
    | dsimp -zeta only

theorem State.countLost1_keeps {Q : List Instr} {s : State} {m : Ma} {count : Bool} (h : s.Keeps Q) :
    (State.countLost1 s m count).Keeps Q := by
  unfold State.countLost1
  repeat' first
    | with_reducible assumption | with_reducible apply State.bump_keeps | with_reducible apply State.countUe_keeps
    | with_reducible apply keeps_ite
    | (extract_lets +onlyGivenNames x; (have : True := by clear_value x; clear * - x; exact is_state (by assumption)); clear this; refine (fun hx => ?_ : State.Keeps Q x → _) ?_ <;> [clear_value x; (dsimp -zeta only [x]; clear x)])
    | (extract_lets +onlyGivenNames x; clear_value x) | split | dsimp -zeta only

theorem State.uncorrectable_keeps {Q : List Instr} {s : State} {da : Nat} {copy : Nat} {seed : Nat} {v : Line} {cause : Nat} {count : Bool} {reader : Option Nat} {req : ReqFrom} (h : s.Keeps Q) :
    (State.uncorrectable s da copy seed v cause count reader req).Keeps Q := by
  unfold State.uncorrectable
  repeat' first
    | with_reducible assumption | with_reducible apply State.recallShared_keeps
    | with_reducible apply State.storeLine_keeps | with_reducible apply State.degrade_keeps
    | with_reducible apply State.countLost1_keeps | with_reducible apply State.raisePoison_keeps
    | with_reducible apply keeps_ite
    | (extract_lets +onlyGivenNames x; (have : True := by clear_value x; clear * - x; exact is_state (by assumption)); clear this; refine (fun hx => ?_ : State.Keeps Q x → _) ?_ <;> [clear_value x; (dsimp -zeta only [x]; clear x)])
    | (extract_lets +onlyGivenNames x; clear_value x) | fail_if_no_progress with_reducible rw [keeps_mk] | split
    | dsimp -zeta only

theorem State.readSrc_keeps {Q : List Instr} {s : State} {da : Nat} {copy : Nat} {seed : Nat} {f : BitVec 640 × BitVec 640} (h : s.Keeps Q) :
    PKeeps Q (State.readSrc s da copy seed f) := by
  unfold State.readSrc
  repeat' first
    | with_reducible assumption | with_reducible apply State.busAt_keeps | with_reducible apply State.uncorrectable_keeps
    | with_reducible apply State.logCe_keeps | with_reducible apply keeps_ite
    | with_reducible exact keeps_fst (by with_reducible assumption) | with_reducible apply pkeeps_ite
    | with_reducible exact pkeeps_eq (by assumption) (by assumption) | with_reducible refine pkeeps_eq (by assumption) ?_
    | with_reducible exact keeps_of_p (by with_reducible assumption)
    | (extract_lets +onlyGivenNames x; (have : True := by clear_value x; clear * - x; exact is_state (by assumption)); clear this; refine (fun hx => ?_ : State.Keeps Q x → _) ?_ <;> [clear_value x; (dsimp -zeta only [x]; clear x)])
    | (extract_lets +onlyGivenNames x; (have : True := by clear_value x; clear * - x; exact is_pair (by assumption)); clear this; refine (fun hx => ?_ : PKeeps Q x → _) ?_ <;> [clear_value x; (dsimp -zeta only [x]; clear x)])
    | (extract_lets +onlyGivenNames x; clear_value x) | fail_if_no_progress with_reducible rw [keeps_mk] | split
    | dsimp -zeta only | with_reducible apply pkeeps_mk

theorem State.readSrcs_keeps {Q : List Instr} {seed : Nat} {l : List (Nat × Nat)} :
    ∀ {s : State} {fs : List (BitVec 640 × BitVec 640)}, s.Keeps Q → PKeeps Q (State.readSrcs s seed l fs) := by
  induction l with
  | nil => intro s fs h; exact h
  | cons a t ih =>
    intro s fs h
    obtain ⟨da, copy⟩ := a
    have h1 := State.readSrc_keeps (da := da) (copy := copy) (seed := seed) (f := fs.headD (0, 0)) h
    have h2 := ih (fs := fs.tail) (keeps_fst h1)
    simp only [State.readSrcs]
    split <;> exact keeps_fst h2

theorem State.recompLine_keeps {Q : List Instr} {s : State} {da : Nat} {copy : Nat} {seed : Nat} {fs : List (BitVec 640 × BitVec 640)} (h : s.Keeps Q) :
    PKeeps Q (State.recompLine s da copy seed fs) := by
  unfold State.recompLine
  repeat' first
    | with_reducible assumption | with_reducible apply State.readSrcs_keeps
    | (with_reducible apply keeps_fst; with_reducible apply State.readSrcs_keeps) | with_reducible apply keeps_ite
    | with_reducible exact keeps_fst (by with_reducible assumption) | with_reducible apply pkeeps_ite
    | with_reducible exact pkeeps_eq (by assumption) (by assumption) | with_reducible refine pkeeps_eq (by assumption) ?_
    | with_reducible exact keeps_of_p (by with_reducible assumption)
    | (extract_lets +onlyGivenNames x; (have : True := by clear_value x; clear * - x; exact is_state (by assumption)); clear this; refine (fun hx => ?_ : State.Keeps Q x → _) ?_ <;> [clear_value x; (dsimp -zeta only [x]; clear x)])
    | (extract_lets +onlyGivenNames x; (have : True := by clear_value x; clear * - x; exact is_pair (by assumption)); clear this; refine (fun hx => ?_ : PKeeps Q x → _) ?_ <;> [clear_value x; (dsimp -zeta only [x]; clear x)])
    | (extract_lets +onlyGivenNames x; clear_value x) | fail_if_no_progress with_reducible rw [keeps_mk] | split
    | dsimp -zeta only | with_reducible apply pkeeps_mk

theorem State.cacheRebuilt_keeps {Q : List Instr} {s : State} {da : Nat} {x : Line} (h : s.Keeps Q) :
    PKeeps Q (State.cacheRebuilt s da x) := by
  unfold State.cacheRebuilt
  repeat' first
    | with_reducible assumption | with_reducible apply State.dirWay_keeps | with_reducible apply State.fixDir_keeps
    | with_reducible apply State.put_keeps | (with_reducible apply keeps_fst; with_reducible apply State.fixDir_keeps)
    | with_reducible apply keeps_ite | with_reducible exact keeps_fst (by with_reducible assumption)
    | with_reducible apply pkeeps_ite | with_reducible exact pkeeps_eq (by assumption) (by assumption)
    | with_reducible refine pkeeps_eq (by assumption) ?_ | with_reducible exact nkeeps_none
    | with_reducible apply nkeeps_some | with_reducible apply nkeeps_ite
    | with_reducible refine nkeeps_eq (by assumption) ?_ | with_reducible exact keeps_of_p (by with_reducible assumption)
    | with_reducible exact keeps_of_n (by with_reducible assumption) | with_reducible apply nkeeps_getD
    | (extract_lets +onlyGivenNames x; (have : True := by clear_value x; clear * - x; exact is_state (by assumption)); clear this; refine (fun hx => ?_ : State.Keeps Q x → _) ?_ <;> [clear_value x; (dsimp -zeta only [x]; clear x)])
    | (extract_lets +onlyGivenNames x; (have : True := by clear_value x; clear * - x; exact is_pair (by assumption)); clear this; refine (fun hx => ?_ : PKeeps Q x → _) ?_ <;> [clear_value x; (dsimp -zeta only [x]; clear x)])
    | (extract_lets +onlyGivenNames x; (have : True := by clear_value x; clear * - x; exact is_opt (by assumption)); clear this; refine (fun hx => ?_ : NKeeps Q x → _) ?_ <;> [clear_value x; (dsimp -zeta only [x]; clear x)])
    | (extract_lets +onlyGivenNames x; clear_value x) | fail_if_no_progress with_reducible rw [keeps_mk] | split
    | dsimp -zeta only | with_reducible apply pkeeps_mk

theorem State.recallRebuilt_keeps {Q : List Instr} {s : State} {da : Nat} {x : Line} (h : s.Keeps Q) :
    (State.recallRebuilt s da x).Keeps Q := by
  unfold State.recallRebuilt
  repeat' first
    | with_reducible assumption | with_reducible apply State.snoopPort_keeps | with_reducible apply keeps_ite
    | with_reducible refine keeps_foldl (fun _ _ _ => ?_) ?_ | with_reducible refine nkeeps_foldl (fun _ _ _ => ?_) ?_
    | with_reducible refine npkeeps_foldl (fun _ _ _ => ?_) ?_ | split | dsimp -zeta only

theorem State.readLine_keeps {Q : List Instr} {s : State} {da : Nat} {copy : Nat} {seed : Nat} {b : Bursts} {req : ReqFrom} {hint : Nat} {f : Option Flt} (h : s.Keeps Q) :
    PKeeps Q (State.readLine s da copy seed b req hint f) := by
  unfold State.readLine
  repeat' first
    | with_reducible assumption | with_reducible apply State.recompLine_keeps
    | with_reducible apply State.recallShared_keeps | with_reducible apply State.raisePoison_keeps
    | with_reducible apply State.busAt_keeps | with_reducible apply State.uncorrectable_keeps
    | with_reducible apply State.logCe_keeps | with_reducible apply State.cacheRebuilt_keeps
    | with_reducible apply State.recallRebuilt_keeps | with_reducible apply State.storeLine_keeps
    | (with_reducible apply keeps_fst; with_reducible apply State.recompLine_keeps)
    | (with_reducible apply keeps_fst; with_reducible apply State.cacheRebuilt_keeps) | with_reducible apply keeps_ite
    | with_reducible exact keeps_fst (by with_reducible assumption) | with_reducible apply pkeeps_ite
    | with_reducible exact pkeeps_eq (by assumption) (by assumption) | with_reducible refine pkeeps_eq (by assumption) ?_
    | with_reducible exact keeps_of_p (by with_reducible assumption)
    | (extract_lets +onlyGivenNames x; (have : True := by clear_value x; clear * - x; exact is_state (by assumption)); clear this; refine (fun hx => ?_ : State.Keeps Q x → _) ?_ <;> [clear_value x; (dsimp -zeta only [x]; clear x)])
    | (extract_lets +onlyGivenNames x; (have : True := by clear_value x; clear * - x; exact is_pair (by assumption)); clear this; refine (fun hx => ?_ : PKeeps Q x → _) ?_ <;> [clear_value x; (dsimp -zeta only [x]; clear x)])
    | (extract_lets +onlyGivenNames x; clear_value x) | fail_if_no_progress with_reducible rw [keeps_mk] | split
    | dsimp -zeta only | with_reducible apply pkeeps_mk

theorem State.unqueue_keeps {Q : List Instr} {s : State} {da : Nat} (h : s.Keeps Q) :
    (State.unqueue s da).Keeps Q := by
  unfold State.unqueue
  repeat' first
    | with_reducible assumption | with_reducible apply State.setPier_keeps | with_reducible apply keeps_ite
    | (extract_lets +onlyGivenNames x; (have : True := by clear_value x; clear * - x; exact is_state (by assumption)); clear this; refine (fun hx => ?_ : State.Keeps Q x → _) ?_ <;> [clear_value x; (dsimp -zeta only [x]; clear x)])
    | (extract_lets +onlyGivenNames x; clear_value x) | fail_if_no_progress with_reducible rw [keeps_mk] | split
    | dsimp -zeta only

theorem State.tagFail_keeps {Q : List Instr} {s : State} {da : Nat} {seed : Nat} {req : ReqFrom} (h : s.Keeps Q) :
    (State.tagFail s da seed req).Keeps Q := by
  unfold State.tagFail
  repeat' first
    | with_reducible assumption | with_reducible apply State.bump_keeps | with_reducible apply State.raiseFor_keeps
    | with_reducible apply keeps_ite
    | (extract_lets +onlyGivenNames x; (have : True := by clear_value x; clear * - x; exact is_state (by assumption)); clear this; refine (fun hx => ?_ : State.Keeps Q x → _) ?_ <;> [clear_value x; (dsimp -zeta only [x]; clear x)])
    | (extract_lets +onlyGivenNames x; clear_value x) | fail_if_no_progress with_reducible rw [keeps_mk] | split
    | dsimp -zeta only

theorem State.tagSource_keeps {Q : List Instr} {s : State} {da : Nat} {seed : Nat} {c : Ctr} {l : Line} {fs : List (BitVec 640 × BitVec 640)} {req : ReqFrom} (h : s.Keeps Q) :
    PKeeps Q (State.tagSource s da seed c l fs req) := by
  unfold State.tagSource
  repeat' first
    | with_reducible assumption | with_reducible apply State.recallShared_keeps
    | with_reducible apply State.raisePoison_keeps | with_reducible apply State.recompLine_keeps
    | with_reducible apply State.cacheRebuilt_keeps | with_reducible apply State.recallRebuilt_keeps
    | with_reducible apply State.logCe_keeps | with_reducible apply State.storeLine_keeps
    | with_reducible apply State.uncorrectable_keeps
    | (with_reducible apply keeps_fst; with_reducible apply State.recompLine_keeps)
    | (with_reducible apply keeps_fst; with_reducible apply State.cacheRebuilt_keeps) | with_reducible apply keeps_ite
    | with_reducible exact keeps_fst (by with_reducible assumption) | with_reducible apply pkeeps_ite
    | with_reducible exact pkeeps_eq (by assumption) (by assumption) | with_reducible refine pkeeps_eq (by assumption) ?_
    | with_reducible exact keeps_of_p (by with_reducible assumption)
    | (extract_lets +onlyGivenNames x; (have : True := by clear_value x; clear * - x; exact is_state (by assumption)); clear this; refine (fun hx => ?_ : State.Keeps Q x → _) ?_ <;> [clear_value x; (dsimp -zeta only [x]; clear x)])
    | (extract_lets +onlyGivenNames x; (have : True := by clear_value x; clear * - x; exact is_pair (by assumption)); clear this; refine (fun hx => ?_ : PKeeps Q x → _) ?_ <;> [clear_value x; (dsimp -zeta only [x]; clear x)])
    | (extract_lets +onlyGivenNames x; clear_value x) | fail_if_no_progress with_reducible rw [keeps_mk] | split
    | dsimp -zeta only | with_reducible apply pkeeps_mk

theorem State.openLine_keeps {Q : List Instr} {s : State} {da : Nat} {seed : Nat} {r : RdRes} {fs : List (BitVec 640 × BitVec 640)} {req : ReqFrom} (h : s.Keeps Q) :
    PKeeps Q (State.openLine s da seed r fs req) := by
  unfold State.openLine
  repeat' first
    | with_reducible assumption | with_reducible apply State.tagFail_keeps | with_reducible apply State.tagSource_keeps
    | (with_reducible apply keeps_fst; with_reducible apply State.tagSource_keeps) | with_reducible apply keeps_ite
    | with_reducible exact keeps_fst (by with_reducible assumption) | with_reducible apply pkeeps_ite
    | with_reducible exact pkeeps_eq (by assumption) (by assumption) | with_reducible refine pkeeps_eq (by assumption) ?_
    | with_reducible exact keeps_of_p (by with_reducible assumption) | fail_if_no_progress with_reducible rw [keeps_mk]
    | split | dsimp -zeta only | with_reducible apply pkeeps_mk

theorem State.readPlain_keeps {Q : List Instr} {s : State} {da : Nat} {seed : Nat} {b : Bursts} {req : ReqFrom} {f : Option Flt} (h : s.Keeps Q) :
    PKeeps Q (State.readPlain s da seed b req f) := by
  unfold State.readPlain
  repeat' first
    | with_reducible assumption | with_reducible apply State.telPier_keeps | with_reducible apply State.readLine_keeps
    | with_reducible apply State.openLine_keeps
    | (with_reducible apply keeps_fst; with_reducible apply State.readLine_keeps)
    | (with_reducible apply keeps_fst; with_reducible apply State.openLine_keeps) | with_reducible apply keeps_ite
    | with_reducible exact keeps_fst (by with_reducible assumption) | with_reducible apply pkeeps_ite
    | with_reducible exact pkeeps_eq (by assumption) (by assumption) | with_reducible refine pkeeps_eq (by assumption) ?_
    | with_reducible exact keeps_of_p (by with_reducible assumption)
    | (extract_lets +onlyGivenNames x; (have : True := by clear_value x; clear * - x; exact is_state (by assumption)); clear this; refine (fun hx => ?_ : State.Keeps Q x → _) ?_ <;> [clear_value x; (dsimp -zeta only [x]; clear x)])
    | (extract_lets +onlyGivenNames x; (have : True := by clear_value x; clear * - x; exact is_pair (by assumption)); clear this; refine (fun hx => ?_ : PKeeps Q x → _) ?_ <;> [clear_value x; (dsimp -zeta only [x]; clear x)])
    | (extract_lets +onlyGivenNames x; clear_value x) | fail_if_no_progress with_reducible rw [keeps_mk] | split
    | dsimp -zeta only | with_reducible apply pkeeps_mk

theorem State.raiseRefused_keeps {Q : List Instr} {s : State} {da : Nat} (h : s.Keeps Q) :
    (State.raiseRefused s da).Keeps Q := by
  unfold State.raiseRefused
  repeat' first
    | with_reducible assumption | with_reducible apply State.raise_keeps | with_reducible apply keeps_ite | split
    | dsimp -zeta only

theorem State.writePlain_keeps {Q : List Instr} {s : State} {da : Nat} {seed : Nat} {tier : Nat} {data : BitVec 512} {poison : Bool} {dir : Nat × Nat × Nat} {hint : Nat} {f : Option Flt} (h : s.Keeps Q) :
    PKeeps Q (State.writePlain s da seed tier data poison dir hint f) := by
  unfold State.writePlain
  repeat' first
    | with_reducible assumption | with_reducible apply State.advance_keeps | with_reducible apply State.unqueue_keeps
    | with_reducible apply State.raisePoison_keeps | with_reducible apply State.storeLine_keeps
    | with_reducible apply State.descForget_keeps
    | (with_reducible apply keeps_fst; with_reducible apply State.advance_keeps) | with_reducible apply keeps_ite
    | with_reducible exact keeps_fst (by with_reducible assumption) | with_reducible apply pkeeps_ite
    | with_reducible exact pkeeps_eq (by assumption) (by assumption) | with_reducible refine pkeeps_eq (by assumption) ?_
    | with_reducible exact keeps_of_p (by with_reducible assumption)
    | (extract_lets +onlyGivenNames x; (have : True := by clear_value x; clear * - x; exact is_state (by assumption)); clear this; refine (fun hx => ?_ : State.Keeps Q x → _) ?_ <;> [clear_value x; (dsimp -zeta only [x]; clear x)])
    | (extract_lets +onlyGivenNames x; (have : True := by clear_value x; clear * - x; exact is_pair (by assumption)); clear this; refine (fun hx => ?_ : PKeeps Q x → _) ?_ <;> [clear_value x; (dsimp -zeta only [x]; clear x)])
    | (extract_lets +onlyGivenNames x; clear_value x) | fail_if_no_progress with_reducible rw [keeps_mk] | split
    | dsimp -zeta only | with_reducible apply pkeeps_mk

theorem State.metaRead_keeps {Q : List Instr} {s : State} {da : Nat} {b : Bursts} (h : s.Keeps Q) :
    PKeeps Q (State.metaRead s da b) := by
  unfold State.metaRead
  repeat' first
    | with_reducible assumption | with_reducible apply State.readPlain_keeps
    | (with_reducible apply keeps_fst; with_reducible apply State.readPlain_keeps) | with_reducible apply keeps_ite
    | with_reducible exact keeps_fst (by with_reducible assumption) | with_reducible apply pkeeps_ite
    | with_reducible exact pkeeps_eq (by assumption) (by assumption) | with_reducible refine pkeeps_eq (by assumption) ?_
    | with_reducible exact keeps_of_p (by with_reducible assumption) | split | dsimp -zeta only
    | with_reducible apply pkeeps_mk

theorem State.metaWrite_keeps {Q : List Instr} {s : State} {da : Nat} {d : BitVec 512} (h : s.Keeps Q) :
    PKeeps Q (State.metaWrite s da d) := by
  unfold State.metaWrite
  repeat' first
    | with_reducible assumption | with_reducible apply State.writePlain_keeps
    | (with_reducible apply keeps_fst; with_reducible apply State.writePlain_keeps) | with_reducible apply keeps_ite
    | with_reducible exact keeps_fst (by with_reducible assumption) | with_reducible apply pkeeps_ite
    | with_reducible exact pkeeps_eq (by assumption) (by assumption) | with_reducible refine pkeeps_eq (by assumption) ?_
    | with_reducible exact keeps_of_p (by with_reducible assumption) | split | dsimp -zeta only
    | with_reducible apply pkeeps_mk

theorem State.casEntry_keeps {Q : List Instr} {s : State} {da : Nat} {old : Nat} {new : Nat} {b : Bursts} (h : s.Keeps Q) :
    PKeeps Q (State.casEntry s da old new b) := by
  unfold State.casEntry
  repeat' first
    | with_reducible assumption | with_reducible apply State.metaRead_keeps | with_reducible apply State.metaWrite_keeps
    | (with_reducible apply keeps_fst; with_reducible apply State.metaRead_keeps)
    | (with_reducible apply keeps_fst; with_reducible apply State.metaWrite_keeps) | with_reducible apply keeps_ite
    | with_reducible exact keeps_fst (by with_reducible assumption) | with_reducible apply pkeeps_ite
    | with_reducible exact pkeeps_eq (by assumption) (by assumption) | with_reducible refine pkeeps_eq (by assumption) ?_
    | with_reducible exact keeps_of_p (by with_reducible assumption) | fail_if_no_progress with_reducible rw [keeps_mk]
    | split | dsimp -zeta only | with_reducible apply pkeeps_mk

end Sys2Proof.Machine
end

