-- ==== Sys2Proof/Laws/KeepsHome.lean ====
section
/-!
SUPPORT. The meanings and operations of Machine/Home.lean keep a sound state and its queue.
-/
set_option linter.unusedTactic false
set_option linter.unusedSimpArgs false
set_option linter.unusedVariables false
set_option linter.unreachableTactic false

namespace Sys2Proof.Machine

theorem State.listPoison_keeps {Q : List Instr} {s : State} {p : Nat} {ld : Nat} {dpa : Nat} (h : s.Keeps Q) :
    (State.listPoison s p ld dpa).Keeps Q := by
  unfold State.listPoison
  repeat' first
    | with_reducible assumption | with_reducible apply State.setLdev_keeps | with_reducible apply keeps_ite | split
    | dsimp -zeta only

theorem State.unlistPoison_keeps {Q : List Instr} {s : State} {p : Nat} {ld : Nat} {dpa : Nat} (h : s.Keeps Q) :
    (State.unlistPoison s p ld dpa).Keeps Q := by
  unfold State.unlistPoison
  repeat' first
    | with_reducible assumption | with_reducible apply State.setLdev_keeps | with_reducible apply keeps_ite | split
    | dsimp -zeta only

theorem State.dropReq_keeps {Q : List Instr} {s : State} {id : Nat} (h : s.Keeps Q) :
    (State.dropReq s id).Keeps Q := by
  unfold State.dropReq
  repeat' first
    | with_reducible assumption | with_reducible apply keeps_ite | fail_if_no_progress with_reducible rw [keeps_mk] | split
    | dsimp -zeta only

theorem State.respond_keeps {Q : List Instr} {s : State} {id : Nat} {r : Req} {o : Out} (h : s.Keeps Q) :
    (State.respond s id r o).Keeps Q := by
  unfold State.respond
  repeat' first
    | with_reducible assumption | with_reducible apply State.dropReq_keeps | with_reducible apply State.emit_keeps
    | with_reducible apply State.setReq_keeps | with_reducible apply State.put_keeps | with_reducible apply keeps_ite
    | fail_if_no_progress with_reducible rw [keeps_mk] | split | dsimp -zeta only

theorem State.answer_keeps {Q : List Instr} {s : State} {id : Nat} {r : Req} {d : BitVec 512} {poison : Bool} {mv : MetaValue} (h : s.Keeps Q) :
    (State.answer s id r d poison mv).Keeps Q := by
  unfold State.answer
  repeat' first
    | with_reducible assumption | with_reducible apply State.telPort_keeps | with_reducible apply State.setPrt_keeps
    | with_reducible apply State.respond_keeps | with_reducible apply keeps_ite
    | (extract_lets +onlyGivenNames x; (have : True := by clear_value x; clear * - x; exact is_state (by assumption)); clear this; refine (fun hx => ?_ : State.Keeps Q x → _) ?_ <;> [clear_value x; (dsimp -zeta only [x]; clear x)])
    | (extract_lets +onlyGivenNames x; clear_value x) | fail_if_no_progress with_reducible rw [keeps_mk] | split
    | dsimp -zeta only

theorem State.ackConflicts_keeps {Q : List Instr} {s : State} {p : Nat} (h : s.Keeps Q) :
    (State.ackConflicts s p).Keeps Q := by
  unfold State.ackConflicts
  repeat' first
    | with_reducible assumption | with_reducible apply State.emit_keeps | with_reducible apply keeps_ite
    | with_reducible refine keeps_foldl (fun _ _ _ => ?_) ?_ | with_reducible refine nkeeps_foldl (fun _ _ _ => ?_) ?_
    | with_reducible refine npkeeps_foldl (fun _ _ _ => ?_) ?_
    | (extract_lets +onlyGivenNames x; (have : True := by clear_value x; clear * - x; exact is_state (by assumption)); clear this; refine (fun hx => ?_ : State.Keeps Q x → _) ?_ <;> [clear_value x; (dsimp -zeta only [x]; clear x)])
    | (extract_lets +onlyGivenNames x; clear_value x) | fail_if_no_progress with_reducible rw [keeps_mk] | split
    | dsimp -zeta only

theorem State.complete_keeps {Q : List Instr} {s : State} {id : Nat} {r : Req} (h : s.Keeps Q) :
    (State.complete s id r).Keeps Q := by
  unfold State.complete
  repeat' first
    | with_reducible assumption | with_reducible apply State.respond_keeps | with_reducible apply State.ackConflicts_keeps
    | with_reducible apply keeps_ite | split | dsimp -zeta only

theorem State.refuseReq_keeps {Q : List Instr} {s : State} {id : Nat} {r : Req} (h : s.Keeps Q) :
    (State.refuseReq s id r).Keeps Q := by
  unfold State.refuseReq
  repeat' first
    | with_reducible assumption | with_reducible apply State.answer_keeps | with_reducible apply State.complete_keeps
    | with_reducible apply keeps_ite | fail_if_no_progress with_reducible rw [keeps_mk] | split | dsimp -zeta only

theorem State.dirSet_keeps {Q : List Instr} {s : State} {line : Nat} {d : DirF} {dirty : Bool} (h : s.Keeps Q) :
    (State.dirSet s line d dirty).Keeps Q := by
  unfold State.dirSet
  repeat' first
    | with_reducible assumption | with_reducible apply State.put_keeps | with_reducible apply keeps_ite
    | (extract_lets +onlyGivenNames x; (have : True := by clear_value x; clear * - x; exact is_state (by assumption)); clear this; refine (fun hx => ?_ : State.Keeps Q x → _) ?_ <;> [clear_value x; (dsimp -zeta only [x]; clear x)])
    | (extract_lets +onlyGivenNames x; clear_value x) | fail_if_no_progress with_reducible rw [keeps_mk] | split
    | dsimp -zeta only

theorem State.dirChange_keeps {Q : List Instr} {s : State} {line : Nat} {d : DirF} (h : s.Keeps Q) :
    (State.dirChange s line d).Keeps Q := by
  unfold State.dirChange
  repeat' first
    | with_reducible assumption | with_reducible apply State.dirSet_keeps | with_reducible apply keeps_ite | split
    | dsimp -zeta only

theorem State.applyDir_keeps {Q : List Instr} {s : State} {r : Req} (h : s.Keeps Q) :
    (State.applyDir s r).Keeps Q := by
  unfold State.applyDir
  repeat' first
    | with_reducible assumption | with_reducible apply State.dirChange_keeps | with_reducible apply keeps_ite
    | (extract_lets +onlyGivenNames x; (have : True := by clear_value x; clear * - x; exact is_state (by assumption)); clear this; refine (fun hx => ?_ : State.Keeps Q x → _) ?_ <;> [clear_value x; (dsimp -zeta only [x]; clear x)])
    | (extract_lets +onlyGivenNames x; clear_value x) | split | dsimp -zeta only

theorem State.sample_keeps {Q : List Instr} {s : State} {n : Nat} {r : Req} (h : s.Keeps Q) :
    (State.sample s n r).Keeps Q := by
  unfold State.sample
  repeat' first
    | with_reducible assumption | with_reducible apply State.setPier_keeps | with_reducible apply State.put_keeps
    | with_reducible apply State.raise_keeps | with_reducible apply State.setEng_keeps | with_reducible apply keeps_ite
    | (extract_lets +onlyGivenNames x; (have : True := by clear_value x; clear * - x; exact is_state (by assumption)); clear this; refine (fun hx => ?_ : State.Keeps Q x → _) ?_ <;> [clear_value x; (dsimp -zeta only [x]; clear x)])
    | (extract_lets +onlyGivenNames x; clear_value x) | fail_if_no_progress with_reducible rw [keeps_mk] | split
    | dsimp -zeta only

theorem State.markDirty_keeps {Q : List Instr} {s : State} {t : Nat} {page : Nat} (h : s.Keeps Q) :
    (State.markDirty s t page).Keeps Q := by
  unfold State.markDirty
  repeat' first
    | with_reducible assumption | with_reducible apply State.dirtyLog_keeps | with_reducible apply State.put_keeps
    | with_reducible apply keeps_ite
    | (extract_lets +onlyGivenNames x; (have : True := by clear_value x; clear * - x; exact is_state (by assumption)); clear this; refine (fun hx => ?_ : State.Keeps Q x → _) ?_ <;> [clear_value x; (dsimp -zeta only [x]; clear x)])
    | (extract_lets +onlyGivenNames x; clear_value x) | fail_if_no_progress with_reducible rw [keeps_mk] | split
    | dsimp -zeta only

theorem State.refuseWrite_keeps {Q : List Instr} {s : State} {id : Nat} {r : Req} {src : Nat} {da : Nat} (h : s.Keeps Q) :
    (State.refuseWrite s id r src da).Keeps Q := by
  unfold State.refuseWrite
  repeat' first
    | with_reducible assumption | with_reducible apply State.raiseFor_keeps | with_reducible apply State.complete_keeps
    | with_reducible apply keeps_ite | split | dsimp -zeta only

theorem State.deliver_keeps {Q : List Instr} {s : State} {id : Nat} {r : Req} {d : BitVec 512} {poison : Bool} (h : s.Keeps Q) :
    (State.deliver s id r d poison).Keeps Q := by
  unfold State.deliver
  repeat' first
    | with_reducible assumption | with_reducible apply State.setReq_keeps | with_reducible apply State.listPoison_keeps
    | with_reducible apply State.applyDir_keeps | with_reducible apply State.answer_keeps | with_reducible apply keeps_ite
    | (extract_lets +onlyGivenNames x; (have : True := by clear_value x; clear * - x; exact is_state (by assumption)); clear this; refine (fun hx => ?_ : State.Keeps Q x → _) ?_ <;> [clear_value x; (dsimp -zeta only [x]; clear x)])
    | (extract_lets +onlyGivenNames x; clear_value x) | fail_if_no_progress with_reducible rw [keeps_mk] | split
    | dsimp -zeta only

theorem State.dataStage_keeps {Q : List Instr} {s : State} {id : Nat} {r : Req} (h : s.Keeps Q) :
    (State.dataStage s id r).Keeps Q := by
  unfold State.dataStage
  repeat' first
    | with_reducible assumption | with_reducible apply State.applyDir_keeps | with_reducible apply State.complete_keeps
    | with_reducible apply State.setReq_keeps | with_reducible apply State.telPier_keeps
    | with_reducible apply State.deliver_keeps | with_reducible apply State.sample_keeps | with_reducible apply keeps_ite
    | (extract_lets +onlyGivenNames x; (have : True := by clear_value x; clear * - x; exact is_state (by assumption)); clear this; refine (fun hx => ?_ : State.Keeps Q x → _) ?_ <;> [clear_value x; (dsimp -zeta only [x]; clear x)])
    | (extract_lets +onlyGivenNames x; clear_value x) | fail_if_no_progress with_reducible rw [keeps_mk] | split
    | dsimp -zeta only

theorem State.snoopStage_keeps {Q : List Instr} {s : State} {id : Nat} {r : Req} (h : s.Keeps Q) :
    (State.snoopStage s id r).Keeps Q := by
  unfold State.snoopStage
  repeat' first
    | with_reducible assumption | with_reducible apply State.snoopPort_keeps | with_reducible apply State.setReq_keeps
    | with_reducible apply State.dataStage_keeps | with_reducible apply keeps_ite
    | with_reducible refine keeps_foldl (fun _ _ _ => ?_) ?_ | with_reducible refine nkeeps_foldl (fun _ _ _ => ?_) ?_
    | with_reducible refine npkeeps_foldl (fun _ _ _ => ?_) ?_
    | (extract_lets +onlyGivenNames x; (have : True := by clear_value x; clear * - x; exact is_state (by assumption)); clear this; refine (fun hx => ?_ : State.Keeps Q x → _) ?_ <;> [clear_value x; (dsimp -zeta only [x]; clear x)])
    | (extract_lets +onlyGivenNames x; clear_value x) | fail_if_no_progress with_reducible rw [keeps_mk] | split
    | dsimp -zeta only

theorem State.claimSnoops_keeps {Q : List Instr} {s : State} {line : Nat} {id : Nat} (h : s.Keeps Q) :
    (State.claimSnoops s line id).Keeps Q := by
  unfold State.claimSnoops
  repeat' first
    | with_reducible assumption | with_reducible apply keeps_ite | fail_if_no_progress with_reducible rw [keeps_mk] | split
    | dsimp -zeta only

theorem State.deliverPoison_keeps {Q : List Instr} {s : State} {id : Nat} {r : Req} {d : BitVec 512} (h : s.Keeps Q) :
    (State.deliverPoison s id r d).Keeps Q := by
  unfold State.deliverPoison
  repeat' first
    | with_reducible assumption | with_reducible apply State.deliver_keeps | with_reducible apply State.applyDir_keeps
    | with_reducible apply State.complete_keeps | with_reducible apply State.snoopStage_keeps
    | with_reducible apply State.claimSnoops_keeps | with_reducible apply State.setReq_keeps
    | with_reducible apply keeps_ite
    | (extract_lets +onlyGivenNames x; (have : True := by clear_value x; clear * - x; exact is_state (by assumption)); clear this; refine (fun hx => ?_ : State.Keeps Q x → _) ?_ <;> [clear_value x; (dsimp -zeta only [x]; clear x)])
    | (extract_lets +onlyGivenNames x; clear_value x) | fail_if_no_progress with_reducible rw [keeps_mk] | split
    | dsimp -zeta only

theorem State.openRead_keeps {Q : List Instr} {s : State} {id : Nat} {r : Req} {v : Line} (h : s.Keeps Q) :
    (State.openRead s id r v).Keeps Q := by
  unfold State.openRead
  repeat' first
    | with_reducible assumption | with_reducible apply State.deliverPoison_keeps | with_reducible apply State.deliver_keeps
    | with_reducible apply State.telPier_keeps | with_reducible apply State.setReq_keeps
    | with_reducible apply State.tagFail_keeps | with_reducible apply keeps_ite
    | (extract_lets +onlyGivenNames x; (have : True := by clear_value x; clear * - x; exact is_state (by assumption)); clear this; refine (fun hx => ?_ : State.Keeps Q x → _) ?_ <;> [clear_value x; (dsimp -zeta only [x]; clear x)])
    | (extract_lets +onlyGivenNames x; clear_value x) | fail_if_no_progress with_reducible rw [keeps_mk] | split
    | dsimp -zeta only

theorem State.dirLoad_keeps {Q : List Instr} {s : State} {line : Nat} {d0 : DirF} {dirty : Bool} (h : s.Keeps Q) :
    (State.dirLoad s line d0 dirty).Keeps Q := by
  unfold State.dirLoad
  repeat' first
    | with_reducible assumption | with_reducible apply State.fixDir_keeps | with_reducible apply State.dirSet_keeps
    | (with_reducible apply keeps_fst; with_reducible apply State.fixDir_keeps) | with_reducible apply keeps_ite
    | with_reducible exact keeps_fst (by with_reducible assumption) | with_reducible apply pkeeps_ite
    | with_reducible exact pkeeps_eq (by assumption) (by assumption) | with_reducible refine pkeeps_eq (by assumption) ?_
    | with_reducible exact keeps_of_p (by with_reducible assumption)
    | (extract_lets +onlyGivenNames x; (have : True := by clear_value x; clear * - x; exact is_state (by assumption)); clear this; refine (fun hx => ?_ : State.Keeps Q x → _) ?_ <;> [clear_value x; (dsimp -zeta only [x]; clear x)])
    | (extract_lets +onlyGivenNames x; (have : True := by clear_value x; clear * - x; exact is_pair (by assumption)); clear this; refine (fun hx => ?_ : PKeeps Q x → _) ?_ <;> [clear_value x; (dsimp -zeta only [x]; clear x)])
    | (extract_lets +onlyGivenNames x; clear_value x) | split | dsimp -zeta only | with_reducible apply pkeeps_mk

theorem State.orderReq_keeps {Q : List Instr} {s : State} {id : Nat} {r : Req} (h : s.Keeps Q) :
    (State.orderReq s id r).Keeps Q := by
  unfold State.orderReq
  repeat' first
    | with_reducible assumption | with_reducible apply State.markDirty_keeps | with_reducible apply State.dataStage_keeps
    | with_reducible apply State.telHub_keeps | with_reducible apply State.put_keeps
    | with_reducible apply State.snoopStage_keeps | with_reducible apply State.dirWay_keeps
    | with_reducible apply State.dirLoad_keeps | with_reducible apply State.setReq_keeps | with_reducible apply keeps_ite
    | with_reducible exact nkeeps_none | with_reducible apply nkeeps_some | with_reducible apply nkeeps_ite
    | with_reducible refine nkeeps_eq (by assumption) ?_ | with_reducible exact keeps_of_n (by with_reducible assumption)
    | with_reducible apply nkeeps_getD
    | (extract_lets +onlyGivenNames x; (have : True := by clear_value x; clear * - x; exact is_state (by assumption)); clear this; refine (fun hx => ?_ : State.Keeps Q x → _) ?_ <;> [clear_value x; (dsimp -zeta only [x]; clear x)])
    | (extract_lets +onlyGivenNames x; (have : True := by clear_value x; clear * - x; exact is_opt (by assumption)); clear this; refine (fun hx => ?_ : NKeeps Q x → _) ?_ <;> [clear_value x; (dsimp -zeta only [x]; clear x)])
    | (extract_lets +onlyGivenNames x; clear_value x) | fail_if_no_progress with_reducible rw [keeps_mk] | split
    | dsimp -zeta only

theorem State.enterHome_keeps {Q : List Instr} {s : State} {id : Nat} {r : Req} (h : s.Keeps Q) :
    (State.enterHome s id r).Keeps Q := by
  unfold State.enterHome
  repeat' first
    | with_reducible assumption | with_reducible apply State.makeWay_keeps | with_reducible apply State.setReq_keeps
    | with_reducible apply State.orderReq_keeps | with_reducible apply keeps_ite
    | (extract_lets +onlyGivenNames x; (have : True := by clear_value x; clear * - x; exact is_state (by assumption)); clear this; refine (fun hx => ?_ : State.Keeps Q x → _) ?_ <;> [clear_value x; (dsimp -zeta only [x]; clear x)])
    | (extract_lets +onlyGivenNames x; clear_value x) | fail_if_no_progress with_reducible rw [keeps_mk] | split
    | dsimp -zeta only

theorem State.unchain_keeps {Q : List Instr} {n : Nat} : ∀ {s : State}, s.Keeps Q → (State.unchain n s).Keeps Q := by
  induction n with
  | zero => intro s h; exact h
  | succ n ih =>
    intro s h
    unfold State.unchain
    split
    · exact ih (State.orderReq_keeps h)
    · exact h

theorem State.wakeReq_keeps {Q : List Instr} {s : State} {id : Nat} (h : s.Keeps Q) :
    (State.wakeReq s id).Keeps Q := by
  unfold State.wakeReq
  repeat' first
    | with_reducible assumption | with_reducible apply State.deliver_keeps | with_reducible apply State.snoopStage_keeps
    | with_reducible apply State.dataStage_keeps | with_reducible apply State.storeLine_keeps
    | with_reducible apply State.openRead_keeps | with_reducible apply keeps_ite
    | (extract_lets +onlyGivenNames x; (have : True := by clear_value x; clear * - x; exact is_state (by assumption)); clear this; refine (fun hx => ?_ : State.Keeps Q x → _) ?_ <;> [clear_value x; (dsimp -zeta only [x]; clear x)])
    | (extract_lets +onlyGivenNames x; clear_value x) | fail_if_no_progress with_reducible rw [keeps_mk] | split
    | dsimp -zeta only

theorem State.release_keeps {Q : List Instr} {s : State} (h : s.Keeps Q) :
    (State.release s).Keeps Q := by
  unfold State.release
  repeat' first
    | with_reducible assumption | with_reducible apply State.wakeReq_keeps | with_reducible apply State.unchain_keeps
    | with_reducible apply keeps_ite | with_reducible refine keeps_foldl (fun _ _ _ => ?_) ?_
    | with_reducible refine nkeeps_foldl (fun _ _ _ => ?_) ?_ | with_reducible refine npkeeps_foldl (fun _ _ _ => ?_) ?_
    | (extract_lets +onlyGivenNames x; (have : True := by clear_value x; clear * - x; exact is_state (by assumption)); clear this; refine (fun hx => ?_ : State.Keeps Q x → _) ?_ <;> [clear_value x; (dsimp -zeta only [x]; clear x)])
    | (extract_lets +onlyGivenNames x; clear_value x) | split | dsimp -zeta only

theorem State.flushStep_keeps {Q : List Instr} {s : State} (h : s.Keeps Q) :
    (State.flushStep s).Keeps Q := by
  unfold State.flushStep
  repeat' first
    | with_reducible assumption | with_reducible apply State.recallNamed_keeps | with_reducible apply State.put_keeps
    | with_reducible apply keeps_ite | with_reducible refine keeps_foldl (fun _ _ _ => ?_) ?_
    | with_reducible refine nkeeps_foldl (fun _ _ _ => ?_) ?_ | with_reducible refine npkeeps_foldl (fun _ _ _ => ?_) ?_
    | (extract_lets +onlyGivenNames x; (have : True := by clear_value x; clear * - x; exact is_state (by assumption)); clear this; refine (fun hx => ?_ : State.Keeps Q x → _) ?_ <;> [clear_value x; (dsimp -zeta only [x]; clear x)])
    | (extract_lets +onlyGivenNames x; clear_value x) | fail_if_no_progress with_reducible rw [keeps_mk] | split
    | dsimp -zeta only

theorem State.sendWaiting_keeps {Q : List Instr} {s : State} {p : Nat} {tag : Nat} (h : s.Keeps Q) :
    (State.sendWaiting s p tag).Keeps Q := by
  unfold State.sendWaiting
  repeat' first
    | with_reducible assumption | with_reducible apply State.issueSnoop_keeps | with_reducible apply keeps_ite
    | (extract_lets +onlyGivenNames x; (have : True := by clear_value x; clear * - x; exact is_state (by assumption)); clear this; refine (fun hx => ?_ : State.Keeps Q x → _) ?_ <;> [clear_value x; (dsimp -zeta only [x]; clear x)])
    | (extract_lets +onlyGivenNames x; clear_value x) | fail_if_no_progress with_reducible rw [keeps_mk] | split
    | dsimp -zeta only

theorem State.endSnoop_keeps {Q : List Instr} {s : State} {sn : Snoop} (h : s.Keeps Q) :
    (State.endSnoop s sn).Keeps Q := by
  unfold State.endSnoop
  repeat' first
    | with_reducible assumption | with_reducible apply State.sendWaiting_keeps | with_reducible apply State.flushStep_keeps
    | with_reducible apply State.release_keeps | with_reducible apply keeps_ite
    | (extract_lets +onlyGivenNames x; (have : True := by clear_value x; clear * - x; exact is_state (by assumption)); clear this; refine (fun hx => ?_ : State.Keeps Q x → _) ?_ <;> [clear_value x; (dsimp -zeta only [x]; clear x)])
    | (extract_lets +onlyGivenNames x; clear_value x) | fail_if_no_progress with_reducible rw [keeps_mk] | split
    | dsimp -zeta only

theorem State.snoopDir_keeps {Q : List Instr} {s : State} {sn : Snoop} {keeps : Bool} (h : s.Keeps Q) :
    (State.snoopDir s sn keeps).Keeps Q := by
  unfold State.snoopDir
  repeat' first
    | with_reducible assumption | with_reducible apply State.dirSet_keeps | with_reducible apply keeps_ite
    | fail_if_no_progress with_reducible rw [keeps_mk] | split | dsimp -zeta only

theorem State.fixEntries_keeps {Q : List Instr} {s : State} {k : Nat} (h : s.Keeps Q) :
    (State.fixEntries s k).Keeps Q := by
  unfold State.fixEntries
  repeat' first
    | with_reducible assumption | with_reducible apply State.countDropped_keeps
    | with_reducible apply State.markPoison_keeps | with_reducible apply State.countPoisoned_keeps
    | with_reducible apply State.dirSet_keeps | with_reducible apply keeps_ite
    | with_reducible refine keeps_foldl (fun _ _ _ => ?_) ?_ | with_reducible refine nkeeps_foldl (fun _ _ _ => ?_) ?_
    | with_reducible refine npkeeps_foldl (fun _ _ _ => ?_) ?_
    | (extract_lets +onlyGivenNames x; (have : True := by clear_value x; clear * - x; exact is_state (by assumption)); clear this; refine (fun hx => ?_ : State.Keeps Q x → _) ?_ <;> [clear_value x; (dsimp -zeta only [x]; clear x)])
    | (extract_lets +onlyGivenNames x; clear_value x) | split | dsimp -zeta only

theorem State.endSweep_keeps {Q : List Instr} {s : State} {k : Nat} (h : s.Keeps Q) :
    (State.endSweep s k).Keeps Q := by
  unfold State.endSweep
  repeat' first
    | with_reducible assumption | with_reducible apply State.put_keeps | with_reducible apply State.setPrt_keeps
    | with_reducible apply State.raise_keeps | with_reducible apply keeps_ite
    | (extract_lets +onlyGivenNames x; (have : True := by clear_value x; clear * - x; exact is_state (by assumption)); clear this; refine (fun hx => ?_ : State.Keeps Q x → _) ?_ <;> [clear_value x; (dsimp -zeta only [x]; clear x)])
    | (extract_lets +onlyGivenNames x; clear_value x) | fail_if_no_progress with_reducible rw [keeps_mk] | split
    | dsimp -zeta only

theorem State.dropWaiting_keeps {Q : List Instr} {s : State} {k : Nat} (h : s.Keeps Q) :
    (State.dropWaiting s k).Keeps Q := by
  unfold State.dropWaiting
  repeat' first
    | with_reducible assumption | with_reducible apply State.wakeReq_keeps | with_reducible apply keeps_ite
    | with_reducible refine keeps_foldl (fun _ _ _ => ?_) ?_ | with_reducible refine nkeeps_foldl (fun _ _ _ => ?_) ?_
    | with_reducible refine npkeeps_foldl (fun _ _ _ => ?_) ?_
    | (extract_lets +onlyGivenNames x; (have : True := by clear_value x; clear * - x; exact is_state (by assumption)); clear this; refine (fun hx => ?_ : State.Keeps Q x → _) ?_ <;> [clear_value x; (dsimp -zeta only [x]; clear x)])
    | (extract_lets +onlyGivenNames x; clear_value x) | fail_if_no_progress with_reducible rw [keeps_mk] | split
    | dsimp -zeta only

theorem State.loseHost_keeps {Q : List Instr} {s : State} {k : Nat} {cause : Nat} (h : s.Keeps Q) :
    (State.loseHost s k cause).Keeps Q := by
  unfold State.loseHost
  repeat' first
    | with_reducible assumption | with_reducible apply State.put_keeps | with_reducible apply State.raise_keeps
    | with_reducible apply State.setPrt_keeps | with_reducible apply State.fixEntries_keeps
    | with_reducible apply State.dropWaiting_keeps | with_reducible apply State.endSweep_keeps
    | with_reducible apply keeps_ite
    | (extract_lets +onlyGivenNames x; (have : True := by clear_value x; clear * - x; exact is_state (by assumption)); clear this; refine (fun hx => ?_ : State.Keeps Q x → _) ?_ <;> [clear_value x; (dsimp -zeta only [x]; clear x)])
    | (extract_lets +onlyGivenNames x; clear_value x) | fail_if_no_progress with_reducible rw [keeps_mk] | split
    | dsimp -zeta only

theorem State.jobDir_keeps {Q : List Instr} {s : State} {t : Nat} {line : Nat} (h : s.Keeps Q) :
    PKeeps Q (State.jobDir s t line) := by
  unfold State.jobDir
  repeat' first
    | with_reducible assumption | with_reducible apply State.dirLoad_keeps | with_reducible apply State.dirSet_keeps
    | with_reducible apply keeps_ite | with_reducible exact keeps_fst (by with_reducible assumption)
    | with_reducible apply pkeeps_ite | with_reducible exact pkeeps_eq (by assumption) (by assumption)
    | with_reducible refine pkeeps_eq (by assumption) ?_ | with_reducible exact keeps_of_p (by with_reducible assumption)
    | (extract_lets +onlyGivenNames x; (have : True := by clear_value x; clear * - x; exact is_state (by assumption)); clear this; refine (fun hx => ?_ : State.Keeps Q x → _) ?_ <;> [clear_value x; (dsimp -zeta only [x]; clear x)])
    | (extract_lets +onlyGivenNames x; (have : True := by clear_value x; clear * - x; exact is_pair (by assumption)); clear this; refine (fun hx => ?_ : PKeeps Q x → _) ?_ <;> [clear_value x; (dsimp -zeta only [x]; clear x)])
    | (extract_lets +onlyGivenNames x; clear_value x) | fail_if_no_progress with_reducible rw [keeps_mk] | split
    | dsimp -zeta only | with_reducible apply pkeeps_mk

theorem State.recall_keeps {Q : List Instr} {s : State} {t : Nat} {line : Nat} {inv : Bool} {dpa : Option Nat} {but : Option Nat} (h : s.Keeps Q) :
    PKeeps Q (State.recall s t line inv dpa but) := by
  unfold State.recall
  repeat' first
    | with_reducible assumption | with_reducible apply State.dirWay_keeps | with_reducible apply State.makeWay_keeps
    | with_reducible apply State.jobDir_keeps | with_reducible apply State.snoopPort_keeps
    | (with_reducible apply keeps_fst; with_reducible apply State.jobDir_keeps) | with_reducible apply keeps_ite
    | with_reducible exact keeps_fst (by with_reducible assumption) | with_reducible apply pkeeps_ite
    | with_reducible exact pkeeps_eq (by assumption) (by assumption) | with_reducible refine pkeeps_eq (by assumption) ?_
    | with_reducible refine keeps_foldl (fun _ _ _ => ?_) ?_ | with_reducible refine pkeeps_foldl (fun _ _ _ => ?_) ?_
    | with_reducible refine nkeeps_foldl (fun _ _ _ => ?_) ?_ | with_reducible refine npkeeps_foldl (fun _ _ _ => ?_) ?_
    | with_reducible exact nkeeps_none | with_reducible apply nkeeps_some | with_reducible apply nkeeps_ite
    | with_reducible refine nkeeps_eq (by assumption) ?_ | with_reducible exact keeps_of_p (by with_reducible assumption)
    | with_reducible exact keeps_of_n (by with_reducible assumption)
    | (extract_lets +onlyGivenNames x; (have : True := by clear_value x; clear * - x; exact is_state (by assumption)); clear this; refine (fun hx => ?_ : State.Keeps Q x → _) ?_ <;> [clear_value x; (dsimp -zeta only [x]; clear x)])
    | (extract_lets +onlyGivenNames x; (have : True := by clear_value x; clear * - x; exact is_pair (by assumption)); clear this; refine (fun hx => ?_ : PKeeps Q x → _) ?_ <;> [clear_value x; (dsimp -zeta only [x]; clear x)])
    | (extract_lets +onlyGivenNames x; (have : True := by clear_value x; clear * - x; exact is_opt (by assumption)); clear this; refine (fun hx => ?_ : NKeeps Q x → _) ?_ <;> [clear_value x; (dsimp -zeta only [x]; clear x)])
    | (extract_lets +onlyGivenNames x; clear_value x) | fail_if_no_progress with_reducible rw [keeps_mk] | split
    | dsimp -zeta only | with_reducible apply pkeeps_mk

theorem State.clearDir_keeps {Q : List Instr} {s : State} {line : Nat} (h : s.Keeps Q) :
    (State.clearDir s line).Keeps Q := by
  unfold State.clearDir
  repeat' first
    | with_reducible assumption | with_reducible apply State.flushStep_keeps | with_reducible apply keeps_ite
    | fail_if_no_progress with_reducible rw [keeps_mk] | split | dsimp -zeta only

theorem State.jobRecall_keeps {Q : List Instr} {s : State} {da : Nat} (h : s.Keeps Q) :
    PKeeps Q (State.jobRecall s da) := by
  unfold State.jobRecall
  repeat' first
    | with_reducible assumption | with_reducible apply State.recall_keeps
    | (with_reducible apply keeps_fst; with_reducible apply State.recall_keeps) | with_reducible apply keeps_ite
    | with_reducible exact keeps_fst (by with_reducible assumption) | with_reducible apply pkeeps_ite
    | with_reducible exact pkeeps_eq (by assumption) (by assumption) | with_reducible refine pkeeps_eq (by assumption) ?_
    | with_reducible exact keeps_of_p (by with_reducible assumption) | fail_if_no_progress with_reducible rw [keeps_mk]
    | split | dsimp -zeta only | with_reducible apply pkeeps_mk

theorem State.jobClear_keeps {Q : List Instr} {s : State} {da : Nat} (h : s.Keeps Q) :
    (State.jobClear s da).Keeps Q := by
  unfold State.jobClear
  repeat' first
    | with_reducible assumption | with_reducible apply State.clearDir_keeps | with_reducible apply keeps_ite | split
    | dsimp -zeta only

end Sys2Proof.Machine
end

