-- ==== Sys2Proof/Laws/KeepsPace.lean ====
section
/-!
SUPPORT. The meanings and operations of Machine/Pace.lean keep a sound state and its queue.
-/
set_option linter.unusedTactic false
set_option linter.unusedSimpArgs false
set_option linter.unusedVariables false
set_option linter.unreachableTactic false

namespace Sys2Proof.Machine

theorem State.pacerUpdate_keeps {Q : List Instr} {s : State} (h : s.Keeps Q) :
    (State.pacerUpdate s).Keeps Q := by
  unfold State.pacerUpdate
  repeat' first
    | with_reducible assumption | with_reducible apply State.put_keeps | with_reducible apply State.bump_keeps
    | with_reducible apply State.raise_keeps | with_reducible apply keeps_ite
    | with_reducible refine keeps_foldl (fun _ _ _ => ?_) ?_ | with_reducible refine nkeeps_foldl (fun _ _ _ => ?_) ?_
    | with_reducible refine npkeeps_foldl (fun _ _ _ => ?_) ?_
    | (extract_lets +onlyGivenNames x; (have : True := by clear_value x; clear * - x; exact is_state (by assumption)); clear this; refine (fun hx => ?_ : State.Keeps Q x → _) ?_ <;> [clear_value x; (dsimp -zeta only [x]; clear x)])
    | (extract_lets +onlyGivenNames x; clear_value x) | fail_if_no_progress with_reducible rw [keeps_mk] | split
    | dsimp -zeta only

theorem State.chargeBuckets_keeps {Q : List Instr} {s : State} {p : Nat} {t : Nat} (h : s.Keeps Q) :
    PKeeps Q (State.chargeBuckets s p t) := by
  unfold State.chargeBuckets
  repeat' first
    | with_reducible assumption | with_reducible apply State.put_keeps | with_reducible apply keeps_ite
    | with_reducible exact keeps_fst (by with_reducible assumption) | with_reducible apply pkeeps_ite
    | with_reducible exact pkeeps_eq (by assumption) (by assumption) | with_reducible refine pkeeps_eq (by assumption) ?_
    | with_reducible exact keeps_of_p (by with_reducible assumption)
    | (extract_lets +onlyGivenNames x; (have : True := by clear_value x; clear * - x; exact is_state (by assumption)); clear this; refine (fun hx => ?_ : State.Keeps Q x → _) ?_ <;> [clear_value x; (dsimp -zeta only [x]; clear x)])
    | (extract_lets +onlyGivenNames x; (have : True := by clear_value x; clear * - x; exact is_pair (by assumption)); clear this; refine (fun hx => ?_ : PKeeps Q x → _) ?_ <;> [clear_value x; (dsimp -zeta only [x]; clear x)])
    | (extract_lets +onlyGivenNames x; clear_value x) | fail_if_no_progress with_reducible rw [keeps_mk] | split
    | dsimp -zeta only | with_reducible apply pkeeps_mk

theorem State.pacerTake_keeps {Q : List Instr} {s : State} {r : Req} (h : s.Keeps Q) :
    (State.pacerTake s r).Keeps Q := by
  unfold State.pacerTake
  repeat' first
    | with_reducible assumption | with_reducible apply State.chargeBuckets_keeps | with_reducible apply State.telHub_keeps
    | (with_reducible apply keeps_fst; with_reducible apply State.chargeBuckets_keeps) | with_reducible apply keeps_ite
    | with_reducible exact keeps_fst (by with_reducible assumption) | with_reducible apply pkeeps_ite
    | with_reducible exact pkeeps_eq (by assumption) (by assumption) | with_reducible refine pkeeps_eq (by assumption) ?_
    | with_reducible exact keeps_of_p (by with_reducible assumption)
    | (extract_lets +onlyGivenNames x; (have : True := by clear_value x; clear * - x; exact is_state (by assumption)); clear this; refine (fun hx => ?_ : State.Keeps Q x → _) ?_ <;> [clear_value x; (dsimp -zeta only [x]; clear x)])
    | (extract_lets +onlyGivenNames x; (have : True := by clear_value x; clear * - x; exact is_pair (by assumption)); clear this; refine (fun hx => ?_ : PKeeps Q x → _) ?_ <;> [clear_value x; (dsimp -zeta only [x]; clear x)])
    | (extract_lets +onlyGivenNames x; clear_value x) | fail_if_no_progress with_reducible rw [keeps_mk] | split
    | dsimp -zeta only | with_reducible apply pkeeps_mk

theorem State.report_keeps {Q : List Instr} {s : State} {n : Nat} (h : s.Keeps Q) :
    (State.report s n).Keeps Q := by
  unfold State.report
  repeat' first
    | with_reducible assumption | with_reducible apply State.put_keeps | with_reducible apply State.pacerUpdate_keeps
    | with_reducible apply keeps_ite
    | (extract_lets +onlyGivenNames x; (have : True := by clear_value x; clear * - x; exact is_state (by assumption)); clear this; refine (fun hx => ?_ : State.Keeps Q x → _) ?_ <;> [clear_value x; (dsimp -zeta only [x]; clear x)])
    | (extract_lets +onlyGivenNames x; clear_value x) | split | dsimp -zeta only

theorem State.urgUpdate_keeps {Q : List Instr} {s : State} {k : Nat} (h : s.Keeps Q) :
    (State.urgUpdate s k).Keeps Q := by
  unfold State.urgUpdate
  repeat' first
    | with_reducible assumption | with_reducible apply State.telPort_keeps | with_reducible apply State.setPrt_keeps
    | with_reducible apply keeps_ite
    | (extract_lets +onlyGivenNames x; (have : True := by clear_value x; clear * - x; exact is_state (by assumption)); clear this; refine (fun hx => ?_ : State.Keeps Q x → _) ?_ <;> [clear_value x; (dsimp -zeta only [x]; clear x)])
    | (extract_lets +onlyGivenNames x; clear_value x) | fail_if_no_progress with_reducible rw [keeps_mk] | split
    | dsimp -zeta only

theorem execUrgLevelChange_keeps {Q : List Instr} {p : Fin 8} {level : Fin 4} {s : State} (h : s.Keeps Q) :
    OKeeps Q (execUrgLevelChange p level s) := by
  unfold execUrgLevelChange
  repeat' first
    | with_reducible apply okeeps_next | with_reducible exact okeeps_fault | with_reducible apply okeeps_ite
    | with_reducible assumption | with_reducible apply State.put_keeps | with_reducible apply State.urgUpdate_keeps
    | with_reducible apply State.emit_keeps | with_reducible apply keeps_ite
    | (extract_lets +onlyGivenNames x; (have : True := by clear_value x; clear * - x; exact is_state (by assumption)); clear this; refine (fun hx => ?_ : State.Keeps Q x → _) ?_ <;> [clear_value x; (dsimp -zeta only [x]; clear x)])
    | (extract_lets +onlyGivenNames x; clear_value x) | split | dsimp -zeta only

theorem execUrgOverstay_keeps {Q : List Instr} {p : Fin 8} {s : State} (h : s.Keeps Q) :
    OKeeps Q (execUrgOverstay p s) := by
  unfold execUrgOverstay
  repeat' first
    | with_reducible apply okeeps_next | with_reducible exact okeeps_fault | with_reducible apply okeeps_ite
    | with_reducible assumption | with_reducible apply State.setPrt_keeps | with_reducible apply State.urgUpdate_keeps
    | with_reducible apply State.put_keeps | with_reducible apply State.raise_keeps | with_reducible apply keeps_ite
    | (extract_lets +onlyGivenNames x; (have : True := by clear_value x; clear * - x; exact is_state (by assumption)); clear this; refine (fun hx => ?_ : State.Keeps Q x → _) ?_ <;> [clear_value x; (dsimp -zeta only [x]; clear x)])
    | (extract_lets +onlyGivenNames x; clear_value x) | fail_if_no_progress with_reducible rw [keeps_mk] | split
    | dsimp -zeta only

theorem execUrgOverstayEnd_keeps {Q : List Instr} {p : Fin 8} {s : State} (h : s.Keeps Q) :
    OKeeps Q (execUrgOverstayEnd p s) := by
  unfold execUrgOverstayEnd
  repeat' first
    | with_reducible apply okeeps_next | with_reducible exact okeeps_fault | with_reducible apply okeeps_ite
    | with_reducible assumption | with_reducible apply State.setPrt_keeps | with_reducible apply State.urgUpdate_keeps
    | with_reducible apply keeps_ite
    | (extract_lets +onlyGivenNames x; (have : True := by clear_value x; clear * - x; exact is_state (by assumption)); clear this; refine (fun hx => ?_ : State.Keeps Q x → _) ?_ <;> [clear_value x; (dsimp -zeta only [x]; clear x)])
    | (extract_lets +onlyGivenNames x; clear_value x) | fail_if_no_progress with_reducible rw [keeps_mk] | split
    | dsimp -zeta only

theorem execDeliverableReport_keeps {Q : List Instr} {n : Fin 16} {s : State} (h : s.Keeps Q) :
    OKeeps Q (execDeliverableReport n s) := by
  unfold execDeliverableReport
  repeat' first
    | with_reducible apply okeeps_next | with_reducible exact okeeps_fault | with_reducible apply okeeps_ite
    | with_reducible assumption | with_reducible apply State.report_keeps | with_reducible apply keeps_ite | split
    | dsimp -zeta only

theorem execPacerHotspot_keeps {Q : List Instr} {n : Fin 16} {s : State} (h : s.Keeps Q) :
    OKeeps Q (execPacerHotspot n s) := by
  unfold execPacerHotspot
  repeat' first
    | with_reducible apply okeeps_next | with_reducible exact okeeps_fault | with_reducible apply okeeps_ite
    | with_reducible assumption | with_reducible apply State.put_keeps | with_reducible apply State.raise_keeps
    | with_reducible apply keeps_ite | split | dsimp -zeta only

theorem execHotClear_keeps {Q : List Instr} {n : Fin 16} {s : State} (h : s.Keeps Q) :
    OKeeps Q (execHotClear n s) := by
  unfold execHotClear
  repeat' first
    | with_reducible apply okeeps_next | with_reducible exact okeeps_fault | with_reducible apply okeeps_ite
    | with_reducible assumption | with_reducible apply State.put_keeps | with_reducible apply keeps_ite | split
    | dsimp -zeta only

theorem State.writePortGuar_keeps {Q : List Instr} {s : State} {k : Nat} {v : Nat} (h : s.Keeps Q) :
    (State.writePortGuar s k v).Keeps Q := by
  unfold State.writePortGuar
  repeat' first
    | with_reducible assumption | with_reducible apply State.put_keeps | with_reducible apply State.pacerUpdate_keeps
    | with_reducible apply keeps_ite
    | (extract_lets +onlyGivenNames x; (have : True := by clear_value x; clear * - x; exact is_state (by assumption)); clear this; refine (fun hx => ?_ : State.Keeps Q x → _) ?_ <;> [clear_value x; (dsimp -zeta only [x]; clear x)])
    | (extract_lets +onlyGivenNames x; clear_value x) | split | dsimp -zeta only

theorem execPacerPortGuarWrite_keeps {Q : List Instr} {p : Fin 8} {v : BitVec 32} {s : State} (h : s.Keeps Q) :
    OKeeps Q (execPacerPortGuarWrite p v s) := by
  unfold execPacerPortGuarWrite
  repeat' first
    | with_reducible apply okeeps_next | with_reducible exact okeeps_fault | with_reducible apply okeeps_ite
    | with_reducible assumption | with_reducible apply State.writePortGuar_keeps | with_reducible apply keeps_ite | split
    | dsimp -zeta only

theorem State.writePacerCtl_keeps {Q : List Instr} {s : State} {v : Nat} (h : s.Keeps Q) :
    (State.writePacerCtl s v).Keeps Q := by
  unfold State.writePacerCtl
  repeat' first
    | with_reducible assumption | with_reducible apply State.put_keeps | with_reducible apply State.urgUpdate_keeps
    | with_reducible apply State.pacerUpdate_keeps | with_reducible apply keeps_ite
    | with_reducible refine keeps_foldl (fun _ _ _ => ?_) ?_ | with_reducible refine nkeeps_foldl (fun _ _ _ => ?_) ?_
    | with_reducible refine npkeeps_foldl (fun _ _ _ => ?_) ?_
    | (extract_lets +onlyGivenNames x; (have : True := by clear_value x; clear * - x; exact is_state (by assumption)); clear this; refine (fun hx => ?_ : State.Keeps Q x → _) ?_ <;> [clear_value x; (dsimp -zeta only [x]; clear x)])
    | (extract_lets +onlyGivenNames x; clear_value x) | split | dsimp -zeta only

theorem execPacerCtlWrite_keeps {Q : List Instr} {v : BitVec 32} {s : State} (h : s.Keeps Q) :
    OKeeps Q (execPacerCtlWrite v s) := by
  unfold execPacerCtlWrite
  repeat' first
    | with_reducible apply okeeps_next | with_reducible exact okeeps_fault | with_reducible apply okeeps_ite
    | with_reducible assumption | with_reducible apply State.writePacerCtl_keeps | with_reducible apply keeps_ite | split
    | dsimp -zeta only

end Sys2Proof.Machine
end

