-- ==== Sys2Proof/Laws/KeepsXlat.lean ====
section
/-!
SUPPORT. The meanings and operations of Machine/Xlat.lean keep a sound state and its queue.
-/
set_option linter.unusedTactic false
set_option linter.unusedSimpArgs false
set_option linter.unusedVariables false
set_option linter.unreachableTactic false

namespace Sys2Proof.Machine

theorem State.tlbDrop_keeps {Q : List Instr} {s : State} {k : Nat} {vi : Nat} {page : Nat} (h : s.Keeps Q) :
    (State.tlbDrop s k vi page).Keeps Q := by
  unfold State.tlbDrop
  repeat' first
    | with_reducible assumption | with_reducible apply State.setPrt_keeps | with_reducible apply keeps_ite
    | (extract_lets +onlyGivenNames x; (have : True := by clear_value x; clear * - x; exact is_state (by assumption)); clear this; refine (fun hx => ?_ : State.Keeps Q x → _) ?_ <;> [clear_value x; (dsimp -zeta only [x]; clear x)])
    | (extract_lets +onlyGivenNames x; clear_value x) | fail_if_no_progress with_reducible rw [keeps_mk] | split
    | dsimp -zeta only

theorem State.tlbFill_keeps {Q : List Instr} {s : State} {k : Nat} {vi : Nat} {page : Nat} {lvl : Nat} {leaf : Nat} (h : s.Keeps Q) :
    (State.tlbFill s k vi page lvl leaf).Keeps Q := by
  unfold State.tlbFill
  repeat' first
    | with_reducible assumption | with_reducible apply State.setPrt_keeps | with_reducible apply State.tick_keeps
    | with_reducible apply keeps_ite
    | (extract_lets +onlyGivenNames x; (have : True := by clear_value x; clear * - x; exact is_state (by assumption)); clear this; refine (fun hx => ?_ : State.Keeps Q x → _) ?_ <;> [clear_value x; (dsimp -zeta only [x]; clear x)])
    | (extract_lets +onlyGivenNames x; clear_value x) | fail_if_no_progress with_reducible rw [keeps_mk] | split
    | dsimp -zeta only

theorem State.wcFill_keeps {Q : List Instr} {s : State} {k : Nat} {e : WcEnt} (h : s.Keeps Q) :
    (State.wcFill s k e).Keeps Q := by
  unfold State.wcFill
  repeat' first
    | with_reducible assumption | with_reducible apply State.setPrt_keeps | with_reducible apply State.tick_keeps
    | with_reducible apply keeps_ite
    | (extract_lets +onlyGivenNames x; (have : True := by clear_value x; clear * - x; exact is_state (by assumption)); clear this; refine (fun hx => ?_ : State.Keeps Q x → _) ?_ <;> [clear_value x; (dsimp -zeta only [x]; clear x)])
    | (extract_lets +onlyGivenNames x; clear_value x) | fail_if_no_progress with_reducible rw [keeps_mk] | split
    | dsimp -zeta only

theorem State.raiseHold_keeps {Q : List Instr} {s : State} {r : Req} {kind : Nat} {sev : Nat} (h : s.Keeps Q) :
    (State.raiseHold s r kind sev).Keeps Q := by
  unfold State.raiseHold
  repeat' first
    | with_reducible assumption | with_reducible apply State.raiseFor_keeps | with_reducible apply keeps_ite | split
    | dsimp -zeta only

theorem State.startWalk_keeps {Q : List Instr} {s : State} {id : Nat} {r : Req} (h : s.Keeps Q) :
    (State.startWalk s id r).Keeps Q := by
  unfold State.startWalk
  repeat' first
    | with_reducible assumption | with_reducible apply State.setReq_keeps | with_reducible apply State.put_keeps
    | with_reducible apply keeps_ite
    | (extract_lets +onlyGivenNames x; (have : True := by clear_value x; clear * - x; exact is_state (by assumption)); clear this; refine (fun hx => ?_ : State.Keeps Q x → _) ?_ <;> [clear_value x; (dsimp -zeta only [x]; clear x)])
    | (extract_lets +onlyGivenNames x; clear_value x) | fail_if_no_progress with_reducible rw [keeps_mk] | split
    | dsimp -zeta only

theorem State.hold_keeps {Q : List Instr} {s : State} {id : Nat} {r : Req} {ph : Phase} (h : s.Keeps Q) :
    (State.hold s id r ph).Keeps Q := by
  unfold State.hold
  repeat' first
    | with_reducible assumption | with_reducible apply State.setReq_keeps | with_reducible apply State.telPort_keeps
    | with_reducible apply keeps_ite | fail_if_no_progress with_reducible rw [keeps_mk] | split | dsimp -zeta only

theorem State.toHome_keeps {Q : List Instr} {s : State} {id : Nat} {r : Req} {leaf : Nat} {lvl : Nat} (h : s.Keeps Q) :
    (State.toHome s id r leaf lvl).Keeps Q := by
  unfold State.toHome
  repeat' first
    | with_reducible assumption | with_reducible apply State.pacerTake_keeps | with_reducible apply State.enterHome_keeps
    | with_reducible apply keeps_ite
    | (extract_lets +onlyGivenNames x; (have : True := by clear_value x; clear * - x; exact is_state (by assumption)); clear this; refine (fun hx => ?_ : State.Keeps Q x → _) ?_ <;> [clear_value x; (dsimp -zeta only [x]; clear x)])
    | (extract_lets +onlyGivenNames x; clear_value x) | fail_if_no_progress with_reducible rw [keeps_mk] | split
    | dsimp -zeta only

theorem State.resolveM_keeps {Q : List Instr} {s : State} {id : Nat} {r : Req} {b : Bursts} (h : s.Keeps Q) :
    (State.resolveM s id r b).Keeps Q := by
  unfold State.resolveM
  repeat' first
    | with_reducible assumption | with_reducible apply State.tlbDrop_keeps | with_reducible apply State.startWalk_keeps
    | with_reducible apply State.hold_keeps | with_reducible apply State.casEntry_keeps
    | with_reducible apply State.raiseHold_keeps | with_reducible apply State.toHome_keeps
    | (with_reducible apply keeps_fst; with_reducible apply State.casEntry_keeps) | with_reducible apply keeps_ite
    | with_reducible exact keeps_fst (by with_reducible assumption) | with_reducible apply pkeeps_ite
    | with_reducible exact pkeeps_eq (by assumption) (by assumption) | with_reducible refine pkeeps_eq (by assumption) ?_
    | with_reducible exact keeps_of_p (by with_reducible assumption) | fail_if_no_progress with_reducible rw [keeps_mk]
    | split | dsimp -zeta only | with_reducible apply pkeeps_mk

theorem State.askAllocation_keeps {Q : List Instr} {s : State} {id : Nat} {r : Req} {leaf : Nat} {lvl : Nat} (h : s.Keeps Q) :
    (State.askAllocation s id r leaf lvl).Keeps Q := by
  unfold State.askAllocation
  repeat' first
    | with_reducible assumption | with_reducible apply State.raiseHold_keeps | with_reducible apply State.complete_keeps
    | with_reducible apply State.hold_keeps | with_reducible apply State.tlbDrop_keeps
    | with_reducible apply State.startWalk_keeps | with_reducible apply State.casEntry_keeps
    | with_reducible apply State.setEng_keeps | (with_reducible apply keeps_fst; with_reducible apply State.casEntry_keeps)
    | with_reducible apply keeps_ite | with_reducible exact keeps_fst (by with_reducible assumption)
    | with_reducible apply pkeeps_ite | with_reducible exact pkeeps_eq (by assumption) (by assumption)
    | with_reducible refine pkeeps_eq (by assumption) ?_ | with_reducible exact keeps_of_p (by with_reducible assumption)
    | (extract_lets +onlyGivenNames x; (have : True := by clear_value x; clear * - x; exact is_state (by assumption)); clear this; refine (fun hx => ?_ : State.Keeps Q x → _) ?_ <;> [clear_value x; (dsimp -zeta only [x]; clear x)])
    | (extract_lets +onlyGivenNames x; (have : True := by clear_value x; clear * - x; exact is_pair (by assumption)); clear this; refine (fun hx => ?_ : PKeeps Q x → _) ?_ <;> [clear_value x; (dsimp -zeta only [x]; clear x)])
    | (extract_lets +onlyGivenNames x; clear_value x) | fail_if_no_progress with_reducible rw [keeps_mk] | split
    | dsimp -zeta only | with_reducible apply pkeeps_mk

theorem State.useLeaf_keeps {Q : List Instr} {s : State} {id : Nat} {r : Req} {leaf : Nat} {lvl : Nat} (h : s.Keeps Q) :
    (State.useLeaf s id r leaf lvl).Keeps Q := by
  unfold State.useLeaf
  repeat' first
    | with_reducible assumption | with_reducible apply State.answer_keeps | with_reducible apply State.complete_keeps
    | with_reducible apply State.hold_keeps | with_reducible apply State.askAllocation_keeps
    | with_reducible apply State.resolveM_keeps | with_reducible apply State.toHome_keeps | with_reducible apply keeps_ite
    | (extract_lets +onlyGivenNames x; (have : True := by clear_value x; clear * - x; exact is_state (by assumption)); clear this; refine (fun hx => ?_ : State.Keeps Q x → _) ?_ <;> [clear_value x; (dsimp -zeta only [x]; clear x)])
    | (extract_lets +onlyGivenNames x; clear_value x) | fail_if_no_progress with_reducible rw [keeps_mk] | split
    | dsimp -zeta only

theorem State.translate_keeps {Q : List Instr} {s : State} {id : Nat} {r : Req} (h : s.Keeps Q) :
    (State.translate s id r).Keeps Q := by
  unfold State.translate
  repeat' first
    | with_reducible assumption | with_reducible apply State.telPort_keeps | with_reducible apply State.useLeaf_keeps
    | with_reducible apply State.startWalk_keeps | with_reducible apply keeps_ite
    | fail_if_no_progress with_reducible rw [keeps_mk] | split | dsimp -zeta only

theorem State.unmapped_keeps {Q : List Instr} {s : State} {id : Nat} {r : Req} {hpa : Bool} (h : s.Keeps Q) :
    (State.unmapped s id r hpa).Keeps Q := by
  unfold State.unmapped
  repeat' first
    | with_reducible assumption | with_reducible apply State.raiseFor_keeps | with_reducible apply State.refuseReq_keeps
    | with_reducible apply keeps_ite
    | (extract_lets +onlyGivenNames x; (have : True := by clear_value x; clear * - x; exact is_state (by assumption)); clear this; refine (fun hx => ?_ : State.Keeps Q x → _) ?_ <;> [clear_value x; (dsimp -zeta only [x]; clear x)])
    | (extract_lets +onlyGivenNames x; clear_value x) | split | dsimp -zeta only

theorem State.notActive_keeps {Q : List Instr} {s : State} {id : Nat} {r : Req} (h : s.Keeps Q) :
    (State.notActive s id r).Keeps Q := by
  unfold State.notActive
  repeat' first
    | with_reducible assumption | with_reducible apply State.raiseFor_keeps | with_reducible apply State.refuseReq_keeps
    | with_reducible apply keeps_ite | split | dsimp -zeta only

theorem State.served_keeps {Q : List Instr} {s : State} {id : Nat} {r : Req} {t : Nat} (h : s.Keeps Q) :
    (State.served s id r t).Keeps Q := by
  unfold State.served
  repeat' first
    | with_reducible assumption | with_reducible apply State.unmapped_keeps | with_reducible apply State.refuseWrite_keeps
    | with_reducible apply State.translate_keeps | with_reducible apply keeps_ite
    | (extract_lets +onlyGivenNames x; (have : True := by clear_value x; clear * - x; exact is_state (by assumption)); clear this; refine (fun hx => ?_ : State.Keeps Q x → _) ?_ <;> [clear_value x; (dsimp -zeta only [x]; clear x)])
    | (extract_lets +onlyGivenNames x; clear_value x) | fail_if_no_progress with_reducible rw [keeps_mk] | split
    | dsimp -zeta only

theorem State.lookup_keeps {Q : List Instr} {s : State} {id : Nat} {r : Req} (h : s.Keeps Q) :
    (State.lookup s id r).Keeps Q := by
  unfold State.lookup
  repeat' first
    | with_reducible assumption | with_reducible apply State.unmapped_keeps | with_reducible apply State.served_keeps
    | with_reducible apply State.notActive_keeps | with_reducible apply State.setReq_keeps | with_reducible apply keeps_ite
    | (extract_lets +onlyGivenNames x; (have : True := by clear_value x; clear * - x; exact is_state (by assumption)); clear this; refine (fun hx => ?_ : State.Keeps Q x → _) ?_ <;> [clear_value x; (dsimp -zeta only [x]; clear x)])
    | (extract_lets +onlyGivenNames x; clear_value x) | fail_if_no_progress with_reducible rw [keeps_mk] | split
    | dsimp -zeta only

theorem State.startReq_keeps {Q : List Instr} {s : State} {id : Nat} {r : Req} (h : s.Keeps Q) :
    (State.startReq s id r).Keeps Q := by
  unfold State.startReq
  repeat' first
    | with_reducible assumption | with_reducible apply State.setReq_keeps | with_reducible apply State.lookup_keeps
    | with_reducible apply keeps_ite | fail_if_no_progress with_reducible rw [keeps_mk] | split | dsimp -zeta only

theorem State.ungate_keeps {Q : List Instr} {n : Nat} :
    ∀ {l : List Nat} {s : State}, s.Keeps Q → (State.ungate n l s).Keeps Q := by
  induction n with
  | zero => intro l s h; unfold State.ungate; exact h
  | succ n ih =>
    intro l s h
    cases l with
    | nil => exact h
    | cons a t =>
      unfold State.ungate
      apply ih
      split
      · split
        · exact State.startReq_keeps h
        · exact h
      · exact h

theorem State.ungatePort_keeps {Q : List Instr} {s : State} {k : Nat} (h : s.Keeps Q) :
    (State.ungatePort s k).Keeps Q := by
  unfold State.ungatePort
  repeat' first
    | with_reducible assumption | with_reducible apply State.ungate_keeps | with_reducible apply keeps_ite
    | (extract_lets +onlyGivenNames x; (have : True := by clear_value x; clear * - x; exact is_state (by assumption)); clear this; refine (fun hx => ?_ : State.Keeps Q x → _) ?_ <;> [clear_value x; (dsimp -zeta only [x]; clear x)])
    | (extract_lets +onlyGivenNames x; clear_value x) | split | dsimp -zeta only

theorem State.settle_keeps {Q : List Instr} {s : State} {k : Nat} (h : s.Keeps Q) :
    (State.settle s k).Keeps Q := by
  unfold State.settle
  repeat' first
    | with_reducible assumption | with_reducible apply State.ungatePort_keeps | with_reducible apply State.release_keeps
    | with_reducible apply keeps_ite | split | dsimp -zeta only

theorem State.nextWalk_keeps {Q : List Instr} {s : State} {k : Nat} (h : s.Keeps Q) :
    (State.nextWalk s k).Keeps Q := by
  unfold State.nextWalk
  repeat' first
    | with_reducible assumption | with_reducible apply State.startWalk_keeps | with_reducible apply keeps_ite
    | fail_if_no_progress with_reducible rw [keeps_mk] | split | dsimp -zeta only

theorem State.rewalk_keeps {Q : List Instr} {s : State} {id : Nat} {w : Walk} (h : s.Keeps Q) :
    (State.rewalk s id w).Keeps Q := by
  unfold State.rewalk
  repeat' first
    | with_reducible assumption | with_reducible apply State.startWalk_keeps | with_reducible apply keeps_ite
    | with_reducible refine keeps_foldl (fun _ _ _ => ?_) ?_ | with_reducible refine nkeeps_foldl (fun _ _ _ => ?_) ?_
    | with_reducible refine npkeeps_foldl (fun _ _ _ => ?_) ?_
    | (extract_lets +onlyGivenNames x; (have : True := by clear_value x; clear * - x; exact is_state (by assumption)); clear this; refine (fun hx => ?_ : State.Keeps Q x → _) ?_ <;> [clear_value x; (dsimp -zeta only [x]; clear x)])
    | (extract_lets +onlyGivenNames x; clear_value x) | fail_if_no_progress with_reducible rw [keeps_mk] | split
    | dsimp -zeta only

theorem State.walkFault_keeps {Q : List Instr} {s : State} {id : Nat} {w : Walk} {kind : Nat} {sev : Nat} (h : s.Keeps Q) :
    (State.walkFault s id w kind sev).Keeps Q := by
  unfold State.walkFault
  repeat' first
    | with_reducible assumption | with_reducible apply State.rewalk_keeps | with_reducible apply State.raiseFor_keeps
    | with_reducible apply State.refuseReq_keeps | with_reducible apply State.nextWalk_keeps
    | with_reducible apply State.settle_keeps | with_reducible apply keeps_ite
    | with_reducible refine keeps_foldl (fun _ _ _ => ?_) ?_ | with_reducible refine nkeeps_foldl (fun _ _ _ => ?_) ?_
    | with_reducible refine npkeeps_foldl (fun _ _ _ => ?_) ?_
    | (extract_lets +onlyGivenNames x; (have : True := by clear_value x; clear * - x; exact is_state (by assumption)); clear this; refine (fun hx => ?_ : State.Keeps Q x → _) ?_ <;> [clear_value x; (dsimp -zeta only [x]; clear x)])
    | (extract_lets +onlyGivenNames x; clear_value x) | fail_if_no_progress with_reducible rw [keeps_mk] | split
    | dsimp -zeta only

theorem State.walkDone_keeps {Q : List Instr} {s : State} {id : Nat} {w : Walk} {da : Nat} {e : Nat} (h : s.Keeps Q) :
    (State.walkDone s id w da e).Keeps Q := by
  unfold State.walkDone
  repeat' first
    | with_reducible assumption | with_reducible apply State.casEntry_keeps | with_reducible apply State.rewalk_keeps
    | with_reducible apply State.tlbFill_keeps | with_reducible apply State.wcFill_keeps
    | with_reducible apply State.useLeaf_keeps | with_reducible apply State.nextWalk_keeps
    | with_reducible apply State.settle_keeps | (with_reducible apply keeps_fst; with_reducible apply State.casEntry_keeps)
    | with_reducible apply keeps_ite | with_reducible exact keeps_fst (by with_reducible assumption)
    | with_reducible apply pkeeps_ite | with_reducible exact pkeeps_eq (by assumption) (by assumption)
    | with_reducible refine pkeeps_eq (by assumption) ?_ | with_reducible refine keeps_foldl (fun _ _ _ => ?_) ?_
    | with_reducible refine pkeeps_foldl (fun _ _ _ => ?_) ?_ | with_reducible refine nkeeps_foldl (fun _ _ _ => ?_) ?_
    | with_reducible refine npkeeps_foldl (fun _ _ _ => ?_) ?_
    | with_reducible exact keeps_of_p (by with_reducible assumption)
    | (extract_lets +onlyGivenNames x; (have : True := by clear_value x; clear * - x; exact is_state (by assumption)); clear this; refine (fun hx => ?_ : State.Keeps Q x → _) ?_ <;> [clear_value x; (dsimp -zeta only [x]; clear x)])
    | (extract_lets +onlyGivenNames x; (have : True := by clear_value x; clear * - x; exact is_pair (by assumption)); clear this; refine (fun hx => ?_ : PKeeps Q x → _) ?_ <;> [clear_value x; (dsimp -zeta only [x]; clear x)])
    | (extract_lets +onlyGivenNames x; clear_value x) | fail_if_no_progress with_reducible rw [keeps_mk] | split
    | dsimp -zeta only | with_reducible apply pkeeps_mk

theorem State.walkStep_keeps {Q : List Instr} {s : State} {id : Nat} {w : Walk} {b : Bursts} (h : s.Keeps Q) :
    (State.walkStep s id w b).Keeps Q := by
  unfold State.walkStep
  repeat' first
    | with_reducible assumption | with_reducible apply State.walkFault_keeps | with_reducible apply State.metaRead_keeps
    | with_reducible apply State.telPort_keeps | with_reducible apply State.put_keeps
    | with_reducible apply State.walkDone_keeps
    | (with_reducible apply keeps_fst; with_reducible apply State.metaRead_keeps) | with_reducible apply keeps_ite
    | with_reducible exact keeps_fst (by with_reducible assumption) | with_reducible apply pkeeps_ite
    | with_reducible exact pkeeps_eq (by assumption) (by assumption) | with_reducible refine pkeeps_eq (by assumption) ?_
    | with_reducible exact keeps_of_p (by with_reducible assumption)
    | (extract_lets +onlyGivenNames x; (have : True := by clear_value x; clear * - x; exact is_state (by assumption)); clear this; refine (fun hx => ?_ : State.Keeps Q x → _) ?_ <;> [clear_value x; (dsimp -zeta only [x]; clear x)])
    | (extract_lets +onlyGivenNames x; (have : True := by clear_value x; clear * - x; exact is_pair (by assumption)); clear this; refine (fun hx => ?_ : PKeeps Q x → _) ?_ <;> [clear_value x; (dsimp -zeta only [x]; clear x)])
    | (extract_lets +onlyGivenNames x; clear_value x) | fail_if_no_progress with_reducible rw [keeps_mk] | split
    | dsimp -zeta only | with_reducible apply pkeeps_mk

theorem State.invApply_keeps {Q : List Instr} {s : State} {k : Nat} {i : Inval} (h : s.Keeps Q) :
    (State.invApply s k i).Keeps Q := by
  unfold State.invApply
  repeat' first
    | with_reducible assumption | with_reducible apply State.setPrt_keeps | with_reducible apply keeps_ite
    | (extract_lets +onlyGivenNames x; (have : True := by clear_value x; clear * - x; exact is_state (by assumption)); clear this; refine (fun hx => ?_ : State.Keeps Q x → _) ?_ <;> [clear_value x; (dsimp -zeta only [x]; clear x)])
    | (extract_lets +onlyGivenNames x; clear_value x) | fail_if_no_progress with_reducible rw [keeps_mk] | split
    | dsimp -zeta only

theorem State.invCount_keeps {Q : List Instr} {s : State} {k : Nat} (h : s.Keeps Q) :
    (State.invCount s k).Keeps Q := by
  unfold State.invCount
  repeat' first
    | with_reducible assumption | with_reducible apply State.put_keeps | with_reducible apply keeps_ite | split
    | dsimp -zeta only

theorem State.invGo_keeps {Q : List Instr} {s : State} {k : Nat} {tlb : Bool} (h : s.Keeps Q) :
    (State.invGo s k tlb).Keeps Q := by
  unfold State.invGo
  repeat' first
    | with_reducible assumption | with_reducible apply State.put_keeps | with_reducible apply State.invCount_keeps
    | with_reducible apply State.invApply_keeps | with_reducible apply keeps_ite
    | (extract_lets +onlyGivenNames x; (have : True := by clear_value x; clear * - x; exact is_state (by assumption)); clear this; refine (fun hx => ?_ : State.Keeps Q x → _) ?_ <;> [clear_value x; (dsimp -zeta only [x]; clear x)])
    | (extract_lets +onlyGivenNames x; clear_value x) | split | dsimp -zeta only

theorem State.releaseHeld_keeps {Q : List Instr} {s : State} {k : Nat} {f : Req → Bool} (h : s.Keeps Q) :
    (State.releaseHeld s k f).Keeps Q := by
  unfold State.releaseHeld
  repeat' first
    | with_reducible assumption | with_reducible apply State.startWalk_keeps | with_reducible apply keeps_ite
    | with_reducible refine keeps_foldl (fun _ _ _ => ?_) ?_ | with_reducible refine nkeeps_foldl (fun _ _ _ => ?_) ?_
    | with_reducible refine npkeeps_foldl (fun _ _ _ => ?_) ?_ | split | dsimp -zeta only

theorem State.invFinish_keeps {Q : List Instr} {s : State} {k : Nat} {i : Inval} (h : s.Keeps Q) :
    (State.invFinish s k i).Keeps Q := by
  unfold State.invFinish
  repeat' first
    | with_reducible assumption | with_reducible apply State.setPrt_keeps | with_reducible apply State.put_keeps
    | with_reducible apply State.invCount_keeps | with_reducible apply State.releaseHeld_keeps
    | with_reducible apply State.settle_keeps | with_reducible apply keeps_ite
    | (extract_lets +onlyGivenNames x; (have : True := by clear_value x; clear * - x; exact is_state (by assumption)); clear this; refine (fun hx => ?_ : State.Keeps Q x → _) ?_ <;> [clear_value x; (dsimp -zeta only [x]; clear x)])
    | (extract_lets +onlyGivenNames x; clear_value x) | fail_if_no_progress with_reducible rw [keeps_mk] | split
    | dsimp -zeta only

theorem State.invDone_keeps {Q : List Instr} {s : State} {k : Nat} (h : s.Keeps Q) :
    (State.invDone s k).Keeps Q := by
  unfold State.invDone
  repeat' first
    | with_reducible assumption | with_reducible apply State.invFinish_keeps | with_reducible apply keeps_ite
    | fail_if_no_progress with_reducible rw [keeps_mk] | split | dsimp -zeta only

theorem State.invWait_keeps {Q : List Instr} {s : State} {k : Nat} (h : s.Keeps Q) :
    (State.invWait s k).Keeps Q := by
  unfold State.invWait
  repeat' first
    | with_reducible assumption | with_reducible apply State.rewalk_keeps | with_reducible apply State.invFinish_keeps
    | with_reducible apply keeps_ite | with_reducible refine keeps_foldl (fun _ _ _ => ?_) ?_
    | with_reducible refine nkeeps_foldl (fun _ _ _ => ?_) ?_ | with_reducible refine npkeeps_foldl (fun _ _ _ => ?_) ?_
    | fail_if_no_progress with_reducible rw [keeps_mk] | split | dsimp -zeta only

theorem State.invRun_keeps {Q : List Instr} {s : State} {k : Nat} {scope : Nat} {t : Nat} {count : Nat} {page : Nat} (h : s.Keeps Q) :
    (State.invRun s k scope t count page).Keeps Q := by
  unfold State.invRun
  repeat' first
    | with_reducible assumption | with_reducible apply State.invWait_keeps | with_reducible apply State.put_keeps
    | with_reducible apply State.invGo_keeps | with_reducible apply keeps_ite
    | (extract_lets +onlyGivenNames x; (have : True := by clear_value x; clear * - x; exact is_state (by assumption)); clear this; refine (fun hx => ?_ : State.Keeps Q x → _) ?_ <;> [clear_value x; (dsimp -zeta only [x]; clear x)])
    | (extract_lets +onlyGivenNames x; clear_value x) | split | dsimp -zeta only

theorem State.invNow_keeps {Q : List Instr} {s : State} {k : Nat} {t : Nat} {page : Nat} {count : Nat} {whole : Bool} (h : s.Keeps Q) :
    (State.invNow s k t page count whole).Keeps Q := by
  unfold State.invNow
  repeat' first
    | with_reducible assumption | with_reducible apply State.invRun_keeps | with_reducible apply keeps_ite | split
    | dsimp -zeta only

theorem State.invPort_keeps {Q : List Instr} {s : State} {k : Nat} (h : s.Keeps Q) :
    (State.invPort s k).Keeps Q := by
  unfold State.invPort
  repeat' first
    | with_reducible assumption | with_reducible apply State.invRun_keeps | with_reducible apply keeps_ite | split
    | dsimp -zeta only

theorem State.invalidate_keeps {Q : List Instr} {s : State} {t : Nat} {page : Nat} {count : Nat} {whole : Bool} (h : s.Keeps Q) :
    (State.invalidate s t page count whole).Keeps Q := by
  unfold State.invalidate
  repeat' first
    | with_reducible assumption | with_reducible apply State.invNow_keeps | with_reducible apply keeps_ite
    | with_reducible refine keeps_foldl (fun _ _ _ => ?_) ?_ | with_reducible refine nkeeps_foldl (fun _ _ _ => ?_) ?_
    | with_reducible refine npkeeps_foldl (fun _ _ _ => ?_) ?_ | split | dsimp -zeta only

theorem execWalk_keeps {Q : List Instr} {id : BitVec 32} {b : Bursts} {s : State} (h : s.Keeps Q) :
    OKeeps Q (execWalk id b s) := by
  unfold execWalk
  repeat' first
    | with_reducible apply okeeps_next | with_reducible exact okeeps_fault | with_reducible apply okeeps_ite
    | with_reducible assumption | with_reducible apply State.walkStep_keeps | with_reducible apply keeps_ite
    | fail_if_no_progress with_reducible rw [keeps_mk] | split | dsimp -zeta only

theorem execCompareAndWrite_keeps {Q : List Instr} {eng : Fin 64} {da : BitVec 48} {old : BitVec 64} {new : BitVec 64} {b : Bursts} {s : State} (h : s.Keeps Q) :
    OKeeps Q (execCompareAndWrite eng da old new b s) := by
  unfold execCompareAndWrite
  repeat' first
    | with_reducible apply okeeps_next | with_reducible exact okeeps_fault | with_reducible apply okeeps_ite
    | with_reducible assumption | with_reducible apply State.casEntry_keeps | with_reducible apply State.emit_keeps
    | with_reducible apply State.unmapped_keeps | with_reducible apply State.raise_keeps
    | (with_reducible apply keeps_fst; with_reducible apply State.casEntry_keeps) | with_reducible apply keeps_ite
    | with_reducible exact keeps_fst (by with_reducible assumption) | with_reducible apply pkeeps_ite
    | with_reducible exact pkeeps_eq (by assumption) (by assumption) | with_reducible refine pkeeps_eq (by assumption) ?_
    | with_reducible exact keeps_of_p (by with_reducible assumption) | fail_if_no_progress with_reducible rw [keeps_mk]
    | split | dsimp -zeta only | with_reducible apply pkeeps_mk

theorem execMoveHoldExpired_keeps {Q : List Instr} {id : BitVec 32} {b : Bursts} {s : State} (h : s.Keeps Q) :
    OKeeps Q (execMoveHoldExpired id b s) := by
  unfold execMoveHoldExpired
  repeat' first
    | with_reducible apply okeeps_next | with_reducible exact okeeps_fault | with_reducible apply okeeps_ite
    | with_reducible assumption | with_reducible apply State.resolveM_keeps | with_reducible apply State.settle_keeps
    | with_reducible apply keeps_ite | fail_if_no_progress with_reducible rw [keeps_mk] | split | dsimp -zeta only

theorem execWriteHeldDropped_keeps {Q : List Instr} {id : BitVec 32} {s : State} (h : s.Keeps Q) :
    OKeeps Q (execWriteHeldDropped id s) := by
  unfold execWriteHeldDropped
  repeat' first
    | with_reducible apply okeeps_next | with_reducible exact okeeps_fault | with_reducible apply okeeps_ite
    | with_reducible assumption | with_reducible apply State.raiseHold_keeps | with_reducible apply State.complete_keeps
    | with_reducible apply State.settle_keeps | with_reducible apply keeps_ite
    | fail_if_no_progress with_reducible rw [keeps_mk] | split | dsimp -zeta only

theorem execAllocTimeout_keeps {Q : List Instr} {id : BitVec 32} {s : State} (h : s.Keeps Q) :
    OKeeps Q (execAllocTimeout id s) := by
  unfold execAllocTimeout
  repeat' first
    | with_reducible apply okeeps_next | with_reducible exact okeeps_fault | with_reducible apply okeeps_ite
    | with_reducible assumption | with_reducible apply State.raiseHold_keeps | with_reducible apply State.complete_keeps
    | with_reducible apply State.settle_keeps | with_reducible apply keeps_ite
    | fail_if_no_progress with_reducible rw [keeps_mk] | split | dsimp -zeta only

theorem execPortTlbInv_keeps {Q : List Instr} {p : Fin 8} {s : State} (h : s.Keeps Q) :
    OKeeps Q (execPortTlbInv p s) := by
  unfold execPortTlbInv
  repeat' first
    | with_reducible apply okeeps_next | with_reducible exact okeeps_fault | with_reducible apply okeeps_ite
    | with_reducible assumption | with_reducible refine State.atPage_keeps (fun _ _ => ?_) ?_
    | with_reducible apply State.invGo_keeps | with_reducible apply keeps_ite | split | dsimp -zeta only

theorem execPortWalkInv_keeps {Q : List Instr} {p : Fin 8} {s : State} (h : s.Keeps Q) :
    OKeeps Q (execPortWalkInv p s) := by
  unfold execPortWalkInv
  repeat' first
    | with_reducible apply okeeps_next | with_reducible exact okeeps_fault | with_reducible apply okeeps_ite
    | with_reducible assumption | with_reducible refine State.atPage_keeps (fun _ _ => ?_) ?_
    | with_reducible apply State.invGo_keeps | with_reducible apply keeps_ite | split | dsimp -zeta only

theorem execInvalidationDone_keeps {Q : List Instr} {p : Fin 8} {s : State} (h : s.Keeps Q) :
    OKeeps Q (execInvalidationDone p s) := by
  unfold execInvalidationDone
  repeat' first
    | with_reducible apply okeeps_next | with_reducible exact okeeps_fault | with_reducible apply okeeps_ite
    | with_reducible assumption | with_reducible apply State.invDone_keeps | with_reducible apply keeps_ite | split
    | dsimp -zeta only

theorem execViNotActive_keeps {Q : List Instr} {id : BitVec 32} {s : State} (h : s.Keeps Q) :
    OKeeps Q (execViNotActive id s) := by
  unfold execViNotActive
  repeat' first
    | with_reducible apply okeeps_next | with_reducible exact okeeps_fault | with_reducible apply okeeps_ite
    | with_reducible assumption | with_reducible apply State.lookup_keeps | with_reducible apply State.setPrt_keeps
    | with_reducible apply State.notActive_keeps | with_reducible apply State.settle_keeps | with_reducible apply keeps_ite
    | (extract_lets +onlyGivenNames x; (have : True := by clear_value x; clear * - x; exact is_state (by assumption)); clear this; refine (fun hx => ?_ : State.Keeps Q x → _) ?_ <;> [clear_value x; (dsimp -zeta only [x]; clear x)])
    | (extract_lets +onlyGivenNames x; clear_value x) | fail_if_no_progress with_reducible rw [keeps_mk] | split
    | dsimp -zeta only

end Sys2Proof.Machine
end

