-- ==== Sys2Proof/Laws/KeepsHostReq.lean ====
section
/-!
SUPPORT. The meanings and operations of Machine/HostReq.lean keep a sound state and its queue.
-/
set_option linter.unusedTactic false
set_option linter.unusedSimpArgs false
set_option linter.unusedVariables false
set_option linter.unreachableTactic false

namespace Sys2Proof.Machine

theorem State.accept_keeps {Q : List Instr} {s : State} {op : ReqOp} {p : Nat} {ld : Nat} {hpa : Nat} {mv : MetaValue} {data : BitVec 512} {mask : BitVec 64} (h : s.Keeps Q) :
    (State.accept s op p ld hpa mv data mask).Keeps Q := by
  unfold State.accept
  repeat' first
    | with_reducible assumption | with_reducible apply State.lookup_keeps | with_reducible apply State.leaveIdle_keeps
    | with_reducible apply State.telPort_keeps | with_reducible apply State.setPrt_keeps
    | with_reducible apply State.refuseReq_keeps | with_reducible apply State.startReq_keeps
    | with_reducible apply State.release_keeps | with_reducible apply State.setReq_keeps
    | with_reducible apply State.wakeBy_keeps | with_reducible apply keeps_ite
    | (extract_lets +onlyGivenNames x; (have : True := by clear_value x; clear * - x; exact is_state (by assumption)); clear this; refine (fun hx => ?_ : State.Keeps Q x → _) ?_ <;> [clear_value x; (dsimp -zeta only [x]; clear x)])
    | (extract_lets +onlyGivenNames x; clear_value x) | fail_if_no_progress with_reducible rw [keeps_mk] | split
    | dsimp -zeta only

theorem execMemrd_keeps {Q : List Instr} {p : Fin 8} {ld : Fin 16} {hpa : BitVec 52} {mv : MetaValue} {s : State} (h : s.Keeps Q) :
    OKeeps Q (execMemrd p ld hpa mv s) := by
  unfold execMemrd
  repeat' first
    | with_reducible apply okeeps_next | with_reducible exact okeeps_fault | with_reducible apply okeeps_ite
    | with_reducible assumption | with_reducible apply State.accept_keeps | with_reducible apply keeps_ite | split
    | dsimp -zeta only

theorem execMemrddata_keeps {Q : List Instr} {p : Fin 8} {ld : Fin 16} {hpa : BitVec 52} {s : State} (h : s.Keeps Q) :
    OKeeps Q (execMemrddata p ld hpa s) := by
  unfold execMemrddata
  repeat' first
    | with_reducible apply okeeps_next | with_reducible exact okeeps_fault | with_reducible apply okeeps_ite
    | with_reducible assumption | with_reducible apply State.accept_keeps | with_reducible apply keeps_ite | split
    | dsimp -zeta only

theorem execMemwr_keeps {Q : List Instr} {p : Fin 8} {ld : Fin 16} {hpa : BitVec 52} {mv : MetaValue} {data : BitVec 512} {s : State} (h : s.Keeps Q) :
    OKeeps Q (execMemwr p ld hpa mv data s) := by
  unfold execMemwr
  repeat' first
    | with_reducible apply okeeps_next | with_reducible exact okeeps_fault | with_reducible apply okeeps_ite
    | with_reducible assumption | with_reducible apply State.accept_keeps | with_reducible apply keeps_ite | split
    | dsimp -zeta only

theorem execMemwrptl_keeps {Q : List Instr} {p : Fin 8} {ld : Fin 16} {hpa : BitVec 52} {mv : MetaValue} {data : BitVec 512} {mask : BitVec 64} {s : State} (h : s.Keeps Q) :
    OKeeps Q (execMemwrptl p ld hpa mv data mask s) := by
  unfold execMemwrptl
  repeat' first
    | with_reducible apply okeeps_next | with_reducible exact okeeps_fault | with_reducible apply okeeps_ite
    | with_reducible assumption | with_reducible apply State.accept_keeps | with_reducible apply keeps_ite | split
    | dsimp -zeta only

theorem execMemclnevct_keeps {Q : List Instr} {p : Fin 8} {ld : Fin 16} {hpa : BitVec 52} {s : State} (h : s.Keeps Q) :
    OKeeps Q (execMemclnevct p ld hpa s) := by
  unfold execMemclnevct
  repeat' first
    | with_reducible apply okeeps_next | with_reducible exact okeeps_fault | with_reducible apply okeeps_ite
    | with_reducible assumption | with_reducible apply State.accept_keeps | with_reducible apply keeps_ite | split
    | dsimp -zeta only

theorem execMeminv_keeps {Q : List Instr} {p : Fin 8} {ld : Fin 16} {hpa : BitVec 52} {s : State} (h : s.Keeps Q) :
    OKeeps Q (execMeminv p ld hpa s) := by
  unfold execMeminv
  repeat' first
    | with_reducible apply okeeps_next | with_reducible exact okeeps_fault | with_reducible apply okeeps_ite
    | with_reducible assumption | with_reducible apply State.accept_keeps | with_reducible apply keeps_ite | split
    | dsimp -zeta only

theorem State.biProtocol_keeps {Q : List Instr} {s : State} {p : Nat} (h : s.Keeps Q) :
    (State.biProtocol s p).Keeps Q := by
  unfold State.biProtocol
  repeat' first
    | with_reducible assumption | with_reducible apply State.put_keeps | with_reducible apply State.raise_keeps
    | with_reducible apply keeps_ite | split | dsimp -zeta only

theorem execBirsp_keeps {Q : List Instr} {p : Fin 8} {tag : Fin 64} {r : BiAnswer} {s : State} (h : s.Keeps Q) :
    OKeeps Q (execBirsp p tag r s) := by
  unfold execBirsp
  repeat' first
    | with_reducible apply okeeps_next | with_reducible exact okeeps_fault | with_reducible apply okeeps_ite
    | with_reducible assumption | with_reducible apply State.biProtocol_keeps | with_reducible apply State.snoopDir_keeps
    | with_reducible apply State.endSnoop_keeps | with_reducible apply keeps_ite
    | (extract_lets +onlyGivenNames x; (have : True := by clear_value x; clear * - x; exact is_state (by assumption)); clear this; refine (fun hx => ?_ : State.Keeps Q x → _) ?_ <;> [clear_value x; (dsimp -zeta only [x]; clear x)])
    | (extract_lets +onlyGivenNames x; clear_value x) | fail_if_no_progress with_reducible rw [keeps_mk] | split
    | dsimp -zeta only

theorem State.freeSnooped_keeps {Q : List Instr} {s : State} {sn : Snoop} (h : s.Keeps Q) :
    (State.freeSnooped s sn).Keeps Q := by
  unfold State.freeSnooped
  repeat' first
    | with_reducible assumption | with_reducible apply State.lookup_keeps | with_reducible apply keeps_ite
    | with_reducible refine keeps_foldl (fun _ _ _ => ?_) ?_ | with_reducible refine nkeeps_foldl (fun _ _ _ => ?_) ?_
    | with_reducible refine npkeeps_foldl (fun _ _ _ => ?_) ?_ | split | dsimp -zeta only

theorem execBiconflict_keeps {Q : List Instr} {p : Fin 8} {tag : Fin 64} {s : State} (h : s.Keeps Q) :
    OKeeps Q (execBiconflict p tag s) := by
  unfold execBiconflict
  repeat' first
    | with_reducible apply okeeps_next | with_reducible exact okeeps_fault | with_reducible apply okeeps_ite
    | with_reducible assumption | with_reducible apply State.put_keeps | with_reducible apply State.emit_keeps
    | with_reducible apply State.freeSnooped_keeps | with_reducible apply keeps_ite
    | (extract_lets +onlyGivenNames x; (have : True := by clear_value x; clear * - x; exact is_state (by assumption)); clear this; refine (fun hx => ?_ : State.Keeps Q x → _) ?_ <;> [clear_value x; (dsimp -zeta only [x]; clear x)])
    | (extract_lets +onlyGivenNames x; clear_value x) | fail_if_no_progress with_reducible rw [keeps_mk] | split
    | dsimp -zeta only

theorem execBiTimeout_keeps {Q : List Instr} {p : Fin 8} {tag : Fin 64} {s : State} (h : s.Keeps Q) :
    OKeeps Q (execBiTimeout p tag s) := by
  unfold execBiTimeout
  repeat' first
    | with_reducible apply okeeps_next | with_reducible exact okeeps_fault | with_reducible apply okeeps_ite
    | with_reducible assumption | with_reducible apply State.bump_keeps | with_reducible apply State.markPoison_keeps
    | with_reducible apply State.raise_keeps | with_reducible apply State.snoopDir_keeps
    | with_reducible apply State.loseHost_keeps | with_reducible apply State.urgUpdate_keeps
    | with_reducible apply State.endSnoop_keeps | with_reducible apply keeps_ite
    | (extract_lets +onlyGivenNames x; (have : True := by clear_value x; clear * - x; exact is_state (by assumption)); clear this; refine (fun hx => ?_ : State.Keeps Q x → _) ?_ <;> [clear_value x; (dsimp -zeta only [x]; clear x)])
    | (extract_lets +onlyGivenNames x; clear_value x) | fail_if_no_progress with_reducible rw [keeps_mk] | split
    | dsimp -zeta only

theorem State.captured_keeps {Q : List Instr} {s : State} {id : Nat} {r : Req} {v : Line} (h : s.Keeps Q) :
    (State.captured s id r v).Keeps Q := by
  unfold State.captured
  repeat' first
    | with_reducible assumption | with_reducible apply State.dirLoad_keeps | with_reducible apply State.sample_keeps
    | with_reducible apply State.openRead_keeps | with_reducible apply State.snoopStage_keeps
    | with_reducible apply keeps_ite
    | (extract_lets +onlyGivenNames x; (have : True := by clear_value x; clear * - x; exact is_state (by assumption)); clear this; refine (fun hx => ?_ : State.Keeps Q x → _) ?_ <;> [clear_value x; (dsimp -zeta only [x]; clear x)])
    | (extract_lets +onlyGivenNames x; clear_value x) | fail_if_no_progress with_reducible rw [keeps_mk] | split
    | dsimp -zeta only

theorem State.burst_keeps {Q : List Instr} {s : State} {id : Nat} {r : Req} {att : Nat} {flip : BitVec 640} (h : s.Keeps Q) :
    (State.burst s id r att flip).Keeps Q := by
  unfold State.burst
  repeat' first
    | with_reducible assumption | with_reducible apply State.setReq_keeps | with_reducible apply State.busAt_keeps
    | with_reducible apply State.logCe_keeps | with_reducible apply State.captured_keeps
    | with_reducible apply State.uncorrectable_keeps | with_reducible apply State.deliverPoison_keeps
    | with_reducible apply keeps_ite
    | (extract_lets +onlyGivenNames x; (have : True := by clear_value x; clear * - x; exact is_state (by assumption)); clear this; refine (fun hx => ?_ : State.Keeps Q x → _) ?_ <;> [clear_value x; (dsimp -zeta only [x]; clear x)])
    | (extract_lets +onlyGivenNames x; clear_value x) | fail_if_no_progress with_reducible rw [keeps_mk] | split
    | dsimp -zeta only

theorem execLineBurst_keeps {Q : List Instr} {id : BitVec 32} {flip : BitVec 640} {s : State} (h : s.Keeps Q) :
    OKeeps Q (execLineBurst id flip s) := by
  unfold execLineBurst
  repeat' first
    | with_reducible apply okeeps_next | with_reducible exact okeeps_fault | with_reducible apply okeeps_ite
    | with_reducible assumption | with_reducible apply State.burst_keeps | with_reducible apply State.settle_keeps
    | with_reducible apply keeps_ite | fail_if_no_progress with_reducible rw [keeps_mk] | split | dsimp -zeta only

theorem State.rewriteRebuilt_keeps {Q : List Instr} {s : State} {id : Nat} {r : Req} {x : Line} (h : s.Keeps Q) :
    (State.rewriteRebuilt s id r x).Keeps Q := by
  unfold State.rewriteRebuilt
  repeat' first
    | with_reducible assumption | with_reducible apply State.dirLoad_keeps | with_reducible apply State.storeLine_keeps
    | with_reducible apply State.openRead_keeps | with_reducible apply State.snoopStage_keeps
    | with_reducible apply State.snoopPort_keeps | with_reducible apply State.setReq_keeps | with_reducible apply keeps_ite
    | with_reducible refine keeps_foldl (fun _ _ _ => ?_) ?_ | with_reducible refine nkeeps_foldl (fun _ _ _ => ?_) ?_
    | with_reducible refine npkeeps_foldl (fun _ _ _ => ?_) ?_
    | (extract_lets +onlyGivenNames x; (have : True := by clear_value x; clear * - x; exact is_state (by assumption)); clear this; refine (fun hx => ?_ : State.Keeps Q x → _) ?_ <;> [clear_value x; (dsimp -zeta only [x]; clear x)])
    | (extract_lets +onlyGivenNames x; clear_value x) | fail_if_no_progress with_reducible rw [keeps_mk] | split
    | dsimp -zeta only

theorem State.recomputeReq_keeps {Q : List Instr} {s : State} {id : Nat} {r : Req} {b : Bursts} (h : s.Keeps Q) :
    (State.recomputeReq s id r b).Keeps Q := by
  unfold State.recomputeReq
  repeat' first
    | with_reducible assumption | with_reducible apply State.tagSource_keeps | with_reducible apply State.deliver_keeps
    | with_reducible apply State.deliverPoison_keeps | with_reducible apply State.recompLine_keeps
    | with_reducible apply State.captured_keeps | with_reducible apply State.recallShared_keeps
    | with_reducible apply State.raisePoison_keeps | with_reducible apply State.logCe_keeps
    | with_reducible apply State.rewriteRebuilt_keeps | with_reducible apply State.uncorrectable_keeps
    | with_reducible apply State.setReq_keeps
    | (with_reducible apply keeps_fst; with_reducible apply State.tagSource_keeps)
    | (with_reducible apply keeps_fst; with_reducible apply State.recompLine_keeps) | with_reducible apply keeps_ite
    | with_reducible exact keeps_fst (by with_reducible assumption) | with_reducible apply pkeeps_ite
    | with_reducible exact pkeeps_eq (by assumption) (by assumption) | with_reducible refine pkeeps_eq (by assumption) ?_
    | with_reducible exact keeps_of_p (by with_reducible assumption)
    | (extract_lets +onlyGivenNames x; (have : True := by clear_value x; clear * - x; exact is_state (by assumption)); clear this; refine (fun hx => ?_ : State.Keeps Q x → _) ?_ <;> [clear_value x; (dsimp -zeta only [x]; clear x)])
    | (extract_lets +onlyGivenNames x; (have : True := by clear_value x; clear * - x; exact is_pair (by assumption)); clear this; refine (fun hx => ?_ : PKeeps Q x → _) ?_ <;> [clear_value x; (dsimp -zeta only [x]; clear x)])
    | (extract_lets +onlyGivenNames x; clear_value x) | fail_if_no_progress with_reducible rw [keeps_mk] | split
    | dsimp -zeta only | with_reducible apply pkeeps_mk

theorem execRecompute_keeps {Q : List Instr} {id : BitVec 32} {b : Bursts} {s : State} (h : s.Keeps Q) :
    OKeeps Q (execRecompute id b s) := by
  unfold execRecompute
  repeat' first
    | with_reducible apply okeeps_next | with_reducible exact okeeps_fault | with_reducible apply okeeps_ite
    | with_reducible assumption | with_reducible apply State.recomputeReq_keeps | with_reducible apply State.settle_keeps
    | with_reducible apply keeps_ite | fail_if_no_progress with_reducible rw [keeps_mk] | split | dsimp -zeta only

theorem execCounterRequest_keeps {Q : List Instr} {id : BitVec 32} {s : State} (h : s.Keeps Q) :
    OKeeps Q (execCounterRequest id s) := by
  unfold execCounterRequest
  repeat' first
    | with_reducible apply okeeps_next | with_reducible exact okeeps_fault | with_reducible apply okeeps_ite
    | with_reducible assumption | with_reducible apply State.openRead_keeps | with_reducible apply State.settle_keeps
    | with_reducible apply keeps_ite | fail_if_no_progress with_reducible rw [keeps_mk] | split | dsimp -zeta only

theorem State.writeGone_keeps {Q : List Instr} {s : State} {id : Nat} {r : Req} (h : s.Keeps Q) :
    (State.writeGone s id r).Keeps Q := by
  unfold State.writeGone
  repeat' first
    | with_reducible assumption | with_reducible apply State.complete_keeps | with_reducible apply State.raisePoison_keeps
    | with_reducible apply State.refuseWrite_keeps | with_reducible apply keeps_ite
    | fail_if_no_progress with_reducible rw [keeps_mk] | split | dsimp -zeta only

theorem State.enqueue_keeps {Q : List Instr} {s : State} {id : Nat} {r : Req} (h : s.Keeps Q) :
    (State.enqueue s id r).Keeps Q := by
  unfold State.enqueue
  repeat' first
    | with_reducible assumption | with_reducible apply State.sample_keeps | with_reducible apply State.applyDir_keeps
    | with_reducible apply State.unqueue_keeps | with_reducible apply State.pushWrite_keeps
    | with_reducible apply State.unlistPoison_keeps | with_reducible apply State.complete_keeps
    | with_reducible apply keeps_ite
    | (extract_lets +onlyGivenNames x; (have : True := by clear_value x; clear * - x; exact is_state (by assumption)); clear this; refine (fun hx => ?_ : State.Keeps Q x → _) ?_ <;> [clear_value x; (dsimp -zeta only [x]; clear x)])
    | (extract_lets +onlyGivenNames x; clear_value x) | fail_if_no_progress with_reducible rw [keeps_mk] | split
    | dsimp -zeta only

theorem State.acceptWrite_keeps {Q : List Instr} {s : State} {id : Nat} {r : Req} {mirror : Bool} (h : s.Keeps Q) :
    (State.acceptWrite s id r mirror).Keeps Q := by
  unfold State.acceptWrite
  repeat' first
    | with_reducible assumption | with_reducible apply State.writeGone_keeps | with_reducible apply State.advance_keeps
    | with_reducible apply State.refuseWrite_keeps | with_reducible apply State.writePlain_keeps
    | with_reducible apply State.applyDir_keeps | with_reducible apply State.complete_keeps
    | with_reducible apply State.enqueue_keeps | with_reducible apply State.setReq_keeps
    | (with_reducible apply keeps_fst; with_reducible apply State.advance_keeps)
    | (with_reducible apply keeps_fst; with_reducible apply State.writePlain_keeps) | with_reducible apply keeps_ite
    | with_reducible exact keeps_fst (by with_reducible assumption) | with_reducible apply pkeeps_ite
    | with_reducible exact pkeeps_eq (by assumption) (by assumption) | with_reducible refine pkeeps_eq (by assumption) ?_
    | with_reducible exact keeps_of_p (by with_reducible assumption)
    | (extract_lets +onlyGivenNames x; (have : True := by clear_value x; clear * - x; exact is_state (by assumption)); clear this; refine (fun hx => ?_ : State.Keeps Q x → _) ?_ <;> [clear_value x; (dsimp -zeta only [x]; clear x)])
    | (extract_lets +onlyGivenNames x; (have : True := by clear_value x; clear * - x; exact is_pair (by assumption)); clear this; refine (fun hx => ?_ : PKeeps Q x → _) ?_ <;> [clear_value x; (dsimp -zeta only [x]; clear x)])
    | (extract_lets +onlyGivenNames x; clear_value x) | fail_if_no_progress with_reducible rw [keeps_mk] | split
    | dsimp -zeta only | with_reducible apply pkeeps_mk

theorem execWriteQueueAccept_keeps {Q : List Instr} {id : BitVec 32} {mirror : Bool} {s : State} (h : s.Keeps Q) :
    OKeeps Q (execWriteQueueAccept id mirror s) := by
  unfold execWriteQueueAccept
  repeat' first
    | with_reducible apply okeeps_next | with_reducible exact okeeps_fault | with_reducible apply okeeps_ite
    | with_reducible assumption | with_reducible apply State.acceptWrite_keeps | with_reducible apply State.settle_keeps
    | with_reducible apply keeps_ite | fail_if_no_progress with_reducible rw [keeps_mk] | split | dsimp -zeta only

theorem State.dirClean_keeps {Q : List Instr} {s : State} {line : Nat} (h : s.Keeps Q) :
    (State.dirClean s line).Keeps Q := by
  unfold State.dirClean
  repeat' first
    | with_reducible assumption | with_reducible apply State.put_keeps | with_reducible apply State.flushStep_keeps
    | with_reducible apply keeps_ite | fail_if_no_progress with_reducible rw [keeps_mk] | split | dsimp -zeta only

theorem State.drainOne_keeps {Q : List Instr} {s : State} {q : QWrite} (h : s.Keeps Q) :
    (State.drainOne s q).Keeps Q := by
  unfold State.drainOne
  repeat' first
    | with_reducible assumption | with_reducible apply State.writePlain_keeps | with_reducible apply State.unqueue_keeps
    | with_reducible apply State.raiseRefused_keeps | with_reducible apply State.dirClean_keeps
    | (with_reducible apply keeps_fst; with_reducible apply State.writePlain_keeps) | with_reducible apply keeps_ite
    | with_reducible exact keeps_fst (by with_reducible assumption) | with_reducible apply pkeeps_ite
    | with_reducible exact pkeeps_eq (by assumption) (by assumption) | with_reducible refine pkeeps_eq (by assumption) ?_
    | with_reducible exact keeps_of_p (by with_reducible assumption)
    | (extract_lets +onlyGivenNames x; (have : True := by clear_value x; clear * - x; exact is_state (by assumption)); clear this; refine (fun hx => ?_ : State.Keeps Q x → _) ?_ <;> [clear_value x; (dsimp -zeta only [x]; clear x)])
    | (extract_lets +onlyGivenNames x; (have : True := by clear_value x; clear * - x; exact is_pair (by assumption)); clear this; refine (fun hx => ?_ : PKeeps Q x → _) ?_ <;> [clear_value x; (dsimp -zeta only [x]; clear x)])
    | (extract_lets +onlyGivenNames x; clear_value x) | fail_if_no_progress with_reducible rw [keeps_mk] | split
    | dsimp -zeta only | with_reducible apply pkeeps_mk

theorem State.drain_keeps {Q : List Instr} {s : State} {n : Nat} {sub : Nat} {count : Nat} (h : s.Keeps Q) :
    (State.drain s n sub count).Keeps Q := by
  unfold State.drain
  repeat' first
    | with_reducible assumption | with_reducible apply State.drainOne_keeps | with_reducible apply keeps_ite
    | with_reducible refine keeps_foldl (fun _ _ _ => ?_) ?_ | with_reducible refine nkeeps_foldl (fun _ _ _ => ?_) ?_
    | with_reducible refine npkeeps_foldl (fun _ _ _ => ?_) ?_ | split | dsimp -zeta only

theorem execWriteDrain_keeps {Q : List Instr} {n : Fin 16} {sub : Fin 2} {count : Fin 129} {s : State} (h : s.Keeps Q) :
    OKeeps Q (execWriteDrain n sub count s) := by
  unfold execWriteDrain
  repeat' first
    | with_reducible apply okeeps_next | with_reducible exact okeeps_fault | with_reducible apply okeeps_ite
    | with_reducible assumption | with_reducible apply State.drain_keeps | with_reducible apply State.release_keeps
    | with_reducible apply keeps_ite | split | dsimp -zeta only

theorem State.timeOut_keeps {Q : List Instr} {s : State} {id : Nat} {r : Req} (h : s.Keeps Q) :
    (State.timeOut s id r).Keeps Q := by
  unfold State.timeOut
  repeat' first
    | with_reducible assumption | with_reducible apply State.bump_keeps | with_reducible apply State.raiseFor_keeps
    | with_reducible apply State.refuseReq_keeps | with_reducible apply State.setReq_keeps | with_reducible apply keeps_ite
    | (extract_lets +onlyGivenNames x; (have : True := by clear_value x; clear * - x; exact is_state (by assumption)); clear this; refine (fun hx => ?_ : State.Keeps Q x → _) ?_ <;> [clear_value x; (dsimp -zeta only [x]; clear x)])
    | (extract_lets +onlyGivenNames x; clear_value x) | fail_if_no_progress with_reducible rw [keeps_mk] | split
    | dsimp -zeta only

theorem execReqTimeout_keeps {Q : List Instr} {id : BitVec 32} {s : State} (h : s.Keeps Q) :
    OKeeps Q (execReqTimeout id s) := by
  unfold execReqTimeout
  repeat' first
    | with_reducible apply okeeps_next | with_reducible exact okeeps_fault | with_reducible apply okeeps_ite
    | with_reducible assumption | with_reducible apply State.timeOut_keeps | with_reducible apply State.settle_keeps
    | with_reducible apply keeps_ite | fail_if_no_progress with_reducible rw [keeps_mk] | split | dsimp -zeta only

end Sys2Proof.Machine
end

