-- ==== Sys2Proof/Laws/KeepsPacked.lean ====
section
/-!
SUPPORT. The meanings and operations of Machine/Packed.lean keep a sound state and its queue.
-/
set_option linter.unusedTactic false
set_option linter.unusedSimpArgs false
set_option linter.unusedVariables false
set_option linter.unreachableTactic false

namespace Sys2Proof.Machine

theorem State.descFill_keeps {Q : List Instr} {s : State} {x : Nat} {d : BitVec 512} (h : s.Keeps Q) :
    (State.descFill s x d).Keeps Q := by
  unfold State.descFill
  repeat' first
    | with_reducible assumption | with_reducible apply State.setPier_keeps | with_reducible apply State.put_keeps
    | with_reducible apply State.tick_keeps | with_reducible apply keeps_ite
    | (extract_lets +onlyGivenNames x; (have : True := by clear_value x; clear * - x; exact is_state (by assumption)); clear this; refine (fun hx => ?_ : State.Keeps Q x → _) ?_ <;> [clear_value x; (dsimp -zeta only [x]; clear x)])
    | (extract_lets +onlyGivenNames x; clear_value x) | fail_if_no_progress with_reducible rw [keeps_mk] | split
    | dsimp -zeta only

theorem State.descRead_keeps {Q : List Instr} {s : State} {x : Nat} {b : Bursts} (h : s.Keeps Q) :
    PKeeps Q (State.descRead s x b) := by
  unfold State.descRead
  repeat' first
    | with_reducible assumption | with_reducible apply State.metaRead_keeps | with_reducible apply State.descFill_keeps
    | (with_reducible apply keeps_fst; with_reducible apply State.metaRead_keeps) | with_reducible apply keeps_ite
    | with_reducible exact keeps_fst (by with_reducible assumption) | with_reducible apply pkeeps_ite
    | with_reducible exact pkeeps_eq (by assumption) (by assumption) | with_reducible refine pkeeps_eq (by assumption) ?_
    | with_reducible exact keeps_of_p (by with_reducible assumption) | fail_if_no_progress with_reducible rw [keeps_mk]
    | split | dsimp -zeta only | with_reducible apply pkeeps_mk

theorem State.descWrite_keeps {Q : List Instr} {s : State} {x : Nat} {d : Nat} (h : s.Keeps Q) :
    (State.descWrite s x d).Keeps Q := by
  unfold State.descWrite
  repeat' first
    | with_reducible assumption | with_reducible apply State.metaWrite_keeps
    | with_reducible apply State.raiseRefused_keeps | with_reducible apply State.descFill_keeps
    | (with_reducible apply keeps_fst; with_reducible apply State.metaWrite_keeps) | with_reducible apply keeps_ite
    | with_reducible exact keeps_fst (by with_reducible assumption) | with_reducible apply pkeeps_ite
    | with_reducible exact pkeeps_eq (by assumption) (by assumption) | with_reducible refine pkeeps_eq (by assumption) ?_
    | with_reducible exact keeps_of_p (by with_reducible assumption)
    | (extract_lets +onlyGivenNames x; (have : True := by clear_value x; clear * - x; exact is_state (by assumption)); clear this; refine (fun hx => ?_ : State.Keeps Q x → _) ?_ <;> [clear_value x; (dsimp -zeta only [x]; clear x)])
    | (extract_lets +onlyGivenNames x; (have : True := by clear_value x; clear * - x; exact is_pair (by assumption)); clear this; refine (fun hx => ?_ : PKeeps Q x → _) ?_ <;> [clear_value x; (dsimp -zeta only [x]; clear x)])
    | (extract_lets +onlyGivenNames x; clear_value x) | fail_if_no_progress with_reducible rw [keeps_mk] | split
    | dsimp -zeta only | with_reducible apply pkeeps_mk

theorem State.setOpen_keeps {Q : List Instr} {s : State} {n : Nat} {o : OpenStripe} (h : s.Keeps Q) :
    (State.setOpen s n o).Keeps Q := by
  unfold State.setOpen
  repeat' first
    | with_reducible assumption | with_reducible apply State.setPier_keeps | with_reducible apply keeps_ite
    | (extract_lets +onlyGivenNames x; (have : True := by clear_value x; clear * - x; exact is_state (by assumption)); clear this; refine (fun hx => ?_ : State.Keeps Q x → _) ?_ <;> [clear_value x; (dsimp -zeta only [x]; clear x)])
    | (extract_lets +onlyGivenNames x; clear_value x) | fail_if_no_progress with_reducible rw [keeps_mk] | split
    | dsimp -zeta only

theorem State.addLive_keeps {Q : List Instr} {s : State} {base : Nat} {n : Nat} (h : s.Keeps Q) :
    (State.addLive s base n).Keeps Q := by
  unfold State.addLive
  repeat' first
    | with_reducible assumption | with_reducible apply State.setStripe_keeps | with_reducible apply keeps_ite
    | (extract_lets +onlyGivenNames x; (have : True := by clear_value x; clear * - x; exact is_state (by assumption)); clear this; refine (fun hx => ?_ : State.Keeps Q x → _) ?_ <;> [clear_value x; (dsimp -zeta only [x]; clear x)])
    | (extract_lets +onlyGivenNames x; clear_value x) | fail_if_no_progress with_reducible rw [keeps_mk] | split
    | dsimp -zeta only

theorem State.subLive_keeps {Q : List Instr} {s : State} {sector : Nat} {n : Nat} (h : s.Keeps Q) :
    (State.subLive s sector n).Keeps Q := by
  unfold State.subLive
  repeat' first
    | with_reducible assumption | with_reducible apply State.setStripe_keeps | with_reducible apply keeps_ite
    | (extract_lets +onlyGivenNames x; (have : True := by clear_value x; clear * - x; exact is_state (by assumption)); clear this; refine (fun hx => ?_ : State.Keeps Q x → _) ?_ <;> [clear_value x; (dsimp -zeta only [x]; clear x)])
    | (extract_lets +onlyGivenNames x; clear_value x) | fail_if_no_progress with_reducible rw [keeps_mk] | split
    | dsimp -zeta only

theorem State.closeStripe_keeps {Q : List Instr} {s : State} {n : Nat} {o : OpenStripe} (h : s.Keeps Q) :
    (State.closeStripe s n o).Keeps Q := by
  unfold State.closeStripe
  repeat' first
    | with_reducible assumption | with_reducible apply State.setOpen_keeps | with_reducible apply State.raise_keeps
    | with_reducible apply keeps_ite
    | (extract_lets +onlyGivenNames x; (have : True := by clear_value x; clear * - x; exact is_state (by assumption)); clear this; refine (fun hx => ?_ : State.Keeps Q x → _) ?_ <;> [clear_value x; (dsimp -zeta only [x]; clear x)])
    | (extract_lets +onlyGivenNames x; clear_value x) | fail_if_no_progress with_reducible rw [keeps_mk] | split
    | dsimp -zeta only

theorem State.openNew_keeps {Q : List Instr} {s : State} {n : Nat} {region : Nat} (h : s.Keeps Q) :
    NPKeeps Q (State.openNew s n region) := by
  unfold State.openNew
  repeat' first
    | with_reducible assumption | with_reducible apply State.setPier_keeps | with_reducible apply State.setStripe_keeps
    | with_reducible apply keeps_ite | with_reducible exact keeps_fst (by with_reducible assumption)
    | with_reducible apply pkeeps_ite | with_reducible exact pkeeps_eq (by assumption) (by assumption)
    | with_reducible refine pkeeps_eq (by assumption) ?_ | with_reducible exact npkeeps_none
    | with_reducible apply npkeeps_some | with_reducible apply npkeeps_ite
    | with_reducible refine npkeeps_eq (by assumption) ?_ | with_reducible refine npkeeps_var (by assumption) ?_
    | with_reducible exact keeps_of_p (by with_reducible assumption)
    | with_reducible exact keeps_of_np (by with_reducible assumption)
    | (extract_lets +onlyGivenNames x; (have : True := by clear_value x; clear * - x; exact is_state (by assumption)); clear this; refine (fun hx => ?_ : State.Keeps Q x → _) ?_ <;> [clear_value x; (dsimp -zeta only [x]; clear x)])
    | (extract_lets +onlyGivenNames x; (have : True := by clear_value x; clear * - x; exact is_pair (by assumption)); clear this; refine (fun hx => ?_ : PKeeps Q x → _) ?_ <;> [clear_value x; (dsimp -zeta only [x]; clear x)])
    | (extract_lets +onlyGivenNames x; (have : True := by clear_value x; clear * - x; exact is_opt_pair (by assumption)); clear this; refine (fun hx => ?_ : NPKeeps Q x → _) ?_ <;> [clear_value x; (dsimp -zeta only [x]; clear x)])
    | (extract_lets +onlyGivenNames x; clear_value x) | fail_if_no_progress with_reducible rw [keeps_mk] | split
    | dsimp -zeta only | with_reducible apply pkeeps_mk

theorem State.place_keeps {Q : List Instr} {s : State} {n : Nat} {region : Nat} {cnt : Nat} {desc : Nat} {sb : Nat} {ls : List (BitVec 512 × Bool)} (h : s.Keeps Q) :
    PKeeps Q (State.place s n region cnt desc sb ls) := by
  unfold State.place
  repeat' first
    | with_reducible assumption | with_reducible apply State.closeStripe_keeps | with_reducible apply State.openNew_keeps
    | with_reducible apply State.setOpen_keeps | with_reducible apply State.setStripe_keeps
    | with_reducible apply keeps_ite | with_reducible exact keeps_fst (by with_reducible assumption)
    | with_reducible apply pkeeps_ite | with_reducible exact pkeeps_eq (by assumption) (by assumption)
    | with_reducible refine pkeeps_eq (by assumption) ?_ | with_reducible exact npkeeps_none
    | with_reducible apply npkeeps_some | with_reducible apply npkeeps_ite
    | with_reducible refine npkeeps_eq (by assumption) ?_ | with_reducible refine npkeeps_var (by assumption) ?_
    | with_reducible exact keeps_of_p (by with_reducible assumption)
    | with_reducible exact keeps_of_np (by with_reducible assumption)
    | (extract_lets +onlyGivenNames x; (have : True := by clear_value x; clear * - x; exact is_state (by assumption)); clear this; refine (fun hx => ?_ : State.Keeps Q x → _) ?_ <;> [clear_value x; (dsimp -zeta only [x]; clear x)])
    | (extract_lets +onlyGivenNames x; (have : True := by clear_value x; clear * - x; exact is_pair (by assumption)); clear this; refine (fun hx => ?_ : PKeeps Q x → _) ?_ <;> [clear_value x; (dsimp -zeta only [x]; clear x)])
    | (extract_lets +onlyGivenNames x; (have : True := by clear_value x; clear * - x; exact is_opt_pair (by assumption)); clear this; refine (fun hx => ?_ : NPKeeps Q x → _) ?_ <;> [clear_value x; (dsimp -zeta only [x]; clear x)])
    | (extract_lets +onlyGivenNames x; clear_value x) | fail_if_no_progress with_reducible rw [keeps_mk] | split
    | dsimp -zeta only | with_reducible apply pkeeps_mk

theorem State.sectorRead_keeps {Q : List Instr} {s : State} {req : ReqFrom} {da : Nat} {b : Bursts} (h : s.Keeps Q) :
    PKeeps Q (State.sectorRead s req da b) := by
  unfold State.sectorRead
  repeat' first
    | with_reducible assumption | with_reducible apply State.readPlain_keeps
    | (with_reducible apply keeps_fst; with_reducible apply State.readPlain_keeps) | with_reducible apply keeps_ite
    | with_reducible exact keeps_fst (by with_reducible assumption) | with_reducible apply pkeeps_ite
    | with_reducible exact pkeeps_eq (by assumption) (by assumption) | with_reducible refine pkeeps_eq (by assumption) ?_
    | with_reducible exact keeps_of_p (by with_reducible assumption) | fail_if_no_progress with_reducible rw [keeps_mk]
    | split | dsimp -zeta only | with_reducible apply pkeeps_mk

theorem State.sectorReads_keeps {Q : List Instr} {req : ReqFrom} {l : List Nat} :
    ∀ {s : State} {bs : List Bursts}, s.Keeps Q → PKeeps Q (State.sectorReads s req l bs) := by
  induction l with
  | nil => intro s bs h; exact h
  | cons a t ih =>
    intro s bs h
    have h1 := State.sectorRead_keeps (req := req) (da := a) (b := bs.headD {}) h
    have h2 := ih (bs := bs.tail) (keeps_fst h1)
    unfold State.sectorReads
    split
    · exact h
    · split
      · exact h
      · rename_i e1 _ _ _ e2
        rw [e1] at h2
        exact pkeeps_eq e2 h2

theorem State.recompStream_keeps {Q : List Instr} {das : List Nat} :
    ∀ {s : State} {bs : List Bursts}, s.Keeps Q → PKeeps Q (State.recompStream s das bs) := by
  induction das with
  | nil => intro s bs h; exact h
  | cons a l ih =>
    intro s bs h
    unfold State.recompStream
    split
    · rename_i e
      exact pkeeps_eq e (State.recompLine_keeps h)
    · rename_i e
      have h1 : State.Keeps Q _ := pkeeps_eq e (State.recompLine_keeps h)
      split
      · rename_i e2
        exact pkeeps_eq e2 (ih h1)
      · rename_i e2
        exact pkeeps_eq e2 (ih h1)

theorem State.decodeRec_keeps {Q : List Instr} {s : State} {vi : Nat} {req : ReqFrom} {r : SbRec} {stop : Nat} {bs : List Bursts} (h : s.Keeps Q) :
    PKeeps Q (State.decodeRec s vi req r stop bs) := by
  unfold State.decodeRec
  repeat' first
    | with_reducible assumption | with_reducible apply State.sectorReads_keeps | with_reducible apply State.telPier_keeps
    | with_reducible apply State.bump_keeps | with_reducible apply State.recompStream_keeps
    | with_reducible apply State.raise_keeps | with_reducible apply State.logCe_keeps
    | with_reducible apply State.storeLine_keeps
    | (with_reducible apply keeps_fst; with_reducible apply State.sectorReads_keeps)
    | (with_reducible apply keeps_fst; with_reducible apply State.recompStream_keeps) | with_reducible apply keeps_ite
    | with_reducible exact keeps_fst (by with_reducible assumption) | with_reducible apply pkeeps_ite
    | with_reducible exact pkeeps_eq (by assumption) (by assumption) | with_reducible refine pkeeps_eq (by assumption) ?_
    | with_reducible refine keeps_foldl (fun _ _ _ => ?_) ?_ | with_reducible refine pkeeps_foldl (fun _ _ _ => ?_) ?_
    | with_reducible refine nkeeps_foldl (fun _ _ _ => ?_) ?_ | with_reducible refine npkeeps_foldl (fun _ _ _ => ?_) ?_
    | with_reducible exact keeps_of_p (by with_reducible assumption)
    | (extract_lets +onlyGivenNames x; (have : True := by clear_value x; clear * - x; exact is_state (by assumption)); clear this; refine (fun hx => ?_ : State.Keeps Q x → _) ?_ <;> [clear_value x; (dsimp -zeta only [x]; clear x)])
    | (extract_lets +onlyGivenNames x; (have : True := by clear_value x; clear * - x; exact is_pair (by assumption)); clear this; refine (fun hx => ?_ : PKeeps Q x → _) ?_ <;> [clear_value x; (dsimp -zeta only [x]; clear x)])
    | (extract_lets +onlyGivenNames x; clear_value x) | fail_if_no_progress with_reducible rw [keeps_mk] | split
    | dsimp -zeta only | with_reducible apply pkeeps_mk

theorem State.readSub_keeps {Q : List Instr} {s : State} {vi : Nat} {r : SbRec} {bs : List Bursts} (h : s.Keeps Q) :
    PKeeps Q (State.readSub s vi r bs) := by
  unfold State.readSub
  repeat' first
    | with_reducible assumption | with_reducible apply State.sectorReads_keeps | with_reducible apply State.decodeRec_keeps
    | (with_reducible apply keeps_fst; with_reducible apply State.sectorReads_keeps)
    | (with_reducible apply keeps_fst; with_reducible apply State.decodeRec_keeps) | with_reducible apply keeps_ite
    | with_reducible exact keeps_fst (by with_reducible assumption) | with_reducible apply pkeeps_ite
    | with_reducible exact pkeeps_eq (by assumption) (by assumption) | with_reducible refine pkeeps_eq (by assumption) ?_
    | with_reducible exact keeps_of_p (by with_reducible assumption) | fail_if_no_progress with_reducible rw [keeps_mk]
    | split | dsimp -zeta only | with_reducible apply pkeeps_mk

theorem State.wbufDrop_keeps {Q : List Instr} {s : State} {d : Nat} {sb : Option Nat} (h : s.Keeps Q) :
    (State.wbufDrop s d sb).Keeps Q := by
  unfold State.wbufDrop
  repeat' first
    | with_reducible assumption | with_reducible apply State.setPier_keeps | with_reducible apply keeps_ite
    | with_reducible refine keeps_foldl (fun _ _ _ => ?_) ?_ | with_reducible refine nkeeps_foldl (fun _ _ _ => ?_) ?_
    | with_reducible refine npkeeps_foldl (fun _ _ _ => ?_) ?_
    | (extract_lets +onlyGivenNames x; (have : True := by clear_value x; clear * - x; exact is_state (by assumption)); clear this; refine (fun hx => ?_ : State.Keeps Q x → _) ?_ <;> [clear_value x; (dsimp -zeta only [x]; clear x)])
    | (extract_lets +onlyGivenNames x; clear_value x) | fail_if_no_progress with_reducible rw [keeps_mk] | split
    | dsimp -zeta only

theorem State.freeDesc_keeps {Q : List Instr} {s : State} {x : Nat} (h : s.Keeps Q) :
    (State.freeDesc s x).Keeps Q := by
  unfold State.freeDesc
  repeat' first
    | with_reducible assumption | with_reducible apply State.subLive_keeps | with_reducible apply State.descWrite_keeps
    | with_reducible apply State.wbufDrop_keeps | with_reducible apply keeps_ite
    | with_reducible refine keeps_foldl (fun _ _ _ => ?_) ?_ | with_reducible refine nkeeps_foldl (fun _ _ _ => ?_) ?_
    | with_reducible refine npkeeps_foldl (fun _ _ _ => ?_) ?_
    | (extract_lets +onlyGivenNames x; (have : True := by clear_value x; clear * - x; exact is_state (by assumption)); clear this; refine (fun hx => ?_ : State.Keeps Q x → _) ?_ <;> [clear_value x; (dsimp -zeta only [x]; clear x)])
    | (extract_lets +onlyGivenNames x; clear_value x) | fail_if_no_progress with_reducible rw [keeps_mk] | split
    | dsimp -zeta only

theorem State.freeFrame_keeps {Q : List Instr} {s : State} {f : Nat} (h : s.Keeps Q) :
    (State.freeFrame s f).Keeps Q := by
  unfold State.freeFrame
  repeat' first
    | with_reducible assumption | with_reducible apply State.put_keeps | with_reducible apply keeps_ite
    | fail_if_no_progress with_reducible rw [keeps_mk] | split | dsimp -zeta only

theorem State.freePair_keeps {Q : List Instr} {s : State} {f : Nat} (h : s.Keeps Q) :
    (State.freePair s f).Keeps Q := by
  unfold State.freePair
  repeat' first
    | with_reducible assumption | with_reducible apply State.freeFrame_keeps | with_reducible apply keeps_ite
    | fail_if_no_progress with_reducible rw [keeps_mk] | split | dsimp -zeta only

theorem State.freeLeaf_keeps {Q : List Instr} {s : State} {t : Nat} {e : Nat} {via : Nat} (h : s.Keeps Q) :
    (State.freeLeaf s t e via).Keeps Q := by
  unfold State.freeLeaf
  repeat' first
    | with_reducible assumption | with_reducible apply State.freeDesc_keeps | with_reducible apply State.freePair_keeps
    | with_reducible apply keeps_ite
    | (extract_lets +onlyGivenNames x; (have : True := by clear_value x; clear * - x; exact is_state (by assumption)); clear this; refine (fun hx => ?_ : State.Keeps Q x → _) ?_ <;> [clear_value x; (dsimp -zeta only [x]; clear x)])
    | (extract_lets +onlyGivenNames x; clear_value x) | fail_if_no_progress with_reducible rw [keeps_mk] | split
    | dsimp -zeta only

theorem State.exhaustPage_keeps {Q : List Instr} {s : State} {t : Nat} {page : Nat} (h : s.Keeps Q) :
    (State.exhaustPage s t page).Keeps Q := by
  unfold State.exhaustPage
  repeat' first
    | with_reducible assumption | with_reducible apply State.casEntry_keeps | with_reducible apply State.invalidate_keeps
    | with_reducible apply State.markDirty_keeps | with_reducible apply State.freeLeaf_keeps
    | with_reducible apply State.raise_keeps | (with_reducible apply keeps_fst; with_reducible apply State.casEntry_keeps)
    | with_reducible apply keeps_ite | with_reducible exact keeps_fst (by with_reducible assumption)
    | with_reducible apply pkeeps_ite | with_reducible exact pkeeps_eq (by assumption) (by assumption)
    | with_reducible refine pkeeps_eq (by assumption) ?_ | with_reducible exact keeps_of_p (by with_reducible assumption)
    | (extract_lets +onlyGivenNames x; (have : True := by clear_value x; clear * - x; exact is_state (by assumption)); clear this; refine (fun hx => ?_ : State.Keeps Q x → _) ?_ <;> [clear_value x; (dsimp -zeta only [x]; clear x)])
    | (extract_lets +onlyGivenNames x; (have : True := by clear_value x; clear * - x; exact is_pair (by assumption)); clear this; refine (fun hx => ?_ : PKeeps Q x → _) ?_ <;> [clear_value x; (dsimp -zeta only [x]; clear x)])
    | (extract_lets +onlyGivenNames x; clear_value x) | fail_if_no_progress with_reducible rw [keeps_mk] | split
    | dsimp -zeta only | with_reducible apply pkeeps_mk

theorem State.descRefuse_keeps {Q : List Instr} {s : State} {id : Nat} {r : Req} {chk : DescChk} (h : s.Keeps Q) :
    (State.descRefuse s id r chk).Keeps Q := by
  unfold State.descRefuse
  repeat' first
    | with_reducible assumption | with_reducible apply State.dropReq_keeps | with_reducible apply State.raiseFor_keeps
    | with_reducible apply State.refuseReq_keeps | with_reducible apply keeps_ite
    | (extract_lets +onlyGivenNames x; (have : True := by clear_value x; clear * - x; exact is_state (by assumption)); clear this; refine (fun hx => ?_ : State.Keeps Q x → _) ?_ <;> [clear_value x; (dsimp -zeta only [x]; clear x)])
    | (extract_lets +onlyGivenNames x; clear_value x) | split | dsimp -zeta only

theorem State.t2Resolve_keeps {Q : List Instr} {s : State} {id : Nat} {r : Req} {b : Bursts} (h : s.Keeps Q) :
    (State.t2Resolve s id r b).Keeps Q := by
  unfold State.t2Resolve
  repeat' first
    | with_reducible assumption | with_reducible apply State.descRead_keeps | with_reducible apply State.descRefuse_keeps
    | with_reducible apply State.deliver_keeps | with_reducible apply State.sample_keeps
    | with_reducible apply State.setReq_keeps | (with_reducible apply keeps_fst; with_reducible apply State.descRead_keeps)
    | with_reducible apply keeps_ite | with_reducible exact keeps_fst (by with_reducible assumption)
    | with_reducible apply pkeeps_ite | with_reducible exact pkeeps_eq (by assumption) (by assumption)
    | with_reducible refine pkeeps_eq (by assumption) ?_ | with_reducible exact keeps_of_p (by with_reducible assumption)
    | (extract_lets +onlyGivenNames x; (have : True := by clear_value x; clear * - x; exact is_state (by assumption)); clear this; refine (fun hx => ?_ : State.Keeps Q x → _) ?_ <;> [clear_value x; (dsimp -zeta only [x]; clear x)])
    | (extract_lets +onlyGivenNames x; (have : True := by clear_value x; clear * - x; exact is_pair (by assumption)); clear this; refine (fun hx => ?_ : PKeeps Q x → _) ?_ <;> [clear_value x; (dsimp -zeta only [x]; clear x)])
    | (extract_lets +onlyGivenNames x; clear_value x) | fail_if_no_progress with_reducible rw [keeps_mk] | split
    | dsimp -zeta only | with_reducible apply pkeeps_mk

theorem execT2LineRead_keeps {Q : List Instr} {id : BitVec 32} {b : Bursts} {s : State} (h : s.Keeps Q) :
    OKeeps Q (execT2LineRead id b s) := by
  unfold execT2LineRead
  repeat' first
    | with_reducible apply okeeps_next | with_reducible exact okeeps_fault | with_reducible apply okeeps_ite
    | with_reducible assumption | with_reducible apply State.t2Resolve_keeps | with_reducible apply State.settle_keeps
    | with_reducible apply keeps_ite | fail_if_no_progress with_reducible rw [keeps_mk] | split | dsimp -zeta only

theorem State.recLine_keeps {Q : List Instr} {s : State} {vi : Nat} {req : ReqFrom} {rec_ : SbRec} {ln : Nat} {bs : List Bursts} (h : s.Keeps Q) :
    PKeeps Q (State.recLine s vi req rec_ ln bs) := by
  unfold State.recLine
  repeat' first
    | with_reducible assumption | with_reducible apply State.sectorRead_keeps | with_reducible apply State.decodeRec_keeps
    | (with_reducible apply keeps_fst; with_reducible apply State.sectorRead_keeps)
    | (with_reducible apply keeps_fst; with_reducible apply State.decodeRec_keeps) | with_reducible apply keeps_ite
    | with_reducible exact keeps_fst (by with_reducible assumption) | with_reducible apply pkeeps_ite
    | with_reducible exact pkeeps_eq (by assumption) (by assumption) | with_reducible refine pkeeps_eq (by assumption) ?_
    | with_reducible exact keeps_of_p (by with_reducible assumption) | fail_if_no_progress with_reducible rw [keeps_mk]
    | split | dsimp -zeta only | with_reducible apply pkeeps_mk

theorem execSubblockDecode_keeps {Q : List Instr} {id : BitVec 32} {bs : List Bursts} {s : State} (h : s.Keeps Q) :
    OKeeps Q (execSubblockDecode id bs s) := by
  unfold execSubblockDecode
  repeat' first
    | with_reducible apply okeeps_next | with_reducible exact okeeps_fault | with_reducible apply okeeps_ite
    | with_reducible assumption | with_reducible apply State.descRead_keeps | with_reducible apply State.descRefuse_keeps
    | with_reducible apply State.settle_keeps | with_reducible apply State.recLine_keeps
    | with_reducible apply State.deliver_keeps
    | (with_reducible apply keeps_fst; with_reducible apply State.descRead_keeps)
    | (with_reducible apply keeps_fst; with_reducible apply State.recLine_keeps) | with_reducible apply keeps_ite
    | with_reducible exact keeps_fst (by with_reducible assumption) | with_reducible apply pkeeps_ite
    | with_reducible exact pkeeps_eq (by assumption) (by assumption) | with_reducible refine pkeeps_eq (by assumption) ?_
    | with_reducible exact keeps_of_p (by with_reducible assumption)
    | (extract_lets +onlyGivenNames x; (have : True := by clear_value x; clear * - x; exact is_state (by assumption)); clear this; refine (fun hx => ?_ : State.Keeps Q x → _) ?_ <;> [clear_value x; (dsimp -zeta only [x]; clear x)])
    | (extract_lets +onlyGivenNames x; (have : True := by clear_value x; clear * - x; exact is_pair (by assumption)); clear this; refine (fun hx => ?_ : PKeeps Q x → _) ?_ <;> [clear_value x; (dsimp -zeta only [x]; clear x)])
    | (extract_lets +onlyGivenNames x; clear_value x) | fail_if_no_progress with_reducible rw [keeps_mk] | split
    | dsimp -zeta only | with_reducible apply pkeeps_mk

theorem State.t2Accept_keeps {Q : List Instr} {s : State} {id : Nat} {r : Req} (h : s.Keeps Q) :
    (State.t2Accept s id r).Keeps Q := by
  unfold State.t2Accept
  repeat' first
    | with_reducible assumption | with_reducible apply State.wbufPut_keeps | with_reducible apply State.dropReq_keeps
    | with_reducible apply State.unlistPoison_keeps | with_reducible apply State.sample_keeps
    | with_reducible apply State.applyDir_keeps | with_reducible apply State.complete_keeps
    | with_reducible apply keeps_ite
    | (extract_lets +onlyGivenNames x; (have : True := by clear_value x; clear * - x; exact is_state (by assumption)); clear this; refine (fun hx => ?_ : State.Keeps Q x → _) ?_ <;> [clear_value x; (dsimp -zeta only [x]; clear x)])
    | (extract_lets +onlyGivenNames x; clear_value x) | split | dsimp -zeta only

theorem execT2Write_keeps {Q : List Instr} {id : BitVec 32} {copy : Bool} {s : State} (h : s.Keeps Q) :
    OKeeps Q (execT2Write id copy s) := by
  unfold execT2Write
  repeat' first
    | with_reducible apply okeeps_next | with_reducible exact okeeps_fault | with_reducible apply okeeps_ite
    | with_reducible assumption | with_reducible apply State.descRead_keeps | with_reducible apply State.descRefuse_keeps
    | with_reducible apply State.settle_keeps | with_reducible apply State.t2Accept_keeps
    | with_reducible apply State.setReq_keeps | (with_reducible apply keeps_fst; with_reducible apply State.descRead_keeps)
    | with_reducible apply keeps_ite | with_reducible exact keeps_fst (by with_reducible assumption)
    | with_reducible apply pkeeps_ite | with_reducible exact pkeeps_eq (by assumption) (by assumption)
    | with_reducible refine pkeeps_eq (by assumption) ?_ | with_reducible exact keeps_of_p (by with_reducible assumption)
    | (extract_lets +onlyGivenNames x; (have : True := by clear_value x; clear * - x; exact is_state (by assumption)); clear this; refine (fun hx => ?_ : State.Keeps Q x → _) ?_ <;> [clear_value x; (dsimp -zeta only [x]; clear x)])
    | (extract_lets +onlyGivenNames x; (have : True := by clear_value x; clear * - x; exact is_pair (by assumption)); clear this; refine (fun hx => ?_ : PKeeps Q x → _) ?_ <;> [clear_value x; (dsimp -zeta only [x]; clear x)])
    | (extract_lets +onlyGivenNames x; clear_value x) | fail_if_no_progress with_reducible rw [keeps_mk] | split
    | dsimp -zeta only | with_reducible apply pkeeps_mk

theorem State.verifyFail_keeps {Q : List Instr} {s : State} {n : Nat} {vi : Nat} (h : s.Keeps Q) :
    (State.verifyFail s n vi).Keeps Q := by
  unfold State.verifyFail
  repeat' first
    | with_reducible assumption | with_reducible apply State.bump_keeps | with_reducible apply State.raise_keeps
    | with_reducible apply State.setPier_keeps | with_reducible apply State.put_keeps | with_reducible apply keeps_ite
    | (extract_lets +onlyGivenNames x; (have : True := by clear_value x; clear * - x; exact is_state (by assumption)); clear this; refine (fun hx => ?_ : State.Keeps Q x → _) ?_ <;> [clear_value x; (dsimp -zeta only [x]; clear x)])
    | (extract_lets +onlyGivenNames x; clear_value x) | fail_if_no_progress with_reducible rw [keeps_mk] | split
    | dsimp -zeta only

theorem State.storeForm_keeps {Q : List Instr} {s : State} {n : Nat} {vi : Nat} {ls : List (BitVec 512 × Bool)} {stream : List Nat} (h : s.Keeps Q) :
    PKeeps Q (State.storeForm s n vi ls stream) := by
  unfold State.storeForm
  repeat' first
    | with_reducible assumption | with_reducible apply State.bump_keeps | with_reducible apply State.telPier_keeps
    | with_reducible apply State.verifyFail_keeps | with_reducible apply keeps_ite
    | with_reducible exact keeps_fst (by with_reducible assumption) | with_reducible apply pkeeps_ite
    | with_reducible exact pkeeps_eq (by assumption) (by assumption) | with_reducible refine pkeeps_eq (by assumption) ?_
    | with_reducible exact keeps_of_p (by with_reducible assumption)
    | (extract_lets +onlyGivenNames x; (have : True := by clear_value x; clear * - x; exact is_state (by assumption)); clear this; refine (fun hx => ?_ : State.Keeps Q x → _) ?_ <;> [clear_value x; (dsimp -zeta only [x]; clear x)])
    | (extract_lets +onlyGivenNames x; (have : True := by clear_value x; clear * - x; exact is_pair (by assumption)); clear this; refine (fun hx => ?_ : PKeeps Q x → _) ?_ <;> [clear_value x; (dsimp -zeta only [x]; clear x)])
    | (extract_lets +onlyGivenNames x; (have : True := by clear_value x; clear * - x; exact is_fun (by assumption)); clear this; dsimp -zeta only [x]; clear x)
    | (extract_lets +onlyGivenNames x; clear_value x) | fail_if_no_progress with_reducible rw [keeps_mk] | split
    | dsimp -zeta only | with_reducible apply pkeeps_mk

theorem State.readPage_keeps {Q : List Instr} {vi : Nat} {l : List SbRec} :
    ∀ {s : State} {bs : List Bursts}, s.Keeps Q → PKeeps Q (State.readPage s vi l bs) := by
  induction l with
  | nil => intro s bs h; exact h
  | cons a t ih =>
    intro s bs h
    unfold State.readPage
    extract_lets n
    have h1 := State.readSub_keeps (vi := vi) (r := a) (bs := bs.take n) h
    have h2 := ih (bs := bs.drop n) (keeps_fst h1)
    split
    · exact h
    · split
      · exact h
      · rename_i e1 _ _ _ e2
        rw [e1] at h2
        exact pkeeps_eq e2 h2

theorem State.commitSub_keeps {Q : List Instr} {s : State} {x : Nat} {sb : Nat} {d : Nat} {old : SbRec} {new : SbRec} {first : Nat} {crc : Nat} (h : s.Keeps Q) :
    (State.commitSub s x sb d old new first crc).Keeps Q := by
  unfold State.commitSub
  repeat' first
    | with_reducible assumption | with_reducible apply State.descWrite_keeps | with_reducible apply State.subLive_keeps
    | with_reducible apply State.wbufDrop_keeps | with_reducible apply keeps_ite
    | (extract_lets +onlyGivenNames x; (have : True := by clear_value x; clear * - x; exact is_state (by assumption)); clear this; refine (fun hx => ?_ : State.Keeps Q x → _) ?_ <;> [clear_value x; (dsimp -zeta only [x]; clear x)])
    | (extract_lets +onlyGivenNames x; clear_value x) | fail_if_no_progress with_reducible rw [keeps_mk] | split
    | dsimp -zeta only

theorem State.finishSub_keeps {Q : List Instr} {s : State} {s1 : State} {w : WBuf} {d : Nat} {new : SbRec} {pl : List (BitVec 512 × Bool)} {crc : Nat} (h : s.Keeps Q) (h : s1.Keeps Q) :
    (State.finishSub s s1 w d new pl crc).Keeps Q := by
  unfold State.finishSub
  repeat' first
    | with_reducible assumption | with_reducible apply State.commitSub_keeps | with_reducible apply State.place_keeps
    | with_reducible apply State.wbufDrop_keeps | with_reducible apply State.raise_keeps
    | (with_reducible apply keeps_fst; with_reducible apply State.place_keeps) | with_reducible apply keeps_ite
    | with_reducible exact keeps_fst (by with_reducible assumption) | with_reducible apply pkeeps_ite
    | with_reducible exact pkeeps_eq (by assumption) (by assumption) | with_reducible refine pkeeps_eq (by assumption) ?_
    | with_reducible exact keeps_of_p (by with_reducible assumption)
    | (extract_lets +onlyGivenNames x; (have : True := by clear_value x; clear * - x; exact is_state (by assumption)); clear this; refine (fun hx => ?_ : State.Keeps Q x → _) ?_ <;> [clear_value x; (dsimp -zeta only [x]; clear x)])
    | (extract_lets +onlyGivenNames x; (have : True := by clear_value x; clear * - x; exact is_pair (by assumption)); clear this; refine (fun hx => ?_ : PKeeps Q x → _) ?_ <;> [clear_value x; (dsimp -zeta only [x]; clear x)])
    | (extract_lets +onlyGivenNames x; clear_value x) | fail_if_no_progress with_reducible rw [keeps_mk] | split
    | dsimp -zeta only | with_reducible apply pkeeps_mk

theorem State.rewriteSub_keeps {Q : List Instr} {s : State} {w : WBuf} {d : Nat} {old : Option (List (BitVec 512 × Bool))} {bs : List Bursts} {stream : List Nat} (h : s.Keeps Q) :
    (State.rewriteSub s w d old bs stream).Keeps Q := by
  unfold State.rewriteSub
  repeat' first
    | with_reducible assumption | with_reducible apply State.storeForm_keeps | with_reducible apply State.wbufDrop_keeps
    | with_reducible apply State.exhaustPage_keeps | with_reducible apply State.finishSub_keeps
    | (with_reducible apply keeps_fst; with_reducible apply State.storeForm_keeps) | with_reducible apply keeps_ite
    | with_reducible exact keeps_fst (by with_reducible assumption) | with_reducible apply pkeeps_ite
    | with_reducible exact pkeeps_eq (by assumption) (by assumption) | with_reducible refine pkeeps_eq (by assumption) ?_
    | with_reducible exact keeps_of_p (by with_reducible assumption)
    | (extract_lets +onlyGivenNames x; (have : True := by clear_value x; clear * - x; exact is_state (by assumption)); clear this; refine (fun hx => ?_ : State.Keeps Q x → _) ?_ <;> [clear_value x; (dsimp -zeta only [x]; clear x)])
    | (extract_lets +onlyGivenNames x; (have : True := by clear_value x; clear * - x; exact is_pair (by assumption)); clear this; refine (fun hx => ?_ : PKeeps Q x → _) ?_ <;> [clear_value x; (dsimp -zeta only [x]; clear x)])
    | (extract_lets +onlyGivenNames x; clear_value x) | fail_if_no_progress with_reducible rw [keeps_mk] | split
    | dsimp -zeta only | with_reducible apply pkeeps_mk

theorem execSubblockRewrite_keeps {Q : List Instr} {d : BitVec 40} {sb : Fin 4} {bs : List Bursts} {stream : List (BitVec 8)} {s : State} (h : s.Keeps Q) :
    OKeeps Q (execSubblockRewrite d sb bs stream s) := by
  unfold execSubblockRewrite
  repeat' first
    | with_reducible apply okeeps_next | with_reducible exact okeeps_fault | with_reducible apply okeeps_ite
    | with_reducible assumption | with_reducible apply State.descRead_keeps | with_reducible apply State.wbufDrop_keeps
    | with_reducible apply State.readSub_keeps | with_reducible apply State.rewriteSub_keeps
    | with_reducible apply State.release_keeps
    | (with_reducible apply keeps_fst; with_reducible apply State.descRead_keeps)
    | (with_reducible apply keeps_fst; with_reducible apply State.readSub_keeps) | with_reducible apply keeps_ite
    | with_reducible exact keeps_fst (by with_reducible assumption) | with_reducible apply pkeeps_ite
    | with_reducible exact pkeeps_eq (by assumption) (by assumption) | with_reducible refine pkeeps_eq (by assumption) ?_
    | with_reducible exact keeps_of_p (by with_reducible assumption) | fail_if_no_progress with_reducible rw [keeps_mk]
    | split | dsimp -zeta only | with_reducible apply pkeeps_mk

theorem execStripeClose_keeps {Q : List Instr} {n : Fin 16} {stripe : BitVec 32} {s : State} (h : s.Keeps Q) :
    OKeeps Q (execStripeClose n stripe s) := by
  unfold execStripeClose
  repeat' first
    | with_reducible apply okeeps_next | with_reducible exact okeeps_fault | with_reducible apply okeeps_ite
    | with_reducible assumption | with_reducible apply State.closeStripe_keeps | with_reducible apply keeps_ite
    | fail_if_no_progress with_reducible rw [keeps_mk] | split | dsimp -zeta only

theorem State.writeSector_keeps {Q : List Instr} {s : State} {da : Nat} {d : BitVec 512} {p : Bool} (h : s.Keeps Q) :
    NPKeeps Q (State.writeSector s da d p) := by
  unfold State.writeSector
  repeat' first
    | with_reducible assumption | with_reducible apply State.advance_keeps | with_reducible apply State.raiseRefused_keeps
    | with_reducible apply State.unqueue_keeps | with_reducible apply State.storeLine_keeps
    | (with_reducible apply keeps_fst; with_reducible apply State.advance_keeps) | with_reducible apply keeps_ite
    | with_reducible exact keeps_fst (by with_reducible assumption) | with_reducible apply pkeeps_ite
    | with_reducible exact pkeeps_eq (by assumption) (by assumption) | with_reducible refine pkeeps_eq (by assumption) ?_
    | with_reducible exact npkeeps_none | with_reducible apply npkeeps_some | with_reducible apply npkeeps_ite
    | with_reducible refine npkeeps_eq (by assumption) ?_ | with_reducible refine npkeeps_var (by assumption) ?_
    | with_reducible exact keeps_of_p (by with_reducible assumption)
    | with_reducible exact keeps_of_np (by with_reducible assumption)
    | (extract_lets +onlyGivenNames x; (have : True := by clear_value x; clear * - x; exact is_state (by assumption)); clear this; refine (fun hx => ?_ : State.Keeps Q x → _) ?_ <;> [clear_value x; (dsimp -zeta only [x]; clear x)])
    | (extract_lets +onlyGivenNames x; (have : True := by clear_value x; clear * - x; exact is_pair (by assumption)); clear this; refine (fun hx => ?_ : PKeeps Q x → _) ?_ <;> [clear_value x; (dsimp -zeta only [x]; clear x)])
    | (extract_lets +onlyGivenNames x; (have : True := by clear_value x; clear * - x; exact is_opt_pair (by assumption)); clear this; refine (fun hx => ?_ : NPKeeps Q x → _) ?_ <;> [clear_value x; (dsimp -zeta only [x]; clear x)])
    | (extract_lets +onlyGivenNames x; clear_value x) | fail_if_no_progress with_reducible rw [keeps_mk] | split
    | dsimp -zeta only | with_reducible apply pkeeps_mk

theorem State.writeLines_keeps {Q : List Instr} {l : List (Nat × BitVec 512 × Bool)} :
    ∀ {s : State}, s.Keeps Q → NPKeeps Q (State.writeLines s l) := by
  induction l with
  | nil => intro s h; exact npkeeps_some h
  | cons a t ih =>
    intro s h
    obtain ⟨da, d, p⟩ := a
    unfold State.writeLines
    split
    · exact npkeeps_none
    · rename_i e
      intro q hq
      obtain ⟨y, hy, rfl⟩ := Option.map_eq_some_iff.mp hq
      exact ih (npkeeps_eq e (State.writeSector_keeps h)) y hy

theorem State.writeParity_keeps {Q : List Instr} {s : State} {i : Nat} {b : Nat} {ls : List (Nat × Line)} (h : s.Keeps Q) :
    (State.writeParity s i b ls).Keeps Q := by
  unfold State.writeParity
  repeat' first
    | with_reducible assumption | with_reducible apply State.dramWrite_keeps | with_reducible apply State.busAt_keeps
    | with_reducible apply keeps_ite | with_reducible refine keeps_foldl (fun _ _ _ => ?_) ?_
    | with_reducible refine nkeeps_foldl (fun _ _ _ => ?_) ?_ | with_reducible refine npkeeps_foldl (fun _ _ _ => ?_) ?_
    | (extract_lets +onlyGivenNames x; (have : True := by clear_value x; clear * - x; exact is_state (by assumption)); clear this; refine (fun hx => ?_ : State.Keeps Q x → _) ?_ <;> [clear_value x; (dsimp -zeta only [x]; clear x)])
    | (extract_lets +onlyGivenNames x; clear_value x) | split | dsimp -zeta only

theorem State.stripeDone_keeps {Q : List Instr} {s : State} {n : Nat} {o : OpenStripe} (h : s.Keeps Q) :
    (State.stripeDone s n o).Keeps Q := by
  unfold State.stripeDone
  repeat' first
    | with_reducible assumption | with_reducible apply State.writeLines_keeps
    | with_reducible apply State.writeParity_keeps | with_reducible apply State.setPier_keeps
    | with_reducible apply State.setStripe_keeps | with_reducible apply keeps_ite
    | with_reducible exact keeps_fst (by with_reducible assumption) | with_reducible apply pkeeps_ite
    | with_reducible exact pkeeps_eq (by assumption) (by assumption) | with_reducible refine pkeeps_eq (by assumption) ?_
    | with_reducible exact npkeeps_none | with_reducible apply npkeeps_some | with_reducible apply npkeeps_ite
    | with_reducible refine npkeeps_eq (by assumption) ?_ | with_reducible refine npkeeps_var (by assumption) ?_
    | with_reducible exact keeps_of_p (by with_reducible assumption)
    | with_reducible exact keeps_of_np (by with_reducible assumption)
    | (extract_lets +onlyGivenNames x; (have : True := by clear_value x; clear * - x; exact is_state (by assumption)); clear this; refine (fun hx => ?_ : State.Keeps Q x → _) ?_ <;> [clear_value x; (dsimp -zeta only [x]; clear x)])
    | (extract_lets +onlyGivenNames x; (have : True := by clear_value x; clear * - x; exact is_pair (by assumption)); clear this; refine (fun hx => ?_ : PKeeps Q x → _) ?_ <;> [clear_value x; (dsimp -zeta only [x]; clear x)])
    | (extract_lets +onlyGivenNames x; (have : True := by clear_value x; clear * - x; exact is_opt_pair (by assumption)); clear this; refine (fun hx => ?_ : NPKeeps Q x → _) ?_ <;> [clear_value x; (dsimp -zeta only [x]; clear x)])
    | (extract_lets +onlyGivenNames x; clear_value x) | fail_if_no_progress with_reducible rw [keeps_mk] | split
    | dsimp -zeta only | with_reducible apply pkeeps_mk

theorem execStripeWritten_keeps {Q : List Instr} {stripe : BitVec 32} {s : State} (h : s.Keeps Q) :
    OKeeps Q (execStripeWritten stripe s) := by
  unfold execStripeWritten
  repeat' first
    | with_reducible apply okeeps_next | with_reducible exact okeeps_fault | with_reducible apply okeeps_ite
    | with_reducible assumption | with_reducible apply State.stripeDone_keeps | with_reducible apply keeps_ite
    | fail_if_no_progress with_reducible rw [keeps_mk] | split | dsimp -zeta only

theorem State.psPush_keeps {Q : List Instr} {s : State} {n : Nat} {v : Nat} (h : s.Keeps Q) :
    (State.psPush s n v).Keeps Q := by
  unfold State.psPush
  repeat' first
    | with_reducible assumption | with_reducible apply State.setPier_keeps | with_reducible apply State.put_keeps
    | with_reducible apply keeps_ite
    | (extract_lets +onlyGivenNames x; (have : True := by clear_value x; clear * - x; exact is_state (by assumption)); clear this; refine (fun hx => ?_ : State.Keeps Q x → _) ?_ <;> [clear_value x; (dsimp -zeta only [x]; clear x)])
    | (extract_lets +onlyGivenNames x; clear_value x) | fail_if_no_progress with_reducible rw [keeps_mk] | split
    | dsimp -zeta only

theorem execPierPsPush_keeps {Q : List Instr} {n : Fin 16} {v : BitVec 32} {s : State} (h : s.Keeps Q) :
    OKeeps Q (execPierPsPush n v s) := by
  unfold execPierPsPush
  repeat' first
    | with_reducible apply okeeps_next | with_reducible exact okeeps_fault | with_reducible apply okeeps_ite
    | with_reducible assumption | with_reducible refine State.atPage_keeps (fun _ _ => ?_) ?_
    | with_reducible apply State.psPush_keeps | with_reducible apply keeps_ite | split | dsimp -zeta only

theorem State.gcCharge_keeps {Q : List Instr} {s : State} {bytes : Nat} (h : s.Keeps Q) :
    (State.gcCharge s bytes).Keeps Q := by
  unfold State.gcCharge
  repeat' first
    | with_reducible assumption | with_reducible apply keeps_ite | fail_if_no_progress with_reducible rw [keeps_mk] | split
    | dsimp -zeta only

theorem execGcSelect_keeps {Q : List Instr} {stripe : BitVec 32} {s : State} (h : s.Keeps Q) :
    OKeeps Q (execGcSelect stripe s) := by
  unfold execGcSelect
  repeat' first
    | with_reducible apply okeeps_next | with_reducible exact okeeps_fault | with_reducible apply okeeps_ite
    | with_reducible assumption | with_reducible apply State.descRead_keeps | with_reducible apply State.put_keeps
    | with_reducible apply State.setStripe_keeps
    | (with_reducible apply keeps_fst; with_reducible apply State.descRead_keeps) | with_reducible apply keeps_ite
    | with_reducible exact keeps_fst (by with_reducible assumption) | with_reducible apply pkeeps_ite
    | with_reducible exact pkeeps_eq (by assumption) (by assumption) | with_reducible refine pkeeps_eq (by assumption) ?_
    | with_reducible refine keeps_foldl (fun _ _ _ => ?_) ?_ | with_reducible refine pkeeps_foldl (fun _ _ _ => ?_) ?_
    | with_reducible refine nkeeps_foldl (fun _ _ _ => ?_) ?_ | with_reducible refine npkeeps_foldl (fun _ _ _ => ?_) ?_
    | with_reducible exact keeps_of_p (by with_reducible assumption)
    | (extract_lets +onlyGivenNames x; (have : True := by clear_value x; clear * - x; exact is_state (by assumption)); clear this; refine (fun hx => ?_ : State.Keeps Q x → _) ?_ <;> [clear_value x; (dsimp -zeta only [x]; clear x)])
    | (extract_lets +onlyGivenNames x; (have : True := by clear_value x; clear * - x; exact is_pair (by assumption)); clear this; refine (fun hx => ?_ : PKeeps Q x → _) ?_ <;> [clear_value x; (dsimp -zeta only [x]; clear x)])
    | (extract_lets +onlyGivenNames x; clear_value x) | fail_if_no_progress with_reducible rw [keeps_mk] | split
    | dsimp -zeta only | with_reducible apply pkeeps_mk

theorem State.closeReceiver_keeps {Q : List Instr} {s : State} {n : Nat} {first : Nat} (h : s.Keeps Q) :
    (State.closeReceiver s n first).Keeps Q := by
  unfold State.closeReceiver
  repeat' first
    | with_reducible assumption | with_reducible apply State.closeStripe_keeps | with_reducible apply keeps_ite
    | fail_if_no_progress with_reducible rw [keeps_mk] | split | dsimp -zeta only

theorem execRelocation_keeps {Q : List Instr} {d : BitVec 40} {sb : Fin 4} {bs : List Bursts} {s : State} (h : s.Keeps Q) :
    OKeeps Q (execRelocation d sb bs s) := by
  unfold execRelocation
  repeat' first
    | with_reducible apply okeeps_next | with_reducible exact okeeps_fault | with_reducible apply okeeps_ite
    | with_reducible assumption | with_reducible apply State.descRead_keeps | with_reducible apply State.sectorReads_keeps
    | with_reducible apply State.place_keeps | with_reducible apply State.put_keeps
    | with_reducible apply State.closeReceiver_keeps | with_reducible apply State.gcCharge_keeps
    | (with_reducible apply keeps_fst; with_reducible apply State.descRead_keeps)
    | (with_reducible apply keeps_fst; with_reducible apply State.sectorReads_keeps)
    | (with_reducible apply keeps_fst; with_reducible apply State.place_keeps) | with_reducible apply keeps_ite
    | with_reducible exact keeps_fst (by with_reducible assumption) | with_reducible apply pkeeps_ite
    | with_reducible exact pkeeps_eq (by assumption) (by assumption) | with_reducible refine pkeeps_eq (by assumption) ?_
    | with_reducible exact keeps_of_p (by with_reducible assumption)
    | (extract_lets +onlyGivenNames x; (have : True := by clear_value x; clear * - x; exact is_state (by assumption)); clear this; refine (fun hx => ?_ : State.Keeps Q x → _) ?_ <;> [clear_value x; (dsimp -zeta only [x]; clear x)])
    | (extract_lets +onlyGivenNames x; (have : True := by clear_value x; clear * - x; exact is_pair (by assumption)); clear this; refine (fun hx => ?_ : PKeeps Q x → _) ?_ <;> [clear_value x; (dsimp -zeta only [x]; clear x)])
    | (extract_lets +onlyGivenNames x; clear_value x) | fail_if_no_progress with_reducible rw [keeps_mk] | split
    | dsimp -zeta only | with_reducible apply pkeeps_mk

theorem execRelocationCommit_keeps {Q : List Instr} {d : BitVec 40} {sb : Fin 4} {s : State} (h : s.Keeps Q) :
    OKeeps Q (execRelocationCommit d sb s) := by
  unfold execRelocationCommit
  repeat' first
    | with_reducible apply okeeps_next | with_reducible exact okeeps_fault | with_reducible apply okeeps_ite
    | with_reducible assumption | with_reducible apply State.bind_keeps | with_reducible apply State.descRead_keeps
    | with_reducible apply State.subLive_keeps | with_reducible apply State.descWrite_keeps
    | (with_reducible apply keeps_fst; with_reducible apply State.descRead_keeps) | with_reducible apply keeps_ite
    | with_reducible exact keeps_fst (by with_reducible assumption) | with_reducible apply pkeeps_ite
    | with_reducible exact pkeeps_eq (by assumption) (by assumption) | with_reducible refine pkeeps_eq (by assumption) ?_
    | with_reducible exact keeps_of_p (by with_reducible assumption) | with_reducible refine nkeeps_bind (fun _ _ => ?_) ?_
    | (extract_lets +onlyGivenNames x; (have : True := by clear_value x; clear * - x; exact is_state (by assumption)); clear this; refine (fun hx => ?_ : State.Keeps Q x → _) ?_ <;> [clear_value x; (dsimp -zeta only [x]; clear x)])
    | (extract_lets +onlyGivenNames x; (have : True := by clear_value x; clear * - x; exact is_pair (by assumption)); clear this; refine (fun hx => ?_ : PKeeps Q x → _) ?_ <;> [clear_value x; (dsimp -zeta only [x]; clear x)])
    | (extract_lets +onlyGivenNames x; clear_value x) | fail_if_no_progress with_reducible rw [keeps_mk] | split
    | dsimp -zeta only | with_reducible apply pkeeps_mk

end Sys2Proof.Machine
end

