-- ==== Sys2Proof/Laws/KeepsDram.lean ====
section
/-!
SUPPORT. The meanings and operations of Machine/Dram.lean keep a sound state and its queue.
-/
set_option linter.unusedTactic false
set_option linter.unusedSimpArgs false
set_option linter.unusedVariables false
set_option linter.unreachableTactic false

namespace Sys2Proof.Machine

theorem State.overflowLine_keeps {Q : List Instr} {s : State} {da : Nat} {b : Bursts} (h : s.Keeps Q) :
    (State.overflowLine s da b).Keeps Q := by
  unfold State.overflowLine
  repeat' first
    | with_reducible assumption | with_reducible apply State.jobRecall_keeps | with_reducible apply State.writePlain_keeps
    | with_reducible apply State.jobClear_keeps | with_reducible apply State.readPlain_keeps
    | (with_reducible apply keeps_fst; with_reducible apply State.jobRecall_keeps)
    | (with_reducible apply keeps_fst; with_reducible apply State.writePlain_keeps)
    | (with_reducible apply keeps_fst; with_reducible apply State.readPlain_keeps) | with_reducible apply keeps_ite
    | with_reducible exact keeps_fst (by with_reducible assumption) | with_reducible apply pkeeps_ite
    | with_reducible exact pkeeps_eq (by assumption) (by assumption) | with_reducible refine pkeeps_eq (by assumption) ?_
    | with_reducible exact keeps_of_p (by with_reducible assumption)
    | (extract_lets +onlyGivenNames x; (have : True := by clear_value x; clear * - x; exact is_state (by assumption)); clear this; refine (fun hx => ?_ : State.Keeps Q x → _) ?_ <;> [clear_value x; (dsimp -zeta only [x]; clear x)])
    | (extract_lets +onlyGivenNames x; (have : True := by clear_value x; clear * - x; exact is_pair (by assumption)); clear this; refine (fun hx => ?_ : PKeeps Q x → _) ?_ <;> [clear_value x; (dsimp -zeta only [x]; clear x)])
    | (extract_lets +onlyGivenNames x; (have : True := by clear_value x; clear * - x; exact is_fun (by assumption)); clear this; dsimp -zeta only [x]; clear x)
    | (extract_lets +onlyGivenNames x; clear_value x) | fail_if_no_progress with_reducible rw [keeps_mk] | split
    | dsimp -zeta only | with_reducible apply pkeeps_mk

theorem execOverflowStep_keeps {Q : List Instr} {da : BitVec 48} {b : Bursts} {s : State} (h : s.Keeps Q) :
    OKeeps Q (execOverflowStep da b s) := by
  unfold execOverflowStep
  repeat' first
    | with_reducible apply okeeps_next | with_reducible exact okeeps_fault | with_reducible apply okeeps_ite
    | with_reducible assumption | with_reducible apply State.overflowLine_keeps | with_reducible apply keeps_ite
    | (extract_lets +onlyGivenNames x; (have : True := by clear_value x; clear * - x; exact is_state (by assumption)); clear this; refine (fun hx => ?_ : State.Keeps Q x → _) ?_ <;> [clear_value x; (dsimp -zeta only [x]; clear x)])
    | (extract_lets +onlyGivenNames x; clear_value x) | split | dsimp -zeta only

theorem State.closeRows_keeps {Q : List Instr} {s : State} {n : Nat} {f : Nat → Bool} (h : s.Keeps Q) :
    (State.closeRows s n f).Keeps Q := by
  unfold State.closeRows
  repeat' first
    | with_reducible assumption | with_reducible apply State.setPier_keeps | with_reducible apply keeps_ite
    | fail_if_no_progress with_reducible rw [keeps_mk] | split | dsimp -zeta only

theorem State.refreshPart_keeps {Q : List Instr} {s : State} {n : Nat} {sub : Nat} {rank : Nat} {turn : Nat} (h : s.Keeps Q) :
    (State.refreshPart s n sub rank turn).Keeps Q := by
  unfold State.refreshPart
  repeat' first
    | with_reducible assumption | with_reducible apply State.refreshSlots_keeps
    | with_reducible apply State.closeRows_keeps | with_reducible apply keeps_ite
    | (extract_lets +onlyGivenNames x; (have : True := by clear_value x; clear * - x; exact is_state (by assumption)); clear this; refine (fun hx => ?_ : State.Keeps Q x → _) ?_ <;> [clear_value x; (dsimp -zeta only [x]; clear x)])
    | (extract_lets +onlyGivenNames x; clear_value x) | split | dsimp -zeta only

theorem State.refreshRank_keeps {Q : List Instr} {s : State} {n : Nat} {rank : Nat} (h : s.Keeps Q) :
    (State.refreshRank s n rank).Keeps Q := by
  unfold State.refreshRank
  repeat' first
    | with_reducible assumption | with_reducible apply State.setPier_keeps | with_reducible apply State.refreshPart_keeps
    | with_reducible apply keeps_ite | with_reducible refine keeps_foldl (fun _ _ _ => ?_) ?_
    | with_reducible refine nkeeps_foldl (fun _ _ _ => ?_) ?_ | with_reducible refine npkeeps_foldl (fun _ _ _ => ?_) ?_
    | (extract_lets +onlyGivenNames x; (have : True := by clear_value x; clear * - x; exact is_state (by assumption)); clear this; refine (fun hx => ?_ : State.Keeps Q x → _) ?_ <;> [clear_value x; (dsimp -zeta only [x]; clear x)])
    | (extract_lets +onlyGivenNames x; clear_value x) | fail_if_no_progress with_reducible rw [keeps_mk] | split
    | dsimp -zeta only

theorem State.refreshDue_keeps {Q : List Instr} {s : State} {n : Nat} {sub : Nat} (h : s.Keeps Q) :
    (State.refreshDue s n sub).Keeps Q := by
  unfold State.refreshDue
  repeat' first
    | with_reducible assumption | with_reducible apply State.refreshPart_keeps | with_reducible apply State.setPier_keeps
    | with_reducible apply keeps_ite | with_reducible refine keeps_foldl (fun _ _ _ => ?_) ?_
    | with_reducible refine nkeeps_foldl (fun _ _ _ => ?_) ?_ | with_reducible refine npkeeps_foldl (fun _ _ _ => ?_) ?_
    | (extract_lets +onlyGivenNames x; (have : True := by clear_value x; clear * - x; exact is_state (by assumption)); clear this; refine (fun hx => ?_ : State.Keeps Q x → _) ?_ <;> [clear_value x; (dsimp -zeta only [x]; clear x)])
    | (extract_lets +onlyGivenNames x; clear_value x) | fail_if_no_progress with_reducible rw [keeps_mk] | split
    | dsimp -zeta only

theorem execRefresh_keeps {Q : List Instr} {n : Fin 16} {rank : Fin 8} {s : State} (h : s.Keeps Q) :
    OKeeps Q (execRefresh n rank s) := by
  unfold execRefresh
  repeat' first
    | with_reducible apply okeeps_next | with_reducible exact okeeps_fault | with_reducible apply okeeps_ite
    | with_reducible assumption | with_reducible apply State.refreshRank_keeps | with_reducible apply keeps_ite | split
    | dsimp -zeta only

theorem execMr4Poll_keeps {Q : List Instr} {n : Fin 16} {hot : Bool} {s : State} (h : s.Keeps Q) :
    OKeeps Q (execMr4Poll n hot s) := by
  unfold execMr4Poll
  repeat' first
    | with_reducible apply okeeps_next | with_reducible exact okeeps_fault | with_reducible apply okeeps_ite
    | with_reducible assumption | with_reducible apply State.leaveIdle_keeps | with_reducible apply State.put_keeps
    | with_reducible apply keeps_ite | split | dsimp -zeta only

theorem execZqcalStart_keeps {Q : List Instr} {n : Fin 16} {sub : Fin 2} {s : State} (h : s.Keeps Q) :
    OKeeps Q (execZqcalStart n sub s) := by
  unfold execZqcalStart
  repeat' first
    | with_reducible apply okeeps_next | with_reducible exact okeeps_fault | with_reducible apply okeeps_ite
    | with_reducible assumption | with_reducible apply State.setPier_keeps | with_reducible apply State.put_keeps
    | with_reducible apply keeps_ite | fail_if_no_progress with_reducible rw [keeps_mk] | split | dsimp -zeta only

theorem execTrainPause_keeps {Q : List Instr} {n : Fin 16} {sub : Fin 2} {s : State} (h : s.Keeps Q) :
    OKeeps Q (execTrainPause n sub s) := by
  unfold execTrainPause
  repeat' first
    | with_reducible apply okeeps_next | with_reducible exact okeeps_fault | with_reducible apply okeeps_ite
    | with_reducible assumption | with_reducible apply State.put_keeps | with_reducible apply State.leaveIdle_keeps
    | with_reducible apply State.setPier_keeps | with_reducible apply State.closeRows_keeps
    | with_reducible apply keeps_ite
    | (extract_lets +onlyGivenNames x; (have : True := by clear_value x; clear * - x; exact is_state (by assumption)); clear this; refine (fun hx => ?_ : State.Keeps Q x → _) ?_ <;> [clear_value x; (dsimp -zeta only [x]; clear x)])
    | (extract_lets +onlyGivenNames x; clear_value x) | fail_if_no_progress with_reducible rw [keeps_mk] | split
    | dsimp -zeta only

theorem State.trainFail_keeps {Q : List Instr} {s : State} {n : Nat} {r : Nat} (h : s.Keeps Q) :
    (State.trainFail s n r).Keeps Q := by
  unfold State.trainFail
  repeat' first
    | with_reducible assumption | with_reducible apply State.put_keeps | with_reducible apply State.setPier_keeps
    | with_reducible apply State.raise_keeps | with_reducible apply State.retireRank_keeps | with_reducible apply keeps_ite
    | (extract_lets +onlyGivenNames x; (have : True := by clear_value x; clear * - x; exact is_state (by assumption)); clear this; refine (fun hx => ?_ : State.Keeps Q x → _) ?_ <;> [clear_value x; (dsimp -zeta only [x]; clear x)])
    | (extract_lets +onlyGivenNames x; clear_value x) | fail_if_no_progress with_reducible rw [keeps_mk] | split
    | dsimp -zeta only

theorem State.setDelays_keeps {Q : List Instr} {s : State} {n : Nat} {ds : List Nat} (h : s.Keeps Q) :
    (State.setDelays s n ds).Keeps Q := by
  unfold State.setDelays
  repeat' first
    | with_reducible assumption | with_reducible apply State.put_keeps | with_reducible apply keeps_ite
    | with_reducible refine keeps_foldl (fun _ _ _ => ?_) ?_ | with_reducible refine nkeeps_foldl (fun _ _ _ => ?_) ?_
    | with_reducible refine npkeeps_foldl (fun _ _ _ => ?_) ?_
    | (extract_lets +onlyGivenNames x; (have : True := by clear_value x; clear * - x; exact is_state (by assumption)); clear this; refine (fun hx => ?_ : State.Keeps Q x → _) ?_ <;> [clear_value x; (dsimp -zeta only [x]; clear x)])
    | (extract_lets +onlyGivenNames x; clear_value x) | split | dsimp -zeta only

theorem State.pauseDone_keeps {Q : List Instr} {s : State} {n : Nat} {sub : Nat} {lim : Nat} {delays : List Nat} (h : s.Keeps Q) :
    (State.pauseDone s n sub lim delays).Keeps Q := by
  unfold State.pauseDone
  repeat' first
    | with_reducible assumption | with_reducible apply State.setPier_keeps | with_reducible apply State.put_keeps
    | with_reducible apply State.setDelays_keeps | with_reducible apply State.trainFail_keeps
    | with_reducible apply keeps_ite | with_reducible refine keeps_foldl (fun _ _ _ => ?_) ?_
    | with_reducible refine nkeeps_foldl (fun _ _ _ => ?_) ?_ | with_reducible refine npkeeps_foldl (fun _ _ _ => ?_) ?_
    | (extract_lets +onlyGivenNames x; (have : True := by clear_value x; clear * - x; exact is_state (by assumption)); clear this; refine (fun hx => ?_ : State.Keeps Q x → _) ?_ <;> [clear_value x; (dsimp -zeta only [x]; clear x)])
    | (extract_lets +onlyGivenNames x; clear_value x) | fail_if_no_progress with_reducible rw [keeps_mk] | split
    | dsimp -zeta only

theorem execTrainPauseEnd_keeps {Q : List Instr} {n : Fin 16} {sub : Fin 2} {limited : BitVec 8} {delays : List (BitVec 36)} {s : State} (h : s.Keeps Q) :
    OKeeps Q (execTrainPauseEnd n sub limited delays s) := by
  unfold execTrainPauseEnd
  repeat' first
    | with_reducible apply okeeps_next | with_reducible exact okeeps_fault | with_reducible apply okeeps_ite
    | with_reducible assumption | with_reducible apply State.setPier_keeps | with_reducible apply State.pauseDone_keeps
    | with_reducible apply State.refreshDue_keeps | with_reducible apply keeps_ite
    | (extract_lets +onlyGivenNames x; (have : True := by clear_value x; clear * - x; exact is_state (by assumption)); clear this; refine (fun hx => ?_ : State.Keeps Q x → _) ?_ <;> [clear_value x; (dsimp -zeta only [x]; clear x)])
    | (extract_lets +onlyGivenNames x; clear_value x) | fail_if_no_progress with_reducible rw [keeps_mk] | split
    | dsimp -zeta only

theorem State.exitPauses_keeps {Q : List Instr} {s : State} {n : Nat} (h : s.Keeps Q) :
    (State.exitPauses s n).Keeps Q := by
  unfold State.exitPauses
  repeat' first
    | with_reducible assumption | with_reducible apply State.tick_keeps | with_reducible apply State.pauseDone_keeps
    | with_reducible apply keeps_ite | with_reducible refine keeps_foldl (fun _ _ _ => ?_) ?_
    | with_reducible refine nkeeps_foldl (fun _ _ _ => ?_) ?_ | with_reducible refine npkeeps_foldl (fun _ _ _ => ?_) ?_
    | split | dsimp -zeta only

theorem State.holdCopies_keeps {Q : List Instr} {s : State} {f : Nat → Bool} (h : s.Keeps Q) :
    (State.holdCopies s f).Keeps Q := by
  unfold State.holdCopies
  repeat' first
    | with_reducible assumption | with_reducible apply State.put_keeps | with_reducible apply keeps_ite
    | with_reducible refine keeps_foldl (fun _ _ _ => ?_) ?_ | with_reducible refine nkeeps_foldl (fun _ _ _ => ?_) ?_
    | with_reducible refine npkeeps_foldl (fun _ _ _ => ?_) ?_ | split | dsimp -zeta only

theorem State.resumeCopies_keeps {Q : List Instr} {s : State} (h : s.Keeps Q) :
    (State.resumeCopies s).Keeps Q := by
  unfold State.resumeCopies
  repeat' first
    | with_reducible assumption | with_reducible apply State.put_keeps | with_reducible apply keeps_ite
    | with_reducible refine keeps_foldl (fun _ _ _ => ?_) ?_ | with_reducible refine nkeeps_foldl (fun _ _ _ => ?_) ?_
    | with_reducible refine npkeeps_foldl (fun _ _ _ => ?_) ?_ | split | dsimp -zeta only

theorem State.startFreq_keeps {Q : List Instr} {s : State} {n : Nat} (h : s.Keeps Q) :
    (State.startFreq s n).Keeps Q := by
  unfold State.startFreq
  repeat' first
    | with_reducible assumption | with_reducible apply State.setPier_keeps | with_reducible apply State.holdCopies_keeps
    | with_reducible apply keeps_ite | fail_if_no_progress with_reducible rw [keeps_mk] | split | dsimp -zeta only

theorem State.doSwitch_keeps {Q : List Instr} {s : State} {n : Nat} (h : s.Keeps Q) :
    (State.doSwitch s n).Keeps Q := by
  unfold State.doSwitch
  repeat' first
    | with_reducible assumption | with_reducible apply State.put_keeps | with_reducible apply State.startFreq_keeps
    | with_reducible apply State.setPier_keeps | with_reducible apply keeps_ite
    | (extract_lets +onlyGivenNames x; (have : True := by clear_value x; clear * - x; exact is_state (by assumption)); clear this; refine (fun hx => ?_ : State.Keeps Q x → _) ?_ <;> [clear_value x; (dsimp -zeta only [x]; clear x)])
    | (extract_lets +onlyGivenNames x; clear_value x) | fail_if_no_progress with_reducible rw [keeps_mk] | split
    | dsimp -zeta only

theorem execSwitch_keeps {Q : List Instr} {n : Fin 16} {s : State} (h : s.Keeps Q) :
    OKeeps Q (execSwitch n s) := by
  unfold execSwitch
  repeat' first
    | with_reducible apply okeeps_next | with_reducible exact okeeps_fault | with_reducible apply okeeps_ite
    | with_reducible assumption | with_reducible refine State.atPage_keeps (fun _ _ => ?_) ?_
    | with_reducible apply State.doSwitch_keeps | with_reducible apply keeps_ite | split | dsimp -zeta only

theorem State.writeTiming_keeps {Q : List Instr} {s : State} {n : Nat} {set : Nat} {off : Nat} {v : Nat} (h : s.Keeps Q) :
    (State.writeTiming s n set off v).Keeps Q := by
  unfold State.writeTiming
  repeat' first
    | with_reducible assumption | with_reducible apply State.put_keeps | with_reducible apply keeps_ite
    | with_reducible refine keeps_foldl (fun _ _ _ => ?_) ?_ | with_reducible refine nkeeps_foldl (fun _ _ _ => ?_) ?_
    | with_reducible refine npkeeps_foldl (fun _ _ _ => ?_) ?_
    | (extract_lets +onlyGivenNames x; (have : True := by clear_value x; clear * - x; exact is_state (by assumption)); clear this; refine (fun hx => ?_ : State.Keeps Q x → _) ?_ <;> [clear_value x; (dsimp -zeta only [x]; clear x)])
    | (extract_lets +onlyGivenNames x; clear_value x) | split | dsimp -zeta only

theorem execTimingSetWrite_keeps {Q : List Instr} {n : Fin 16} {set : Fin 2} {off : Fin 32} {v : BitVec 32} {s : State} (h : s.Keeps Q) :
    OKeeps Q (execTimingSetWrite n set off v s) := by
  unfold execTimingSetWrite
  repeat' first
    | with_reducible apply okeeps_next | with_reducible exact okeeps_fault | with_reducible apply okeeps_ite
    | with_reducible assumption | with_reducible refine State.atPage_keeps (fun _ _ => ?_) ?_
    | with_reducible apply State.writeTiming_keeps | with_reducible apply keeps_ite | split | dsimp -zeta only

theorem execFreqChangeDone_keeps {Q : List Instr} {n : Fin 16} {s : State} (h : s.Keeps Q) :
    OKeeps Q (execFreqChangeDone n s) := by
  unfold execFreqChangeDone
  repeat' first
    | with_reducible apply okeeps_next | with_reducible exact okeeps_fault | with_reducible apply okeeps_ite
    | with_reducible assumption | with_reducible apply State.setPier_keeps | with_reducible apply State.put_keeps
    | with_reducible apply State.exitPauses_keeps | with_reducible apply State.raise_keeps
    | with_reducible apply State.startFreq_keeps | with_reducible apply State.resumeCopies_keeps
    | with_reducible apply keeps_ite
    | (extract_lets +onlyGivenNames x; (have : True := by clear_value x; clear * - x; exact is_state (by assumption)); clear this; refine (fun hx => ?_ : State.Keeps Q x → _) ?_ <;> [clear_value x; (dsimp -zeta only [x]; clear x)])
    | (extract_lets +onlyGivenNames x; clear_value x) | fail_if_no_progress with_reducible rw [keeps_mk] | split
    | dsimp -zeta only

theorem State.startScrub_keeps {Q : List Instr} {s : State} {n : Nat} (h : s.Keeps Q) :
    (State.startScrub s n).Keeps Q := by
  unfold State.startScrub
  repeat' first
    | with_reducible assumption | with_reducible apply State.setPier_keeps | with_reducible apply State.put_keeps
    | with_reducible apply keeps_ite
    | (extract_lets +onlyGivenNames x; (have : True := by clear_value x; clear * - x; exact is_state (by assumption)); clear this; refine (fun hx => ?_ : State.Keeps Q x → _) ?_ <;> [clear_value x; (dsimp -zeta only [x]; clear x)])
    | (extract_lets +onlyGivenNames x; clear_value x) | fail_if_no_progress with_reducible rw [keeps_mk] | split
    | dsimp -zeta only

theorem State.stopScrub_keeps {Q : List Instr} {s : State} {n : Nat} (h : s.Keeps Q) :
    (State.stopScrub s n).Keeps Q := by
  unfold State.stopScrub
  repeat' first
    | with_reducible assumption | with_reducible apply State.setPier_keeps | with_reducible apply State.put_keeps
    | with_reducible apply keeps_ite | fail_if_no_progress with_reducible rw [keeps_mk] | split | dsimp -zeta only

theorem State.writeLiuCtl_keeps {Q : List Instr} {s : State} {n : Nat} {v : Nat} (h : s.Keeps Q) :
    (State.writeLiuCtl s n v).Keeps Q := by
  unfold State.writeLiuCtl
  repeat' first
    | with_reducible assumption | with_reducible apply State.put_keeps | with_reducible apply State.stopScrub_keeps
    | with_reducible apply State.startScrub_keeps | with_reducible apply keeps_ite
    | (extract_lets +onlyGivenNames x; (have : True := by clear_value x; clear * - x; exact is_state (by assumption)); clear this; refine (fun hx => ?_ : State.Keeps Q x → _) ?_ <;> [clear_value x; (dsimp -zeta only [x]; clear x)])
    | (extract_lets +onlyGivenNames x; clear_value x) | split | dsimp -zeta only

theorem execPierLiuCtlWrite_keeps {Q : List Instr} {n : Fin 16} {v : BitVec 32} {s : State} (h : s.Keeps Q) :
    OKeeps Q (execPierLiuCtlWrite n v s) := by
  unfold execPierLiuCtlWrite
  repeat' first
    | with_reducible apply okeeps_next | with_reducible exact okeeps_fault | with_reducible apply okeeps_ite
    | with_reducible assumption | with_reducible refine State.atPage_keeps (fun _ _ => ?_) ?_
    | with_reducible apply State.writeLiuCtl_keeps | with_reducible apply keeps_ite | split | dsimp -zeta only

theorem State.scrubLine_keeps {Q : List Instr} {s : State} {da : Nat} {copy : Nat} {b : Bursts} (h : s.Keeps Q) :
    PKeeps Q (State.scrubLine s da copy b) := by
  unfold State.scrubLine
  repeat' first
    | with_reducible assumption | with_reducible apply State.busAt_keeps | with_reducible apply State.jobRecall_keeps
    | with_reducible apply State.readLine_keeps | with_reducible apply State.storeLine_keeps
    | with_reducible apply State.jobClear_keeps
    | (with_reducible apply keeps_fst; with_reducible apply State.jobRecall_keeps)
    | (with_reducible apply keeps_fst; with_reducible apply State.readLine_keeps) | with_reducible apply keeps_ite
    | with_reducible exact keeps_fst (by with_reducible assumption) | with_reducible apply pkeeps_ite
    | with_reducible exact pkeeps_eq (by assumption) (by assumption) | with_reducible refine pkeeps_eq (by assumption) ?_
    | with_reducible exact keeps_of_p (by with_reducible assumption)
    | (extract_lets +onlyGivenNames x; (have : True := by clear_value x; clear * - x; exact is_state (by assumption)); clear this; refine (fun hx => ?_ : State.Keeps Q x → _) ?_ <;> [clear_value x; (dsimp -zeta only [x]; clear x)])
    | (extract_lets +onlyGivenNames x; (have : True := by clear_value x; clear * - x; exact is_pair (by assumption)); clear this; refine (fun hx => ?_ : PKeeps Q x → _) ?_ <;> [clear_value x; (dsimp -zeta only [x]; clear x)])
    | (extract_lets +onlyGivenNames x; clear_value x) | fail_if_no_progress with_reducible rw [keeps_mk] | split
    | dsimp -zeta only | with_reducible apply pkeeps_mk

theorem State.scrubNext_keeps {Q : List Instr} {s : State} {n : Nat} {rank : Nat} {line : Nat} (h : s.Keeps Q) :
    (State.scrubNext s n rank line).Keeps Q := by
  unfold State.scrubNext
  repeat' first
    | with_reducible assumption | with_reducible apply State.setPier_keeps | with_reducible apply State.stopScrub_keeps
    | with_reducible apply State.put_keeps | with_reducible apply State.startScrub_keeps | with_reducible apply keeps_ite
    | (extract_lets +onlyGivenNames x; (have : True := by clear_value x; clear * - x; exact is_state (by assumption)); clear this; refine (fun hx => ?_ : State.Keeps Q x → _) ?_ <;> [clear_value x; (dsimp -zeta only [x]; clear x)])
    | (extract_lets +onlyGivenNames x; clear_value x) | fail_if_no_progress with_reducible rw [keeps_mk] | split
    | dsimp -zeta only

theorem execScrubStep_keeps {Q : List Instr} {n : Fin 16} {b : Bursts} {s : State} (h : s.Keeps Q) :
    OKeeps Q (execScrubStep n b s) := by
  unfold execScrubStep
  repeat' first
    | with_reducible apply okeeps_next | with_reducible exact okeeps_fault | with_reducible apply okeeps_ite
    | with_reducible assumption | with_reducible apply State.leaveIdle_keeps | with_reducible apply State.scrubNext_keeps
    | with_reducible apply State.scrubLine_keeps
    | (with_reducible apply keeps_fst; with_reducible apply State.scrubLine_keeps) | with_reducible apply keeps_ite
    | with_reducible exact keeps_fst (by with_reducible assumption) | with_reducible apply pkeeps_ite
    | with_reducible exact pkeeps_eq (by assumption) (by assumption) | with_reducible refine pkeeps_eq (by assumption) ?_
    | with_reducible exact keeps_of_p (by with_reducible assumption)
    | (extract_lets +onlyGivenNames x; (have : True := by clear_value x; clear * - x; exact is_state (by assumption)); clear this; refine (fun hx => ?_ : State.Keeps Q x → _) ?_ <;> [clear_value x; (dsimp -zeta only [x]; clear x)])
    | (extract_lets +onlyGivenNames x; (have : True := by clear_value x; clear * - x; exact is_pair (by assumption)); clear this; refine (fun hx => ?_ : PKeeps Q x → _) ?_ <;> [clear_value x; (dsimp -zeta only [x]; clear x)])
    | (extract_lets +onlyGivenNames x; clear_value x) | fail_if_no_progress with_reducible rw [keeps_mk] | split
    | dsimp -zeta only | with_reducible apply pkeeps_mk

theorem execScrubPeriodEnd_keeps {Q : List Instr} {n : Fin 16} {s : State} (h : s.Keeps Q) :
    OKeeps Q (execScrubPeriodEnd n s) := by
  unfold execScrubPeriodEnd
  repeat' first
    | with_reducible apply okeeps_next | with_reducible exact okeeps_fault | with_reducible apply okeeps_ite
    | with_reducible assumption | with_reducible apply State.setPier_keeps | with_reducible apply State.put_keeps
    | with_reducible apply State.raise_keeps | with_reducible apply State.startScrub_keeps | with_reducible apply keeps_ite
    | (extract_lets +onlyGivenNames x; (have : True := by clear_value x; clear * - x; exact is_state (by assumption)); clear this; refine (fun hx => ?_ : State.Keeps Q x → _) ?_ <;> [clear_value x; (dsimp -zeta only [x]; clear x)])
    | (extract_lets +onlyGivenNames x; clear_value x) | fail_if_no_progress with_reducible rw [keeps_mk] | split
    | dsimp -zeta only

theorem execUeWindowTick_keeps {Q : List Instr} {n : Fin 16} {s : State} (h : s.Keeps Q) :
    OKeeps Q (execUeWindowTick n s) := by
  unfold execUeWindowTick
  repeat' first
    | with_reducible apply okeeps_next | with_reducible exact okeeps_fault | with_reducible apply okeeps_ite
    | with_reducible assumption | with_reducible apply State.setPier_keeps | with_reducible apply State.rankLimit_keeps
    | with_reducible apply keeps_ite | with_reducible refine keeps_foldl (fun _ _ _ => ?_) ?_
    | with_reducible refine nkeeps_foldl (fun _ _ _ => ?_) ?_ | with_reducible refine npkeeps_foldl (fun _ _ _ => ?_) ?_
    | (extract_lets +onlyGivenNames x; (have : True := by clear_value x; clear * - x; exact is_state (by assumption)); clear this; refine (fun hx => ?_ : State.Keeps Q x → _) ?_ <;> [clear_value x; (dsimp -zeta only [x]; clear x)])
    | (extract_lets +onlyGivenNames x; clear_value x) | fail_if_no_progress with_reducible rw [keeps_mk] | split
    | dsimp -zeta only

theorem State.exhausted_keeps {Q : List Instr} {s : State} {n : Nat} {rank : Nat} (h : s.Keeps Q) :
    (State.exhausted s n rank).Keeps Q := by
  unfold State.exhausted
  repeat' first
    | with_reducible assumption | with_reducible apply State.raise_keeps | with_reducible apply keeps_ite | split
    | dsimp -zeta only

theorem State.startSparing_keeps {Q : List Instr} {s : State} {n : Nat} {rank : Nat} (h : s.Keeps Q) :
    (State.startSparing s n rank).Keeps Q := by
  unfold State.startSparing
  repeat' first
    | with_reducible assumption | with_reducible apply State.setPier_keeps | with_reducible apply State.exhausted_keeps
    | with_reducible apply State.put_keeps | with_reducible apply State.raise_keeps | with_reducible apply keeps_ite
    | (extract_lets +onlyGivenNames x; (have : True := by clear_value x; clear * - x; exact is_state (by assumption)); clear this; refine (fun hx => ?_ : State.Keeps Q x → _) ?_ <;> [clear_value x; (dsimp -zeta only [x]; clear x)])
    | (extract_lets +onlyGivenNames x; clear_value x) | fail_if_no_progress with_reducible rw [keeps_mk] | split
    | dsimp -zeta only

theorem execSparingStart_keeps {Q : List Instr} {n : Fin 16} {rank : Fin 8} {s : State} (h : s.Keeps Q) :
    OKeeps Q (execSparingStart n rank s) := by
  unfold execSparingStart
  repeat' first
    | with_reducible apply okeeps_next | with_reducible exact okeeps_fault | with_reducible apply okeeps_ite
    | with_reducible assumption | with_reducible apply State.startSparing_keeps | with_reducible apply keeps_ite | split
    | dsimp -zeta only

theorem State.spareAdvance_keeps {Q : List Instr} {s : State} {n : Nat} (h : s.Keeps Q) :
    (State.spareAdvance s n).Keeps Q := by
  unfold State.spareAdvance
  repeat' first
    | with_reducible assumption | with_reducible apply State.setPier_keeps | with_reducible apply State.put_keeps
    | with_reducible apply State.raise_keeps | with_reducible apply keeps_ite
    | (extract_lets +onlyGivenNames x; (have : True := by clear_value x; clear * - x; exact is_state (by assumption)); clear this; refine (fun hx => ?_ : State.Keeps Q x → _) ?_ <;> [clear_value x; (dsimp -zeta only [x]; clear x)])
    | (extract_lets +onlyGivenNames x; clear_value x) | fail_if_no_progress with_reducible rw [keeps_mk] | split
    | dsimp -zeta only

theorem State.toSpare_keeps {Q : List Instr} {s : State} {n : Nat} {da : Nat} {copy : Nat} {l : Line} (h : s.Keeps Q) :
    (State.toSpare s n da copy l).Keeps Q := by
  unfold State.toSpare
  repeat' first
    | with_reducible assumption | with_reducible apply State.put_keeps | with_reducible apply State.jobClear_keeps
    | with_reducible apply State.bus_keeps | with_reducible apply State.spareAdvance_keeps | with_reducible apply keeps_ite
    | (extract_lets +onlyGivenNames x; (have : True := by clear_value x; clear * - x; exact is_state (by assumption)); clear this; refine (fun hx => ?_ : State.Keeps Q x → _) ?_ <;> [clear_value x; (dsimp -zeta only [x]; clear x)])
    | (extract_lets +onlyGivenNames x; clear_value x) | fail_if_no_progress with_reducible rw [keeps_mk]
    | with_reducible exact keeps_media ‹_› (SMap.sorted_put _ _ _ (State.Keeps.media_sorted ‹_›))
    | with_reducible exact keeps_media ‹_› (SMap.sorted_drop' _ _ (State.Keeps.media_sorted ‹_›)) | split
    | dsimp -zeta only

theorem State.copyReady_keeps {Q : List Instr} {s : State} {da : Nat} (h : s.Keeps Q) :
    PKeeps Q (State.copyReady s da) := by
  unfold State.copyReady
  repeat' first
    | with_reducible assumption | with_reducible apply State.drainOne_keeps | with_reducible apply State.jobRecall_keeps
    | (with_reducible apply keeps_fst; with_reducible apply State.jobRecall_keeps) | with_reducible apply keeps_ite
    | with_reducible exact keeps_fst (by with_reducible assumption) | with_reducible apply pkeeps_ite
    | with_reducible exact pkeeps_eq (by assumption) (by assumption) | with_reducible refine pkeeps_eq (by assumption) ?_
    | with_reducible exact keeps_of_p (by with_reducible assumption)
    | (extract_lets +onlyGivenNames x; (have : True := by clear_value x; clear * - x; exact is_state (by assumption)); clear this; refine (fun hx => ?_ : State.Keeps Q x → _) ?_ <;> [clear_value x; (dsimp -zeta only [x]; clear x)])
    | (extract_lets +onlyGivenNames x; (have : True := by clear_value x; clear * - x; exact is_pair (by assumption)); clear this; refine (fun hx => ?_ : PKeeps Q x → _) ?_ <;> [clear_value x; (dsimp -zeta only [x]; clear x)])
    | (extract_lets +onlyGivenNames x; clear_value x) | fail_if_no_progress with_reducible rw [keeps_mk] | split
    | dsimp -zeta only | with_reducible apply pkeeps_mk

theorem State.copyLine_keeps {Q : List Instr} {s : State} {n : Nat} {da : Nat} {copy : Nat} {b : Bursts} (h : s.Keeps Q) :
    (State.copyLine s n da copy b).Keeps Q := by
  unfold State.copyLine
  repeat' first
    | with_reducible assumption | with_reducible apply State.copyReady_keeps | with_reducible apply State.readLine_keeps
    | with_reducible apply State.toSpare_keeps
    | (with_reducible apply keeps_fst; with_reducible apply State.copyReady_keeps)
    | (with_reducible apply keeps_fst; with_reducible apply State.readLine_keeps) | with_reducible apply keeps_ite
    | with_reducible exact keeps_fst (by with_reducible assumption) | with_reducible apply pkeeps_ite
    | with_reducible exact pkeeps_eq (by assumption) (by assumption) | with_reducible refine pkeeps_eq (by assumption) ?_
    | with_reducible exact keeps_of_p (by with_reducible assumption)
    | (extract_lets +onlyGivenNames x; (have : True := by clear_value x; clear * - x; exact is_state (by assumption)); clear this; refine (fun hx => ?_ : State.Keeps Q x → _) ?_ <;> [clear_value x; (dsimp -zeta only [x]; clear x)])
    | (extract_lets +onlyGivenNames x; (have : True := by clear_value x; clear * - x; exact is_pair (by assumption)); clear this; refine (fun hx => ?_ : PKeeps Q x → _) ?_ <;> [clear_value x; (dsimp -zeta only [x]; clear x)])
    | (extract_lets +onlyGivenNames x; clear_value x) | fail_if_no_progress with_reducible rw [keeps_mk] | split
    | dsimp -zeta only | with_reducible apply pkeeps_mk

theorem execSpareCopyStep_keeps {Q : List Instr} {n : Fin 16} {b : Bursts} {s : State} (h : s.Keeps Q) :
    OKeeps Q (execSpareCopyStep n b s) := by
  unfold execSpareCopyStep
  repeat' first
    | with_reducible apply okeeps_next | with_reducible exact okeeps_fault | with_reducible apply okeeps_ite
    | with_reducible assumption | with_reducible apply State.spareAdvance_keeps | with_reducible apply State.copyLine_keeps
    | with_reducible apply keeps_ite
    | (extract_lets +onlyGivenNames x; (have : True := by clear_value x; clear * - x; exact is_state (by assumption)); clear this; refine (fun hx => ?_ : State.Keeps Q x → _) ?_ <;> [clear_value x; (dsimp -zeta only [x]; clear x)])
    | (extract_lets +onlyGivenNames x; clear_value x) | fail_if_no_progress with_reducible rw [keeps_mk] | split
    | dsimp -zeta only

theorem State.retireUncopied_keeps {Q : List Instr} {s : State} {n : Nat} (h : s.Keeps Q) :
    (State.retireUncopied s n).Keeps Q := by
  unfold State.retireUncopied
  repeat' first
    | with_reducible assumption | with_reducible apply State.setPier_keeps | with_reducible apply State.put_keeps
    | with_reducible apply keeps_ite
    | (extract_lets +onlyGivenNames x; (have : True := by clear_value x; clear * - x; exact is_state (by assumption)); clear this; refine (fun hx => ?_ : State.Keeps Q x → _) ?_ <;> [clear_value x; (dsimp -zeta only [x]; clear x)])
    | (extract_lets +onlyGivenNames x; clear_value x) | fail_if_no_progress with_reducible rw [keeps_mk] | split
    | dsimp -zeta only

theorem execRetireUncopied_keeps {Q : List Instr} {n : Fin 16} {s : State} (h : s.Keeps Q) :
    OKeeps Q (execRetireUncopied n s) := by
  unfold execRetireUncopied
  repeat' first
    | with_reducible apply okeeps_next | with_reducible exact okeeps_fault | with_reducible apply okeeps_ite
    | with_reducible assumption | with_reducible refine State.atPage_keeps (fun _ _ => ?_) ?_
    | with_reducible apply State.retireUncopied_keeps | with_reducible apply keeps_ite | split | dsimp -zeta only

theorem State.rebuildLine_keeps {Q : List Instr} {s : State} {n : Nat} {da : Nat} {copy : Nat} {b : Bursts} (h : s.Keeps Q) :
    (State.rebuildLine s n da copy b).Keeps Q := by
  unfold State.rebuildLine
  repeat' first
    | with_reducible assumption | with_reducible apply State.copyReady_keeps | with_reducible apply State.recompLine_keeps
    | with_reducible apply State.toSpare_keeps
    | (with_reducible apply keeps_fst; with_reducible apply State.copyReady_keeps)
    | (with_reducible apply keeps_fst; with_reducible apply State.recompLine_keeps) | with_reducible apply keeps_ite
    | with_reducible exact keeps_fst (by with_reducible assumption) | with_reducible apply pkeeps_ite
    | with_reducible exact pkeeps_eq (by assumption) (by assumption) | with_reducible refine pkeeps_eq (by assumption) ?_
    | with_reducible exact keeps_of_p (by with_reducible assumption)
    | (extract_lets +onlyGivenNames x; (have : True := by clear_value x; clear * - x; exact is_state (by assumption)); clear this; refine (fun hx => ?_ : State.Keeps Q x → _) ?_ <;> [clear_value x; (dsimp -zeta only [x]; clear x)])
    | (extract_lets +onlyGivenNames x; (have : True := by clear_value x; clear * - x; exact is_pair (by assumption)); clear this; refine (fun hx => ?_ : PKeeps Q x → _) ?_ <;> [clear_value x; (dsimp -zeta only [x]; clear x)])
    | (extract_lets +onlyGivenNames x; clear_value x) | fail_if_no_progress with_reducible rw [keeps_mk] | split
    | dsimp -zeta only | with_reducible apply pkeeps_mk

theorem execSpareRebuildStep_keeps {Q : List Instr} {n : Fin 16} {b : Bursts} {s : State} (h : s.Keeps Q) :
    OKeeps Q (execSpareRebuildStep n b s) := by
  unfold execSpareRebuildStep
  repeat' first
    | with_reducible apply okeeps_next | with_reducible exact okeeps_fault | with_reducible apply okeeps_ite
    | with_reducible assumption | with_reducible apply State.spareAdvance_keeps
    | with_reducible apply State.rebuildLine_keeps | with_reducible apply keeps_ite
    | (extract_lets +onlyGivenNames x; (have : True := by clear_value x; clear * - x; exact is_state (by assumption)); clear this; refine (fun hx => ?_ : State.Keeps Q x → _) ?_ <;> [clear_value x; (dsimp -zeta only [x]; clear x)])
    | (extract_lets +onlyGivenNames x; clear_value x) | fail_if_no_progress with_reducible rw [keeps_mk] | split
    | dsimp -zeta only

theorem execAdaptNsExpiry_keeps {Q : List Instr} {n : Fin 16} {bank : Fin 512} {s : State} (h : s.Keeps Q) :
    OKeeps Q (execAdaptNsExpiry n bank s) := by
  unfold execAdaptNsExpiry
  repeat' first
    | with_reducible apply okeeps_next | with_reducible exact okeeps_fault | with_reducible apply okeeps_ite
    | with_reducible assumption | with_reducible apply State.setPier_keeps | with_reducible apply keeps_ite
    | (extract_lets +onlyGivenNames x; (have : True := by clear_value x; clear * - x; exact is_state (by assumption)); clear this; refine (fun hx => ?_ : State.Keeps Q x → _) ?_ <;> [clear_value x; (dsimp -zeta only [x]; clear x)])
    | (extract_lets +onlyGivenNames x; clear_value x) | fail_if_no_progress with_reducible rw [keeps_mk] | split
    | dsimp -zeta only

end Sys2Proof.Machine
end

