-- ==== Sys2Proof/Laws/KeepsTier.lean ====
section
/-!
SUPPORT. The meanings and operations of Machine/Tier.lean keep a sound state and its queue.
-/
set_option linter.unusedTactic false
set_option linter.unusedSimpArgs false
set_option linter.unusedVariables false
set_option linter.unreachableTactic false

namespace Sys2Proof.Machine

theorem State.setHeat_keeps {Q : List Instr} {s : State} {key : Nat} {hv : Nat} (h : s.Keeps Q) :
    (State.setHeat s key hv).Keeps Q := by
  unfold State.setHeat
  repeat' first
    | with_reducible assumption | with_reducible apply State.put_keeps | with_reducible apply keeps_ite
    | (extract_lets +onlyGivenNames x; (have : True := by clear_value x; clear * - x; exact is_state (by assumption)); clear this; refine (fun hx => ?_ : State.Keeps Q x → _) ?_ <;> [clear_value x; (dsimp -zeta only [x]; clear x)])
    | (extract_lets +onlyGivenNames x; clear_value x) | fail_if_no_progress with_reducible rw [keeps_mk] | split
    | dsimp -zeta only

theorem State.foldHeat_keeps {Q : List Instr} {s : State} {n : Nat} (h : s.Keeps Q) :
    (State.foldHeat s n).Keeps Q := by
  unfold State.foldHeat
  repeat' first
    | with_reducible assumption | with_reducible apply State.setHeat_keeps | with_reducible apply State.put_keeps
    | with_reducible apply keeps_ite | with_reducible refine keeps_foldl (fun _ _ _ => ?_) ?_
    | with_reducible refine nkeeps_foldl (fun _ _ _ => ?_) ?_ | with_reducible refine npkeeps_foldl (fun _ _ _ => ?_) ?_
    | (extract_lets +onlyGivenNames x; (have : True := by clear_value x; clear * - x; exact is_state (by assumption)); clear this; refine (fun hx => ?_ : State.Keeps Q x → _) ?_ <;> [clear_value x; (dsimp -zeta only [x]; clear x)])
    | (extract_lets +onlyGivenNames x; clear_value x) | split | dsimp -zeta only

theorem execHeatUpdate_keeps {Q : List Instr} {s : State} (h : s.Keeps Q) :
    OKeeps Q (execHeatUpdate s) := by
  unfold execHeatUpdate
  repeat' first
    | with_reducible apply okeeps_next | with_reducible exact okeeps_fault | with_reducible apply okeeps_ite
    | with_reducible assumption | with_reducible apply State.foldHeat_keeps | with_reducible apply keeps_ite
    | with_reducible refine keeps_foldl (fun _ _ _ => ?_) ?_ | with_reducible refine nkeeps_foldl (fun _ _ _ => ?_) ?_
    | with_reducible refine npkeeps_foldl (fun _ _ _ => ?_) ?_ | fail_if_no_progress with_reducible rw [keeps_mk] | split
    | dsimp -zeta only

theorem execHeatDecay_keeps {Q : List Instr} {s : State} (h : s.Keeps Q) :
    OKeeps Q (execHeatDecay s) := by
  unfold execHeatDecay
  repeat' first
    | with_reducible apply okeeps_next | with_reducible exact okeeps_fault | with_reducible apply okeeps_ite
    | with_reducible assumption | with_reducible apply State.setHeat_keeps | with_reducible apply keeps_ite
    | with_reducible refine keeps_foldl (fun _ _ _ => ?_) ?_ | with_reducible refine nkeeps_foldl (fun _ _ _ => ?_) ?_
    | with_reducible refine npkeeps_foldl (fun _ _ _ => ?_) ?_ | fail_if_no_progress with_reducible rw [keeps_mk] | split
    | dsimp -zeta only

theorem State.dcNotice_keeps {Q : List Instr} {s : State} {e : Extent} {sub : Nat} (h : s.Keeps Q) :
    (State.dcNotice s e sub).Keeps Q := by
  unfold State.dcNotice
  repeat' first
    | with_reducible assumption | with_reducible apply State.raise_keeps | with_reducible apply State.setLdev_keeps
    | with_reducible apply State.emit_keeps | with_reducible apply keeps_ite
    | (extract_lets +onlyGivenNames x; (have : True := by clear_value x; clear * - x; exact is_state (by assumption)); clear this; refine (fun hx => ?_ : State.Keeps Q x → _) ?_ <;> [clear_value x; (dsimp -zeta only [x]; clear x)])
    | (extract_lets +onlyGivenNames x; clear_value x) | fail_if_no_progress with_reducible rw [keeps_mk] | split
    | dsimp -zeta only

theorem State.expireAsks_keeps {Q : List Instr} {s : State} (h : s.Keeps Q) :
    (State.expireAsks s).Keeps Q := by
  unfold State.expireAsks
  repeat' first
    | with_reducible assumption | with_reducible apply keeps_ite | fail_if_no_progress with_reducible rw [keeps_mk] | split
    | dsimp -zeta only

theorem State.askReleases_keeps {Q : List Instr} {n : Nat} : ∀ {s : State}, s.Keeps Q → (State.askReleases n s).Keeps Q := by
  induction n with
  | zero => intro s h; exact h
  | succ n ih =>
    intro s h
    unfold State.askReleases
    extract_lets cand
    split
    · exact h
    · exact ih (State.dcNotice_keeps (keeps_of (s := s) rfl rfl rfl rfl rfl rfl h))

theorem State.ladderEval_keeps {Q : List Instr} {s : State} (h : s.Keeps Q) :
    (State.ladderEval s).Keeps Q := by
  unfold State.ladderEval
  repeat' first
    | with_reducible assumption | with_reducible apply State.raise_keeps | with_reducible apply State.expireAsks_keeps
    | with_reducible apply State.askReleases_keeps | with_reducible apply keeps_ite
    | with_reducible refine keeps_foldl (fun _ _ _ => ?_) ?_ | with_reducible refine nkeeps_foldl (fun _ _ _ => ?_) ?_
    | with_reducible refine npkeeps_foldl (fun _ _ _ => ?_) ?_
    | (extract_lets +onlyGivenNames x; (have : True := by clear_value x; clear * - x; exact is_state (by assumption)); clear this; refine (fun hx => ?_ : State.Keeps Q x → _) ?_ <;> [clear_value x; (dsimp -zeta only [x]; clear x)])
    | (extract_lets +onlyGivenNames x; clear_value x) | fail_if_no_progress with_reducible rw [keeps_mk] | split
    | dsimp -zeta only

theorem execPressureLadder_keeps {Q : List Instr} {s : State} (h : s.Keeps Q) :
    OKeeps Q (execPressureLadder s) := by
  unfold execPressureLadder
  repeat' first
    | with_reducible apply okeeps_next | with_reducible exact okeeps_fault | with_reducible apply okeeps_ite
    | with_reducible assumption | with_reducible apply State.ladderEval_keeps | with_reducible apply keeps_ite | split
    | dsimp -zeta only

theorem State.ladderCross_keeps {Q : List Instr} {s : State} (h : s.Keeps Q) :
    (State.ladderCross s).Keeps Q := by
  unfold State.ladderCross
  repeat' first
    | with_reducible assumption | with_reducible apply State.ladderEval_keeps | with_reducible apply keeps_ite | split
    | dsimp -zeta only

theorem State.ownFrame_keeps {Q : List Instr} {s : State} {t : Nat} {f : Nat} (h : s.Keeps Q) :
    (State.ownFrame s t f).Keeps Q := by
  unfold State.ownFrame
  repeat' first
    | with_reducible assumption | with_reducible apply State.put_keeps | with_reducible apply keeps_ite
    | fail_if_no_progress with_reducible rw [keeps_mk] | split | dsimp -zeta only

theorem State.claim_keeps {Q : List Instr} {s : State} {t : Nat} {pl : Place} (h : s.Keeps Q) :
    (State.claim s t pl).Keeps Q := by
  unfold State.claim
  repeat' first
    | with_reducible assumption | with_reducible apply State.ownFrame_keeps | with_reducible apply State.put_keeps
    | with_reducible apply State.descWrite_keeps | with_reducible apply keeps_ite
    | (extract_lets +onlyGivenNames x; (have : True := by clear_value x; clear * - x; exact is_state (by assumption)); clear this; refine (fun hx => ?_ : State.Keeps Q x → _) ?_ <;> [clear_value x; (dsimp -zeta only [x]; clear x)])
    | (extract_lets +onlyGivenNames x; clear_value x) | fail_if_no_progress with_reducible rw [keeps_mk] | split
    | dsimp -zeta only

theorem State.unclaim_keeps {Q : List Instr} {s : State} {t : Nat} {pl : Place} (h : s.Keeps Q) :
    (State.unclaim s t pl).Keeps Q := by
  unfold State.unclaim
  repeat' first
    | with_reducible assumption | with_reducible apply State.freePair_keeps | with_reducible apply State.freeDesc_keeps
    | with_reducible apply keeps_ite | fail_if_no_progress with_reducible rw [keeps_mk] | split | dsimp -zeta only

theorem State.writeFrame_keeps {Q : List Instr} {t tier : Nat} {l : List (BitVec 512 × Bool)} :
    ∀ {s : State} {da : Nat}, s.Keeps Q → NKeeps Q (State.writeFrame s t tier da l) := by
  induction l with
  | nil => intro s da h; exact nkeeps_some h
  | cons a l ih =>
    intro s da h
    obtain ⟨d, p⟩ := a
    unfold State.writeFrame
    split
    · rename_i e
      exact ih (pkeeps_eq e (State.writePlain_keeps h))
    · exact nkeeps_none

theorem State.zeroFill_keeps {Q : List Instr} {s : State} {t : Nat} {pl : Place} (h : s.Keeps Q) :
    NKeeps Q (State.zeroFill s t pl) := by
  unfold State.zeroFill
  repeat' first
    | with_reducible assumption | with_reducible apply State.writeFrame_keeps | with_reducible apply keeps_ite
    | with_reducible exact nkeeps_none | with_reducible apply nkeeps_some | with_reducible apply nkeeps_ite
    | with_reducible refine nkeeps_eq (by assumption) ?_ | with_reducible exact keeps_of_n (by with_reducible assumption)
    | fail_if_no_progress with_reducible rw [keeps_mk] | split | dsimp -zeta only

theorem State.moveCharge_keeps {Q : List Instr} {s : State} {bytes : Nat} (h : s.Keeps Q) :
    (State.moveCharge s bytes).Keeps Q := by
  unfold State.moveCharge
  repeat' first
    | with_reducible assumption | with_reducible apply keeps_ite | fail_if_no_progress with_reducible rw [keeps_mk] | split
    | dsimp -zeta only

theorem State.placePage_keeps {Q : List Instr} {s : State} {t : Nat} {page : Nat} {da : Nat} {e : Nat} {pl : Place} (h : s.Keeps Q) :
    (State.placePage s t page da e pl).Keeps Q := by
  unfold State.placePage
  repeat' first
    | with_reducible assumption | with_reducible apply State.claim_keeps | with_reducible apply State.zeroFill_keeps
    | with_reducible apply State.moveCharge_keeps | with_reducible apply State.casEntry_keeps
    | with_reducible apply State.invalidate_keeps | with_reducible apply State.ladderCross_keeps
    | with_reducible apply State.unclaim_keeps
    | (with_reducible apply keeps_fst; with_reducible apply State.casEntry_keeps) | with_reducible apply keeps_ite
    | with_reducible exact keeps_fst (by with_reducible assumption) | with_reducible apply pkeeps_ite
    | with_reducible exact pkeeps_eq (by assumption) (by assumption) | with_reducible refine pkeeps_eq (by assumption) ?_
    | with_reducible exact nkeeps_none | with_reducible apply nkeeps_some | with_reducible apply nkeeps_ite
    | with_reducible refine nkeeps_eq (by assumption) ?_ | with_reducible exact keeps_of_p (by with_reducible assumption)
    | with_reducible exact keeps_of_n (by with_reducible assumption) | fail_if_no_progress with_reducible rw [keeps_mk]
    | split | dsimp -zeta only | with_reducible apply pkeeps_mk

theorem State.dropHeld_keeps {Q : List Instr} {s : State} {t : Nat} {page : Nat} (h : s.Keeps Q) :
    (State.dropHeld s t page).Keeps Q := by
  unfold State.dropHeld
  repeat' first
    | with_reducible assumption | with_reducible apply State.complete_keeps | with_reducible apply keeps_ite
    | with_reducible refine keeps_foldl (fun _ _ _ => ?_) ?_ | with_reducible refine nkeeps_foldl (fun _ _ _ => ?_) ?_
    | with_reducible refine npkeeps_foldl (fun _ _ _ => ?_) ?_ | split | dsimp -zeta only

theorem execPageAllocate_keeps {Q : List Instr} {id : BitVec 32} {place : Place} {s : State} (h : s.Keeps Q) :
    OKeeps Q (execPageAllocate id place s) := by
  unfold execPageAllocate
  repeat' first
    | with_reducible apply okeeps_next | with_reducible exact okeeps_fault | with_reducible apply okeeps_ite
    | with_reducible assumption | with_reducible apply State.invalidate_keeps | with_reducible apply State.settle_keeps
    | with_reducible apply State.place_keeps | with_reducible apply State.placePage_keeps
    | with_reducible apply State.dropHeld_keeps | with_reducible apply State.exhaustPage_keeps
    | (with_reducible apply keeps_fst; with_reducible apply State.place_keeps) | with_reducible apply keeps_ite
    | with_reducible exact keeps_fst (by with_reducible assumption) | with_reducible apply pkeeps_ite
    | with_reducible exact pkeeps_eq (by assumption) (by assumption) | with_reducible refine pkeeps_eq (by assumption) ?_
    | with_reducible exact keeps_of_p (by with_reducible assumption)
    | (extract_lets +onlyGivenNames x; (have : True := by clear_value x; clear * - x; exact is_state (by assumption)); clear this; refine (fun hx => ?_ : State.Keeps Q x → _) ?_ <;> [clear_value x; (dsimp -zeta only [x]; clear x)])
    | (extract_lets +onlyGivenNames x; (have : True := by clear_value x; clear * - x; exact is_pair (by assumption)); clear this; refine (fun hx => ?_ : PKeeps Q x → _) ?_ <;> [clear_value x; (dsimp -zeta only [x]; clear x)])
    | (extract_lets +onlyGivenNames x; clear_value x) | fail_if_no_progress with_reducible rw [keeps_mk] | split
    | dsimp -zeta only | with_reducible apply pkeeps_mk

theorem State.clearMove_keeps {Q : List Instr} {s : State} {t : Nat} {page : Nat} (h : s.Keeps Q) :
    (State.clearMove s t page).Keeps Q := by
  unfold State.clearMove
  repeat' first
    | with_reducible assumption | with_reducible apply keeps_ite | fail_if_no_progress with_reducible rw [keeps_mk] | split
    | dsimp -zeta only

theorem State.setMove_keeps {Q : List Instr} {s : State} {m : MoveLog} (h : s.Keeps Q) :
    (State.setMove s m).Keeps Q := by
  unfold State.setMove
  repeat' first
    | with_reducible assumption | with_reducible apply keeps_ite | fail_if_no_progress with_reducible rw [keeps_mk] | split
    | dsimp -zeta only

theorem State.abandon_keeps {Q : List Instr} {s : State} {t : Nat} {page : Nat} (h : s.Keeps Q) :
    (State.abandon s t page).Keeps Q := by
  unfold State.abandon
  repeat' first
    | with_reducible assumption | with_reducible apply State.clearMove_keeps | with_reducible apply State.raise_keeps
    | with_reducible apply keeps_ite | split | dsimp -zeta only

theorem execMoveStart_keeps {Q : List Instr} {eng : Fin 64} {vi : BitVec 16} {page : BitVec 45} {dest : Place} {s : State} (h : s.Keeps Q) :
    OKeeps Q (execMoveStart eng vi page dest s) := by
  unfold execMoveStart
  repeat' first
    | with_reducible apply okeeps_next | with_reducible exact okeeps_fault | with_reducible apply okeeps_ite
    | with_reducible assumption | with_reducible apply State.casEntry_keeps | with_reducible apply State.claim_keeps
    | with_reducible apply State.moveCharge_keeps | with_reducible apply State.invalidate_keeps
    | with_reducible apply State.abandon_keeps
    | (with_reducible apply keeps_fst; with_reducible apply State.casEntry_keeps) | with_reducible apply keeps_ite
    | with_reducible exact keeps_fst (by with_reducible assumption) | with_reducible apply pkeeps_ite
    | with_reducible exact pkeeps_eq (by assumption) (by assumption) | with_reducible refine pkeeps_eq (by assumption) ?_
    | with_reducible exact keeps_of_p (by with_reducible assumption)
    | (extract_lets +onlyGivenNames x; (have : True := by clear_value x; clear * - x; exact is_state (by assumption)); clear this; refine (fun hx => ?_ : State.Keeps Q x → _) ?_ <;> [clear_value x; (dsimp -zeta only [x]; clear x)])
    | (extract_lets +onlyGivenNames x; (have : True := by clear_value x; clear * - x; exact is_pair (by assumption)); clear this; refine (fun hx => ?_ : PKeeps Q x → _) ?_ <;> [clear_value x; (dsimp -zeta only [x]; clear x)])
    | (extract_lets +onlyGivenNames x; clear_value x) | fail_if_no_progress with_reducible rw [keeps_mk] | split
    | dsimp -zeta only | with_reducible apply pkeeps_mk

theorem State.recallPage_keeps {Q : List Instr} {s : State} {t : Nat} {e : Nat} {page : Nat} (h : s.Keeps Q) :
    PKeeps Q (State.recallPage s t e page) := by
  unfold State.recallPage
  repeat' first
    | with_reducible assumption | with_reducible apply State.recall_keeps
    | (with_reducible apply keeps_fst; with_reducible apply State.recall_keeps) | with_reducible apply keeps_ite
    | with_reducible exact keeps_fst (by with_reducible assumption) | with_reducible apply pkeeps_ite
    | with_reducible exact pkeeps_eq (by assumption) (by assumption) | with_reducible refine pkeeps_eq (by assumption) ?_
    | with_reducible refine keeps_foldl (fun _ _ _ => ?_) ?_ | with_reducible refine pkeeps_foldl (fun _ _ _ => ?_) ?_
    | with_reducible refine nkeeps_foldl (fun _ _ _ => ?_) ?_ | with_reducible refine npkeeps_foldl (fun _ _ _ => ?_) ?_
    | with_reducible exact keeps_of_p (by with_reducible assumption) | fail_if_no_progress with_reducible rw [keeps_mk]
    | split | dsimp -zeta only | with_reducible apply pkeeps_mk

theorem State.readFrame_keeps {Q : List Instr} {t : Nat} {mgr : Bool} {l : List Nat} :
    ∀ {s : State} {bs : List Bursts}, s.Keeps Q → PKeeps Q (State.readFrame s t mgr l bs) := by
  induction l with
  | nil => intro s bs h; exact h
  | cons a l ih =>
    intro s bs h
    have h1 := State.readPlain_keeps (da := a) (seed := t) (b := bs.headD {}) (req := none) (f := if mgr then some (s.mgrFlt a) else none) h
    have h2 := ih (bs := bs.tail) (keeps_fst h1)
    unfold State.readFrame
    split
    · exact h
    · split
      · exact h
      · rename_i e1 _ _ _ e2
        rw [e1] at h2
        exact pkeeps_eq e2 h2

theorem State.readT2Page_keeps {Q : List Instr} {s : State} {t : Nat} {x : Nat} {bs : List Bursts} (h : s.Keeps Q) :
    PKeeps Q (State.readT2Page s t x bs) := by
  unfold State.readT2Page
  repeat' first
    | with_reducible assumption | with_reducible apply State.raise_keeps | with_reducible apply State.descRead_keeps
    | with_reducible apply State.readPage_keeps
    | (with_reducible apply keeps_fst; with_reducible apply State.descRead_keeps)
    | (with_reducible apply keeps_fst; with_reducible apply State.readPage_keeps) | with_reducible apply keeps_ite
    | with_reducible exact keeps_fst (by with_reducible assumption) | with_reducible apply pkeeps_ite
    | with_reducible exact pkeeps_eq (by assumption) (by assumption) | with_reducible refine pkeeps_eq (by assumption) ?_
    | with_reducible exact keeps_of_p (by with_reducible assumption)
    | (extract_lets +onlyGivenNames x; (have : True := by clear_value x; clear * - x; exact is_state (by assumption)); clear this; refine (fun hx => ?_ : State.Keeps Q x → _) ?_ <;> [clear_value x; (dsimp -zeta only [x]; clear x)])
    | (extract_lets +onlyGivenNames x; (have : True := by clear_value x; clear * - x; exact is_pair (by assumption)); clear this; refine (fun hx => ?_ : PKeeps Q x → _) ?_ <;> [clear_value x; (dsimp -zeta only [x]; clear x)])
    | (extract_lets +onlyGivenNames x; (have : True := by clear_value x; clear * - x; exact is_fun (by assumption)); clear this; dsimp -zeta only [x]; clear x)
    | (extract_lets +onlyGivenNames x; clear_value x) | fail_if_no_progress with_reducible rw [keeps_mk] | split
    | dsimp -zeta only | with_reducible apply pkeeps_mk

theorem State.readPageAt_keeps {Q : List Instr} {s : State} {t : Nat} {e : Nat} {page : Nat} {bs : List Bursts} (h : s.Keeps Q) :
    PKeeps Q (State.readPageAt s t e page bs) := by
  unfold State.readPageAt
  repeat' first
    | with_reducible assumption | with_reducible apply State.readT2Page_keeps | with_reducible apply State.readFrame_keeps
    | (with_reducible apply keeps_fst; with_reducible apply State.readT2Page_keeps)
    | (with_reducible apply keeps_fst; with_reducible apply State.readFrame_keeps) | with_reducible apply keeps_ite
    | with_reducible exact keeps_fst (by with_reducible assumption) | with_reducible apply pkeeps_ite
    | with_reducible exact pkeeps_eq (by assumption) (by assumption) | with_reducible refine pkeeps_eq (by assumption) ?_
    | with_reducible exact keeps_of_p (by with_reducible assumption) | split | dsimp -zeta only
    | with_reducible apply pkeeps_mk

theorem State.fillDesc_keeps {Q : List Instr} {t x : Nat} {l : List (Nat × List (BitVec 512 × Bool))} :
    ∀ {s : State} {st : List (List Nat)} {rs : List SbRec}, s.Keeps Q → NPKeeps Q (State.fillDesc s t x l st rs) := by
  induction l with
  | nil => intro s st rs h; exact npkeeps_some h
  | cons a l ih =>
    intro s st rs h
    obtain ⟨sb, ls⟩ := a
    unfold State.fillDesc
    extract_lets n
    refine npkeeps_ite npkeeps_none ?_
    split
    rename_i e
    have h1 : State.Keeps Q _ := pkeeps_eq e (State.storeForm_keeps h)
    split
    · exact ih h1
    · split
      · exact npkeeps_none
      · rename_i e2
        exact ih (pkeeps_eq e2 (State.place_keeps h1))

theorem State.writePlace_keeps {Q : List Instr} {s : State} {t : Nat} {pl : Place} {ls : List (BitVec 512 × Bool)} {streams : List (List Nat)} (h : s.Keeps Q) :
    NKeeps Q (State.writePlace s t pl ls streams) := by
  unfold State.writePlace
  repeat' first
    | with_reducible assumption | with_reducible apply State.writeFrame_keeps | with_reducible apply State.fillDesc_keeps
    | with_reducible apply State.descWrite_keeps | with_reducible apply keeps_ite
    | with_reducible exact keeps_fst (by with_reducible assumption) | with_reducible apply pkeeps_ite
    | with_reducible exact pkeeps_eq (by assumption) (by assumption) | with_reducible refine pkeeps_eq (by assumption) ?_
    | with_reducible exact nkeeps_none | with_reducible apply nkeeps_some | with_reducible apply nkeeps_ite
    | with_reducible refine nkeeps_eq (by assumption) ?_ | with_reducible exact npkeeps_none
    | with_reducible apply npkeeps_some | with_reducible apply npkeeps_ite
    | with_reducible refine npkeeps_eq (by assumption) ?_ | with_reducible refine npkeeps_var (by assumption) ?_
    | with_reducible exact keeps_of_p (by with_reducible assumption)
    | with_reducible exact keeps_of_n (by with_reducible assumption)
    | with_reducible exact keeps_of_np (by with_reducible assumption) | with_reducible refine nkeeps_map (fun _ _ => ?_) ?_
    | with_reducible refine npkeeps_map (fun _ _ => ?_) ?_ | with_reducible refine nkeeps_map_pair (fun _ _ => ?_) ?_
    | fail_if_no_progress with_reducible rw [keeps_mk] | split | dsimp -zeta only | with_reducible apply pkeeps_mk

theorem State.nameDest_keeps {Q : List Instr} {s : State} {m : MoveLog} (h : s.Keeps Q) :
    (State.nameDest s m).Keeps Q := by
  unfold State.nameDest
  repeat' first
    | with_reducible assumption | with_reducible apply State.unclaim_keeps | with_reducible apply State.abandon_keeps
    | with_reducible apply State.casEntry_keeps | with_reducible apply State.put_keeps
    | with_reducible apply State.setMove_keeps | with_reducible apply State.invalidate_keeps
    | (with_reducible apply keeps_fst; with_reducible apply State.casEntry_keeps) | with_reducible apply keeps_ite
    | with_reducible exact keeps_fst (by with_reducible assumption) | with_reducible apply pkeeps_ite
    | with_reducible exact pkeeps_eq (by assumption) (by assumption) | with_reducible refine pkeeps_eq (by assumption) ?_
    | with_reducible exact keeps_of_p (by with_reducible assumption)
    | (extract_lets +onlyGivenNames x; (have : True := by clear_value x; clear * - x; exact is_state (by assumption)); clear this; refine (fun hx => ?_ : State.Keeps Q x → _) ?_ <;> [clear_value x; (dsimp -zeta only [x]; clear x)])
    | (extract_lets +onlyGivenNames x; (have : True := by clear_value x; clear * - x; exact is_pair (by assumption)); clear this; refine (fun hx => ?_ : PKeeps Q x → _) ?_ <;> [clear_value x; (dsimp -zeta only [x]; clear x)])
    | (extract_lets +onlyGivenNames x; clear_value x) | fail_if_no_progress with_reducible rw [keeps_mk] | split
    | dsimp -zeta only | with_reducible apply pkeeps_mk

theorem execMoveCopyDone_keeps {Q : List Instr} {vi : BitVec 16} {page : BitVec 45} {bs : List Bursts} {streams : List (List (BitVec 8))} {s : State} (h : s.Keeps Q) :
    OKeeps Q (execMoveCopyDone vi page bs streams s) := by
  unfold execMoveCopyDone
  repeat' first
    | with_reducible apply okeeps_next | with_reducible exact okeeps_fault | with_reducible apply okeeps_ite
    | with_reducible assumption | with_reducible apply State.nameDest_keeps | with_reducible apply State.release_keeps
    | with_reducible apply State.recallPage_keeps | with_reducible apply State.readPageAt_keeps
    | with_reducible apply State.writePlace_keeps | with_reducible apply State.setMove_keeps
    | (with_reducible apply keeps_fst; with_reducible apply State.recallPage_keeps)
    | (with_reducible apply keeps_fst; with_reducible apply State.readPageAt_keeps) | with_reducible apply keeps_ite
    | with_reducible exact keeps_fst (by with_reducible assumption) | with_reducible apply pkeeps_ite
    | with_reducible exact pkeeps_eq (by assumption) (by assumption) | with_reducible refine pkeeps_eq (by assumption) ?_
    | with_reducible exact nkeeps_none | with_reducible apply nkeeps_some | with_reducible apply nkeeps_ite
    | with_reducible refine nkeeps_eq (by assumption) ?_ | with_reducible exact keeps_of_p (by with_reducible assumption)
    | with_reducible exact keeps_of_n (by with_reducible assumption) | fail_if_no_progress with_reducible rw [keeps_mk]
    | split | dsimp -zeta only | with_reducible apply pkeeps_mk

theorem execMoveFinish_keeps {Q : List Instr} {vi : BitVec 16} {page : BitVec 45} {s : State} (h : s.Keeps Q) :
    OKeeps Q (execMoveFinish vi page s) := by
  unfold execMoveFinish
  repeat' first
    | with_reducible apply okeeps_next | with_reducible exact okeeps_fault | with_reducible apply okeeps_ite
    | with_reducible assumption | with_reducible apply State.freeLeaf_keeps | with_reducible apply State.clearMove_keeps
    | with_reducible apply State.ladderCross_keeps | with_reducible apply keeps_ite
    | fail_if_no_progress with_reducible rw [keeps_mk] | split | dsimp -zeta only

theorem execMoveLogResolve_keeps {Q : List Instr} {vi : BitVec 16} {page : BitVec 45} {s : State} (h : s.Keeps Q) :
    OKeeps Q (execMoveLogResolve vi page s) := by
  unfold execMoveLogResolve
  repeat' first
    | with_reducible apply okeeps_next | with_reducible exact okeeps_fault | with_reducible apply okeeps_ite
    | with_reducible assumption | with_reducible apply State.unclaim_keeps | with_reducible apply State.clearMove_keeps
    | with_reducible apply State.invalidate_keeps | with_reducible apply State.freeLeaf_keeps
    | with_reducible apply State.ladderCross_keeps | with_reducible apply State.casEntry_keeps
    | (with_reducible apply keeps_fst; with_reducible apply State.casEntry_keeps) | with_reducible apply keeps_ite
    | with_reducible exact keeps_fst (by with_reducible assumption) | with_reducible apply pkeeps_ite
    | with_reducible exact pkeeps_eq (by assumption) (by assumption) | with_reducible refine pkeeps_eq (by assumption) ?_
    | with_reducible exact keeps_of_p (by with_reducible assumption)
    | (extract_lets +onlyGivenNames x; (have : True := by clear_value x; clear * - x; exact is_state (by assumption)); clear this; refine (fun hx => ?_ : State.Keeps Q x → _) ?_ <;> [clear_value x; (dsimp -zeta only [x]; clear x)])
    | (extract_lets +onlyGivenNames x; (have : True := by clear_value x; clear * - x; exact is_pair (by assumption)); clear this; refine (fun hx => ?_ : PKeeps Q x → _) ?_ <;> [clear_value x; (dsimp -zeta only [x]; clear x)])
    | (extract_lets +onlyGivenNames x; clear_value x) | fail_if_no_progress with_reducible rw [keeps_mk] | split
    | dsimp -zeta only | with_reducible apply pkeeps_mk

end Sys2Proof.Machine
end

