-- ==== Sys2Proof/Laws/KeepsCommand.lean ====
section
/-!
SUPPORT. The meanings and operations of Machine/Command.lean keep a sound state and its queue.
-/
set_option linter.unusedTactic false
set_option linter.unusedSimpArgs false
set_option linter.unusedVariables false
set_option linter.unreachableTactic false

namespace Sys2Proof.Machine

theorem State.respondCmd_keeps {Q : List Instr} {s : State} {src : CmdSrc} {op : Nat} {rsp : List Nat} (h : s.Keeps Q) :
    (State.respondCmd s src op rsp).Keeps Q := by
  unfold State.respondCmd
  repeat' first
    | with_reducible assumption | with_reducible apply State.put_keeps | with_reducible apply State.emit_keeps
    | with_reducible apply State.setLdev_keeps | with_reducible apply keeps_ite
    | with_reducible exact keeps_fst (by with_reducible assumption) | with_reducible apply pkeeps_ite
    | with_reducible exact pkeeps_eq (by assumption) (by assumption) | with_reducible refine pkeeps_eq (by assumption) ?_
    | with_reducible exact keeps_of_p (by with_reducible assumption)
    | (extract_lets +onlyGivenNames x; (have : True := by clear_value x; clear * - x; exact is_state (by assumption)); clear this; refine (fun hx => ?_ : State.Keeps Q x → _) ?_ <;> [clear_value x; (dsimp -zeta only [x]; clear x)])
    | (extract_lets +onlyGivenNames x; (have : True := by clear_value x; clear * - x; exact is_pair (by assumption)); clear this; refine (fun hx => ?_ : PKeeps Q x → _) ?_ <;> [clear_value x; (dsimp -zeta only [x]; clear x)])
    | (extract_lets +onlyGivenNames x; clear_value x) | fail_if_no_progress with_reducible rw [keeps_mk] | split
    | dsimp -zeta only | with_reducible apply pkeeps_mk

theorem State.vendor_keeps {Q : List Instr} {s : State} {src : CmdSrc} {op : Nat} {req : List Nat}
    {run : State → List Nat → State × Option (List Nat)} (hr : ∀ s l, s.Keeps Q → PKeeps Q (run s l)) (h : s.Keeps Q) :
    (State.vendor s src op req run).Keeps Q := by
  unfold State.vendor
  split
  · exact State.emit_keeps h
  · split
    · exact h
    · split
      · rename_i e
        exact State.respondCmd_keeps (pkeeps_eq e (hr _ _ h))
      · rename_i e
        exact pkeeps_eq e (hr _ _ h)
  · split
    · exact State.emit_keeps h
    · split
      · exact State.emit_keeps h
      · split
        · exact h
        · extract_lets l x
          have hx : State.Keeps Q x := by
            dsimp -zeta only [x]
            split
            · exact State.emit_keeps (State.setLdev_keeps h)
            · exact h
          clear_value x
          split
          · rename_i e
            exact State.respondCmd_keeps (pkeeps_eq e (hr _ _ hx))
          · rename_i e
            exact pkeeps_eq e (hr _ _ hx)

theorem State.keepRunning_keeps {Q : List Instr} {s : State} {key : Nat} {op : Nat} {src : CmdSrc} (h : s.Keeps Q) :
    (State.keepRunning s key op src).Keeps Q := by
  unfold State.keepRunning
  repeat' first
    | with_reducible assumption | with_reducible apply State.put_keeps | with_reducible apply keeps_ite
    | fail_if_no_progress with_reducible rw [keeps_mk] | split | dsimp -zeta only

theorem State.endRunning_keeps {Q : List Instr} {s : State} {key : Nat} {rsp : List Nat} (h : s.Keeps Q) :
    (State.endRunning s key rsp).Keeps Q := by
  unfold State.endRunning
  repeat' first
    | with_reducible assumption | with_reducible apply State.respondCmd_keeps | with_reducible apply keeps_ite
    | fail_if_no_progress with_reducible rw [keeps_mk] | split | dsimp -zeta only

end Sys2Proof.Machine
end

