-- ==== Sys2Proof/Laws/KeepsKeyCmds.lean ====
section
/-!
SUPPORT. The meanings and operations of Machine/KeyCmds.lean keep a sound state and its queue.
-/
set_option linter.unusedTactic false
set_option linter.unusedSimpArgs false
set_option linter.unusedVariables false
set_option linter.unreachableTactic false

namespace Sys2Proof.Machine

theorem State.writeKeyLoad_keeps {Q : List Instr} {s : State} {v : Nat} (h : s.Keeps Q) :
    (State.writeKeyLoad s v).Keeps Q := by
  unfold State.writeKeyLoad
  repeat' first
    | with_reducible assumption | with_reducible apply State.put_keeps | with_reducible apply State.setSlot_keeps
    | with_reducible apply keeps_ite
    | (extract_lets +onlyGivenNames x; (have : True := by clear_value x; clear * - x; exact is_state (by assumption)); clear this; refine (fun hx => ?_ : State.Keeps Q x → _) ?_ <;> [clear_value x; (dsimp -zeta only [x]; clear x)])
    | (extract_lets +onlyGivenNames x; clear_value x) | fail_if_no_progress with_reducible rw [keeps_mk] | split
    | dsimp -zeta only

theorem execHubKeyLoad_keeps {Q : List Instr} {v : BitVec 32} {s : State} (h : s.Keeps Q) :
    OKeeps Q (execHubKeyLoad v s) := by
  unfold execHubKeyLoad
  repeat' first
    | with_reducible apply okeeps_next | with_reducible exact okeeps_fault | with_reducible apply okeeps_ite
    | with_reducible assumption | with_reducible apply State.writeKeyLoad_keeps | with_reducible apply keeps_ite | split
    | dsimp -zeta only

theorem State.writeKeyClear_keeps {Q : List Instr} {s : State} {v : Nat} (h : s.Keeps Q) :
    (State.writeKeyClear s v).Keeps Q := by
  unfold State.writeKeyClear
  repeat' first
    | with_reducible assumption | with_reducible apply State.put_keeps | with_reducible apply State.setSlot_keeps
    | with_reducible apply keeps_ite
    | (extract_lets +onlyGivenNames x; (have : True := by clear_value x; clear * - x; exact is_state (by assumption)); clear this; refine (fun hx => ?_ : State.Keeps Q x → _) ?_ <;> [clear_value x; (dsimp -zeta only [x]; clear x)])
    | (extract_lets +onlyGivenNames x; clear_value x) | split | dsimp -zeta only

theorem execHubKeyClear_keeps {Q : List Instr} {v : BitVec 32} {s : State} (h : s.Keeps Q) :
    OKeeps Q (execHubKeyClear v s) := by
  unfold execHubKeyClear
  repeat' first
    | with_reducible apply okeeps_next | with_reducible exact okeeps_fault | with_reducible apply okeeps_ite
    | with_reducible assumption | with_reducible apply State.writeKeyClear_keeps | with_reducible apply keeps_ite | split
    | dsimp -zeta only

theorem State.writeKmap_keeps {Q : List Instr} {s : State} {v : Nat} (h : s.Keeps Q) :
    (State.writeKmap s v).Keeps Q := by
  unfold State.writeKmap
  repeat' first
    | with_reducible assumption | with_reducible apply State.put_keeps | with_reducible apply keeps_ite
    | (extract_lets +onlyGivenNames x; (have : True := by clear_value x; clear * - x; exact is_state (by assumption)); clear this; refine (fun hx => ?_ : State.Keeps Q x → _) ?_ <;> [clear_value x; (dsimp -zeta only [x]; clear x)])
    | (extract_lets +onlyGivenNames x; clear_value x) | fail_if_no_progress with_reducible rw [keeps_mk] | split
    | dsimp -zeta only

theorem execKmapWrite_keeps {Q : List Instr} {v : BitVec 32} {s : State} (h : s.Keeps Q) :
    OKeeps Q (execKmapWrite v s) := by
  unfold execKmapWrite
  repeat' first
    | with_reducible apply okeeps_next | with_reducible exact okeeps_fault | with_reducible apply okeeps_ite
    | with_reducible assumption | with_reducible apply State.writeKmap_keeps | with_reducible apply keeps_ite | split
    | dsimp -zeta only

theorem State.setStorage_keeps {Q : List Instr} {s : State} {k : Nat} {g : Nat} {mode : Nat} {ctrBase : Nat} {lvls : List Nat} {fresh : List (Nat × Nat)} (h : s.Keeps Q) :
    (State.setStorage s k g mode ctrBase lvls fresh).Keeps Q := by
  unfold State.setStorage
  repeat' first
    | with_reducible assumption | with_reducible apply State.dropFrames_keeps | with_reducible apply State.put_keeps
    | with_reducible apply keeps_ite | with_reducible refine keeps_foldl (fun _ _ _ => ?_) ?_
    | with_reducible refine nkeeps_foldl (fun _ _ _ => ?_) ?_ | with_reducible refine npkeeps_foldl (fun _ _ _ => ?_) ?_
    | (extract_lets +onlyGivenNames x; (have : True := by clear_value x; clear * - x; exact is_state (by assumption)); clear this; refine (fun hx => ?_ : State.Keeps Q x → _) ?_ <;> [clear_value x; (dsimp -zeta only [x]; clear x)])
    | (extract_lets +onlyGivenNames x; clear_value x) | split | dsimp -zeta only

theorem State.mapGranules_keeps {Q : List Instr} {s : State} {k : Nat} {gs : List Nat} (h : s.Keeps Q) :
    (State.mapGranules s k gs).Keeps Q := by
  unfold State.mapGranules
  repeat' first
    | with_reducible assumption | with_reducible apply State.put_keeps | with_reducible apply keeps_ite
    | with_reducible refine keeps_foldl (fun _ _ _ => ?_) ?_ | with_reducible refine nkeeps_foldl (fun _ _ _ => ?_) ?_
    | with_reducible refine npkeeps_foldl (fun _ _ _ => ?_) ?_ | fail_if_no_progress with_reducible rw [keeps_mk] | split
    | dsimp -zeta only

theorem execRegionSetup_keeps {Q : List Instr} {src : CmdSrc} {req : List (BitVec 8)} {ctrBase : BitVec 36} {lvlBases : List (BitVec 36)} {s : State} (h : s.Keeps Q) :
    OKeeps Q (execRegionSetup src req ctrBase lvlBases s) := by
  unfold execRegionSetup
  repeat' first
    | with_reducible apply okeeps_next | with_reducible exact okeeps_fault | with_reducible apply okeeps_ite
    | with_reducible assumption | with_reducible refine State.vendor_keeps (fun _ _ _ => ?_) ?_
    | with_reducible apply State.mapGranules_keeps | with_reducible apply State.setStorage_keeps
    | with_reducible apply State.setSlot_keeps | with_reducible apply State.tick_keeps
    | with_reducible apply State.keepRunning_keeps | with_reducible apply keeps_ite
    | with_reducible exact keeps_fst (by with_reducible assumption) | with_reducible apply pkeeps_ite
    | with_reducible exact pkeeps_eq (by assumption) (by assumption) | with_reducible refine pkeeps_eq (by assumption) ?_
    | with_reducible exact keeps_of_p (by with_reducible assumption)
    | (extract_lets +onlyGivenNames x; (have : True := by clear_value x; clear * - x; exact is_state (by assumption)); clear this; refine (fun hx => ?_ : State.Keeps Q x → _) ?_ <;> [clear_value x; (dsimp -zeta only [x]; clear x)])
    | (extract_lets +onlyGivenNames x; (have : True := by clear_value x; clear * - x; exact is_pair (by assumption)); clear this; refine (fun hx => ?_ : PKeeps Q x → _) ?_ <;> [clear_value x; (dsimp -zeta only [x]; clear x)])
    | (extract_lets +onlyGivenNames x; clear_value x) | fail_if_no_progress with_reducible rw [keeps_mk] | split
    | dsimp -zeta only | with_reducible apply pkeeps_mk

theorem execRegionInitDone_keeps {Q : List Instr} {slot : Fin 16} {s : State} (h : s.Keeps Q) :
    OKeeps Q (execRegionInitDone slot s) := by
  unfold execRegionInitDone
  repeat' first
    | with_reducible apply okeeps_next | with_reducible exact okeeps_fault | with_reducible apply okeeps_ite
    | with_reducible assumption | with_reducible apply State.setSlot_keeps | with_reducible apply State.endRunning_keeps
    | with_reducible apply keeps_ite
    | (extract_lets +onlyGivenNames x; (have : True := by clear_value x; clear * - x; exact is_state (by assumption)); clear this; refine (fun hx => ?_ : State.Keeps Q x → _) ?_ <;> [clear_value x; (dsimp -zeta only [x]; clear x)])
    | (extract_lets +onlyGivenNames x; clear_value x) | fail_if_no_progress with_reducible rw [keeps_mk] | split
    | dsimp -zeta only

theorem State.dropCached_keeps {Q : List Instr} {s : State} {k : Nat} (h : s.Keeps Q) :
    (State.dropCached s k).Keeps Q := by
  unfold State.dropCached
  repeat' first
    | with_reducible assumption | with_reducible apply keeps_ite | fail_if_no_progress with_reducible rw [keeps_mk] | split
    | dsimp -zeta only

theorem State.clearStorage_keeps {Q : List Instr} {s : State} {k : Nat} (h : s.Keeps Q) :
    (State.clearStorage s k).Keeps Q := by
  unfold State.clearStorage
  repeat' first
    | with_reducible assumption | with_reducible apply State.put_keeps | with_reducible apply keeps_ite
    | with_reducible refine keeps_foldl (fun _ _ _ => ?_) ?_ | with_reducible refine nkeeps_foldl (fun _ _ _ => ?_) ?_
    | with_reducible refine npkeeps_foldl (fun _ _ _ => ?_) ?_ | split | dsimp -zeta only

theorem State.releaseRegion_keeps {Q : List Instr} {s : State} {p : List Nat} (h : s.Keeps Q) :
    PKeeps Q (State.releaseRegion s p) := by
  unfold State.releaseRegion
  repeat' first
    | with_reducible assumption | with_reducible apply State.dropCached_keeps
    | with_reducible apply State.clearStorage_keeps | with_reducible apply State.setSlot_keeps
    | with_reducible apply keeps_ite | with_reducible exact keeps_fst (by with_reducible assumption)
    | with_reducible apply pkeeps_ite | with_reducible exact pkeeps_eq (by assumption) (by assumption)
    | with_reducible refine pkeeps_eq (by assumption) ?_ | with_reducible exact keeps_of_p (by with_reducible assumption)
    | (extract_lets +onlyGivenNames x; (have : True := by clear_value x; clear * - x; exact is_state (by assumption)); clear this; refine (fun hx => ?_ : State.Keeps Q x → _) ?_ <;> [clear_value x; (dsimp -zeta only [x]; clear x)])
    | (extract_lets +onlyGivenNames x; (have : True := by clear_value x; clear * - x; exact is_pair (by assumption)); clear this; refine (fun hx => ?_ : PKeeps Q x → _) ?_ <;> [clear_value x; (dsimp -zeta only [x]; clear x)])
    | (extract_lets +onlyGivenNames x; clear_value x) | fail_if_no_progress with_reducible rw [keeps_mk] | split
    | dsimp -zeta only | with_reducible apply pkeeps_mk

theorem execRegionRelease_keeps {Q : List Instr} {src : CmdSrc} {req : List (BitVec 8)} {s : State} (h : s.Keeps Q) :
    OKeeps Q (execRegionRelease src req s) := by
  unfold execRegionRelease
  repeat' first
    | with_reducible apply okeeps_next | with_reducible exact okeeps_fault | with_reducible apply okeeps_ite
    | with_reducible assumption | with_reducible refine State.vendor_keeps (fun _ _ _ => ?_) ?_
    | with_reducible apply State.releaseRegion_keeps
    | (with_reducible apply keeps_fst; with_reducible apply State.releaseRegion_keeps) | with_reducible apply keeps_ite
    | with_reducible exact keeps_fst (by with_reducible assumption) | with_reducible apply pkeeps_ite
    | with_reducible exact pkeeps_eq (by assumption) (by assumption) | with_reducible refine pkeeps_eq (by assumption) ?_
    | with_reducible exact keeps_of_p (by with_reducible assumption) | fail_if_no_progress with_reducible rw [keeps_mk]
    | split | dsimp -zeta only | with_reducible apply pkeeps_mk

theorem State.buildTree_keeps {Q : List Instr} {s : State} {k : Nat} (h : s.Keeps Q) :
    (State.buildTree s k).Keeps Q := by
  unfold State.buildTree
  repeat' first
    | with_reducible assumption | with_reducible apply State.writeCtr_keeps | with_reducible apply keeps_ite
    | with_reducible refine keeps_foldl (fun _ _ _ => ?_) ?_ | with_reducible refine nkeeps_foldl (fun _ _ _ => ?_) ?_
    | with_reducible refine npkeeps_foldl (fun _ _ _ => ?_) ?_
    | (extract_lets +onlyGivenNames x; (have : True := by clear_value x; clear * - x; exact is_state (by assumption)); clear this; refine (fun hx => ?_ : State.Keeps Q x → _) ?_ <;> [clear_value x; (dsimp -zeta only [x]; clear x)])
    | (extract_lets +onlyGivenNames x; clear_value x) | split | dsimp -zeta only

theorem State.startRotation_keeps {Q : List Instr} {s : State} {a : Nat} {b : Nat} {ctrBase : Nat} {lvls : List Nat} (h : s.Keeps Q) :
    (State.startRotation s a b ctrBase lvls).Keeps Q := by
  unfold State.startRotation
  repeat' first
    | with_reducible assumption | with_reducible apply State.setStorage_keeps | with_reducible apply State.setSlot_keeps
    | with_reducible apply State.tick_keeps | with_reducible apply State.put_keeps
    | with_reducible apply State.buildTree_keeps | with_reducible apply keeps_ite
    | (extract_lets +onlyGivenNames x; (have : True := by clear_value x; clear * - x; exact is_state (by assumption)); clear this; refine (fun hx => ?_ : State.Keeps Q x → _) ?_ <;> [clear_value x; (dsimp -zeta only [x]; clear x)])
    | (extract_lets +onlyGivenNames x; clear_value x) | fail_if_no_progress with_reducible rw [keeps_mk] | split
    | dsimp -zeta only

theorem execRotateKey_keeps {Q : List Instr} {src : CmdSrc} {req : List (BitVec 8)} {ctrBase : BitVec 36} {lvlBases : List (BitVec 36)} {s : State} (h : s.Keeps Q) :
    OKeeps Q (execRotateKey src req ctrBase lvlBases s) := by
  unfold execRotateKey
  repeat' first
    | with_reducible apply okeeps_next | with_reducible exact okeeps_fault | with_reducible apply okeeps_ite
    | with_reducible assumption | with_reducible refine State.vendor_keeps (fun _ _ _ => ?_) ?_
    | with_reducible apply State.startRotation_keeps | with_reducible apply State.keepRunning_keeps
    | with_reducible apply keeps_ite | with_reducible exact keeps_fst (by with_reducible assumption)
    | with_reducible apply pkeeps_ite | with_reducible exact pkeeps_eq (by assumption) (by assumption)
    | with_reducible refine pkeeps_eq (by assumption) ?_ | with_reducible exact keeps_of_p (by with_reducible assumption)
    | (extract_lets +onlyGivenNames x; (have : True := by clear_value x; clear * - x; exact is_state (by assumption)); clear this; refine (fun hx => ?_ : State.Keeps Q x → _) ?_ <;> [clear_value x; (dsimp -zeta only [x]; clear x)])
    | (extract_lets +onlyGivenNames x; (have : True := by clear_value x; clear * - x; exact is_pair (by assumption)); clear this; refine (fun hx => ?_ : PKeeps Q x → _) ?_ <;> [clear_value x; (dsimp -zeta only [x]; clear x)])
    | (extract_lets +onlyGivenNames x; clear_value x) | split | dsimp -zeta only | with_reducible apply pkeeps_mk

theorem State.moveB_keeps {Q : List Instr} {s : State} {n : Nat} (h : s.Keeps Q) :
    (State.moveB s n).Keeps Q := by
  unfold State.moveB
  repeat' first
    | with_reducible assumption | with_reducible apply State.put_keeps | with_reducible apply keeps_ite
    | (extract_lets +onlyGivenNames x; (have : True := by clear_value x; clear * - x; exact is_state (by assumption)); clear this; refine (fun hx => ?_ : State.Keeps Q x → _) ?_ <;> [clear_value x; (dsimp -zeta only [x]; clear x)])
    | (extract_lets +onlyGivenNames x; clear_value x) | fail_if_no_progress with_reducible rw [keeps_mk] | split
    | dsimp -zeta only

theorem State.rotateDone_keeps {Q : List Instr} {s : State} (h : s.Keeps Q) :
    (State.rotateDone s).Keeps Q := by
  unfold State.rotateDone
  repeat' first
    | with_reducible assumption | with_reducible apply State.put_keeps | with_reducible apply State.setSlot_keeps
    | with_reducible apply State.trusted_keeps | with_reducible apply State.clearStorage_keeps
    | with_reducible apply State.endRunning_keeps | with_reducible apply State.raise_keeps | with_reducible apply keeps_ite
    | with_reducible refine keeps_foldl (fun _ _ _ => ?_) ?_ | with_reducible refine nkeeps_foldl (fun _ _ _ => ?_) ?_
    | with_reducible refine npkeeps_foldl (fun _ _ _ => ?_) ?_
    | (extract_lets +onlyGivenNames x; (have : True := by clear_value x; clear * - x; exact is_state (by assumption)); clear this; refine (fun hx => ?_ : State.Keeps Q x → _) ?_ <;> [clear_value x; (dsimp -zeta only [x]; clear x)])
    | (extract_lets +onlyGivenNames x; clear_value x) | fail_if_no_progress with_reducible rw [keeps_mk] | split
    | dsimp -zeta only

theorem State.pinFrame_keeps {Q : List Instr} {s : State} {key : Nat} {e : CEnt} (h : s.Keeps Q) :
    (State.pinFrame s key e).Keeps Q := by
  unfold State.pinFrame
  repeat' first
    | with_reducible assumption | with_reducible apply State.put_keeps | with_reducible apply keeps_ite
    | fail_if_no_progress with_reducible rw [keeps_mk] | split | dsimp -zeta only

theorem State.pinDone_keeps {Q : List Instr} {s : State} {key : Nat} {j : Nat} (h : s.Keeps Q) :
    (State.pinDone s key j).Keeps Q := by
  unfold State.pinDone
  repeat' first
    | with_reducible assumption | with_reducible apply State.put_keeps | with_reducible apply keeps_ite
    | (extract_lets +onlyGivenNames x; (have : True := by clear_value x; clear * - x; exact is_state (by assumption)); clear this; refine (fun hx => ?_ : State.Keeps Q x → _) ?_ <;> [clear_value x; (dsimp -zeta only [x]; clear x)])
    | (extract_lets +onlyGivenNames x; clear_value x) | fail_if_no_progress with_reducible rw [keeps_mk] | split
    | dsimp -zeta only

theorem State.writeSecond_keeps {Q : List Instr} {s : State} {seed : Nat} {da : Nat} {l : Line} (h : s.Keeps Q) :
    (State.writeSecond s seed da l).Keeps Q := by
  unfold State.writeSecond
  repeat' first
    | with_reducible assumption | with_reducible apply State.storeLine_keeps | with_reducible apply State.unqueue_keeps
    | with_reducible apply keeps_ite | fail_if_no_progress with_reducible rw [keeps_mk] | split | dsimp -zeta only

theorem State.writeRotated_keeps {Q : List Instr} {s : State} {seed : Nat} {da : Nat} {tier : Nat} {data : BitVec 512} {poison : Bool} (h : s.Keeps Q) :
    (State.writeRotated s seed da tier data poison).Keeps Q := by
  unfold State.writeRotated
  repeat' first
    | with_reducible assumption | with_reducible apply State.unqueue_keeps | with_reducible apply State.storeLine_keeps
    | with_reducible apply State.writeSecond_keeps | with_reducible apply keeps_ite
    | (extract_lets +onlyGivenNames x; (have : True := by clear_value x; clear * - x; exact is_state (by assumption)); clear this; refine (fun hx => ?_ : State.Keeps Q x → _) ?_ <;> [clear_value x; (dsimp -zeta only [x]; clear x)])
    | (extract_lets +onlyGivenNames x; clear_value x) | split | dsimp -zeta only

theorem State.rotated_keeps {Q : List Instr} {s : State} {da : Nat} (h : s.Keeps Q) :
    (State.rotated s da).Keeps Q := by
  unfold State.rotated
  repeat' first
    | with_reducible assumption | with_reducible apply State.pinDone_keeps | with_reducible apply keeps_ite
    | fail_if_no_progress with_reducible rw [keeps_mk] | split | dsimp -zeta only

theorem State.passLine_keeps {Q : List Instr} {s : State} {late : Bool} (h : s.Keeps Q) :
    (State.passLine s late).Keeps Q := by
  unfold State.passLine
  repeat' first
    | with_reducible assumption | with_reducible apply State.setSlot_keeps | with_reducible apply State.moveB_keeps
    | with_reducible apply keeps_ite | fail_if_no_progress with_reducible rw [keeps_mk] | split | dsimp -zeta only

theorem State.rotateLine_keeps {Q : List Instr} {s : State} {da : Nat} {late : Bool} {b : Bursts} (h : s.Keeps Q) :
    (State.rotateLine s da late b).Keeps Q := by
  unfold State.rotateLine
  repeat' first
    | with_reducible assumption | with_reducible apply State.jobRecall_keeps | with_reducible apply State.passLine_keeps
    | with_reducible apply State.writeRotated_keeps | with_reducible apply State.rotated_keeps
    | with_reducible apply State.jobClear_keeps | with_reducible apply State.release_keeps
    | with_reducible apply State.busAt_keeps | with_reducible apply State.readPlain_keeps
    | (with_reducible apply keeps_fst; with_reducible apply State.jobRecall_keeps)
    | (with_reducible apply keeps_fst; with_reducible apply State.readPlain_keeps) | with_reducible apply keeps_ite
    | with_reducible exact keeps_fst (by with_reducible assumption) | with_reducible apply pkeeps_ite
    | with_reducible exact pkeeps_eq (by assumption) (by assumption) | with_reducible refine pkeeps_eq (by assumption) ?_
    | with_reducible exact keeps_of_p (by with_reducible assumption)
    | (extract_lets +onlyGivenNames x; (have : True := by clear_value x; clear * - x; exact is_state (by assumption)); clear this; refine (fun hx => ?_ : State.Keeps Q x → _) ?_ <;> [clear_value x; (dsimp -zeta only [x]; clear x)])
    | (extract_lets +onlyGivenNames x; (have : True := by clear_value x; clear * - x; exact is_pair (by assumption)); clear this; refine (fun hx => ?_ : PKeeps Q x → _) ?_ <;> [clear_value x; (dsimp -zeta only [x]; clear x)])
    | (extract_lets +onlyGivenNames x; (have : True := by clear_value x; clear * - x; exact is_fun (by assumption)); clear this; dsimp -zeta only [x]; clear x)
    | (extract_lets +onlyGivenNames x; clear_value x) | fail_if_no_progress with_reducible rw [keeps_mk] | split
    | dsimp -zeta only | with_reducible apply pkeeps_mk

theorem State.rotatePinned_keeps {Q : List Instr} {s : State} {da : Nat} {late : Bool} {b : Bursts} (h : s.Keeps Q) :
    (State.rotatePinned s da late b).Keeps Q := by
  unfold State.rotatePinned
  repeat' first
    | with_reducible assumption | with_reducible apply State.pinFrame_keeps | with_reducible apply State.passLine_keeps
    | with_reducible apply State.pinDone_keeps | with_reducible apply State.rotateLine_keeps
    | with_reducible apply keeps_ite
    | (extract_lets +onlyGivenNames x; (have : True := by clear_value x; clear * - x; exact is_state (by assumption)); clear this; refine (fun hx => ?_ : State.Keeps Q x → _) ?_ <;> [clear_value x; (dsimp -zeta only [x]; clear x)])
    | (extract_lets +onlyGivenNames x; clear_value x) | fail_if_no_progress with_reducible rw [keeps_mk] | split
    | dsimp -zeta only

theorem State.skipLines_keeps {Q : List Instr} {s : State} {das : List Nat} {n : Nat} (h : s.Keeps Q) :
    (State.skipLines s das n).Keeps Q := by
  unfold State.skipLines
  repeat' first
    | with_reducible assumption | with_reducible apply State.setSlot_keeps | with_reducible apply State.moveB_keeps
    | with_reducible apply keeps_ite | fail_if_no_progress with_reducible rw [keeps_mk] | split | dsimp -zeta only

theorem State.rotateStep_keeps {Q : List Instr} {s : State} {b : Bursts} (h : s.Keeps Q) :
    (State.rotateStep s b).Keeps Q := by
  unfold State.rotateStep
  repeat' first
    | with_reducible assumption | with_reducible apply State.rotateDone_keeps
    | with_reducible apply State.rotatePinned_keeps | with_reducible apply State.unmapped_keeps
    | with_reducible apply State.moveB_keeps | with_reducible apply State.skipLines_keeps | with_reducible apply keeps_ite
    | (extract_lets +onlyGivenNames x; (have : True := by clear_value x; clear * - x; exact is_state (by assumption)); clear this; refine (fun hx => ?_ : State.Keeps Q x → _) ?_ <;> [clear_value x; (dsimp -zeta only [x]; clear x)])
    | (extract_lets +onlyGivenNames x; clear_value x) | fail_if_no_progress with_reducible rw [keeps_mk] | split
    | dsimp -zeta only

theorem execRotationStep_keeps {Q : List Instr} {b : Bursts} {s : State} (h : s.Keeps Q) :
    OKeeps Q (execRotationStep b s) := by
  unfold execRotationStep
  repeat' first
    | with_reducible apply okeeps_next | with_reducible exact okeeps_fault | with_reducible apply okeeps_ite
    | with_reducible assumption | with_reducible apply State.rotateStep_keeps | with_reducible apply keeps_ite | split
    | dsimp -zeta only

theorem State.resetUnits_keeps {Q : List Instr} {s : State} {das : List Nat} (h : s.Keeps Q) :
    NKeeps Q (State.resetUnits s das) := by
  unfold State.resetUnits
  repeat' first
    | with_reducible assumption | with_reducible apply State.put_keeps | with_reducible apply keeps_ite
    | with_reducible refine keeps_foldl (fun _ _ _ => ?_) ?_ | with_reducible refine nkeeps_foldl (fun _ _ _ => ?_) ?_
    | with_reducible refine npkeeps_foldl (fun _ _ _ => ?_) ?_ | with_reducible exact nkeeps_none
    | with_reducible apply nkeeps_some | with_reducible apply nkeeps_ite
    | with_reducible refine nkeeps_eq (by assumption) ?_ | with_reducible exact keeps_of_n (by with_reducible assumption)
    | fail_if_no_progress with_reducible rw [keeps_mk] | split | dsimp -zeta only

theorem State.passStripe_keeps {Q : List Instr} {s : State} (h : s.Keeps Q) :
    (State.passStripe s).Keeps Q := by
  unfold State.passStripe
  repeat' first
    | with_reducible assumption | with_reducible apply State.passLine_keeps | with_reducible apply State.moveB_keeps
    | with_reducible apply keeps_ite | split | dsimp -zeta only

theorem State.rotateStripe_keeps {Q : List Instr} {s : State} {bs : List Bursts} (h : s.Keeps Q) :
    (State.rotateStripe s bs).Keeps Q := by
  unfold State.rotateStripe
  repeat' first
    | with_reducible assumption | with_reducible apply State.skipLines_keeps | with_reducible apply State.resetUnits_keeps
    | with_reducible apply State.passStripe_keeps | with_reducible apply State.sectorReads_keeps
    | with_reducible apply State.storeLine_keeps | with_reducible apply State.writeParity_keeps
    | (with_reducible apply keeps_fst; with_reducible apply State.sectorReads_keeps) | with_reducible apply keeps_ite
    | with_reducible exact keeps_fst (by with_reducible assumption) | with_reducible apply pkeeps_ite
    | with_reducible exact pkeeps_eq (by assumption) (by assumption) | with_reducible refine pkeeps_eq (by assumption) ?_
    | with_reducible refine keeps_foldl (fun _ _ _ => ?_) ?_ | with_reducible refine pkeeps_foldl (fun _ _ _ => ?_) ?_
    | with_reducible refine nkeeps_foldl (fun _ _ _ => ?_) ?_ | with_reducible refine npkeeps_foldl (fun _ _ _ => ?_) ?_
    | with_reducible exact nkeeps_none | with_reducible apply nkeeps_some | with_reducible apply nkeeps_ite
    | with_reducible refine nkeeps_eq (by assumption) ?_ | with_reducible exact keeps_of_p (by with_reducible assumption)
    | with_reducible exact keeps_of_n (by with_reducible assumption)
    | (extract_lets +onlyGivenNames x; (have : True := by clear_value x; clear * - x; exact is_state (by assumption)); clear this; refine (fun hx => ?_ : State.Keeps Q x → _) ?_ <;> [clear_value x; (dsimp -zeta only [x]; clear x)])
    | (extract_lets +onlyGivenNames x; (have : True := by clear_value x; clear * - x; exact is_pair (by assumption)); clear this; refine (fun hx => ?_ : PKeeps Q x → _) ?_ <;> [clear_value x; (dsimp -zeta only [x]; clear x)])
    | (extract_lets +onlyGivenNames x; (have : True := by clear_value x; clear * - x; exact is_opt (by assumption)); clear this; refine (fun hx => ?_ : NKeeps Q x → _) ?_ <;> [clear_value x; (dsimp -zeta only [x]; clear x)])
    | (extract_lets +onlyGivenNames x; clear_value x) | fail_if_no_progress with_reducible rw [keeps_mk] | split
    | dsimp -zeta only | with_reducible apply pkeeps_mk

theorem execStripeRotationStep_keeps {Q : List Instr} {bs : List Bursts} {s : State} (h : s.Keeps Q) :
    OKeeps Q (execStripeRotationStep bs s) := by
  unfold execStripeRotationStep
  repeat' first
    | with_reducible apply okeeps_next | with_reducible exact okeeps_fault | with_reducible apply okeeps_ite
    | with_reducible assumption | with_reducible apply State.rotateStripe_keeps | with_reducible apply keeps_ite | split
    | dsimp -zeta only

theorem State.ccRoom_keeps {Q : List Instr} {s : State} {n : Nat} (h : s.Keeps Q) :
    NKeeps Q (State.ccRoom s n) := by
  unfold State.ccRoom
  repeat' first
    | with_reducible assumption | with_reducible apply keeps_ite | with_reducible exact nkeeps_none
    | with_reducible apply nkeeps_some | with_reducible apply nkeeps_ite
    | with_reducible refine nkeeps_eq (by assumption) ?_ | with_reducible exact keeps_of_n (by with_reducible assumption)
    | (extract_lets +onlyGivenNames x; (have : True := by clear_value x; clear * - x; exact is_state (by assumption)); clear this; refine (fun hx => ?_ : State.Keeps Q x → _) ?_ <;> [clear_value x; (dsimp -zeta only [x]; clear x)])
    | (extract_lets +onlyGivenNames x; (have : True := by clear_value x; clear * - x; exact is_opt (by assumption)); clear this; refine (fun hx => ?_ : NKeeps Q x → _) ?_ <;> [clear_value x; (dsimp -zeta only [x]; clear x)])
    | (extract_lets +onlyGivenNames x; clear_value x) | fail_if_no_progress with_reducible rw [keeps_mk] | split
    | dsimp -zeta only

theorem State.loseEntry_keeps {Q : List Instr} {s : State} {k : Nat} {lvl : Nat} {da : Nat} (h : s.Keeps Q) :
    (State.loseEntry s k lvl da).Keeps Q := by
  unfold State.loseEntry
  repeat' first
    | with_reducible assumption | with_reducible apply State.setSlot_keeps | with_reducible apply State.raise_keeps
    | with_reducible apply keeps_ite
    | (extract_lets +onlyGivenNames x; (have : True := by clear_value x; clear * - x; exact is_state (by assumption)); clear this; refine (fun hx => ?_ : State.Keeps Q x → _) ?_ <;> [clear_value x; (dsimp -zeta only [x]; clear x)])
    | (extract_lets +onlyGivenNames x; clear_value x) | fail_if_no_progress with_reducible rw [keeps_mk] | split
    | dsimp -zeta only

theorem State.fetchCtr_keeps {Q : List Instr} {s : State} {da : Nat} {b : Bursts} (h : s.Keeps Q) :
    (State.fetchCtr s da b).Keeps Q := by
  unfold State.fetchCtr
  repeat' first
    | with_reducible assumption | with_reducible apply State.ccRoom_keeps | with_reducible apply State.put_keeps
    | with_reducible apply State.readSrc_keeps | with_reducible apply State.loseEntry_keeps
    | with_reducible apply State.readLine_keeps
    | (with_reducible apply keeps_fst; with_reducible apply State.readSrc_keeps)
    | (with_reducible apply keeps_fst; with_reducible apply State.readLine_keeps) | with_reducible apply keeps_ite
    | with_reducible exact keeps_fst (by with_reducible assumption) | with_reducible apply pkeeps_ite
    | with_reducible exact pkeeps_eq (by assumption) (by assumption) | with_reducible refine pkeeps_eq (by assumption) ?_
    | with_reducible exact nkeeps_none | with_reducible apply nkeeps_some | with_reducible apply nkeeps_ite
    | with_reducible refine nkeeps_eq (by assumption) ?_ | with_reducible exact keeps_of_p (by with_reducible assumption)
    | with_reducible exact keeps_of_n (by with_reducible assumption)
    | (extract_lets +onlyGivenNames x; (have : True := by clear_value x; clear * - x; exact is_state (by assumption)); clear this; refine (fun hx => ?_ : State.Keeps Q x → _) ?_ <;> [clear_value x; (dsimp -zeta only [x]; clear x)])
    | (extract_lets +onlyGivenNames x; (have : True := by clear_value x; clear * - x; exact is_pair (by assumption)); clear this; refine (fun hx => ?_ : PKeeps Q x → _) ?_ <;> [clear_value x; (dsimp -zeta only [x]; clear x)])
    | (extract_lets +onlyGivenNames x; (have : True := by clear_value x; clear * - x; exact is_opt (by assumption)); clear this; refine (fun hx => ?_ : NKeeps Q x → _) ?_ <;> [clear_value x; (dsimp -zeta only [x]; clear x)])
    | (extract_lets +onlyGivenNames x; (have : True := by clear_value x; clear * - x; exact is_fun (by assumption)); clear this; dsimp -zeta only [x]; clear x)
    | (extract_lets +onlyGivenNames x; clear_value x) | fail_if_no_progress with_reducible rw [keeps_mk] | split
    | dsimp -zeta only | with_reducible apply pkeeps_mk

theorem execCounterFetch_keeps {Q : List Instr} {da : BitVec 48} {b : Bursts} {s : State} (h : s.Keeps Q) :
    OKeeps Q (execCounterFetch da b s) := by
  unfold execCounterFetch
  repeat' first
    | with_reducible apply okeeps_next | with_reducible exact okeeps_fault | with_reducible apply okeeps_ite
    | with_reducible assumption | with_reducible apply State.fetchCtr_keeps | with_reducible apply keeps_ite
    | (extract_lets +onlyGivenNames x; (have : True := by clear_value x; clear * - x; exact is_state (by assumption)); clear this; refine (fun hx => ?_ : State.Keeps Q x → _) ?_ <;> [clear_value x; (dsimp -zeta only [x]; clear x)])
    | (extract_lets +onlyGivenNames x; clear_value x) | split | dsimp -zeta only

theorem State.raiseVersion_keeps {Q : List Instr} {s : State} {k : Nat} {lvl : Nat} {idx : Nat} {v : Nat} (h : s.Keeps Q) :
    (State.raiseVersion s k lvl idx v).Keeps Q := by
  unfold State.raiseVersion
  repeat' first
    | with_reducible assumption | with_reducible apply State.setSlot_keeps | with_reducible apply State.put_keeps
    | with_reducible apply keeps_ite
    | (extract_lets +onlyGivenNames x; (have : True := by clear_value x; clear * - x; exact is_state (by assumption)); clear this; refine (fun hx => ?_ : State.Keeps Q x → _) ?_ <;> [clear_value x; (dsimp -zeta only [x]; clear x)])
    | (extract_lets +onlyGivenNames x; clear_value x) | fail_if_no_progress with_reducible rw [keeps_mk] | split
    | dsimp -zeta only

theorem execVersionIncrement_keeps {Q : List Instr} {da : BitVec 48} {s : State} (h : s.Keeps Q) :
    OKeeps Q (execVersionIncrement da s) := by
  unfold execVersionIncrement
  repeat' first
    | with_reducible apply okeeps_next | with_reducible exact okeeps_fault | with_reducible apply okeeps_ite
    | with_reducible assumption | with_reducible apply State.raiseVersion_keeps | with_reducible apply State.put_keeps
    | with_reducible apply keeps_ite
    | (extract_lets +onlyGivenNames x; (have : True := by clear_value x; clear * - x; exact is_state (by assumption)); clear this; refine (fun hx => ?_ : State.Keeps Q x → _) ?_ <;> [clear_value x; (dsimp -zeta only [x]; clear x)])
    | (extract_lets +onlyGivenNames x; clear_value x) | fail_if_no_progress with_reducible rw [keeps_mk] | split
    | dsimp -zeta only

theorem State.writeBackCtr_keeps {Q : List Instr} {s : State} {key : Nat} (h : s.Keeps Q) :
    (State.writeBackCtr s key).Keeps Q := by
  unfold State.writeBackCtr
  repeat' first
    | with_reducible assumption | with_reducible apply State.writeCtr_keeps | with_reducible apply State.put_keeps
    | with_reducible apply keeps_ite
    | (extract_lets +onlyGivenNames x; (have : True := by clear_value x; clear * - x; exact is_state (by assumption)); clear this; refine (fun hx => ?_ : State.Keeps Q x → _) ?_ <;> [clear_value x; (dsimp -zeta only [x]; clear x)])
    | (extract_lets +onlyGivenNames x; clear_value x) | fail_if_no_progress with_reducible rw [keeps_mk] | split
    | dsimp -zeta only

theorem execCounterWriteback_keeps {Q : List Instr} {da : BitVec 48} {s : State} (h : s.Keeps Q) :
    OKeeps Q (execCounterWriteback da s) := by
  unfold execCounterWriteback
  repeat' first
    | with_reducible apply okeeps_next | with_reducible exact okeeps_fault | with_reducible apply okeeps_ite
    | with_reducible assumption | with_reducible apply State.writeBackCtr_keeps | with_reducible apply keeps_ite | split
    | dsimp -zeta only

theorem State.trustBody_keeps {Q : List Instr} {s : State} {k : Nat} {lvl : Nat} {idx : Nat} {b : Bursts} (h : s.Keeps Q) :
    PKeeps Q (State.trustBody s k lvl idx b) := by
  unfold State.trustBody
  repeat' first
    | with_reducible assumption | with_reducible apply State.readLine_keeps
    | (with_reducible apply keeps_fst; with_reducible apply State.readLine_keeps) | with_reducible apply keeps_ite
    | with_reducible exact keeps_fst (by with_reducible assumption) | with_reducible apply pkeeps_ite
    | with_reducible exact pkeeps_eq (by assumption) (by assumption) | with_reducible refine pkeeps_eq (by assumption) ?_
    | with_reducible exact keeps_of_p (by with_reducible assumption)
    | (extract_lets +onlyGivenNames x; (have : True := by clear_value x; clear * - x; exact is_state (by assumption)); clear this; refine (fun hx => ?_ : State.Keeps Q x → _) ?_ <;> [clear_value x; (dsimp -zeta only [x]; clear x)])
    | (extract_lets +onlyGivenNames x; (have : True := by clear_value x; clear * - x; exact is_pair (by assumption)); clear this; refine (fun hx => ?_ : PKeeps Q x → _) ?_ <;> [clear_value x; (dsimp -zeta only [x]; clear x)])
    | (extract_lets +onlyGivenNames x; clear_value x) | fail_if_no_progress with_reducible rw [keeps_mk] | split
    | dsimp -zeta only | with_reducible apply pkeeps_mk

theorem State.trustWrite_keeps {Q : List Instr} {s : State} {k : Nat} {lvl : Nat} {idx : Nat} {ver : Nat} {body : BitVec 512} (h : s.Keeps Q) :
    (State.trustWrite s k lvl idx ver body).Keeps Q := by
  unfold State.trustWrite
  repeat' first
    | with_reducible assumption | with_reducible apply State.writeCtr_keeps | with_reducible apply State.put_keeps
    | with_reducible apply keeps_ite
    | (extract_lets +onlyGivenNames x; (have : True := by clear_value x; clear * - x; exact is_state (by assumption)); clear this; refine (fun hx => ?_ : State.Keeps Q x → _) ?_ <;> [clear_value x; (dsimp -zeta only [x]; clear x)])
    | (extract_lets +onlyGivenNames x; clear_value x) | fail_if_no_progress with_reducible rw [keeps_mk] | split
    | dsimp -zeta only

theorem State.poisonFrame_keeps {Q : List Instr} {s : State} {da : Nat} (h : s.Keeps Q) :
    (State.poisonFrame s da).Keeps Q := by
  unfold State.poisonFrame
  repeat' first
    | with_reducible assumption | with_reducible apply State.unqueue_keeps | with_reducible apply State.storeLine_keeps
    | with_reducible apply State.writeSecond_keeps | with_reducible apply keeps_ite
    | with_reducible refine keeps_foldl (fun _ _ _ => ?_) ?_ | with_reducible refine nkeeps_foldl (fun _ _ _ => ?_) ?_
    | with_reducible refine npkeeps_foldl (fun _ _ _ => ?_) ?_
    | (extract_lets +onlyGivenNames x; (have : True := by clear_value x; clear * - x; exact is_state (by assumption)); clear this; refine (fun hx => ?_ : State.Keeps Q x → _) ?_ <;> [clear_value x; (dsimp -zeta only [x]; clear x)])
    | (extract_lets +onlyGivenNames x; clear_value x) | split | dsimp -zeta only

theorem State.poisonAt_keeps {Q : List Instr} {s : State} {da : Option Nat} (h : s.Keeps Q) :
    (State.poisonAt s da).Keeps Q := by
  unfold State.poisonAt
  repeat' first
    | with_reducible assumption | with_reducible apply State.poisonFrame_keeps | with_reducible apply keeps_ite
    | fail_if_no_progress with_reducible rw [keeps_mk] | split | dsimp -zeta only

theorem State.rebuildCtrLine_keeps {Q : List Instr} {s : State} {k : Nat} {idx : Nat} {ver : Nat} (h : s.Keeps Q) :
    (State.rebuildCtrLine s k idx ver).Keeps Q := by
  unfold State.rebuildCtrLine
  repeat' first
    | with_reducible assumption | with_reducible apply State.setSlot_keeps | with_reducible apply State.trustWrite_keeps
    | with_reducible apply State.poisonAt_keeps | with_reducible apply keeps_ite
    | (extract_lets +onlyGivenNames x; (have : True := by clear_value x; clear * - x; exact is_state (by assumption)); clear this; refine (fun hx => ?_ : State.Keeps Q x → _) ?_ <;> [clear_value x; (dsimp -zeta only [x]; clear x)])
    | (extract_lets +onlyGivenNames x; clear_value x) | fail_if_no_progress with_reducible rw [keeps_mk] | split
    | dsimp -zeta only

theorem State.retagChildren_keeps {Q : List Instr} {k lvl idx : Nat} {whole : Bool} {l : List Nat} :
    ∀ {s : State} {bs : List Bursts}, s.Keeps Q → PKeeps Q (State.retagChildren s k lvl idx whole l bs) := by
  induction l with
  | nil => intro s bs h; exact h
  | cons a l ih =>
    intro s bs h
    unfold State.retagChildren
    extract_lets c v lost
    have h0 : PKeeps Q (if lost = true then (s, none) else s.trustBody k (lvl - 1) c (bs.headD {})) :=
      pkeeps_ite h (State.trustBody_keeps h)
    split
    · exact h
    · split
      · rename_i e
        have h1 : State.Keeps Q _ := pkeeps_eq e h0
        have h2 := ih (bs := bs.tail) h1
        split
        · rename_i e2
          exact State.trustWrite_keeps (pkeeps_eq e2 h2)
        · rename_i e2
          exact pkeeps_eq e2 h2
      · rename_i e
        have h1 : State.Keeps Q _ := pkeeps_eq e h0
        have h2 := ih (bs := bs.tail) h1
        split
        · split
          · rename_i e2
            exact State.rebuildCtrLine_keeps (pkeeps_eq e2 h2)
          · rename_i e2
            exact pkeeps_eq e2 h2
        · exact h1

theorem State.pull_keeps {Q : List Instr} {s : State} {k : Nat} {lvl : Nat} {idx : Nat} (h : s.Keeps Q) :
    NKeeps Q (State.pull s k lvl idx) := by
  unfold State.pull
  repeat' first
    | with_reducible assumption | with_reducible apply State.bind_keeps | with_reducible apply State.ccRoom_keeps
    | with_reducible apply State.fetchCtr_keeps | with_reducible apply keeps_ite
    | with_reducible refine keeps_foldl (fun _ _ _ => ?_) ?_ | with_reducible refine nkeeps_foldl (fun _ _ _ => ?_) ?_
    | with_reducible refine npkeeps_foldl (fun _ _ _ => ?_) ?_ | with_reducible exact nkeeps_none
    | with_reducible apply nkeeps_some | with_reducible apply nkeeps_ite
    | with_reducible refine nkeeps_eq (by assumption) ?_ | with_reducible exact keeps_of_n (by with_reducible assumption)
    | with_reducible refine nkeeps_bind (fun _ _ => ?_) ?_
    | (extract_lets +onlyGivenNames x; (have : True := by clear_value x; clear * - x; exact is_state (by assumption)); clear this; refine (fun hx => ?_ : State.Keeps Q x → _) ?_ <;> [clear_value x; (dsimp -zeta only [x]; clear x)])
    | (extract_lets +onlyGivenNames x; (have : True := by clear_value x; clear * - x; exact is_opt (by assumption)); clear this; refine (fun hx => ?_ : NKeeps Q x → _) ?_ <;> [clear_value x; (dsimp -zeta only [x]; clear x)])
    | (extract_lets +onlyGivenNames x; clear_value x) | split | dsimp -zeta only

theorem State.newVersion_keeps {Q : List Instr} {s : State} {k : Nat} {lvl : Nat} {idx : Nat} (h : s.Keeps Q) :
    NPKeeps Q (State.newVersion s k lvl idx) := by
  unfold State.newVersion
  repeat' first
    | with_reducible assumption | with_reducible apply State.pull_keeps | with_reducible apply State.raiseVersion_keeps
    | with_reducible apply State.setSlot_keeps | with_reducible apply keeps_ite
    | with_reducible exact keeps_fst (by with_reducible assumption) | with_reducible apply pkeeps_ite
    | with_reducible exact pkeeps_eq (by assumption) (by assumption) | with_reducible refine pkeeps_eq (by assumption) ?_
    | with_reducible exact nkeeps_none | with_reducible apply nkeeps_some | with_reducible apply nkeeps_ite
    | with_reducible refine nkeeps_eq (by assumption) ?_ | with_reducible exact npkeeps_none
    | with_reducible apply npkeeps_some | with_reducible apply npkeeps_ite
    | with_reducible refine npkeeps_eq (by assumption) ?_ | with_reducible refine npkeeps_var (by assumption) ?_
    | with_reducible exact keeps_of_p (by with_reducible assumption)
    | with_reducible exact keeps_of_n (by with_reducible assumption)
    | with_reducible exact keeps_of_np (by with_reducible assumption)
    | (extract_lets +onlyGivenNames x; (have : True := by clear_value x; clear * - x; exact is_state (by assumption)); clear this; refine (fun hx => ?_ : State.Keeps Q x → _) ?_ <;> [clear_value x; (dsimp -zeta only [x]; clear x)])
    | (extract_lets +onlyGivenNames x; (have : True := by clear_value x; clear * - x; exact is_pair (by assumption)); clear this; refine (fun hx => ?_ : PKeeps Q x → _) ?_ <;> [clear_value x; (dsimp -zeta only [x]; clear x)])
    | (extract_lets +onlyGivenNames x; (have : True := by clear_value x; clear * - x; exact is_opt (by assumption)); clear this; refine (fun hx => ?_ : NKeeps Q x → _) ?_ <;> [clear_value x; (dsimp -zeta only [x]; clear x)])
    | (extract_lets +onlyGivenNames x; (have : True := by clear_value x; clear * - x; exact is_opt_pair (by assumption)); clear this; refine (fun hx => ?_ : NPKeeps Q x → _) ?_ <;> [clear_value x; (dsimp -zeta only [x]; clear x)])
    | (extract_lets +onlyGivenNames x; clear_value x) | fail_if_no_progress with_reducible rw [keeps_mk] | split
    | dsimp -zeta only | with_reducible apply pkeeps_mk

theorem State.rebuildNode_keeps {Q : List Instr} {s : State} {k : Nat} {lvl : Nat} {idx : Nat} {whole : Bool} {bs : List Bursts} (h : s.Keeps Q) :
    NKeeps Q (State.rebuildNode s k lvl idx whole bs) := by
  unfold State.rebuildNode
  repeat' first
    | with_reducible assumption | with_reducible apply State.retagChildren_keeps | with_reducible apply State.setSlot_keeps
    | with_reducible apply State.trustWrite_keeps | with_reducible apply State.newVersion_keeps
    | (with_reducible apply keeps_fst; with_reducible apply State.retagChildren_keeps) | with_reducible apply keeps_ite
    | with_reducible exact keeps_fst (by with_reducible assumption) | with_reducible apply pkeeps_ite
    | with_reducible exact pkeeps_eq (by assumption) (by assumption) | with_reducible refine pkeeps_eq (by assumption) ?_
    | with_reducible exact nkeeps_none | with_reducible apply nkeeps_some | with_reducible apply nkeeps_ite
    | with_reducible refine nkeeps_eq (by assumption) ?_ | with_reducible exact npkeeps_none
    | with_reducible apply npkeeps_some | with_reducible apply npkeeps_ite
    | with_reducible refine npkeeps_eq (by assumption) ?_ | with_reducible refine npkeeps_var (by assumption) ?_
    | with_reducible exact keeps_of_p (by with_reducible assumption)
    | with_reducible exact keeps_of_n (by with_reducible assumption)
    | with_reducible exact keeps_of_np (by with_reducible assumption) | with_reducible refine nkeeps_map (fun _ _ => ?_) ?_
    | with_reducible refine npkeeps_map (fun _ _ => ?_) ?_ | with_reducible refine nkeeps_map_pair (fun _ _ => ?_) ?_
    | (extract_lets +onlyGivenNames x; (have : True := by clear_value x; clear * - x; exact is_state (by assumption)); clear this; refine (fun hx => ?_ : State.Keeps Q x → _) ?_ <;> [clear_value x; (dsimp -zeta only [x]; clear x)])
    | (extract_lets +onlyGivenNames x; (have : True := by clear_value x; clear * - x; exact is_pair (by assumption)); clear this; refine (fun hx => ?_ : PKeeps Q x → _) ?_ <;> [clear_value x; (dsimp -zeta only [x]; clear x)])
    | (extract_lets +onlyGivenNames x; (have : True := by clear_value x; clear * - x; exact is_opt (by assumption)); clear this; refine (fun hx => ?_ : NKeeps Q x → _) ?_ <;> [clear_value x; (dsimp -zeta only [x]; clear x)])
    | (extract_lets +onlyGivenNames x; (have : True := by clear_value x; clear * - x; exact is_opt_pair (by assumption)); clear this; refine (fun hx => ?_ : NPKeeps Q x → _) ?_ <;> [clear_value x; (dsimp -zeta only [x]; clear x)])
    | (extract_lets +onlyGivenNames x; clear_value x) | fail_if_no_progress with_reducible rw [keeps_mk] | split
    | dsimp -zeta only | with_reducible apply pkeeps_mk

theorem State.rebuildAll_keeps {Q : List Instr} {s : State} {k : Nat} {bs : List Bursts} (h : s.Keeps Q) :
    NKeeps Q (State.rebuildAll s k bs) := by
  unfold State.rebuildAll
  repeat' first
    | with_reducible assumption | with_reducible apply State.bind_keeps | with_reducible apply State.rebuildNode_keeps
    | with_reducible apply State.raiseVersion_keeps | with_reducible apply State.trustBody_keeps
    | with_reducible apply State.trustWrite_keeps
    | (with_reducible apply keeps_fst; with_reducible apply State.trustBody_keeps) | with_reducible apply keeps_ite
    | with_reducible exact keeps_fst (by with_reducible assumption) | with_reducible apply pkeeps_ite
    | with_reducible exact pkeeps_eq (by assumption) (by assumption) | with_reducible refine pkeeps_eq (by assumption) ?_
    | with_reducible refine keeps_foldl (fun _ _ _ => ?_) ?_ | with_reducible refine pkeeps_foldl (fun _ _ _ => ?_) ?_
    | with_reducible refine nkeeps_foldl (fun _ _ _ => ?_) ?_ | with_reducible refine npkeeps_foldl (fun _ _ _ => ?_) ?_
    | with_reducible exact nkeeps_none | with_reducible apply nkeeps_some | with_reducible apply nkeeps_ite
    | with_reducible refine nkeeps_eq (by assumption) ?_ | with_reducible exact keeps_of_p (by with_reducible assumption)
    | with_reducible exact keeps_of_n (by with_reducible assumption) | with_reducible refine nkeeps_bind (fun _ _ => ?_) ?_
    | with_reducible refine nkeeps_map (fun _ _ => ?_) ?_ | with_reducible refine npkeeps_map (fun _ _ => ?_) ?_
    | with_reducible refine nkeeps_map_pair (fun _ _ => ?_) ?_
    | (extract_lets +onlyGivenNames x; (have : True := by clear_value x; clear * - x; exact is_state (by assumption)); clear this; refine (fun hx => ?_ : State.Keeps Q x → _) ?_ <;> [clear_value x; (dsimp -zeta only [x]; clear x)])
    | (extract_lets +onlyGivenNames x; (have : True := by clear_value x; clear * - x; exact is_pair (by assumption)); clear this; refine (fun hx => ?_ : PKeeps Q x → _) ?_ <;> [clear_value x; (dsimp -zeta only [x]; clear x)])
    | (extract_lets +onlyGivenNames x; (have : True := by clear_value x; clear * - x; exact is_opt (by assumption)); clear this; refine (fun hx => ?_ : NKeeps Q x → _) ?_ <;> [clear_value x; (dsimp -zeta only [x]; clear x)])
    | (extract_lets +onlyGivenNames x; clear_value x) | fail_if_no_progress with_reducible rw [keeps_mk] | split
    | dsimp -zeta only | with_reducible apply pkeeps_mk

theorem State.trusted_keeps {Q : List Instr} {s : State} {k : Nat} {lvl : Nat} {da : Nat} {whole : Bool} (h : s.Keeps Q) :
    (State.trusted s k lvl da whole).Keeps Q := by
  unfold State.trusted
  repeat' first
    | with_reducible assumption | with_reducible apply State.setSlot_keeps | with_reducible apply State.raise_keeps
    | with_reducible apply keeps_ite
    | (extract_lets +onlyGivenNames x; (have : True := by clear_value x; clear * - x; exact is_state (by assumption)); clear this; refine (fun hx => ?_ : State.Keeps Q x → _) ?_ <;> [clear_value x; (dsimp -zeta only [x]; clear x)])
    | (extract_lets +onlyGivenNames x; clear_value x) | fail_if_no_progress with_reducible rw [keeps_mk] | split
    | dsimp -zeta only

theorem State.rebuildTrusting_keeps {Q : List Instr} {s : State} {p : List Nat} {bs : List Bursts} (h : s.Keeps Q) :
    PKeeps Q (State.rebuildTrusting s p bs) := by
  unfold State.rebuildTrusting
  repeat' first
    | with_reducible assumption | with_reducible apply State.rebuildCtrLine_keeps
    | with_reducible apply State.trusted_keeps | with_reducible apply State.rebuildAll_keeps
    | with_reducible apply State.newVersion_keeps | with_reducible apply State.rebuildNode_keeps
    | with_reducible apply keeps_ite | with_reducible exact keeps_fst (by with_reducible assumption)
    | with_reducible apply pkeeps_ite | with_reducible exact pkeeps_eq (by assumption) (by assumption)
    | with_reducible refine pkeeps_eq (by assumption) ?_ | with_reducible refine keeps_foldl (fun _ _ _ => ?_) ?_
    | with_reducible refine pkeeps_foldl (fun _ _ _ => ?_) ?_ | with_reducible refine nkeeps_foldl (fun _ _ _ => ?_) ?_
    | with_reducible refine npkeeps_foldl (fun _ _ _ => ?_) ?_ | with_reducible exact nkeeps_none
    | with_reducible apply nkeeps_some | with_reducible apply nkeeps_ite
    | with_reducible refine nkeeps_eq (by assumption) ?_ | with_reducible exact npkeeps_none
    | with_reducible apply npkeeps_some | with_reducible apply npkeeps_ite
    | with_reducible refine npkeeps_eq (by assumption) ?_ | with_reducible refine npkeeps_var (by assumption) ?_
    | with_reducible exact keeps_of_p (by with_reducible assumption)
    | with_reducible exact keeps_of_n (by with_reducible assumption)
    | with_reducible exact keeps_of_np (by with_reducible assumption)
    | (extract_lets +onlyGivenNames x; (have : True := by clear_value x; clear * - x; exact is_state (by assumption)); clear this; refine (fun hx => ?_ : State.Keeps Q x → _) ?_ <;> [clear_value x; (dsimp -zeta only [x]; clear x)])
    | (extract_lets +onlyGivenNames x; (have : True := by clear_value x; clear * - x; exact is_pair (by assumption)); clear this; refine (fun hx => ?_ : PKeeps Q x → _) ?_ <;> [clear_value x; (dsimp -zeta only [x]; clear x)])
    | (extract_lets +onlyGivenNames x; (have : True := by clear_value x; clear * - x; exact is_opt (by assumption)); clear this; refine (fun hx => ?_ : NKeeps Q x → _) ?_ <;> [clear_value x; (dsimp -zeta only [x]; clear x)])
    | (extract_lets +onlyGivenNames x; (have : True := by clear_value x; clear * - x; exact is_opt_pair (by assumption)); clear this; refine (fun hx => ?_ : NPKeeps Q x → _) ?_ <;> [clear_value x; (dsimp -zeta only [x]; clear x)])
    | (extract_lets +onlyGivenNames x; clear_value x) | fail_if_no_progress with_reducible rw [keeps_mk] | split
    | dsimp -zeta only | with_reducible apply pkeeps_mk

theorem execRebuildTrusting_keeps {Q : List Instr} {src : CmdSrc} {req : List (BitVec 8)} {bs : List Bursts} {s : State} (h : s.Keeps Q) :
    OKeeps Q (execRebuildTrusting src req bs s) := by
  unfold execRebuildTrusting
  repeat' first
    | with_reducible apply okeeps_next | with_reducible exact okeeps_fault | with_reducible apply okeeps_ite
    | with_reducible assumption | with_reducible refine State.vendor_keeps (fun _ _ _ => ?_) ?_
    | with_reducible apply State.rebuildTrusting_keeps
    | (with_reducible apply keeps_fst; with_reducible apply State.rebuildTrusting_keeps) | with_reducible apply keeps_ite
    | with_reducible exact keeps_fst (by with_reducible assumption) | with_reducible apply pkeeps_ite
    | with_reducible exact pkeeps_eq (by assumption) (by assumption) | with_reducible refine pkeeps_eq (by assumption) ?_
    | with_reducible exact keeps_of_p (by with_reducible assumption) | fail_if_no_progress with_reducible rw [keeps_mk]
    | split | dsimp -zeta only | with_reducible apply pkeeps_mk

end Sys2Proof.Machine
end

