-- ==== Sys2Proof/Laws/KeepsCoh.lean ====
section
/-!
SUPPORT. The meanings and operations of Machine/Coh.lean keep a sound state and its queue.
-/
set_option linter.unusedTactic false
set_option linter.unusedSimpArgs false
set_option linter.unusedVariables false
set_option linter.unreachableTactic false

namespace Sys2Proof.Machine

theorem State.dirFlush_keeps {Q : List Instr} {s : State} (h : s.Keeps Q) :
    (State.dirFlush s).Keeps Q := by
  unfold State.dirFlush
  repeat' first
    | with_reducible assumption | with_reducible apply State.put_keeps | with_reducible apply State.flushStep_keeps
    | with_reducible apply State.release_keeps | with_reducible apply keeps_ite | split | dsimp -zeta only

theorem execDirFlush_keeps {Q : List Instr} {s : State} (h : s.Keeps Q) :
    OKeeps Q (execDirFlush s) := by
  unfold execDirFlush
  repeat' first
    | with_reducible apply okeeps_next | with_reducible exact okeeps_fault | with_reducible apply okeeps_ite
    | with_reducible assumption | with_reducible apply State.dirFlush_keeps | with_reducible apply keeps_ite | split
    | dsimp -zeta only

theorem State.dirWriteback_keeps {Q : List Instr} {s : State} {da : Nat} {e : DirEnt} {b : Bursts} (h : s.Keeps Q) :
    (State.dirWriteback s da e b).Keeps Q := by
  unfold State.dirWriteback
  repeat' first
    | with_reducible assumption | with_reducible apply State.put_keeps | with_reducible apply State.writePlain_keeps
    | with_reducible apply State.bump_keeps | with_reducible apply State.telHub_keeps
    | with_reducible apply State.dirClean_keeps | with_reducible apply State.readPlain_keeps
    | (with_reducible apply keeps_fst; with_reducible apply State.writePlain_keeps)
    | (with_reducible apply keeps_fst; with_reducible apply State.readPlain_keeps) | with_reducible apply keeps_ite
    | with_reducible exact keeps_fst (by with_reducible assumption) | with_reducible apply pkeeps_ite
    | with_reducible exact pkeeps_eq (by assumption) (by assumption) | with_reducible refine pkeeps_eq (by assumption) ?_
    | with_reducible exact keeps_of_p (by with_reducible assumption)
    | (extract_lets +onlyGivenNames x; (have : True := by clear_value x; clear * - x; exact is_state (by assumption)); clear this; refine (fun hx => ?_ : State.Keeps Q x → _) ?_ <;> [clear_value x; (dsimp -zeta only [x]; clear x)])
    | (extract_lets +onlyGivenNames x; (have : True := by clear_value x; clear * - x; exact is_pair (by assumption)); clear this; refine (fun hx => ?_ : PKeeps Q x → _) ?_ <;> [clear_value x; (dsimp -zeta only [x]; clear x)])
    | (extract_lets +onlyGivenNames x; (have : True := by clear_value x; clear * - x; exact is_fun (by assumption)); clear this; dsimp -zeta only [x]; clear x)
    | (extract_lets +onlyGivenNames x; clear_value x) | fail_if_no_progress with_reducible rw [keeps_mk] | split
    | dsimp -zeta only | with_reducible apply pkeeps_mk

theorem execDirectoryWriteback_keeps {Q : List Instr} {da : BitVec 48} {b : Bursts} {s : State} (h : s.Keeps Q) :
    OKeeps Q (execDirectoryWriteback da b s) := by
  unfold execDirectoryWriteback
  repeat' first
    | with_reducible apply okeeps_next | with_reducible exact okeeps_fault | with_reducible apply okeeps_ite
    | with_reducible assumption | with_reducible apply State.dirWriteback_keeps | with_reducible apply State.release_keeps
    | with_reducible apply keeps_ite
    | (extract_lets +onlyGivenNames x; (have : True := by clear_value x; clear * - x; exact is_state (by assumption)); clear this; refine (fun hx => ?_ : State.Keeps Q x → _) ?_ <;> [clear_value x; (dsimp -zeta only [x]; clear x)])
    | (extract_lets +onlyGivenNames x; clear_value x) | fail_if_no_progress with_reducible rw [keeps_mk] | split
    | dsimp -zeta only

theorem State.sweepLine_keeps {Q : List Instr} {s : State} {t : Nat} {da : Nat} {b : Bursts} (h : s.Keeps Q) :
    PKeeps Q (State.sweepLine s t da b) := by
  unfold State.sweepLine
  repeat' first
    | with_reducible assumption | with_reducible apply State.dirWay_keeps | with_reducible apply State.makeWay_keeps
    | with_reducible apply State.dirLoad_keeps | with_reducible apply State.readLine_keeps
    | (with_reducible apply keeps_fst; with_reducible apply State.readLine_keeps) | with_reducible apply keeps_ite
    | with_reducible exact keeps_fst (by with_reducible assumption) | with_reducible apply pkeeps_ite
    | with_reducible exact pkeeps_eq (by assumption) (by assumption) | with_reducible refine pkeeps_eq (by assumption) ?_
    | with_reducible exact nkeeps_none | with_reducible apply nkeeps_some | with_reducible apply nkeeps_ite
    | with_reducible refine nkeeps_eq (by assumption) ?_ | with_reducible exact keeps_of_p (by with_reducible assumption)
    | with_reducible exact keeps_of_n (by with_reducible assumption) | with_reducible apply nkeeps_getD
    | (extract_lets +onlyGivenNames x; (have : True := by clear_value x; clear * - x; exact is_state (by assumption)); clear this; refine (fun hx => ?_ : State.Keeps Q x → _) ?_ <;> [clear_value x; (dsimp -zeta only [x]; clear x)])
    | (extract_lets +onlyGivenNames x; (have : True := by clear_value x; clear * - x; exact is_pair (by assumption)); clear this; refine (fun hx => ?_ : PKeeps Q x → _) ?_ <;> [clear_value x; (dsimp -zeta only [x]; clear x)])
    | (extract_lets +onlyGivenNames x; (have : True := by clear_value x; clear * - x; exact is_opt (by assumption)); clear this; refine (fun hx => ?_ : NKeeps Q x → _) ?_ <;> [clear_value x; (dsimp -zeta only [x]; clear x)])
    | (extract_lets +onlyGivenNames x; (have : True := by clear_value x; clear * - x; exact is_fun (by assumption)); clear this; dsimp -zeta only [x]; clear x)
    | (extract_lets +onlyGivenNames x; clear_value x) | fail_if_no_progress with_reducible rw [keeps_mk] | split
    | dsimp -zeta only | with_reducible apply pkeeps_mk

theorem execHostSweepStep_keeps {Q : List Instr} {p : Fin 8} {vi : BitVec 16} {page : BitVec 45} {line : Fin 64} {b : Bursts} {s : State} (h : s.Keeps Q) :
    OKeeps Q (execHostSweepStep p vi page line b s) := by
  unfold execHostSweepStep
  repeat' first
    | with_reducible apply okeeps_next | with_reducible exact okeeps_fault | with_reducible apply okeeps_ite
    | with_reducible assumption | with_reducible apply State.endSweep_keeps | with_reducible apply State.urgUpdate_keeps
    | with_reducible apply State.sweepLine_keeps | with_reducible apply State.setPrt_keeps
    | (with_reducible apply keeps_fst; with_reducible apply State.sweepLine_keeps) | with_reducible apply keeps_ite
    | with_reducible exact keeps_fst (by with_reducible assumption) | with_reducible apply pkeeps_ite
    | with_reducible exact pkeeps_eq (by assumption) (by assumption) | with_reducible refine pkeeps_eq (by assumption) ?_
    | with_reducible exact keeps_of_p (by with_reducible assumption)
    | (extract_lets +onlyGivenNames x; (have : True := by clear_value x; clear * - x; exact is_state (by assumption)); clear this; refine (fun hx => ?_ : State.Keeps Q x → _) ?_ <;> [clear_value x; (dsimp -zeta only [x]; clear x)])
    | (extract_lets +onlyGivenNames x; (have : True := by clear_value x; clear * - x; exact is_pair (by assumption)); clear this; refine (fun hx => ?_ : PKeeps Q x → _) ?_ <;> [clear_value x; (dsimp -zeta only [x]; clear x)])
    | (extract_lets +onlyGivenNames x; clear_value x) | fail_if_no_progress with_reducible rw [keeps_mk] | split
    | dsimp -zeta only | with_reducible apply pkeeps_mk

end Sys2Proof.Machine
end

