-- ==== Sys2Proof/Laws/KeepsVi.lean ====
section
/-!
SUPPORT. The meanings and operations of Machine/Vi.lean keep a sound state and its queue.
-/
set_option linter.unusedTactic false
set_option linter.unusedSimpArgs false
set_option linter.unusedVariables false
set_option linter.unreachableTactic false

namespace Sys2Proof.Machine

theorem State.viTo_keeps {Q : List Instr} {s : State} {t : Nat} {st : ViState} (h : s.Keeps Q) :
    (State.viTo s t st).Keeps Q := by
  unfold State.viTo
  repeat' first
    | with_reducible assumption | with_reducible apply State.setVi_keeps | with_reducible apply State.raise_keeps
    | with_reducible apply keeps_ite
    | (extract_lets +onlyGivenNames x; (have : True := by clear_value x; clear * - x; exact is_state (by assumption)); clear this; refine (fun hx => ?_ : State.Keeps Q x → _) ?_ <;> [clear_value x; (dsimp -zeta only [x]; clear x)])
    | (extract_lets +onlyGivenNames x; clear_value x) | fail_if_no_progress with_reducible rw [keeps_mk] | split
    | dsimp -zeta only

theorem State.invPorts_keeps {Q : List Instr} {s : State} {t : Nat} {mask : Nat} (h : s.Keeps Q) :
    (State.invPorts s t mask).Keeps Q := by
  unfold State.invPorts
  repeat' first
    | with_reducible assumption | with_reducible apply State.invNow_keeps | with_reducible apply keeps_ite
    | with_reducible refine keeps_foldl (fun _ _ _ => ?_) ?_ | with_reducible refine nkeeps_foldl (fun _ _ _ => ?_) ?_
    | with_reducible refine npkeeps_foldl (fun _ _ _ => ?_) ?_ | split | dsimp -zeta only

theorem State.dropLines_keeps {Q : List Instr} {s : State} {lo hi : Nat} (h : s.Keeps Q) : (State.dropLines s lo hi).Keeps Q :=
  keeps_media (s := s) h (SMap.sorted_drop' _ _ h.media_sorted)

theorem State.zeroFrames_keeps {Q : List Instr} {t tier : Nat} {l : List Nat} :
    ∀ {s : State}, s.Keeps Q → NKeeps Q (State.zeroFrames s t tier l) := by
  induction l with
  | nil => intro s h; exact nkeeps_some h
  | cons a l ih =>
    intro s h
    unfold State.zeroFrames
    split
    · rename_i e
      exact ih (nkeeps_eq e (State.writeFrame_keeps h))
    · exact nkeeps_none

theorem State.takeBack_keeps {Q : List Instr} {s : State} {t : Nat} (h : s.Keeps Q) :
    (State.takeBack s t).Keeps Q := by
  unfold State.takeBack
  repeat' first
    | with_reducible assumption | with_reducible apply State.put_keeps | with_reducible apply State.setPier_keeps
    | with_reducible apply State.descWrite_keeps | with_reducible apply keeps_ite
    | with_reducible refine keeps_foldl (fun _ _ _ => ?_) ?_ | with_reducible refine nkeeps_foldl (fun _ _ _ => ?_) ?_
    | with_reducible refine npkeeps_foldl (fun _ _ _ => ?_) ?_
    | (extract_lets +onlyGivenNames x; (have : True := by clear_value x; clear * - x; exact is_state (by assumption)); clear this; refine (fun hx => ?_ : State.Keeps Q x → _) ?_ <;> [clear_value x; (dsimp -zeta only [x]; clear x)])
    | (extract_lets +onlyGivenNames x; clear_value x) | fail_if_no_progress with_reducible rw [keeps_mk] | split
    | dsimp -zeta only

theorem State.dropBack_keeps {Q : List Instr} {s : State} {t : Nat} (h : s.Keeps Q) :
    (State.dropBack s t).Keeps Q := by
  unfold State.dropBack
  repeat' first
    | with_reducible assumption | with_reducible apply State.setVi_keeps | with_reducible apply keeps_ite
    | (extract_lets +onlyGivenNames x; (have : True := by clear_value x; clear * - x; exact is_state (by assumption)); clear this; refine (fun hx => ?_ : State.Keeps Q x → _) ?_ <;> [clear_value x; (dsimp -zeta only [x]; clear x)])
    | (extract_lets +onlyGivenNames x; clear_value x) | fail_if_no_progress with_reducible rw [keeps_mk] | split
    | dsimp -zeta only

theorem State.buildVi_keeps {Q : List Instr} {s : State} {t : Nat} (h : s.Keeps Q) :
    NKeeps Q (State.buildVi s t) := by
  unfold State.buildVi
  repeat' first
    | with_reducible assumption | with_reducible apply State.dropFrames_keeps | with_reducible apply State.bind_keeps
    | with_reducible apply State.zeroFrames_keeps | with_reducible apply keeps_ite
    | with_reducible refine keeps_foldl (fun _ _ _ => ?_) ?_ | with_reducible refine nkeeps_foldl (fun _ _ _ => ?_) ?_
    | with_reducible refine npkeeps_foldl (fun _ _ _ => ?_) ?_ | with_reducible exact nkeeps_none
    | with_reducible apply nkeeps_some | with_reducible apply nkeeps_ite
    | with_reducible refine nkeeps_eq (by assumption) ?_ | with_reducible exact keeps_of_n (by with_reducible assumption)
    | with_reducible refine nkeeps_bind (fun _ _ => ?_) ?_ | with_reducible refine nkeeps_map (fun _ _ => ?_) ?_
    | with_reducible refine npkeeps_map (fun _ _ => ?_) ?_ | with_reducible refine nkeeps_map_pair (fun _ _ => ?_) ?_
    | (extract_lets +onlyGivenNames x; (have : True := by clear_value x; clear * - x; exact is_state (by assumption)); clear this; refine (fun hx => ?_ : State.Keeps Q x → _) ?_ <;> [clear_value x; (dsimp -zeta only [x]; clear x)])
    | (extract_lets +onlyGivenNames x; (have : True := by clear_value x; clear * - x; exact is_opt (by assumption)); clear this; refine (fun hx => ?_ : NKeeps Q x → _) ?_ <;> [clear_value x; (dsimp -zeta only [x]; clear x)])
    | (extract_lets +onlyGivenNames x; clear_value x) | fail_if_no_progress with_reducible rw [keeps_mk] | split
    | dsimp -zeta only

theorem execCreateVi_keeps {Q : List Instr} {src : CmdSrc} {req : List (BitVec 8)} {tpool : BitVec 36} {descBase : BitVec 40} {s : State} (h : s.Keeps Q) :
    OKeeps Q (execCreateVi src req tpool descBase s) := by
  unfold execCreateVi
  repeat' first
    | with_reducible apply okeeps_next | with_reducible exact okeeps_fault | with_reducible apply okeeps_ite
    | with_reducible assumption | with_reducible refine State.vendor_keeps (fun _ _ _ => ?_) ?_
    | with_reducible apply State.setVi_keeps | with_reducible apply State.takeBack_keeps
    | with_reducible apply State.viTo_keeps | with_reducible apply State.keepRunning_keeps
    | with_reducible apply State.pacerUpdate_keeps | with_reducible apply State.ladderCross_keeps
    | with_reducible apply keeps_ite | with_reducible exact keeps_fst (by with_reducible assumption)
    | with_reducible apply pkeeps_ite | with_reducible exact pkeeps_eq (by assumption) (by assumption)
    | with_reducible refine pkeeps_eq (by assumption) ?_ | with_reducible exact keeps_of_p (by with_reducible assumption)
    | (extract_lets +onlyGivenNames x; (have : True := by clear_value x; clear * - x; exact is_state (by assumption)); clear this; refine (fun hx => ?_ : State.Keeps Q x → _) ?_ <;> [clear_value x; (dsimp -zeta only [x]; clear x)])
    | (extract_lets +onlyGivenNames x; (have : True := by clear_value x; clear * - x; exact is_pair (by assumption)); clear this; refine (fun hx => ?_ : PKeeps Q x → _) ?_ <;> [clear_value x; (dsimp -zeta only [x]; clear x)])
    | (extract_lets +onlyGivenNames x; clear_value x) | fail_if_no_progress with_reducible rw [keeps_mk] | split
    | dsimp -zeta only | with_reducible apply pkeeps_mk

theorem execViCreateDone_keeps {Q : List Instr} {vi : BitVec 16} {s : State} (h : s.Keeps Q) :
    OKeeps Q (execViCreateDone vi s) := by
  unfold execViCreateDone
  repeat' first
    | with_reducible apply okeeps_next | with_reducible exact okeeps_fault | with_reducible apply okeeps_ite
    | with_reducible assumption | with_reducible apply State.buildVi_keeps | with_reducible apply State.viTo_keeps
    | with_reducible apply State.endRunning_keeps | with_reducible apply keeps_ite | with_reducible exact nkeeps_none
    | with_reducible apply nkeeps_some | with_reducible apply nkeeps_ite
    | with_reducible refine nkeeps_eq (by assumption) ?_ | with_reducible exact keeps_of_n (by with_reducible assumption)
    | (extract_lets +onlyGivenNames x; (have : True := by clear_value x; clear * - x; exact is_state (by assumption)); clear this; refine (fun hx => ?_ : State.Keeps Q x → _) ?_ <;> [clear_value x; (dsimp -zeta only [x]; clear x)])
    | (extract_lets +onlyGivenNames x; (have : True := by clear_value x; clear * - x; exact is_opt (by assumption)); clear this; refine (fun hx => ?_ : NKeeps Q x → _) ?_ <;> [clear_value x; (dsimp -zeta only [x]; clear x)])
    | (extract_lets +onlyGivenNames x; clear_value x) | fail_if_no_progress with_reducible rw [keeps_mk] | split
    | dsimp -zeta only

theorem State.forceRelease_keeps {Q : List Instr} {s : State} {t : Nat} {mask : Nat} (h : s.Keeps Q) :
    (State.forceRelease s t mask).Keeps Q := by
  unfold State.forceRelease
  repeat' first
    | with_reducible assumption | with_reducible apply State.dcNotice_keeps | with_reducible apply keeps_ite
    | with_reducible refine keeps_foldl (fun _ _ _ => ?_) ?_ | with_reducible refine nkeeps_foldl (fun _ _ _ => ?_) ?_
    | with_reducible refine npkeeps_foldl (fun _ _ _ => ?_) ?_
    | (extract_lets +onlyGivenNames x; (have : True := by clear_value x; clear * - x; exact is_state (by assumption)); clear this; refine (fun hx => ?_ : State.Keeps Q x → _) ?_ <;> [clear_value x; (dsimp -zeta only [x]; clear x)])
    | (extract_lets +onlyGivenNames x; clear_value x) | fail_if_no_progress with_reducible rw [keeps_mk] | split
    | dsimp -zeta only

theorem State.offer_keeps {Q : List Instr} {s : State} {t : Nat} {start : Nat} {blocks : Nat} {port : Nat} {elastic : Bool} (h : s.Keeps Q) :
    (State.offer s t start blocks port elastic).Keeps Q := by
  unfold State.offer
  repeat' first
    | with_reducible assumption | with_reducible apply State.dcNotice_keeps | with_reducible apply keeps_ite
    | (extract_lets +onlyGivenNames x; (have : True := by clear_value x; clear * - x; exact is_state (by assumption)); clear this; refine (fun hx => ?_ : State.Keeps Q x → _) ?_ <;> [clear_value x; (dsimp -zeta only [x]; clear x)])
    | (extract_lets +onlyGivenNames x; clear_value x) | fail_if_no_progress with_reducible rw [keeps_mk] | split
    | dsimp -zeta only

theorem State.offerAll_keeps {Q : List Instr} {s : State} {t : Nat} {k : Nat} (h : s.Keeps Q) :
    (State.offerAll s t k).Keeps Q := by
  unfold State.offerAll
  repeat' first
    | with_reducible assumption | with_reducible apply State.offer_keeps | with_reducible apply keeps_ite
    | with_reducible refine keeps_foldl (fun _ _ _ => ?_) ?_ | with_reducible refine nkeeps_foldl (fun _ _ _ => ?_) ?_
    | with_reducible refine npkeeps_foldl (fun _ _ _ => ?_) ?_
    | (extract_lets +onlyGivenNames x; (have : True := by clear_value x; clear * - x; exact is_state (by assumption)); clear this; refine (fun hx => ?_ : State.Keeps Q x → _) ?_ <;> [clear_value x; (dsimp -zeta only [x]; clear x)])
    | (extract_lets +onlyGivenNames x; (have : True := by clear_value x; clear * - x; exact is_fun (by assumption)); clear this; dsimp -zeta only [x]; clear x)
    | (extract_lets +onlyGivenNames x; clear_value x) | split | dsimp -zeta only

theorem State.clearW_keeps {Q : List Instr} {s : State} {t : Nat} (h : s.Keeps Q) :
    (State.clearW s t).Keeps Q := by
  unfold State.clearW
  repeat' first
    | with_reducible assumption | with_reducible apply State.casEntry_keeps | with_reducible apply State.setVi_keeps
    | (with_reducible apply keeps_fst; with_reducible apply State.casEntry_keeps) | with_reducible apply keeps_ite
    | with_reducible exact keeps_fst (by with_reducible assumption) | with_reducible apply pkeeps_ite
    | with_reducible exact pkeeps_eq (by assumption) (by assumption) | with_reducible refine pkeeps_eq (by assumption) ?_
    | with_reducible refine keeps_foldl (fun _ _ _ => ?_) ?_ | with_reducible refine pkeeps_foldl (fun _ _ _ => ?_) ?_
    | with_reducible refine nkeeps_foldl (fun _ _ _ => ?_) ?_ | with_reducible refine npkeeps_foldl (fun _ _ _ => ?_) ?_
    | with_reducible exact keeps_of_p (by with_reducible assumption)
    | (extract_lets +onlyGivenNames x; (have : True := by clear_value x; clear * - x; exact is_state (by assumption)); clear this; refine (fun hx => ?_ : State.Keeps Q x → _) ?_ <;> [clear_value x; (dsimp -zeta only [x]; clear x)])
    | (extract_lets +onlyGivenNames x; (have : True := by clear_value x; clear * - x; exact is_pair (by assumption)); clear this; refine (fun hx => ?_ : PKeeps Q x → _) ?_ <;> [clear_value x; (dsimp -zeta only [x]; clear x)])
    | (extract_lets +onlyGivenNames x; clear_value x) | fail_if_no_progress with_reducible rw [keeps_mk] | split
    | dsimp -zeta only | with_reducible apply pkeeps_mk

theorem State.setW_keeps {Q : List Instr} {s : State} {t : Nat} (h : s.Keeps Q) :
    (State.setW s t).Keeps Q := by
  unfold State.setW
  repeat' first
    | with_reducible assumption | with_reducible apply State.casEntry_keeps | with_reducible apply State.setVi_keeps
    | (with_reducible apply keeps_fst; with_reducible apply State.casEntry_keeps) | with_reducible apply keeps_ite
    | with_reducible exact keeps_fst (by with_reducible assumption) | with_reducible apply pkeeps_ite
    | with_reducible exact pkeeps_eq (by assumption) (by assumption) | with_reducible refine pkeeps_eq (by assumption) ?_
    | with_reducible refine keeps_foldl (fun _ _ _ => ?_) ?_ | with_reducible refine pkeeps_foldl (fun _ _ _ => ?_) ?_
    | with_reducible refine nkeeps_foldl (fun _ _ _ => ?_) ?_ | with_reducible refine npkeeps_foldl (fun _ _ _ => ?_) ?_
    | with_reducible exact keeps_of_p (by with_reducible assumption)
    | (extract_lets +onlyGivenNames x; (have : True := by clear_value x; clear * - x; exact is_state (by assumption)); clear this; refine (fun hx => ?_ : State.Keeps Q x → _) ?_ <;> [clear_value x; (dsimp -zeta only [x]; clear x)])
    | (extract_lets +onlyGivenNames x; (have : True := by clear_value x; clear * - x; exact is_pair (by assumption)); clear this; refine (fun hx => ?_ : PKeeps Q x → _) ?_ <;> [clear_value x; (dsimp -zeta only [x]; clear x)])
    | (extract_lets +onlyGivenNames x; clear_value x) | fail_if_no_progress with_reducible rw [keeps_mk] | split
    | dsimp -zeta only | with_reducible apply pkeeps_mk

theorem State.unholdVi_keeps {Q : List Instr} {s : State} {t : Nat} (h : s.Keeps Q) :
    (State.unholdVi s t).Keeps Q := by
  unfold State.unholdVi
  repeat' first
    | with_reducible assumption | with_reducible apply State.setPrt_keeps | with_reducible apply State.lookup_keeps
    | with_reducible apply State.release_keeps | with_reducible apply keeps_ite
    | with_reducible refine keeps_foldl (fun _ _ _ => ?_) ?_ | with_reducible refine nkeeps_foldl (fun _ _ _ => ?_) ?_
    | with_reducible refine npkeeps_foldl (fun _ _ _ => ?_) ?_
    | (extract_lets +onlyGivenNames x; (have : True := by clear_value x; clear * - x; exact is_state (by assumption)); clear this; refine (fun hx => ?_ : State.Keeps Q x → _) ?_ <;> [clear_value x; (dsimp -zeta only [x]; clear x)])
    | (extract_lets +onlyGivenNames x; clear_value x) | fail_if_no_progress with_reducible rw [keeps_mk] | split
    | dsimp -zeta only

theorem State.noteBound_keeps {Q : List Instr} {s : State} {t : Nat} {k : Nat} (h : s.Keeps Q) :
    (State.noteBound s t k).Keeps Q := by
  unfold State.noteBound
  repeat' first
    | with_reducible assumption | with_reducible apply State.setPrt_keeps | with_reducible apply keeps_ite
    | fail_if_no_progress with_reducible rw [keeps_mk] | split | dsimp -zeta only

theorem State.noteSeen_keeps {Q : List Instr} {s : State} {t : Nat} {k : Nat} (h : s.Keeps Q) :
    (State.noteSeen s t k).Keeps Q := by
  unfold State.noteSeen
  repeat' first
    | with_reducible assumption | with_reducible apply State.setPrt_keeps | with_reducible apply keeps_ite
    | fail_if_no_progress with_reducible rw [keeps_mk] | split | dsimp -zeta only

theorem State.bind_keeps {Q : List Instr} {s : State} {t : Nat} {ports : Nat} {ld : Nat} {base : Nat} (h : s.Keeps Q) :
    (State.bind s t ports ld base).Keeps Q := by
  unfold State.bind
  repeat' first
    | with_reducible assumption | with_reducible apply State.clearW_keeps | with_reducible apply State.invPorts_keeps
    | with_reducible apply State.forceRelease_keeps | with_reducible apply State.noteSeen_keeps
    | with_reducible apply State.setVi_keeps | with_reducible apply State.pacerUpdate_keeps
    | with_reducible apply State.noteBound_keeps | with_reducible apply State.viTo_keeps
    | with_reducible apply State.offerAll_keeps | with_reducible apply State.unholdVi_keeps
    | with_reducible apply keeps_ite | with_reducible refine keeps_foldl (fun _ _ _ => ?_) ?_
    | with_reducible refine nkeeps_foldl (fun _ _ _ => ?_) ?_ | with_reducible refine npkeeps_foldl (fun _ _ _ => ?_) ?_
    | (extract_lets +onlyGivenNames x; (have : True := by clear_value x; clear * - x; exact is_state (by assumption)); clear this; refine (fun hx => ?_ : State.Keeps Q x → _) ?_ <;> [clear_value x; (dsimp -zeta only [x]; clear x)])
    | (extract_lets +onlyGivenNames x; clear_value x) | fail_if_no_progress with_reducible rw [keeps_mk] | split
    | dsimp -zeta only

theorem execBindVi_keeps {Q : List Instr} {src : CmdSrc} {req : List (BitVec 8)} {s : State} (h : s.Keeps Q) :
    OKeeps Q (execBindVi src req s) := by
  unfold execBindVi
  repeat' first
    | with_reducible apply okeeps_next | with_reducible exact okeeps_fault | with_reducible apply okeeps_ite
    | with_reducible assumption | with_reducible refine State.vendor_keeps (fun _ _ _ => ?_) ?_
    | with_reducible apply State.bind_keeps | with_reducible apply keeps_ite
    | with_reducible exact keeps_fst (by with_reducible assumption) | with_reducible apply pkeeps_ite
    | with_reducible exact pkeeps_eq (by assumption) (by assumption) | with_reducible refine pkeeps_eq (by assumption) ?_
    | with_reducible exact keeps_of_p (by with_reducible assumption) | with_reducible refine nkeeps_bind (fun _ _ => ?_) ?_
    | (extract_lets +onlyGivenNames x; (have : True := by clear_value x; clear * - x; exact is_state (by assumption)); clear this; refine (fun hx => ?_ : State.Keeps Q x → _) ?_ <;> [clear_value x; (dsimp -zeta only [x]; clear x)])
    | (extract_lets +onlyGivenNames x; (have : True := by clear_value x; clear * - x; exact is_pair (by assumption)); clear this; refine (fun hx => ?_ : PKeeps Q x → _) ?_ <;> [clear_value x; (dsimp -zeta only [x]; clear x)])
    | (extract_lets +onlyGivenNames x; clear_value x) | split | dsimp -zeta only | with_reducible apply pkeeps_mk

theorem State.recallVi_keeps {Q : List Instr} {s : State} {t : Nat} (h : s.Keeps Q) :
    PKeeps Q (State.recallVi s t) := by
  unfold State.recallVi
  repeat' first
    | with_reducible assumption | with_reducible apply State.recall_keeps | with_reducible apply State.dirChange_keeps
    | (with_reducible apply keeps_fst; with_reducible apply State.recall_keeps) | with_reducible apply keeps_ite
    | with_reducible exact keeps_fst (by with_reducible assumption) | with_reducible apply pkeeps_ite
    | with_reducible exact pkeeps_eq (by assumption) (by assumption) | with_reducible refine pkeeps_eq (by assumption) ?_
    | with_reducible refine keeps_foldl (fun _ _ _ => ?_) ?_ | with_reducible refine pkeeps_foldl (fun _ _ _ => ?_) ?_
    | with_reducible refine nkeeps_foldl (fun _ _ _ => ?_) ?_ | with_reducible refine npkeeps_foldl (fun _ _ _ => ?_) ?_
    | with_reducible exact keeps_of_p (by with_reducible assumption) | fail_if_no_progress with_reducible rw [keeps_mk]
    | split | dsimp -zeta only | with_reducible apply pkeeps_mk

theorem execQuiesceVi_keeps {Q : List Instr} {src : CmdSrc} {req : List (BitVec 8)} {s : State} (h : s.Keeps Q) :
    OKeeps Q (execQuiesceVi src req s) := by
  unfold execQuiesceVi
  repeat' first
    | with_reducible apply okeeps_next | with_reducible exact okeeps_fault | with_reducible apply okeeps_ite
    | with_reducible assumption | with_reducible refine State.vendor_keeps (fun _ _ _ => ?_) ?_
    | with_reducible apply State.viTo_keeps | with_reducible apply State.keepRunning_keeps | with_reducible apply keeps_ite
    | with_reducible exact keeps_fst (by with_reducible assumption) | with_reducible apply pkeeps_ite
    | with_reducible exact pkeeps_eq (by assumption) (by assumption) | with_reducible refine pkeeps_eq (by assumption) ?_
    | with_reducible exact keeps_of_p (by with_reducible assumption)
    | (extract_lets +onlyGivenNames x; (have : True := by clear_value x; clear * - x; exact is_state (by assumption)); clear this; refine (fun hx => ?_ : State.Keeps Q x → _) ?_ <;> [clear_value x; (dsimp -zeta only [x]; clear x)])
    | (extract_lets +onlyGivenNames x; (have : True := by clear_value x; clear * - x; exact is_pair (by assumption)); clear this; refine (fun hx => ?_ : PKeeps Q x → _) ?_ <;> [clear_value x; (dsimp -zeta only [x]; clear x)])
    | (extract_lets +onlyGivenNames x; clear_value x) | split | dsimp -zeta only | with_reducible apply pkeeps_mk

theorem State.invStep_keeps {Q : List Instr} {s : State} {t : Nat} (h : s.Keeps Q) :
    (State.invStep s t).Keeps Q := by
  unfold State.invStep
  repeat' first
    | with_reducible assumption | with_reducible apply State.invPorts_keeps | with_reducible apply State.setVi_keeps
    | with_reducible apply keeps_ite
    | (extract_lets +onlyGivenNames x; (have : True := by clear_value x; clear * - x; exact is_state (by assumption)); clear this; refine (fun hx => ?_ : State.Keeps Q x → _) ?_ <;> [clear_value x; (dsimp -zeta only [x]; clear x)])
    | (extract_lets +onlyGivenNames x; clear_value x) | fail_if_no_progress with_reducible rw [keeps_mk] | split
    | dsimp -zeta only

theorem State.stepDone_keeps {Q : List Instr} {s : State} {t : Nat} (h : s.Keeps Q) :
    (State.stepDone s t).Keeps Q := by
  unfold State.stepDone
  repeat' first
    | with_reducible assumption | with_reducible apply State.setVi_keeps | with_reducible apply keeps_ite
    | fail_if_no_progress with_reducible rw [keeps_mk] | split | dsimp -zeta only

theorem execQuiesceDone_keeps {Q : List Instr} {vi : BitVec 16} {s : State} (h : s.Keeps Q) :
    OKeeps Q (execQuiesceDone vi s) := by
  unfold execQuiesceDone
  repeat' first
    | with_reducible apply okeeps_next | with_reducible exact okeeps_fault | with_reducible apply okeeps_ite
    | with_reducible assumption | with_reducible apply State.invStep_keeps | with_reducible apply State.recallVi_keeps
    | with_reducible apply State.stepDone_keeps | with_reducible apply State.viTo_keeps
    | with_reducible apply State.endRunning_keeps
    | (with_reducible apply keeps_fst; with_reducible apply State.recallVi_keeps) | with_reducible apply keeps_ite
    | with_reducible exact keeps_fst (by with_reducible assumption) | with_reducible apply pkeeps_ite
    | with_reducible exact pkeeps_eq (by assumption) (by assumption) | with_reducible refine pkeeps_eq (by assumption) ?_
    | with_reducible exact keeps_of_p (by with_reducible assumption)
    | (extract_lets +onlyGivenNames x; (have : True := by clear_value x; clear * - x; exact is_state (by assumption)); clear this; refine (fun hx => ?_ : State.Keeps Q x → _) ?_ <;> [clear_value x; (dsimp -zeta only [x]; clear x)])
    | (extract_lets +onlyGivenNames x; (have : True := by clear_value x; clear * - x; exact is_pair (by assumption)); clear this; refine (fun hx => ?_ : PKeeps Q x → _) ?_ <;> [clear_value x; (dsimp -zeta only [x]; clear x)])
    | (extract_lets +onlyGivenNames x; clear_value x) | fail_if_no_progress with_reducible rw [keeps_mk] | split
    | dsimp -zeta only | with_reducible apply pkeeps_mk

theorem State.lapStop_keeps {Q : List Instr} {s : State} (h : s.Keeps Q) :
    (State.lapStop s).Keeps Q := by
  unfold State.lapStop
  repeat' first
    | with_reducible assumption | with_reducible apply State.put_keeps | with_reducible apply State.raise_keeps
    | with_reducible apply keeps_ite
    | (extract_lets +onlyGivenNames x; (have : True := by clear_value x; clear * - x; exact is_state (by assumption)); clear this; refine (fun hx => ?_ : State.Keeps Q x → _) ?_ <;> [clear_value x; (dsimp -zeta only [x]; clear x)])
    | (extract_lets +onlyGivenNames x; clear_value x) | fail_if_no_progress with_reducible rw [keeps_mk] | split
    | dsimp -zeta only

theorem State.freeBacking_keeps {Q : List Instr} {s : State} {t : Nat} (h : s.Keeps Q) :
    (State.freeBacking s t).Keeps Q := by
  unfold State.freeBacking
  repeat' first
    | with_reducible assumption | with_reducible apply State.freeLeaf_keeps | with_reducible apply State.freeDesc_keeps
    | with_reducible apply State.freePair_keeps | with_reducible apply State.dropBack_keeps
    | with_reducible apply keeps_ite | with_reducible refine keeps_foldl (fun _ _ _ => ?_) ?_
    | with_reducible refine nkeeps_foldl (fun _ _ _ => ?_) ?_ | with_reducible refine npkeeps_foldl (fun _ _ _ => ?_) ?_
    | (extract_lets +onlyGivenNames x; (have : True := by clear_value x; clear * - x; exact is_state (by assumption)); clear this; refine (fun hx => ?_ : State.Keeps Q x → _) ?_ <;> [clear_value x; (dsimp -zeta only [x]; clear x)])
    | (extract_lets +onlyGivenNames x; clear_value x) | split | dsimp -zeta only

theorem State.clearQueues_keeps {Q : List Instr} {s : State} {t : Nat} (h : s.Keeps Q) :
    (State.clearQueues s t).Keeps Q := by
  unfold State.clearQueues
  repeat' first
    | with_reducible assumption | with_reducible apply State.setVi_keeps | with_reducible apply State.dirtyLog_keeps
    | with_reducible apply keeps_ite | fail_if_no_progress with_reducible rw [keeps_mk] | split | dsimp -zeta only

theorem State.resetVi_keeps {Q : List Instr} {s : State} {t : Nat} (h : s.Keeps Q) :
    NKeeps Q (State.resetVi s t) := by
  unfold State.resetVi
  repeat' first
    | with_reducible assumption | with_reducible apply State.freeBacking_keeps
    | with_reducible apply State.clearQueues_keeps | with_reducible apply State.lapStop_keeps
    | with_reducible apply State.setVi_keeps | with_reducible apply State.takeBack_keeps
    | with_reducible apply State.buildVi_keeps | with_reducible apply State.invPorts_keeps
    | with_reducible apply State.ladderCross_keeps | with_reducible apply keeps_ite | with_reducible exact nkeeps_none
    | with_reducible apply nkeeps_some | with_reducible apply nkeeps_ite
    | with_reducible refine nkeeps_eq (by assumption) ?_ | with_reducible exact keeps_of_n (by with_reducible assumption)
    | with_reducible apply nkeeps_getD | with_reducible refine nkeeps_map (fun _ _ => ?_) ?_
    | with_reducible refine npkeeps_map (fun _ _ => ?_) ?_ | with_reducible refine nkeeps_map_pair (fun _ _ => ?_) ?_
    | (extract_lets +onlyGivenNames x; (have : True := by clear_value x; clear * - x; exact is_state (by assumption)); clear this; refine (fun hx => ?_ : State.Keeps Q x → _) ?_ <;> [clear_value x; (dsimp -zeta only [x]; clear x)])
    | (extract_lets +onlyGivenNames x; (have : True := by clear_value x; clear * - x; exact is_opt (by assumption)); clear this; refine (fun hx => ?_ : NKeeps Q x → _) ?_ <;> [clear_value x; (dsimp -zeta only [x]; clear x)])
    | (extract_lets +onlyGivenNames x; clear_value x) | fail_if_no_progress with_reducible rw [keeps_mk] | split
    | dsimp -zeta only

theorem execResetVi_keeps {Q : List Instr} {src : CmdSrc} {req : List (BitVec 8)} {s : State} (h : s.Keeps Q) :
    OKeeps Q (execResetVi src req s) := by
  unfold execResetVi
  repeat' first
    | with_reducible apply okeeps_next | with_reducible exact okeeps_fault | with_reducible apply okeeps_ite
    | with_reducible assumption | with_reducible refine State.vendor_keeps (fun _ _ _ => ?_) ?_
    | with_reducible apply State.viTo_keeps | with_reducible apply State.resetVi_keeps | with_reducible apply keeps_ite
    | with_reducible exact keeps_fst (by with_reducible assumption) | with_reducible apply pkeeps_ite
    | with_reducible exact pkeeps_eq (by assumption) (by assumption) | with_reducible refine pkeeps_eq (by assumption) ?_
    | with_reducible exact nkeeps_none | with_reducible apply nkeeps_some | with_reducible apply nkeeps_ite
    | with_reducible refine nkeeps_eq (by assumption) ?_ | with_reducible exact keeps_of_p (by with_reducible assumption)
    | with_reducible exact keeps_of_n (by with_reducible assumption)
    | (extract_lets +onlyGivenNames x; (have : True := by clear_value x; clear * - x; exact is_state (by assumption)); clear this; refine (fun hx => ?_ : State.Keeps Q x → _) ?_ <;> [clear_value x; (dsimp -zeta only [x]; clear x)])
    | (extract_lets +onlyGivenNames x; (have : True := by clear_value x; clear * - x; exact is_pair (by assumption)); clear this; refine (fun hx => ?_ : PKeeps Q x → _) ?_ <;> [clear_value x; (dsimp -zeta only [x]; clear x)])
    | (extract_lets +onlyGivenNames x; (have : True := by clear_value x; clear * - x; exact is_opt (by assumption)); clear this; refine (fun hx => ?_ : NKeeps Q x → _) ?_ <;> [clear_value x; (dsimp -zeta only [x]; clear x)])
    | (extract_lets +onlyGivenNames x; clear_value x) | fail_if_no_progress with_reducible rw [keeps_mk] | split
    | dsimp -zeta only | with_reducible apply pkeeps_mk

theorem State.removeVi_keeps {Q : List Instr} {s : State} {t : Nat} (h : s.Keeps Q) :
    (State.removeVi s t).Keeps Q := by
  unfold State.removeVi
  repeat' first
    | with_reducible assumption | with_reducible apply State.viTo_keeps | with_reducible apply State.freeBacking_keeps
    | with_reducible apply State.clearQueues_keeps | with_reducible apply State.lapStop_keeps
    | with_reducible apply State.forceRelease_keeps | with_reducible apply State.dropFrames_keeps
    | with_reducible apply State.invPorts_keeps | with_reducible apply State.pacerUpdate_keeps
    | with_reducible apply State.ladderCross_keeps | with_reducible apply keeps_ite
    | (extract_lets +onlyGivenNames x; (have : True := by clear_value x; clear * - x; exact is_state (by assumption)); clear this; refine (fun hx => ?_ : State.Keeps Q x → _) ?_ <;> [clear_value x; (dsimp -zeta only [x]; clear x)])
    | (extract_lets +onlyGivenNames x; clear_value x) | fail_if_no_progress with_reducible rw [keeps_mk] | split
    | dsimp -zeta only

theorem execRemoveVi_keeps {Q : List Instr} {src : CmdSrc} {req : List (BitVec 8)} {s : State} (h : s.Keeps Q) :
    OKeeps Q (execRemoveVi src req s) := by
  unfold execRemoveVi
  repeat' first
    | with_reducible apply okeeps_next | with_reducible exact okeeps_fault | with_reducible apply okeeps_ite
    | with_reducible assumption | with_reducible refine State.vendor_keeps (fun _ _ _ => ?_) ?_
    | with_reducible apply State.removeVi_keeps | with_reducible apply keeps_ite
    | with_reducible exact keeps_fst (by with_reducible assumption) | with_reducible apply pkeeps_ite
    | with_reducible exact pkeeps_eq (by assumption) (by assumption) | with_reducible refine pkeeps_eq (by assumption) ?_
    | with_reducible exact keeps_of_p (by with_reducible assumption)
    | (extract_lets +onlyGivenNames x; (have : True := by clear_value x; clear * - x; exact is_state (by assumption)); clear this; refine (fun hx => ?_ : State.Keeps Q x → _) ?_ <;> [clear_value x; (dsimp -zeta only [x]; clear x)])
    | (extract_lets +onlyGivenNames x; (have : True := by clear_value x; clear * - x; exact is_pair (by assumption)); clear this; refine (fun hx => ?_ : PKeeps Q x → _) ?_ <;> [clear_value x; (dsimp -zeta only [x]; clear x)])
    | (extract_lets +onlyGivenNames x; clear_value x) | split | dsimp -zeta only | with_reducible apply pkeeps_mk

theorem State.freezeGo_keeps {Q : List Instr} {s : State} {t : Nat} (h : s.Keeps Q) :
    (State.freezeGo s t).Keeps Q := by
  unfold State.freezeGo
  repeat' first
    | with_reducible assumption | with_reducible apply State.setW_keeps | with_reducible apply State.invStep_keeps
    | with_reducible apply State.recallVi_keeps | with_reducible apply State.stepDone_keeps
    | with_reducible apply State.viTo_keeps | with_reducible apply State.endRunning_keeps
    | (with_reducible apply keeps_fst; with_reducible apply State.recallVi_keeps) | with_reducible apply keeps_ite
    | with_reducible exact keeps_fst (by with_reducible assumption) | with_reducible apply pkeeps_ite
    | with_reducible exact pkeeps_eq (by assumption) (by assumption) | with_reducible refine pkeeps_eq (by assumption) ?_
    | with_reducible exact keeps_of_p (by with_reducible assumption) | fail_if_no_progress with_reducible rw [keeps_mk]
    | split | dsimp -zeta only | with_reducible apply pkeeps_mk

theorem execRelayFreeze_keeps {Q : List Instr} {src : CmdSrc} {req : List (BitVec 8)} {s : State} (h : s.Keeps Q) :
    OKeeps Q (execRelayFreeze src req s) := by
  unfold execRelayFreeze
  repeat' first
    | with_reducible apply okeeps_next | with_reducible exact okeeps_fault | with_reducible apply okeeps_ite
    | with_reducible assumption | with_reducible apply State.freezeGo_keeps
    | with_reducible refine State.vendor_keeps (fun _ _ _ => ?_) ?_ | with_reducible apply State.keepRunning_keeps
    | with_reducible apply keeps_ite | with_reducible exact keeps_fst (by with_reducible assumption)
    | with_reducible apply pkeeps_ite | with_reducible exact pkeeps_eq (by assumption) (by assumption)
    | with_reducible refine pkeeps_eq (by assumption) ?_ | with_reducible exact keeps_of_p (by with_reducible assumption)
    | (extract_lets +onlyGivenNames x; (have : True := by clear_value x; clear * - x; exact is_state (by assumption)); clear this; refine (fun hx => ?_ : State.Keeps Q x → _) ?_ <;> [clear_value x; (dsimp -zeta only [x]; clear x)])
    | (extract_lets +onlyGivenNames x; (have : True := by clear_value x; clear * - x; exact is_pair (by assumption)); clear this; refine (fun hx => ?_ : PKeeps Q x → _) ?_ <;> [clear_value x; (dsimp -zeta only [x]; clear x)])
    | (extract_lets +onlyGivenNames x; clear_value x) | split | dsimp -zeta only | with_reducible apply pkeeps_mk

theorem execRelayThaw_keeps {Q : List Instr} {src : CmdSrc} {req : List (BitVec 8)} {s : State} (h : s.Keeps Q) :
    OKeeps Q (execRelayThaw src req s) := by
  unfold execRelayThaw
  repeat' first
    | with_reducible apply okeeps_next | with_reducible exact okeeps_fault | with_reducible apply okeeps_ite
    | with_reducible assumption | with_reducible refine State.vendor_keeps (fun _ _ _ => ?_) ?_
    | with_reducible apply State.clearW_keeps | with_reducible apply State.viTo_keeps
    | with_reducible apply State.invPorts_keeps | with_reducible apply State.unholdVi_keeps
    | with_reducible apply keeps_ite | with_reducible exact keeps_fst (by with_reducible assumption)
    | with_reducible apply pkeeps_ite | with_reducible exact pkeeps_eq (by assumption) (by assumption)
    | with_reducible refine pkeeps_eq (by assumption) ?_ | with_reducible exact keeps_of_p (by with_reducible assumption)
    | (extract_lets +onlyGivenNames x; (have : True := by clear_value x; clear * - x; exact is_state (by assumption)); clear this; refine (fun hx => ?_ : State.Keeps Q x → _) ?_ <;> [clear_value x; (dsimp -zeta only [x]; clear x)])
    | (extract_lets +onlyGivenNames x; (have : True := by clear_value x; clear * - x; exact is_pair (by assumption)); clear this; refine (fun hx => ?_ : PKeeps Q x → _) ?_ <;> [clear_value x; (dsimp -zeta only [x]; clear x)])
    | (extract_lets +onlyGivenNames x; clear_value x) | split | dsimp -zeta only | with_reducible apply pkeeps_mk

theorem State.dirtyLog_keeps {Q : List Instr} {s : State} {src : CmdSrc} {req : List Nat} {base : Nat} (h : s.Keeps Q) :
    (State.dirtyLog s src req base).Keeps Q := by
  unfold State.dirtyLog
  repeat' first
    | with_reducible assumption | with_reducible refine State.vendor_keeps (fun _ _ _ => ?_) ?_
    | with_reducible apply State.setVi_keeps | with_reducible apply State.put_keeps | with_reducible apply keeps_ite
    | with_reducible exact keeps_fst (by with_reducible assumption) | with_reducible apply pkeeps_ite
    | with_reducible exact pkeeps_eq (by assumption) (by assumption) | with_reducible refine pkeeps_eq (by assumption) ?_
    | with_reducible exact keeps_of_p (by with_reducible assumption)
    | (extract_lets +onlyGivenNames x; (have : True := by clear_value x; clear * - x; exact is_state (by assumption)); clear this; refine (fun hx => ?_ : State.Keeps Q x → _) ?_ <;> [clear_value x; (dsimp -zeta only [x]; clear x)])
    | (extract_lets +onlyGivenNames x; (have : True := by clear_value x; clear * - x; exact is_pair (by assumption)); clear this; refine (fun hx => ?_ : PKeeps Q x → _) ?_ <;> [clear_value x; (dsimp -zeta only [x]; clear x)])
    | (extract_lets +onlyGivenNames x; clear_value x) | fail_if_no_progress with_reducible rw [keeps_mk] | split
    | dsimp -zeta only | with_reducible apply pkeeps_mk

theorem execDirtyLogStart_keeps {Q : List Instr} {src : CmdSrc} {req : List (BitVec 8)} {base : BitVec 36} {s : State} (h : s.Keeps Q) :
    OKeeps Q (execDirtyLogStart src req base s) := by
  unfold execDirtyLogStart
  repeat' first
    | with_reducible apply okeeps_next | with_reducible exact okeeps_fault | with_reducible apply okeeps_ite
    | with_reducible assumption | with_reducible apply State.dirtyLog_keeps | with_reducible apply keeps_ite | split
    | dsimp -zeta only

theorem execDirtyLogStop_keeps {Q : List Instr} {src : CmdSrc} {req : List (BitVec 8)} {s : State} (h : s.Keeps Q) :
    OKeeps Q (execDirtyLogStop src req s) := by
  unfold execDirtyLogStop
  repeat' first
    | with_reducible apply okeeps_next | with_reducible exact okeeps_fault | with_reducible apply okeeps_ite
    | with_reducible assumption | with_reducible apply State.dirtyLog_keeps | with_reducible apply keeps_ite | split
    | dsimp -zeta only

theorem State.viDoorbell_keeps {Q : List Instr} {s : State} {t : Nat} {v : Nat} (h : s.Keeps Q) :
    (State.viDoorbell s t v).Keeps Q := by
  unfold State.viDoorbell
  repeat' first
    | with_reducible assumption | with_reducible apply State.raise_keeps | with_reducible apply keeps_ite | split
    | dsimp -zeta only

theorem execViDoorbell_keeps {Q : List Instr} {p : Fin 8} {ld : Fin 16} {vi : BitVec 16} {v : BitVec 32} {s : State} (h : s.Keeps Q) :
    OKeeps Q (execViDoorbell p ld vi v s) := by
  unfold execViDoorbell
  repeat' first
    | with_reducible apply okeeps_next | with_reducible exact okeeps_fault | with_reducible apply okeeps_ite
    | with_reducible assumption | with_reducible apply State.viDoorbell_keeps | with_reducible apply keeps_ite | split
    | dsimp -zeta only

theorem execFqMissedClear_keeps {Q : List Instr} {p : Fin 8} {ld : Fin 16} {vi : BitVec 16} {v : BitVec 32} {s : State} (h : s.Keeps Q) :
    OKeeps Q (execFqMissedClear p ld vi v s) := by
  unfold execFqMissedClear
  repeat' first
    | with_reducible apply okeeps_next | with_reducible exact okeeps_fault | with_reducible apply okeeps_ite
    | with_reducible assumption | with_reducible apply State.setVi_keeps | with_reducible apply keeps_ite
    | (extract_lets +onlyGivenNames x; (have : True := by clear_value x; clear * - x; exact is_state (by assumption)); clear this; refine (fun hx => ?_ : State.Keeps Q x → _) ?_ <;> [clear_value x; (dsimp -zeta only [x]; clear x)])
    | (extract_lets +onlyGivenNames x; clear_value x) | fail_if_no_progress with_reducible rw [keeps_mk] | split
    | dsimp -zeta only

theorem execViTelUpdate_keeps {Q : List Instr} {s : State} (h : s.Keeps Q) :
    OKeeps Q (execViTelUpdate s) := by
  unfold execViTelUpdate
  repeat' first
    | with_reducible apply okeeps_next | with_reducible exact okeeps_fault | with_reducible apply okeeps_ite
    | with_reducible assumption | with_reducible apply keeps_ite | fail_if_no_progress with_reducible rw [keeps_mk] | split
    | dsimp -zeta only

end Sys2Proof.Machine
end

