-- ==== Sys2Proof/Laws/KeepsRelay.lean ====
section
/-!
SUPPORT. The meanings and operations of Machine/Relay.lean keep a sound state and its queue.
-/
set_option linter.unusedTactic false
set_option linter.unusedSimpArgs false
set_option linter.unusedVariables false
set_option linter.unreachableTactic false

namespace Sys2Proof.Machine

theorem State.pageLines_keeps {Q : List Instr} {s : State} {t : Nat} {page : Nat} {bs : List Bursts} (h : s.Keeps Q) :
    PKeeps Q (State.pageLines s t page bs) := by
  unfold State.pageLines
  repeat' first
    | with_reducible assumption | with_reducible apply State.readT2Page_keeps | with_reducible apply State.readFrame_keeps
    | (with_reducible apply keeps_fst; with_reducible apply State.readT2Page_keeps)
    | (with_reducible apply keeps_fst; with_reducible apply State.readFrame_keeps) | with_reducible apply keeps_ite
    | with_reducible exact keeps_fst (by with_reducible assumption) | with_reducible apply pkeeps_ite
    | with_reducible exact pkeeps_eq (by assumption) (by assumption) | with_reducible refine pkeeps_eq (by assumption) ?_
    | with_reducible exact keeps_of_p (by with_reducible assumption) | fail_if_no_progress with_reducible rw [keeps_mk]
    | split | dsimp -zeta only | with_reducible apply pkeeps_mk

theorem State.putLine_keeps {Q : List Instr} {s : State} {t : Nat} {page : Nat} {ln : Nat} {d : BitVec 512} {m : BitVec 64} (h : s.Keeps Q) :
    NKeeps Q (State.putLine s t page ln d m) := by
  unfold State.putLine
  repeat' first
    | with_reducible assumption | with_reducible apply State.wbufPut_keeps | with_reducible apply State.writePlain_keeps
    | with_reducible apply State.raiseRefused_keeps | with_reducible apply State.readPlain_keeps
    | (with_reducible apply keeps_fst; with_reducible apply State.writePlain_keeps)
    | (with_reducible apply keeps_fst; with_reducible apply State.readPlain_keeps) | with_reducible apply keeps_ite
    | with_reducible exact keeps_fst (by with_reducible assumption) | with_reducible apply pkeeps_ite
    | with_reducible exact pkeeps_eq (by assumption) (by assumption) | with_reducible refine pkeeps_eq (by assumption) ?_
    | with_reducible exact nkeeps_none | with_reducible apply nkeeps_some | with_reducible apply nkeeps_ite
    | with_reducible refine nkeeps_eq (by assumption) ?_ | with_reducible exact keeps_of_p (by with_reducible assumption)
    | with_reducible exact keeps_of_n (by with_reducible assumption)
    | (extract_lets +onlyGivenNames x; (have : True := by clear_value x; clear * - x; exact is_state (by assumption)); clear this; refine (fun hx => ?_ : State.Keeps Q x → _) ?_ <;> [clear_value x; (dsimp -zeta only [x]; clear x)])
    | (extract_lets +onlyGivenNames x; (have : True := by clear_value x; clear * - x; exact is_pair (by assumption)); clear this; refine (fun hx => ?_ : PKeeps Q x → _) ?_ <;> [clear_value x; (dsimp -zeta only [x]; clear x)])
    | (extract_lets +onlyGivenNames x; (have : True := by clear_value x; clear * - x; exact is_opt (by assumption)); clear this; refine (fun hx => ?_ : NKeeps Q x → _) ?_ <;> [clear_value x; (dsimp -zeta only [x]; clear x)])
    | (extract_lets +onlyGivenNames x; (have : True := by clear_value x; clear * - x; exact is_fun (by assumption)); clear this; dsimp -zeta only [x]; clear x)
    | (extract_lets +onlyGivenNames x; clear_value x) | fail_if_no_progress with_reducible rw [keeps_mk] | split
    | dsimp -zeta only | with_reducible apply pkeeps_mk

theorem State.putBytes_keeps {Q : List Instr} {n : Nat} :
    ∀ {s : State} {t via : Nat} {bs : List Nat}, s.Keeps Q → NKeeps Q (State.putBytes n s t via bs) := by
  induction n with
  | zero => intro s t via bs h; unfold State.putBytes; exact nkeeps_some h
  | succ n ih =>
    intro s t via bs h
    cases bs with
    | nil => exact nkeeps_some h
    | cons b bs =>
      unfold State.putBytes
      extract_lets l m
      split
      · rename_i e
        exact ih (nkeeps_eq e (State.putLine_keeps h))
      · exact nkeeps_none

theorem State.saveRecall_keeps {Q : List Instr} {s : State} {t : Nat} {pages : List Nat} (h : s.Keeps Q) :
    PKeeps Q (State.saveRecall s t pages) := by
  unfold State.saveRecall
  repeat' first
    | with_reducible assumption | with_reducible apply State.recall_keeps
    | (with_reducible apply keeps_fst; with_reducible apply State.recall_keeps) | with_reducible apply keeps_ite
    | with_reducible exact keeps_fst (by with_reducible assumption) | with_reducible apply pkeeps_ite
    | with_reducible exact pkeeps_eq (by assumption) (by assumption) | with_reducible refine pkeeps_eq (by assumption) ?_
    | with_reducible refine keeps_foldl (fun _ _ _ => ?_) ?_ | with_reducible refine pkeeps_foldl (fun _ _ _ => ?_) ?_
    | with_reducible refine nkeeps_foldl (fun _ _ _ => ?_) ?_ | with_reducible refine npkeeps_foldl (fun _ _ _ => ?_) ?_
    | with_reducible exact keeps_of_p (by with_reducible assumption) | fail_if_no_progress with_reducible rw [keeps_mk]
    | split | dsimp -zeta only | with_reducible apply pkeeps_mk

theorem State.saveRecords_keeps {Q : List Instr} {t : Nat} {l : List Nat} :
    ∀ {s : State} {bs : List Bursts}, s.Keeps Q → PKeeps Q (State.saveRecords s t l bs) := by
  induction l with
  | nil => intro s bs h; exact h
  | cons a l ih =>
    intro s bs h
    unfold State.saveRecords
    extract_lets kind rd
    have h1 : PKeeps Q rd := by
      dsimp only [rd]
      split
      · exact State.pageLines_keeps h
      · exact h
    clear_value rd
    split
    · exact h
    · have h2 := ih (bs := bs.drop 64) (keeps_fst h1)
      split
      · rename_i e
        exact pkeeps_eq e h2
      · exact h

theorem State.save_keeps {Q : List Instr} {s : State} {p : List Nat} {bs : List Bursts} (h : s.Keeps Q) :
    PKeeps Q (State.save s p bs) := by
  unfold State.save
  repeat' first
    | with_reducible assumption | with_reducible apply State.saveRecall_keeps | with_reducible apply State.put_keeps
    | with_reducible apply State.saveRecords_keeps | with_reducible apply State.setVi_keeps
    | with_reducible apply State.putBytes_keeps
    | (with_reducible apply keeps_fst; with_reducible apply State.saveRecall_keeps)
    | (with_reducible apply keeps_fst; with_reducible apply State.saveRecords_keeps) | with_reducible apply keeps_ite
    | with_reducible exact keeps_fst (by with_reducible assumption) | with_reducible apply pkeeps_ite
    | with_reducible exact pkeeps_eq (by assumption) (by assumption) | with_reducible refine pkeeps_eq (by assumption) ?_
    | with_reducible exact nkeeps_none | with_reducible apply nkeeps_some | with_reducible apply nkeeps_ite
    | with_reducible refine nkeeps_eq (by assumption) ?_ | with_reducible exact keeps_of_p (by with_reducible assumption)
    | with_reducible exact keeps_of_n (by with_reducible assumption) | with_reducible apply nkeeps_getD
    | (extract_lets +onlyGivenNames x; (have : True := by clear_value x; clear * - x; exact is_state (by assumption)); clear this; refine (fun hx => ?_ : State.Keeps Q x → _) ?_ <;> [clear_value x; (dsimp -zeta only [x]; clear x)])
    | (extract_lets +onlyGivenNames x; (have : True := by clear_value x; clear * - x; exact is_pair (by assumption)); clear this; refine (fun hx => ?_ : PKeeps Q x → _) ?_ <;> [clear_value x; (dsimp -zeta only [x]; clear x)])
    | (extract_lets +onlyGivenNames x; (have : True := by clear_value x; clear * - x; exact is_opt (by assumption)); clear this; refine (fun hx => ?_ : NKeeps Q x → _) ?_ <;> [clear_value x; (dsimp -zeta only [x]; clear x)])
    | (extract_lets +onlyGivenNames x; clear_value x) | fail_if_no_progress with_reducible rw [keeps_mk] | split
    | dsimp -zeta only | with_reducible apply pkeeps_mk

theorem State.relaySave_keeps {Q : List Instr} {s : State} {src : CmdSrc} {req : List Nat} {bs : List Bursts} (h : s.Keeps Q) :
    (State.relaySave s src req bs).Keeps Q := by
  unfold State.relaySave
  repeat' first
    | with_reducible assumption | with_reducible refine State.vendor_keeps (fun _ _ _ => ?_) ?_
    | with_reducible apply State.save_keeps | (with_reducible apply keeps_fst; with_reducible apply State.save_keeps)
    | with_reducible apply keeps_ite | with_reducible exact keeps_fst (by with_reducible assumption)
    | with_reducible apply pkeeps_ite | with_reducible exact pkeeps_eq (by assumption) (by assumption)
    | with_reducible refine pkeeps_eq (by assumption) ?_ | with_reducible exact keeps_of_p (by with_reducible assumption)
    | (extract_lets +onlyGivenNames x; (have : True := by clear_value x; clear * - x; exact is_state (by assumption)); clear this; refine (fun hx => ?_ : State.Keeps Q x → _) ?_ <;> [clear_value x; (dsimp -zeta only [x]; clear x)])
    | (extract_lets +onlyGivenNames x; (have : True := by clear_value x; clear * - x; exact is_pair (by assumption)); clear this; refine (fun hx => ?_ : PKeeps Q x → _) ?_ <;> [clear_value x; (dsimp -zeta only [x]; clear x)])
    | (extract_lets +onlyGivenNames x; clear_value x) | split | dsimp -zeta only | with_reducible apply pkeeps_mk

theorem execRelaySaveFull_keeps {Q : List Instr} {src : CmdSrc} {req : List (BitVec 8)} {bs : List Bursts} {s : State} (h : s.Keeps Q) :
    OKeeps Q (execRelaySaveFull src req bs s) := by
  unfold execRelaySaveFull
  repeat' first
    | with_reducible apply okeeps_next | with_reducible exact okeeps_fault | with_reducible apply okeeps_ite
    | with_reducible assumption | with_reducible apply State.relaySave_keeps | with_reducible apply keeps_ite | split
    | dsimp -zeta only

theorem execRelaySaveDelta_keeps {Q : List Instr} {src : CmdSrc} {req : List (BitVec 8)} {bs : List Bursts} {s : State} (h : s.Keeps Q) :
    OKeeps Q (execRelaySaveDelta src req bs s) := by
  unfold execRelaySaveDelta
  repeat' first
    | with_reducible apply okeeps_next | with_reducible exact okeeps_fault | with_reducible apply okeeps_ite
    | with_reducible assumption | with_reducible apply State.relaySave_keeps | with_reducible apply keeps_ite | split
    | dsimp -zeta only

theorem State.swapLeaf_keeps {Q : List Instr} {s : State} {t : Nat} {page : Nat} {new : Nat} {free : Bool} (h : s.Keeps Q) :
    NKeeps Q (State.swapLeaf s t page new free) := by
  unfold State.swapLeaf
  repeat' first
    | with_reducible assumption | with_reducible apply State.casEntry_keeps | with_reducible apply State.freeLeaf_keeps
    | (with_reducible apply keeps_fst; with_reducible apply State.casEntry_keeps) | with_reducible apply keeps_ite
    | with_reducible exact keeps_fst (by with_reducible assumption) | with_reducible apply pkeeps_ite
    | with_reducible exact pkeeps_eq (by assumption) (by assumption) | with_reducible refine pkeeps_eq (by assumption) ?_
    | with_reducible exact nkeeps_none | with_reducible apply nkeeps_some | with_reducible apply nkeeps_ite
    | with_reducible refine nkeeps_eq (by assumption) ?_ | with_reducible exact keeps_of_p (by with_reducible assumption)
    | with_reducible exact keeps_of_n (by with_reducible assumption) | fail_if_no_progress with_reducible rw [keeps_mk]
    | split | dsimp -zeta only | with_reducible apply pkeeps_mk

theorem State.fillPlace_keeps {Q : List Instr} {s : State} {t : Nat} {page : Nat} {pl : Place} {ls : List PLine} (h : s.Keeps Q) :
    NKeeps Q (State.fillPlace s t page pl ls) := by
  unfold State.fillPlace
  repeat' first
    | with_reducible assumption | with_reducible apply State.writeFrame_keeps | with_reducible apply State.bind_keeps
    | with_reducible apply State.wbufPut_keeps | with_reducible apply keeps_ite
    | with_reducible refine keeps_foldl (fun _ _ _ => ?_) ?_ | with_reducible refine nkeeps_foldl (fun _ _ _ => ?_) ?_
    | with_reducible refine npkeeps_foldl (fun _ _ _ => ?_) ?_ | with_reducible exact nkeeps_none
    | with_reducible apply nkeeps_some | with_reducible apply nkeeps_ite
    | with_reducible refine nkeeps_eq (by assumption) ?_ | with_reducible exact keeps_of_n (by with_reducible assumption)
    | with_reducible refine nkeeps_bind (fun _ _ => ?_) ?_ | fail_if_no_progress with_reducible rw [keeps_mk] | split
    | dsimp -zeta only

theorem State.restorePage_keeps {Q : List Instr} {s : State} {t : Nat} {r : BlobRec} {tier : Option Nat} {pl : Place} {ls : List PLine} (h : s.Keeps Q) :
    NKeeps Q (State.restorePage s t r tier pl ls) := by
  unfold State.restorePage
  repeat' first
    | with_reducible assumption | with_reducible apply State.freeDesc_keeps | with_reducible apply State.descWrite_keeps
    | with_reducible apply State.fillPlace_keeps | with_reducible apply State.claim_keeps
    | with_reducible apply State.swapLeaf_keeps | with_reducible apply State.exhaustPage_keeps
    | with_reducible apply keeps_ite | with_reducible exact nkeeps_none | with_reducible apply nkeeps_some
    | with_reducible apply nkeeps_ite | with_reducible refine nkeeps_eq (by assumption) ?_
    | with_reducible exact keeps_of_n (by with_reducible assumption)
    | (extract_lets +onlyGivenNames x; (have : True := by clear_value x; clear * - x; exact is_state (by assumption)); clear this; refine (fun hx => ?_ : State.Keeps Q x → _) ?_ <;> [clear_value x; (dsimp -zeta only [x]; clear x)])
    | (extract_lets +onlyGivenNames x; (have : True := by clear_value x; clear * - x; exact is_opt (by assumption)); clear this; refine (fun hx => ?_ : NKeeps Q x → _) ?_ <;> [clear_value x; (dsimp -zeta only [x]; clear x)])
    | (extract_lets +onlyGivenNames x; clear_value x) | fail_if_no_progress with_reducible rw [keeps_mk] | split
    | dsimp -zeta only

theorem State.applyRec_keeps {Q : List Instr} {s : State} {t : Nat} {r : BlobRec} {pls : List Place} (h : s.Keeps Q) :
    NPKeeps Q (State.applyRec s t r pls) := by
  unfold State.applyRec
  repeat' first
    | with_reducible assumption | with_reducible apply State.swapLeaf_keeps | with_reducible apply State.markDirty_keeps
    | with_reducible apply State.restorePage_keeps | with_reducible apply keeps_ite
    | with_reducible exact keeps_fst (by with_reducible assumption) | with_reducible apply pkeeps_ite
    | with_reducible exact pkeeps_eq (by assumption) (by assumption) | with_reducible refine pkeeps_eq (by assumption) ?_
    | with_reducible exact nkeeps_none | with_reducible apply nkeeps_some | with_reducible apply nkeeps_ite
    | with_reducible refine nkeeps_eq (by assumption) ?_ | with_reducible exact npkeeps_none
    | with_reducible apply npkeeps_some | with_reducible apply npkeeps_ite
    | with_reducible refine npkeeps_eq (by assumption) ?_ | with_reducible refine npkeeps_var (by assumption) ?_
    | with_reducible exact keeps_of_p (by with_reducible assumption)
    | with_reducible exact keeps_of_n (by with_reducible assumption)
    | with_reducible exact keeps_of_np (by with_reducible assumption) | with_reducible refine nkeeps_map (fun _ _ => ?_) ?_
    | with_reducible refine npkeeps_map (fun _ _ => ?_) ?_ | with_reducible refine nkeeps_map_pair (fun _ _ => ?_) ?_
    | (extract_lets +onlyGivenNames x; (have : True := by clear_value x; clear * - x; exact is_state (by assumption)); clear this; refine (fun hx => ?_ : State.Keeps Q x → _) ?_ <;> [clear_value x; (dsimp -zeta only [x]; clear x)])
    | (extract_lets +onlyGivenNames x; (have : True := by clear_value x; clear * - x; exact is_pair (by assumption)); clear this; refine (fun hx => ?_ : PKeeps Q x → _) ?_ <;> [clear_value x; (dsimp -zeta only [x]; clear x)])
    | (extract_lets +onlyGivenNames x; (have : True := by clear_value x; clear * - x; exact is_opt (by assumption)); clear this; refine (fun hx => ?_ : NKeeps Q x → _) ?_ <;> [clear_value x; (dsimp -zeta only [x]; clear x)])
    | (extract_lets +onlyGivenNames x; (have : True := by clear_value x; clear * - x; exact is_opt_pair (by assumption)); clear this; refine (fun hx => ?_ : NPKeeps Q x → _) ?_ <;> [clear_value x; (dsimp -zeta only [x]; clear x)])
    | (extract_lets +onlyGivenNames x; clear_value x) | split | dsimp -zeta only | with_reducible apply pkeeps_mk

theorem State.applyRecs_keeps {Q : List Instr} {t : Nat} {l : List BlobRec} :
    ∀ {s : State} {pls : List Place}, s.Keeps Q → PKeeps Q (State.applyRecs s t l pls) := by
  induction l with
  | nil => intro s pls h; exact h
  | cons a l ih =>
    intro s pls h
    unfold State.applyRecs
    split
    · rename_i e
      exact ih (npkeeps_eq e (State.applyRec_keeps h))
    · exact h

theorem State.restoreGo_keeps {Q : List Instr} {s : State} {t : Nat} {b : List Nat} {rs : List BlobRec} {pls : List Place} (h : s.Keeps Q) :
    PKeeps Q (State.restoreGo s t b rs pls) := by
  unfold State.restoreGo
  repeat' first
    | with_reducible assumption | with_reducible apply State.applyRecs_keeps | with_reducible apply State.setVi_keeps
    | with_reducible apply State.invalidate_keeps | with_reducible apply State.ladderCross_keeps
    | with_reducible apply State.viTo_keeps | (with_reducible apply keeps_fst; with_reducible apply State.applyRecs_keeps)
    | with_reducible apply keeps_ite | with_reducible exact keeps_fst (by with_reducible assumption)
    | with_reducible apply pkeeps_ite | with_reducible exact pkeeps_eq (by assumption) (by assumption)
    | with_reducible refine pkeeps_eq (by assumption) ?_ | with_reducible exact keeps_of_p (by with_reducible assumption)
    | (extract_lets +onlyGivenNames x; (have : True := by clear_value x; clear * - x; exact is_state (by assumption)); clear this; refine (fun hx => ?_ : State.Keeps Q x → _) ?_ <;> [clear_value x; (dsimp -zeta only [x]; clear x)])
    | (extract_lets +onlyGivenNames x; (have : True := by clear_value x; clear * - x; exact is_pair (by assumption)); clear this; refine (fun hx => ?_ : PKeeps Q x → _) ?_ <;> [clear_value x; (dsimp -zeta only [x]; clear x)])
    | (extract_lets +onlyGivenNames x; clear_value x) | fail_if_no_progress with_reducible rw [keeps_mk] | split
    | dsimp -zeta only | with_reducible apply pkeeps_mk

theorem State.restoreNew_keeps {Q : List Instr} {s : State} {src : CmdSrc} {p : List Nat} {tpool : Nat} {b0 : Nat} {pls : List Place} (h : s.Keeps Q) :
    PKeeps Q (State.restoreNew s src p tpool b0 pls) := by
  unfold State.restoreNew
  repeat' first
    | with_reducible assumption | with_reducible apply State.setVi_keeps | with_reducible apply State.takeBack_keeps
    | with_reducible apply State.viTo_keeps | with_reducible apply State.buildVi_keeps
    | with_reducible apply State.pacerUpdate_keeps | with_reducible apply State.restoreGo_keeps
    | with_reducible apply State.keepRunning_keeps
    | (with_reducible apply keeps_fst; with_reducible apply State.restoreGo_keeps) | with_reducible apply keeps_ite
    | with_reducible exact keeps_fst (by with_reducible assumption) | with_reducible apply pkeeps_ite
    | with_reducible exact pkeeps_eq (by assumption) (by assumption) | with_reducible refine pkeeps_eq (by assumption) ?_
    | with_reducible exact nkeeps_none | with_reducible apply nkeeps_some | with_reducible apply nkeeps_ite
    | with_reducible refine nkeeps_eq (by assumption) ?_ | with_reducible exact keeps_of_p (by with_reducible assumption)
    | with_reducible exact keeps_of_n (by with_reducible assumption) | with_reducible apply nkeeps_getD
    | (extract_lets +onlyGivenNames x; (have : True := by clear_value x; clear * - x; exact is_state (by assumption)); clear this; refine (fun hx => ?_ : State.Keeps Q x → _) ?_ <;> [clear_value x; (dsimp -zeta only [x]; clear x)])
    | (extract_lets +onlyGivenNames x; (have : True := by clear_value x; clear * - x; exact is_pair (by assumption)); clear this; refine (fun hx => ?_ : PKeeps Q x → _) ?_ <;> [clear_value x; (dsimp -zeta only [x]; clear x)])
    | (extract_lets +onlyGivenNames x; (have : True := by clear_value x; clear * - x; exact is_opt (by assumption)); clear this; refine (fun hx => ?_ : NKeeps Q x → _) ?_ <;> [clear_value x; (dsimp -zeta only [x]; clear x)])
    | (extract_lets +onlyGivenNames x; clear_value x) | fail_if_no_progress with_reducible rw [keeps_mk] | split
    | dsimp -zeta only | with_reducible apply pkeeps_mk

theorem State.restoreApply_keeps {Q : List Instr} {s : State} {src : CmdSrc} {p : List Nat} {pls : List Place} (h : s.Keeps Q) :
    PKeeps Q (State.restoreApply s src p pls) := by
  unfold State.restoreApply
  repeat' first
    | with_reducible assumption | with_reducible apply State.restoreGo_keeps | with_reducible apply State.keepRunning_keeps
    | (with_reducible apply keeps_fst; with_reducible apply State.restoreGo_keeps) | with_reducible apply keeps_ite
    | with_reducible exact keeps_fst (by with_reducible assumption) | with_reducible apply pkeeps_ite
    | with_reducible exact pkeeps_eq (by assumption) (by assumption) | with_reducible refine pkeeps_eq (by assumption) ?_
    | with_reducible exact keeps_of_p (by with_reducible assumption)
    | (extract_lets +onlyGivenNames x; (have : True := by clear_value x; clear * - x; exact is_state (by assumption)); clear this; refine (fun hx => ?_ : State.Keeps Q x → _) ?_ <;> [clear_value x; (dsimp -zeta only [x]; clear x)])
    | (extract_lets +onlyGivenNames x; (have : True := by clear_value x; clear * - x; exact is_pair (by assumption)); clear this; refine (fun hx => ?_ : PKeeps Q x → _) ?_ <;> [clear_value x; (dsimp -zeta only [x]; clear x)])
    | (extract_lets +onlyGivenNames x; clear_value x) | fail_if_no_progress with_reducible rw [keeps_mk] | split
    | dsimp -zeta only | with_reducible apply pkeeps_mk

theorem State.restoreMore_keeps {Q : List Instr} {s : State} {t : Nat} {p : List Nat} {pls : List Place} (h : s.Keeps Q) :
    (State.restoreMore s t p pls).Keeps Q := by
  unfold State.restoreMore
  repeat' first
    | with_reducible assumption | with_reducible apply State.setVi_keeps | with_reducible apply State.endRunning_keeps
    | with_reducible apply State.restoreGo_keeps
    | (with_reducible apply keeps_fst; with_reducible apply State.restoreGo_keeps) | with_reducible apply keeps_ite
    | with_reducible exact keeps_fst (by with_reducible assumption) | with_reducible apply pkeeps_ite
    | with_reducible exact pkeeps_eq (by assumption) (by assumption) | with_reducible refine pkeeps_eq (by assumption) ?_
    | with_reducible exact keeps_of_p (by with_reducible assumption) | fail_if_no_progress with_reducible rw [keeps_mk]
    | split | dsimp -zeta only | with_reducible apply pkeeps_mk

theorem execRelayRestoreNew_keeps {Q : List Instr} {src : CmdSrc} {req : List (BitVec 8)} {tpool : BitVec 36} {descBase : BitVec 40} {places : List Place} {s : State} (h : s.Keeps Q) :
    OKeeps Q (execRelayRestoreNew src req tpool descBase places s) := by
  unfold execRelayRestoreNew
  repeat' first
    | with_reducible apply okeeps_next | with_reducible exact okeeps_fault | with_reducible apply okeeps_ite
    | with_reducible assumption | with_reducible apply State.restoreMore_keeps
    | with_reducible refine State.vendor_keeps (fun _ _ _ => ?_) ?_ | with_reducible apply State.restoreNew_keeps
    | (with_reducible apply keeps_fst; with_reducible apply State.restoreNew_keeps) | with_reducible apply keeps_ite
    | with_reducible exact keeps_fst (by with_reducible assumption) | with_reducible apply pkeeps_ite
    | with_reducible exact pkeeps_eq (by assumption) (by assumption) | with_reducible refine pkeeps_eq (by assumption) ?_
    | with_reducible exact keeps_of_p (by with_reducible assumption) | fail_if_no_progress with_reducible rw [keeps_mk]
    | split | dsimp -zeta only | with_reducible apply pkeeps_mk

theorem execRelayRestoreApply_keeps {Q : List Instr} {src : CmdSrc} {req : List (BitVec 8)} {places : List Place} {s : State} (h : s.Keeps Q) :
    OKeeps Q (execRelayRestoreApply src req places s) := by
  unfold execRelayRestoreApply
  repeat' first
    | with_reducible apply okeeps_next | with_reducible exact okeeps_fault | with_reducible apply okeeps_ite
    | with_reducible assumption | with_reducible apply State.restoreMore_keeps
    | with_reducible refine State.vendor_keeps (fun _ _ _ => ?_) ?_ | with_reducible apply State.restoreApply_keeps
    | (with_reducible apply keeps_fst; with_reducible apply State.restoreApply_keeps) | with_reducible apply keeps_ite
    | with_reducible exact keeps_fst (by with_reducible assumption) | with_reducible apply pkeeps_ite
    | with_reducible exact pkeeps_eq (by assumption) (by assumption) | with_reducible refine pkeeps_eq (by assumption) ?_
    | with_reducible exact keeps_of_p (by with_reducible assumption) | fail_if_no_progress with_reducible rw [keeps_mk]
    | split | dsimp -zeta only | with_reducible apply pkeeps_mk

end Sys2Proof.Machine
end

