-- ==== Sys2Proof/Laws/KeepsPort.lean ====
section
/-!
SUPPORT. The meanings and operations of Machine/Port.lean keep a sound state and its queue.
-/
set_option linter.unusedTactic false
set_option linter.unusedSimpArgs false
set_option linter.unusedVariables false
set_option linter.unreachableTactic false

namespace Sys2Proof.Machine

theorem State.discardHeld_keeps {Q : List Instr} {s : State} {k : Nat} (h : s.Keeps Q) :
    PKeeps Q (State.discardHeld s k) := by
  unfold State.discardHeld
  repeat' first
    | with_reducible assumption | with_reducible apply State.dropReq_keeps | with_reducible apply State.put_keeps
    | with_reducible apply keeps_ite | with_reducible exact keeps_fst (by with_reducible assumption)
    | with_reducible apply pkeeps_ite | with_reducible exact pkeeps_eq (by assumption) (by assumption)
    | with_reducible refine pkeeps_eq (by assumption) ?_ | with_reducible refine keeps_foldl (fun _ _ _ => ?_) ?_
    | with_reducible refine pkeeps_foldl (fun _ _ _ => ?_) ?_ | with_reducible refine nkeeps_foldl (fun _ _ _ => ?_) ?_
    | with_reducible refine npkeeps_foldl (fun _ _ _ => ?_) ?_
    | with_reducible exact keeps_of_p (by with_reducible assumption)
    | (extract_lets +onlyGivenNames x; (have : True := by clear_value x; clear * - x; exact is_state (by assumption)); clear this; refine (fun hx => ?_ : State.Keeps Q x → _) ?_ <;> [clear_value x; (dsimp -zeta only [x]; clear x)])
    | (extract_lets +onlyGivenNames x; (have : True := by clear_value x; clear * - x; exact is_pair (by assumption)); clear this; refine (fun hx => ?_ : PKeeps Q x → _) ?_ <;> [clear_value x; (dsimp -zeta only [x]; clear x)])
    | (extract_lets +onlyGivenNames x; clear_value x) | split | dsimp -zeta only | with_reducible apply pkeeps_mk

theorem State.graceOver_keeps {Q : List Instr} {s : State} {k : Nat} {cause : Nat} (h : s.Keeps Q) :
    (State.graceOver s k cause).Keeps Q := by
  unfold State.graceOver
  repeat' first
    | with_reducible assumption | with_reducible apply State.discardHeld_keeps | with_reducible apply State.setPrt_keeps
    | with_reducible apply State.put_keeps | with_reducible apply State.raise_keeps
    | with_reducible apply State.loseHost_keeps | with_reducible apply State.urgUpdate_keeps
    | (with_reducible apply keeps_fst; with_reducible apply State.discardHeld_keeps) | with_reducible apply keeps_ite
    | with_reducible exact keeps_fst (by with_reducible assumption) | with_reducible apply pkeeps_ite
    | with_reducible exact pkeeps_eq (by assumption) (by assumption) | with_reducible refine pkeeps_eq (by assumption) ?_
    | with_reducible exact keeps_of_p (by with_reducible assumption)
    | (extract_lets +onlyGivenNames x; (have : True := by clear_value x; clear * - x; exact is_state (by assumption)); clear this; refine (fun hx => ?_ : State.Keeps Q x → _) ?_ <;> [clear_value x; (dsimp -zeta only [x]; clear x)])
    | (extract_lets +onlyGivenNames x; (have : True := by clear_value x; clear * - x; exact is_pair (by assumption)); clear this; refine (fun hx => ?_ : PKeeps Q x → _) ?_ <;> [clear_value x; (dsimp -zeta only [x]; clear x)])
    | (extract_lets +onlyGivenNames x; clear_value x) | fail_if_no_progress with_reducible rw [keeps_mk] | split
    | dsimp -zeta only | with_reducible apply pkeeps_mk

theorem State.dlDown_keeps {Q : List Instr} {s : State} {k : Nat} {cause : Nat} (h : s.Keeps Q) :
    (State.dlDown s k cause).Keeps Q := by
  unfold State.dlDown
  repeat' first
    | with_reducible assumption | with_reducible apply State.setPrt_keeps | with_reducible apply State.put_keeps
    | with_reducible apply State.raise_keeps | with_reducible apply State.urgUpdate_keeps
    | with_reducible apply State.graceOver_keeps | with_reducible apply keeps_ite
    | (extract_lets +onlyGivenNames x; (have : True := by clear_value x; clear * - x; exact is_state (by assumption)); clear this; refine (fun hx => ?_ : State.Keeps Q x → _) ?_ <;> [clear_value x; (dsimp -zeta only [x]; clear x)])
    | (extract_lets +onlyGivenNames x; clear_value x) | fail_if_no_progress with_reducible rw [keeps_mk] | split
    | dsimp -zeta only

theorem execLinkDown_keeps {Q : List Instr} {p : Fin 8} {s : State} (h : s.Keeps Q) :
    OKeeps Q (execLinkDown p s) := by
  unfold execLinkDown
  repeat' first
    | with_reducible apply okeeps_next | with_reducible exact okeeps_fault | with_reducible apply okeeps_ite
    | with_reducible assumption | with_reducible apply State.dlDown_keeps | with_reducible apply keeps_ite | split
    | dsimp -zeta only

theorem State.dlUp_keeps {Q : List Instr} {s : State} {k : Nat} {t : LinkTrain} (h : s.Keeps Q) :
    (State.dlUp s k t).Keeps Q := by
  unfold State.dlUp
  repeat' first
    | with_reducible assumption | with_reducible apply State.discardHeld_keeps | with_reducible apply State.setPrt_keeps
    | with_reducible apply State.put_keeps | with_reducible apply State.raise_keeps
    | with_reducible apply State.urgUpdate_keeps | with_reducible apply State.pacerUpdate_keeps
    | (with_reducible apply keeps_fst; with_reducible apply State.discardHeld_keeps) | with_reducible apply keeps_ite
    | with_reducible exact keeps_fst (by with_reducible assumption) | with_reducible apply pkeeps_ite
    | with_reducible exact pkeeps_eq (by assumption) (by assumption) | with_reducible refine pkeeps_eq (by assumption) ?_
    | with_reducible exact keeps_of_p (by with_reducible assumption)
    | (extract_lets +onlyGivenNames x; (have : True := by clear_value x; clear * - x; exact is_state (by assumption)); clear this; refine (fun hx => ?_ : State.Keeps Q x → _) ?_ <;> [clear_value x; (dsimp -zeta only [x]; clear x)])
    | (extract_lets +onlyGivenNames x; (have : True := by clear_value x; clear * - x; exact is_pair (by assumption)); clear this; refine (fun hx => ?_ : PKeeps Q x → _) ?_ <;> [clear_value x; (dsimp -zeta only [x]; clear x)])
    | (extract_lets +onlyGivenNames x; clear_value x) | fail_if_no_progress with_reducible rw [keeps_mk] | split
    | dsimp -zeta only | with_reducible apply pkeeps_mk

theorem execLinkUp_keeps {Q : List Instr} {p : Fin 8} {t : LinkTrain} {s : State} (h : s.Keeps Q) :
    OKeeps Q (execLinkUp p t s) := by
  unfold execLinkUp
  repeat' first
    | with_reducible apply okeeps_next | with_reducible exact okeeps_fault | with_reducible apply okeeps_ite
    | with_reducible assumption | with_reducible apply State.raise_keeps | with_reducible apply State.dlUp_keeps
    | with_reducible apply keeps_ite
    | (extract_lets +onlyGivenNames x; (have : True := by clear_value x; clear * - x; exact is_state (by assumption)); clear this; refine (fun hx => ?_ : State.Keeps Q x → _) ?_ <;> [clear_value x; (dsimp -zeta only [x]; clear x)])
    | (extract_lets +onlyGivenNames x; clear_value x) | split | dsimp -zeta only

theorem execLinkGraceEnd_keeps {Q : List Instr} {p : Fin 8} {s : State} (h : s.Keeps Q) :
    OKeeps Q (execLinkGraceEnd p s) := by
  unfold execLinkGraceEnd
  repeat' first
    | with_reducible apply okeeps_next | with_reducible exact okeeps_fault | with_reducible apply okeeps_ite
    | with_reducible assumption | with_reducible apply State.graceOver_keeps | with_reducible apply keeps_ite
    | fail_if_no_progress with_reducible rw [keeps_mk] | split | dsimp -zeta only

theorem State.portReset_keeps {Q : List Instr} {s : State} {k : Nat} (h : s.Keeps Q) :
    (State.portReset s k).Keeps Q := by
  unfold State.portReset
  repeat' first
    | with_reducible assumption | with_reducible apply State.setPrt_keeps | with_reducible apply keeps_ite
    | (extract_lets +onlyGivenNames x; (have : True := by clear_value x; clear * - x; exact is_state (by assumption)); clear this; refine (fun hx => ?_ : State.Keeps Q x → _) ?_ <;> [clear_value x; (dsimp -zeta only [x]; clear x)])
    | (extract_lets +onlyGivenNames x; clear_value x) | fail_if_no_progress with_reducible rw [keeps_mk] | split
    | dsimp -zeta only

theorem execPerstN_keeps {Q : List Instr} {p : Fin 8} {s : State} (h : s.Keeps Q) :
    OKeeps Q (execPerstN p s) := by
  unfold execPerstN
  repeat' first
    | with_reducible apply okeeps_next | with_reducible exact okeeps_fault | with_reducible apply okeeps_ite
    | with_reducible assumption | with_reducible apply State.dlDown_keeps | with_reducible apply State.put_keeps
    | with_reducible apply State.urgUpdate_keeps | with_reducible apply State.graceOver_keeps
    | with_reducible apply State.portReset_keeps | with_reducible apply State.wakeBy_keeps | with_reducible apply keeps_ite
    | (extract_lets +onlyGivenNames x; (have : True := by clear_value x; clear * - x; exact is_state (by assumption)); clear this; refine (fun hx => ?_ : State.Keeps Q x → _) ?_ <;> [clear_value x; (dsimp -zeta only [x]; clear x)])
    | (extract_lets +onlyGivenNames x; clear_value x) | split | dsimp -zeta only

theorem execIdeFail_keeps {Q : List Instr} {p : Fin 8} {s : State} (h : s.Keeps Q) :
    OKeeps Q (execIdeFail p s) := by
  unfold execIdeFail
  repeat' first
    | with_reducible apply okeeps_next | with_reducible exact okeeps_fault | with_reducible apply okeeps_ite
    | with_reducible assumption | with_reducible apply State.bump_keeps | with_reducible apply State.raise_keeps
    | with_reducible apply State.dlDown_keeps | with_reducible apply keeps_ite
    | (extract_lets +onlyGivenNames x; (have : True := by clear_value x; clear * - x; exact is_state (by assumption)); clear this; refine (fun hx => ?_ : State.Keeps Q x → _) ?_ <;> [clear_value x; (dsimp -zeta only [x]; clear x)])
    | (extract_lets +onlyGivenNames x; clear_value x) | split | dsimp -zeta only

theorem execIdeKm_keeps {Q : List Instr} {p : Fin 8} {mem : Bool} {key : BitVec 256} {s : State} (h : s.Keeps Q) :
    OKeeps Q (execIdeKm p mem key s) := by
  unfold execIdeKm
  repeat' first
    | with_reducible apply okeeps_next | with_reducible exact okeeps_fault | with_reducible apply okeeps_ite
    | with_reducible assumption | with_reducible apply State.setPrt_keeps | with_reducible apply State.put_keeps
    | with_reducible apply keeps_ite
    | (extract_lets +onlyGivenNames x; (have : True := by clear_value x; clear * - x; exact is_state (by assumption)); clear this; refine (fun hx => ?_ : State.Keeps Q x → _) ?_ <;> [clear_value x; (dsimp -zeta only [x]; clear x)])
    | (extract_lets +onlyGivenNames x; clear_value x) | fail_if_no_progress with_reducible rw [keeps_mk] | split
    | dsimp -zeta only

theorem execL0pEvaluate_keeps {Q : List Instr} {p : Fin 8} {s : State} (h : s.Keeps Q) :
    OKeeps Q (execL0pEvaluate p s) := by
  unfold execL0pEvaluate
  repeat' first
    | with_reducible apply okeeps_next | with_reducible exact okeeps_fault | with_reducible apply okeeps_ite
    | with_reducible assumption | with_reducible apply State.setPrt_keeps | with_reducible apply State.emit_keeps
    | with_reducible apply keeps_ite
    | (extract_lets +onlyGivenNames x; (have : True := by clear_value x; clear * - x; exact is_state (by assumption)); clear this; refine (fun hx => ?_ : State.Keeps Q x → _) ?_ <;> [clear_value x; (dsimp -zeta only [x]; clear x)])
    | (extract_lets +onlyGivenNames x; clear_value x) | fail_if_no_progress with_reducible rw [keeps_mk] | split
    | dsimp -zeta only

theorem execL0pWidthChange_keeps {Q : List Instr} {p : Fin 8} {width : Fin 4} {s : State} (h : s.Keeps Q) :
    OKeeps Q (execL0pWidthChange p width s) := by
  unfold execL0pWidthChange
  repeat' first
    | with_reducible apply okeeps_next | with_reducible exact okeeps_fault | with_reducible apply okeeps_ite
    | with_reducible assumption | with_reducible apply State.setPrt_keeps | with_reducible apply State.put_keeps
    | with_reducible apply State.pacerUpdate_keeps | with_reducible apply keeps_ite
    | (extract_lets +onlyGivenNames x; (have : True := by clear_value x; clear * - x; exact is_state (by assumption)); clear this; refine (fun hx => ?_ : State.Keeps Q x → _) ?_ <;> [clear_value x; (dsimp -zeta only [x]; clear x)])
    | (extract_lets +onlyGivenNames x; clear_value x) | fail_if_no_progress with_reducible rw [keeps_mk] | split
    | dsimp -zeta only

theorem execHdmDecoderCommit_keeps {Q : List Instr} {p : Fin 8} {ld : Fin 16} {i : Fin 8} {d : HdmDecoder} {s : State} (h : s.Keeps Q) :
    OKeeps Q (execHdmDecoderCommit p ld i d s) := by
  unfold execHdmDecoderCommit
  repeat' first
    | with_reducible apply okeeps_next | with_reducible exact okeeps_fault | with_reducible apply okeeps_ite
    | with_reducible assumption | with_reducible apply State.setLdev_keeps | with_reducible apply State.put_keeps
    | with_reducible apply keeps_ite
    | (extract_lets +onlyGivenNames x; (have : True := by clear_value x; clear * - x; exact is_state (by assumption)); clear this; refine (fun hx => ?_ : State.Keeps Q x → _) ?_ <;> [clear_value x; (dsimp -zeta only [x]; clear x)])
    | (extract_lets +onlyGivenNames x; clear_value x) | fail_if_no_progress with_reducible rw [keeps_mk] | split
    | dsimp -zeta only

theorem State.setAlloc_keeps {Q : List Instr} {s : State} {src : CmdSrc} {p : Nat} {ld : Nat} {capG : Nat} {dcG : List Nat} {sharable : Nat} (h : s.Keeps Q) :
    (State.setAlloc s src p ld capG dcG sharable).Keeps Q := by
  unfold State.setAlloc
  repeat' first
    | with_reducible assumption | with_reducible apply State.emit_keeps | with_reducible apply State.setLdev_keeps
    | with_reducible apply keeps_ite | fail_if_no_progress with_reducible rw [keeps_mk] | split | dsimp -zeta only

theorem execSetLdAllocations_keeps {Q : List Instr} {src : CmdSrc} {p : Fin 8} {ld : Fin 16} {capG : BitVec 18} {dcG : List (BitVec 36)} {sharable : BitVec 8} {s : State} (h : s.Keeps Q) :
    OKeeps Q (execSetLdAllocations src p ld capG dcG sharable s) := by
  unfold execSetLdAllocations
  repeat' first
    | with_reducible apply okeeps_next | with_reducible exact okeeps_fault | with_reducible apply okeeps_ite
    | with_reducible assumption | with_reducible apply State.setAlloc_keeps | with_reducible apply State.emit_keeps
    | with_reducible apply keeps_ite | split | dsimp -zeta only

theorem execTunnelManagementCommand_keeps {Q : List Instr} {src : CmdSrc} {p : Fin 8} {ld : Fin 16} {capG : BitVec 18} {dcG : List (BitVec 36)} {sharable : BitVec 8} {s : State} (h : s.Keeps Q) :
    OKeeps Q (execTunnelManagementCommand src p ld capG dcG sharable s) := by
  unfold execTunnelManagementCommand
  repeat' first
    | with_reducible apply okeeps_next | with_reducible exact okeeps_fault | with_reducible apply okeeps_ite
    | with_reducible assumption | with_reducible apply State.setAlloc_keeps | with_reducible apply State.emit_keeps
    | with_reducible apply keeps_ite | split | dsimp -zeta only

theorem execInitiateDcAdd_keeps {Q : List Instr} {src : CmdSrc} {vi : BitVec 16} {start : BitVec 32} {blocks : BitVec 32} {s : State} (h : s.Keeps Q) :
    OKeeps Q (execInitiateDcAdd src vi start blocks s) := by
  unfold execInitiateDcAdd
  repeat' first
    | with_reducible apply okeeps_next | with_reducible exact okeeps_fault | with_reducible apply okeeps_ite
    | with_reducible assumption | with_reducible apply State.emit_keeps | with_reducible apply State.offer_keeps
    | with_reducible apply keeps_ite | with_reducible refine keeps_foldl (fun _ _ _ => ?_) ?_
    | with_reducible refine nkeeps_foldl (fun _ _ _ => ?_) ?_ | with_reducible refine npkeeps_foldl (fun _ _ _ => ?_) ?_
    | (extract_lets +onlyGivenNames x; (have : True := by clear_value x; clear * - x; exact is_state (by assumption)); clear this; refine (fun hx => ?_ : State.Keeps Q x → _) ?_ <;> [clear_value x; (dsimp -zeta only [x]; clear x)])
    | (extract_lets +onlyGivenNames x; clear_value x) | fail_if_no_progress with_reducible rw [keeps_mk] | split
    | dsimp -zeta only

theorem execAddDcResponse_keeps {Q : List Instr} {p : Fin 8} {ld : Fin 16} {vi : BitVec 16} {start : BitVec 32} {accept : BitVec 32} {s : State} (h : s.Keeps Q) :
    OKeeps Q (execAddDcResponse p ld vi start accept s) := by
  unfold execAddDcResponse
  repeat' first
    | with_reducible apply okeeps_next | with_reducible exact okeeps_fault | with_reducible apply okeeps_ite
    | with_reducible assumption | with_reducible apply State.accept_keeps | with_reducible apply State.dcNotice_keeps
    | with_reducible apply keeps_ite
    | (extract_lets +onlyGivenNames x; (have : True := by clear_value x; clear * - x; exact is_state (by assumption)); clear this; refine (fun hx => ?_ : State.Keeps Q x → _) ?_ <;> [clear_value x; (dsimp -zeta only [x]; clear x)])
    | (extract_lets +onlyGivenNames x; clear_value x) | fail_if_no_progress with_reducible rw [keeps_mk] | split
    | dsimp -zeta only

theorem State.unback_keeps {Q : List Instr} {s : State} {t : Nat} {page : Nat} (h : s.Keeps Q) :
    (State.unback s t page).Keeps Q := by
  unfold State.unback
  repeat' first
    | with_reducible assumption | with_reducible apply State.casEntry_keeps | with_reducible apply State.markDirty_keeps
    | with_reducible apply State.freeLeaf_keeps
    | (with_reducible apply keeps_fst; with_reducible apply State.casEntry_keeps) | with_reducible apply keeps_ite
    | with_reducible exact keeps_fst (by with_reducible assumption) | with_reducible apply pkeeps_ite
    | with_reducible exact pkeeps_eq (by assumption) (by assumption) | with_reducible refine pkeeps_eq (by assumption) ?_
    | with_reducible exact keeps_of_p (by with_reducible assumption) | fail_if_no_progress with_reducible rw [keeps_mk]
    | split | dsimp -zeta only | with_reducible apply pkeeps_mk

theorem State.unbackLarge_keeps {Q : List Instr} {s : State} {t : Nat} {x : Nat × Nat × Nat} (h : s.Keeps Q) :
    (State.unbackLarge s t x).Keeps Q := by
  unfold State.unbackLarge
  repeat' first
    | with_reducible assumption | with_reducible apply State.casEntry_keeps | with_reducible apply State.freePair_keeps
    | with_reducible apply State.dirtyLog_keeps | with_reducible apply State.markDirty_keeps
    | (with_reducible apply keeps_fst; with_reducible apply State.casEntry_keeps) | with_reducible apply keeps_ite
    | with_reducible exact keeps_fst (by with_reducible assumption) | with_reducible apply pkeeps_ite
    | with_reducible exact pkeeps_eq (by assumption) (by assumption) | with_reducible refine pkeeps_eq (by assumption) ?_
    | with_reducible refine keeps_foldl (fun _ _ _ => ?_) ?_ | with_reducible refine pkeeps_foldl (fun _ _ _ => ?_) ?_
    | with_reducible refine nkeeps_foldl (fun _ _ _ => ?_) ?_ | with_reducible refine npkeeps_foldl (fun _ _ _ => ?_) ?_
    | with_reducible exact keeps_of_p (by with_reducible assumption)
    | (extract_lets +onlyGivenNames x; (have : True := by clear_value x; clear * - x; exact is_state (by assumption)); clear this; refine (fun hx => ?_ : State.Keeps Q x → _) ?_ <;> [clear_value x; (dsimp -zeta only [x]; clear x)])
    | (extract_lets +onlyGivenNames x; (have : True := by clear_value x; clear * - x; exact is_pair (by assumption)); clear this; refine (fun hx => ?_ : PKeeps Q x → _) ?_ <;> [clear_value x; (dsimp -zeta only [x]; clear x)])
    | (extract_lets +onlyGivenNames x; clear_value x) | fail_if_no_progress with_reducible rw [keeps_mk] | split
    | dsimp -zeta only | with_reducible apply pkeeps_mk

theorem State.unbackRange_keeps {Q : List Instr} {s : State} {t : Nat} {start : Nat} {blocks : Nat} (h : s.Keeps Q) :
    (State.unbackRange s t start blocks).Keeps Q := by
  unfold State.unbackRange
  repeat' first
    | with_reducible assumption | with_reducible apply State.unback_keeps | with_reducible apply State.unbackLarge_keeps
    | with_reducible apply State.invalidate_keeps | with_reducible apply State.ladderCross_keeps
    | with_reducible apply keeps_ite | with_reducible refine keeps_foldl (fun _ _ _ => ?_) ?_
    | with_reducible refine nkeeps_foldl (fun _ _ _ => ?_) ?_ | with_reducible refine npkeeps_foldl (fun _ _ _ => ?_) ?_
    | (extract_lets +onlyGivenNames x; (have : True := by clear_value x; clear * - x; exact is_state (by assumption)); clear this; refine (fun hx => ?_ : State.Keeps Q x → _) ?_ <;> [clear_value x; (dsimp -zeta only [x]; clear x)])
    | (extract_lets +onlyGivenNames x; clear_value x) | split | dsimp -zeta only

theorem State.releaseExtent_keeps {Q : List Instr} {s : State} {e : Extent} (h : s.Keeps Q) :
    (State.releaseExtent s e).Keeps Q := by
  unfold State.releaseExtent
  repeat' first
    | with_reducible assumption | with_reducible apply State.dcNotice_keeps | with_reducible apply State.unbackRange_keeps
    | with_reducible apply keeps_ite
    | (extract_lets +onlyGivenNames x; (have : True := by clear_value x; clear * - x; exact is_state (by assumption)); clear this; refine (fun hx => ?_ : State.Keeps Q x → _) ?_ <;> [clear_value x; (dsimp -zeta only [x]; clear x)])
    | (extract_lets +onlyGivenNames x; clear_value x) | fail_if_no_progress with_reducible rw [keeps_mk] | split
    | dsimp -zeta only

theorem execReleaseDc_keeps {Q : List Instr} {p : Fin 8} {ld : Fin 16} {vi : BitVec 16} {start : BitVec 32} {blocks : BitVec 32} {s : State} (h : s.Keeps Q) :
    OKeeps Q (execReleaseDc p ld vi start blocks s) := by
  unfold execReleaseDc
  repeat' first
    | with_reducible apply okeeps_next | with_reducible exact okeeps_fault | with_reducible apply okeeps_ite
    | with_reducible assumption | with_reducible apply State.releaseExtent_keeps | with_reducible apply keeps_ite
    | with_reducible refine keeps_foldl (fun _ _ _ => ?_) ?_ | with_reducible refine nkeeps_foldl (fun _ _ _ => ?_) ?_
    | with_reducible refine npkeeps_foldl (fun _ _ _ => ?_) ?_
    | (extract_lets +onlyGivenNames x; (have : True := by clear_value x; clear * - x; exact is_state (by assumption)); clear this; refine (fun hx => ?_ : State.Keeps Q x → _) ?_ <;> [clear_value x; (dsimp -zeta only [x]; clear x)])
    | (extract_lets +onlyGivenNames x; clear_value x) | split | dsimp -zeta only

theorem execGetPoisonList_keeps {Q : List Instr} {p : Fin 8} {ld : Fin 16} {s : State} (h : s.Keeps Q) :
    OKeeps Q (execGetPoisonList p ld s) := by
  unfold execGetPoisonList
  repeat' first
    | with_reducible apply okeeps_next | with_reducible exact okeeps_fault | with_reducible apply okeeps_ite
    | with_reducible assumption | with_reducible apply State.setLdev_keeps | with_reducible apply State.emit_keeps
    | with_reducible apply keeps_ite
    | (extract_lets +onlyGivenNames x; (have : True := by clear_value x; clear * - x; exact is_state (by assumption)); clear this; refine (fun hx => ?_ : State.Keeps Q x → _) ?_ <;> [clear_value x; (dsimp -zeta only [x]; clear x)])
    | (extract_lets +onlyGivenNames x; clear_value x) | fail_if_no_progress with_reducible rw [keeps_mk] | split
    | dsimp -zeta only

theorem State.cmdWrite_keeps {Q : List Instr} {s : State} {p : Fin 8} {ld : Fin 16} {dpa : Nat} {op : ReqOp} {data : BitVec 512} {mask : BitVec 64} {poison : Bool} (h : s.Keeps Q) :
    (State.cmdWrite s p ld dpa op data mask poison).Keeps Q := by
  unfold State.cmdWrite
  repeat' first
    | with_reducible assumption | with_reducible apply State.emit_keeps | with_reducible apply State.lookup_keeps
    | with_reducible apply State.listPoison_keeps | with_reducible apply State.unlistPoison_keeps
    | with_reducible apply State.startReq_keeps | with_reducible apply State.release_keeps | with_reducible apply keeps_ite
    | (extract_lets +onlyGivenNames x; (have : True := by clear_value x; clear * - x; exact is_state (by assumption)); clear this; refine (fun hx => ?_ : State.Keeps Q x → _) ?_ <;> [clear_value x; (dsimp -zeta only [x]; clear x)])
    | (extract_lets +onlyGivenNames x; clear_value x) | fail_if_no_progress with_reducible rw [keeps_mk] | split
    | dsimp -zeta only

theorem execInjectPoison_keeps {Q : List Instr} {p : Fin 8} {ld : Fin 16} {dpa : BitVec 52} {s : State} (h : s.Keeps Q) :
    OKeeps Q (execInjectPoison p ld dpa s) := by
  unfold execInjectPoison
  repeat' first
    | with_reducible apply okeeps_next | with_reducible exact okeeps_fault | with_reducible apply okeeps_ite
    | with_reducible assumption | with_reducible apply State.cmdWrite_keeps | with_reducible apply keeps_ite | split
    | dsimp -zeta only

theorem execClearPoison_keeps {Q : List Instr} {p : Fin 8} {ld : Fin 16} {dpa : BitVec 52} {data : BitVec 512} {s : State} (h : s.Keeps Q) :
    OKeeps Q (execClearPoison p ld dpa data s) := by
  unfold execClearPoison
  repeat' first
    | with_reducible apply okeeps_next | with_reducible exact okeeps_fault | with_reducible apply okeeps_ite
    | with_reducible assumption | with_reducible apply State.cmdWrite_keeps | with_reducible apply keeps_ite | split
    | dsimp -zeta only

theorem execScanMedia_keeps {Q : List Instr} {p : Fin 8} {ld : Fin 16} {dpa : BitVec 52} {lines : BitVec 32} {s : State} (h : s.Keeps Q) :
    OKeeps Q (execScanMedia p ld dpa lines s) := by
  unfold execScanMedia
  repeat' first
    | with_reducible apply okeeps_next | with_reducible exact okeeps_fault | with_reducible apply okeeps_ite
    | with_reducible assumption | with_reducible apply State.emit_keeps | with_reducible apply State.setLdev_keeps
    | with_reducible apply keeps_ite
    | (extract_lets +onlyGivenNames x; (have : True := by clear_value x; clear * - x; exact is_state (by assumption)); clear this; refine (fun hx => ?_ : State.Keeps Q x → _) ?_ <;> [clear_value x; (dsimp -zeta only [x]; clear x)])
    | (extract_lets +onlyGivenNames x; clear_value x) | fail_if_no_progress with_reducible rw [keeps_mk] | split
    | dsimp -zeta only

theorem State.scanOver_keeps {Q : List Instr} {s : State} {k : Nat} {ld : Nat} {found : List Nat} (h : s.Keeps Q) :
    (State.scanOver s k ld found).Keeps Q := by
  unfold State.scanOver
  repeat' first
    | with_reducible assumption | with_reducible apply State.setLdev_keeps | with_reducible apply State.raiseFor_keeps
    | with_reducible apply State.emit_keeps | with_reducible apply keeps_ite
    | (extract_lets +onlyGivenNames x; (have : True := by clear_value x; clear * - x; exact is_state (by assumption)); clear this; refine (fun hx => ?_ : State.Keeps Q x → _) ?_ <;> [clear_value x; (dsimp -zeta only [x]; clear x)])
    | (extract_lets +onlyGivenNames x; clear_value x) | fail_if_no_progress with_reducible rw [keeps_mk] | split
    | dsimp -zeta only

theorem State.readT2Line_keeps {Q : List Instr} {s : State} {t : Nat} {x : Nat} {ln : Nat} {b : Bursts} (h : s.Keeps Q) :
    PKeeps Q (State.readT2Line s t x ln b) := by
  unfold State.readT2Line
  repeat' first
    | with_reducible assumption | with_reducible apply State.raise_keeps | with_reducible apply State.descRead_keeps
    | with_reducible apply State.recLine_keeps
    | (with_reducible apply keeps_fst; with_reducible apply State.descRead_keeps)
    | (with_reducible apply keeps_fst; with_reducible apply State.recLine_keeps) | with_reducible apply keeps_ite
    | with_reducible exact keeps_fst (by with_reducible assumption) | with_reducible apply pkeeps_ite
    | with_reducible exact pkeeps_eq (by assumption) (by assumption) | with_reducible refine pkeeps_eq (by assumption) ?_
    | with_reducible exact keeps_of_p (by with_reducible assumption)
    | (extract_lets +onlyGivenNames x; (have : True := by clear_value x; clear * - x; exact is_state (by assumption)); clear this; refine (fun hx => ?_ : State.Keeps Q x → _) ?_ <;> [clear_value x; (dsimp -zeta only [x]; clear x)])
    | (extract_lets +onlyGivenNames x; (have : True := by clear_value x; clear * - x; exact is_pair (by assumption)); clear this; refine (fun hx => ?_ : PKeeps Q x → _) ?_ <;> [clear_value x; (dsimp -zeta only [x]; clear x)])
    | (extract_lets +onlyGivenNames x; (have : True := by clear_value x; clear * - x; exact is_fun (by assumption)); clear this; dsimp -zeta only [x]; clear x)
    | (extract_lets +onlyGivenNames x; clear_value x) | fail_if_no_progress with_reducible rw [keeps_mk] | split
    | dsimp -zeta only | with_reducible apply pkeeps_mk

theorem State.scanRead_keeps {Q : List Instr} {s : State} {k : Nat} {ld : Nat} {dpa : Nat} {b : Bursts} (h : s.Keeps Q) :
    PKeeps Q (State.scanRead s k ld dpa b) := by
  unfold State.scanRead
  repeat' first
    | with_reducible assumption | with_reducible apply State.recall_keeps | with_reducible apply State.readT2Line_keeps
    | with_reducible apply State.readPlain_keeps
    | (with_reducible apply keeps_fst; with_reducible apply State.recall_keeps)
    | (with_reducible apply keeps_fst; with_reducible apply State.readT2Line_keeps)
    | (with_reducible apply keeps_fst; with_reducible apply State.readPlain_keeps) | with_reducible apply keeps_ite
    | with_reducible exact keeps_fst (by with_reducible assumption) | with_reducible apply pkeeps_ite
    | with_reducible exact pkeeps_eq (by assumption) (by assumption) | with_reducible refine pkeeps_eq (by assumption) ?_
    | with_reducible exact keeps_of_p (by with_reducible assumption)
    | (extract_lets +onlyGivenNames x; (have : True := by clear_value x; clear * - x; exact is_state (by assumption)); clear this; refine (fun hx => ?_ : State.Keeps Q x → _) ?_ <;> [clear_value x; (dsimp -zeta only [x]; clear x)])
    | (extract_lets +onlyGivenNames x; (have : True := by clear_value x; clear * - x; exact is_pair (by assumption)); clear this; refine (fun hx => ?_ : PKeeps Q x → _) ?_ <;> [clear_value x; (dsimp -zeta only [x]; clear x)])
    | (extract_lets +onlyGivenNames x; clear_value x) | fail_if_no_progress with_reducible rw [keeps_mk] | split
    | dsimp -zeta only | with_reducible apply pkeeps_mk

theorem State.scanStep_keeps {Q : List Instr} {s : State} {k : Nat} {ld : Nat} {b : Bursts} (h : s.Keeps Q) :
    (State.scanStep s k ld b).Keeps Q := by
  unfold State.scanStep
  repeat' first
    | with_reducible assumption | with_reducible apply State.scanOver_keeps | with_reducible apply State.scanRead_keeps
    | with_reducible apply State.listPoison_keeps | with_reducible apply State.setLdev_keeps
    | (with_reducible apply keeps_fst; with_reducible apply State.scanRead_keeps) | with_reducible apply keeps_ite
    | with_reducible exact keeps_fst (by with_reducible assumption) | with_reducible apply pkeeps_ite
    | with_reducible exact pkeeps_eq (by assumption) (by assumption) | with_reducible refine pkeeps_eq (by assumption) ?_
    | with_reducible exact keeps_of_p (by with_reducible assumption)
    | (extract_lets +onlyGivenNames x; (have : True := by clear_value x; clear * - x; exact is_state (by assumption)); clear this; refine (fun hx => ?_ : State.Keeps Q x → _) ?_ <;> [clear_value x; (dsimp -zeta only [x]; clear x)])
    | (extract_lets +onlyGivenNames x; (have : True := by clear_value x; clear * - x; exact is_pair (by assumption)); clear this; refine (fun hx => ?_ : PKeeps Q x → _) ?_ <;> [clear_value x; (dsimp -zeta only [x]; clear x)])
    | (extract_lets +onlyGivenNames x; clear_value x) | fail_if_no_progress with_reducible rw [keeps_mk] | split
    | dsimp -zeta only | with_reducible apply pkeeps_mk

theorem execScanMediaStep_keeps {Q : List Instr} {p : Fin 8} {ld : Fin 16} {b : Bursts} {s : State} (h : s.Keeps Q) :
    OKeeps Q (execScanMediaStep p ld b s) := by
  unfold execScanMediaStep
  repeat' first
    | with_reducible apply okeeps_next | with_reducible exact okeeps_fault | with_reducible apply okeeps_ite
    | with_reducible assumption | with_reducible apply State.scanStep_keeps | with_reducible apply keeps_ite | split
    | dsimp -zeta only

theorem execGetScanMediaCapabilities_keeps {Q : List Instr} {p : Fin 8} {ld : Fin 16} {dpa : BitVec 52} {lines : BitVec 32} {s : State} (h : s.Keeps Q) :
    OKeeps Q (execGetScanMediaCapabilities p ld dpa lines s) := by
  unfold execGetScanMediaCapabilities
  repeat' first
    | with_reducible apply okeeps_next | with_reducible exact okeeps_fault | with_reducible apply okeeps_ite
    | with_reducible assumption | with_reducible apply State.emit_keeps | with_reducible apply keeps_ite | split
    | dsimp -zeta only

theorem execGetScanMediaResults_keeps {Q : List Instr} {p : Fin 8} {ld : Fin 16} {s : State} (h : s.Keeps Q) :
    OKeeps Q (execGetScanMediaResults p ld s) := by
  unfold execGetScanMediaResults
  repeat' first
    | with_reducible apply okeeps_next | with_reducible exact okeeps_fault | with_reducible apply okeeps_ite
    | with_reducible assumption | with_reducible apply State.emit_keeps | with_reducible apply keeps_ite | split
    | dsimp -zeta only

theorem execClearEventRecords_keeps {Q : List Instr} {p : Fin 8} {ld : Fin 17} {log : Fin 4} {count : BitVec 12} {s : State} (h : s.Keeps Q) :
    OKeeps Q (execClearEventRecords p ld log count s) := by
  unfold execClearEventRecords
  repeat' first
    | with_reducible apply okeeps_next | with_reducible exact okeeps_fault | with_reducible apply okeeps_ite
    | with_reducible assumption | with_reducible apply State.setLdev_keeps | with_reducible apply State.emit_keeps
    | with_reducible apply keeps_ite
    | (extract_lets +onlyGivenNames x; (have : True := by clear_value x; clear * - x; exact is_state (by assumption)); clear this; refine (fun hx => ?_ : State.Keeps Q x → _) ?_ <;> [clear_value x; (dsimp -zeta only [x]; clear x)])
    | (extract_lets +onlyGivenNames x; clear_value x) | fail_if_no_progress with_reducible rw [keeps_mk] | split
    | dsimp -zeta only

theorem Memory.wf_store {m : List Host.Cell} {a : Nat} {bs : List Nat} (h : Memory.wf m = true) :
    Memory.wf (Memory.store m a bs) = true := by
  induction bs generalizing m a with
  | nil => exact h
  | cons b bs ih => exact ih (Memory.wf_write m a _ h)

theorem execTransferFw_keeps {Q : List Instr} {p : Fin 8} {off : BitVec 32} {bytes : List (BitVec 8)} {s : State} (h : s.Keeps Q) :
    OKeeps Q (execTransferFw p off bytes s) := by
  unfold execTransferFw
  repeat' first
    | with_reducible apply okeeps_next | with_reducible exact okeeps_fault | with_reducible apply okeeps_ite
    | with_reducible assumption | with_reducible apply State.emit_keeps | with_reducible apply keeps_ite
    | (extract_lets +onlyGivenNames x; (have : True := by clear_value x; clear * - x; exact is_state (by assumption)); clear this; refine (fun hx => ?_ : State.Keeps Q x → _) ?_ <;> [clear_value x; (dsimp -zeta only [x]; clear x)])
    | (extract_lets +onlyGivenNames x; clear_value x) | fail_if_no_progress with_reducible rw [keeps_mk]
    | with_reducible apply Memory.wf_program | with_reducible apply Memory.wf_erase | with_reducible apply Memory.wf_store
    | with_reducible apply Memory.wf_programPart | with_reducible apply Memory.wf_erasePart
    | with_reducible exact State.Keeps.flash_wf (by assumption) | with_reducible refine State.Keeps.flash_wf (q := Q) ?_
    | fail_if_no_progress with_reducible refine keeps_mkf ?_ ?_ | split | dsimp -zeta only

theorem execActivateFw_keeps {Q : List Instr} {p : Fin 8} {s : State} (h : s.Keeps Q) :
    OKeeps Q (execActivateFw p s) := by
  unfold execActivateFw
  repeat' first
    | with_reducible apply okeeps_next | with_reducible exact okeeps_fault | with_reducible apply okeeps_ite
    | with_reducible assumption | with_reducible apply State.emit_keeps | with_reducible apply keeps_ite
    | (extract_lets +onlyGivenNames x; (have : True := by clear_value x; clear * - x; exact is_state (by assumption)); clear this; refine (fun hx => ?_ : State.Keeps Q x → _) ?_ <;> [clear_value x; (dsimp -zeta only [x]; clear x)])
    | (extract_lets +onlyGivenNames x; clear_value x) | fail_if_no_progress with_reducible rw [keeps_mk]
    | with_reducible apply Memory.wf_program | with_reducible apply Memory.wf_erase | with_reducible apply Memory.wf_store
    | with_reducible apply Memory.wf_programPart | with_reducible apply Memory.wf_erasePart
    | with_reducible exact State.Keeps.flash_wf (by assumption) | with_reducible refine State.Keeps.flash_wf (q := Q) ?_
    | fail_if_no_progress with_reducible refine keeps_mkf ?_ ?_ | split | dsimp -zeta only

theorem execGetQosStatus_keeps {Q : List Instr} {src : CmdSrc} {p : Fin 8} {s : State} (h : s.Keeps Q) :
    OKeeps Q (execGetQosStatus src p s) := by
  unfold execGetQosStatus
  repeat' first
    | with_reducible apply okeeps_next | with_reducible exact okeeps_fault | with_reducible apply okeeps_ite
    | with_reducible assumption | with_reducible apply State.emit_keeps | with_reducible apply State.tick_keeps
    | with_reducible apply keeps_ite | split | dsimp -zeta only

theorem execGetBackgroundOperationStatus_keeps {Q : List Instr} {src : CmdSrc} {s : State} (h : s.Keeps Q) :
    OKeeps Q (execGetBackgroundOperationStatus src s) := by
  unfold execGetBackgroundOperationStatus
  repeat' first
    | with_reducible apply okeeps_next | with_reducible exact okeeps_fault | with_reducible apply okeeps_ite
    | with_reducible assumption | with_reducible apply State.emit_keeps | with_reducible apply keeps_ite
    | fail_if_no_progress with_reducible rw [keeps_mk] | split | dsimp -zeta only

theorem execUnsupportedCommand_keeps {Q : List Instr} {src : CmdSrc} {opcode : BitVec 16} {s : State} (h : s.Keeps Q) :
    OKeeps Q (execUnsupportedCommand src opcode s) := by
  unfold execUnsupportedCommand
  repeat' first
    | with_reducible apply okeeps_next | with_reducible exact okeeps_fault | with_reducible apply okeeps_ite
    | with_reducible assumption | with_reducible refine State.vendor_keeps (fun _ _ _ => ?_) ?_
    | with_reducible apply State.emit_keeps | with_reducible apply keeps_ite
    | with_reducible exact keeps_fst (by with_reducible assumption) | with_reducible apply pkeeps_ite
    | with_reducible exact pkeeps_eq (by assumption) (by assumption) | with_reducible refine pkeeps_eq (by assumption) ?_
    | with_reducible exact keeps_of_p (by with_reducible assumption)
    | (extract_lets +onlyGivenNames x; (have : True := by clear_value x; clear * - x; exact is_state (by assumption)); clear this; refine (fun hx => ?_ : State.Keeps Q x → _) ?_ <;> [clear_value x; (dsimp -zeta only [x]; clear x)])
    | (extract_lets +onlyGivenNames x; (have : True := by clear_value x; clear * - x; exact is_pair (by assumption)); clear this; refine (fun hx => ?_ : PKeeps Q x → _) ?_ <;> [clear_value x; (dsimp -zeta only [x]; clear x)])
    | (extract_lets +onlyGivenNames x; clear_value x) | fail_if_no_progress with_reducible rw [keeps_mk] | split
    | dsimp -zeta only | with_reducible apply pkeeps_mk

end Sys2Proof.Machine
end

