-- ==== Sys2Proof/Laws/KeepsViaduct.lean ====
section
/-!
SUPPORT. The meanings and operations of Machine/Viaduct.lean keep a sound state and its queue.
-/
set_option linter.unusedTactic false
set_option linter.unusedSimpArgs false
set_option linter.unusedVariables false
set_option linter.unreachableTactic false

namespace Sys2Proof.Machine

theorem State.putLink_keeps {Q : List Instr} {s : State} {l : Nat} {k : Lnk} (h : s.Keeps Q) :
    (State.putLink s l k).Keeps Q := by
  unfold State.putLink
  repeat' first
    | with_reducible assumption | with_reducible apply State.setLink_keeps | with_reducible apply State.put_keeps
    | with_reducible apply keeps_ite | split | dsimp -zeta only

theorem State.putDir_keeps {Q : List Instr} {s : State} {l : Nat} {toDie : Bool} {d : Dir} (h : s.Keeps Q) :
    (State.putDir s l toDie d).Keeps Q := by
  unfold State.putDir
  repeat' first
    | with_reducible assumption | with_reducible apply State.putLink_keeps | with_reducible apply keeps_ite | split
    | dsimp -zeta only

theorem State.sendFlits_keeps {Q : List Instr} {s : State} {l : Nat} {toDie : Bool} {fs : List (Nat × BitVec 640)} (h : s.Keeps Q) :
    (State.sendFlits s l toDie fs).Keeps Q := by
  unfold State.sendFlits
  repeat' first
    | with_reducible assumption | with_reducible apply State.emit_keeps | with_reducible apply keeps_ite
    | with_reducible refine keeps_foldl (fun _ _ _ => ?_) ?_ | with_reducible refine nkeeps_foldl (fun _ _ _ => ?_) ?_
    | with_reducible refine npkeeps_foldl (fun _ _ _ => ?_) ?_ | split | dsimp -zeta only

theorem State.sendCtl_keeps {Q : List Instr} {s : State} {l : Nat} {toDie : Bool} {ty : Nat} {a : Nat} (h : s.Keeps Q) :
    (State.sendCtl s l toDie ty a).Keeps Q := by
  unfold State.sendCtl
  repeat' first
    | with_reducible assumption | with_reducible apply State.putDir_keeps | with_reducible apply State.emit_keeps
    | with_reducible apply keeps_ite
    | (extract_lets +onlyGivenNames x; (have : True := by clear_value x; clear * - x; exact is_state (by assumption)); clear this; refine (fun hx => ?_ : State.Keeps Q x → _) ?_ <;> [clear_value x; (dsimp -zeta only [x]; clear x)])
    | (extract_lets +onlyGivenNames x; clear_value x) | fail_if_no_progress with_reducible rw [keeps_mk] | split
    | dsimp -zeta only

theorem State.retransmit_keeps {Q : List Instr} {s : State} {l : Nat} {toDie : Bool} (h : s.Keeps Q) :
    (State.retransmit s l toDie).Keeps Q := by
  unfold State.retransmit
  repeat' first
    | with_reducible assumption | with_reducible apply State.putDir_keeps | with_reducible apply State.sendFlits_keeps
    | with_reducible apply keeps_ite
    | (extract_lets +onlyGivenNames x; (have : True := by clear_value x; clear * - x; exact is_state (by assumption)); clear this; refine (fun hx => ?_ : State.Keeps Q x → _) ?_ <;> [clear_value x; (dsimp -zeta only [x]; clear x)])
    | (extract_lets +onlyGivenNames x; clear_value x) | fail_if_no_progress with_reducible rw [keeps_mk] | split
    | dsimp -zeta only

theorem State.sendSlot_keeps {Q : List Instr} {s : State} {l : Nat} {toDie : Bool} {slot : List Nat} {data : Option (List Nat)} (h : s.Keeps Q) :
    PKeeps Q (State.sendSlot s l toDie slot data) := by
  unfold State.sendSlot
  repeat' first
    | with_reducible assumption | with_reducible apply State.putDir_keeps | with_reducible apply State.sendFlits_keeps
    | with_reducible apply keeps_ite | with_reducible exact keeps_fst (by with_reducible assumption)
    | with_reducible apply pkeeps_ite | with_reducible exact pkeeps_eq (by assumption) (by assumption)
    | with_reducible refine pkeeps_eq (by assumption) ?_ | with_reducible exact keeps_of_p (by with_reducible assumption)
    | (extract_lets +onlyGivenNames x; (have : True := by clear_value x; clear * - x; exact is_state (by assumption)); clear this; refine (fun hx => ?_ : State.Keeps Q x → _) ?_ <;> [clear_value x; (dsimp -zeta only [x]; clear x)])
    | (extract_lets +onlyGivenNames x; (have : True := by clear_value x; clear * - x; exact is_pair (by assumption)); clear this; refine (fun hx => ?_ : PKeeps Q x → _) ?_ <;> [clear_value x; (dsimp -zeta only [x]; clear x)])
    | (extract_lets +onlyGivenNames x; clear_value x) | fail_if_no_progress with_reducible rw [keeps_mk] | split
    | dsimp -zeta only | with_reducible apply pkeeps_mk

theorem State.startRetrain_keeps {Q : List Instr} {s : State} {l : Nat} {toDie : Bool} {retry : Bool} (h : s.Keeps Q) :
    (State.startRetrain s l toDie retry).Keeps Q := by
  unfold State.startRetrain
  repeat' first
    | with_reducible assumption | with_reducible apply State.putLink_keeps | with_reducible apply State.sendCtl_keeps
    | with_reducible apply keeps_ite
    | (extract_lets +onlyGivenNames x; (have : True := by clear_value x; clear * - x; exact is_state (by assumption)); clear this; refine (fun hx => ?_ : State.Keeps Q x → _) ?_ <;> [clear_value x; (dsimp -zeta only [x]; clear x)])
    | (extract_lets +onlyGivenNames x; clear_value x) | fail_if_no_progress with_reducible rw [keeps_mk] | split
    | dsimp -zeta only

theorem State.trigger_keeps {Q : List Instr} {s : State} {l : Nat} {toDie : Bool} (h : s.Keeps Q) :
    (State.trigger s l toDie).Keeps Q := by
  unfold State.trigger
  repeat' first
    | with_reducible assumption | with_reducible apply State.startRetrain_keeps | with_reducible apply State.bump_keeps
    | with_reducible apply State.putDir_keeps | with_reducible apply State.retransmit_keeps
    | with_reducible apply keeps_ite
    | (extract_lets +onlyGivenNames x; (have : True := by clear_value x; clear * - x; exact is_state (by assumption)); clear this; refine (fun hx => ?_ : State.Keeps Q x → _) ?_ <;> [clear_value x; (dsimp -zeta only [x]; clear x)])
    | (extract_lets +onlyGivenNames x; clear_value x) | fail_if_no_progress with_reducible rw [keeps_mk] | split
    | dsimp -zeta only

theorem State.replayReq_keeps {Q : List Instr} {s : State} {l : Nat} {toDie : Bool} {ack : Nat} (h : s.Keeps Q) :
    (State.replayReq s l toDie ack).Keeps Q := by
  unfold State.replayReq
  repeat' first
    | with_reducible assumption | with_reducible apply State.putDir_keeps | with_reducible apply State.trigger_keeps
    | with_reducible apply keeps_ite | split | dsimp -zeta only

theorem State.askReplay_keeps {Q : List Instr} {s : State} {l : Nat} {toDie : Bool} (h : s.Keeps Q) :
    (State.askReplay s l toDie).Keeps Q := by
  unfold State.askReplay
  repeat' first
    | with_reducible assumption | with_reducible apply State.putDir_keeps | with_reducible apply State.sendCtl_keeps
    | with_reducible apply keeps_ite
    | (extract_lets +onlyGivenNames x; (have : True := by clear_value x; clear * - x; exact is_state (by assumption)); clear this; refine (fun hx => ?_ : State.Keeps Q x → _) ?_ <;> [clear_value x; (dsimp -zeta only [x]; clear x)])
    | (extract_lets +onlyGivenNames x; clear_value x) | fail_if_no_progress with_reducible rw [keeps_mk] | split
    | dsimp -zeta only

theorem State.pauseIn_keeps {Q : List Instr} {s : State} {l : Nat} {toDie : Bool} (h : s.Keeps Q) :
    (State.pauseIn s l toDie).Keeps Q := by
  unfold State.pauseIn
  repeat' first
    | with_reducible assumption | with_reducible apply State.putLink_keeps | with_reducible apply State.sendCtl_keeps
    | with_reducible apply keeps_ite
    | (extract_lets +onlyGivenNames x; (have : True := by clear_value x; clear * - x; exact is_state (by assumption)); clear this; refine (fun hx => ?_ : State.Keeps Q x → _) ?_ <;> [clear_value x; (dsimp -zeta only [x]; clear x)])
    | (extract_lets +onlyGivenNames x; clear_value x) | fail_if_no_progress with_reducible rw [keeps_mk] | split
    | dsimp -zeta only

theorem State.pauseAcked_keeps {Q : List Instr} {s : State} {l : Nat} (h : s.Keeps Q) :
    (State.pauseAcked s l).Keeps Q := by
  unfold State.pauseAcked
  repeat' first
    | with_reducible assumption | with_reducible apply State.putLink_keeps | with_reducible apply keeps_ite
    | fail_if_no_progress with_reducible rw [keeps_mk] | split | dsimp -zeta only

theorem State.fallback_keeps {Q : List Instr} {s : State} {l : Nat} (h : s.Keeps Q) :
    (State.fallback s l).Keeps Q := by
  unfold State.fallback
  repeat' first
    | with_reducible assumption | with_reducible apply State.setLink_keeps | with_reducible apply State.put_keeps
    | with_reducible apply keeps_ite
    | (extract_lets +onlyGivenNames x; (have : True := by clear_value x; clear * - x; exact is_state (by assumption)); clear this; refine (fun hx => ?_ : State.Keeps Q x → _) ?_ <;> [clear_value x; (dsimp -zeta only [x]; clear x)])
    | (extract_lets +onlyGivenNames x; clear_value x) | fail_if_no_progress with_reducible rw [keeps_mk] | split
    | dsimp -zeta only

theorem State.fallbackNext_keeps {Q : List Instr} {s : State} {die : Nat} (h : s.Keeps Q) :
    (State.fallbackNext s die).Keeps Q := by
  unfold State.fallbackNext
  repeat' first
    | with_reducible assumption | with_reducible apply State.startRetrain_keeps | with_reducible apply keeps_ite
    | (extract_lets +onlyGivenNames x; (have : True := by clear_value x; clear * - x; exact is_state (by assumption)); clear this; refine (fun hx => ?_ : State.Keeps Q x → _) ?_ <;> [clear_value x; (dsimp -zeta only [x]; clear x)])
    | (extract_lets +onlyGivenNames x; clear_value x) | fail_if_no_progress with_reducible rw [keeps_mk] | split
    | dsimp -zeta only

theorem State.trainOver_keeps {Q : List Instr} {s : State} {l : Nat} (h : s.Keeps Q) :
    (State.trainOver s l).Keeps Q := by
  unfold State.trainOver
  repeat' first
    | with_reducible assumption | with_reducible apply State.putLink_keeps | with_reducible apply State.fallback_keeps
    | with_reducible apply State.sendCtl_keeps | with_reducible apply State.retransmit_keeps
    | with_reducible apply State.fallbackNext_keeps | with_reducible apply keeps_ite
    | (extract_lets +onlyGivenNames x; (have : True := by clear_value x; clear * - x; exact is_state (by assumption)); clear this; refine (fun hx => ?_ : State.Keeps Q x → _) ?_ <;> [clear_value x; (dsimp -zeta only [x]; clear x)])
    | (extract_lets +onlyGivenNames x; clear_value x) | fail_if_no_progress with_reducible rw [keeps_mk] | split
    | dsimp -zeta only

theorem State.vdtDrop_keeps {Q : List Instr} {s : State} {l : Nat} {n : Nat} (h : s.Keeps Q) :
    (State.vdtDrop s l n).Keeps Q := by
  unfold State.vdtDrop
  repeat' first
    | with_reducible assumption | with_reducible apply State.bump_keeps | with_reducible apply State.raise_keeps
    | with_reducible apply keeps_ite | split | dsimp -zeta only

theorem State.takeSlot_keeps {Q : List Instr} {s : State} {l : Nat} {toDie : Bool} {slot : List Nat} {data : Option (List Nat)} (h : s.Keeps Q) :
    (State.takeSlot s l toDie slot data).Keeps Q := by
  unfold State.takeSlot
  repeat' first
    | with_reducible assumption | with_reducible apply State.putDir_keeps | with_reducible apply State.vdtDrop_keeps
    | with_reducible apply keeps_ite
    | (extract_lets +onlyGivenNames x; (have : True := by clear_value x; clear * - x; exact is_state (by assumption)); clear this; refine (fun hx => ?_ : State.Keeps Q x → _) ?_ <;> [clear_value x; (dsimp -zeta only [x]; clear x)])
    | (extract_lets +onlyGivenNames x; clear_value x) | split | dsimp -zeta only

theorem State.takeHdr_keeps {Q : List Instr} {s : State} {l : Nat} {toDie : Bool} {f : BitVec 640} (h : s.Keeps Q) :
    (State.takeHdr s l toDie f).Keeps Q := by
  unfold State.takeHdr
  repeat' first
    | with_reducible assumption | with_reducible apply State.putDir_keeps | with_reducible apply State.takeSlot_keeps
    | with_reducible apply keeps_ite | with_reducible refine keeps_foldl (fun _ _ _ => ?_) ?_
    | with_reducible refine nkeeps_foldl (fun _ _ _ => ?_) ?_ | with_reducible refine npkeeps_foldl (fun _ _ _ => ?_) ?_
    | (extract_lets +onlyGivenNames x; (have : True := by clear_value x; clear * - x; exact is_state (by assumption)); clear this; refine (fun hx => ?_ : State.Keeps Q x → _) ?_ <;> [clear_value x; (dsimp -zeta only [x]; clear x)])
    | (extract_lets +onlyGivenNames x; clear_value x) | fail_if_no_progress with_reducible rw [keeps_mk] | split
    | dsimp -zeta only

theorem State.takeData_keeps {Q : List Instr} {s : State} {l : Nat} {toDie : Bool} {f : BitVec 640} (h : s.Keeps Q) :
    (State.takeData s l toDie f).Keeps Q := by
  unfold State.takeData
  repeat' first
    | with_reducible assumption | with_reducible apply State.putDir_keeps | with_reducible apply State.vdtDrop_keeps
    | with_reducible apply State.takeSlot_keeps | with_reducible apply keeps_ite
    | (extract_lets +onlyGivenNames x; (have : True := by clear_value x; clear * - x; exact is_state (by assumption)); clear this; refine (fun hx => ?_ : State.Keeps Q x → _) ?_ <;> [clear_value x; (dsimp -zeta only [x]; clear x)])
    | (extract_lets +onlyGivenNames x; clear_value x) | fail_if_no_progress with_reducible rw [keeps_mk] | split
    | dsimp -zeta only

theorem State.takeBad_keeps {Q : List Instr} {s : State} {l : Nat} {toDie : Bool} {f : BitVec 640} (h : s.Keeps Q) :
    (State.takeBad s l toDie f).Keeps Q := by
  unfold State.takeBad
  repeat' first
    | with_reducible assumption | with_reducible apply State.putDir_keeps | with_reducible apply State.vdtDrop_keeps
    | with_reducible apply keeps_ite | with_reducible refine keeps_foldl (fun _ _ _ => ?_) ?_
    | with_reducible refine nkeeps_foldl (fun _ _ _ => ?_) ?_ | with_reducible refine npkeeps_foldl (fun _ _ _ => ?_) ?_
    | (extract_lets +onlyGivenNames x; (have : True := by clear_value x; clear * - x; exact is_state (by assumption)); clear this; refine (fun hx => ?_ : State.Keeps Q x → _) ?_ <;> [clear_value x; (dsimp -zeta only [x]; clear x)])
    | (extract_lets +onlyGivenNames x; clear_value x) | fail_if_no_progress with_reducible rw [keeps_mk] | split
    | dsimp -zeta only

theorem State.sequenced_keeps {Q : List Instr} {s : State} {l : Nat} {toDie : Bool} {f : BitVec 640} (h : s.Keeps Q) :
    (State.sequenced s l toDie f).Keeps Q := by
  unfold State.sequenced
  repeat' first
    | with_reducible assumption | with_reducible apply State.putDir_keeps | with_reducible apply State.takeHdr_keeps
    | with_reducible apply State.takeData_keeps | with_reducible apply State.takeBad_keeps
    | with_reducible apply State.askReplay_keeps | with_reducible apply keeps_ite
    | (extract_lets +onlyGivenNames x; (have : True := by clear_value x; clear * - x; exact is_state (by assumption)); clear this; refine (fun hx => ?_ : State.Keeps Q x → _) ?_ <;> [clear_value x; (dsimp -zeta only [x]; clear x)])
    | (extract_lets +onlyGivenNames x; clear_value x) | fail_if_no_progress with_reducible rw [keeps_mk] | split
    | dsimp -zeta only

theorem State.takeHeader_keeps {Q : List Instr} {s : State} {l : Nat} {toDie : Bool} {f : BitVec 640} (h : s.Keeps Q) :
    (State.takeHeader s l toDie f).Keeps Q := by
  unfold State.takeHeader
  repeat' first
    | with_reducible assumption | with_reducible apply State.putDir_keeps | with_reducible apply keeps_ite
    | (extract_lets +onlyGivenNames x; (have : True := by clear_value x; clear * - x; exact is_state (by assumption)); clear this; refine (fun hx => ?_ : State.Keeps Q x → _) ?_ <;> [clear_value x; (dsimp -zeta only [x]; clear x)])
    | (extract_lets +onlyGivenNames x; clear_value x) | split | dsimp -zeta only

theorem State.takeInit_keeps {Q : List Instr} {s : State} {l : Nat} {toDie : Bool} {f : BitVec 640} (h : s.Keeps Q) :
    (State.takeInit s l toDie f).Keeps Q := by
  unfold State.takeInit
  repeat' first
    | with_reducible assumption | with_reducible apply State.putDir_keeps | with_reducible apply keeps_ite
    | (extract_lets +onlyGivenNames x; (have : True := by clear_value x; clear * - x; exact is_state (by assumption)); clear this; refine (fun hx => ?_ : State.Keeps Q x → _) ?_ <;> [clear_value x; (dsimp -zeta only [x]; clear x)])
    | (extract_lets +onlyGivenNames x; clear_value x) | fail_if_no_progress with_reducible rw [keeps_mk] | split
    | dsimp -zeta only

theorem State.takeCtl_keeps {Q : List Instr} {s : State} {l : Nat} {toDie : Bool} {f : BitVec 640} (h : s.Keeps Q) :
    (State.takeCtl s l toDie f).Keeps Q := by
  unfold State.takeCtl
  repeat' first
    | with_reducible assumption | with_reducible apply State.pauseIn_keeps | with_reducible apply State.pauseAcked_keeps
    | with_reducible apply State.trainOver_keeps | with_reducible apply keeps_ite
    | fail_if_no_progress with_reducible rw [keeps_mk] | split | dsimp -zeta only

theorem State.flitIn_keeps {Q : List Instr} {s : State} {l : Nat} {toDie : Bool} {f : BitVec 640} (h : s.Keeps Q) :
    (State.flitIn s l toDie f).Keeps Q := by
  unfold State.flitIn
  repeat' first
    | with_reducible assumption | with_reducible apply State.bump_keeps | with_reducible apply State.askReplay_keeps
    | with_reducible apply State.takeInit_keeps | with_reducible apply State.takeHeader_keeps
    | with_reducible apply State.takeCtl_keeps | with_reducible apply State.replayReq_keeps
    | with_reducible apply State.sequenced_keeps | with_reducible apply keeps_ite
    | (extract_lets +onlyGivenNames x; (have : True := by clear_value x; clear * - x; exact is_state (by assumption)); clear this; refine (fun hx => ?_ : State.Keeps Q x → _) ?_ <;> [clear_value x; (dsimp -zeta only [x]; clear x)])
    | (extract_lets +onlyGivenNames x; clear_value x) | fail_if_no_progress with_reducible rw [keeps_mk] | split
    | dsimp -zeta only

theorem execFlitReceive_keeps {Q : List Instr} {l : Fin 20} {toDie : Bool} {flit : BitVec 640} {s : State} (h : s.Keeps Q) :
    OKeeps Q (execFlitReceive l toDie flit s) := by
  unfold execFlitReceive
  repeat' first
    | with_reducible apply okeeps_next | with_reducible exact okeeps_fault | with_reducible apply okeeps_ite
    | with_reducible assumption | with_reducible apply State.flitIn_keeps | with_reducible apply keeps_ite | split
    | dsimp -zeta only

theorem execReplayReq_keeps {Q : List Instr} {l : Fin 20} {toDie : Bool} {ack : BitVec 12} {s : State} (h : s.Keeps Q) :
    OKeeps Q (execReplayReq l toDie ack s) := by
  unfold execReplayReq
  repeat' first
    | with_reducible apply okeeps_next | with_reducible exact okeeps_fault | with_reducible apply okeeps_ite
    | with_reducible assumption | with_reducible apply State.replayReq_keeps | with_reducible apply keeps_ite | split
    | dsimp -zeta only

theorem execReplayTimeout_keeps {Q : List Instr} {l : Fin 20} {toDie : Bool} {s : State} (h : s.Keeps Q) :
    OKeeps Q (execReplayTimeout l toDie s) := by
  unfold execReplayTimeout
  repeat' first
    | with_reducible apply okeeps_next | with_reducible exact okeeps_fault | with_reducible apply okeeps_ite
    | with_reducible assumption | with_reducible apply State.trigger_keeps | with_reducible apply keeps_ite
    | (extract_lets +onlyGivenNames x; (have : True := by clear_value x; clear * - x; exact is_state (by assumption)); clear this; refine (fun hx => ?_ : State.Keeps Q x → _) ?_ <;> [clear_value x; (dsimp -zeta only [x]; clear x)])
    | (extract_lets +onlyGivenNames x; clear_value x) | split | dsimp -zeta only

theorem execDiscardRepeat_keeps {Q : List Instr} {l : Fin 20} {toDie : Bool} {s : State} (h : s.Keeps Q) :
    OKeeps Q (execDiscardRepeat l toDie s) := by
  unfold execDiscardRepeat
  repeat' first
    | with_reducible apply okeeps_next | with_reducible exact okeeps_fault | with_reducible apply okeeps_ite
    | with_reducible assumption | with_reducible apply State.putDir_keeps | with_reducible apply State.askReplay_keeps
    | with_reducible apply keeps_ite
    | (extract_lets +onlyGivenNames x; (have : True := by clear_value x; clear * - x; exact is_state (by assumption)); clear this; refine (fun hx => ?_ : State.Keeps Q x → _) ?_ <;> [clear_value x; (dsimp -zeta only [x]; clear x)])
    | (extract_lets +onlyGivenNames x; clear_value x) | fail_if_no_progress with_reducible rw [keeps_mk] | split
    | dsimp -zeta only

theorem State.linkInit_keeps {Q : List Instr} {s : State} {l : Nat} (h : s.Keeps Q) :
    (State.linkInit s l).Keeps Q := by
  unfold State.linkInit
  repeat' first
    | with_reducible assumption | with_reducible apply State.putLink_keeps | with_reducible apply State.put_keeps
    | with_reducible apply keeps_ite | with_reducible refine keeps_foldl (fun _ _ _ => ?_) ?_
    | with_reducible refine nkeeps_foldl (fun _ _ _ => ?_) ?_ | with_reducible refine npkeeps_foldl (fun _ _ _ => ?_) ?_
    | (extract_lets +onlyGivenNames x; (have : True := by clear_value x; clear * - x; exact is_state (by assumption)); clear this; refine (fun hx => ?_ : State.Keeps Q x → _) ?_ <;> [clear_value x; (dsimp -zeta only [x]; clear x)])
    | (extract_lets +onlyGivenNames x; clear_value x) | fail_if_no_progress with_reducible rw [keeps_mk] | split
    | dsimp -zeta only

theorem execViaductInit_keeps {Q : List Instr} {l : Fin 20} {s : State} (h : s.Keeps Q) :
    OKeeps Q (execViaductInit l s) := by
  unfold execViaductInit
  repeat' first
    | with_reducible apply okeeps_next | with_reducible exact okeeps_fault | with_reducible apply okeeps_ite
    | with_reducible assumption | with_reducible apply State.linkInit_keeps | with_reducible apply keeps_ite
    | (extract_lets +onlyGivenNames x; (have : True := by clear_value x; clear * - x; exact is_state (by assumption)); clear this; refine (fun hx => ?_ : State.Keeps Q x → _) ?_ <;> [clear_value x; (dsimp -zeta only [x]; clear x)])
    | (extract_lets +onlyGivenNames x; clear_value x) | split | dsimp -zeta only

theorem execPauseReq_keeps {Q : List Instr} {l : Fin 20} {toDie : Bool} {s : State} (h : s.Keeps Q) :
    OKeeps Q (execPauseReq l toDie s) := by
  unfold execPauseReq
  repeat' first
    | with_reducible apply okeeps_next | with_reducible exact okeeps_fault | with_reducible apply okeeps_ite
    | with_reducible assumption | with_reducible apply State.pauseIn_keeps | with_reducible apply keeps_ite | split
    | dsimp -zeta only

theorem execPauseAck_keeps {Q : List Instr} {l : Fin 20} {toDie : Bool} {s : State} (h : s.Keeps Q) :
    OKeeps Q (execPauseAck l toDie s) := by
  unfold execPauseAck
  repeat' first
    | with_reducible apply okeeps_next | with_reducible exact okeeps_fault | with_reducible apply okeeps_ite
    | with_reducible assumption | with_reducible apply State.pauseAcked_keeps | with_reducible apply keeps_ite | split
    | dsimp -zeta only

theorem execTrainDone_keeps {Q : List Instr} {l : Fin 20} {s : State} (h : s.Keeps Q) :
    OKeeps Q (execTrainDone l s) := by
  unfold execTrainDone
  repeat' first
    | with_reducible apply okeeps_next | with_reducible exact okeeps_fault | with_reducible apply okeeps_ite
    | with_reducible assumption | with_reducible apply State.trainOver_keeps | with_reducible apply keeps_ite | split
    | dsimp -zeta only

theorem State.spareOffline_keeps {Q : List Instr} {s : State} {n : Nat} (h : s.Keeps Q) :
    (State.spareOffline s n).Keeps Q := by
  unfold State.spareOffline
  repeat' first
    | with_reducible assumption | with_reducible apply State.put_keeps | with_reducible apply State.raise_keeps
    | with_reducible apply keeps_ite | with_reducible refine keeps_foldl (fun _ _ _ => ?_) ?_
    | with_reducible refine nkeeps_foldl (fun _ _ _ => ?_) ?_ | with_reducible refine npkeeps_foldl (fun _ _ _ => ?_) ?_
    | (extract_lets +onlyGivenNames x; (have : True := by clear_value x; clear * - x; exact is_state (by assumption)); clear this; refine (fun hx => ?_ : State.Keeps Q x → _) ?_ <;> [clear_value x; (dsimp -zeta only [x]; clear x)])
    | (extract_lets +onlyGivenNames x; clear_value x) | split | dsimp -zeta only

theorem State.packedOffline_keeps {Q : List Instr} {s : State} {n : Nat} (h : s.Keeps Q) :
    (State.packedOffline s n).Keeps Q := by
  unfold State.packedOffline
  repeat' first
    | with_reducible assumption | with_reducible apply State.setPier_keeps | with_reducible apply keeps_ite
    | with_reducible refine keeps_foldl (fun _ _ _ => ?_) ?_ | with_reducible refine nkeeps_foldl (fun _ _ _ => ?_) ?_
    | with_reducible refine npkeeps_foldl (fun _ _ _ => ?_) ?_
    | (extract_lets +onlyGivenNames x; (have : True := by clear_value x; clear * - x; exact is_state (by assumption)); clear this; refine (fun hx => ?_ : State.Keeps Q x → _) ?_ <;> [clear_value x; (dsimp -zeta only [x]; clear x)])
    | (extract_lets +onlyGivenNames x; clear_value x) | fail_if_no_progress with_reducible rw [keeps_mk] | split
    | dsimp -zeta only

theorem State.pierOffline_keeps {Q : List Instr} {s : State} {n : Nat} (h : s.Keeps Q) :
    (State.pierOffline s n).Keeps Q := by
  unfold State.pierOffline
  repeat' first
    | with_reducible assumption | with_reducible apply State.put_keeps | with_reducible apply State.raise_keeps
    | with_reducible apply State.packedOffline_keeps | with_reducible apply State.setPier_keeps
    | with_reducible apply State.spareOffline_keeps | with_reducible apply State.report_keeps
    | with_reducible apply keeps_ite
    | (extract_lets +onlyGivenNames x; (have : True := by clear_value x; clear * - x; exact is_state (by assumption)); clear this; refine (fun hx => ?_ : State.Keeps Q x → _) ?_ <;> [clear_value x; (dsimp -zeta only [x]; clear x)])
    | (extract_lets +onlyGivenNames x; clear_value x) | fail_if_no_progress with_reducible rw [keeps_mk] | split
    | dsimp -zeta only

theorem State.linkDead_keeps {Q : List Instr} {s : State} {l : Nat} (h : s.Keeps Q) :
    (State.linkDead s l).Keeps Q := by
  unfold State.linkDead
  repeat' first
    | with_reducible assumption | with_reducible apply State.putLink_keeps | with_reducible apply State.pierOffline_keeps
    | with_reducible apply State.fallbackNext_keeps | with_reducible apply keeps_ite
    | (extract_lets +onlyGivenNames x; (have : True := by clear_value x; clear * - x; exact is_state (by assumption)); clear this; refine (fun hx => ?_ : State.Keeps Q x → _) ?_ <;> [clear_value x; (dsimp -zeta only [x]; clear x)])
    | (extract_lets +onlyGivenNames x; clear_value x) | fail_if_no_progress with_reducible rw [keeps_mk] | split
    | dsimp -zeta only

theorem State.linkLost_keeps {Q : List Instr} {s : State} {l : Nat} (h : s.Keeps Q) :
    (State.linkLost s l).Keeps Q := by
  unfold State.linkLost
  repeat' first
    | with_reducible assumption | with_reducible apply State.putLink_keeps | with_reducible apply State.raise_keeps
    | with_reducible apply State.linkDead_keeps | with_reducible apply State.fallbackNext_keeps
    | with_reducible apply keeps_ite
    | (extract_lets +onlyGivenNames x; (have : True := by clear_value x; clear * - x; exact is_state (by assumption)); clear this; refine (fun hx => ?_ : State.Keeps Q x → _) ?_ <;> [clear_value x; (dsimp -zeta only [x]; clear x)])
    | (extract_lets +onlyGivenNames x; clear_value x) | fail_if_no_progress with_reducible rw [keeps_mk] | split
    | dsimp -zeta only

theorem State.takeWidth_keeps {Q : List Instr} {s : State} {l : Nat} {tx : Nat} {rx : Nat} {speed : Nat} (h : s.Keeps Q) :
    (State.takeWidth s l tx rx speed).Keeps Q := by
  unfold State.takeWidth
  repeat' first
    | with_reducible assumption | with_reducible apply State.put_keeps | with_reducible apply State.raise_keeps
    | with_reducible apply keeps_ite
    | (extract_lets +onlyGivenNames x; (have : True := by clear_value x; clear * - x; exact is_state (by assumption)); clear this; refine (fun hx => ?_ : State.Keeps Q x → _) ?_ <;> [clear_value x; (dsimp -zeta only [x]; clear x)])
    | (extract_lets +onlyGivenNames x; clear_value x) | split | dsimp -zeta only

theorem State.noteAttempt_keeps {Q : List Instr} {s : State} {l : Nat} {tx : Nat} {rx : Nat} (h : s.Keeps Q) :
    (State.noteAttempt s l tx rx).Keeps Q := by
  unfold State.noteAttempt
  repeat' first
    | with_reducible assumption | with_reducible apply State.put_keeps | with_reducible apply State.bump_keeps
    | with_reducible apply keeps_ite
    | (extract_lets +onlyGivenNames x; (have : True := by clear_value x; clear * - x; exact is_state (by assumption)); clear this; refine (fun hx => ?_ : State.Keeps Q x → _) ?_ <;> [clear_value x; (dsimp -zeta only [x]; clear x)])
    | (extract_lets +onlyGivenNames x; clear_value x) | split | dsimp -zeta only

theorem State.noteRetrain_keeps {Q : List Instr} {s : State} {l : Nat} (h : s.Keeps Q) :
    (State.noteRetrain s l).Keeps Q := by
  unfold State.noteRetrain
  repeat' first
    | with_reducible assumption | with_reducible apply State.raise_keeps | with_reducible apply keeps_ite | split
    | dsimp -zeta only

theorem State.attemptDone_keeps {Q : List Instr} {s : State} {l : Nat} {tx : Nat} {rx : Nat} (h : s.Keeps Q) :
    (State.attemptDone s l tx rx).Keeps Q := by
  unfold State.attemptDone
  repeat' first
    | with_reducible assumption | with_reducible apply State.noteAttempt_keeps | with_reducible apply State.putLink_keeps
    | with_reducible apply State.takeWidth_keeps | with_reducible apply State.noteRetrain_keeps
    | with_reducible apply State.raise_keeps | with_reducible apply State.linkLost_keeps | with_reducible apply keeps_ite
    | (extract_lets +onlyGivenNames x; (have : True := by clear_value x; clear * - x; exact is_state (by assumption)); clear this; refine (fun hx => ?_ : State.Keeps Q x → _) ?_ <;> [clear_value x; (dsimp -zeta only [x]; clear x)])
    | (extract_lets +onlyGivenNames x; (have : True := by clear_value x; clear * - x; exact is_fun (by assumption)); clear this; dsimp -zeta only [x]; clear x)
    | (extract_lets +onlyGivenNames x; clear_value x) | fail_if_no_progress with_reducible rw [keeps_mk] | split
    | dsimp -zeta only

theorem execRetrainAttemptDone_keeps {Q : List Instr} {l : Fin 20} {tx : BitVec 64} {rx : BitVec 64} {s : State} (h : s.Keeps Q) :
    OKeeps Q (execRetrainAttemptDone l tx rx s) := by
  unfold execRetrainAttemptDone
  repeat' first
    | with_reducible apply okeeps_next | with_reducible exact okeeps_fault | with_reducible apply okeeps_ite
    | with_reducible assumption | with_reducible apply State.attemptDone_keeps | with_reducible apply keeps_ite
    | (extract_lets +onlyGivenNames x; (have : True := by clear_value x; clear * - x; exact is_state (by assumption)); clear this; refine (fun hx => ?_ : State.Keeps Q x → _) ?_ <;> [clear_value x; (dsimp -zeta only [x]; clear x)])
    | (extract_lets +onlyGivenNames x; clear_value x) | split | dsimp -zeta only

theorem State.vdtRetry_keeps {Q : List Instr} {s : State} {l : Nat} (h : s.Keeps Q) :
    (State.vdtRetry s l).Keeps Q := by
  unfold State.vdtRetry
  repeat' first
    | with_reducible assumption | with_reducible apply State.startRetrain_keeps | with_reducible apply keeps_ite
    | (extract_lets +onlyGivenNames x; (have : True := by clear_value x; clear * - x; exact is_state (by assumption)); clear this; refine (fun hx => ?_ : State.Keeps Q x → _) ?_ <;> [clear_value x; (dsimp -zeta only [x]; clear x)])
    | (extract_lets +onlyGivenNames x; clear_value x) | split | dsimp -zeta only

theorem execVdtRetry_keeps {Q : List Instr} {l : Fin 20} {s : State} (h : s.Keeps Q) :
    OKeeps Q (execVdtRetry l s) := by
  unfold execVdtRetry
  repeat' first
    | with_reducible apply okeeps_next | with_reducible exact okeeps_fault | with_reducible apply okeeps_ite
    | with_reducible assumption | with_reducible apply State.vdtRetry_keeps | with_reducible apply keeps_ite | split
    | dsimp -zeta only

theorem execVdtGraceRetry_keeps {Q : List Instr} {l : Fin 20} {tx : BitVec 64} {rx : BitVec 64} {s : State} (h : s.Keeps Q) :
    OKeeps Q (execVdtGraceRetry l tx rx s) := by
  unfold execVdtGraceRetry
  repeat' first
    | with_reducible apply okeeps_next | with_reducible exact okeeps_fault | with_reducible apply okeeps_ite
    | with_reducible assumption | with_reducible apply State.noteAttempt_keeps | with_reducible apply State.takeWidth_keeps
    | with_reducible apply State.putLink_keeps | with_reducible apply State.raise_keeps | with_reducible apply keeps_ite
    | (extract_lets +onlyGivenNames x; (have : True := by clear_value x; clear * - x; exact is_state (by assumption)); clear this; refine (fun hx => ?_ : State.Keeps Q x → _) ?_ <;> [clear_value x; (dsimp -zeta only [x]; clear x)])
    | (extract_lets +onlyGivenNames x; clear_value x) | fail_if_no_progress with_reducible rw [keeps_mk] | split
    | dsimp -zeta only

theorem execVdtGraceEnd_keeps {Q : List Instr} {l : Fin 20} {s : State} (h : s.Keeps Q) :
    OKeeps Q (execVdtGraceEnd l s) := by
  unfold execVdtGraceEnd
  repeat' first
    | with_reducible apply okeeps_next | with_reducible exact okeeps_fault | with_reducible apply okeeps_ite
    | with_reducible assumption | with_reducible apply State.linkDead_keeps | with_reducible apply keeps_ite
    | fail_if_no_progress with_reducible rw [keeps_mk] | split | dsimp -zeta only

theorem execNarrowThrottle_keeps {Q : List Instr} {l : Fin 20} {s : State} (h : s.Keeps Q) :
    OKeeps Q (execNarrowThrottle l s) := by
  unfold execNarrowThrottle
  repeat' first
    | with_reducible apply okeeps_next | with_reducible exact okeeps_fault | with_reducible apply okeeps_ite
    | with_reducible assumption | with_reducible apply State.put_keeps | with_reducible apply keeps_ite
    | (extract_lets +onlyGivenNames x; (have : True := by clear_value x; clear * - x; exact is_state (by assumption)); clear this; refine (fun hx => ?_ : State.Keeps Q x → _) ?_ <;> [clear_value x; (dsimp -zeta only [x]; clear x)])
    | (extract_lets +onlyGivenNames x; clear_value x) | fail_if_no_progress with_reducible rw [keeps_mk] | split
    | dsimp -zeta only

end Sys2Proof.Machine
end

