-- ==== Sys2Proof/Laws/KeepsSeqr.lean ====
section
/-!
SUPPORT. The meanings and operations of Machine/Seqr.lean keep a sound state and its queue.
-/
set_option linter.unusedTactic false
set_option linter.unusedSimpArgs false
set_option linter.unusedVariables false
set_option linter.unreachableTactic false

namespace Sys2Proof.Machine

theorem State.putSqr_keeps {Q : List Instr} {s : State} {qv : Nat} {v : Sqr} (h : s.Keeps Q) :
    (State.putSqr s qv v).Keeps Q := by
  unfold State.putSqr
  repeat' first
    | with_reducible assumption | with_reducible apply State.setSqr_keeps | with_reducible apply State.put_keeps
    | with_reducible apply keeps_ite | split | dsimp -zeta only

theorem State.putCtx_keeps {Q : List Instr} {s : State} {qv : Nat} {ctx : Nat} {c : JobCtx} (h : s.Keeps Q) :
    (State.putCtx s qv ctx c).Keeps Q := by
  unfold State.putCtx
  repeat' first
    | with_reducible assumption | with_reducible apply State.putSqr_keeps | with_reducible apply State.put_keeps
    | with_reducible apply keeps_ite | fail_if_no_progress with_reducible rw [keeps_mk] | split | dsimp -zeta only

theorem State.startJobs_keeps {Q : List Instr} {n : Nat} :
    ∀ {s : State} {q : Nat}, s.Keeps Q → (State.startJobs n s q).Keeps Q := by
  induction n with
  | zero => intro s q h; exact h
  | succ n ih =>
    intro s q h
    unfold State.startJobs
    extract_lets v
    split
    · split
      · exact h
      · exact ih (State.putSqr_keeps h)
    · exact h

theorem execJobPost_keeps {Q : List Instr} {eng : Fin 64} {qv : Fin 24} {desc : BitVec 512} {s : State} (h : s.Keeps Q) :
    OKeeps Q (execJobPost eng qv desc s) := by
  unfold execJobPost
  repeat' first
    | with_reducible apply okeeps_next | with_reducible exact okeeps_fault | with_reducible apply okeeps_ite
    | with_reducible assumption | with_reducible apply State.emit_keeps | with_reducible apply State.setEng_keeps
    | with_reducible apply State.startJobs_keeps | with_reducible apply State.putSqr_keeps | with_reducible apply keeps_ite
    | (extract_lets +onlyGivenNames x; (have : True := by clear_value x; clear * - x; exact is_state (by assumption)); clear this; refine (fun hx => ?_ : State.Keeps Q x → _) ?_ <;> [clear_value x; (dsimp -zeta only [x]; clear x)])
    | (extract_lets +onlyGivenNames x; clear_value x) | fail_if_no_progress with_reducible rw [keeps_mk] | split
    | dsimp -zeta only

theorem State.toMailbox_keeps {Q : List Instr} {s : State} {e : Nat} {m : BitVec 512} (h : s.Keeps Q) :
    PKeeps Q (State.toMailbox s e m) := by
  unfold State.toMailbox
  repeat' first
    | with_reducible assumption | with_reducible apply State.setEng_keeps | with_reducible apply keeps_ite
    | with_reducible exact keeps_fst (by with_reducible assumption) | with_reducible apply pkeeps_ite
    | with_reducible exact pkeeps_eq (by assumption) (by assumption) | with_reducible refine pkeeps_eq (by assumption) ?_
    | with_reducible exact keeps_of_p (by with_reducible assumption)
    | (extract_lets +onlyGivenNames x; (have : True := by clear_value x; clear * - x; exact is_state (by assumption)); clear this; refine (fun hx => ?_ : State.Keeps Q x → _) ?_ <;> [clear_value x; (dsimp -zeta only [x]; clear x)])
    | (extract_lets +onlyGivenNames x; (have : True := by clear_value x; clear * - x; exact is_pair (by assumption)); clear this; refine (fun hx => ?_ : PKeeps Q x → _) ?_ <;> [clear_value x; (dsimp -zeta only [x]; clear x)])
    | (extract_lets +onlyGivenNames x; clear_value x) | fail_if_no_progress with_reducible rw [keeps_mk] | split
    | dsimp -zeta only | with_reducible apply pkeeps_mk

theorem State.ring_keeps {Q : List Instr} {s : State} {e : Nat} {bit : Nat} (h : s.Keeps Q) :
    (State.ring s e bit).Keeps Q := by
  unfold State.ring
  repeat' first
    | with_reducible assumption | with_reducible apply State.setEng_keeps | with_reducible apply keeps_ite
    | fail_if_no_progress with_reducible rw [keeps_mk] | split | dsimp -zeta only

theorem State.dropCtxReq_keeps {Q : List Instr} {s : State} {c : JobCtx} (h : s.Keeps Q) :
    (State.dropCtxReq s c).Keeps Q := by
  unfold State.dropCtxReq
  repeat' first
    | with_reducible assumption | with_reducible apply State.dropReq_keeps | with_reducible apply State.release_keeps
    | with_reducible apply keeps_ite | fail_if_no_progress with_reducible rw [keeps_mk] | split | dsimp -zeta only

theorem State.endCtx_keeps {Q : List Instr} {s : State} {qv : Nat} {ctx : Nat} {c : JobCtx} (h : s.Keeps Q) :
    (State.endCtx s qv ctx c).Keeps Q := by
  unfold State.endCtx
  repeat' first
    | with_reducible assumption | with_reducible apply State.startJobs_keeps | with_reducible apply State.putSqr_keeps
    | with_reducible apply State.dropCtxReq_keeps | with_reducible apply keeps_ite
    | (extract_lets +onlyGivenNames x; (have : True := by clear_value x; clear * - x; exact is_state (by assumption)); clear this; refine (fun hx => ?_ : State.Keeps Q x → _) ?_ <;> [clear_value x; (dsimp -zeta only [x]; clear x)])
    | (extract_lets +onlyGivenNames x; clear_value x) | fail_if_no_progress with_reducible rw [keeps_mk] | split
    | dsimp -zeta only

theorem State.dropJob_keeps {Q : List Instr} {s : State} {e : Nat} {id : Nat} (h : s.Keeps Q) :
    (State.dropJob s e id).Keeps Q := by
  unfold State.dropJob
  repeat' first
    | with_reducible assumption | with_reducible apply State.setEng_keeps | with_reducible apply keeps_ite
    | (extract_lets +onlyGivenNames x; (have : True := by clear_value x; clear * - x; exact is_state (by assumption)); clear this; refine (fun hx => ?_ : State.Keeps Q x → _) ?_ <;> [clear_value x; (dsimp -zeta only [x]; clear x)])
    | (extract_lets +onlyGivenNames x; clear_value x) | fail_if_no_progress with_reducible rw [keeps_mk] | split
    | dsimp -zeta only

theorem execJobCompletion_keeps {Q : List Instr} {qv : Fin 24} {ctx : Fin 512} {s : State} (h : s.Keeps Q) :
    OKeeps Q (execJobCompletion qv ctx s) := by
  unfold execJobCompletion
  repeat' first
    | with_reducible apply okeeps_next | with_reducible exact okeeps_fault | with_reducible apply okeeps_ite
    | with_reducible assumption | with_reducible apply State.endCtx_keeps | with_reducible apply State.toMailbox_keeps
    | with_reducible apply State.ring_keeps | with_reducible apply State.dropJob_keeps
    | (with_reducible apply keeps_fst; with_reducible apply State.toMailbox_keeps) | with_reducible apply keeps_ite
    | with_reducible exact keeps_fst (by with_reducible assumption) | with_reducible apply pkeeps_ite
    | with_reducible exact pkeeps_eq (by assumption) (by assumption) | with_reducible refine pkeeps_eq (by assumption) ?_
    | with_reducible exact keeps_of_p (by with_reducible assumption)
    | (extract_lets +onlyGivenNames x; (have : True := by clear_value x; clear * - x; exact is_state (by assumption)); clear this; refine (fun hx => ?_ : State.Keeps Q x → _) ?_ <;> [clear_value x; (dsimp -zeta only [x]; clear x)])
    | (extract_lets +onlyGivenNames x; (have : True := by clear_value x; clear * - x; exact is_pair (by assumption)); clear this; refine (fun hx => ?_ : PKeeps Q x → _) ?_ <;> [clear_value x; (dsimp -zeta only [x]; clear x)])
    | (extract_lets +onlyGivenNames x; clear_value x) | fail_if_no_progress with_reducible rw [keeps_mk] | split
    | dsimp -zeta only | with_reducible apply pkeeps_mk

theorem execJobTimeout_keeps {Q : List Instr} {eng : Fin 64} {job : BitVec 16} {s : State} (h : s.Keeps Q) :
    OKeeps Q (execJobTimeout eng job s) := by
  unfold execJobTimeout
  repeat' first
    | with_reducible apply okeeps_next | with_reducible exact okeeps_fault | with_reducible apply okeeps_ite
    | with_reducible assumption | with_reducible apply State.dropJob_keeps | with_reducible apply keeps_ite
    | fail_if_no_progress with_reducible rw [keeps_mk] | split | dsimp -zeta only

theorem State.faultCtx_keeps {Q : List Instr} {s : State} {qv : Nat} {ctx : Nat} (h : s.Keeps Q) :
    (State.faultCtx s qv ctx).Keeps Q := by
  unfold State.faultCtx
  repeat' first
    | with_reducible assumption | with_reducible apply State.putCtx_keeps | with_reducible apply State.dropCtxReq_keeps
    | with_reducible apply keeps_ite | fail_if_no_progress with_reducible rw [keeps_mk] | split | dsimp -zeta only

theorem State.seqFault_keeps {Q : List Instr} {s : State} {qv : Nat} {ctx : Nat} {pc : Nat} (h : s.Keeps Q) :
    (State.seqFault s qv ctx pc).Keeps Q := by
  unfold State.seqFault
  repeat' first
    | with_reducible assumption | with_reducible apply State.put_keeps | with_reducible apply State.raise_keeps
    | with_reducible apply State.faultCtx_keeps | with_reducible apply keeps_ite
    | (extract_lets +onlyGivenNames x; (have : True := by clear_value x; clear * - x; exact is_state (by assumption)); clear this; refine (fun hx => ?_ : State.Keeps Q x → _) ?_ <;> [clear_value x; (dsimp -zeta only [x]; clear x)])
    | (extract_lets +onlyGivenNames x; clear_value x) | split | dsimp -zeta only

theorem State.endRequests_keeps {Q : List Instr} {s : State} {f : Req → Bool} (h : s.Keeps Q) :
    (State.endRequests s f).Keeps Q := by
  unfold State.endRequests
  repeat' first
    | with_reducible assumption | with_reducible apply State.refuseReq_keeps | with_reducible apply State.release_keeps
    | with_reducible apply keeps_ite | with_reducible refine keeps_foldl (fun _ _ _ => ?_) ?_
    | with_reducible refine nkeeps_foldl (fun _ _ _ => ?_) ?_ | with_reducible refine npkeeps_foldl (fun _ _ _ => ?_) ?_
    | split | dsimp -zeta only

theorem State.seqHalt_keeps {Q : List Instr} {s : State} {qv : Nat} {pc : Nat} (h : s.Keeps Q) :
    (State.seqHalt s qv pc).Keeps Q := by
  unfold State.seqHalt
  repeat' first
    | with_reducible assumption | with_reducible apply State.put_keeps | with_reducible apply State.raise_keeps
    | with_reducible apply State.faultCtx_keeps | with_reducible apply State.endRequests_keeps
    | with_reducible apply State.linkDead_keeps | with_reducible apply State.dlDown_keeps
    | with_reducible apply State.graceOver_keeps | with_reducible apply keeps_ite
    | with_reducible refine keeps_foldl (fun _ _ _ => ?_) ?_ | with_reducible refine nkeeps_foldl (fun _ _ _ => ?_) ?_
    | with_reducible refine npkeeps_foldl (fun _ _ _ => ?_) ?_
    | (extract_lets +onlyGivenNames x; (have : True := by clear_value x; clear * - x; exact is_state (by assumption)); clear this; refine (fun hx => ?_ : State.Keeps Q x → _) ?_ <;> [clear_value x; (dsimp -zeta only [x]; clear x)])
    | (extract_lets +onlyGivenNames x; clear_value x) | split | dsimp -zeta only

theorem State.runStep_keeps {Q : List Instr} {s : State} {q ctx : Nat} {want : Nat → Bool}
    {f : State → JobCtx → Nat → StepRes} (hf : ∀ s c w, s.Keeps Q → SKeeps Q (f s c w)) (h : s.Keeps Q) :
    (State.runStep s q ctx want f).Keeps Q := by
  unfold State.runStep
  split
  · exact h
  · exact State.seqHalt_keeps h
  · exact State.seqFault_keeps h
  · split
    · split
      · rename_i e
        exact State.putCtx_keeps (hf _ _ _ h _ _ (Or.inl e))
      · exact State.seqFault_keeps h
      · exact h
      · rename_i e
        exact State.putCtx_keeps (hf _ _ _ h _ _ (Or.inr e))
    · exact h

theorem execNop_keeps {Q : List Instr} {qv : Fin 24} {ctx : Fin 512} {s : State} (h : s.Keeps Q) :
    OKeeps Q (execNop qv ctx s) := by
  unfold execNop
  repeat' first
    | with_reducible apply okeeps_next | with_reducible exact okeeps_fault | with_reducible apply okeeps_ite
    | with_reducible assumption | with_reducible refine State.runStep_keeps (fun _ _ _ _ => ?_) ?_
    | with_reducible apply keeps_ite | with_reducible exact skeeps_fault | with_reducible exact skeeps_wait
    | with_reducible apply skeeps_ok | with_reducible apply skeeps_later | with_reducible apply skeeps_ite | split
    | dsimp -zeta only

theorem execWait_keeps {Q : List Instr} {qv : Fin 24} {ctx : Fin 512} {s : State} (h : s.Keeps Q) :
    OKeeps Q (execWait qv ctx s) := by
  unfold execWait
  repeat' first
    | with_reducible apply okeeps_next | with_reducible exact okeeps_fault | with_reducible apply okeeps_ite
    | with_reducible assumption | with_reducible refine State.runStep_keeps (fun _ _ _ _ => ?_) ?_
    | with_reducible apply keeps_ite | with_reducible exact skeeps_fault | with_reducible exact skeeps_wait
    | with_reducible apply skeeps_ok | with_reducible apply skeeps_later | with_reducible apply skeeps_ite
    | fail_if_no_progress with_reducible rw [keeps_mk] | split | dsimp -zeta only

theorem State.goTo_keeps {Q : List Instr} {s : State} {qv : Nat} {c : JobCtx} {t : Nat} (h : s.Keeps Q) :
    SKeeps Q (State.goTo s qv c t) := by
  unfold State.goTo
  repeat' first
    | with_reducible assumption | with_reducible apply keeps_ite | with_reducible exact skeeps_fault
    | with_reducible exact skeeps_wait | with_reducible apply skeeps_ok | with_reducible apply skeeps_later
    | with_reducible apply skeeps_ite | fail_if_no_progress with_reducible rw [keeps_mk] | split | dsimp -zeta only

theorem execBr_keeps {Q : List Instr} {qv : Fin 24} {ctx : Fin 512} {s : State} (h : s.Keeps Q) :
    OKeeps Q (execBr qv ctx s) := by
  unfold execBr
  repeat' first
    | with_reducible apply okeeps_next | with_reducible exact okeeps_fault | with_reducible apply okeeps_ite
    | with_reducible assumption | with_reducible refine State.runStep_keeps (fun _ _ _ _ => ?_) ?_
    | with_reducible apply State.goTo_keeps | with_reducible apply keeps_ite | with_reducible exact skeeps_fault
    | with_reducible exact skeeps_wait | with_reducible apply skeeps_ok | with_reducible apply skeeps_later
    | with_reducible apply skeeps_ite | split | dsimp -zeta only

theorem execJmp_keeps {Q : List Instr} {qv : Fin 24} {ctx : Fin 512} {s : State} (h : s.Keeps Q) :
    OKeeps Q (execJmp qv ctx s) := by
  unfold execJmp
  repeat' first
    | with_reducible apply okeeps_next | with_reducible exact okeeps_fault | with_reducible apply okeeps_ite
    | with_reducible assumption | with_reducible refine State.runStep_keeps (fun _ _ _ _ => ?_) ?_
    | with_reducible apply State.goTo_keeps | with_reducible apply keeps_ite | with_reducible exact skeeps_fault
    | with_reducible exact skeeps_wait | with_reducible apply skeeps_ok | with_reducible apply skeeps_later
    | with_reducible apply skeeps_ite | split | dsimp -zeta only

theorem execSet_keeps {Q : List Instr} {qv : Fin 24} {ctx : Fin 512} {s : State} (h : s.Keeps Q) :
    OKeeps Q (execSet qv ctx s) := by
  unfold execSet
  repeat' first
    | with_reducible apply okeeps_next | with_reducible exact okeeps_fault | with_reducible apply okeeps_ite
    | with_reducible assumption | with_reducible refine State.runStep_keeps (fun _ _ _ _ => ?_) ?_
    | with_reducible apply keeps_ite | with_reducible exact skeeps_fault | with_reducible exact skeeps_wait
    | with_reducible apply skeeps_ok | with_reducible apply skeeps_later | with_reducible apply skeeps_ite | split
    | dsimp -zeta only

theorem execAdd_keeps {Q : List Instr} {qv : Fin 24} {ctx : Fin 512} {s : State} (h : s.Keeps Q) :
    OKeeps Q (execAdd qv ctx s) := by
  unfold execAdd
  repeat' first
    | with_reducible apply okeeps_next | with_reducible exact okeeps_fault | with_reducible apply okeeps_ite
    | with_reducible assumption | with_reducible refine State.runStep_keeps (fun _ _ _ _ => ?_) ?_
    | with_reducible apply keeps_ite | with_reducible exact skeeps_fault | with_reducible exact skeeps_wait
    | with_reducible apply skeeps_ok | with_reducible apply skeeps_later | with_reducible apply skeeps_ite
    | (extract_lets +onlyGivenNames x; (have : True := by clear_value x; clear * - x; exact is_state (by assumption)); clear this; refine (fun hx => ?_ : State.Keeps Q x → _) ?_ <;> [clear_value x; (dsimp -zeta only [x]; clear x)])
    | (extract_lets +onlyGivenNames x; clear_value x) | split | dsimp -zeta only

theorem execLoop_keeps {Q : List Instr} {qv : Fin 24} {ctx : Fin 512} {s : State} (h : s.Keeps Q) :
    OKeeps Q (execLoop qv ctx s) := by
  unfold execLoop
  repeat' first
    | with_reducible apply okeeps_next | with_reducible exact okeeps_fault | with_reducible apply okeeps_ite
    | with_reducible assumption | with_reducible refine State.runStep_keeps (fun _ _ _ _ => ?_) ?_
    | with_reducible apply State.goTo_keeps | with_reducible apply keeps_ite | with_reducible exact skeeps_fault
    | with_reducible exact skeeps_wait | with_reducible apply skeeps_ok | with_reducible apply skeeps_later
    | with_reducible apply skeeps_ite
    | (extract_lets +onlyGivenNames x; (have : True := by clear_value x; clear * - x; exact is_state (by assumption)); clear this; refine (fun hx => ?_ : State.Keeps Q x → _) ?_ <;> [clear_value x; (dsimp -zeta only [x]; clear x)])
    | (extract_lets +onlyGivenNames x; (have : True := by clear_value x; clear * - x; exact is_step (by assumption)); clear this; refine (fun hx => ?_ : SKeeps Q x → _) ?_ <;> [clear_value x; (dsimp -zeta only [x]; clear x)])
    | (extract_lets +onlyGivenNames x; clear_value x) | split | dsimp -zeta only

theorem execCall_keeps {Q : List Instr} {qv : Fin 24} {ctx : Fin 512} {s : State} (h : s.Keeps Q) :
    OKeeps Q (execCall qv ctx s) := by
  unfold execCall
  repeat' first
    | with_reducible apply okeeps_next | with_reducible exact okeeps_fault | with_reducible apply okeeps_ite
    | with_reducible assumption | with_reducible refine State.runStep_keeps (fun _ _ _ _ => ?_) ?_
    | with_reducible apply State.goTo_keeps | with_reducible apply keeps_ite | with_reducible exact skeeps_fault
    | with_reducible exact skeeps_wait | with_reducible apply skeeps_ok | with_reducible apply skeeps_later
    | with_reducible apply skeeps_ite | fail_if_no_progress with_reducible rw [keeps_mk] | split | dsimp -zeta only

theorem execRet_keeps {Q : List Instr} {qv : Fin 24} {ctx : Fin 512} {s : State} (h : s.Keeps Q) :
    OKeeps Q (execRet qv ctx s) := by
  unfold execRet
  repeat' first
    | with_reducible apply okeeps_next | with_reducible exact okeeps_fault | with_reducible apply okeeps_ite
    | with_reducible assumption | with_reducible refine State.runStep_keeps (fun _ _ _ _ => ?_) ?_
    | with_reducible apply keeps_ite | with_reducible exact skeeps_fault | with_reducible exact skeeps_wait
    | with_reducible apply skeeps_ok | with_reducible apply skeeps_later | with_reducible apply skeeps_ite
    | fail_if_no_progress with_reducible rw [keeps_mk] | split | dsimp -zeta only

theorem execEndStep_keeps {Q : List Instr} {qv : Fin 24} {ctx : Fin 512} {s : State} (h : s.Keeps Q) :
    OKeeps Q (execEndStep qv ctx s) := by
  unfold execEndStep
  repeat' first
    | with_reducible apply okeeps_next | with_reducible exact okeeps_fault | with_reducible apply okeeps_ite
    | with_reducible assumption | with_reducible refine State.runStep_keeps (fun _ _ _ _ => ?_) ?_
    | with_reducible apply keeps_ite | with_reducible exact skeeps_fault | with_reducible exact skeeps_wait
    | with_reducible apply skeeps_ok | with_reducible apply skeeps_later | with_reducible apply skeeps_ite
    | fail_if_no_progress with_reducible rw [keeps_mk] | split | dsimp -zeta only

theorem execIllegalOpcode_keeps {Q : List Instr} {qv : Fin 24} {ctx : Fin 512} {s : State} (h : s.Keeps Q) :
    OKeeps Q (execIllegalOpcode qv ctx s) := by
  unfold execIllegalOpcode
  repeat' first
    | with_reducible apply okeeps_next | with_reducible exact okeeps_fault | with_reducible apply okeeps_ite
    | with_reducible assumption | with_reducible refine State.runStep_keeps (fun _ _ _ _ => ?_) ?_
    | with_reducible apply keeps_ite | with_reducible exact skeeps_fault | with_reducible exact skeeps_wait
    | with_reducible apply skeeps_ok | with_reducible apply skeeps_later | with_reducible apply skeeps_ite | split
    | dsimp -zeta only

theorem execUnitDone_keeps {Q : List Instr} {qv : Fin 24} {ctx : Fin 512} {unit : Fin 16} {s : State} (h : s.Keeps Q) :
    OKeeps Q (execUnitDone qv ctx unit s) := by
  unfold execUnitDone
  repeat' first
    | with_reducible apply okeeps_next | with_reducible exact okeeps_fault | with_reducible apply okeeps_ite
    | with_reducible assumption | with_reducible apply State.putCtx_keeps | with_reducible apply State.put_keeps
    | with_reducible apply keeps_ite | fail_if_no_progress with_reducible rw [keeps_mk] | split | dsimp -zeta only

theorem State.jobUnmapped_keeps {Q : List Instr} {s : State} {c : JobCtx} {da : Nat} (h : s.Keeps Q) :
    (State.jobUnmapped s c da).Keeps Q := by
  unfold State.jobUnmapped
  repeat' first
    | with_reducible assumption | with_reducible apply State.raise_keeps | with_reducible apply keeps_ite | split
    | dsimp -zeta only

theorem State.jobHold_keeps {Q : List Instr} {s : State} {qv : Nat} {ctx : Nat} {c : JobCtx} {da : Nat} {wr : Bool} (h : s.Keeps Q) :
    PKeeps Q (State.jobHold s qv ctx c da wr) := by
  unfold State.jobHold
  repeat' first
    | with_reducible assumption | with_reducible apply State.bind_keeps | with_reducible apply State.dropCtxReq_keeps
    | with_reducible apply State.recall_keeps | with_reducible apply State.setReq_keeps
    | (with_reducible apply keeps_fst; with_reducible apply State.recall_keeps) | with_reducible apply keeps_ite
    | with_reducible exact keeps_fst (by with_reducible assumption) | with_reducible apply pkeeps_ite
    | with_reducible exact pkeeps_eq (by assumption) (by assumption) | with_reducible refine pkeeps_eq (by assumption) ?_
    | with_reducible exact keeps_of_p (by with_reducible assumption) | with_reducible refine nkeeps_bind (fun _ _ => ?_) ?_
    | (extract_lets +onlyGivenNames x; (have : True := by clear_value x; clear * - x; exact is_state (by assumption)); clear this; refine (fun hx => ?_ : State.Keeps Q x → _) ?_ <;> [clear_value x; (dsimp -zeta only [x]; clear x)])
    | (extract_lets +onlyGivenNames x; (have : True := by clear_value x; clear * - x; exact is_pair (by assumption)); clear this; refine (fun hx => ?_ : PKeeps Q x → _) ?_ <;> [clear_value x; (dsimp -zeta only [x]; clear x)])
    | (extract_lets +onlyGivenNames x; clear_value x) | fail_if_no_progress with_reducible rw [keeps_mk] | split
    | dsimp -zeta only | with_reducible apply pkeeps_mk

theorem State.unitRead_keeps {Q : List Instr} {s : State} {qv : Nat} {ctx : Nat} {c : JobCtx} {a : Nat} {other : Bool} {flip : BitVec 640} (h : s.Keeps Q) :
    SKeeps Q (State.unitRead s qv ctx c a other flip) := by
  unfold State.unitRead
  repeat' first
    | with_reducible assumption | with_reducible apply State.jobUnmapped_keeps | with_reducible apply State.jobHold_keeps
    | with_reducible apply State.telPier_keeps | with_reducible apply State.busAt_keeps
    | (with_reducible apply keeps_fst; with_reducible apply State.jobHold_keeps) | with_reducible apply keeps_ite
    | with_reducible exact keeps_fst (by with_reducible assumption) | with_reducible apply pkeeps_ite
    | with_reducible exact pkeeps_eq (by assumption) (by assumption) | with_reducible refine pkeeps_eq (by assumption) ?_
    | with_reducible exact skeeps_fault | with_reducible exact skeeps_wait | with_reducible apply skeeps_ok
    | with_reducible apply skeeps_later | with_reducible apply skeeps_ite
    | with_reducible exact keeps_of_p (by with_reducible assumption)
    | (extract_lets +onlyGivenNames x; (have : True := by clear_value x; clear * - x; exact is_state (by assumption)); clear this; refine (fun hx => ?_ : State.Keeps Q x → _) ?_ <;> [clear_value x; (dsimp -zeta only [x]; clear x)])
    | (extract_lets +onlyGivenNames x; (have : True := by clear_value x; clear * - x; exact is_pair (by assumption)); clear this; refine (fun hx => ?_ : PKeeps Q x → _) ?_ <;> [clear_value x; (dsimp -zeta only [x]; clear x)])
    | (extract_lets +onlyGivenNames x; (have : True := by clear_value x; clear * - x; exact is_step (by assumption)); clear this; refine (fun hx => ?_ : SKeeps Q x → _) ?_ <;> [clear_value x; (dsimp -zeta only [x]; clear x)])
    | (extract_lets +onlyGivenNames x; clear_value x) | fail_if_no_progress with_reducible rw [keeps_mk] | split
    | dsimp -zeta only | with_reducible apply pkeeps_mk

theorem execDramRd_keeps {Q : List Instr} {qv : Fin 24} {ctx : Fin 512} {flip : BitVec 640} {s : State} (h : s.Keeps Q) :
    OKeeps Q (execDramRd qv ctx flip s) := by
  unfold execDramRd
  repeat' first
    | with_reducible apply okeeps_next | with_reducible exact okeeps_fault | with_reducible apply okeeps_ite
    | with_reducible assumption | with_reducible refine State.runStep_keeps (fun _ _ _ _ => ?_) ?_
    | with_reducible apply State.unitRead_keeps | with_reducible apply keeps_ite | with_reducible exact skeeps_fault
    | with_reducible exact skeeps_wait | with_reducible apply skeeps_ok | with_reducible apply skeeps_later
    | with_reducible apply skeeps_ite | split | dsimp -zeta only

theorem execDramRdOther_keeps {Q : List Instr} {qv : Fin 24} {ctx : Fin 512} {flip : BitVec 640} {s : State} (h : s.Keeps Q) :
    OKeeps Q (execDramRdOther qv ctx flip s) := by
  unfold execDramRdOther
  repeat' first
    | with_reducible apply okeeps_next | with_reducible exact okeeps_fault | with_reducible apply okeeps_ite
    | with_reducible assumption | with_reducible refine State.runStep_keeps (fun _ _ _ _ => ?_) ?_
    | with_reducible apply State.unitRead_keeps | with_reducible apply keeps_ite | with_reducible exact skeeps_fault
    | with_reducible exact skeeps_wait | with_reducible apply skeeps_ok | with_reducible apply skeeps_later
    | with_reducible apply skeeps_ite | split | dsimp -zeta only

theorem State.drainFirst_keeps {Q : List Instr} {s : State} {da : Nat} (h : s.Keeps Q) :
    (State.drainFirst s da).Keeps Q := by
  unfold State.drainFirst
  repeat' first
    | with_reducible assumption | with_reducible apply State.drainOne_keeps | with_reducible apply keeps_ite
    | fail_if_no_progress with_reducible rw [keeps_mk] | split | dsimp -zeta only

theorem State.jobLost_keeps {Q : List Instr} {s : State} {da : Nat} {k : Nat} (h : s.Keeps Q) :
    (State.jobLost s da k).Keeps Q := by
  unfold State.jobLost
  repeat' first
    | with_reducible assumption | with_reducible apply State.raisePoison_keeps | with_reducible apply keeps_ite
    | fail_if_no_progress with_reducible rw [keeps_mk] | split | dsimp -zeta only

theorem execDramWr_keeps {Q : List Instr} {qv : Fin 24} {ctx : Fin 512} {s : State} (h : s.Keeps Q) :
    OKeeps Q (execDramWr qv ctx s) := by
  unfold execDramWr
  repeat' first
    | with_reducible apply okeeps_next | with_reducible exact okeeps_fault | with_reducible apply okeeps_ite
    | with_reducible assumption | with_reducible refine State.runStep_keeps (fun _ _ _ _ => ?_) ?_
    | with_reducible apply State.jobUnmapped_keeps | with_reducible apply State.jobLost_keeps
    | with_reducible apply State.jobHold_keeps | with_reducible apply State.drainFirst_keeps
    | with_reducible apply State.storeLine_keeps | with_reducible apply State.descForget_keeps
    | with_reducible apply State.jobClear_keeps
    | (with_reducible apply keeps_fst; with_reducible apply State.jobHold_keeps) | with_reducible apply keeps_ite
    | with_reducible exact keeps_fst (by with_reducible assumption) | with_reducible apply pkeeps_ite
    | with_reducible exact pkeeps_eq (by assumption) (by assumption) | with_reducible refine pkeeps_eq (by assumption) ?_
    | with_reducible exact skeeps_fault | with_reducible exact skeeps_wait | with_reducible apply skeeps_ok
    | with_reducible apply skeeps_later | with_reducible apply skeeps_ite
    | with_reducible exact keeps_of_p (by with_reducible assumption)
    | (extract_lets +onlyGivenNames x; (have : True := by clear_value x; clear * - x; exact is_state (by assumption)); clear this; refine (fun hx => ?_ : State.Keeps Q x → _) ?_ <;> [clear_value x; (dsimp -zeta only [x]; clear x)])
    | (extract_lets +onlyGivenNames x; (have : True := by clear_value x; clear * - x; exact is_pair (by assumption)); clear this; refine (fun hx => ?_ : PKeeps Q x → _) ?_ <;> [clear_value x; (dsimp -zeta only [x]; clear x)])
    | (extract_lets +onlyGivenNames x; clear_value x) | fail_if_no_progress with_reducible rw [keeps_mk] | split
    | dsimp -zeta only | with_reducible apply pkeeps_mk

theorem execLiuCheck_keeps {Q : List Instr} {qv : Fin 24} {ctx : Fin 512} {s : State} (h : s.Keeps Q) :
    OKeeps Q (execLiuCheck qv ctx s) := by
  unfold execLiuCheck
  repeat' first
    | with_reducible apply okeeps_next | with_reducible exact okeeps_fault | with_reducible apply okeeps_ite
    | with_reducible assumption | with_reducible refine State.runStep_keeps (fun _ _ _ _ => ?_) ?_
    | with_reducible apply keeps_ite | with_reducible exact skeeps_fault | with_reducible exact skeeps_wait
    | with_reducible apply skeeps_ok | with_reducible apply skeeps_later | with_reducible apply skeeps_ite | split
    | dsimp -zeta only

theorem execLiuGen_keeps {Q : List Instr} {qv : Fin 24} {ctx : Fin 512} {s : State} (h : s.Keeps Q) :
    OKeeps Q (execLiuGen qv ctx s) := by
  unfold execLiuGen
  repeat' first
    | with_reducible apply okeeps_next | with_reducible exact okeeps_fault | with_reducible apply okeeps_ite
    | with_reducible assumption | with_reducible refine State.runStep_keeps (fun _ _ _ _ => ?_) ?_
    | with_reducible apply keeps_ite | with_reducible exact skeeps_fault | with_reducible exact skeeps_wait
    | with_reducible apply skeeps_ok | with_reducible apply skeeps_later | with_reducible apply skeeps_ite
    | fail_if_no_progress with_reducible rw [keeps_mk] | split | dsimp -zeta only

theorem execLiuLogCe_keeps {Q : List Instr} {qv : Fin 24} {ctx : Fin 512} {s : State} (h : s.Keeps Q) :
    OKeeps Q (execLiuLogCe qv ctx s) := by
  unfold execLiuLogCe
  repeat' first
    | with_reducible apply okeeps_next | with_reducible exact okeeps_fault | with_reducible apply okeeps_ite
    | with_reducible assumption | with_reducible refine State.runStep_keeps (fun _ _ _ _ => ?_) ?_
    | with_reducible apply State.logCe_keeps | with_reducible apply keeps_ite | with_reducible exact skeeps_fault
    | with_reducible exact skeeps_wait | with_reducible apply skeeps_ok | with_reducible apply skeeps_later
    | with_reducible apply skeeps_ite | split | dsimp -zeta only

theorem execLiuCountUe_keeps {Q : List Instr} {qv : Fin 24} {ctx : Fin 512} {s : State} (h : s.Keeps Q) :
    OKeeps Q (execLiuCountUe qv ctx s) := by
  unfold execLiuCountUe
  repeat' first
    | with_reducible apply okeeps_next | with_reducible exact okeeps_fault | with_reducible apply okeeps_ite
    | with_reducible assumption | with_reducible refine State.runStep_keeps (fun _ _ _ _ => ?_) ?_
    | with_reducible apply State.countUe_keeps | with_reducible apply keeps_ite | with_reducible exact skeeps_fault
    | with_reducible exact skeeps_wait | with_reducible apply skeeps_ok | with_reducible apply skeeps_later
    | with_reducible apply skeeps_ite | fail_if_no_progress with_reducible rw [keeps_mk] | split | dsimp -zeta only

theorem execCipherKeystream_keeps {Q : List Instr} {qv : Fin 24} {ctx : Fin 512} {s : State} (h : s.Keeps Q) :
    OKeeps Q (execCipherKeystream qv ctx s) := by
  unfold execCipherKeystream
  repeat' first
    | with_reducible apply okeeps_next | with_reducible exact okeeps_fault | with_reducible apply okeeps_ite
    | with_reducible assumption | with_reducible refine State.runStep_keeps (fun _ _ _ _ => ?_) ?_
    | with_reducible apply keeps_ite | with_reducible exact skeeps_fault | with_reducible exact skeeps_wait
    | with_reducible apply skeeps_ok | with_reducible apply skeeps_later | with_reducible apply skeeps_ite
    | fail_if_no_progress with_reducible rw [keeps_mk] | split | dsimp -zeta only

theorem execCipherXor_keeps {Q : List Instr} {qv : Fin 24} {ctx : Fin 512} {s : State} (h : s.Keeps Q) :
    OKeeps Q (execCipherXor qv ctx s) := by
  unfold execCipherXor
  repeat' first
    | with_reducible apply okeeps_next | with_reducible exact okeeps_fault | with_reducible apply okeeps_ite
    | with_reducible assumption | with_reducible refine State.runStep_keeps (fun _ _ _ _ => ?_) ?_
    | with_reducible apply keeps_ite | with_reducible exact skeeps_fault | with_reducible exact skeeps_wait
    | with_reducible apply skeeps_ok | with_reducible apply skeeps_later | with_reducible apply skeeps_ite
    | (extract_lets +onlyGivenNames x; (have : True := by clear_value x; clear * - x; exact is_state (by assumption)); clear this; refine (fun hx => ?_ : State.Keeps Q x → _) ?_ <;> [clear_value x; (dsimp -zeta only [x]; clear x)])
    | (extract_lets +onlyGivenNames x; clear_value x) | fail_if_no_progress with_reducible rw [keeps_mk] | split
    | dsimp -zeta only

theorem execTagCheck_keeps {Q : List Instr} {qv : Fin 24} {ctx : Fin 512} {s : State} (h : s.Keeps Q) :
    OKeeps Q (execTagCheck qv ctx s) := by
  unfold execTagCheck
  repeat' first
    | with_reducible apply okeeps_next | with_reducible exact okeeps_fault | with_reducible apply okeeps_ite
    | with_reducible assumption | with_reducible refine State.runStep_keeps (fun _ _ _ _ => ?_) ?_
    | with_reducible apply keeps_ite | with_reducible exact skeeps_fault | with_reducible exact skeeps_wait
    | with_reducible apply skeeps_ok | with_reducible apply skeeps_later | with_reducible apply skeeps_ite
    | (extract_lets +onlyGivenNames x; (have : True := by clear_value x; clear * - x; exact is_state (by assumption)); clear this; refine (fun hx => ?_ : State.Keeps Q x → _) ?_ <;> [clear_value x; (dsimp -zeta only [x]; clear x)])
    | (extract_lets +onlyGivenNames x; clear_value x) | fail_if_no_progress with_reducible rw [keeps_mk] | split
    | dsimp -zeta only

theorem execTagGen_keeps {Q : List Instr} {qv : Fin 24} {ctx : Fin 512} {s : State} (h : s.Keeps Q) :
    OKeeps Q (execTagGen qv ctx s) := by
  unfold execTagGen
  repeat' first
    | with_reducible apply okeeps_next | with_reducible exact okeeps_fault | with_reducible apply okeeps_ite
    | with_reducible assumption | with_reducible refine State.runStep_keeps (fun _ _ _ _ => ?_) ?_
    | with_reducible apply keeps_ite | with_reducible exact skeeps_fault | with_reducible exact skeeps_wait
    | with_reducible apply skeeps_ok | with_reducible apply skeeps_later | with_reducible apply skeeps_ite
    | (extract_lets +onlyGivenNames x; (have : True := by clear_value x; clear * - x; exact is_state (by assumption)); clear this; refine (fun hx => ?_ : State.Keeps Q x → _) ?_ <;> [clear_value x; (dsimp -zeta only [x]; clear x)])
    | (extract_lets +onlyGivenNames x; clear_value x) | fail_if_no_progress with_reducible rw [keeps_mk] | split
    | dsimp -zeta only

theorem execInflate_keeps {Q : List Instr} {qv : Fin 24} {ctx : Fin 512} {s : State} (h : s.Keeps Q) :
    OKeeps Q (execInflate qv ctx s) := by
  unfold execInflate
  repeat' first
    | with_reducible apply okeeps_next | with_reducible exact okeeps_fault | with_reducible apply okeeps_ite
    | with_reducible assumption | with_reducible refine State.runStep_keeps (fun _ _ _ _ => ?_) ?_
    | with_reducible apply keeps_ite | with_reducible exact skeeps_fault | with_reducible exact skeeps_wait
    | with_reducible apply skeeps_ok | with_reducible apply skeeps_later | with_reducible apply skeeps_ite
    | fail_if_no_progress with_reducible rw [keeps_mk] | split | dsimp -zeta only

theorem execDeflate_keeps {Q : List Instr} {qv : Fin 24} {ctx : Fin 512} {stream : List (BitVec 8)} {s : State} (h : s.Keeps Q) :
    OKeeps Q (execDeflate qv ctx stream s) := by
  unfold execDeflate
  repeat' first
    | with_reducible apply okeeps_next | with_reducible exact okeeps_fault | with_reducible apply okeeps_ite
    | with_reducible assumption | with_reducible refine State.runStep_keeps (fun _ _ _ _ => ?_) ?_
    | with_reducible apply keeps_ite | with_reducible exact skeeps_fault | with_reducible exact skeeps_wait
    | with_reducible apply skeeps_ok | with_reducible apply skeeps_later | with_reducible apply skeeps_ite
    | fail_if_no_progress with_reducible rw [keeps_mk] | split | dsimp -zeta only

theorem execVerify_keeps {Q : List Instr} {qv : Fin 24} {ctx : Fin 512} {s : State} (h : s.Keeps Q) :
    OKeeps Q (execVerify qv ctx s) := by
  unfold execVerify
  repeat' first
    | with_reducible apply okeeps_next | with_reducible exact okeeps_fault | with_reducible apply okeeps_ite
    | with_reducible assumption | with_reducible refine State.runStep_keeps (fun _ _ _ _ => ?_) ?_
    | with_reducible apply keeps_ite | with_reducible exact skeeps_fault | with_reducible exact skeeps_wait
    | with_reducible apply skeeps_ok | with_reducible apply skeeps_later | with_reducible apply skeeps_ite
    | (extract_lets +onlyGivenNames x; (have : True := by clear_value x; clear * - x; exact is_state (by assumption)); clear this; refine (fun hx => ?_ : State.Keeps Q x → _) ?_ <;> [clear_value x; (dsimp -zeta only [x]; clear x)])
    | (extract_lets +onlyGivenNames x; clear_value x) | fail_if_no_progress with_reducible rw [keeps_mk] | split
    | dsimp -zeta only

theorem execAllocPlace_keeps {Q : List Instr} {qv : Fin 24} {ctx : Fin 512} {s : State} (h : s.Keeps Q) :
    OKeeps Q (execAllocPlace qv ctx s) := by
  unfold execAllocPlace
  repeat' first
    | with_reducible apply okeeps_next | with_reducible exact okeeps_fault | with_reducible apply okeeps_ite
    | with_reducible assumption | with_reducible refine State.runStep_keeps (fun _ _ _ _ => ?_) ?_
    | with_reducible apply State.place_keeps | (with_reducible apply keeps_fst; with_reducible apply State.place_keeps)
    | with_reducible apply keeps_ite | with_reducible exact keeps_fst (by with_reducible assumption)
    | with_reducible apply pkeeps_ite | with_reducible exact pkeeps_eq (by assumption) (by assumption)
    | with_reducible refine pkeeps_eq (by assumption) ?_ | with_reducible exact skeeps_fault
    | with_reducible exact skeeps_wait | with_reducible apply skeeps_ok | with_reducible apply skeeps_later
    | with_reducible apply skeeps_ite | with_reducible exact keeps_of_p (by with_reducible assumption)
    | (extract_lets +onlyGivenNames x; (have : True := by clear_value x; clear * - x; exact is_state (by assumption)); clear this; refine (fun hx => ?_ : State.Keeps Q x → _) ?_ <;> [clear_value x; (dsimp -zeta only [x]; clear x)])
    | (extract_lets +onlyGivenNames x; (have : True := by clear_value x; clear * - x; exact is_pair (by assumption)); clear this; refine (fun hx => ?_ : PKeeps Q x → _) ?_ <;> [clear_value x; (dsimp -zeta only [x]; clear x)])
    | (extract_lets +onlyGivenNames x; clear_value x) | fail_if_no_progress with_reducible rw [keeps_mk] | split
    | dsimp -zeta only | with_reducible apply pkeeps_mk

theorem execAllocClose_keeps {Q : List Instr} {qv : Fin 24} {ctx : Fin 512} {s : State} (h : s.Keeps Q) :
    OKeeps Q (execAllocClose qv ctx s) := by
  unfold execAllocClose
  repeat' first
    | with_reducible apply okeeps_next | with_reducible exact okeeps_fault | with_reducible apply okeeps_ite
    | with_reducible assumption | with_reducible refine State.runStep_keeps (fun _ _ _ _ => ?_) ?_
    | with_reducible apply State.closeStripe_keeps | with_reducible apply keeps_ite | with_reducible exact skeeps_fault
    | with_reducible exact skeeps_wait | with_reducible apply skeeps_ok | with_reducible apply skeeps_later
    | with_reducible apply skeeps_ite | fail_if_no_progress with_reducible rw [keeps_mk] | split | dsimp -zeta only

theorem execVdtSend_keeps {Q : List Instr} {qv : Fin 24} {ctx : Fin 512} {s : State} (h : s.Keeps Q) :
    OKeeps Q (execVdtSend qv ctx s) := by
  unfold execVdtSend
  repeat' first
    | with_reducible apply okeeps_next | with_reducible exact okeeps_fault | with_reducible apply okeeps_ite
    | with_reducible assumption | with_reducible refine State.runStep_keeps (fun _ _ _ _ => ?_) ?_
    | with_reducible apply State.tick_keeps | with_reducible apply State.sendSlot_keeps
    | (with_reducible apply keeps_fst; with_reducible apply State.sendSlot_keeps) | with_reducible apply keeps_ite
    | with_reducible exact keeps_fst (by with_reducible assumption) | with_reducible apply pkeeps_ite
    | with_reducible exact pkeeps_eq (by assumption) (by assumption) | with_reducible refine pkeeps_eq (by assumption) ?_
    | with_reducible exact skeeps_fault | with_reducible exact skeeps_wait | with_reducible apply skeeps_ok
    | with_reducible apply skeeps_later | with_reducible apply skeeps_ite
    | with_reducible exact keeps_of_p (by with_reducible assumption)
    | (extract_lets +onlyGivenNames x; (have : True := by clear_value x; clear * - x; exact is_state (by assumption)); clear this; refine (fun hx => ?_ : State.Keeps Q x → _) ?_ <;> [clear_value x; (dsimp -zeta only [x]; clear x)])
    | (extract_lets +onlyGivenNames x; (have : True := by clear_value x; clear * - x; exact is_pair (by assumption)); clear this; refine (fun hx => ?_ : PKeeps Q x → _) ?_ <;> [clear_value x; (dsimp -zeta only [x]; clear x)])
    | (extract_lets +onlyGivenNames x; clear_value x) | fail_if_no_progress with_reducible rw [keeps_mk] | split
    | dsimp -zeta only | with_reducible apply pkeeps_mk

theorem execCcacheGet_keeps {Q : List Instr} {qv : Fin 24} {ctx : Fin 512} {s : State} (h : s.Keeps Q) :
    OKeeps Q (execCcacheGet qv ctx s) := by
  unfold execCcacheGet
  repeat' first
    | with_reducible apply okeeps_next | with_reducible exact okeeps_fault | with_reducible apply okeeps_ite
    | with_reducible assumption | with_reducible refine State.runStep_keeps (fun _ _ _ _ => ?_) ?_
    | with_reducible apply State.telPier_keeps | with_reducible apply keeps_ite | with_reducible exact skeeps_fault
    | with_reducible exact skeeps_wait | with_reducible apply skeeps_ok | with_reducible apply skeeps_later
    | with_reducible apply skeeps_ite
    | (extract_lets +onlyGivenNames x; (have : True := by clear_value x; clear * - x; exact is_state (by assumption)); clear this; refine (fun hx => ?_ : State.Keeps Q x → _) ?_ <;> [clear_value x; (dsimp -zeta only [x]; clear x)])
    | (extract_lets +onlyGivenNames x; clear_value x) | fail_if_no_progress with_reducible rw [keeps_mk] | split
    | dsimp -zeta only

theorem execCcacheAdvance_keeps {Q : List Instr} {qv : Fin 24} {ctx : Fin 512} {s : State} (h : s.Keeps Q) :
    OKeeps Q (execCcacheAdvance qv ctx s) := by
  unfold execCcacheAdvance
  repeat' first
    | with_reducible apply okeeps_next | with_reducible exact okeeps_fault | with_reducible apply okeeps_ite
    | with_reducible assumption | with_reducible refine State.runStep_keeps (fun _ _ _ _ => ?_) ?_
    | with_reducible apply State.advance_keeps | with_reducible apply State.put_keeps
    | (with_reducible apply keeps_fst; with_reducible apply State.advance_keeps) | with_reducible apply keeps_ite
    | with_reducible exact keeps_fst (by with_reducible assumption) | with_reducible apply pkeeps_ite
    | with_reducible exact pkeeps_eq (by assumption) (by assumption) | with_reducible refine pkeeps_eq (by assumption) ?_
    | with_reducible exact skeeps_fault | with_reducible exact skeeps_wait | with_reducible apply skeeps_ok
    | with_reducible apply skeeps_later | with_reducible apply skeeps_ite
    | with_reducible exact keeps_of_p (by with_reducible assumption)
    | (extract_lets +onlyGivenNames x; (have : True := by clear_value x; clear * - x; exact is_state (by assumption)); clear this; refine (fun hx => ?_ : State.Keeps Q x → _) ?_ <;> [clear_value x; (dsimp -zeta only [x]; clear x)])
    | (extract_lets +onlyGivenNames x; (have : True := by clear_value x; clear * - x; exact is_pair (by assumption)); clear this; refine (fun hx => ?_ : PKeeps Q x → _) ?_ <;> [clear_value x; (dsimp -zeta only [x]; clear x)])
    | (extract_lets +onlyGivenNames x; clear_value x) | fail_if_no_progress with_reducible rw [keeps_mk] | split
    | dsimp -zeta only | with_reducible apply pkeeps_mk

theorem State.pinCtr_keeps {Q : List Instr} {s : State} {da : Nat} {on : Bool} (h : s.Keeps Q) :
    NKeeps Q (State.pinCtr s da on) := by
  unfold State.pinCtr
  repeat' first
    | with_reducible assumption | with_reducible apply State.put_keeps | with_reducible apply keeps_ite
    | with_reducible exact nkeeps_none | with_reducible apply nkeeps_some | with_reducible apply nkeeps_ite
    | with_reducible refine nkeeps_eq (by assumption) ?_ | with_reducible exact keeps_of_n (by with_reducible assumption)
    | fail_if_no_progress with_reducible rw [keeps_mk] | split | dsimp -zeta only

theorem execCcachePin_keeps {Q : List Instr} {qv : Fin 24} {ctx : Fin 512} {s : State} (h : s.Keeps Q) :
    OKeeps Q (execCcachePin qv ctx s) := by
  unfold execCcachePin
  repeat' first
    | with_reducible apply okeeps_next | with_reducible exact okeeps_fault | with_reducible apply okeeps_ite
    | with_reducible assumption | with_reducible refine State.runStep_keeps (fun _ _ _ _ => ?_) ?_
    | with_reducible apply State.pinCtr_keeps | with_reducible apply keeps_ite | with_reducible exact nkeeps_none
    | with_reducible apply nkeeps_some | with_reducible apply nkeeps_ite
    | with_reducible refine nkeeps_eq (by assumption) ?_ | with_reducible exact skeeps_fault
    | with_reducible exact skeeps_wait | with_reducible apply skeeps_ok | with_reducible apply skeeps_later
    | with_reducible apply skeeps_ite | with_reducible exact keeps_of_n (by with_reducible assumption)
    | fail_if_no_progress with_reducible rw [keeps_mk] | split | dsimp -zeta only

theorem execCcacheUnpin_keeps {Q : List Instr} {qv : Fin 24} {ctx : Fin 512} {s : State} (h : s.Keeps Q) :
    OKeeps Q (execCcacheUnpin qv ctx s) := by
  unfold execCcacheUnpin
  repeat' first
    | with_reducible apply okeeps_next | with_reducible exact okeeps_fault | with_reducible apply okeeps_ite
    | with_reducible assumption | with_reducible refine State.runStep_keeps (fun _ _ _ _ => ?_) ?_
    | with_reducible apply State.pinCtr_keeps | with_reducible apply keeps_ite | with_reducible exact nkeeps_none
    | with_reducible apply nkeeps_some | with_reducible apply nkeeps_ite
    | with_reducible refine nkeeps_eq (by assumption) ?_ | with_reducible exact skeeps_fault
    | with_reducible exact skeeps_wait | with_reducible apply skeeps_ok | with_reducible apply skeeps_later
    | with_reducible apply skeeps_ite | with_reducible exact keeps_of_n (by with_reducible assumption)
    | fail_if_no_progress with_reducible rw [keeps_mk] | split | dsimp -zeta only

theorem execXlatLookup_keeps {Q : List Instr} {qv : Fin 24} {ctx : Fin 512} {s : State} (h : s.Keeps Q) :
    OKeeps Q (execXlatLookup qv ctx s) := by
  unfold execXlatLookup
  repeat' first
    | with_reducible apply okeeps_next | with_reducible exact okeeps_fault | with_reducible apply okeeps_ite
    | with_reducible assumption | with_reducible refine State.runStep_keeps (fun _ _ _ _ => ?_) ?_
    | with_reducible apply keeps_ite | with_reducible exact skeeps_fault | with_reducible exact skeeps_wait
    | with_reducible apply skeeps_ok | with_reducible apply skeeps_later | with_reducible apply skeeps_ite
    | fail_if_no_progress with_reducible rw [keeps_mk] | split | dsimp -zeta only

theorem execXlatWalk_keeps {Q : List Instr} {qv : Fin 24} {ctx : Fin 512} {s : State} (h : s.Keeps Q) :
    OKeeps Q (execXlatWalk qv ctx s) := by
  unfold execXlatWalk
  repeat' first
    | with_reducible apply okeeps_next | with_reducible exact okeeps_fault | with_reducible apply okeeps_ite
    | with_reducible assumption | with_reducible refine State.runStep_keeps (fun _ _ _ _ => ?_) ?_
    | with_reducible apply State.tlbFill_keeps | with_reducible apply keeps_ite | with_reducible exact skeeps_fault
    | with_reducible exact skeeps_wait | with_reducible apply skeeps_ok | with_reducible apply skeeps_later
    | with_reducible apply skeeps_ite
    | (extract_lets +onlyGivenNames x; (have : True := by clear_value x; clear * - x; exact is_state (by assumption)); clear this; refine (fun hx => ?_ : State.Keeps Q x → _) ?_ <;> [clear_value x; (dsimp -zeta only [x]; clear x)])
    | (extract_lets +onlyGivenNames x; clear_value x) | fail_if_no_progress with_reducible rw [keeps_mk] | split
    | dsimp -zeta only

theorem execXlatHold_keeps {Q : List Instr} {qv : Fin 24} {ctx : Fin 512} {s : State} (h : s.Keeps Q) :
    OKeeps Q (execXlatHold qv ctx s) := by
  unfold execXlatHold
  repeat' first
    | with_reducible apply okeeps_next | with_reducible exact okeeps_fault | with_reducible apply okeeps_ite
    | with_reducible assumption | with_reducible refine State.runStep_keeps (fun _ _ _ _ => ?_) ?_
    | with_reducible apply keeps_ite | with_reducible exact skeeps_fault | with_reducible exact skeeps_wait
    | with_reducible apply skeeps_ok | with_reducible apply skeeps_later | with_reducible apply skeeps_ite
    | fail_if_no_progress with_reducible rw [keeps_mk] | split | dsimp -zeta only

theorem execHomeOrder_keeps {Q : List Instr} {qv : Fin 24} {ctx : Fin 512} {s : State} (h : s.Keeps Q) :
    OKeeps Q (execHomeOrder qv ctx s) := by
  unfold execHomeOrder
  repeat' first
    | with_reducible apply okeeps_next | with_reducible exact okeeps_fault | with_reducible apply okeeps_ite
    | with_reducible assumption | with_reducible refine State.runStep_keeps (fun _ _ _ _ => ?_) ?_
    | with_reducible apply State.jobRecall_keeps | with_reducible apply State.setReq_keeps
    | (with_reducible apply keeps_fst; with_reducible apply State.jobRecall_keeps) | with_reducible apply keeps_ite
    | with_reducible exact keeps_fst (by with_reducible assumption) | with_reducible apply pkeeps_ite
    | with_reducible exact pkeeps_eq (by assumption) (by assumption) | with_reducible refine pkeeps_eq (by assumption) ?_
    | with_reducible exact skeeps_fault | with_reducible exact skeeps_wait | with_reducible apply skeeps_ok
    | with_reducible apply skeeps_later | with_reducible apply skeeps_ite
    | with_reducible exact keeps_of_p (by with_reducible assumption)
    | (extract_lets +onlyGivenNames x; (have : True := by clear_value x; clear * - x; exact is_state (by assumption)); clear this; refine (fun hx => ?_ : State.Keeps Q x → _) ?_ <;> [clear_value x; (dsimp -zeta only [x]; clear x)])
    | (extract_lets +onlyGivenNames x; (have : True := by clear_value x; clear * - x; exact is_pair (by assumption)); clear this; refine (fun hx => ?_ : PKeeps Q x → _) ?_ <;> [clear_value x; (dsimp -zeta only [x]; clear x)])
    | (extract_lets +onlyGivenNames x; clear_value x) | fail_if_no_progress with_reducible rw [keeps_mk] | split
    | dsimp -zeta only | with_reducible apply pkeeps_mk

theorem execHomeRelease_keeps {Q : List Instr} {qv : Fin 24} {ctx : Fin 512} {s : State} (h : s.Keeps Q) :
    OKeeps Q (execHomeRelease qv ctx s) := by
  unfold execHomeRelease
  repeat' first
    | with_reducible apply okeeps_next | with_reducible exact okeeps_fault | with_reducible apply okeeps_ite
    | with_reducible assumption | with_reducible refine State.runStep_keeps (fun _ _ _ _ => ?_) ?_
    | with_reducible apply State.dropReq_keeps | with_reducible apply State.release_keeps | with_reducible apply keeps_ite
    | with_reducible exact skeeps_fault | with_reducible exact skeeps_wait | with_reducible apply skeeps_ok
    | with_reducible apply skeeps_later | with_reducible apply skeeps_ite
    | fail_if_no_progress with_reducible rw [keeps_mk] | split | dsimp -zeta only

end Sys2Proof.Machine
end

