-- ==== Sys2Proof/Laws/KeepsEngines.lean ====
section
/-!
SUPPORT. The meanings and operations of Machine/Engines.lean keep a sound state and its queue.
-/
set_option linter.unusedTactic false
set_option linter.unusedSimpArgs false
set_option linter.unusedVariables false
set_option linter.unreachableTactic false

namespace Sys2Proof.Machine

theorem State.haltEng_keeps {Q : List Instr} {s : State} {e : Nat} (h : s.Keeps Q) :
    (State.haltEng s e).Keeps Q := by
  unfold State.haltEng
  repeat' first
    | with_reducible assumption | with_reducible apply State.setEng_keeps | with_reducible apply keeps_ite
    | fail_if_no_progress with_reducible rw [keeps_mk] | split | dsimp -zeta only

theorem State.suspectMoves_keeps {Q : List Instr} {s : State} {f : MoveLog → Bool} (h : s.Keeps Q) :
    (State.suspectMoves s f).Keeps Q := by
  unfold State.suspectMoves
  repeat' first
    | with_reducible assumption | with_reducible apply keeps_ite | fail_if_no_progress with_reducible rw [keeps_mk] | split
    | dsimp -zeta only

theorem execMailboxSend_keeps {Q : List Instr} {eng : Fin 64} {dst : Fin 64} {msg : BitVec 512} {s : State} (h : s.Keeps Q) :
    OKeeps Q (execMailboxSend eng dst msg s) := by
  unfold execMailboxSend
  repeat' first
    | with_reducible apply okeeps_next | with_reducible exact okeeps_fault | with_reducible apply okeeps_ite
    | with_reducible assumption | with_reducible apply State.toMailbox_keeps | with_reducible apply State.emit_keeps
    | (with_reducible apply keeps_fst; with_reducible apply State.toMailbox_keeps) | with_reducible apply keeps_ite
    | with_reducible exact keeps_fst (by with_reducible assumption) | with_reducible apply pkeeps_ite
    | with_reducible exact pkeeps_eq (by assumption) (by assumption) | with_reducible refine pkeeps_eq (by assumption) ?_
    | with_reducible exact keeps_of_p (by with_reducible assumption) | fail_if_no_progress with_reducible rw [keeps_mk]
    | split | dsimp -zeta only | with_reducible apply pkeeps_mk

theorem State.interruptOne_keeps {Q : List Instr} {s : State} {i : Nat} {j : Nat} (h : s.Keeps Q) :
    (State.interruptOne s i j).Keeps Q := by
  unfold State.interruptOne
  repeat' first
    | with_reducible assumption | with_reducible apply State.setEng_keeps | with_reducible apply keeps_ite
    | (extract_lets +onlyGivenNames x; (have : True := by clear_value x; clear * - x; exact is_state (by assumption)); clear this; refine (fun hx => ?_ : State.Keeps Q x → _) ?_ <;> [clear_value x; (dsimp -zeta only [x]; clear x)])
    | (extract_lets +onlyGivenNames x; clear_value x) | fail_if_no_progress with_reducible rw [keeps_mk] | split
    | dsimp -zeta only

theorem execInterrupt_keeps {Q : List Instr} {eng : Fin 64} {mask : BitVec 64} {s : State} (h : s.Keeps Q) :
    OKeeps Q (execInterrupt eng mask s) := by
  unfold execInterrupt
  repeat' first
    | with_reducible apply okeeps_next | with_reducible exact okeeps_fault | with_reducible apply okeeps_ite
    | with_reducible assumption | with_reducible apply State.interruptOne_keeps | with_reducible apply keeps_ite
    | with_reducible refine keeps_foldl (fun _ _ _ => ?_) ?_ | with_reducible refine nkeeps_foldl (fun _ _ _ => ?_) ?_
    | with_reducible refine npkeeps_foldl (fun _ _ _ => ?_) ?_ | split | dsimp -zeta only

theorem State.engineTick_keeps {Q : List Instr} {s : State} (h : s.Keeps Q) :
    (State.engineTick s).Keeps Q := by
  unfold State.engineTick
  repeat' first
    | with_reducible assumption | with_reducible apply keeps_ite | fail_if_no_progress with_reducible rw [keeps_mk] | split
    | dsimp -zeta only

theorem State.pierTick_keeps {Q : List Instr} {s : State} {n : Nat} (h : s.Keeps Q) :
    (State.pierTick s n).Keeps Q := by
  unfold State.pierTick
  repeat' first
    | with_reducible assumption | with_reducible apply State.passSlots_keeps | with_reducible apply State.telPier_keeps
    | with_reducible apply keeps_ite
    | (extract_lets +onlyGivenNames x; (have : True := by clear_value x; clear * - x; exact is_state (by assumption)); clear this; refine (fun hx => ?_ : State.Keeps Q x → _) ?_ <;> [clear_value x; (dsimp -zeta only [x]; clear x)])
    | (extract_lets +onlyGivenNames x; clear_value x) | split | dsimp -zeta only

theorem State.countTick_keeps {Q : List Instr} {s : State} (h : s.Keeps Q) :
    (State.countTick s).Keeps Q := by
  unfold State.countTick
  repeat' first
    | with_reducible assumption | with_reducible apply State.pierTick_keeps | with_reducible apply State.telHub_keeps
    | with_reducible apply keeps_ite | with_reducible refine keeps_foldl (fun _ _ _ => ?_) ?_
    | with_reducible refine nkeeps_foldl (fun _ _ _ => ?_) ?_ | with_reducible refine npkeeps_foldl (fun _ _ _ => ?_) ?_
    | split | dsimp -zeta only

theorem State.idle_keeps {Q : List Instr} {s : State} (h : s.Keeps Q) :
    (State.idle s).Keeps Q := by
  unfold State.idle
  repeat' first
    | with_reducible assumption | with_reducible apply State.countTick_keeps | with_reducible apply State.engineTick_keeps
    | with_reducible apply keeps_ite | fail_if_no_progress with_reducible rw [keeps_mk]
    | fail_if_no_progress with_reducible rw [keeps_mkp] | split | dsimp -zeta only

theorem State.giveRole_keeps {Q : List Instr} {s : State} {r : Nat} {e : Nat} (h : s.Keeps Q) :
    (State.giveRole s r e).Keeps Q := by
  unfold State.giveRole
  repeat' first
    | with_reducible assumption | with_reducible apply State.put_keeps | with_reducible apply State.invPort_keeps
    | with_reducible apply keeps_ite
    | (extract_lets +onlyGivenNames x; (have : True := by clear_value x; clear * - x; exact is_state (by assumption)); clear this; refine (fun hx => ?_ : State.Keeps Q x → _) ?_ <;> [clear_value x; (dsimp -zeta only [x]; clear x)])
    | (extract_lets +onlyGivenNames x; clear_value x) | fail_if_no_progress with_reducible rw [keeps_mk] | split
    | dsimp -zeta only

theorem State.passRoles_keeps {Q : List Instr} {s : State} {e : Nat} (h : s.Keeps Q) :
    (State.passRoles s e).Keeps Q := by
  unfold State.passRoles
  repeat' first
    | with_reducible assumption | with_reducible apply State.giveRole_keeps | with_reducible apply keeps_ite
    | with_reducible refine keeps_foldl (fun _ _ _ => ?_) ?_ | with_reducible refine nkeeps_foldl (fun _ _ _ => ?_) ?_
    | with_reducible refine npkeeps_foldl (fun _ _ _ => ?_) ?_ | fail_if_no_progress with_reducible rw [keeps_mk] | split
    | dsimp -zeta only

theorem State.reloadEng_keeps {Q : List Instr} {s : State} {e : Nat} (h : s.Keeps Q) :
    PKeeps Q (State.reloadEng s e) := by
  unfold State.reloadEng
  repeat' first
    | with_reducible assumption | with_reducible apply State.haltEng_keeps | with_reducible apply State.suspectMoves_keeps
    | with_reducible apply State.setEng_keeps | with_reducible apply State.raise_keeps
    | with_reducible apply State.passRoles_keeps | with_reducible apply State.halt_keeps | with_reducible apply keeps_ite
    | with_reducible exact keeps_fst (by with_reducible assumption) | with_reducible apply pkeeps_ite
    | with_reducible exact pkeeps_eq (by assumption) (by assumption) | with_reducible refine pkeeps_eq (by assumption) ?_
    | with_reducible exact keeps_of_p (by with_reducible assumption)
    | (extract_lets +onlyGivenNames x; (have : True := by clear_value x; clear * - x; exact is_state (by assumption)); clear this; refine (fun hx => ?_ : State.Keeps Q x → _) ?_ <;> [clear_value x; (dsimp -zeta only [x]; clear x)])
    | (extract_lets +onlyGivenNames x; (have : True := by clear_value x; clear * - x; exact is_pair (by assumption)); clear this; refine (fun hx => ?_ : PKeeps Q x → _) ?_ <;> [clear_value x; (dsimp -zeta only [x]; clear x)])
    | (extract_lets +onlyGivenNames x; clear_value x) | fail_if_no_progress with_reducible rw [keeps_mk] | split
    | dsimp -zeta only | with_reducible apply pkeeps_mk

theorem State.restartEng_keeps {Q : List Instr} {s : State} {e : Nat} (h : s.Keeps Q) :
    (State.restartEng s e).Keeps Q := by
  unfold State.restartEng
  repeat' first
    | with_reducible assumption | with_reducible apply State.reloadEng_keeps | with_reducible apply State.raise_keeps
    | (with_reducible apply keeps_fst; with_reducible apply State.reloadEng_keeps) | with_reducible apply keeps_ite
    | with_reducible exact keeps_fst (by with_reducible assumption) | with_reducible apply pkeeps_ite
    | with_reducible exact pkeeps_eq (by assumption) (by assumption) | with_reducible refine pkeeps_eq (by assumption) ?_
    | with_reducible exact keeps_of_p (by with_reducible assumption) | fail_if_no_progress with_reducible rw [keeps_mk]
    | split | dsimp -zeta only | with_reducible apply pkeeps_mk

theorem execKeystoneProbe_keeps {Q : List Instr} {answered : BitVec 64} {s : State} (h : s.Keeps Q) :
    OKeeps Q (execKeystoneProbe answered s) := by
  unfold execKeystoneProbe
  repeat' first
    | with_reducible apply okeeps_next | with_reducible exact okeeps_fault | with_reducible apply okeeps_ite
    | with_reducible assumption | with_reducible apply State.setEng_keeps | with_reducible apply State.restartEng_keeps
    | with_reducible apply keeps_ite | with_reducible refine keeps_foldl (fun _ _ _ => ?_) ?_
    | with_reducible refine nkeeps_foldl (fun _ _ _ => ?_) ?_ | with_reducible refine npkeeps_foldl (fun _ _ _ => ?_) ?_
    | (extract_lets +onlyGivenNames x; (have : True := by clear_value x; clear * - x; exact is_state (by assumption)); clear this; refine (fun hx => ?_ : State.Keeps Q x → _) ?_ <;> [clear_value x; (dsimp -zeta only [x]; clear x)])
    | (extract_lets +onlyGivenNames x; clear_value x) | fail_if_no_progress with_reducible rw [keeps_mk] | split
    | dsimp -zeta only

theorem execEngineReloadDone_keeps {Q : List Instr} {eng : Fin 64} {s : State} (h : s.Keeps Q) :
    OKeeps Q (execEngineReloadDone eng s) := by
  unfold execEngineReloadDone
  repeat' first
    | with_reducible apply okeeps_next | with_reducible exact okeeps_fault | with_reducible apply okeeps_ite
    | with_reducible assumption | with_reducible apply State.setEng_keeps | with_reducible apply State.giveRole_keeps
    | with_reducible apply keeps_ite
    | (extract_lets +onlyGivenNames x; (have : True := by clear_value x; clear * - x; exact is_state (by assumption)); clear this; refine (fun hx => ?_ : State.Keeps Q x → _) ?_ <;> [clear_value x; (dsimp -zeta only [x]; clear x)])
    | (extract_lets +onlyGivenNames x; clear_value x) | fail_if_no_progress with_reducible rw [keeps_mk] | split
    | dsimp -zeta only

theorem State.resolveHold_keeps {Q : List Instr} {s : State} {id : Nat} {r : Req} (h : s.Keeps Q) :
    (State.resolveHold s id r).Keeps Q := by
  unfold State.resolveHold
  repeat' first
    | with_reducible assumption | with_reducible apply State.resolveM_keeps | with_reducible apply State.raiseHold_keeps
    | with_reducible apply State.complete_keeps | with_reducible apply keeps_ite
    | fail_if_no_progress with_reducible rw [keeps_mk] | split | dsimp -zeta only

theorem State.resolveHolds_keeps {Q : List Instr} {s : State} (h : s.Keeps Q) :
    (State.resolveHolds s).Keeps Q := by
  unfold State.resolveHolds
  repeat' first
    | with_reducible assumption | with_reducible apply State.resolveHold_keeps | with_reducible apply State.settle_keeps
    | with_reducible apply keeps_ite | with_reducible refine keeps_foldl (fun _ _ _ => ?_) ?_
    | with_reducible refine nkeeps_foldl (fun _ _ _ => ?_) ?_ | with_reducible refine npkeeps_foldl (fun _ _ _ => ?_) ?_
    | (extract_lets +onlyGivenNames x; (have : True := by clear_value x; clear * - x; exact is_state (by assumption)); clear this; refine (fun hx => ?_ : State.Keeps Q x → _) ?_ <;> [clear_value x; (dsimp -zeta only [x]; clear x)])
    | (extract_lets +onlyGivenNames x; clear_value x) | split | dsimp -zeta only

theorem State.enterCoast_keeps {Q : List Instr} {s : State} (h : s.Keeps Q) :
    (State.enterCoast s).Keeps Q := by
  unfold State.enterCoast
  repeat' first
    | with_reducible assumption | with_reducible apply State.put_keeps | with_reducible apply State.haltEng_keeps
    | with_reducible apply State.suspectMoves_keeps | with_reducible apply State.raise_keeps
    | with_reducible apply State.holdCopies_keeps | with_reducible apply State.resolveHolds_keeps
    | with_reducible apply keeps_ite | with_reducible refine keeps_foldl (fun _ _ _ => ?_) ?_
    | with_reducible refine nkeeps_foldl (fun _ _ _ => ?_) ?_ | with_reducible refine npkeeps_foldl (fun _ _ _ => ?_) ?_
    | (extract_lets +onlyGivenNames x; (have : True := by clear_value x; clear * - x; exact is_state (by assumption)); clear this; refine (fun hx => ?_ : State.Keeps Q x → _) ?_ <;> [clear_value x; (dsimp -zeta only [x]; clear x)])
    | (extract_lets +onlyGivenNames x; clear_value x) | fail_if_no_progress with_reducible rw [keeps_mk] | split
    | dsimp -zeta only

theorem State.fenceMc_keeps {Q : List Instr} {s : State} {k : Nat} (h : s.Keeps Q) :
    (State.fenceMc s k).Keeps Q := by
  unfold State.fenceMc
  repeat' first
    | with_reducible assumption | with_reducible apply State.haltEng_keeps | with_reducible apply State.setEng_keeps
    | with_reducible apply State.put_keeps | with_reducible apply keeps_ite
    | with_reducible refine keeps_foldl (fun _ _ _ => ?_) ?_ | with_reducible refine nkeeps_foldl (fun _ _ _ => ?_) ?_
    | with_reducible refine npkeeps_foldl (fun _ _ _ => ?_) ?_
    | (extract_lets +onlyGivenNames x; (have : True := by clear_value x; clear * - x; exact is_state (by assumption)); clear this; refine (fun hx => ?_ : State.Keeps Q x → _) ?_ <;> [clear_value x; (dsimp -zeta only [x]; clear x)])
    | (extract_lets +onlyGivenNames x; clear_value x) | fail_if_no_progress with_reducible rw [keeps_mk] | split
    | dsimp -zeta only

theorem State.takeBaton_keeps {Q : List Instr} {s : State} {k : Nat} (h : s.Keeps Q) :
    (State.takeBaton s k).Keeps Q := by
  unfold State.takeBaton
  repeat' first
    | with_reducible assumption | with_reducible apply State.put_keeps | with_reducible apply State.ring_keeps
    | with_reducible apply keeps_ite
    | (extract_lets +onlyGivenNames x; (have : True := by clear_value x; clear * - x; exact is_state (by assumption)); clear this; refine (fun hx => ?_ : State.Keeps Q x → _) ?_ <;> [clear_value x; (dsimp -zeta only [x]; clear x)])
    | (extract_lets +onlyGivenNames x; clear_value x) | split | dsimp -zeta only

theorem State.passBaton_keeps {Q : List Instr} {s : State} {cause : Nat} (h : s.Keeps Q) :
    (State.passBaton s cause).Keeps Q := by
  unfold State.passBaton
  repeat' first
    | with_reducible assumption | with_reducible apply State.fenceMc_keeps | with_reducible apply State.takeBaton_keeps
    | with_reducible apply State.suspectMoves_keeps | with_reducible apply State.put_keeps
    | with_reducible apply State.raise_keeps | with_reducible apply State.enterCoast_keeps | with_reducible apply keeps_ite
    | (extract_lets +onlyGivenNames x; (have : True := by clear_value x; clear * - x; exact is_state (by assumption)); clear this; refine (fun hx => ?_ : State.Keeps Q x → _) ?_ <;> [clear_value x; (dsimp -zeta only [x]; clear x)])
    | (extract_lets +onlyGivenNames x; clear_value x) | fail_if_no_progress with_reducible rw [keeps_mk] | split
    | dsimp -zeta only

theorem State.lapBeat_keeps {Q : List Instr} {s : State} {eng : Nat} (h : s.Keeps Q) :
    (State.lapBeat s eng).Keeps Q := by
  unfold State.lapBeat
  repeat' first
    | with_reducible assumption | with_reducible apply State.put_keeps | with_reducible apply State.raise_keeps
    | with_reducible apply State.resumeCopies_keeps | with_reducible apply keeps_ite
    | (extract_lets +onlyGivenNames x; (have : True := by clear_value x; clear * - x; exact is_state (by assumption)); clear this; refine (fun hx => ?_ : State.Keeps Q x → _) ?_ <;> [clear_value x; (dsimp -zeta only [x]; clear x)])
    | (extract_lets +onlyGivenNames x; clear_value x) | fail_if_no_progress with_reducible rw [keeps_mk] | split
    | dsimp -zeta only

theorem execHubLapBeat_keeps {Q : List Instr} {eng : Fin 64} {s : State} (h : s.Keeps Q) :
    OKeeps Q (execHubLapBeat eng s) := by
  unfold execHubLapBeat
  repeat' first
    | with_reducible apply okeeps_next | with_reducible exact okeeps_fault | with_reducible apply okeeps_ite
    | with_reducible assumption | with_reducible apply State.leaveIdle_keeps | with_reducible apply State.lapBeat_keeps
    | with_reducible apply keeps_ite | split | dsimp -zeta only

theorem execLapWindowEnd_keeps {Q : List Instr} {s : State} (h : s.Keeps Q) :
    OKeeps Q (execLapWindowEnd s) := by
  unfold execLapWindowEnd
  repeat' first
    | with_reducible apply okeeps_next | with_reducible exact okeeps_fault | with_reducible apply okeeps_ite
    | with_reducible assumption | with_reducible apply State.put_keeps | with_reducible apply State.passBaton_keeps
    | with_reducible apply keeps_ite
    | (extract_lets +onlyGivenNames x; (have : True := by clear_value x; clear * - x; exact is_state (by assumption)); clear this; refine (fun hx => ?_ : State.Keeps Q x → _) ?_ <;> [clear_value x; (dsimp -zeta only [x]; clear x)])
    | (extract_lets +onlyGivenNames x; clear_value x) | split | dsimp -zeta only

theorem execLockstepMismatch_keeps {Q : List Instr} {s : State} (h : s.Keeps Q) :
    OKeeps Q (execLockstepMismatch s) := by
  unfold execLockstepMismatch
  repeat' first
    | with_reducible apply okeeps_next | with_reducible exact okeeps_fault | with_reducible apply okeeps_ite
    | with_reducible assumption | with_reducible apply State.passBaton_keeps | with_reducible apply keeps_ite | split
    | dsimp -zeta only

theorem State.writePass_keeps {Q : List Instr} {s : State} (h : s.Keeps Q) :
    (State.writePass s).Keeps Q := by
  unfold State.writePass
  repeat' first
    | with_reducible assumption | with_reducible apply State.passBaton_keeps | with_reducible apply keeps_ite | split
    | dsimp -zeta only

theorem execPass_keeps {Q : List Instr} {s : State} (h : s.Keeps Q) :
    OKeeps Q (execPass s) := by
  unfold execPass
  repeat' first
    | with_reducible apply okeeps_next | with_reducible exact okeeps_fault | with_reducible apply okeeps_ite
    | with_reducible assumption | with_reducible apply State.writePass_keeps | with_reducible apply keeps_ite | split
    | dsimp -zeta only

theorem execBridgeTimeout_keeps {Q : List Instr} {s : State} (h : s.Keeps Q) :
    OKeeps Q (execBridgeTimeout s) := by
  unfold execBridgeTimeout
  repeat' first
    | with_reducible apply okeeps_next | with_reducible exact okeeps_fault | with_reducible apply okeeps_ite
    | with_reducible assumption | with_reducible apply State.enterCoast_keeps | with_reducible apply keeps_ite
    | fail_if_no_progress with_reducible rw [keeps_mk] | split | dsimp -zeta only

theorem State.restartFail_keeps {Q : List Instr} {s : State} {mask : Nat} (h : s.Keeps Q) :
    (State.restartFail s mask).Keeps Q := by
  unfold State.restartFail
  repeat' first
    | with_reducible assumption | with_reducible apply State.haltEng_keeps | with_reducible apply State.put_keeps
    | with_reducible apply State.raise_keeps | with_reducible apply keeps_ite
    | with_reducible refine keeps_foldl (fun _ _ _ => ?_) ?_ | with_reducible refine nkeeps_foldl (fun _ _ _ => ?_) ?_
    | with_reducible refine npkeeps_foldl (fun _ _ _ => ?_) ?_
    | (extract_lets +onlyGivenNames x; (have : True := by clear_value x; clear * - x; exact is_state (by assumption)); clear this; refine (fun hx => ?_ : State.Keeps Q x → _) ?_ <;> [clear_value x; (dsimp -zeta only [x]; clear x)])
    | (extract_lets +onlyGivenNames x; clear_value x) | fail_if_no_progress with_reducible rw [keeps_mk] | split
    | dsimp -zeta only

theorem State.writeRestart_keeps {Q : List Instr} {s : State} {mask : Nat} {sigOk : Bool} (h : s.Keeps Q) :
    (State.writeRestart s mask sigOk).Keeps Q := by
  unfold State.writeRestart
  repeat' first
    | with_reducible assumption | with_reducible apply State.restartFail_keeps | with_reducible apply State.put_keeps
    | with_reducible apply State.setEng_keeps | with_reducible apply State.halt_keeps
    | with_reducible apply State.takeBaton_keeps | with_reducible apply keeps_ite
    | with_reducible refine keeps_foldl (fun _ _ _ => ?_) ?_ | with_reducible refine nkeeps_foldl (fun _ _ _ => ?_) ?_
    | with_reducible refine npkeeps_foldl (fun _ _ _ => ?_) ?_
    | (extract_lets +onlyGivenNames x; (have : True := by clear_value x; clear * - x; exact is_state (by assumption)); clear this; refine (fun hx => ?_ : State.Keeps Q x → _) ?_ <;> [clear_value x; (dsimp -zeta only [x]; clear x)])
    | (extract_lets +onlyGivenNames x; clear_value x) | fail_if_no_progress with_reducible rw [keeps_mk] | split
    | dsimp -zeta only

theorem execRestart_keeps {Q : List Instr} {mask : BitVec 4} {sigOk : Bool} {s : State} (h : s.Keeps Q) :
    OKeeps Q (execRestart mask sigOk s) := by
  unfold execRestart
  repeat' first
    | with_reducible apply okeeps_next | with_reducible exact okeeps_fault | with_reducible apply okeeps_ite
    | with_reducible assumption | with_reducible apply State.writeRestart_keeps | with_reducible apply keeps_ite | split
    | dsimp -zeta only

theorem execRestartBeatTimeout_keeps {Q : List Instr} {s : State} (h : s.Keeps Q) :
    OKeeps Q (execRestartBeatTimeout s) := by
  unfold execRestartBeatTimeout
  repeat' first
    | with_reducible apply okeeps_next | with_reducible exact okeeps_fault | with_reducible apply okeeps_ite
    | with_reducible assumption | with_reducible apply State.restartFail_keeps | with_reducible apply State.put_keeps
    | with_reducible apply State.passBaton_keeps | with_reducible apply keeps_ite
    | fail_if_no_progress with_reducible rw [keeps_mk] | split | dsimp -zeta only

theorem State.engReload_keeps {Q : List Instr} {s : State} (h : s.Keeps Q) :
    (State.engReload s).Keeps Q := by
  unfold State.engReload
  repeat' first
    | with_reducible assumption | with_reducible apply State.reloadEng_keeps
    | (with_reducible apply keeps_fst; with_reducible apply State.reloadEng_keeps) | with_reducible apply keeps_ite
    | with_reducible exact keeps_fst (by with_reducible assumption) | with_reducible apply pkeeps_ite
    | with_reducible exact pkeeps_eq (by assumption) (by assumption) | with_reducible refine pkeeps_eq (by assumption) ?_
    | with_reducible exact keeps_of_p (by with_reducible assumption)
    | (extract_lets +onlyGivenNames x; (have : True := by clear_value x; clear * - x; exact is_state (by assumption)); clear this; refine (fun hx => ?_ : State.Keeps Q x → _) ?_ <;> [clear_value x; (dsimp -zeta only [x]; clear x)])
    | (extract_lets +onlyGivenNames x; (have : True := by clear_value x; clear * - x; exact is_pair (by assumption)); clear this; refine (fun hx => ?_ : PKeeps Q x → _) ?_ <;> [clear_value x; (dsimp -zeta only [x]; clear x)])
    | (extract_lets +onlyGivenNames x; clear_value x) | split | dsimp -zeta only | with_reducible apply pkeeps_mk

theorem State.writeEngCtl_keeps {Q : List Instr} {s : State} {v : Nat} (h : s.Keeps Q) :
    (State.writeEngCtl s v).Keeps Q := by
  unfold State.writeEngCtl
  repeat' first
    | with_reducible assumption | with_reducible apply State.setEng_keeps | with_reducible apply State.halt_keeps
    | with_reducible apply State.haltEng_keeps | with_reducible apply State.engReload_keeps
    | with_reducible apply keeps_ite
    | (extract_lets +onlyGivenNames x; (have : True := by clear_value x; clear * - x; exact is_state (by assumption)); clear this; refine (fun hx => ?_ : State.Keeps Q x → _) ?_ <;> [clear_value x; (dsimp -zeta only [x]; clear x)])
    | (extract_lets +onlyGivenNames x; clear_value x) | fail_if_no_progress with_reducible rw [keeps_mk] | split
    | dsimp -zeta only

theorem execEngineHalt_keeps {Q : List Instr} {v : BitVec 32} {s : State} (h : s.Keeps Q) :
    OKeeps Q (execEngineHalt v s) := by
  unfold execEngineHalt
  repeat' first
    | with_reducible apply okeeps_next | with_reducible exact okeeps_fault | with_reducible apply okeeps_ite
    | with_reducible assumption | with_reducible apply State.writeEngCtl_keeps | with_reducible apply keeps_ite | split
    | dsimp -zeta only

theorem execEngRestart_keeps {Q : List Instr} {s : State} (h : s.Keeps Q) :
    OKeeps Q (execEngRestart s) := by
  unfold execEngRestart
  repeat' first
    | with_reducible apply okeeps_next | with_reducible exact okeeps_fault | with_reducible apply okeeps_ite
    | with_reducible assumption | with_reducible apply State.engReload_keeps | with_reducible apply keeps_ite | split
    | dsimp -zeta only

end Sys2Proof.Machine
end

