-- ==== Sys2Proof/Laws/KeepsManager.lean ====
section
/-!
SUPPORT. The meanings and operations of Machine/Manager.lean keep a sound state and its queue.
-/
set_option linter.unusedTactic false
set_option linter.unusedSimpArgs false
set_option linter.unusedVariables false
set_option linter.unreachableTactic false

namespace Sys2Proof.Machine

theorem execGetKenezInfo_keeps {Q : List Instr} {src : CmdSrc} {s : State} (h : s.Keeps Q) :
    OKeeps Q (execGetKenezInfo src s) := by
  unfold execGetKenezInfo
  repeat' first
    | with_reducible apply okeeps_next | with_reducible exact okeeps_fault | with_reducible apply okeeps_ite
    | with_reducible assumption | with_reducible refine State.vendor_keeps (fun _ _ _ => ?_) ?_
    | with_reducible apply keeps_ite | with_reducible exact keeps_fst (by with_reducible assumption)
    | with_reducible apply pkeeps_ite | with_reducible exact pkeeps_eq (by assumption) (by assumption)
    | with_reducible refine pkeeps_eq (by assumption) ?_ | with_reducible exact keeps_of_p (by with_reducible assumption)
    | split | dsimp -zeta only | with_reducible apply pkeeps_mk

theorem execPolicyGet_keeps {Q : List Instr} {src : CmdSrc} {req : List (BitVec 8)} {s : State} (h : s.Keeps Q) :
    OKeeps Q (execPolicyGet src req s) := by
  unfold execPolicyGet
  repeat' first
    | with_reducible apply okeeps_next | with_reducible exact okeeps_fault | with_reducible apply okeeps_ite
    | with_reducible assumption | with_reducible refine State.vendor_keeps (fun _ _ _ => ?_) ?_
    | with_reducible apply keeps_ite | with_reducible exact keeps_fst (by with_reducible assumption)
    | with_reducible apply pkeeps_ite | with_reducible exact pkeeps_eq (by assumption) (by assumption)
    | with_reducible refine pkeeps_eq (by assumption) ?_ | with_reducible exact keeps_of_p (by with_reducible assumption)
    | fail_if_no_progress with_reducible rw [keeps_mk] | split | dsimp -zeta only | with_reducible apply pkeeps_mk

theorem State.putPiers_keeps {Q : List Instr} {s : State} {f : Fld} {v : Nat} (h : s.Keeps Q) :
    (State.putPiers s f v).Keeps Q := by
  unfold State.putPiers
  repeat' first
    | with_reducible assumption | with_reducible apply State.put_keeps | with_reducible apply keeps_ite
    | with_reducible refine keeps_foldl (fun _ _ _ => ?_) ?_ | with_reducible refine nkeeps_foldl (fun _ _ _ => ?_) ?_
    | with_reducible refine npkeeps_foldl (fun _ _ _ => ?_) ?_ | split | dsimp -zeta only

theorem State.pacerWith_keeps {Q : List Instr} {s : State} {f : Fld} {v : Nat} (h : s.Keeps Q) :
    (State.pacerWith s f v).Keeps Q := by
  unfold State.pacerWith
  repeat' first
    | with_reducible assumption | with_reducible apply State.put_keeps | with_reducible apply State.urgUpdate_keeps
    | with_reducible apply State.pacerUpdate_keeps | with_reducible apply keeps_ite
    | with_reducible refine keeps_foldl (fun _ _ _ => ?_) ?_ | with_reducible refine nkeeps_foldl (fun _ _ _ => ?_) ?_
    | with_reducible refine npkeeps_foldl (fun _ _ _ => ?_) ?_
    | (extract_lets +onlyGivenNames x; (have : True := by clear_value x; clear * - x; exact is_state (by assumption)); clear this; refine (fun hx => ?_ : State.Keeps Q x → _) ?_ <;> [clear_value x; (dsimp -zeta only [x]; clear x)])
    | (extract_lets +onlyGivenNames x; clear_value x) | split | dsimp -zeta only

theorem State.applyPolicy_keeps {Q : List Instr} {s : State} {id : Nat} {v : Nat} (h : s.Keeps Q) :
    (State.applyPolicy s id v).Keeps Q := by
  unfold State.applyPolicy
  repeat' first
    | with_reducible assumption | with_reducible apply State.putPiers_keeps | with_reducible apply State.pacerWith_keeps
    | with_reducible apply keeps_ite | fail_if_no_progress with_reducible rw [keeps_mk] | split | dsimp -zeta only

theorem State.changePolicy_keeps {Q : List Instr} {s : State} {id : Nat} {v : Nat} {lo : Nat} {hi : Nat} (h : s.Keeps Q) :
    (State.changePolicy s id v lo hi).Keeps Q := by
  unfold State.changePolicy
  repeat' first
    | with_reducible assumption | with_reducible apply State.put_keeps | with_reducible apply State.applyPolicy_keeps
    | with_reducible apply State.raise_keeps | with_reducible apply State.ring_keeps | with_reducible apply keeps_ite
    | with_reducible refine keeps_foldl (fun _ _ _ => ?_) ?_ | with_reducible refine nkeeps_foldl (fun _ _ _ => ?_) ?_
    | with_reducible refine npkeeps_foldl (fun _ _ _ => ?_) ?_
    | (extract_lets +onlyGivenNames x; (have : True := by clear_value x; clear * - x; exact is_state (by assumption)); clear this; refine (fun hx => ?_ : State.Keeps Q x → _) ?_ <;> [clear_value x; (dsimp -zeta only [x]; clear x)])
    | (extract_lets +onlyGivenNames x; clear_value x) | fail_if_no_progress with_reducible rw [keeps_mk] | split
    | dsimp -zeta only

theorem State.policySet_keeps {Q : List Instr} {s : State} {p : List Nat} (h : s.Keeps Q) :
    PKeeps Q (State.policySet s p) := by
  unfold State.policySet
  repeat' first
    | with_reducible assumption | with_reducible apply State.changePolicy_keeps | with_reducible apply keeps_ite
    | with_reducible exact keeps_fst (by with_reducible assumption) | with_reducible apply pkeeps_ite
    | with_reducible exact pkeeps_eq (by assumption) (by assumption) | with_reducible refine pkeeps_eq (by assumption) ?_
    | with_reducible exact keeps_of_p (by with_reducible assumption)
    | (extract_lets +onlyGivenNames x; (have : True := by clear_value x; clear * - x; exact is_state (by assumption)); clear this; refine (fun hx => ?_ : State.Keeps Q x → _) ?_ <;> [clear_value x; (dsimp -zeta only [x]; clear x)])
    | (extract_lets +onlyGivenNames x; (have : True := by clear_value x; clear * - x; exact is_pair (by assumption)); clear this; refine (fun hx => ?_ : PKeeps Q x → _) ?_ <;> [clear_value x; (dsimp -zeta only [x]; clear x)])
    | (extract_lets +onlyGivenNames x; clear_value x) | fail_if_no_progress with_reducible rw [keeps_mk] | split
    | dsimp -zeta only | with_reducible apply pkeeps_mk

theorem execPolicySet_keeps {Q : List Instr} {src : CmdSrc} {req : List (BitVec 8)} {s : State} (h : s.Keeps Q) :
    OKeeps Q (execPolicySet src req s) := by
  unfold execPolicySet
  repeat' first
    | with_reducible apply okeeps_next | with_reducible exact okeeps_fault | with_reducible apply okeeps_ite
    | with_reducible assumption | with_reducible refine State.vendor_keeps (fun _ _ _ => ?_) ?_
    | with_reducible apply State.policySet_keeps
    | (with_reducible apply keeps_fst; with_reducible apply State.policySet_keeps) | with_reducible apply keeps_ite
    | with_reducible exact keeps_fst (by with_reducible assumption) | with_reducible apply pkeeps_ite
    | with_reducible exact pkeeps_eq (by assumption) (by assumption) | with_reducible refine pkeeps_eq (by assumption) ?_
    | with_reducible exact keeps_of_p (by with_reducible assumption) | split | dsimp -zeta only
    | with_reducible apply pkeeps_mk

theorem State.writeMbxCmd_keeps {Q : List Instr} {s : State} {k : Nat} {v : Nat} (h : s.Keeps Q) :
    (State.writeMbxCmd s k v).Keeps Q := by
  unfold State.writeMbxCmd
  repeat' first
    | with_reducible assumption | with_reducible apply State.put_keeps | with_reducible apply State.ring_keeps
    | with_reducible apply keeps_ite | with_reducible exact keeps_fst (by with_reducible assumption)
    | with_reducible apply pkeeps_ite | with_reducible exact pkeeps_eq (by assumption) (by assumption)
    | with_reducible refine pkeeps_eq (by assumption) ?_ | with_reducible exact keeps_of_p (by with_reducible assumption)
    | (extract_lets +onlyGivenNames x; (have : True := by clear_value x; clear * - x; exact is_state (by assumption)); clear this; refine (fun hx => ?_ : State.Keeps Q x → _) ?_ <;> [clear_value x; (dsimp -zeta only [x]; clear x)])
    | (extract_lets +onlyGivenNames x; (have : True := by clear_value x; clear * - x; exact is_pair (by assumption)); clear this; refine (fun hx => ?_ : PKeeps Q x → _) ?_ <;> [clear_value x; (dsimp -zeta only [x]; clear x)])
    | (extract_lets +onlyGivenNames x; clear_value x) | fail_if_no_progress with_reducible rw [keeps_mk] | split
    | dsimp -zeta only | with_reducible apply pkeeps_mk

theorem execMbxCmdGo_keeps {Q : List Instr} {slot : Fin 7} {v : BitVec 32} {s : State} (h : s.Keeps Q) :
    OKeeps Q (execMbxCmdGo slot v s) := by
  unfold execMbxCmdGo
  repeat' first
    | with_reducible apply okeeps_next | with_reducible exact okeeps_fault | with_reducible apply okeeps_ite
    | with_reducible assumption | with_reducible apply State.writeMbxCmd_keeps | with_reducible apply keeps_ite | split
    | dsimp -zeta only

theorem execThermalThrottle_keeps {Q : List Instr} {t : BitVec 8} {s : State} (h : s.Keeps Q) :
    OKeeps Q (execThermalThrottle t s) := by
  unfold execThermalThrottle
  repeat' first
    | with_reducible apply okeeps_next | with_reducible exact okeeps_fault | with_reducible apply okeeps_ite
    | with_reducible assumption | with_reducible apply State.put_keeps | with_reducible apply keeps_ite
    | with_reducible refine keeps_foldl (fun _ _ _ => ?_) ?_ | with_reducible refine nkeeps_foldl (fun _ _ _ => ?_) ?_
    | with_reducible refine npkeeps_foldl (fun _ _ _ => ?_) ?_
    | (extract_lets +onlyGivenNames x; (have : True := by clear_value x; clear * - x; exact is_state (by assumption)); clear this; refine (fun hx => ?_ : State.Keeps Q x → _) ?_ <;> [clear_value x; (dsimp -zeta only [x]; clear x)])
    | (extract_lets +onlyGivenNames x; clear_value x) | fail_if_no_progress with_reducible rw [keeps_mk] | split
    | dsimp -zeta only

theorem execAlertHoldoffEnd_keeps {Q : List Instr} {s : State} (h : s.Keeps Q) :
    OKeeps Q (execAlertHoldoffEnd s) := by
  unfold execAlertHoldoffEnd
  repeat' first
    | with_reducible apply okeeps_next | with_reducible exact okeeps_fault | with_reducible apply okeeps_ite
    | with_reducible assumption | with_reducible apply State.put_keeps | with_reducible apply keeps_ite
    | fail_if_no_progress with_reducible rw [keeps_mk] | split | dsimp -zeta only

theorem State.flashPut_keeps {Q : List Instr} {s : State} {a : Nat} {bs : List Nat} (h : s.Keeps Q) :
    (State.flashPut s a bs).Keeps Q := by
  unfold State.flashPut
  repeat' first
    | with_reducible assumption | with_reducible apply keeps_ite | fail_if_no_progress with_reducible rw [keeps_mk]
    | with_reducible apply Memory.wf_program | with_reducible apply Memory.wf_erase | with_reducible apply Memory.wf_store
    | with_reducible apply Memory.wf_programPart | with_reducible apply Memory.wf_erasePart
    | with_reducible exact State.Keeps.flash_wf (by assumption) | with_reducible refine State.Keeps.flash_wf (q := Q) ?_
    | fail_if_no_progress with_reducible refine keeps_mkf ?_ ?_ | split | dsimp -zeta only

theorem State.jnlTurn_keeps {Q : List Instr} {s : State} (h : s.Keeps Q) :
    (State.jnlTurn s).Keeps Q := by
  unfold State.jnlTurn
  repeat' first
    | with_reducible assumption | with_reducible apply State.flashPut_keeps | with_reducible apply keeps_ite
    | (extract_lets +onlyGivenNames x; (have : True := by clear_value x; clear * - x; exact is_state (by assumption)); clear this; refine (fun hx => ?_ : State.Keeps Q x → _) ?_ <;> [clear_value x; (dsimp -zeta only [x]; clear x)])
    | (extract_lets +onlyGivenNames x; clear_value x) | fail_if_no_progress with_reducible rw [keeps_mk]
    | with_reducible apply Memory.wf_program | with_reducible apply Memory.wf_erase | with_reducible apply Memory.wf_store
    | with_reducible apply Memory.wf_programPart | with_reducible apply Memory.wf_erasePart
    | with_reducible exact State.Keeps.flash_wf (by assumption) | with_reducible refine State.Keeps.flash_wf (q := Q) ?_
    | fail_if_no_progress with_reducible refine keeps_mkf ?_ ?_ | split | dsimp -zeta only

theorem State.jnlPut_keeps {Q : List Instr} {s : State} {r : Record} (h : s.Keeps Q) :
    (State.jnlPut s r).Keeps Q := by
  unfold State.jnlPut
  repeat' first
    | with_reducible assumption | with_reducible apply State.flashPut_keeps | with_reducible apply keeps_ite
    | (extract_lets +onlyGivenNames x; (have : True := by clear_value x; clear * - x; exact is_state (by assumption)); clear this; refine (fun hx => ?_ : State.Keeps Q x → _) ?_ <;> [clear_value x; (dsimp -zeta only [x]; clear x)])
    | (extract_lets +onlyGivenNames x; clear_value x) | fail_if_no_progress with_reducible rw [keeps_mk] | split
    | dsimp -zeta only

theorem State.jnlDefer_keeps {Q : List Instr} {s : State} (h : s.Keeps Q) :
    (State.jnlDefer s).Keeps Q := by
  unfold State.jnlDefer
  repeat' first
    | with_reducible assumption | with_reducible apply State.put_keeps | with_reducible apply State.raise_keeps
    | with_reducible apply keeps_ite | split | dsimp -zeta only

theorem State.jnlCommit_keeps {Q : List Instr} {s : State} {checked : Bool} (h : s.Keeps Q) :
    (State.jnlCommit s checked).Keeps Q := by
  unfold State.jnlCommit
  repeat' first
    | with_reducible assumption | with_reducible apply State.jnlDefer_keeps | with_reducible apply State.put_keeps
    | with_reducible apply State.jnlTurn_keeps | with_reducible apply State.jnlPut_keeps | with_reducible apply keeps_ite
    | (extract_lets +onlyGivenNames x; (have : True := by clear_value x; clear * - x; exact is_state (by assumption)); clear this; refine (fun hx => ?_ : State.Keeps Q x → _) ?_ <;> [clear_value x; (dsimp -zeta only [x]; clear x)])
    | (extract_lets +onlyGivenNames x; clear_value x) | fail_if_no_progress with_reducible rw [keeps_mk] | split
    | dsimp -zeta only

theorem execJournalWrite_keeps {Q : List Instr} {s : State} (h : s.Keeps Q) :
    OKeeps Q (execJournalWrite s) := by
  unfold execJournalWrite
  repeat' first
    | with_reducible apply okeeps_next | with_reducible exact okeeps_fault | with_reducible apply okeeps_ite
    | with_reducible assumption | with_reducible apply State.jnlCommit_keeps | with_reducible apply keeps_ite | split
    | dsimp -zeta only

theorem execJournalTokenRefill_keeps {Q : List Instr} {second : Bool} {s : State} (h : s.Keeps Q) :
    OKeeps Q (execJournalTokenRefill second s) := by
  unfold execJournalTokenRefill
  repeat' first
    | with_reducible apply okeeps_next | with_reducible exact okeeps_fault | with_reducible apply okeeps_ite
    | with_reducible assumption | with_reducible apply keeps_ite
    | (extract_lets +onlyGivenNames x; (have : True := by clear_value x; clear * - x; exact is_state (by assumption)); clear this; refine (fun hx => ?_ : State.Keeps Q x → _) ?_ <;> [clear_value x; (dsimp -zeta only [x]; clear x)])
    | (extract_lets +onlyGivenNames x; clear_value x) | fail_if_no_progress with_reducible rw [keeps_mk] | split
    | dsimp -zeta only

theorem State.writeForce_keeps {Q : List Instr} {s : State} {pg : Nat} {v : Nat} (h : s.Keeps Q) :
    (State.writeForce s pg v).Keeps Q := by
  unfold State.writeForce
  repeat' first
    | with_reducible assumption | with_reducible apply State.put_keeps | with_reducible apply State.raise_keeps
    | with_reducible apply keeps_ite
    | (extract_lets +onlyGivenNames x; (have : True := by clear_value x; clear * - x; exact is_state (by assumption)); clear this; refine (fun hx => ?_ : State.Keeps Q x → _) ?_ <;> [clear_value x; (dsimp -zeta only [x]; clear x)])
    | (extract_lets +onlyGivenNames x; clear_value x) | fail_if_no_progress with_reducible rw [keeps_mk] | split
    | dsimp -zeta only

theorem execEvtForce_keeps {Q : List Instr} {page : BitVec 8} {v : BitVec 32} {s : State} (h : s.Keeps Q) :
    OKeeps Q (execEvtForce page v s) := by
  unfold execEvtForce
  repeat' first
    | with_reducible apply okeeps_next | with_reducible exact okeeps_fault | with_reducible apply okeeps_ite
    | with_reducible assumption | with_reducible refine State.atPage_keeps (fun _ _ => ?_) ?_
    | with_reducible apply State.writeForce_keeps | with_reducible apply keeps_ite | split | dsimp -zeta only

theorem State.rearm_keeps {Q : List Instr} {s : State} {pg : Nat} (h : s.Keeps Q) :
    (State.rearm s pg).Keeps Q := by
  unfold State.rearm
  repeat' first
    | with_reducible assumption | with_reducible apply keeps_ite | fail_if_no_progress with_reducible rw [keeps_mk] | split
    | dsimp -zeta only

theorem execCapRearm_keeps {Q : List Instr} {page : BitVec 8} {s : State} (h : s.Keeps Q) :
    OKeeps Q (execCapRearm page s) := by
  unfold execCapRearm
  repeat' first
    | with_reducible apply okeeps_next | with_reducible exact okeeps_fault | with_reducible apply okeeps_ite
    | with_reducible assumption | with_reducible refine State.atPage_keeps (fun _ _ => ?_) ?_
    | with_reducible apply State.rearm_keeps | with_reducible apply keeps_ite | split | dsimp -zeta only

theorem State.clearMissed_keeps {Q : List Instr} {s : State} (h : s.Keeps Q) :
    (State.clearMissed s).Keeps Q := by
  unfold State.clearMissed
  repeat' first
    | with_reducible assumption | with_reducible apply keeps_ite
    | (extract_lets +onlyGivenNames x; (have : True := by clear_value x; clear * - x; exact is_state (by assumption)); clear this; refine (fun hx => ?_ : State.Keeps Q x → _) ?_ <;> [clear_value x; (dsimp -zeta only [x]; clear x)])
    | (extract_lets +onlyGivenNames x; clear_value x) | fail_if_no_progress with_reducible rw [keeps_mk] | split
    | dsimp -zeta only

theorem execEvtMissedClear_keeps {Q : List Instr} {s : State} (h : s.Keeps Q) :
    OKeeps Q (execEvtMissedClear s) := by
  unfold execEvtMissedClear
  repeat' first
    | with_reducible apply okeeps_next | with_reducible exact okeeps_fault | with_reducible apply okeeps_ite
    | with_reducible assumption | with_reducible apply State.clearMissed_keeps | with_reducible apply keeps_ite | split
    | dsimp -zeta only

theorem State.managerTail_keeps {Q : List Instr} {s : State} {new : Nat} (h : s.Keeps Q) :
    (State.managerTail s new).Keeps Q := by
  unfold State.managerTail
  repeat' first
    | with_reducible assumption | with_reducible apply keeps_ite | fail_if_no_progress with_reducible rw [keeps_mk] | split
    | dsimp -zeta only

theorem State.faultTail_keeps {Q : List Instr} {s : State} {t : Nat} {new : Nat} (h : s.Keeps Q) :
    (State.faultTail s t new).Keeps Q := by
  unfold State.faultTail
  repeat' first
    | with_reducible assumption | with_reducible apply State.setVi_keeps | with_reducible apply keeps_ite
    | (extract_lets +onlyGivenNames x; (have : True := by clear_value x; clear * - x; exact is_state (by assumption)); clear this; refine (fun hx => ?_ : State.Keeps Q x → _) ?_ <;> [clear_value x; (dsimp -zeta only [x]; clear x)])
    | (extract_lets +onlyGivenNames x; clear_value x) | fail_if_no_progress with_reducible rw [keeps_mk] | split
    | dsimp -zeta only

theorem State.sampleTail_keeps {Q : List Instr} {s : State} {n : Nat} {new : Nat} (h : s.Keeps Q) :
    (State.sampleTail s n new).Keeps Q := by
  unfold State.sampleTail
  repeat' first
    | with_reducible assumption | with_reducible apply State.put_keeps | with_reducible apply keeps_ite
    | (extract_lets +onlyGivenNames x; (have : True := by clear_value x; clear * - x; exact is_state (by assumption)); clear this; refine (fun hx => ?_ : State.Keeps Q x → _) ?_ <;> [clear_value x; (dsimp -zeta only [x]; clear x)])
    | (extract_lets +onlyGivenNames x; clear_value x) | fail_if_no_progress with_reducible rw [keeps_mk] | split
    | dsimp -zeta only

theorem execRingTailWrite_keeps {Q : List Instr} {ring : Ring} {tail : BitVec 13} {s : State} (h : s.Keeps Q) :
    OKeeps Q (execRingTailWrite ring tail s) := by
  unfold execRingTailWrite
  repeat' first
    | with_reducible apply okeeps_next | with_reducible exact okeeps_fault | with_reducible apply okeeps_ite
    | with_reducible assumption | with_reducible apply State.ring_keeps | with_reducible apply State.managerTail_keeps
    | with_reducible apply State.faultTail_keeps | with_reducible refine State.atPage_keeps (fun _ _ => ?_) ?_
    | with_reducible apply State.sampleTail_keeps | with_reducible apply keeps_ite
    | fail_if_no_progress with_reducible rw [keeps_mk] | split | dsimp -zeta only

end Sys2Proof.Machine
end

