-- ==== Sys2Proof/Laws/KeepsTel.lean ====
section
/-!
SUPPORT. The meanings and operations of Machine/Tel.lean keep a sound state and its queue.
-/
set_option linter.unusedTactic false
set_option linter.unusedSimpArgs false
set_option linter.unusedVariables false
set_option linter.unreachableTactic false

namespace Sys2Proof.Machine

theorem State.dumpLine_keeps {Q : List Instr} {s : State} {t : Nat} {via : Nat} {bs : List Nat} (h : s.Keeps Q) :
    DKeeps Q (State.dumpLine s t via bs) := by
  unfold State.dumpLine
  repeat' first
    | with_reducible assumption | with_reducible apply State.recall_keeps | with_reducible apply State.writePlain_keeps
    | with_reducible apply State.clearDir_keeps | with_reducible apply State.markDirty_keeps
    | (with_reducible apply keeps_fst; with_reducible apply State.recall_keeps)
    | (with_reducible apply keeps_fst; with_reducible apply State.writePlain_keeps) | with_reducible apply keeps_ite
    | with_reducible exact keeps_fst (by with_reducible assumption) | with_reducible apply pkeeps_ite
    | with_reducible exact pkeeps_eq (by assumption) (by assumption) | with_reducible refine pkeeps_eq (by assumption) ?_
    | with_reducible exact dkeeps_stop | with_reducible apply dkeeps_ok | with_reducible apply dkeeps_wait
    | with_reducible refine dkeeps_ok_eq (by assumption) ?_ | with_reducible refine dkeeps_wait_eq (by assumption) ?_
    | with_reducible exact keeps_of_p (by with_reducible assumption)
    | (extract_lets +onlyGivenNames x; (have : True := by clear_value x; clear * - x; exact is_state (by assumption)); clear this; refine (fun hx => ?_ : State.Keeps Q x → _) ?_ <;> [clear_value x; (dsimp -zeta only [x]; clear x)])
    | (extract_lets +onlyGivenNames x; (have : True := by clear_value x; clear * - x; exact is_pair (by assumption)); clear this; refine (fun hx => ?_ : PKeeps Q x → _) ?_ <;> [clear_value x; (dsimp -zeta only [x]; clear x)])
    | (extract_lets +onlyGivenNames x; clear_value x) | fail_if_no_progress with_reducible rw [keeps_mk] | split
    | dsimp -zeta only | with_reducible apply pkeeps_mk

theorem State.dumpLines_keeps {Q : List Instr} {l : List (List Nat)} :
    ∀ {s : State} {t via : Nat}, s.Keeps Q → DKeeps Q (State.dumpLines l s t via) := by
  induction l with
  | nil => intro s t via h; exact dkeeps_ok h
  | cons a l ih =>
    intro s t via h
    have h1 := State.dumpLine_keeps (t := t) (via := via) (bs := a) h
    unfold State.dumpLines
    split
    · rename_i e
      exact ih (dkeeps_ok_eq e h1)
    · exact h1

theorem State.dumpHeader_keeps {Q : List Instr} {s : State} {t : Nat} (h : s.Keeps Q) :
    DKeeps Q (State.dumpHeader s t) := by
  unfold State.dumpHeader
  repeat' first
    | with_reducible assumption | with_reducible apply State.dumpLines_keeps | with_reducible apply keeps_ite
    | with_reducible exact dkeeps_stop | with_reducible apply dkeeps_ok | with_reducible apply dkeeps_wait
    | with_reducible refine dkeeps_ok_eq (by assumption) ?_ | with_reducible refine dkeeps_wait_eq (by assumption) ?_
    | fail_if_no_progress with_reducible rw [keeps_mk] | split | dsimp -zeta only

theorem State.dumpRecord_keeps {Q : List Instr} {s : State} {t : Nat} (h : s.Keeps Q) :
    DKeeps Q (State.dumpRecord s t) := by
  unfold State.dumpRecord
  repeat' first
    | with_reducible assumption | with_reducible apply State.dumpLine_keeps | with_reducible apply State.dumpLines_keeps
    | with_reducible apply State.put_keeps | with_reducible apply keeps_ite | with_reducible exact dkeeps_stop
    | with_reducible apply dkeeps_ok | with_reducible apply dkeeps_wait
    | with_reducible refine dkeeps_ok_eq (by assumption) ?_ | with_reducible refine dkeeps_wait_eq (by assumption) ?_
    | (extract_lets +onlyGivenNames x; (have : True := by clear_value x; clear * - x; exact is_state (by assumption)); clear this; refine (fun hx => ?_ : State.Keeps Q x → _) ?_ <;> [clear_value x; (dsimp -zeta only [x]; clear x)])
    | (extract_lets +onlyGivenNames x; clear_value x) | fail_if_no_progress with_reducible rw [keeps_mk] | split
    | dsimp -zeta only

theorem State.dumpWork_keeps {Q : List Instr} {s : State} (h : s.Keeps Q) :
    (State.dumpWork s).Keeps Q := by
  unfold State.dumpWork
  repeat' first
    | with_reducible assumption | with_reducible apply State.lapStop_keeps | with_reducible apply State.dumpHeader_keeps
    | with_reducible apply State.dumpRecord_keeps | with_reducible apply keeps_ite | with_reducible exact dkeeps_stop
    | with_reducible apply dkeeps_ok | with_reducible apply dkeeps_wait
    | with_reducible refine dkeeps_ok_eq (by assumption) ?_ | with_reducible refine dkeeps_wait_eq (by assumption) ?_
    | fail_if_no_progress with_reducible rw [keeps_mk] | split | dsimp -zeta only

theorem State.writeLapCtl_keeps {Q : List Instr} {s : State} {v : Nat} (h : s.Keeps Q) :
    (State.writeLapCtl s v).Keeps Q := by
  unfold State.writeLapCtl
  repeat' first
    | with_reducible assumption | with_reducible apply State.put_keeps | with_reducible apply State.dumpWork_keeps
    | with_reducible apply keeps_ite
    | (extract_lets +onlyGivenNames x; (have : True := by clear_value x; clear * - x; exact is_state (by assumption)); clear this; refine (fun hx => ?_ : State.Keeps Q x → _) ?_ <;> [clear_value x; (dsimp -zeta only [x]; clear x)])
    | (extract_lets +onlyGivenNames x; clear_value x) | fail_if_no_progress with_reducible rw [keeps_mk] | split
    | dsimp -zeta only

theorem execLapDumpStart_keeps {Q : List Instr} {v : BitVec 32} {s : State} (h : s.Keeps Q) :
    OKeeps Q (execLapDumpStart v s) := by
  unfold execLapDumpStart
  repeat' first
    | with_reducible apply okeeps_next | with_reducible exact okeeps_fault | with_reducible apply okeeps_ite
    | with_reducible assumption | with_reducible apply State.writeLapCtl_keeps | with_reducible apply keeps_ite | split
    | dsimp -zeta only

theorem execLapDumpStop_keeps {Q : List Instr} {s : State} (h : s.Keeps Q) :
    OKeeps Q (execLapDumpStop s) := by
  unfold execLapDumpStop
  repeat' first
    | with_reducible apply okeeps_next | with_reducible exact okeeps_fault | with_reducible apply okeeps_ite
    | with_reducible assumption | with_reducible apply State.writeLapCtl_keeps | with_reducible apply keeps_ite | split
    | dsimp -zeta only

theorem execLapSnapshot_keeps {Q : List Instr} {s : State} (h : s.Keeps Q) :
    OKeeps Q (execLapSnapshot s) := by
  unfold execLapSnapshot
  repeat' first
    | with_reducible apply okeeps_next | with_reducible exact okeeps_fault | with_reducible apply okeeps_ite
    | with_reducible assumption | with_reducible apply State.lapStop_keeps | with_reducible apply State.leaveIdle_keeps
    | with_reducible apply State.put_keeps | with_reducible apply State.raise_keeps | with_reducible apply keeps_ite
    | (extract_lets +onlyGivenNames x; (have : True := by clear_value x; clear * - x; exact is_state (by assumption)); clear this; refine (fun hx => ?_ : State.Keeps Q x → _) ?_ <;> [clear_value x; (dsimp -zeta only [x]; clear x)])
    | (extract_lets +onlyGivenNames x; clear_value x) | fail_if_no_progress with_reducible rw [keeps_mk] | split
    | dsimp -zeta only

theorem execLapRecordDone_keeps {Q : List Instr} {s : State} (h : s.Keeps Q) :
    OKeeps Q (execLapRecordDone s) := by
  unfold execLapRecordDone
  repeat' first
    | with_reducible apply okeeps_next | with_reducible exact okeeps_fault | with_reducible apply okeeps_ite
    | with_reducible assumption | with_reducible apply State.dumpWork_keeps | with_reducible apply keeps_ite | split
    | dsimp -zeta only

theorem State.reconfigured_keeps {Q : List Instr} {s : State} (h : s.Keeps Q) :
    (State.reconfigured s).Keeps Q := by
  unfold State.reconfigured
  repeat' first
    | with_reducible assumption | with_reducible apply keeps_ite | fail_if_no_progress with_reducible rw [keeps_mk] | split
    | dsimp -zeta only

theorem execTelFreeze_keeps {Q : List Instr} {on : Bool} {s : State} (h : s.Keeps Q) :
    OKeeps Q (execTelFreeze on s) := by
  unfold execTelFreeze
  repeat' first
    | with_reducible apply okeeps_next | with_reducible exact okeeps_fault | with_reducible apply okeeps_ite
    | with_reducible assumption | with_reducible apply State.put_keeps | with_reducible apply keeps_ite | split
    | dsimp -zeta only

theorem State.telClear_keeps {Q : List Instr} {s : State} (h : s.Keeps Q) :
    (State.telClear s).Keeps Q := by
  unfold State.telClear
  repeat' first
    | with_reducible assumption | with_reducible apply State.reconfigured_keeps | with_reducible apply keeps_ite
    | fail_if_no_progress with_reducible rw [keeps_mk] | split | dsimp -zeta only

theorem execTelClear_keeps {Q : List Instr} {s : State} (h : s.Keeps Q) :
    OKeeps Q (execTelClear s) := by
  unfold execTelClear
  repeat' first
    | with_reducible apply okeeps_next | with_reducible exact okeeps_fault | with_reducible apply okeeps_ite
    | with_reducible assumption | with_reducible apply State.telClear_keeps | with_reducible apply keeps_ite | split
    | dsimp -zeta only

theorem State.writeTelCnt_keeps {Q : List Instr} {s : State} {i : Nat} {v : Nat} (h : s.Keeps Q) :
    (State.writeTelCnt s i v).Keeps Q := by
  unfold State.writeTelCnt
  repeat' first
    | with_reducible assumption | with_reducible apply State.put_keeps | with_reducible apply State.reconfigured_keeps
    | with_reducible apply keeps_ite | fail_if_no_progress with_reducible rw [keeps_mk] | split | dsimp -zeta only

theorem execTelCntWrite_keeps {Q : List Instr} {i : Fin 1024} {v : BitVec 64} {s : State} (h : s.Keeps Q) :
    OKeeps Q (execTelCntWrite i v s) := by
  unfold execTelCntWrite
  repeat' first
    | with_reducible apply okeeps_next | with_reducible exact okeeps_fault | with_reducible apply okeeps_ite
    | with_reducible assumption | with_reducible refine State.atPage_keeps (fun _ _ => ?_) ?_
    | with_reducible apply State.writeTelCnt_keeps | with_reducible apply keeps_ite | split | dsimp -zeta only

theorem State.writeTelSel_keeps {Q : List Instr} {s : State} {i : Nat} {v : Nat} (h : s.Keeps Q) :
    (State.writeTelSel s i v).Keeps Q := by
  unfold State.writeTelSel
  repeat' first
    | with_reducible assumption | with_reducible apply State.put_keeps | with_reducible apply State.reconfigured_keeps
    | with_reducible apply keeps_ite
    | (extract_lets +onlyGivenNames x; (have : True := by clear_value x; clear * - x; exact is_state (by assumption)); clear this; refine (fun hx => ?_ : State.Keeps Q x → _) ?_ <;> [clear_value x; (dsimp -zeta only [x]; clear x)])
    | (extract_lets +onlyGivenNames x; clear_value x) | fail_if_no_progress with_reducible rw [keeps_mk] | split
    | dsimp -zeta only

theorem execTelSelWrite_keeps {Q : List Instr} {i : Fin 1024} {v : BitVec 64} {s : State} (h : s.Keeps Q) :
    OKeeps Q (execTelSelWrite i v s) := by
  unfold execTelSelWrite
  repeat' first
    | with_reducible apply okeeps_next | with_reducible exact okeeps_fault | with_reducible apply okeeps_ite
    | with_reducible assumption | with_reducible refine State.atPage_keeps (fun _ _ => ?_) ?_
    | with_reducible apply State.writeTelSel_keeps | with_reducible apply keeps_ite | split | dsimp -zeta only

end Sys2Proof.Machine
end

