-- ==== Sys2Proof/Laws/KeepsClock.lean ====
section
/-!
SUPPORT. The meanings and operations of Machine/Clock.lean keep a sound state and its queue.
-/
set_option linter.unusedTactic false
set_option linter.unusedSimpArgs false
set_option linter.unusedVariables false
set_option linter.unreachableTactic false

namespace Sys2Proof.Machine

theorem State.putArmed_keeps {Q : List Instr} {s : State} {on : Bool} (h : s.Keeps Q) :
    (State.putArmed s on).Keeps Q := by
  unfold State.putArmed
  repeat' first
    | with_reducible assumption | with_reducible apply State.put_keeps | with_reducible apply keeps_ite | split
    | dsimp -zeta only

theorem State.autoArm_keeps {Q : List Instr} {s : State} (h : s.Keeps Q) :
    (State.autoArm s).Keeps Q := by
  unfold State.autoArm
  repeat' first
    | with_reducible assumption | with_reducible apply State.put_keeps | with_reducible apply State.putArmed_keeps
    | with_reducible apply keeps_ite | fail_if_no_progress with_reducible rw [keeps_mk] | split | dsimp -zeta only

theorem State.backupLost_keeps {Q : List Instr} {s : State} (h : s.Keeps Q) :
    (State.backupLost s).Keeps Q := by
  unfold State.backupLost
  repeat' first
    | with_reducible assumption | with_reducible apply State.putArmed_keeps | with_reducible apply State.raise_keeps
    | with_reducible apply State.autoArm_keeps | with_reducible apply keeps_ite | split | dsimp -zeta only

theorem State.unready_keeps {Q : List Instr} {s : State} {k : Nat} (h : s.Keeps Q) :
    (State.unready s k).Keeps Q := by
  unfold State.unready
  repeat' first
    | with_reducible assumption | with_reducible apply State.put_keeps | with_reducible apply State.backupLost_keeps
    | with_reducible apply keeps_ite
    | (extract_lets +onlyGivenNames x; (have : True := by clear_value x; clear * - x; exact is_state (by assumption)); clear this; refine (fun hx => ?_ : State.Keeps Q x → _) ?_ <;> [clear_value x; (dsimp -zeta only [x]; clear x)])
    | (extract_lets +onlyGivenNames x; clear_value x) | split | dsimp -zeta only

theorem State.setRoot_keeps {Q : List Instr} {s : State} {k : Nat} (h : s.Keeps Q) :
    (State.setRoot s k).Keeps Q := by
  unfold State.setRoot
  repeat' first
    | with_reducible assumption | with_reducible apply State.put_keeps | with_reducible apply keeps_ite | split
    | dsimp -zeta only

theorem State.locked2_keeps {Q : List Instr} {s : State} (h : s.Keeps Q) :
    (State.locked2 s).Keeps Q := by
  unfold State.locked2
  repeat' first
    | with_reducible assumption | with_reducible apply State.put_keeps | with_reducible apply keeps_ite
    | (extract_lets +onlyGivenNames x; (have : True := by clear_value x; clear * - x; exact is_state (by assumption)); clear this; refine (fun hx => ?_ : State.Keeps Q x → _) ?_ <;> [clear_value x; (dsimp -zeta only [x]; clear x)])
    | (extract_lets +onlyGivenNames x; clear_value x) | fail_if_no_progress with_reducible rw [keeps_mk] | split
    | dsimp -zeta only

theorem State.failover_keeps {Q : List Instr} {s : State} {k : Nat} (h : s.Keeps Q) :
    (State.failover s k).Keeps Q := by
  unfold State.failover
  repeat' first
    | with_reducible assumption | with_reducible apply State.setRoot_keeps | with_reducible apply State.locked2_keeps
    | with_reducible apply State.putArmed_keeps | with_reducible apply State.put_keeps
    | with_reducible apply State.autoArm_keeps | with_reducible apply State.raise_keeps | with_reducible apply keeps_ite
    | (extract_lets +onlyGivenNames x; (have : True := by clear_value x; clear * - x; exact is_state (by assumption)); clear this; refine (fun hx => ?_ : State.Keeps Q x → _) ?_ <;> [clear_value x; (dsimp -zeta only [x]; clear x)])
    | (extract_lets +onlyGivenNames x; clear_value x) | split | dsimp -zeta only

theorem State.rootLost_keeps {Q : List Instr} {s : State} (h : s.Keeps Q) :
    (State.rootLost s).Keeps Q := by
  unfold State.rootLost
  repeat' first
    | with_reducible assumption | with_reducible apply State.put_keeps | with_reducible apply State.raise_keeps
    | with_reducible apply keeps_ite
    | (extract_lets +onlyGivenNames x; (have : True := by clear_value x; clear * - x; exact is_state (by assumption)); clear this; refine (fun hx => ?_ : State.Keeps Q x → _) ?_ <;> [clear_value x; (dsimp -zeta only [x]; clear x)])
    | (extract_lets +onlyGivenNames x; (have : True := by clear_value x; clear * - x; exact is_pwr (by assumption)); clear this; dsimp -zeta only [x]; clear x)
    | (extract_lets +onlyGivenNames x; clear_value x) | fail_if_no_progress with_reducible rw [keeps_mk]
    | fail_if_no_progress with_reducible rw [keeps_mkp] | exact State.Keeps.state_le (by with_reducible assumption)
    | exact State.Keeps.trans_le (by with_reducible assumption) | decide
    | with_reducible refine State.Keeps.state_le (q := Q) ?_ | with_reducible refine State.Keeps.trans_le (q := Q) ?_
    | (with_reducible show (_ : Nat) ≤ _; dsimp only) | fail_if_no_progress with_reducible refine keeps_mkpw ?_ ?_ ?_
    | split | dsimp -zeta only

theorem State.candAbsent_keeps {Q : List Instr} {s : State} {k : Nat} (h : s.Keeps Q) :
    (State.candAbsent s k).Keeps Q := by
  unfold State.candAbsent
  repeat' first
    | with_reducible assumption | with_reducible apply State.unready_keeps | with_reducible apply State.rootLost_keeps
    | with_reducible apply keeps_ite | with_reducible refine keeps_foldl (fun _ _ _ => ?_) ?_
    | with_reducible refine nkeeps_foldl (fun _ _ _ => ?_) ?_ | with_reducible refine npkeeps_foldl (fun _ _ _ => ?_) ?_
    | (extract_lets +onlyGivenNames x; (have : True := by clear_value x; clear * - x; exact is_state (by assumption)); clear this; refine (fun hx => ?_ : State.Keeps Q x → _) ?_ <;> [clear_value x; (dsimp -zeta only [x]; clear x)])
    | (extract_lets +onlyGivenNames x; clear_value x) | fail_if_no_progress with_reducible rw [keeps_mk] | split
    | dsimp -zeta only

theorem execRefclkAbsent_keeps {Q : List Instr} {p : Fin 8} {s : State} (h : s.Keeps Q) :
    OKeeps Q (execRefclkAbsent p s) := by
  unfold execRefclkAbsent
  repeat' first
    | with_reducible apply okeeps_next | with_reducible exact okeeps_fault | with_reducible apply okeeps_ite
    | with_reducible assumption | with_reducible apply State.candAbsent_keeps | with_reducible apply keeps_ite | split
    | dsimp -zeta only

theorem execRefclkPresent_keeps {Q : List Instr} {p : Fin 8} {s : State} (h : s.Keeps Q) :
    OKeeps Q (execRefclkPresent p s) := by
  unfold execRefclkPresent
  repeat' first
    | with_reducible apply okeeps_next | with_reducible exact okeeps_fault | with_reducible apply okeeps_ite
    | with_reducible assumption | with_reducible apply keeps_ite | fail_if_no_progress with_reducible rw [keeps_mk] | split
    | dsimp -zeta only

theorem execCandidateWindow_keeps {Q : List Instr} {p : Fin 8} {count : BitVec 20} {s : State} (h : s.Keeps Q) :
    OKeeps Q (execCandidateWindow p count s) := by
  unfold execCandidateWindow
  repeat' first
    | with_reducible apply okeeps_next | with_reducible exact okeeps_fault | with_reducible apply okeeps_ite
    | with_reducible assumption | with_reducible apply State.put_keeps | with_reducible apply State.unready_keeps
    | with_reducible apply keeps_ite
    | (extract_lets +onlyGivenNames x; (have : True := by clear_value x; clear * - x; exact is_state (by assumption)); clear this; refine (fun hx => ?_ : State.Keeps Q x → _) ?_ <;> [clear_value x; (dsimp -zeta only [x]; clear x)])
    | (extract_lets +onlyGivenNames x; clear_value x) | fail_if_no_progress with_reducible rw [keeps_mk] | split
    | dsimp -zeta only

theorem State.writeRootSel_keeps {Q : List Instr} {s : State} {k : Nat} (h : s.Keeps Q) :
    (State.writeRootSel s k).Keeps Q := by
  unfold State.writeRootSel
  repeat' first
    | with_reducible assumption | with_reducible apply State.put_keeps | with_reducible apply State.putArmed_keeps
    | with_reducible apply State.setRoot_keeps | with_reducible apply State.raise_keeps | with_reducible apply keeps_ite
    | (extract_lets +onlyGivenNames x; (have : True := by clear_value x; clear * - x; exact is_state (by assumption)); clear this; refine (fun hx => ?_ : State.Keeps Q x → _) ?_ <;> [clear_value x; (dsimp -zeta only [x]; clear x)])
    | (extract_lets +onlyGivenNames x; clear_value x) | split | dsimp -zeta only

theorem execRootSel_keeps {Q : List Instr} {p : Fin 8} {s : State} (h : s.Keeps Q) :
    OKeeps Q (execRootSel p s) := by
  unfold execRootSel
  repeat' first
    | with_reducible apply okeeps_next | with_reducible exact okeeps_fault | with_reducible apply okeeps_ite
    | with_reducible assumption | with_reducible apply State.writeRootSel_keeps | with_reducible apply keeps_ite | split
    | dsimp -zeta only

theorem State.writeArm_keeps {Q : List Instr} {s : State} {k : Nat} {arm : Bool} (h : s.Keeps Q) :
    (State.writeArm s k arm).Keeps Q := by
  unfold State.writeArm
  repeat' first
    | with_reducible assumption | with_reducible apply State.put_keeps | with_reducible apply State.putArmed_keeps
    | with_reducible apply keeps_ite
    | (extract_lets +onlyGivenNames x; (have : True := by clear_value x; clear * - x; exact is_state (by assumption)); clear this; refine (fun hx => ?_ : State.Keeps Q x → _) ?_ <;> [clear_value x; (dsimp -zeta only [x]; clear x)])
    | (extract_lets +onlyGivenNames x; clear_value x) | split | dsimp -zeta only

theorem execArm_keeps {Q : List Instr} {p : Fin 8} {s : State} (h : s.Keeps Q) :
    OKeeps Q (execArm p s) := by
  unfold execArm
  repeat' first
    | with_reducible apply okeeps_next | with_reducible exact okeeps_fault | with_reducible apply okeeps_ite
    | with_reducible assumption | with_reducible apply State.writeArm_keeps | with_reducible apply keeps_ite | split
    | dsimp -zeta only

theorem execRelockDone_keeps {Q : List Instr} {s : State} (h : s.Keeps Q) :
    OKeeps Q (execRelockDone s) := by
  unfold execRelockDone
  repeat' first
    | with_reducible apply okeeps_next | with_reducible exact okeeps_fault | with_reducible apply okeeps_ite
    | with_reducible assumption | with_reducible apply State.failover_keeps | with_reducible apply keeps_ite | split
    | dsimp -zeta only

theorem execRootReturn_keeps {Q : List Instr} {inRange : Bool} {s : State} (h : s.Keeps Q) :
    OKeeps Q (execRootReturn inRange s) := by
  unfold execRootReturn
  repeat' first
    | with_reducible apply okeeps_next | with_reducible exact okeeps_fault | with_reducible apply okeeps_ite
    | with_reducible assumption | with_reducible apply State.locked2_keeps | with_reducible apply State.raise_keeps
    | with_reducible apply keeps_ite | fail_if_no_progress with_reducible rw [keeps_mk] | split | dsimp -zeta only

theorem State.startPrep_keeps {Q : List Instr} {s : State} {target : Nat} (h : s.Keeps Q) :
    (State.startPrep s target).Keeps Q := by
  unfold State.startPrep
  repeat' first
    | with_reducible assumption | with_reducible apply State.put_keeps | with_reducible apply State.dirFlush_keeps
    | with_reducible apply keeps_ite
    | (extract_lets +onlyGivenNames x; (have : True := by clear_value x; clear * - x; exact is_state (by assumption)); clear this; refine (fun hx => ?_ : State.Keeps Q x → _) ?_ <;> [clear_value x; (dsimp -zeta only [x]; clear x)])
    | (extract_lets +onlyGivenNames x; (have : True := by clear_value x; clear * - x; exact is_pwr (by assumption)); clear this; dsimp -zeta only [x]; clear x)
    | (extract_lets +onlyGivenNames x; clear_value x) | fail_if_no_progress with_reducible rw [keeps_mk]
    | fail_if_no_progress with_reducible rw [keeps_mkp] | exact State.Keeps.state_le (by with_reducible assumption)
    | exact State.Keeps.trans_le (by with_reducible assumption) | decide
    | with_reducible refine State.Keeps.state_le (q := Q) ?_ | with_reducible refine State.Keeps.trans_le (q := Q) ?_
    | (with_reducible show (_ : Nat) ≤ _; dsimp only) | fail_if_no_progress with_reducible refine keeps_mkpw ?_ ?_ ?_
    | split | dsimp -zeta only

theorem execHoldoverEnd_keeps {Q : List Instr} {s : State} (h : s.Keeps Q) :
    OKeeps Q (execHoldoverEnd s) := by
  unfold execHoldoverEnd
  repeat' first
    | with_reducible apply okeeps_next | with_reducible exact okeeps_fault | with_reducible apply okeeps_ite
    | with_reducible assumption | with_reducible apply State.failover_keeps | with_reducible apply State.wakeBy_keeps
    | with_reducible apply State.put_keeps | with_reducible apply State.startPrep_keeps | with_reducible apply keeps_ite
    | (extract_lets +onlyGivenNames x; (have : True := by clear_value x; clear * - x; exact is_state (by assumption)); clear this; refine (fun hx => ?_ : State.Keeps Q x → _) ?_ <;> [clear_value x; (dsimp -zeta only [x]; clear x)])
    | (extract_lets +onlyGivenNames x; (have : True := by clear_value x; clear * - x; exact is_pwr (by assumption)); clear this; dsimp -zeta only [x]; clear x)
    | (extract_lets +onlyGivenNames x; clear_value x) | fail_if_no_progress with_reducible rw [keeps_mk]
    | fail_if_no_progress with_reducible rw [keeps_mkp] | exact State.Keeps.state_le (by with_reducible assumption)
    | exact State.Keeps.trans_le (by with_reducible assumption) | decide
    | with_reducible refine State.Keeps.state_le (q := Q) ?_ | with_reducible refine State.Keeps.trans_le (q := Q) ?_
    | (with_reducible show (_ : Nat) ≤ _; dsimp only) | fail_if_no_progress with_reducible refine keeps_mkpw ?_ ?_ ?_
    | split | dsimp -zeta only

theorem State.gateRefuse_keeps {Q : List Instr} {s : State} {cause : Nat} (h : s.Keeps Q) :
    (State.gateRefuse s cause).Keeps Q := by
  unfold State.gateRefuse
  repeat' first
    | with_reducible assumption | with_reducible apply State.put_keeps | with_reducible apply keeps_ite | split
    | dsimp -zeta only

theorem State.shutNode_keeps {Q : List Instr} {s : State} {n : Nat} (h : s.Keeps Q) :
    (State.shutNode s n).Keeps Q := by
  unfold State.shutNode
  repeat' first
    | with_reducible assumption | with_reducible apply keeps_ite | fail_if_no_progress with_reducible rw [keeps_mk] | split
    | dsimp -zeta only

theorem State.writeClose_keeps {Q : List Instr} {s : State} (h : s.Keeps Q) :
    (State.writeClose s).Keeps Q := by
  unfold State.writeClose
  repeat' first
    | with_reducible assumption | with_reducible apply State.gateRefuse_keeps | with_reducible apply State.shutNode_keeps
    | with_reducible apply keeps_ite
    | (extract_lets +onlyGivenNames x; (have : True := by clear_value x; clear * - x; exact is_state (by assumption)); clear this; refine (fun hx => ?_ : State.Keeps Q x → _) ?_ <;> [clear_value x; (dsimp -zeta only [x]; clear x)])
    | (extract_lets +onlyGivenNames x; clear_value x) | fail_if_no_progress with_reducible rw [keeps_mk] | split
    | dsimp -zeta only

theorem execGateClose_keeps {Q : List Instr} {s : State} (h : s.Keeps Q) :
    OKeeps Q (execGateClose s) := by
  unfold execGateClose
  repeat' first
    | with_reducible apply okeeps_next | with_reducible exact okeeps_fault | with_reducible apply okeeps_ite
    | with_reducible assumption | with_reducible apply State.writeClose_keeps | with_reducible apply keeps_ite | split
    | dsimp -zeta only

theorem State.writeOpen_keeps {Q : List Instr} {s : State} (h : s.Keeps Q) :
    (State.writeOpen s).Keeps Q := by
  unfold State.writeOpen
  repeat' first
    | with_reducible assumption | with_reducible apply State.gateRefuse_keeps | with_reducible apply State.settle_keeps
    | with_reducible apply keeps_ite
    | (extract_lets +onlyGivenNames x; (have : True := by clear_value x; clear * - x; exact is_state (by assumption)); clear this; refine (fun hx => ?_ : State.Keeps Q x → _) ?_ <;> [clear_value x; (dsimp -zeta only [x]; clear x)])
    | (extract_lets +onlyGivenNames x; clear_value x) | fail_if_no_progress with_reducible rw [keeps_mk] | split
    | dsimp -zeta only

theorem execGateOpen_keeps {Q : List Instr} {s : State} (h : s.Keeps Q) :
    OKeeps Q (execGateOpen s) := by
  unfold execGateOpen
  repeat' first
    | with_reducible apply okeeps_next | with_reducible exact okeeps_fault | with_reducible apply okeeps_ite
    | with_reducible assumption | with_reducible apply State.writeOpen_keeps | with_reducible apply keeps_ite | split
    | dsimp -zeta only

theorem execGatePendingDone_keeps {Q : List Instr} {s : State} (h : s.Keeps Q) :
    OKeeps Q (execGatePendingDone s) := by
  unfold execGatePendingDone
  repeat' first
    | with_reducible apply okeeps_next | with_reducible exact okeeps_fault | with_reducible apply okeeps_ite
    | with_reducible assumption | with_reducible apply State.shutNode_keeps | with_reducible apply keeps_ite
    | fail_if_no_progress with_reducible rw [keeps_mk] | split | dsimp -zeta only

theorem execGateBusy_keeps {Q : List Instr} {s : State} (h : s.Keeps Q) :
    OKeeps Q (execGateBusy s) := by
  unfold execGateBusy
  repeat' first
    | with_reducible apply okeeps_next | with_reducible exact okeeps_fault | with_reducible apply okeeps_ite
    | with_reducible assumption | with_reducible apply State.gateRefuse_keeps | with_reducible apply State.raise_keeps
    | with_reducible apply keeps_ite
    | (extract_lets +onlyGivenNames x; (have : True := by clear_value x; clear * - x; exact is_state (by assumption)); clear this; refine (fun hx => ?_ : State.Keeps Q x → _) ?_ <;> [clear_value x; (dsimp -zeta only [x]; clear x)])
    | (extract_lets +onlyGivenNames x; clear_value x) | fail_if_no_progress with_reducible rw [keeps_mk] | split
    | dsimp -zeta only

end Sys2Proof.Machine
end

