-- ==== Sys2Proof/Laws/KeepsPower.lean ====
section
/-!
SUPPORT. The meanings and operations of Machine/Power.lean keep a sound state and its queue.
-/
set_option linter.unusedTactic false
set_option linter.unusedSimpArgs false
set_option linter.unusedVariables false
set_option linter.unreachableTactic false

namespace Sys2Proof.Machine

theorem State.pwrReq_keeps {Q : List Instr} {s : State} {target : Nat} (h : s.Keeps Q) :
    (State.pwrReq s target).Keeps Q := by
  unfold State.pwrReq
  repeat' first
    | with_reducible assumption | with_reducible apply State.put_keeps | with_reducible apply State.raise_keeps
    | with_reducible apply State.leaveIdle_keeps | with_reducible apply State.startPrep_keeps
    | with_reducible apply keeps_ite | fail_if_no_progress with_reducible rw [keeps_mk]
    | fail_if_no_progress with_reducible rw [keeps_mkp] | split | dsimp -zeta only

theorem execSleepRequest_keeps {Q : List Instr} {s : State} (h : s.Keeps Q) :
    OKeeps Q (execSleepRequest s) := by
  unfold execSleepRequest
  repeat' first
    | with_reducible apply okeeps_next | with_reducible exact okeeps_fault | with_reducible apply okeeps_ite
    | with_reducible assumption | with_reducible apply State.pwrReq_keeps | with_reducible apply keeps_ite | split
    | dsimp -zeta only

theorem execDeepSleepRequest_keeps {Q : List Instr} {s : State} (h : s.Keeps Q) :
    OKeeps Q (execDeepSleepRequest s) := by
  unfold execDeepSleepRequest
  repeat' first
    | with_reducible apply okeeps_next | with_reducible exact okeeps_fault | with_reducible apply okeeps_ite
    | with_reducible assumption | with_reducible apply State.pwrReq_keeps | with_reducible apply keeps_ite | split
    | dsimp -zeta only

theorem execOffRequest_keeps {Q : List Instr} {s : State} (h : s.Keeps Q) :
    OKeeps Q (execOffRequest s) := by
  unfold execOffRequest
  repeat' first
    | with_reducible apply okeeps_next | with_reducible exact okeeps_fault | with_reducible apply okeeps_ite
    | with_reducible assumption | with_reducible apply State.pwrReq_keeps | with_reducible apply keeps_ite | split
    | dsimp -zeta only

theorem execPrepDone_keeps {Q : List Instr} {s : State} (h : s.Keeps Q) :
    OKeeps Q (execPrepDone s) := by
  unfold execPrepDone
  repeat' first
    | with_reducible apply okeeps_next | with_reducible exact okeeps_fault | with_reducible apply okeeps_ite
    | with_reducible assumption | with_reducible apply State.put_keeps | with_reducible apply keeps_ite
    | (extract_lets +onlyGivenNames x; (have : True := by clear_value x; clear * - x; exact is_state (by assumption)); clear this; refine (fun hx => ?_ : State.Keeps Q x → _) ?_ <;> [clear_value x; (dsimp -zeta only [x]; clear x)])
    | (extract_lets +onlyGivenNames x; (have : True := by clear_value x; clear * - x; exact is_pwr (by assumption)); clear this; dsimp -zeta only [x]; clear x)
    | (extract_lets +onlyGivenNames x; clear_value x) | fail_if_no_progress with_reducible rw [keeps_mk]
    | fail_if_no_progress with_reducible rw [keeps_mkp] | exact State.Keeps.state_le (by with_reducible assumption)
    | exact State.Keeps.trans_le (by with_reducible assumption) | decide
    | with_reducible refine State.Keeps.state_le (q := Q) ?_ | with_reducible refine State.Keeps.trans_le (q := Q) ?_
    | (with_reducible show (_ : Nat) ≤ _; dsimp only) | fail_if_no_progress with_reducible refine keeps_mkpw ?_ ?_ ?_
    | split | dsimp -zeta only

theorem State.deferSave_keeps {Q : List Instr} {s : State} (h : s.Keeps Q) :
    (State.deferSave s).Keeps Q := by
  unfold State.deferSave
  repeat' first
    | with_reducible assumption | with_reducible apply State.put_keeps | with_reducible apply State.raise_keeps
    | with_reducible apply keeps_ite
    | (extract_lets +onlyGivenNames x; (have : True := by clear_value x; clear * - x; exact is_state (by assumption)); clear this; refine (fun hx => ?_ : State.Keeps Q x → _) ?_ <;> [clear_value x; (dsimp -zeta only [x]; clear x)])
    | (extract_lets +onlyGivenNames x; (have : True := by clear_value x; clear * - x; exact is_pwr (by assumption)); clear this; dsimp -zeta only [x]; clear x)
    | (extract_lets +onlyGivenNames x; clear_value x) | fail_if_no_progress with_reducible rw [keeps_mk]
    | fail_if_no_progress with_reducible rw [keeps_mkp] | exact State.Keeps.state_le (by with_reducible assumption)
    | exact State.Keeps.trans_le (by with_reducible assumption) | decide
    | with_reducible refine State.Keeps.state_le (q := Q) ?_ | with_reducible refine State.Keeps.trans_le (q := Q) ?_
    | (with_reducible show (_ : Nat) ≤ _; dsimp only) | fail_if_no_progress with_reducible refine keeps_mkpw ?_ ?_ ?_
    | split | dsimp -zeta only

theorem execVholdSample_keeps {Q : List Instr} {mv : BitVec 10} {s : State} (h : s.Keeps Q) :
    OKeeps Q (execVholdSample mv s) := by
  unfold execVholdSample
  repeat' first
    | with_reducible apply okeeps_next | with_reducible exact okeeps_fault | with_reducible apply okeeps_ite
    | with_reducible assumption | with_reducible apply State.put_keeps | with_reducible apply State.jnlDefer_keeps
    | with_reducible apply State.deferSave_keeps | with_reducible apply keeps_ite
    | (extract_lets +onlyGivenNames x; (have : True := by clear_value x; clear * - x; exact is_state (by assumption)); clear this; refine (fun hx => ?_ : State.Keeps Q x → _) ?_ <;> [clear_value x; (dsimp -zeta only [x]; clear x)])
    | (extract_lets +onlyGivenNames x; (have : True := by clear_value x; clear * - x; exact is_pwr (by assumption)); clear this; dsimp -zeta only [x]; clear x)
    | (extract_lets +onlyGivenNames x; clear_value x) | fail_if_no_progress with_reducible rw [keeps_mk]
    | fail_if_no_progress with_reducible rw [keeps_mkp] | exact State.Keeps.state_le (by with_reducible assumption)
    | exact State.Keeps.trans_le (by with_reducible assumption) | decide
    | with_reducible refine State.Keeps.state_le (q := Q) ?_ | with_reducible refine State.Keeps.trans_le (q := Q) ?_
    | (with_reducible show (_ : Nat) ≤ _; dsimp only) | fail_if_no_progress with_reducible refine keeps_mkpw ?_ ?_ ?_
    | split | dsimp -zeta only

theorem State.flushJournal_keeps {Q : List Instr} {n : Nat} : ∀ {s : State}, s.Keeps Q → (State.flushJournal n s).Keeps Q := by
  induction n with
  | zero => intro s h; exact h
  | succ n ih => intro s h; exact ih (State.jnlCommit_keeps h)

theorem State.offSave_keeps {Q : List Instr} {s : State} (h : s.Keeps Q) :
    (State.offSave s).Keeps Q := by
  unfold State.offSave
  repeat' first
    | with_reducible assumption | with_reducible apply State.flushJournal_keeps | with_reducible apply State.flashPut_keeps
    | with_reducible apply State.put_keeps | with_reducible apply keeps_ite
    | (extract_lets +onlyGivenNames x; (have : True := by clear_value x; clear * - x; exact is_state (by assumption)); clear this; refine (fun hx => ?_ : State.Keeps Q x → _) ?_ <;> [clear_value x; (dsimp -zeta only [x]; clear x)])
    | (extract_lets +onlyGivenNames x; (have : True := by clear_value x; clear * - x; exact is_pwr (by assumption)); clear this; dsimp -zeta only [x]; clear x)
    | (extract_lets +onlyGivenNames x; clear_value x) | fail_if_no_progress with_reducible rw [keeps_mk]
    | fail_if_no_progress with_reducible rw [keeps_mkp] | with_reducible apply Memory.wf_program
    | with_reducible apply Memory.wf_erase | with_reducible apply Memory.wf_store
    | with_reducible apply Memory.wf_programPart | with_reducible apply Memory.wf_erasePart
    | with_reducible exact State.Keeps.flash_wf (by assumption) | with_reducible refine State.Keeps.flash_wf (q := Q) ?_
    | fail_if_no_progress with_reducible refine keeps_mkf ?_ ?_ | exact State.Keeps.state_le (by with_reducible assumption)
    | exact State.Keeps.trans_le (by with_reducible assumption) | decide
    | with_reducible refine State.Keeps.state_le (q := Q) ?_ | with_reducible refine State.Keeps.trans_le (q := Q) ?_
    | (with_reducible show (_ : Nat) ≤ _; dsimp only) | fail_if_no_progress with_reducible refine keeps_mkpw ?_ ?_ ?_
    | split | dsimp -zeta only

theorem execOffStateSave_keeps {Q : List Instr} {s : State} (h : s.Keeps Q) :
    OKeeps Q (execOffStateSave s) := by
  unfold execOffStateSave
  repeat' first
    | with_reducible apply okeeps_next | with_reducible exact okeeps_fault | with_reducible apply okeeps_ite
    | with_reducible assumption | with_reducible apply State.offSave_keeps | with_reducible apply State.deferSave_keeps
    | with_reducible apply keeps_ite | split | dsimp -zeta only

theorem State.skipOffSave_keeps {Q : List Instr} {s : State} (h : s.Keeps Q) :
    (State.skipOffSave s).Keeps Q := by
  unfold State.skipOffSave
  repeat' first
    | with_reducible assumption | with_reducible apply State.put_keeps | with_reducible apply keeps_ite
    | (extract_lets +onlyGivenNames x; (have : True := by clear_value x; clear * - x; exact is_state (by assumption)); clear this; refine (fun hx => ?_ : State.Keeps Q x → _) ?_ <;> [clear_value x; (dsimp -zeta only [x]; clear x)])
    | (extract_lets +onlyGivenNames x; (have : True := by clear_value x; clear * - x; exact is_pwr (by assumption)); clear this; dsimp -zeta only [x]; clear x)
    | (extract_lets +onlyGivenNames x; clear_value x) | fail_if_no_progress with_reducible rw [keeps_mk]
    | fail_if_no_progress with_reducible rw [keeps_mkp] | exact State.Keeps.state_le (by with_reducible assumption)
    | exact State.Keeps.trans_le (by with_reducible assumption) | decide
    | with_reducible refine State.Keeps.state_le (q := Q) ?_ | with_reducible refine State.Keeps.trans_le (q := Q) ?_
    | (with_reducible show (_ : Nat) ≤ _; dsimp only) | fail_if_no_progress with_reducible refine keeps_mkpw ?_ ?_ ?_
    | split | dsimp -zeta only

theorem execSkipSave_keeps {Q : List Instr} {s : State} (h : s.Keeps Q) :
    OKeeps Q (execSkipSave s) := by
  unfold execSkipSave
  repeat' first
    | with_reducible apply okeeps_next | with_reducible exact okeeps_fault | with_reducible apply okeeps_ite
    | with_reducible assumption | with_reducible apply State.skipOffSave_keeps | with_reducible apply keeps_ite | split
    | dsimp -zeta only

theorem State.unpowered_keeps {Q : List Instr} {s : State} {pw : Pwr} (h1 : pw.state ≤ 5) (h2 : pw.trans ≤ 3) (h : s.Keeps Q) :
    (State.unpowered s pw).Keeps Q := by
  unfold State.unpowered
  extract_lets a b t
  have ht : State.Keeps Q t := ⟨h.1, h.2.1, rfl, rfl, h1, h2⟩
  clear_value t
  exact keeps_foldl (fun _ _ h => State.put_keeps (State.put_keeps h)) ht

theorem State.coldBoot_keeps {Q : List Instr} {s : State} (h : s.Keeps Q) :
    (State.coldBoot s).Keeps Q := by
  unfold State.coldBoot
  repeat' first
    | with_reducible assumption | with_reducible refine State.unpowered_keeps ?_ ?_ ?_
    | with_reducible apply State.put_keeps | with_reducible apply keeps_ite
    | (extract_lets +onlyGivenNames x; (have : True := by clear_value x; clear * - x; exact is_state (by assumption)); clear this; refine (fun hx => ?_ : State.Keeps Q x → _) ?_ <;> [clear_value x; (dsimp -zeta only [x]; clear x)])
    | (extract_lets +onlyGivenNames x; (have : True := by clear_value x; clear * - x; exact is_pwr (by assumption)); clear this; dsimp -zeta only [x]; clear x)
    | (extract_lets +onlyGivenNames x; clear_value x) | exact Nat.zero_le 5 | exact Nat.zero_le 3
    | (with_reducible show (_ : Nat) ≤ _; dsimp only) | decide | split | dsimp -zeta only

theorem State.selfRefresh_keeps {Q : List Instr} {s : State} (h : s.Keeps Q) :
    (State.selfRefresh s).Keeps Q := by
  unfold State.selfRefresh
  repeat' first
    | with_reducible assumption | with_reducible apply keeps_ite | fail_if_no_progress with_reducible rw [keeps_mk] | split
    | dsimp -zeta only

theorem State.enterState_keeps {Q : List Instr} {s : State} {st : Nat} (hs : st ≤ 5) (h : s.Keeps Q) :
    (State.enterState s st).Keeps Q := by
  unfold State.enterState
  extract_lets w p a b
  have ha : State.Keeps Q a := keeps_mkpw hs (by dsimp only; split <;> decide) h
  clear_value a
  exact State.raise_keeps (State.put_keeps (State.put_keeps (State.put_keeps ha)))

theorem State.portDeep_keeps {Q : List Instr} {s : State} {k : Nat} (h : s.Keeps Q) :
    (State.portDeep s k).Keeps Q := by
  unfold State.portDeep
  repeat' first
    | with_reducible assumption | with_reducible apply State.put_keeps | with_reducible apply State.setPrt_keeps
    | with_reducible apply keeps_ite
    | (extract_lets +onlyGivenNames x; (have : True := by clear_value x; clear * - x; exact is_state (by assumption)); clear this; refine (fun hx => ?_ : State.Keeps Q x → _) ?_ <;> [clear_value x; (dsimp -zeta only [x]; clear x)])
    | (extract_lets +onlyGivenNames x; clear_value x) | fail_if_no_progress with_reducible rw [keeps_mk] | split
    | dsimp -zeta only

theorem State.deepLoss_keeps {Q : List Instr} {s : State} (h : s.Keeps Q) :
    (State.deepLoss s).Keeps Q := by
  unfold State.deepLoss
  repeat' first
    | with_reducible assumption | with_reducible apply State.portDeep_keeps | with_reducible apply State.locked2_keeps
    | with_reducible apply State.selfRefresh_keeps | with_reducible apply keeps_ite
    | with_reducible refine keeps_foldl (fun _ _ _ => ?_) ?_ | with_reducible refine nkeeps_foldl (fun _ _ _ => ?_) ?_
    | with_reducible refine npkeeps_foldl (fun _ _ _ => ?_) ?_
    | (extract_lets +onlyGivenNames x; (have : True := by clear_value x; clear * - x; exact is_state (by assumption)); clear this; refine (fun hx => ?_ : State.Keeps Q x → _) ?_ <;> [clear_value x; (dsimp -zeta only [x]; clear x)])
    | (extract_lets +onlyGivenNames x; (have : True := by clear_value x; clear * - x; exact is_pwr (by assumption)); clear this; dsimp -zeta only [x]; clear x)
    | (extract_lets +onlyGivenNames x; clear_value x) | fail_if_no_progress with_reducible rw [keeps_mk]
    | fail_if_no_progress with_reducible rw [keeps_mkp] | exact State.Keeps.state_le (by with_reducible assumption)
    | exact State.Keeps.trans_le (by with_reducible assumption) | decide
    | with_reducible refine State.Keeps.state_le (q := Q) ?_ | with_reducible refine State.Keeps.trans_le (q := Q) ?_
    | (with_reducible show (_ : Nat) ≤ _; dsimp only) | fail_if_no_progress with_reducible refine keeps_mkpw ?_ ?_ ?_
    | split | dsimp -zeta only

theorem execEntryDone_keeps {Q : List Instr} {s : State} (h : s.Keeps Q) :
    OKeeps Q (execEntryDone s) := by
  unfold execEntryDone
  repeat' first
    | with_reducible apply okeeps_next | with_reducible exact okeeps_fault | with_reducible apply okeeps_ite
    | with_reducible assumption | with_reducible apply State.selfRefresh_keeps
    | with_reducible refine State.enterState_keeps (by decide) ?_ | with_reducible apply State.deepLoss_keeps
    | with_reducible apply State.raise_keeps | with_reducible refine State.unpowered_keeps ?_ ?_ ?_
    | with_reducible apply State.coldBoot_keeps | with_reducible apply keeps_ite
    | (extract_lets +onlyGivenNames x; (have : True := by clear_value x; clear * - x; exact is_state (by assumption)); clear this; refine (fun hx => ?_ : State.Keeps Q x → _) ?_ <;> [clear_value x; (dsimp -zeta only [x]; clear x)])
    | (extract_lets +onlyGivenNames x; (have : True := by clear_value x; clear * - x; exact is_pwr (by assumption)); clear this; dsimp -zeta only [x]; clear x)
    | (extract_lets +onlyGivenNames x; clear_value x) | fail_if_no_progress with_reducible rw [keeps_mk]
    | fail_if_no_progress with_reducible rw [keeps_mkp] | exact Nat.zero_le 5 | exact Nat.zero_le 3
    | (with_reducible show (_ : Nat) ≤ _; dsimp only) | decide | split | dsimp -zeta only

theorem State.reinitLinks_keeps {Q : List Instr} {s : State} (h : s.Keeps Q) :
    (State.reinitLinks s).Keeps Q := by
  unfold State.reinitLinks
  repeat' first
    | with_reducible assumption | with_reducible apply State.linkInit_keeps | with_reducible apply keeps_ite
    | with_reducible refine keeps_foldl (fun _ _ _ => ?_) ?_ | with_reducible refine nkeeps_foldl (fun _ _ _ => ?_) ?_
    | with_reducible refine npkeeps_foldl (fun _ _ _ => ?_) ?_ | split | dsimp -zeta only

theorem State.recordHeld_keeps {Q : List Instr} {s : State} (h : s.Keeps Q) :
    (State.recordHeld s).Keeps Q := by
  unfold State.recordHeld
  repeat' first
    | with_reducible assumption | with_reducible apply State.produce_keeps | with_reducible apply keeps_ite
    | with_reducible refine keeps_foldl (fun _ _ _ => ?_) ?_ | with_reducible refine nkeeps_foldl (fun _ _ _ => ?_) ?_
    | with_reducible refine npkeeps_foldl (fun _ _ _ => ?_) ?_ | fail_if_no_progress with_reducible rw [keeps_mk] | split
    | dsimp -zeta only

theorem State.engineLoad_keeps {Q : List Instr} {s : State} (h : s.Keeps Q) :
    (State.engineLoad s).Keeps Q := by
  unfold State.engineLoad
  repeat' first
    | with_reducible assumption | with_reducible apply State.halt_keeps | with_reducible apply State.setEng_keeps
    | with_reducible apply State.suspectMoves_keeps | with_reducible apply State.put_keeps | with_reducible apply keeps_ite
    | with_reducible refine keeps_foldl (fun _ _ _ => ?_) ?_ | with_reducible refine nkeeps_foldl (fun _ _ _ => ?_) ?_
    | with_reducible refine npkeeps_foldl (fun _ _ _ => ?_) ?_
    | (extract_lets +onlyGivenNames x; (have : True := by clear_value x; clear * - x; exact is_state (by assumption)); clear this; refine (fun hx => ?_ : State.Keeps Q x → _) ?_ <;> [clear_value x; (dsimp -zeta only [x]; clear x)])
    | (extract_lets +onlyGivenNames x; clear_value x) | fail_if_no_progress with_reducible rw [keeps_mk] | split
    | dsimp -zeta only

theorem State.rootAtWake_keeps {Q : List Instr} {s : State} (h : s.Keeps Q) :
    (State.rootAtWake s).Keeps Q := by
  unfold State.rootAtWake
  repeat' first
    | with_reducible assumption | with_reducible apply State.unready_keeps | with_reducible apply State.setRoot_keeps
    | with_reducible apply keeps_ite | with_reducible refine keeps_foldl (fun _ _ _ => ?_) ?_
    | with_reducible refine nkeeps_foldl (fun _ _ _ => ?_) ?_ | with_reducible refine npkeeps_foldl (fun _ _ _ => ?_) ?_
    | (extract_lets +onlyGivenNames x; (have : True := by clear_value x; clear * - x; exact is_state (by assumption)); clear this; refine (fun hx => ?_ : State.Keeps Q x → _) ?_ <;> [clear_value x; (dsimp -zeta only [x]; clear x)])
    | (extract_lets +onlyGivenNames x; clear_value x) | fail_if_no_progress with_reducible rw [keeps_mk]
    | fail_if_no_progress with_reducible rw [keeps_mkp] | split | dsimp -zeta only

theorem State.backToRun_keeps {Q : List Instr} {s : State} {left : Nat} (h : s.Keeps Q) :
    (State.backToRun s left).Keeps Q := by
  unfold State.backToRun
  repeat' first
    | with_reducible assumption | with_reducible apply State.put_keeps | with_reducible apply State.recordHeld_keeps
    | with_reducible apply State.raise_keeps | with_reducible apply State.settle_keeps | with_reducible apply keeps_ite
    | with_reducible refine keeps_foldl (fun _ _ _ => ?_) ?_ | with_reducible refine nkeeps_foldl (fun _ _ _ => ?_) ?_
    | with_reducible refine npkeeps_foldl (fun _ _ _ => ?_) ?_
    | (extract_lets +onlyGivenNames x; (have : True := by clear_value x; clear * - x; exact is_state (by assumption)); clear this; refine (fun hx => ?_ : State.Keeps Q x → _) ?_ <;> [clear_value x; (dsimp -zeta only [x]; clear x)])
    | (extract_lets +onlyGivenNames x; (have : True := by clear_value x; clear * - x; exact is_pwr (by assumption)); clear this; dsimp -zeta only [x]; clear x)
    | (extract_lets +onlyGivenNames x; clear_value x) | fail_if_no_progress with_reducible rw [keeps_mk]
    | fail_if_no_progress with_reducible rw [keeps_mkp] | exact State.Keeps.state_le (by with_reducible assumption)
    | exact State.Keeps.trans_le (by with_reducible assumption) | decide
    | with_reducible refine State.Keeps.state_le (q := Q) ?_ | with_reducible refine State.Keeps.trans_le (q := Q) ?_
    | (with_reducible show (_ : Nat) ≤ _; dsimp only) | fail_if_no_progress with_reducible refine keeps_mkpw ?_ ?_ ?_
    | split | dsimp -zeta only

theorem State.allPauses_keeps {Q : List Instr} {s : State} (h : s.Keeps Q) :
    (State.allPauses s).Keeps Q := by
  unfold State.allPauses
  repeat' first
    | with_reducible assumption | with_reducible apply State.exitPauses_keeps | with_reducible apply keeps_ite
    | with_reducible refine keeps_foldl (fun _ _ _ => ?_) ?_ | with_reducible refine nkeeps_foldl (fun _ _ _ => ?_) ?_
    | with_reducible refine npkeeps_foldl (fun _ _ _ => ?_) ?_ | split | dsimp -zeta only

theorem State.deepExit_keeps {Q : List Instr} {s : State} (h : s.Keeps Q) :
    (State.deepExit s).Keeps Q := by
  unfold State.deepExit
  repeat' first
    | with_reducible assumption | with_reducible apply State.rootAtWake_keeps | with_reducible apply keeps_ite
    | (extract_lets +onlyGivenNames x; (have : True := by clear_value x; clear * - x; exact is_state (by assumption)); clear this; refine (fun hx => ?_ : State.Keeps Q x → _) ?_ <;> [clear_value x; (dsimp -zeta only [x]; clear x)])
    | (extract_lets +onlyGivenNames x; (have : True := by clear_value x; clear * - x; exact is_pwr (by assumption)); clear this; dsimp -zeta only [x]; clear x)
    | (extract_lets +onlyGivenNames x; clear_value x) | fail_if_no_progress with_reducible rw [keeps_mk]
    | fail_if_no_progress with_reducible rw [keeps_mkp] | exact State.Keeps.state_le (by with_reducible assumption)
    | exact State.Keeps.trans_le (by with_reducible assumption) | decide
    | with_reducible refine State.Keeps.state_le (q := Q) ?_ | with_reducible refine State.Keeps.trans_le (q := Q) ?_
    | (with_reducible show (_ : Nat) ≤ _; dsimp only) | fail_if_no_progress with_reducible refine keeps_mkpw ?_ ?_ ?_
    | split | dsimp -zeta only

theorem execExitDone_keeps {Q : List Instr} {s : State} (h : s.Keeps Q) :
    OKeeps Q (execExitDone s) := by
  unfold execExitDone
  repeat' first
    | with_reducible apply okeeps_next | with_reducible exact okeeps_fault | with_reducible apply okeeps_ite
    | with_reducible assumption | with_reducible apply State.reinitLinks_keeps | with_reducible apply State.put_keeps
    | with_reducible apply State.backToRun_keeps | with_reducible apply State.startPrep_keeps
    | with_reducible apply State.deepExit_keeps | with_reducible apply State.allPauses_keeps
    | with_reducible apply State.engineLoad_keeps | with_reducible apply State.loseHost_keeps
    | with_reducible apply State.urgUpdate_keeps | with_reducible apply State.resumeCopies_keeps
    | with_reducible apply keeps_ite | with_reducible refine keeps_foldl (fun _ _ _ => ?_) ?_
    | with_reducible refine nkeeps_foldl (fun _ _ _ => ?_) ?_ | with_reducible refine npkeeps_foldl (fun _ _ _ => ?_) ?_
    | (extract_lets +onlyGivenNames x; (have : True := by clear_value x; clear * - x; exact is_state (by assumption)); clear this; refine (fun hx => ?_ : State.Keeps Q x → _) ?_ <;> [clear_value x; (dsimp -zeta only [x]; clear x)])
    | (extract_lets +onlyGivenNames x; clear_value x) | fail_if_no_progress with_reducible rw [keeps_mk]
    | fail_if_no_progress with_reducible rw [keeps_mkp] | split | dsimp -zeta only

theorem execWake_keeps {Q : List Instr} {s : State} (h : s.Keeps Q) :
    OKeeps Q (execWake s) := by
  unfold execWake
  repeat' first
    | with_reducible apply okeeps_next | with_reducible exact okeeps_fault | with_reducible apply okeeps_ite
    | with_reducible assumption | with_reducible apply State.wakeBy_keeps | with_reducible apply keeps_ite | split
    | dsimp -zeta only

theorem execWakeN_keeps {Q : List Instr} {s : State} (h : s.Keeps Q) :
    OKeeps Q (execWakeN s) := by
  unfold execWakeN
  repeat' first
    | with_reducible apply okeeps_next | with_reducible exact okeeps_fault | with_reducible apply okeeps_ite
    | with_reducible assumption | with_reducible apply State.coldBoot_keeps | with_reducible apply State.leaveIdle_keeps
    | with_reducible apply State.wakeBy_keeps | with_reducible apply keeps_ite
    | (extract_lets +onlyGivenNames x; (have : True := by clear_value x; clear * - x; exact is_state (by assumption)); clear this; refine (fun hx => ?_ : State.Keeps Q x → _) ?_ <;> [clear_value x; (dsimp -zeta only [x]; clear x)])
    | (extract_lets +onlyGivenNames x; clear_value x) | split | dsimp -zeta only

theorem execSleepTimer_keeps {Q : List Instr} {s : State} (h : s.Keeps Q) :
    OKeeps Q (execSleepTimer s) := by
  unfold execSleepTimer
  repeat' first
    | with_reducible apply okeeps_next | with_reducible exact okeeps_fault | with_reducible apply okeeps_ite
    | with_reducible assumption | with_reducible apply State.wakeBy_keeps | with_reducible apply keeps_ite
    | (extract_lets +onlyGivenNames x; (have : True := by clear_value x; clear * - x; exact is_state (by assumption)); clear this; refine (fun hx => ?_ : State.Keeps Q x → _) ?_ <;> [clear_value x; (dsimp -zeta only [x]; clear x)])
    | (extract_lets +onlyGivenNames x; clear_value x) | split | dsimp -zeta only

theorem execThermalWake_keeps {Q : List Instr} {t : BitVec 8} {s : State} (h : s.Keeps Q) :
    OKeeps Q (execThermalWake t s) := by
  unfold execThermalWake
  repeat' first
    | with_reducible apply okeeps_next | with_reducible exact okeeps_fault | with_reducible apply okeeps_ite
    | with_reducible assumption | with_reducible apply State.wakeBy_keeps | with_reducible apply keeps_ite | split
    | dsimp -zeta only

theorem execPerstNDeassert_keeps {Q : List Instr} {p : Fin 8} {s : State} (h : s.Keeps Q) :
    OKeeps Q (execPerstNDeassert p s) := by
  unfold execPerstNDeassert
  repeat' first
    | with_reducible apply okeeps_next | with_reducible exact okeeps_fault | with_reducible apply okeeps_ite
    | with_reducible assumption | with_reducible apply State.put_keeps | with_reducible apply State.urgUpdate_keeps
    | with_reducible apply State.wakeBy_keeps | with_reducible apply keeps_ite
    | (extract_lets +onlyGivenNames x; (have : True := by clear_value x; clear * - x; exact is_state (by assumption)); clear this; refine (fun hx => ?_ : State.Keeps Q x → _) ?_ <;> [clear_value x; (dsimp -zeta only [x]; clear x)])
    | (extract_lets +onlyGivenNames x; clear_value x) | split | dsimp -zeta only

theorem execIdleEntry_keeps {Q : List Instr} {s : State} (h : s.Keeps Q) :
    OKeeps Q (execIdleEntry s) := by
  unfold execIdleEntry
  repeat' first
    | with_reducible apply okeeps_next | with_reducible exact okeeps_fault | with_reducible apply okeeps_ite
    | with_reducible assumption | with_reducible apply State.selfRefresh_keeps | with_reducible apply State.put_keeps
    | with_reducible apply State.bump_keeps | with_reducible apply keeps_ite
    | (extract_lets +onlyGivenNames x; (have : True := by clear_value x; clear * - x; exact is_state (by assumption)); clear this; refine (fun hx => ?_ : State.Keeps Q x → _) ?_ <;> [clear_value x; (dsimp -zeta only [x]; clear x)])
    | (extract_lets +onlyGivenNames x; (have : True := by clear_value x; clear * - x; exact is_pwr (by assumption)); clear this; dsimp -zeta only [x]; clear x)
    | (extract_lets +onlyGivenNames x; clear_value x) | fail_if_no_progress with_reducible rw [keeps_mk]
    | fail_if_no_progress with_reducible rw [keeps_mkp] | exact State.Keeps.state_le (by with_reducible assumption)
    | exact State.Keeps.trans_le (by with_reducible assumption) | decide
    | with_reducible refine State.Keeps.state_le (q := Q) ?_ | with_reducible refine State.Keeps.trans_le (q := Q) ?_
    | (with_reducible show (_ : Nat) ≤ _; dsimp only) | fail_if_no_progress with_reducible refine keeps_mkpw ?_ ?_ ?_
    | split | dsimp -zeta only

theorem execIdleExit_keeps {Q : List Instr} {s : State} (h : s.Keeps Q) :
    OKeeps Q (execIdleExit s) := by
  unfold execIdleExit
  repeat' first
    | with_reducible apply okeeps_next | with_reducible exact okeeps_fault | with_reducible apply okeeps_ite
    | with_reducible assumption | with_reducible apply State.leaveIdle_keeps | with_reducible apply keeps_ite | split
    | dsimp -zeta only

theorem execRailFault_keeps {Q : List Instr} {s : State} (h : s.Keeps Q) :
    OKeeps Q (execRailFault s) := by
  unfold execRailFault
  repeat' first
    | with_reducible apply okeeps_next | with_reducible exact okeeps_fault | with_reducible apply okeeps_ite
    | with_reducible assumption | with_reducible refine State.unpowered_keeps ?_ ?_ ?_ | with_reducible apply keeps_ite
    | (extract_lets +onlyGivenNames x; (have : True := by clear_value x; clear * - x; exact is_state (by assumption)); clear this; refine (fun hx => ?_ : State.Keeps Q x → _) ?_ <;> [clear_value x; (dsimp -zeta only [x]; clear x)])
    | (extract_lets +onlyGivenNames x; (have : True := by clear_value x; clear * - x; exact is_pwr (by assumption)); clear this; dsimp -zeta only [x]; clear x)
    | (extract_lets +onlyGivenNames x; clear_value x) | fail_if_no_progress with_reducible rw [keeps_mk]
    | fail_if_no_progress with_reducible rw [keeps_mkp] | exact Nat.zero_le 5 | exact Nat.zero_le 3
    | (with_reducible show (_ : Nat) ≤ _; dsimp only) | decide | split | dsimp -zeta only

theorem execRailRestart_keeps {Q : List Instr} {s : State} (h : s.Keeps Q) :
    OKeeps Q (execRailRestart s) := by
  unfold execRailRestart
  repeat' first
    | with_reducible apply okeeps_next | with_reducible exact okeeps_fault | with_reducible apply okeeps_ite
    | with_reducible assumption | with_reducible apply State.coldBoot_keeps | with_reducible apply keeps_ite | split
    | dsimp -zeta only

theorem execThermtrip_keeps {Q : List Instr} {t : BitVec 8} {s : State} (h : s.Keeps Q) :
    OKeeps Q (execThermtrip t s) := by
  unfold execThermtrip
  repeat' first
    | with_reducible apply okeeps_next | with_reducible exact okeeps_fault | with_reducible apply okeeps_ite
    | with_reducible assumption | with_reducible refine State.unpowered_keeps ?_ ?_ ?_ | with_reducible apply keeps_ite
    | (extract_lets +onlyGivenNames x; (have : True := by clear_value x; clear * - x; exact is_state (by assumption)); clear this; refine (fun hx => ?_ : State.Keeps Q x → _) ?_ <;> [clear_value x; (dsimp -zeta only [x]; clear x)])
    | (extract_lets +onlyGivenNames x; (have : True := by clear_value x; clear * - x; exact is_pwr (by assumption)); clear this; dsimp -zeta only [x]; clear x)
    | (extract_lets +onlyGivenNames x; clear_value x) | fail_if_no_progress with_reducible rw [keeps_mk]
    | fail_if_no_progress with_reducible rw [keeps_mkp] | exact Nat.zero_le 5 | exact Nat.zero_le 3
    | (with_reducible show (_ : Nat) ≤ _; dsimp only) | decide | split | dsimp -zeta only

end Sys2Proof.Machine
end

