-- ==== Sys2Proof/Laws/KeepsReset.lean ====
section
/-!
SUPPORT. The meanings and operations of Machine/Reset.lean keep a sound state and its queue.
-/
set_option linter.unusedTactic false
set_option linter.unusedSimpArgs false
set_option linter.unusedVariables false
set_option linter.unreachableTactic false

namespace Sys2Proof.Machine

theorem State.coldFrom_keeps {Q : List Instr} {s : State} {failed : Nat} (h : s.Keeps Q) :
    (State.coldFrom s failed).Keeps Q :=
  State.coldBoot_keeps (keeps_mkpw (Nat.le_refl 5) (Nat.zero_le 3) h)

theorem execVddAonUp_keeps {Q : List Instr} {addrSel : Fin 4} {s : State} (h : s.Keeps Q) :
    OKeeps Q (execVddAonUp addrSel s) := by
  unfold execVddAonUp
  split
  · exact okeeps_next h
  · exact okeeps_next (State.coldFrom_keeps (keeps_mkpw (Nat.le_refl 5) (Nat.zero_le 3) h))

theorem execVddAonOff_keeps {Q : List Instr} {s : State} (h : s.Keeps Q) : OKeeps Q (execVddAonOff s) :=
  okeeps_next (State.unpowered_keeps (Nat.le_refl 5) (Nat.zero_le 3) (keeps_of (s := s) rfl rfl rfl rfl rfl rfl h))

theorem execSysResetN_keeps {Q : List Instr} {s : State} (h : s.Keeps Q) :
    OKeeps Q (execSysResetN s) := by
  unfold execSysResetN
  repeat' first
    | with_reducible apply okeeps_next | with_reducible exact okeeps_fault | with_reducible apply okeeps_ite
    | with_reducible assumption | with_reducible apply State.coldFrom_keeps | with_reducible apply keeps_ite | split
    | dsimp -zeta only

theorem State.writeCold_keeps {Q : List Instr} {s : State} (h : s.Keeps Q) :
    (State.writeCold s).Keeps Q := by
  unfold State.writeCold
  repeat' first
    | with_reducible assumption | with_reducible apply State.coldFrom_keeps | with_reducible apply keeps_ite | split
    | dsimp -zeta only

theorem execCold_keeps {Q : List Instr} {s : State} (h : s.Keeps Q) :
    OKeeps Q (execCold s) := by
  unfold execCold
  repeat' first
    | with_reducible apply okeeps_next | with_reducible exact okeeps_fault | with_reducible apply okeeps_ite
    | with_reducible assumption | with_reducible apply State.writeCold_keeps | with_reducible apply keeps_ite | split
    | dsimp -zeta only

theorem State.startWarm_keeps {Q : List Instr} {s : State} (h : s.Keeps Q) :
    (State.startWarm s).Keeps Q := by
  unfold State.startWarm
  repeat' first
    | with_reducible assumption | with_reducible apply State.leaveIdle_keeps | with_reducible apply State.dlDown_keeps
    | with_reducible apply State.dirFlush_keeps | with_reducible apply keeps_ite
    | with_reducible refine keeps_foldl (fun _ _ _ => ?_) ?_ | with_reducible refine nkeeps_foldl (fun _ _ _ => ?_) ?_
    | with_reducible refine npkeeps_foldl (fun _ _ _ => ?_) ?_
    | (extract_lets +onlyGivenNames x; (have : True := by clear_value x; clear * - x; exact is_state (by assumption)); clear this; refine (fun hx => ?_ : State.Keeps Q x → _) ?_ <;> [clear_value x; (dsimp -zeta only [x]; clear x)])
    | (extract_lets +onlyGivenNames x; (have : True := by clear_value x; clear * - x; exact is_pwr (by assumption)); clear this; dsimp -zeta only [x]; clear x)
    | (extract_lets +onlyGivenNames x; clear_value x) | fail_if_no_progress with_reducible rw [keeps_mk]
    | fail_if_no_progress with_reducible rw [keeps_mkp] | exact State.Keeps.state_le (by with_reducible assumption)
    | exact State.Keeps.trans_le (by with_reducible assumption) | decide
    | with_reducible refine State.Keeps.state_le (q := Q) ?_ | with_reducible refine State.Keeps.trans_le (q := Q) ?_
    | (with_reducible show (_ : Nat) ≤ _; dsimp only) | fail_if_no_progress with_reducible refine keeps_mkpw ?_ ?_ ?_
    | split | dsimp -zeta only

theorem State.writeWarm_keeps {Q : List Instr} {s : State} (h : s.Keeps Q) :
    (State.writeWarm s).Keeps Q := by
  unfold State.writeWarm
  repeat' first
    | with_reducible assumption | with_reducible apply State.put_keeps | with_reducible apply State.startWarm_keeps
    | with_reducible apply keeps_ite | split | dsimp -zeta only

theorem execWarm_keeps {Q : List Instr} {s : State} (h : s.Keeps Q) :
    OKeeps Q (execWarm s) := by
  unfold execWarm
  repeat' first
    | with_reducible apply okeeps_next | with_reducible exact okeeps_fault | with_reducible apply okeeps_ite
    | with_reducible assumption | with_reducible apply State.writeWarm_keeps | with_reducible apply keeps_ite | split
    | dsimp -zeta only

theorem execRailsConfirmed_keeps {Q : List Instr} {s : State} (h : s.Keeps Q) :
    OKeeps Q (execRailsConfirmed s) := by
  unfold execRailsConfirmed
  repeat' first
    | with_reducible apply okeeps_next | with_reducible exact okeeps_fault | with_reducible apply okeeps_ite
    | with_reducible assumption | with_reducible apply State.setRoot_keeps | with_reducible apply State.put_keeps
    | with_reducible apply keeps_ite | fail_if_no_progress with_reducible rw [keeps_mk]
    | fail_if_no_progress with_reducible rw [keeps_mkp] | split | dsimp -zeta only

end Sys2Proof.Machine
end

