-- ==== Sys2Proof/Laws/KeepsAperture.lean ====
section
/-!
SUPPORT. The meanings and operations of Machine/Aperture.lean keep a sound state and its queue.
-/
set_option linter.unusedTactic false
set_option linter.unusedSimpArgs false
set_option linter.unusedVariables false
set_option linter.unreachableTactic false

namespace Sys2Proof.Machine

theorem State.pageRead_keeps {Q : List Instr} {s : State} {pg : Nat} {o : Nat} {size : Nat} (h : s.Keeps Q) :
    PKeeps Q (State.pageRead s pg o size) := by
  unfold State.pageRead
  repeat' first
    | with_reducible assumption | with_reducible apply State.put_keeps | with_reducible apply keeps_ite
    | with_reducible exact keeps_fst (by with_reducible assumption) | with_reducible apply pkeeps_ite
    | with_reducible exact pkeeps_eq (by assumption) (by assumption) | with_reducible refine pkeeps_eq (by assumption) ?_
    | with_reducible exact keeps_of_p (by with_reducible assumption)
    | (extract_lets +onlyGivenNames x; (have : True := by clear_value x; clear * - x; exact is_state (by assumption)); clear this; refine (fun hx => ?_ : State.Keeps Q x → _) ?_ <;> [clear_value x; (dsimp -zeta only [x]; clear x)])
    | (extract_lets +onlyGivenNames x; (have : True := by clear_value x; clear * - x; exact is_pair (by assumption)); clear this; refine (fun hx => ?_ : PKeeps Q x → _) ?_ <;> [clear_value x; (dsimp -zeta only [x]; clear x)])
    | (extract_lets +onlyGivenNames x; clear_value x) | fail_if_no_progress with_reducible rw [keeps_mk] | split
    | dsimp -zeta only | with_reducible apply pkeeps_mk

theorem State.writeFld_keeps {Q : List Instr} {s : State} {pg : Nat} {f : Fld} {lo : Nat} {w : Nat} {v : Nat} (h : s.Keeps Q) :
    (State.writeFld s pg f lo w v).Keeps Q := by
  unfold State.writeFld
  repeat' first
    | with_reducible assumption | with_reducible apply State.put_keeps | with_reducible apply keeps_ite
    | (extract_lets +onlyGivenNames x; (have : True := by clear_value x; clear * - x; exact is_state (by assumption)); clear this; refine (fun hx => ?_ : State.Keeps Q x → _) ?_ <;> [clear_value x; (dsimp -zeta only [x]; clear x)])
    | (extract_lets +onlyGivenNames x; clear_value x) | fail_if_no_progress with_reducible rw [keeps_mk] | split
    | dsimp -zeta only

theorem State.writeFields_keeps {Q : List Instr} {s : State} {pg : Nat} {r : Nat} {lo : Nat} {w : Nat} {v : Nat} (h : s.Keeps Q) :
    (State.writeFields s pg r lo w v).Keeps Q := by
  unfold State.writeFields
  repeat' first
    | with_reducible assumption | with_reducible apply State.writeFld_keeps | with_reducible apply keeps_ite
    | with_reducible refine keeps_foldl (fun _ _ _ => ?_) ?_ | with_reducible refine nkeeps_foldl (fun _ _ _ => ?_) ?_
    | with_reducible refine npkeeps_foldl (fun _ _ _ => ?_) ?_ | split | dsimp -zeta only

theorem State.writeLapHub_keeps {Q : List Instr} {s : State} {v : Nat} (h : s.Keeps Q) :
    (State.writeLapHub s v).Keeps Q := by
  unfold State.writeLapHub
  repeat' first
    | with_reducible assumption | with_reducible apply State.writeRestart_keeps | with_reducible apply State.tick_keeps
    | with_reducible apply State.writePass_keeps | with_reducible apply keeps_ite
    | (extract_lets +onlyGivenNames x; (have : True := by clear_value x; clear * - x; exact is_state (by assumption)); clear this; refine (fun hx => ?_ : State.Keeps Q x → _) ?_ <;> [clear_value x; (dsimp -zeta only [x]; clear x)])
    | (extract_lets +onlyGivenNames x; clear_value x) | split | dsimp -zeta only

theorem State.writeRootCtl_keeps {Q : List Instr} {s : State} {v : Nat} (h : s.Keeps Q) :
    (State.writeRootCtl s v).Keeps Q := by
  unfold State.writeRootCtl
  repeat' first
    | with_reducible assumption | with_reducible apply State.put_keeps | with_reducible apply State.writeRootSel_keeps
    | with_reducible apply State.writeArm_keeps | with_reducible apply keeps_ite
    | (extract_lets +onlyGivenNames x; (have : True := by clear_value x; clear * - x; exact is_state (by assumption)); clear this; refine (fun hx => ?_ : State.Keeps Q x → _) ?_ <;> [clear_value x; (dsimp -zeta only [x]; clear x)])
    | (extract_lets +onlyGivenNames x; clear_value x) | split | dsimp -zeta only

theorem State.writePwrCtl_keeps {Q : List Instr} {s : State} {v : Nat} (h : s.Keeps Q) :
    (State.writePwrCtl s v).Keeps Q := by
  unfold State.writePwrCtl
  repeat' first
    | with_reducible assumption | with_reducible apply State.put_keeps | with_reducible apply State.wakeBy_keeps
    | with_reducible apply State.skipOffSave_keeps | with_reducible apply State.pwrReq_keeps
    | with_reducible apply keeps_ite
    | (extract_lets +onlyGivenNames x; (have : True := by clear_value x; clear * - x; exact is_state (by assumption)); clear this; refine (fun hx => ?_ : State.Keeps Q x → _) ?_ <;> [clear_value x; (dsimp -zeta only [x]; clear x)])
    | (extract_lets +onlyGivenNames x; clear_value x) | split | dsimp -zeta only

theorem State.writeIei_keeps {Q : List Instr} {s : State} {fail : Bool} {lo : Nat} {w : Nat} {v : Nat} (h : s.Keeps Q) :
    (State.writeIei s fail lo w v).Keeps Q := by
  unfold State.writeIei
  repeat' first
    | with_reducible assumption | with_reducible apply State.setEng_keeps | with_reducible apply keeps_ite
    | (extract_lets +onlyGivenNames x; (have : True := by clear_value x; clear * - x; exact is_state (by assumption)); clear this; refine (fun hx => ?_ : State.Keeps Q x → _) ?_ <;> [clear_value x; (dsimp -zeta only [x]; clear x)])
    | (extract_lets +onlyGivenNames x; clear_value x) | fail_if_no_progress with_reducible rw [keeps_mk] | split
    | dsimp -zeta only

theorem State.hubAct_keeps {Q : List Instr} {s : State} {pg : Nat} {r : Nat} {lo : Nat} {w : Nat} {v : Nat} {path : Path} (h : s.Keeps Q) :
    NKeeps Q (State.hubAct s pg r lo w v path) := by
  unfold State.hubAct
  repeat' first
    | with_reducible assumption | with_reducible apply State.writeCold_keeps | with_reducible apply State.writeWarm_keeps
    | with_reducible apply State.writeKeyLoad_keeps | with_reducible apply State.writeKeyClear_keeps
    | with_reducible apply State.writeKmap_keeps | with_reducible apply State.dirFlush_keeps
    | with_reducible apply State.writePacerCtl_keeps | with_reducible apply State.writePortGuar_keeps
    | with_reducible apply State.writeLapHub_keeps | with_reducible apply State.lapBeat_keeps
    | with_reducible apply State.writeEngCtl_keeps | with_reducible apply State.writeIei_keeps
    | with_reducible apply State.managerTail_keeps | with_reducible apply State.clearMissed_keeps
    | with_reducible apply State.writeMbxCmd_keeps | with_reducible apply State.writeLapCtl_keeps
    | with_reducible apply State.put_keeps | with_reducible apply State.telClear_keeps
    | with_reducible apply State.writeRootCtl_keeps | with_reducible apply State.writeFields_keeps
    | with_reducible apply State.writeClose_keeps | with_reducible apply State.writeOpen_keeps
    | with_reducible apply State.writePwrCtl_keeps | with_reducible apply keeps_ite | with_reducible exact nkeeps_none
    | with_reducible apply nkeeps_some | with_reducible apply nkeeps_ite
    | with_reducible refine nkeeps_eq (by assumption) ?_ | with_reducible exact keeps_of_n (by with_reducible assumption)
    | (extract_lets +onlyGivenNames x; (have : True := by clear_value x; clear * - x; exact is_state (by assumption)); clear this; refine (fun hx => ?_ : State.Keeps Q x → _) ?_ <;> [clear_value x; (dsimp -zeta only [x]; clear x)])
    | (extract_lets +onlyGivenNames x; (have : True := by clear_value x; clear * - x; exact is_opt (by assumption)); clear this; refine (fun hx => ?_ : NKeeps Q x → _) ?_ <;> [clear_value x; (dsimp -zeta only [x]; clear x)])
    | (extract_lets +onlyGivenNames x; clear_value x) | fail_if_no_progress with_reducible rw [keeps_mk] | split
    | dsimp -zeta only

theorem State.blockAct_keeps {Q : List Instr} {s : State} {pg : Nat} {r : Nat} {lo : Nat} {w : Nat} {v : Nat} (h : s.Keeps Q) :
    NKeeps Q (State.blockAct s pg r lo w v) := by
  unfold State.blockAct
  repeat' first
    | with_reducible assumption | with_reducible apply State.writeFields_keeps | with_reducible apply State.vdtRetry_keeps
    | with_reducible apply State.invGo_keeps | with_reducible apply State.doSwitch_keeps
    | with_reducible apply State.writeTiming_keeps | with_reducible apply State.retireUncopied_keeps
    | with_reducible apply State.writeLiuCtl_keeps | with_reducible apply State.sampleTail_keeps
    | with_reducible apply State.psPush_keeps | with_reducible apply keeps_ite | with_reducible exact nkeeps_none
    | with_reducible apply nkeeps_some | with_reducible apply nkeeps_ite
    | with_reducible refine nkeeps_eq (by assumption) ?_ | with_reducible exact keeps_of_n (by with_reducible assumption)
    | (extract_lets +onlyGivenNames x; (have : True := by clear_value x; clear * - x; exact is_state (by assumption)); clear this; refine (fun hx => ?_ : State.Keeps Q x → _) ?_ <;> [clear_value x; (dsimp -zeta only [x]; clear x)])
    | (extract_lets +onlyGivenNames x; (have : True := by clear_value x; clear * - x; exact is_opt (by assumption)); clear this; refine (fun hx => ?_ : NKeeps Q x → _) ?_ <;> [clear_value x; (dsimp -zeta only [x]; clear x)])
    | (extract_lets +onlyGivenNames x; clear_value x) | split | dsimp -zeta only

theorem State.headAct_keeps {Q : List Instr} {s : State} {pg : Nat} {r : Nat} {v : Nat} (h : s.Keeps Q) :
    NKeeps Q (State.headAct s pg r v) := by
  unfold State.headAct
  repeat' first
    | with_reducible assumption | with_reducible apply State.rearm_keeps | with_reducible apply State.writeForce_keeps
    | with_reducible apply keeps_ite | with_reducible exact nkeeps_none | with_reducible apply nkeeps_some
    | with_reducible apply nkeeps_ite | with_reducible refine nkeeps_eq (by assumption) ?_
    | with_reducible exact keeps_of_n (by with_reducible assumption) | split | dsimp -zeta only

theorem State.regWrite_keeps {Q : List Instr} {s : State} {pg : Nat} {r : Nat} {lo : Nat} {w : Nat} {v : Nat} {path : Path} (h : s.Keeps Q) :
    (State.regWrite s pg r lo w v path).Keeps Q := by
  unfold State.regWrite
  repeat' first
    | with_reducible assumption | with_reducible apply State.headAct_keeps | with_reducible apply State.hubAct_keeps
    | with_reducible apply State.blockAct_keeps | with_reducible apply State.writeFields_keeps
    | with_reducible apply keeps_ite | with_reducible exact nkeeps_none | with_reducible apply nkeeps_some
    | with_reducible apply nkeeps_ite | with_reducible refine nkeeps_eq (by assumption) ?_
    | with_reducible exact keeps_of_n (by with_reducible assumption) | fail_if_no_progress with_reducible rw [keeps_mk]
    | split | dsimp -zeta only

theorem State.writeWord_keeps {Q : List Instr} {s : State} {pg : Nat} {o : Nat} {v : Nat} {path : Path} (h : s.Keeps Q) :
    (State.writeWord s pg o v path).Keeps Q := by
  unfold State.writeWord
  repeat' first
    | with_reducible assumption | with_reducible apply State.regWrite_keeps | with_reducible apply keeps_ite | split
    | dsimp -zeta only

theorem State.wideWrite_keeps {Q : List Instr} {s : State} {pg : Nat} {o : Nat} {size : Nat} {v : Nat} (h : s.Keeps Q) :
    NKeeps Q (State.wideWrite s pg o size v) := by
  unfold State.wideWrite
  repeat' first
    | with_reducible assumption | with_reducible apply State.put_keeps | with_reducible apply keeps_ite
    | with_reducible exact nkeeps_none | with_reducible apply nkeeps_some | with_reducible apply nkeeps_ite
    | with_reducible refine nkeeps_eq (by assumption) ?_ | with_reducible exact keeps_of_n (by with_reducible assumption)
    | (extract_lets +onlyGivenNames x; (have : True := by clear_value x; clear * - x; exact is_state (by assumption)); clear this; refine (fun hx => ?_ : State.Keeps Q x → _) ?_ <;> [clear_value x; (dsimp -zeta only [x]; clear x)])
    | (extract_lets +onlyGivenNames x; (have : True := by clear_value x; clear * - x; exact is_opt (by assumption)); clear this; refine (fun hx => ?_ : NKeeps Q x → _) ?_ <;> [clear_value x; (dsimp -zeta only [x]; clear x)])
    | (extract_lets +onlyGivenNames x; clear_value x) | fail_if_no_progress with_reducible rw [keeps_mk] | split
    | dsimp -zeta only

theorem State.telWrite_keeps {Q : List Instr} {s : State} {i : Nat} {o : Nat} {size : Nat} {v : Nat} (h : s.Keeps Q) :
    (State.telWrite s i o size v).Keeps Q := by
  unfold State.telWrite
  repeat' first
    | with_reducible assumption | with_reducible apply State.writeTelSel_keeps
    | with_reducible apply State.writeTelCnt_keeps | with_reducible apply keeps_ite
    | (extract_lets +onlyGivenNames x; (have : True := by clear_value x; clear * - x; exact is_state (by assumption)); clear this; refine (fun hx => ?_ : State.Keeps Q x → _) ?_ <;> [clear_value x; (dsimp -zeta only [x]; clear x)])
    | (extract_lets +onlyGivenNames x; clear_value x) | split | dsimp -zeta only

theorem State.pageWrite_keeps {Q : List Instr} {s : State} {pg : Nat} {o : Nat} {size : Nat} {v : Nat} {path : Path} (h : s.Keeps Q) :
    (State.pageWrite s pg o size v path).Keeps Q := by
  unfold State.pageWrite
  repeat' first
    | with_reducible assumption | with_reducible apply State.wideWrite_keeps | with_reducible apply State.telWrite_keeps
    | with_reducible apply State.writeWord_keeps | with_reducible apply State.regWrite_keeps
    | with_reducible apply keeps_ite | with_reducible exact nkeeps_none | with_reducible apply nkeeps_some
    | with_reducible apply nkeeps_ite | with_reducible refine nkeeps_eq (by assumption) ?_
    | with_reducible exact keeps_of_n (by with_reducible assumption) | fail_if_no_progress with_reducible rw [keeps_mk]
    | split | dsimp -zeta only

theorem State.windowMiss_keeps {Q : List Instr} {s : State} {da : Nat} {path : Path} (h : s.Keeps Q) :
    (State.windowMiss s da path).Keeps Q := by
  unfold State.windowMiss
  repeat' first
    | with_reducible assumption | with_reducible apply State.raiseFor_keeps | with_reducible apply keeps_ite | split
    | dsimp -zeta only

theorem State.windowPoison_keeps {Q : List Instr} {s : State} {size : Nat} (h : s.Keeps Q) :
    PKeeps Q (State.windowPoison s size) := by
  unfold State.windowPoison
  repeat' first
    | with_reducible assumption | with_reducible apply State.put_keeps | with_reducible apply keeps_ite
    | with_reducible exact keeps_fst (by with_reducible assumption) | with_reducible apply pkeeps_ite
    | with_reducible exact pkeeps_eq (by assumption) (by assumption) | with_reducible refine pkeeps_eq (by assumption) ?_
    | with_reducible exact keeps_of_p (by with_reducible assumption) | split | dsimp -zeta only
    | with_reducible apply pkeeps_mk

theorem State.windowRead_keeps {Q : List Instr} {s : State} {off : Nat} {size : Nat} {path : Path} {b : Bursts} (h : s.Keeps Q) :
    PKeeps Q (State.windowRead s off size path b) := by
  unfold State.windowRead
  repeat' first
    | with_reducible assumption | with_reducible apply State.windowMiss_keeps
    | with_reducible apply State.windowPoison_keeps | with_reducible apply State.recall_keeps
    | with_reducible apply State.readPlain_keeps
    | (with_reducible apply keeps_fst; with_reducible apply State.windowPoison_keeps)
    | (with_reducible apply keeps_fst; with_reducible apply State.recall_keeps)
    | (with_reducible apply keeps_fst; with_reducible apply State.readPlain_keeps) | with_reducible apply keeps_ite
    | with_reducible exact keeps_fst (by with_reducible assumption) | with_reducible apply pkeeps_ite
    | with_reducible exact pkeeps_eq (by assumption) (by assumption) | with_reducible refine pkeeps_eq (by assumption) ?_
    | with_reducible exact keeps_of_p (by with_reducible assumption)
    | (extract_lets +onlyGivenNames x; (have : True := by clear_value x; clear * - x; exact is_state (by assumption)); clear this; refine (fun hx => ?_ : State.Keeps Q x → _) ?_ <;> [clear_value x; (dsimp -zeta only [x]; clear x)])
    | (extract_lets +onlyGivenNames x; (have : True := by clear_value x; clear * - x; exact is_pair (by assumption)); clear this; refine (fun hx => ?_ : PKeeps Q x → _) ?_ <;> [clear_value x; (dsimp -zeta only [x]; clear x)])
    | (extract_lets +onlyGivenNames x; clear_value x) | fail_if_no_progress with_reducible rw [keeps_mk] | split
    | dsimp -zeta only | with_reducible apply pkeeps_mk

theorem State.windowWrite_keeps {Q : List Instr} {s : State} {off : Nat} {size : Nat} {v : Nat} {path : Path} {b : Bursts} (h : s.Keeps Q) :
    PKeeps Q (State.windowWrite s off size v path b) := by
  unfold State.windowWrite
  repeat' first
    | with_reducible assumption | with_reducible apply State.windowMiss_keeps | with_reducible apply State.put_keeps
    | with_reducible apply State.writePlain_keeps | with_reducible apply State.raiseRefused_keeps
    | with_reducible apply State.jobClear_keeps | with_reducible apply State.jobRecall_keeps
    | with_reducible apply State.readPlain_keeps
    | (with_reducible apply keeps_fst; with_reducible apply State.writePlain_keeps)
    | (with_reducible apply keeps_fst; with_reducible apply State.jobRecall_keeps)
    | (with_reducible apply keeps_fst; with_reducible apply State.readPlain_keeps) | with_reducible apply keeps_ite
    | with_reducible exact keeps_fst (by with_reducible assumption) | with_reducible apply pkeeps_ite
    | with_reducible exact pkeeps_eq (by assumption) (by assumption) | with_reducible refine pkeeps_eq (by assumption) ?_
    | with_reducible exact keeps_of_p (by with_reducible assumption)
    | (extract_lets +onlyGivenNames x; (have : True := by clear_value x; clear * - x; exact is_state (by assumption)); clear this; refine (fun hx => ?_ : State.Keeps Q x → _) ?_ <;> [clear_value x; (dsimp -zeta only [x]; clear x)])
    | (extract_lets +onlyGivenNames x; (have : True := by clear_value x; clear * - x; exact is_pair (by assumption)); clear this; refine (fun hx => ?_ : PKeeps Q x → _) ?_ <;> [clear_value x; (dsimp -zeta only [x]; clear x)])
    | (extract_lets +onlyGivenNames x; (have : True := by clear_value x; clear * - x; exact is_fun (by assumption)); clear this; dsimp -zeta only [x]; clear x)
    | (extract_lets +onlyGivenNames x; clear_value x) | fail_if_no_progress with_reducible rw [keeps_mk] | split
    | dsimp -zeta only | with_reducible apply pkeeps_mk

theorem State.apRead_keeps {Q : List Instr} {s : State} {off : Nat} {size : Nat} {path : Path} {b : Bursts} (h : s.Keeps Q) :
    PKeeps Q (State.apRead s off size path b) := by
  unfold State.apRead
  repeat' first
    | with_reducible assumption | with_reducible apply State.leaveIdle_keeps | with_reducible apply State.windowRead_keeps
    | with_reducible apply State.closedAccess_keeps | with_reducible apply State.pageRead_keeps
    | (with_reducible apply keeps_fst; with_reducible apply State.windowRead_keeps)
    | (with_reducible apply keeps_fst; with_reducible apply State.pageRead_keeps) | with_reducible apply keeps_ite
    | with_reducible exact keeps_fst (by with_reducible assumption) | with_reducible apply pkeeps_ite
    | with_reducible exact pkeeps_eq (by assumption) (by assumption) | with_reducible refine pkeeps_eq (by assumption) ?_
    | with_reducible exact keeps_of_p (by with_reducible assumption)
    | (extract_lets +onlyGivenNames x; (have : True := by clear_value x; clear * - x; exact is_state (by assumption)); clear this; refine (fun hx => ?_ : State.Keeps Q x → _) ?_ <;> [clear_value x; (dsimp -zeta only [x]; clear x)])
    | (extract_lets +onlyGivenNames x; (have : True := by clear_value x; clear * - x; exact is_pair (by assumption)); clear this; refine (fun hx => ?_ : PKeeps Q x → _) ?_ <;> [clear_value x; (dsimp -zeta only [x]; clear x)])
    | (extract_lets +onlyGivenNames x; clear_value x) | split | dsimp -zeta only | with_reducible apply pkeeps_mk

theorem State.apWrite_keeps {Q : List Instr} {s : State} {off : Nat} {size : Nat} {v : Nat} {path : Path} {b : Bursts} (h : s.Keeps Q) :
    PKeeps Q (State.apWrite s off size v path b) := by
  unfold State.apWrite
  repeat' first
    | with_reducible assumption | with_reducible apply State.leaveIdle_keeps | with_reducible apply State.windowWrite_keeps
    | with_reducible apply State.closedAccess_keeps | with_reducible apply State.pageWrite_keeps
    | (with_reducible apply keeps_fst; with_reducible apply State.windowWrite_keeps) | with_reducible apply keeps_ite
    | with_reducible exact keeps_fst (by with_reducible assumption) | with_reducible apply pkeeps_ite
    | with_reducible exact pkeeps_eq (by assumption) (by assumption) | with_reducible refine pkeeps_eq (by assumption) ?_
    | with_reducible exact keeps_of_p (by with_reducible assumption)
    | (extract_lets +onlyGivenNames x; (have : True := by clear_value x; clear * - x; exact is_state (by assumption)); clear this; refine (fun hx => ?_ : State.Keeps Q x → _) ?_ <;> [clear_value x; (dsimp -zeta only [x]; clear x)])
    | (extract_lets +onlyGivenNames x; (have : True := by clear_value x; clear * - x; exact is_pair (by assumption)); clear this; refine (fun hx => ?_ : PKeeps Q x → _) ?_ <;> [clear_value x; (dsimp -zeta only [x]; clear x)])
    | (extract_lets +onlyGivenNames x; clear_value x) | split | dsimp -zeta only | with_reducible apply pkeeps_mk

theorem State.readAt_keeps {Q : List Instr} {s : State} {off : Nat} {size : Nat} {path : Path} {b : Bursts} (h : s.Keeps Q) :
    PKeeps Q (State.readAt s off size path b) := by
  unfold State.readAt
  repeat' first
    | with_reducible assumption | with_reducible apply State.apRead_keeps
    | (with_reducible apply keeps_fst; with_reducible apply State.apRead_keeps) | with_reducible apply keeps_ite
    | with_reducible exact keeps_fst (by with_reducible assumption) | with_reducible apply pkeeps_ite
    | with_reducible exact pkeeps_eq (by assumption) (by assumption) | with_reducible refine pkeeps_eq (by assumption) ?_
    | with_reducible exact keeps_of_p (by with_reducible assumption) | split | dsimp -zeta only
    | with_reducible apply pkeeps_mk

theorem State.writeAt_keeps {Q : List Instr} {s : State} {off : Nat} {size : Nat} {v : Nat} {path : Path} {b : Bursts} (h : s.Keeps Q) :
    PKeeps Q (State.writeAt s off size v path b) := by
  unfold State.writeAt
  repeat' first
    | with_reducible assumption | with_reducible apply State.apWrite_keeps
    | (with_reducible apply keeps_fst; with_reducible apply State.apWrite_keeps) | with_reducible apply keeps_ite
    | with_reducible exact keeps_fst (by with_reducible assumption) | with_reducible apply pkeeps_ite
    | with_reducible exact pkeeps_eq (by assumption) (by assumption) | with_reducible refine pkeeps_eq (by assumption) ?_
    | with_reducible exact keeps_of_p (by with_reducible assumption) | split | dsimp -zeta only
    | with_reducible apply pkeeps_mk

theorem State.viRead_keeps {Q : List Instr} {s : State} {t : Nat} {o : Nat} {size : Nat} (h : s.Keeps Q) :
    PKeeps Q (State.viRead s t o size) := by
  unfold State.viRead
  repeat' first
    | with_reducible assumption | with_reducible apply State.put_keeps | with_reducible apply keeps_ite
    | with_reducible exact keeps_fst (by with_reducible assumption) | with_reducible apply pkeeps_ite
    | with_reducible exact pkeeps_eq (by assumption) (by assumption) | with_reducible refine pkeeps_eq (by assumption) ?_
    | with_reducible exact keeps_of_p (by with_reducible assumption)
    | (extract_lets +onlyGivenNames x; (have : True := by clear_value x; clear * - x; exact is_state (by assumption)); clear this; refine (fun hx => ?_ : State.Keeps Q x → _) ?_ <;> [clear_value x; (dsimp -zeta only [x]; clear x)])
    | (extract_lets +onlyGivenNames x; (have : True := by clear_value x; clear * - x; exact is_pair (by assumption)); clear this; refine (fun hx => ?_ : PKeeps Q x → _) ?_ <;> [clear_value x; (dsimp -zeta only [x]; clear x)])
    | (extract_lets +onlyGivenNames x; clear_value x) | fail_if_no_progress with_reducible rw [keeps_mk] | split
    | dsimp -zeta only | with_reducible apply pkeeps_mk

theorem State.viWrite_keeps {Q : List Instr} {s : State} {t : Nat} {o : Nat} {v : Nat} (h : s.Keeps Q) :
    (State.viWrite s t o v).Keeps Q := by
  unfold State.viWrite
  repeat' first
    | with_reducible assumption | with_reducible apply State.setVi_keeps | with_reducible apply State.faultTail_keeps
    | with_reducible apply State.viDoorbell_keeps | with_reducible apply keeps_ite
    | fail_if_no_progress with_reducible rw [keeps_mk] | split | dsimp -zeta only

theorem execWideRegisterRead_keeps {Q : List Instr} {path : Path} {off : BitVec 29} {size8 : Bool} {s : State} (h : s.Keeps Q) :
    OKeeps Q (execWideRegisterRead path off size8 s) := by
  unfold execWideRegisterRead
  repeat' first
    | with_reducible apply okeeps_next | with_reducible exact okeeps_fault | with_reducible apply okeeps_ite
    | with_reducible assumption | with_reducible apply State.wakeBy_keeps | with_reducible apply State.leaveIdle_keeps
    | with_reducible apply State.viRead_keeps | with_reducible apply State.emit_keeps
    | with_reducible apply State.readAt_keeps | (with_reducible apply keeps_fst; with_reducible apply State.viRead_keeps)
    | (with_reducible apply keeps_fst; with_reducible apply State.readAt_keeps) | with_reducible apply keeps_ite
    | with_reducible exact keeps_fst (by with_reducible assumption) | with_reducible apply pkeeps_ite
    | with_reducible exact pkeeps_eq (by assumption) (by assumption) | with_reducible refine pkeeps_eq (by assumption) ?_
    | with_reducible exact keeps_of_p (by with_reducible assumption)
    | (extract_lets +onlyGivenNames x; (have : True := by clear_value x; clear * - x; exact is_state (by assumption)); clear this; refine (fun hx => ?_ : State.Keeps Q x → _) ?_ <;> [clear_value x; (dsimp -zeta only [x]; clear x)])
    | (extract_lets +onlyGivenNames x; (have : True := by clear_value x; clear * - x; exact is_pair (by assumption)); clear this; refine (fun hx => ?_ : PKeeps Q x → _) ?_ <;> [clear_value x; (dsimp -zeta only [x]; clear x)])
    | (extract_lets +onlyGivenNames x; clear_value x) | fail_if_no_progress with_reducible rw [keeps_mk] | split
    | dsimp -zeta only | with_reducible apply pkeeps_mk

theorem execRegisterWrite_keeps {Q : List Instr} {path : Path} {off : BitVec 29} {size8 : Bool} {v : BitVec 64} {s : State} (h : s.Keeps Q) :
    OKeeps Q (execRegisterWrite path off size8 v s) := by
  unfold execRegisterWrite
  repeat' first
    | with_reducible apply okeeps_next | with_reducible exact okeeps_fault | with_reducible apply okeeps_ite
    | with_reducible assumption | with_reducible apply State.wakeBy_keeps | with_reducible apply State.leaveIdle_keeps
    | with_reducible apply State.viWrite_keeps | with_reducible apply State.writeAt_keeps
    | (with_reducible apply keeps_fst; with_reducible apply State.writeAt_keeps) | with_reducible apply keeps_ite
    | with_reducible exact keeps_fst (by with_reducible assumption) | with_reducible apply pkeeps_ite
    | with_reducible exact pkeeps_eq (by assumption) (by assumption) | with_reducible refine pkeeps_eq (by assumption) ?_
    | with_reducible exact keeps_of_p (by with_reducible assumption)
    | (extract_lets +onlyGivenNames x; (have : True := by clear_value x; clear * - x; exact is_state (by assumption)); clear this; refine (fun hx => ?_ : State.Keeps Q x → _) ?_ <;> [clear_value x; (dsimp -zeta only [x]; clear x)])
    | (extract_lets +onlyGivenNames x; (have : True := by clear_value x; clear * - x; exact is_pair (by assumption)); clear this; refine (fun hx => ?_ : PKeeps Q x → _) ?_ <;> [clear_value x; (dsimp -zeta only [x]; clear x)])
    | (extract_lets +onlyGivenNames x; clear_value x) | fail_if_no_progress with_reducible rw [keeps_mk] | split
    | dsimp -zeta only | with_reducible apply pkeeps_mk

theorem execDaWindowRead_keeps {Q : List Instr} {path : Path} {off : BitVec 25} {size8 : Bool} {b : Bursts} {s : State} (h : s.Keeps Q) :
    OKeeps Q (execDaWindowRead path off size8 b s) := by
  unfold execDaWindowRead
  repeat' first
    | with_reducible apply okeeps_next | with_reducible exact okeeps_fault | with_reducible apply okeeps_ite
    | with_reducible assumption | with_reducible apply State.wakeBy_keeps | with_reducible apply State.readAt_keeps
    | with_reducible apply State.emit_keeps | (with_reducible apply keeps_fst; with_reducible apply State.readAt_keeps)
    | with_reducible apply keeps_ite | with_reducible exact keeps_fst (by with_reducible assumption)
    | with_reducible apply pkeeps_ite | with_reducible exact pkeeps_eq (by assumption) (by assumption)
    | with_reducible refine pkeeps_eq (by assumption) ?_ | with_reducible exact keeps_of_p (by with_reducible assumption)
    | fail_if_no_progress with_reducible rw [keeps_mk] | split | dsimp -zeta only | with_reducible apply pkeeps_mk

theorem execDaWindowWrite_keeps {Q : List Instr} {path : Path} {off : BitVec 25} {size8 : Bool} {v : BitVec 64} {b : Bursts} {s : State} (h : s.Keeps Q) :
    OKeeps Q (execDaWindowWrite path off size8 v b s) := by
  unfold execDaWindowWrite
  repeat' first
    | with_reducible apply okeeps_next | with_reducible exact okeeps_fault | with_reducible apply okeeps_ite
    | with_reducible assumption | with_reducible apply State.wakeBy_keeps | with_reducible apply State.writeAt_keeps
    | (with_reducible apply keeps_fst; with_reducible apply State.writeAt_keeps) | with_reducible apply keeps_ite
    | with_reducible exact keeps_fst (by with_reducible assumption) | with_reducible apply pkeeps_ite
    | with_reducible exact pkeeps_eq (by assumption) (by assumption) | with_reducible refine pkeeps_eq (by assumption) ?_
    | with_reducible exact keeps_of_p (by with_reducible assumption)
    | (extract_lets +onlyGivenNames x; (have : True := by clear_value x; clear * - x; exact is_state (by assumption)); clear this; refine (fun hx => ?_ : State.Keeps Q x → _) ?_ <;> [clear_value x; (dsimp -zeta only [x]; clear x)])
    | (extract_lets +onlyGivenNames x; (have : True := by clear_value x; clear * - x; exact is_pair (by assumption)); clear this; refine (fun hx => ?_ : PKeeps Q x → _) ?_ <;> [clear_value x; (dsimp -zeta only [x]; clear x)])
    | (extract_lets +onlyGivenNames x; clear_value x) | split | dsimp -zeta only | with_reducible apply pkeeps_mk

end Sys2Proof.Machine
end

