-- ==== Sys2Proof/Laws/KeepsSideband.lean ====
section
/-!
SUPPORT. The meanings and operations of Machine/Sideband.lean keep a sound state and its queue.
-/
set_option linter.unusedTactic false
set_option linter.unusedSimpArgs false
set_option linter.unusedVariables false
set_option linter.unreachableTactic false

namespace Sys2Proof.Machine

theorem State.fenboTake_keeps {Q : List Instr} {s : State} {f : List Nat} (h : s.Keeps Q) :
    (State.fenboTake s f).Keeps Q := by
  unfold State.fenboTake
  repeat' first
    | with_reducible assumption | with_reducible apply keeps_ite | fail_if_no_progress with_reducible rw [keeps_mk] | split
    | dsimp -zeta only

theorem fenboRow_keeps {Q : List Instr} {op : Nat} {f : List (BitVec 8)} {s : State} (h : s.Keeps Q) :
    OKeeps Q (fenboRow op f s) := by
  unfold fenboRow
  repeat' first
    | with_reducible apply okeeps_next | with_reducible exact okeeps_fault | with_reducible apply okeeps_ite
    | with_reducible assumption | with_reducible apply State.fenboTake_keeps | with_reducible apply keeps_ite
    | (extract_lets +onlyGivenNames x; (have : True := by clear_value x; clear * - x; exact is_state (by assumption)); clear this; refine (fun hx => ?_ : State.Keeps Q x → _) ?_ <;> [clear_value x; (dsimp -zeta only [x]; clear x)])
    | (extract_lets +onlyGivenNames x; clear_value x) | split | dsimp -zeta only

theorem execFenboRd_keeps {Q : List Instr} {f : List (BitVec 8)} {s : State} (h : s.Keeps Q) :
    OKeeps Q (execFenboRd f s) := by
  unfold execFenboRd
  repeat' first
    | with_reducible apply okeeps_next | with_reducible exact okeeps_fault | with_reducible apply okeeps_ite
    | with_reducible assumption | with_reducible apply fenboRow_keeps | with_reducible apply keeps_ite | split
    | dsimp -zeta only

theorem execFenboWr_keeps {Q : List Instr} {f : List (BitVec 8)} {s : State} (h : s.Keeps Q) :
    OKeeps Q (execFenboWr f s) := by
  unfold execFenboWr
  repeat' first
    | with_reducible apply okeeps_next | with_reducible exact okeeps_fault | with_reducible apply okeeps_ite
    | with_reducible assumption | with_reducible apply fenboRow_keeps | with_reducible apply keeps_ite | split
    | dsimp -zeta only

theorem execSpiRd_keeps {Q : List Instr} {f : List (BitVec 8)} {s : State} (h : s.Keeps Q) :
    OKeeps Q (execSpiRd f s) := by
  unfold execSpiRd
  repeat' first
    | with_reducible apply okeeps_next | with_reducible exact okeeps_fault | with_reducible apply okeeps_ite
    | with_reducible assumption | with_reducible apply fenboRow_keeps | with_reducible apply keeps_ite | split
    | dsimp -zeta only

theorem execSpiProg_keeps {Q : List Instr} {f : List (BitVec 8)} {s : State} (h : s.Keeps Q) :
    OKeeps Q (execSpiProg f s) := by
  unfold execSpiProg
  repeat' first
    | with_reducible apply okeeps_next | with_reducible exact okeeps_fault | with_reducible apply okeeps_ite
    | with_reducible assumption | with_reducible apply fenboRow_keeps | with_reducible apply keeps_ite | split
    | dsimp -zeta only

theorem execSpiErase_keeps {Q : List Instr} {f : List (BitVec 8)} {s : State} (h : s.Keeps Q) :
    OKeeps Q (execSpiErase f s) := by
  unfold execSpiErase
  repeat' first
    | with_reducible apply okeeps_next | with_reducible exact okeeps_fault | with_reducible apply okeeps_ite
    | with_reducible assumption | with_reducible apply fenboRow_keeps | with_reducible apply keeps_ite | split
    | dsimp -zeta only

theorem execFenboStatus_keeps {Q : List Instr} {f : List (BitVec 8)} {s : State} (h : s.Keeps Q) :
    OKeeps Q (execFenboStatus f s) := by
  unfold execFenboStatus
  repeat' first
    | with_reducible apply okeeps_next | with_reducible exact okeeps_fault | with_reducible apply okeeps_ite
    | with_reducible assumption | with_reducible apply fenboRow_keeps | with_reducible apply keeps_ite | split
    | dsimp -zeta only

theorem execBadOp_keeps {Q : List Instr} {f : List (BitVec 8)} {s : State} (h : s.Keeps Q) :
    OKeeps Q (execBadOp f s) := by
  unfold execBadOp
  repeat' first
    | with_reducible apply okeeps_next | with_reducible exact okeeps_fault | with_reducible apply okeeps_ite
    | with_reducible assumption | with_reducible apply State.fenboTake_keeps | with_reducible apply keeps_ite | split
    | dsimp -zeta only

theorem State.fenboEnd_keeps {Q : List Instr} {s : State} {f : List Nat} {status : Nat} {data : List Nat} (h : s.Keeps Q) :
    (State.fenboEnd s f status data).Keeps Q := by
  unfold State.fenboEnd
  repeat' first
    | with_reducible assumption | with_reducible apply keeps_ite | fail_if_no_progress with_reducible rw [keeps_mk] | split
    | dsimp -zeta only

theorem Memory.wf_programPart {n : Nat} {m : List Host.Cell} {a : Nat} {bs : List Nat} (h : Memory.wf m = true) :
    Memory.wf (Memory.programPart n m a bs) = true := by
  induction bs generalizing m a with
  | nil => exact h
  | cons b bs ih => exact ih (Memory.wf_write m a _ h)

theorem Memory.wf_erasePart {n : Nat} {m : List Host.Cell} {k : Nat} (h : Memory.wf m = true) :
    Memory.wf (Memory.erasePart n m k) = true := by
  unfold Memory.erasePart
  induction m with
  | nil => rfl
  | cons x t ih =>
    obtain ⟨a, w⟩ := x
    have ⟨_, ha, ht⟩ := (Memory.wf_cons a w t).mp h
    have hk : ∀ c : Host.Cell, (if c.1 / 4096 = k then (c.1, c.2 ||| Config.flashPart n c.1) else c).1 = c.1 := by
      intro c; split <;> rfl
    rw [List.map_cons]
    obtain ⟨y, hy, hy1⟩ : ∃ y : Host.Cell, (if (a, w).1 / 4096 = k then ((a, w).1, (a, w).2 ||| Config.flashPart n (a, w).1)
        else (a, w)) = y ∧ y.1 = a := ⟨_, rfl, hk (a, w)⟩
    rw [hy, List.filter_cons]
    split
    · rename_i hv
      obtain ⟨y1, y2⟩ := y
      refine (Memory.wf_cons _ _ _).mpr ⟨by simpa using hv, fun p hp => ?_, ih ht⟩
      obtain ⟨c, hc, rfl⟩ := List.mem_map.mp (List.mem_filter.mp hp).1
      rw [hk, show y1 = a from hy1]
      exact ha c hc
    · exact ih ht

theorem State.spiDo_keeps {Q : List Instr} {s : State} {f : List Nat} {ok : Bool} (h : s.Keeps Q) :
    (State.spiDo s f ok).Keeps Q := by
  unfold State.spiDo
  repeat' first
    | with_reducible assumption | with_reducible apply State.tick_keeps | with_reducible apply keeps_ite
    | (extract_lets +onlyGivenNames x; (have : True := by clear_value x; clear * - x; exact is_state (by assumption)); clear this; refine (fun hx => ?_ : State.Keeps Q x → _) ?_ <;> [clear_value x; (dsimp -zeta only [x]; clear x)])
    | (extract_lets +onlyGivenNames x; clear_value x) | fail_if_no_progress with_reducible rw [keeps_mk]
    | with_reducible apply Memory.wf_program | with_reducible apply Memory.wf_erase | with_reducible apply Memory.wf_store
    | with_reducible apply Memory.wf_programPart | with_reducible apply Memory.wf_erasePart
    | with_reducible exact State.Keeps.flash_wf (by assumption) | with_reducible refine State.Keeps.flash_wf (q := Q) ?_
    | fail_if_no_progress with_reducible refine keeps_mkf ?_ ?_ | split | dsimp -zeta only

theorem State.fenboRun_keeps {Q : List Instr} {s : State} {f : List Nat} {flashOk : Bool} (h : s.Keeps Q) :
    (State.fenboRun s f flashOk).Keeps Q := by
  unfold State.fenboRun
  repeat' first
    | with_reducible assumption | with_reducible apply State.fenboEnd_keeps | with_reducible apply State.readAt_keeps
    | with_reducible apply State.writeAt_keeps | with_reducible apply State.spiDo_keeps
    | (with_reducible apply keeps_fst; with_reducible apply State.readAt_keeps)
    | (with_reducible apply keeps_fst; with_reducible apply State.writeAt_keeps) | with_reducible apply keeps_ite
    | with_reducible exact keeps_fst (by with_reducible assumption) | with_reducible apply pkeeps_ite
    | with_reducible exact pkeeps_eq (by assumption) (by assumption) | with_reducible refine pkeeps_eq (by assumption) ?_
    | with_reducible exact keeps_of_p (by with_reducible assumption)
    | (extract_lets +onlyGivenNames x; (have : True := by clear_value x; clear * - x; exact is_state (by assumption)); clear this; refine (fun hx => ?_ : State.Keeps Q x → _) ?_ <;> [clear_value x; (dsimp -zeta only [x]; clear x)])
    | (extract_lets +onlyGivenNames x; (have : True := by clear_value x; clear * - x; exact is_pair (by assumption)); clear this; refine (fun hx => ?_ : PKeeps Q x → _) ?_ <;> [clear_value x; (dsimp -zeta only [x]; clear x)])
    | (extract_lets +onlyGivenNames x; clear_value x) | fail_if_no_progress with_reducible rw [keeps_mk] | split
    | dsimp -zeta only | with_reducible apply pkeeps_mk

theorem execFenboOpDone_keeps {Q : List Instr} {flashOk : Bool} {s : State} (h : s.Keeps Q) :
    OKeeps Q (execFenboOpDone flashOk s) := by
  unfold execFenboOpDone
  repeat' first
    | with_reducible apply okeeps_next | with_reducible exact okeeps_fault | with_reducible apply okeeps_ite
    | with_reducible assumption | with_reducible apply State.fenboRun_keeps | with_reducible apply keeps_ite
    | fail_if_no_progress with_reducible rw [keeps_mk] | split | dsimp -zeta only

theorem execFenboResponse_keeps {Q : List Instr} {s : State} (h : s.Keeps Q) :
    OKeeps Q (execFenboResponse s) := by
  unfold execFenboResponse
  repeat' first
    | with_reducible apply okeeps_next | with_reducible exact okeeps_fault | with_reducible apply okeeps_ite
    | with_reducible assumption | with_reducible apply State.emit_keeps | with_reducible apply keeps_ite
    | fail_if_no_progress with_reducible rw [keeps_mk] | split | dsimp -zeta only

end Sys2Proof.Machine
end

