-- ==== Sys2Proof/Laws/KeepsBoot.lean ====
section
/-!
SUPPORT. The meanings and operations of Machine/Boot.lean keep a sound state and its queue.
-/
set_option linter.unusedTactic false
set_option linter.unusedSimpArgs false
set_option linter.unusedVariables false
set_option linter.unreachableTactic false

namespace Sys2Proof.Machine

theorem State.halt_keeps {Q : List Instr} {s : State} {cause : Nat} (h : s.Keeps Q) :
    (State.halt s cause).Keeps Q := by
  unfold State.halt
  repeat' first
    | with_reducible assumption | with_reducible apply State.dlDown_keeps | with_reducible apply State.put_keeps
    | with_reducible apply keeps_ite | with_reducible refine keeps_foldl (fun _ _ _ => ?_) ?_
    | with_reducible refine nkeeps_foldl (fun _ _ _ => ?_) ?_ | with_reducible refine npkeeps_foldl (fun _ _ _ => ?_) ?_
    | (extract_lets +onlyGivenNames x; (have : True := by clear_value x; clear * - x; exact is_state (by assumption)); clear this; refine (fun hx => ?_ : State.Keeps Q x → _) ?_ <;> [clear_value x; (dsimp -zeta only [x]; clear x)])
    | (extract_lets +onlyGivenNames x; clear_value x) | split | dsimp -zeta only

theorem State.applyReg_keeps {Q : List Instr} {s : State} {off : Nat} {v : Nat} (h : s.Keeps Q) :
    (State.applyReg s off v).Keeps Q := by
  unfold State.applyReg
  repeat' first
    | with_reducible assumption | with_reducible apply State.pageWrite_keeps | with_reducible apply State.telWrite_keeps
    | with_reducible apply State.writeFields_keeps | with_reducible apply keeps_ite
    | (extract_lets +onlyGivenNames x; (have : True := by clear_value x; clear * - x; exact is_state (by assumption)); clear this; refine (fun hx => ?_ : State.Keeps Q x → _) ?_ <;> [clear_value x; (dsimp -zeta only [x]; clear x)])
    | (extract_lets +onlyGivenNames x; clear_value x) | fail_if_no_progress with_reducible rw [keeps_mk] | split
    | dsimp -zeta only

theorem State.applyRegs_keeps {Q : List Instr} {s : State} {l : List (BitVec 26 × BitVec 32)} (h : s.Keeps Q) :
    (State.applyRegs s l).Keeps Q := by
  unfold State.applyRegs
  repeat' first
    | with_reducible assumption | with_reducible apply State.applyReg_keeps | with_reducible apply keeps_ite
    | with_reducible refine keeps_foldl (fun _ _ _ => ?_) ?_ | with_reducible refine nkeeps_foldl (fun _ _ _ => ?_) ?_
    | with_reducible refine npkeeps_foldl (fun _ _ _ => ?_) ?_ | split | dsimp -zeta only

theorem State.applyTables_keeps {Q : List Instr} {s : State} {l : List (Fin 24 × List (BitVec 64))} (h : s.Keeps Q) :
    (State.applyTables s l).Keeps Q := by
  unfold State.applyTables
  repeat' first
    | with_reducible assumption | with_reducible apply State.setSqr_keeps | with_reducible apply State.put_keeps
    | with_reducible apply keeps_ite | with_reducible refine keeps_foldl (fun _ _ _ => ?_) ?_
    | with_reducible refine nkeeps_foldl (fun _ _ _ => ?_) ?_ | with_reducible refine npkeeps_foldl (fun _ _ _ => ?_) ?_
    | (extract_lets +onlyGivenNames x; (have : True := by clear_value x; clear * - x; exact is_state (by assumption)); clear this; refine (fun hx => ?_ : State.Keeps Q x → _) ?_ <;> [clear_value x; (dsimp -zeta only [x]; clear x)])
    | (extract_lets +onlyGivenNames x; clear_value x) | fail_if_no_progress with_reducible rw [keeps_mk] | split
    | dsimp -zeta only

theorem State.mirrorPolicy_keeps {Q : List Instr} {s : State} (h : s.Keeps Q) :
    (State.mirrorPolicy s).Keeps Q := by
  unfold State.mirrorPolicy
  repeat' first
    | with_reducible assumption | with_reducible apply State.applyPolicy_keeps | with_reducible apply keeps_ite
    | with_reducible refine keeps_foldl (fun _ _ _ => ?_) ?_ | with_reducible refine nkeeps_foldl (fun _ _ _ => ?_) ?_
    | with_reducible refine npkeeps_foldl (fun _ _ _ => ?_) ?_ | split | dsimp -zeta only

theorem State.loadPolicy_keeps {Q : List Instr} {s : State} {i : Image} (h : s.Keeps Q) :
    (State.loadPolicy s i).Keeps Q := by
  unfold State.loadPolicy
  repeat' first
    | with_reducible assumption | with_reducible apply State.put_keeps | with_reducible apply State.mirrorPolicy_keeps
    | with_reducible apply keeps_ite | with_reducible refine keeps_foldl (fun _ _ _ => ?_) ?_
    | with_reducible refine nkeeps_foldl (fun _ _ _ => ?_) ?_ | with_reducible refine npkeeps_foldl (fun _ _ _ => ?_) ?_
    | fail_if_no_progress with_reducible rw [keeps_mk] | split | dsimp -zeta only

theorem State.loadClocks_keeps {Q : List Instr} {s : State} {i : Image} (h : s.Keeps Q) :
    (State.loadClocks s i).Keeps Q := by
  unfold State.loadClocks
  repeat' first
    | with_reducible assumption | with_reducible apply State.put_keeps | with_reducible apply State.autoArm_keeps
    | with_reducible apply State.writeRootSel_keeps | with_reducible apply State.writeArm_keeps
    | with_reducible apply keeps_ite
    | (extract_lets +onlyGivenNames x; (have : True := by clear_value x; clear * - x; exact is_state (by assumption)); clear this; refine (fun hx => ?_ : State.Keeps Q x → _) ?_ <;> [clear_value x; (dsimp -zeta only [x]; clear x)])
    | (extract_lets +onlyGivenNames x; clear_value x) | fail_if_no_progress with_reducible rw [keeps_mk] | split
    | dsimp -zeta only

theorem State.restrict_keeps {Q : List Instr} {s : State} {span : Nat} {reason : Nat} (h : s.Keeps Q) :
    (State.restrict s span reason).Keeps Q := by
  unfold State.restrict
  repeat' first
    | with_reducible assumption | with_reducible apply State.put_keeps | with_reducible apply State.raise_keeps
    | with_reducible apply keeps_ite | split | dsimp -zeta only

theorem State.checkSpans_keeps {Q : List Instr} {s : State} (h : s.Keeps Q) :
    (State.checkSpans s).Keeps Q := by
  unfold State.checkSpans
  repeat' first
    | with_reducible assumption | with_reducible apply State.put_keeps | with_reducible apply State.restrict_keeps
    | with_reducible apply keeps_ite | with_reducible refine keeps_foldl (fun _ _ _ => ?_) ?_
    | with_reducible refine nkeeps_foldl (fun _ _ _ => ?_) ?_ | with_reducible refine npkeeps_foldl (fun _ _ _ => ?_) ?_
    | (extract_lets +onlyGivenNames x; (have : True := by clear_value x; clear * - x; exact is_state (by assumption)); clear this; refine (fun hx => ?_ : State.Keeps Q x → _) ?_ <;> [clear_value x; (dsimp -zeta only [x]; clear x)])
    | (extract_lets +onlyGivenNames x; clear_value x) | split | dsimp -zeta only

theorem State.jnlScan_keeps {Q : List Instr} {s : State} (h : s.Keeps Q) :
    (State.jnlScan s).Keeps Q := by
  unfold State.jnlScan
  repeat' first
    | with_reducible assumption | with_reducible apply keeps_ite | with_reducible refine keeps_foldl (fun _ _ _ => ?_) ?_
    | with_reducible refine nkeeps_foldl (fun _ _ _ => ?_) ?_ | with_reducible refine npkeeps_foldl (fun _ _ _ => ?_) ?_
    | (extract_lets +onlyGivenNames x; (have : True := by clear_value x; clear * - x; exact is_state (by assumption)); clear this; refine (fun hx => ?_ : State.Keeps Q x → _) ?_ <;> [clear_value x; (dsimp -zeta only [x]; clear x)])
    | (extract_lets +onlyGivenNames x; clear_value x) | fail_if_no_progress with_reducible rw [keeps_mk] | split
    | dsimp -zeta only

theorem State.applyImage_keeps {Q : List Instr} {s : State} {slot : Nat} {second : Bool} {i : Image} (h : s.Keeps Q) :
    (State.applyImage s slot second i).Keeps Q := by
  unfold State.applyImage
  repeat' first
    | with_reducible assumption | with_reducible apply State.put_keeps | with_reducible apply State.raise_keeps
    | with_reducible apply State.applyRegs_keeps | with_reducible apply State.applyTables_keeps
    | with_reducible apply State.loadPolicy_keeps | with_reducible apply State.loadClocks_keeps
    | with_reducible apply State.checkSpans_keeps | with_reducible apply State.jnlScan_keeps
    | with_reducible apply keeps_ite
    | (extract_lets +onlyGivenNames x; (have : True := by clear_value x; clear * - x; exact is_state (by assumption)); clear this; refine (fun hx => ?_ : State.Keeps Q x → _) ?_ <;> [clear_value x; (dsimp -zeta only [x]; clear x)])
    | (extract_lets +onlyGivenNames x; clear_value x) | fail_if_no_progress with_reducible rw [keeps_mk] | split
    | dsimp -zeta only

theorem execBootImageRead_keeps {Q : List Instr} {sfdp : Bool} {a : Option Image} {b : Option Image} {s : State} (h : s.Keeps Q) :
    OKeeps Q (execBootImageRead sfdp a b s) := by
  unfold execBootImageRead
  repeat' first
    | with_reducible apply okeeps_next | with_reducible exact okeeps_fault | with_reducible apply okeeps_ite
    | with_reducible assumption | with_reducible apply State.halt_keeps | with_reducible apply State.applyImage_keeps
    | with_reducible apply keeps_ite | fail_if_no_progress with_reducible rw [keeps_mk] | split | dsimp -zeta only

theorem State.loadTiming_keeps {Q : List Instr} {s : State} {n : Nat} {set : Nat} {words : List (BitVec 32)} (h : s.Keeps Q) :
    (State.loadTiming s n set words).Keeps Q := by
  unfold State.loadTiming
  repeat' first
    | with_reducible assumption | with_reducible apply State.put_keeps | with_reducible apply keeps_ite
    | with_reducible refine keeps_foldl (fun _ _ _ => ?_) ?_ | with_reducible refine nkeeps_foldl (fun _ _ _ => ?_) ?_
    | with_reducible refine npkeeps_foldl (fun _ _ _ => ?_) ?_ | split | dsimp -zeta only

theorem State.defaultSpare_keeps {Q : List Instr} {s : State} {i : Image} {n : Nat} (h : s.Keeps Q) :
    (State.defaultSpare s i n).Keeps Q := by
  unfold State.defaultSpare
  repeat' first
    | with_reducible assumption | with_reducible apply State.put_keeps | with_reducible apply keeps_ite
    | (extract_lets +onlyGivenNames x; (have : True := by clear_value x; clear * - x; exact is_state (by assumption)); clear this; refine (fun hx => ?_ : State.Keeps Q x → _) ?_ <;> [clear_value x; (dsimp -zeta only [x]; clear x)])
    | (extract_lets +onlyGivenNames x; clear_value x) | split | dsimp -zeta only

theorem State.enable_keeps {Q : List Instr} {s : State} {i : Image} {n : Nat} {d : Spd} {rate : Nat} (h : s.Keeps Q) :
    (State.enable s i n d rate).Keeps Q := by
  unfold State.enable
  repeat' first
    | with_reducible assumption | with_reducible apply State.put_keeps | with_reducible apply State.defaultSpare_keeps
    | with_reducible apply State.loadTiming_keeps | with_reducible apply State.setPier_keeps
    | with_reducible apply keeps_ite
    | (extract_lets +onlyGivenNames x; (have : True := by clear_value x; clear * - x; exact is_state (by assumption)); clear this; refine (fun hx => ?_ : State.Keeps Q x → _) ?_ <;> [clear_value x; (dsimp -zeta only [x]; clear x)])
    | (extract_lets +onlyGivenNames x; clear_value x) | fail_if_no_progress with_reducible rw [keeps_mk] | split
    | dsimp -zeta only

theorem State.disable_keeps {Q : List Instr} {s : State} {n : Nat} (h : s.Keeps Q) :
    (State.disable s n).Keeps Q := by
  unfold State.disable
  repeat' first
    | with_reducible assumption | with_reducible apply State.put_keeps | with_reducible apply State.raise_keeps
    | with_reducible apply keeps_ite
    | (extract_lets +onlyGivenNames x; (have : True := by clear_value x; clear * - x; exact is_state (by assumption)); clear this; refine (fun hx => ?_ : State.Keeps Q x → _) ?_ <;> [clear_value x; (dsimp -zeta only [x]; clear x)])
    | (extract_lets +onlyGivenNames x; clear_value x) | split | dsimp -zeta only

theorem State.boundary_keeps {Q : List Instr} {s : State} (h : s.Keeps Q) :
    PKeeps Q (State.boundary s) := by
  unfold State.boundary
  repeat' first
    | with_reducible assumption | with_reducible apply State.put_keeps | with_reducible apply State.restrict_keeps
    | with_reducible apply keeps_ite | with_reducible exact keeps_fst (by with_reducible assumption)
    | with_reducible apply pkeeps_ite | with_reducible exact pkeeps_eq (by assumption) (by assumption)
    | with_reducible refine pkeeps_eq (by assumption) ?_ | with_reducible refine keeps_foldl (fun _ _ _ => ?_) ?_
    | with_reducible refine pkeeps_foldl (fun _ _ _ => ?_) ?_ | with_reducible refine nkeeps_foldl (fun _ _ _ => ?_) ?_
    | with_reducible refine npkeeps_foldl (fun _ _ _ => ?_) ?_
    | with_reducible exact keeps_of_p (by with_reducible assumption)
    | (extract_lets +onlyGivenNames x; (have : True := by clear_value x; clear * - x; exact is_state (by assumption)); clear this; refine (fun hx => ?_ : State.Keeps Q x → _) ?_ <;> [clear_value x; (dsimp -zeta only [x]; clear x)])
    | (extract_lets +onlyGivenNames x; (have : True := by clear_value x; clear * - x; exact is_pair (by assumption)); clear this; refine (fun hx => ?_ : PKeeps Q x → _) ?_ <;> [clear_value x; (dsimp -zeta only [x]; clear x)])
    | (extract_lets +onlyGivenNames x; clear_value x) | split | dsimp -zeta only | with_reducible apply pkeeps_mk

theorem State.retireAtBoot_keeps {Q : List Instr} {s : State} {n : Nat} {r : Nat} (h : s.Keeps Q) :
    (State.retireAtBoot s n r).Keeps Q := by
  unfold State.retireAtBoot
  repeat' first
    | with_reducible assumption | with_reducible apply State.setPier_keeps | with_reducible apply State.put_keeps
    | with_reducible apply keeps_ite
    | (extract_lets +onlyGivenNames x; (have : True := by clear_value x; clear * - x; exact is_state (by assumption)); clear this; refine (fun hx => ?_ : State.Keeps Q x → _) ?_ <;> [clear_value x; (dsimp -zeta only [x]; clear x)])
    | (extract_lets +onlyGivenNames x; clear_value x) | fail_if_no_progress with_reducible rw [keeps_mk] | split
    | dsimp -zeta only

theorem State.spareAtBoot_keeps {Q : List Instr} {s : State} {n : Nat} {r : Nat} (h : s.Keeps Q) :
    (State.spareAtBoot s n r).Keeps Q := by
  unfold State.spareAtBoot
  repeat' first
    | with_reducible assumption | with_reducible apply State.put_keeps | with_reducible apply State.setPier_keeps
    | with_reducible apply keeps_ite
    | (extract_lets +onlyGivenNames x; (have : True := by clear_value x; clear * - x; exact is_state (by assumption)); clear this; refine (fun hx => ?_ : State.Keeps Q x → _) ?_ <;> [clear_value x; (dsimp -zeta only [x]; clear x)])
    | (extract_lets +onlyGivenNames x; clear_value x) | fail_if_no_progress with_reducible rw [keeps_mk] | split
    | dsimp -zeta only

theorem State.disableAll_keeps {Q : List Instr} {s : State} {l : List Nat} (h : s.Keeps Q) :
    (State.disableAll s l).Keeps Q := by
  unfold State.disableAll
  repeat' first
    | with_reducible assumption | with_reducible apply State.disable_keeps | with_reducible apply keeps_ite
    | with_reducible refine keeps_foldl (fun _ _ _ => ?_) ?_ | with_reducible refine nkeeps_foldl (fun _ _ _ => ?_) ?_
    | with_reducible refine npkeeps_foldl (fun _ _ _ => ?_) ?_ | split | dsimp -zeta only

theorem State.applyHealth_keeps {Q : List Instr} {s : State} (h : s.Keeps Q) :
    (State.applyHealth s).Keeps Q := by
  unfold State.applyHealth
  repeat' first
    | with_reducible assumption | with_reducible apply State.put_keeps | with_reducible apply State.raise_keeps
    | with_reducible apply State.setPier_keeps | with_reducible apply State.retireAtBoot_keeps
    | with_reducible apply State.spareAtBoot_keeps | with_reducible apply State.disableAll_keeps
    | with_reducible apply keeps_ite | with_reducible refine keeps_foldl (fun _ _ _ => ?_) ?_
    | with_reducible refine nkeeps_foldl (fun _ _ _ => ?_) ?_ | with_reducible refine npkeeps_foldl (fun _ _ _ => ?_) ?_
    | (extract_lets +onlyGivenNames x; (have : True := by clear_value x; clear * - x; exact is_state (by assumption)); clear this; refine (fun hx => ?_ : State.Keeps Q x → _) ?_ <;> [clear_value x; (dsimp -zeta only [x]; clear x)])
    | (extract_lets +onlyGivenNames x; clear_value x) | fail_if_no_progress with_reducible rw [keeps_mk] | split
    | dsimp -zeta only

theorem State.nextStage_keeps {Q : List Instr} {s : State} {stage : Nat} (h : s.Keeps Q) :
    (State.nextStage s stage).Keeps Q := by
  unfold State.nextStage
  repeat' first
    | with_reducible assumption | with_reducible apply State.boundary_keeps | with_reducible apply State.halt_keeps
    | with_reducible apply State.put_keeps | (with_reducible apply keeps_fst; with_reducible apply State.boundary_keeps)
    | with_reducible apply keeps_ite | with_reducible exact keeps_fst (by with_reducible assumption)
    | with_reducible apply pkeeps_ite | with_reducible exact pkeeps_eq (by assumption) (by assumption)
    | with_reducible refine pkeeps_eq (by assumption) ?_ | with_reducible exact keeps_of_p (by with_reducible assumption)
    | fail_if_no_progress with_reducible rw [keeps_mk] | split | dsimp -zeta only | with_reducible apply pkeeps_mk

theorem State.populate_keeps {Q : List Instr} {s : State} {i : Image} {spd : List (Option Spd)} (h : s.Keeps Q) :
    (State.populate s i spd).Keeps Q := by
  unfold State.populate
  repeat' first
    | with_reducible assumption | with_reducible apply State.enable_keeps | with_reducible apply State.disableAll_keeps
    | with_reducible apply State.applyHealth_keeps | with_reducible apply State.nextStage_keeps
    | with_reducible apply keeps_ite | with_reducible refine keeps_foldl (fun _ _ _ => ?_) ?_
    | with_reducible refine nkeeps_foldl (fun _ _ _ => ?_) ?_ | with_reducible refine npkeeps_foldl (fun _ _ _ => ?_) ?_
    | (extract_lets +onlyGivenNames x; (have : True := by clear_value x; clear * - x; exact is_state (by assumption)); clear this; refine (fun hx => ?_ : State.Keeps Q x → _) ?_ <;> [clear_value x; (dsimp -zeta only [x]; clear x)])
    | (extract_lets +onlyGivenNames x; clear_value x) | fail_if_no_progress with_reducible rw [keeps_mk] | split
    | dsimp -zeta only

theorem execPopulationCheck_keeps {Q : List Instr} {spd : List (Option Spd)} {s : State} (h : s.Keeps Q) :
    OKeeps Q (execPopulationCheck spd s) := by
  unfold execPopulationCheck
  repeat' first
    | with_reducible apply okeeps_next | with_reducible exact okeeps_fault | with_reducible apply okeeps_ite
    | with_reducible assumption | with_reducible apply State.populate_keeps | with_reducible apply keeps_ite
    | fail_if_no_progress with_reducible rw [keeps_mk] | split | dsimp -zeta only

theorem execDramTrainingDone_keeps {Q : List Instr} {failed : BitVec 16} {s : State} (h : s.Keeps Q) :
    OKeeps Q (execDramTrainingDone failed s) := by
  unfold execDramTrainingDone
  repeat' first
    | with_reducible apply okeeps_next | with_reducible exact okeeps_fault | with_reducible apply okeeps_ite
    | with_reducible assumption | with_reducible apply State.disableAll_keeps | with_reducible apply State.nextStage_keeps
    | with_reducible apply keeps_ite | split | dsimp -zeta only

theorem execMetadataZeroDone_keeps {Q : List Instr} {s : State} (h : s.Keeps Q) :
    OKeeps Q (execMetadataZeroDone s) := by
  unfold execMetadataZeroDone
  repeat' first
    | with_reducible apply okeeps_next | with_reducible exact okeeps_fault | with_reducible apply okeeps_ite
    | with_reducible assumption | with_reducible apply State.put_keeps | with_reducible apply keeps_ite
    | fail_if_no_progress with_reducible rw [keeps_mk] | split | dsimp -zeta only

theorem State.layPools_keeps {Q : List Instr} {s : State} (h : s.Keeps Q) :
    (State.layPools s).Keeps Q := by
  unfold State.layPools
  repeat' first
    | with_reducible assumption | with_reducible apply State.put_keeps | with_reducible apply keeps_ite
    | with_reducible refine keeps_foldl (fun _ _ _ => ?_) ?_ | with_reducible refine nkeeps_foldl (fun _ _ _ => ?_) ?_
    | with_reducible refine npkeeps_foldl (fun _ _ _ => ?_) ?_
    | (extract_lets +onlyGivenNames x; (have : True := by clear_value x; clear * - x; exact is_state (by assumption)); clear this; refine (fun hx => ?_ : State.Keeps Q x → _) ?_ <;> [clear_value x; (dsimp -zeta only [x]; clear x)])
    | (extract_lets +onlyGivenNames x; clear_value x) | fail_if_no_progress with_reducible rw [keeps_mk] | split
    | dsimp -zeta only

theorem State.releaseEngines_keeps {Q : List Instr} {s : State} (h : s.Keeps Q) :
    (State.releaseEngines s).Keeps Q := by
  unfold State.releaseEngines
  repeat' first
    | with_reducible assumption | with_reducible apply State.setEng_keeps | with_reducible apply State.put_keeps
    | with_reducible apply keeps_ite | with_reducible refine keeps_foldl (fun _ _ _ => ?_) ?_
    | with_reducible refine nkeeps_foldl (fun _ _ _ => ?_) ?_ | with_reducible refine npkeeps_foldl (fun _ _ _ => ?_) ?_
    | (extract_lets +onlyGivenNames x; (have : True := by clear_value x; clear * - x; exact is_state (by assumption)); clear this; refine (fun hx => ?_ : State.Keeps Q x → _) ?_ <;> [clear_value x; (dsimp -zeta only [x]; clear x)])
    | (extract_lets +onlyGivenNames x; clear_value x) | fail_if_no_progress with_reducible rw [keeps_mk] | split
    | dsimp -zeta only

theorem State.startPiers_keeps {Q : List Instr} {s : State} (h : s.Keeps Q) :
    (State.startPiers s).Keeps Q := by
  unfold State.startPiers
  repeat' first
    | with_reducible assumption | with_reducible apply State.startScrub_keeps | with_reducible apply State.report_keeps
    | with_reducible apply keeps_ite | with_reducible refine keeps_foldl (fun _ _ _ => ?_) ?_
    | with_reducible refine nkeeps_foldl (fun _ _ _ => ?_) ?_ | with_reducible refine npkeeps_foldl (fun _ _ _ => ?_) ?_
    | split | dsimp -zeta only

theorem State.poolsUp_keeps {Q : List Instr} {s : State} (h : s.Keeps Q) :
    (State.poolsUp s).Keeps Q := by
  unfold State.poolsUp
  repeat' first
    | with_reducible assumption | with_reducible apply State.layPools_keeps
    | with_reducible apply State.releaseEngines_keeps | with_reducible apply keeps_ite
    | fail_if_no_progress with_reducible rw [keeps_mk] | split | dsimp -zeta only

theorem State.tokensFull_keeps {Q : List Instr} {s : State} (h : s.Keeps Q) :
    (State.tokensFull s).Keeps Q := by
  unfold State.tokensFull
  repeat' first
    | with_reducible assumption | with_reducible apply keeps_ite | fail_if_no_progress with_reducible rw [keeps_mk] | split
    | dsimp -zeta only

theorem State.bootDone_keeps {Q : List Instr} {s : State} (h : s.Keeps Q) :
    (State.bootDone s).Keeps Q := by
  unfold State.bootDone
  repeat' first
    | with_reducible assumption | with_reducible apply State.raise_keeps | with_reducible apply keeps_ite
    | fail_if_no_progress with_reducible rw [keeps_mk] | split | dsimp -zeta only

theorem State.startLaps_keeps {Q : List Instr} {s : State} (h : s.Keeps Q) :
    (State.startLaps s).Keeps Q := by
  unfold State.startLaps
  repeat' first
    | with_reducible assumption | with_reducible apply State.writeLapCtl_keeps | with_reducible apply keeps_ite
    | (extract_lets +onlyGivenNames x; (have : True := by clear_value x; clear * - x; exact is_state (by assumption)); clear this; refine (fun hx => ?_ : State.Keeps Q x → _) ?_ <;> [clear_value x; (dsimp -zeta only [x]; clear x)])
    | (extract_lets +onlyGivenNames x; clear_value x) | split | dsimp -zeta only

theorem execPoolAllocation_keeps {Q : List Instr} {s : State} (h : s.Keeps Q) :
    OKeeps Q (execPoolAllocation s) := by
  unfold execPoolAllocation
  repeat' first
    | with_reducible apply okeeps_next | with_reducible exact okeeps_fault | with_reducible apply okeeps_ite
    | with_reducible assumption | with_reducible apply State.poolsUp_keeps | with_reducible apply State.tokensFull_keeps
    | with_reducible apply State.put_keeps | with_reducible apply State.startPiers_keeps
    | with_reducible apply State.startLaps_keeps | with_reducible apply State.recordHeld_keeps
    | with_reducible apply State.bootDone_keeps | with_reducible apply keeps_ite | split | dsimp -zeta only

theorem State.warmLogic_keeps {Q : List Instr} {s : State} (h : s.Keeps Q) : (State.warmLogic s).Keeps Q :=
  ⟨h.1, h.2.1, h.2.2.1, SMap.sorted_filter _ _ h.regs_sorted, h.state_le, h.trans_le⟩

theorem State.rereg_keeps {Q : List Instr} {s : State} {off : Nat} {v : Nat} (h : s.Keeps Q) :
    (State.rereg s off v).Keeps Q := by
  unfold State.rereg
  repeat' first
    | with_reducible assumption | with_reducible apply State.telWrite_keeps | with_reducible apply State.writeFld_keeps
    | with_reducible apply keeps_ite | with_reducible refine keeps_foldl (fun _ _ _ => ?_) ?_
    | with_reducible refine nkeeps_foldl (fun _ _ _ => ?_) ?_ | with_reducible refine npkeeps_foldl (fun _ _ _ => ?_) ?_
    | (extract_lets +onlyGivenNames x; (have : True := by clear_value x; clear * - x; exact is_state (by assumption)); clear this; refine (fun hx => ?_ : State.Keeps Q x → _) ?_ <;> [clear_value x; (dsimp -zeta only [x]; clear x)])
    | (extract_lets +onlyGivenNames x; clear_value x) | fail_if_no_progress with_reducible rw [keeps_mk] | split
    | dsimp -zeta only

theorem State.warmEnd_keeps {Q : List Instr} {s : State} (h : s.Keeps Q) :
    (State.warmEnd s).Keeps Q := by
  unfold State.warmEnd
  repeat' first
    | with_reducible assumption | with_reducible apply State.warmLogic_keeps | with_reducible apply State.rereg_keeps
    | with_reducible apply State.mirrorPolicy_keeps | with_reducible apply State.reinitLinks_keeps
    | with_reducible apply State.allPauses_keeps | with_reducible apply State.put_keeps
    | with_reducible apply State.engineLoad_keeps | with_reducible apply State.report_keeps
    | with_reducible apply State.startLaps_keeps | with_reducible apply keeps_ite
    | with_reducible refine keeps_foldl (fun _ _ _ => ?_) ?_ | with_reducible refine nkeeps_foldl (fun _ _ _ => ?_) ?_
    | with_reducible refine npkeeps_foldl (fun _ _ _ => ?_) ?_
    | (extract_lets +onlyGivenNames x; (have : True := by clear_value x; clear * - x; exact is_state (by assumption)); clear this; refine (fun hx => ?_ : State.Keeps Q x → _) ?_ <;> [clear_value x; (dsimp -zeta only [x]; clear x)])
    | (extract_lets +onlyGivenNames x; clear_value x) | fail_if_no_progress with_reducible rw [keeps_mk] | split
    | dsimp -zeta only

theorem execWarmResetDone_keeps {Q : List Instr} {s : State} (h : s.Keeps Q) :
    OKeeps Q (execWarmResetDone s) := by
  unfold execWarmResetDone
  repeat' first
    | with_reducible apply okeeps_next | with_reducible exact okeeps_fault | with_reducible apply okeeps_ite
    | with_reducible assumption | with_reducible apply State.warmEnd_keeps | with_reducible apply State.raise_keeps
    | with_reducible apply keeps_ite | split | dsimp -zeta only

end Sys2Proof.Machine
end

