-- ==== Sys2Proof/Laws/Layout.lean ====
section
/-! SUPPORT. Bounds of the codes, and what a line made from its side fields holds: its side bits as a number, their upper part,
and its own CRC-40. -/

set_option exponentiation.threshold 1000

namespace Sys2Proof.Machine

theorem crcBits_lt (w gen n x c : Nat) (hg : gen < 2 ^ w) (hc : c < 2 ^ w) : crcBits w gen n x c < 2 ^ w := by
  induction n generalizing c with
  | zero => exact hc
  | succ n ih =>
    unfold crcBits
    apply ih
    unfold crcStep
    have : 2 * c % 2 ^ w < 2 ^ w := Nat.mod_lt _ (by positivity)
    simp only; split
    · exact Nat.xor_lt_two_pow this hg
    · exact this
theorem crcBytes_lt (w gen c : Nat) (bs : List Nat) (hg : gen < 2 ^ w) (hc : c < 2 ^ w) : crcBytes w gen c bs < 2 ^ w := by
  unfold crcBytes
  induction bs generalizing c with
  | nil => exact hc
  | cons b t ih => exact ih _ (crcBits_lt _ _ _ _ _ hg hc)
theorem crc40_lt (a b c d : Nat) : crc40 a b c d < 2 ^ 40 := by
  unfold crc40
  apply crcBytes_lt _ _ _ _ (by norm_num)
  apply crcBits_lt _ _ _ _ _ (by norm_num)
  apply crcBits_lt _ _ _ _ _ (by norm_num)
  exact crcBits_lt _ _ _ _ _ (by norm_num) (by norm_num)

theorem mk_side (seed da : Nat) (data : BitVec 512) (hi : Nat) (h : hi < 2 ^ 88) :
    (mkLine seed da data hi).side.toNat = 2 ^ 40 * hi + crc40 seed (da / 64) hi data.toNat := by
  have := crc40_lt seed (da / 64) hi data.toNat
  unfold mkLine; simp only [BitVec.toNat_ofNat]
  apply Nat.mod_eq_of_lt; omega
theorem mk_hi (seed da : Nat) (data : BitVec 512) (hi : Nat) (h : hi < 2 ^ 88) : (mkLine seed da data hi).hi = hi := by
  have := crc40_lt seed (da / 64) hi data.toNat
  unfold Line.hi; rw [mk_side _ _ _ _ h]; omega
theorem mk_crcOk (seed da : Nat) (data : BitVec 512) (hi : Nat) (h : hi < 2 ^ 88) : (mkLine seed da data hi).crcOk seed da = true := by
  have := crc40_lt seed (da / 64) hi data.toNat
  unfold Line.crcOk Line.crc
  rw [mk_hi _ _ _ _ h, mk_side _ _ _ _ h]
  have hd : (mkLine seed da data hi).data = data := rfl
  rw [hd]; simp; omega
theorem sideHi_lt (tag sh ds ow ti : Nat) (p m : Bool) (k : Nat) : sideHi tag sh ds ow ti p m k < 2 ^ 80 := by
  unfold sideHi b2n; split <;> split <;> omega

end Sys2Proof.Machine
end

