-- ==== Sys2Proof/Machine/Package.lean ====
section
/-!
DEFINITION. What the package and its environment are (R13, R416 to R419, R422 to R426, R428 to R432): the ball map, the sideband
addresses, the rails with their ranges, the board's components, input levels, the lid temperature, the mechanical data, the service
life and the availability figures.
-/
namespace Sys2Proof.Machine

/-! ### The ball map (R416, R417) -/

/-- Power and ground nets. -/
inductive Net where
  | vddCore | vddSram | vddqDdr | vddSerdesLv | vddSerdesHv | vddAon | vddIo | vss
  deriving DecidableEq, Repr

/-- The zones of the array. -/
inductive Zone where
  | sideband | topRight | bottom | guard | core
  | channel (n : Nat)
  | port (k : Nat)
  deriving DecidableEq, Repr

/-- What a ball carries: a signal, a net, or one of the nets whose numbers alone a zone gives. -/
inductive Ball where
  | signal (name : String)
  | net (n : Net)
  | anyOf (l : List (Net × Nat))
  deriving DecidableEq, Repr

/-- The zone of ball row.column, where there is one (R416). -/
def zoneOf (r c : Nat) : Option Zone :=
  if r < 1 ∨ 77 < r ∨ c < 1 ∨ 77 < c then none
  else if c ≤ 24 ∨ 54 ≤ c then
    if r ≤ 2 then some (if c ≤ 24 then .sideband else .topRight)
    else if 75 ≤ r then some .bottom
    else some (.channel ((r - 3) / 9 + if c ≤ 24 then 0 else 8))
  else if r ≤ 24 ∨ 54 ≤ r then some (if c = 53 then .guard else .port ((c - 25) / 7 + if r ≤ 24 then 0 else 4))
  else some .core

/-- Millimetres right of the package centre, and above it, seen from the lid. -/
def ballX (c : Nat) : Int := (c : Int) - 39
def ballY (r : Nat) : Int := 39 - (r : Int)

/-- A signal of a numbered bus. -/
def busName (pre name : String) (i : Nat) : String := pre ++ name ++ "[" ++ toString i ++ "]"

/-- The signals of a subchannel, in the order that fills its positions (R417). -/
def subchannelSignals (pre x : String) : List String :=
  (List.range 32).map (fun i => busName pre ("DQ" ++ x) i) ++ (List.range 8).map (fun i => busName pre ("CB" ++ x) i) ++
    (List.range 10).flatMap (fun j => [busName pre ("DQS" ++ x ++ "_P") j, busName pre ("DQS" ++ x ++ "_N") j]) ++
    (List.range 7).map (fun i => busName pre ("CA" ++ x) i) ++ [pre ++ "PAR" ++ x] ++
    (List.range 4).map (fun i => busName pre ("CS" ++ x ++ "_N") i) ++
    (List.range 2).flatMap (fun j => [busName pre ("CK" ++ x ++ "_P") j, busName pre ("CK" ++ x ++ "_N") j])

/-- The ball at an index of an ordered list of signals; positions past its end are VSS. -/
def signalOr (l : List String) (i : Nat) : Ball :=
  match l[i]? with
  | some x => .signal x
  | none => .net .vss

/-- A ball of a channel block: d from the package edge, q the row within the block (R417). -/
def channelBall (n d q : Nat) : Ball :=
  let pre := "P" ++ toString n ++ "_"
  if d ≤ 9 then signalOr (subchannelSignals pre "A") (9 * (d - 1) + (q - 1))
  else if 11 ≤ d ∧ d ≤ 19 then signalOr (subchannelSignals pre "B") (9 * (d - 11) + (q - 1))
  else if d = 20 then signalOr [pre ++ "RESET_N", pre ++ "ALERT_N", pre ++ "SCL", pre ++ "SDA"] (q - 1)
  else if d = 22 ∨ (d = 23 ∧ q ≤ 3) then .net .vddqDdr
  else .net .vss

/-- The lane signals of a port row: P and N of the even lane, then of the odd one. -/
def laneBall (pre : String) (even c : Nat) : Ball :=
  match c with
  | 2 => .signal (busName pre "_P" even)
  | 3 => .signal (busName pre "_N" even)
  | 5 => .signal (busName pre "_P" (even + 1))
  | 6 => .signal (busName pre "_N" (even + 1))
  | _ => .net .vss

/-- A ball of a port block: e from the package edge, c the column within the block (R417). -/
def portBall (k e c : Nat) : Ball :=
  let pre := "H" ++ toString k ++ "_"
  if e ≤ 8 then laneBall (pre ++ "TX") (2 * (e - 1)) c
  else if e ≤ 16 then laneBall (pre ++ "RX") (2 * (e - 9)) c
  else if e = 17 then signalOr [pre ++ "REFCLK_P", pre ++ "REFCLK_N"] (if c = 1 then 2 else c - 2)
  else if e = 18 then
    (match c with
     | 2 => .signal (pre ++ "URG[0]")
     | 3 => .signal (pre ++ "URG[1]")
     | 5 => .signal (pre ++ "PERST_N")
     | 6 => .signal (pre ++ "CLKREQ_N")
     | _ => .net .vss)
  else if e = 20 ∧ c ≤ 6 then .net .vddSerdesLv
  else if e = 22 ∧ 2 ≤ c ∧ c ≤ 5 then .net .vddSerdesHv
  else .net .vss

/-- The sideband signals from column 2 of row 1 on. -/
def sidebandSignals : List String :=
  ["SYS_RESET_N", "WAKE_N", "ALERT_N", "THERMTRIP_N", "PWR_EN_MAIN", "PWR_EN_MEM", "VHOLD", "SB_SCL", "SB_SDA", "ADDR_SEL0",
   "ADDR_SEL1", "TEST_EN", "SPI_CLK", "SPI_CS_N", "SPI_IO0", "SPI_IO1", "SPI_IO2", "SPI_IO3", "SENSE_CORE_P", "SENSE_CORE_N",
   "SENSE_SRAM_P", "SENSE_SRAM_N"]

/-- A ball of the sideband corner (R417). -/
def sidebandBall (r c : Nat) : Ball :=
  if c = 1 then .net .vss
  else if r = 1 then signalOr sidebandSignals (c - 2)
  else if c ≤ 11 then .signal ("RSVD" ++ toString (c - 2))
  else if c ≤ 15 then .net .vddAon
  else if c ≤ 19 then .net .vddIo
  else .net .vss

/-- What ball row.column carries (R416, R417). -/
def ballAt (r c : Nat) : Option Ball :=
  (zoneOf r c).map (fun z =>
    match z with
    | .sideband => sidebandBall r c
    | .topRight => .anyOf [(.vddSram, 24), (.vss, 24)]
    | .bottom => .anyOf [(.vddCore, 72), (.vss, 72)]
    | .guard => .net .vss
    | .core => .anyOf [(.vddCore, 360), (.vddSram, 90), (.vss, 391)]
    | .channel n => channelBall n (if c ≤ 24 then c else 78 - c) ((r - 3) % 9 + 1)
    | .port k => portBall k (if r ≤ 24 then r else 78 - r) ((c - 25) % 7 + 1))

/-! ### The sideband addresses (R403, R418) -/

/-- The 7-bit target addresses of MCTP and of Fenbo, as ADDR_SEL set them when VDD_AON came up. -/
def State.mctpAddr (s : State) : Nat := 0x30 + 2 * s.pwr.addrSel
def State.fenboAddr (s : State) : Nat := 0x31 + 2 * s.pwr.addrSel

/-! ### Rails (R419, R422) -/

/-- A rail: millivolts, milliamperes, and milliwatts of its share at 185 W. -/
structure Rail where
  name : String
  nominal : Nat
  lo : Nat
  hi : Nat
  ripple : Nat
  absMax : Nat
  current : Nat
  power : Nat
  /-- 0 the board, 1 PWR_EN_MEM, 2 PWR_EN_MAIN -/
  group : Nat
  deriving DecidableEq, Repr

/-- The rails; VDD_IO stands at 1.8 V or at 3.3 V. -/
def rails (io33 : Bool) : List Rail :=
  [⟨"VDD_CORE", 750, 728, 772, 15, 900, 153000, 114750, 2⟩, ⟨"VDD_SRAM", 800, 776, 824, 15, 950, 30000, 24000, 1⟩,
   ⟨"VDDQ_DDR", 1100, 1067, 1133, 20, 1400, 14000, 15400, 1⟩, ⟨"VDD_SERDES_LV", 850, 833, 867, 10, 1000, 20000, 17000, 2⟩,
   ⟨"VDD_SERDES_HV", 1200, 1164, 1236, 15, 1400, 10000, 12000, 2⟩, ⟨"VDD_AON", 1800, 1710, 1890, 40, 2100, 100, 180, 0⟩,
   if io33 then ⟨"VDD_IO", 3300, 3135, 3465, 50, 3800, 500, 1650, 2⟩ else ⟨"VDD_IO", 1800, 1710, 1890, 50, 3800, 500, 900, 2⟩]

/-- A rail is enabled by the state of the two enables. -/
def State.railOn (s : State) (r : Rail) : Bool :=
  match r.group with
  | 0 => s.aon
  | 1 => s.pwr.enMem
  | _ => s.pwr.enMain

/-- A reading lies in the rail's DC range. -/
def Rail.inRange (r : Rail) (mv : Nat) : Bool := r.lo ≤ mv && mv ≤ r.hi

/-- Samples of an enabled rail, one each microsecond, hold ten in a row outside its range (R422): RAIL_FAULT is due. -/
def Rail.faults (r : Rail) : Nat → List Nat → Bool
  | _, [] => false
  | n, x :: xs => if r.inRange x then r.faults 0 xs else if 9 ≤ n then true else r.faults (n + 1) xs

/-! ### The board's components (R423, R380) -/

/-- A pull that the board fits at a ball: ohms, least and greatest, to ground or to a supply of the millivolts given. -/
structure Pull where
  balls : List String
  lo : Nat
  hi : Nat
  /-- the supplies allowed, in millivolts; none: VSS -/
  supplies : List Nat
  deriving DecidableEq, Repr

/-- The pulls. Hk_CLKREQ_N's may be on the host side, VHOLD has a divider instead, and SYS_RESET_N and WAKE_N need none. -/
def boardPulls (vddIo : Nat) : List Pull :=
  [⟨["PWR_EN_MAIN", "PWR_EN_MEM"], 100000, 100000, []⟩, ⟨["ALERT_N", "THERMTRIP_N"], 4700, 4700, [1800, 3300]⟩,
   ⟨["SB_SCL", "SB_SDA"], 1000, 2200, [1800]⟩, ⟨["SPI_CS_N", "SPI_IO2", "SPI_IO3"], 10000, 10000, [vddIo]⟩,
   ⟨["Hk_CLKREQ_N"], 10000, 10000, [3300]⟩, ⟨["Pn_SCL", "Pn_SDA"], 2200, 2200, [1000]⟩, ⟨["Pn_ALERT_N"], 1000, 1000, [1100]⟩]

/-- The ohms of the on-die pull-ups of SYS_RESET_N and WAKE_N to VDD_AON. -/
def onDiePull : Nat := 50000

/-- The divider's ratio that the board writes to PWR_HOLD_CFG.RATIO, in eighths, from the store and the ball in millivolts. -/
def holdRatio (store ball : Nat) : Nat := 8 * store / ball

/-! ### Inputs (R424, R425) -/

/-- The level that an input of the VDD_AON supply reads, in millivolts; between the limits none is stated. -/
def aonLevel (mv : Nat) : Option Bool := if mv ≤ 630 then some false else if 1170 ≤ mv then some true else none

/-- The level of an input of the VDD_IO supply. -/
def ioLevel (supply mv : Nat) : Option Bool :=
  if 10 * mv ≤ 3 * supply then some false else if 7 * supply ≤ 10 * mv then some true else none

/-- A low pulse of WAKE_N of so many nanoseconds is a WAKE_N command, or is ignored; between the limits neither is stated. -/
def wakePulse (ns : Nat) : Option Bool := if 200 ≤ ns then some true else if ns ≤ 50 then some false else none

/-- SYS_RESET_N held low for so many nanoseconds is a SYS_RESET_N command (R395). -/
def resetPulse (ns : Nat) : Bool := 1000 ≤ ns

/-- A REFCLK's frequency in hertz lies within 300 ppm of 100 MHz (R425). -/
def refclkFits (hz : Nat) : Bool := 99970000 ≤ hz && hz ≤ 100030000

/-- The package's part of a host channel's insertion loss at 16 GHz, in thousandths of a decibel, and the greatest mismatch of flight
times in a strobe group, in picoseconds (R426). -/
def packageLoss : Nat := 4000
def strobeSkew : Nat := 5

/-! ### Figures and mechanical data (R13, R429) -/

/-- The block's figures: ports, channels, TiB of raw and of visible capacity, VIs, engines, event sources, clock domains, counters,
key slots, and the greatest and typical power in watts. -/
structure Figures where
  hostPorts : Nat := 8
  channels : Nat := 16
  rawTiB : Nat := 16
  visibleTiB : Nat := 48
  instances : Nat := 65536
  engines : Nat := 64
  sources : Nat := 512
  domains : Nat := 64
  counters : Nat := 1024
  keySlots : Nat := 16
  maxWatts : Nat := 185
  typicalWatts : Nat := 140
  deriving DecidableEq, Repr

/-- The package's body, array, balls, height and lid, in micrometres, its mass in grams and the static load of its lid in newtons;
the moisture level, peak temperature and count of reflows of its assembly. -/
structure Mechanics where
  body : Nat := 77500
  bodyTol : Nat := 100
  pitch : Nat := 1000
  rows : Nat := 77
  outerBall : Nat := 38000
  ballEdge : Nat := 750
  ballDiameter : Nat := 600
  standOff : Nat := 450
  standOffTol : Nat := 50
  coplanarity : Nat := 200
  height : Nat := 4200
  lid : Nat := 72000
  lidFlatness : Nat := 100
  mass : Nat := 118
  lidLoad : Nat := 900
  moisture : Nat := 3
  peakCelsius : Nat := 250
  reflows : Nat := 3
  deriving DecidableEq, Repr

/-! ### Temperature and service life (R1, R428, R430) -/

/-- The greatest junction temperature of a grade. -/
def tjMax (gradeE : Bool) : Nat := if gradeE then 110 else 105

/-- The greatest lid temperature, in thousandths of a degree, at a power in milliwatts: within the grade, and without throttling. -/
def tcLimit (gradeE : Bool) (mw : Nat) : Nat := less (1000 * tjMax gradeE) (40 * mw / 1000)
def State.tcNoThrottle (s : State) (mw : Nat) : Nat := less (1000 * s.pol 0x600) (40 * mw / 1000)

/-- Years of service at an average temperature of the hottest sensor, at the points of the table. -/
def serviceYears (celsius : Nat) : Option Nat :=
  match celsius with
  | 90 => some 33
  | 95 => some 25
  | 100 => some 19
  | 105 => some 14
  | _ => none

/-! ### Availability (R431, R432) -/

/-- A VI meets what the availability target asks for. -/
def State.availTarget (s : State) (t : Nat) : Bool :=
  (s.vi t).mirror && (s.vi t).tel.getD 1 0 == 0 &&
    (List.range 16).all (fun n => !s.flag (pgPier n) Reg.PIER_DCTL_CH_EN || s.flag (pgPier n) Reg.PIER_GEOM_SPARE_PRESENT) &&
    s.armed && s.candReady s.root && s.candReady s.backup && s.root != s.backup

/-- Unavailability: a rate in FIT times a recovery time in hours. -/
def unavailability (fit hours : Rat) : Rat := fit * hours / 1000000000

/-- The contributions of R432: rate in FIT and recovery in hours. -/
def contributions : List (Rat × Rat) := [(150, 4), (49 / 100, 4), (55 / 10, 4), (43 / 10, 1 / 6), (8 / 10, 4)]

/-- Their sum. -/
def totalUnavailability : Rat := (contributions.map (fun x => unavailability x.1 x.2)).foldl (fun a b => a + b) 0

end Sys2Proof.Machine
end

