-- ==== Sys2Proof/Tests/Slice0.lean ====
section
/-! SUPPORT. The row's own tests: the WellFormed smoke, a few known answers from the spec, and, for every statement with
hypotheses, a witness of each clause: a concrete state and operands that meet them together. -/

set_option maxRecDepth 4000
set_option Elab.async false
set_option linter.all false

open Sys2Proof Sys2Proof.Machine
namespace Sys2Proof.Tests

/-- The value a step answered, in place of the equation of two long terms. -/
theorem some_getD {α : Type} {o : Option α} {d : α} (h : o.isSome = true) : o = some (o.getD d) := by
  cases o with
  | none => cases h
  | some x => rfl

/-- Media ready in Run, with every engine running, channel 2 enabled. -/
def stRun : State :=
  { (((State.reset.put 0 Reg.TRUSS_BOOT_STAT_STAGE 0xF).put (pgPier 2) Reg.PIER_DCTL_CH_EN 1).put (pgPier 2) (Reg.SEQ_CTL_LENGTH 0x900) 1) with
    pwr := { State.reset.pwr with state := 0, enMain := true, enMem := true }, aon := true, rails := true, zeroFilled := true,
    engines := (List.range 64).map (fun e => (e, { Engine.blank with running := true })) }

/-- Port 2 serves its host. -/
def stServe : State :=
  (((stRun.put (pgPort 2) (Reg.SEQ_CTL_LENGTH 0x380) 1).put (pgPort 2) Reg.PORT_LINK_STAT_UP 1).put (pgPort 2)
    Reg.PORT_HOST_CRED_NDR 8).put (pgPort 2) Reg.PORT_HOST_CRED_DRS 8

/-- Port 3 carries VI 5 on LD 2. -/
def stPage : State :=
  (stRun.put (pgPort 3) Reg.PORT_LINK_STAT_UP 1).setVi 5 { Vi.blank with st := .active, ports := 8, ld := 2 }

def snoop0 : Snoop := ⟨1, 3, 7, 0, 448, true, none, 0, true, false⟩

def req0 : Req :=
  { op := .rd, org := .host, port := 2, ld := 0, mv := .i, hpa := 0, dpa := 0, vi := 5, via := 0, data := 0, mask := 0, leaf := 0,
    lvl := 0, da := 0, tier := 0, phase := .lookup, at0 := 0, heldAt := 0, poison := false, accP := false, accM := false,
    last := none, dir := none, orphan := false }
def reqT2 : Req := { req0 with tier := 2 }

/-- Span 0: 1 GiB of metadata on Pier 2. -/
def stSpan : State :=
  (((stRun.put 1 (Reg.HUB_SPAN_SIZE_SIZE_G 0) 1).put 1 (Reg.HUB_SPAN_MEMBERS_MEMBER 0) 2).put (pgPier 2) Reg.PIER_SPARE_CTL_STATE 0)

def walk0 : Walk :=
  { port := 3, vi := 5, via := 0, write := false, lvl := 3, tbl := 0, lineDa := 0, path := [], stale := false }

/-- VI 5 with the tables of a window of 1 GiB from DA 0 on, and a walk for its first page. -/
def stWalk : State :=
  { stSpan.setVi 5 { Vi.blank with st := .active, ports := 8, ld := 2, assuredG := 1, tpoolTables := 514 } with walks := [(0, walk0)] }

/-! Packed store: span 2 over the sixteen Piers, its descriptors at frame 1024 of the metadata span. -/

def stPs : State :=
  ((((((((stSpan.put 1 (Reg.HUB_SPAN_BASE_BASE_G 2) 2).put 1 (Reg.HUB_SPAN_SIZE_SIZE_G 2) 1).put 1 (Reg.HUB_SPAN_CTL_GRAIN 2) 1).put 1
    (Reg.HUB_SPAN_CTL_COUNT 2) 4).put 1 (Reg.HUB_SPAN_MEMBERS_MEMBER 2) 0xFEDCBA9876543210).put 2 Reg.HUB_PS_CTL_PS_SPANS 4).put 2
    Reg.HUB_XLAT_DESC_BASE_BASE 1024).put 2 Reg.HUB_XLAT_DESC_CNT_COUNT 262144).setVi 5
    { Vi.blank with st := .active, ports := 8, ld := 2, assuredG := 1, tpoolTables := 514, back := [⟨2, 0, 262144, none⟩] }

/-- The first data sector of the packed store's first stripe. -/
def sec0 : Nat := 8388624
def descZero : Nat := 5 + 2 ^ 16
def descUsed1 : BitVec 512 := BitVec.ofNat 512 (descPack 5 0 0 true [⟨100, false, false, 1, sec0⟩])
def stT2z (p : Phase) : State := { stPs with reqs := [(0, { reqT2 with phase := p })] }
def stT2 (p : Phase) : State := (stT2z p).descWrite 0 descUsed1.toNat
def wbufAll : WBuf := ⟨0, 0, none, (List.range 16).map (fun i => (i, 0, BitVec.allOnes 64, false)), 0⟩
def stT2z' : State := stPs.setPier 2 { Pr.blank with wbuf := [wbufAll] }
def stOpen : State := stPs.setPier 0 { Pr.blank with open_ := [⟨65536 * 32768, 0, 240, [], [], 0, true⟩] }

/-- A written stripe with one live sub-block, chosen for collection. -/
def stGc : State :=
  { (stPs.descWrite 0 descUsed1.toNat) with stripes := [(32768, ⟨1, 2, true, false, [(0, 0, 0)]⟩)] }
def relocJ : Reloc := ⟨sec0, 0, none, 1⟩
def relocK : Reloc := ⟨sec0, 0, some (sec0 + 256), 1⟩
def stRel : State := ({ stGc with relocs := [(0, relocJ)] } : State).setPier 2 { Pr.blank with open_ := [⟨65536 * 32770, 0, 0, [], [], 0, false⟩] }
/-! Page moves: span 1 holds tier-1 frames on Pier 2; page 0 of VI 5 lies in frame 262144. -/
def stTier : State :=
  ((((stWalk.put 1 (Reg.HUB_SPAN_BASE_BASE_G 1) 1).put 1 (Reg.HUB_SPAN_SIZE_SIZE_G 1) 1).put 1 (Reg.HUB_SPAN_MEMBERS_MEMBER 1) 2).put 2
    Reg.HUB_XLAT_FSPAN_FRAME_SPANS 2)
def frameA : Nat := 262144
def leafA0 : Nat := 5 + 4096 * frameA
def heldReq : Req := { req0 with phase := .heldAlloc }
def stAlloc : State := { (stTier.casEntry 8192 13 15 {}).1 with reqs := [(0, heldReq)] }
def stUp : State := (stTier.casEntry 8192 13 9 {}).1
def stMove : State := { (stTier.casEntry 8192 13 leafA0 {}).1 with owner := [(frameA, 5)] }
def moveLog (st : Nat) : MoveLog := ⟨5, 0, leafA0, .frame 262145, 0, st, false⟩
def stMoving (st : Nat) : State := { (stMove.casEntry 8192 leafA0 (leafA0 + 2) {}).1 with moves := [moveLog st] }
def stMoved : State := { (stMove.casEntry 8192 leafA0 (leafA0 + 4096) {}).1 with moves := [moveLog 3] }
def stUnmoved : State := { stMove with moves := [moveLog 1] }

/-! Keys: slot 5 holds granule 1, its counter lines from frame 1024 on. -/
def stKey (st mode : Nat) : State :=
  ({ stTier.put 3 (Reg.HUB_KSLOT_CTR_BASE 5) 1024 with kmap := [(1, 21)] } : State).setSlot 5 { KSlot.blank with st := st, mode := mode }
def setupP : List Nat := [5, 1, 0, 0, 0, 0, 0, 0, 1, 0, 0, 1, 0, 0] ++ List.replicate 42 0
def rebuildP : List Nat := [5, 0, 0, 0, 0, 0, 0, 0, 0, 0, 0x40, 0, 0, 0, 0, 0]
def bytes (l : List Nat) : List (BitVec 8) := l.map (BitVec.ofNat 8)
def stSetup : State := stTier.setSlot 5 { KSlot.blank with st := 1, mode := 1 }
def stRotate : State := (stKey 3 1).setSlot 6 { KSlot.blank with st := 1, mode := 1 }
def stLost : State := stKey 3 1 |>.setSlot 5 { KSlot.blank with st := 3, mode := 1, lostList := [(0, 0x400000)] }
def goodOr : RdRes → Line
  | .good l => l
  | _ => ⟨0, 0⟩
def cent5 : CEnt := ⟨5, 5, 0, 7, true, false, none, false⟩
def stTree : State := { State.reset.put 3 (Reg.HUB_KSLOT_TREE_LEVELS 5) 5 with cc := [(0, cent5)] }
def stOvf0 : State := { stKey 3 1 with cc := [(65536, ⟨5, 0, 0, 0, true, false, none, false⟩)], owner := [(frameA, 5)] }
/-- A frame whose counter line has overflowed, with the line 0 still as written at MINOR 1 of MAJOR 0. -/
def ovfEnt : CEnt := ⟨5, 0, 0, ctrFresh 1, true, false, some (2 ^ 56, 0), false⟩
def ovfLine : Line :=
  ⟨0x39fed1bc9af52ce495f9b3ec75eccfce447dbbcf0332e85c899bce7ce021af04c73f936212e1ff867b88b5e52e72392bfcf53711b5275a6eb095d70aa8bf6127,
    0x00510000000000000000002aee694406⟩
def stOvf : State := { stOvf0 with media := [(67108864, ovfLine)], cc := [(65536, ovfEnt)] }
def rotateOn (s : State) : State :=
  ((((s.put 3 Reg.HUB_KROT_CTL_SRC 5).put 3 Reg.HUB_KROT_CTL_DST 6).put 3 Reg.HUB_KROT_CTL_BUSY 1).setSlot 5 { KSlot.blank with st := 4 }).setSlot 6
    { KSlot.blank with st := 5 }
def stTurn : State :=
  { (rotateOn stTier).put 3 Reg.HUB_KROT_BOUND_LINE (2 ^ 24) with kmap := [(1, 21)], owner := [(frameA, 5)] }
def stTurnStripe : State := { (rotateOn stPs).put 3 Reg.HUB_KROT_BOUND_LINE (2 ^ 25) with kmap := [(2, 21)] }
def stSweep : State :=
  (stMove.setVi 5 { (stMove.vi 5) with shared := true }).setPrt 3 { (stMove.prt 3) with bound := [5], sweep := true }

/-! VIs, LDs and relays. -/
def stVi (st : ViState) : State := stTier.setVi 5 { (stTier.vi 5) with st := st, ports := 0 }
def createP : List Nat := [7, 0, 0, 0, 0, 0, 0, 0, 0, 0, 1, 0, 0, 0, 1, 0]
def stBind : State := (stVi .quiesced).setLdev 3 2 { LogDev.blank with capG := 1 }
def bindP : List Nat := [5, 0, 8, 2, 0, 0, 0, 0]
def stDlog : State := stTier.setVi 5 { (stTier.vi 5) with dirtyLog := true, dlogBase := 1024 }
def stSave (mode : Nat) : State := (stVi .frozen).setVi 6 { Vi.blank with st := .active, assuredG := 1, dirtyLog := mode == 2 }
def saveP (mode : Nat) : List Nat := [5, 0, mode, 0, 6, 0, 0, 0] ++ List.replicate 24 0
def ext0 : Extent := ⟨5, 512, 4, 3, false, true, none, 0⟩
def stExt : State := { stPage with extents := [ext0] }
def stInj : State := stServe.setVi 5 { Vi.blank with st := .active, ports := 4, ld := 1, assuredG := 1 }
def stScan : State :=
  (stPs.writePlain (stPs.descDa 0) 0 3 0 true (0, 0, 0)).1.setLdev 3 2 { LogDev.blank with scan := some (0, 5, []) }
def stCreate : State := { stTier.setVi 5 Vi.blank with policy := [(0x10D, (100, 0, 100))] }

/-! Viaducts and sequencers. -/
def stLink : State := stRun.linkInit 3
def jobC : JobCtx := ⟨0, List.replicate 8 0, [], 0, [], 0, none, 0, none, 0, ⟨0, 0⟩, 0, none, [], [], none⟩
def jobD : JobCtx := { jobC with status := [(0, 1)] }
def jobJ (v : Nat) : JobCtx := { jobC with j := [0, v, 0, 0, 0, 0, 0, 0] }
/-- A step's word with its parity bit. -/
def evenW (w : Nat) : Nat := if parityOk w then w else w + 2 ^ 63
def stW (op a : Nat) : Nat := evenW (op + 1024 * a)
def stWb (op b : Nat) : Nat := evenW (op + 8192 * b)
/-- ISSUE of a unit's operation, with J1 in A. -/
def stWu (unit op : Nat) : Nat := evenW (1 + 64 * unit + 1024 + 2 ^ 32 * op)
/-- Context 7 of a Pier's and of a port's sequencer runs one step. -/
def seqOn (s : State) (w : Nat) (c : JobCtx) : State := s.setSqr 2 { (s.sqr 2) with table := [BitVec.ofNat 64 w], ctxs := [(7, c)] }
def hubOn (s : State) (w : Nat) (c : JobCtx) : State :=
  (s.put (pgPort 2) (Reg.SEQ_CTL_LENGTH 0x380) 1).setSqr 18 { (s.sqr 18) with table := [BitVec.ofNat 64 w], ctxs := [(7, c)] }
def stSeqW (w : Nat) (c : JobCtx) : State := seqOn stRun w c
def stSeq (op : Nat) (c : JobCtx) : State := stSeqW (stW op 0) c
def stCoast : State := stRun.put 7 Reg.HUB_LAP_CTL_COAST 1
def stEnded : State := stSeqW 0 { jobC with done := some 0x81 } |>.setEng 0 { (stRun.eng 0) with jobs := [(0, 0)] }
def stSlot2 : State := stRun.setSlot 1 { KSlot.blank with st := 3, mode := 2 }
def vi5Job : BitVec 512 := 5 * 2 ^ 16
/-- 1,024 zero bytes as a raw DEFLATE stream. -/
def zeroStream : List Nat := [0x63, 0x60, 0x18, 0x05, 0xA3, 0x60, 0x14, 0x8C, 0x54, 0x00, 0x00]
def stPlace : State := stPs.setPier 2 { Pr.blank with open_ := [⟨65536 * 32770, 0, 0, [], [], 0, false⟩] }
def stPort : State := stMove.setPrt 2 { (stMove.prt 2) with tlb := [⟨5, 0, 1, leafA0⟩] }

/-! The manager, telemetry, clocks, power and boot. -/
def stPolicy : State := { stRun with policy := [(0x100, (1, 0, 9)), (0x105, (0, 0, 9)), (0x104, (5, 0, 9)), (0x108, (3, 0, 9)), (0x10A, (5, 0, 9))] }
def rec0 : Record := ⟨13, 0x209, 1, false, none, 0, 0, 1, 0, none⟩
def stJnl : State := { stRun with jnl := { stRun.jnl with buf := [rec0], slot := 1 } }
def stLap (w : Bool) : State :=
  { (stRun.put pgTel Reg.TEL_LAP_STAT_RUNNING 1).setVi 5 { Vi.blank with st := .active, telemetry := true, assuredG := 1 } with
    lap := { stRun.lap with writing := w } }
def stCand : State := { stRun with clk := { stRun.clk with present := 0x11 } }
def stEnter (t : Nat) : State := { stRun with pwr := { stRun.pwr with trans := 2, target := t } }
def stOff : State := { stRun.put pgPwr Reg.PWR_HOLD_STAT_PASS 7 with pwr := { stRun.pwr with trans := 2, target := 4 } }
def stExit (st : Nat) : State := { stCand with pwr := { stRun.pwr with trans := 3, state := st } }
def stWarm : State := { stRun with pwr := { stRun.pwr with warm := true } }
def stMid : State := (stRun.put pgClk Reg.CLK_GATE_IDX_NODE 36).setPier 3 { Pr.blank with wbuf := [wbufAll] }
def img0 : Image :=
  { profile := 0, seq := 1, regs := [], tables := [], policy := [], timing := [], rootOrder := [0], backup := none, autoArm := false,
    managerPort := 0, metaSpan := 0, gradeE := false }
/-- A slot's image: one empty register list, signed under the key whose hash stImage holds. -/
def imgBytes : List Nat := [84, 82, 83, 83, 1, 0, 0, 0, 1, 0, 0, 0, 48, 1, 0, 0, 1, 0, 0, 0, 0, 0, 0, 0, 0, 0, 0, 0, 0, 0, 0, 0] ++
  [1, 0, 0, 0, 48, 0, 0, 0, 0, 0, 0, 0, 0, 0, 0, 0, 4, 213, 19, 109, 22, 85, 198, 91, 145, 78, 102, 92, 158, 211, 94, 78] ++
  [1, 209, 216, 218, 132, 119, 54, 149, 122, 106, 117, 30, 164, 207, 47, 128, 161, 56, 15, 8, 194, 174, 35, 155, 196, 152, 209, 177, 187, 63, 186, 116] ++
  [79, 14, 116, 107, 28, 230, 154, 51, 235, 232, 232, 169, 6, 4, 241, 178, 128, 67, 151, 207, 4, 16, 254, 209, 190, 176, 138, 18, 224, 15, 142, 127] ++
  [62, 192, 122, 103, 116, 86, 152, 68, 130, 109, 3, 112, 130, 111, 127, 31, 159, 0, 0, 0, 0, 0, 0, 0, 0, 0, 0, 0, 0, 0, 0, 0] ++
  [0, 0, 0, 0, 0, 0, 0, 0, 0, 0, 0, 0, 0, 0, 0, 0, 78, 71, 162, 55, 204, 96, 143, 3, 211, 139, 249, 83, 194, 194, 92, 140] ++
  [185, 157, 228, 187, 173, 169, 40, 138, 107, 67, 101, 101, 32, 178, 85, 145, 67, 241, 253, 52, 77, 222, 33, 8, 2, 187, 198, 48, 49, 89, 150, 190] ++
  [30, 243, 155, 156, 3, 90, 98, 219, 172, 216, 171, 32, 60, 102, 163, 58, 166, 48, 148, 53, 34, 15, 175, 73, 163, 124, 202, 26, 255, 192, 108, 187] ++
  [117, 93, 122, 46, 241, 4, 221, 67, 15, 226, 16, 54, 5, 231, 4, 220, 0, 0, 0, 0, 0, 0, 0, 0, 0, 0, 0, 0, 0, 0, 0, 0] ++
  [0, 0, 0, 0, 0, 0, 0, 0, 0, 0, 0, 0, 0, 0, 0, 0]
def stImage : State :=
  { State.reset.put 0 Reg.TRUSS_BOOT_STAT_STAGE 2 with
    rails := true
    flash := imgBytes.mapIdx (fun i b => (0x100000 + i, BitVec.ofNat 8 b))
    keyHash := 0xdc94f8eb311571bc87b74c91c71fa1f9a1746f536695d0d6ac45ac1ca3294f6a57aa31add13c64e38314e257e2ba9151 }
def stPop : State := { State.reset.put 0 Reg.TRUSS_BOOT_STAT_STAGE 6 with img := some img0 }
def stAsleep : State := { stRun.put (pgPort 0) Reg.PORT_LINK_STAT_UP 1 with pwr := { stRun.pwr with state := 2 } }
def stSpare (rb : Bool) : State :=
  { (((stSpan.put 2 Reg.HUB_XLAT_FSPAN_FRAME_SPANS 1).put (pgPier 2) Reg.PIER_SPARE_CTL_STATE 1).put (pgPier 2)
      Reg.PIER_SPARE_CTL_SPARE_PIER 2).setPier 2 { Pr.blank with rebuild := rb } with
    owner := [(0, 5)], media := [(0, mkLine 5 0 0 (sideHi 0 0 0 0 1 false false 0))] }


/-! The WellFormed smoke: one ill-formed term for each check. -/

theorem test_wf_spd : (Instr.populationCheck []).wf = false := by decide
theorem test_wf_regions : (Instr.setLdAllocations .i3c 0 0 1 (List.replicate 9 1) 0).wf = false := by decide
theorem test_wf_frame : (Instr.fenboRd (List.replicate 264 0)).wf = false := by decide
theorem test_wf_frame_longest : (Instr.fenboRd (List.replicate 263 0)).wf = true := by decide

/-! Known answers. -/

/-- The frame of the SMBus example of chapter Register Map ends in CHK 0x8E. -/
theorem test_crc8_frame : crc8 [0x01, 0x11, 0x40, 0x70, 0x00, 0x00, 0x04] = 0x8E := by decide +kernel
/-- CB_0 and CB_3 of the example of chapter Encryption and Integrity. -/
theorem test_counter_block : counterBlock 3 0xCA9065 0x1C 5 0 = 0x3000032A419400000000000070280000 ∧
    counterBlock 3 0xCA9065 0x1C 5 3 = 0x3000032A419400000000000070280003 := by decide +kernel
/-- A region of 64 granules has a tree of height 7 (the example after R176). -/
theorem test_tree_height : treeHeight 64 = 7 := by decide +kernel
/-- AES-256, the example vector of appendix C.3 of FIPS 197. -/
theorem test_aes256 : aes256 0x000102030405060708090a0b0c0d0e0f101112131415161718191a1b1c1d1e1f 0x00112233445566778899aabbccddeeff =
    0x8ea2b7ca516745bfeafc49904b496089 := by decide +kernel
/-- CRC-32C of "123456789" from the initial value 0 without final XOR (R144), computed by hand with the reflected polynomial. -/
theorem test_crc32c : crc32c [0x31, 0x32, 0x33, 0x34, 0x35, 0x36, 0x37, 0x38, 0x39] = 0x58E3FA20 := by decide +kernel
/-- A raw DEFLATE stream of 1,024 zero bytes. -/
theorem test_inflate : inflateAll zeroStream 11 = some (List.replicate 1024 0, true) ∨
    inflateAll zeroStream 11 = some (List.replicate 1024 0, false) := by decide +kernel

/-- Spans 0 and 3 of the reference population (R24). -/
def stRef : State :=
  (((((((((State.reset.put 1 (Reg.HUB_SPAN_SIZE_SIZE_G 0) 1792).put 1 (Reg.HUB_SPAN_CTL_COUNT 0) 3).put 1
    (Reg.HUB_SPAN_MEMBERS_MEMBER 0) 0xBA983210).put 1 (Reg.HUB_SPAN_BASE_BASE_G 3) 0x2800).put 1 (Reg.HUB_SPAN_SIZE_SIZE_G 3) 256).put 1
    (Reg.HUB_SPAN_CTL_GRAIN 3) 1).put 1 (Reg.HUB_SPAN_CTL_COUNT 3) 4).put 1 (Reg.HUB_SPAN_CTL_MIRRORED 3) 1).put 1
    (Reg.HUB_SPAN_MEMBERS_MEMBER 3) 0xFEDCBA9876543210)
/-- The example after R59: DA 0x32A4_1940 lies on P1 at Pier offset 0x654_8340. -/
theorem test_decode_span : stRef.decode 0x32A41940 = some ⟨0, 1, none, 0x6548340⟩ := by decide +kernel
/-- The example of chapter Compression: the descriptor at DA 0xA02_DA93_0C40 is on P0 with its copy on P8. -/
theorem test_decode_mirrored : (stRef.decode 0xA02DA930C40).map (fun l => (l.prim, l.copy)) = some (0, some 8) := by decide +kernel
/-- The example of chapter Register Map: EVT_FORCE 0x8025_0108 on P9's page puts SPARE_DONE of source 277 into the manager queue. -/
theorem test_evt_force : (match execEvtForce 0x39 0x80250108 stRun with
    | .next t => t.mq.recs.map (fun r => (r.src, r.kind)) == [(277, 0x0108)]
    | _ => false) = true := by decide +kernel
/-- Beat 2 of a line carries data bytes 8 to 11 and side byte 2 (R29). -/
theorem test_beat : (⟨BitVec.ofNat 512 (ofLe (List.range 64)), BitVec.ofNat 128 (ofLe (List.range 16))⟩ : Line).beat 2 = 0x020B0A0908 := by
  decide +kernel
/-- A burst books a slot of its Pier (R343), and its row is open after it. -/
theorem test_slot : (let s := (stSpan.put (pgPier 2) Reg.PIER_DCTL_CH_EN 1).busAt 0 0 .read
    (s.telValue 576, s.telValue 577, s.telValue 578)) = (1, 1, 0) := by decide +kernel
/-- Ball 12.40 is lane 6 of H2's receiver (R417), and the lid of a standard part at 185 W may reach 97.6 degrees (R428). -/
theorem test_ball : ballAt 12 40 = some (.signal "H2_RX_P[6]") := by decide +kernel
theorem test_lid : tcLimit false 185000 = 97600 := by decide
/-- The rails' shares with VDD_IO at 3.3 V add up to 20 mW below the package's 185 W (R419). -/
theorem test_rails : ((rails true).map Rail.power).foldl (fun a b => a + b) 0 = 184980 := by decide
/-- An image of a slot with a good signature is accepted; one with another build sequence in the list is not (R388). -/
theorem test_image : stImage.slotHeader 0 img0 = true ∧ stImage.slotHeader 0 { img0 with seq := 2 } = false := by decide +kernel
/-- A command on an ill-formed list stops by name and changes nothing else. -/
theorem test_ill_formed : exec (.populationCheck []) stRun = .fault .illFormed := rfl
/-- The step takes the front command and leaves the rest. -/
theorem test_step_front : (match step { stRun with pending := [.telFreeze 1, .telClear] } with
    | .next t => t.pending == [.telClear]
    | _ => false) = true := by decide +kernel

/-! Witnesses of the statements over all commands and of the layouts. -/

theorem wit_StepTakesFront : (∃ (c : Instr) (rest : List Instr) (s : State), s.pending = c :: rest) ∧
    (∃ s : State, s.pending = [] ∧ s.pwr.state ≤ 2) ∧ (∃ s : State, s.pending = [] ∧ 2 < s.pwr.state) :=
  ⟨⟨.telClear, [.telFreeze 0], { stRun with pending := [.telClear, .telFreeze 0] }, rfl⟩, ⟨stAsleep, rfl, by decide⟩,
    ⟨{ stRun with pwr := { stRun.pwr with state := 3 } }, rfl, by decide⟩⟩
theorem wit_SelectKeepsCounter : ∃ (i : Fin 1024) (s : State), s.pageShut (telPage i.val) = false ∧ fixedCode i.val = none :=
  ⟨0, stRun, by decide +kernel, by decide +kernel⟩
theorem wit_OnlyIllFormedStops : (∃ c : Instr, c.wf = true) ∧ (∃ c : Instr, c.wf = false) :=
  ⟨⟨.fenboRd (List.replicate 263 0), by decide⟩, ⟨.fenboRd (List.replicate 264 0), by decide⟩⟩
theorem sound_stRun : stRun.Sound := by
  refine ⟨?_, ?_, ?_, ?_, ?_⟩ <;> decide +kernel
theorem wit_ExecKeepsQueue : ∃ (c : Instr) (s t : State), s.Sound ∧ exec c s = .next t :=
  ⟨.pauseReq 0 0, stRun, _, sound_stRun, rfl⟩
theorem wit_StepKeepsSound : ∃ (s t : State), s.Sound ∧ step s = .next t := ⟨stRun, _, sound_stRun, rfl⟩
theorem wit_FlitLayout : ∃ p : List Nat, p.length = 64 ∧ ∀ x ∈ p, x < 256 := ⟨List.replicate 64 255, by decide, by decide⟩
theorem wit_LineSideBits : ∃ tag sharers dstate owner tier slot : Nat,
    tag < 2 ^ 56 ∧ sharers < 256 ∧ dstate < 4 ∧ owner < 8 ∧ tier < 4 ∧ slot < 16 :=
  ⟨2 ^ 56 - 1, 255, 3, 7, 3, 15, by decide, by decide, by decide, by decide, by decide, by decide⟩
theorem wit_CounterLineLayout : (∃ j : Nat, j < 64) ∧
    (∃ ma j mi i : Nat, ma < 2 ^ 56 ∧ j < 64 ∧ mi < 128 ∧ i < 64 ∧ i ≠ j) ∧ (∃ ma j : Nat, ma < 2 ^ 56 ∧ j < 64) :=
  ⟨⟨63, by decide⟩, ⟨2 ^ 56 - 1, 63, 127, 0, by decide, by decide, by decide, by decide, by decide⟩,
    ⟨2 ^ 56 - 1, 63, by decide, by decide⟩⟩
theorem wit_FlashBytes : (∃ (m : List Host.Cell) (bs : List Nat) (i : Nat), Memory.wf m = true ∧ i < bs.length) ∧
    (∃ (m : List Host.Cell) (a : Nat) (bs : List Nat) (x : Nat), Memory.wf m = true ∧ (x < a ∨ a + bs.length ≤ x)) :=
  ⟨⟨[(7, 0x0F)], [1, 2], 1, by decide, by decide⟩, ⟨[(7, 0x0F)], 7, [1, 2], 9, by decide, by decide⟩⟩
def stPools : State := { stTier with metaNext := 512 }
theorem wit_DramReadAfterWrite : (∃ (s : State) (da copy x k : Nat), copy < 2 ∧
      (s.daKind da ≠ .metadata ∨ (s.region da).isSome = true ∨ s.poolLine da = none) ∧ k < 2 ∧ (x / 64 ≠ da / 64 ∨ k ≠ copy)) ∧
    (∃ (s : State) (da copy : Nat) (l : Line) (d : BitVec 512), copy < 2 ∧ (s.dramWrite da copy l).daKind da = .metadata ∧
      (s.dramWrite da copy l).region da = none ∧ (s.dramWrite da copy l).poolLine da = some d) :=
  ⟨⟨State.reset, 63, 1, 0, 0, by decide, Or.inl (by decide +kernel), by decide, by decide⟩,
    ⟨stPools, 63, 0, mkLine 0 0 0x10005 0, 0x10005, by decide, by decide +kernel, by decide +kernel, by decide +kernel⟩⟩
theorem wit_BeatLayout : ∃ k i : Nat, k < 16 ∧ i < 4 := ⟨15, 3, by decide, by decide⟩
theorem wit_LedgerBalances : ∃ (n : Fin 16) (s : State),
    let bal := fun (u : State) => let v := fun (j : Nat) => u.telValue (512 + 32 * n.val + j)
      v 0 % 2 ^ 64 = (v 1 + v 2 + v 3 + v 4) % 2 ^ 64
    bal s ∧ ∃ cls : Nat, cls = slotRetired ∨ cls = slotFront ∨ cls = slotBack ∨ wasteRefresh ≤ cls :=
  ⟨15, { stRun with telCnt := [(992, 7), (993, 3), (994, 4)] }, by decide +kernel, wasteWithheld, by decide⟩
theorem wit_SealedLineOpens : ∃ k : Nat, k < 16 := ⟨15, by decide⟩
theorem wit_BatonPasses : ∃ (s : State) (k : Nat), s.engOn = true ∧ s.baton < 4 ∧
    ([1, 2, 3].map (fun i => (s.baton + i) % 4)).find? (fun k => !s.fencedMcs.testBit k && s.pairRuns k) = some k :=
  ⟨stRun, 1, by decide +kernel, by decide +kernel, by decide +kernel⟩
theorem wit_ControlFrame : ∃ (c : Instr) (s t : State),
    (match c with
      | .refclkPresent _ | .candidateWindow _ _ | .rootSel _ | .arm _ | .gateClose | .gatePendingDone | .gateBusy | .telFreeze _
      | .telClear | .telCntWrite _ _ | .telSelWrite _ _ | .evtForce _ _ | .capRearm _ | .evtMissedClear | .alertHoldoffEnd
      | .journalTokenRefill _ | .interrupt _ _ | .mailboxSend _ _ _ | .jobTimeout _ _ | .pauseReq _ _ | .pauseAck _ _
      | .replayReq _ _ _ | .replayTimeout _ _ | .discardRepeat _ _ | .vdtRetry _ | .thermalThrottle _ | .lapDumpStop
      | .lapSnapshot => true
      | _ => false) = true ∧ exec c s = .next t :=
  ⟨.telClear, stRun, _, rfl, rfl⟩

/-! Witnesses of the statements, one theorem per statement. -/

/-- With no key map a job's write always ends. -/
theorem bus_kmap (s : State) (m : Ma) (b : Burst) (h : Nat) (f : Option Flt) : (s.bus m b h f).kmap = s.kmap := by
  have ht : ∀ (s : State) (n c a : Nat) (f : Option Flt), (s.telPier n c a f).kmap = s.kmap := by
    intro s n c a f; unfold State.telPier State.tally; (repeat' split) <;> rfl
  have hb : ∀ (s : State) (n c a : Nat), (s.book n c a).kmap = s.kmap := by
    intro s n c a; unfold State.book; (repeat' split) <;> simp [ht]
  have ha : ∀ (s : State), (s.access m h f).kmap = s.kmap := by
    intro s; unfold State.access; simp [ht]
  have hs : ∀ (s : State), (s.burstSlot m b).kmap = s.kmap := by
    intro s; unfold State.burstSlot; simp only [State.setPier_kmap, hb]; split <;> rfl
  rw [State.bus, hs, ht, ha]
theorem storeLine_kmap (s : State) (x c : Nat) (l : Line) (h : Nat) (f : Option Flt) : (s.storeLine x c l h f).kmap = s.kmap := by
  have hw : (s.dramWrite x c l).kmap = s.kmap := by
    have hk : ∀ {a : State} (f : State → Nat → State) (n : Nat), (∀ s i, (f s i).kmap = s.kmap) → ((List.range n).foldl f a).kmap = a.kmap := by
      intro a f n hf
      generalize List.range n = xs
      induction xs generalizing a with
      | nil => rfl
      | cons y ys ih => exact (ih (a := f a y)).trans (hf a y)
    show (s.poolTake x l).kmap = s.kmap
    unfold State.poolTake
    repeat' first | rfl | split
    all_goals
      refine hk _ _ fun s i => ?_
      dsimp only
      repeat' first | rfl | split
  unfold State.storeLine State.busAt; split
  · exact (bus_kmap ..).trans hw
  · exact hw
theorem writePlain_ok (s : State) (da seed tier : Nat) (d : BitVec 512) (p : Bool) (dir : Nat × Nat × Nat) (h : s.kmap = []) :
    ∃ u, s.writePlain da seed tier d p dir = (u, .ok) ∧ u.kmap = [] := by
  have hr : s.region da = none := by simp [State.region, h, SMap.getD]
  have ha : s.advance da = (s, .plain) := by simp [State.advance, State.writeSlot, hr]
  have hq : ∀ (t : State) (x : Nat), (t.unqueue x).kmap = t.kmap := by
    intro t x; unfold State.unqueue; dsimp only; repeat' first | rfl | split
  have hf : ∀ (t : State) (x : Nat), (t.descForget x).kmap = t.kmap := by
    intro t x; unfold State.descForget; dsimp only; repeat' first | rfl | split
  have hp : ∀ (t : State) (a b c d e), (t.raisePoison a b c d e).kmap = t.kmap := by
    intro t a b c d e; unfold State.raisePoison; split
    · rfl
    · unfold State.raiseFor; dsimp only; split
      · exact ((same_produce ..).trans (same_leaveIdle _)).2.2.2.2.2.2.2.2.2
      · exact (same_held ..).2.2.2.2.2.2.2.2.2
  have hs0 : (s.unqueue da).kmap = [] := (hq s da).trans h
  unfold State.writePlain
  rw [ha]
  dsimp only
  generalize s.unqueue da = s0 at hs0
  generalize s0.sealLine seed da .plain d p false tier dir.1 dir.2.1 dir.2.2 = l
  generalize (match s0.lineMa da 0 with | some m => s0.deadLine m | none => false) = dd
  generalize hx : (if s0.gone da 0 = true then _ else _ : State) = s1
  have hs1 : s1.kmap = [] := by
    rw [← hx]; repeat' first | exact hs0 | exact (hp ..).trans hs0 | exact (storeLine_kmap ..).trans hs0 | split
  repeat' first
    | exact ⟨_, rfl, hs1⟩
    | exact ⟨_, rfl, (storeLine_kmap ..).trans ((hf ..).trans hs1)⟩
    | exact ⟨_, rfl, (hf ..).trans hs1⟩
    | exact ⟨_, rfl, (storeLine_kmap ..).trans ((hq ..).trans hs1)⟩
    | exact ⟨_, rfl, (hq ..).trans hs1⟩
    | split
theorem writeFrame_ok (t tier : Nat) (ls : List (BitVec 512 × Bool)) :
    ∀ (s : State) (da : Nat), s.kmap = [] → ∃ u, s.writeFrame t tier da ls = some u := by
  induction ls with
  | nil => exact fun s _ _ => ⟨s, rfl⟩
  | cons x xs ih =>
    intro s da h
    obtain ⟨u, hu, hk⟩ := writePlain_ok s da t tier x.1 x.2 (0, 0, 0) h
    obtain ⟨v, hv⟩ := ih u (da + 64) hk
    exact ⟨v, by simp [State.writeFrame, hu, hv]⟩
def mlogT2 : MoveLog := ⟨5, 0, 9, .frame 262145, 0, 1, false⟩
def stMvT2 : State :=
  { ((((stPs.put 1 (Reg.HUB_SPAN_BASE_BASE_G 1) 1).put 1 (Reg.HUB_SPAN_SIZE_SIZE_G 1) 1).put 1 (Reg.HUB_SPAN_MEMBERS_MEMBER 1) 2).put 2
    Reg.HUB_XLAT_FSPAN_FRAME_SPANS 2).descWrite 0 descZero with moves := [mlogT2] }
theorem wit_moveCopyDone : ∃ (vi : BitVec 16) (page : BitVec 45) (bs : List Bursts) (streams : List (List (BitVec 8))) (m : MoveLog) (ls : List (BitVec 512 × Bool)) (s2 : State) (s : State),
      let s0 := (s.recallPage m.vi m.e0 m.page).1
      let q := s0.readPageAt m.vi m.e0 m.page bs
      s.moveOf vi.toNat page.toNat = some m ∧ m.stage = 1 ∧ m.suspect = false ∧ s.urg3 = false ∧ s.moveReady m = true ∧ s.engOn = true ∧ s.pageQuiet m.e0 m.page = true ∧ s.moveRuns m = true ∧ (s.recallPage m.vi m.e0 m.page).2 = true ∧ q.2 = some ls ∧ q.1.writePlace m.vi m.dest ls (streams.map nats) = some s2 ∧ s2.destOpen m = false := by
  have h0 : (((stMvT2.recallPage 5 9 0).1.readPageAt 5 9 0 []).2).isSome = true := by decide +kernel
  have hk : (((stMvT2.recallPage 5 9 0).1.readPageAt 5 9 0 []).1).kmap = [] := by
    have hp : ((((stMvT2.recallPage 5 9 0).1.descRead 0 {}).1.readPage (descVi descZero) (descRecs descZero) []).1).kmap = [] := by decide +kernel
    have h00 : (stMvT2.recallPage 5 9 0).1.kmap = [] := by decide +kernel
    have hd : ((stMvT2.recallPage 5 9 0).1.descRead (leafAddr 9) {}).2 = .ok (BitVec.ofNat 512 descZero) := by decide +kernel
    have hc : ((stMvT2.recallPage 5 9 0).1.descRead (leafAddr 9) {}).1.descCheck descZero 5 = .ok := by decide +kernel
    have hn : (BitVec.ofNat 512 descZero).toNat = descZero := by decide +kernel
    have ht : leafTier 9 = 2 := by decide
    have hl : leafAddr 9 = 0 := by decide
    have hp' : (((stMvT2.recallPage 5 9 0).1.descRead (leafAddr 9) {}).1.readPage (descVi descZero) (descRecs descZero) []).1.kmap = [] := by rw [hl]; exact hp
    generalize hy : (stMvT2.recallPage 5 9 0).1.descRead (leafAddr 9) {} = y at hd hc
    rw [hy] at hp'
    obtain ⟨v, r⟩ := y
    simp only at hd hc hp'
    subst hd
    simp only [State.readPageAt, ht, if_true, State.readT2Page, hy, hn, hc]
    generalize hz : v.readPage (descVi descZero) (descRecs descZero) [] = z at hp'
    obtain ⟨u, o⟩ := z
    have hr : ∀ (t : State) (a b c : Nat) (d : Option Nat) (e f : Nat), (t.raise a b c d e f).kmap = t.kmap := fun t a b c d e f => (same_raise t a b c d e f).2.2.2.2.2.2.2.2.2
    cases o with
    | none => simpa using h00
    | some ls => simp only [reduceCtorEq, ite_false, bne_self_eq_false, Bool.false_eq_true]; rw [apply_ite State.kmap, hr, ite_self]; exact hp'
  obtain ⟨ls, h1⟩ := Option.isSome_iff_exists.1 h0
  obtain ⟨u, hu⟩ := writeFrame_ok 5 ((((stMvT2.recallPage 5 9 0).1.readPageAt 5 9 0 []).1).frameTier 262145) ls _ (4096 * 262145) hk
  exact ⟨5, 0, [], [], mlogT2, ls, u, stMvT2, by decide +kernel, by decide +kernel, by decide +kernel, by decide +kernel, by decide +kernel, by decide +kernel, by decide +kernel, by decide +kernel, by decide +kernel, h1, hu, rfl⟩

/-- A blob of no records of a VI with an elastic part of 1 GiB, as relay save 1 writes it. -/
def blobHdr (crc : Nat) : List Nat := blobHeader 9 { Vi.blank with elasticG := 1 } 1 1 0 256 0 0 crc
def blobB : List Nat := blobHdr (crc32c (blobHdr 0))
def blobLines : List (BitVec 512) := toLines 4 blobB
/-- The blob in the write buffer of page 0 of VI 6, whose sub-block 0 does not decode. -/
def stBlob : State :=
  ((((((({ stPs with policy := [(0x10D, (100, 0, 100))] } : State).put 1 (Reg.HUB_SPAN_BASE_BASE_G 3) 16).put 1 (Reg.HUB_SPAN_SIZE_SIZE_G 3) 8).put 1
    (Reg.HUB_SPAN_MEMBERS_MEMBER 3) 2).put 2 Reg.HUB_XLAT_FSPAN_FRAME_SPANS 8).descWrite 0
      (descPack 6 1 0 true [⟨100, false, false, 1, sec0⟩])).setPier 2 { Pr.blank with
        wbuf := (List.range 4).map (fun sb => ⟨0, sb, none, (List.range 16).map (fun i =>
          (i, (if sb = 0 then blobLines.getD i 0 else 0), BitVec.allOnes 64, false)), 0⟩) }).setVi 6
            { Vi.blank with st := .active, assuredG := 1, root := 514, tpoolBase := 514, tpoolTables := 514, back := [⟨2, 0, 262144, none⟩] }
  |>.setVi 5 { Vi.blank with st := .quiesced, restored := true, sourceTag := 9, elasticG := 1, tpoolBase := 2048, tpoolTables := 514, root := 2048 }
def newP : List Nat := [7, 0, 2, 0, 6, 0, 0, 0] ++ List.replicate 8 0
def applyP : List Nat := [5, 0, 0, 0, 6, 0, 0, 0] ++ List.replicate 8 0
/-- What page 0 of VI 6 holds. -/
theorem blob_read : stBlob.readBlob 6 0 = some (blobB, []) := by decide +kernel
theorem wit_relayRestoreNew : ∃ (src : CmdSrc) (req : List (BitVec 8)) (tpool : BitVec 36) (descBase : BitVec 40) (places : List Place) (p rsp : List Nat) (s : State),
      let s1 := s.taken src 0xC109
      (pb (s.payloadOf src 0xC109 req) 2).testBit 1 = true ∧ s.restoring src = none ∧ s.engTakes src 0xC109 (nats req) p = true ∧
        (s1.restoreNew src p tpool.toNat descBase.toNat places).2 = some (stDone :: rsp) := by
  refine ⟨.i3c, bytes newP, 4096, 0, [], newP, [0, 7, 0], stBlob, by decide +kernel, by decide +kernel, by decide +kernel, ?_⟩
  have hr : (stBlob.taken .i3c 0xC109).readBlob (pf newP 4 2) (pf newP 8 8) = some (blobB, []) := blob_read
  simp only [State.restoreNew, hr]
  decide +kernel
theorem wit_relayRestoreApply : ∃ (src : CmdSrc) (req : List (BitVec 8)) (places : List Place) (p rsp : List Nat) (s : State),
      let s1 := s.taken src 0xC109
      (pb (s.payloadOf src 0xC109 req) 2).testBit 1 = false ∧ s.restoring src = none ∧ s.engTakes src 0xC109 (nats req) p = true ∧
        (s1.restoreApply src p places).2 = some (stDone :: rsp) := by
  refine ⟨.i3c, bytes applyP, [], applyP, [0, 5, 0], stBlob, by decide +kernel, by decide +kernel, by decide +kernel, ?_⟩
  have hr : (stBlob.taken .i3c 0xC109).readBlob (pf applyP 4 2) (pf applyP 8 8) = some (blobB, []) := blob_read
  simp only [State.restoreApply, hr]
  decide +kernel

theorem wit_HostRequestsComplete :
  -- memrd
  (∃ (p : Fin 8) (ld : Fin 16) (hpa : BitVec 52) (mv : MetaValue) (s : State),
      let r := hostReq .rd p.val ld.val hpa.toNat mv 0 0 s.time
      s.portServes p.val = true ∧ s.hasCredit p.val .rd = true) ∧
  -- memrddata
  (∃ (p : Fin 8) (ld : Fin 16) (hpa : BitVec 52) (s : State),
      let r := hostReq .rdData p.val ld.val hpa.toNat .i 0 0 s.time
      s.portServes p.val = true ∧ s.hasCredit p.val .rdData = true) ∧
  -- memclnevct
  (∃ (p : Fin 8) (ld : Fin 16) (hpa : BitVec 52) (s : State),
      let r := hostReq .clnEvct p.val ld.val hpa.toNat .i 0 0 s.time
      s.portServes p.val = true ∧ s.hasCredit p.val .clnEvct = true) ∧
  -- meminv
  (∃ (p : Fin 8) (ld : Fin 16) (hpa : BitVec 52) (s : State),
      let r := hostReq .inv p.val ld.val hpa.toNat .i 0 0 s.time
      s.portServes p.val = true ∧ s.hasCredit p.val .inv = true) ∧
  -- memwr
  (∃ (p : Fin 8) (ld : Fin 16) (hpa : BitVec 52) (mv : MetaValue) (data : BitVec 512) (s : State),
      let r := hostReq .wr p.val ld.val hpa.toNat mv data (BitVec.allOnes 64) s.time
      s.portServes p.val = true ∧ s.hasCredit p.val .wr = true) ∧
  -- memwrptl
  (∃ (p : Fin 8) (ld : Fin 16) (hpa : BitVec 52) (mv : MetaValue) (data : BitVec 512) (mask : BitVec 64) (s : State),
      let r := hostReq .wrPtl p.val ld.val hpa.toNat mv data mask s.time
      s.portServes p.val = true ∧ s.hasCredit p.val .wrPtl = true) :=
  ⟨⟨2, 1, 64, .s, stServe, by
    refine ⟨?_, ?_⟩
    all_goals first | decide +kernel | rfl⟩,
   ⟨2, 1, 64, stServe, by
    refine ⟨?_, ?_⟩
    all_goals first | decide +kernel | rfl⟩,
   ⟨2, 1, 64, stServe, by
    refine ⟨?_, ?_⟩
    all_goals first | decide +kernel | rfl⟩,
   ⟨2, 1, 64, stServe, by
    refine ⟨?_, ?_⟩
    all_goals first | decide +kernel | rfl⟩,
   ⟨2, 1, 64, .a, 5, stServe, by
    refine ⟨?_, ?_⟩
    all_goals first | decide +kernel | rfl⟩,
   ⟨2, 1, 64, .a, 5, 3, stServe, by
    refine ⟨?_, ?_⟩
    all_goals first | decide +kernel | rfl⟩⟩

theorem wit_SnoopAnswersComplete :
  -- birsp
  (∃ (p : Fin 8) (tag : Fin 64) (a : BiAnswer) (sn : Snoop) (s : State),
      s.findSnoop p.val tag.val = some sn ∧ birspOk sn.inv a = true) ∧
  -- biconflict_waits
  (∃ (p : Fin 8) (tag : Fin 64) (sn : Snoop) (s : State),
      let s1 := (s.put (pgPort p.val) Reg.PORT_BI_STAT_CONFLICTS (s.fld (pgPort p.val) Reg.PORT_BI_STAT_CONFLICTS + 1)).freeSnooped sn
      s.findSnoop p.val tag.val = some sn ∧ s1.inFlight sn = true) ∧
  -- biconflict
  (∃ (p : Fin 8) (tag : Fin 64) (sn : Snoop) (s : State),
      let s1 := (s.put (pgPort p.val) Reg.PORT_BI_STAT_CONFLICTS (s.fld (pgPort p.val) Reg.PORT_BI_STAT_CONFLICTS + 1)).freeSnooped sn
      s.findSnoop p.val tag.val = some sn ∧ s1.inFlight sn = false) ∧
  -- biTimeout
  (∃ (p : Fin 8) (tag : Fin 64) (sn : Snoop) (s : State),
      s.findSnoop p.val tag.val = some sn ∧ sn.at0 + 1000000 ≤ s.time ∧ (∀ d, s.dirGet sn.line = some d → ¬ (d.2.1 = 2 ∧ d.2.2 = p.val))) ∧
  -- biTimeout_owner
  (∃ (p : Fin 8) (tag : Fin 64) (sn : Snoop) (m : Nat) (s : State),
      s.findSnoop p.val tag.val = some sn ∧ sn.at0 + 1000000 ≤ s.time ∧ s.dirGet sn.line = some (m, 2, p.val)) :=
  ⟨⟨1, 3, .i, snoop0, { State.reset with snoops := [snoop0] }, by
    refine ⟨?_, ?_⟩
    all_goals first | decide +kernel | rfl⟩,
   ⟨1, 3, snoop0, { State.reset with snoops := [snoop0], reqs := [(0, { req0 with op := .wr, port := 1, hpa := 448, da := 64 * 7, tier := 1, phase := .pierWrite })] }, by
    refine ⟨?_, ?_⟩
    all_goals first | decide +kernel | rfl⟩,
   ⟨1, 3, snoop0, { State.reset with snoops := [snoop0] }, by
    refine ⟨?_, ?_⟩
    all_goals first | decide +kernel | rfl⟩,
   ⟨1, 3, snoop0, { State.reset with snoops := [snoop0], time := 1000000 }, by
    refine ⟨?_, ?_, ?_⟩
    all_goals first | decide +kernel | rfl⟩,
   ⟨1, 3, snoop0, 2, { State.reset with snoops := [snoop0], dir := [(7, ⟨2, 2, 1, false, false, 0⟩)], time := 1000000 }, by
    refine ⟨?_, ?_, ?_⟩
    all_goals first | decide +kernel | rfl⟩⟩

theorem wit_HeldWritesComplete :
  -- moveHoldExpired
  (∃ (id : BitVec 32) (b : Bursts) (r : Req) (f : Nat) (s : State),
      s.req? id.toNat = some r ∧ r.phase = .heldM ∧ r.firstHeld = some f ∧ (f + 4000 ≤ s.time ∨ s.coast = true)) ∧
  -- writeHeldDropped
  (∃ (id : BitVec 32) (r : Req) (f : Nat) (s : State),
      s.req? id.toNat = some r ∧ r.phase = .heldW ∧ r.firstHeld = some f ∧ f + 2000000 ≤ s.time) ∧
  -- allocTimeout
  (∃ (id : BitVec 32) (r : Req) (f : Nat) (s : State),
      s.req? id.toNat = some r ∧ r.phase = .heldAlloc ∧ r.firstHeld = some f ∧ f + 1000000 ≤ s.time) ∧
  -- viNotActive
  (∃ (id : BitVec 32) (r : Req) (s : State),
      s.req? id.toNat = some r ∧ r.phase = .lookup ∧ r.heldAt + 1000000 ≤ s.time) ∧
  -- reqTimeout
  (∃ (id : BitVec 32) (r : Req) (s : State),
      s.req? id.toNat = some r ∧ r.org = .host ∧ r.phase ≠ .answered ∧ r.orphan = false ∧ r.at0 + 2000000 ≤ s.time) :=
  ⟨⟨0, {}, { req0 with phase := .heldM, firstHeld := some 0 }, 0, { State.reset with reqs := [(0, { req0 with phase := .heldM, firstHeld := some 0 })], time := 4000 }, by
    refine ⟨?_, ?_, ?_, ?_⟩
    all_goals first | decide +kernel | rfl⟩,
   ⟨0, { req0 with phase := .heldW, firstHeld := some 0 }, 0, { State.reset with reqs := [(0, { req0 with phase := .heldW, firstHeld := some 0 })], time := 2000000 }, by
    refine ⟨?_, ?_, ?_, ?_⟩
    all_goals first | decide +kernel | rfl⟩,
   ⟨0, { req0 with phase := .heldAlloc, firstHeld := some 0 }, 0, { State.reset with reqs := [(0, { req0 with phase := .heldAlloc, firstHeld := some 0 })], time := 1000000 }, by
    refine ⟨?_, ?_, ?_, ?_⟩
    all_goals first | decide +kernel | rfl⟩,
   ⟨0, req0, { State.reset with reqs := [(0, req0)], time := 1000000 }, by
    refine ⟨?_, ?_, ?_⟩
    all_goals first | decide +kernel | rfl⟩,
   ⟨0, req0, { State.reset with reqs := [(0, req0)], time := 2000000 }, by
    refine ⟨?_, ?_, ?_, ?_, ?_⟩
    all_goals first | decide +kernel | rfl⟩⟩

theorem wit_TranslationComplete :
  -- walk_down
  (∃ (id : BitVec 32) (b : Bursts) (w : Walk) (d : BitVec 512) (s : State),
      let da := w.tbl + 8 * viaIndex w.via w.lvl
      let e := lineEntry d (da / 8 % 8)
let s1 := (s.metaRead da b).1.telPort w.port 0x12 1 (some ⟨0, some w.port, some w.vi, (s.vi w.vi).cls, some da⟩)
      let w1 : Walk := { w with lineDa := 64 * (da / 64), lvl := w.lvl - 1, tbl := 4096 * leafAddr e, path := (w.lvl, 4096 * leafAddr e) :: w.path }
      SMap.get? s.walks id.toNat = some w ∧ (s.vi w.vi).inPool w.tbl = true ∧ (s.metaRead da b).2 = .ok d ∧ leafV e = true ∧ leafL e = false ∧ 1 < w.lvl) ∧
  -- walk_leaf
  (∃ (id : BitVec 32) (b : Bursts) (w : Walk) (d : BitVec 512) (s : State),
      let da := w.tbl + 8 * viaIndex w.via w.lvl
      let e := lineEntry d (da / 8 % 8)
      SMap.get? s.walks id.toNat = some w ∧ (s.vi w.vi).inPool w.tbl = true ∧ (s.metaRead da b).2 = .ok d ∧ leafV e = true ∧ (w.lvl = 1 ∨ leafL e = true) ∧ ((s.metaRead da b).1.telPort w.port 0x12 1 (some ⟨0, some w.port, some w.vi, (s.vi w.vi).cls, some da⟩)).leafFault e w.lvl w.via = none) ∧
  -- compareAndWrite
  (∃ (eng : Fin 64) (da : BitVec 48) (old new : BitVec 64) (b : Bursts) (s : State),
      (s.eng eng.val).running = true ∧ s.daKind da.toNat = .metadata ∧ s.lineFree (da.toNat / 64) = true ∧ s.metaReady da.toNat = true) ∧
  -- portTlbInv
  (∃ (p : Fin 8) (s : State),
      let pg := pgPort p.val
      let i : Inval := ⟨true, s.fld pg Reg.PORT_INV_SCOPE_VI_TAG, s.fld pg Reg.PORT_INV_SCOPE_SCOPE, s.fld pg Reg.PORT_INV_SCOPE_COUNT, s.fld pg Reg.PORT_INV_VIA_VIA⟩
      s.pageShut pg = false ∧ (s.prt p.val).inv = none ∧ i.scope ≠ 3 ∧ (i.scope = 0 → i.count ≠ 0)) ∧
  -- portTlbInv_empty
  (∃ (p : Fin 8) (s : State),
      let pg := pgPort p.val
      s.pageShut pg = false ∧ (s.prt p.val).inv = none ∧ s.fld pg Reg.PORT_INV_SCOPE_SCOPE = 0 ∧ s.fld pg Reg.PORT_INV_SCOPE_COUNT = 0) ∧
  -- portWalkInv
  (∃ (p : Fin 8) (s : State),
      let pg := pgPort p.val
      let i : Inval := ⟨false, s.fld pg Reg.PORT_INV_SCOPE_VI_TAG, s.fld pg Reg.PORT_INV_SCOPE_SCOPE, s.fld pg Reg.PORT_INV_SCOPE_COUNT, s.fld pg Reg.PORT_INV_VIA_VIA⟩
      s.pageShut pg = false ∧ (s.prt p.val).inv = none ∧ i.scope ≠ 3) ∧
  -- invalidationDone
  (∃ (p : Fin 8) (i : Inval) (s : State),
      (s.prt p.val).inv = some i ∧ (s.walks.any (fun x => x.2.port == p.val && x.2.stale)) = false ∧ (i.tlb && s.reqs.any (fun x => x.2.port == p.val && x.2.phase == .chained && i.hits x.2.vi (x.2.via / 4096) x.2.lvl)) = false) :=
  ⟨⟨0, {}, walk0, stWalk.meta0 0, stWalk, by
    refine ⟨?_, ?_, ?_, ?_, ?_, ?_⟩
    all_goals first | decide +kernel | rfl⟩,
   ⟨0, {}, { walk0 with lvl := 1, tbl := 4096 * 2 }, stWalk.meta0 (4096 * 2), { stWalk with walks := [(0, { walk0 with lvl := 1, tbl := 4096 * 2 })] }, by
    refine ⟨?_, ?_, ?_, ?_, ?_, ?_⟩
    all_goals first | decide +kernel | rfl⟩,
   ⟨3, 0, 0, 1, {}, stWalk.setEng 3 { Engine.blank with running := true }, by
    refine ⟨?_, ?_, ?_, ?_⟩
    all_goals first | decide +kernel | rfl⟩,
   ⟨4, State.reset.put (pgPort 4) Reg.PORT_INV_SCOPE_SCOPE 2, by
    refine ⟨?_, ?_, ?_, ?_⟩
    all_goals first | decide +kernel | rfl⟩,
   ⟨4, State.reset, by
    refine ⟨?_, ?_, ?_, ?_⟩
    all_goals first | decide +kernel | rfl⟩,
   ⟨4, State.reset, by
    refine ⟨?_, ?_, ?_⟩
    all_goals first | decide +kernel | rfl⟩,
   ⟨4, ⟨true, 0, 2, 0, 0⟩, State.reset.setPrt 4 { Prt.blank with inv := some ⟨true, 0, 2, 0, 0⟩ }, by
    refine ⟨?_, ?_, ?_⟩
    all_goals first | decide +kernel | rfl⟩⟩

theorem wit_PierTrafficComplete :
  -- lineBurst
  (∃ (id : BitVec 32) (flip : BitVec 640) (r : Req) (att : Nat) (s : State),
      s.req? id.toNat = some r ∧ r.phase = .pierRead att ∧ att < 2 ∧ s.lineRuns r.da = true ∧ s.readQueued r = true) ∧
  -- recompute
  (∃ (id : BitVec 32) (b : Bursts) (r : Req) (s : State),
      s.req? id.toNat = some r ∧ r.phase = .recompute ∧ s.sourcesRun r.da 0 r.vi = true) ∧
  -- counterRequest
  (∃ (id : BitVec 32) (r : Req) (v : Line) (s : State),
      s.req? id.toNat = some r ∧ r.phase = .pierRead 2 ∧ r.last = some v) ∧
  -- writeQueueAccept
  (∃ (id : BitVec 32) (r : Req) (m : Ma) (s : State),
      s.req? id.toNat = some r ∧ r.phase = .pierWrite ∧ r.org.isJob = false ∧ r.tier ≠ 0 ∧ s.gone r.da 0 = false ∧ (s.advance r.da).2 ≠ .refused ∧ s.lineMa r.da 0 = some m ∧ s.wqFill m.hpier m.sub < 128 ∧ s.gateShut (17 + m.hpier) = false ∧ s.linkHeld m.hpier = false ∧ s.pierSeq m.hpier = true) ∧
  -- writeDrain
  (∃ (n : Fin 16) (sub : Fin 2) (count : Fin 129) (s : State),
      s.gateShut (17 + n.val) = false ∧ s.pierSeq n.val = true ∧ (s.pier n.val).freq = false ∧ (s.pier n.val).pause.testBit sub.val = false ∧ s.drainDue n.val sub.val = true) :=
  ⟨⟨0, 1, { req0 with phase := .pierRead 1 }, 1, { State.reset with reqs := [(0, { req0 with phase := .pierRead 1 })] }, by
    refine ⟨?_, ?_, ?_, ?_, ?_⟩
    all_goals first | decide +kernel | rfl⟩,
   ⟨0, {}, { req0 with phase := .recompute }, { State.reset with reqs := [(0, { req0 with phase := .recompute })] }, by
    refine ⟨?_, ?_, ?_⟩
    all_goals first | decide +kernel | rfl⟩,
   ⟨0, { req0 with phase := .pierRead 2, last := some ⟨0, 0⟩ }, ⟨0, 0⟩, { State.reset with reqs := [(0, { req0 with phase := .pierRead 2, last := some ⟨0, 0⟩ })] }, by
    refine ⟨?_, ?_, ?_⟩
    all_goals first | decide +kernel | rfl⟩,
   ⟨0, { req0 with op := .wr, phase := .pierWrite, tier := 1 }, (stSpan.lineMa 0 0).getD ⟨0, 0, 0, 0, 0, false, 0, 0, 0, 0, 0, 0⟩, { (stSpan.put (pgPier 2) (Reg.SEQ_CTL_LENGTH 0x900) 1) with reqs := [(0, { req0 with op := .wr, phase := .pierWrite, tier := 1 })] }, by
    refine ⟨?_, ?_, ?_, ?_, ?_, ?_, ?_, ?_, ?_, ?_, ?_⟩
    all_goals first | decide +kernel | rfl⟩,
   ⟨2, 0, 40, stRun, by
    refine ⟨?_, ?_, ?_, ?_, ?_⟩
    all_goals first | decide +kernel | rfl⟩⟩

theorem wit_PacerComplete_1 :
  -- urgLevelChange
  (∃ (p : Fin 8) (level : Fin 4) (s : State),
      (s.prt p.val).trWidth ≤ (s.prt p.val).l0p) ∧
  -- urgLevelChange_none
  (∃ (p : Fin 8) (level : Fin 4) (s : State),
      let s1 := (s.put (pgPort p.val) Reg.PORT_PINS_URG level.val).urgUpdate p.val
      (s1.prt p.val).urgLevel = 0) ∧
  -- urgLevelChange_widen
  (∃ (p : Fin 8) (level : Fin 4) (s : State),
      let s1 := (s.put (pgPort p.val) Reg.PORT_PINS_URG level.val).urgUpdate p.val
      1 ≤ (s1.prt p.val).urgLevel ∧ (s.prt p.val).l0p < (s.prt p.val).trWidth ∧ s.flag (pgPort p.val) Reg.PORT_LINK_CTL_L0P_EN = true) ∧
  -- urgOverstay
  (∃ (p : Fin 8) (t0 : Nat) (s : State),
      (s.prt p.val).urg3At = some t0 ∧ t0 + 1000000 * s.fld pgPacer Reg.PACER_CTL_URG3_MAX_MS < s.time) ∧
  -- urgOverstayEnd
  (∃ (p : Fin 8) (t0 : Nat) (s : State),
      (s.prt p.val).demote = some t0 ∧ t0 ≤ s.time) ∧
  -- pacerHotspot
  (∃ (n : Fin 16) (s : State),
      s.flag pgPacer (Reg.PACER_PIER_HOT n.val) = false) ∧
  -- pacerPortGuarWrite
  (∃ (p : Fin 8) (v : BitVec 32) (s : State),
      v.toNat.testBit 18 = false ∧ v.toNat.testBit 19 = false ∧ s.fitsDevice (s.admitted - s.portGuar p.val + bits v.toNat 0 10) = true ∧ s.fitsPort (s.trainedBw p.val) (s.portCharge p.val - s.portGuar p.val + bits v.toNat 0 10) = true) :=
  ⟨⟨7, 3, State.reset, by
    refine ?_
    all_goals first | decide +kernel | rfl⟩,
   ⟨7, 3, State.reset, by
    refine ?_
    all_goals first | decide +kernel | rfl⟩,
   ⟨7, 1, (((State.reset.put (pgPort 7) Reg.PORT_LINK_STAT_UP 1).put (pgPort 7) Reg.PORT_PINS_PERST_N 1).put (pgPort 7) Reg.PORT_LINK_CTL_L0P_EN 1).setPrt 7 { Prt.blank with l0p := 8, trWidth := 16 }, by
    refine ⟨?_, ?_, ?_⟩
    all_goals first | decide +kernel | rfl⟩,
   ⟨7, 0, { State.reset.setPrt 7 { Prt.blank with urg3At := some 0 } with time := 10 ^ 9 }, by
    refine ⟨?_, ?_⟩
    all_goals first | decide +kernel | rfl⟩,
   ⟨7, 5, { State.reset.setPrt 7 { Prt.blank with demote := some 5 } with time := 5 }, by
    refine ⟨?_, ?_⟩
    all_goals first | decide +kernel | rfl⟩,
   ⟨15, State.reset, by
    refine ?_
    all_goals first | decide +kernel | rfl⟩,
   ⟨7, 0, State.reset, by
    refine ⟨?_, ?_, ?_, ?_⟩
    all_goals first | decide +kernel | rfl⟩⟩

theorem wit_PacerComplete_2 :
  -- pacerPortGuarWrite_refused
  (∃ (p : Fin 8) (v : BitVec 32) (s : State),
      v.toNat.testBit 18 = false ∧ v.toNat.testBit 19 = false ∧ (s.fitsDevice (s.admitted - s.portGuar p.val + bits v.toNat 0 10) && s.fitsPort (s.trainedBw p.val) (s.portCharge p.val - s.portGuar p.val + bits v.toNat 0 10)) = false) :=
  ⟨7, 1, State.reset, by
    refine ⟨?_, ?_, ?_⟩
    all_goals first | decide +kernel | rfl⟩

theorem wit_PackedRequestsComplete :
  -- t2LineRead
  (∃ (id : BitVec 32) (b : Bursts) (r : Req) (d : BitVec 512) (s : State),
      let s1 := (s.descRead r.da b).1
      s.req? id.toNat = some r ∧ r.phase = .t2desc ∧ s1.wbufEnt r.da r.sub = none ∧ (s.descRead r.da b).2 = .ok d ∧ s1.descCheck d.toNat r.vi = .ok ∧ (descRec d.toNat r.sub).len ≠ 0) ∧
  -- subblockDecode
  (∃ (id : BitVec 32) (bs : List Bursts) (r : Req) (d : BitVec 512) (ls : List (BitVec 512 × Bool)) (s : State),
      let s1 := (s.descRead r.da {}).1
      s.req? id.toNat = some r ∧ r.phase = .t2sub ∧ (s.descRead r.da {}).2 = .ok d ∧ ((descRec d.toNat r.sub).raw = true ∨ s1.codecOpen (s1.recPier (descRec d.toNat r.sub)) = true) ∧ (s1.recLine r.vi r.lds (descRec d.toNat r.sub) r.subLine bs).2 = .lines ls ∧ (s1.recLine r.vi r.lds (descRec d.toNat r.sub) r.subLine bs).1.wbufEnt r.da r.sub = none) ∧
  -- t2Write
  (∃ (id : BitVec 32) (copy : Bool) (r : Req) (d : BitVec 512) (s : State),
      let s1 := (s.descRead r.da {}).1
      s.req? id.toNat = some r ∧ r.phase = .t2write ∧ r.org ≠ .home ∧ (s.descRead r.da {}).2 = .ok d ∧ s1.descCheck d.toNat r.vi = .ok ∧ (copy = true ∨ s1.wbufRoom r.da r.sub = true) ∧ (copy = true → r.accP = true) ∧ (copy = false → r.accM = true)) ∧
  -- subblockRewrite
  (∃ (d : BitVec 40) (sb : Fin 4) (bs : List Bursts) (stream : List (BitVec 8)) (w : WBuf) (x : BitVec 512) (ls : List (BitVec 512 × Bool)) (s : State),
      let s1 := (s.descRead d.toNat {}).1
      let s2 := (s1.readSub (descVi x.toNat) (descRec x.toNat sb.val) bs).1
      s.wbufEnt d.toNat sb.val = some w ∧ (s.descRead d.toNat {}).2 = .ok x ∧ s1.descCheck x.toNat (descVi x.toNat) = .ok ∧ s1.descReady d.toNat = true ∧ s1.codecOpen (s1.descPier d.toNat) = true ∧ (s1.readSub (descVi x.toNat) (descRec x.toNat sb.val) bs).2 = .lines ls) :=
  ⟨⟨0, {}, { reqT2 with phase := .t2desc }, descUsed1, stT2 .t2desc, by
    refine ⟨?_, ?_, ?_, ?_, ?_, ?_⟩
    all_goals first | decide +kernel | rfl⟩,
   ⟨0, [], { reqT2 with phase := .t2sub }, BitVec.ofNat 512 descZero, List.replicate 16 (0, false), stT2z .t2sub, by
    refine ⟨?_, ?_, ?_, ?_, ?_, ?_⟩
    all_goals first | decide +kernel | rfl⟩,
   ⟨0, false, { reqT2 with phase := .t2write, accM := true }, BitVec.ofNat 512 descZero, { stT2z .t2write with reqs := [(0, { reqT2 with phase := .t2write, accM := true })] }, by
    refine ⟨?_, ?_, ?_, ?_, ?_, ?_, ?_, ?_⟩
    all_goals first | decide +kernel | rfl⟩,
   ⟨0, 0, [], [], wbufAll, BitVec.ofNat 512 descZero, List.replicate 16 (0, false), stT2z', by
    refine ⟨?_, ?_, ?_, ?_, ?_, ?_⟩
    all_goals first | decide +kernel | rfl⟩⟩

theorem wit_PackedStripesComplete_1 :
  -- stripeClose
  (∃ (n : Fin 16) (k : BitVec 32) (o : OpenStripe) (s : State),
      (s.pier n.val).open_.find? (fun o => o.base == 65536 * k.toNat) = some o ∧ s.offline n.val = false ∧ o.closed = false ∧ 240 ≤ o.used ∧ s.stripeDue n.val o = true) ∧
  -- stripeClose_padded
  (∃ (n : Fin 16) (k : BitVec 32) (o : OpenStripe) (s : State),
      (s.pier n.val).open_.find? (fun o => o.base == 65536 * k.toNat) = some o ∧ s.offline n.val = false ∧ o.closed = false ∧ o.used < 240 ∧ s.stripeDue n.val o = true) ∧
  -- stripeWritten
  (∃ (k : BitVec 32) (o : OpenStripe) (s : State),
      s.openStripe (65536 * k.toNat) = some o ∧ o.closed = true ∧ s.offline (s.stripeOwner o.base) = false) ∧
  -- pierPsPush
  (∃ (n : Fin 16) (v : BitVec 32) (i b : Nat) (s : State),
      s.pageShut (pgPier n.val) = false ∧ s.stripeBase (65536 * v.toNat / 256) = some (i, b) ∧ s.spanMember i (s.parityMember i (65536 * v.toNat)) = n.val ∧ (s.pier n.val).freeQ.length < 256) ∧
  -- pierPsPush_full
  (∃ (n : Fin 16) (v : BitVec 32) (s : State),
      s.pageShut (pgPier n.val) = false ∧ 256 ≤ (s.pier n.val).freeQ.length) ∧
  -- gcSelect
  (∃ (k : BitVec 32) (s : State),
      s.engNew = true ∧ s.gcRuns = true ∧ s.gcNext k.toNat = true ∧ (s.stripe k.toNat).starts = []) ∧
  -- gcSelect_job
  (∃ (k : BitVec 32) (sec d sb : Nat) (x : BitVec 512) (s : State),
      let s1 := s.setStripe k.toNat { (s.stripe k.toNat) with st := 3 }
      s.engNew = true ∧ s.gcRuns = true ∧ s.gcNext k.toNat = true ∧ (s.stripe k.toNat).starts = [(sec, d, sb)] ∧ (s.descRead d {}).2 ≠ .wait ∧ (s1.descRead d {}).2 = .ok x ∧ descUsed x.toNat = true ∧ (descRec x.toNat sb).sector = (s1.descRead d {}).1.dataSectorDa (65536 * k.toNat) sec / 256 ∧ (descRec x.toNat sb).cnt ≠ 0) :=
  ⟨⟨2, 3, ⟨65536 * 3, 0, 240, [], [], 0, false⟩, ({ State.reset with time := 10 ^ 9 } : State).setPier 2 { Pr.blank with open_ := [⟨65536 * 3, 0, 240, [], [], 0, false⟩] }, by
    refine ⟨?_, ?_, ?_, ?_, ?_⟩
    all_goals first | decide +kernel | rfl⟩,
   ⟨2, 3, ⟨65536 * 3, 0, 239, [], [], 0, false⟩, ({ State.reset with time := 10 ^ 9 } : State).setPier 2 { Pr.blank with open_ := [⟨65536 * 3, 0, 239, [], [], 0, false⟩] }, by
    refine ⟨?_, ?_, ?_, ?_, ?_⟩
    all_goals first | decide +kernel | rfl⟩,
   ⟨32768, ⟨65536 * 32768, 0, 240, [], [], 0, true⟩, stOpen, by
    refine ⟨?_, ?_, ?_⟩
    all_goals first | decide +kernel | rfl⟩,
   ⟨0, 32768, 2, 65536 * 32768, stPs, by
    refine ⟨?_, ?_, ?_, ?_⟩
    all_goals first | decide +kernel | rfl⟩,
   ⟨5, 3, State.reset.setPier 5 { Pr.blank with freeQ := List.replicate 256 0 }, by
    refine ⟨?_, ?_⟩
    all_goals first | decide +kernel | rfl⟩,
   ⟨0, { stRun with stripes := [(0, ⟨0, 2, true, false, []⟩)] }, by
    refine ⟨?_, ?_, ?_, ?_⟩
    all_goals first | decide +kernel | rfl⟩,
   ⟨32768, 0, 0, 0, descUsed1, stGc, by
    refine ⟨?_, ?_, ?_, ?_, ?_, ?_, ?_, ?_, ?_⟩
    all_goals first | decide +kernel | rfl⟩⟩

theorem wit_PackedStripesComplete_2 :
  -- relocation_dead
  (∃ (d : BitVec 40) (sb : Fin 4) (bs : List Bursts) (j : Reloc) (x : BitVec 512) (s : State),
      let s1 := (s.descRead d.toNat {}).1
      SMap.get? s.relocs (4 * d.toNat + sb.val) = some j ∧ (s.descRead d.toNat {}).2 = .ok x ∧ j.dst = none ∧ s.coast = false ∧ s.gcRuns = true ∧ ((descRec x.toNat sb.val).sector ≠ j.sector ∨ descGen x.toNat ≠ j.gen)) ∧
  -- relocation
  (∃ (d : BitVec 40) (sb : Fin 4) (bs : List Bursts) (j : Reloc) (x : BitVec 512) (ls : List (BitVec 512 × Bool)) (first : Nat) (s : State),
      let s1 := (s.descRead d.toNat {}).1
      let q := s1.sectorReads none ((List.range (4 * j.cnt)).map (fun i => s1.sectorLine j.sector i)) bs
      let p := q.1.place (q.1.descPier d.toNat) (q.1.regionId (256 * j.sector)) j.cnt d.toNat sb.val ls
      SMap.get? s.relocs (4 * d.toNat + sb.val) = some j ∧ (s.descRead d.toNat {}).2 = .ok x ∧ j.dst = none ∧ s.coast = false ∧ s.gcRuns = true ∧ (descRec x.toNat sb.val).sector = j.sector ∧ descGen x.toNat = j.gen ∧ q.2 = some ls ∧ p.2 = some first) ∧
  -- relocationCommit
  (∃ (d : BitVec 40) (sb : Fin 4) (j : Reloc) (first i b : Nat) (x : BitVec 512) (s : State),
      let s1 := (s.descRead d.toNat {}).1
      let s2 : State := { s1 with relocs := SMap.del s1.relocs (4 * d.toNat + sb.val) }
      SMap.get? s.relocs (4 * d.toNat + sb.val) = some j ∧ j.dst = some first ∧ s.stripeBase first = some (i, b) ∧ s.openStripe b = none ∧ (s.stripe (b / 65536)).st ≠ 1 ∧ s.descReady d.toNat = true ∧ (s.descRead d.toNat {}).2 = .ok x ∧ descUsed x.toNat = true ∧ (descRec x.toNat sb.val).sector = j.sector ∧ descGen x.toNat = j.gen) :=
  ⟨⟨0, 0, [], ⟨9, 0, none, 1⟩, BitVec.ofNat 512 descZero, { stT2z' with relocs := [(0, ⟨9, 0, none, 1⟩)] }, by
    refine ⟨?_, ?_, ?_, ?_, ?_, ?_⟩
    all_goals first | decide +kernel | rfl⟩,
   ⟨0, 0, [], relocJ, descUsed1, List.replicate 4 (0, true), 8389120, stRel, by
    refine ⟨?_, ?_, ?_, ?_, ?_, ?_, ?_, ?_, ?_⟩
    all_goals first | decide +kernel | rfl⟩,
   ⟨0, 0, relocK, sec0 + 256, 2, 65536 * 32769, descUsed1, { stGc with relocs := [(0, relocK)] }, by
    refine ⟨?_, ?_, ?_, ?_, ?_, ?_, ?_, ?_, ?_, ?_⟩
    all_goals first | decide +kernel | rfl⟩⟩

theorem wit_DramUpkeepComplete_1 :
  -- refresh
  (∃ (n : Fin 16) (rank : Fin 8) (s : State),
      let s1 := s.setPier n.val { (s.pier n.val) with refs := (s.pier n.val).refs + 1 }
      let turn := (s.pier n.val).refs % 4
      s.channelUp n.val = true ∧ (s.pier n.val).pause = 0 ∧ rank.val < s.ranks n.val) ∧
  -- mr4Poll
  (∃ (n : Fin 16) (hot : Bool) (s : State),
      s.channelUp n.val = true) ∧
  -- zqcalStart
  (∃ (n : Fin 16) (sub : Fin 2) (s : State),
      s.pausesRun n.val = true) ∧
  -- trainPause
  (∃ (n : Fin 16) (sub : Fin 2) (s : State),
      s.pausesRun n.val = true ∧ s.noPause = true ∧ s.pauseDue n.val sub.val = true ∧ (s.pier n.val).zqReady sub.val s.time = true) ∧
  -- trainPauseEnd
  (∃ (n : Fin 16) (sub : Fin 2) (delays : List (BitVec 36)) (s : State),
      let p : Pr := { (s.pier n.val) with pause := clrBit (s.pier n.val).pause sub.val }
      (s.pier n.val).pause.testBit sub.val = true) ∧
  -- adaptNsExpiry
  (∃ (n : Fin 16) (bank : Fin 512) (row t0 : Nat) (s : State),
      SMap.get? (s.pier n.val).rows bank.val = some (row, 2, t0) ∧ t0 + s.fld (pgPier n.val) Reg.PIER_DCTL_ADAPT_NS ≤ s.time) ∧
  -- switch
  (∃ (n : Fin 16) (s : State),
      s.pageShut (pgPier n.val) = false ∧ s.flag (pgPier n.val) Reg.PIER_SPEED_BUSY = false ∧ s.flag (pgPier n.val) (Reg.PIER_TSET_VALID (1 - s.fld (pgPier n.val) Reg.PIER_SPEED_ACTIVE_SET)) = true ∧ s.changing < 4) :=
  ⟨⟨2, 0, { (State.reset.put (pgPier 2) Reg.PIER_DCTL_CH_EN 1) with pwr := { State.reset.pwr with state := 0 } }, by
    refine ⟨?_, ?_, ?_⟩
    all_goals first | decide +kernel | rfl⟩,
   ⟨2, true, { (State.reset.put (pgPier 2) Reg.PIER_DCTL_CH_EN 1) with pwr := { State.reset.pwr with state := 0 } }, by
    refine ?_
    all_goals first | decide +kernel | rfl⟩,
   ⟨2, 1, stRun, by
    refine ?_
    all_goals first | decide +kernel | rfl⟩,
   ⟨2, 1, { stRun.setPier 2 { Pr.blank with zq := [(1, 0)] } with time := 1000 }, by
    refine ⟨?_, ?_, ?_, ?_⟩
    all_goals first | decide +kernel | rfl⟩,
   ⟨2, 1, [], State.reset.setPier 2 { Pr.blank with pause := 2 }, by
    refine ?_
    all_goals first | decide +kernel | rfl⟩,
   ⟨2, 511, 9, 0, { State.reset.setPier 2 { Pr.blank with rows := [(511, (9, 2, 0))] } with time := 100000 }, by
    refine ⟨?_, ?_⟩
    all_goals first | decide +kernel | rfl⟩,
   ⟨2, State.reset.put (pgPier 2) (Reg.PIER_TSET_VALID 1) 1, by
    refine ⟨?_, ?_, ?_, ?_⟩
    all_goals first | decide +kernel | rfl⟩⟩

theorem wit_DramUpkeepComplete_2 :
  -- switch_queued
  (∃ (n : Fin 16) (s : State),
      s.pageShut (pgPier n.val) = false ∧ s.flag (pgPier n.val) Reg.PIER_SPEED_BUSY = false ∧ s.flag (pgPier n.val) (Reg.PIER_TSET_VALID (1 - s.fld (pgPier n.val) Reg.PIER_SPEED_ACTIVE_SET)) = true ∧ 4 ≤ s.changing) ∧
  -- switch_refused
  (∃ (n : Fin 16) (s : State),
      s.pageShut (pgPier n.val) = false ∧ (s.flag (pgPier n.val) Reg.PIER_SPEED_BUSY = true ∨ s.flag (pgPier n.val) (Reg.PIER_TSET_VALID (1 - s.fld (pgPier n.val) Reg.PIER_SPEED_ACTIVE_SET)) = false)) ∧
  -- timingSetWrite
  (∃ (n : Fin 16) (set : Fin 2) (off : Fin 32) (v : BitVec 32) (s : State),
      s.pageShut (pgPier n.val) = false ∧ s.fld (pgPier n.val) Reg.PIER_SPEED_ACTIVE_SET ≠ set.val) ∧
  -- timingSetWrite_active
  (∃ (n : Fin 16) (set : Fin 2) (off : Fin 32) (v : BitVec 32) (s : State),
      s.pageShut (pgPier n.val) = false ∧ s.fld (pgPier n.val) Reg.PIER_SPEED_ACTIVE_SET = set.val) ∧
  -- freqChangeDone
  (∃ (n : Fin 16) (s : State),
      let pg := pgPier n.val
      let k := 1 - s.fld pg Reg.PIER_SPEED_ACTIVE_SET
      let old := s.fld pg Reg.PIER_SPEED_RATE
      let new := s.fld pg (Reg.PIER_TSET_RATE k)
      let s1 := (((((s.setPier n.val { (s.pier n.val) with freq := false }).put pg Reg.PIER_SPEED_ACTIVE_SET k).put pg Reg.PIER_SPEED_RATE new).put pg Reg.PIER_SPEED_BUSY 0).exitPauses n.val).raise (132 + 16 * n.val) 0x106 INFO none 0 (detail [old % 256, old / 256, new % 256, new / 256])
      (s.pier n.val).freq = true ∧ (List.range 16).find? (fun q => (s1.pier q).freqQ) = none) ∧
  -- freqChangeDone_next
  (∃ (n : Fin 16) (q : Nat) (s : State),
      let pg := pgPier n.val
      let k := 1 - s.fld pg Reg.PIER_SPEED_ACTIVE_SET
      let old := s.fld pg Reg.PIER_SPEED_RATE
      let new := s.fld pg (Reg.PIER_TSET_RATE k)
      let s1 := (((((s.setPier n.val { (s.pier n.val) with freq := false }).put pg Reg.PIER_SPEED_ACTIVE_SET k).put pg Reg.PIER_SPEED_RATE new).put pg Reg.PIER_SPEED_BUSY 0).exitPauses n.val).raise (132 + 16 * n.val) 0x106 INFO none 0 (detail [old % 256, old / 256, new % 256, new / 256])
      (s.pier n.val).freq = true ∧ (List.range 16).find? (fun q => (s1.pier q).freqQ) = some q) :=
  ⟨⟨2, { (State.reset.put (pgPier 2) (Reg.PIER_TSET_VALID 1) 1) with piers := [(4, { Pr.blank with freq := true }), (5, { Pr.blank with freq := true }), (6, { Pr.blank with freq := true }), (7, { Pr.blank with freq := true })] }, by
    refine ⟨?_, ?_, ?_, ?_⟩
    all_goals first | decide +kernel | rfl⟩,
   ⟨2, State.reset, by
    refine ⟨?_, ?_⟩
    all_goals first | decide +kernel | rfl⟩,
   ⟨2, 1, 31, 5, State.reset, by
    refine ⟨?_, ?_⟩
    all_goals first | decide +kernel | rfl⟩,
   ⟨2, 0, 31, 5, State.reset, by
    refine ⟨?_, ?_⟩
    all_goals first | decide +kernel | rfl⟩,
   ⟨2, State.reset.setPier 2 { Pr.blank with freq := true }, by
    refine ⟨?_, ?_⟩
    all_goals first | decide +kernel | rfl⟩,
   ⟨2, 5, (State.reset.setPier 2 { Pr.blank with freq := true }).setPier 5 { Pr.blank with freqQ := true }, by
    refine ⟨?_, ?_⟩
    all_goals first | decide +kernel | rfl⟩⟩

theorem wit_ScrubComplete :
  -- pierLiuCtlWrite
  (∃ (n : Fin 16) (v : BitVec 32) (s : State),
      s.pageShut (pgPier n.val) = false) ∧
  -- scrubStep_skip
  (∃ (n : Fin 16) (b : Bursts) (rank line da copy : Nat) (s : State),
      let s1 := s.leaveIdle
      (s.pier n.val).scrub = some (rank, line) ∧ s1.serving = true ∧ s1.urg3 = false ∧ s1.pierOn n.val = true ∧ s1.pierSeq n.val = true ∧ s1.gateShut (17 + n.val) = false ∧ s1.daOfLine n.val rank line = some (da, copy) ∧ s1.scrubSkips da = true) ∧
  -- scrubStep
  (∃ (n : Fin 16) (b : Bursts) (rank line da copy : Nat) (s : State),
      let s1 := s.leaveIdle
      (s.pier n.val).scrub = some (rank, line) ∧ s1.serving = true ∧ s1.urg3 = false ∧ s1.pierOn n.val = true ∧ s1.pierSeq n.val = true ∧ s1.gateShut (17 + n.val) = false ∧ s1.daOfLine n.val rank line = some (da, copy) ∧ s1.scrubSkips da = false ∧ s1.copyRuns da copy = true ∧ (s1.scrubLine da copy b).2 = true) ∧
  -- scrubPeriodEnd_late
  (∃ (n : Fin 16) (at_ : Nat × Nat) (s : State),
      (s.pier n.val).scrubEnd ≤ s.time ∧ s.ready = true ∧ (s.pier n.val).scrub = some at_ ∧ (s.pier n.val).scrubLate = false) ∧
  -- scrubPeriodEnd
  (∃ (n : Fin 16) (s : State),
      (s.pier n.val).scrubEnd ≤ s.time ∧ s.ready = true ∧ (s.pier n.val).scrub = none) :=
  ⟨⟨2, 0x01010101, State.reset, by
    refine ?_
    all_goals first | decide +kernel | rfl⟩,
   ⟨2, {}, 0, 0, 0, 0, (stSpan.put 2 Reg.HUB_XLAT_FSPAN_FRAME_SPANS 1).setPier 2 { Pr.blank with scrub := some (0, 0) }, by
    refine ⟨?_, ?_, ?_, ?_, ?_, ?_, ?_, ?_⟩
    all_goals first | decide +kernel | rfl⟩,
   ⟨2, {}, 0, 0, 0, 0, { (stSpan.put (pgPier 2) Reg.PIER_DCTL_CH_EN 1).setPier 2 { Pr.blank with scrub := some (0, 0) } with owner := [(0, 5)], media := [(0, mkLine 5 0 0 (sideHi 0 0 0 0 1 false false 0))] }, by
    refine ⟨?_, ?_, ?_, ?_, ?_, ?_, ?_, ?_, ?_, ?_⟩
    all_goals first | decide +kernel | rfl⟩,
   ⟨2, (0, 3), stRun.setPier 2 { Pr.blank with scrub := some (0, 3) }, by
    refine ⟨?_, ?_, ?_, ?_⟩
    all_goals first | decide +kernel | rfl⟩,
   ⟨2, stRun, by
    refine ⟨?_, ?_, ?_⟩
    all_goals first | decide +kernel | rfl⟩⟩

theorem wit_SparingComplete :
  -- sparingStart
  (∃ (n : Fin 16) (rank : Fin 8) (m : Nat) (s : State),
      let pg := pgPier n.val
      let s1 := s.setPier n.val { (s.pier n.val) with pendRank := (s.pier n.val).pendRank.filter (fun x => x != rank.val) }
      let phys := s1.fld (pgPier m) Reg.PIER_GEOM_SPARE_RANK
      let s2 := (((s1.put pg Reg.PIER_SPARE_CTL_FAIL_RANK rank.val).put pg Reg.PIER_SPARE_CTL_SPARE_PIER m).put pg Reg.PIER_SPARE_CTL_SPARE_PHYS phys).put pg Reg.PIER_SPARE_CTL_STATE 1
      let s3 := if m = n.val then s2 else s2.put (pgPier m) Reg.PIER_SPARE_CTL_LENT 1
      s.engNew = true ∧ (s.pier n.val).pendRank.contains rank.val = true ∧ s.fld pg Reg.PIER_SPARE_CTL_STATE = 0 ∧ s1.sparing n.val rank.val = false ∧ s1.chooseSpare n.val = some m) ∧
  -- sparingStart_none
  (∃ (n : Fin 16) (rank : Fin 8) (s : State),
      let s1 := s.setPier n.val { (s.pier n.val) with pendRank := (s.pier n.val).pendRank.filter (fun x => x != rank.val) }
      s.engNew = true ∧ (s.pier n.val).pendRank.contains rank.val = true ∧ s.fld (pgPier n.val) Reg.PIER_SPARE_CTL_STATE = 0 ∧ s1.sparing n.val rank.val = false ∧ s1.chooseSpare n.val = none) ∧
  -- spareCopyStep
  (∃ (n : Fin 16) (b : Bursts) (da copy : Nat) (l : Line) (s : State),
      let s1 := (s.copyReady da).1
      let q := s1.readLine da copy (s1.seedOf da) b none
      s.spareRuns n.val = true ∧ (s.pier n.val).rebuild = false ∧ s.daOfLine n.val (s.fld (pgPier n.val) Reg.PIER_SPARE_CTL_FAIL_RANK) (s.pier n.val).bound = some (da, copy) ∧ (s.copyReady da).2 = true ∧ q.2 = .good l) ∧
  -- spareRebuildStep
  (∃ (n : Fin 16) (b : Bursts) (da copy : Nat) (s : State),
      let s1 := (s.copyReady da).1
      let q := s1.recompLine da copy (s.seedOf da) b.srcs
      s.spareRuns n.val = true ∧ (s.pier n.val).rebuild = true ∧ s.daOfLine n.val (s.fld (pgPier n.val) Reg.PIER_SPARE_CTL_FAIL_RANK) (s.pier n.val).bound = some (da, copy) ∧ s.sourcesRun da copy (s.seedOf da) = true ∧ (s.copyReady da).2 = true ∧ q.2 = none) ∧
  -- retireUncopied
  (∃ (n : Fin 16) (s : State),
      let pg := pgPier n.val
      let t := s.fld pg Reg.PIER_SPARE_CTL_TARGET
      s.pageShut pg = false ∧ t < (s.physRanks n.val).length ∧ s.fld pg Reg.PIER_SPARE_CTL_STATE = 0 ∧ (s.pier n.val).pendRank = []) :=
  ⟨⟨2, 0, 2, ((stRun.put (pgPier 2) Reg.PIER_GEOM_SPARE_PRESENT 1).put (pgPier 2) Reg.PIER_GEOM_SPARE_RANK 1).setPier 2 { Pr.blank with pendRank := [0] }, by
    refine ⟨?_, ?_, ?_, ?_, ?_⟩
    all_goals first | decide +kernel | rfl⟩,
   ⟨2, 0, stRun.setPier 2 { Pr.blank with pendRank := [0] }, by
    refine ⟨?_, ?_, ?_, ?_, ?_⟩
    all_goals first | decide +kernel | rfl⟩,
   ⟨2, {}, 0, 0, mkLine 5 0 0 (sideHi 0 0 0 0 1 false false 0), stSpare false, by
    refine ⟨?_, ?_, ?_, ?_, ?_⟩
    all_goals first | decide +kernel | rfl⟩,
   ⟨2, {}, 0, 0, stSpare true, by
    refine ⟨?_, ?_, ?_, ?_, ?_, ?_⟩
    all_goals first | decide +kernel | rfl⟩,
   ⟨2, State.reset, by
    refine ⟨?_, ?_, ?_, ?_⟩
    all_goals first | decide +kernel | rfl⟩⟩

theorem wit_HeatAndLadderComplete :
  -- heatUpdate
  (∃  (s : State),
      s.engOn = true ∧ s.heatAt ≤ s.time) ∧
  -- heatDecay
  (∃  (s : State),
      s.engOn = true ∧ s.decayAt ≤ s.time) ∧
  -- pressureLadder
  (∃  (s : State),
      s.engOn = true) :=
  ⟨⟨stRun, by
    refine ⟨?_, ?_⟩
    all_goals first | decide +kernel | rfl⟩,
   ⟨stRun, by
    refine ⟨?_, ?_⟩
    all_goals first | decide +kernel | rfl⟩,
   ⟨stRun, by
    refine ?_
    all_goals first | decide +kernel | rfl⟩⟩

theorem wit_PageMovesComplete :
  -- pageAllocate
  (∃ (id : BitVec 32) (place : Place) (r : Req) (da lvl e : Nat) (s : State),
      s.req? id.toNat = some r ∧ r.phase = .heldAlloc ∧ s.engOn = true ∧ s.findLeaf r.vi r.via = some (da, lvl, e) ∧ leafV e = true ∧ leafTier e = 3 ∧ leafM e = true ∧ s.placeOk r.vi (r.via / 4096) place = true) ∧
  -- moveStart
  (∃ (eng : Fin 64) (vi : BitVec 16) (page : BitVec 45) (dest : Place) (da e : Nat) (s : State),
      let s1 : State := { s with moves := ⟨vi.toNat, page.toNat, e, dest, eng.val, 1, false⟩ :: s.moves }
      s.engNew = true ∧ s.urg3 = false ∧ (s.vi vi.toNat).movable = true ∧ s.moveOf vi.toNat page.toNat = none ∧ s.moveAt ≤ s.time ∧ s.moveDest vi.toNat dest = true ∧ s.placeReady dest = true ∧ s.findLeaf vi.toNat (4096 * page.toNat) = some (da, 1, e) ∧ leafV e = true ∧ leafM e = false ∧ leafTier e ≠ 3 ∧ s.metaReady da = true ∧ (s.moveWanted e page.toNat (s.placeTier dest) = true ∨ s.evacuates e page.toNat = true) ∧ (s1.casEntry da e (e + 2) {}).2 = true) ∧
  -- moveCopyDone
  (∃ (vi : BitVec 16) (page : BitVec 45) (bs : List Bursts) (streams : List (List (BitVec 8))) (m : MoveLog) (ls : List (BitVec 512 × Bool)) (s2 : State) (s : State),
      let s0 := (s.recallPage m.vi m.e0 m.page).1
      let q := s0.readPageAt m.vi m.e0 m.page bs
      s.moveOf vi.toNat page.toNat = some m ∧ m.stage = 1 ∧ m.suspect = false ∧ s.urg3 = false ∧ s.moveReady m = true ∧ s.engOn = true ∧ s.pageQuiet m.e0 m.page = true ∧ s.moveRuns m = true ∧ (s.recallPage m.vi m.e0 m.page).2 = true ∧ q.2 = some ls ∧ q.1.writePlace m.vi m.dest ls (streams.map nats) = some s2 ∧ s2.destOpen m = false) ∧
  -- moveFinish
  (∃ (vi : BitVec 16) (page : BitVec 45) (m : MoveLog) (s : State),
      s.moveOf vi.toNat page.toNat = some m ∧ m.stage = 3 ∧ s.engOn = true ∧ m.suspect = false ∧ s.leafPlaceReady m.e0 = true ∧ s.pageQuiet m.e0 m.page = true) ∧
  -- moveLogResolve_done
  (∃ (vi : BitVec 16) (page : BitVec 45) (m : MoveLog) (da lvl e : Nat) (s : State),
      s.moveOf vi.toNat page.toNat = some m ∧ s.engOn = true ∧ m.suspect = true ∧ s.moveReady m = true ∧ s.pageQuiet m.e0 m.page = true ∧ s.leafPlaceReady m.e0 = true ∧ s.findLeaf m.vi (4096 * m.page) = some (da, lvl, e) ∧ s.namesDest m e = true) ∧
  -- moveLogResolve_undone
  (∃ (vi : BitVec 16) (page : BitVec 45) (m : MoveLog) (da lvl e : Nat) (s : State),
      s.moveOf vi.toNat page.toNat = some m ∧ s.engOn = true ∧ m.suspect = true ∧ s.moveReady m = true ∧ s.findLeaf m.vi (4096 * m.page) = some (da, lvl, e) ∧ s.namesDest m e = false ∧ leafM e = false) :=
  ⟨⟨0, .frame 262144, heldReq, 8192, 1, 15, stAlloc, by
    refine ⟨?_, ?_, ?_, ?_, ?_, ?_, ?_, ?_⟩
    all_goals first | decide +kernel | rfl⟩,
   ⟨0, 5, 0, .frame 262145, 8192, 9, stUp, by
    refine ⟨?_, ?_, ?_, ?_, ?_, ?_, ?_, ?_, ?_, ?_, ?_, ?_, ?_, ?_⟩
    all_goals first | decide +kernel | rfl⟩,
   wit_moveCopyDone,
   ⟨5, 0, moveLog 3, stMoved, by
    refine ⟨?_, ?_, ?_, ?_, ?_, ?_⟩
    all_goals first | decide +kernel | rfl⟩,
   ⟨5, 0, { moveLog 3 with suspect := true }, 8192, 1, leafA0 + 4096, { stMoved with moves := [{ moveLog 3 with suspect := true }] }, by
    refine ⟨?_, ?_, ?_, ?_, ?_, ?_, ?_, ?_⟩
    all_goals first | decide +kernel | rfl⟩,
   ⟨5, 0, { moveLog 1 with suspect := true }, 8192, 1, leafA0, { stUnmoved with moves := [{ moveLog 1 with suspect := true }] }, by
    refine ⟨?_, ?_, ?_, ?_, ?_, ?_, ?_⟩
    all_goals first | decide +kernel | rfl⟩⟩

theorem wit_KeysComplete_1 :
  -- hubKeyLoad
  (∃ (v : BitVec 32) (s : State),
      let k := bits v.toNat 0 4
      let mode := bits v.toNat 4 2
      let s1 := (s.put 3 Reg.HUB_KEY_LOAD_SLOT k).put 3 Reg.HUB_KEY_LOAD_MODE mode
      v.toNat.testBit 6 = true ∧ v.toNat.testBit 7 = false ∧ (s.slot k).st = 0 ∧ (mode = 1 ∨ mode = 2)) ∧
  -- hubKeyLoad_refused
  (∃ (v : BitVec 32) (s : State),
      let k := bits v.toNat 0 4
      let mode := bits v.toNat 4 2
      v.toNat.testBit 6 = true ∧ v.toNat.testBit 7 = false ∧ ((s.slot k).st ≠ 0 ∨ mode = 3)) ∧
  -- hubKeyClear
  (∃ (v : BitVec 32) (s : State),
      v.toNat.testBit 4 = true ∧ v.toNat.testBit 5 = false ∧ (s.slot (bits v.toNat 0 4)).st = 1) ∧
  -- hubKeyClear_refused
  (∃ (v : BitVec 32) (s : State),
      v.toNat.testBit 4 = true ∧ v.toNat.testBit 5 = false ∧ (s.slot (bits v.toNat 0 4)).st ≠ 1) ∧
  -- kmapWrite
  (∃ (v : BitVec 32) (s : State),
      let g := s.fld 3 Reg.HUB_KMAP_IDX_GIB
      let e := bits v.toNat 0 5 + 256 * bits v.toNat 8 14
      v.toNat.testBit 31 = false ∧ s.kmapFixed (SMap.getD s.kmap g 0) = false ∧ s.kmapFixed e = false ∧ e ≠ 0) ∧
  -- kmapWrite_refused
  (∃ (v : BitVec 32) (s : State),
      v.toNat.testBit 31 = false ∧ s.kmapFixed (bits v.toNat 0 5 + 256 * bits v.toNat 8 14) = true) ∧
  -- regionSetup
  (∃ (src : CmdSrc) (req : List (BitVec 8)) (ctrBase : BitVec 36) (lvlBases : List (BitVec 36)) (p : List Nat) (s : State),
      let s1 := s.taken src 0xC200
      let k := pb p 0
      let gs := setupGranules p
      let lv := lvlBases.map BitVec.toNat
      let s2 := (s1.mapGranules k gs).setStorage k gs.length (s1.slot k).mode ctrBase.toNat lv (storageRanges gs.length (s1.slot k).mode ctrBase.toNat lv)
      let s3 := s2.setSlot k { (s1.slot k) with st := 2, cmd := true, treeKey := Config.treeKey s2.free, root := List.replicate 8 0 }
      s.engTakes src 0xC200 (nats req) p = true ∧ s1.setupCheck p ctrBase.toNat lv = stDone) :=
  ⟨⟨0x55, State.reset, by
    refine ⟨?_, ?_, ?_, ?_⟩
    all_goals first | decide +kernel | rfl⟩,
   ⟨0x70, State.reset, by
    refine ⟨?_, ?_, ?_⟩
    all_goals first | decide +kernel | rfl⟩,
   ⟨0x15, State.reset.setSlot 5 { KSlot.blank with st := 1 }, by
    refine ⟨?_, ?_, ?_⟩
    all_goals first | decide +kernel | rfl⟩,
   ⟨0x15, State.reset, by
    refine ⟨?_, ?_, ?_⟩
    all_goals first | decide +kernel | rfl⟩,
   ⟨0x115, State.reset, by
    refine ⟨?_, ?_, ?_, ?_⟩
    all_goals first | decide +kernel | rfl⟩,
   ⟨0x115, State.reset.setSlot 5 { KSlot.blank with st := 3 }, by
    refine ⟨?_, ?_⟩
    all_goals first | decide +kernel | rfl⟩,
   ⟨.i3c, bytes setupP, 1024, [], setupP, stSetup, by
    refine ⟨?_, ?_⟩
    all_goals first | decide +kernel | rfl⟩⟩

theorem wit_KeysComplete_2 :
  -- regionInitDone
  (∃ (k : Fin 16) (s : State),
      (s.slot k.val).st = 2 ∧ s.engOn = true) ∧
  -- rotateKey
  (∃ (src : CmdSrc) (req : List (BitVec 8)) (ctrBase : BitVec 36) (lvlBases : List (BitVec 36)) (p : List Nat) (s : State),
      let s1 := s.taken src 0xC201
      let lv := lvlBases.map BitVec.toNat
      s.engTakes src 0xC201 (nats req) p = true ∧ s1.rotateCheck p (s1.rotateRanges (pb p 0) (pb p 1) ctrBase.toNat lv) = stDone) ∧
  -- rebuildTrusting
  (∃ (src : CmdSrc) (req : List (BitVec 8)) (bs : List Bursts) (p : List Nat) (s : State),
      s.engTakes src 0xC202 (nats req) p = true ∧ ((s.taken src 0xC202).rebuildTrusting p bs).2 = stDone) ∧
  -- regionRelease
  (∃ (src : CmdSrc) (req : List (BitVec 8)) (p : List Nat) (s : State),
      s.engTakes src 0xC203 (nats req) p = true ∧ ((s.taken src 0xC203).releaseRegion p).2 = stDone) :=
  ⟨⟨5, stRun.setSlot 5 { KSlot.blank with st := 2 }, by
    refine ⟨?_, ?_⟩
    all_goals first | decide +kernel | rfl⟩,
   ⟨.i3c, bytes [5, 6, 0, 0], 0, [], [5, 6, 0, 0], stRotate, by
    refine ⟨?_, ?_⟩
    all_goals first | decide +kernel | rfl⟩,
   ⟨.i3c, bytes rebuildP, [], rebuildP, stLost, by
    refine ⟨?_, ?_⟩
    all_goals first | decide +kernel | rfl⟩,
   ⟨.i3c, bytes [5, 0, 0, 0], [5, 0, 0, 0], stKey 3 1, by
    refine ⟨?_, ?_⟩
    all_goals first | decide +kernel | rfl⟩⟩

theorem wit_CounterTreeComplete :
  -- counterFetch
  (∃ (da : BitVec 48) (b : Bursts) (k lvl idx ver : Nat) (s1 : State) (l : Line) (s : State),
      let d := 64 * (da.toNat / 64)
      let q := s1.readLine d 0 0 b none
      s.lineRuns d = true ∧ s.ctrId d = some (k, lvl, idx) ∧ s.hasCtrs k = true ∧ SMap.get? s.cc (d / 64) = none ∧ s.entryLost k lvl idx = false ∧ (if s.treeLevels k = 0 then some 0 else s.parentVersion k lvl idx) = some ver ∧ s.ccRoom (s.ctrPier d) = some s1 ∧ q.2 = .good l ∧ q.1.treeOk k lvl d ver l = true) ∧
  -- versionIncrement
  (∃ (da : BitVec 48) (e e1 : CEnt) (v : Nat) (s : State),
      let key := da.toNat / 64
      let s1 := s.raiseVersion e.slot e.lvl e.idx (v + 1)
      SMap.get? s.cc key = some e ∧ e.dirty = true ∧ e.acked = false ∧ s.treeLevels e.slot ≠ 0 ∧ s.parentVersion e.slot e.lvl e.idx = some v ∧ SMap.get? s1.cc key = some e1) ∧
  -- counterWriteback
  (∃ (da : BitVec 48) (e : CEnt) (v : Nat) (s : State),
      let s1 := s.writeCtr e.slot e.lvl e.idx v e.body
      SMap.get? s.cc (da.toNat / 64) = some e ∧ e.dirty = true ∧ e.ovf = none ∧ (if s.treeLevels e.slot = 0 then some 0 else if e.acked then s.parentVersion e.slot e.lvl e.idx else none) = some v) ∧
  -- overflowStep
  (∃ (da : BitVec 48) (b : Bursts) (key mask : Nat) (e : CEnt) (old d : BitVec 512) (s : State),
      let a := 64 * (da.toNat / 64)
      let s1 := (s.jobRecall a).1
      let q := s1.readPlain a (s1.seedOf a) b none
      let w := q.1.writePlain a (s1.seedOf a) (s1.dramLine a 0).tier d false (0, 0, 0)
      s.serving = true ∧ s.lineRuns a = true ∧ s.ctrEnt a = some (key, some e) ∧ e.ovf = some (old, mask) ∧ mask.testBit (lineNo a) = false ∧ ctrMajor e.body ≠ 0 ∧ (s.jobRecall a).2 = true ∧ q.2 = .ok d ∧ w.2 = .ok) ∧
  -- rotationStep_end
  (∃ (b : Bursts) (s : State),
      s.rotateRuns = true ∧ s.rotEnd = true ∧ (s.slot s.rotSrc).lostList = [] ∧ (s.slot s.rotSrc).allLost = false ∧ (s.slot s.rotSrc).skipped = []) ∧
  -- rotationStep
  (∃ (b : Bursts) (s : State),
      let da := 64 * s.rotBound
      s.rotateRuns = true ∧ s.rotEnd = false ∧ s.lineRuns da = true ∧ s.daKind da = .frame ∧ s.subtreeLost da = false ∧ s.ctrEnt da = none ∧ s.primDa da = da) ∧
  -- stripeRotationStep
  (∃ (bs : List Bursts) (i a : Nat) (s1 : State) (s : State),
      let units := (s.stripeLines i a).filter (fun d => d % 4096 == 0)
      s.rotateRuns = true ∧ s.rotEnd = false ∧ s.daKind (64 * s.rotBound) = .packed ∧ s.stripeBase (64 * s.rotBound / 256) = some (i, a) ∧ (s.stripe (a / 65536)).st < 2 ∧ (s.openStripe a).all (fun o => !o.closed) = true ∧ (units.any (fun d => s.subtreeLost d)) = false ∧ s.resetUnits units = some s1 ∧ s1.rotEnd = false) :=
  ⟨⟨0x400000, {}, 5, 0, 0, 0, stKey 3 1, goodOr ((stKey 3 1).readLine 0x400000 0 0 {} none).2, stKey 3 1, by
    refine ⟨?_, ?_, ?_, ?_, ?_, ?_, ?_, ?_, ?_⟩
    all_goals first | decide +kernel | rfl⟩,
   ⟨0, cent5, cent5, 0, stTree, by
    refine ⟨?_, ?_, ?_, ?_, ?_, ?_⟩
    all_goals first | decide +kernel | rfl⟩,
   ⟨0, ⟨1, 0, 0, 7, true, false, none, false⟩, 0, { State.reset with cc := [(0, ⟨1, 0, 0, 7, true, false, none, false⟩)] }, by
    refine ⟨?_, ?_, ?_, ?_⟩
    all_goals first | decide +kernel | rfl⟩,
   ⟨0x40000000, {}, 65536, 0, ovfEnt, 2 ^ 56, 7, stOvf, by
    refine ⟨?_, ?_, ?_, ?_, ?_, ?_, ?_, ?_, ?_⟩
    all_goals first | decide +kernel | rfl⟩,
   ⟨{}, (stRun.put 3 Reg.HUB_KROT_CTL_BUSY 1).put 3 Reg.HUB_KROT_CTL_DST 1, by
    refine ⟨?_, ?_, ?_, ?_, ?_⟩
    all_goals first | decide +kernel | rfl⟩,
   ⟨{}, stTurn, by
    refine ⟨?_, ?_, ?_, ?_, ?_, ?_, ?_⟩
    all_goals first | decide +kernel | rfl⟩,
   ⟨[], 2, 2147483648, stTurnStripe, stTurnStripe, by
    refine ⟨?_, ?_, ?_, ?_, ?_, ?_, ?_, ?_, ?_⟩
    all_goals first | decide +kernel | rfl⟩⟩

theorem wit_DirectoryComplete :
  -- directoryWriteback
  (∃ (da : BitVec 48) (b : Bursts) (e : DirEnt) (s : State),
      SMap.get? s.dir (da.toNat / 64) = some e ∧ e.dirty = true ∧ e.t2 = false ∧ s.lineFree (da.toNat / 64) = true ∧ s.lineRuns (64 * (da.toNat / 64)) = true) ∧
  -- hostSweepStep_end
  (∃ (p : Fin 8) (vi : BitVec 16) (page : BitVec 45) (line : Fin 64) (b : Bursts) (s : State),
      (s.prt p.val).sweep = true ∧ s.engNew = true ∧ s.urg3 = false ∧ s.sweepNext (s.sweepVis p.val) 0 (s.prt p.val).sweepFrom = none) ∧
  -- hostSweepStep
  (∃ (p : Fin 8) (vi : BitVec 16) (page : BitVec 45) (line : Fin 64) (b : Bursts) (pos a lvl e : Nat) (s : State),
      let da := leafDa e lvl (4096 * page.toNat) + 64 * line.val
      let s1 := (s.sweepLine vi.toNat da b).1
      let s2 := s1.setPrt p.val { (s1.prt p.val) with sweepFrom := pos + 1 }
      (s.prt p.val).sweep = true ∧ s.engNew = true ∧ s.urg3 = false ∧ s.sweepNext (s.sweepVis p.val) 0 (s.prt p.val).sweepFrom = some (pos, vi.toNat, page.toNat) ∧ pos % 64 = line.val ∧ s.findLeaf vi.toNat (4096 * page.toNat) = some (a, lvl, e) ∧ s.lineFree (da / 64) = true ∧ s.lineRuns da = true ∧ (s.sweepLine vi.toNat da b).2 = true ∧ (s2.sweepNext (s2.sweepVis p.val) 0 (pos + 1)).isNone = false) :=
  ⟨⟨0, {}, ⟨2, 2, 1, true, false, 0⟩, { State.reset with dir := [(0, ⟨2, 2, 1, true, false, 0⟩)] }, by
    refine ⟨?_, ?_, ?_, ?_, ?_⟩
    all_goals first | decide +kernel | rfl⟩,
   ⟨3, 0, 0, 0, {}, stRun.setPrt 3 { Prt.blank with sweep := true, lost := true }, by
    refine ⟨?_, ?_, ?_, ?_⟩
    all_goals first | decide +kernel | rfl⟩,
   ⟨3, 5, 0, 0, {}, 0, 8192, 1, leafA0, stSweep, by
    refine ⟨?_, ?_, ?_, ?_, ?_, ?_, ?_, ?_, ?_, ?_⟩
    all_goals first | decide +kernel | rfl⟩⟩

theorem wit_ViLifecycleComplete :
  -- createVi
  (∃ (src : CmdSrc) (req : List (BitVec 8)) (tpool : BitVec 36) (descBase : BitVec 40) (p : List Nat) (t : Nat) (back : List Run) (s : State),
      let s1 := s.taken src 0xC100
      let v := newVi (s1.createFields p) tpool.toNat back
      let s2 := (s1.setVi t { v with epoch := (s1.vi t).epoch }).takeBack t
      s.engTakes src 0xC100 (nats req) p = true ∧ s1.askTag ((pb p 2).testBit 0) (pf p 0 2) = some t ∧ s1.createCheck (some t) (createClean p) (s1.createFields p) tpool.toNat = stDone ∧ s1.backing (s1.createFields p) descBase.toNat = some back ∧ (s1.storedDescs v.hasDesc).all s1.descReady = true) ∧
  -- viCreateDone
  (∃ (vi : BitVec 16) (s1 : State) (s : State),
      (s.vi vi.toNat).st = .creating ∧ s.engOn = true ∧ s.buildVi vi.toNat = some s1) ∧
  -- bindVi
  (∃ (src : CmdSrc) (req : List (BitVec 8)) (p : List Nat) (s : State),
      s.engTakes src 0xC101 (nats req) p = true ∧ (s.taken src 0xC101).bindCheck p = stDone ∧ (pb p 2 = 0 ∨ (s.taken src 0xC101).leavesReady (pf p 0 2) false = true)) ∧
  -- quiesceVi
  (∃ (src : CmdSrc) (req : List (BitVec 8)) (p : List Nat) (s : State),
      s.engTakes src 0xC102 (nats req) p = true ∧ (s.taken src 0xC102).tagCheck (pf p 0 2) (fun st => st == .active || st == .frozen) = stDone) ∧
  -- quiesceDone
  (∃ (vi : BitVec 16) (s : State),
      let t := vi.toNat
      let s1 := ((s.invStep t).recallVi t).1
      (s.vi t).st = .quiescing ∧ s.engOn = true ∧ s.drained t = true ∧ s.moves.any (fun m => m.vi == t) = false ∧ ((s.invStep t).recallVi t).2 = true) ∧
  -- resetVi
  (∃ (src : CmdSrc) (req : List (BitVec 8)) (p : List Nat) (s2 : State) (s : State),
      let s1 := s.taken src 0xC103
      s.engTakes src 0xC103 (nats req) p = true ∧ s1.tagCheck (pf p 0 2) (fun st => st == .quiesced) = stDone ∧ s1.backingReady (pf p 0 2) = true ∧ (s1.viTo (pf p 0 2) .resetting).resetVi (pf p 0 2) = some s2) ∧
  -- removeVi
  (∃ (src : CmdSrc) (req : List (BitVec 8)) (p : List Nat) (s : State),
      s.engTakes src 0xC104 (nats req) p = true ∧ (s.taken src 0xC104).tagCheck (pf p 0 2) (fun st => st == .quiesced) = stDone ∧ (s.taken src 0xC104).backingReady (pf p 0 2) = true) :=
  ⟨⟨.i3c, bytes createP, 1024, 0, createP, 7, ((stCreate.taken .i3c 0xC100).backing ((stCreate.taken .i3c 0xC100).createFields createP) 0).getD [], stCreate, by
    refine ⟨?_, ?_, ?_, ?_, ?_⟩
    all_goals first | decide +kernel | rfl⟩,
   ⟨5, ((stVi .creating).buildVi 5).getD stRun, stVi .creating, by
    refine ⟨?_, ?_, ?_⟩
    all_goals first | decide +kernel | rfl⟩,
   ⟨.i3c, bytes bindP, bindP, stBind, by
    refine ⟨?_, ?_, ?_⟩
    all_goals first | decide +kernel | rfl⟩,
   ⟨.i3c, bytes [5, 0], [5, 0], stVi .active, by
    refine ⟨?_, ?_⟩
    all_goals first | decide +kernel | rfl⟩,
   ⟨5, stRun.setVi 5 { Vi.blank with st := .quiescing }, by
    refine ⟨?_, ?_, ?_, ?_, ?_⟩
    all_goals first | decide +kernel | rfl⟩,
   ⟨.i3c, bytes [5, 0], [5, 0], ((((stVi .quiesced).taken .i3c 0xC103).viTo 5 .resetting).resetVi 5).getD stRun, stVi .quiesced, by
    refine ⟨?_, ?_, ?_, ?_⟩
    all_goals first | decide +kernel | rfl⟩,
   ⟨.i3c, bytes [5, 0], [5, 0], stVi .quiesced, by
    refine ⟨?_, ?_, ?_⟩
    all_goals first | decide +kernel | rfl⟩⟩

theorem wit_ViFreezeAndLogComplete_1 :
  -- relayFreeze
  (∃ (src : CmdSrc) (req : List (BitVec 8)) (p : List Nat) (s : State),
      SMap.get? s.running (pf (s.payloadOf src 0xC105 req) 0 2) ≠ some (0xC105, src) ∧ s.engTakes src 0xC105 (nats req) p = true ∧ (s.taken src 0xC105).tagCheck (pf p 0 2) (fun st => st == .active) = stDone ∧ (s.taken src 0xC105).leavesReady (pf p 0 2) true = true) ∧
  -- relayFreeze_again
  (∃ (src : CmdSrc) (req : List (BitVec 8)) (s : State),
      SMap.get? s.running (pf (s.payloadOf src 0xC105 req) 0 2) = some (0xC105, src) ∧ s.engOn = true) ∧
  -- relayThaw
  (∃ (src : CmdSrc) (req : List (BitVec 8)) (p : List Nat) (s : State),
      let s1 := s.taken src 0xC106
      let t := pf p 0 2
      s.engTakes src 0xC106 (nats req) p = true ∧ s1.tagCheck t (fun st => st == .frozen) = stDone ∧ s1.leavesReady t false = true) ∧
  -- dirtyLogStart
  (∃ (src : CmdSrc) (req : List (BitVec 8)) (base : BitVec 36) (p : List Nat) (s : State),
      let s1 := s.taken src 0xC107
      let t := pf p 0 2
      pb (s.payloadOf src 0xC107 req) 2 ≠ 2 ∧ s.engTakes src 0xC107 (nats req) p = true ∧ s1.dlogCheck p base.toNat = stDone ∧ pb p 2 = 1) ∧
  -- dirtyLogStop
  (∃ (src : CmdSrc) (req : List (BitVec 8)) (p : List Nat) (s : State),
      let s1 := s.taken src 0xC107
      let t := pf p 0 2
      pb (s.payloadOf src 0xC107 req) 2 = 2 ∧ s.engTakes src 0xC107 (nats req) p = true ∧ s1.dlogCheck p 0 = stDone ∧ pb p 2 = 2) ∧
  -- viDoorbell
  (∃ (p : Fin 8) (ld : Fin 16) (vi : BitVec 16) (v : BitVec 32) (s : State),
      s.viPage p.val ld.val vi.toNat = true) ∧
  -- fqMissedClear
  (∃ (p : Fin 8) (ld : Fin 16) (vi : BitVec 16) (v : BitVec 32) (s : State),
      s.viPage p.val ld.val vi.toNat = true ∧ v.toNat.testBit 31 = true) :=
  ⟨⟨.i3c, bytes [5, 0], [5, 0], stVi .active, by
    refine ⟨?_, ?_, ?_, ?_⟩
    all_goals first | decide +kernel | rfl⟩,
   ⟨.i3c, [5, 0, 0, 0], { stRun with running := [(5, 0xC105, .i3c)] }, by
    refine ⟨?_, ?_⟩
    all_goals first | decide +kernel | rfl⟩,
   ⟨.i3c, bytes [5, 0], [5, 0], stVi .frozen, by
    refine ⟨?_, ?_, ?_⟩
    all_goals first | decide +kernel | rfl⟩,
   ⟨.i3c, bytes [5, 0, 1, 0], 1024, [5, 0, 1, 0], stVi .active, by
    refine ⟨?_, ?_, ?_, ?_⟩
    all_goals first | decide +kernel | rfl⟩,
   ⟨.i3c, bytes [5, 0, 2, 0], [5, 0, 2, 0], stDlog, by
    refine ⟨?_, ?_, ?_, ?_⟩
    all_goals first | decide +kernel | rfl⟩,
   ⟨3, 2, 5, 77, stPage, by
    refine ?_
    all_goals first | decide +kernel | rfl⟩,
   ⟨3, 2, 5, 0x80000000, stPage, by
    refine ⟨?_, ?_⟩
    all_goals first | decide +kernel | rfl⟩⟩

theorem wit_ViFreezeAndLogComplete_2 :
  -- viTelUpdate
  (∃  (s : State),
      s.engOn = true) :=
  ⟨stRun, by
    refine ?_
    all_goals first | decide +kernel | rfl⟩

theorem wit_RelayComplete :
  -- relaySaveFull
  (∃ (src : CmdSrc) (req : List (BitVec 8)) (bs : List Bursts) (p rsp : List Nat) (s : State),
      let s1 := s.taken src 0xC108
      pb (s.payloadOf src 0xC108 req) 2 ≠ 2 ∧ s.engTakes src 0xC108 (nats req) p = true ∧ s1.saveCheck p = stDone ∧ (s1.save p bs).2 = some rsp) ∧
  -- relaySaveDelta
  (∃ (src : CmdSrc) (req : List (BitVec 8)) (bs : List Bursts) (p rsp : List Nat) (s : State),
      let s1 := s.taken src 0xC108
      pb (s.payloadOf src 0xC108 req) 2 = 2 ∧ s.engTakes src 0xC108 (nats req) p = true ∧ s1.saveCheck p = stDone ∧ (s1.save p bs).2 = some rsp) ∧
  -- relayRestoreNew
  (∃ (src : CmdSrc) (req : List (BitVec 8)) (tpool : BitVec 36) (descBase : BitVec 40) (places : List Place) (p rsp : List Nat) (s : State),
      let s1 := s.taken src 0xC109
      (pb (s.payloadOf src 0xC109 req) 2).testBit 1 = true ∧ s.restoring src = none ∧ s.engTakes src 0xC109 (nats req) p = true ∧
        (s1.restoreNew src p tpool.toNat descBase.toNat places).2 = some (stDone :: rsp)) ∧
  -- relayRestoreApply
  (∃ (src : CmdSrc) (req : List (BitVec 8)) (places : List Place) (p rsp : List Nat) (s : State),
      let s1 := s.taken src 0xC109
      (pb (s.payloadOf src 0xC109 req) 2).testBit 1 = false ∧ s.restoring src = none ∧ s.engTakes src 0xC109 (nats req) p = true ∧
        (s1.restoreApply src p places).2 = some (stDone :: rsp)) :=
  ⟨⟨.i3c, bytes (saveP 1), [], saveP 1, saveRsp 0 0 0, stSave 1, by
    refine ⟨?_, ?_, ?_, ?_⟩
    all_goals first | decide +kernel | rfl⟩,
   ⟨.i3c, bytes (saveP 2), [], saveP 2, saveRsp 0 0 0, (stSave 2).setVi 5 { (stVi .frozen |>.vi 5) with dirtyLog := true }, by
    refine ⟨?_, ?_, ?_, ?_⟩
    all_goals first | decide +kernel | rfl⟩,
   wit_relayRestoreNew,
   wit_relayRestoreApply⟩

theorem wit_LinksComplete_1 :
  -- linkDown
  (∃ (p : Fin 8) (s : State),
      s.linkUp p.val = true) ∧
  -- linkUp
  (∃ (p : Fin 8) (t : LinkTrain) (s : State),
      s.linkUp p.val = false ∧ s.flag (pgPort p.val) Reg.PORT_PINS_PERST_N = true ∧ s.awake = true ∧ s.pwr.trans ≠ 2 ∧ 6 ≤ s.fld 0 Reg.TRUSS_BOOT_STAT_STAGE ∧ s.fld 0 Reg.TRUSS_BOOT_STAT_STAGE ≠ 0xE ∧ s.flag (pgPort p.val) (Reg.SEQ_CTL_HALTED 0x380) = false ∧ t.speed ≠ 0) ∧
  -- linkUp_slow
  (∃ (p : Fin 8) (t : LinkTrain) (s : State),
      s.linkUp p.val = false ∧ s.flag (pgPort p.val) Reg.PORT_PINS_PERST_N = true ∧ s.awake = true ∧ s.pwr.trans ≠ 2 ∧ 6 ≤ s.fld 0 Reg.TRUSS_BOOT_STAT_STAGE ∧ s.fld 0 Reg.TRUSS_BOOT_STAT_STAGE ≠ 0xE ∧ s.flag (pgPort p.val) (Reg.SEQ_CTL_HALTED 0x380) = false ∧ t.speed = 0) ∧
  -- linkGraceEnd
  (∃ (p : Fin 8) (t0 : Nat) (s : State),
      (s.prt p.val).graceEnd = some t0 ∧ t0 ≤ s.time) ∧
  -- perstN
  (∃ (p : Fin 8) (s : State),
      let pg := pgPort p.val
      let s1 := if s.linkUp p.val then s.dlDown p.val 2 else s
      let s2 := (s1.put pg Reg.PORT_PINS_PERST_N 0).urgUpdate p.val
      let s3 := (if (s2.prt p.val).graceEnd.isSome then s2.graceOver p.val 2 else s2).portReset p.val
      s.flag pg Reg.PORT_PINS_PERST_N = true ∧ s3.pwrGoal ≠ 2) ∧
  -- perstN_wakes
  (∃ (p : Fin 8) (s : State),
      let pg := pgPort p.val
      let s1 := if s.linkUp p.val then s.dlDown p.val 2 else s
      let s2 := (s1.put pg Reg.PORT_PINS_PERST_N 0).urgUpdate p.val
      let s3 := (if (s2.prt p.val).graceEnd.isSome then s2.graceOver p.val 2 else s2).portReset p.val
      s.flag pg Reg.PORT_PINS_PERST_N = true ∧ s3.pwrGoal = 2) ∧
  -- ideFail
  (∃ (p : Fin 8) (s : State),
      s.linkUp p.val = true ∧ ((s.prt p.val).ideMem ≠ none ∨ (s.prt p.val).ideIo ≠ none)) :=
  ⟨⟨3, State.reset.put (pgPort 3) Reg.PORT_LINK_STAT_UP 1, by
    refine ?_
    all_goals first | decide +kernel | rfl⟩,
   ⟨3, ⟨1, false, false, 1, 1, 0⟩, stRun.put (pgPort 3) Reg.PORT_PINS_PERST_N 1, by
    refine ⟨?_, ?_, ?_, ?_, ?_, ?_, ?_, ?_⟩
    all_goals first | decide +kernel | rfl⟩,
   ⟨3, ⟨0, false, false, 1, 1, 0⟩, stRun.put (pgPort 3) Reg.PORT_PINS_PERST_N 1, by
    refine ⟨?_, ?_, ?_, ?_, ?_, ?_, ?_, ?_⟩
    all_goals first | decide +kernel | rfl⟩,
   ⟨3, 0, State.reset.setPrt 3 { Prt.blank with graceEnd := some 0 }, by
    refine ⟨?_, ?_⟩
    all_goals first | decide +kernel | rfl⟩,
   ⟨3, State.reset.put (pgPort 3) Reg.PORT_PINS_PERST_N 1, by
    refine ⟨?_, ?_⟩
    all_goals first | decide +kernel | rfl⟩,
   ⟨3, { State.reset.put (pgPort 3) Reg.PORT_PINS_PERST_N 1 with pwr := { State.reset.pwr with state := 2 } }, by
    refine ⟨?_, ?_⟩
    all_goals first | decide +kernel | rfl⟩,
   ⟨3, (State.reset.put (pgPort 3) Reg.PORT_LINK_STAT_UP 1).setPrt 3 { Prt.blank with ideIo := some 9 }, by
    refine ⟨?_, ?_⟩
    all_goals first | decide +kernel | rfl⟩⟩

theorem wit_LinksComplete_2 :
  -- ideKm
  (∃ (p : Fin 8) (mem : Bool) (key : BitVec 256) (s : State),
      let q := if mem then { (s.prt p.val) with ideMem := some key } else { (s.prt p.val) with ideIo := some key }
      s.linkUp p.val = true) ∧
  -- l0pEvaluate_busy
  (∃ (p : Fin 8) (s : State),
      let q := s.prt p.val
      s.flag (pgPort p.val) Reg.PORT_LINK_CTL_L0P_EN = true ∧ s.linkUp p.val = true ∧ q.trafAt + 100000 ≤ s.time ∧ 1 ≤ q.urgLevel ∧ q.l0p < q.trWidth) ∧
  -- l0pWidthChange
  (∃ (p : Fin 8) (width : Fin 4) (s : State),
      s.linkUp p.val = true ∧ 2 ^ (width.val + 1) ≤ (s.prt p.val).trWidth) :=
  ⟨⟨3, true, 7, State.reset.put (pgPort 3) Reg.PORT_LINK_STAT_UP 1, by
    refine ?_
    all_goals first | decide +kernel | rfl⟩,
   ⟨3, { ((State.reset.put (pgPort 3) Reg.PORT_LINK_STAT_UP 1).put (pgPort 3) Reg.PORT_LINK_CTL_L0P_EN 1).setPrt 3 { Prt.blank with urgLevel := 1, l0p := 4, trWidth := 16 } with time := 100000 }, by
    refine ⟨?_, ?_, ?_, ?_, ?_⟩
    all_goals first | decide +kernel | rfl⟩,
   ⟨3, 3, (State.reset.put (pgPort 3) Reg.PORT_LINK_STAT_UP 1).setPrt 3 { Prt.blank with trWidth := 16 }, by
    refine ⟨?_, ?_⟩
    all_goals first | decide +kernel | rfl⟩⟩

theorem wit_LdAllocationComplete_1 :
  -- setLdAllocations
  (∃ (p : Fin 8) (ld : Fin 16) (capG : BitVec 18) (dcG : List (BitVec 36)) (sharable : BitVec 8) (s : State),
      regionsOk dcG = true ∧ s.awake = true ∧ capG.toNat + (dcG.map BitVec.toNat).sum ≤ 49152) ∧
  -- tunnelManagementCommand
  (∃ (p : Fin 8) (ld : Fin 16) (capG : BitVec 18) (dcG : List (BitVec 36)) (sharable : BitVec 8) (s : State),
      regionsOk dcG = true ∧ s.awake = true ∧ s.linkUp s.mgrPort = true ∧ capG.toNat + (dcG.map BitVec.toNat).sum ≤ 49152) ∧
  -- hdmDecoderCommit
  (∃ (p : Fin 8) (ld : Fin 16) (i : Fin 8) (d : HdmDecoder) (s : State),
      s.linkUp p.val = true ∧ (d.hdmDb = false ∨ s.fld (pgPort p.val) Reg.PORT_HOST_CRED_BISNP ≠ 0)) ∧
  -- initiateDcAdd
  (∃ (src : CmdSrc) (vi : BitVec 16) (start blocks : BitVec 32) (s : State),
      (src = .i3c ∨ src = .fmLd) ∧ blocks ≠ 0 ∧ s.engOn = true ∧ s.addRefused vi.toNat start.toNat blocks.toNat = false ∧ pick 8 (fun k => (s.vi vi.toNat).ports.testBit k) ≠ []) ∧
  -- initiateDcAdd_refused
  (∃ (src : CmdSrc) (vi : BitVec 16) (start blocks : BitVec 32) (s : State),
      (src = .i3c ∨ src = .fmLd) ∧ blocks ≠ 0 ∧ s.engOn = true ∧ s.addRefused vi.toNat start.toNat blocks.toNat = true) ∧
  -- addDcResponse
  (∃ (p : Fin 8) (ld : Fin 16) (vi : BitVec 16) (start accept : BitVec 32) (e : Extent) (s : State),
      s.linkUp p.val = true ∧ (s.vi vi.toNat).ports.testBit p.val = true ∧ (s.vi vi.toNat).ld = ld.val ∧ s.offered p.val vi.toNat start.toNat = some e ∧ 0 < e.blocks ∧ e.blocks ≤ accept.toNat) ∧
  -- addDcResponse_declined
  (∃ (p : Fin 8) (ld : Fin 16) (vi : BitVec 16) (start : BitVec 32) (e : Extent) (s : State),
      s.linkUp p.val = true ∧ (s.vi vi.toNat).ports.testBit p.val = true ∧ (s.vi vi.toNat).ld = ld.val ∧ s.offered p.val vi.toNat start.toNat = some e ∧ 0 < e.blocks) :=
  ⟨⟨3, 2, 4, [1], 1, stRun, by
    refine ⟨?_, ?_, ?_⟩
    all_goals first | decide +kernel | rfl⟩,
   ⟨3, 2, 4, [1], 1, stRun.put (pgPort 0) Reg.PORT_LINK_STAT_UP 1, by
    refine ⟨?_, ?_, ?_, ?_⟩
    all_goals first | decide +kernel | rfl⟩,
   ⟨3, 2, 7, ⟨0, 0x10000000, 0, 0, 0, 0, false⟩, State.reset.put (pgPort 3) Reg.PORT_LINK_STAT_UP 1, by
    refine ⟨?_, ?_⟩
    all_goals first | decide +kernel | rfl⟩,
   ⟨.i3c, 5, 512, 4, stRun.setVi 5 { Vi.blank with st := .active, ports := 8, assuredG := 1, elasticG := 1 }, by
    refine ⟨?_, ?_, ?_, ?_, ?_⟩
    all_goals first | decide +kernel | rfl⟩,
   ⟨.i3c, 5, 512, 1, stRun, by
    refine ⟨?_, ?_, ?_, ?_⟩
    all_goals first | decide +kernel | rfl⟩,
   ⟨3, 2, 5, 512, 4, ext0, stExt, by
    refine ⟨?_, ?_, ?_, ?_, ?_, ?_⟩
    all_goals first | decide +kernel | rfl⟩,
   ⟨3, 2, 5, 512, ext0, stExt, by
    refine ⟨?_, ?_, ?_, ?_, ?_⟩
    all_goals first | decide +kernel | rfl⟩⟩

theorem wit_LdAllocationComplete_2 :
  -- releaseDc
  (∃ (p : Fin 8) (ld : Fin 16) (vi : BitVec 16) (start blocks : BitVec 32) (s : State),
      s.linkUp p.val = true ∧ s.engOn = true ∧ (s.vi vi.toNat).ld = ld.val ∧ s.rangeQuiet vi.toNat start.toNat blocks.toNat = true ∧ s.rangeReady vi.toNat start.toNat blocks.toNat = true) :=
  ⟨3, 2, 5, 512, 4, stExt, by
    refine ⟨?_, ?_, ?_, ?_, ?_⟩
    all_goals first | decide +kernel | rfl⟩

theorem wit_LdCommandsComplete_1 :
  -- getPoisonList
  (∃ (p : Fin 8) (ld : Fin 16) (s : State),
      s.linkUp p.val = true) ∧
  -- injectPoison
  (∃ (p : Fin 8) (ld : Fin 16) (dpa : BitVec 52) (s : State),
      let r := { hostReq .wrPtl p.val ld.val 0 .i 0 0 s.time with org := .cmd, dpa := 64 * (dpa.toNat / 64), poison := true }
      let s1 : State := { s with nextReq := (s.nextReq + 1) % 2 ^ 32 }
      s.portServes p.val = true ∧ (s.windowOf p.val ld.val dpa.toNat (fun _ => true)).isSome = true) ∧
  -- clearPoison
  (∃ (p : Fin 8) (ld : Fin 16) (dpa : BitVec 52) (data : BitVec 512) (s : State),
      let r := { hostReq .wr p.val ld.val 0 .i data (BitVec.allOnes 64) s.time with org := .cmd, dpa := 64 * (dpa.toNat / 64) }
      let s1 : State := { s with nextReq := (s.nextReq + 1) % 2 ^ 32 }
      s.portServes p.val = true ∧ (s.windowOf p.val ld.val dpa.toNat (fun _ => true)).isSome = true) ∧
  -- scanMedia
  (∃ (p : Fin 8) (ld : Fin 16) (dpa : BitVec 52) (lines : BitVec 32) (s : State),
      s.linkUp p.val = true ∧ lines ≠ 0 ∧ (s.ldev p.val ld.val).scan = none) ∧
  -- scanMedia_busy
  (∃ (p : Fin 8) (ld : Fin 16) (dpa : BitVec 52) (lines : BitVec 32) (s : State),
      s.linkUp p.val = true ∧ lines ≠ 0 ∧ (s.ldev p.val ld.val).scan ≠ none) ∧
  -- scanMediaStep_end
  (∃ (p : Fin 8) (ld : Fin 16) (b : Bursts) (dpa : Nat) (found : List Nat) (s : State),
      s.scanGoes p.val ld.val = true ∧ s.urg3 = false ∧ (s.ldev p.val ld.val).scan = some (dpa, 0, found)) ∧
  -- scanMediaStep
  (∃ (p : Fin 8) (ld : Fin 16) (b : Bursts) (dpa left : Nat) (found : List Nat) (bad : Bool) (s : State),
      let s1 := (s.scanRead p.val ld.val dpa b).1
      let s2 := if bad then s1.listPoison p.val ld.val dpa else s1
      s.scanGoes p.val ld.val = true ∧ s.urg3 = false ∧ (s.ldev p.val ld.val).scan = some (dpa, left, found) ∧ 1 < left ∧ (s.scanRead p.val ld.val dpa b).2 = some (some bad)) :=
  ⟨⟨3, 2, State.reset.put (pgPort 3) Reg.PORT_LINK_STAT_UP 1, by
    refine ?_
    all_goals first | decide +kernel | rfl⟩,
   ⟨2, 1, 64, stInj, by
    refine ⟨?_, ?_⟩
    all_goals first | decide +kernel | rfl⟩,
   ⟨2, 1, 64, 9, stInj, by
    refine ⟨?_, ?_⟩
    all_goals first | decide +kernel | rfl⟩,
   ⟨3, 2, 64, 4, State.reset.put (pgPort 3) Reg.PORT_LINK_STAT_UP 1, by
    refine ⟨?_, ?_, ?_⟩
    all_goals first | decide +kernel | rfl⟩,
   ⟨3, 2, 64, 4, (State.reset.put (pgPort 3) Reg.PORT_LINK_STAT_UP 1).setLdev 3 2 { LogDev.blank with scan := some (0, 4, []) }, by
    refine ⟨?_, ?_, ?_⟩
    all_goals first | decide +kernel | rfl⟩,
   ⟨3, 2, {}, 0, [], stRun.setLdev 3 2 { LogDev.blank with scan := some (0, 0, []) }, by
    refine ⟨?_, ?_, ?_⟩
    all_goals first | decide +kernel | rfl⟩,
   ⟨3, 2, {}, 0, 5, [], true, stScan, by
    refine ⟨?_, ?_, ?_, ?_, ?_⟩
    all_goals first | decide +kernel | rfl⟩⟩

theorem wit_LdCommandsComplete_2 :
  -- getScanMediaCapabilities
  (∃ (p : Fin 8) (ld : Fin 16) (dpa : BitVec 52) (lines : BitVec 32) (s : State),
      s.linkUp p.val = true) ∧
  -- getScanMediaResults
  (∃ (p : Fin 8) (ld : Fin 16) (s : State),
      s.linkUp p.val = true) ∧
  -- clearEventRecords
  (∃ (p : Fin 8) (ld : Fin 17) (log : Fin 4) (count : BitVec 12) (s : State),
      let d := s.ldev p.val ld.val
      let q := d.logs.getD log.val RecQueue.empty
      let n := min count.toNat q.recs.length
      s.linkUp p.val = true) :=
  ⟨⟨3, 2, 64, 4, State.reset.put (pgPort 3) Reg.PORT_LINK_STAT_UP 1, by
    refine ?_
    all_goals first | decide +kernel | rfl⟩,
   ⟨3, 2, State.reset.put (pgPort 3) Reg.PORT_LINK_STAT_UP 1, by
    refine ?_
    all_goals first | decide +kernel | rfl⟩,
   ⟨3, 16, 3, 9, State.reset.put (pgPort 3) Reg.PORT_LINK_STAT_UP 1, by
    refine ?_
    all_goals first | decide +kernel | rfl⟩⟩

theorem wit_CommandRepliesComplete :
  -- transferFw
  (∃ (p : Fin 8) (off : BitVec 32) (bytes : List (BitVec 8)) (s : State),
      s.linkUp p.val = true ∧ p.val = s.mgrPort ∧ off.toNat + bytes.length ≤ 0xF00000) ∧
  -- activateFw
  (∃ (p : Fin 8) (s : State),
      s.linkUp p.val = true ∧ p.val = s.mgrPort) ∧
  -- getQosStatus
  (∃ (src : CmdSrc) (p : Fin 8) (s : State),
      s.awake = true ∧ (src = .i3c ∨ src = .fmLd)) ∧
  -- getBackgroundOperationStatus
  (∃ (p : Fin 8) (ld : Fin 16) (s : State),
      s.awake = true) ∧
  -- getBackgroundOperationStatus_fm
  (∃  (s : State),
      s.awake = true) ∧
  -- unsupportedCommand
  (∃ (src : CmdSrc) (opcode : BitVec 16) (s : State),
      s.awake = true ∧ vendorReq opcode.toNat = none) :=
  ⟨⟨0, 0, [1, 2], State.reset.put (pgPort 0) Reg.PORT_LINK_STAT_UP 1, by
    refine ⟨?_, ?_, ?_⟩
    all_goals first | decide +kernel | rfl⟩,
   ⟨0, State.reset.put (pgPort 0) Reg.PORT_LINK_STAT_UP 1, by
    refine ⟨?_, ?_⟩
    all_goals first | decide +kernel | rfl⟩,
   ⟨.i3c, 3, stRun, by
    refine ⟨?_, ?_⟩
    all_goals first | decide +kernel | rfl⟩,
   ⟨3, 2, stRun, by
    refine ?_
    all_goals first | decide +kernel | rfl⟩,
   ⟨stRun, by
    refine ?_
    all_goals first | decide +kernel | rfl⟩,
   ⟨.i3c, 0x400, stRun, by
    refine ⟨?_, ?_⟩
    all_goals first | decide +kernel | rfl⟩⟩

theorem wit_ViaductTrafficComplete_1 :
  -- flitReceive
  (∃ (l : Fin 20) (toDie : Bool) (flit : BitVec 640) (s : State),
      let s1 := s.takeHeader l.val toDie flit
      let d := (s1.link l.val).dir toDie
      ((s.link l.val).dir toDie).st = 1 ∧ flitOk flit = true ∧ flitType flit = 1 ∧ flitSeq flit = d.exp) ∧
  -- flitReceive_crc
  (∃ (l : Fin 20) (toDie : Bool) (flit : BitVec 640) (s : State),
      ((s.link l.val).dir toDie).st = 1 ∧ flitOk flit = false) ∧
  -- replayReq
  (∃ (l : Fin 20) (toDie : Bool) (ack : BitVec 12) (s : State),
      let d := ((s.link l.val).dir toDie).takeAck ack.toNat s.time
      let s1 := (s.putDir l.val toDie d).bump (pgVdt l.val) Reg.VDT_REPLAY_CNT_COUNT Reg.VDT_REPLAY_CNT_SAT 1
      d.st = 1) ∧
  -- replayTimeout
  (∃ (l : Fin 20) (toDie : Bool) (s : State),
      let d := (s.link l.val).dir toDie
      d.replayBuf ≠ [] ∧ d.oldestAt + 1000 ≤ s.time ∧ d.st = 1) ∧
  -- discardRepeat
  (∃ (l : Fin 20) (toDie : Bool) (s : State),
      let d := (s.link l.val).dir toDie
      d.discard = true ∧ d.st = 1 ∧ d.discAt + 1000 ≤ s.time) ∧
  -- viaductInit
  (∃ (l : Fin 20) (s : State),
      s.rails = true ∧ (s.link l.val).tx.st = 0 ∧ (s.link l.val).rx.st = 0) ∧
  -- pauseReq
  (∃ (l : Fin 20) (toDie : Bool) (s : State),
      let k := s.link l.val
      k.tx.st = 1) :=
  ⟨⟨3, true, mkFlit 0 0 false 1 0 0 0 0 [], stLink, by
    refine ⟨?_, ?_, ?_, ?_⟩
    all_goals first | decide +kernel | rfl⟩,
   ⟨3, true, 1, stLink, by
    refine ⟨?_, ?_⟩
    all_goals first | decide +kernel | rfl⟩,
   ⟨3, true, 0, stLink, by
    refine ?_
    all_goals first | decide +kernel | rfl⟩,
   ⟨3, true, { stLink with time := 5000 }.putDir 3 true { ((stLink.link 3).dir true) with replayBuf := [(0, 0)], seq := 1 }, by
    refine ⟨?_, ?_, ?_⟩
    all_goals first | decide +kernel | rfl⟩,
   ⟨3, true, { stLink with time := 5000 }.putDir 3 true { ((stLink.link 3).dir true) with discard := true }, by
    refine ⟨?_, ?_, ?_⟩
    all_goals first | decide +kernel | rfl⟩,
   ⟨3, { State.reset with rails := true }, by
    refine ⟨?_, ?_, ?_⟩
    all_goals first | decide +kernel | rfl⟩,
   ⟨3, true, stLink, by
    refine ?_
    all_goals first | decide +kernel | rfl⟩⟩

theorem wit_ViaductTrafficComplete_2 :
  -- pauseAck
  (∃ (l : Fin 20) (toDie : Bool) (s : State),
      (s.link l.val).tx.st = 3) ∧
  -- trainDone
  (∃ (l : Fin 20) (s : State),
      let k := s.link l.val
      let s1 := (s.putLink l.val { k with tx := { k.tx with st := 1, replays := 0 }, rx := { k.rx with st := 1, replays := 0 }, trained := false, retry := false, paused := false, attempts := 0 }).fallback l.val
      k.trained = true) :=
  ⟨⟨3, true, stLink.startRetrain 3 true false, by
    refine ?_
    all_goals first | decide +kernel | rfl⟩,
   ⟨3, stLink.setLink 3 { (stLink.link 3) with trained := true }, by
    refine ?_
    all_goals first | decide +kernel | rfl⟩⟩

theorem wit_ViaductRetrainComplete :
  -- retrainAttemptDone
  (∃ (l : Fin 20) (tx rx : BitVec 64) (a b : Nat) (s : State),
      let k := s.link l.val
      let s1 := (s.noteAttempt l.val tx.toNat rx.toNat).takeWidth l.val a b k.speedNow
      k.tx.st = 3 ∧ k.trained = false ∧ k.retry = false ∧ attemptResult l.val tx.toNat rx.toNat = some (a, b)) ∧
  -- retrainAttemptDone_lost
  (∃ (l : Fin 20) (tx rx : BitVec 64) (s : State),
      let k := s.link l.val
      k.tx.st = 3 ∧ k.trained = false ∧ k.retry = false ∧ k.attempts = 2 ∧ attemptResult l.val tx.toNat rx.toNat = none) ∧
  -- vdtRetry
  (∃ (l : Fin 20) (s : State),
      l.val < 16 ∧ (s.link l.val).tx.st = 1 ∧ (s.link l.val).rx.st = 1) ∧
  -- vdtGraceRetry
  (∃ (l : Fin 20) (tx rx : BitVec 64) (a b : Nat) (s : State),
      let k := s.link l.val
      let s1 := (s.noteAttempt l.val tx.toNat rx.toNat).takeWidth l.val a b k.speedNow
      k.tx.st = 4 ∧ k.trained = false ∧ k.lastRetry + 10000 ≤ s.time ∧ attemptResult l.val tx.toNat rx.toNat = some (a, b)) ∧
  -- vdtGraceEnd
  (∃ (l : Fin 20) (e : Nat) (s : State),
      (s.link l.val).graceEnd = some e ∧ e ≤ s.time) ∧
  -- narrowThrottle
  (∃ (l : Fin 20) (s : State),
      s.engOn = true ∧ l.val < 16) :=
  ⟨⟨3, 0, 0, 0, 0, stLink.startRetrain 3 true false, by
    refine ⟨?_, ?_, ?_, ?_⟩
    all_goals first | decide +kernel | rfl⟩,
   ⟨3, -1, -1, stLink.setLink 3 { ((stLink.startRetrain 3 true false).link 3) with attempts := 2 }, by
    refine ⟨?_, ?_, ?_, ?_, ?_⟩
    all_goals first | decide +kernel | rfl⟩,
   ⟨3, stLink, by
    refine ⟨?_, ?_, ?_⟩
    all_goals first | decide +kernel | rfl⟩,
   ⟨3, 0, 0, 0, 0, { stLink.linkLost 3 with time := 100000 }, by
    refine ⟨?_, ?_, ?_, ?_⟩
    all_goals first | decide +kernel | rfl⟩,
   ⟨3, 5, { (stLink.setLink 3 { (stLink.link 3) with graceEnd := some 5 }) with time := 100000 }, by
    refine ⟨?_, ?_⟩
    all_goals first | decide +kernel | rfl⟩,
   ⟨3, stRun, by
    refine ⟨?_, ?_⟩
    all_goals first | decide +kernel | rfl⟩⟩

theorem wit_JobsComplete :
  -- jobPost
  (∃ (eng : Fin 64) (q : Fin 24) (desc : BitVec 512) (s : State),
      let e := s.eng eng.val
      e.running = true ∧ (s.sqr q.val).jobq.length < 64) ∧
  -- jobPost_full
  (∃ (eng : Fin 64) (q : Fin 24) (desc : BitVec 512) (s : State),
      (s.eng eng.val).running = true ∧ 64 ≤ (s.sqr q.val).jobq.length) ∧
  -- jobCompletion
  (∃ (q : Fin 24) (ctx : Fin 512) (c : JobCtx) (st : Nat) (s : State),
      let e := jobEngine c.job
      let s1 := s.setEng e { (s.eng e) with mailbox := (s.eng e).mailbox ++ [completion c st] }
      SMap.get? (s.sqr q.val).ctxs ctx.val = some c ∧ c.done = some st ∧ (s.eng e).running = true ∧ (s.eng e).jobs.any (fun x => x.1 == jobId c.job) = true ∧ (s.eng e).mailbox.length < 32) ∧
  -- jobTimeout
  (∃ (eng : Fin 64) (job : BitVec 16) (x : Nat × Nat) (s : State),
      (s.eng eng.val).jobs.find? (fun x => x.1 == job.toNat) = some x ∧ x.2 + 2000000 ≤ s.time) ∧
  -- unitDone
  (∃ (q : Fin 24) (ctx : Fin 512) (unit : Fin 16) (c : JobCtx) (s : State),
      SMap.get? (s.sqr q.val).ctxs ctx.val = some c ∧ s.seqLive q.val = true ∧ c.busy.testBit unit.val = true) ∧
  -- illegalOpcode
  (∃ (q : Fin 24) (ctx : Fin 512) (pc : Nat) (s : State),
      s.fetchStep q.val ctx.val = .fault pc) :=
  ⟨⟨3, 2, 0, stRun, by
    refine ⟨?_, ?_⟩
    all_goals first | decide +kernel | rfl⟩,
   ⟨3, 2, 0, stRun.setSqr 2 { (stRun.sqr 2) with jobq := List.replicate 64 0 }, by
    refine ⟨?_, ?_⟩
    all_goals first | decide +kernel | rfl⟩,
   ⟨2, 7, { jobC with done := some 0x81 }, 0x81, stEnded, by
    refine ⟨?_, ?_, ?_, ?_, ?_⟩
    all_goals first | decide +kernel | rfl⟩,
   ⟨3, 9, (9, 0), { (stRun.setEng 3 { (stRun.eng 3) with jobs := [(9, 0)] }) with time := 2000000 }, by
    refine ⟨?_, ?_⟩
    all_goals first | decide +kernel | rfl⟩,
   ⟨2, 7, 1, { jobC with busy := 2, waiting := some 1 }, stSeq 0 { jobC with busy := 2, waiting := some 1 }, by
    refine ⟨?_, ?_, ?_⟩
    all_goals first | decide +kernel | rfl⟩,
   ⟨2, 7, 0, stSeq 0x1F jobC, by
    refine ?_
    all_goals first | decide +kernel | rfl⟩⟩

theorem wit_StepsComplete_1 :
  -- nop
  (∃ (q : Fin 24) (ctx : Fin 512) (c : JobCtx) (w : Nat) (s : State),
      s.fetchStep q.val ctx.val = .step c w ∧ stepOp w = 0) ∧
  -- wait
  (∃ (q : Fin 24) (ctx : Fin 512) (c : JobCtx) (w : Nat) (s : State),
      s.fetchStep q.val ctx.val = .step c w ∧ stepOp w = 2 ∧ (c.stat (stepUnit w)).testBit 0 = true) ∧
  -- wait_stalls
  (∃ (q : Fin 24) (ctx : Fin 512) (c : JobCtx) (w : Nat) (s : State),
      s.fetchStep q.val ctx.val = .step c w ∧ stepOp w = 2 ∧ (c.stat (stepUnit w)).testBit 0 = false) ∧
  -- br_taken
  (∃ (q : Fin 24) (ctx : Fin 512) (c : JobCtx) (w : Nat) (s : State),
      s.fetchStep q.val ctx.val = .step c w ∧ stepOp w = 3 ∧ (c.stat (stepUnit w)).testBit (stepTest w) = stepSense w ∧ stepTarget w < s.seqLength q.val) ∧
  -- br
  (∃ (q : Fin 24) (ctx : Fin 512) (c : JobCtx) (w : Nat) (s : State),
      s.fetchStep q.val ctx.val = .step c w ∧ stepOp w = 3 ∧ (c.stat (stepUnit w)).testBit (stepTest w) ≠ stepSense w) ∧
  -- jmp
  (∃ (q : Fin 24) (ctx : Fin 512) (c : JobCtx) (w : Nat) (s : State),
      s.fetchStep q.val ctx.val = .step c w ∧ stepOp w = 4 ∧ stepTarget w < s.seqLength q.val) ∧
  -- set
  (∃ (q : Fin 24) (ctx : Fin 512) (c : JobCtx) (w : Nat) (s : State),
      s.fetchStep q.val ctx.val = .step c w ∧ stepOp w = 5) :=
  ⟨⟨2, 7, jobC, stW 0 0, stSeq 0 jobC, by
    refine ⟨?_, ?_⟩
    all_goals first | decide +kernel | rfl⟩,
   ⟨2, 7, jobD, stW 2 0, stSeq 2 jobD, by
    refine ⟨?_, ?_, ?_⟩
    all_goals first | decide +kernel | rfl⟩,
   ⟨2, 7, jobC, stW 2 0, stSeq 2 jobC, by
    refine ⟨?_, ?_, ?_⟩
    all_goals first | decide +kernel | rfl⟩,
   ⟨2, 7, jobC, stW 3 0, stSeq 3 jobC, by
    refine ⟨?_, ?_, ?_, ?_⟩
    all_goals first | decide +kernel | rfl⟩,
   ⟨2, 7, jobD, stW 3 0, stSeq 3 jobD, by
    refine ⟨?_, ?_, ?_⟩
    all_goals first | decide +kernel | rfl⟩,
   ⟨2, 7, jobC, stW 4 0, stSeq 4 jobC, by
    refine ⟨?_, ?_, ?_⟩
    all_goals first | decide +kernel | rfl⟩,
   ⟨2, 7, jobC, stW 5 0, stSeq 5 jobC, by
    refine ⟨?_, ?_⟩
    all_goals first | decide +kernel | rfl⟩⟩

theorem wit_StepsComplete_2 :
  -- add
  (∃ (q : Fin 24) (ctx : Fin 512) (c : JobCtx) (w : Nat) (s : State),
      let v := c.reg (stepA w) + immSigned w
      s.fetchStep q.val ctx.val = .step c w ∧ stepOp w = 6) ∧
  -- loop
  (∃ (q : Fin 24) (ctx : Fin 512) (c : JobCtx) (w : Nat) (s : State),
      let v := c.reg (stepB w) + 2 ^ 64 - 1
      let c1 := (c.setReg (stepB w) v).zero v
      s.fetchStep q.val ctx.val = .step c w ∧ stepOp w = 7 ∧ c1.reg (stepB w) ≠ 0 ∧ stepTarget w < s.seqLength q.val) ∧
  -- loop_ends
  (∃ (q : Fin 24) (ctx : Fin 512) (c : JobCtx) (w : Nat) (s : State),
      let v := c.reg (stepB w) + 2 ^ 64 - 1
      let c1 := (c.setReg (stepB w) v).zero v
      s.fetchStep q.val ctx.val = .step c w ∧ stepOp w = 7 ∧ c1.reg (stepB w) = 0) ∧
  -- call
  (∃ (q : Fin 24) (ctx : Fin 512) (c : JobCtx) (w : Nat) (s : State),
      s.fetchStep q.val ctx.val = .step c w ∧ stepOp w = 8 ∧ c.stack.length < 4 ∧ stepTarget w < s.seqLength q.val) ∧
  -- ret
  (∃ (q : Fin 24) (ctx : Fin 512) (c : JobCtx) (w : Nat) (p : Nat) (r : List Nat) (s : State),
      s.fetchStep q.val ctx.val = .step c w ∧ stepOp w = 9 ∧ c.stack = p :: r) ∧
  -- endStep
  (∃ (q : Fin 24) (ctx : Fin 512) (c : JobCtx) (w : Nat) (s : State),
      s.fetchStep q.val ctx.val = .step c w ∧ stepOp w = 0xA) :=
  ⟨⟨2, 7, jobC, stW 6 0, stSeq 6 jobC, by
    refine ⟨?_, ?_⟩
    all_goals first | decide +kernel | rfl⟩,
   ⟨2, 7, jobC, stWb 7 1, stSeqW (stWb 7 1) jobC, by
    refine ⟨?_, ?_, ?_, ?_⟩
    all_goals first | decide +kernel | rfl⟩,
   ⟨2, 7, jobC, stW 7 0, stSeq 7 jobC, by
    refine ⟨?_, ?_, ?_⟩
    all_goals first | decide +kernel | rfl⟩,
   ⟨2, 7, jobC, stW 8 0, stSeq 8 jobC, by
    refine ⟨?_, ?_, ?_, ?_⟩
    all_goals first | decide +kernel | rfl⟩,
   ⟨2, 7, { jobC with stack := [0] }, stW 9 0, 0, [], stSeq 9 { jobC with stack := [0] }, by
    refine ⟨?_, ?_, ?_⟩
    all_goals first | decide +kernel | rfl⟩,
   ⟨2, 7, jobC, stW 10 0, stSeq 10 jobC, by
    refine ⟨?_, ?_⟩
    all_goals first | decide +kernel | rfl⟩⟩

theorem wit_PierUnitsComplete :
  -- dramRd
  (∃ (q : Fin 24) (ctx : Fin 512) (flip : BitVec 640) (c : JobCtx) (w : Nat) (k : Nat) (s1 : State) (c1 : JobCtx) (s : State),
      let da := c.lineDa (stepA w)
      s.fetchStep q.val ctx.val = .step c w ∧ isIssue 1 1 w = true ∧ (s.spanOf da).isNone = false ∧ s.copyAt q.val da = some k ∧ s.gone da k = false ∧ s.copyRuns da k = true ∧ s.jobHold q.val ctx.val c da false = (s1, c1, true) ∧ s1.queued da = none) ∧
  -- dramRdOther
  (∃ (q : Fin 24) (ctx : Fin 512) (flip : BitVec 640) (c : JobCtx) (w : Nat) (k : Nat) (s1 : State) (c1 : JobCtx) (s : State),
      let da := c.lineDa (stepA w)
      s.fetchStep q.val ctx.val = .step c w ∧ isIssue 1 3 w = true ∧ (s.spanOf da).isNone = false ∧ s.copyAt q.val da = some k ∧ s.gone da k = false ∧ s.copyRuns da k = true ∧ s.jobHold q.val ctx.val c da false = (s1, c1, true) ∧ s1.queued da = none) ∧
  -- dramWr
  (∃ (q : Fin 24) (ctx : Fin 512) (c : JobCtx) (w : Nat) (k : Nat) (s1 : State) (c1 : JobCtx) (s : State),
      let da := c.lineDa (stepA w)
      let s2 := s1.drainFirst da
      s.fetchStep q.val ctx.val = .step c w ∧ isIssue 1 2 w = true ∧ (s.spanOf da).isNone = false ∧ s.copyAt q.val da = some k ∧ s.gone da k = false ∧ s.copyRuns da k = true ∧ s.jobHold q.val ctx.val c da true = (s1, c1, true) ∧ (s2.queued (s2.primDa da)).isSome = false) ∧
  -- liuCheck
  (∃ (q : Fin 24) (ctx : Fin 512) (c : JobCtx) (w : Nat) (s : State),
      s.fetchStep q.val ctx.val = .step c w ∧ isIssue 2 1 w = true) ∧
  -- liuGen
  (∃ (q : Fin 24) (ctx : Fin 512) (c : JobCtx) (w : Nat) (s : State),
      s.fetchStep q.val ctx.val = .step c w ∧ isIssue 2 2 w = true) ∧
  -- liuLogCe
  (∃ (q : Fin 24) (ctx : Fin 512) (c : JobCtx) (w : Nat) (s : State),
      s.fetchStep q.val ctx.val = .step c w ∧ isIssue 2 3 w = true) ∧
  -- liuCountUe
  (∃ (q : Fin 24) (ctx : Fin 512) (c : JobCtx) (w : Nat) (m : Ma) (s : State),
      s.fetchStep q.val ctx.val = .step c w ∧ isIssue 2 4 w = true ∧ s.lineMa c.da ((s.copyAt q.val c.da).getD 0) = some m) :=
  ⟨⟨2, 7, 0, jobJ 0, stWu 1 1, 0, ((seqOn stSpan (stWu 1 1) (jobJ 0)).jobHold 2 7 (jobJ 0) 0 false).1, ((seqOn stSpan (stWu 1 1) (jobJ 0)).jobHold 2 7 (jobJ 0) 0 false).2.1, seqOn stSpan (stWu 1 1) (jobJ 0), ⟨(by first | decide +kernel | rfl), (by first | decide +kernel | rfl), (by first | decide +kernel | rfl), (by first | decide +kernel | rfl), (by first | decide +kernel | rfl), (by first | decide +kernel | rfl), Prod.ext rfl (by first | decide +kernel | rfl), (by first | decide +kernel | rfl)⟩⟩,
   ⟨2, 7, 0, jobJ 0, stWu 1 3, 0, ((seqOn stSpan (stWu 1 3) (jobJ 0)).jobHold 2 7 (jobJ 0) 0 false).1, ((seqOn stSpan (stWu 1 3) (jobJ 0)).jobHold 2 7 (jobJ 0) 0 false).2.1, seqOn stSpan (stWu 1 3) (jobJ 0), ⟨(by first | decide +kernel | rfl), (by first | decide +kernel | rfl), (by first | decide +kernel | rfl), (by first | decide +kernel | rfl), (by first | decide +kernel | rfl), (by first | decide +kernel | rfl), Prod.ext rfl (by first | decide +kernel | rfl), (by first | decide +kernel | rfl)⟩⟩,
   ⟨2, 7, jobJ 0, stWu 1 2, 0, ((seqOn stSpan (stWu 1 2) (jobJ 0)).jobHold 2 7 (jobJ 0) 0 true).1, ((seqOn stSpan (stWu 1 2) (jobJ 0)).jobHold 2 7 (jobJ 0) 0 true).2.1, seqOn stSpan (stWu 1 2) (jobJ 0), ⟨(by first | decide +kernel | rfl), (by first | decide +kernel | rfl), (by first | decide +kernel | rfl), (by first | decide +kernel | rfl), (by first | decide +kernel | rfl), (by first | decide +kernel | rfl), Prod.ext rfl (by first | decide +kernel | rfl), (by first | decide +kernel | rfl)⟩⟩,
   ⟨2, 7, jobC, stWu 2 1, stSeqW (stWu 2 1) jobC, by
    refine ⟨?_, ?_⟩
    all_goals first | decide +kernel | rfl⟩,
   ⟨2, 7, jobC, stWu 2 2, stSeqW (stWu 2 2) jobC, by
    refine ⟨?_, ?_⟩
    all_goals first | decide +kernel | rfl⟩,
   ⟨2, 7, jobC, stWu 2 3, stSeqW (stWu 2 3) jobC, by
    refine ⟨?_, ?_⟩
    all_goals first | decide +kernel | rfl⟩,
   ⟨2, 7, jobC, stWu 2 4, ((seqOn stSpan (stWu 2 4) jobC).lineMa 0 0).getD ⟨0, 0, 0, 0, 0, false, 0, 0, 0, 0, 0, 0⟩, seqOn stSpan (stWu 2 4) jobC, by
    refine ⟨?_, ?_, ?_⟩
    all_goals first | decide +kernel | rfl⟩⟩

theorem wit_CipherAndCodecUnitsComplete_1 :
  -- cipherKeystream
  (∃ (q : Fin 24) (ctx : Fin 512) (c : JobCtx) (w : Nat) (k ma mi : Nat) (s : State),
      s.fetchStep q.val ctx.val = .step c w ∧ isIssue 3 1 w = true ∧ c.ctr = some (k, ma, mi)) ∧
  -- cipherXor
  (∃ (q : Fin 24) (ctx : Fin 512) (c : JobCtx) (w : Nat) (s : State),
      s.fetchStep q.val ctx.val = .step c w ∧ isIssue 3 2 w = true) ∧
  -- tagCheck
  (∃ (q : Fin 24) (ctx : Fin 512) (c : JobCtx) (w : Nat) (k ma mi : Nat) (s : State),
      s.fetchStep q.val ctx.val = .step c w ∧ isIssue 3 3 w = true ∧ c.ctr = some (k, ma, mi)) ∧
  -- tagGen
  (∃ (q : Fin 24) (ctx : Fin 512) (c : JobCtx) (w : Nat) (k ma mi : Nat) (s : State),
      s.fetchStep q.val ctx.val = .step c w ∧ isIssue 3 4 w = true ∧ c.ctr = some (k, ma, mi) ∧ (s.slot k).mode = 2) ∧
  -- inflate
  (∃ (q : Fin 24) (ctx : Fin 512) (c : JobCtx) (w : Nat) (o : List Nat) (n : Bool) (s : State),
      s.fetchStep q.val ctx.val = .step c w ∧ isIssue 4 1 w = true ∧ inflateAll (c.stream.take (c.reg (stepA w))) (c.reg (stepA w)) = some (o, n) ∧ o.length = 1024) ∧
  -- inflate_reject
  (∃ (q : Fin 24) (ctx : Fin 512) (c : JobCtx) (w : Nat) (s : State),
      s.fetchStep q.val ctx.val = .step c w ∧ isIssue 4 1 w = true ∧ inflateAll (c.stream.take (c.reg (stepA w))) (c.reg (stepA w)) = none) ∧
  -- deflate
  (∃ (q : Fin 24) (ctx : Fin 512) (stream : List (BitVec 8)) (c : JobCtx) (w : Nat) (s : State),
      s.fetchStep q.val ctx.val = .step c w ∧ isIssue 4 2 w = true ∧ canEmit (s.codeMode q.val (jobTag c.job)) (padTo 1024 c.stream) (nats stream) = true) :=
  ⟨⟨2, 7, { jobC with ctr := some (1, 0, 0) }, stWu 3 1, 1, 0, 0, stSeqW (stWu 3 1) { jobC with ctr := some (1, 0, 0) }, by
    refine ⟨?_, ?_, ?_⟩
    all_goals first | decide +kernel | rfl⟩,
   ⟨2, 7, jobC, stWu 3 2, stSeqW (stWu 3 2) jobC, by
    refine ⟨?_, ?_⟩
    all_goals first | decide +kernel | rfl⟩,
   ⟨2, 7, { jobC with ctr := some (1, 0, 0) }, stWu 3 3, 1, 0, 0, stSeqW (stWu 3 3) { jobC with ctr := some (1, 0, 0) }, by
    refine ⟨?_, ?_, ?_⟩
    all_goals first | decide +kernel | rfl⟩,
   ⟨2, 7, { jobC with ctr := some (1, 0, 0) }, stWu 3 4, 1, 0, 0, seqOn stSlot2 (stWu 3 4) { jobC with ctr := some (1, 0, 0) }, by
    refine ⟨?_, ?_, ?_, ?_⟩
    all_goals first | decide +kernel | rfl⟩,
   ⟨2, 7, { jobJ 11 with stream := zeroStream }, stWu 4 1, List.replicate 1024 0, false, stSeqW (stWu 4 1) { jobJ 11 with stream := zeroStream }, by
    refine ⟨?_, ?_, ?_, ?_⟩
    all_goals first | decide +kernel | rfl⟩,
   ⟨2, 7, jobC, stWu 4 1, stSeqW (stWu 4 1) jobC, by
    refine ⟨?_, ?_, ?_⟩
    all_goals first | decide +kernel | rfl⟩,
   ⟨2, 7, zeroStream.map (BitVec.ofNat 8), jobC, stWu 4 2, stSeqW (stWu 4 2) jobC, by
    refine ⟨?_, ?_, ?_⟩
    all_goals first | decide +kernel | rfl⟩⟩

theorem wit_CipherAndCodecUnitsComplete_2 :
  -- verify
  (∃ (q : Fin 24) (ctx : Fin 512) (c : JobCtx) (w : Nat) (o : List Nat) (n : Bool) (s : State),
      s.fetchStep q.val ctx.val = .step c w ∧ isIssue 4 3 w = true ∧ inflateAll c.stream c.stream.length = some (o, n)) ∧
  -- allocPlace
  (∃ (q : Fin 24) (ctx : Fin 512) (c : JobCtx) (w : Nat) (t : State) (sector : Nat) (s : State),
      s.fetchStep q.val ctx.val = .step c w ∧ isIssue 5 1 w = true ∧ s.place q.val (s.vi (jobTag c.job)).regionId (ceilDiv c.stream.length 256) (c.reg (stepA w) / 4) (c.reg (stepA w) % 4) ((toLines (4 * ceilDiv c.stream.length 256) (padTo (256 * ceilDiv c.stream.length 256) c.stream)).map (fun d => (d, false))) = (t, some sector)) ∧
  -- allocClose
  (∃ (q : Fin 24) (ctx : Fin 512) (c : JobCtx) (w : Nat) (o : OpenStripe) (s : State),
      s.fetchStep q.val ctx.val = .step c w ∧ isIssue 5 2 w = true ∧ (s.pier q.val).open_.find? (fun o => o.region == (s.vi (jobTag c.job)).regionId && !o.closed) = some o) :=
  ⟨⟨2, 7, { jobJ 11 with stream := zeroStream }, stWu 4 3, List.replicate 1024 0, false, stSeqW (stWu 4 3) { jobJ 11 with stream := zeroStream }, by
    refine ⟨?_, ?_, ?_⟩
    all_goals first | decide +kernel | rfl⟩,
   ⟨2, 7, { jobJ 0 with stream := [1], job := vi5Job }, stWu 5 1, ((seqOn stPlace (stWu 5 1) { jobJ 0 with stream := [1], job := vi5Job }).place 2 0 1 0 0 ((toLines 4 (padTo 256 [1])).map (fun d => (d, false)))).1, (((seqOn stPlace (stWu 5 1) { jobJ 0 with stream := [1], job := vi5Job }).place 2 0 1 0 0 ((toLines 4 (padTo 256 [1])).map (fun d => (d, false)))).2).getD 0, seqOn stPlace (stWu 5 1) { jobJ 0 with stream := [1], job := vi5Job }, ⟨(by first | decide +kernel | rfl), (by first | decide +kernel | rfl), Prod.ext rfl (by first | decide +kernel | rfl)⟩⟩,
   ⟨2, 7, { jobC with job := vi5Job }, stWu 5 2, ⟨65536 * 32770, 0, 0, [], [], 0, false⟩, seqOn stPlace (stWu 5 2) { jobC with job := vi5Job }, by
    refine ⟨?_, ?_, ?_⟩
    all_goals first | decide +kernel | rfl⟩⟩

theorem wit_LinkCounterAndHomeUnitsComplete_1 :
  -- vdtSend
  (∃ (q : Fin 24) (ctx : Fin 512) (c : JobCtx) (w : Nat) (t : State) (s : State),
      let dest := c.reg (stepA w) % 32
      let l := if q.val < 16 then q.val else dest % 16
      s.fetchStep q.val ctx.val = .step c w ∧ (stepOp w == 1 && stepUnit w == 6) = true ∧ s.tick.sendSlot l (!decide (q.val < 16)) (sentSlot q.val (stepImm w % 65536 - 1) dest (Config.body s.free)) none = (t, true)) ∧
  -- ccacheGet
  (∃ (q : Fin 24) (ctx : Fin 512) (c : JobCtx) (w : Nat) (k ma mi : Nat) (s : State),
      let da := c.lineDa (stepA w)
      s.fetchStep q.val ctx.val = .step c w ∧ isIssue 7 1 w = true ∧ s.jobCtr da = .ok k ma mi) ∧
  -- ccacheAdvance
  (∃ (q : Fin 24) (ctx : Fin 512) (c : JobCtx) (w : Nat) (t : State) (k ma mi : Nat) (s : State),
      let da := c.lineDa (stepA w)
      let ovf := fun (u : State) => match u.ctrEnt da with | some (_, some e) => e.ovf.isSome | _ => false
      s.fetchStep q.val ctx.val = .step c w ∧ isIssue 7 2 w = true ∧ s.advance da = (t, .ok k ma mi)) ∧
  -- ccachePin
  (∃ (q : Fin 24) (ctx : Fin 512) (c : JobCtx) (w : Nat) (t : State) (s : State),
      s.fetchStep q.val ctx.val = .step c w ∧ isIssue 7 3 w = true ∧ s.pinCtr (c.lineDa (stepA w)) true = some t) ∧
  -- ccacheUnpin
  (∃ (q : Fin 24) (ctx : Fin 512) (c : JobCtx) (w : Nat) (t : State) (s : State),
      s.fetchStep q.val ctx.val = .step c w ∧ isIssue 7 4 w = true ∧ s.pinCtr (c.lineDa (stepA w)) false = some t) ∧
  -- xlatLookup
  (∃ (q : Fin 24) (ctx : Fin 512) (c : JobCtx) (w : Nat) (e : TlbEnt) (s : State),
      s.fetchStep q.val ctx.val = .step c w ∧ isIssue 8 1 w = true ∧ (s.prt (q.val - 16)).tlbHit (jobTag c.job) (c.reg (stepA w) / 4096) = some e) ∧
  -- xlatWalk
  (∃ (q : Fin 24) (ctx : Fin 512) (c : JobCtx) (w : Nat) (a l e : Nat) (s : State),
      let via := c.reg (stepA w)
      s.fetchStep q.val ctx.val = .step c w ∧ isIssue 8 2 w = true ∧ s.findLeaf (jobTag c.job) via = some (a, l, e) ∧ leafV e = true ∧ s.leafFault e l via = none) :=
  ⟨⟨2, 7, jobC, stWu 6 1, ((seqOn (stRun.linkInit 2) (stWu 6 1) jobC).tick.sendSlot 2 false (sentSlot 2 0 0 (Config.body (seqOn (stRun.linkInit 2) (stWu 6 1) jobC).free)) none).1, seqOn (stRun.linkInit 2) (stWu 6 1) jobC, ⟨(by first | decide +kernel | rfl), (by first | decide +kernel | rfl), Prod.ext rfl (by first | decide +kernel | rfl)⟩⟩,
   ⟨2, 7, jobJ (2 ^ 24), stWu 7 1, 5, 0, 0, seqOn stOvf0 (stWu 7 1) (jobJ (2 ^ 24)), by
    refine ⟨?_, ?_, ?_⟩
    all_goals first | decide +kernel | rfl⟩,
   ⟨2, 7, jobJ (2 ^ 24), stWu 7 2, ((seqOn stOvf0 (stWu 7 2) (jobJ (2 ^ 24))).advance (2 ^ 30)).1, 5, 0, 1, seqOn stOvf0 (stWu 7 2) (jobJ (2 ^ 24)), by
    refine ⟨?_, ?_, ?_⟩
    all_goals first | decide +kernel | rfl⟩,
   ⟨2, 7, jobJ (2 ^ 24), stWu 7 3, ((seqOn stOvf0 (stWu 7 3) (jobJ (2 ^ 24))).pinCtr (2 ^ 30) true).getD stRun, seqOn stOvf0 (stWu 7 3) (jobJ (2 ^ 24)), by
    refine ⟨?_, ?_, ?_⟩
    all_goals first | decide +kernel | rfl⟩,
   ⟨2, 7, jobJ (2 ^ 24), stWu 7 4, ((seqOn stOvf0 (stWu 7 4) (jobJ (2 ^ 24))).pinCtr (2 ^ 30) false).getD stRun, seqOn stOvf0 (stWu 7 4) (jobJ (2 ^ 24)), by
    refine ⟨?_, ?_, ?_⟩
    all_goals first | decide +kernel | rfl⟩,
   ⟨18, 7, { jobC with job := vi5Job }, stWu 8 1, ⟨5, 0, 1, leafA0⟩, hubOn stPort (stWu 8 1) { jobC with job := vi5Job }, by
    refine ⟨?_, ?_, ?_⟩
    all_goals first | decide +kernel | rfl⟩,
   ⟨18, 7, { jobC with job := vi5Job }, stWu 8 2, 8192, 1, leafA0, hubOn stPort (stWu 8 2) { jobC with job := vi5Job }, by
    refine ⟨?_, ?_, ?_, ?_, ?_⟩
    all_goals first | decide +kernel | rfl⟩⟩

theorem wit_LinkCounterAndHomeUnitsComplete_2 :
  -- xlatHold
  (∃ (q : Fin 24) (ctx : Fin 512) (c : JobCtx) (w : Nat) (a l e : Nat) (s : State),
      s.fetchStep q.val ctx.val = .step c w ∧ isIssue 8 3 w = true ∧ s.findLeaf (jobTag c.job) (c.reg (stepA w)) = some (a, l, e)) ∧
  -- homeOrder
  (∃ (q : Fin 24) (ctx : Fin 512) (c : JobCtx) (w : Nat) (s : State),
      let da := c.lineDa (stepA w)
      let u := (s.jobRecall da).1
      s.fetchStep q.val ctx.val = .step c w ∧ isIssue 9 1 w = true ∧ c.req = none ∧ s.lineFree (da / 64) = true ∧ (s.jobRecall da).2 = true) ∧
  -- homeRelease
  (∃ (q : Fin 24) (ctx : Fin 512) (c : JobCtx) (w : Nat) (id : Nat) (s : State),
      s.fetchStep q.val ctx.val = .step c w ∧ isIssue 9 2 w = true ∧ c.req = some id) :=
  ⟨⟨18, 7, { jobC with job := vi5Job }, stWu 8 3, 8192, 1, leafA0, hubOn stPort (stWu 8 3) { jobC with job := vi5Job }, by
    refine ⟨?_, ?_, ?_⟩
    all_goals first | decide +kernel | rfl⟩,
   ⟨18, 7, jobJ (2 ^ 24), stWu 9 1, hubOn stMove (stWu 9 1) (jobJ (2 ^ 24)), by
    refine ⟨?_, ?_, ?_, ?_, ?_⟩
    all_goals first | decide +kernel | rfl⟩,
   ⟨18, 7, { jobC with req := some 3 }, stWu 9 2, 3, hubOn stRun (stWu 9 2) { jobC with req := some 3 }, by
    refine ⟨?_, ?_, ?_⟩
    all_goals first | decide +kernel | rfl⟩⟩

theorem wit_EnginesComplete :
  -- mailboxSend
  (∃ (eng dst : Fin 64) (msg : BitVec 512) (s : State),
      (s.eng eng.val).running = true ∧ (s.eng dst.val).mailbox.length < 32) ∧
  -- interrupt
  (∃ (eng : Fin 64) (mask : BitVec 64) (s : State),
      (s.eng eng.val).running = true) ∧
  -- keystoneProbe
  (∃ (answered : BitVec 64) (s : State),
      s.keystoneRuns = true ∧ s.key.probeAt + 10000000 ≤ s.time) ∧
  -- engineReloadDone
  (∃ (eng : Fin 64) (s : State),
      (s.eng eng.val).loading = true ∧ s.engOn = true ∧ s.gateShut (73 + eng.val) = false ∧ s.role eng.val = eng.val) ∧
  -- engineReloadDone_role
  (∃ (eng : Fin 64) (s : State),
      (s.eng eng.val).loading = true ∧ s.engOn = true ∧ s.gateShut (73 + eng.val) = false ∧ s.role eng.val ≠ eng.val) ∧
  -- engineHalt
  (∃ (v : BitVec 32) (s : State),
      let e := s.fld pgHub Reg.HUB_ENG_IDX_ENGINE
      v.toNat.testBit 0 = true) ∧
  -- engRestart
  (∃  (s : State),
      let e := s.fld pgHub Reg.HUB_ENG_IDX_ENGINE
      (s.eng e).fenced = false ∧ s.engOn = true) :=
  ⟨⟨3, 4, 1, stRun, by
    refine ⟨?_, ?_⟩
    all_goals first | decide +kernel | rfl⟩,
   ⟨3, 16, stRun, by
    refine ?_
    all_goals first | decide +kernel | rfl⟩,
   ⟨5, { stRun with time := 20000000 }, by
    refine ⟨?_, ?_⟩
    all_goals first | decide +kernel | rfl⟩,
   ⟨3, stRun.setEng 3 { (stRun.eng 3) with loading := true }, by
    refine ⟨?_, ?_, ?_, ?_⟩
    all_goals first | decide +kernel | rfl⟩,
   ⟨3, { stRun.setEng 3 { (stRun.eng 3) with loading := true } with roles := [(3, 14)] }, by
    refine ⟨?_, ?_, ?_, ?_⟩
    all_goals first | decide +kernel | rfl⟩,
   ⟨1, stRun, by
    refine ?_
    all_goals first | decide +kernel | rfl⟩,
   ⟨stRun, by
    refine ⟨?_, ?_⟩
    all_goals first | decide +kernel | rfl⟩⟩

theorem wit_KeystoneComplete_1 :
  -- hubLapBeat
  (∃ (eng : Fin 64) (s : State),
      let s0 := s.leaveIdle
      s0.ready = true ∧ s0.awake = true ∧ (eng.val = 16 * s0.baton ∨ eng.val = 16 * s0.baton + 1) ∧ s0.pairRuns s0.baton = true ∧ s0.coast = false) ∧
  -- lapWindowEnd
  (∃  (s : State),
      let m := s.fld pgHub Reg.HUB_LAP_STAT_MISSED
      s.engOn = true ∧ s.pwr.state = 0 ∧ s.key.loadAt = none ∧ s.key.windowAt + 1000000 * (m + 1) ≤ s.time ∧ m < 2) ∧
  -- lapWindowEnd_third
  (∃  (s : State),
      let m := s.fld pgHub Reg.HUB_LAP_STAT_MISSED
      s.engOn = true ∧ s.pwr.state = 0 ∧ s.key.loadAt = none ∧ s.key.windowAt + 1000000 * (m + 1) ≤ s.time ∧ 2 ≤ m) ∧
  -- lockstepMismatch
  (∃  (s : State),
      s.engOn = true) ∧
  -- pass
  (∃  (s : State),
      s.engOn = true) ∧
  -- bridgeTimeout
  (∃  (s : State),
      s.engOn = true ∧ s.key.bridgeFails < 2) ∧
  -- bridgeTimeout_third
  (∃  (s : State),
      s.engOn = true ∧ 2 ≤ s.key.bridgeFails) :=
  ⟨⟨0, stRun, by
    refine ⟨?_, ?_, ?_, ?_, ?_⟩
    all_goals first | decide +kernel | rfl⟩,
   ⟨{ stRun with time := 1000000 }, by
    refine ⟨?_, ?_, ?_, ?_, ?_⟩
    all_goals first | decide +kernel | rfl⟩,
   ⟨{ stRun.put pgHub Reg.HUB_LAP_STAT_MISSED 2 with time := 3000000 }, by
    refine ⟨?_, ?_, ?_, ?_, ?_⟩
    all_goals first | decide +kernel | rfl⟩,
   ⟨stRun, by
    refine ?_
    all_goals first | decide +kernel | rfl⟩,
   ⟨stRun, by
    refine ?_
    all_goals first | decide +kernel | rfl⟩,
   ⟨stRun, by
    refine ⟨?_, ?_⟩
    all_goals first | decide +kernel | rfl⟩,
   ⟨{ stRun with key := { stRun.key with bridgeFails := 2 } }, by
    refine ⟨?_, ?_⟩
    all_goals first | decide +kernel | rfl⟩⟩

theorem wit_KeystoneComplete_2 :
  -- restart
  (∃ (mask : BitVec 4) (k : Nat) (r : List Nat) (s : State),
      let s1 := s.put pgHub Reg.HUB_LAP_CTL_FENCED (maskOf 4 (fun k => s.fencedMcs.testBit k && !mask.toNat.testBit k))
      let s2 := ((engsOf mask.toNat).filter (fun e => !(s1.eng e).fenced)).foldl (fun (s : State) (e : Nat) => s.setEng e { (s.eng e) with running := true, loading := false, halt := false, misses := 0, mask := 2 ^ 64 - 1 }) s1
      mcsOf mask.toNat = k :: r ∧ s.coast = true ∧ s.ready = true ∧ s.awake = true) ∧
  -- restart_badSignature
  (∃ (mask : BitVec 4) (k : Nat) (r : List Nat) (s : State),
      mcsOf mask.toNat = k :: r ∧ s.coast = true ∧ s.ready = true ∧ s.awake = true) ∧
  -- restartBeatTimeout
  (∃ (e : Nat) (s : State),
      s.key.loadAt = some e ∧ e + 250000000 ≤ s.time ∧ s.ready = true ∧ s.awake = true ∧ s.coast = true) :=
  ⟨⟨1, 0, [], stCoast, by
    refine ⟨?_, ?_, ?_, ?_⟩
    all_goals first | decide +kernel | rfl⟩,
   ⟨1, 0, [], stCoast, by
    refine ⟨?_, ?_, ?_, ?_⟩
    all_goals first | decide +kernel | rfl⟩,
   ⟨0, { stCoast with key := { stCoast.key with loadAt := some 0 }, time := 250000000 }, by
    refine ⟨?_, ?_, ?_, ?_, ?_⟩
    all_goals first | decide +kernel | rfl⟩⟩

theorem wit_ManagerCommandsComplete :
  -- getKenezInfo
  (∃ (src : CmdSrc) (p : List Nat) (s : State),
      s.engTakes src 0xC000 [] p = true) ∧
  -- policyGet
  (∃ (src : CmdSrc) (req : List (BitVec 8)) (p : List Nat) (v lo hi : Nat) (s : State),
      s.engTakes src 0xC300 (nats req) p = true ∧ (s.taken src 0xC300).polEntry (pf p 0 2) = some (v, lo, hi) ∧ zeroBytes p [2, 3] = true) ∧
  -- policySet
  (∃ (src : CmdSrc) (req : List (BitVec 8)) (p : List Nat) (old lo hi : Nat) (s : State),
      let id := pf p 0 2
      let v := pf p 4 4
      s.engTakes src 0xC301 (nats req) p = true ∧ (s.taken src 0xC301).polEntry id = some (old, lo, hi) ∧ zeroBytes p [2, 3] = true ∧ v ≠ old ∧ lo ≤ v ∧ v ≤ hi ∧ (s.taken src 0xC301).polClash id v = false) ∧
  -- mbxCmdGo
  (∃ (slot : Fin 7) (v : BitVec 32) (s : State),
      let k := slot.val
      let op := bits v.toNat 0 16
      let held := (s.put pgMbx (Reg.MBX_CMD_OPCODE k) op).put pgMbx (Reg.MBX_CMD_LEN k) (bits v.toNat 16 8)
      let busy := held.put pgMbx (Reg.MBX_STAT_BUSY k) 1
      let s1 := ({ busy with mbx := SMap.put s.mbx k { (s.mbox k) with op := op } } : State)
      v.toNat.testBit 31 = true ∧ s.flag pgMbx (Reg.MBX_STAT_BUSY k) = false ∧ vendorReq op = some (bits v.toNat 16 8) ∧ s1.keystoneRuns = true) :=
  ⟨⟨.i3c, [], stRun, by
    refine ?_
    all_goals first | decide +kernel | rfl⟩,
   ⟨.i3c, bytes [0, 1, 0, 0], [0, 1, 0, 0], 1, 0, 9, stPolicy, by
    refine ⟨?_, ?_, ?_⟩
    all_goals first | decide +kernel | rfl⟩,
   ⟨.i3c, bytes [0, 1, 0, 0, 9, 0, 0, 0], [0, 1, 0, 0, 9, 0, 0, 0], 1, 0, 9, stPolicy, by
    refine ⟨?_, ?_, ?_, ?_, ?_, ?_, ?_⟩
    all_goals first | decide +kernel | rfl⟩,
   ⟨2, 0x8000C000, stRun, by
    refine ⟨?_, ?_, ?_, ?_⟩
    all_goals first | decide +kernel | rfl⟩⟩

theorem wit_HeatThrottleAndJournalComplete :
  -- thermalThrottle
  (∃ (t : BitVec 8) (s : State),
      let s1 := ({ s with thermAt := s.time, therm := (s.thermValue t.toNat, t.toNat) } : State)
      s.engOn = true ∧ s.thermAt + 10000000 ≤ s.time ∧ s.thermValue t.toNat ≠ s.therm.1 ∧ (s.therm.2 + 2 ≤ t.toNat ∨ t.toNat + 2 ≤ s.therm.2)) ∧
  -- alertHoldoffEnd
  (∃ (a : Nat) (s : State),
      s.alertAt = some a ∧ a + 10000000 ≤ s.time ∧ s.flag pgHub Reg.HUB_EVT_ALERT_PEND = true) ∧
  -- alertHoldoffEnd_quiet
  (∃ (a : Nat) (s : State),
      s.alertAt = some a ∧ a + 10000000 ≤ s.time ∧ s.flag pgHub Reg.HUB_EVT_ALERT_PEND = false) ∧
  -- journalWrite
  (∃ (r : Record) (l : List Record) (s : State),
      let s1 := s.put pgHub Reg.HUB_JNL_DEFERRED 0
      let a := jnlSector s.jnl.sector + 32 * s.jnl.slot
      s.ready = true ∧ s.awake = true ∧ s.jnl.buf = r :: l ∧ 0 < s.jnl.slot ∧ s.jnl.slot < 128 ∧ s.holdPass 0 = true) ∧
  -- journalTokenRefill
  (∃  (s : State),
      s.jnl.tok1At + 10000000000 ≤ s.time) ∧
  -- journalTokenRefill_second
  (∃  (s : State),
      s.jnl.tok2At + 3600000000000 ≤ s.time) :=
  ⟨⟨105, { stRun with time := 10000000 }, by
    refine ⟨?_, ?_, ?_, ?_⟩
    all_goals first | decide +kernel | rfl⟩,
   ⟨0, { stRun.put pgHub Reg.HUB_EVT_ALERT_PEND 1 with alertAt := some 0, time := 10000000 }, by
    refine ⟨?_, ?_, ?_⟩
    all_goals first | decide +kernel | rfl⟩,
   ⟨0, { stRun with alertAt := some 0, time := 10000000 }, by
    refine ⟨?_, ?_, ?_⟩
    all_goals first | decide +kernel | rfl⟩,
   ⟨rec0, [], stJnl, by
    refine ⟨?_, ?_, ?_, ?_, ?_, ?_⟩
    all_goals first | decide +kernel | rfl⟩,
   ⟨{ stRun with time := 10000000000 }, by
    refine ?_
    all_goals first | decide +kernel | rfl⟩,
   ⟨{ stRun with time := 3600000000000 }, by
    refine ?_
    all_goals first | decide +kernel | rfl⟩⟩

theorem wit_EventReadersComplete :
  -- evtForce
  (∃ (page : BitVec 8) (v : BitVec 32) (src : Nat) (s : State),
      let pg := page.toNat
      let s1 := ((s.put pg Reg.EVT_FORCE_KIND (bits v.toNat 0 16)).put pg Reg.EVT_FORCE_INDEX (bits v.toNat 16 5)).put pg Reg.EVT_FORCE_SEV (bits v.toNat 21 2)
      (pageSources pg)[bits v.toNat 16 5]? = some src ∧ s.pageShut pg = false ∧ v.toNat.testBit 31 = true ∧ kindKnown (bits v.toNat 0 16) = true) ∧
  -- capRearm
  (∃ (page : BitVec 8) (s : State),
      pageSources page.toNat ≠ [] ∧ s.pageShut page.toNat = false) ∧
  -- ringTailWrite_manager
  (∃ (tail : BitVec 13) (n : Nat) (s : State),
      tailTakes s.mq.head s.mq.tail (tail.toNat % 4096) 4096 = some n) ∧
  -- ringTailWrite_fault
  (∃ (p : Fin 8) (ld : Fin 16) (vi : BitVec 16) (tail : BitVec 13) (n : Nat) (s : State),
      let v := s.vi vi.toNat
      s.viPage p.val ld.val vi.toNat = true ∧ tailTakes v.fq.head v.fq.tail (tail.toNat % 64) 64 = some n) ∧
  -- ringTailWrite_samples
  (∃ (m : Fin 16) (tail : BitVec 13) (k : Nat) (s : State),
      let pg := pgPier m.val
      s.pageShut pg = false ∧ tailTakes (s.fld pg Reg.PIER_SAMP_PTR_HEAD) (s.fld pg Reg.PIER_SAMP_PTR_TAIL) (tail.toNat % 8192) 8192 = some k) :=
  ⟨⟨7, 0x80000800, 448, stRun, by
    refine ⟨?_, ?_, ?_, ?_⟩
    all_goals first | decide +kernel | rfl⟩,
   ⟨7, stRun, by
    refine ⟨?_, ?_⟩
    all_goals first | decide +kernel | rfl⟩,
   ⟨0, 0, stRun, by
    refine ?_
    all_goals first | decide +kernel | rfl⟩,
   ⟨3, 2, 5, 0, 0, stPage, by
    refine ⟨?_, ?_⟩
    all_goals first | decide +kernel | rfl⟩,
   ⟨2, 0, 0, stRun, by
    refine ⟨?_, ?_⟩
    all_goals first | decide +kernel | rfl⟩⟩

theorem wit_TelemetryComplete :
  -- lapDumpStart
  (∃ (v : BitVec 32) (s : State),
      let s1 := s.put pgTel Reg.TEL_LAP_CTL_INTERVAL_US (bits v.toNat 0 20)
      let s2 := ((s1.put pgTel Reg.TEL_LAP_STAT_RUNNING 1).put pgTel Reg.TEL_LAP_STAT_SKIPPED 0).put pgTel Reg.TEL_LAP_NUM_LAP 0
      bits v.toNat 0 20 ≠ 0) ∧
  -- lapSnapshot
  (∃  (s : State),
      let s0 := s.leaveIdle
      s.flag pgTel Reg.TEL_LAP_STAT_RUNNING = true ∧ s.awake = true ∧ s.lap.next ≤ s.time ∧ s.telVi.isNone = false ∧ s0.lap.writing = false) ∧
  -- lapSnapshot_skipped
  (∃  (s : State),
      let s0 := s.leaveIdle
      let s1 := ({ s0 with lap := { s0.lap with next := s0.lapNext, skipped := s0.lap.skipped + 1, gap := true } } : State)
      s.flag pgTel Reg.TEL_LAP_STAT_RUNNING = true ∧ s.awake = true ∧ s.lap.next ≤ s.time ∧ s.telVi.isNone = false ∧ s0.lap.writing = true) ∧
  -- lapRecordDone
  (∃  (s : State),
      s.ready = true ∧ s.awake = true) ∧
  -- telCntWrite
  (∃ (i : Fin 1024) (v : BitVec 64) (s : State),
      s.pageShut (telPage i.val) = false ∧ v.toNat ≠ 0) ∧
  -- telSelWrite
  (∃ (i : Fin 1024) (v : BitVec 64) (s : State),
      let w := if (fixedCode i.val).isSome then telSelReset + 512 * b2n (v.toNat.testBit 9) else bits v.toNat 0 15 + 2 ^ 16 * bits v.toNat 16 33
      s.pageShut (telPage i.val) = false) :=
  ⟨⟨100, stRun, by
    refine ?_
    all_goals first | decide +kernel | rfl⟩,
   ⟨stLap false, by
    refine ⟨?_, ?_, ?_, ?_, ?_⟩
    all_goals first | decide +kernel | rfl⟩,
   ⟨stLap true, by
    refine ⟨?_, ?_, ?_, ?_, ?_⟩
    all_goals first | decide +kernel | rfl⟩,
   ⟨stRun, by
    refine ⟨?_, ?_⟩
    all_goals first | decide +kernel | rfl⟩,
   ⟨3, 9, stRun, by
    refine ⟨?_, ?_⟩
    all_goals first | decide +kernel | rfl⟩,
   ⟨3, 9, stRun, by
    refine ?_
    all_goals first | decide +kernel | rfl⟩⟩

theorem wit_ClockRootComplete_1 :
  -- refclkAbsent
  (∃ (p : Fin 8) (s : State),
      s.candPresent p.val = true) ∧
  -- candidateWindow
  (∃ (p : Fin 8) (count : BitVec 20) (r : Nat) (s : State),
      let s1 := (s.put pgClk (Reg.CLK_CAND_PPM p.val) (ppmField count.toNat)).put pgClk (Reg.CLK_CAND_REF p.val) r
      s.clocked = true ∧ s.candPresent p.val = true ∧ s.refFor p.val = some r ∧ 99940 ≤ count.toNat ∧ count.toNat ≤ 100060 ∧ min 3 (s1.fld pgClk (Reg.CLK_CAND_RUN p.val) + 1) < 3) ∧
  -- candidateWindow_ready
  (∃ (p : Fin 8) (count : BitVec 20) (r : Nat) (s : State),
      let s1 := (s.put pgClk (Reg.CLK_CAND_PPM p.val) (ppmField count.toNat)).put pgClk (Reg.CLK_CAND_REF p.val) r
      let s2 := s1.put pgClk (Reg.CLK_CAND_RUN p.val) 3
      s.clocked = true ∧ s.candPresent p.val = true ∧ s.refFor p.val = some r ∧ 99940 ≤ count.toNat ∧ count.toNat ≤ 100060 ∧ 2 ≤ s1.fld pgClk (Reg.CLK_CAND_RUN p.val) ∧ s2.unqualified = false) ∧
  -- candidateWindow_out
  (∃ (p : Fin 8) (count : BitVec 20) (r : Nat) (s : State),
      let s1 := (s.put pgClk (Reg.CLK_CAND_PPM p.val) (ppmField count.toNat)).put pgClk (Reg.CLK_CAND_REF p.val) r
      s.clocked = true ∧ s.candPresent p.val = true ∧ s.refFor p.val = some r ∧ (count.toNat < 99940 ∨ 100060 < count.toNat)) ∧
  -- rootSel
  (∃ (p : Fin 8) (s : State),
      let s1 := if s.armed && s.backup == p.val then s.putArmed false else s
      p.val ≠ s.root ∧ s.candReady p.val = true ∧ s.clk.switching = false ∧ s.flag pgClk Reg.CLK_ROOT_STAT_HOLDOVER = false ∧ s.pwr.trans = 0) ∧
  -- arm
  (∃ (p : Fin 8) (s : State),
      let s1 := s.put pgClk Reg.CLK_ROOT_CTL_BACKUP p.val
      s1.candReady p.val = true ∧ p.val ≠ s1.root ∧ s.pwr.trans = 0) ∧
  -- relockDone
  (∃  (s : State),
      s.clk.switching = true) :=
  ⟨⟨0, { State.reset with clk := { State.reset.clk with present := 3 } }, by
    refine ?_
    all_goals first | decide +kernel | rfl⟩,
   ⟨4, 99940, 0, stCand, by
    refine ⟨?_, ?_, ?_, ?_, ?_, ?_⟩
    all_goals first | decide +kernel | rfl⟩,
   ⟨4, 100060, 0, stCand.put pgClk (Reg.CLK_CAND_RUN 4) 2, by
    refine ⟨?_, ?_, ?_, ?_, ?_, ?_, ?_⟩
    all_goals first | decide +kernel | rfl⟩,
   ⟨4, 100061, 0, stCand, by
    refine ⟨?_, ?_, ?_, ?_⟩
    all_goals first | decide +kernel | rfl⟩,
   ⟨4, stRun.put pgClk Reg.CLK_ROOT_STAT_READY 0x10, by
    refine ⟨?_, ?_, ?_, ?_, ?_⟩
    all_goals first | decide +kernel | rfl⟩,
   ⟨4, stRun.put pgClk Reg.CLK_ROOT_STAT_READY 0x10, by
    refine ⟨?_, ?_, ?_⟩
    all_goals first | decide +kernel | rfl⟩,
   ⟨{ stRun with clk := { stRun.clk with switching := true } }, by
    refine ?_
    all_goals first | decide +kernel | rfl⟩⟩

theorem wit_ClockRootComplete_2 :
  -- rootReturn
  (∃ (e : Nat) (s : State),
      s.clk.holdSince = some e ∧ s.candPresent s.root = true ∧ s.time ≤ e + 1000000) ∧
  -- holdoverEnd
  (∃ (e k : Nat) (s : State),
      s.clk.holdSince = some e ∧ e + 1000000 ≤ s.time ∧ s.pwr.trans = 0 ∧ s.pwr.rootLoss = false ∧ (List.range 8).find? (fun k => k != s.root && s.clk.readyAtLoss.testBit k && s.candPresent k) = some k) ∧
  -- holdoverEnd_none
  (∃ (e : Nat) (s : State),
      let s1 := ({ s with pwr := { s.pwr with state := 0, rootLoss := true } } : State).put 0xB Reg.PWR_STAT_STATE 0
      s.clk.holdSince = some e ∧ e + 1000000 ≤ s.time ∧ s.pwr.trans = 0 ∧ s.pwr.rootLoss = false ∧ s.pwr.state ≠ 2 ∧ (List.range 8).find? (fun k => k != s.root && s.clk.readyAtLoss.testBit k && s.candPresent k) = none) :=
  ⟨⟨0, { stRun with clk := { stRun.clk with holdSince := some 0, present := 255 } }, by
    refine ⟨?_, ?_, ?_⟩
    all_goals first | decide +kernel | rfl⟩,
   ⟨0, 4, { stRun with clk := { stRun.clk with holdSince := some 0, present := 16, readyAtLoss := 16 }, time := 1000000 }, by
    refine ⟨?_, ?_, ?_, ?_, ?_⟩
    all_goals first | decide +kernel | rfl⟩,
   ⟨0, { stRun with clk := { stRun.clk with holdSince := some 0, present := 0 }, time := 1000000 }, by
    refine ⟨?_, ?_, ?_, ?_, ?_, ?_⟩
    all_goals first | decide +kernel | rfl⟩⟩

theorem wit_GatesComplete :
  -- gateClose
  (∃  (s : State),
      let n := s.gateNode
      s.clk.pendNode = none ∧ n ≠ 0 ∧ n ≤ 136 ∧ s.gateShut n = false ∧ s.childOpen n = false ∧ (¬(73 ≤ n ∧ (s.eng (n - 73)).running = true)) ∧ s.nodeBusy n = false) ∧
  -- gateClose_busy
  (∃  (s : State),
      let n := s.gateNode
      s.clk.pendNode = none ∧ n ≠ 0 ∧ n ≤ 136 ∧ s.gateShut n = false ∧ s.childOpen n = false ∧ (¬(73 ≤ n ∧ (s.eng (n - 73)).running = true)) ∧ s.nodeBusy n = true) ∧
  -- gateOpen
  (∃  (s : State),
      let n := s.gateNode
      let s1 := ({ s with clk := { s.clk with closed := s.clk.closed.filter (fun m => m != n) } } : State)
      s.clk.pendNode = none ∧ n ≤ 136 ∧ s.gateShut n = true ∧ s.gateShut (gateParent n) = false) ∧
  -- gatePendingDone
  (∃ (n e : Nat) (s : State),
      s.clk.pendNode = some (n, e) ∧ s.nodeBusy n = false) ∧
  -- gateBusy
  (∃ (n e : Nat) (s : State),
      let s1 := ({ s with clk := { s.clk with pendNode := none } } : State)
      s.clk.pendNode = some (n, e) ∧ e + 10000 ≤ s.time ∧ s.nodeBusy n = true) :=
  ⟨⟨stRun.put pgClk Reg.CLK_GATE_IDX_NODE 36, by
    refine ⟨?_, ?_, ?_, ?_, ?_, ?_, ?_⟩
    all_goals first | decide +kernel | rfl⟩,
   ⟨stMid, by
    refine ⟨?_, ?_, ?_, ?_, ?_, ?_, ?_⟩
    all_goals first | decide +kernel | rfl⟩,
   ⟨{ stRun.put pgClk Reg.CLK_GATE_IDX_NODE 20 with clk := { stRun.clk with closed := [20] } }, by
    refine ⟨?_, ?_, ?_, ?_⟩
    all_goals first | decide +kernel | rfl⟩,
   ⟨20, 0, { stRun with clk := { stRun.clk with pendNode := some (20, 0) } }, by
    refine ⟨?_, ?_⟩
    all_goals first | decide +kernel | rfl⟩,
   ⟨36, 0, { stMid with clk := { stMid.clk with pendNode := some (36, 0) }, time := 10000 }, by
    refine ⟨?_, ?_, ?_⟩
    all_goals first | decide +kernel | rfl⟩⟩

theorem wit_PowerEntryComplete_1 :
  -- sleepRequest
  (∃  (s : State),
      s.ready = true ∧ (¬(s.pwr.trans = 0 ∧ s.pwr.state = 2)) ∧ s.pwrRefusal 2 = none) ∧
  -- deepSleepRequest
  (∃  (s : State),
      s.ready = true ∧ (¬(s.pwr.trans = 0 ∧ s.pwr.state = 3)) ∧ s.pwrRefusal 3 = none) ∧
  -- offRequest
  (∃  (s : State),
      s.ready = true ∧ (¬(s.pwr.trans = 0 ∧ s.pwr.state = 4)) ∧ s.pwrRefusal 4 = none) ∧
  -- prepDone
  (∃  (s : State),
      s.pwr.trans = 1 ∧ s.prepared s.pwr.target = true) ∧
  -- entryDone_sleep
  (∃  (s : State),
      s.pwr.trans = 2 ∧ s.quiet = true ∧ s.linksIdle = true ∧ s.pwr.target = 2) ∧
  -- entryDone_deep
  (∃  (s : State),
      s.pwr.trans = 2 ∧ s.quiet = true ∧ s.linksIdle = true ∧ s.pwr.target = 3) ∧
  -- entryDone_off
  (∃  (s : State),
      let s1 := s.raise 458 0x907 INFO none 0 0
      s.pwr.trans = 2 ∧ s.quiet = true ∧ s.linksIdle = true ∧ s.pwr.target = 4 ∧ s.saveDue = false ∧ s.pwr.wake = none) :=
  ⟨⟨stRun, by
    refine ⟨?_, ?_, ?_⟩
    all_goals first | decide +kernel | rfl⟩,
   ⟨stRun, by
    refine ⟨?_, ?_, ?_⟩
    all_goals first | decide +kernel | rfl⟩,
   ⟨stRun, by
    refine ⟨?_, ?_, ?_⟩
    all_goals first | decide +kernel | rfl⟩,
   ⟨{ stRun with pwr := { stRun.pwr with trans := 1, target := 2 } }, by
    refine ⟨?_, ?_⟩
    all_goals first | decide +kernel | rfl⟩,
   ⟨stEnter 2, by
    refine ⟨?_, ?_, ?_, ?_⟩
    all_goals first | decide +kernel | rfl⟩,
   ⟨stEnter 3, by
    refine ⟨?_, ?_, ?_, ?_⟩
    all_goals first | decide +kernel | rfl⟩,
   ⟨{ stEnter 4 with pwr := { (stEnter 4).pwr with skipSave := true } }, by
    refine ⟨?_, ?_, ?_, ?_, ?_, ?_⟩
    all_goals first | decide +kernel | rfl⟩⟩

theorem wit_PowerEntryComplete_2 :
  -- offStateSave
  (∃  (s : State),
      s.saveDue = true ∧ s.holdPass 2 = true) ∧
  -- vholdSample
  (∃ (mv : BitVec 10) (s : State),
      let e := s.holdEnergy mv.toNat
      let s1 := (s.put pgPwr Reg.PWR_HOLD_STAT_VHOLD_MV mv.toNat).put pgPwr Reg.PWR_HOLD_STAT_ENERGY_MJ (min 0xFFFF (e / 64000000000))
      let s2 := s1.put pgPwr Reg.PWR_HOLD_STAT_PASS (if s.flag pgPwr Reg.PWR_HOLD_VMIN_HOLD_EN then holdBits e else 7)
      s.rails = true ∧ s.pwr.state < 2 ∧ s.jnl.buf = [] ∧ s.saveDue = false) ∧
  -- idleEntry
  (∃  (s : State),
      let s1 := ({ s.selfRefresh with pwr := { s.pwr with state := 1 } } : State).put pgPwr Reg.PWR_STAT_STATE 1
      s.ready = true ∧ s.pwr.state = 0 ∧ s.pwr.trans = 0 ∧ s.pwr.warm = false ∧ s.flag pgPwr Reg.PWR_CTL_IDLE_EN = true ∧ s.idleQuiet = true) :=
  ⟨⟨{ stRun with pwr := { stRun.pwr with trans := 2, target := 4 } }, by
    refine ⟨?_, ?_⟩
    all_goals first | decide +kernel | rfl⟩,
   ⟨500, stRun, by
    refine ⟨?_, ?_, ?_, ?_⟩
    all_goals first | decide +kernel | rfl⟩,
   ⟨stRun.put pgPwr Reg.PWR_CTL_IDLE_EN 1, by
    refine ⟨?_, ?_, ?_, ?_, ?_, ?_⟩
    all_goals first | decide +kernel | rfl⟩⟩

theorem wit_PowerExitComplete :
  -- wakeN
  (∃  (s : State),
      s.pwr.state ≠ 4) ∧
  -- wakeN_off
  (∃  (s : State),
      s.pwr.state = 4 ∧ s.pwr.waitRestart = false ∧ s.pwr.failedStarts < 3 ∧ s.pwr.thermtrip = false ∧ s.aon = true) ∧
  -- sleepTimer
  (∃  (s : State),
      s.pwr.state = 2 ∧ s.fld pgPwr Reg.PWR_CTL_SLEEP_TIMER_MS ≠ 0 ∧ s.pwr.sleepAt + 1000000 * s.fld pgPwr Reg.PWR_CTL_SLEEP_TIMER_MS ≤ s.time) ∧
  -- thermalWake
  (∃ (t : BitVec 8) (s : State),
      s.pwrGoal = 2 ∧ s.pol 0x600 ≤ t.toNat) ∧
  -- exitDone_sleep
  (∃  (s : State),
      let s1 := ({ s.reinitLinks with key := { s.key with windowAt := s.time } } : State).put pgHub Reg.HUB_LAP_STAT_MISSED 0
      s.pwr.trans = 3 ∧ s.pwr.state = 2 ∧ (s1.backToRun 2).pwr.rootLoss = false) ∧
  -- exitDone_deep
  (∃  (s : State),
      s.pwr.trans = 3 ∧ s.pwr.state ≠ 2 ∧ s.clk.present ≠ 0 ∧ s.pwr.rootLoss = false) :=
  ⟨⟨stRun, by
    refine ?_
    all_goals first | decide +kernel | rfl⟩,
   ⟨{ stRun with aon := true, pwr := { State.reset.pwr with state := 4 } }, by
    refine ⟨?_, ?_, ?_, ?_, ?_⟩
    all_goals first | decide +kernel | rfl⟩,
   ⟨{ stRun.put pgPwr Reg.PWR_CTL_SLEEP_TIMER_MS 3 with pwr := { stRun.pwr with state := 2 }, time := 3000000 }, by
    refine ⟨?_, ?_, ?_⟩
    all_goals first | decide +kernel | rfl⟩,
   ⟨100, { stRun with pwr := { stRun.pwr with state := 2 } }, by
    refine ⟨?_, ?_⟩
    all_goals first | decide +kernel | rfl⟩,
   ⟨stExit 2, by
    refine ⟨?_, ?_, ?_⟩
    all_goals first | decide +kernel | rfl⟩,
   ⟨stExit 3, by
    refine ⟨?_, ?_, ?_, ?_⟩
    all_goals first | decide +kernel | rfl⟩⟩

theorem wit_RailsAndResetsComplete_1 :
  -- railFault
  (∃  (s : State),
      let n := if !s.rails || decide (s.time ≤ 1000000000) then s.pwr.failedStarts + 1 else 0
      s.pwr.enMem = true) ∧
  -- railRestart
  (∃  (s : State),
      s.pwr.waitRestart = true) ∧
  -- thermtrip
  (∃ (t : BitVec 8) (s : State),
      s.rails = true ∧ s.pwr.enMain = true ∧ s.tripAt ≤ t.toNat) ∧
  -- vddAonUp
  (∃ (addrSel : Fin 4) (s : State),
      s.aon = false) ∧
  -- sysResetN
  (∃  (s : State),
      s.aon = true) ∧
  -- cold
  (∃  (s : State),
      s.rails = true ∧ s.awake = true) ∧
  -- warm
  (∃  (s : State),
      s.rails = true ∧ s.awake = true) :=
  ⟨⟨{ stRun with pwr := { stRun.pwr with enMem := true } }, by
    refine ?_
    all_goals first | decide +kernel | rfl⟩,
   ⟨{ State.reset with pwr := { State.reset.pwr with waitRestart := true } }, by
    refine ?_
    all_goals first | decide +kernel | rfl⟩,
   ⟨130, { stRun with pwr := { stRun.pwr with enMain := true } }, by
    refine ⟨?_, ?_, ?_⟩
    all_goals first | decide +kernel | rfl⟩,
   ⟨2, { State.reset with aon := false }, by
    refine ?_
    all_goals first | decide +kernel | rfl⟩,
   ⟨{ State.reset with aon := true }, by
    refine ?_
    all_goals first | decide +kernel | rfl⟩,
   ⟨stRun, by
    refine ⟨?_, ?_⟩
    all_goals first | decide +kernel | rfl⟩,
   ⟨stRun, by
    refine ⟨?_, ?_⟩
    all_goals first | decide +kernel | rfl⟩⟩

theorem wit_RailsAndResetsComplete_2 :
  -- railsConfirmed
  (∃ (k : Nat) (s : State),
      s.aon = true ∧ s.rails = false ∧ s.pwr.enMem = true ∧ s.pwr.enMain = true ∧ (List.range 8).find? (fun k => s.candPresent k) = some k) ∧
  -- warmResetDone
  (∃  (s : State),
      s.pwr.warm = true ∧ s.quiet = true ∧ s.prepared 3 = true ∧ s.linksIdle = true ∧ s.reqs.all (fun x => x.2.phase == .answered) = true) :=
  ⟨⟨2, { State.reset with aon := true, rails := false, pwr := { State.reset.pwr with enMem := true, enMain := true }, clk := { State.reset.clk with present := 4 } }, by
    refine ⟨?_, ?_, ?_, ?_, ?_⟩
    all_goals first | decide +kernel | rfl⟩,
   ⟨stWarm, by
    refine ⟨?_, ?_, ?_, ?_, ?_⟩
    all_goals first | decide +kernel | rfl⟩⟩

theorem wit_RegisterAccessComplete :
  -- wideRegisterRead
  (∃ (path : Path) (off : BitVec 29) (size8 : Bool) (t : State) (v : Nat) (s : State),
      (∀ p ld, path ≠ .host p ld) ∧ s.barAsleep path = false ∧ s.readAt off.toNat (sizeOf8 size8) path {} = (t, some v)) ∧
  -- wideRegisterRead_host
  (∃ (p : Fin 8) (ld : Fin 16) (off : BitVec 29) (size8 : Bool) (t : Nat) (s : State),
      let r := s.leaveIdle.viRead t (off.toNat % 4096) (sizeOf8 size8)
      s.barVi p.val ld.val off.toNat (sizeOf8 size8) = some t) ∧
  -- registerWrite
  (∃ (path : Path) (off : BitVec 29) (size8 : Bool) (v : BitVec 64) (s : State),
      (∀ p ld, path ≠ .host p ld) ∧ s.barAsleep path = false) ∧
  -- registerWrite_host
  (∃ (p : Fin 8) (ld : Fin 16) (off : BitVec 29) (size8 : Bool) (v : BitVec 64) (t : Nat) (s : State),
      let o := off.toNat % 4096
      let s1 := s.leaveIdle.viWrite t o (v.toNat % 2 ^ 32)
      s.barVi p.val ld.val off.toNat (sizeOf8 size8) = some t) ∧
  -- registerWrite_asleep
  (∃ (path : Path) (off : BitVec 29) (size8 : Bool) (v : BitVec 64) (s : State),
      s.barAsleep path = true) ∧
  -- daWindowRead
  (∃ (path : Path) (off : BitVec 25) (size8 : Bool) (b : Bursts) (t : State) (v : Nat) (s : State),
      s.barAsleep path = false ∧ s.readAt (0x2000000 + off.toNat) (sizeOf8 size8) path b = (t, some v)) ∧
  -- daWindowWrite
  (∃ (path : Path) (off : BitVec 25) (size8 : Bool) (v : BitVec 64) (b : Bursts) (s : State),
      s.barAsleep path = false) :=
  ⟨⟨.fenbo, 0x100, false, ((stRun.readAt 0x100 4 .fenbo {}).1), ((stRun.readAt 0x100 4 .fenbo {}).2.getD 0), stRun, ⟨(by intro _ _ h; cases h), (by first | decide +kernel | rfl), (by first | decide +kernel | rfl)⟩⟩,
   ⟨3, 2, 0x1005000, true, 5, stPage, by
    refine ?_
    all_goals first | decide +kernel | rfl⟩,
   ⟨.fenbo, 0x100, false, 7, stRun, ⟨(by intro _ _ h; cases h), (by first | decide +kernel | rfl)⟩⟩,
   ⟨3, 2, 0x1005000, false, 1, 5, stPage, by
    refine ?_
    all_goals first | decide +kernel | rfl⟩,
   ⟨.bar, 0, false, 0, stAsleep, by
    refine ?_
    all_goals first | decide +kernel | rfl⟩,
   ⟨.fenbo, 0, true, {}, ((stRun.readAt 0x2000000 8 .fenbo {}).1), ((stRun.readAt 0x2000000 8 .fenbo {}).2.getD 0), stRun, by
    refine ⟨?_, ?_⟩
    all_goals first | decide +kernel | rfl⟩,
   ⟨.fenbo, 0, true, 7, {}, stRun, by
    refine ?_
    all_goals first | decide +kernel | rfl⟩⟩

theorem wit_SidebandComplete_1 :
  -- fenboRd
  (∃ (f : List (BitVec 8)) (s : State),
      frameLenOk f = true ∧ frameOp (f.map BitVec.toNat) = 1 ∧ s.fenboUp = true ∧ s.fenbo.run = none) ∧
  -- fenboWr
  (∃ (f : List (BitVec 8)) (s : State),
      frameLenOk f = true ∧ frameOp (f.map BitVec.toNat) = 2 ∧ s.fenboUp = true ∧ s.fenbo.run = none) ∧
  -- spiRd
  (∃ (f : List (BitVec 8)) (s : State),
      frameLenOk f = true ∧ frameOp (f.map BitVec.toNat) = 3 ∧ s.fenboUp = true ∧ s.fenbo.run = none) ∧
  -- spiProg
  (∃ (f : List (BitVec 8)) (s : State),
      frameLenOk f = true ∧ frameOp (f.map BitVec.toNat) = 4 ∧ s.fenboUp = true ∧ s.fenbo.run = none) ∧
  -- spiErase
  (∃ (f : List (BitVec 8)) (s : State),
      frameLenOk f = true ∧ frameOp (f.map BitVec.toNat) = 5 ∧ s.fenboUp = true ∧ s.fenbo.run = none) ∧
  -- fenboStatus
  (∃ (f : List (BitVec 8)) (s : State),
      frameLenOk f = true ∧ frameOp (f.map BitVec.toNat) = 6 ∧ s.fenboUp = true ∧ s.fenbo.run = none) ∧
  -- badOp
  (∃ (f : List (BitVec 8)) (s : State),
      frameLenOk f = true ∧ frameOk (f.map BitVec.toNat) = false ∧ s.fenboUp = true ∧ s.fenbo.run = none) :=
  ⟨⟨[1, 0, 0, 0, 0, 0, 4, 0], stRun, by
    refine ⟨?_, ?_, ?_, ?_⟩
    all_goals first | decide +kernel | rfl⟩,
   ⟨[2, 0, 0, 0, 0, 0, 4, 0], stRun, by
    refine ⟨?_, ?_, ?_, ?_⟩
    all_goals first | decide +kernel | rfl⟩,
   ⟨[3, 0, 0, 0, 0, 0, 4, 0], stRun, by
    refine ⟨?_, ?_, ?_, ?_⟩
    all_goals first | decide +kernel | rfl⟩,
   ⟨[4, 0, 0, 0, 0, 0, 4, 0], stRun, by
    refine ⟨?_, ?_, ?_, ?_⟩
    all_goals first | decide +kernel | rfl⟩,
   ⟨[5, 0, 0, 0, 0, 0, 4, 0], stRun, by
    refine ⟨?_, ?_, ?_, ?_⟩
    all_goals first | decide +kernel | rfl⟩,
   ⟨[6, 0, 0, 0, 0, 0, 4, 0], stRun, by
    refine ⟨?_, ?_, ?_, ?_⟩
    all_goals first | decide +kernel | rfl⟩,
   ⟨[99, 0, 0, 0, 0, 0, 4, 0], stRun, by
    refine ⟨?_, ?_, ?_, ?_⟩
    all_goals first | decide +kernel | rfl⟩⟩

theorem wit_SidebandComplete_2 :
  -- fenboOpDone
  (∃ (flashOk : Bool) (f : List Nat) (s : State),
      s.fenbo.run = some f ∧ s.fenboUp = true) ∧
  -- fenboResponse
  (∃ (r : List Nat) (s : State),
      s.fenboUp = true ∧ s.fenbo.run = none ∧ s.fenbo.rsp = some r) ∧
  -- fenboResponse_busy
  (∃ (f : List Nat) (s : State),
      s.fenboUp = true ∧ s.fenbo.run = some f) :=
  ⟨⟨true, [], { stRun with fenbo := { stRun.fenbo with run := some [] } }, by
    refine ⟨?_, ?_⟩
    all_goals first | decide +kernel | rfl⟩,
   ⟨[1], { stRun with fenbo := { stRun.fenbo with rsp := some [1] } }, by
    refine ⟨?_, ?_, ?_⟩
    all_goals first | decide +kernel | rfl⟩,
   ⟨[1], { stRun with fenbo := { stRun.fenbo with run := some [1] } }, by
    refine ⟨?_, ?_⟩
    all_goals first | decide +kernel | rfl⟩⟩

theorem wit_BootComplete :
  -- bootImageRead
  (∃ (a b : Option Image) (slot : Nat) (second : Bool) (i : Image) (s : State),
      s.fld 0 Reg.TRUSS_BOOT_STAT_STAGE = 2 ∧ s.rails = true ∧ s.chooseImage (a.filter (s.accepts 0)) (b.filter (s.accepts 1)) = some (slot, second, i)) ∧
  -- bootImageRead_noImage
  (∃ (a b : Option Image) (s : State),
      s.fld 0 Reg.TRUSS_BOOT_STAT_STAGE = 2 ∧ s.rails = true ∧ s.chooseImage (a.filter (s.accepts 0)) (b.filter (s.accepts 1)) = none) ∧
  -- bootImageRead_noFlash
  (∃ (a b : Option Image) (s : State),
      s.fld 0 Reg.TRUSS_BOOT_STAT_STAGE = 2 ∧ s.rails = true) ∧
  -- populationCheck
  (∃ (spd : List (Option Spd)) (i : Image) (s : State),
      spd.length = 16 ∧ s.fld 0 Reg.TRUSS_BOOT_STAT_STAGE = 6 ∧ s.img = some i) ∧
  -- dramTrainingDone
  (∃ (failed : BitVec 16) (s : State),
      s.fld 0 Reg.TRUSS_BOOT_STAT_STAGE = 8) ∧
  -- metadataZeroDone
  (∃  (s : State),
      s.fld 0 Reg.TRUSS_BOOT_STAT_STAGE = 9) ∧
  -- poolAllocation
  (∃  (s : State),
      s.fld 0 Reg.TRUSS_BOOT_STAT_STAGE = 10) :=
  ⟨⟨some img0, none, 0, false, img0, stImage, by
    refine ⟨?_, ?_, ?_⟩
    all_goals first | decide +kernel | rfl⟩,
   ⟨some img0, some img0, { State.reset.put 0 Reg.TRUSS_BOOT_STAT_STAGE 2 with rails := true }, by
    refine ⟨?_, ?_, ?_⟩
    all_goals first | decide +kernel | rfl⟩,
   ⟨none, none, { State.reset.put 0 Reg.TRUSS_BOOT_STAT_STAGE 2 with rails := true }, by
    refine ⟨?_, ?_⟩
    all_goals first | decide +kernel | rfl⟩,
   ⟨List.replicate 16 none, img0, stPop, by
    refine ⟨?_, ?_, ?_⟩
    all_goals first | decide +kernel | rfl⟩,
   ⟨1, State.reset.put 0 Reg.TRUSS_BOOT_STAT_STAGE 8, by
    refine ?_
    all_goals first | decide +kernel | rfl⟩,
   ⟨State.reset.put 0 Reg.TRUSS_BOOT_STAT_STAGE 9, by
    refine ?_
    all_goals first | decide +kernel | rfl⟩,
   ⟨State.reset.put 0 Reg.TRUSS_BOOT_STAT_STAGE 10, by
    refine ?_
    all_goals first | decide +kernel | rfl⟩⟩

end Sys2Proof.Tests
end

/-! Register accesses (R8, R401, R402, R413, R414): what the four access commands answer on each path, and the settling of O42. -/

namespace Sys2Proof.Machine

/-! ### The arms of the access commands -/

theorem exec_wideRegisterRead_eq (path : Path) (off : BitVec 29) (size8 : Bool) (s : State) :
    exec (.wideRegisterRead path off size8) s = execWideRegisterRead path off size8 s := rfl

theorem exec_registerWrite_eq (path : Path) (off : BitVec 29) (size8 : Bool) (v : BitVec 64) (s : State) :
    exec (.registerWrite path off size8 v) s = execRegisterWrite path off size8 v s := rfl

theorem exec_daWindowRead_eq (path : Path) (off : BitVec 25) (size8 : Bool) (b : Bursts) (s : State) :
    exec (.daWindowRead path off size8 b) s = execDaWindowRead path off size8 b s := rfl

theorem exec_daWindowWrite_eq (path : Path) (off : BitVec 25) (size8 : Bool) (v : BitVec 64) (b : Bursts) (s : State) :
    exec (.daWindowWrite path off size8 v b) s = execDaWindowWrite path off size8 v b s := rfl

/-! ### Register reads -/

/-- Sleep keeps only the manager port's BAR away (R377): an access to a VI page never waits for a wake. -/
@[simp] theorem State.barAsleep_host (s : State) (p : Fin 8) (ld : Fin 16) : s.barAsleep (.host p ld) = false := rfl

theorem execWideRegisterRead_eq_of_readAt {path : Path} {off : BitVec 29} {size8 : Bool} {s t : State} {v : Nat}
    (hpath : ∀ p ld, path ≠ .host p ld) (hawake : s.barAsleep path = false)
    (hread : s.readAt off.toNat (sizeOf8 size8) path {} = (t, some v)) :
    execWideRegisterRead path off size8 s = .next (t.emit (.regData v)) := by
  cases path with
  | host p ld => exact absurd rfl (hpath p ld)
  | bar | fenbo | engine => simp only [execWideRegisterRead, hawake, hread, Bool.false_eq_true, if_false]

theorem execWideRegisterRead_host_eq_of_barVi {p : Fin 8} {ld : Fin 16} {off : BitVec 29} {size8 : Bool} {s : State} {t : Nat}
    (hpage : s.barVi p.val ld.val off.toNat (sizeOf8 size8) = some t) :
    execWideRegisterRead (.host p ld) off size8 s =
      .next ((s.leaveIdle.viRead t (off.toNat % 4096) (sizeOf8 size8)).1.emit
        (.regData (s.leaveIdle.viRead t (off.toNat % 4096) (sizeOf8 size8)).2)) := by
  simp [execWideRegisterRead, hpage]

/-! ### Register writes -/

theorem execRegisterWrite_eq_of_awake {path : Path} {off : BitVec 29} {size8 : Bool} {v : BitVec 64} {s : State}
    (hpath : ∀ p ld, path ≠ .host p ld) (hawake : s.barAsleep path = false) :
    execRegisterWrite path off size8 v s =
      .next (s.writeAt off.toNat (sizeOf8 size8) (v.toNat % 2 ^ (8 * sizeOf8 size8)) path {}).1 := by
  cases path with
  | host p ld => exact absurd rfl (hpath p ld)
  | bar | fenbo | engine => simp [execRegisterWrite, hawake]

theorem execRegisterWrite_host_eq_of_barVi {p : Fin 8} {ld : Fin 16} {off : BitVec 29} {size8 : Bool} {v : BitVec 64}
    {s : State} {t : Nat} (hpage : s.barVi p.val ld.val off.toNat (sizeOf8 size8) = some t) :
    execRegisterWrite (.host p ld) off size8 v s =
      .next (if size8
        then (s.leaveIdle.viWrite t (off.toNat % 4096) (v.toNat % 2 ^ 32)).viWrite t (off.toNat % 4096 + 4) (v.toNat / 2 ^ 32)
        else s.leaveIdle.viWrite t (off.toNat % 4096) (v.toNat % 2 ^ 32)) := by
  simp [execRegisterWrite, hpage]

theorem execRegisterWrite_eq_wakeBy_of_asleep {path : Path} {off : BitVec 29} {size8 : Bool} {v : BitVec 64} {s : State}
    (hasleep : s.barAsleep path = true) : execRegisterWrite path off size8 v s = .next (s.wakeBy 2) := by
  simp [execRegisterWrite, hasleep]

/-! ### The DA window -/

theorem execDaWindowRead_eq_of_readAt {path : Path} {off : BitVec 25} {size8 : Bool} {b : Bursts} {s t : State} {v : Nat}
    (hawake : s.barAsleep path = false)
    (hread : s.readAt (0x2000000 + off.toNat) (sizeOf8 size8) path b = (t, some v)) :
    execDaWindowRead path off size8 b s = .next (t.emit (.regData v)) := by
  simp [execDaWindowRead, hawake, hread]

theorem execDaWindowWrite_eq_of_awake {path : Path} {off : BitVec 25} {size8 : Bool} {v : BitVec 64} {b : Bursts} {s : State}
    (hawake : s.barAsleep path = false) :
    execDaWindowWrite path off size8 v b s =
      .next (s.writeAt (0x2000000 + off.toNat) (sizeOf8 size8) (v.toNat % 2 ^ (8 * sizeOf8 size8)) path b).1 := by
  simp [execDaWindowWrite, hawake]

/-- Settles O42, by the answer of each access command on each kind of path: the BAR, Fenbo or an engine, a host's VI
page, a sleeping BAR, and the DA window. -/
theorem registerAccessComplete : Obligations.RegisterAccessComplete := by
  unfold Obligations.RegisterAccessComplete
  refine ⟨?read, ?readHost, ?write, ?writeHost, ?writeAsleep, ?windowRead, ?windowWrite⟩
  case read =>
    intro path off size8 t v s hpath hawake hread
    rw [exec_wideRegisterRead_eq, execWideRegisterRead_eq_of_readAt hpath hawake hread]
  case readHost =>
    intro p ld off size8 t s r hpage
    rw [exec_wideRegisterRead_eq, execWideRegisterRead_host_eq_of_barVi hpage]
  case write =>
    intro path off size8 v s hpath hawake
    rw [exec_registerWrite_eq, execRegisterWrite_eq_of_awake hpath hawake]
  case writeHost =>
    intro p ld off size8 v t s o s1 hpage
    rw [exec_registerWrite_eq, execRegisterWrite_host_eq_of_barVi hpage]
  case writeAsleep =>
    intro path off size8 v s hasleep
    rw [exec_registerWrite_eq, execRegisterWrite_eq_wakeBy_of_asleep hasleep]
  case windowRead =>
    intro path off size8 b t v s hawake hread
    rw [exec_daWindowRead_eq, execDaWindowRead_eq_of_readAt hawake hread]
  case windowWrite =>
    intro path off size8 v b s hawake
    rw [exec_daWindowWrite_eq, execDaWindowWrite_eq_of_awake hawake]

end Sys2Proof.Machine

/-! A sealed line (R26, R34, R166, R170, R171): a TAG fits its 56 side bits, the side fields read back as given, and the
settling of O58. -/

namespace Sys2Proof.Machine

/-! ### Widths of the codes -/

theorem length_leBytes (n x : Nat) : (leBytes n x).length = n := by
  induction n generalizing x with
  | zero => rfl
  | succ n ih => simp [leBytes, ih]

theorem ofLe_lt (bs : List Nat) : ofLe bs < 256 ^ bs.length := by
  induction bs with
  | nil => simp [ofLe]
  | cons b t ih =>
    rw [ofLe, List.length_cons, pow_succ]
    omega

theorem ofBe_lt (bs : List Nat) : ofBe bs < 256 ^ bs.length := by
  simpa [ofBe] using ofLe_lt bs.reverse

theorem length_xorBytes_le_left (a b : List Nat) : (xorBytes a b).length ≤ a.length := by
  simp [xorBytes]

/-- A block after its rounds has at most sixteen bytes: ShiftRows gives sixteen, and adding a round key never lengthens. -/
theorem length_aesRounds_le (ks : List (List Nat)) (b : List Nat) (hb : b.length ≤ 16) : (aesRounds ks b).length ≤ 16 := by
  induction ks, b using aesRounds.induct with
  | case1 b => exact hb
  | case2 b k => exact length_xorBytes_le_left _ _
  | case3 b k ks _ ih =>
    rw [aesRounds]
    · exact ih (length_xorBytes_le_left _ _)
    · assumption

theorem aes256_lt (key block : Nat) : aes256 key block < 2 ^ 128 := by
  unfold aes256
  split
  · positivity
  · rename_i k0 ks _
    have hblock : (xorBytes (beBytes 16 block) k0).length ≤ 16 :=
      (length_xorBytes_le_left _ _).trans (by simp [beBytes, length_leBytes])
    calc ofBe (aesRounds ks (xorBytes (beBytes 16 block) k0))
        < 256 ^ (aesRounds ks (xorBytes (beBytes 16 block) k0)).length := ofBe_lt _
      _ ≤ 256 ^ 16 := Nat.pow_le_pow_right (by norm_num) (length_aesRounds_le _ _ hblock)
      _ = 2 ^ 128 := by norm_num

theorem gcmMul_lt (n x v z : Nat) (hv : v < 2 ^ 128) (hz : z < 2 ^ 128) : gcmMul n x v z < 2 ^ 128 := by
  induction n generalizing v z with
  | zero => exact hz
  | succ n ih =>
    have hhalf : v / 2 < 2 ^ 128 := by omega
    have hv' : (if v % 2 = 1 then (v / 2) ^^^ (0xE1 * 2 ^ 120) else v / 2) < 2 ^ 128 := by
      split
      · exact Nat.xor_lt_two_pow hhalf (by norm_num)
      · exact hhalf
    have hz' : (if x.testBit n then z ^^^ v else z) < 2 ^ 128 := by
      split
      · exact Nat.xor_lt_two_pow hz hv
      · exact hz
    exact ih _ _ hv' hz'

theorem ghash_lt (h : Nat) (blocks : List Nat) (hh : h < 2 ^ 128) : ghash h blocks < 2 ^ 128 :=
  List.foldlRecOn blocks (fun y b => gcmMul 128 (y ^^^ b) h 0) (motive := fun y => y < 2 ^ 128) (by norm_num)
    (fun _ _ _ _ => gcmMul_lt _ _ _ _ hh (by norm_num))

theorem gmac64_lt (key iv : Nat) (aad : List Nat) : gmac64 key iv aad < 2 ^ 128 :=
  Nat.xor_lt_two_pow (ghash_lt _ _ (aes256_lt key 0)) (aes256_lt key _)

/-- A TAG fits its side bits [95:40] (R170). -/
theorem lineTag_lt (key slot lineAddr major minor cipher : Nat) : lineTag key slot lineAddr major minor cipher < 2 ^ 56 :=
  Nat.div_lt_of_lt_mul (gmac64_lt key _ _)

/-! ### The side fields of a line made from them -/

theorem bits_eq_div_mod (x lo w : Nat) : bits x lo w = x / 2 ^ lo % 2 ^ w := by
  rw [bits, Nat.shiftRight_eq_div_pow]

theorem b2n_le_one (b : Bool) : b2n b ≤ 1 := by
  cases b <;> decide

theorem bits_sideHi_tag (tag sh ds ow ti : Nat) (p m : Bool) (k : Nat) :
    bits (sideHi tag sh ds ow ti p m k) 0 56 = tag % 2 ^ 56 := by
  rw [bits_eq_div_mod, sideHi]
  omega

theorem bits_sideHi_keyslot (tag sh ds ow ti : Nat) (p m : Bool) (k : Nat) :
    bits (sideHi tag sh ds ow ti p m k) 76 4 = k % 16 := by
  have hp := b2n_le_one p
  have hm := b2n_le_one m
  rw [bits_eq_div_mod, sideHi]
  omega

section
variable (seed da : Nat) (data : BitVec 512) (tag sh ds ow ti : Nat) (p m : Bool) (k : Nat)

@[simp] theorem mkLine_data (hi : Nat) : (mkLine seed da data hi).data = data := rfl

theorem mkLine_sideHi_hi :
    (mkLine seed da data (sideHi tag sh ds ow ti p m k)).hi = sideHi tag sh ds ow ti p m k :=
  mk_hi _ _ _ _ ((sideHi_lt ..).trans (by norm_num))

theorem mkLine_sideHi_crcOk : (mkLine seed da data (sideHi tag sh ds ow ti p m k)).crcOk seed da = true :=
  mk_crcOk _ _ _ _ ((sideHi_lt ..).trans (by norm_num))

theorem mkLine_sideHi_tag : (mkLine seed da data (sideHi tag sh ds ow ti p m k)).tag = tag % 2 ^ 56 := by
  rw [Line.tag, mkLine_sideHi_hi, bits_sideHi_tag]

theorem mkLine_sideHi_keyslot : (mkLine seed da data (sideHi tag sh ds ow ti p m k)).keyslot = k % 16 := by
  rw [Line.keyslot, mkLine_sideHi_hi, bits_sideHi_keyslot]

end

/-! ### A sealed line -/

section
variable (s : State) (seed da k ma mi : Nat) (data : BitVec 512) (poison mirror : Bool) (tier sharers dstate owner : Nat)

theorem sealLine_keyslot :
    (s.sealLine seed da (.ok k ma mi) data poison mirror tier sharers dstate owner).keyslot = k % 16 :=
  mkLine_sideHi_keyslot ..

theorem sealLine_crcOk :
    (s.sealLine seed da (.ok k ma mi) data poison mirror tier sharers dstate owner).crcOk seed da = true :=
  mkLine_sideHi_crcOk ..

/-- In mode 2 the TAG stored is the one R171 computes again over the ciphertext; in another mode there is no check. -/
theorem sealLine_tagOk :
    s.tagOk da (.ok k ma mi) (s.sealLine seed da (.ok k ma mi) data poison mirror tier sharers dstate owner) = true := by
  by_cases hmode : (s.slot k).mode = 2
  · simp only [State.sealLine, State.tagOk, hmode, if_true, mkLine_sideHi_tag, Nat.mod_eq_of_lt (lineTag_lt ..)]
    simp only [mkLine_data, BEq.rfl, Bool.or_true]
  · simp only [State.tagOk, bne_iff_ne.2 hmode, Bool.true_or]

/-- The keystream applied twice cancels (R166). -/
theorem decrypt_sealLine :
    s.decrypt da (.ok k ma mi) (s.sealLine seed da (.ok k ma mi) data poison mirror tier sharers dstate owner).data = data := by
  simp only [State.decrypt, State.sealLine, mkLine_data]
  rw [BitVec.xor_assoc, BitVec.xor_self, BitVec.xor_zero]

end

/-- Settles O58, from the four facts about a sealed line. -/
theorem sealedLineOpens : Obligations.SealedLineOpens := by
  unfold Obligations.SealedLineOpens
  intro s seed da k ma mi tier sharers dstate owner data poison mirror hk
  refine ⟨?_, sealLine_crcOk .., sealLine_tagOk .., decrypt_sealLine ..⟩
  rw [sealLine_keyslot, Nat.mod_eq_of_lt hk]

end Sys2Proof.Machine

/-! Host requests of a serving port (R25 to R27, R87, R201): each request command is an acceptance, and the settling of O1. -/

namespace Sys2Proof.Machine

section
variable (p : Fin 8) (ld : Fin 16) (hpa : BitVec 52) (mv : MetaValue) (data : BitVec 512) (mask : BitVec 64) (s : State)

theorem exec_memrd_eq_accept : exec (.memrd p ld hpa mv) s = .next (s.accept .rd p.val ld.val hpa.toNat mv 0 0) := rfl

theorem exec_memrddata_eq_accept :
    exec (.memrddata p ld hpa) s = .next (s.accept .rdData p.val ld.val hpa.toNat .i 0 0) := rfl

theorem exec_memclnevct_eq_accept :
    exec (.memclnevct p ld hpa) s = .next (s.accept .clnEvct p.val ld.val hpa.toNat .i 0 0) := rfl

theorem exec_meminv_eq_accept : exec (.meminv p ld hpa) s = .next (s.accept .inv p.val ld.val hpa.toNat .i 0 0) := rfl

theorem exec_memwr_eq_accept :
    exec (.memwr p ld hpa mv data) s = .next (s.accept .wr p.val ld.val hpa.toNat mv data (BitVec.allOnes 64)) := rfl

theorem exec_memwrptl_eq_accept :
    exec (.memwrptl p ld hpa mv data mask) s = .next (s.accept .wrPtl p.val ld.val hpa.toNat mv data mask) := rfl

end

/-- Settles O1: each command is an acceptance, and `accept_eq` says what an acceptance under service and credit does. -/
theorem hostRequestsComplete : Obligations.HostRequestsComplete := by
  unfold Obligations.HostRequestsComplete
  refine ⟨?memrd, ?memrddata, ?memclnevct, ?meminv, ?memwr, ?memwrptl⟩
  case memrd =>
    intro p ld hpa mv s r hserves hcredit
    rw [exec_memrd_eq_accept, accept_eq _ _ _ _ _ _ _ _ hserves hcredit]
  case memrddata =>
    intro p ld hpa s r hserves hcredit
    rw [exec_memrddata_eq_accept, accept_eq _ _ _ _ _ _ _ _ hserves hcredit]
  case memclnevct =>
    intro p ld hpa s r hserves hcredit
    rw [exec_memclnevct_eq_accept, accept_eq _ _ _ _ _ _ _ _ hserves hcredit]
  case meminv =>
    intro p ld hpa s r hserves hcredit
    rw [exec_meminv_eq_accept, accept_eq _ _ _ _ _ _ _ _ hserves hcredit]
  case memwr =>
    intro p ld hpa mv data s r hserves hcredit
    rw [exec_memwr_eq_accept, accept_eq _ _ _ _ _ _ _ _ hserves hcredit]
  case memwrptl =>
    intro p ld hpa mv data mask s r hserves hcredit
    rw [exec_memwrptl_eq_accept, accept_eq _ _ _ _ _ _ _ _ hserves hcredit]

end Sys2Proof.Machine

/-! The viaduct, counter-cache, translation and home units of the sequencers (R304): each of their commands is one step of
its context, and the settling of O30. -/

namespace Sys2Proof.Machine

section
variable (q : Fin 24) (ctx : Fin 512) (s : State)

theorem exec_vdtSend_eq : exec (.vdtSend q ctx) s = execVdtSend q ctx s := rfl
theorem exec_ccacheGet_eq : exec (.ccacheGet q ctx) s = execCcacheGet q ctx s := rfl
theorem exec_ccacheAdvance_eq : exec (.ccacheAdvance q ctx) s = execCcacheAdvance q ctx s := rfl
theorem exec_ccachePin_eq : exec (.ccachePin q ctx) s = execCcachePin q ctx s := rfl
theorem exec_ccacheUnpin_eq : exec (.ccacheUnpin q ctx) s = execCcacheUnpin q ctx s := rfl
theorem exec_xlatLookup_eq : exec (.xlatLookup q ctx) s = execXlatLookup q ctx s := rfl
theorem exec_xlatWalk_eq : exec (.xlatWalk q ctx) s = execXlatWalk q ctx s := rfl
theorem exec_xlatHold_eq : exec (.xlatHold q ctx) s = execXlatHold q ctx s := rfl
theorem exec_homeOrder_eq : exec (.homeOrder q ctx) s = execHomeOrder q ctx s := rfl
theorem exec_homeRelease_eq : exec (.homeRelease q ctx) s = execHomeRelease q ctx s := rfl

end

/-- Settles O30: the context fetches the step its command wants, and the unit performs it as the hypotheses say. -/
theorem linkCounterAndHomeUnitsComplete : Obligations.LinkCounterAndHomeUnitsComplete := by
  unfold Obligations.LinkCounterAndHomeUnitsComplete
  refine ⟨?vdtSend, ?ccacheGet, ?ccacheAdvance, ?ccachePin, ?ccacheUnpin, ?xlatLookup, ?xlatWalk, ?xlatHold, ?homeOrder,
    ?homeRelease⟩
  case vdtSend =>
    intro q ctx c w t s dest l hfetch hop hsent
    rw [exec_vdtSend_eq, execVdtSend, runStep_ok _ hfetch hop]
    simp only [hsent, dest, l]
  case ccacheGet =>
    intro q ctx c w k ma mi s da hfetch hop hctr
    rw [exec_ccacheGet_eq, execCcacheGet, runStep_ok _ hfetch hop]
    simp only [hctr, da]
  case ccacheAdvance =>
    intro q ctx c w t k ma mi s da ovf hfetch hop hadv
    rw [exec_ccacheAdvance_eq, execCcacheAdvance, runStep_ok _ hfetch hop]
    -- The statement writes the match on the counter entry out again: `rfl` sees that it is the unit's own.
    simp only [hadv, da, ovf] <;> rfl
  case ccachePin =>
    intro q ctx c w t s hfetch hop hpin
    rw [exec_ccachePin_eq, execCcachePin, runStep_ok _ hfetch hop]
    simp only [hpin]
  case ccacheUnpin =>
    intro q ctx c w t s hfetch hop hpin
    rw [exec_ccacheUnpin_eq, execCcacheUnpin, runStep_ok _ hfetch hop]
    simp only [hpin]
  case xlatLookup =>
    intro q ctx c w e s hfetch hop hhit
    rw [exec_xlatLookup_eq, execXlatLookup, runStep_ok _ hfetch hop]
    simp only [hhit]
  case xlatWalk =>
    intro q ctx c w a l e s via hfetch hop hleaf hvalid hfault
    rw [exec_xlatWalk_eq, execXlatWalk, runStep_ok _ hfetch hop]
    simp [hleaf, hvalid, hfault, via]
  case xlatHold =>
    intro q ctx c w a l e s hfetch hop hleaf
    rw [exec_xlatHold_eq, execXlatHold, runStep_ok _ hfetch hop]
    simp only [hleaf]
  case homeOrder =>
    intro q ctx c w s da u hfetch hop hnone hfree hrecall
    have hrecalled : s.jobRecall da = (u, true) := Prod.ext rfl hrecall
    rw [exec_homeOrder_eq, execHomeOrder, runStep_ok _ hfetch hop]
    simp [hnone, hfree, hrecalled, da]
  case homeRelease =>
    intro q ctx c w id s hfetch hop hreq
    rw [exec_homeRelease_eq, execHomeRelease, runStep_ok _ hfetch hop]
    simp only [hreq]

end Sys2Proof.Machine

/-! The bits of a line (R29 to R35): the beats of its burst, the places of its side fields, and the settling of O56 and
O52. -/

namespace Sys2Proof.Machine

/-! ### The beats of a burst -/

/-- Parts laid side by side at a step of their own width: bit j is bit j % w of part j / w. -/
theorem getLsbD_foldl_parts {w W : Nat} (f : Nat → BitVec w) {j : Nat} (hw : 0 < w) (hj : j < W) (n : Nat) :
    ((List.range n).foldl (fun a k => a ||| (f k).setWidth W <<< (w * k)) 0).getLsbD j =
      (decide (j / w < n) && (f (j / w)).getLsbD (j % w)) := by
  induction n with
  | zero => simp
  | succ n ih =>
    have hdiv := Nat.div_add_mod j w
    have hmod := Nat.mod_lt j hw
    rw [List.range_succ, List.foldl_append, List.foldl_cons, List.foldl_nil, BitVec.getLsbD_or, ih]
    simp only [BitVec.getLsbD_shiftLeft, BitVec.getLsbD_setWidth]
    rcases lt_trichotomy (j / w) n with hlt | heq | hgt
    · have hbelow : j < w * n := by rw [Nat.mul_comm]; exact (Nat.div_lt_iff_lt_mul hw).1 hlt
      simp [hlt, hbelow, Nat.lt_succ_of_lt hlt]
    · have hsub : j - w * n = j % w := by rw [← heq]; omega
      have hat : ¬ j < w * n := by rw [← heq]; omega
      simp [heq, hsub, hat, hj, Nat.lt_of_le_of_lt (Nat.mod_le j w) hj]
    · have habove : w * (n + 1) ≤ j := by rw [Nat.mul_comm]; exact (Nat.le_div_iff_mul_le hw).1 hgt
      have hpast : (f n).getLsbD (j - w * n) = false := BitVec.getLsbD_of_ge _ _ (by rw [Nat.mul_add] at habove; omega)
      simp [hgt.not_gt, hpast, show ¬ j / w < n + 1 by omega]

theorem Line.beat_dq (l : Line) (k : Nat) : (l.beat k).setWidth 32 = l.data.extractLsb' (32 * k) 32 := by
  rw [Line.beat, BitVec.setWidth_append_eq_right]

theorem Line.beat_cb (l : Line) (k : Nat) : (l.beat k).extractLsb' 32 8 = l.side.extractLsb' (8 * k) 8 := by
  rw [Line.beat, BitVec.extractLsb'_append_eq_left]

theorem Line.beat_getLsbD_dq (l : Line) (k : Nat) {j : Nat} (hj : j < 32) :
    (l.beat k).getLsbD j = l.data.getLsbD (32 * k + j) := by
  simpa [hj] using congrArg (fun x => x.getLsbD j) (l.beat_dq k)

theorem Line.beat_getLsbD_cb (l : Line) (k : Nat) {j : Nat} (hj : j < 8) :
    (l.beat k).getLsbD (32 + j) = l.side.getLsbD (8 * k + j) := by
  simpa [hj] using congrArg (fun x => x.getLsbD j) (l.beat_cb k)

theorem Line.beat_byte (l : Line) (k : Nat) {i : Nat} (hi : i < 4) :
    (l.beat k).extractLsb' (8 * i) 8 = l.data.extractLsb' (8 * (4 * k + i)) 8 := by
  refine BitVec.eq_of_getLsbD_eq fun j hj => ?_
  simp only [BitVec.getLsbD_extractLsb', l.beat_getLsbD_dq k (show 8 * i + j < 32 by omega)]
  rw [show 32 * k + (8 * i + j) = 8 * (4 * k + i) + j by omega]

section
variable (b : Nat → BitVec 40)

theorem Line.ofBeats_data_getLsbD {j : Nat} (hj : j < 512) :
    (Line.ofBeats b).data.getLsbD j = (b (j / 32)).getLsbD (j % 32) := by
  have hbeat : j / 32 < 16 := by omega
  have hbit := Nat.mod_lt j (show 0 < 32 by norm_num)
  rw [Line.ofBeats, getLsbD_foldl_parts (fun k => (b k).setWidth 32) (by norm_num) hj]
  simp [hbeat, hbit]

theorem Line.ofBeats_side_getLsbD {j : Nat} (hj : j < 128) :
    (Line.ofBeats b).side.getLsbD j = (b (j / 8)).getLsbD (32 + j % 8) := by
  have hbeat : j / 8 < 16 := by omega
  have hbit := Nat.mod_lt j (show 0 < 8 by norm_num)
  rw [Line.ofBeats, getLsbD_foldl_parts (fun k => (b k).extractLsb' 32 8) (by norm_num) hj]
  simp [hbeat, hbit]

/-- The line whose burst has the beats b has them as its beats. -/
theorem Line.beat_ofBeats {k : Nat} (hk : k < 16) : (Line.ofBeats b).beat k = b k := by
  refine BitVec.eq_of_getLsbD_eq fun j hj => ?_
  by_cases hdq : j < 32
  · rw [Line.beat_getLsbD_dq _ _ hdq, Line.ofBeats_data_getLsbD b (by omega), show (32 * k + j) / 32 = k by omega,
      show (32 * k + j) % 32 = j by omega]
  · obtain ⟨i, rfl⟩ := Nat.exists_eq_add_of_le (Nat.le_of_not_lt hdq)
    rw [Line.beat_getLsbD_cb _ _ (by omega), Line.ofBeats_side_getLsbD b (by omega), show (8 * k + i) / 8 = k by omega,
      show (8 * k + i) % 8 = i by omega]

end

theorem Line.ext_of_fields {l l' : Line} (hdata : l.data = l'.data) (hside : l.side = l'.side) : l = l' :=
  congrArg₂ Line.mk hdata hside

theorem Line.ofBeats_beat (l : Line) : Line.ofBeats l.beat = l := by
  refine Line.ext_of_fields (BitVec.eq_of_getLsbD_eq fun j hj => ?_) (BitVec.eq_of_getLsbD_eq fun j hj => ?_)
  · rw [Line.ofBeats_data_getLsbD _ hj, Line.beat_getLsbD_dq _ _ (Nat.mod_lt _ (by norm_num)), Nat.div_add_mod]
  · rw [Line.ofBeats_side_getLsbD _ hj, Line.beat_getLsbD_cb _ _ (Nat.mod_lt _ (by norm_num)), Nat.div_add_mod]

theorem Line.beat_flip (l : Line) (f : BitVec 640) {k : Nat} (hk : k < 16) :
    (l.flip f).beat k = l.beat k ^^^ f.extractLsb' (40 * k) 40 := by
  unfold Line.flip
  split
  case isTrue hnone => simp [hnone]
  case isFalse => exact Line.beat_ofBeats _ hk

/-- Settles O56, from the places of DQ and CB in a beat, `Line.ofBeats_beat` and `Line.beat_flip`. -/
theorem beatLayout : Obligations.BeatLayout := by
  unfold Obligations.BeatLayout
  exact ⟨fun l k _ _ hi => l.beat_byte k hi, fun l k _ => l.beat_cb k, Line.ofBeats_beat, fun l f _ hk => l.beat_flip f hk⟩

/-! ### The places of the side fields -/

theorem testBit_eq_bits (x i : Nat) : x.testBit i = decide (bits x i 1 = 1) := by
  rw [Nat.testBit_eq_decide_div_mod_eq, bits_eq_div_mod, pow_one]

/-- The fields of R30 in the upper side bits, each at its place; the places between and above them hold zeros. -/
theorem bits_sideHi (tag sh ds ow ti : Nat) (p m : Bool) (k : Nat) :
    let hi := sideHi tag sh ds ow ti p m k
    bits hi 56 8 = sh % 256 ∧ bits hi 64 2 = ds % 4 ∧ bits hi 66 3 = ow % 8 ∧ bits hi 69 3 = 0 ∧ bits hi 72 2 = ti % 4 ∧
      bits hi 74 1 = b2n p ∧ bits hi 75 1 = b2n m ∧ bits hi 80 8 = 0 := by
  have hp := b2n_le_one p
  have hm := b2n_le_one m
  simp only [bits_eq_div_mod, sideHi]
  omega

section
variable (seed da : Nat) (data : BitVec 512) {hi : Nat} (hfits : hi < 2 ^ 88)
include hfits

theorem mkLine_crc : bits (mkLine seed da data hi).side.toNat 0 40 = crc40 seed (da / 64) hi data.toNat := by
  have hcrc := crc40_lt seed (da / 64) hi data.toNat
  rw [mk_side _ _ _ _ hfits, bits_eq_div_mod]
  omega

theorem bits_mkLine_side (lo w : Nat) : bits (mkLine seed da data hi).side.toNat (40 + lo) w = bits hi lo w := by
  have hcrc := crc40_lt seed (da / 64) hi data.toNat
  rw [mk_side _ _ _ _ hfits, bits_eq_div_mod, bits_eq_div_mod, pow_add, ← Nat.div_div_eq_div_mul,
    Nat.mul_add_div (by positivity), Nat.div_eq_of_lt hcrc, Nat.add_zero]

end

/-- DSTATE 0b11 is the one illegal value of a line made from its side fields, whose reserved bits are zero (R31). -/
theorem mkLine_sideHi_illegal_iff (seed da tag sh ds ow ti : Nat) (data : BitVec 512) (p m : Bool) (k : Nat) :
    (mkLine seed da data (sideHi tag sh ds ow ti p m k)).illegal = true ↔ ds % 4 = 3 := by
  obtain ⟨-, hdstate, -, hlow, -, -, -, hhigh⟩ := bits_sideHi tag sh ds ow ti p m k
  simp [Line.illegal, Line.dstate, mkLine_sideHi_hi, hdstate, hlow, hhigh]

/-- Settles O52: side bits 40 and up are the upper part, whose fields `bits_sideHi` places. -/
theorem lineSideBits : Obligations.LineSideBits := by
  unfold Obligations.LineSideBits
  intro seed da tag sharers dstate owner tier slot poison mirror data htag hsharers hdstate howner htier hslot l
  have hfits : sideHi tag sharers dstate owner tier poison mirror slot < 2 ^ 88 := (sideHi_lt ..).trans (by norm_num)
  have hside := bits_mkLine_side seed da data hfits
  have hbit : ∀ i, l.side.toNat.testBit (40 + i) =
      decide (bits (sideHi tag sharers dstate owner tier poison mirror slot) i 1 = 1) := fun i => by
    rw [testBit_eq_bits, hside]
  obtain ⟨fsharers, fdstate, fowner, flow, ftier, fpoison, fmirror, fhigh⟩ :=
    bits_sideHi tag sharers dstate owner tier poison mirror slot
  refine ⟨mkLine_data .., ?crc, ?tag, ?sharers, ?dstate, ?owner, ?reservedLow, ?tier, ?poison, ?mirror, ?keyslot,
    ?reservedHigh, mkLine_sideHi_crcOk .., ?legal⟩
  case crc => rw [mkLine_sideHi_hi, mkLine_crc seed da data hfits]
  case tag => rw [hside 0, bits_sideHi_tag, Nat.mod_eq_of_lt htag]
  case sharers => rw [hside 56, fsharers, Nat.mod_eq_of_lt hsharers]
  case dstate => rw [hside 64, fdstate, Nat.mod_eq_of_lt hdstate]
  case owner => rw [hside 66, fowner, Nat.mod_eq_of_lt howner]
  case reservedLow => rw [hside 69, flow]
  case tier => rw [hside 72, ftier, Nat.mod_eq_of_lt htier]
  case poison => rw [hbit 74, fpoison]; cases poison <;> rfl
  case mirror => rw [hbit 75, fmirror]; cases mirror <;> rfl
  case keyslot => rw [hside 76, bits_sideHi_keyslot, Nat.mod_eq_of_lt hslot]
  case reservedHigh => rw [hside 80, fhigh]
  case legal => rw [mkLine_sideHi_illegal_iff, Nat.mod_eq_of_lt hdstate]

end Sys2Proof.Machine

/-! Lines in DRAM (R28, R33, R36, R72, R113): what a write of a whole line changes, what the bursts after it return, and the
settling of O55. -/

namespace Sys2Proof.Machine

/-! ### What a write takes into the pools -/

/-- The second state differs from the first in the owner map and the heat array at most. -/
def State.SameButPools (s t : State) : Prop := ∃ o h, t = { s with owner := o, heat := h }

theorem State.SameButPools.refl (s : State) : s.SameButPools s := ⟨s.owner, s.heat, rfl⟩

theorem State.SameButPools.trans {s t u : State} (hst : s.SameButPools t) (htu : t.SameButPools u) : s.SameButPools u := by
  obtain ⟨o, h, rfl⟩ := hst
  obtain ⟨o', h', rfl⟩ := htu
  exact ⟨o', h', rfl⟩

theorem sameButPools_owner (s : State) (o : SMap Nat) : s.SameButPools { s with owner := o } := ⟨o, s.heat, rfl⟩

theorem sameButPools_heat (s : State) (h : SMap Nat) : s.SameButPools { s with heat := h } := ⟨s.owner, h, rfl⟩

theorem sameButPools_foldl {α : Type} {f : State → α → State} (hf : ∀ (s : State) (a : α), s.SameButPools (f s a)) (l : List α)
    (s : State) :
    s.SameButPools (l.foldl f s) := by
  induction l generalizing s with
  | nil => exact .refl s
  | cons a l ih => exact (hf s a).trans (ih _)

theorem State.poolTake_sameButPools (s : State) (da : Nat) (l : Line) : s.SameButPools (s.poolTake da l) := by
  unfold State.poolTake
  split
  case isTrue => exact .refl s
  case isFalse =>
    split
    case h_1 =>
      refine sameButPools_foldl (fun s i => ?_) _ _
      dsimp only
      split
      · split
        · exact .refl s
        · exact sameButPools_owner ..
      · exact .refl s
    case h_2 =>
      refine sameButPools_foldl (fun s i => ?_) _ _
      dsimp only
      split
      · exact .refl s
      · exact sameButPools_heat ..
    case h_3 => exact .refl s

/-- A line that no engine-kept pool of the metadata reserve holds (R391). -/
def State.OutsidePools (s : State) (da : Nat) : Prop :=
  s.daKind da ≠ .metadata ∨ (s.region da).isSome = true ∨ s.poolLine da = none

/-- A write outside the pools leaves the owner map and the heat array as they are. -/
theorem State.poolTake_eq_self {s : State} {da : Nat} (l : Line) (hout : s.OutsidePools da) : s.poolTake da l = s := by
  rcases hout with hkind | hregion | hnone
  · simp [State.poolTake, hkind]
  · simp [State.poolTake, hregion]
  · unfold State.poolTake
    split
    case isTrue => rfl
    case isFalse =>
      split
      case h_1 hpool => simp [State.poolLine, hpool] at hnone
      case h_2 hpool => simp [State.poolLine, hpool] at hnone
      case h_3 => rfl

/-! ### What a stored line's place and reading rest on -/

theorem mediaKey_ne {da x copy k : Nat} (p q : Bool) (hcopy : copy < 2) (hk : k < 2) (hother : x / 64 ≠ da / 64 ∨ k ≠ copy) :
    mediaKey x k p ≠ mediaKey da copy q := by
  have hp := b2n_le_one p
  have hq := b2n_le_one q
  unfold mediaKey
  omega

section
variable (s : State) (m : SMap Line) (da copy : Nat)

theorem planeOf_withStores (o h : SMap Nat) :
    ({ s with media := m, owner := o, heat := h } : State).planeOf da copy = s.planeOf da copy := rfl

theorem listedLine_withMedia (l : Line) : ({ s with media := m } : State).listedLine da l = s.listedLine da l := rfl

theorem unlistedLine_withMedia : ({ s with media := m } : State).unlistedLine da copy = s.unlistedLine da copy := rfl

/-- The burst of a line rests on no stored line but its own. -/
theorem dramLine_withMedia (hsame : SMap.get? m (mediaKey da copy (s.planeOf da copy)) =
      SMap.get? s.media (mediaKey da copy (s.planeOf da copy))) :
    ({ s with media := m } : State).dramLine da copy = s.dramLine da copy := by
  rw [State.dramLine, State.dramLine, planeOf_withStores s m da copy s.owner s.heat, State.rawLine, State.rawLine, hsame]
  simp only [listedLine_withMedia, unlistedLine_withMedia]

end

theorem listedLine_eq_self {s : State} {da : Nat} (l : Line) (hout : s.OutsidePools da) : s.listedLine da l = l := by
  rcases hout with hkind | hregion | hnone
  · simp [State.listedLine, hkind]
  · simp [State.listedLine, hregion]
  · simp [State.listedLine, hnone]

theorem listedLine_eq_mkLine {s : State} {da : Nat} {d : BitVec 512} (l : Line) (hkind : s.daKind da = .metadata)
    (hregion : s.region da = none) (hpool : s.poolLine da = some d) : s.listedLine da l = mkLine 0 da d l.hi := by
  simp [State.listedLine, hkind, hregion, hpool]

/-! ### A write to DRAM -/

section
variable (s : State) (da copy : Nat) (l : Line)

theorem planeOf_poolTake (x k : Nat) : (s.poolTake da l).planeOf x k = s.planeOf x k := by
  obtain ⟨o, h, htake⟩ := s.poolTake_sameButPools da l
  rw [htake]
  exact planeOf_withStores s s.media x k o h

theorem dramWrite_eq_withStores : ∃ m o h, s.dramWrite da copy l = { s with media := m, owner := o, heat := h } := by
  obtain ⟨o, h, htake⟩ := s.poolTake_sameButPools da l
  rw [State.dramWrite, htake]
  exact ⟨_, o, h, rfl⟩

theorem planeOf_dramWrite (x k : Nat) : (s.dramWrite da copy l).planeOf x k = s.planeOf x k :=
  planeOf_poolTake s da l x k

theorem dramWrite_media : (s.dramWrite da copy l).media =
    SMap.put (s.poolTake da l).media (mediaKey da copy (s.planeOf da copy)) l := by
  rw [State.dramWrite, planeOf_poolTake]

/-- The line written is the listed line at its place. -/
theorem dramLine_dramWrite_same : (s.dramWrite da copy l).dramLine da copy = (s.dramWrite da copy l).listedLine da l := by
  rw [State.dramLine, planeOf_dramWrite, State.rawLine, dramWrite_media, SMap.get?_put_same]

end

section
variable {s : State} {da : Nat} (hout : s.OutsidePools da)
include hout

theorem dramWrite_eq_withMedia (copy : Nat) (l : Line) :
    s.dramWrite da copy l = { s with media := SMap.put s.media (mediaKey da copy (s.planeOf da copy)) l } := by
  rw [State.dramWrite, State.poolTake_eq_self l hout]

theorem dramLine_dramWrite_eq_self (copy : Nat) (l : Line) : (s.dramWrite da copy l).dramLine da copy = l := by
  rw [dramLine_dramWrite_same, dramWrite_eq_withMedia hout, listedLine_withMedia, listedLine_eq_self l hout]

theorem dramLine_dramWrite_other {copy x k : Nat} (l : Line) (hcopy : copy < 2) (hk : k < 2)
    (hother : x / 64 ≠ da / 64 ∨ k ≠ copy) : (s.dramWrite da copy l).dramLine x k = s.dramLine x k := by
  rw [dramWrite_eq_withMedia hout]
  exact dramLine_withMedia s _ x k (SMap.get?_put_other _ _ (mediaKey_ne _ _ hcopy hk hother))

end

/-- Settles O55: the written line is listed at its place alone, and reads as itself unless a pool holds it. -/
theorem dramReadAfterWrite : Obligations.DramReadAfterWrite := by
  unfold Obligations.DramReadAfterWrite
  refine ⟨?stored, ?pooled, dramWrite_eq_withStores⟩
  case stored =>
    intro s da copy l hcopy hout
    exact ⟨dramLine_dramWrite_eq_self hout copy l, fun x k hk hother => dramLine_dramWrite_other hout l hcopy hk hother,
      _, dramWrite_eq_withMedia hout copy l⟩
  case pooled =>
    intro s da copy l d _ hkind hregion hpool
    rw [dramLine_dramWrite_same, listedLine_eq_mkLine l hkind hregion hpool]

end Sys2Proof.Machine

/-! Line traffic at a Pier and scrub (R26, R38 to R49, R62, R168): what each command answers where its conditions hold, and
the settling of O5 and O10. -/

namespace Sys2Proof.Machine

/-! ### Reads and writes of a line at the Pier -/

section
variable (id : BitVec 32) (flip : BitVec 640) (b : Bursts) (mirror : Bool) (n : Fin 16) (sub : Fin 2) (count : Fin 129)
  (s : State)

theorem exec_lineBurst_eq : exec (.lineBurst id flip) s = execLineBurst id flip s := rfl
theorem exec_recompute_eq : exec (.recompute id b) s = execRecompute id b s := rfl
theorem exec_counterRequest_eq : exec (.counterRequest id) s = execCounterRequest id s := rfl
theorem exec_writeQueueAccept_eq : exec (.writeQueueAccept id mirror) s = execWriteQueueAccept id mirror s := rfl
theorem exec_writeDrain_eq : exec (.writeDrain n sub count) s = execWriteDrain n sub count s := rfl

end

theorem State.pierRuns_eq_true_iff {s : State} {n sub : Nat} :
    s.pierRuns n sub = true ↔ s.pierSeq n = true ∧ s.gateShut (17 + n) = false ∧ (s.pier n).freq = false ∧
      (s.pier n).pause.testBit sub = false := by
  simp only [State.pierRuns, Bool.and_eq_true, Bool.not_eq_true', and_assoc]

/-- An unmirrored write that its Pier can reach, whose counter is not refused and whose queue has room, is queued (R26, R62). -/
theorem acceptWrite_eq_enqueue {s : State} {id : Nat} {r : Req} {m : Ma} (htier : r.tier ≠ 0) (hreach : s.gone r.da 0 = false)
    (hctr : (s.advance r.da).2 ≠ .refused) (hma : s.lineMa r.da 0 = some m) (hroom : s.wqFill m.hpier m.sub < 128)
    (hopen : s.gateShut (17 + m.hpier) = false) (hlink : s.linkHeld m.hpier = false) (hseq : s.pierSeq m.hpier = true) :
    s.acceptWrite id r false = s.enqueue id { r with accP := true } := by
  rcases hadv : s.advance r.da with ⟨s', a⟩
  rw [hadv] at hctr
  have hfree : ¬ 128 ≤ s.wqFill m.hpier m.sub := by omega
  cases a with
  | refused => exact absurd rfl hctr
  | _ => simp [State.acceptWrite, hadv, htier, hreach, hma, hfree, hopen, hlink, hseq]

/-- Settles O5, command by command; a write goes by `acceptWrite_eq_enqueue`. -/
theorem pierTrafficComplete : Obligations.PierTrafficComplete := by
  unfold Obligations.PierTrafficComplete
  refine ⟨?lineBurst, ?recompute, ?counterRequest, ?writeQueueAccept, ?writeDrain⟩
  case lineBurst =>
    intro id flip r att s hreq hphase hatt hruns hqueued
    rw [exec_lineBurst_eq, execLineBurst]
    simp [hreq, hphase, hatt, hruns, hqueued]
  case recompute =>
    intro id b r s hreq hphase hsources
    rw [exec_recompute_eq, execRecompute]
    simp [hreq, hphase, hsources]
  case counterRequest =>
    intro id r v s hreq hphase hlast
    rw [exec_counterRequest_eq, execCounterRequest]
    simp only [hreq, hphase, hlast]
  case writeQueueAccept =>
    intro id r m s hreq hphase hhost htier hreach hctr hma hroom hopen hlink hseq
    rw [exec_writeQueueAccept_eq, execWriteQueueAccept]
    simp [hreq, hphase, hhost, acceptWrite_eq_enqueue htier hreach hctr hma hroom hopen hlink hseq]
  case writeDrain =>
    intro n sub count s hopen hseq hfreq hpause hdue
    have hruns := State.pierRuns_eq_true_iff.2 ⟨hseq, hopen, hfreq, hpause⟩
    rw [exec_writeDrain_eq, execWriteDrain, hruns, hdue]
    rfl

/-! ### Scrub -/

section
variable (n : Fin 16) (v : BitVec 32) (b : Bursts) (s : State)

theorem exec_pierLiuCtlWrite_eq : exec (.pierLiuCtlWrite n v) s = execPierLiuCtlWrite n v s := rfl
theorem exec_scrubStep_eq : exec (.scrubStep n b) s = execScrubStep n b s := rfl
theorem exec_scrubPeriodEnd_eq : exec (.scrubPeriodEnd n) s = execScrubPeriodEnd n s := rfl
theorem exec_ueWindowTick_eq : exec (.ueWindowTick n) s = execUeWindowTick n s := rfl

end

section
variable {n : Fin 16} {b : Bursts} {rank line da copy : Nat} {s : State}
variable (hscrub : (s.pier n.val).scrub = some (rank, line)) (hserving : s.leaveIdle.serving = true)
  (hurg : s.leaveIdle.urg3 = false) (hon : s.leaveIdle.pierOn n.val = true) (hseq : s.leaveIdle.pierSeq n.val = true)
  (hopen : s.leaveIdle.gateShut (17 + n.val) = false) (hline : s.leaveIdle.daOfLine n.val rank line = some (da, copy))
include hscrub hserving hurg hon hseq hopen hline

theorem execScrubStep_eq_scrubNext_of_scrubSkips (hskip : s.leaveIdle.scrubSkips da = true) :
    execScrubStep n b s = .next (s.leaveIdle.scrubNext n.val rank line) := by
  simp [execScrubStep, hscrub, hserving, hurg, hon, hseq, hopen, hline, hskip]

theorem execScrubStep_eq_scrubLine_scrubNext (hskip : s.leaveIdle.scrubSkips da = false)
    (hruns : s.leaveIdle.copyRuns da copy = true) (hdone : (s.leaveIdle.scrubLine da copy b).2 = true) :
    execScrubStep n b s = .next ((s.leaveIdle.scrubLine da copy b).1.scrubNext n.val rank line) := by
  have hcleaned : s.leaveIdle.scrubLine da copy b = ((s.leaveIdle.scrubLine da copy b).1, true) := Prod.ext rfl hdone
  rw [execScrubStep]
  simp only [hscrub, hserving, hurg, hon, hseq, hopen, hline, hskip, hruns, Bool.not_true, Bool.or_self, Bool.false_eq_true,
    if_false]
  rw [hcleaned]

end

/-- Settles O10: the register write, the two forms of a scrub step, the two ends of a period, and the hourly window. -/
theorem scrubComplete : Obligations.ScrubComplete := by
  unfold Obligations.ScrubComplete
  refine ⟨?pierLiuCtlWrite, ?skip, ?step, ?late, ?again, ?ueWindowTick⟩
  case pierLiuCtlWrite =>
    intro n v s hopen
    rw [exec_pierLiuCtlWrite_eq, execPierLiuCtlWrite]
    simp [State.atPage, hopen]
  case skip =>
    intro n b rank line da copy s s1 hscrub hserving hurg hon hseq hopen hline hskip
    rw [exec_scrubStep_eq, execScrubStep_eq_scrubNext_of_scrubSkips hscrub hserving hurg hon hseq hopen hline hskip]
  case step =>
    intro n b rank line da copy s s1 hscrub hserving hurg hon hseq hopen hline hskip hruns hdone
    rw [exec_scrubStep_eq, execScrubStep_eq_scrubLine_scrubNext hscrub hserving hurg hon hseq hopen hline hskip hruns hdone]
  case late =>
    intro n at_ s hend hready hscrub hfirst
    rw [exec_scrubPeriodEnd_eq, execScrubPeriodEnd]
    simp [hend.not_gt, hready, hscrub, hfirst]
  case again =>
    intro n s hend hready hscrub
    rw [exec_scrubPeriodEnd_eq, execScrubPeriodEnd]
    simp [hend.not_gt, hready, hscrub]
  case ueWindowTick =>
    intro n s
    rw [exec_ueWindowTick_eq, execUeWindowTick]

end Sys2Proof.Machine

/-! Upkeep of a Pier's channel (R61, R64 to R70, R79, R369): refresh, retraining pauses and data-rate changes, and the settling
of O9. -/

namespace Sys2Proof.Machine

theorem State.atPage_of_open {s : State} {pg : Nat} (f : State → State) (hopen : s.pageShut pg = false) :
    s.atPage pg f = f s := by
  simp [State.atPage, hopen]

/-! ### The arms of the upkeep commands -/

section
variable (n : Fin 16) (sub set : Fin 2) (rank : Fin 8) (hot : Bool) (limited : BitVec 8) (delays : List (BitVec 36))
  (bank : Fin 512) (off : Fin 32) (v : BitVec 32) (s : State)

theorem exec_refresh_eq : exec (.refresh n rank) s = execRefresh n rank s := rfl
theorem exec_mr4Poll_eq : exec (.mr4Poll n hot) s = execMr4Poll n hot s := rfl
theorem exec_zqcalStart_eq : exec (.zqcalStart n sub) s = execZqcalStart n sub s := rfl
theorem exec_trainPause_eq : exec (.trainPause n sub) s = execTrainPause n sub s := rfl
theorem exec_trainPauseEnd_eq : exec (.trainPauseEnd n sub limited delays) s = execTrainPauseEnd n sub limited delays s := rfl
theorem exec_adaptNsExpiry_eq : exec (.adaptNsExpiry n bank) s = execAdaptNsExpiry n bank s := rfl
theorem exec_switch_eq : exec (.switch n) s = execSwitch n s := rfl
theorem exec_timingSetWrite_eq : exec (.timingSetWrite n set off v) s = execTimingSetWrite n set off v s := rfl
theorem exec_freqChangeDone_eq : exec (.freqChangeDone n) s = execFreqChangeDone n s := rfl

end

/-! ### Refresh and pauses -/

/-- With no subchannel paused a refresh is kept for no pause's end: each subchannel is issued its part (R64). -/
theorem State.refreshRank_eq_of_unpaused {s : State} {n : Nat} (rank : Nat) (hpause : (s.pier n).pause = 0) :
    s.refreshRank n rank =
      ((s.setPier n { (s.pier n) with refs := (s.pier n).refs + 1 }).refreshPart n 0 rank ((s.pier n).refs % 4)).refreshPart n 1
        rank ((s.pier n).refs % 4) := by
  simp [State.refreshRank, hpause]

@[simp] theorem pick_false (n : Nat) : pick n (fun _ => false) = [] := by
  simp [pick]

@[simp] theorem maskOf_false (n : Nat) : maskOf n (fun _ => false) = 0 := by
  simp [maskOf]

/-- A pause that limited no rank clears its subchannel's limits, is counted and leaves its delays; no rank fails (R67). -/
theorem State.pauseDone_zero (s : State) (n sub : Nat) (delays : List Nat) :
    s.pauseDone n sub 0 delays =
      ((s.setPier n { (s.pier n) with lim := setBits (s.pier n).lim (8 * sub) 8 0 }).put (pgPier n) Reg.PIER_TRAIN_STAT_PAUSES
        (s.fld (pgPier n) Reg.PIER_TRAIN_STAT_PAUSES + 1)).setDelays n delays := by
  simp [State.pauseDone]

/-! ### Data-rate changes -/

section
variable {s : State} {n : Nat}

theorem State.doSwitch_eq_put_busy (hidle : s.flag (pgPier n) Reg.PIER_SPEED_BUSY = false)
    (hvalid : s.flag (pgPier n) (Reg.PIER_TSET_VALID (1 - s.fld (pgPier n) Reg.PIER_SPEED_ACTIVE_SET)) = true) :
    s.doSwitch n =
      if s.changing < 4 then (s.put (pgPier n) Reg.PIER_SPEED_BUSY 1).startFreq n
      else (s.put (pgPier n) Reg.PIER_SPEED_BUSY 1).setPier n { (s.pier n) with freqQ := true } := by
  rw [State.doSwitch, hidle, hvalid]
  rfl

theorem State.doSwitch_eq_put_refused (hrefused : s.flag (pgPier n) Reg.PIER_SPEED_BUSY = true ∨
      s.flag (pgPier n) (Reg.PIER_TSET_VALID (1 - s.fld (pgPier n) Reg.PIER_SPEED_ACTIVE_SET)) = false) :
    s.doSwitch n = s.put (pgPier n) Reg.PIER_SPEED_REFUSED 1 := by
  simp [State.doSwitch, hrefused]

end

/-- The state in which a change has ended and the next queued one has not begun: the other set active with its rate, the pauses
run, FREQ_CHANGE raised (R70). -/
def State.freqEnded (s : State) (n : Nat) : State :=
  let pg := pgPier n
  let k := 1 - s.fld pg Reg.PIER_SPEED_ACTIVE_SET
  let old := s.fld pg Reg.PIER_SPEED_RATE
  let new := s.fld pg (Reg.PIER_TSET_RATE k)
  (((((s.setPier n { (s.pier n) with freq := false }).put pg Reg.PIER_SPEED_ACTIVE_SET k).put pg Reg.PIER_SPEED_RATE new).put pg
    Reg.PIER_SPEED_BUSY 0).exitPauses n).raise (132 + 16 * n) 0x106 INFO none 0 (detail [old % 256, old / 256, new % 256, new / 256])

section
variable {n : Fin 16} {s : State} (hrun : (s.pier n.val).freq = true)
include hrun

theorem execFreqChangeDone_eq_of_none (hnone : (List.range 16).find? (fun q => ((s.freqEnded n.val).pier q).freqQ) = none) :
    execFreqChangeDone n s = .next (s.freqEnded n.val).resumeCopies := by
  unfold State.freqEnded at hnone ⊢
  simp only [execFreqChangeDone, hrun, hnone, Bool.not_true, Bool.false_eq_true, if_false]

/-- The lowest queued change starts before the held copies go on (R70, R75). -/
theorem execFreqChangeDone_eq_of_some {q : Nat}
    (hnext : (List.range 16).find? (fun q => ((s.freqEnded n.val).pier q).freqQ) = some q) :
    execFreqChangeDone n s = .next ((s.freqEnded n.val).startFreq q).resumeCopies := by
  unfold State.freqEnded at hnext ⊢
  simp only [execFreqChangeDone, hrun, hnext, Bool.not_true, Bool.false_eq_true, if_false]

end

/-- Settles O9, command by command; a switch goes by the two lemmas on `doSwitch`, the end of a change by `freqEnded`. -/
theorem dramUpkeepComplete : Obligations.DramUpkeepComplete := by
  unfold Obligations.DramUpkeepComplete
  refine ⟨?refresh, ?mr4Poll, ?zqcalStart, ?trainPause, ?trainPauseEnd, ?adaptNsExpiry, ?switch, ?switchQueued, ?switchRefused,
    ?timingSetWrite, ?timingSetWriteActive, ?freqChangeDone, ?freqChangeDoneNext⟩
  case refresh =>
    intro n rank s s1 turn hup hpause hrank
    rw [exec_refresh_eq, execRefresh, State.refreshRank_eq_of_unpaused _ hpause]
    simp [hup, hrank, s1, turn]
  case mr4Poll =>
    intro n hot s hup
    rw [exec_mr4Poll_eq, execMr4Poll, if_pos hup]
  case zqcalStart =>
    intro n sub s hruns
    rw [exec_zqcalStart_eq, execZqcalStart, if_pos hruns]
  case trainPause =>
    intro n sub s hruns hnone hdue hzq
    rw [exec_trainPause_eq, execTrainPause]
    simp only [hruns, hnone, hdue, hzq, Bool.and_self, if_true]
  case trainPauseEnd =>
    intro n sub delays s p hpaused
    rw [exec_trainPauseEnd_eq, execTrainPauseEnd]
    simp [hpaused, State.pauseDone_zero, p]
  case adaptNsExpiry =>
    intro n bank row t0 s hrow hdue
    rw [exec_adaptNsExpiry_eq, execAdaptNsExpiry]
    simp [hrow, hdue]
  case switch =>
    intro n s hopen hidle hvalid hfew
    rw [exec_switch_eq, execSwitch, State.atPage_of_open _ hopen, State.doSwitch_eq_put_busy hidle hvalid, if_pos hfew]
  case switchQueued =>
    intro n s hopen hidle hvalid hmany
    rw [exec_switch_eq, execSwitch, State.atPage_of_open _ hopen, State.doSwitch_eq_put_busy hidle hvalid, if_neg hmany.not_gt]
  case switchRefused =>
    intro n s hopen hrefused
    rw [exec_switch_eq, execSwitch, State.atPage_of_open _ hopen, State.doSwitch_eq_put_refused hrefused]
  case timingSetWrite =>
    intro n set off v s hopen hinactive
    rw [exec_timingSetWrite_eq, execTimingSetWrite, State.atPage_of_open _ hopen, State.writeTiming, if_neg hinactive]
  case timingSetWriteActive =>
    intro n set off v s hopen hactive
    rw [exec_timingSetWrite_eq, execTimingSetWrite, State.atPage_of_open _ hopen, State.writeTiming, if_pos hactive]
  case freqChangeDone =>
    intro n s pg k old new s1 hrun hnone
    exact execFreqChangeDone_eq_of_none hrun hnone
  case freqChangeDoneNext =>
    intro n q s pg k old new s1 hrun hnext
    exact execFreqChangeDone_eq_of_some hrun hnext

end Sys2Proof.Machine

/-! Rank sparing (R71 to R76): the start of a sparing, its copy and rebuild steps and RETIRE_UNCOPIED, and the settling of
O11. -/

namespace Sys2Proof.Machine

/-! ### The arms of the sparing commands -/

section
variable (n : Fin 16) (rank : Fin 8) (b : Bursts) (s : State)

theorem exec_sparingStart_eq : exec (.sparingStart n rank) s = execSparingStart n rank s := rfl
theorem exec_spareCopyStep_eq : exec (.spareCopyStep n b) s = execSpareCopyStep n b s := rfl
theorem exec_spareRebuildStep_eq : exec (.spareRebuildStep n b) s = execSpareRebuildStep n b s := rfl
theorem exec_retireUncopied_eq : exec (.retireUncopied n) s = execRetireUncopied n s := rfl

end

/-! ### The start of a sparing -/

/-- A logical rank taken off the list of those that wait for sparing. -/
def State.unpended (s : State) (n rank : Nat) : State :=
  s.setPier n { (s.pier n) with pendRank := (s.pier n).pendRank.filter (fun x => x != rank) }

/-- The registers of a sparing that begins: the failed rank, its spare, COPYING, and LENT where another Pier lends it (R75). -/
def State.spareTaken (s : State) (n rank m : Nat) : State :=
  let pg := pgPier n
  let t := (((s.put pg Reg.PIER_SPARE_CTL_FAIL_RANK rank).put pg Reg.PIER_SPARE_CTL_SPARE_PIER m).put pg
    Reg.PIER_SPARE_CTL_SPARE_PHYS (s.fld (pgPier m) Reg.PIER_GEOM_SPARE_RANK)).put pg Reg.PIER_SPARE_CTL_STATE 1
  if m = n then t else t.put (pgPier m) Reg.PIER_SPARE_CTL_LENT 1

section
variable {s : State} {n rank : Nat} (hstate : s.fld (pgPier n) Reg.PIER_SPARE_CTL_STATE = 0)
  (hfresh : (s.unpended n rank).sparing n rank = false)
include hstate hfresh

theorem State.startSparing_eq_of_chooseSpare_some {m : Nat} (hspare : (s.unpended n rank).chooseSpare n = some m) :
    s.startSparing n rank =
      (((s.unpended n rank).spareTaken n rank m).setPier n { (((s.unpended n rank).spareTaken n rank m).pier n) with
        bound := 0, rebuild := (((s.unpended n rank).spareTaken n rank m).pier n).dead.testBit rank }).raise
          (133 + 16 * n) 0x107 WARN none 0 0 := by
  unfold State.unpended at hfresh hspare
  simp [State.startSparing, State.unpended, State.spareTaken, hstate, hfresh, hspare]

theorem State.startSparing_eq_of_chooseSpare_none (hspare : (s.unpended n rank).chooseSpare n = none) :
    s.startSparing n rank = ((s.unpended n rank).put (pgPier n) Reg.PIER_SPARE_CTL_STATE 5).exhausted n rank := by
  unfold State.unpended at hfresh hspare
  simp [State.startSparing, State.unpended, hstate, hfresh, hspare]

end

/-! ### One line copied or rebuilt -/

section
variable {s s1 t : State} {n da copy : Nat} {b : Bursts} (hready : s.copyReady da = (s1, true))
include hready

theorem State.copyLine_eq_toSpare_of_good {l : Line} (hread : s1.readLine da copy (s1.seedOf da) b none = (t, .good l)) :
    s.copyLine n da copy b = t.toSpare n da copy (dirless (s1.seedOf da) da l) := by
  simp only [State.copyLine, hready, hread]

theorem State.rebuildLine_eq_toSpare_of_none (hsources : s.sourcesRun da copy (s.seedOf da) = true)
    (hlost : s1.recompLine da copy (s.seedOf da) b.srcs = (t, none)) :
    s.rebuildLine n da copy b = t.toSpare n da copy (t.lostLine da (s.seedOf da)) := by
  simp only [State.rebuildLine, hsources, hready, hlost, Bool.not_true, Bool.false_eq_true, if_false]

end

/-! ### RETIRE_UNCOPIED -/

/-- Where no sparing is under way and no rank waits, TARGET is out of service and the one rank that waits (R76). -/
theorem State.retireUncopied_eq_of_idle {s : State} {n : Nat}
    (htarget : s.fld (pgPier n) Reg.PIER_SPARE_CTL_TARGET < (s.physRanks n).length)
    (hstate : s.fld (pgPier n) Reg.PIER_SPARE_CTL_STATE = 0) (hnone : (s.pier n).pendRank = []) :
    s.retireUncopied n =
      let t := s.fld (pgPier n) Reg.PIER_SPARE_CTL_TARGET
      let p : Pr := { (s.pier n) with dead := setBit (s.pier n).dead t }
      ((s.setPier n p).put (pgPier n) (Reg.PIER_RANK_UE_RETIRED ((s.physRanks n).getD t t)) 1).setPier n
        { p with pendRank := [t] } := by
  simp [State.retireUncopied, htarget.not_ge, hstate, hnone]

/-- Settles O11: the two starts, the copied and the lost line, and the write of RETIRE_UNCOPIED. -/
theorem sparingComplete : Obligations.SparingComplete := by
  unfold Obligations.SparingComplete
  refine ⟨?start, ?startNone, ?copyStep, ?rebuildStep, ?retireUncopied⟩
  case start =>
    intro n rank m s pg s1 phys s2 s3 heng hwaits hstate hfresh hspare
    rw [exec_sparingStart_eq, execSparingStart, heng, hwaits, State.startSparing_eq_of_chooseSpare_some hstate hfresh hspare]
    rfl
  case startNone =>
    intro n rank s s1 heng hwaits hstate hfresh hspare
    rw [exec_sparingStart_eq, execSparingStart, heng, hwaits, State.startSparing_eq_of_chooseSpare_none hstate hfresh hspare]
    rfl
  case copyStep =>
    intro n b da copy l s s1 q hruns hcopy hline hready hgood
    have hready' : s.copyReady da = (s1, true) := Prod.ext rfl hready
    have hread : s1.readLine da copy (s1.seedOf da) b none = (q.1, .good l) := Prod.ext rfl hgood
    rw [exec_spareCopyStep_eq, execSpareCopyStep]
    simp [hruns, hcopy, hline, State.copyLine_eq_toSpare_of_good hready' hread]
  case rebuildStep =>
    intro n b da copy s s1 q hruns hrebuild hline hsources hready hnone
    have hready' : s.copyReady da = (s1, true) := Prod.ext rfl hready
    have hlost : s1.recompLine da copy (s.seedOf da) b.srcs = (q.1, none) := Prod.ext rfl hnone
    rw [exec_spareRebuildStep_eq, execSpareRebuildStep]
    simp [hruns, hrebuild, hline, State.rebuildLine_eq_toSpare_of_none hready' hsources hlost]
  case retireUncopied =>
    intro n s pg t hopen htarget hstate hnone
    rw [exec_retireUncopied_eq, execRetireUncopied, State.atPage_of_open _ hopen,
      State.retireUncopied_eq_of_idle htarget hstate hnone]

end Sys2Proof.Machine

/-! The DRAM and line units of a Pier's sequencer (R58, R72, R304): a read on either plane, a write, and the operations of the
line unit, and the settling of O28. -/

namespace Sys2Proof.Machine

section
variable (q : Fin 24) (ctx : Fin 512) (flip : BitVec 640) (s : State)

theorem exec_dramRd_eq : exec (.dramRd q ctx flip) s = execDramRd q ctx flip s := rfl
theorem exec_dramRdOther_eq : exec (.dramRdOther q ctx flip) s = execDramRdOther q ctx flip s := rfl
theorem exec_dramWr_eq : exec (.dramWr q ctx) s = execDramWr q ctx s := rfl
theorem exec_liuCheck_eq : exec (.liuCheck q ctx) s = execLiuCheck q ctx s := rfl
theorem exec_liuGen_eq : exec (.liuGen q ctx) s = execLiuGen q ctx s := rfl
theorem exec_liuLogCe_eq : exec (.liuLogCe q ctx) s = execLiuLogCe q ctx s := rfl
theorem exec_liuCountUe_eq : exec (.liuCountUe q ctx) s = execLiuCountUe q ctx s := rfl

end

/-- A read of a mapped line that this Pier holds, can reach and takes at the home, with no write waiting: one burst from DRAM on
the plane asked for. -/
theorem State.unitRead_eq_of_unqueued {s s1 : State} {q ctx a k : Nat} {c c1 : JobCtx} (other : Bool) (flip : BitVec 640)
    (hmapped : (s.spanOf (c.lineDa a)).isNone = false) (hcopy : s.copyAt q (c.lineDa a) = some k)
    (hreach : s.gone (c.lineDa a) k = false) (hruns : s.copyRuns (c.lineDa a) k = true)
    (hheld : s.jobHold q ctx c (c.lineDa a) false = (s1, c1, true)) (hqueued : s1.queued (c.lineDa a) = none) :
    s.unitRead q ctx c a other flip =
      let da := c.lineDa a
      let l := if other then s1.rawLine da k (!s1.planeOf da k) else s1.dramLine da k
      .ok (s1.busAt da k .read (jobHint c1.job) (some (c1.flt da))) (({ c1 with da := da, buf := l.flip flip } : JobCtx).took 1 0) := by
  simp [State.unitRead, hmapped, hcopy, hreach, hruns, hheld, hqueued]

/-- Settles O28: the context fetches the step its command wants, and the unit performs it as the hypotheses say. -/
theorem pierUnitsComplete : Obligations.PierUnitsComplete := by
  unfold Obligations.PierUnitsComplete
  refine ⟨?dramRd, ?dramRdOther, ?dramWr, ?liuCheck, ?liuGen, ?liuLogCe, ?liuCountUe⟩
  case dramRd =>
    intro q ctx flip c w k s1 c1 s da hfetch hop hmapped hcopy hreach hruns hheld hqueued
    rw [exec_dramRd_eq, execDramRd,
      runStep_ok _ hfetch hop (State.unitRead_eq_of_unqueued false flip hmapped hcopy hreach hruns hheld hqueued)]
    rfl
  case dramRdOther =>
    intro q ctx flip c w k s1 c1 s da hfetch hop hmapped hcopy hreach hruns hheld hqueued
    rw [exec_dramRdOther_eq, execDramRdOther,
      runStep_ok _ hfetch hop (State.unitRead_eq_of_unqueued true flip hmapped hcopy hreach hruns hheld hqueued)]
    rfl
  case dramWr =>
    intro q ctx c w k s1 c1 s da s2 hfetch hop hmapped hcopy hreach hruns hheld hdrained
    rw [exec_dramWr_eq, execDramWr, runStep_ok _ hfetch hop]
    simp only [da, s2] at hmapped hcopy hreach hruns hheld hdrained
    simp [hmapped, hcopy, hreach, hruns, hheld, hdrained, s2, da]
  case liuCheck =>
    intro q ctx c w s hfetch hop
    rw [exec_liuCheck_eq, execLiuCheck, runStep_ok _ hfetch hop rfl]
  case liuGen =>
    intro q ctx c w s hfetch hop
    rw [exec_liuGen_eq, execLiuGen, runStep_ok _ hfetch hop rfl]
  case liuLogCe =>
    intro q ctx c w s hfetch hop
    rw [exec_liuLogCe_eq, execLiuLogCe, runStep_ok _ hfetch hop rfl]
  case liuCountUe =>
    intro q ctx c w m s hfetch hop hma
    rw [exec_liuCountUe_eq, execLiuCountUe, runStep_ok _ hfetch hop]
    simp only [hma]

end Sys2Proof.Machine

/-! The steps of a boot (R53, R388, R390 to R394): what each does at its own stage, and the settling of O44. -/

namespace Sys2Proof.Machine

section
variable (sfdp : Bool) (a b : Option Image) (spd : List (Option Spd)) (failed : BitVec 16) (s : State)

theorem exec_bootImageRead_eq : exec (.bootImageRead sfdp a b) s = execBootImageRead sfdp a b s := rfl
theorem exec_populationCheck_eq : exec (.populationCheck spd) s = execPopulationCheck spd s := rfl
theorem exec_dramTrainingDone_eq : exec (.dramTrainingDone failed) s = execDramTrainingDone failed s := rfl
theorem exec_metadataZeroDone_eq : exec .metadataZeroDone s = execMetadataZeroDone s := rfl
theorem exec_poolAllocation_eq : exec .poolAllocation s = execPoolAllocation s := rfl

end

/-- Settles O44, stage by stage. -/
theorem bootComplete : Obligations.BootComplete := by
  unfold Obligations.BootComplete
  refine ⟨?image, ?noImage, ?noFlash, ?populationCheck, ?dramTrainingDone, ?metadataZeroDone, ?poolAllocation⟩
  case image =>
    intro a b slot second i s hstage hrails hchosen
    rw [exec_bootImageRead_eq, execBootImageRead]
    simp [hstage, hrails, hchosen]
  case noImage =>
    intro a b s hstage hrails hnone
    rw [exec_bootImageRead_eq, execBootImageRead]
    simp [hstage, hrails, hnone]
  case noFlash =>
    intro a b s hstage hrails
    rw [exec_bootImageRead_eq, execBootImageRead]
    simp [hstage, hrails]
  case populationCheck =>
    intro spd i s hlen hstage himg
    rw [exec_populationCheck_eq, execPopulationCheck]
    simp [spdLenOk, hlen, hstage, himg]
  case dramTrainingDone =>
    intro failed s hstage
    rw [exec_dramTrainingDone_eq, execDramTrainingDone]
    simp [hstage]
  case metadataZeroDone =>
    intro s hstage
    rw [exec_metadataZeroDone_eq, execMetadataZeroDone]
    simp [hstage]
  case poolAllocation =>
    intro s hstage
    rw [exec_poolAllocation_eq, execPoolAllocation]
    simp [hstage]

end Sys2Proof.Machine

/-! Requests held or waiting beyond their limit (R93 to R96, R225, R255): when the time a write was first held is long enough
ago, and the settling of O3. -/

namespace Sys2Proof.Machine

section
variable (id : BitVec 32) (b : Bursts) (s : State)

theorem exec_moveHoldExpired_eq : exec (.moveHoldExpired id b) s = execMoveHoldExpired id b s := rfl
theorem exec_writeHeldDropped_eq : exec (.writeHeldDropped id) s = execWriteHeldDropped id s := rfl
theorem exec_allocTimeout_eq : exec (.allocTimeout id) s = execAllocTimeout id s := rfl
theorem exec_viNotActive_eq : exec (.viNotActive id) s = execViNotActive id s := rfl
theorem exec_reqTimeout_eq : exec (.reqTimeout id) s = execReqTimeout id s := rfl

end

theorem State.heldFor_eq_true_iff {s : State} {r : Req} {f : Nat} (ns : Nat) (hfirst : r.firstHeld = some f) :
    s.heldFor r ns = true ↔ f + ns ≤ s.time := by
  simp [State.heldFor, hfirst]

/-- Settles O3, command by command; the limits of the held writes are counted by `State.heldFor_eq_true_iff`. -/
theorem heldWritesComplete : Obligations.HeldWritesComplete := by
  unfold Obligations.HeldWritesComplete
  refine ⟨?moveHoldExpired, ?writeHeldDropped, ?allocTimeout, ?viNotActive, ?reqTimeout⟩
  case moveHoldExpired =>
    intro id b r f s hreq hphase hfirst hdue
    rw [← State.heldFor_eq_true_iff 4000 hfirst] at hdue
    rw [exec_moveHoldExpired_eq, execMoveHoldExpired]
    simp [hreq, hphase, hdue]
  case writeHeldDropped =>
    intro id r f s hreq hphase hfirst hdue
    rw [← State.heldFor_eq_true_iff 2000000 hfirst] at hdue
    rw [exec_writeHeldDropped_eq, execWriteHeldDropped]
    simp [hreq, hphase, hdue]
  case allocTimeout =>
    intro id r f s hreq hphase hfirst hdue
    rw [← State.heldFor_eq_true_iff 1000000 hfirst] at hdue
    rw [exec_allocTimeout_eq, execAllocTimeout]
    simp [hreq, hphase, hdue]
  case viNotActive =>
    intro id r s hreq hphase hdue
    rw [exec_viNotActive_eq, execViNotActive]
    simp [hreq, hphase, hdue]
  case reqTimeout =>
    intro id r s hreq hhost hwaits howned hdue
    rw [exec_reqTimeout_eq, execReqTimeout]
    simp [hreq, hhost, hwaits, howned, hdue]

end Sys2Proof.Machine

/-! Walks and invalidations (R84, R86, R91, R98, R99): a walk's step by what its table entry is, an engine's
compare-and-write, the start and the end of an invalidation, and the settling of O4. -/

namespace Sys2Proof.Machine

section
variable (id : BitVec 32) (p : Fin 8) (eng : Fin 64) (da : BitVec 48) (old new : BitVec 64) (b : Bursts) (s : State)

theorem exec_walk_eq : exec (.walk id b) s = execWalk id b s := rfl
theorem exec_compareAndWrite_eq : exec (.compareAndWrite eng da old new b) s = execCompareAndWrite eng da old new b s := rfl
theorem exec_portTlbInv_eq : exec (.portTlbInv p) s = execPortTlbInv p s := rfl
theorem exec_portWalkInv_eq : exec (.portWalkInv p) s = execPortWalkInv p s := rfl
theorem exec_invalidationDone_eq : exec (.invalidationDone p) s = execInvalidationDone p s := rfl

end

/-! ### One step of a walk -/

/-- The DA of the table entry that a walk reads next (R84). -/
def Walk.entryDa (w : Walk) : Nat := w.tbl + 8 * viaIndex w.via w.lvl

/-- That entry in the line it stands in. -/
def Walk.entry (w : Walk) (d : BitVec 512) : Nat := lineEntry d (w.entryDa / 8 % 8)

theorem Walk.tbl_add_eq_entryDa (w : Walk) : w.tbl + 8 * viaIndex w.via w.lvl = w.entryDa := rfl
theorem Walk.lineEntry_eq_entry (w : Walk) (d : BitVec 512) : lineEntry d (w.entryDa / 8 % 8) = w.entry d := rfl

/-- A walk that has read its line. -/
def Walk.atLine (w : Walk) : Walk := { w with lineDa := 64 * (w.entryDa / 64) }

/-- A walk one level down, at the table its entry names, with that table on its path for the walk cache. -/
def Walk.down (w : Walk) (e : Nat) : Walk :=
  { w.atLine with lvl := w.lvl - 1, tbl := 4096 * leafAddr e, path := (w.lvl, 4096 * leafAddr e) :: w.path }

/-- The state after a walk has read a table line, the read counted on its port. -/
def State.tableRead (s : State) (w : Walk) (b : Bursts) : State :=
  (s.metaRead w.entryDa b).1.telPort w.port 0x12 1 (some ⟨0, some w.port, some w.vi, (s.vi w.vi).cls, some w.entryDa⟩)

section
variable {s t : State} {w : Walk} {b : Bursts} {d : BitVec 512} (id : Nat) (hpool : (s.vi w.vi).inPool w.tbl = true)
  (hread : s.metaRead w.entryDa b = (t, .ok d))
include hpool hread

/-- NOT_PRESENT (R86): the words of O4 name this fault, while none of its clauses does. -/
theorem State.walkStep_eq_walkFault_of_absent (habsent : leafV (w.entry d) = false) :
    s.walkStep id w b = (s.tableRead w b).walkFault id w.atLine 0x200 WARN := by
  simp [State.walkStep, State.tableRead, Walk.atLine, Walk.tbl_add_eq_entryDa, Walk.lineEntry_eq_entry, hpool, hread, habsent]

theorem State.walkStep_eq_down_of_table (hvalid : leafV (w.entry d) = true) (htable : leafL (w.entry d) = false)
    (hlvl : 1 < w.lvl) :
    s.walkStep id w b =
      { s.tableRead w b with walks := SMap.put (s.tableRead w b).walks id (w.down (w.entry d)) } := by
  simp [State.walkStep, State.tableRead, Walk.down, Walk.atLine, Walk.tbl_add_eq_entryDa, Walk.lineEntry_eq_entry, hpool, hread,
    hvalid, htable, hlvl]

theorem State.walkStep_eq_walkDone_of_leaf (hvalid : leafV (w.entry d) = true)
    (hleaf : w.lvl = 1 ∨ leafL (w.entry d) = true)
    (hchecked : (s.tableRead w b).leafFault (w.entry d) w.lvl w.via = none) :
    s.walkStep id w b = (s.tableRead w b).walkDone id w.atLine w.entryDa (w.entry d) := by
  have hlast : ¬ (1 < w.lvl ∧ leafL (w.entry d) = false) := by
    rcases hleaf with hlvl | hL
    · omega
    · simp [hL]
  simp only [State.tableRead, hread] at hchecked
  simp [State.walkStep, State.tableRead, Walk.atLine, Walk.tbl_add_eq_entryDa, Walk.lineEntry_eq_entry, hpool, hread,
    hvalid, hlast, hchecked]

end

/-! ### An engine's compare-and-write -/

theorem execCompareAndWrite_eq_of_metadata {eng : Fin 64} {da : BitVec 48} {s : State} (old new : BitVec 64) (b : Bursts)
    (hruns : (s.eng eng.val).running = true) (hkind : s.daKind da.toNat = .metadata)
    (hfree : s.lineFree (da.toNat / 64) = true) (hready : s.metaReady da.toNat = true) :
    execCompareAndWrite eng da old new b s =
      .next ((s.casEntry (8 * (da.toNat / 8)) old.toNat new.toNat b).1.emit
        (.cas eng.val (s.casEntry (8 * (da.toNat / 8)) old.toNat new.toNat b).2)) := by
  simp [execCompareAndWrite, hruns, hkind, hfree, hready]

/-! ### Invalidations -/

/-- The invalidation that the registers of a port describe (R98). -/
def State.invAsked (s : State) (k : Nat) (tlb : Bool) : Inval :=
  let pg := pgPort k
  ⟨tlb, s.fld pg Reg.PORT_INV_SCOPE_VI_TAG, s.fld pg Reg.PORT_INV_SCOPE_SCOPE, s.fld pg Reg.PORT_INV_SCOPE_COUNT,
    s.fld pg Reg.PORT_INV_VIA_VIA⟩

section
variable {s : State} {k : Nat} {tlb : Bool} (hidle : (s.prt k).inv = none)
include hidle

/-- A page range of no pages is the only scope of a TLB invalidation that is over at once. -/
theorem State.invGo_eq_invApply (hscope : (s.invAsked k tlb).scope ≠ 3)
    (hpages : tlb = true → (s.invAsked k tlb).scope = 0 → (s.invAsked k tlb).count ≠ 0) :
    s.invGo k tlb = (s.invApply k (s.invAsked k tlb)).put (pgPort k) Reg.PORT_INV_STAT_BUSY 1 := by
  unfold State.invAsked at *
  simp only [State.invGo, hidle]
  rw [if_neg (by simpa using hscope), if_neg (fun ⟨htlb, hzero, hnone⟩ => hpages htlb hzero hnone)]

theorem State.invGo_eq_invCount_of_empty (hscope : s.fld (pgPort k) Reg.PORT_INV_SCOPE_SCOPE = 0)
    (hcount : s.fld (pgPort k) Reg.PORT_INV_SCOPE_COUNT = 0) : s.invGo k true = s.invCount k := by
  simp [State.invGo, hidle, hscope, hcount]

end

theorem regKey_inv_done_ne_busy (pg : Nat) : regKey pg Reg.PORT_INV_STAT_DONE ≠ regKey pg Reg.PORT_INV_STAT_BUSY := by
  simp [regKey, Reg.PORT_INV_STAT_DONE, Reg.PORT_INV_STAT_BUSY]

/-- With no stale walk and no chained request of the scope left, BUSY clears and DONE rises by one (R99). -/
theorem State.invDone_eq_of_ended {s : State} {k : Nat} {i : Inval} (hinv : (s.prt k).inv = some i)
    (hwalks : s.walks.any (fun x => x.2.port == k && x.2.stale) = false)
    (hchained : (i.tlb && s.reqs.any (fun x => x.2.port == k && x.2.phase == .chained && i.hits x.2.vi (x.2.via / 4096) x.2.lvl))
      = false) :
    s.invDone k =
      ((((s.setPrt k { (s.prt k) with inv := none }).put (pgPort k) Reg.PORT_INV_STAT_BUSY 0).put (pgPort k)
        Reg.PORT_INV_STAT_DONE (s.fld (pgPort k) Reg.PORT_INV_STAT_DONE + 1)).releaseHeld k
          (fun r => i.hits r.vi (r.via / 4096) r.lvl)).settle k := by
  simp only [State.invDone, hinv, hwalks, hchained, Bool.or_self, Bool.false_eq_true, if_false]
  rw [State.invFinish, State.invCount, State.fld_put_other _ _ (regKey_inv_done_ne_busy _), State.setPrt_fld]

/-- Settles O4: the two ends of a walk's step, the compare-and-write, and the start and the end of an invalidation. -/
theorem translationComplete : Obligations.TranslationComplete := by
  unfold Obligations.TranslationComplete
  refine ⟨?walkDown, ?walkLeaf, ?compareAndWrite, ?portTlbInv, ?portTlbInvEmpty, ?portWalkInv, ?invalidationDone⟩
  case walkDown =>
    intro id b w d s da e s1 w1 hwalk hpool hread hvalid htable hlvl
    rw [exec_walk_eq, execWalk, hwalk]
    exact congrArg _ (State.walkStep_eq_down_of_table _ hpool (Prod.ext rfl hread) hvalid htable hlvl)
  case walkLeaf =>
    intro id b w d s da e hwalk hpool hread hvalid hleaf hchecked
    rw [exec_walk_eq, execWalk, hwalk]
    exact congrArg _ (State.walkStep_eq_walkDone_of_leaf _ hpool (Prod.ext rfl hread) hvalid hleaf hchecked)
  case compareAndWrite =>
    intro eng da old new b s hruns hkind hfree hready
    rw [exec_compareAndWrite_eq, execCompareAndWrite_eq_of_metadata _ _ _ hruns hkind hfree hready]
  case portTlbInv =>
    intro p s pg i hopen hidle hscope hpages
    rw [exec_portTlbInv_eq, execPortTlbInv, State.atPage_of_open _ hopen, State.invGo_eq_invApply hidle hscope (fun _ => hpages)]
    rfl
  case portTlbInvEmpty =>
    intro p s pg hopen hidle hscope hcount
    rw [exec_portTlbInv_eq, execPortTlbInv, State.atPage_of_open _ hopen, State.invGo_eq_invCount_of_empty hidle hscope hcount]
    rfl
  case portWalkInv =>
    intro p s pg i hopen hidle hscope
    rw [exec_portWalkInv_eq, execPortWalkInv, State.atPage_of_open _ hopen,
      State.invGo_eq_invApply hidle hscope (fun htlb => absurd htlb Bool.false_ne_true)]
    rfl
  case invalidationDone =>
    intro p i s hinv hwalks hchained
    rw [exec_invalidationDone_eq, execInvalidationDone, State.invDone_eq_of_ended hinv hwalks hchained]

end Sys2Proof.Machine

/-! Heat and the pressure ladder (R113, R127, R128): what the engines' periodic work does when it is due, and the settling of
O12. -/

namespace Sys2Proof.Machine

section
variable (s : State)

theorem exec_heatUpdate_eq : exec .heatUpdate s = execHeatUpdate s := rfl
theorem exec_heatDecay_eq : exec .heatDecay s = execHeatDecay s := rfl
theorem exec_pressureLadder_eq : exec .pressureLadder s = execPressureLadder s := rfl

end

/-- Settles O12: heat is folded and decayed at its due time, and the ladder is evaluated whenever the engines work. -/
theorem heatAndLadderComplete : Obligations.HeatAndLadderComplete := by
  unfold Obligations.HeatAndLadderComplete
  refine ⟨?heatUpdate, ?heatDecay, ?pressureLadder⟩
  case heatUpdate =>
    intro s hon hdue
    rw [exec_heatUpdate_eq, execHeatUpdate]
    simp [hon, hdue]
  case heatDecay =>
    intro s hon hdue
    rw [exec_heatDecay_eq, execHeatDecay]
    simp [hon, hdue]
  case pressureLadder =>
    intro s hon
    rw [exec_pressureLadder_eq, execPressureLadder, if_pos hon]

end Sys2Proof.Machine

/-! Pages placed and moved (R108, R117, R118, R120, R130): the start of a move by its compare-and-write, the end of a copy by
what was read and written, the two ways a logged move is resolved, and the settling of O13. -/

namespace Sys2Proof.Machine

section
variable (id : BitVec 32) (place : Place) (eng : Fin 64) (vi : BitVec 16) (page : BitVec 45) (bs : List Bursts)
  (streams : List (List (BitVec 8))) (s : State)

theorem exec_pageAllocate_eq : exec (.pageAllocate id place) s = execPageAllocate id place s := rfl
theorem exec_moveStart_eq : exec (.moveStart eng vi page place) s = execMoveStart eng vi page place s := rfl
theorem exec_moveCopyDone_eq : exec (.moveCopyDone vi page bs streams) s = execMoveCopyDone vi page bs streams s := rfl
theorem exec_moveFinish_eq : exec (.moveFinish vi page) s = execMoveFinish vi page s := rfl
theorem exec_moveLogResolve_eq : exec (.moveLogResolve vi page) s = execMoveLogResolve vi page s := rfl

end

/-! ### The start of a move -/

/-- A move entered in the log, before M is set (R120). -/
def State.logMove (s : State) (m : MoveLog) : State := { s with moves := m :: s.moves }

section
variable {eng : Fin 64} {vi : BitVec 16} {page : BitVec 45} {dest : Place} {da e : Nat} {s t : State}

/-- A move that may start, from the leaf it finds: the destination is claimed once M is set (R117). -/
theorem execMoveStart_eq_of_marked (hon : s.engNew = true) (hurg : s.urg3 = false) (hvi : (s.vi vi.toNat).movable = true)
    (hnew : s.moveOf vi.toNat page.toNat = none) (hpace : s.moveAt ≤ s.time) (hdest : s.moveDest vi.toNat dest = true)
    (hplace : s.placeReady dest = true) (hleaf : s.findLeaf vi.toNat (4096 * page.toNat) = some (da, 1, e))
    (hvalid : leafV e = true) (hfree : leafM e = false) (hbacked : leafTier e ≠ 3) (hready : s.metaReady da = true)
    (hwanted : s.moveWanted e page.toNat (s.placeTier dest) = true ∨ s.evacuates e page.toNat = true)
    (hmarked : (s.logMove ⟨vi.toNat, page.toNat, e, dest, eng.val, 1, false⟩).casEntry da e (e + 2) {} = (t, true)) :
    execMoveStart eng vi page dest s =
      .next (((t.claim vi.toNat dest).moveCharge 4096).invalidate vi.toNat page.toNat 1 false) := by
  rw [← Bool.or_eq_true] at hwanted
  rw [State.logMove] at hmarked
  rw [execMoveStart, if_neg (by simp [hon, hurg, hvi, hnew, hpace, hdest, hplace])]
  simp only [hleaf]
  rw [if_neg (by simp [hvalid, hfree, hbacked, hready, hwanted]), hmarked]

end

/-! ### The end of a copy -/

section
variable {vi : BitVec 16} {page : BitVec 45} {m : MoveLog} {s : State} (hlog : s.moveOf vi.toNat page.toNat = some m)
include hlog

/-- A copy whose page was recalled, read and written names its destination, but for one in an open stripe (R155). -/
theorem execMoveCopyDone_eq_of_copied {bs : List Bursts} {streams : List (List (BitVec 8))} {ls : List (BitVec 512 × Bool)}
    {s0 s1 s2 : State} (hstage : m.stage = 1) (hsuspect : m.suspect = false) (hurg : s.urg3 = false)
    (hready : s.moveReady m = true) (hon : s.engOn = true) (hquiet : s.pageQuiet m.e0 m.page = true)
    (hruns : s.moveRuns m = true) (hrecalled : s.recallPage m.vi m.e0 m.page = (s0, true))
    (hread : s0.readPageAt m.vi m.e0 m.page bs = (s1, some ls))
    (hwritten : s1.writePlace m.vi m.dest ls (streams.map nats) = some s2) (hclosed : s2.destOpen m = false) :
    execMoveCopyDone vi page bs streams s = .next (s2.nameDest m).release := by
  simp [execMoveCopyDone, hlog, hstage, hsuspect, hurg, hready, hon, hquiet, hruns, hrecalled, hread, hwritten, hclosed]

/-! ### The end of a move -/

theorem execMoveFinish_eq_of_quiet (hstage : m.stage = 3) (hon : s.engOn = true) (hsuspect : m.suspect = false)
    (hplace : s.leafPlaceReady m.e0 = true) (hquiet : s.pageQuiet m.e0 m.page = true) :
    execMoveFinish vi page s = .next ((s.freeLeaf m.vi m.e0 (4096 * m.page)).clearMove m.vi m.page).ladderCross := by
  simp [execMoveFinish, hlog, hstage, hon, hsuspect, hplace, hquiet]

end

/-! ### An interrupted move -/

/-- M of the leaf of an interrupted move cleared, where the leaf still names the source with M set (R120). -/
def State.unmark (s : State) (m : MoveLog) (da e : Nat) : State :=
  if leafM e && !leafChanged e m.e0 then (s.casEntry da e (e - 2) {}).1 else s

theorem State.unmark_eq_self_of_unmarked {s : State} {m : MoveLog} {e : Nat} (da : Nat) (hM : leafM e = false) :
    s.unmark m da e = s := by
  simp [State.unmark, hM]

section
variable {vi : BitVec 16} {page : BitVec 45} {m : MoveLog} {da lvl e : Nat} {s : State}
variable (hlog : s.moveOf vi.toNat page.toNat = some m) (hon : s.engOn = true) (hsuspect : m.suspect = true)
  (hready : s.moveReady m = true) (hleaf : s.findLeaf m.vi (4096 * m.page) = some (da, lvl, e))
include hlog hon hsuspect hready hleaf

theorem execMoveLogResolve_eq_of_namesDest (hnames : s.namesDest m e = true) (hquiet : s.pageQuiet m.e0 m.page = true)
    (hplace : s.leafPlaceReady m.e0 = true) :
    execMoveLogResolve vi page s =
      .next (((s.invalidate m.vi m.page 1 false).freeLeaf m.vi m.e0 (4096 * m.page)).clearMove m.vi m.page).ladderCross := by
  simp [execMoveLogResolve, hlog, hon, hsuspect, hready, hleaf, hnames, hquiet, hplace]

/-- Any other leaf gives the destination back; this covers the leaf that names the source with M set, of which O13's words
speak while its clause asks M = 0. -/
theorem execMoveLogResolve_eq_of_not_namesDest (hnames : s.namesDest m e = false) :
    execMoveLogResolve vi page s =
      .next ((((s.unmark m da e).invalidate m.vi m.page 1 false).unclaim m.vi m.dest).clearMove m.vi m.page) := by
  simp only [execMoveLogResolve, State.unmark, hlog, hon, hsuspect, hready, hleaf, hnames, Bool.not_true, Bool.or_self,
    Bool.false_eq_true, if_false]

end

/-- Settles O13, command by command; an interrupted move goes by whether its leaf names the destination. -/
theorem pageMovesComplete : Obligations.PageMovesComplete := by
  unfold Obligations.PageMovesComplete
  refine ⟨?pageAllocate, ?moveStart, ?moveCopyDone, ?moveFinish, ?resolveDone, ?resolveUndone⟩
  case pageAllocate =>
    intro id place r da lvl e s hreq hphase hon hleaf hvalid htier hM hplace
    rw [exec_pageAllocate_eq, execPageAllocate]
    simp [hreq, hphase, hon, hleaf, hvalid, htier, hM, hplace]
  case moveStart =>
    intro eng vi page dest da e s s1 hon hurg hvi hnew hpace hdest hplace hleaf hvalid hfree hbacked hready hwanted hmarked
    rw [exec_moveStart_eq]
    exact execMoveStart_eq_of_marked hon hurg hvi hnew hpace hdest hplace hleaf hvalid hfree hbacked hready hwanted
      (Prod.ext rfl hmarked)
  case moveCopyDone =>
    intro vi page bs streams m ls s2 s s0 q hlog hstage hsuspect hurg hready hon hquiet hruns hrecalled hread hwritten hclosed
    rw [exec_moveCopyDone_eq]
    exact execMoveCopyDone_eq_of_copied hlog hstage hsuspect hurg hready hon hquiet hruns (Prod.ext rfl hrecalled)
      (Prod.ext rfl hread) hwritten hclosed
  case moveFinish =>
    intro vi page m s hlog hstage hon hsuspect hplace hquiet
    rw [exec_moveFinish_eq, execMoveFinish_eq_of_quiet hlog hstage hon hsuspect hplace hquiet]
  case resolveDone =>
    intro vi page m da lvl e s hlog hon hsuspect hready hquiet hplace hleaf hnames
    rw [exec_moveLogResolve_eq, execMoveLogResolve_eq_of_namesDest hlog hon hsuspect hready hleaf hnames hquiet hplace]
  case resolveUndone =>
    intro vi page m da lvl e s hlog hon hsuspect hready hleaf hnames hM
    rw [exec_moveLogResolve_eq, execMoveLogResolve_eq_of_not_namesDest hlog hon hsuspect hready hleaf hnames,
      State.unmark_eq_self_of_unmarked da hM]

end Sys2Proof.Machine

/-! The cipher, codec and allocation units of the sequencers (R136, R138, R147, R166, R170, R171, R304): each of their commands
is one step of its context, and the settling of O29. -/

namespace Sys2Proof.Machine

section
variable (q : Fin 24) (ctx : Fin 512) (stream : List (BitVec 8)) (s : State)

theorem exec_cipherKeystream_eq : exec (.cipherKeystream q ctx) s = execCipherKeystream q ctx s := rfl
theorem exec_cipherXor_eq : exec (.cipherXor q ctx) s = execCipherXor q ctx s := rfl
theorem exec_tagCheck_eq : exec (.tagCheck q ctx) s = execTagCheck q ctx s := rfl
theorem exec_tagGen_eq : exec (.tagGen q ctx) s = execTagGen q ctx s := rfl
theorem exec_inflate_eq : exec (.inflate q ctx) s = execInflate q ctx s := rfl
theorem exec_deflate_eq : exec (.deflate q ctx stream) s = execDeflate q ctx stream s := rfl
theorem exec_verify_eq : exec (.verify q ctx) s = execVerify q ctx s := rfl
theorem exec_allocPlace_eq : exec (.allocPlace q ctx) s = execAllocPlace q ctx s := rfl
theorem exec_allocClose_eq : exec (.allocClose q ctx) s = execAllocClose q ctx s := rfl

end

/-- Settles O29: the context fetches the step its command wants, and the unit performs it as the hypotheses say. -/
theorem cipherAndCodecUnitsComplete : Obligations.CipherAndCodecUnitsComplete := by
  unfold Obligations.CipherAndCodecUnitsComplete
  refine ⟨?cipherKeystream, ?cipherXor, ?tagCheck, ?tagGen, ?inflate, ?inflateReject, ?deflate, ?verify, ?allocPlace,
    ?allocClose⟩
  case cipherKeystream =>
    intro q ctx c w k ma mi s hfetch hop hctr
    rw [exec_cipherKeystream_eq, execCipherKeystream, runStep_ok _ hfetch hop]
    simp only [hctr]
  case cipherXor =>
    intro q ctx c w s hfetch hop
    rw [exec_cipherXor_eq, execCipherXor, runStep_ok _ hfetch hop rfl]
  case tagCheck =>
    intro q ctx c w k ma mi s hfetch hop hctr
    rw [exec_tagCheck_eq, execTagCheck, runStep_ok _ hfetch hop]
    simp only [hctr]
  case tagGen =>
    intro q ctx c w k ma mi s hfetch hop hctr hmode
    rw [exec_tagGen_eq, execTagGen, runStep_ok _ hfetch hop]
    simp only [hctr, hmode, if_true]
  case inflate =>
    intro q ctx c w o n s hfetch hop hdecoded hlen
    rw [exec_inflate_eq, execInflate, runStep_ok _ hfetch hop]
    simp only [hdecoded, hlen, if_true]
  case inflateReject =>
    intro q ctx c w s hfetch hop hrejected
    rw [exec_inflate_eq, execInflate, runStep_ok _ hfetch hop]
    simp only [hrejected]
  case deflate =>
    intro q ctx stream c w s hfetch hop hemitted
    rw [exec_deflate_eq, execDeflate, runStep_ok _ hfetch hop]
    simp only [hemitted, Bool.not_true, Bool.false_eq_true, if_false]
  case verify =>
    intro q ctx c w o n s hfetch hop hdecoded
    rw [exec_verify_eq, execVerify, runStep_ok _ hfetch hop]
    simp only [hdecoded]
  case allocPlace =>
    intro q ctx c w t sector s hfetch hop hplaced
    rw [exec_allocPlace_eq, execAllocPlace, runStep_ok _ hfetch hop]
    simp only [hplaced]
  case allocClose =>
    intro q ctx c w o s hfetch hop hopen
    rw [exec_allocClose_eq, execAllocClose, runStep_ok _ hfetch hop]
    simp only [hopen]

end Sys2Proof.Machine

/-! Requests to packed pages (R136, R143, R151, R152): what each step of a T2 read and a T2 write answers once its descriptor is
read, and the settling of O7. -/

namespace Sys2Proof.Machine

section
variable (id : BitVec 32) (b : Bursts) (copy : Bool) (d : BitVec 40) (sb : Fin 4) (bs : List Bursts)
  (stream : List (BitVec 8)) (s : State)

theorem exec_t2LineRead_eq : exec (.t2LineRead id b) s = execT2LineRead id b s := rfl
theorem exec_subblockDecode_eq : exec (.subblockDecode id bs) s = execSubblockDecode id bs s := rfl
theorem exec_t2Write_eq : exec (.t2Write id copy) s = execT2Write id copy s := rfl
theorem exec_subblockRewrite_eq : exec (.subblockRewrite d sb bs stream) s = execSubblockRewrite d sb bs stream s := rfl

end

/-! ### A T2 read -/

/-- A checked record that holds data, with no write waiting over it, sends the read on to its sub-block (R143). -/
theorem State.t2Resolve_eq_sub_of_stored {s s1 : State} {r : Req} {b : Bursts} {d : BitVec 512} (id : Nat)
    (hread : s.descRead r.da b = (s1, .ok d)) (hcheck : s1.descCheck d.toNat r.vi = .ok)
    (hclean : s1.wbufEnt r.da r.sub = none) (hstored : (descRec d.toNat r.sub).len ≠ 0) :
    s.t2Resolve id r b = (s1.sample (s1.descPier r.da) r).setReq id { r with phase := .t2sub } := by
  simp [State.t2Resolve, hread, hcheck, hclean, hstored]

/-- A decoded line of a sub-block with no write waiting over it answers the read (R136). -/
theorem execSubblockDecode_eq_deliver_of_lines {id : BitVec 32} {bs : List Bursts} {r : Req} {d : BitVec 512}
    {ls : List (BitVec 512 × Bool)} {s s1 s2 : State} (hreq : s.req? id.toNat = some r) (hphase : r.phase = .t2sub)
    (hread : s.descRead r.da {} = (s1, .ok d))
    (hopen : (descRec d.toNat r.sub).raw = true ∨ s1.codecOpen (s1.recPier (descRec d.toNat r.sub)) = true)
    (hlines : s1.recLine r.vi r.lds (descRec d.toNat r.sub) r.subLine bs = (s2, .lines ls))
    (hclean : s2.wbufEnt r.da r.sub = none) :
    execSubblockDecode id bs s =
      .next ((s2.deliver id.toNat r ((wbufOver ls []).getD r.subLine (0, false)).1
        ((wbufOver ls []).getD r.subLine (0, false)).2).settle r.port) := by
  have hruns : ¬ (!(descRec d.toNat r.sub).raw && !s1.codecOpen (s1.recPier (descRec d.toNat r.sub))) = true := by
    rcases hopen with hraw | hcodec
    · simp [hraw]
    · simp [hcodec]
  rw [execSubblockDecode]
  simp only [hreq, hphase, hread, bne_self_eq_false, Bool.false_eq_true, if_false]
  rw [if_neg hruns]
  simp only [hlines, hclean]

/-! ### A T2 write -/

/-- The acceptance of a write at the copy Pier (`copy`) or at the descriptor Pier noted in its request (R151). -/
def Req.acceptedAt (r : Req) (copy : Bool) : Req := if copy then { r with accM := true } else { r with accP := true }

/-- A checked write is accepted once the other of the descriptor Pier and its copy has it already (R151). -/
theorem execT2Write_eq_t2Accept_of_both {id : BitVec 32} {copy : Bool} {r : Req} {d : BitVec 512} {s s1 : State}
    (hreq : s.req? id.toNat = some r) (hphase : r.phase = .t2write) (horg : r.org ≠ .home)
    (hread : s.descRead r.da {} = (s1, .ok d)) (hcheck : s1.descCheck d.toNat r.vi = .ok)
    (hroom : copy = true ∨ s1.wbufRoom r.da r.sub = true) (hother : if copy then r.accP = true else r.accM = true) :
    execT2Write id copy s = .next ((s1.t2Accept id.toNat (r.acceptedAt copy)).settle r.port) := by
  rw [execT2Write]
  simp only [hreq, hphase, hread, horg, hcheck, bne_self_eq_false, Bool.false_eq_true, if_false]
  cases copy with
  | true =>
    have hprim : r.accP = true := hother
    simp [Req.acceptedAt, hprim, hphase]
  | false =>
    have hmirror : r.accM = true := hother
    have hprimRoom : s1.wbufRoom r.da r.sub = true := hroom.resolve_left Bool.false_ne_true
    simp [Req.acceptedAt, hmirror, hprimRoom, hphase]

/-! ### A rewrite -/

/-- A rewrite under a checked descriptor goes over the lines the sub-block held. The model goes through `readSub` in every
case: the words of O7 name a rewrite that makes no read, while none of its clauses does. -/
theorem execSubblockRewrite_eq_rewriteSub_of_lines {d : BitVec 40} {sb : Fin 4} {bs : List Bursts} {w : WBuf} {x : BitVec 512}
    {ls : List (BitVec 512 × Bool)} {s s1 s2 : State} (stream : List (BitVec 8)) (hent : s.wbufEnt d.toNat sb.val = some w)
    (hread : s.descRead d.toNat {} = (s1, .ok x)) (hcheck : s1.descCheck x.toNat (descVi x.toNat) = .ok)
    (hready : s1.descReady d.toNat = true) (hopen : s1.codecOpen (s1.descPier d.toNat) = true)
    (hlines : s1.readSub (descVi x.toNat) (descRec x.toNat sb.val) bs = (s2, .lines ls)) :
    execSubblockRewrite d sb bs stream s =
      .next ((s2.rewriteSub w x.toNat (some ls) (bs.drop 16) (nats stream)).release) := by
  simp only [execSubblockRewrite, hent, hread, hcheck, hready, hopen, hlines, bne_self_eq_false, Bool.not_true, Bool.or_self,
    Bool.false_eq_true, if_false]

/-- Settles O7: the two steps of a read, the acceptance of a write by the second of its Piers, and a rewrite. -/
theorem packedRequestsComplete : Obligations.PackedRequestsComplete := by
  unfold Obligations.PackedRequestsComplete
  refine ⟨?t2LineRead, ?subblockDecode, ?t2Write, ?subblockRewrite⟩
  case t2LineRead =>
    intro id b r d s s1 hreq hphase hclean hread hcheck hstored
    rw [exec_t2LineRead_eq, execT2LineRead]
    simp only [hreq, hphase, BEq.rfl, if_true]
    rw [State.t2Resolve_eq_sub_of_stored _ (Prod.ext rfl hread) hcheck hclean hstored]
  case subblockDecode =>
    intro id bs r d ls s s1 hreq hphase hread hopen hlines hclean
    rw [exec_subblockDecode_eq]
    exact execSubblockDecode_eq_deliver_of_lines hreq hphase (Prod.ext rfl hread) hopen (Prod.ext rfl hlines) hclean
  case t2Write =>
    intro id copy r d s s1 hreq hphase horg hread hcheck hroom hprim hmirror
    have hother : if copy then r.accP = true else r.accM = true := by
      cases copy with
      | true => exact hprim rfl
      | false => exact hmirror rfl
    rw [exec_t2Write_eq]
    exact execT2Write_eq_t2Accept_of_both hreq hphase horg (Prod.ext rfl hread) hcheck hroom hother
  case subblockRewrite =>
    intro d sb bs stream w x ls s s1 s2 hent hread hcheck hready hopen hlines
    rw [exec_subblockRewrite_eq]
    exact execSubblockRewrite_eq_rewriteSub_of_lines stream hent (Prod.ext rfl hread) hcheck hready hopen (Prod.ext rfl hlines)

end Sys2Proof.Machine

/-! Stripes of the packed store (R147, R154, R155, R159): how they close, are written, queued and cleaned, and the settling of
O8. -/

namespace Sys2Proof.Machine

section
variable (n : Fin 16) (k v : BitVec 32) (d : BitVec 40) (sb : Fin 4) (bs : List Bursts) (s : State)

theorem exec_stripeClose_eq : exec (.stripeClose n k) s = execStripeClose n k s := rfl
theorem exec_stripeWritten_eq : exec (.stripeWritten k) s = execStripeWritten k s := rfl
theorem exec_pierPsPush_eq : exec (.pierPsPush n v) s = execPierPsPush n v s := rfl
theorem exec_gcSelect_eq : exec (.gcSelect k) s = execGcSelect k s := rfl
theorem exec_relocation_eq : exec (.relocation d sb bs) s = execRelocation d sb bs s := rfl
theorem exec_relocationCommit_eq : exec (.relocationCommit d sb) s = execRelocationCommit d sb s := rfl

end

/-! ### Closing -/

section
variable {s : State} {o : OpenStripe} (n : Nat) (hopen : o.closed = false)
include hopen

theorem State.closeStripe_eq_setOpen_of_full (hfull : 240 ≤ o.used) :
    s.closeStripe n o = s.setOpen n { o with closed := true } := by
  simp [State.closeStripe, hopen, hfull]

/-- A stripe closed with sectors unfilled is reported as padded (R147). -/
theorem State.closeStripe_eq_raise_of_short (hshort : o.used < 240) :
    s.closeStripe n o = (s.setOpen n { o with closed := true }).raise (136 + 16 * n) 0x305 INFO none o.base 0 := by
  simp [State.closeStripe, hopen, hshort]

end

theorem execStripeClose_eq_closeStripe_of_due {n : Fin 16} {k : BitVec 32} {o : OpenStripe} {s : State}
    (hfind : (s.pier n.val).open_.find? (fun o => o.base == 65536 * k.toNat) = some o) (hon : s.offline n.val = false)
    (hdue : s.stripeDue n.val o = true) : execStripeClose n k s = .next (s.closeStripe n.val o) := by
  simp [execStripeClose, hfind, hon, hdue]

/-! ### The free queue -/

/-- Stripe number v belongs to Pier n: its parity unit lies on that Pier (R147). -/
def State.OwnsStripe (s : State) (n v : Nat) : Prop :=
  ∃ i b, s.stripeBase (65536 * v / 256) = some (i, b) ∧ s.spanMember i (s.parityMember i (65536 * v)) = n

theorem State.psPush_eq_queued {s : State} {n v : Nat} (howns : s.OwnsStripe n v) (hroom : (s.pier n).freeQ.length < 256) :
    s.psPush n v = s.setPier n { (s.pier n) with freeQ := (s.pier n).freeQ ++ [65536 * v] } := by
  obtain ⟨i, b, hbase, hmember⟩ := howns
  simp [State.psPush, hbase, hmember, hroom]

/-- Any other push is refused (R159), a stripe of another Pier among them, which O8's clauses leave out. -/
theorem State.psPush_eq_refused {s : State} {n v : Nat} (hbad : ¬ s.OwnsStripe n v ∨ 256 ≤ (s.pier n).freeQ.length) :
    s.psPush n v = s.put (pgPier n) Reg.PIER_PS_STAT_PUSH_REFUSED 1 := by
  rcases hbad with hother | hfull
  · rw [State.psPush]
    split
    case h_1 i b hbase =>
      have hmember : s.spanMember i (s.parityMember i (65536 * v)) ≠ n := fun h => hother ⟨i, b, hbase, h⟩
      simp [hmember]
    case h_2 => simp
  · simp [State.psPush, hfull]

/-! ### Garbage collection -/

/-- The relocation job of one start entry of stripe k posted, where its record is still the one placed there (R154). -/
def State.postReloc (s : State) (k : Nat) (e : Nat × Nat × Nat) : State :=
  match s.descRead e.2.1 {} with
  | (s, .ok x) =>
    let r := descRec x.toNat e.2.2
    if descUsed x.toNat && r.sector == s.dataSectorDa (65536 * k) e.1 / 256 && r.cnt != 0 then
      { s with relocs := SMap.put s.relocs (4 * e.2.1 + e.2.2) ⟨r.sector, descGen x.toNat, none, r.cnt⟩ }
    else s
  | (s, _) => s

/-- The stripe taken is CLEANING, and the job of every start entry is posted, however many there are. -/
theorem execGcSelect_eq_foldl_postReloc {k : BitVec 32} {s : State} (hnew : s.engNew = true) (hruns : s.gcRuns = true)
    (hnext : s.gcNext k.toNat = true) (hread : ∀ e ∈ (s.stripe k.toNat).starts, (s.descRead e.2.1 {}).2 ≠ .wait) :
    execGcSelect k s =
      .next ((s.stripe k.toNat).starts.foldl (fun t e => t.postReloc k.toNat e)
        (s.setStripe k.toNat { (s.stripe k.toNat) with st := 3 })) := by
  have hcached : (s.stripe k.toNat).starts.any (fun e => (s.descRead e.2.1 {}).2 == .wait) = false := by
    simpa [List.any_eq_false] using hread
  simp only [execGcSelect, hnew, hruns, hnext, hcached, Bool.not_true, Bool.or_self, Bool.false_eq_true, if_false]
  rfl

theorem State.postReloc_eq_of_placed {s s1 : State} {k sec d sb : Nat} {x : BitVec 512}
    (hread : s.descRead d {} = (s1, .ok x)) (hused : descUsed x.toNat = true)
    (hplaced : (descRec x.toNat sb).sector = s1.dataSectorDa (65536 * k) sec / 256) (hcnt : (descRec x.toNat sb).cnt ≠ 0) :
    s.postReloc k (sec, d, sb) =
      { s1 with
        relocs := SMap.put s1.relocs (4 * d + sb)
          ⟨(descRec x.toNat sb).sector, descGen x.toNat, none, (descRec x.toNat sb).cnt⟩ } := by
  have hlive : (descUsed x.toNat && (descRec x.toNat sb).sector == s1.dataSectorDa (65536 * k) sec / 256 &&
      (descRec x.toNat sb).cnt != 0) = true := by
    simp [hused, hplaced, hcnt]
  simp only [State.postReloc, hread, hlive, if_true]

/-! ### Relocation -/

section
variable {d : BitVec 40} {sb : Fin 4} {bs : List Bursts} {j : Reloc} {x : BitVec 512} {s s1 : State}
variable (hjob : SMap.get? s.relocs (4 * d.toNat + sb.val) = some j) (hunplaced : j.dst = none) (hcoast : s.coast = false)
  (hruns : s.gcRuns = true) (hread : s.descRead d.toNat {} = (s1, .ok x))
include hjob hunplaced hcoast hruns hread

/-- A job whose record has moved or changed since it was posted is dropped (R155). -/
theorem execRelocation_eq_dropped_of_changed
    (hchanged : (descRec x.toNat sb.val).sector ≠ j.sector ∨ descGen x.toNat ≠ j.gen) :
    execRelocation d sb bs s = .next { s1 with relocs := SMap.del s1.relocs (4 * d.toNat + sb.val) } := by
  have hdead : ((descRec x.toNat sb.val).sector != j.sector || descGen x.toNat != j.gen) = true := by
    simpa using hchanged
  simp only [execRelocation, hjob, hunplaced, hcoast, hruns, hread, hdead, Option.isSome_none, Bool.not_true, Bool.or_self,
    Bool.false_eq_true, if_false, if_true]

theorem execRelocation_eq_placed {ls : List (BitVec 512 × Bool)} {first : Nat} {s2 s3 : State}
    (hsector : (descRec x.toNat sb.val).sector = j.sector) (hgen : descGen x.toNat = j.gen)
    (hlines : s1.sectorReads none ((List.range (4 * j.cnt)).map (fun i => s1.sectorLine j.sector i)) bs = (s2, some ls))
    (hplaced : s2.place (s2.descPier d.toNat) (s2.regionId (256 * j.sector)) j.cnt d.toNat sb.val ls = (s3, some first)) :
    execRelocation d sb bs s =
      .next ((({ s3 with relocs := SMap.put s3.relocs (4 * d.toNat + sb.val) { j with dst := some first } } : State).closeReceiver
        (s3.descPier d.toNat) first).gcCharge (256 * j.cnt)) := by
  simp only [execRelocation, hjob, hunplaced, hcoast, hruns, hread, hsector, hgen, hlines, hplaced, bne_self_eq_false,
    Option.isSome_none, Bool.not_true, Bool.or_self, Bool.false_eq_true, if_false]

end

/-- Once the copy's stripe is written, a record that still is the job's is switched to the copy, and the old sectors are dead
(R155). -/
theorem execRelocationCommit_eq_switched {d : BitVec 40} {sb : Fin 4} {j : Reloc} {first i b : Nat} {x : BitVec 512} {s s1 : State}
    (hjob : SMap.get? s.relocs (4 * d.toNat + sb.val) = some j) (hdst : j.dst = some first)
    (hbase : s.stripeBase first = some (i, b)) (hwritten : s.openStripe b = none) (hkept : (s.stripe (b / 65536)).st ≠ 1)
    (hready : s.descReady d.toNat = true) (hread : s.descRead d.toNat {} = (s1, .ok x)) (hused : descUsed x.toNat = true)
    (hsector : (descRec x.toNat sb.val).sector = j.sector) (hgen : descGen x.toNat = j.gen) :
    execRelocationCommit d sb s =
      .next ((({ s1 with relocs := SMap.del s1.relocs (4 * d.toNat + sb.val) } : State).descWrite d.toNat
        (descPut x.toNat sb.val { (descRec x.toNat sb.val) with sector := first } (descCrc x.toNat))).subLive j.sector j.cnt) := by
  simp only [execRelocationCommit, hjob, hdst, hbase, hwritten, hkept, hready, hread, hused, hsector, hgen, Option.bind_some,
    Option.map_some, Option.isSome_none, BEq.rfl, Bool.and_self, Bool.not_true, Bool.or_self, Bool.false_eq_true, if_false,
    if_true]

/-- Settles O8, command by command; a closing goes by the two lemmas on `closeStripe`, a push by those on `psPush`, a cleaning by
the fold of `postReloc`. -/
theorem packedStripesComplete : Obligations.PackedStripesComplete := by
  unfold Obligations.PackedStripesComplete
  refine ⟨?close, ?closePadded, ?written, ?push, ?pushFull, ?select, ?selectJob, ?relocationDead, ?relocation, ?commit⟩
  case close =>
    intro n k o s hfind hon hopen hfull hdue
    rw [exec_stripeClose_eq, execStripeClose_eq_closeStripe_of_due hfind hon hdue,
      State.closeStripe_eq_setOpen_of_full _ hopen hfull]
  case closePadded =>
    intro n k o s hfind hon hopen hshort hdue
    rw [exec_stripeClose_eq, execStripeClose_eq_closeStripe_of_due hfind hon hdue,
      State.closeStripe_eq_raise_of_short _ hopen hshort]
  case written =>
    intro k o s hfind hclosed hon
    rw [exec_stripeWritten_eq, execStripeWritten]
    simp [hfind, hclosed, hon]
  case push =>
    intro n v i b s hpage hbase hmember hroom
    rw [exec_pierPsPush_eq, execPierPsPush, State.atPage_of_open _ hpage, State.psPush_eq_queued ⟨i, b, hbase, hmember⟩ hroom]
  case pushFull =>
    intro n v s hpage hfull
    rw [exec_pierPsPush_eq, execPierPsPush, State.atPage_of_open _ hpage, State.psPush_eq_refused (.inr hfull)]
  case select =>
    intro k s hnew hruns hnext hnone
    rw [exec_gcSelect_eq, execGcSelect_eq_foldl_postReloc hnew hruns hnext (by simp [hnone]), hnone, List.foldl_nil]
  case selectJob =>
    intro k sec d sb x s s1 hnew hruns hnext hone hwait hread hused hplaced hcnt
    rw [exec_gcSelect_eq, execGcSelect_eq_foldl_postReloc hnew hruns hnext (by simpa [hone] using hwait), hone, List.foldl_cons,
      List.foldl_nil, State.postReloc_eq_of_placed (Prod.ext rfl hread) hused hplaced hcnt]
  case relocationDead =>
    intro d sb bs j x s s1 hjob hread hunplaced hcoast hruns hchanged
    rw [exec_relocation_eq, execRelocation_eq_dropped_of_changed hjob hunplaced hcoast hruns (Prod.ext rfl hread) hchanged]
  case relocation =>
    intro d sb bs j x ls first s s1 q p hjob hread hunplaced hcoast hruns hsector hgen hlines hplaced
    rw [exec_relocation_eq]
    exact execRelocation_eq_placed hjob hunplaced hcoast hruns (Prod.ext rfl hread) hsector hgen (Prod.ext rfl hlines)
      (Prod.ext rfl hplaced)
  case commit =>
    intro d sb j first i b x s s1 s2 hjob hdst hbase hwritten hkept hready hread hused hsector hgen
    rw [exec_relocationCommit_eq]
    exact execRelocationCommit_eq_switched hjob hdst hbase hwritten hkept hready (Prod.ext rfl hread) hused hsector hgen

end Sys2Proof.Machine

/-! A counter line (R174): replacing a field of a number, the places of MAJOR and the minor counters, and the settling of
O53. -/

namespace Sys2Proof

/-! ### Fields of a number -/

theorem testBit_bits (x lo w i : Nat) : (bits x lo w).testBit i = (decide (i < w) && x.testBit (lo + i)) := by
  rw [bits, Nat.testBit_mod_two_pow, Nat.testBit_shiftRight]

/-- A number with a field replaced is what stood above the field, the field's new value, and what stood below it. -/
theorem setBits_eq_parts (x lo w v : Nat) :
    setBits x lo w v = 2 ^ (lo + w) * (x / 2 ^ (lo + w)) + (2 ^ lo * (v % 2 ^ w) + x % 2 ^ lo) := by
  have hlow := Nat.div_add_mod x (2 ^ lo)
  have hhigh := Nat.div_add_mod (x / 2 ^ lo) (2 ^ w)
  have hx : x = 2 ^ lo * (2 ^ w * (x / 2 ^ lo / 2 ^ w)) + 2 ^ lo * (x / 2 ^ lo % 2 ^ w) + x % 2 ^ lo := by
    rw [← Nat.mul_add, hhigh, hlow]
  rw [setBits, bits, Nat.shiftRight_eq_div_pow, pow_add, ← Nat.div_div_eq_div_mul, Nat.mul_assoc,
    Nat.mul_comm _ (2 ^ lo), Nat.mul_comm _ (2 ^ lo)]
  omega

theorem testBit_setBits (x lo w v i : Nat) :
    (setBits x lo w v).testBit i = if lo ≤ i ∧ i < lo + w then v.testBit (i - lo) else x.testBit i := by
  have hlow : x % 2 ^ lo < 2 ^ lo := Nat.mod_lt _ (by positivity)
  have hfield : v % 2 ^ w < 2 ^ w := Nat.mod_lt _ (by positivity)
  have hbelow : 2 ^ lo * (v % 2 ^ w) + x % 2 ^ lo < 2 ^ (lo + w) :=
    calc 2 ^ lo * (v % 2 ^ w) + x % 2 ^ lo < 2 ^ lo * (v % 2 ^ w + 1) := by rw [Nat.mul_add]; omega
      _ ≤ 2 ^ lo * 2 ^ w := Nat.mul_le_mul_left _ hfield
      _ = 2 ^ (lo + w) := (pow_add ..).symm
  rw [setBits_eq_parts, Nat.testBit_two_pow_mul_add _ hbelow, Nat.testBit_two_pow_mul_add _ hlow]
  rcases Nat.lt_or_ge i lo with hi | hi
  · simp [hi, Nat.lt_add_right w hi, hi.not_ge, Nat.testBit_mod_two_pow]
  · rcases Nat.lt_or_ge i (lo + w) with hi' | hi'
    · have hin : i - lo < w := by omega
      simp [hi, hi', hi.not_gt, hin, Nat.testBit_mod_two_pow]
    · simp [hi'.not_gt, Nat.testBit_div_two_pow, Nat.sub_add_cancel hi']

theorem bits_setBits_same (x lo w v : Nat) : bits (setBits x lo w v) lo w = v % 2 ^ w := by
  refine Nat.eq_of_testBit_eq fun i => ?_
  rw [testBit_bits, testBit_setBits, Nat.testBit_mod_two_pow]
  by_cases hi : i < w
  · simp [hi]
  · simp [hi]

theorem bits_setBits_disjoint (x v : Nat) {lo w lo' w' : Nat} (hoff : lo' + w' ≤ lo ∨ lo + w ≤ lo') :
    bits (setBits x lo w v) lo' w' = bits x lo' w' := by
  refine Nat.eq_of_testBit_eq fun i => ?_
  rw [testBit_bits, testBit_bits, testBit_setBits]
  by_cases hi : i < w'
  · rw [if_neg (by omega)]
  · simp [hi]

theorem setBits_lt_two_pow {x lo w n : Nat} (v : Nat) (hx : x < 2 ^ n) (hfits : lo + w ≤ n) : setBits x lo w v < 2 ^ n := by
  refine Nat.lt_pow_two_of_testBit _ fun i hi => ?_
  rw [testBit_setBits, if_neg (by omega)]
  exact Nat.testBit_lt_two_pow (hx.trans_le (Nat.pow_le_pow_right (by norm_num) hi))

theorem bits_eq_zero_of_lt {x lo : Nat} (w : Nat) (hx : x < 2 ^ lo) : bits x lo w = 0 := by
  rw [bits, Nat.shiftRight_eq_div_pow, Nat.div_eq_of_lt hx, Nat.zero_mod]

namespace Machine

-- The size of a line, 2 ^ 512, stands in its bounds.
set_option exponentiation.threshold 1000

/-! ### The fields of a counter line -/

section
variable (b : BitVec 512) (ma mi : Nat) {j : Nat} (hj : j < 64)
include hj

/-- MAJOR and a minor counter both lie in the 512 bits of a line. -/
theorem toNat_ctrSet : (ctrSet b ma j mi).toNat = setBits (setBits b.toNat 0 56 ma) (56 + 7 * j) 7 mi := by
  have hfits : setBits (setBits b.toNat 0 56 ma) (56 + 7 * j) 7 mi < 2 ^ 512 :=
    setBits_lt_two_pow mi (setBits_lt_two_pow ma b.isLt (by norm_num)) (by omega)
  rw [ctrSet, BitVec.toNat_ofNat, Nat.mod_eq_of_lt hfits]

theorem ctrMajor_ctrSet : ctrMajor (ctrSet b ma j mi) = ma % 2 ^ 56 := by
  rw [ctrMajor, toNat_ctrSet b ma mi hj, bits_setBits_disjoint _ _ (by omega), bits_setBits_same]

theorem ctrMinor_ctrSet_same : ctrMinor (ctrSet b ma j mi) j = mi % 128 := by
  rw [ctrMinor, toNat_ctrSet b ma mi hj]
  exact bits_setBits_same ..

theorem ctrMinor_ctrSet_other {i : Nat} (hne : i ≠ j) : ctrMinor (ctrSet b ma j mi) i = ctrMinor b i := by
  rw [ctrMinor, toNat_ctrSet b ma mi hj, bits_setBits_disjoint _ _ (by omega), bits_setBits_disjoint _ _ (by omega), ctrMinor]

theorem bits_ctrSet_reserved : bits (ctrSet b ma j mi).toNat 504 8 = bits b.toNat 504 8 := by
  rw [toNat_ctrSet b ma mi hj, bits_setBits_disjoint _ _ (by omega), bits_setBits_disjoint _ _ (by omega)]

end

/-! ### A fresh counter line -/

section
variable {ma : Nat} (hma : ma < 2 ^ 56)
include hma

theorem toNat_ctrFresh : (ctrFresh ma).toNat = ma := by
  rw [ctrFresh, BitVec.toNat_ofNat, Nat.mod_eq_of_lt hma]
  exact Nat.mod_eq_of_lt (hma.trans_le (Nat.pow_le_pow_right (by norm_num) (by norm_num)))

theorem ctrMajor_ctrFresh : ctrMajor (ctrFresh ma) = ma := by
  rw [ctrMajor, toNat_ctrFresh hma, bits, Nat.shiftRight_zero, Nat.mod_eq_of_lt hma]

/-- Above MAJOR a fresh line holds zeros. -/
theorem bits_ctrFresh_eq_zero {lo : Nat} (w : Nat) (hlo : 56 ≤ lo) : bits (ctrFresh ma).toNat lo w = 0 := by
  rw [toNat_ctrFresh hma]
  exact bits_eq_zero_of_lt w (hma.trans_le (Nat.pow_le_pow_right (by norm_num) hlo))

end

/-- Settles O53: the fields lie apart, so `bits_setBits_same` and `bits_setBits_disjoint` tell each after a setting. -/
theorem counterLineLayout : Obligations.CounterLineLayout := by
  unfold Obligations.CounterLineLayout
  refine ⟨fun b => ⟨rfl, fun j _ => rfl⟩, ?set, ?fresh⟩
  case set =>
    intro b ma j mi hma hj hmi
    refine ⟨?major, ?minor, fun i _ hne => ctrMinor_ctrSet_other b ma mi hj hne, bits_ctrSet_reserved b ma mi hj⟩
    case major => rw [ctrMajor_ctrSet b ma mi hj, Nat.mod_eq_of_lt hma]
    case minor => rw [ctrMinor_ctrSet_same b ma mi hj, Nat.mod_eq_of_lt hmi]
  case fresh =>
    intro ma hma
    exact ⟨ctrMajor_ctrFresh hma, fun j _ => bits_ctrFresh_eq_zero hma 7 (by omega),
      bits_ctrFresh_eq_zero hma 8 (by norm_num)⟩

end Machine

end Sys2Proof

/-! Keys, the key map and regions (R163, R173, R182 to R184, R191, R263): what the key registers and the commands of a region
answer, and the settling of O14. -/

namespace Sys2Proof.Machine

section
variable (v : BitVec 32) (k : Fin 16) (src : CmdSrc) (req : List (BitVec 8)) (ctrBase : BitVec 36) (lvls : List (BitVec 36))
  (bs : List Bursts) (s : State)

theorem exec_hubKeyLoad_eq : exec (.hubKeyLoad v) s = .next (s.writeKeyLoad v.toNat) := rfl
theorem exec_hubKeyClear_eq : exec (.hubKeyClear v) s = .next (s.writeKeyClear v.toNat) := rfl
theorem exec_kmapWrite_eq : exec (.kmapWrite v) s = .next (s.writeKmap v.toNat) := rfl
theorem exec_regionSetup_eq : exec (.regionSetup src req ctrBase lvls) s = execRegionSetup src req ctrBase lvls s := rfl
theorem exec_regionInitDone_eq : exec (.regionInitDone k) s = execRegionInitDone k s := rfl
theorem exec_rotateKey_eq : exec (.rotateKey src req ctrBase lvls) s = execRotateKey src req ctrBase lvls s := rfl
theorem exec_rebuildTrusting_eq : exec (.rebuildTrusting src req bs) s = execRebuildTrusting src req bs s := rfl
theorem exec_regionRelease_eq : exec (.regionRelease src req) s = execRegionRelease src req s := rfl

end

/-! ### The key registers -/

/-- The key that 32 staged bytes spell; mode off has none (R163). -/
def stagedKey (mode : Nat) (bs : List Nat) : BitVec 256 := BitVec.ofNat 256 (if mode = 0 then 0 else ofLe (padTo 32 bs))

theorem stagedKey_eq_of_ne_zero {mode : Nat} (bs : List Nat) (hmode : mode ≠ 0) :
    stagedKey mode bs = BitVec.ofNat 256 (ofLe (padTo 32 bs)) := by
  rw [stagedKey, if_neg hmode]

/-- A slot LOADED with a mode and the staged keys (R163). -/
def KSlot.loaded (mode : Nat) (stage : List Nat) : KSlot :=
  { KSlot.blank with st := 1, mode := mode, dataKey := stagedKey mode stage, tagKey := stagedKey mode (stage.drop 32) }

/-- The fields SLOT and MODE of HUB_KEY_LOAD as written. -/
def State.putKeyLoad (s : State) (v : Nat) : State :=
  (s.put 3 Reg.HUB_KEY_LOAD_SLOT (bits v 0 4)).put 3 Reg.HUB_KEY_LOAD_MODE (bits v 4 2)

section
variable {s : State} {v : Nat} (hgo : v.testBit 6 = true) (hkeep : v.testBit 7 = false)
include hgo hkeep

/-- GO for a FREE slot loads the stage with MODE 0 as well, which O14's clause leaves out. -/
theorem State.writeKeyLoad_eq_loaded (hfree : (s.slot (bits v 0 4)).st = 0) (hmode : bits v 4 2 ≠ 3) :
    s.writeKeyLoad v =
      { (s.putKeyLoad v).setSlot (bits v 0 4) (KSlot.loaded (bits v 4 2) s.stage) with stage := [] } := by
  simp [State.writeKeyLoad, State.putKeyLoad, KSlot.loaded, stagedKey, hgo, hkeep, hfree, hmode]

theorem State.writeKeyLoad_eq_refused (hbad : (s.slot (bits v 0 4)).st ≠ 0 ∨ bits v 4 2 = 3) :
    s.writeKeyLoad v = (s.putKeyLoad v).put 3 Reg.HUB_KEY_LOAD_REFUSED 1 := by
  simp [State.writeKeyLoad, State.putKeyLoad, hgo, hkeep, hbad]

end

section
variable {s : State} {v : Nat} (hgo : v.testBit 4 = true) (hkeep : v.testBit 5 = false)
include hgo hkeep

theorem State.writeKeyClear_eq_freed (hloaded : (s.slot (bits v 0 4)).st = 1) :
    s.writeKeyClear v = (s.put 3 Reg.HUB_KEY_CLEAR_SLOT (bits v 0 4)).setSlot (bits v 0 4) KSlot.blank := by
  simp [State.writeKeyClear, hgo, hkeep, hloaded]

theorem State.writeKeyClear_eq_refused (hother : (s.slot (bits v 0 4)).st ≠ 1) :
    s.writeKeyClear v = (s.put 3 Reg.HUB_KEY_CLEAR_SLOT (bits v 0 4)).put 3 Reg.HUB_KEY_CLEAR_REFUSED 1 := by
  simp [State.writeKeyClear, hgo, hkeep, hother]

end

/-! ### The key map -/

/-- The key map entry that a write of HUB_KMAP_DATA gives: slot and EN, and the rank (R191). -/
def kmapEntry (v : Nat) : Nat := bits v 0 5 + 256 * bits v 8 14

section
variable {s : State} {v : Nat} (hkeep : v.testBit 31 = false)
include hkeep

theorem State.writeKmap_eq_put (hold : s.kmapFixed (SMap.getD s.kmap (s.fld 3 Reg.HUB_KMAP_IDX_GIB) 0) = false)
    (hnew : s.kmapFixed (kmapEntry v) = false) (hentry : kmapEntry v ≠ 0) :
    s.writeKmap v = { s with kmap := SMap.put s.kmap (s.fld 3 Reg.HUB_KMAP_IDX_GIB) (kmapEntry v) } := by
  rw [kmapEntry] at hnew hentry ⊢
  simp only [State.writeKmap, hkeep, hold, hnew, hentry, Bool.or_self, Bool.false_eq_true, if_false]

/-- A fixed slot in the old entry refuses the write as one in the new does; O14's clause has the new entry alone. -/
theorem State.writeKmap_eq_refused (hfixed : s.kmapFixed (SMap.getD s.kmap (s.fld 3 Reg.HUB_KMAP_IDX_GIB) 0) = true ∨
      s.kmapFixed (kmapEntry v) = true) : s.writeKmap v = s.put 3 Reg.HUB_KMAP_DATA_REFUSED 1 := by
  rw [kmapEntry] at hfixed
  simp [State.writeKmap, hkeep, hfixed]

end

/-! ### The commands of a region -/

section
variable {src : CmdSrc} {op : Nat} {req p rsp : List Nat} {run : State → List Nat → State × Option (List Nat)} {s t : State}

/-- A command taken whose run has no response yet goes on (R263). -/
theorem State.vendor_eq_of_run_none (htakes : s.engTakes src op req p = true) (hrun : run (s.taken src op) p = (t, none)) :
    s.vendor src op req run = t := by
  rw [vendor_taken s src op req p run htakes, hrun]

theorem State.vendor_eq_of_run_some (htakes : s.engTakes src op req p = true)
    (hrun : run (s.taken src op) p = (t, some rsp)) : s.vendor src op req run = t.respondCmd src op rsp := by
  rw [vendor_taken s src op req p run htakes, hrun]

end

/-- Settles O14: the key registers and the key map by what their writes do, the commands of a region by the run the engines give
them. -/
theorem keysComplete : Obligations.KeysComplete := by
  unfold Obligations.KeysComplete
  refine ⟨?load, ?loadRefused, ?clear, ?clearRefused, ?map, ?mapRefused, ?setup, ?initDone, ?rotate, ?rebuild, ?release⟩
  case load =>
    intro v s k mode s1 hgo hkeep hfree hmode
    have hoff : mode ≠ 0 := by omega
    rw [exec_hubKeyLoad_eq, State.writeKeyLoad_eq_loaded hgo hkeep hfree (by omega), KSlot.loaded,
      stagedKey_eq_of_ne_zero _ hoff, stagedKey_eq_of_ne_zero _ hoff]
    rfl
  case loadRefused =>
    intro v s k mode hgo hkeep hbad
    rw [exec_hubKeyLoad_eq, State.writeKeyLoad_eq_refused hgo hkeep hbad, State.putKeyLoad]
  case clear =>
    intro v s hgo hkeep hloaded
    rw [exec_hubKeyClear_eq, State.writeKeyClear_eq_freed hgo hkeep hloaded]
  case clearRefused =>
    intro v s hgo hkeep hother
    rw [exec_hubKeyClear_eq, State.writeKeyClear_eq_refused hgo hkeep hother]
  case map =>
    intro v s g e hkeep hold hnew hentry
    rw [exec_kmapWrite_eq, State.writeKmap_eq_put hkeep hold hnew hentry]
    rfl
  case mapRefused =>
    intro v s hkeep hnew
    rw [exec_kmapWrite_eq, State.writeKmap_eq_refused hkeep (.inr hnew)]
  case setup =>
    intro src req ctrBase lvls p s s1 k gs lv s2 s3 htakes hcheck
    rw [exec_regionSetup_eq, execRegionSetup]
    refine congrArg _ (State.vendor_eq_of_run_none htakes ?_)
    simp only [s1, lv] at hcheck
    simp only [hcheck, bne_self_eq_false, Bool.false_eq_true, if_false]
    rfl
  case initDone =>
    intro k s hinit hon
    rw [exec_regionInitDone_eq, execRegionInitDone]
    simp [hinit, hon]
  case rotate =>
    intro src req ctrBase lvls p s s1 lv htakes hcheck
    rw [exec_rotateKey_eq, execRotateKey]
    refine congrArg _ (State.vendor_eq_of_run_none htakes ?_)
    simp only [s1, lv] at hcheck
    simp only [hcheck, bne_self_eq_false, Bool.false_eq_true, if_false]
    rfl
  case rebuild =>
    intro src req bs p s htakes hdone
    rw [exec_rebuildTrusting_eq, execRebuildTrusting]
    refine congrArg _ (State.vendor_eq_of_run_some htakes ?_)
    simp only [hdone, Option.map_some]
  case release =>
    intro src req p s htakes hdone
    rw [exec_regionRelease_eq, execRegionRelease]
    refine congrArg _ (State.vendor_eq_of_run_some htakes ?_)
    simp only [hdone]

end Sys2Proof.Machine

/-! Counters and rotation (R168, R173, R175, R178, R179, R184, R185, R187, R188): what a fetch, a version increment, a write-back
and an overflow step do to an entry, the steps of a rotation, and the settling of O15. -/

namespace Sys2Proof.Machine

section
variable (da : BitVec 48) (b : Bursts) (bs : List Bursts) (s : State)

theorem exec_counterFetch_eq : exec (.counterFetch da b) s = execCounterFetch da b s := rfl
theorem exec_versionIncrement_eq : exec (.versionIncrement da) s = execVersionIncrement da s := rfl
theorem exec_counterWriteback_eq : exec (.counterWriteback da) s = .next (s.writeBackCtr (da.toNat / 64)) := rfl
theorem exec_overflowStep_eq : exec (.overflowStep da b) s = execOverflowStep da b s := rfl
theorem exec_rotationStep_eq : exec (.rotationStep b) s = execRotationStep b s := rfl
theorem exec_stripeRotationStep_eq : exec (.stripeRotationStep bs) s = execStripeRotationStep bs s := rfl

end

/-! ### The counter cache -/

/-- A fetch finds its entry on the primary copy, whose tree tag agrees with the parent's version (R179). -/
theorem State.fetchCtr_eq_cached {s s1 t : State} {da k lvl idx ver : Nat} {b : Bursts} {l : Line}
    (hid : s.ctrId da = some (k, lvl, idx)) (hctrs : s.hasCtrs k = true) (huncached : SMap.get? s.cc (da / 64) = none)
    (hkept : s.entryLost k lvl idx = false)
    (hver : (if s.treeLevels k = 0 then some 0 else s.parentVersion k lvl idx) = some ver)
    (hroom : s.ccRoom (s.ctrPier da) = some s1) (hread : s1.readLine da 0 0 b none = (t, .good l))
    (htag : t.treeOk k lvl da ver l = true) :
    s.fetchCtr da b =
      { t with
        cc := SMap.put t.cc (da / 64) ⟨k, lvl, idx, BitVec.ofNat 512 (untagged lvl l.data), false, false, none, false⟩ } := by
  simp only [State.fetchCtr, hid, hctrs, huncached, hkept, hver, hroom, hread, htag, Option.isSome_none, Bool.not_true,
    Bool.or_self, Bool.false_eq_true, if_false, if_true]

theorem execCounterFetch_eq_fetchCtr {da : BitVec 48} {b : Bursts} {s : State}
    (hruns : s.lineRuns (64 * (da.toNat / 64)) = true) :
    execCounterFetch da b s = .next (s.fetchCtr (64 * (da.toNat / 64)) b) := by
  simp only [execCounterFetch, hruns, if_true]

/-- The parent of a dirty entry takes the next version, and the entry, where it still is, is acknowledged (R179). -/
theorem execVersionIncrement_eq_acked {da : BitVec 48} {e e1 : CEnt} {v : Nat} {s : State}
    (hent : SMap.get? s.cc (da.toNat / 64) = some e) (hdirty : e.dirty = true) (hunacked : e.acked = false)
    (htree : s.treeLevels e.slot ≠ 0) (hver : s.parentVersion e.slot e.lvl e.idx = some v)
    (hent1 : SMap.get? (s.raiseVersion e.slot e.lvl e.idx (v + 1)).cc (da.toNat / 64) = some e1) :
    execVersionIncrement da s =
      let t := s.raiseVersion e.slot e.lvl e.idx (v + 1)
      .next { t with cc := SMap.put t.cc (da.toNat / 64) { e1 with acked := true } } := by
  simp [execVersionIncrement, hent, hdirty, hunacked, htree, hver, hent1]

theorem State.writeBackCtr_eq_clean {s : State} {key v : Nat} {e : CEnt} (hent : SMap.get? s.cc key = some e)
    (hdirty : e.dirty = true) (hunpinned : e.ovf = none)
    (hver : (if s.treeLevels e.slot = 0 then some 0
      else if e.acked then s.parentVersion e.slot e.lvl e.idx else none) = some v) :
    s.writeBackCtr key =
      let t := s.writeCtr e.slot e.lvl e.idx v e.body
      { t with cc := SMap.put t.cc key { e with dirty := false, acked := false } } := by
  simp only [State.writeBackCtr, hent, hdirty, hunpinned, hver, Option.isSome_none, Bool.not_true, Bool.or_self,
    Bool.false_eq_true, if_false]

/-! ### An overflow -/

/-- A line not yet done of an overflowed frame is read and written anew once it is recalled (R175). -/
theorem State.overflowLine_eq_rewritten {s s1 s2 t : State} {a key mask : Nat} {b : Bursts} {e : CEnt} {old d : BitVec 512}
    (hent : s.ctrEnt a = some (key, some e)) (hovf : e.ovf = some (old, mask)) (hundone : mask.testBit (lineNo a) = false)
    (hmajor : ctrMajor e.body ≠ 0) (hrecalled : s.jobRecall a = (s1, true))
    (hread : s1.readPlain a (s1.seedOf a) b none = (s2, .ok d))
    (hwritten : s2.writePlain a (s1.seedOf a) (s1.dramLine a 0).tier d false (0, 0, 0) = (t, .ok)) :
    s.overflowLine a b = t.jobClear a := by
  simp [State.overflowLine, hent, hovf, hundone, hmajor, hrecalled, hread, hwritten]

theorem execOverflowStep_eq_overflowLine {da : BitVec 48} {b : Bursts} {s : State} (hserving : s.serving = true)
    (hruns : s.lineRuns (64 * (da.toNat / 64)) = true) :
    execOverflowStep da b s = .next (s.overflowLine (64 * (da.toNat / 64)) b) := by
  simp only [execOverflowStep, hserving, hruns, Bool.and_self, if_true]

/-! ### A rotation -/

/-- The engines take a step past the region's end without a line to wait for (R188). -/
theorem execRotationStep_eq_rotateStep {s : State} (b : Bursts) (hruns : s.rotateRuns = true)
    (hline : s.rotEnd = true ∨ s.lineRuns (64 * s.rotBound) = true) : execRotationStep b s = .next (s.rotateStep b) := by
  simp [execRotationStep, hruns, hline]

theorem State.rotateStep_eq_rotateDone {s : State} (b : Bursts) (hend : s.rotEnd = true)
    (hlost : (s.slot s.rotSrc).lostList = []) (hkept : (s.slot s.rotSrc).allLost = false)
    (hskipped : (s.slot s.rotSrc).skipped = []) : s.rotateStep b = s.rotateDone := by
  simp [State.rotateStep, hend, hlost, hkept, hskipped]

/-- Before the end, a line of a frame whose counters are not lost is rotated at B (R185). -/
theorem State.rotateStep_eq_rotatePinned_of_frame {s : State} (b : Bursts) (hon : s.rotEnd = false)
    (hkind : s.daKind (64 * s.rotBound) = .frame) (hkept : s.subtreeLost (64 * s.rotBound) = false) :
    s.rotateStep b = s.rotatePinned (64 * s.rotBound) false b := by
  simp [State.rotateStep, hon, hkind, hkept]

/-- A primary line whose region keeps no counters has no frame to pin (R186). -/
theorem State.rotatePinned_eq_rotateLine {s : State} {da : Nat} (late : Bool) (b : Bursts) (hctr : s.ctrEnt da = none)
    (hprim : s.primDa da = da) : s.rotatePinned da late b = s.rotateLine da late b := by
  simp [State.rotatePinned, hctr, hprim]

theorem State.rotatePlace_eq_bound {s : State} (hon : s.rotEnd = false) : s.rotatePlace = 64 * s.rotBound := by
  simp [State.rotatePlace, hon]

theorem State.passStripe_eq_moveB {s : State} (hon : s.rotEnd = false) : s.passStripe = s.moveB 1024 := by
  simp [State.passStripe, hon]

/-- A stripe that holds nothing, is not closed and has no unit in a lost subtree is passed once its counters are reset (R187). -/
theorem State.rotateStripe_eq_passStripe_of_empty {s s1 : State} {i a : Nat} (bs : List Bursts)
    (hbase : s.stripeBase (s.rotatePlace / 256) = some (i, a)) (hempty : (s.stripe (a / 65536)).st < 2)
    (hopen : (s.openStripe a).all (fun o => !o.closed) = true)
    (hkept : ((s.stripeLines i a).filter (fun d => d % 4096 == 0)).any (fun d => s.subtreeLost d) = false)
    (hreset : s.resetUnits ((s.stripeLines i a).filter (fun d => d % 4096 == 0)) = some s1) :
    s.rotateStripe bs = s1.passStripe := by
  have hcleaning : (s.stripe (a / 65536)).st ≠ 3 := by omega
  have hfull : (s.stripe (a / 65536)).st ≠ 2 := by omega
  cases hstripe : s.openStripe a with
  | none => simp [State.rotateStripe, hbase, hcleaning, hfull, hstripe, hkept, hreset]
  | some o =>
    have hunclosed : o.closed = false := by simpa [hstripe] using hopen
    simp [State.rotateStripe, hbase, hcleaning, hfull, hstripe, hunclosed, hkept, hreset]

theorem execStripeRotationStep_eq_rotateStripe {s : State} (bs : List Bursts) (hruns : s.rotateRuns = true)
    (hkind : s.daKind s.rotatePlace = .packed) : execStripeRotationStep bs s = .next (s.rotateStripe bs) := by
  simp [execStripeRotationStep, hruns, hkind]

/-- Settles O15, command by command; a rotation at a line goes by `rotateStep` and `rotatePinned`, one at a stripe by
`rotateStripe`. -/
theorem counterTreeComplete : Obligations.CounterTreeComplete := by
  unfold Obligations.CounterTreeComplete
  refine ⟨?fetch, ?increment, ?writeback, ?overflow, ?rotationEnd, ?rotation, ?stripe⟩
  case fetch =>
    intro da b k lvl idx ver s1 l s d q hruns hid hctrs huncached hkept hver hroom hgood htag
    rw [exec_counterFetch_eq, execCounterFetch_eq_fetchCtr hruns]
    exact congrArg _ (State.fetchCtr_eq_cached hid hctrs huncached hkept hver hroom (Prod.ext rfl hgood) htag)
  case increment =>
    intro da e e1 v s key s1 hent hdirty hunacked htree hver hent1
    rw [exec_versionIncrement_eq, execVersionIncrement_eq_acked hent hdirty hunacked htree hver hent1]
  case writeback =>
    intro da e v s s1 hent hdirty hunpinned hver
    rw [exec_counterWriteback_eq, State.writeBackCtr_eq_clean hent hdirty hunpinned hver]
  case overflow =>
    intro da b key mask e old d s a s1 q w hserving hruns hent hovf hundone hmajor hrecalled hread hwritten
    rw [exec_overflowStep_eq, execOverflowStep_eq_overflowLine hserving hruns]
    exact congrArg _ (State.overflowLine_eq_rewritten hent hovf hundone hmajor (Prod.ext rfl hrecalled) (Prod.ext rfl hread)
      (Prod.ext rfl hwritten))
  case rotationEnd =>
    intro b s hruns hend hlost hkept hskipped
    rw [exec_rotationStep_eq, execRotationStep_eq_rotateStep b hruns (.inl hend),
      State.rotateStep_eq_rotateDone b hend hlost hkept hskipped]
  case rotation =>
    intro b s da hruns hon hline hkind hkept hctr hprim
    rw [exec_rotationStep_eq, execRotationStep_eq_rotateStep b hruns (.inr hline),
      State.rotateStep_eq_rotatePinned_of_frame b hon hkind hkept, State.rotatePinned_eq_rotateLine false b hctr hprim]
  case stripe =>
    intro bs i a s1 s units hruns hon hkind hbase hempty hopen hkept hreset hon1
    have hplace := State.rotatePlace_eq_bound hon
    rw [exec_stripeRotationStep_eq, execStripeRotationStep_eq_rotateStripe bs hruns (hplace ▸ hkind),
      State.rotateStripe_eq_passStripe_of_empty bs (hplace ▸ hbase) hempty hopen hkept hreset, State.passStripe_eq_moveB hon1]

end Sys2Proof.Machine

/-! Answers to a BISnp (R201, R208, R209): what a permitted BIRsp, a BIConflict and a BI_TIMEOUT do to an outstanding snoop, and
the settling of O2. -/

namespace Sys2Proof.Machine

section
variable (p : Fin 8) (tag : Fin 64) (r : BiAnswer) (s : State)

theorem exec_birsp_eq : exec (.birsp p tag r) s = execBirsp p tag r s := rfl
theorem exec_biconflict_eq : exec (.biconflict p tag) s = execBiconflict p tag s := rfl
theorem exec_biTimeout_eq : exec (.biTimeout p tag) s = execBiTimeout p tag s := rfl

end

/-! ### A BIRsp and a BIConflict -/

@[simp] theorem State.findSnoop_put (s : State) (pg v p tag : Nat) (f : Fld) :
    (s.put pg f v).findSnoop p tag = s.findSnoop p tag := by
  simp [State.findSnoop]

/-- A permitted answer is applied to the directory and ends the snoop (R201). -/
theorem execBirsp_eq_of_permitted {p : Fin 8} {tag : Fin 64} {r : BiAnswer} {sn : Snoop} {s : State}
    (hsnoop : s.findSnoop p.val tag.val = some sn) (hpermitted : birspOk sn.inv r = true) :
    execBirsp p tag r s = .next ((s.snoopDir sn (r == .s)).endSnoop sn) := by
  simp [execBirsp, hsnoop, hpermitted]

/-- A BIConflict to an outstanding snoop is counted and frees the port's own writes of the line; its acknowledgement waits
exactly while one of them is in flight (R208). -/
theorem execBiconflict_eq_of_outstanding {p : Fin 8} {tag : Fin 64} {sn : Snoop} {s : State}
    (hsnoop : s.findSnoop p.val tag.val = some sn) :
    execBiconflict p tag s =
      let s1 := (s.put (pgPort p.val) Reg.PORT_BI_STAT_CONFLICTS (s.fld (pgPort p.val) Reg.PORT_BI_STAT_CONFLICTS + 1)).freeSnooped sn
      if s1.inFlight sn then
        .next { s1 with snoops := s1.snoops.map (fun x => if x == sn then { x with conflict := true } else x) }
      else .next (s1.emit (.biConflictAck p.val tag.val)) := by
  simp only [execBiconflict, State.findSnoop_put, hsnoop]

/-! ### A snoop without an answer -/

/-- The fields that a timeout takes for a line without an entry name no owner. -/
theorem State.dirGet_getD_not_owned {s : State} {line k : Nat}
    (hunowned : ∀ d, s.dirGet line = some d → ¬ (d.2.1 = 2 ∧ d.2.2 = k)) :
    ¬ (((s.dirGet line).getD (0, 0, 0)).2.1 = 2 ∧ ((s.dirGet line).getD (0, 0, 0)).2.2 = k) := by
  cases hentry : s.dirGet line with
  | none => simp
  | some d => exact hunowned d hentry

/-- Once 1 ms has passed, the snoop is counted and reported, its host is lost and the snoop ends; only a line that the port
owned is poisoned (R209). -/
theorem execBiTimeout_eq_of_due {p : Fin 8} {tag : Fin 64} {sn : Snoop} {s : State}
    (hsnoop : s.findSnoop p.val tag.val = some sn) (hdue : sn.at0 + 1000000 ≤ s.time) :
    execBiTimeout p tag s =
      let d := (s.dirGet sn.line).getD (0, 0, 0)
      let s1 := s.bump 4 Reg.HUB_BI_TIMEOUT_CNT_COUNT Reg.HUB_BI_TIMEOUT_CNT_SAT 1
      let s2 := if d.2.1 = 2 ∧ d.2.2 = p.val then s1.markPoison sn.line else s1
      let s3 := s2.raise (67 + 8 * p.val) 0x501 ERROR none (if sn.line < 2 ^ 42 then 64 * sn.line else 0) 0
      .next ((((s3.snoopDir sn false).loseHost p.val 0).urgUpdate p.val).endSnoop sn) := by
  simp only [execBiTimeout, hsnoop, Nat.not_lt.mpr hdue, if_false]

/-- Settles O2, answer by answer; the two clauses of a timeout differ in whether the directory shows the port as the line's
owner. -/
theorem snoopAnswersComplete : Obligations.SnoopAnswersComplete := by
  unfold Obligations.SnoopAnswersComplete
  refine ⟨?birsp, ?conflictWaits, ?conflict, ?timeout, ?timeoutOwner⟩
  case birsp =>
    intro p tag a sn s hsnoop hpermitted
    rw [exec_birsp_eq, execBirsp_eq_of_permitted hsnoop hpermitted]
  case conflictWaits =>
    intro p tag sn s s1 hsnoop hflight
    rw [exec_biconflict_eq, execBiconflict_eq_of_outstanding hsnoop]
    exact if_pos hflight
  case conflict =>
    intro p tag sn s s1 hsnoop hflight
    rw [exec_biconflict_eq, execBiconflict_eq_of_outstanding hsnoop]
    exact if_neg (Bool.eq_false_iff.mp hflight)
  case timeout =>
    intro p tag sn s hsnoop hdue hunowned
    rw [exec_biTimeout_eq, execBiTimeout_eq_of_due hsnoop hdue]
    simp only [State.dirGet_getD_not_owned hunowned, if_false]
  case timeoutOwner =>
    intro p tag sn m s hsnoop hdue howned
    rw [exec_biTimeout_eq, execBiTimeout_eq_of_due hsnoop hdue]
    simp only [howned, Option.getD_some, and_self, if_true]

end Sys2Proof.Machine

/-! The directory and the sweep after a host loss (R198, R200, R210, R212): its flush and write-back, the end of a sweep and its
step at a line, and the settling of O16. -/

namespace Sys2Proof.Machine

section
variable (da : BitVec 48) (p : Fin 8) (vi : BitVec 16) (page : BitVec 45) (line : Fin 64) (b : Bursts) (s : State)

theorem exec_dirFlush_eq : exec .dirFlush s = .next s.dirFlush := rfl
theorem exec_directoryWriteback_eq : exec (.directoryWriteback da b) s = execDirectoryWriteback da b s := rfl
theorem exec_hostSweepStep_eq : exec (.hostSweepStep p vi page line b) s = execHostSweepStep p vi page line b s := rfl

end

/-! ### The directory's write-back -/

/-- A dirty entry of a line outside T2 is written back once the line is free at the home (R198). -/
theorem execDirectoryWriteback_eq_dirWriteback {da : BitVec 48} {b : Bursts} {e : DirEnt} {s : State}
    (hentry : SMap.get? s.dir (da.toNat / 64) = some e) (hdirty : e.dirty = true) (ht2 : e.t2 = false)
    (hfree : s.lineFree (da.toNat / 64) = true) (hruns : s.lineRuns (64 * (da.toNat / 64)) = true) :
    execDirectoryWriteback da b s = .next ((s.dirWriteback (64 * (da.toNat / 64)) e b).release) := by
  simp [execDirectoryWriteback, hentry, hdirty, ht2, hfree, hruns]

/-! ### The sweep after a host loss -/

section
variable {p : Fin 8} {vi : BitVec 16} {page : BitVec 45} {line : Fin 64} {b : Bursts} {s : State}
  (hsweep : (s.prt p.val).sweep = true) (hnew : s.engNew = true) (hurg : s.urg3 = false)
include hsweep hnew hurg

/-- A sweep with no line left ends (R212). -/
theorem execHostSweepStep_eq_endSweep (hnone : s.sweepNext (s.sweepVis p.val) 0 (s.prt p.val).sweepFrom = none) :
    execHostSweepStep p vi page line b s = .next ((s.endSweep p.val).urgUpdate p.val) := by
  simp [execHostSweepStep, hsweep, hnew, hurg, hnone]

/-- A step that corrects the sweep's next line moves the sweep past it, and ends the sweep where no line is left
(R210 item 3). -/
theorem execHostSweepStep_eq_of_line {pos a lvl e : Nat} {t : State}
    (hnext : s.sweepNext (s.sweepVis p.val) 0 (s.prt p.val).sweepFrom = some (pos, vi.toNat, page.toNat))
    (hline : pos % 64 = line.val) (hleaf : s.findLeaf vi.toNat (4096 * page.toNat) = some (a, lvl, e))
    (hfree : s.lineFree ((leafDa e lvl (4096 * page.toNat) + 64 * line.val) / 64) = true)
    (hruns : s.lineRuns (leafDa e lvl (4096 * page.toNat) + 64 * line.val) = true)
    (hdone : s.sweepLine vi.toNat (leafDa e lvl (4096 * page.toNat) + 64 * line.val) b = (t, true)) :
    execHostSweepStep p vi page line b s =
      let t1 := t.setPrt p.val { (t.prt p.val) with sweepFrom := pos + 1 }
      if (t1.sweepNext (t1.sweepVis p.val) 0 (pos + 1)).isNone then .next ((t1.endSweep p.val).urgUpdate p.val)
      else .next t1 := by
  simp only [execHostSweepStep, hsweep, hnew, hurg, hnext, hline, hleaf, hfree, hruns, hdone, bne_self_eq_false, Bool.not_true,
    Bool.or_self, Bool.false_eq_true, if_false]

end

/-- Settles O16, command by command; the sweep's last step and its step at a line are told apart by `sweepNext`. -/
theorem directoryComplete : Obligations.DirectoryComplete := by
  unfold Obligations.DirectoryComplete
  refine ⟨?flush, ?writeback, ?sweepEnd, ?sweepLine⟩
  case flush =>
    intro s
    rw [exec_dirFlush_eq, State.dirFlush]
  case writeback =>
    intro da b e s hentry hdirty ht2 hfree hruns
    rw [exec_directoryWriteback_eq, execDirectoryWriteback_eq_dirWriteback hentry hdirty ht2 hfree hruns]
  case sweepEnd =>
    intro p vi page line b s hsweep hnew hurg hnone
    rw [exec_hostSweepStep_eq, execHostSweepStep_eq_endSweep hsweep hnew hurg hnone]
  case sweepLine =>
    intro p vi page line b pos a lvl e s da s1 s2 hsweep hnew hurg hnext hline hleaf hfree hruns hdone hmore
    rw [exec_hostSweepStep_eq,
      execHostSweepStep_eq_of_line hsweep hnew hurg hnext hline hleaf hfree hruns (Prod.ext rfl hdone)]
    exact if_neg (Bool.eq_false_iff.mp hmore)

end Sys2Proof.Machine

/-! The life of a VI (R217, R218, R222, R223, R225): what each of its commands and ends answers where its checks pass, and the
settling of O17. -/

namespace Sys2Proof.Machine

section
variable (vi : BitVec 16) (src : CmdSrc) (req : List (BitVec 8)) (tpool : BitVec 36) (descBase : BitVec 40) (s : State)

theorem exec_createVi_eq : exec (.createVi src req tpool descBase) s = execCreateVi src req tpool descBase s := rfl
theorem exec_viCreateDone_eq : exec (.viCreateDone vi) s = execViCreateDone vi s := rfl
theorem exec_bindVi_eq : exec (.bindVi src req) s = execBindVi src req s := rfl
theorem exec_quiesceVi_eq : exec (.quiesceVi src req) s = execQuiesceVi src req s := rfl
theorem exec_quiesceDone_eq : exec (.quiesceDone vi) s = execQuiesceDone vi s := rfl
theorem exec_resetVi_eq : exec (.resetVi src req) s = execResetVi src req s := rfl
theorem exec_removeVi_eq : exec (.removeVi src req) s = execRemoveVi src req s := rfl

end

/-- A command whose checks answer DONE runs past them (R219). -/
theorem ite_ne_stDone {α : Type} {c : Nat} (hcheck : c = stDone) (x y : α) : (if c != stDone then x else y) = y := by
  rw [hcheck, bne_self_eq_false, if_neg Bool.false_ne_true]

/-! ### The ends of a creation and of a quiesce -/

theorem execViCreateDone_eq_of_built {vi : BitVec 16} {s s1 : State} (hcreating : (s.vi vi.toNat).st = .creating)
    (hon : s.engOn = true) (hbuilt : s.buildVi vi.toNat = some s1) :
    execViCreateDone vi s = .next ((s1.viTo vi.toNat .quiesced).endRunning vi.toNat (s1.createRsp vi.toNat)) := by
  simp [execViCreateDone, hcreating, hon, hbuilt]

/-- Quiescing ends once the requests are drained, no move is left and every host copy is recalled (R225). -/
theorem execQuiesceDone_eq_of_recalled {vi : BitVec 16} {s s1 : State} (hquiescing : (s.vi vi.toNat).st = .quiescing)
    (hon : s.engOn = true) (hdrained : s.drained vi.toNat = true) (hmoves : s.moves.any (fun m => m.vi == vi.toNat) = false)
    (hrecalled : (s.invStep vi.toNat).recallVi vi.toNat = (s1, true)) :
    execQuiesceDone vi s = .next (((s1.stepDone vi.toNat).viTo vi.toNat .quiesced).endRunning vi.toNat [stDone]) := by
  simp only [execQuiesceDone, hquiescing, hon, hdrained, hmoves, hrecalled, bne_self_eq_false, Bool.not_true, Bool.or_self,
    Bool.false_eq_true, if_false]

/-- Settles O17: a command by the run the engines give it once its checks pass, an end by the lemma of its own. -/
theorem viLifecycleComplete : Obligations.ViLifecycleComplete := by
  unfold Obligations.ViLifecycleComplete
  refine ⟨?create, ?createDone, ?bind, ?quiesce, ?quiesceDone, ?reset, ?remove⟩
  case create =>
    intro src req tpool descBase p t back s s1 v s2 htakes htag hcheck hback hready
    rw [exec_createVi_eq, execCreateVi]
    refine congrArg _ (State.vendor_eq_of_run_none htakes ?_)
    simp only [s1, v] at htag hcheck hback hready
    simp only [htag, ite_ne_stDone hcheck, hback, Option.getD_some, hready, Bool.not_true, Bool.false_eq_true, if_false]
    rfl
  case createDone =>
    intro vi s1 s hcreating hon hbuilt
    rw [exec_viCreateDone_eq, execViCreateDone_eq_of_built hcreating hon hbuilt]
  case bind =>
    intro src req p s htakes hcheck hleaves
    have hgo : (pb p 2 != 0 && !(s.taken src 0xC101).leavesReady (pf p 0 2) false) = false := by
      obtain hports | hleaves := hleaves <;> simp [*]
    rw [exec_bindVi_eq, execBindVi]
    refine congrArg _ (State.vendor_eq_of_run_some htakes ?_)
    simp only [ite_ne_stDone hcheck, hgo, Bool.false_eq_true, if_false]
  case quiesce =>
    intro src req p s htakes hcheck
    rw [exec_quiesceVi_eq, execQuiesceVi]
    exact congrArg _ (State.vendor_eq_of_run_none htakes (ite_ne_stDone hcheck _ _))
  case quiesceDone =>
    intro vi s t s1 hquiescing hon hdrained hmoves hrecalled
    rw [exec_quiesceDone_eq, execQuiesceDone_eq_of_recalled hquiescing hon hdrained hmoves (Prod.ext rfl hrecalled)]
  case reset =>
    intro src req p s2 s s1 htakes hcheck hready hreset
    rw [exec_resetVi_eq, execResetVi]
    refine congrArg _ (State.vendor_eq_of_run_some htakes ?_)
    simp only [s1] at hcheck hready hreset
    simp only [ite_ne_stDone hcheck, hready, hreset, Bool.not_true, Bool.false_eq_true, if_false]
  case remove =>
    intro src req p s htakes hcheck hready
    rw [exec_removeVi_eq, execRemoveVi]
    refine congrArg _ (State.vendor_eq_of_run_some htakes ?_)
    simp only [ite_ne_stDone hcheck, hready, Bool.not_true, Bool.false_eq_true, if_false]

end Sys2Proof.Machine

/-! Freezing, thawing and dirty logging of a VI and the registers of its page (R217, R227, R228, R232), and the settling of
O18. -/

namespace Sys2Proof.Machine

section
variable (p : Fin 8) (ld : Fin 16) (vi : BitVec 16) (v : BitVec 32) (src : CmdSrc) (req : List (BitVec 8)) (base : BitVec 36)
  (s : State)

theorem exec_relayFreeze_eq : exec (.relayFreeze src req) s = execRelayFreeze src req s := rfl
theorem exec_relayThaw_eq : exec (.relayThaw src req) s = execRelayThaw src req s := rfl
theorem exec_dirtyLogStart_eq : exec (.dirtyLogStart src req base) s = execDirtyLogStart src req base s := rfl
theorem exec_dirtyLogStop_eq : exec (.dirtyLogStop src req) s = execDirtyLogStop src req s := rfl
theorem exec_viDoorbell_eq : exec (.viDoorbell p ld vi v) s = execViDoorbell p ld vi v s := rfl
theorem exec_fqMissedClear_eq : exec (.fqMissedClear p ld vi v) s = execFqMissedClear p ld vi v s := rfl
theorem exec_viTelUpdate_eq : exec .viTelUpdate s = execViTelUpdate s := rfl

end

/-! ### The dirty log -/

/-- The state with a VI's dirty log on and its bitmap empty; a log that is on keeps its place (R232). -/
def State.logStarted (s : State) (t base : Nat) : State :=
  { s.setVi t { (s.vi t) with dirtyLog := true, dlogBase := if (s.vi t).dirtyLog then (s.vi t).dlogBase else base } with
    dirty := SMap.put s.dirty t [] }

/-- The state with a VI's dirty log off and its bitmap freed (R232). -/
def State.logStopped (s : State) (t : Nat) : State :=
  { s.setVi t { (s.vi t) with dirtyLog := false, dlogBase := 0 } with dirty := SMap.del s.dirty t }

section
variable {src : CmdSrc} {req p : List Nat} {base : Nat} {s : State} (htakes : s.engTakes src 0xC107 req p = true)
  (hcheck : (s.taken src 0xC107).dlogCheck p base = stDone)
include htakes hcheck

theorem State.dirtyLog_eq_logStarted (hstart : pb p 2 = 1) :
    s.dirtyLog src req base = ((s.taken src 0xC107).logStarted (pf p 0 2) base).respondCmd src 0xC107 [stDone] := by
  rw [State.dirtyLog]
  exact State.vendor_eq_of_run_some htakes ((ite_ne_stDone hcheck _ _).trans (if_pos hstart))

theorem State.dirtyLog_eq_logStopped (hstop : pb p 2 ≠ 1) :
    s.dirtyLog src req base = ((s.taken src 0xC107).logStopped (pf p 0 2)).respondCmd src 0xC107 [stDone] := by
  rw [State.dirtyLog]
  exact State.vendor_eq_of_run_some htakes ((ite_ne_stDone hcheck _ _).trans (if_neg hstop))

end

/-- Settles O18: a freeze by whether it runs already, the dirty log by its OP, a register of the VI page by its write. -/
theorem viFreezeAndLogComplete : Obligations.ViFreezeAndLogComplete := by
  unfold Obligations.ViFreezeAndLogComplete
  refine ⟨?freeze, ?freezeAgain, ?thaw, ?logStart, ?logStop, ?doorbell, ?missedClear, ?telUpdate⟩
  case freeze =>
    intro src req p s hnew htakes hcheck hleaves
    rw [exec_relayFreeze_eq, execRelayFreeze, if_neg hnew]
    refine congrArg _ (State.vendor_eq_of_run_none htakes ((ite_ne_stDone hcheck _ _).trans ?_))
    rw [hleaves]
    rfl
  case freezeAgain =>
    intro src req s hruns hon
    rw [exec_relayFreeze_eq, execRelayFreeze, if_pos hruns, if_pos hon]
  case thaw =>
    intro src req p s s1 t htakes hcheck hleaves
    rw [exec_relayThaw_eq, execRelayThaw]
    refine congrArg _ (State.vendor_eq_of_run_some htakes ((ite_ne_stDone hcheck _ _).trans ?_))
    rw [hleaves]
    rfl
  case logStart =>
    intro src req base p s s1 t hop htakes hcheck hstart
    rw [exec_dirtyLogStart_eq, execDirtyLogStart, if_neg hop, State.dirtyLog_eq_logStarted htakes hcheck hstart]
    rfl
  case logStop =>
    intro src req p s s1 t hop htakes hcheck hstop
    rw [exec_dirtyLogStop_eq, execDirtyLogStop, if_pos hop, State.dirtyLog_eq_logStopped htakes hcheck (by omega)]
    rfl
  case doorbell =>
    intro p ld vi v s hpage
    rw [exec_viDoorbell_eq, execViDoorbell, if_pos hpage, State.viDoorbell]
  case missedClear =>
    intro p ld vi v s hpage hbit
    rw [exec_fqMissedClear_eq, execFqMissedClear, if_pos (by rw [hpage, hbit, Bool.and_self])]
  case telUpdate =>
    intro s hon
    rw [exec_viTelUpdate_eq, execViTelUpdate, if_pos hon]

end Sys2Proof.Machine

/-! Saving and restoring a VI (R229, R231, R232), and the settling of O19. -/

namespace Sys2Proof.Machine

section
variable (src : CmdSrc) (req : List (BitVec 8)) (bs : List Bursts) (tpool : BitVec 36) (descBase : BitVec 40)
  (places : List Place) (s : State)

theorem exec_relaySaveFull_eq : exec (.relaySaveFull src req bs) s = execRelaySaveFull src req bs s := rfl
theorem exec_relaySaveDelta_eq : exec (.relaySaveDelta src req bs) s = execRelaySaveDelta src req bs s := rfl
theorem exec_relayRestoreNew_eq :
    exec (.relayRestoreNew src req tpool descBase places) s = execRelayRestoreNew src req tpool descBase places s := rfl
theorem exec_relayRestoreApply_eq :
    exec (.relayRestoreApply src req places) s = execRelayRestoreApply src req places s := rfl

end

/-- A save taken whose checks pass and whose reads and writes need not wait answers with its blob's counts, in either MODE
(R221, R229, R232). -/
theorem State.relaySave_eq_saved {src : CmdSrc} {req p rsp : List Nat} {bs : List Bursts} {s t : State}
    (htakes : s.engTakes src 0xC108 req p = true) (hcheck : (s.taken src 0xC108).saveCheck p = stDone)
    (hsave : (s.taken src 0xC108).save p bs = (t, some rsp)) :
    s.relaySave src req bs = t.respondCmd src 0xC108 rsp := by
  rw [State.relaySave]
  exact State.vendor_eq_of_run_some htakes ((ite_ne_stDone hcheck _ _).trans hsave)

section
variable {src : CmdSrc} {req : List (BitVec 8)} {places : List Place} {s : State} (hidle : s.restoring src = none)
include hidle

/-- A payload with NEW, on a path that restores nothing, is taken as a new command (R231). -/
theorem execRelayRestoreNew_eq_vendor (tpool : BitVec 36) (descBase : BitVec 40)
    (hnew : (pb (s.payloadOf src 0xC109 req) 2).testBit 1 = true) :
    execRelayRestoreNew src req tpool descBase places s =
      .next (s.vendor src 0xC109 (nats req) (fun s p => s.restoreNew src p tpool.toNat descBase.toNat places)) := by
  rw [execRelayRestoreNew, if_pos hnew, hidle]

/-- A payload without NEW, on a path that restores nothing, is taken as a new command as well (R231). -/
theorem execRelayRestoreApply_eq_vendor (happly : (pb (s.payloadOf src 0xC109 req) 2).testBit 1 = false) :
    execRelayRestoreApply src req places s =
      .next (s.vendor src 0xC109 (nats req) (fun s p => s.restoreApply src p places)) := by
  rw [execRelayRestoreApply, if_neg (Bool.eq_false_iff.mp happly), hidle]

end

/-- Settles O19: both forms of a save by `relaySave`, both forms of a restore by the command the engines take. -/
theorem relayComplete : Obligations.RelayComplete := by
  unfold Obligations.RelayComplete
  refine ⟨?full, ?delta, ?new, ?apply⟩
  case full =>
    intro src req bs p rsp s s1 hmode htakes hcheck hsave
    rw [exec_relaySaveFull_eq, execRelaySaveFull, if_neg hmode, State.relaySave_eq_saved htakes hcheck (Prod.ext rfl hsave)]
  case delta =>
    intro src req bs p rsp s s1 hmode htakes hcheck hsave
    rw [exec_relaySaveDelta_eq, execRelaySaveDelta, if_pos hmode, State.relaySave_eq_saved htakes hcheck (Prod.ext rfl hsave)]
  case new =>
    intro src req tpool descBase places p rsp s s1 hnew hidle htakes hdone
    rw [exec_relayRestoreNew_eq, execRelayRestoreNew_eq_vendor hidle tpool descBase hnew]
    exact congrArg _ (State.vendor_eq_of_run_some htakes (Prod.ext rfl hdone))
  case apply =>
    intro src req places p rsp s s1 happly hidle htakes hdone
    rw [exec_relayRestoreApply_eq, execRelayRestoreApply_eq_vendor hidle happly]
    exact congrArg _ (State.vendor_eq_of_run_some htakes (Prod.ext rfl hdone))

end Sys2Proof.Machine

/-! The link of a host port (R235, R240, R253, R254, R257, R259, R377): training, PERST_N, IDE and L0p, and the settling of
O20. -/

namespace Sys2Proof.Machine

section
variable (p : Fin 8) (t : LinkTrain) (mem : Bool) (key : BitVec 256) (width : Fin 4) (s : State)

theorem exec_linkDown_eq : exec (.linkDown p) s = execLinkDown p s := rfl
theorem exec_linkUp_eq : exec (.linkUp p t) s = execLinkUp p t s := rfl
theorem exec_linkGraceEnd_eq : exec (.linkGraceEnd p) s = execLinkGraceEnd p s := rfl
theorem exec_perstN_eq : exec (.perstN p) s = execPerstN p s := rfl
theorem exec_ideFail_eq : exec (.ideFail p) s = execIdeFail p s := rfl
theorem exec_ideKm_eq : exec (.ideKm p mem key) s = execIdeKm p mem key s := rfl
theorem exec_l0pEvaluate_eq : exec (.l0pEvaluate p) s = execL0pEvaluate p s := rfl
theorem exec_l0pWidthChange_eq : exec (.l0pWidthChange p width) s = execL0pWidthChange p width s := rfl

end

/-! ### Training and PERST_N -/

/-- A port that may train brings its link up at any speed of CXL, and below 32 GT/s reports LINK_DEGRADED alone (R235). -/
theorem execLinkUp_eq_of_may_train {p : Fin 8} {s : State} (t : LinkTrain) (hdown : s.linkUp p.val = false)
    (hpin : s.flag (pgPort p.val) Reg.PORT_PINS_PERST_N = true) (hawake : s.awake = true) (hpwr : s.pwr.trans ≠ 2)
    (hready : 6 ≤ s.fld 0 Reg.TRUSS_BOOT_STAT_STAGE) (hbooted : s.fld 0 Reg.TRUSS_BOOT_STAT_STAGE ≠ 0xE)
    (hruns : s.flag (pgPort p.val) (Reg.SEQ_CTL_HALTED 0x380) = false) :
    execLinkUp p t s =
      .next (if t.speed.val = 0 then s.raise (64 + 8 * p.val) 0x603 ERROR none 0 0 else s.dlUp p.val t) := by
  have hstage : ¬ s.fld 0 Reg.TRUSS_BOOT_STAT_STAGE < 6 := by omega
  simp only [execLinkUp, hdown, hpin, hawake, beq_false_of_ne hpwr, hstage, beq_false_of_ne hbooted, hruns, decide_false,
    Bool.not_true, Bool.or_self, Bool.false_eq_true, if_false]
  split <;> rfl

/-- A port's state once its PERST_N has fallen, before the wake: the link down, any grace period ended, the port reset (R257,
R259). -/
def State.pinFallen (s : State) (k : Nat) : State :=
  let s1 := if s.linkUp k then s.dlDown k 2 else s
  let s2 := (s1.put (pgPort k) Reg.PORT_PINS_PERST_N 0).urgUpdate k
  (if (s2.prt k).graceEnd.isSome then s2.graceOver k 2 else s2).portReset k

theorem execPerstN_eq_of_pin_high {p : Fin 8} {s : State} (hpin : s.flag (pgPort p.val) Reg.PORT_PINS_PERST_N = true) :
    execPerstN p s =
      .next (if (s.pinFallen p.val).pwrGoal = 2 then (s.pinFallen p.val).wakeBy 3 else s.pinFallen p.val) := by
  simp only [execPerstN, hpin, Bool.not_true, Bool.false_eq_true, if_false]
  rfl

/-! ### IDE and L0p of a link that is up -/

section
variable {p : Fin 8} {s : State} (hup : s.linkUp p.val = true)
include hup

theorem execIdeFail_eq_of_keyed (hkeyed : (s.prt p.val).ideMem ≠ none ∨ (s.prt p.val).ideIo ≠ none) :
    execIdeFail p s = .next (((s.bump (pgPort p.val) Reg.PORT_IDE_FAIL_CNT_COUNT Reg.PORT_IDE_FAIL_CNT_SAT 1).raise
      (65 + 8 * p.val) 0x606 ERROR none 0 0).dlDown p.val) := by
  have hkey : ((s.prt p.val).ideMem.isNone && (s.prt p.val).ideIo.isNone) = false := by
    simpa only [Bool.and_eq_false_iff, Option.isNone_eq_false_iff, Option.isSome_iff_ne_none] using hkeyed
  simp only [execIdeFail, hup, hkey, Bool.not_true, Bool.or_self, Bool.false_eq_true, if_false]

/-- A port at an urgency level of 1 or more asks for the width it trained at, once 100 µs have passed (R240). -/
theorem execL0pEvaluate_eq_widthAsk (hon : s.flag (pgPort p.val) Reg.PORT_LINK_CTL_L0P_EN = true)
    (hdue : (s.prt p.val).trafAt + 100000 ≤ s.time) (hurgent : 1 ≤ (s.prt p.val).urgLevel)
    (hnarrow : (s.prt p.val).l0p < (s.prt p.val).trWidth) :
    execL0pEvaluate p s = .next ((s.setPrt p.val { (s.prt p.val) with traf := 0, trafAt := s.time }).emit
      (.widthAsk p.val (s.prt p.val).trWidth)) := by
  have hnow : ¬ s.time < (s.prt p.val).trafAt + 100000 := by omega
  simp [execL0pEvaluate, hon, hup, hnow, hurgent, hnarrow]

theorem execL0pWidthChange_eq_of_le {width : Fin 4} (hfits : 2 ^ (width.val + 1) ≤ (s.prt p.val).trWidth) :
    execL0pWidthChange p width s = .next (((s.setPrt p.val { (s.prt p.val) with l0p := 2 ^ (width.val + 1) }).put
      (pgPort p.val) Reg.PORT_LINK_STAT_WIDTH (2 ^ (width.val + 1))).pacerUpdate) := by
  simp only [execL0pWidthChange, hup, Nat.not_lt.mpr hfits, decide_false, Bool.not_true, Bool.or_self, Bool.false_eq_true,
    if_false]

end

/-- Settles O20: training by the speed reached, a fall of PERST_N by whether the Kenez sleeps, and each other command by its
answer on a link that is up. -/
theorem linksComplete : Obligations.LinksComplete := by
  unfold Obligations.LinksComplete
  refine ⟨?down, ?up, ?slow, ?graceEnd, ?perstN, ?perstNWakes, ?ideFail, ?ideKm, ?l0pEvaluate, ?l0pWidthChange⟩
  case down =>
    intro p s hup
    rw [exec_linkDown_eq, execLinkDown, if_pos hup]
  case up =>
    intro p t s hdown hpin hawake hpwr hready hbooted hruns hfast
    rw [exec_linkUp_eq, execLinkUp_eq_of_may_train t hdown hpin hawake hpwr hready hbooted hruns,
      if_neg (Fin.val_ne_zero_iff.mpr hfast)]
  case slow =>
    intro p t s hdown hpin hawake hpwr hready hbooted hruns hslow
    rw [exec_linkUp_eq, execLinkUp_eq_of_may_train t hdown hpin hawake hpwr hready hbooted hruns,
      if_pos (Fin.val_eq_zero_iff.mpr hslow)]
  case graceEnd =>
    intro p t0 s hgrace hdue
    rw [exec_linkGraceEnd_eq, execLinkGraceEnd, hgrace]
    exact congrArg _ (if_pos hdue)
  case perstN =>
    intro p s pg s1 s2 s3 hpin hgoal
    rw [exec_perstN_eq, execPerstN_eq_of_pin_high hpin]
    exact congrArg _ (if_neg hgoal)
  case perstNWakes =>
    intro p s pg s1 s2 s3 hpin hgoal
    rw [exec_perstN_eq, execPerstN_eq_of_pin_high hpin]
    exact congrArg _ (if_pos hgoal)
  case ideFail =>
    intro p s hup hkeyed
    rw [exec_ideFail_eq, execIdeFail_eq_of_keyed hup hkeyed]
  case ideKm =>
    intro p mem key s q hup
    rw [exec_ideKm_eq, execIdeKm, if_neg (by rw [hup]; decide)]
  case l0pEvaluate =>
    intro p s q hon hup hdue hurgent hnarrow
    rw [exec_l0pEvaluate_eq, execL0pEvaluate_eq_widthAsk hup hon hdue hurgent hnarrow]
  case l0pWidthChange =>
    intro p width s hup hfits
    rw [exec_l0pWidthChange_eq, execL0pWidthChange_eq_of_le hup hfits]

end Sys2Proof.Machine

/-! Capacity of an LD (R241, R242, R245, R246, R262): its allocations and decoders, and the extents offered, answered and
released, and the settling of O21. -/

namespace Sys2Proof.Machine

section
variable (src : CmdSrc) (p : Fin 8) (ld : Fin 16) (i : Fin 8) (d : HdmDecoder) (vi : BitVec 16) (capG : BitVec 18)
  (dcG : List (BitVec 36)) (sharable : BitVec 8) (start blocks accept : BitVec 32) (s : State)

theorem exec_setLdAllocations_eq : exec (.setLdAllocations src p ld capG dcG sharable) s =
    execSetLdAllocations src p ld capG dcG sharable s := rfl
theorem exec_tunnelManagementCommand_eq : exec (.tunnelManagementCommand src p ld capG dcG sharable) s =
    execTunnelManagementCommand src p ld capG dcG sharable s := rfl
theorem exec_hdmDecoderCommit_eq : exec (.hdmDecoderCommit p ld i d) s = execHdmDecoderCommit p ld i d s := rfl
theorem exec_initiateDcAdd_eq : exec (.initiateDcAdd src vi start blocks) s = execInitiateDcAdd src vi start blocks s := rfl
theorem exec_addDcResponse_eq : exec (.addDcResponse p ld vi start accept) s = execAddDcResponse p ld vi start accept s := rfl
theorem exec_releaseDc_eq : exec (.releaseDc p ld vi start blocks) s = execReleaseDc p ld vi start blocks s := rfl

end

/-! ### Allocations -/

theorem State.setAlloc_eq_of_le {s : State} {src : CmdSrc} {p ld capG sharable : Nat} {dcG : List Nat}
    (hfits : capG + dcG.sum ≤ 49152) :
    s.setAlloc src p ld capG dcG sharable = (s.setLdev p ld
      { (s.ldev p ld) with capG := capG, dcG := dcG, sharable := sharable }).emit (.reply src ccSuccess []) := by
  rw [State.setAlloc, if_neg (Nat.not_lt.mpr hfits)]

section
variable {p : Fin 8} {ld : Fin 16} {capG : BitVec 18} {dcG : List (BitVec 36)} {sharable : BitVec 8} {s : State}
  (hregions : regionsOk dcG = true) (hawake : s.awake = true)
include hregions hawake

theorem execSetLdAllocations_i3c_eq : execSetLdAllocations .i3c p ld capG dcG sharable s =
    .next (s.setAlloc .i3c p.val ld.val capG.toNat (dcG.map BitVec.toNat) sharable.toNat) := by
  simp [execSetLdAllocations, hregions, hawake]

/-- The tunnel through the FM-owned LD's mailbox needs the manager port's link (R262). -/
theorem execTunnelManagementCommand_fmLd_eq (hup : s.linkUp s.mgrPort = true) :
    execTunnelManagementCommand .fmLd p ld capG dcG sharable s =
      .next (s.setAlloc .fmLd p.val ld.val capG.toNat (dcG.map BitVec.toNat) sharable.toNat) := by
  simp [execTunnelManagementCommand, hregions, hawake, hup]

end

theorem execHdmDecoderCommit_eq_of_cred {p : Fin 8} {ld : Fin 16} {i : Fin 8} {d : HdmDecoder} {s : State}
    (hup : s.linkUp p.val = true) (hcred : d.hdmDb = false ∨ s.fld (pgPort p.val) Reg.PORT_HOST_CRED_BISNP ≠ 0) :
    execHdmDecoderCommit p ld i d s = .next (s.setLdev p.val ld.val
      { (s.ldev p.val ld.val) with decoders := SMap.put (s.ldev p.val ld.val).decoders i.val d }) := by
  have hallowed : (d.hdmDb && s.fld (pgPort p.val) Reg.PORT_HOST_CRED_BISNP == 0) = false := by
    simpa only [Bool.and_eq_false_iff, beq_eq_false_iff_ne] using hcred
  simp only [execHdmDecoderCommit, hup, hallowed, Bool.not_true, Bool.or_self, Bool.false_eq_true, if_false]

/-! ### Extents -/

/-- An extent is offered on every port of its VI, or attached at once where the VI has none. -/
def State.extentAdded (s : State) (t start blocks : Nat) : State :=
  let ks := pick 8 (fun k => (s.vi t).ports.testBit k)
  if ks.isEmpty then { s with extents := s.extents ++ [⟨t, start, blocks, 8, false, true, none, 0⟩] }
  else ks.foldl (fun (s : State) (k : Nat) => s.offer t start blocks k true) s

theorem State.extentAdded_eq_offers {s : State} {t : Nat} (start blocks : Nat)
    (hports : pick 8 (fun k => (s.vi t).ports.testBit k) ≠ []) :
    s.extentAdded t start blocks = (pick 8 (fun k => (s.vi t).ports.testBit k)).foldl
      (fun (s : State) (k : Nat) => s.offer t start blocks k true) s :=
  if_neg (fun hempty => hports (List.isEmpty_iff.mp hempty))

/-- An add of some blocks over a path with the FM API is refused or done, as R245 says. -/
theorem execInitiateDcAdd_eq_of_fm {src : CmdSrc} {vi : BitVec 16} {start blocks : BitVec 32} {s : State}
    (hsrc : src = .i3c ∨ src = .fmLd) (hblocks : blocks ≠ 0) (hon : s.engOn = true) :
    execInitiateDcAdd src vi start blocks s =
      .next (if s.addRefused vi.toNat start.toNat blocks.toNat then s.emit (.reply src ccInvalid [])
        else (s.extentAdded vi.toNat start.toNat blocks.toNat).emit (.reply src ccSuccess [])) := by
  have hpath : (src != .i3c && src != .fmLd) = false := by
    rcases hsrc with rfl | rfl <;> rfl
  simp only [execInitiateDcAdd, hpath, hblocks, hon, Bool.not_true, Bool.false_eq_true, if_false]
  split <;> rfl

/-- The state after a host answers an offered extent by taking its first n blocks: they are granted, the others declined
(R245). -/
def State.extentAnswered (s : State) (e : Extent) (n : Nat) : State :=
  let rest := s.extents.filter (fun x => x != e)
  let s := { s with extents := if n = 0 then rest else rest ++ [{ e with accepted := true, blocks := n }] }
  let s := if n = 0 then s else s.dcNotice e 1
  if n < e.blocks then s.dcNotice e 2 else s

section
variable {s : State} {e : Extent} (hsome : 0 < e.blocks)
include hsome

theorem State.extentAnswered_all : s.extentAnswered e e.blocks =
    ({ s with extents := s.extents.filter (fun x => x != e) ++ [{ e with accepted := true }] } : State).dcNotice e 1 := by
  have hne : e.blocks ≠ 0 := by omega
  simp only [State.extentAnswered, hne, if_false, lt_irrefl]

theorem State.extentAnswered_none : s.extentAnswered e 0 =
    (({ s with extents := s.extents.filter (fun x => x != e) } : State).dcNotice e 2) := by
  simp only [State.extentAnswered, hsome, if_true]

end

theorem execAddDcResponse_eq_extentAnswered {p : Fin 8} {ld : Fin 16} {vi : BitVec 16} {start : BitVec 32} {e : Extent}
    {s : State} (accept : BitVec 32) (hup : s.linkUp p.val = true) (hport : (s.vi vi.toNat).ports.testBit p.val = true)
    (hld : (s.vi vi.toNat).ld = ld.val) (hoffered : s.offered p.val vi.toNat start.toNat = some e) :
    execAddDcResponse p ld vi start accept s = .next (s.extentAnswered e (min accept.toNat e.blocks)) := by
  simp only [execAddDcResponse, hup, hport, hld, hoffered, bne_self_eq_false, Bool.not_true, Bool.or_self, Bool.false_eq_true,
    if_false]
  rfl

/-- Settles O21: allocations by `setAlloc`, an add by whether R245 refuses it, an answer by how many blocks it takes. -/
theorem ldAllocationComplete : Obligations.LdAllocationComplete := by
  unfold Obligations.LdAllocationComplete
  refine ⟨?allocate, ?tunnel, ?decoder, ?add, ?addRefused, ?accepted, ?declined, ?release⟩
  case allocate =>
    intro p ld capG dcG sharable s hregions hawake hfits
    rw [exec_setLdAllocations_eq, execSetLdAllocations_i3c_eq hregions hawake, State.setAlloc_eq_of_le hfits]
  case tunnel =>
    intro p ld capG dcG sharable s hregions hawake hup hfits
    rw [exec_tunnelManagementCommand_eq, execTunnelManagementCommand_fmLd_eq hregions hawake hup,
      State.setAlloc_eq_of_le hfits]
  case decoder =>
    intro p ld i d s hup hcred
    rw [exec_hdmDecoderCommit_eq, execHdmDecoderCommit_eq_of_cred hup hcred]
  case add =>
    intro src vi start blocks s hsrc hblocks hon hgranted hports
    rw [exec_initiateDcAdd_eq, execInitiateDcAdd_eq_of_fm hsrc hblocks hon, if_neg (Bool.eq_false_iff.mp hgranted),
      State.extentAdded_eq_offers _ _ hports]
  case addRefused =>
    intro src vi start blocks s hsrc hblocks hon hrefused
    rw [exec_initiateDcAdd_eq, execInitiateDcAdd_eq_of_fm hsrc hblocks hon, if_pos hrefused]
  case accepted =>
    intro p ld vi start accept e s hup hport hld hoffered hsome hwhole
    rw [exec_addDcResponse_eq, execAddDcResponse_eq_extentAnswered accept hup hport hld hoffered, min_eq_right hwhole,
      State.extentAnswered_all hsome]
  case declined =>
    intro p ld vi start e s hup hport hld hoffered hsome
    have hnone : min (0 : BitVec 32).toNat e.blocks = 0 := Nat.zero_min _
    rw [exec_addDcResponse_eq, execAddDcResponse_eq_extentAnswered 0 hup hport hld hoffered, hnone,
      State.extentAnswered_none hsome]
  case release =>
    intro p ld vi start blocks s hup hon hld hquiet hready
    rw [exec_releaseDc_eq, execReleaseDc]
    simp only [hup, hon, hld, hquiet, hready, bne_self_eq_false, Bool.not_true, Bool.or_self, Bool.false_eq_true, if_false]

end Sys2Proof.Machine

/-! The poison, scan and event commands of an LD (R248 to R251): the line rewrite of an injection or a clearing, the steps of a
scan, and the settling of O22. -/

namespace Sys2Proof.Machine

section
variable (p : Fin 8) (ld : Fin 16) (ld17 : Fin 17) (log : Fin 4) (count : BitVec 12) (dpa : BitVec 52) (lines : BitVec 32)
  (data : BitVec 512) (b : Bursts) (s : State)

theorem exec_getPoisonList_eq : exec (.getPoisonList p ld) s = execGetPoisonList p ld s := rfl
theorem exec_injectPoison_eq : exec (.injectPoison p ld dpa) s = .next (s.cmdWrite p ld dpa.toNat .wrPtl 0 0 true) := rfl
theorem exec_clearPoison_eq : exec (.clearPoison p ld dpa data) s =
    .next (s.cmdWrite p ld dpa.toNat .wr data (BitVec.allOnes 64) false) := rfl
theorem exec_scanMedia_eq : exec (.scanMedia p ld dpa lines) s = execScanMedia p ld dpa lines s := rfl
theorem exec_scanMediaStep_eq : exec (.scanMediaStep p ld b) s = execScanMediaStep p ld b s := rfl
theorem exec_getScanMediaCapabilities_eq :
    exec (.getScanMediaCapabilities p ld dpa lines) s = execGetScanMediaCapabilities p ld dpa lines s := rfl
theorem exec_getScanMediaResults_eq : exec (.getScanMediaResults p ld) s = execGetScanMediaResults p ld s := rfl
theorem exec_clearEventRecords_eq :
    exec (.clearEventRecords p ld17 log count) s = execClearEventRecords p ld17 log count s := rfl

end

/-! ### The rewrite of a poison command -/

/-- The invalidating write by which a poison command rewrites the line at a DPA (R205, R249). -/
def cmdReq (op : ReqOp) (p : Fin 8) (ld : Fin 16) (dpa : Nat) (data : BitVec 512) (mask : BitVec 64) (poison : Bool)
    (now : Nat) : Req :=
  { hostReq op p.val ld.val 0 .i data mask now with org := .cmd, dpa := 64 * (dpa / 64), poison := poison }

theorem State.cmdWrite_eq_startReq {s : State} {p : Fin 8} {ld : Fin 16} {dpa : Nat} (op : ReqOp) (data : BitVec 512)
    (mask : BitVec 64) (poison : Bool) (hserves : s.portServes p.val = true)
    (hwindow : (s.windowOf p.val ld.val dpa (fun _ => true)).isSome = true) :
    let s1 : State := { s with nextReq := (s.nextReq + 1) % 2 ^ 32 }
    s.cmdWrite p ld dpa op data mask poison =
      ((if poison then s1.listPoison p.val ld.val dpa else s1.unlistPoison p.val ld.val dpa).startReq s.nextReq
        (cmdReq op p ld dpa data mask poison s.time)).release := by
  have hbound : (s.windowOf p.val ld.val dpa (fun _ => true)).isNone = false := by
    rw [Option.isNone_eq_false_iff, hwindow]
  simp only [State.cmdWrite, hserves, hbound, Bool.not_true, Bool.false_eq_true, if_false]
  rfl

/-! ### The media scan -/

section
variable {p : Fin 8} {ld : Fin 16} {dpa : BitVec 52} {lines : BitVec 32} {s : State} (hup : s.linkUp p.val = true)
  (hlines : lines ≠ 0)
include hup hlines

theorem execScanMedia_eq_started (hidle : (s.ldev p.val ld.val).scan = none) :
    execScanMedia p ld dpa lines s = .next ((s.setLdev p.val ld.val
      { (s.ldev p.val ld.val) with scan := some (64 * (dpa.toNat / 64), lines.toNat, []), scanDone := [],
                                   bg := some (0x4304, false, []) }).emit (.reply (.hostLd p ld) ccStarted [])) := by
  simp only [execScanMedia, hup, hlines, hidle, Option.isSome_none, Bool.not_true, Bool.false_eq_true, if_false]

theorem execScanMedia_eq_busy (hscans : (s.ldev p.val ld.val).scan ≠ none) :
    execScanMedia p ld dpa lines s = .next (s.emit (.reply (.hostLd p ld) ccBusy [])) := by
  simp only [execScanMedia, hup, hlines, Option.isSome_iff_ne_none.mpr hscans, Bool.not_true, Bool.false_eq_true, if_false,
    if_true]

end

theorem execScanMediaStep_eq_scanStep {p : Fin 8} {ld : Fin 16} {s : State} (b : Bursts)
    (hgoes : s.scanGoes p.val ld.val = true) (hcalm : s.urg3 = false) :
    execScanMediaStep p ld b s = .next (s.scanStep p.val ld.val b) := by
  rw [execScanMediaStep, if_pos (by rw [hgoes, hcalm]; rfl)]

section
variable {s : State} {k ld dpa left : Nat} {found : List Nat} {b : Bursts}

theorem State.scanStep_eq_scanOver (hscan : (s.ldev k ld).scan = some (dpa, 0, found)) :
    s.scanStep k ld b = s.scanOver k ld found := by
  rw [State.scanStep, hscan]
  rfl

/-- A line read, with others left, moves the scan on by one line and lists the line if it is poisoned (R250). -/
theorem State.scanStep_eq_next_line {s1 : State} {bad : Bool} (hscan : (s.ldev k ld).scan = some (dpa, left, found))
    (hleft : 1 < left) (hread : s.scanRead k ld dpa b = (s1, some (some bad))) :
    let s2 := if bad then s1.listPoison k ld dpa else s1
    s.scanStep k ld b = s2.setLdev k ld
      { (s2.ldev k ld) with scan := some (dpa + 64, left - 1, if bad then found ++ [dpa] else found) } := by
  have hmore : left ≠ 0 := by omega
  have hlast : left ≠ 1 := by omega
  cases bad <;> simp [State.scanStep, hscan, hread, hmore, hlast]

end

/-- Settles O22: both poison commands by `cmdWrite`, a scan by whether one runs, its step by what is left of it. -/
theorem ldCommandsComplete : Obligations.LdCommandsComplete := by
  unfold Obligations.LdCommandsComplete
  refine ⟨?poisonList, ?inject, ?clear, ?scan, ?scanBusy, ?scanEnd, ?scanStep, ?capabilities, ?results, ?events⟩
  case poisonList =>
    intro p ld s hup
    rw [exec_getPoisonList_eq, execGetPoisonList, if_neg (by rw [hup]; decide)]
  case inject =>
    intro p ld dpa s r s1 hserves hwindow
    rw [exec_injectPoison_eq, State.cmdWrite_eq_startReq .wrPtl 0 0 true hserves hwindow]
    rfl
  case clear =>
    intro p ld dpa data s r s1 hserves hwindow
    rw [exec_clearPoison_eq, State.cmdWrite_eq_startReq .wr data (BitVec.allOnes 64) false hserves hwindow]
    rfl
  case scan =>
    intro p ld dpa lines s hup hlines hidle
    rw [exec_scanMedia_eq, execScanMedia_eq_started hup hlines hidle]
  case scanBusy =>
    intro p ld dpa lines s hup hlines hscans
    rw [exec_scanMedia_eq, execScanMedia_eq_busy hup hlines hscans]
  case scanEnd =>
    intro p ld b dpa found s hgoes hcalm hscan
    rw [exec_scanMediaStep_eq, execScanMediaStep_eq_scanStep b hgoes hcalm, State.scanStep_eq_scanOver hscan]
  case scanStep =>
    intro p ld b dpa left found bad s s1 s2 hgoes hcalm hscan hleft hread
    rw [exec_scanMediaStep_eq, execScanMediaStep_eq_scanStep b hgoes hcalm,
      State.scanStep_eq_next_line hscan hleft (Prod.ext rfl hread)]
  case capabilities =>
    intro p ld dpa lines s hup
    rw [exec_getScanMediaCapabilities_eq, execGetScanMediaCapabilities, if_pos hup]
  case results =>
    intro p ld s hup
    rw [exec_getScanMediaResults_eq, execGetScanMediaResults, if_pos hup]
  case events =>
    intro p ld log count s d q n hup
    rw [exec_clearEventRecords_eq, execClearEventRecords, if_pos hup]

end Sys2Proof.Machine

/-! Mailbox commands that are answered at once (R236, R237, R262, R263, R386): firmware from the manager port, QoS, background
status and unsupported opcodes, and the settling of O23. -/

namespace Sys2Proof.Machine

section
variable (src : CmdSrc) (p : Fin 8) (opcode : BitVec 16) (off : BitVec 32) (bytes : List (BitVec 8)) (s : State)

theorem exec_transferFw_eq : exec (.transferFw p off bytes) s = execTransferFw p off bytes s := rfl
theorem exec_activateFw_eq : exec (.activateFw p) s = execActivateFw p s := rfl
theorem exec_getQosStatus_eq : exec (.getQosStatus src p) s = execGetQosStatus src p s := rfl
theorem exec_getBackgroundOperationStatus_eq :
    exec (.getBackgroundOperationStatus src) s = execGetBackgroundOperationStatus src s := rfl
theorem exec_unsupportedCommand_eq : exec (.unsupportedCommand src opcode) s = execUnsupportedCommand src opcode s := rfl

end

/-! ### Firmware -/

/-- The bytes of a boot header: its magic number and the slot it names (R386). -/
def bootHeader (slot : Nat) : List Nat := leBytes 4 0x48424B54 ++ [slot]

section
variable {p : Fin 8} {s : State} (hup : s.linkUp p.val = true) (hmgr : p.val = s.mgrPort)
include hup hmgr

theorem execTransferFw_eq_stored {off : BitVec 32} {bytes : List (BitVec 8)}
    (hfits : off.toNat + bytes.length ≤ 0xF00000) :
    execTransferFw p off bytes s = .next (({ s with flash := Memory.store s.flash (s.idleSlot + off.toNat) (nats bytes) } :
      State).emit (.reply .fmLd ccSuccess [])) := by
  simp only [execTransferFw, hup, hmgr.symm, Nat.not_lt.mpr hfits, ne_eq, not_true_eq_false, Bool.not_true,
    Bool.false_eq_true, if_true, if_false]

theorem execActivateFw_eq_bootHeader : execActivateFw p s =
    .next (({ s with
      flash := Memory.store (Memory.erase s.flash 0) 0 (bootHeader (if s.idleSlot = 0x1000000 then 1 else 0)) } : State).emit
        (.reply .fmLd ccSuccess [])) := by
  simp only [execActivateFw, bootHeader, hup, hmgr.symm, ne_eq, not_true_eq_false, Bool.not_true, Bool.false_eq_true,
    if_true, if_false]

end

/-! ### Replies while awake -/

/-- A command that nothing but sleep keeps from its answer. -/
theorem ite_not_awake {α : Type} {s : State} (hawake : s.awake = true) (x y : α) : (if !s.awake then x else y) = y := by
  rw [hawake, if_neg (by decide)]

theorem execGetQosStatus_eq_of_fm {src : CmdSrc} {s : State} (p : Fin 8) (hawake : s.awake = true)
    (hsrc : src = .i3c ∨ src = .fmLd) :
    execGetQosStatus src p s =
      .next ((s.emit (.reply src ccSuccess [(Config.qos (8 * s.free + p.val)) % 256])).tick) := by
  rw [execGetQosStatus, ite_not_awake hawake, if_pos hsrc]

theorem execUnsupportedCommand_eq_of_no_vendor {opcode : BitVec 16} {s : State} (src : CmdSrc) (hawake : s.awake = true)
    (hnone : vendorReq opcode.toNat = none) :
    execUnsupportedCommand src opcode s = .next (s.emit (.reply src ccUnsupported [])) := by
  simp only [execUnsupportedCommand, hawake, hnone, Option.isSome_none, Bool.not_false, Bool.true_or, Bool.and_self, if_true]

/-- Settles O23: firmware by the manager port's link, every other command by its answer while awake. -/
theorem commandRepliesComplete : Obligations.CommandRepliesComplete := by
  unfold Obligations.CommandRepliesComplete
  refine ⟨?transfer, ?activate, ?qos, ?background, ?backgroundFm, ?unsupported⟩
  case transfer =>
    intro p off bytes s hup hmgr hfits
    rw [exec_transferFw_eq, execTransferFw_eq_stored hup hmgr hfits]
  case activate =>
    intro p s hup hmgr
    rw [exec_activateFw_eq, execActivateFw_eq_bootHeader hup hmgr, bootHeader]
  case qos =>
    intro src p s hawake hsrc
    rw [exec_getQosStatus_eq, execGetQosStatus_eq_of_fm p hawake hsrc]
  case background =>
    intro p ld s hawake
    rw [exec_getBackgroundOperationStatus_eq, execGetBackgroundOperationStatus, ite_not_awake hawake]
  case backgroundFm =>
    intro s hawake
    rw [exec_getBackgroundOperationStatus_eq, execGetBackgroundOperationStatus, ite_not_awake hawake]
  case unsupported =>
    intro src opcode s hawake hnone
    rw [exec_unsupportedCommand_eq, execUnsupportedCommand_eq_of_no_vendor src hawake hnone]

end Sys2Proof.Machine

/-! The manager's commands (R263, R320, R321, R324): the information, the policy parameters and the mailbox slots, and the
settling of O33. -/

namespace Sys2Proof.Machine

section
variable (src : CmdSrc) (req : List (BitVec 8)) (slot : Fin 7) (v : BitVec 32) (s : State)

theorem exec_getKenezInfo_eq : exec (.getKenezInfo src) s = execGetKenezInfo src s := rfl
theorem exec_policyGet_eq : exec (.policyGet src req) s = execPolicyGet src req s := rfl
theorem exec_policySet_eq : exec (.policySet src req) s = execPolicySet src req s := rfl
theorem exec_mbxCmdGo_eq : exec (.mbxCmdGo slot v) s = .next (s.writeMbxCmd slot.val v.toNat) := rfl

end

/-- A new value of a known parameter changes it, or is refused outside its limits or in a clash and changes nothing (R324). The
refusal is more than O33's clause has. -/
theorem State.policySet_eq_of_new {s : State} {p : List Nat} {old lo hi : Nat}
    (hentry : s.polEntry (pf p 0 2) = some (old, lo, hi)) (hzero : zeroBytes p [2, 3] = true) (hnew : pf p 4 4 ≠ old) :
    s.policySet p =
      if pf p 4 4 < lo || hi < pf p 4 4 || s.polClash (pf p 0 2) (pf p 4 4) then (s, stRefused)
      else (s.changePolicy (pf p 0 2) (pf p 4 4) lo hi, stDone) := by
  simp only [State.policySet, hentry, hzero, hnew, Bool.not_true, Bool.false_eq_true, if_false]

theorem State.policySet_eq_changed {s : State} {p : List Nat} {old lo hi : Nat}
    (hentry : s.polEntry (pf p 0 2) = some (old, lo, hi)) (hzero : zeroBytes p [2, 3] = true) (hnew : pf p 4 4 ≠ old)
    (hlo : lo ≤ pf p 4 4) (hhi : pf p 4 4 ≤ hi) (hclash : s.polClash (pf p 0 2) (pf p 4 4) = false) :
    s.policySet p = (s.changePolicy (pf p 0 2) (pf p 4 4) lo hi, stDone) := by
  rw [State.policySet_eq_of_new hentry hzero hnew, if_neg]
  simp [hclash, hlo, hhi]

/-- A slot that takes its command: OPCODE and LEN as written, BUSY set, and the command noted for the engines (R320). -/
def State.mbxTaken (s : State) (k v : Nat) : State :=
  let held := (s.put pgMbx (Reg.MBX_CMD_OPCODE k) (bits v 0 16)).put pgMbx (Reg.MBX_CMD_LEN k) (bits v 16 8)
  { held.put pgMbx (Reg.MBX_STAT_BUSY k) 1 with mbx := SMap.put s.mbx k { (s.mbox k) with op := bits v 0 16 } }

theorem State.writeMbxCmd_eq_ring {s : State} {k v : Nat} (hgo : v.testBit 31 = true)
    (hidle : s.flag pgMbx (Reg.MBX_STAT_BUSY k) = false) (hlegal : vendorReq (bits v 0 16) = some (bits v 16 8))
    (hruns : (s.mbxTaken k v).keystoneRuns = true) :
    s.writeMbxCmd k v =
      (s.mbxTaken k v).ring ((s.mbxTaken k v).cmdEngine (bits v 0 16) ((s.mbxTaken k v).mbox k).req) 25 := by
  simp only [State.writeMbxCmd, hgo, hidle, hlegal, bne_self_eq_false, Bool.not_true, Bool.or_self, Bool.false_eq_true,
    if_false]
  exact if_pos hruns

/-- Settles O33: the commands by the response of their run, GO by the slot it fills. -/
theorem managerCommandsComplete : Obligations.ManagerCommandsComplete := by
  unfold Obligations.ManagerCommandsComplete
  refine ⟨?info, ?policyGet, ?policySet, ?mbxCmdGo⟩
  case info =>
    intro src p s htakes
    rw [exec_getKenezInfo_eq, execGetKenezInfo]
    exact congrArg _ (State.vendor_eq_of_run_some htakes rfl)
  case policyGet =>
    intro src req p v lo hi s htakes hentry hzero
    rw [exec_policyGet_eq, execPolicyGet]
    refine congrArg _ (State.vendor_eq_of_run_some htakes ?_)
    rw [hentry]
    exact if_pos hzero
  case policySet =>
    intro src req p old lo hi s id v htakes hentry hzero hnew hlo hhi hclash
    rw [exec_policySet_eq, execPolicySet]
    refine congrArg _ (State.vendor_eq_of_run_some htakes ?_)
    rw [State.policySet_eq_changed hentry hzero hnew hlo hhi hclash]
  case mbxCmdGo =>
    intro slot v s k op held busy s1 hgo hidle hlegal hruns
    rw [exec_mbxCmdGo_eq, State.writeMbxCmd_eq_ring hgo hidle hlegal hruns]
    rfl

end Sys2Proof.Machine

/-! Wakes and exits (R257, R362, R363, R372, R374, R375, R377, R378): what each wake source does in the states it wakes from,
the ends of the exits from Sleep and Deep Sleep, and the settling of O40. -/

namespace Sys2Proof.Machine

section
variable (p : Fin 8) (t : BitVec 8) (s : State)

theorem exec_wake_eq : exec .wake s = .next (s.wakeBy 1) := rfl
theorem exec_wakeN_eq : exec .wakeN s = execWakeN s := rfl
theorem exec_sleepTimer_eq : exec .sleepTimer s = execSleepTimer s := rfl
theorem exec_thermalWake_eq : exec (.thermalWake t) s = execThermalWake t s := rfl
theorem exec_perstNDeassert_eq : exec (.perstNDeassert p) s = execPerstNDeassert p s := rfl
theorem exec_exitDone_eq : exec .exitDone s = execExitDone s := rfl

end

/-! ### WAKE_N and the sleep timer -/

/-- WAKE_N starts an Off Kenez unless it waits for a restart, failed three starts, tripped or has no VDD_AON (R377). -/
theorem execWakeN_eq_coldBoot {s : State} (hoff : s.pwr.state = 4) (hwait : s.pwr.waitRestart = false)
    (hstarts : s.pwr.failedStarts < 3) (htrip : s.pwr.thermtrip = false) (haon : s.aon = true) :
    execWakeN s = .next s.coldBoot := by
  simp only [execWakeN, hoff, hwait, Nat.not_le.mpr hstarts, htrip, haon, decide_false, Bool.not_true, Bool.or_self,
    Bool.false_eq_true, if_true, if_false]

theorem execSleepTimer_eq_wakeBy {s : State} (hsleep : s.pwr.state = 2) (hset : s.fld pgPwr Reg.PWR_CTL_SLEEP_TIMER_MS ≠ 0)
    (hdue : s.pwr.sleepAt + 1000000 * s.fld pgPwr Reg.PWR_CTL_SLEEP_TIMER_MS ≤ s.time) :
    execSleepTimer s = .next (s.wakeBy 4) := by
  simp only [execSleepTimer, hsleep, bne_iff_ne.mpr hset, hdue, decide_true, Bool.and_self, if_true]

/-! ### The ends of the exits -/

/-- The state at the end of an exit from Sleep, but for a root loss: the links trained, the last-lap window restarted (R374,
R378). -/
def State.sleepLeft (s : State) : State :=
  (({ s.reinitLinks with key := { s.key with windowAt := s.time } } : State).put pgHub Reg.HUB_LAP_STAT_MISSED 0).backToRun 2

section
variable {s : State} (hexiting : s.pwr.trans = 3)
include hexiting

theorem execExitDone_eq_sleepLeft (hsleep : s.pwr.state = 2) (hroot : s.sleepLeft.pwr.rootLoss = false) :
    execExitDone s = .next s.sleepLeft := by
  rw [State.sleepLeft] at hroot ⊢
  simp only [execExitDone, hexiting, hsleep, hroot, bne_self_eq_false, Bool.false_eq_true, if_true, if_false]

/-- Deep Sleep left without a root loss costs no port its host, so what is left is to resume the copies (R363, R375). -/
theorem execExitDone_eq_resumeCopies (hdeep : s.pwr.state ≠ 2) (hclock : s.clk.present ≠ 0)
    (hroot : s.pwr.rootLoss = false) :
    execExitDone s = .next (((s.deepExit.reinitLinks.allPauses.engineLoad).backToRun 3).resumeCopies) := by
  simp only [execExitDone, hexiting, hdeep, hclock, hroot, bne_self_eq_false, Bool.false_eq_true, if_false, Nat.zero_testBit,
    pick_false, List.foldl_nil]

end

/-- Settles O40, source by source and exit by exit. -/
theorem powerExitComplete : Obligations.PowerExitComplete := by
  unfold Obligations.PowerExitComplete
  refine ⟨?wake, ?wakeN, ?wakeNOff, ?sleepTimer, ?thermalWake, ?perstNDeassert, ?exitSleep, ?exitDeep⟩
  case wake => exact exec_wake_eq
  case wakeN =>
    intro s hon
    rw [exec_wakeN_eq, execWakeN, if_neg hon]
  case wakeNOff =>
    intro s hoff hwait hstarts htrip haon
    rw [exec_wakeN_eq, execWakeN_eq_coldBoot hoff hwait hstarts htrip haon]
  case sleepTimer =>
    intro s hsleep hset hdue
    rw [exec_sleepTimer_eq, execSleepTimer_eq_wakeBy hsleep hset hdue]
  case thermalWake =>
    intro t s hgoal hhot
    rw [exec_thermalWake_eq, execThermalWake, if_pos (by rw [hgoal, decide_eq_true hhot]; rfl)]
  case perstNDeassert =>
    intro p s s1
    rw [exec_perstNDeassert_eq, execPerstNDeassert]
  case exitSleep =>
    intro s s1 hexiting hsleep hroot
    have hleft : s1.backToRun 2 = s.sleepLeft := rfl
    rw [hleft] at hroot ⊢
    rw [exec_exitDone_eq, execExitDone_eq_sleepLeft hexiting hsleep hroot]
  case exitDeep =>
    intro s hexiting hdeep hclock hroot
    rw [exec_exitDone_eq, execExitDone_eq_resumeCopies hexiting hdeep hclock hroot]

end Sys2Proof.Machine

/-! The state kept by every command, and with it by every step: the statements of all commands at once.

Each command has its own lemma under Laws/Keeps*.lean; here they are put together along the constructors of `Instr`. -/
namespace Sys2Proof.Machine

/-- Every command keeps a sound state and its queue. -/
theorem exec_keeps {q : List Instr} {s : State} (h : s.Keeps q) : ∀ c : Instr, OKeeps q (exec c s)
  | .memrd .. => execMemrd_keeps h
  | .memrddata .. => execMemrddata_keeps h
  | .memwr .. => execMemwr_keeps h
  | .memwrptl .. => execMemwrptl_keeps h
  | .memclnevct .. => execMemclnevct_keeps h
  | .meminv .. => execMeminv_keeps h
  | .birsp .. => execBirsp_keeps h
  | .biconflict .. => execBiconflict_keeps h
  | .biTimeout .. => execBiTimeout_keeps h
  | .reqTimeout .. => execReqTimeout_keeps h
  | .walk .. => execWalk_keeps h
  | .compareAndWrite .. => execCompareAndWrite_keeps h
  | .moveHoldExpired .. => execMoveHoldExpired_keeps h
  | .writeHeldDropped .. => execWriteHeldDropped_keeps h
  | .allocTimeout .. => execAllocTimeout_keeps h
  | .portTlbInv .. => execPortTlbInv_keeps h
  | .portWalkInv .. => execPortWalkInv_keeps h
  | .invalidationDone .. => execInvalidationDone_keeps h
  | .lineBurst .. => execLineBurst_keeps h
  | .recompute .. => execRecompute_keeps h
  | .writeQueueAccept .. => execWriteQueueAccept_keeps h
  | .writeDrain .. => execWriteDrain_keeps h
  | .overflowStep .. => execOverflowStep_keeps h
  | .refresh .. => execRefresh_keeps h
  | .mr4Poll .. => execMr4Poll_keeps h
  | .zqcalStart .. => execZqcalStart_keeps h
  | .trainPause .. => execTrainPause_keeps h
  | .trainPauseEnd .. => execTrainPauseEnd_keeps h
  | .switch .. => execSwitch_keeps h
  | .timingSetWrite .. => execTimingSetWrite_keeps h
  | .freqChangeDone .. => execFreqChangeDone_keeps h
  | .pierLiuCtlWrite .. => execPierLiuCtlWrite_keeps h
  | .scrubStep .. => execScrubStep_keeps h
  | .scrubPeriodEnd .. => execScrubPeriodEnd_keeps h
  | .ueWindowTick .. => execUeWindowTick_keeps h
  | .sparingStart .. => execSparingStart_keeps h
  | .spareCopyStep .. => execSpareCopyStep_keeps h
  | .retireUncopied .. => execRetireUncopied_keeps h
  | .spareRebuildStep .. => execSpareRebuildStep_keeps h
  | .heatUpdate => execHeatUpdate_keeps h
  | .heatDecay => execHeatDecay_keeps h
  | .pageAllocate .. => execPageAllocate_keeps h
  | .moveStart .. => execMoveStart_keeps h
  | .moveCopyDone .. => execMoveCopyDone_keeps h
  | .moveFinish .. => execMoveFinish_keeps h
  | .moveLogResolve .. => execMoveLogResolve_keeps h
  | .pressureLadder => execPressureLadder_keeps h
  | .t2LineRead .. => execT2LineRead_keeps h
  | .subblockDecode .. => execSubblockDecode_keeps h
  | .t2Write .. => execT2Write_keeps h
  | .subblockRewrite .. => execSubblockRewrite_keeps h
  | .stripeClose .. => execStripeClose_keeps h
  | .stripeWritten .. => execStripeWritten_keeps h
  | .pierPsPush .. => execPierPsPush_keeps h
  | .gcSelect .. => execGcSelect_keeps h
  | .relocation .. => execRelocation_keeps h
  | .relocationCommit .. => execRelocationCommit_keeps h
  | .hubKeyLoad .. => execHubKeyLoad_keeps h
  | .hubKeyClear .. => execHubKeyClear_keeps h
  | .kmapWrite .. => execKmapWrite_keeps h
  | .regionSetup .. => execRegionSetup_keeps h
  | .regionInitDone .. => execRegionInitDone_keeps h
  | .rotateKey .. => execRotateKey_keeps h
  | .rotationStep .. => execRotationStep_keeps h
  | .stripeRotationStep .. => execStripeRotationStep_keeps h
  | .rebuildTrusting .. => execRebuildTrusting_keeps h
  | .regionRelease .. => execRegionRelease_keeps h
  | .counterRequest .. => execCounterRequest_keeps h
  | .counterFetch .. => execCounterFetch_keeps h
  | .counterWriteback .. => execCounterWriteback_keeps h
  | .versionIncrement .. => execVersionIncrement_keeps h
  | .dirFlush => execDirFlush_keeps h
  | .directoryWriteback .. => execDirectoryWriteback_keeps h
  | .hostSweepStep .. => execHostSweepStep_keeps h
  | .createVi .. => execCreateVi_keeps h
  | .viCreateDone .. => execViCreateDone_keeps h
  | .bindVi .. => execBindVi_keeps h
  | .quiesceVi .. => execQuiesceVi_keeps h
  | .quiesceDone .. => execQuiesceDone_keeps h
  | .viNotActive .. => execViNotActive_keeps h
  | .resetVi .. => execResetVi_keeps h
  | .removeVi .. => execRemoveVi_keeps h
  | .relayFreeze .. => execRelayFreeze_keeps h
  | .relayThaw .. => execRelayThaw_keeps h
  | .dirtyLogStart .. => execDirtyLogStart_keeps h
  | .dirtyLogStop .. => execDirtyLogStop_keeps h
  | .relaySaveFull .. => execRelaySaveFull_keeps h
  | .relaySaveDelta .. => execRelaySaveDelta_keeps h
  | .relayRestoreNew .. => execRelayRestoreNew_keeps h
  | .relayRestoreApply .. => execRelayRestoreApply_keeps h
  | .viDoorbell .. => execViDoorbell_keeps h
  | .fqMissedClear .. => execFqMissedClear_keeps h
  | .viTelUpdate => execViTelUpdate_keeps h
  | .getKenezInfo .. => execGetKenezInfo_keeps h
  | .policyGet .. => execPolicyGet_keeps h
  | .policySet .. => execPolicySet_keeps h
  | .linkDown .. => execLinkDown_keeps h
  | .linkUp .. => execLinkUp_keeps h
  | .linkGraceEnd .. => execLinkGraceEnd_keeps h
  | .perstN .. => execPerstN_keeps h
  | .ideFail .. => execIdeFail_keeps h
  | .ideKm .. => execIdeKm_keeps h
  | .l0pEvaluate .. => execL0pEvaluate_keeps h
  | .l0pWidthChange .. => execL0pWidthChange_keeps h
  | .hdmDecoderCommit .. => execHdmDecoderCommit_keeps h
  | .setLdAllocations .. => execSetLdAllocations_keeps h
  | .initiateDcAdd .. => execInitiateDcAdd_keeps h
  | .addDcResponse .. => execAddDcResponse_keeps h
  | .releaseDc .. => execReleaseDc_keeps h
  | .getPoisonList .. => execGetPoisonList_keeps h
  | .injectPoison .. => execInjectPoison_keeps h
  | .clearPoison .. => execClearPoison_keeps h
  | .scanMedia .. => execScanMedia_keeps h
  | .scanMediaStep .. => execScanMediaStep_keeps h
  | .getScanMediaCapabilities .. => execGetScanMediaCapabilities_keeps h
  | .getScanMediaResults .. => execGetScanMediaResults_keeps h
  | .transferFw .. => execTransferFw_keeps h
  | .activateFw .. => execActivateFw_keeps h
  | .getQosStatus .. => execGetQosStatus_keeps h
  | .getBackgroundOperationStatus .. => execGetBackgroundOperationStatus_keeps h
  | .tunnelManagementCommand .. => execTunnelManagementCommand_keeps h
  | .unsupportedCommand .. => execUnsupportedCommand_keeps h
  | .urgLevelChange .. => execUrgLevelChange_keeps h
  | .urgOverstay .. => execUrgOverstay_keeps h
  | .urgOverstayEnd .. => execUrgOverstayEnd_keeps h
  | .deliverableReport .. => execDeliverableReport_keeps h
  | .pacerHotspot .. => execPacerHotspot_keeps h
  | .pacerPortGuarWrite .. => execPacerPortGuarWrite_keeps h
  | .pacerCtlWrite .. => execPacerCtlWrite_keeps h
  | .flitReceive .. => execFlitReceive_keeps h
  | .replayReq .. => execReplayReq_keeps h
  | .replayTimeout .. => execReplayTimeout_keeps h
  | .discardRepeat .. => execDiscardRepeat_keeps h
  | .viaductInit .. => execViaductInit_keeps h
  | .pauseReq .. => execPauseReq_keeps h
  | .pauseAck _ toDie => execPauseAck_keeps (toDie := toDie) h
  | .trainDone .. => execTrainDone_keeps h
  | .retrainAttemptDone .. => execRetrainAttemptDone_keeps h
  | .vdtRetry .. => execVdtRetry_keeps h
  | .vdtGraceRetry .. => execVdtGraceRetry_keeps h
  | .vdtGraceEnd .. => execVdtGraceEnd_keeps h
  | .narrowThrottle .. => execNarrowThrottle_keeps h
  | .jobPost .. => execJobPost_keeps h
  | .jobCompletion .. => execJobCompletion_keeps h
  | .jobTimeout .. => execJobTimeout_keeps h
  | .nop .. => execNop_keeps h
  | .wait .. => execWait_keeps h
  | .br .. => execBr_keeps h
  | .jmp .. => execJmp_keeps h
  | .set .. => execSet_keeps h
  | .add .. => execAdd_keeps h
  | .loop .. => execLoop_keeps h
  | .call .. => execCall_keeps h
  | .ret .. => execRet_keeps h
  | .endStep .. => execEndStep_keeps h
  | .dramRd .. => execDramRd_keeps h
  | .dramWr .. => execDramWr_keeps h
  | .dramRdOther .. => execDramRdOther_keeps h
  | .liuCheck .. => execLiuCheck_keeps h
  | .liuGen .. => execLiuGen_keeps h
  | .liuLogCe .. => execLiuLogCe_keeps h
  | .liuCountUe .. => execLiuCountUe_keeps h
  | .cipherKeystream .. => execCipherKeystream_keeps h
  | .cipherXor .. => execCipherXor_keeps h
  | .tagCheck .. => execTagCheck_keeps h
  | .tagGen .. => execTagGen_keeps h
  | .inflate .. => execInflate_keeps h
  | .deflate .. => execDeflate_keeps h
  | .verify .. => execVerify_keeps h
  | .allocPlace .. => execAllocPlace_keeps h
  | .allocClose .. => execAllocClose_keeps h
  | .vdtSend .. => execVdtSend_keeps h
  | .ccacheGet .. => execCcacheGet_keeps h
  | .ccacheAdvance .. => execCcacheAdvance_keeps h
  | .ccachePin .. => execCcachePin_keeps h
  | .ccacheUnpin .. => execCcacheUnpin_keeps h
  | .xlatLookup .. => execXlatLookup_keeps h
  | .xlatWalk .. => execXlatWalk_keeps h
  | .xlatHold .. => execXlatHold_keeps h
  | .homeOrder .. => execHomeOrder_keeps h
  | .homeRelease .. => execHomeRelease_keeps h
  | .unitDone .. => execUnitDone_keeps h
  | .mailboxSend .. => execMailboxSend_keeps h
  | .interrupt .. => execInterrupt_keeps h
  | .keystoneProbe .. => execKeystoneProbe_keeps h
  | .engineReloadDone .. => execEngineReloadDone_keeps h
  | .hubLapBeat .. => execHubLapBeat_keeps h
  | .lapWindowEnd => execLapWindowEnd_keeps h
  | .lockstepMismatch => execLockstepMismatch_keeps h
  | .pass => execPass_keeps h
  | .bridgeTimeout => execBridgeTimeout_keeps h
  | .restart .. => execRestart_keeps h
  | .restartBeatTimeout => execRestartBeatTimeout_keeps h
  | .engineHalt .. => execEngineHalt_keeps h
  | .engRestart => execEngRestart_keeps h
  | .mbxCmdGo .. => execMbxCmdGo_keeps h
  | .thermalThrottle .. => execThermalThrottle_keeps h
  | .alertHoldoffEnd => execAlertHoldoffEnd_keeps h
  | .journalWrite => execJournalWrite_keeps h
  | .journalTokenRefill .. => execJournalTokenRefill_keeps h
  | .evtForce .. => execEvtForce_keeps h
  | .capRearm .. => execCapRearm_keeps h
  | .evtMissedClear => execEvtMissedClear_keeps h
  | .ringTailWrite .. => execRingTailWrite_keeps h
  | .lapDumpStart .. => execLapDumpStart_keeps h
  | .lapDumpStop => execLapDumpStop_keeps h
  | .lapSnapshot => execLapSnapshot_keeps h
  | .lapRecordDone => execLapRecordDone_keeps h
  | .telFreeze .. => execTelFreeze_keeps h
  | .telClear => execTelClear_keeps h
  | .telCntWrite .. => execTelCntWrite_keeps h
  | .telSelWrite .. => execTelSelWrite_keeps h
  | .refclkAbsent .. => execRefclkAbsent_keeps h
  | .candidateWindow .. => execCandidateWindow_keeps h
  | .rootSel .. => execRootSel_keeps h
  | .arm .. => execArm_keeps h
  | .relockDone => execRelockDone_keeps h
  | .rootReturn .. => execRootReturn_keeps h
  | .holdoverEnd => execHoldoverEnd_keeps h
  | .gateClose => execGateClose_keeps h
  | .gateOpen => execGateOpen_keeps h
  | .gatePendingDone => execGatePendingDone_keeps h
  | .gateBusy => execGateBusy_keeps h
  | .sleepRequest => execSleepRequest_keeps h
  | .deepSleepRequest => execDeepSleepRequest_keeps h
  | .offRequest => execOffRequest_keeps h
  | .prepDone => execPrepDone_keeps h
  | .offStateSave => execOffStateSave_keeps h
  | .skipSave => execSkipSave_keeps h
  | .entryDone => execEntryDone_keeps h
  | .exitDone => execExitDone_keeps h
  | .wake => execWake_keeps h
  | .wakeN => execWakeN_keeps h
  | .sleepTimer => execSleepTimer_keeps h
  | .thermalWake .. => execThermalWake_keeps h
  | .idleEntry => execIdleEntry_keeps h
  | .idleExit => execIdleExit_keeps h
  | .vholdSample .. => execVholdSample_keeps h
  | .railFault => execRailFault_keeps h
  | .railRestart => execRailRestart_keeps h
  | .thermtrip .. => execThermtrip_keeps h
  | .vddAonUp .. => execVddAonUp_keeps h
  | .sysResetN => execSysResetN_keeps h
  | .cold => execCold_keeps h
  | .warm => execWarm_keeps h
  | .warmResetDone => execWarmResetDone_keeps h
  | .bootImageRead .. => execBootImageRead_keeps h
  | .populationCheck .. => execPopulationCheck_keeps h
  | .dramTrainingDone .. => execDramTrainingDone_keeps h
  | .metadataZeroDone => execMetadataZeroDone_keeps h
  | .poolAllocation => execPoolAllocation_keeps h
  | .fenboRd .. => execFenboRd_keeps h
  | .fenboWr .. => execFenboWr_keeps h
  | .spiRd .. => execSpiRd_keeps h
  | .spiProg .. => execSpiProg_keeps h
  | .spiErase .. => execSpiErase_keeps h
  | .fenboStatus .. => execFenboStatus_keeps h
  | .fenboOpDone .. => execFenboOpDone_keeps h
  | .fenboResponse => execFenboResponse_keeps h
  | .daWindowRead .. => execDaWindowRead_keeps h
  | .daWindowWrite .. => execDaWindowWrite_keeps h
  | .wideRegisterRead .. => execWideRegisterRead_keeps h
  | .registerWrite .. => execRegisterWrite_keeps h
  | .perstNDeassert .. => execPerstNDeassert_keeps h
  | .vddAonOff => execVddAonOff_keeps h
  | .refclkPresent .. => execRefclkPresent_keeps h
  | .railsConfirmed => execRailsConfirmed_keeps h
  | .clearEventRecords .. => execClearEventRecords_keeps h
  | .badOp .. => execBadOp_keeps h
  | .illegalOpcode .. => execIllegalOpcode_keeps h
  | .hotClear .. => execHotClear_keeps h
  | .adaptNsExpiry .. => execAdaptNsExpiry_keeps h

/-- A sound state keeps its own queue. -/
theorem State.Sound.keeps {s : State} (h : s.Sound) : s.Keeps s.pending := ⟨rfl, h⟩

/-- The queue is no part of what makes a state sound. -/
theorem State.Sound.withPending {s : State} (q : List Instr) (h : s.Sound) : ({ s with pending := q } : State).Sound := h

/-- Settles O49: a command keeps the queue it was given. -/
theorem execKeepsQueue : Obligations.ExecKeepsQueue := by
  unfold Obligations.ExecKeepsQueue
  intro c s t hsound hnext
  exact (exec_keeps hsound.keeps c t hnext).1

/-! ### A step -/

theorem step_cons {c : Instr} {rest : List Instr} {s : State} (hfront : s.pending = c :: rest) :
    step s = exec c { s with pending := rest } := by
  simp only [step, hfront]

theorem step_nil {s : State} (hempty : s.pending = []) : step s = .next s.idle := by
  simp only [step, hempty]

/-- Settles O50: a command keeps a sound state, and so does the idle step of an empty queue. -/
theorem stepKeepsSound : Obligations.StepKeepsSound := by
  unfold Obligations.StepKeepsSound
  intro s t hsound hnext
  cases hq : s.pending with
  | nil =>
    rw [step_nil hq] at hnext
    obtain rfl : s.idle = t := by injection hnext
    exact (State.idle_keeps hsound.keeps).2
  | cons c rest =>
    rw [step_cons hq] at hnext
    exact (exec_keeps (hsound.withPending rest).keeps c t hnext).2

/-- Settles O45: the front of the queue by `step_cons`, the idle step by whether the hub's clock runs. -/
theorem stepTakesFront : Obligations.StepTakesFront := by
  unfold Obligations.StepTakesFront
  refine ⟨fun _ _ _ => step_cons, ?running, ?stopped⟩
  case running =>
    intro s hempty hruns
    rw [step_nil hempty, State.idle, if_pos hruns]
  case stopped =>
    intro s hempty hstopped
    rw [step_nil hempty, State.idle, if_neg (by omega)]

end Sys2Proof.Machine

/-! Which commands stop (R52, R241, R404): every meaning answers a next state on each of its branches, but for a list of operands
of a length that no outside agent can send, and the settling of O48. -/

namespace Sys2Proof.Machine

/-- The meaning answers a next state. -/
def Answers (o : Host.Outcome State Fault Refusal) : Prop := ∃ t, o = .next t

theorem answers_next (t : State) : Answers (.next t) := ⟨t, rfl⟩

/-- A meaning that checks its list first goes on where the check holds. -/
theorem answers_checked {ok : Bool} {o : Host.Outcome State Fault Refusal} (hok : ok = true) (hanswers : Answers o) :
    Answers (if !ok then .fault .illFormed else o) := by
  rw [hok]
  exact hanswers

/-- Every branch of a meaning ends in a next state, once the list of operands has passed its check. -/
theorem exec_answers {c : Instr} (s : State) (hwf : c.wf = true) : Answers (exec c s) := by
  cases c with
  | birsp | biconflict | biTimeout | reqTimeout | walk | compareAndWrite | moveHoldExpired | writeHeldDropped | allocTimeout |
    lineBurst | recompute | writeQueueAccept | trainPauseEnd | freqChangeDone | scrubStep | scrubPeriodEnd | spareCopyStep |
    spareRebuildStep | pageAllocate | moveStart | moveCopyDone | moveFinish | moveLogResolve | t2LineRead | subblockDecode |
    t2Write | subblockRewrite | stripeClose | stripeWritten | gcSelect | relocation | relocationCommit | counterRequest |
    versionIncrement | directoryWriteback | hostSweepStep | viCreateDone | quiesceDone | viNotActive | relayFreeze | linkUp |
    linkGraceEnd | perstN | ideFail | ideKm | l0pEvaluate | l0pWidthChange | hdmDecoderCommit | initiateDcAdd | addDcResponse |
    releaseDc | getPoisonList | scanMedia | transferFw | activateFw | getQosStatus | getBackgroundOperationStatus | urgOverstay
    | urgOverstayEnd | vdtGraceRetry | vdtGraceEnd | narrowThrottle | jobPost | jobCompletion | jobTimeout | unitDone |
    mailboxSend | interrupt | keystoneProbe | engineReloadDone | lapWindowEnd | bridgeTimeout | restartBeatTimeout |
    thermalThrottle | alertHoldoffEnd | journalTokenRefill | evtForce | capRearm | ringTailWrite | lapSnapshot | candidateWindow
    | rootReturn | holdoverEnd | gatePendingDone | gateBusy | prepDone | entryDone | exitDone | wakeN | idleEntry | vholdSample
    | railFault | thermtrip | vddAonUp | warmResetDone | bootImageRead | dramTrainingDone | metadataZeroDone | poolAllocation |
    fenboOpDone | fenboResponse | daWindowRead | daWindowWrite | wideRegisterRead | registerWrite | railsConfirmed |
    clearEventRecords | adaptNsExpiry =>
    dsimp -zeta only [exec, execBirsp, execBiconflict, execBiTimeout, execReqTimeout, execWalk, execCompareAndWrite,
      execMoveHoldExpired, execWriteHeldDropped, execAllocTimeout, execLineBurst, execRecompute, execWriteQueueAccept,
      execTrainPauseEnd, execFreqChangeDone, execScrubStep, execScrubPeriodEnd, execSpareCopyStep, execSpareRebuildStep,
      execPageAllocate, execMoveStart, execMoveCopyDone, execMoveFinish, execMoveLogResolve, execT2LineRead, execSubblockDecode,
      execT2Write, execSubblockRewrite, execStripeClose, execStripeWritten, execGcSelect, execRelocation, execRelocationCommit,
      execCounterRequest, execVersionIncrement, execDirectoryWriteback, execHostSweepStep, execViCreateDone, execQuiesceDone,
      execViNotActive, execRelayFreeze, execLinkUp, execLinkGraceEnd, execPerstN, execIdeFail, execIdeKm, execL0pEvaluate,
      execL0pWidthChange, execHdmDecoderCommit, execInitiateDcAdd, execAddDcResponse, execReleaseDc, execGetPoisonList,
      execScanMedia, execTransferFw, execActivateFw, execGetQosStatus, execGetBackgroundOperationStatus, execUrgOverstay,
      execUrgOverstayEnd, execVdtGraceRetry, execVdtGraceEnd, execNarrowThrottle, execJobPost, execJobCompletion,
      execJobTimeout, execUnitDone, execMailboxSend, execInterrupt, execKeystoneProbe, execEngineReloadDone, execLapWindowEnd,
      execBridgeTimeout, execRestartBeatTimeout, execThermalThrottle, execAlertHoldoffEnd, execJournalTokenRefill, execEvtForce,
      execCapRearm, execRingTailWrite, execLapSnapshot, execCandidateWindow, execRootReturn, execHoldoverEnd,
      execGatePendingDone, execGateBusy, execPrepDone, execEntryDone, execExitDone, execWakeN, execIdleEntry, execVholdSample,
      execRailFault, execThermtrip, execVddAonUp, execWarmResetDone, execBootImageRead, execDramTrainingDone,
      execMetadataZeroDone, execPoolAllocation, execFenboOpDone, execFenboResponse, execDaWindowRead, execDaWindowWrite,
      execWideRegisterRead, execRegisterWrite, execRailsConfirmed, execClearEventRecords, execAdaptNsExpiry]
    repeat' first | exact answers_next _ | split | extract_lets
  | populationCheck | setLdAllocations | tunnelManagementCommand =>
    refine answers_checked hwf ?_
    repeat' split
    all_goals exact answers_next _
  | fenboRd | fenboWr | spiRd | spiProg | spiErase | fenboStatus | badOp => exact answers_checked hwf (answers_next _)
  | _ => exact answers_next _

/-- Only the commands with a list can fail the check, which their meanings make first. -/
theorem exec_illFormed {c : Instr} (s : State) (hwf : c.wf = false) : exec c s = .fault .illFormed := by
  cases c with
  | populationCheck | setLdAllocations | tunnelManagementCommand | fenboRd | fenboWr | spiRd | spiProg | spiErase | fenboStatus
    | badOp => exact if_pos (congrArg not hwf)
  | _ => exact Bool.noConfusion hwf

/-- Settles O48: the commands that pass their check answer, and the others meet it first. -/
theorem onlyIllFormedStops : Obligations.OnlyIllFormedStops := by
  unfold Obligations.OnlyIllFormedStops
  exact ⟨fun _ s hwf => exec_answers s hwf, fun _ s hwf => exec_illFormed s hwf⟩

end Sys2Proof.Machine

/-! The flash (R332, R333, R386, R405): what programming and an erase leave at every address, and the settling of O54. -/

namespace Sys2Proof.Machine

theorem Memory.read_program_outside {m : List Host.Cell} (hwf : Memory.wf m = true) (a : Nat) (bs : List Nat) {x : Nat}
    (hout : x < a ∨ a + bs.length ≤ x) : Memory.read (Memory.program m a bs) x = Memory.read m x := by
  induction bs generalizing m a with
  | nil => rfl
  | cons b bs ih =>
    rw [List.length_cons] at hout
    rw [Memory.program, ih (Memory.wf_write m a _ hwf) _ (by omega), Memory.read_write m a x _ hwf, if_neg (by omega)]

/-- A programmed byte loses the bits that its value has clear: the bytes after the first are programmed later, and the first is
none of them. -/
theorem Memory.read_program_inside {m : List Host.Cell} (hwf : Memory.wf m = true) (a : Nat) (bs : List Nat) (i : Nat)
    (hi : i < bs.length) : Memory.read (Memory.program m a bs) (a + i) = Memory.read m (a + i) &&& BitVec.ofNat 8 bs[i] := by
  induction bs generalizing m a i with
  | nil => exact absurd hi (Nat.not_lt_zero i)
  | cons b bs ih =>
    have hwritten := Memory.wf_write m a (Memory.read m a &&& BitVec.ofNat 8 b) hwf
    rw [Memory.program]
    cases i with
    | zero =>
      rw [Memory.read_program_outside hwritten _ _ (by omega), Memory.read_write m a _ _ hwf]
      exact if_pos rfl
    | succ i =>
      have hlater := ih hwritten (a + 1) i (Nat.lt_of_succ_lt_succ hi)
      rw [Nat.add_right_comm] at hlater
      rw [← Nat.add_assoc, hlater, Memory.read_write m a _ _ hwf, if_neg (by omega)]
      rfl

theorem Memory.read_erase (m : List Host.Cell) (n x : Nat) :
    Memory.read (Memory.erase m n) x = if x / 4096 = n then 0xFF else Memory.read m x := by
  induction m with
  | nil => exact (ite_self _).symm
  | cons c t ih =>
    obtain ⟨a, v⟩ := c
    rw [Memory.erase] at ih ⊢
    rw [List.filter_cons, Memory.read]
    by_cases hxa : x = a
    · subst hxa
      by_cases hsector : x / 4096 = n <;> simp [hsector, ih, Memory.read]
    · by_cases hsector : a / 4096 = n <;> simp [hsector, hxa, ih, Memory.read]

/-- Settles O54, from what each of the two operations leaves inside and outside the bytes it touches. -/
theorem flashBytes : Obligations.FlashBytes := by
  unfold Obligations.FlashBytes
  refine ⟨fun m a bs hwf => ⟨?inside, ?outside⟩, Memory.read_erase⟩
  case inside => exact Memory.read_program_inside hwf a bs
  case outside => exact fun x hout => Memory.read_program_outside hwf a bs hout

end Sys2Proof.Machine

/-! The flits of the Viaducts (R6, R280): the bytes of a flit as those of its number, its header, payload and link CRC, and the
settling of O51. -/

namespace Sys2Proof.Machine

/-! ### Bytes of a number -/

theorem ofLe_append (a b : List Nat) : ofLe (a ++ b) = ofLe a + 256 ^ a.length * ofLe b := by
  induction a with
  | nil => simp [ofLe]
  | cons x a ih => simp only [List.cons_append, ofLe, ih, List.length_cons]; ring

theorem ofLe_leBytes (n x : Nat) : ofLe (leBytes n x) = x % 256 ^ n := by
  induction n generalizing x with
  | zero => simp [leBytes, ofLe, Nat.mod_one]
  | succ n ih => rw [leBytes, ofLe, ih, Nat.mod_mod, pow_succ', Nat.mod_mul]

theorem leBytes_lt {n x b : Nat} (hmem : b ∈ leBytes n x) : b < 256 := by
  induction n generalizing x with
  | zero => exact absurd hmem List.not_mem_nil
  | succ n ih =>
    rcases List.mem_cons.mp hmem with rfl | hlater
    · exact Nat.mod_lt _ (by norm_num)
    · exact ih hlater

/-- What a number holds beyond the bytes of a list leaves them as they are. -/
theorem leBytes_ofLe_add {l : List Nat} (hbytes : ∀ x ∈ l, x < 256) (y : Nat) :
    leBytes l.length (ofLe l + 256 ^ l.length * y) = l := by
  induction l with
  | nil => rfl
  | cons x l ih =>
    have hx := hbytes x List.mem_cons_self
    have hnumber : ofLe (x :: l) + 256 ^ (x :: l).length * y = x + 256 * (ofLe l + 256 ^ l.length * y) := by
      rw [ofLe, List.length_cons, Nat.mod_eq_of_lt hx]
      ring
    have hrest := ih fun z hz => hbytes z (List.mem_cons_of_mem _ hz)
    rw [hnumber, List.length_cons, leBytes, Nat.add_mul_div_left _ _ (by norm_num), Nat.div_eq_of_lt hx, Nat.zero_add, hrest,
      Nat.add_mul_mod_self_left, Nat.mod_eq_of_lt hx]

theorem bits_bytes (x i n : Nat) : bits x (8 * i) (8 * n) = x / 256 ^ i % 256 ^ n := by
  rw [bits_eq_div_mod, pow_mul, pow_mul]
  rfl

theorem bits_byte (x i : Nat) : bits x (8 * i) 8 = x / 256 ^ i % 256 := bits_bytes x i 1

theorem map_bits_eq_leBytes (n x : Nat) : (List.range n).map (fun j => bits x (8 * j) 8) = leBytes n x := by
  induction n generalizing x with
  | zero => rfl
  | succ n ih =>
    rw [leBytes, ← ih, List.range_succ_eq_map, List.map_cons, List.map_map]
    refine congrArg₂ _ ?_ (List.map_congr_left fun j _ => ?_)
    · rw [bits_byte, pow_zero, Nat.div_one]
    · rw [Function.comp_apply, bits_byte, bits_byte, Nat.div_div_eq_div_mul, Nat.succ_eq_add_one, pow_succ']

/-! ### Bytes and CRC of a flit -/

theorem flitBytes_eq_leBytes (f : BitVec 640) (i n : Nat) : flitBytes f i n = leBytes n (f.toNat / 256 ^ i) := by
  rw [flitBytes, ← map_bits_eq_leBytes]
  refine List.map_congr_left fun j _ => ?_
  rw [bits_byte, bits_byte, Nat.div_div_eq_div_mul, pow_add]

theorem flitOk_eq (f : BitVec 640) : flitOk f = (crc64 (flitBytes f 0 72) == ofLe (flitBytes f 72 8)) := by
  rw [flitBytes_eq_leBytes f 72 8, ofLe_leBytes, ← bits_bytes]
  rfl

theorem crc64_lt (bs : List Nat) : crc64 bs < 256 ^ 8 := crcBytes_lt _ _ _ _ (by norm_num) (by norm_num)

theorem crc64_snoc (bs : List Nat) (b : Nat) : crc64 (bs ++ [b]) = [7, 6, 5, 4, 3, 2, 1, 0].foldl (fun c i =>
      if (b.testBit i) != (c.testBit 63) then ((2 * c) % 2 ^ 64) ^^^ 0x42F0E1EBA9EA3693 else (2 * c) % 2 ^ 64) (crc64 bs) := by
  rw [crc64, crcBytes, List.foldl_append]
  rfl

/-! ### A flit from its fields -/

/-- Laid-out fields stay below the sum of what each can hold. -/
theorem layout_le (fs : List (Nat × Nat × Nat)) : layout fs ≤ (fs.map fun f => (2 ^ f.2.1 - 1) * 2 ^ f.1).sum := by
  have hfrom : ∀ (a : Nat), fs.foldl (fun a f => a + (f.2.2 % 2 ^ f.2.1) * 2 ^ f.1) a ≤
      a + (fs.map fun f => (2 ^ f.2.1 - 1) * 2 ^ f.1).sum := by
    induction fs with
    | nil => exact fun a => le_rfl
    | cons f fs ih =>
      intro a
      have hfield : f.2.2 % 2 ^ f.2.1 ≤ 2 ^ f.2.1 - 1 := Nat.le_sub_one_of_lt (Nat.mod_lt _ (by positivity))
      rw [List.foldl_cons, List.map_cons, List.sum_cons, ← Nat.add_assoc]
      exact (ih _).trans (Nat.add_le_add_right (Nat.add_le_add_left (Nat.mul_le_mul_right _ hfield) _) _)
  exact (hfrom 0).trans_eq (Nat.zero_add _)

/-- The header of a flit as a number (R280). -/
def flitHeader (seq ack : Nat) (ackV : Bool) (ty vt hdr data dcnt : Nat) : Nat :=
  layout [(0, 12, seq), (12, 12, ack), (24, 1, b2n ackV), (25, 3, ty), (28, 2, vt), (30, 12, hdr), (42, 12, data), (54, 3, dcnt)]

/-- The bytes of a flit that its link CRC covers: its header's eight, then its payload's. -/
def flitBody (seq ack : Nat) (ackV : Bool) (ty vt hdr data dcnt : Nat) (p : List Nat) : List Nat :=
  leBytes 8 (flitHeader seq ack ackV ty vt hdr data dcnt) ++ p

section
variable {seq ack : Nat} {ackV : Bool} {ty vt hdr data dcnt : Nat}

theorem flitHeader_lt : flitHeader seq ack ackV ty vt hdr data dcnt < 256 ^ 8 := by
  refine (layout_le _).trans_lt ?_
  simp only [List.map_cons, List.map_nil, List.sum_cons, List.sum_nil]
  norm_num

variable {p : List Nat}

theorem ofLe_flitBody :
    ofLe (flitBody seq ack ackV ty vt hdr data dcnt p) = flitHeader seq ack ackV ty vt hdr data dcnt + 256 ^ 8 * ofLe p := by
  rw [flitBody, ofLe_append, length_leBytes, ofLe_leBytes, Nat.mod_eq_of_lt flitHeader_lt]

theorem flitBody_lt (hbytes : ∀ x ∈ p, x < 256) : ∀ x ∈ flitBody seq ack ackV ty vt hdr data dcnt p, x < 256 := by
  intro x hx
  rcases List.mem_append.mp hx with hheader | hpayload
  · exact leBytes_lt hheader
  · exact hbytes x hpayload

variable (hlen : p.length = 64)
include hlen

theorem length_flitBody : (flitBody seq ack ackV ty vt hdr data dcnt p).length = 72 := by
  rw [flitBody, List.length_append, length_leBytes, hlen]

/-- A flit's number is that of its body with the link CRC of the body above it. -/
theorem mkFlit_toNat : (mkFlit seq ack ackV ty vt hdr data dcnt p).toNat =
    ofLe (flitBody seq ack ackV ty vt hdr data dcnt p) + 256 ^ 72 * crc64 (flitBody seq ack ackV ty vt hdr data dcnt p) := by
  have hpad : padTo 64 p = p := by rw [padTo, List.take_append_of_le_length hlen.ge, ← hlen, List.take_length]
  have hbody := ofLe_lt (flitBody seq ack ackV ty vt hdr data dcnt p)
  have hcrc := crc64_lt (flitBody seq ack ackV ty vt hdr data dcnt p)
  rw [length_flitBody hlen] at hbody
  have hplace : (2 : Nat) ^ 576 = 256 ^ 72 := pow_mul 2 8 72
  have hsize : (2 : Nat) ^ 640 = 256 ^ 72 * 256 ^ 8 := (pow_mul 2 8 80).trans (pow_add 256 72 8)
  rw [mkFlit, hpad, hplace, BitVec.toNat_ofNat, hsize]
  refine Nat.mod_eq_of_lt ?_
  calc ofLe (flitBody seq ack ackV ty vt hdr data dcnt p) + 256 ^ 72 * crc64 (flitBody seq ack ackV ty vt hdr data dcnt p)
      < 256 ^ 72 * (crc64 (flitBody seq ack ackV ty vt hdr data dcnt p) + 1) := by
        rw [mul_add, mul_one, add_comm]; exact Nat.add_lt_add_left hbody _
    _ ≤ 256 ^ 72 * 256 ^ 8 := Nat.mul_le_mul_left _ hcrc

/-- The same number from its header: what stands above the eight header bytes is the payload with the link CRC above it. -/
theorem mkFlit_toNat_eq_header_add : (mkFlit seq ack ackV ty vt hdr data dcnt p).toNat =
    flitHeader seq ack ackV ty vt hdr data dcnt +
      256 ^ 8 * (ofLe p + 256 ^ p.length * crc64 (flitBody seq ack ackV ty vt hdr data dcnt p)) := by
  rw [mkFlit_toNat hlen, ofLe_flitBody, hlen, mul_add, ← mul_assoc, ← pow_add, add_assoc]

theorem bits_mkFlit_header :
    bits (mkFlit seq ack ackV ty vt hdr data dcnt p).toNat 0 64 = flitHeader seq ack ackV ty vt hdr data dcnt := by
  refine (bits_bytes _ 0 8).trans ?_
  rw [pow_zero, Nat.div_one, mkFlit_toNat_eq_header_add hlen, Nat.add_mul_mod_self_left, Nat.mod_eq_of_lt flitHeader_lt]

theorem ofLe_flitBytes_mkFlit_crc :
    ofLe (flitBytes (mkFlit seq ack ackV ty vt hdr data dcnt p) 72 8) = crc64 (flitBody seq ack ackV ty vt hdr data dcnt p) := by
  have hbody := ofLe_lt (flitBody seq ack ackV ty vt hdr data dcnt p)
  rw [length_flitBody hlen] at hbody
  rw [flitBytes_eq_leBytes, ofLe_leBytes, mkFlit_toNat hlen, Nat.add_mul_div_left _ _ (by positivity),
    Nat.div_eq_of_lt hbody, Nat.zero_add, Nat.mod_eq_of_lt (crc64_lt _)]

variable (hbytes : ∀ x ∈ p, x < 256)
include hbytes

theorem flitBytes_mkFlit_payload : flitBytes (mkFlit seq ack ackV ty vt hdr data dcnt p) 8 64 = p := by
  rw [flitBytes_eq_leBytes, mkFlit_toNat_eq_header_add hlen, Nat.add_mul_div_left _ _ (by positivity),
    Nat.div_eq_of_lt flitHeader_lt, Nat.zero_add, ← hlen]
  exact leBytes_ofLe_add hbytes _

theorem flitBytes_mkFlit_body :
    flitBytes (mkFlit seq ack ackV ty vt hdr data dcnt p) 0 72 = flitBody seq ack ackV ty vt hdr data dcnt p := by
  have hlength : (flitBody seq ack ackV ty vt hdr data dcnt p).length = 72 := length_flitBody hlen
  rw [flitBytes_eq_leBytes, pow_zero, Nat.div_one, mkFlit_toNat hlen, ← hlength]
  exact leBytes_ofLe_add (flitBody_lt hbytes) _

end

/-- Settles O51: the parts of a flit's number are its header, its payload and the CRC of both. -/
theorem flitLayout : Obligations.FlitLayout := by
  unfold Obligations.FlitLayout
  refine ⟨?fields, flitOk_eq, rfl, crc64_snoc⟩
  case fields =>
    intro seq ack ty vt hdr data dcnt ackV p hlen hbytes f
    have hagree : ofLe (flitBytes f 72 8) = crc64 (flitBytes f 0 72) :=
      (ofLe_flitBytes_mkFlit_crc hlen).trans (congrArg crc64 (flitBytes_mkFlit_body hlen hbytes).symm)
    refine ⟨bits_mkFlit_header hlen, flitBytes_mkFlit_payload hlen hbytes, hagree, ?_⟩
    rw [flitOk_eq, hagree]
    exact beq_self_eq_true _

end Sys2Proof.Machine

/-! The baton (R316, R317): what events leave alone of the engines and the Keystone's registers, what a pass does to the pairs of
the old and the new cluster, and the settling of O59. -/

namespace Sys2Proof.Machine

/-! ### Bits of a mask -/

theorem setBit_eq_setBits (m i : Nat) : setBit m i = setBits m i 1 1 := by
  have hbit := testBit_eq_bits m i
  have hle := bits_eq_div_mod m i 1 ▸ Nat.mod_lt (m / 2 ^ i) (by norm_num : 0 < 2 ^ 1)
  rw [setBit, setBits]
  cases hm : m.testBit i with
  | true =>
    have hone : bits m i 1 = 1 := by simpa [hm] using hbit.symm
    have hge := Nat.ge_two_pow_of_testBit hm
    rw [hone, if_pos rfl]
    omega
  | false =>
    have hzero : bits m i 1 = 0 := by
      have hne : bits m i 1 ≠ 1 := by simpa [hm] using hbit.symm
      omega
    rw [hzero, if_neg Bool.false_ne_true]
    omega

theorem testBit_setBit (m i j : Nat) : (setBit m i).testBit j = (decide (j = i) || m.testBit j) := by
  rw [setBit_eq_setBits, testBit_setBits]
  by_cases hj : j = i
  · simp [hj]
  · rw [if_neg (by omega), decide_eq_false hj, Bool.false_or]

/-! ### What an event leaves alone of the engines and the baton -/

/-- The engines, the baton's cluster and the fenced clusters are the same in two states. -/
def State.SameBaton (s t : State) : Prop := t.engines = s.engines ∧ t.baton = s.baton ∧ t.fencedMcs = s.fencedMcs

namespace State.SameBaton

theorem refl (s : State) : s.SameBaton s := ⟨rfl, rfl, rfl⟩

theorem trans {s t u : State} (hst : s.SameBaton t) (htu : t.SameBaton u) : s.SameBaton u :=
  ⟨htu.1.trans hst.1, htu.2.1.trans hst.2.1, htu.2.2.trans hst.2.2⟩

theorem ite {s a b : State} {c : Prop} [Decidable c] (ha : s.SameBaton a) (hb : s.SameBaton b) :
    s.SameBaton (if c then a else b) := by
  split
  · exact ha
  · exact hb

theorem foldl {α : Type} {f : State → α → State} (hf : ∀ (s : State) (a : α), s.SameBaton (f s a)) (l : List α) (s : State) :
    s.SameBaton (l.foldl f s) := by
  induction l generalizing s with
  | nil => exact refl s
  | cons a l ih => exact (hf s a).trans (ih _)

end State.SameBaton

/-- A register field that is none of HUB_LAP_CTL's. -/
theorem sameBaton_put {pg : Nat} {f : Fld} (s : State) (v : Nat) (hoff : f.off ≠ 0x40 ∧ f.off < 4096) (hlo : f.lo < 64) :
    s.SameBaton (s.put pg f v) := by
  refine ⟨rfl, State.fld_put_other s v ?_, State.fld_put_other s v ?_⟩
  all_goals
    simp only [regKey, pgHub, Reg.HUB_LAP_CTL_BATON, Reg.HUB_LAP_CTL_FENCED]
    omega

theorem sameBaton_countMissed (s : State) (src : Nat) : s.SameBaton (s.countMissed src) := ⟨rfl, rfl, rfl⟩

theorem sameBaton_countLost (s : State) (r : Option Record) : s.SameBaton (s.countLost r) := by
  cases r <;> exact ⟨rfl, rfl, rfl⟩

theorem sameBaton_countRecords (s : State) : s.SameBaton s.countRecords := .ite (.refl s) ⟨rfl, rfl, rfl⟩

theorem sameBaton_emit (s : State) (o : Out) : s.SameBaton (s.emit o) := ⟨rfl, rfl, rfl⟩

theorem sameBaton_toManager (s : State) (r : Record) : s.SameBaton (s.toManager r) := by
  rw [State.toManager]
  rcases s.mq.push r s.time 4096 4031 4094 true with ⟨q, l, w⟩
  have hqueued : s.SameBaton (({ s with mq := q } : State).countLost l) := .trans ⟨rfl, rfl, rfl⟩ (sameBaton_countLost { s with mq := q } l)
  exact .ite (hqueued.trans (sameBaton_emit ..)) hqueued

theorem sameBaton_toFault (s : State) (t : Nat) (r : Record) : s.SameBaton (s.toFault t r) := by
  unfold State.toFault
  dsimp only
  have hqueued : ∀ (v : Vi) (l : Option Record), s.SameBaton ((s.setVi t v).countLost l) :=
    fun v l => .trans ⟨rfl, rfl, rfl⟩ (sameBaton_countLost (s.setVi t v) l)
  exact .ite ((hqueued _ _).trans (.foldl (fun _ _ => sameBaton_emit ..) _ _)) (hqueued _ _)

theorem sameBaton_toLog (s : State) (p ld : Nat) (r : Record) : s.SameBaton (s.toLog p ld r) :=
  .trans ⟨rfl, rfl, rfl⟩ (sameBaton_countLost (s.setLdev p ld _) _)

theorem sameBaton_toJournal (s : State) (r : Record) : s.SameBaton (s.toJournal r) := by
  unfold State.toJournal
  dsimp only
  repeat' split
  all_goals exact ⟨rfl, rfl, rfl⟩

theorem sameBaton_alert (s : State) : s.SameBaton s.alert := by
  unfold State.alert
  split
  · exact .ite (sameBaton_put s 1 (by decide) (by decide)) ⟨rfl, rfl, rfl⟩
  · exact ⟨rfl, rfl, rfl⟩

theorem sameBaton_produce (s : State) (r : Record) (req : ReqFrom) : s.SameBaton (s.produce r req) := by
  unfold State.produce
  extract_lets pg b s1 s2 s3 ena s4 s5 s6 jr s7
  have hraised : s.SameBaton s2 := (sameBaton_countRecords s).trans (sameBaton_put s1 _ (by decide) (by decide))
  have hcaptured : s.SameBaton s3 := hraised.trans (.ite ⟨rfl, rfl, rfl⟩ (.refl s2))
  have hmanager : s.SameBaton s4 := hcaptured.trans (.ite (sameBaton_toManager ..) (.refl s3))
  have hfault : s.SameBaton s5 := by
    refine hmanager.trans (.ite ?_ (.refl s4))
    split
    · exact .ite (sameBaton_toFault ..) (.refl s4)
    · exact .refl s4
  have hlogs : s.SameBaton s6 := hfault.trans (.ite (.foldl (fun _ _ => sameBaton_toLog ..) _ _) (.refl s5))
  have hjournal : s.SameBaton s7 := hlogs.trans (.ite (sameBaton_toJournal ..) (.refl s6))
  exact hjournal.trans (.ite (sameBaton_alert s7) (.refl s7))

theorem sameBaton_leaveIdle (s : State) : s.SameBaton s.leaveIdle := by
  unfold State.leaveIdle
  refine .ite ?_ (.refl s)
  exact .trans ⟨rfl, rfl, rfl⟩ ((sameBaton_put _ 0 (by decide) (by decide)).trans (sameBaton_put _ 0 (by decide) (by decide)))

/-- An event changes no engine, neither the baton's cluster nor the fenced ones. -/
theorem sameBaton_raise (s : State) (src kind sev : Nat) (vi : Option Nat) (da det : Nat) :
    s.SameBaton (s.raise src kind sev vi da det) :=
  .ite ((sameBaton_produce ..).trans (sameBaton_leaveIdle _)) ⟨rfl, rfl, rfl⟩

/-! ### The halves of a pass -/

/-- An engine halted with its matrix mask cleared. -/
def Engine.fenced0 (g : Engine) : Engine := { g with running := false, loading := false, jobs := [], mask := 0 }

theorem eng_setEng_eq (s : State) (e : Nat) (v : Engine) (x : Nat) : (s.setEng e v).eng x = if x = e then v else s.eng x := by
  by_cases hx : x = e
  · rw [if_pos hx, hx, State.eng_setEng]
  · rw [if_neg hx, State.eng_setEng_other s v hx]

theorem fenceMc_eng (s : State) (k e : Nat) :
    (s.fenceMc k).eng e = if e = 16 * k ∨ e = 16 * k + 1 then (s.eng e).fenced0 else s.eng e := by
  simp only [State.fenceMc, List.foldl_cons, List.foldl_nil, State.put_eng, State.haltEng, eng_setEng_eq]
  by_cases h0 : e = 16 * k
  · simp [h0, Engine.fenced0]
  · by_cases h1 : e = 16 * k + 1
    · simp [h1, Engine.fenced0]
    · simp [h0, h1]

theorem fenceMc_fencedMcs (s : State) (k : Nat) : (s.fenceMc k).fencedMcs = setBit s.fencedMcs k % 2 ^ 4 := by
  have hhalted : ∀ (u : State) (e : Nat), ((u.haltEng e).setEng e { ((u.haltEng e).eng e) with mask := 0 }).fencedMcs = u.fencedMcs :=
    fun _ _ => rfl
  rw [State.fenceMc, State.fencedMcs, State.fld_put, List.foldl_cons, List.foldl_cons, List.foldl_nil, hhalted, hhalted]
  rfl

theorem testBit_fenceMc_fencedMcs (s : State) (k : Nat) {j : Nat} (hj : j < 4) :
    (s.fenceMc k).fencedMcs.testBit j = (decide (j = k) || s.fencedMcs.testBit j) := by
  rw [fenceMc_fencedMcs, Nat.testBit_mod_two_pow, testBit_setBit, decide_eq_true hj, Bool.true_and]

theorem takeBaton_eng (s : State) (k e : Nat) : (s.takeBaton k).eng e =
    if e = 16 * k ∨ e = 16 * k + 1 then { (s.eng e) with doorbell := setBit (s.eng e).doorbell 26 } else s.eng e := by
  simp only [State.takeBaton, State.ring, eng_setEng_eq, State.put_eng]
  by_cases h0 : e = 16 * k
  · simp [h0]
  · by_cases h1 : e = 16 * k + 1
    · simp [h1]
    · simp [h0, h1]

theorem takeBaton_baton (s : State) {k : Nat} (hk : k < 4) : (s.takeBaton k).baton = k := by
  have hset : (s.takeBaton k).baton = ((s.put pgHub Reg.HUB_LAP_CTL_BATON k).put pgHub Reg.HUB_LAP_STAT_MISSED 0).baton := rfl
  rw [hset, State.baton, State.fld_put_other _ _ (by decide), State.fld_put]
  exact Nat.mod_eq_of_lt hk

theorem takeBaton_fencedMcs (s : State) (k : Nat) : (s.takeBaton k).fencedMcs = s.fencedMcs := by
  have hset : (s.takeBaton k).fencedMcs =
      ((s.put pgHub Reg.HUB_LAP_CTL_BATON k).put pgHub Reg.HUB_LAP_STAT_MISSED 0).fencedMcs := rfl
  rw [hset, State.fencedMcs, State.fld_put_other _ _ (by decide), State.fld_put_other _ _ (by decide)]
  rfl

/-! ### A pass -/

/-- The cluster that takes the baton from the old one: the first of the others that is not fenced and whose pair runs (R317). -/
def State.nextMc (s : State) (old : Nat) : Option Nat :=
  ([1, 2, 3].map (fun i => (old + i) % 4)).find? (fun k => !s.fencedMcs.testBit k && s.pairRuns k)

theorem nextMc_spec {s : State} {old k : Nat} (hnext : s.nextMc old = some k) :
    k < 4 ∧ (old < 4 → k ≠ old) ∧ s.pairRuns k = true := by
  have hmem := List.mem_of_find?_eq_some hnext
  have hruns := List.find?_some hnext
  simp only [List.map_cons, List.map_nil, List.mem_cons, List.not_mem_nil, or_false] at hmem
  simp only [Bool.and_eq_true] at hruns
  exact ⟨by omega, by omega, hruns.2⟩

/-- The old cluster's fence changes nothing of the others, so the same cluster comes next. -/
theorem fenceMc_nextMc (s : State) {old : Nat} (hold : old < 4) : (s.fenceMc old).nextMc old = s.nextMc old := by
  refine List.find?_congr fun k hk => ?_
  simp only [List.map_cons, List.map_nil, List.mem_cons, List.not_mem_nil, or_false] at hk
  have hother : k ≠ old := by omega
  rw [testBit_fenceMc_fencedMcs s old (by omega), decide_eq_false hother, Bool.false_or, State.pairRuns, State.pairRuns,
    fenceMc_eng, fenceMc_eng, if_neg (by omega), if_neg (by omega)]

/-- The state of a pass to cluster k before its event: the windows begin anew, and moves under way are left to their log. -/
def State.batonGiven (s : State) (old k : Nat) : State :=
  let s := ((s.fenceMc old).takeBaton k).suspectMoves (fun _ => true)
  let s : State := { s with key := { s.key with windowAt := s.time, loadAt := none } }
  s.put pgHub Reg.HUB_LAP_STAT_PASSES (min 0xFFFF (s.fld pgHub Reg.HUB_LAP_STAT_PASSES + 1))

theorem passBaton_eq_batonGiven {s : State} {k : Nat} (cause : Nat) (hold : s.baton < 4) (hnext : s.nextMc s.baton = some k) :
    s.passBaton cause = (s.batonGiven s.baton k).raise 452 0x804 ERROR none 0 (detail [s.baton, k, cause]) := by
  rw [← fenceMc_nextMc s hold, State.nextMc] at hnext
  simp only [State.passBaton, hnext]
  rfl

theorem sameBaton_batonGiven (s : State) (old k : Nat) : ((s.fenceMc old).takeBaton k).SameBaton (s.batonGiven old k) :=
  .trans ⟨rfl, rfl, rfl⟩ (sameBaton_put _ _ (by decide) (by decide))

/-- Settles O59: the engines and the baton after the pass are those of the fence and the taking, which its event leaves alone. -/
theorem batonPasses : Obligations.BatonPasses := by
  unfold Obligations.BatonPasses
  intro s k hon hold hnext
  obtain ⟨hk, hother, hruns⟩ := nextMc_spec hnext
  have hdiff := hother hold
  obtain ⟨hengines, hbaton, hfenced⟩ : ((s.fenceMc s.baton).takeBaton k).SameBaton (s.passBaton 2) := by
    rw [passBaton_eq_batonGiven 2 hold hnext]
    exact (sameBaton_batonGiven ..).trans (sameBaton_raise ..)
  have heng : ∀ e, (s.passBaton 2).eng e = ((s.fenceMc s.baton).takeBaton k).eng e := fun e => by
    rw [State.eng, hengines, State.eng]
  refine ⟨s.passBaton 2, ?_, ?_, ?_, fun e he => ?_, fun e he => ?_, fun e h1 h2 h3 h4 => ?_⟩
  · exact congrArg _ (if_pos hon)
  · rw [hbaton, takeBaton_baton _ hk]
  · rw [hfenced, takeBaton_fencedMcs, testBit_fenceMc_fencedMcs _ _ hold, decide_eq_true rfl, Bool.true_or]
  · rw [heng, takeBaton_eng, if_neg (by omega), fenceMc_eng, if_pos he]
    exact ⟨rfl, rfl⟩
  · rw [State.pairRuns, Bool.and_eq_true] at hruns
    rw [heng, takeBaton_eng, if_pos he, fenceMc_eng, if_neg (by omega)]
    refine ⟨by rw [testBit_setBit, decide_eq_true rfl, Bool.true_or], ?_⟩
    rcases he with rfl | rfl
    · exact hruns.1
    · exact hruns.2
  · rw [heng, takeBaton_eng, if_neg (by omega), fenceMc_eng, if_neg (by omega)]

end Sys2Proof.Machine

/-! Control commands and what is stored (R312, R313, R336, R341, R355 to R360, R408, R409): the commands on events, telemetry, clocks,
mailboxes and a link's pause and replay leave memory, keys and translations alone, and the settling of O60. -/

namespace Sys2Proof.Machine

/-! ### Answers that keep what is stored -/

/-- Where the meaning answers a next state, what is stored is what it was. -/
def KeepsStore (s : State) (o : Host.Outcome State Fault Refusal) : Prop := ∀ t, o = .next t → s.SameStore t

theorem keepsStore_next {s t : State} (h : s.SameStore t) : KeepsStore s (.next t) := by
  rintro _ ⟨⟩
  exact h

theorem keepsStore_ite {s : State} {c : Prop} [Decidable c] {a b : Host.Outcome State Fault Refusal} (ha : KeepsStore s a)
    (hb : KeepsStore s b) : KeepsStore s (if c then a else b) := by
  split
  · exact ha
  · exact hb

theorem keepsStore_self (s : State) : KeepsStore s (.next s) := keepsStore_next (.refl s)

/-! ### Clocks and gates -/

theorem same_writeRootSel (s : State) (k : Nat) : s.SameStore (s.writeRootSel k) :=
  same_ite (.refl s) <| same_ite (same_put ..) <|
    (((same_ite (same_putArmed s false) (.refl s)).trans (same_setRoot ..)).trans (same_put ..)).trans (same_raise ..)

theorem same_writeArm (s : State) (k : Nat) (arm : Bool) : s.SameStore (s.writeArm k arm) :=
  (same_put ..).trans <| same_ite (same_putArmed ..) <|
    same_ite ((same_putArmed ..).trans (same_put ..)) (same_putArmed ..)

theorem same_writeClose (s : State) : s.SameStore s.writeClose := by
  unfold State.writeClose
  exact same_ite (same_gateRefuse ..) <| same_ite (same_gateRefuse ..) <| same_ite (.refl s) <| same_ite (same_gateRefuse ..) <|
    same_ite (same_gateRefuse ..) <| same_ite (same_clk ..) (same_shutNode ..)

theorem execCandidateWindow_keepsStore (p : Fin 8) (count : BitVec 20) (s : State) :
    KeepsStore s (execCandidateWindow p count s) := by
  unfold execCandidateWindow
  refine keepsStore_ite (keepsStore_self s) ?_
  split
  · exact keepsStore_self s
  · have hmeasured : ∀ a b, s.SameStore ((s.put pgClk (Reg.CLK_CAND_PPM p.val) a).put pgClk (Reg.CLK_CAND_REF p.val) b) :=
      fun a b => (same_put ..).trans (same_put ..)
    refine keepsStore_ite (keepsStore_next ?_) (keepsStore_next ((hmeasured _ _).trans (same_unready ..)))
    exact (hmeasured _ _).trans <| (same_put ..).trans <| same_ite (same_put ..) (.refl _)

theorem execGatePendingDone_keepsStore (s : State) : KeepsStore s (execGatePendingDone s) := by
  unfold execGatePendingDone
  split
  · exact keepsStore_next (same_ite (.refl s) (same_shutNode ..))
  · exact keepsStore_self s

theorem execGateBusy_keepsStore (s : State) : KeepsStore s (execGateBusy s) := by
  unfold execGateBusy
  split
  · exact keepsStore_ite (keepsStore_self s) <| keepsStore_next <|
      ((same_clk s _).trans (same_gateRefuse ..)).trans (same_raise ..)
  · exact keepsStore_self s

/-! ### Telemetry and lap dumps -/

theorem same_writeTelCnt (s : State) (i v : Nat) : s.SameStore (s.writeTelCnt i v) :=
  .trans (b := { s with telCnt := _ }) ⟨rfl, rfl, rfl, rfl, rfl, rfl, rfl, rfl, rfl, rfl⟩ (same_reconfigured _)

theorem same_writeTelSel (s : State) (i v : Nat) : s.SameStore (s.writeTelSel i v) :=
  .trans (b := { s with telSel := _ }) ⟨rfl, rfl, rfl, rfl, rfl, rfl, rfl, rfl, rfl, rfl⟩ (same_reconfigured _)

theorem same_telClear (s : State) : s.SameStore s.telClear :=
  .trans (b := { s with telCnt := [] }) ⟨rfl, rfl, rfl, rfl, rfl, rfl, rfl, rfl, rfl, rfl⟩ (same_reconfigured _)

/-- Dumps that stop write no line; a start may (R344, R345). -/
theorem same_writeLapCtl_zero (s : State) : s.SameStore (s.writeLapCtl 0) :=
  ((same_put ..).trans (same_lap ..)).trans (same_put ..)

theorem execLapSnapshot_keepsStore (s : State) : KeepsStore s (execLapSnapshot s) := by
  unfold execLapSnapshot
  refine keepsStore_ite (keepsStore_self s) (keepsStore_ite (keepsStore_next (same_lapStop s)) ?_)
  have hdue : s.SameStore { s.leaveIdle with lap := { s.leaveIdle.lap with next := s.leaveIdle.lapNext } } :=
    (same_leaveIdle s).trans (same_lap ..)
  exact keepsStore_ite
    (keepsStore_next ((hdue.trans (same_put ..)).trans ((same_lap ..).trans (same_raise ..))))
    (keepsStore_next (hdue.trans (same_lap ..)))

/-! ### Events and the journal -/

theorem same_writeForce (s : State) (pg v : Nat) : s.SameStore (s.writeForce pg v) := by
  unfold State.writeForce
  dsimp only
  have hput : ∀ a b c, s.SameStore (((s.put pg Reg.EVT_FORCE_KIND a).put pg Reg.EVT_FORCE_INDEX b).put pg Reg.EVT_FORCE_SEV c) :=
    fun a b c => ((same_put ..).trans (same_put ..)).trans (same_put ..)
  split
  · exact same_ite ((hput ..).trans (same_raise ..)) (hput ..)
  · exact hput ..

theorem same_clearMissed (s : State) : s.SameStore s.clearMissed := ⟨rfl, rfl, rfl, rfl, rfl, rfl, rfl, rfl, rfl, rfl⟩

theorem execAlertHoldoffEnd_keepsStore (s : State) : KeepsStore s (execAlertHoldoffEnd s) := by
  have halert : ∀ a n, s.SameStore { s with alertAt := a, alerts := n } :=
    fun _ _ => ⟨rfl, rfl, rfl, rfl, rfl, rfl, rfl, rfl, rfl, rfl⟩
  unfold execAlertHoldoffEnd
  split
  · exact keepsStore_ite (keepsStore_self s) <| keepsStore_ite (keepsStore_next ((halert ..).trans (same_put ..)))
      (keepsStore_next (halert none s.alerts))
  · exact keepsStore_self s

theorem execJournalTokenRefill_keepsStore (second : Bool) (s : State) : KeepsStore s (execJournalTokenRefill second s) :=
  keepsStore_ite (keepsStore_next (same_ite (.refl s) (same_jnl ..))) (keepsStore_next (same_ite (.refl s) (same_jnl ..)))

theorem execThermalThrottle_keepsStore (t : BitVec 8) (s : State) : KeepsStore s (execThermalThrottle t s) := by
  have htherm : ∀ a b, s.SameStore { s with thermAt := a, therm := b } :=
    fun _ _ => ⟨rfl, rfl, rfl, rfl, rfl, rfl, rfl, rfl, rfl, rfl⟩
  refine keepsStore_ite (keepsStore_self s) (keepsStore_next ?_)
  exact (same_ite (htherm ..) (htherm _ s.therm)).trans (same_foldl fun _ _ => same_put ..)

/-! ### Engines -/

theorem same_interruptOne (s : State) (i j : Nat) : s.SameStore (s.interruptOne i j) := same_ite (same_setEng ..) (same_setEng ..)

theorem State.toMailbox_eq_of_room {s : State} {e : Nat} (m : BitVec 512) (hroom : (s.eng e).mailbox.length < 32) :
    s.toMailbox e m = (s.setEng e { (s.eng e) with mailbox := (s.eng e).mailbox ++ [m] }, true) :=
  if_neg (Nat.not_le.mpr hroom)

theorem State.toMailbox_eq_of_full {s : State} {e : Nat} (m : BitVec 512) (hfull : 32 ≤ (s.eng e).mailbox.length) :
    s.toMailbox e m = (s, false) :=
  if_pos hfull

theorem execMailboxSend_keepsStore (eng dst : Fin 64) (msg : BitVec 512) (s : State) :
    KeepsStore s (execMailboxSend eng dst msg s) := by
  refine keepsStore_ite (keepsStore_self s) ?_
  rcases Nat.lt_or_ge (s.eng dst.val).mailbox.length 32 with hroom | hfull
  · rw [State.toMailbox_eq_of_room msg hroom]
    exact keepsStore_next (same_setEng ..)
  · rw [State.toMailbox_eq_of_full msg hfull]
    exact keepsStore_next (same_emit ..)

theorem same_dropJob (s : State) (e id : Nat) : s.SameStore (s.dropJob e id) := by
  unfold State.dropJob
  dsimp only
  split
  · exact same_setEng ..
  · exact .refl s

theorem execJobTimeout_keepsStore (eng : Fin 64) (job : BitVec 16) (s : State) : KeepsStore s (execJobTimeout eng job s) := by
  unfold execJobTimeout
  split
  · exact keepsStore_next (same_ite (same_dropJob ..) (.refl s))
  · exact keepsStore_self s

/-! ### Links -/

theorem same_askReplay (s : State) (l : Nat) (toDie : Bool) : s.SameStore (s.askReplay l toDie) :=
  same_ite (.refl s) ((same_putDir ..).trans (same_sendCtl ..))

theorem same_pauseIn (s : State) (l : Nat) (toDie : Bool) : s.SameStore (s.pauseIn l toDie) :=
  same_ite ((same_putLink ..).trans (same_sendCtl ..)) (same_ite ((same_putLink ..).trans (same_sendCtl ..)) (.refl s))

theorem same_pauseAcked (s : State) (l : Nat) : s.SameStore (s.pauseAcked l) := same_ite (same_putLink ..) (.refl s)

theorem same_replayReq (s : State) (l : Nat) (toDie : Bool) (ack : Nat) : s.SameStore (s.replayReq l toDie ack) :=
  (same_putDir ..).trans (same_trigger ..)

theorem same_vdtRetry (s : State) (l : Nat) : s.SameStore (s.vdtRetry l) := same_ite (same_startRetrain ..) (.refl s)

/-! ### The frame -/

/-- Settles O60, command by command. -/
theorem controlFrame : Obligations.ControlFrame := by
  unfold Obligations.ControlFrame
  intro c s t hcontrol
  suffices hkeeps : KeepsStore s (exec c s) from hkeeps t
  cases c with
  | refclkPresent => exact keepsStore_next (same_clk ..)
  | candidateWindow => exact execCandidateWindow_keepsStore _ _ _
  | rootSel => exact keepsStore_next (same_writeRootSel ..)
  | arm => exact keepsStore_next (same_writeArm ..)
  | gateClose => exact keepsStore_next (same_writeClose s)
  | gatePendingDone => exact execGatePendingDone_keepsStore s
  | gateBusy => exact execGateBusy_keepsStore s
  | telFreeze => exact keepsStore_next (same_put ..)
  | telClear => exact keepsStore_next (same_telClear s)
  | telCntWrite => exact keepsStore_next (same_atPage _ _ _ fun _ => same_writeTelCnt ..)
  | telSelWrite => exact keepsStore_next (same_atPage _ _ _ fun _ => same_writeTelSel ..)
  | evtForce => exact keepsStore_ite (keepsStore_self s) (keepsStore_next (same_atPage _ _ _ fun _ => same_writeForce ..))
  | capRearm => exact keepsStore_ite (keepsStore_self s) (keepsStore_next (same_atPage _ _ _ fun _ => same_errCap ..))
  | evtMissedClear => exact keepsStore_next (same_clearMissed s)
  | alertHoldoffEnd => exact execAlertHoldoffEnd_keepsStore s
  | journalTokenRefill => exact execJournalTokenRefill_keepsStore _ _
  | interrupt => exact keepsStore_ite (keepsStore_self s) (keepsStore_next (same_foldl fun _ _ => same_interruptOne ..))
  | mailboxSend => exact execMailboxSend_keepsStore _ _ _ _
  | jobTimeout => exact execJobTimeout_keepsStore _ _ _
  | pauseReq => exact keepsStore_next (same_pauseIn ..)
  | pauseAck => exact keepsStore_next (same_pauseAcked ..)
  | replayReq => exact keepsStore_next (same_replayReq ..)
  | replayTimeout => exact keepsStore_next (same_ite (same_trigger ..) (.refl s))
  | discardRepeat => exact keepsStore_next (same_ite ((same_putDir ..).trans (same_askReplay ..)) (.refl s))
  | vdtRetry => exact keepsStore_next (same_vdtRetry ..)
  | thermalThrottle => exact execThermalThrottle_keepsStore _ _
  | lapDumpStop => exact keepsStore_next (same_writeLapCtl_zero s)
  | lapSnapshot => exact execLapSnapshot_keepsStore s
  | _ => exact absurd hcontrol Bool.false_ne_true

end Sys2Proof.Machine

/-! The slot ledger of a Pier (R342, R343, R354): what an event adds to the five fixed counters of a Pier, that every booking keeps
SLOT_TOTAL the sum of the four classes, and the settling of O57. -/

namespace Sys2Proof.Machine

/-! ### An event and the fixed counters -/

/-- Counters raised in turn: each rises by the amount as often as it is named. -/
theorem getD_foldl_raise (l : List Nat) (amt i : Nat) (m : SMap Nat) :
    SMap.getD (l.foldl (fun m i => SMap.put m i ((SMap.getD m i 0 + amt) % 2 ^ 64)) m) i 0 ≡
      SMap.getD m i 0 + l.count i * amt [MOD 2 ^ 64] := by
  induction l generalizing m with
  | nil => rw [List.foldl_nil, List.count_nil, Nat.zero_mul]; rfl
  | cons k l ih =>
    rw [List.foldl_cons]
    refine (ih _).trans ?_
    by_cases hk : k = i
    · subst hk
      rw [SMap.getD_put_same, List.count_cons_self, Nat.add_mul, Nat.one_mul, Nat.add_comm (List.count k l * amt), ← Nat.add_assoc]
      exact (Nat.mod_modEq _ _).add_right _
    · rw [SMap.getD_put_other _ _ _ (Ne.symm hk), List.count_cons_of_ne hk]

/-- A Pier's counters count: neither frozen nor stopped with their block (R338, R355). -/
def State.pierCounts (s : State) (p : Nat) : Bool :=
  s.telOn && !s.offline p && !s.flag (pgPier p) (Reg.SEQ_CTL_HALTED 0x900)

theorem fixedCode_pier (p : Nat) {j : Nat} (hj : j < 32) : fixedCode (512 + 32 * p + j) = if j < 5 then some (j + 1) else none := by
  rw [fixedCode, if_neg (by omega), if_neg (by omega), show (512 + 32 * p + j - 512) % 32 = j by omega]

/-- Of the fixed counters of a block, an event names the one of its code, once. -/
theorem count_fixed (lo n code : Nat) (i : Nat) :
    ((pick n (fun j => fixedCode (lo + j) == some code)).map (lo + ·)).count i =
      if lo ≤ i ∧ i < lo + n ∧ fixedCode i = some code then 1 else 0 := by
  have hnodup : ((pick n (fun j => fixedCode (lo + j) == some code)).map (lo + ·)).Nodup :=
    (List.nodup_range.filter _).map (fun _ _ h => Nat.add_left_cancel h)
  have hmem : i ∈ (pick n (fun j => fixedCode (lo + j) == some code)).map (lo + ·) ↔
      lo ≤ i ∧ i < lo + n ∧ fixedCode i = some code := by
    simp only [pick, List.mem_map, List.mem_filter, List.mem_range, beq_iff_eq]
    constructor
    · rintro ⟨j, ⟨hj, hcode⟩, rfl⟩
      exact ⟨by omega, by omega, hcode⟩
    · rintro ⟨hlo, hhi, hcode⟩
      exact ⟨i - lo, ⟨by omega, by rwa [show lo + (i - lo) = i by omega]⟩, by omega⟩
  rw [List.Nodup.count hnodup]
  exact if_congr hmem rfl rfl

/-- A fixed counter rises where the event has its code; the counters that select the event's code are none of the fixed ones. -/
theorem tally_telValue_fixed {s : State} {lo n code amt i c : Nat} (f : Option Flt) (hon : s.telOn = true)
    (hfixed : fixedCode i = some c) :
    (s.tally lo n code amt f).telValue i ≡ s.telValue i + (if lo ≤ i ∧ i < lo + n ∧ c = code then amt else 0) [MOD 2 ^ 64] := by
  rw [State.tally, if_neg (by rw [hon]; decide)]
  change SMap.getD (if amt = 0 then s.telCnt else _) i 0 ≡ SMap.getD s.telCnt i 0 + _ [MOD 2 ^ 64]
  by_cases hamt : amt = 0
  · rw [if_pos hamt, hamt, ite_self]
    rfl
  · rw [if_neg hamt]
    refine (getD_foldl_raise ..).trans ?_
    rw [List.count_append, count_fixed, List.count_eq_zero_of_not_mem, Nat.add_zero, ite_mul, Nat.one_mul, Nat.zero_mul]
    · simp only [hfixed, Option.some_inj]
      rfl
    intro hmem
    obtain ⟨x, hx, rfl⟩ := List.mem_map.mp hmem
    have hfilter := (List.mem_filter.mp hx).2
    simp only [Bool.and_eq_true, hfixed] at hfilter
    exact absurd hfilter.1.1.1.2 Bool.false_ne_true

/-- With its counters frozen or its block stopped, a Pier's event changes nothing (R338). -/
theorem telPier_eq_of_not_counts {s : State} {p : Nat} (code amt : Nat) (f : Option Flt) (h : s.pierCounts p = false) :
    s.telPier p code amt f = s := by
  unfold State.telPier
  split
  · rfl
  · next hopen =>
    have hoff : s.telOn = false := by
      simp only [Bool.not_eq_true, Bool.or_eq_false_iff] at hopen
      simpa [State.pierCounts, hopen.1, hopen.2] using h
    rw [State.tally, if_pos (by rw [hoff]; rfl)]

/-- What an event adds to a fixed counter of a Pier (R343): SLOT_TOTAL, then the four classes, each with the code that follows
its place. -/
theorem telPier_telValue (s : State) (p code amt : Nat) (f : Option Flt) (n : Nat) {j : Nat} (hj : j < 5) :
    (s.telPier p code amt f).telValue (512 + 32 * n + j) ≡
      s.telValue (512 + 32 * n + j) + (if (s.pierCounts p = true ∧ p = n) ∧ code = j + 1 then amt else 0) [MOD 2 ^ 64] := by
  have hfixed : fixedCode (512 + 32 * n + j) = some (j + 1) := by rw [fixedCode_pier n (by omega), if_pos hj]
  cases hcounts : s.pierCounts p with
  | false =>
    rw [telPier_eq_of_not_counts _ _ _ hcounts, if_neg (fun h => Bool.false_ne_true h.1.1), Nat.add_zero]
  | true =>
    have hopen := hcounts
    simp only [State.pierCounts, Bool.and_eq_true, Bool.not_eq_true'] at hopen
    obtain ⟨⟨hon, honline⟩, hruns⟩ := hopen
    rw [State.telPier, honline, hruns]
    refine (tally_telValue_fixed f hon hfixed).trans (congrArg (· % 2 ^ 64) ?_)
    congr 1
    exact if_congr (by simp only [true_and]; omega) rfl rfl

theorem telPier_pierCounts (s : State) (p code amt : Nat) (f : Option Flt) (n : Nat) :
    (s.telPier p code amt f).pierCounts n = s.pierCounts n := by
  unfold State.telPier
  split
  · rfl
  · obtain ⟨m, hm⟩ := s.tally_eq (512 + 32 * p) 32 code amt f
    rw [hm]
    rfl

/-! ### The balance -/

/-- SLOT_TOTAL of a Pier is ahead of the sum of its four classes by an amount (R343). -/
def State.SlotsAhead (n d : Nat) (u : State) : Prop :=
  u.telValue (512 + 32 * n + 0) ≡ u.telValue (512 + 32 * n + 1) + u.telValue (512 + 32 * n + 2) + u.telValue (512 + 32 * n + 3) +
    u.telValue (512 + 32 * n + 4) + d [MOD 2 ^ 64]

/-- What an event's amount is worth to a Pier's ledger: nothing where it is another Pier's, or where its counters stand. -/
def State.slotsOf (s : State) (p n amt : Nat) : Nat := if s.pierCounts p = true ∧ p = n then amt else 0

theorem telPier_slotsOf (s : State) (p code amt : Nat) (f : Option Flt) (q n a : Nat) :
    (s.telPier p code amt f).slotsOf q n a = s.slotsOf q n a := by
  rw [State.slotsOf, telPier_pierCounts, State.slotsOf]

theorem telPier_telValue_slotsOf (s : State) (p code amt : Nat) (f : Option Flt) (n : Nat) {j : Nat} (hj : j < 5) :
    (s.telPier p code amt f).telValue (512 + 32 * n + j) ≡
      s.telValue (512 + 32 * n + j) + (if code = j + 1 then s.slotsOf p n amt else 0) [MOD 2 ^ 64] := by
  refine (telPier_telValue s p code amt f n hj).trans (congrArg (· % 2 ^ 64) ?_)
  rw [State.slotsOf, ← ite_and]
  congr 1
  exact if_congr and_comm rfl rfl

/-- Only the counters bear on the ledger. -/
theorem State.SlotsAhead.of_telCnt {n d : Nat} {s u : State} (h : s.SlotsAhead n d) (hcnt : u.telCnt = s.telCnt) :
    u.SlotsAhead n d := by
  have hvalue : ∀ i, u.telValue i = s.telValue i := fun i => by rw [State.telValue, hcnt, State.telValue]
  simpa only [State.SlotsAhead, hvalue] using h

theorem State.SlotsAhead.setPier {n d : Nat} {s : State} (h : s.SlotsAhead n d) (p : Nat) (x : Pr) :
    (s.setPier p x).SlotsAhead n d := h.of_telCnt rfl

/-- What an event does to the five counters, side by side. -/
theorem State.SlotsAhead.telPier {n d d' : Nat} {s : State} (h : s.SlotsAhead n d) (p code amt : Nat) (f : Option Flt)
    (hd : ∀ a b c e v, a + b + c + e + d + (if code = 1 then s.slotsOf p n amt else 0) = v →
      a + (if code = 2 then s.slotsOf p n amt else 0) + (b + if code = 3 then s.slotsOf p n amt else 0) +
        (c + if code = 4 then s.slotsOf p n amt else 0) + (e + if code = 5 then s.slotsOf p n amt else 0) + d' = v) :
    (s.telPier p code amt f).SlotsAhead n d' := by
  have hvalue := fun {j} (hj : j < 5) => telPier_telValue_slotsOf s p code amt f n hj
  refine (hvalue (j := 0) (by omega)).trans ((h.add_right _).trans (.trans ?_ ((((((hvalue (j := 1) (by omega)).add
    (hvalue (j := 2) (by omega))).add (hvalue (j := 3) (by omega))).add (hvalue (j := 4) (by omega)))).add_right d').symm))
  exact congrArg (· % 2 ^ 64) (hd _ _ _ _ _ rfl).symm

/-- SLOT_TOTAL rises: it is ahead by that much more. -/
theorem State.SlotsAhead.total {n d : Nat} {s : State} (h : s.SlotsAhead n d) (p amt : Nat) :
    (s.telPier p 1 amt none).SlotsAhead n (d + s.slotsOf p n amt) :=
  h.telPier p 1 amt none (by
    intro a b c e v hv
    simp only [if_true, Nat.reduceEqDiff, if_false] at hv ⊢
    omega)

/-- One of the four classes rises and makes up for it. -/
theorem State.SlotsAhead.class {n d : Nat} {s : State} {p amt code : Nat} (h : s.SlotsAhead n (d + s.slotsOf p n amt))
    (hlo : 2 ≤ code) (hhi : code ≤ 5) : (s.telPier p code amt none).SlotsAhead n d :=
  h.telPier p code amt none (by
    intro a b c e v hv
    interval_cases code <;> simp only [if_true, Nat.reduceEqDiff, if_false] at hv ⊢ <;> omega)

/-- An event whose counter is none of the five leaves the ledger as it was. -/
theorem State.SlotsAhead.other {n d : Nat} {s : State} (h : s.SlotsAhead n d) (p : Nat) {code : Nat} (amt : Nat) (f : Option Flt)
    (hcode : wasteRefresh ≤ code) : (s.telPier p code amt f).SlotsAhead n d :=
  h.telPier p code amt f (by
    rw [wasteRefresh] at hcode
    intro a b c e v hv
    rw [if_neg (by omega)] at hv
    rw [if_neg (by omega), if_neg (by omega), if_neg (by omega), if_neg (by omega)]
    omega)

/-- A booking raises SLOT_TOTAL and one of the four: its class, or SLOT_WASTED for the six kinds of waste. -/
theorem State.SlotsAhead.book {n d : Nat} {s : State} (h : s.SlotsAhead n d) (p amt : Nat) {cls : Nat}
    (hcls : cls = slotRetired ∨ cls = slotFront ∨ cls = slotBack ∨ wasteRefresh ≤ cls) : (s.book p cls amt).SlotsAhead n d := by
  have htotal := h.total p amt
  rw [← telPier_slotsOf s p 1 amt none] at htotal
  unfold State.book
  split
  · exact h
  · by_cases hwaste : wasteRefresh ≤ cls
    · simp only [if_pos hwaste]
      have hother := htotal.other p amt none hwaste
      rw [← telPier_slotsOf _ p cls amt none] at hother
      exact hother.class (by omega) (by omega)
    · simp only [if_neg hwaste]
      simp only [slotRetired, slotFront, slotBack] at hcls
      exact htotal.class (by omega) (by omega)

theorem Burst.cls_books (b : Burst) : b.cls = slotRetired ∨ b.cls = slotFront ∨ b.cls = slotBack ∨ wasteRefresh ≤ b.cls := by
  cases b <;> decide

theorem State.SlotsAhead.access {n d : Nat} {s : State} (h : s.SlotsAhead n d) (m : Ma) (hint : Nat) (f : Option Flt) :
    (s.access m hint f).SlotsAhead n d := by
  refine (h.other m.hpier 1 f ?_).of_telCnt rfl
  repeat' split
  all_goals decide

theorem State.SlotsAhead.burstSlot {n d : Nat} {s : State} (h : s.SlotsAhead n d) (m : Ma) (b : Burst) :
    (s.burstSlot m b).SlotsAhead n d := by
  unfold State.burstSlot
  dsimp only
  refine State.SlotsAhead.setPier (State.SlotsAhead.book (State.SlotsAhead.book ?_ m.hpier _ (by decide)) m.hpier 1 b.cls_books) _ _
  split
  · exact h.of_telCnt rfl
  · exact h

theorem State.SlotsAhead.bus {n d : Nat} {s : State} (h : s.SlotsAhead n d) (m : Ma) (b : Burst) (hint : Nat) (f : Option Flt) :
    (s.bus m b hint f).SlotsAhead n d := by
  refine (State.SlotsAhead.other (h.access m hint f) m.hpier 1 f ?_).burstSlot m b
  cases b <;> decide

/-- Every row of R343 that takes a slot books it. -/
theorem State.SlotsAhead.passSub {n d : Nat} {s : State} (h : s.SlotsAhead n d) (p sub slots : Nat) (waits : Bool) :
    (s.passSub p sub slots waits).SlotsAhead n d := by
  unfold State.passSub
  dsimp only
  split
  · exact (h.setPier p _).book p _ (by decide)
  · split
    · exact (h.setPier p _).book p _ (by decide)
    · refine State.SlotsAhead.book (State.SlotsAhead.book (State.SlotsAhead.book (h.setPier p _) p _ (by decide)) p _ (by decide)) p _ ?_
      cases waits <;> decide

theorem State.SlotsAhead.passSlots {n d : Nat} {s : State} (h : s.SlotsAhead n d) (p ns : Nat) (waits : Nat → Bool) :
    (s.passSlots p ns waits).SlotsAhead n d := by
  unfold State.passSlots
  split
  · exact h
  · exact ((h.setPier p _).passSub p 0 _ _).passSub p 1 _ _

/-- Settles O57: every way to book slots raises SLOT_TOTAL with exactly one of the four class counters. -/
theorem ledgerBalances : Obligations.LedgerBalances := by
  unfold Obligations.LedgerBalances
  intro n s bal h
  have hbal : ∀ u : State, u.SlotsAhead n.val 0 ↔ bal u := fun u => Iff.rfl
  rw [← hbal] at h
  refine ⟨fun p cls amt hcls => (hbal _).mp (h.book p amt hcls), fun m b hint f => (hbal _).mp (h.bus m b hint f),
    fun p ns waits => (hbal _).mp (h.passSlots p ns waits)⟩

end Sys2Proof.Machine

/-! The state before VDD_AON comes up, and telemetry's commands (R337 to R355): the settling of O46, O47 and O36. -/

namespace Sys2Proof.Machine

/-! ### Reset -/

/-- A field nothing has written reads its reset value. -/
theorem reset_fld (pg : Nat) (f : Fld) : State.reset.fld pg f = f.rst := rfl

theorem reset_telValue (i : Nat) : State.reset.telValue i = 0 := rfl

/-- A hub counter selects no event and filters nothing out at reset (R354). -/
theorem reset_telSelect {i : Nat} (hi : i < 128) : State.reset.telSelect i = telSelReset := by
  rw [State.telSelect, fixedCode, if_pos hi]
  rfl

theorem reset_sound : State.reset.Sound := by
  unfold State.Sound
  decide

/-- Settles O46: reset stores no register, so each field reads its reset value. -/
theorem resetState : Obligations.ResetState := by
  unfold Obligations.ResetState
  refine ⟨reset_sound, rfl, rfl, rfl, rfl, rfl, rfl, rfl, rfl, fun n => ⟨rfl, rfl, rfl⟩, fun l => ⟨rfl, rfl⟩,
    fun k => ⟨rfl, rfl⟩, fun i => ?_⟩
  rw [reset_telSelect i.isLt]
  exact ⟨by decide, by decide, reset_telValue _⟩

/-! ### Counters and select registers -/

section
variable (i : Fin 1024) (v : BitVec 64) (s : State)

theorem exec_telSelWrite_eq : exec (.telSelWrite i v) s = execTelSelWrite i v s := rfl
theorem exec_telCntWrite_eq : exec (.telCntWrite i v) s = execTelCntWrite i v s := rfl

variable {i v s}

theorem exec_telSelWrite_of_open (hopen : s.pageShut (telPage i.val) = false) :
    exec (.telSelWrite i v) s = .next (s.writeTelSel i.val v.toNat) := by
  rw [exec_telSelWrite_eq, execTelSelWrite, State.atPage_of_open _ hopen]

theorem exec_telCntWrite_of_open (hopen : s.pageShut (telPage i.val) = false) :
    exec (.telCntWrite i v) s = .next (s.writeTelCnt i.val v.toNat) := by
  rw [exec_telCntWrite_eq, execTelCntWrite, State.atPage_of_open _ hopen]
end

/-- What a programmable counter's select register keeps of a value: not bit 15, nor the bits above 48. -/
theorem writeTelSel_telSelect_same {i : Nat} (s : State) (v : Nat) (hprog : fixedCode i = none) :
    (s.writeTelSel i v).telSelect i = bits v 0 15 + 2 ^ 16 * bits v 16 33 := by
  rw [State.telSelect, hprog, State.writeTelSel, hprog]
  exact SMap.getD_put_same ..

theorem writeTelSel_telSelect_other {i j : Nat} (s : State) (v : Nat) (hj : j ≠ i) :
    (s.writeTelSel i v).telSelect j = s.telSelect j := by
  have hread : SMap.getD (s.writeTelSel i v).telSel j telSelReset = SMap.getD s.telSel j telSelReset :=
    SMap.getD_put_other _ _ _ hj
  rw [State.telSelect, hread, State.telSelect]

/-- Settles O47: the write puts the select value and marks the next record, and nothing else. -/
theorem selectKeepsCounter : Obligations.SelectKeepsCounter := by
  unfold Obligations.SelectKeepsCounter
  intro i v s hopen hprog
  exact ⟨_, exec_telSelWrite_of_open hopen, writeTelSel_telSelect_same s _ hprog,
    fun j hj => writeTelSel_telSelect_other s _ hj, rfl, fun j => rfl⟩

/-! ### Lap dumps -/

section
variable (s : State)

theorem exec_lapDumpStart_eq (v : BitVec 32) : exec (.lapDumpStart v) s = execLapDumpStart v s := rfl
theorem exec_lapDumpStop_eq : exec .lapDumpStop s = execLapDumpStop s := rfl
theorem exec_lapSnapshot_eq : exec .lapSnapshot s = execLapSnapshot s := rfl
theorem exec_lapRecordDone_eq : exec .lapRecordDone s = execLapRecordDone s := rfl

variable {s}

/-- A snapshot whose time has come, with a telemetry VI to write to: it ends Idle and sets the time of the next (R344, R350). -/
theorem execLapSnapshot_eq_of_due (hrun : s.flag pgTel Reg.TEL_LAP_STAT_RUNNING = true) (hawake : s.awake = true)
    (hdue : s.lap.next ≤ s.time) (hvi : s.telVi.isNone = false) :
    execLapSnapshot s =
      (let s := s.leaveIdle
       let s := { s with lap := { s.lap with next := s.lapNext } }
       if s.lap.writing then
         let n := s.fld pgTel Reg.TEL_LAP_STAT_SKIPPED
         let s := s.put pgTel Reg.TEL_LAP_STAT_SKIPPED (min 0xFFFF (n + 1))
         .next (({ s with lap := { s.lap with skipped := s.lap.skipped + 1, gap := true } } : State).raise 56 0xA00 INFO none 0 0)
       else
         let l := s.lap
         .next { s with lap := { l with lap := l.lap + 1, writing := true, vals := s.dumped, flags := s.lapFlags, skip := l.skipped,
                                        prevTime := l.time, time := s.time, skipped := 0, reconfig := false, gap := false } }) := by
  rw [execLapSnapshot, hrun, hawake, hvi, decide_eq_false (by omega)]
  rfl
end

/-- Settles O36: the counters' writes and the dump unit's commands, each by its definition where its guards hold. -/
theorem telemetryComplete : Obligations.TelemetryComplete := by
  unfold Obligations.TelemetryComplete
  refine ⟨?lapDumpStart, ?lapDumpStop, ?lapSnapshot, ?lapSnapshot_skipped, ?lapRecordDone, ?telFreeze, ?telClear, ?telCntWrite,
    ?telSelWrite⟩
  case lapDumpStart =>
    intro v s s1 s2 hinterval
    rw [exec_lapDumpStart_eq, execLapDumpStart, State.writeLapCtl, if_neg hinterval]
  case lapDumpStop =>
    intro s s1
    rw [exec_lapDumpStop_eq, execLapDumpStop, State.writeLapCtl, if_pos (by decide)]
    rfl
  case lapSnapshot =>
    intro s s0 hrun hawake hdue hvi hwriting
    rw [exec_lapSnapshot_eq, execLapSnapshot_eq_of_due hrun hawake hdue hvi]
    exact if_neg (by rw [hwriting]; decide)
  case lapSnapshot_skipped =>
    intro s s0 s1 hrun hawake hdue hvi hwriting
    rw [exec_lapSnapshot_eq, execLapSnapshot_eq_of_due hrun hawake hdue hvi]
    exact if_pos hwriting
  case lapRecordDone =>
    intro s hready hawake
    rw [exec_lapRecordDone_eq, execLapRecordDone, hready, hawake]
    rfl
  case telFreeze =>
    intro on s
    rfl
  case telClear =>
    intro s
    rfl
  case telCntWrite =>
    intro i v s hopen hv
    rw [exec_telCntWrite_of_open hopen, State.writeTelCnt, if_neg hv, Nat.mod_eq_of_lt v.isLt]
    rfl
  case telSelWrite =>
    intro i v s w hopen
    rw [exec_telSelWrite_of_open hopen, State.writeTelSel]
    cases hcode : fixedCode i.val with
    | none => simp only [w, hcode, Option.isSome_none, Bool.false_eq_true, if_false, State.reconfigured]
    | some c => simp only [w, hcode, Option.isSome_some, if_true, State.reconfigured]

end Sys2Proof.Machine

/-! The Pacer's levels, reports, hotspots and register writes (R265 to R277): the settling of O6. -/

namespace Sys2Proof.Machine

/-! ### Two fields of one page -/

/-- Fields of one page at other places have other keys. -/
theorem regKey_ne_of_place (pg : Nat) {f g : Fld} (hplace : 64 * g.off + g.lo ≠ 64 * f.off + f.lo) : regKey pg g ≠ regKey pg f := by
  simp only [regKey]
  omega

/-- A flag reads as before after a write of a field at another place of its page. -/
theorem flag_put_of_place (s : State) (pg v : Nat) {f g : Fld} (hplace : 64 * g.off + g.lo ≠ 64 * f.off + f.lo) :
    (s.put pg f v).flag pg g = s.flag pg g := by
  rw [State.flag, State.fld_put_other _ _ (regKey_ne_of_place pg hplace), State.flag]

section
variable (p : Fin 8) (n : Fin 16) (level : Fin 4) (v : BitVec 32) (s : State)

theorem exec_urgLevelChange_eq : exec (.urgLevelChange p level) s = execUrgLevelChange p level s := rfl
theorem exec_urgOverstay_eq : exec (.urgOverstay p) s = execUrgOverstay p s := rfl
theorem exec_urgOverstayEnd_eq : exec (.urgOverstayEnd p) s = execUrgOverstayEnd p s := rfl
theorem exec_pacerHotspot_eq : exec (.pacerHotspot n) s = execPacerHotspot n s := rfl
theorem exec_pacerPortGuarWrite_eq : exec (.pacerPortGuarWrite p v) s = execPacerPortGuarWrite p v s := rfl
end

/-! ### The level (R275, R276) -/

/-- The pins' new level leaves the link's widths and the enable of L0p as they were. -/
theorem urgPins_link (s : State) (k level : Nat) :
    let s1 := (s.put (pgPort k) Reg.PORT_PINS_URG level).urgUpdate k
    (s1.prt k).l0p = (s.prt k).l0p ∧ (s1.prt k).trWidth = (s.prt k).trWidth ∧
      s1.flag (pgPort k) Reg.PORT_LINK_CTL_L0P_EN = s.flag (pgPort k) Reg.PORT_LINK_CTL_L0P_EN :=
  ⟨urgUpdate_l0p .., urgUpdate_trWidth .., (urgUpdate_flag ..).trans (flag_put_of_place _ _ _ (by decide))⟩

/-- A level of 1 or more asks a narrowed link with L0p enabled for its trained width. -/
theorem execUrgLevelChange_eq_of_widen {p : Fin 8} {level : Fin 4} {s s1 : State}
    (hs1 : s1 = (s.put (pgPort p.val) Reg.PORT_PINS_URG level.val).urgUpdate p.val) (hlevel : 1 ≤ (s1.prt p.val).urgLevel)
    (hnarrow : (s.prt p.val).l0p < (s.prt p.val).trWidth) (hl0p : s.flag (pgPort p.val) Reg.PORT_LINK_CTL_L0P_EN = true) :
    execUrgLevelChange p level s = .next (s1.emit (.widthAsk p.val (s.prt p.val).trWidth)) := by
  obtain ⟨hnow, hwidth, hflag⟩ := urgPins_link s p.val level.val
  rw [← hs1] at hnow hwidth hflag
  rw [execUrgLevelChange, ← hs1]
  rw [hnow, hwidth, hflag, hl0p, if_pos (by simp [hlevel, hnarrow])]

/-- A link at its trained width is not asked to widen. -/
theorem execUrgLevelChange_eq_of_wide {p : Fin 8} {s : State} (level : Fin 4) (hwide : (s.prt p.val).trWidth ≤ (s.prt p.val).l0p) :
    execUrgLevelChange p level s = .next ((s.put (pgPort p.val) Reg.PORT_PINS_URG level.val).urgUpdate p.val) := by
  obtain ⟨hnow, hwidth, -⟩ := urgPins_link s p.val level.val
  rw [execUrgLevelChange, hnow, hwidth, if_neg (by simp only [Bool.and_eq_true, decide_eq_true_eq]; omega)]

/-- Nor is a link whose level in effect is 0. -/
theorem execUrgLevelChange_eq_of_level_zero {p : Fin 8} {level : Fin 4} {s s1 : State}
    (hs1 : s1 = (s.put (pgPort p.val) Reg.PORT_PINS_URG level.val).urgUpdate p.val) (hlevel : (s1.prt p.val).urgLevel = 0) :
    execUrgLevelChange p level s = .next s1 := by
  rw [execUrgLevelChange, ← hs1]
  rw [hlevel, if_neg (by simp)]

/-! ### A port's guarantee (R270) -/

/-- A write that clears neither OVERSTAY nor REFUSED is the check of its guarantee. -/
theorem writePortGuar_eq_of_check (s : State) {k v : Nat} (hoverstay : v.testBit 18 = false) (hrefused : v.testBit 19 = false) :
    s.writePortGuar k v =
      if s.fitsDevice (s.admitted - s.portGuar k + bits v 0 10) &&
          s.fitsPort (s.trainedBw k) (s.portCharge k - s.portGuar k + bits v 0 10) then
        (s.put pgPacer (Reg.PACER_PORT_GUAR_Q k) (bits v 0 10)).pacerUpdate
      else s.put pgPacer (Reg.PACER_PORT_REFUSED k) 1 := by
  rw [State.writePortGuar, hoverstay, hrefused]
  rfl

/-- Settles O6: each command by the branch of its definition that the clause names. -/
theorem pacerComplete : Obligations.PacerComplete := by
  unfold Obligations.PacerComplete
  refine ⟨?urgLevelChange, ?urgLevelChange_none, ?urgLevelChange_widen, ?urgOverstay, ?urgOverstayEnd, ?deliverableReport,
    ?pacerHotspot, ?hotClear, ?pacerPortGuarWrite, ?pacerPortGuarWrite_refused, ?pacerCtlWrite⟩
  case urgLevelChange =>
    intro p level s hwide
    rw [exec_urgLevelChange_eq, execUrgLevelChange_eq_of_wide level hwide]
  case urgLevelChange_none =>
    intro p level s s1 hlevel
    rw [exec_urgLevelChange_eq, execUrgLevelChange_eq_of_level_zero rfl hlevel]
  case urgLevelChange_widen =>
    intro p level s s1 hlevel hnarrow hl0p
    rw [exec_urgLevelChange_eq, execUrgLevelChange_eq_of_widen rfl hlevel hnarrow hl0p]
  case urgOverstay =>
    intro p t0 s hat hlong
    simp only [exec_urgOverstay_eq, execUrgOverstay, hat, if_pos hlong]
  case urgOverstayEnd =>
    intro p t0 s hdemote hdue
    rw [exec_urgOverstayEnd_eq, execUrgOverstayEnd, hdemote]
    exact congrArg _ (if_pos hdue)
  case deliverableReport =>
    intro n s s1
    rfl
  case pacerHotspot =>
    intro n s hcold
    rw [exec_pacerHotspot_eq, execPacerHotspot, hcold, if_neg (by decide)]
  case hotClear =>
    intro n s
    rfl
  case pacerPortGuarWrite =>
    intro p v s hoverstay hrefused hdevice hport
    rw [exec_pacerPortGuarWrite_eq, execPacerPortGuarWrite, writePortGuar_eq_of_check s hoverstay hrefused, hdevice, hport]
    rfl
  case pacerPortGuarWrite_refused =>
    intro p v s hoverstay hrefused hunfit
    rw [exec_pacerPortGuarWrite_eq, execPacerPortGuarWrite, writePortGuar_eq_of_check s hoverstay hrefused, hunfit]
    rfl
  case pacerCtlWrite =>
    intro v s
    rfl

end Sys2Proof.Machine

/-! The Viaducts' traffic and retrains (R278 to R300): the settling of O24 and O25. -/

namespace Sys2Proof.Machine

section
variable (l : Fin 20) (toDie : Bool) (s : State)

theorem exec_flitReceive_eq (flit : BitVec 640) : exec (.flitReceive l toDie flit) s = execFlitReceive l toDie flit s := rfl
theorem exec_replayReq_eq (ack : BitVec 12) : exec (.replayReq l toDie ack) s = execReplayReq l toDie ack s := rfl
theorem exec_replayTimeout_eq : exec (.replayTimeout l toDie) s = execReplayTimeout l toDie s := rfl
theorem exec_discardRepeat_eq : exec (.discardRepeat l toDie) s = execDiscardRepeat l toDie s := rfl
theorem exec_viaductInit_eq : exec (.viaductInit l) s = execViaductInit l s := rfl
theorem exec_pauseReq_eq : exec (.pauseReq l toDie) s = execPauseReq l toDie s := rfl
theorem exec_pauseAck_eq : exec (.pauseAck l toDie) s = execPauseAck l toDie s := rfl
theorem exec_trainDone_eq : exec (.trainDone l) s = execTrainDone l s := rfl
theorem exec_retrainAttemptDone_eq (tx rx : BitVec 64) :
    exec (.retrainAttemptDone l tx rx) s = execRetrainAttemptDone l tx rx s := rfl
theorem exec_vdtRetry_eq : exec (.vdtRetry l) s = execVdtRetry l s := rfl
theorem exec_vdtGraceRetry_eq (tx rx : BitVec 64) : exec (.vdtGraceRetry l tx rx) s = execVdtGraceRetry l tx rx s := rfl
theorem exec_vdtGraceEnd_eq : exec (.vdtGraceEnd l) s = execVdtGraceEnd l s := rfl
theorem exec_narrowThrottle_eq : exec (.narrowThrottle l) s = execNarrowThrottle l s := rfl
end

theorem isDv_eq_true_iff {l : Nat} : isDv l = true ↔ l < 16 := decide_eq_true_iff

/-! ### Receipt and replay (R288 to R290) -/

section
variable {l : Nat} {toDie : Bool} {f : BitVec 640} {s : State}

/-- A direction that sends takes the header of a whole flit, and a HDR flit goes on to be judged by its number. -/
theorem flitIn_eq_of_hdr (hst : ((s.link l).dir toDie).st = 1) (hok : flitOk f = true) (htype : flitType f = 1) :
    s.flitIn l toDie f = (s.takeHeader l toDie f).sequenced l toDie f := by
  simp only [State.flitIn, hst, hok, htype, Nat.reduceLeDiff, Bool.not_true, Bool.false_eq_true, Nat.reduceEqDiff, if_false]

/-- A flit whose CRC differs is counted, and its replay asked for. -/
theorem flitIn_eq_of_crc (hst : ((s.link l).dir toDie).st = 1) (hbad : flitOk f = false) :
    s.flitIn l toDie f = (s.bump (pgVdt l) Reg.VDT_CRC_ERR_CNT_COUNT Reg.VDT_CRC_ERR_CNT_SAT 1).askReplay l toDie := by
  simp only [State.flitIn, hst, hbad, Nat.reduceLeDiff, if_false, Bool.not_false, if_true, true_or]

/-- A HDR flit of number E advances E, and its slots are taken. -/
theorem sequenced_eq_of_expected (htype : flitType f = 1) (hseq : flitSeq f = ((s.link l).dir toDie).exp) :
    s.sequenced l toDie f =
      (s.putDir l toDie { ((s.link l).dir toDie) with exp := (((s.link l).dir toDie).exp + 1) % 4096, ackV := true,
                                                      discard := false }).takeHdr l toDie f := by
  simp only [State.sequenced, if_pos hseq, htype]

/-- The first trigger of a direction that sends is counted, and everything unacknowledged is sent again. -/
theorem trigger_eq_of_normal {d : Dir} (hd : (s.link l).dir toDie = d) (hst : d.st = 1) :
    s.trigger l toDie = (((s.bump (pgVdt l) Reg.VDT_REPLAY_CNT_COUNT Reg.VDT_REPLAY_CNT_SAT 1).putDir l toDie
      { d with st := 2, replays := 1 }).retransmit l toDie) := by
  simp only [State.trigger, hd, hst, bne_self_eq_false, Bool.false_and, Bool.false_eq_true, if_false, if_true, Nat.reduceEqDiff,
    false_and]

/-- A direction that does not yet discard asks for the flits after its last one. -/
theorem askReplay_eq_of_not_discarding {d : Dir} (hd : (s.link l).dir toDie = d) (hdisc : d.discard = false) :
    s.askReplay l toDie =
      (s.putDir l toDie { d with discard := true, discAt := s.time }).sendCtl l (!toDie) 4 ((d.exp + 4095) % 4096) := by
  simp only [State.askReplay, hd, hdisc, Bool.false_eq_true, if_false]

/-- A link that sends and is asked to pause stops both directions and answers (R292). -/
theorem pauseIn_eq_of_live {toDie : Bool} (hst : (s.link l).tx.st = 1) :
    s.pauseIn l toDie =
      (s.putLink l { (s.link l) with
        tx := { (s.link l).tx with st := 3 }, rx := { (s.link l).rx with st := 3 }, attempts := 0, paused := true, retry := false,
        trained := false, speedNow := s.fld (pgVdt l) Reg.VDT_STAT_SPEED }).sendCtl l (!toDie) 5 2 := by
  simp only [State.pauseIn, hst, beq_self_eq_true, Bool.true_or, if_true]
end

/-- The oldest flit has waited 1 µs for its ACK (R289). -/
theorem execReplayTimeout_eq_of_due {l : Fin 20} {toDie : Bool} {s : State} (hbuf : ((s.link l.val).dir toDie).replayBuf ≠ [])
    (hdue : ((s.link l.val).dir toDie).oldestAt + 1000 ≤ s.time) :
    execReplayTimeout l toDie s = .next (s.trigger l.val toDie) := by
  rw [execReplayTimeout, if_pos (by simp [hbuf, hdue])]

/-- A receiver that discards has waited 1 µs for its replay (R288). -/
theorem execDiscardRepeat_eq_of_due {l : Fin 20} {toDie : Bool} {s : State} (hdisc : ((s.link l.val).dir toDie).discard = true)
    (hst : ((s.link l.val).dir toDie).st = 1) (hdue : ((s.link l.val).dir toDie).discAt + 1000 ≤ s.time) :
    execDiscardRepeat l toDie s =
      .next ((s.putDir l.val toDie { ((s.link l.val).dir toDie) with discard := false }).askReplay l.val toDie) := by
  rw [execDiscardRepeat, if_pos (by simp [hdisc, hst, hdue])]

/-- TRAIN_DONE after an attempt that found a width: both directions send again (R290, R292). -/
theorem trainOver_eq_of_trained {l : Nat} {s : State} (htrained : (s.link l).trained = true) :
    let k := s.link l
    let s1 := (s.putLink l { k with tx := { k.tx with st := 1, replays := 0 }, rx := { k.rx with st := 1, replays := 0 },
                                    trained := false, retry := false, paused := false, attempts := 0 }).fallback l
    let s2 := ((s1.sendCtl l true 5 3).retransmit l true).retransmit l false
    s.trainOver l = if l < 16 then s2.fallbackNext (l / 4) else s2 := by
  rw [State.trainOver, if_neg (by simp [htrained])]
  exact if_congr isDv_eq_true_iff rfl rfl

/-- Settles O24: each command by the case of receipt, trigger, pause or training that its clause names. -/
theorem viaductTrafficComplete : Obligations.ViaductTrafficComplete := by
  unfold Obligations.ViaductTrafficComplete
  refine ⟨?flitReceive, ?flitReceive_crc, ?replayReq, ?replayTimeout, ?discardRepeat, ?viaductInit, ?pauseReq, ?pauseAck,
    ?trainDone⟩
  case flitReceive =>
    intro l toDie flit s s1 d hst hok htype hseq
    rw [exec_flitReceive_eq, execFlitReceive, flitIn_eq_of_hdr hst hok htype, sequenced_eq_of_expected htype hseq]
  case flitReceive_crc =>
    intro l toDie flit s hst hbad
    rw [exec_flitReceive_eq, execFlitReceive, flitIn_eq_of_crc hst hbad]
  case replayReq =>
    intro l toDie ack s d s1 hst
    rw [exec_replayReq_eq, execReplayReq, State.replayReq, trigger_eq_of_normal (link_putDir ..) hst]
  case replayTimeout =>
    intro l toDie s d hbuf hdue hst
    rw [exec_replayTimeout_eq, execReplayTimeout_eq_of_due hbuf hdue, trigger_eq_of_normal rfl hst]
  case discardRepeat =>
    intro l toDie s d hdisc hst hdue
    rw [exec_discardRepeat_eq, execDiscardRepeat_eq_of_due hdisc hst hdue,
      askReplay_eq_of_not_discarding (link_putDir ..) rfl]
    rfl
  case viaductInit =>
    intro l s hrails htx hrx
    rw [exec_viaductInit_eq, execViaductInit, hrails, htx, hrx]
    rfl
  case pauseReq =>
    intro l toDie s k hst
    rw [exec_pauseReq_eq, execPauseReq, pauseIn_eq_of_live hst]
  case pauseAck =>
    intro l toDie s hst
    rw [exec_pauseAck_eq, execPauseAck, State.pauseAcked, if_pos hst]
  case trainDone =>
    intro l s k s1 htrained
    rw [exec_trainDone_eq, execTrainDone, trainOver_eq_of_trained htrained]

/-! ### Retrains and the grace period (R292 to R297) -/

/-- An attempt ends in a retrain that none has ended yet. -/
theorem execRetrainAttemptDone_eq_of_retrain {l : Fin 20} {s : State} (tx rx : BitVec 64) (hst : (s.link l.val).tx.st = 3)
    (htrained : (s.link l.val).trained = false) :
    execRetrainAttemptDone l tx rx s = .next (s.attemptDone l.val tx.toNat rx.toNat) := by
  rw [execRetrainAttemptDone, hst, htrained]
  rfl

section
variable {l : Nat} {tx rx : Nat} {s : State}

theorem attemptDone_eq_of_width {a b : Nat} (hretry : (s.link l).retry = false) (hresult : attemptResult l tx rx = some (a, b)) :
    let s1 := (s.noteAttempt l tx rx).takeWidth l a b (s.link l).speedNow
    s.attemptDone l tx rx = (s1.putLink l { (s1.link l) with trained := true }).noteRetrain l := by
  simp only [State.attemptDone, hretry, Bool.false_eq_true, if_false, hresult]

/-- The third attempt that finds no width loses the link. -/
theorem attemptDone_eq_of_lost (hretry : (s.link l).retry = false) (hlast : (s.link l).attempts = 2)
    (hresult : attemptResult l tx rx = none) :
    s.attemptDone l tx rx = ((s.noteAttempt l tx rx).noteRetrain l).linkLost l := by
  simp only [State.attemptDone, hretry, Bool.false_eq_true, if_false, hresult, hlast, Nat.reduceBEq, Bool.and_false, Nat.lt_irrefl]
end

/-- Settles O25: each command by the case of an attempt, a retry or the grace period that its clause names. -/
theorem viaductRetrainComplete : Obligations.ViaductRetrainComplete := by
  unfold Obligations.ViaductRetrainComplete
  refine ⟨?retrainAttemptDone, ?retrainAttemptDone_lost, ?vdtRetry, ?vdtGraceRetry, ?vdtGraceEnd, ?narrowThrottle⟩
  case retrainAttemptDone =>
    intro l tx rx a b s k s1 hst htrained hretry hresult
    rw [exec_retrainAttemptDone_eq, execRetrainAttemptDone_eq_of_retrain _ _ hst htrained,
      attemptDone_eq_of_width hretry hresult]
  case retrainAttemptDone_lost =>
    intro l tx rx s k hst htrained hretry hlast hresult
    rw [exec_retrainAttemptDone_eq, execRetrainAttemptDone_eq_of_retrain _ _ hst htrained,
      attemptDone_eq_of_lost hretry hlast hresult]
  case vdtRetry =>
    intro l s hdv htx hrx
    rw [exec_vdtRetry_eq, execVdtRetry, State.vdtRetry, isDv_eq_true_iff.mpr hdv, htx, hrx]
    rfl
  case vdtGraceRetry =>
    intro l tx rx a b s k s1 hst htrained hdue hresult
    have hgo : ((s.link l.val).tx.st != 4 || (s.link l.val).trained || decide (s.time < (s.link l.val).lastRetry + 10000)) = false := by
      rw [hst, htrained, decide_eq_false (Nat.not_lt.mpr hdue)]
      rfl
    simp only [exec_vdtGraceRetry_eq, execVdtGraceRetry, hgo, Bool.false_eq_true, if_false, hresult]
    rfl
  case vdtGraceEnd =>
    intro l e s hgrace hdue
    simp only [exec_vdtGraceEnd_eq, execVdtGraceEnd, hgrace, if_pos hdue]
  case narrowThrottle =>
    intro l s hon hdv
    rw [exec_narrowThrottle_eq, execNarrowThrottle, hon, isDv_eq_true_iff.mpr hdv]
    rfl

end Sys2Proof.Machine

/-! Jobs and the sequencing steps of a routine (R301 to R309): the settling of O26 and O27. -/

namespace Sys2Proof.Machine

section
variable (eng : Fin 64) (q : Fin 24) (ctx : Fin 512) (s : State)

theorem exec_jobPost_eq (desc : BitVec 512) : exec (.jobPost eng q desc) s = execJobPost eng q desc s := rfl
theorem exec_jobCompletion_eq : exec (.jobCompletion q ctx) s = execJobCompletion q ctx s := rfl
theorem exec_jobTimeout_eq (job : BitVec 16) : exec (.jobTimeout eng job) s = execJobTimeout eng job s := rfl
theorem exec_unitDone_eq (unit : Fin 16) : exec (.unitDone q ctx unit) s = execUnitDone q ctx unit s := rfl
theorem exec_illegalOpcode_eq : exec (.illegalOpcode q ctx) s = execIllegalOpcode q ctx s := rfl
theorem exec_nop_eq : exec (.nop q ctx) s = execNop q ctx s := rfl
theorem exec_wait_eq : exec (.wait q ctx) s = execWait q ctx s := rfl
theorem exec_br_eq : exec (.br q ctx) s = execBr q ctx s := rfl
theorem exec_jmp_eq : exec (.jmp q ctx) s = execJmp q ctx s := rfl
theorem exec_set_eq : exec (.set q ctx) s = execSet q ctx s := rfl
theorem exec_add_eq : exec (.add q ctx) s = execAdd q ctx s := rfl
theorem exec_loop_eq : exec (.loop q ctx) s = execLoop q ctx s := rfl
theorem exec_call_eq : exec (.call q ctx) s = execCall q ctx s := rfl
theorem exec_ret_eq : exec (.ret q ctx) s = execRet q ctx s := rfl
theorem exec_endStep_eq : exec (.endStep q ctx) s = execEndStep q ctx s := rfl
end

/-! ### Jobs (R305, R308, R309) -/

theorem execJobPost_eq_of_room {eng : Fin 64} {q : Fin 24} {s : State} (desc : BitVec 512)
    (hrun : (s.eng eng.val).running = true) (hroom : (s.sqr q.val).jobq.length < 64) :
    execJobPost eng q desc s =
      .next (State.startJobs 1 ((s.setEng eng.val { (s.eng eng.val) with jobs := (s.eng eng.val).jobs ++ [(jobId desc, s.time)] }).putSqr
        q.val { (s.sqr q.val) with jobq := (s.sqr q.val).jobq ++ [desc] }) q.val) := by
  simp only [execJobPost, hrun, Bool.not_true, Bool.false_eq_true, if_false, if_neg (Nat.not_le.mpr hroom)]

theorem execJobPost_eq_of_full {eng : Fin 64} {q : Fin 24} {s : State} (desc : BitVec 512)
    (hrun : (s.eng eng.val).running = true) (hfull : 64 ≤ (s.sqr q.val).jobq.length) :
    execJobPost eng q desc s = .next (s.emit (.jobMsg eng.val true)) := by
  simp only [execJobPost, hrun, Bool.not_true, Bool.false_eq_true, if_false, if_pos hfull]

/-- An ended job whose engine runs and waits for it: its message is the mailbox's newest, and doorbell bit 24 is set. -/
theorem execJobCompletion_eq_of_room {q : Fin 24} {ctx : Fin 512} {c : JobCtx} {st : Nat} {s : State}
    (hctx : SMap.get? (s.sqr q.val).ctxs ctx.val = some c) (hdone : c.done = some st)
    (hrun : (s.eng (jobEngine c.job)).running = true)
    (hwaits : (s.eng (jobEngine c.job)).jobs.any (fun x => x.1 == jobId c.job) = true)
    (hroom : (s.eng (jobEngine c.job)).mailbox.length < 32) :
    execJobCompletion q ctx s =
      .next (((State.ring (s.setEng (jobEngine c.job) { (s.eng (jobEngine c.job)) with
        mailbox := (s.eng (jobEngine c.job)).mailbox ++ [completion c st] }) (jobEngine c.job) 24).dropJob (jobEngine c.job)
          (jobId c.job)).endCtx q.val ctx.val c) := by
  simp only [execJobCompletion, hctx, hdone, hrun, hwaits, Bool.not_true, Bool.or_self, Bool.false_eq_true, if_false,
    State.toMailbox, if_neg (Nat.not_le.mpr hroom)]

theorem execJobTimeout_eq_of_due {eng : Fin 64} {job : BitVec 16} {x : Nat × Nat} {s : State}
    (hpost : (s.eng eng.val).jobs.find? (fun x => x.1 == job.toNat) = some x) (hdue : x.2 + 2000000 ≤ s.time) :
    execJobTimeout eng job s = .next (s.setEng eng.val { (s.eng eng.val) with jobs := (s.eng eng.val).jobs.erase x }) := by
  simp only [execJobTimeout, hpost, if_pos hdue, State.dropJob]

/-- Settles O26: each command by the branch of its definition that the clause names. -/
theorem jobsComplete : Obligations.JobsComplete := by
  unfold Obligations.JobsComplete
  refine ⟨?jobPost, ?jobPost_full, ?jobCompletion, ?jobTimeout, ?unitDone, ?illegalOpcode⟩
  case jobPost =>
    intro eng q desc s e hrun hroom
    rw [exec_jobPost_eq, execJobPost_eq_of_room desc hrun hroom]
  case jobPost_full =>
    intro eng q desc s hrun hfull
    rw [exec_jobPost_eq, execJobPost_eq_of_full desc hrun hfull]
  case jobCompletion =>
    intro q ctx c st s e s1 hctx hdone hrun hwaits hroom
    rw [exec_jobCompletion_eq, execJobCompletion_eq_of_room hctx hdone hrun hwaits hroom]
  case jobTimeout =>
    intro eng job x s hpost hdue
    rw [exec_jobTimeout_eq, execJobTimeout_eq_of_due hpost hdue]
  case unitDone =>
    intro q ctx unit c s hctx hlive hbusy
    simp only [exec_unitDone_eq, execUnitDone, hctx, hlive, hbusy, Bool.not_true, Bool.or_self, Bool.false_eq_true, if_false]
  case illegalOpcode =>
    intro q ctx pc s hfetch
    rw [exec_illegalOpcode_eq, execIllegalOpcode, State.runStep, hfetch]

/-! ### Steps (R302 to R304, R306) -/

/-- A fetched step of the opcode that a command names does what the command says. -/
theorem runStep_eq_of_op {s t : State} {q ctx op : Nat} {f : State → JobCtx → Nat → StepRes} {c : JobCtx} {w : Nat} (c' : JobCtx)
    (hfetch : s.fetchStep q ctx = .step c w) (hop : stepOp w = op) (hf : f s c w = .ok t c') :
    s.runStep q ctx (fun w => stepOp w == op) f = t.putCtx q ctx { c' with steps := c.steps + 1 } :=
  runStep_ok c' hfetch (beq_iff_eq.mpr hop) hf

/-- A jump below LENGTH goes on at its TARGET. -/
theorem goTo_eq_of_lt {s : State} {q t : Nat} (c : JobCtx) (htarget : t < s.seqLength q) :
    s.goTo q c t = .ok s { c with pc := t } := by
  rw [State.goTo, if_neg (Nat.not_le.mpr htarget)]

/-- Settles O27: the step fetched is the one wanted, and its effect is read off its opcode. -/
theorem stepsComplete : Obligations.StepsComplete := by
  unfold Obligations.StepsComplete
  refine ⟨?nop, ?wait, ?wait_stalls, ?br_taken, ?br, ?jmp, ?set, ?add, ?loop, ?loop_ends, ?call, ?ret, ?endStep⟩
  case nop =>
    intro q ctx c w s hfetch hop
    rw [exec_nop_eq, execNop, runStep_eq_of_op _ hfetch hop rfl]
  case wait =>
    intro q ctx c w s hfetch hop hdone
    rw [exec_wait_eq, execWait, runStep_eq_of_op _ hfetch hop (by rw [if_pos hdone])]
  case wait_stalls =>
    intro q ctx c w s hfetch hop hbusy
    rw [exec_wait_eq, execWait, runStep_eq_of_op _ hfetch hop (by rw [hbusy, if_neg Bool.false_ne_true])]
  case br_taken =>
    intro q ctx c w s hfetch hop htest htarget
    rw [exec_br_eq, execBr, runStep_eq_of_op _ hfetch hop
      ((if_pos (beq_iff_eq.mpr htest)).trans (goTo_eq_of_lt c htarget))]
  case br =>
    intro q ctx c w s hfetch hop htest
    rw [exec_br_eq, execBr, runStep_eq_of_op _ hfetch hop (if_neg (mt beq_iff_eq.mp htest))]
  case jmp =>
    intro q ctx c w s hfetch hop htarget
    rw [exec_jmp_eq, execJmp, runStep_eq_of_op _ hfetch hop (goTo_eq_of_lt c htarget)]
  case set =>
    intro q ctx c w s hfetch hop
    rw [exec_set_eq, execSet, runStep_eq_of_op _ hfetch hop rfl]
  case add =>
    intro q ctx c w s v hfetch hop
    rw [exec_add_eq, execAdd, runStep_eq_of_op _ hfetch hop rfl]
  case loop =>
    intro q ctx c w s v c1 hfetch hop hmore htarget
    rw [exec_loop_eq, execLoop, runStep_eq_of_op _ hfetch hop
      ((if_pos (bne_iff_ne.mpr hmore)).trans (goTo_eq_of_lt c1 htarget))]
  case loop_ends =>
    intro q ctx c w s v c1 hfetch hop hend
    rw [exec_loop_eq, execLoop, runStep_eq_of_op _ hfetch hop (if_neg (fun h => bne_iff_ne.mp h hend))]
  case call =>
    intro q ctx c w s hfetch hop hdepth htarget
    rw [exec_call_eq, execCall, runStep_eq_of_op _ hfetch hop
      ((if_neg (Nat.not_le.mpr hdepth)).trans (goTo_eq_of_lt _ htarget))]
  case ret =>
    intro q ctx c w p r s hfetch hop hstack
    rw [exec_ret_eq, execRet, runStep_eq_of_op _ hfetch hop (by simp only [hstack]; rfl)]
  case endStep =>
    intro q ctx c w s hfetch hop
    rw [exec_endStep_eq, execEndStep, runStep_eq_of_op _ hfetch hop rfl]

end Sys2Proof.Machine

/-! The management engines and the Keystone (R310 to R319): the settling of O31 and O32. -/

namespace Sys2Proof.Machine

section
variable (eng dst : Fin 64) (s : State)

theorem exec_mailboxSend_eq (msg : BitVec 512) : exec (.mailboxSend eng dst msg) s = execMailboxSend eng dst msg s := rfl
theorem exec_interrupt_eq (mask : BitVec 64) : exec (.interrupt eng mask) s = execInterrupt eng mask s := rfl
theorem exec_keystoneProbe_eq (answered : BitVec 64) : exec (.keystoneProbe answered) s = execKeystoneProbe answered s := rfl
theorem exec_engineReloadDone_eq : exec (.engineReloadDone eng) s = execEngineReloadDone eng s := rfl
theorem exec_engineHalt_eq (v : BitVec 32) : exec (.engineHalt v) s = execEngineHalt v s := rfl
theorem exec_engRestart_eq : exec .engRestart s = execEngRestart s := rfl
theorem exec_hubLapBeat_eq : exec (.hubLapBeat eng) s = execHubLapBeat eng s := rfl
theorem exec_lapWindowEnd_eq : exec .lapWindowEnd s = execLapWindowEnd s := rfl
theorem exec_lockstepMismatch_eq : exec .lockstepMismatch s = execLockstepMismatch s := rfl
theorem exec_bridgeTimeout_eq : exec .bridgeTimeout s = execBridgeTimeout s := rfl
theorem exec_restart_eq (mask : BitVec 4) (sigOk : Bool) : exec (.restart mask sigOk) s = execRestart mask sigOk s := rfl
theorem exec_restartBeatTimeout_eq : exec .restartBeatTimeout s = execRestartBeatTimeout s := rfl
end

/-! ### Engines (R312, R313, R315, R336) -/

/-- The probe round of a Keystone that runs, 10 ms after the last one (R315). -/
theorem execKeystoneProbe_eq_of_due {s : State} (answered : BitVec 64) (hrun : s.keystoneRuns = true)
    (hdue : s.key.probeAt + 10000000 ≤ s.time) :
    execKeystoneProbe answered s =
      .next ((pick 64 (fun e => (s.eng e).running)).foldl (fun (s : State) (e : Nat) =>
        if answered.toNat.testBit e then s.setEng e { (s.eng e) with misses := 0 }
        else if (s.eng e).misses < 2 then s.setEng e { (s.eng e) with misses := (s.eng e).misses + 1 }
        else s.restartEng e) ({ s with key := { s.key with probeAt := s.time } } : State)) := by
  rw [execKeystoneProbe, hrun, decide_eq_false (Nat.not_lt.mpr hdue)]
  rfl

/-- An engine whose firmware is there runs, and takes its own role back where another holds it (R315). -/
theorem execEngineReloadDone_eq_of_loading {eng : Fin 64} {s : State} (hload : (s.eng eng.val).loading = true)
    (hon : s.engOn = true) (hclock : s.gateShut (73 + eng.val) = false) :
    let s1 := s.setEng eng.val { (s.eng eng.val) with running := true, loading := false, misses := 0 }
    execEngineReloadDone eng s = .next (if s.role eng.val = eng.val then s1 else s1.giveRole eng.val eng.val) := by
  rw [execEngineReloadDone, if_neg (by simp [hload, hon, hclock])]
  rfl

/-- Settles O31: each command by the branch of its definition that the clause names. -/
theorem enginesComplete : Obligations.EnginesComplete := by
  unfold Obligations.EnginesComplete
  refine ⟨?mailboxSend, ?interrupt, ?keystoneProbe, ?engineReloadDone, ?engineReloadDone_role, ?engineHalt, ?engRestart⟩
  case mailboxSend =>
    intro eng dst msg s hrun hroom
    simp only [exec_mailboxSend_eq, execMailboxSend, hrun, Bool.not_true, Bool.false_eq_true, if_false, State.toMailbox,
      if_neg (Nat.not_le.mpr hroom)]
  case interrupt =>
    intro eng mask s hrun
    rw [exec_interrupt_eq, execInterrupt, hrun]
    rfl
  case keystoneProbe =>
    intro answered s hrun hdue
    rw [exec_keystoneProbe_eq, execKeystoneProbe_eq_of_due answered hrun hdue]
  case engineReloadDone =>
    intro eng s hload hon hclock hrole
    rw [exec_engineReloadDone_eq, execEngineReloadDone_eq_of_loading hload hon hclock, if_pos hrole]
  case engineReloadDone_role =>
    intro eng s hload hon hclock hrole
    rw [exec_engineReloadDone_eq, execEngineReloadDone_eq_of_loading hload hon hclock, if_neg hrole]
  case engineHalt =>
    intro v s e hhalt
    rw [exec_engineHalt_eq, execEngineHalt, State.writeEngCtl, hhalt]
    rfl
  case engRestart =>
    intro s e hfenced hon
    rw [exec_engRestart_eq, execEngRestart, State.engReload, if_neg (by simp [e, hon] at hfenced ⊢; exact hfenced)]

/-! ### The last-lap timer and coast (R317 to R319) -/

theorem coast_put_missed (s : State) (v : Nat) : (s.put pgHub Reg.HUB_LAP_STAT_MISSED v).coast = s.coast :=
  flag_put_of_place s pgHub v (by decide)

/-- A beat of the running baton pair outside coast starts the windows again. -/
theorem lapBeat_eq_of_pair {s : State} {eng : Nat} (hready : s.ready = true) (hawake : s.awake = true)
    (hpair : eng = 16 * s.baton ∨ eng = 16 * s.baton + 1) (hrun : s.pairRuns s.baton = true) (hcoast : s.coast = false) :
    s.lapBeat eng = { s.put pgHub Reg.HUB_LAP_STAT_MISSED 0 with
      key := { s.key with windowAt := s.time, loadAt := none, restartMask := 0, bridgeFails := 0 } } := by
  have hcounts : (!s.ready || !s.awake || !(eng == 16 * s.baton || eng == 16 * s.baton + 1) || !s.pairRuns s.baton) = false := by
    have hnames : (eng == 16 * s.baton || eng == 16 * s.baton + 1) = true := by simpa only [Bool.or_eq_true, beq_iff_eq] using hpair
    rw [hready, hawake, hrun, hnames]
    rfl
  have hnocoast : (s.put pgHub Reg.HUB_LAP_STAT_MISSED 0).coast = false := (coast_put_missed s 0).trans hcoast
  rw [State.lapBeat, hcounts, if_neg Bool.false_ne_true]
  exact if_neg (fun h => Bool.false_ne_true (hnocoast.symm.trans h))

/-- A window that ends without a beat, while the timer runs. -/
theorem execLapWindowEnd_eq_of_due {s : State} (hon : s.engOn = true) (hrun : s.pwr.state = 0) (hload : s.key.loadAt = none)
    (hdue : s.key.windowAt + 1000000 * (s.fld pgHub Reg.HUB_LAP_STAT_MISSED + 1) ≤ s.time) :
    execLapWindowEnd s =
      if s.fld pgHub Reg.HUB_LAP_STAT_MISSED < 2 then
        .next (s.put pgHub Reg.HUB_LAP_STAT_MISSED (s.fld pgHub Reg.HUB_LAP_STAT_MISSED + 1))
      else .next ((s.put pgHub Reg.HUB_LAP_STAT_MISSED 3).passBaton 0) := by
  rw [execLapWindowEnd, if_neg (by simp [hon, hrun, hload, hdue])]

/-- A restart in coast that names a cluster goes by its signature (R319). -/
theorem writeRestart_eq_of_coast {s : State} {mask k : Nat} {r : List Nat} (sigOk : Bool) (hmcs : mcsOf mask = k :: r)
    (hcoast : s.coast = true) (hready : s.ready = true) (hawake : s.awake = true) :
    let s1 := s.put pgHub Reg.HUB_LAP_CTL_FENCED (maskOf 4 (fun k => s.fencedMcs.testBit k && !mask.testBit k))
    let s2 := ((engsOf mask).filter (fun e => !(s1.eng e).fenced)).foldl (fun (s : State) (e : Nat) =>
      s.setEng e { (s.eng e) with running := true, loading := false, halt := false, misses := 0, mask := 2 ^ 64 - 1 }) s1
    s.writeRestart mask sigOk = if sigOk then { s2.takeBaton k with key := { s2.key with loadAt := some s2.time, restartMask := mask } }
      else s.restartFail mask := by
  cases sigOk <;> simp only [State.writeRestart, hmcs, hcoast, hready, hawake, Bool.not_true, Bool.or_self, Bool.false_eq_true,
    if_false, Bool.not_false, if_true]

/-- Settles O32: each command by the branch of its definition that the clause names. -/
theorem keystoneComplete : Obligations.KeystoneComplete := by
  unfold Obligations.KeystoneComplete
  refine ⟨?hubLapBeat, ?lapWindowEnd, ?lapWindowEnd_third, ?lockstepMismatch, ?pass, ?bridgeTimeout, ?bridgeTimeout_third,
    ?restart, ?restart_badSignature, ?restartBeatTimeout⟩
  case hubLapBeat =>
    intro eng s s0 hready hawake hpair hrun hcoast
    rw [exec_hubLapBeat_eq, execHubLapBeat, lapBeat_eq_of_pair hready hawake hpair hrun hcoast]
  case lapWindowEnd =>
    intro s m hon hrun hload hdue hm
    rw [exec_lapWindowEnd_eq, execLapWindowEnd_eq_of_due hon hrun hload hdue, if_pos hm]
  case lapWindowEnd_third =>
    intro s m hon hrun hload hdue hm
    rw [exec_lapWindowEnd_eq, execLapWindowEnd_eq_of_due hon hrun hload hdue, if_neg (Nat.not_lt.mpr hm)]
  case lockstepMismatch =>
    intro s hon
    rw [exec_lockstepMismatch_eq, execLockstepMismatch, if_pos hon]
  case pass =>
    intro s hon
    exact congrArg _ (if_pos hon)
  case bridgeTimeout =>
    intro s hon hfails
    rw [exec_bridgeTimeout_eq, execBridgeTimeout, if_neg (by simp [hon]), if_neg (Nat.not_le.mpr hfails)]
  case bridgeTimeout_third =>
    intro s hon hfails
    rw [exec_bridgeTimeout_eq, execBridgeTimeout, if_neg (by simp [hon]), if_pos hfails]
  case restart =>
    intro mask k r s s1 s2 hmcs hcoast hready hawake
    rw [exec_restart_eq, execRestart, writeRestart_eq_of_coast true hmcs hcoast hready hawake, if_pos rfl]
  case restart_badSignature =>
    intro mask k r s hmcs hcoast hready hawake
    rw [exec_restart_eq, execRestart, writeRestart_eq_of_coast false hmcs hcoast hready hawake, if_neg Bool.false_ne_true]
  case restartBeatTimeout =>
    intro e s hload hdue hready hawake hcoast
    simp only [exec_restartBeatTimeout_eq, execRestartBeatTimeout, hload, decide_eq_false (Nat.not_lt.mpr hdue), hready, hawake,
      hcoast, Bool.not_true, Bool.or_self, Bool.false_eq_true, if_false, if_true]

end Sys2Proof.Machine

/-! Thermal throttling, the alert holdoff, the fault journal and the readers of the event system (R325, R331 to R336, R408, R409,
R433): the settling of O34 and O35. -/

namespace Sys2Proof.Machine

section
variable (page : BitVec 8) (s : State)

theorem exec_thermalThrottle_eq (t : BitVec 8) : exec (.thermalThrottle t) s = execThermalThrottle t s := rfl
theorem exec_alertHoldoffEnd_eq : exec .alertHoldoffEnd s = execAlertHoldoffEnd s := rfl
theorem exec_journalWrite_eq : exec .journalWrite s = execJournalWrite s := rfl
theorem exec_journalTokenRefill_eq (second : Bool) : exec (.journalTokenRefill second) s = execJournalTokenRefill second s := rfl
theorem exec_evtForce_eq (v : BitVec 32) : exec (.evtForce page v) s = execEvtForce page v s := rfl
theorem exec_capRearm_eq : exec (.capRearm page) s = execCapRearm page s := rfl
theorem exec_ringTailWrite_eq (ring : Ring) (tail : BitVec 13) : exec (.ringTailWrite ring tail) s = execRingTailWrite ring tail s := rfl
end

/-! ### Heat, alerts and the journal (R325, R331 to R334) -/

/-- 10 ms after the last one, a thermal value that differs after at least 2 °C is applied (R325). -/
theorem execThermalThrottle_eq_of_change {t : BitVec 8} {s : State} (hon : s.engOn = true) (hdue : s.thermAt + 10000000 ≤ s.time)
    (hvalue : s.thermValue t.toNat ≠ s.therm.1) (hfar : s.therm.2 + 2 ≤ t.toNat ∨ t.toNat + 2 ≤ s.therm.2) :
    execThermalThrottle t s =
      .next ((List.range 16).foldl (fun (s : State) (n : Nat) =>
        s.put (pgPier n) Reg.PIER_DCTL_THROTTLE (max (SMap.getD s.vdtThr n 0) s.therm.1))
        ({ s with thermAt := s.time, therm := (s.thermValue t.toNat, t.toNat) } : State)) := by
  have hchange : (s.thermValue t.toNat != s.therm.1 && decide (s.therm.2 + 2 ≤ t.toNat ∨ t.toNat + 2 ≤ s.therm.2)) = true := by
    rw [decide_eq_true hfar, Bool.and_true]
    exact bne_iff_ne.mpr hvalue
  rw [execThermalThrottle, if_neg (by simp [hon, hdue])]
  exact congrArg (fun u : State => Host.Outcome.next ((List.range 16).foldl (fun (s : State) (n : Nat) =>
    s.put (pgPier n) Reg.PIER_DCTL_THROTTLE (max (SMap.getD s.vdtThr n 0) s.therm.1)) u)) (if_pos hchange)

/-- The end of a holdoff starts a new one where alerts came meanwhile (R331). -/
theorem execAlertHoldoffEnd_eq_of_due {s : State} {a : Nat} (hat : s.alertAt = some a) (hdue : a + 10000000 ≤ s.time) :
    execAlertHoldoffEnd s =
      if s.flag pgHub Reg.HUB_EVT_ALERT_PEND then
        .next (({ s with alertAt := some s.time, alerts := s.alerts + 1 } : State).put pgHub Reg.HUB_EVT_ALERT_PEND 0)
      else .next { s with alertAt := none } := by
  simp only [execAlertHoldoffEnd, hat, if_neg (Nat.not_lt.mpr hdue)]

/-- A checked commit into the open sector that passes the hold-up check needs no erase (R333, R334). -/
theorem jnlCommit_eq_of_open {s : State} {r : Record} {l : List Record} (hbuf : s.jnl.buf = r :: l) (hlo : 0 < s.jnl.slot)
    (hhi : s.jnl.slot < 128) (hhold : s.holdPass 0 = true) :
    s.jnlCommit true = (s.put pgHub Reg.HUB_JNL_DEFERRED 0).jnlPut r := by
  have hopen : (decide (s.jnl.slot = 0) || decide (128 ≤ s.jnl.slot)) = false := by
    rw [decide_eq_false (by omega), decide_eq_false (by omega)]
    rfl
  simp only [State.jnlCommit, hbuf, hopen, hhold, Bool.false_and, Bool.not_true, Bool.or_self, Bool.and_false, Bool.false_eq_true,
    if_false]

/-- A record programmed at the writer's slot leaves the buffer; what DEFERRED reads bears on neither (R333). -/
theorem jnlPut_put_eq {s : State} {r : Record} {l : List Record} (pg v : Nat) (f : Fld) (hbuf : s.jnl.buf = r :: l) :
    (s.put pg f v).jnlPut r = { s.put pg f v with
      flash := Memory.program s.flash (jnlSector s.jnl.sector + 32 * s.jnl.slot) (leBytes 32 r.pack),
      jnl := { s.jnl with slot := s.jnl.slot + 1, buf := l } } := by
  have htail : s.jnl.buf.drop 1 = l := by rw [hbuf, List.drop_one, List.tail_cons]
  simp only [State.jnlPut, State.flashPut, State.put, htail]

/-- Settles O34: each command by the branch of its definition that the clause names. -/
theorem heatThrottleAndJournalComplete : Obligations.HeatThrottleAndJournalComplete := by
  unfold Obligations.HeatThrottleAndJournalComplete
  refine ⟨?thermalThrottle, ?alertHoldoffEnd, ?alertHoldoffEnd_quiet, ?journalWrite, ?journalTokenRefill,
    ?journalTokenRefill_second⟩
  case thermalThrottle =>
    intro t s s1 hon hdue hvalue hfar
    rw [exec_thermalThrottle_eq, execThermalThrottle_eq_of_change hon hdue hvalue hfar]
  case alertHoldoffEnd =>
    intro a s hat hdue hpend
    rw [exec_alertHoldoffEnd_eq, execAlertHoldoffEnd_eq_of_due hat hdue, if_pos hpend]
  case alertHoldoffEnd_quiet =>
    intro a s hat hdue hquiet
    rw [exec_alertHoldoffEnd_eq, execAlertHoldoffEnd_eq_of_due hat hdue, hquiet, if_neg Bool.false_ne_true]
  case journalWrite =>
    intro r l s s1 a hready hawake hbuf hlo hhi hhold
    rw [exec_journalWrite_eq, execJournalWrite, hready, hawake, if_pos (by decide), jnlCommit_eq_of_open hbuf hlo hhi hhold,
      jnlPut_put_eq _ _ _ hbuf]
  case journalTokenRefill =>
    intro s hdue
    exact congrArg _ (if_neg (Nat.not_lt.mpr hdue))
  case journalTokenRefill_second =>
    intro s hdue
    exact congrArg _ (if_neg (Nat.not_lt.mpr hdue))

/-! ### Event registers and ring tails (R336, R408, R409, R433) -/

/-- GO with an index of the page and a known kind raises the record (R409). -/
theorem writeForce_eq_of_go {s : State} {pg v src : Nat} (hsrc : (pageSources pg)[bits v 16 5]? = some src)
    (hgo : v.testBit 31 = true) (hkind : kindKnown (bits v 0 16) = true) :
    s.writeForce pg v = (((s.put pg Reg.EVT_FORCE_KIND (bits v 0 16)).put pg Reg.EVT_FORCE_INDEX (bits v 16 5)).put pg
      Reg.EVT_FORCE_SEV (bits v 21 2)).raise src (bits v 0 16) (bits v 21 2) none 0 (2 ^ 64 - 1) := by
  simp only [State.writeForce, hsrc, hgo, hkind, Bool.and_self, if_true]

/-- Settles O35: each command by the branch of its definition that the clause names. -/
theorem eventReadersComplete : Obligations.EventReadersComplete := by
  unfold Obligations.EventReadersComplete
  refine ⟨?evtForce, ?capRearm, ?evtMissedClear, ?ringTailWrite_manager, ?ringTailWrite_fault, ?ringTailWrite_samples⟩
  case evtForce =>
    intro page v src s pg s1 hsrc hopen hgo hkind
    have hpage : ¬ (pageSources page.toNat).isEmpty = true := by
      intro hempty
      rw [List.isEmpty_iff.mp hempty] at hsrc
      exact absurd hsrc (by simp)
    rw [exec_evtForce_eq, execEvtForce, if_neg hpage, State.atPage_of_open _ hopen, writeForce_eq_of_go hsrc hgo hkind]
  case capRearm =>
    intro page s hpage hopen
    rw [exec_capRearm_eq, execCapRearm, if_neg (mt List.isEmpty_iff.mp hpage), State.atPage_of_open _ hopen]
    rfl
  case evtMissedClear =>
    intro s i
    rfl
  case ringTailWrite_manager =>
    intro tail n s htakes
    simp only [exec_ringTailWrite_eq, execRingTailWrite, State.managerTail, htakes]
  case ringTailWrite_fault =>
    intro p ld vi tail n s v hpage htakes
    simp only [v] at htakes
    simp only [exec_ringTailWrite_eq, execRingTailWrite, hpage, if_true, State.faultTail, htakes, v]
  case ringTailWrite_samples =>
    intro m tail k s pg hopen htakes
    simp only [pg] at htakes
    simp only [exec_ringTailWrite_eq, execRingTailWrite, State.atPage_of_open _ hopen, State.sampleTail, htakes, pg]

end Sys2Proof.Machine

/-! The clock root and the gate tree (R356 to R369): the settling of O37 and O38. -/

namespace Sys2Proof.Machine

section
variable (p : Fin 8) (s : State)

theorem exec_refclkAbsent_eq : exec (.refclkAbsent p) s = execRefclkAbsent p s := rfl
theorem exec_candidateWindow_eq (count : BitVec 20) : exec (.candidateWindow p count) s = execCandidateWindow p count s := rfl
theorem exec_rootSel_eq : exec (.rootSel p) s = execRootSel p s := rfl
theorem exec_arm_eq : exec (.arm p) s = execArm p s := rfl
theorem exec_relockDone_eq : exec .relockDone s = execRelockDone s := rfl
theorem exec_rootReturn_eq (inRange : Bool) : exec (.rootReturn inRange) s = execRootReturn inRange s := rfl
theorem exec_holdoverEnd_eq : exec .holdoverEnd s = execHoldoverEnd s := rfl
theorem exec_gateClose_eq : exec .gateClose s = execGateClose s := rfl
theorem exec_gateOpen_eq : exec .gateOpen s = execGateOpen s := rfl
theorem exec_gatePendingDone_eq : exec .gatePendingDone s = execGatePendingDone s := rfl
theorem exec_gateBusy_eq : exec .gateBusy s = execGateBusy s := rfl
end

/-! ### The root (R357 to R362) -/

/-- A candidate present under a running clock is measured against its reference, and judged by its window (R357). -/
theorem execCandidateWindow_eq_of_measured {p : Fin 8} {r : Nat} {s : State} (count : BitVec 20) (hclocked : s.clocked = true)
    (hpresent : s.candPresent p.val = true) (href : s.refFor p.val = some r) :
    let s1 := (s.put pgClk (Reg.CLK_CAND_PPM p.val) (ppmField count.toNat)).put pgClk (Reg.CLK_CAND_REF p.val) r
    let n := min 3 (s1.fld pgClk (Reg.CLK_CAND_RUN p.val) + 1)
    let s2 := s1.put pgClk (Reg.CLK_CAND_RUN p.val) n
    execCandidateWindow p count s =
      if 99940 ≤ count.toNat ∧ count.toNat ≤ 100060 then
        .next (if n = 3 && !s2.unqualified then
          s2.put pgClk Reg.CLK_ROOT_STAT_READY (setBit (s2.fld pgClk Reg.CLK_ROOT_STAT_READY) p.val) else s2)
      else .next (s1.unready p.val) := by
  simp only [execCandidateWindow, hclocked, hpresent, href, Bool.not_true, Bool.or_self, Bool.false_eq_true, if_false]

/-- A switch to a READY candidate that nothing stands against (R359). -/
theorem writeRootSel_eq_of_ready {s : State} {k : Nat} (hother : k ≠ s.root) (hready : s.candReady k = true)
    (hswitch : s.clk.switching = false) (hhold : s.flag pgClk Reg.CLK_ROOT_STAT_HOLDOVER = false) (htrans : s.pwr.trans = 0) :
    s.writeRootSel k =
      (((if s.armed && s.backup == k then s.putArmed false else s).setRoot k).put pgClk Reg.CLK_ROOT_CNT_SWITCHES
        (min 0xFFFF (s.fld pgClk Reg.CLK_ROOT_CNT_SWITCHES + 1))).raise 456 0x900 INFO none 0 0 := by
  rw [State.writeRootSel, if_neg hother, if_neg (by simp [hready, hswitch, hhold, htrans])]

/-- ARM of a READY candidate other than the root (R360). -/
theorem writeArm_eq_of_ready {s : State} {k : Nat} (hready : (s.put pgClk Reg.CLK_ROOT_CTL_BACKUP k).candReady k = true)
    (hother : k ≠ (s.put pgClk Reg.CLK_ROOT_CTL_BACKUP k).root) (htrans : s.pwr.trans = 0) :
    s.writeArm k true = (s.put pgClk Reg.CLK_ROOT_CTL_BACKUP k).putArmed true := by
  rw [State.writeArm, if_neg (by decide), if_neg (by simp [hready, hother, htrans])]

/-- A holdover that has lasted 1 ms, with no transition under way. -/
theorem holdoverEnd_due {s : State} {e : Nat} (hdue : e + 1000000 ≤ s.time) (htrans : s.pwr.trans = 0)
    (hloss : s.pwr.rootLoss = false) : (decide (s.time < e + 1000000) || s.pwr.trans != 0 || s.pwr.rootLoss) = false := by
  rw [decide_eq_false (Nat.not_lt.mpr hdue), htrans, hloss]
  rfl

/-- Settles O37: each command by the branch of its definition that the clause names. -/
theorem clockRootComplete : Obligations.ClockRootComplete := by
  unfold Obligations.ClockRootComplete
  refine ⟨?refclkAbsent, ?refclkPresent, ?candidateWindow, ?candidateWindow_ready, ?candidateWindow_out, ?rootSel, ?arm,
    ?relockDone, ?rootReturn, ?holdoverEnd, ?holdoverEnd_none⟩
  case refclkAbsent =>
    intro p s hpresent
    rw [exec_refclkAbsent_eq, execRefclkAbsent, if_pos hpresent]
  case refclkPresent =>
    intro p s
    rfl
  case candidateWindow =>
    intro p count r s s1 hclocked hpresent href hlo hhi hrun
    have hnot : ¬ (decide (min 3 (s1.fld pgClk (Reg.CLK_CAND_RUN p.val) + 1) = 3) &&
        !(s1.put pgClk (Reg.CLK_CAND_RUN p.val) (min 3 (s1.fld pgClk (Reg.CLK_CAND_RUN p.val) + 1))).unqualified) = true := by
      rw [decide_eq_false (Nat.ne_of_lt hrun)]
      exact Bool.false_ne_true
    rw [exec_candidateWindow_eq, execCandidateWindow_eq_of_measured count hclocked hpresent href, if_pos ⟨hlo, hhi⟩, if_neg hnot]
  case candidateWindow_ready =>
    intro p count r s s1 s2 hclocked hpresent href hlo hhi hrun hqualified
    have hthree : min 3 (s1.fld pgClk (Reg.CLK_CAND_RUN p.val) + 1) = 3 := by omega
    rw [exec_candidateWindow_eq, execCandidateWindow_eq_of_measured count hclocked hpresent href, if_pos ⟨hlo, hhi⟩, hthree,
      if_pos (by rw [hqualified]; rfl)]
  case candidateWindow_out =>
    intro p count r s s1 hclocked hpresent href hout
    rw [exec_candidateWindow_eq, execCandidateWindow_eq_of_measured count hclocked hpresent href, if_neg (by omega)]
  case rootSel =>
    intro p s s1 hother hready hswitch hhold htrans
    rw [exec_rootSel_eq, execRootSel, writeRootSel_eq_of_ready hother hready hswitch hhold htrans]
  case arm =>
    intro p s s1 hready hother htrans
    rw [exec_arm_eq, execArm, writeArm_eq_of_ready hready hother htrans]
  case relockDone =>
    intro s hswitch
    rw [exec_relockDone_eq, execRelockDone, if_pos hswitch]
  case rootReturn =>
    intro e s hsince hpresent hearly
    simp only [exec_rootReturn_eq, execRootReturn, hsince, hpresent, decide_eq_true hearly, Bool.and_self, if_true]
  case holdoverEnd =>
    intro e k s hsince hdue htrans hloss hnext
    simp only [exec_holdoverEnd_eq, execHoldoverEnd, hsince, holdoverEnd_due hdue htrans hloss, Bool.false_eq_true, if_false, hnext]
  case holdoverEnd_none =>
    intro e s s1 hsince hdue htrans hloss hawake hnext
    simp only [exec_holdoverEnd_eq, execHoldoverEnd, hsince, holdoverEnd_due hdue htrans hloss, Bool.false_eq_true, if_false, hnext,
      if_neg hawake, s1]

/-! ### Gates (R367, R368) -/

/-- CLOSE of an open node that nothing keeps open: at once, or once its block is idle. -/
theorem writeClose_eq_of_leaf {s : State} (hpend : s.clk.pendNode = none) (hroot : s.gateNode ≠ 0) (hnode : s.gateNode ≤ 136)
    (hopen : s.gateShut s.gateNode = false) (hleaf : s.childOpen s.gateNode = false)
    (hhalted : ¬(73 ≤ s.gateNode ∧ (s.eng (s.gateNode - 73)).running = true)) :
    s.writeClose = if s.nodeBusy s.gateNode then { s with clk := { s.clk with pendNode := some (s.gateNode, s.time) } }
      else s.shutNode s.gateNode := by
  rw [State.writeClose, hpend, if_neg (by decide), if_neg hroot, hopen, if_neg (by simp; omega), hleaf, if_neg (by decide),
    if_neg hhalted]

/-- OPEN of a closed node under an open parent. -/
theorem writeOpen_eq_of_shut {s : State} (hpend : s.clk.pendNode = none) (hnode : s.gateNode ≤ 136)
    (hshut : s.gateShut s.gateNode = true) (hparent : s.gateShut (gateParent s.gateNode) = false) :
    let n := s.gateNode
    let s1 := { s with clk := { s.clk with closed := s.clk.closed.filter (fun m => m != n) } }
    s.writeOpen = if 9 ≤ n ∧ n ≤ 16 then s1.settle (n - 9) else if 65 ≤ n ∧ n ≤ 72 then s1.settle (n - 65) else s1 := by
  rw [State.writeOpen, hpend, if_neg (by decide), hshut, if_neg (by simp; omega), hparent, if_neg (by decide)]

/-- Settles O38: each command by the branch of its definition that the clause names. -/
theorem gatesComplete : Obligations.GatesComplete := by
  unfold Obligations.GatesComplete
  refine ⟨?gateClose, ?gateClose_busy, ?gateOpen, ?gatePendingDone, ?gateBusy⟩
  case gateClose =>
    intro s n hpend hroot hnode hopen hleaf hhalted hidle
    rw [exec_gateClose_eq, execGateClose, writeClose_eq_of_leaf hpend hroot hnode hopen hleaf hhalted, hidle,
      if_neg Bool.false_ne_true]
    rfl
  case gateClose_busy =>
    intro s n hpend hroot hnode hopen hleaf hhalted hbusy
    rw [exec_gateClose_eq, execGateClose, writeClose_eq_of_leaf hpend hroot hnode hopen hleaf hhalted, if_pos hbusy]
  case gateOpen =>
    intro s n s1 hpend hnode hshut hparent
    rw [exec_gateOpen_eq, execGateOpen, writeOpen_eq_of_shut hpend hnode hshut hparent]
  case gatePendingDone =>
    intro n e s hpend hidle
    simp only [exec_gatePendingDone_eq, execGatePendingDone, hpend, hidle, Bool.false_eq_true, if_false, State.shutNode]
  case gateBusy =>
    intro n e s s1 hpend hdue hbusy
    simp only [exec_gateBusy_eq, execGateBusy, hpend, hbusy, decide_eq_false (Nat.not_lt.mpr hdue), Bool.not_true, Bool.or_self,
      Bool.false_eq_true, if_false, s1]

end Sys2Proof.Machine

/-! Power states, the Off state save, the rails and the resets (R358, R370 to R382, R395, R396, R420 to R422, R427): the settling
of O39 and O41. -/

namespace Sys2Proof.Machine

section
variable (s : State)

theorem exec_sleepRequest_eq : exec .sleepRequest s = .next (s.pwrReq 2) := rfl
theorem exec_deepSleepRequest_eq : exec .deepSleepRequest s = .next (s.pwrReq 3) := rfl
theorem exec_offRequest_eq : exec .offRequest s = .next (s.pwrReq 4) := rfl
theorem exec_prepDone_eq : exec .prepDone s = execPrepDone s := rfl
theorem exec_entryDone_eq : exec .entryDone s = execEntryDone s := rfl
theorem exec_offStateSave_eq : exec .offStateSave s = execOffStateSave s := rfl
theorem exec_vholdSample_eq (mv : BitVec 10) : exec (.vholdSample mv) s = execVholdSample mv s := rfl
theorem exec_idleEntry_eq : exec .idleEntry s = execIdleEntry s := rfl
theorem exec_railFault_eq : exec .railFault s = execRailFault s := rfl
theorem exec_railRestart_eq : exec .railRestart s = execRailRestart s := rfl
theorem exec_thermtrip_eq (t : BitVec 8) : exec (.thermtrip t) s = execThermtrip t s := rfl
theorem exec_vddAonUp_eq (addrSel : Fin 4) : exec (.vddAonUp addrSel) s = execVddAonUp addrSel s := rfl
theorem exec_sysResetN_eq : exec .sysResetN s = execSysResetN s := rfl
theorem exec_cold_eq : exec .cold s = .next s.writeCold := rfl
theorem exec_warm_eq : exec .warm s = execWarm s := rfl
theorem exec_railsConfirmed_eq : exec .railsConfirmed s = execRailsConfirmed s := rfl
theorem exec_warmResetDone_eq : exec .warmResetDone s = execWarmResetDone s := rfl
end

/-! ### Requests, entry and the Off save (R371 to R376, R381) -/

section
variable {s : State}

/-- A request for another state that nothing refuses leaves Idle and starts the preparation (R371). -/
theorem pwrReq_eq_of_accepted {target : Nat} (hready : s.ready = true) (hother : ¬(s.pwr.trans = 0 ∧ s.pwr.state = target))
    (haccept : s.pwrRefusal target = none) : s.pwrReq target = s.leaveIdle.startPrep target := by
  have hgo : ¬(!s.ready || (decide (s.pwr.trans = 0) && decide (s.pwr.state = target))) = true := by
    simp only [hready, Bool.not_true, Bool.false_or, Bool.and_eq_true, decide_eq_true_eq]
    exact hother
  simp only [State.pwrReq, if_neg hgo, haccept]

/-- A block that is quiet at its entry goes to the target (R374 to R376). -/
theorem execEntryDone_eq_of_quiet (htrans : s.pwr.trans = 2) (hquiet : s.quiet = true) (hlinks : s.linksIdle = true) :
    execEntryDone s =
      if s.pwr.target = 2 then .next (s.selfRefresh.enterState 2)
      else if s.pwr.target = 3 then .next (s.deepLoss.enterState 3)
      else if s.saveDue then .next s
      else
        let wake := s.pwr.wake.isSome
        let s := s.raise 458 0x907 INFO none 0 0
        let s := s.unpowered { State.reset.pwr with state := 4, addrSel := s.pwr.addrSel, failedStarts := s.pwr.failedStarts }
        .next (if wake then s.coldBoot else s) := by
  rw [execEntryDone, if_neg (by simp [htrans, hquiet, hlinks])]

/-- Where no record and no Off save waits on its hold-up check, a sample defers nothing (R381). -/
theorem holdChecks_eq_of_none {u : State} (hbuf : u.jnl.buf = []) (hsave : u.saveDue = false) :
    (let s := if u.jnl.buf.isEmpty || u.holdPass 0 then u else u.jnlDefer
     if s.saveDue && !s.holdPass 2 then s.deferSave else s) = u := by
  have hnone : (if u.jnl.buf.isEmpty || u.holdPass 0 then u else u.jnlDefer) = u := if_pos (by rw [hbuf]; rfl)
  simp only [hnone, hsave, Bool.false_and, Bool.false_eq_true, if_false]

theorem execIdleEntry_eq_of_idle (hready : s.ready = true) (hstate : s.pwr.state = 0) (htrans : s.pwr.trans = 0)
    (hwarm : s.pwr.warm = false) (henabled : s.flag pgPwr Reg.PWR_CTL_IDLE_EN = true) (hquiet : s.idleQuiet = true) :
    execIdleEntry s =
      .next ((({ s.selfRefresh with pwr := { s.pwr with state := 1 } } : State).put pgPwr Reg.PWR_STAT_STATE 1).bump pgPwr
        Reg.PWR_IDLE_CNT_COUNT Reg.PWR_IDLE_CNT_SAT 1) := by
  rw [execIdleEntry, if_neg (by simp [hready, hstate, htrans, hwarm, henabled, hquiet])]
end

/-- Settles O39: each command by the branch of its definition that the clause names. -/
theorem powerEntryComplete : Obligations.PowerEntryComplete := by
  unfold Obligations.PowerEntryComplete
  refine ⟨?sleepRequest, ?deepSleepRequest, ?offRequest, ?prepDone, ?entryDone_sleep, ?entryDone_deep, ?entryDone_off,
    ?offStateSave, ?skipSave, ?vholdSample, ?idleEntry, ?idleExit⟩
  case sleepRequest =>
    intro s hready hother haccept
    rw [exec_sleepRequest_eq, pwrReq_eq_of_accepted hready hother haccept]
  case deepSleepRequest =>
    intro s hready hother haccept
    rw [exec_deepSleepRequest_eq, pwrReq_eq_of_accepted hready hother haccept]
  case offRequest =>
    intro s hready hother haccept
    rw [exec_offRequest_eq, pwrReq_eq_of_accepted hready hother haccept]
  case prepDone =>
    intro s htrans hprepared
    rw [exec_prepDone_eq, execPrepDone, if_neg (by simp [htrans, hprepared])]
  case entryDone_sleep =>
    intro s htrans hquiet hlinks htarget
    rw [exec_entryDone_eq, execEntryDone_eq_of_quiet htrans hquiet hlinks, if_pos htarget]
  case entryDone_deep =>
    intro s htrans hquiet hlinks htarget
    rw [exec_entryDone_eq, execEntryDone_eq_of_quiet htrans hquiet hlinks, if_neg (by omega), if_pos htarget]
  case entryDone_off =>
    intro s s1 htrans hquiet hlinks htarget hsaved hwake
    rw [exec_entryDone_eq, execEntryDone_eq_of_quiet htrans hquiet hlinks, if_neg (by omega), if_neg (by omega), hsaved,
      if_neg Bool.false_ne_true, hwake]
    exact congrArg _ (if_neg Bool.false_ne_true)
  case offStateSave =>
    intro s hdue hpass
    rw [exec_offStateSave_eq, execOffStateSave, if_neg (by simp [hdue]), if_pos hpass]
  case skipSave =>
    intro s
    rfl
  case vholdSample =>
    intro mv s e s1 s2 hrails hstate hbuf hsave
    rw [exec_vholdSample_eq, execVholdSample, if_neg (by simp [hrails]; omega)]
    exact congrArg _ (holdChecks_eq_of_none hbuf hsave)
  case idleEntry =>
    intro s s1 hready hstate htrans hwarm henabled hquiet
    rw [exec_idleEntry_eq, execIdleEntry_eq_of_idle hready hstate htrans hwarm henabled hquiet]
  case idleExit =>
    intro s
    rfl

/-! ### Rails and resets (R395, R396, R420 to R422, R427) -/

/-- Settles O41: each command by the branch of its definition that the clause names. -/
theorem railsAndResetsComplete : Obligations.RailsAndResetsComplete := by
  unfold Obligations.RailsAndResetsComplete
  refine ⟨?railFault, ?railRestart, ?thermtrip, ?vddAonUp, ?vddAonOff, ?sysResetN, ?cold, ?warm, ?railsConfirmed, ?warmResetDone⟩
  case railFault =>
    intro s n hmem
    rw [exec_railFault_eq, execRailFault, if_neg (by simp [hmem])]
  case railRestart =>
    intro s hwait
    rw [exec_railRestart_eq, execRailRestart, if_pos hwait]
  case thermtrip =>
    intro t s hrails hmain htrip
    rw [exec_thermtrip_eq, execThermtrip, if_neg (by simp [hrails, hmain, htrip])]
  case vddAonUp =>
    intro addrSel s hoff
    rw [exec_vddAonUp_eq, execVddAonUp, if_neg (by simp [hoff])]
  case vddAonOff =>
    intro s
    rfl
  case sysResetN =>
    intro s haon
    rw [exec_sysResetN_eq, execSysResetN, if_pos haon]
  case cold =>
    intro s hrails hawake
    rw [exec_cold_eq, State.writeCold, if_pos (by simp [hrails, hawake])]
  case warm =>
    intro s hrails hawake
    rw [exec_warm_eq, execWarm, if_pos (by simp [hrails, hawake])]
  case railsConfirmed =>
    intro k s haon hrails hmem hmain hroot
    simp only [exec_railsConfirmed_eq, execRailsConfirmed, haon, hrails, hmem, hmain, Bool.not_true, Bool.or_self,
      Bool.false_eq_true, if_false, hroot]
  case warmResetDone =>
    intro s hwarm hquiet hprepared hlinks hanswered
    rw [exec_warmResetDone_eq, execWarmResetDone, hwarm, hquiet, hprepared, hlinks, hanswered, if_neg (by decide)]

end Sys2Proof.Machine

/-! Fenbo's request frames and responses (R403 to R405): the settling of O43. -/

namespace Sys2Proof.Machine

section
variable (f : List (BitVec 8)) (s : State)

theorem exec_fenboRd_eq : exec (.fenboRd f) s = fenboRow 1 f s := rfl
theorem exec_fenboWr_eq : exec (.fenboWr f) s = fenboRow 2 f s := rfl
theorem exec_spiRd_eq : exec (.spiRd f) s = fenboRow 3 f s := rfl
theorem exec_spiProg_eq : exec (.spiProg f) s = fenboRow 4 f s := rfl
theorem exec_spiErase_eq : exec (.spiErase f) s = fenboRow 5 f s := rfl
theorem exec_fenboStatus_eq : exec (.fenboStatus f) s = fenboRow 6 f s := rfl
theorem exec_badOp_eq : exec (.badOp f) s = execBadOp f s := rfl
theorem exec_fenboOpDone_eq (flashOk : Bool) : exec (.fenboOpDone flashOk) s = execFenboOpDone flashOk s := rfl
theorem exec_fenboResponse_eq : exec .fenboResponse s = execFenboResponse s := rfl
end

section
variable {s : State}

/-- With the sideband up and no request running, a frame becomes the running request, and the response before it is gone (R404). -/
theorem fenboTake_eq_of_free (f : List Nat) (hup : s.fenboUp = true) (hfree : s.fenbo.run = none) :
    s.fenboTake f = { s with fenbo := { s.fenbo with run := some f, rsp := none } } := by
  rw [State.fenboTake, hup, hfree, if_neg (by decide)]

/-- A row takes a frame of its OP. -/
theorem fenboRow_eq_of_op {op : Nat} {f : List (BitVec 8)} (hlen : frameLenOk f = true) (hop : frameOp (f.map BitVec.toNat) = op)
    (hup : s.fenboUp = true) (hfree : s.fenbo.run = none) :
    fenboRow op f s = .next { s with fenbo := { s.fenbo with run := some (f.map BitVec.toNat), rsp := none } } := by
  rw [← fenboTake_eq_of_free _ hup hfree, fenboRow, hlen, if_neg (by decide)]
  exact congrArg _ (if_pos hop)

/-- A frame of no legal OP or length is taken too, to be answered with its error. -/
theorem execBadOp_eq_of_bad {f : List (BitVec 8)} (hlen : frameLenOk f = true) (hbad : frameOk (f.map BitVec.toNat) = false)
    (hup : s.fenboUp = true) (hfree : s.fenbo.run = none) :
    execBadOp f s = .next { s with fenbo := { s.fenbo with run := some (f.map BitVec.toNat), rsp := none } } := by
  rw [execBadOp, hlen, if_neg (by decide), hbad, if_neg Bool.false_ne_true, fenboTake_eq_of_free _ hup hfree]
end

/-- Settles O43: the six rows take their frames alike; the request's end and its response by the branch that the clause names. -/
theorem sidebandComplete : Obligations.SidebandComplete := by
  unfold Obligations.SidebandComplete
  refine ⟨?fenboRd, ?fenboWr, ?spiRd, ?spiProg, ?spiErase, ?fenboStatus, ?badOp, ?fenboOpDone, ?fenboResponse,
    ?fenboResponse_busy⟩
  case fenboRd => exact fun f s hlen hop hup hfree => (exec_fenboRd_eq f s).trans (fenboRow_eq_of_op hlen hop hup hfree)
  case fenboWr => exact fun f s hlen hop hup hfree => (exec_fenboWr_eq f s).trans (fenboRow_eq_of_op hlen hop hup hfree)
  case spiRd => exact fun f s hlen hop hup hfree => (exec_spiRd_eq f s).trans (fenboRow_eq_of_op hlen hop hup hfree)
  case spiProg => exact fun f s hlen hop hup hfree => (exec_spiProg_eq f s).trans (fenboRow_eq_of_op hlen hop hup hfree)
  case spiErase => exact fun f s hlen hop hup hfree => (exec_spiErase_eq f s).trans (fenboRow_eq_of_op hlen hop hup hfree)
  case fenboStatus => exact fun f s hlen hop hup hfree => (exec_fenboStatus_eq f s).trans (fenboRow_eq_of_op hlen hop hup hfree)
  case badOp => exact fun f s hlen hbad hup hfree => (exec_badOp_eq f s).trans (execBadOp_eq_of_bad hlen hbad hup hfree)
  case fenboOpDone =>
    intro flashOk f s hrun hup
    simp only [exec_fenboOpDone_eq, execFenboOpDone, hrun, hup, if_true]
  case fenboResponse =>
    intro r s hup hfree hrsp
    simp only [exec_fenboResponse_eq, execFenboResponse, hup, Bool.not_true, Bool.false_eq_true, if_false, hfree, hrsp]
  case fenboResponse_busy =>
    intro f s hup hrun
    simp only [exec_fenboResponse_eq, execFenboResponse, hup, Bool.not_true, Bool.false_eq_true, if_false, hrun]

end Sys2Proof.Machine
